-- ==== Sys2Proof/Word.lean ====
section
/-!
DEFINITION. The word types of the VS-P9M and their plainest arithmetic (00_scope R4: little-endian, bit 0 least
significant, fields written [high:low]).
-/
namespace Sys2Proof

/-- One 32-bit register word (R9). -/
abbrev Word := BitVec 32
/-- A 64-bit value: a register pair, an address, a record field (R4). -/
abbrev DWord := BitVec 64
/-- One byte of memory. -/
abbrev Byte := BitVec 8
/-- A register number `v0` to `v63` (R9, R179). -/
abbrev RegNo := BitVec 6
/-- A predicate number `p0` to `p7` (R9). -/
abbrev PredNo := BitVec 3
/-- A tile name `t0` to `t15` (R60). -/
abbrev TileNo := BitVec 4

/-- The field [hi:lo] of a number, as a number (R4). -/
def fieldN (x hi lo : Nat) : Nat := x / 2 ^ lo % 2 ^ (hi + 1 - lo)

/-- Bit i of a number. -/
def bitN (x i : Nat) : Bool := x.testBit i

end Sys2Proof
end

