-- ==== Sys2Proof/Config.lean ====
section
/-!
DEFINITION. What the VS-P9M fixes (sizes and clocks of 00_scope R2 and of the chapters named) and the free values: constants
without a body, so that nothing proved can rest on the number they hold.
-/
namespace Sys2Proof.Config
open Sys2Proof

/-- Cores of the device (R2). -/
def numCores : Nat := 4096
/-- Thread slots of a core (R10). -/
def threadSlots : Nat := 256
/-- Cores of a cluster (R2). -/
def coresPerCluster : Nat := 16
/-- Entries of one lane bank (R36). -/
def laneBankSize : Nat := 1536
/-- Entries of one uniform bank (R36). -/
def uniformBankSize : Nat := 1024
/-- Spill-reserve entries of one lane bank (R50). -/
def spillReserve : Nat := 32
/-- Resident plots of a core (R25). -/
def maxPlots : Nat := 8
/-- Physical HBM bytes: 768 GiB (R2, R356). -/
def hbmBytes : Nat := 768 * 2 ^ 30
/-- Host memory starts here: PA[47] = 1 (R356). -/
def hostBase : Nat := 2 ^ 47
/-- Lines of one of the 32 L2 slices of a die: 3 MiB (R2). -/
def l2SliceLines : Nat := 24576
/-- Entries of a cluster's walk cache (R359). -/
def walkPtrs : Nat := 512
/-- MSHRs of a core (R70). -/
def mshrs : Nat := 64
/-- Dirty-line FIFO entries of a core (R81). -/
def dirtyFifo : Nat := 256
/-- Deposit queue entries of a core (R58). -/
def depositSlots : Nat := 16
/-- Spawn and join bins of a core (R22, R29). -/
def binCount : Nat := 16
/-- Walks a cluster runs at once (R359). -/
def maxWalks : Nat := 32
/-- Cycles until a ready thread is overdue (R35). -/
def overdueCycles : Nat := 4096
/-- Cycles until a ready thread without a `safe` is saved in full (R164). -/
def stopFallback : Nat := 16384
/-- Shortest lease, 64 ns, in quarter-nanoseconds (R79, R3). -/
def leaseMin : Nat := 64 * 4
/-- Longest lease, 16 µs, in quarter-nanoseconds (R79). -/
def leaseMax : Nat := 16000 * 4
/-- Guard of R80 without an unexpired fabric lease: 4 ns. -/
def guardNear : Nat := 4 * 4
/-- Guard of R80 with an unexpired fabric lease, or while unlocked (R100): 64 ns. -/
def guardFar : Nat := 64 * 4
/-- A dirty line reaches its home within 2 µs (R81). -/
def drainBound : Nat := 2000 * 4
/-- Core-clock cycles are counted in twelfths of a nanosecond: 2.4 GHz is 5 of them (R2); log 6. -/
def ticksPerCycle : Nat := 5
/-- Twelfths of a nanosecond in one quarter-nanosecond (R402). -/
def ticksPerQuarter : Nat := 3

/-- Free value number n, 32 bits: a value the spec calls undefined (R6) or states no rule for (log 2). No body. -/
opaque freeWord : Nat → BitVec 32
/-- What a read of a register gives between an `mjoin` and its `mwait` (R95): by number of the free value, thread slot and register
(log 12). No body. -/
opaque freeReg : Nat → Nat → Nat → BitVec 32
/-- The value of an undefined read of a tile: by a counter of State and the tile (R6, R95). -/
opaque freeTile : Nat → Nat → BitVec 8192
/-- Free byte number n: the answer of a unit outside this device (log 10). No body. -/
opaque freeByte : Nat → BitVec 8
/-- Free choice number n: which of the agents that may act next does so (log 2). No body. -/
opaque freePick : Nat → Nat

/-- The order in which a reduction combines the ranks' elements: one rank's, or what two of them give (R145). -/
inductive Sched where
  | rank (q : Nat)
  | both (a b : Sched)
  deriving DecidableEq, Repr, Inhabited
/-- The ranks of a schedule, from left to right. -/
def Sched.ranks : Sched → List Nat
  | .rank q => [q]
  | .both a b => a.ranks ++ b.ranks
/-- The fixed schedule of a communicator over three or more ranks, which the spec does not give (R145; log 28): by the member devices. No
body. -/
opaque collSched : List Nat → Sched
/-- A communicator as the driver creates it (R144): number, engine, traffic class, device number by rank, own rank, tenant context, bytes that
each peer's reserved buffer has. -/
structure CommDesc where
  number : Nat := 0
  engine : Nat := 0
  cls : Nat := 0
  ranks : List Nat := []
  me : Nat := 0
  ctx : Nat := 0
  room : Nat := 0
  deriving DecidableEq, Repr
/-- The communicator that the driver creates at a point in the order of free values, if it creates one (R144; log 28). No body. -/
opaque newComm : Nat → Option CommDesc
/-- Do two drills of a core need one port in a cycle (R34; log 64): by number of the free value, core, and the two drills as twice their issue
slot, plus 1 in the uniform pipe? No body. -/
opaque samePort : Nat → Nat → Nat → Nat → Bool
/-- Fabric hops between two devices (R306), which the spec gives no way to compute (log 6). No body. -/
opaque hops : Nat → Nat → Nat
/-- Where a free choice finds a line at its home: 0 in the home L2, 1 in the last-level cache, else in memory (R306; log 6). No body. -/
opaque homeLevel : Nat → Nat
/-- Offset of the control register that selects the scheduling policy of a core, if a module has one, and the policy that a value of it
selects (R32, R323; log 84). No body. -/
opaque policyReg : Nat → Option Nat
opaque policyOf : Nat → Bool
/-- The set of a cluster TLB that holds a page's translation: 4,096 entries in 8 ways, by a function of the page that the spec does not give
(R359; log 24). No body. -/
opaque tlbSet : Nat → Nat
/-- Place that meets an uncorrectable error at a point in the order of free values, if one does (R55, R133, R230, R242; log 79). No body. -/
opaque struck : Nat → Option Nat

/-- SHAKE256 (R391): named by the spec, not defined there (log 8). No body. -/
opaque shake256 : List (BitVec 8) → BitVec 512
/-- Does an SLH-DSA-SHAKE-256s signature verify under the Valyar firmware key (R391; log 8)? No body. -/
opaque verifyFirmware : List (BitVec 8) → Bool
/-- Does a token's signature verify under the Valyar debug key (R394; log 8)? No body. -/
opaque verifyDebug : List (BitVec 8) → Bool
/-- The unique device secret, which only the security processor reads (R389). No body. -/
opaque uds : BitVec 256
/-- The first 96 bytes of SHAKE256 (R393; log 8). No body. -/
opaque shake96 : List (BitVec 8) → List (BitVec 8)
/-- The bytes of "VS-P9M identity" and of the UDS. -/
def identityInput : List (BitVec 8) :=
  [0x56, 0x53, 0x2D, 0x50, 0x39, 0x4D, 0x20, 0x69, 0x64, 0x65, 0x6E, 0x74, 0x69, 0x74, 0x79]
    ++ (List.range 32).map fun i => uds.extractLsb' (8 * i) 8
/-- The seed of the identity key, the same at every boot (R393). -/
def identitySeed : List (BitVec 8) := shake96 identityInput
/-- The signature of a report under the identity key of a seed (R393; log 8): seed, report. No body. -/
opaque signWith : List (BitVec 8) → List (BitVec 8) → List (BitVec 8)
/-- The signature of a report under this device's identity key (R393). -/
def signReport (r : List (BitVec 8)) : List (BitVec 8) := signWith identitySeed r
/-- What stands at the other end of a link at a reset: domain, device and link number (R384): by number of the free value and link (log 42). No
body. -/
opaque partnerOf : Nat → Nat → Nat × Nat × Nat
/-- A fresh nonce (R395; log 8). No body. -/
opaque nonce : Nat → BitVec 256
/-- One byte that a read of an HBM line under another key than the one that wrote it gives (R366): by the two keys, the address and the
16 bytes of data that stand there (log 8). No body. -/
opaque noise : Nat → Nat → Nat → Nat → BitVec 8
/-- Fused device identifier (R389). No body. -/
opaque deviceId : BitVec 128
/-- Fused security version (R389). No body. -/
opaque fusedSvn : BitVec 8
/-- The fuse values other than the UDS, as the ROM measures them (R391). No body. -/
opaque fuseImage : List (BitVec 8)
/-- The ROM's own digest (R391). No body. -/
opaque romDigest : List (BitVec 8)
/-- The firmware image in the module flash (R391). No body. -/
opaque flashImage : List (BitVec 8)
/-- The security version an image carries (R391). No body. -/
opaque imageSvn : List (BitVec 8) → BitVec 32
/-- Does an image's header mark it as a provisioning image (R391)? No body. -/
opaque imageProvisioning : List (BitVec 8) → Bool
/-- Does an image's SHAKE256 digest match its header (R391)? No body. -/
opaque imageDigestOk : List (BitVec 8) → Bool
/-- The identity certificate in flash (R393). No body. -/
opaque certificate : List (BitVec 8)
/-- The bound a port measures to its 1588 grandmaster, in ns (R407). No body. -/
opaque ieee1588Bound : Nat → Nat

end Sys2Proof.Config
end

