-- ==== Sys2Proof/Machine/Table.lean ====
section
/-!
DEFINITION. Tables: sparse data by number, kept as a list in ascending order of key. Every store of the machine that the spec
numbers (threads, sheaf-table entries, lines, queues, registers of window 0) is one.
-/
namespace Sys2Proof.Machine

/-- A table: pairs of a number and what stands under it. -/
abbrev Tbl (α : Type) := List (Nat × α)

/-- What stands under k. -/
def tget {α : Type} : Tbl α → Nat → Option α
  | [], _ => none
  | (j, v) :: t, k => if j = k then some v else tget t k

/-- Put v under k, in its place by ascending key. -/
def tput {α : Type} : Tbl α → Nat → α → Tbl α
  | [], k, v => [(k, v)]
  | (j, w) :: t, k, v =>
    if j = k then (k, v) :: t else if k < j then (k, v) :: (j, w) :: t else (j, w) :: tput t k v

/-- Take k out. -/
def tdel {α : Type} (t : Tbl α) (k : Nat) : Tbl α := t.filter fun e => e.1 != k

/-- Change what stands under k, if anything does. -/
def tupd {α : Type} (t : Tbl α) (k : Nat) (f : α → α) : Tbl α :=
  match tget t k with
  | none => t
  | some v => tput t k (f v)

/-- Change every entry. -/
def tmap {α β : Type} (t : Tbl α) (f : Nat → α → β) : Tbl β := t.map fun e => (e.1, f e.1 e.2)

/-- The keys in ascending order. -/
def tkeys {α : Type} (t : Tbl α) : List Nat := t.map (·.1)

/-- What stands under k, or d. -/
def tgetD {α : Type} (t : Tbl α) (k : Nat) (d : α) : α := (tget t k).getD d

/-- The keys rise strictly: the canonical form. -/
def tsorted {α : Type} : Tbl α → Bool
  | [] => true
  | [_] => true
  | (j, _) :: (k, w) :: t => decide (j < k) && tsorted ((k, w) :: t)

/-- The lowest number below n that is not in the list. -/
def lowestFree (n : Nat) (used : List Nat) : Option Nat := (List.range n).find? fun i => !used.contains i

/-- Bit i of a mask held as a number. -/
def maskBit (m i : Nat) : Bool := m.testBit i
/-- The mask with bit i set. -/
def maskSet (m i : Nat) : Nat := m ||| (1 <<< i)
/-- The mask with bit i clear. -/
def maskClear (m i : Nat) : Nat := if m.testBit i then m - (1 <<< i) else m
/-- The mask whose set bits are the members of the list. -/
def maskOf (l : List Nat) : Nat := l.foldl maskSet 0

/-- The number a run of bytes holds, lowest address first (R4). -/
def leNat : List Byte → Nat
  | [] => 0
  | b :: r => b.toNat + 256 * leNat r
/-- The low n bytes of a number, lowest address first (R4). -/
def natLe : Nat → Nat → List Byte
  | 0, _ => []
  | n + 1, x => BitVec.ofNat 8 x :: natLe n (x / 256)

end Sys2Proof.Machine
end

