-- ==== Sys2Proof/Syntax.lean ====
section
/-!
DEFINITION. The operand forms of 10_encoding R179 to R188 and the one inductive of steps: a constructor for every row of
spec/opcode_table.json, its 181 instructions and its 111 events of the machine's other agents. Encodings stand in
Decode.lean, meanings in Machine/.
-/
namespace Sys2Proof

/-- The pipe that bit 31 of a word names (R178). -/
inductive Pipe where
  | lane | unif
  deriving DecidableEq, Repr

/-- A source operand byte (R44, R179): register in [7:2], last use L in [1], empty-read trap E in [0]. -/
structure Src where
  reg : RegNo
  last : Bool
  etrap : Bool
  deriving DecidableEq, Repr

/-- The word of format 6 that stands before an instruction (R188). `c = none` is CV = 0. -/
structure Px where
  mneg : Bool
  mpred : PredNo
  zero : Bool
  rnd : BitVec 3
  c : Option Src
  scope : BitVec 2
  sat : Bool
  na : Bool
  nb : Bool
  nc : Bool
  deriving DecidableEq, Repr

/-- RR format with two sources (R180). -/
structure RR where
  p : Pipe
  px : Option Px
  d : RegNo
  a : Src
  b : Src
  deriving DecidableEq, Repr

/-- RR format with one source, B = 0x00 (R190). -/
structure R1 where
  p : Pipe
  px : Option Px
  d : RegNo
  a : Src
  deriving DecidableEq, Repr

/-- A compare of two registers into a predicate (R180, R181). -/
structure Cmp where
  p : Pipe
  px : Option Px
  pd : PredNo
  cond : BitVec 3
  a : Src
  b : Src
  deriving DecidableEq, Repr

/-- RI format (R180). -/
structure RI where
  p : Pipe
  px : Option Px
  d : RegNo
  a : Src
  imm : BitVec 9
  deriving DecidableEq, Repr

/-- RI shift or rotate with a count of 5 bits (R202). -/
structure ShI where
  p : Pipe
  px : Option Px
  d : RegNo
  a : Src
  n : BitVec 5
  deriving DecidableEq, Repr

/-- A compare with an immediate (R207). -/
structure CmpI where
  p : Pipe
  px : Option Px
  pd : PredNo
  cond : BitVec 3
  a : Src
  imm : BitVec 9
  deriving DecidableEq, Repr

/-- RI bit-field extract (R204): length − 1 and position. -/
structure BfI where
  p : Pipe
  px : Option Px
  d : RegNo
  a : Src
  lenM1 : BitVec 4
  pos : BitVec 5
  deriving DecidableEq, Repr

/-- `passi.at`, `.flip`, `.rot` (R254). -/
structure PassI where
  px : Option Px
  d : RegNo
  a : Src
  n : BitVec 5
  deriving DecidableEq, Repr

/-- `passi.off` (R254): a signed offset of 6 bits. -/
structure PassOff where
  px : Option Px
  d : RegNo
  a : Src
  n : BitVec 6
  deriving DecidableEq, Repr

/-- `li` (R208). -/
structure LiOp where
  p : Pipe
  px : Option Px
  d : RegNo
  imm : BitVec 18
  deriving DecidableEq, Repr

/-- `liw` (R208): the value stands in word 1. -/
structure LiwOp where
  p : Pipe
  px : Option Px
  d : RegNo
  imm : Word
  deriving DecidableEq, Repr

/-- `cvt` (R222): destination and source type codes of R190. -/
structure CvtOp where
  p : Pipe
  px : Option Px
  d : RegNo
  a : Src
  dst : BitVec 4
  src : BitVec 4
  deriving DecidableEq, Repr

/-- A load (R182, R230); size codes 0 to 6. -/
structure LdOp where
  p : Pipe
  px : Option Px
  sp : Bool
  size : BitVec 3
  d : RegNo
  a : Src
  off : BitVec 7
  deriving DecidableEq, Repr

/-- A store (R182, R234); size codes 0 to 4. -/
structure StOp where
  p : Pipe
  px : Option Px
  sp : Bool
  size : BitVec 3
  v : Src
  a : Src
  off : BitVec 7
  deriving DecidableEq, Repr

/-- A prefetch (R233). -/
structure PfOp where
  p : Pipe
  px : Option Px
  a : Src
  off : BitVec 7
  deriving DecidableEq, Repr

/-- An atomic (R183, R235). -/
structure AtOp where
  px : Option Px
  sp : Bool
  d : RegNo
  v : Src
  a : Src
  ret : Bool
  deriving DecidableEq, Repr

/-- `ldsp` (R241): global pair, scratchpad address, barrier object. -/
structure LdspOp where
  px : Option Px
  size : BitVec 2
  g : Src
  s : Src
  obj : Src
  deriving DecidableEq, Repr

/-- `stn` (R273): global pair, data, barrier object. -/
structure StnOp where
  p : Pipe
  px : Option Px
  size : BitVec 2
  a : Src
  v : Src
  obj : Src
  deriving DecidableEq, Repr

/-- BR format (R184). -/
structure BrOp where
  neg : Bool
  pred : PredNo
  delta : BitVec 16
  word : BitVec 5
  deriving DecidableEq, Repr

/-- `brx` and `callx` (R245). -/
structure IndOp where
  px : Option Px
  a : Src
  deriving DecidableEq, Repr

/-- `ctr.wait` (R268). -/
structure CtrWaitOp where
  px : Option Px
  a : Src
  c : BitVec 2
  deriving DecidableEq, Repr

/-- SY R layout with two sources (R185). -/
structure SyRR where
  px : Option Px
  d : RegNo
  a : Src
  b : Src
  deriving DecidableEq, Repr

/-- SY R layout with one source. -/
structure SyR1 where
  px : Option Px
  d : RegNo
  a : Src
  deriving DecidableEq, Repr

/-- SY R layout with a destination only. -/
structure SyD where
  px : Option Px
  d : RegNo
  deriving DecidableEq, Repr

/-- SY R layout with two sources, in either pipe (R264, R267). -/
structure AbOp where
  p : Pipe
  px : Option Px
  a : Src
  b : Src
  deriving DecidableEq, Repr

/-- Word 0 of a matrix issue (R186): accumulator tile, A byte, B byte, pair code. -/
structure MatWord where
  acc : TileNo
  a : Byte
  b : Byte
  pair : BitVec 4
  deriving DecidableEq, Repr

/-- Word 1 of `mma` (R187). -/
structure MmaWord where
  ka : BitVec 2
  kb : BitVec 2
  ta : Bool
  tb : Bool
  chain : Bool
  zacc : Bool
  sat : Bool
  rnd : BitVec 3
  deriving DecidableEq, Repr

/-- Word 1 of `mloop` (R187). -/
structure LoopWord where
  stepsM1 : BitVec 12
  inca : BitVec 8
  incb : BitVec 8
  chain : Bool
  zacc : Bool
  sat : Bool
  deriving DecidableEq, Repr

/-- Word 1 of `mjoin` (R187). -/
structure JoinWord where
  part : BitVec 2
  countM1 : BitVec 2
  ident : BitVec 8
  chain : Bool
  zacc : Bool
  sat : Bool
  deriving DecidableEq, Repr

/-- Where a read over the management path takes its word (R375, R394, R433): a thread's registers or predicates, a tile or the scratchpad of a plot,
a fragment, a copy channel, or HBM under the key of a context. -/
inductive MgmtPlace where
  | reg (tid : Nat)
  | pred (tid : Nat)
  | tile (plot t : Nat)
  | scratch (plot : Nat)
  | frag (entry : Nat)
  | channel (channel : Nat)
  | hbm (ctx : Nat)
  deriving DecidableEq, Repr
/-- A flit group that a link sends: a new one, or the latest one again (R385). -/
structure FlitSend where
  link : Nat
  again : Bool
  deriving DecidableEq, Repr

/-- One step of the machine: an instruction of Soldal (carried out by a drill), or an event of another agent, which carries
what names its object and, for an outside agent, what that agent supplies (log 2, log 10). -/
inductive Instr where
  -- instructions (10_encoding, 11 to 17)
  | add (o : RR)
  | sub (o : RR)
  | mul (o : RR)
  | mulhiI32 (o : RR)
  | mulhiN32 (o : RR)
  | minI32 (o : RR)
  | maxI32 (o : RR)
  | minN32 (o : RR)
  | maxN32 (o : RR)
  | and (o : RR)
  | or (o : RR)
  | xor (o : RR)
  | andn (o : RR)
  | shl (o : RR)
  | shr (o : RR)
  | sar (o : RR)
  | rotl (o : RR)
  | bfeN32 (o : RR)
  | bfeI32 (o : RR)
  | bfi (o : RR)
  | addB64 (o : RR)
  | subB64 (o : RR)
  | lea (o : RR)
  | lea4 (o : RR)
  | mulWideI32 (o : RR)
  | mulWideN32 (o : RR)
  | mad (o : RR)
  | clz (o : R1)
  | popc (o : R1)
  | brev (o : R1)
  | mov (o : R1)
  | icmpI32 (o : Cmp)
  | icmpN32 (o : Cmp)
  | addi (o : RI)
  | muli (o : RI)
  | andi (o : RI)
  | ori (o : RI)
  | xori (o : RI)
  | shli (o : ShI)
  | shri (o : ShI)
  | sari (o : ShI)
  | rotli (o : ShI)
  | miniI32 (o : RI)
  | maxiI32 (o : RI)
  | miniN32 (o : RI)
  | maxiN32 (o : RI)
  | icmpiI32 (o : CmpI)
  | icmpiN32 (o : CmpI)
  | leai (o : RI)
  | bfeiN32 (o : BfI)
  | bfeiI32 (o : BfI)
  | passiAt (o : PassI)
  | passiOff (o : PassOff)
  | passiFlip (o : PassI)
  | passiRot (o : PassI)
  | li (o : LiOp)
  | liw (o : LiwOp)
  | fcmpF32 (o : Cmp)
  | faddF32 (o : RR)
  | fsubF32 (o : RR)
  | fmulF32 (o : RR)
  | ffmaF32 (o : RR)
  | fminF32 (o : RR)
  | fmaxF32 (o : RR)
  | frcp (o : R1)
  | frsq (o : R1)
  | fsqrt (o : R1)
  | fex2 (o : R1)
  | flg2 (o : R1)
  | fsin (o : R1)
  | fcos (o : R1)
  | ftanh (o : R1)
  | ftbl (o : R1)
  | scacc (o : RR)
  | cvt (o : CvtOp)
  | pkBf2 (o : RR)
  | pkH2 (o : RR)
  | pk8loE4m3 (o : RR)
  | pk8hiE4m3 (o : RR)
  | pk8loE5m2 (o : RR)
  | pk8hiE5m2 (o : RR)
  | haddBf2 (o : RR)
  | hmulBf2 (o : RR)
  | hfmaBf2 (o : RR)
  | haddH2 (o : RR)
  | hmulH2 (o : RR)
  | hfmaH2 (o : RR)
  | fdivF32 (o : RR)
  | ld (o : LdOp)
  | st (o : StOp)
  | pf (o : PfOp)
  | atomAdd (o : AtOp)
  | atomMinI32 (o : AtOp)
  | atomMaxI32 (o : AtOp)
  | atomMinN32 (o : AtOp)
  | atomMaxN32 (o : AtOp)
  | atomAnd (o : AtOp)
  | atomOr (o : AtOp)
  | atomXor (o : AtOp)
  | atomXchg (o : AtOp)
  | atomCas (o : AtOp)
  | atomAddB64 (o : AtOp)
  | atomFaddF32 (o : AtOp)
  | atomFaddBf2 (o : AtOp)
  | atomFmaxF32 (o : AtOp)
  | atomFminF32 (o : AtOp)
  | atomIncw (o : AtOp)
  | ldsp (o : LdspOp)
  | br (o : BrOp)
  | call (o : BrOp)
  | spawn (o : BrOp)
  | brx (o : IndOp)
  | callx (o : IndOp)
  | nop (p : Pipe) (px : Option Px)
  | exit (px : Option Px)
  | join (o : SyRR)
  | leave (px : Option Px)
  | regroup (o : SyR1)
  | fuse (n : BitVec 16)
  | yield (n : BitVec 16)
  | safe (tmask : BitVec 16) (pmask : BitVec 6) (lo hi : Word)
  | bar (mode bar : BitVec 2)
  | poll (px : Option Px) (d : RegNo) (fn : BitVec 3) (neg : Bool) (k : PredNo)
  | sred (px : Option Px) (d : RegNo) (a : Src) (fn : BitVec 4)
  | sscan (px : Option Px) (d : RegNo) (a : Src) (exc : Bool) (fn : BitVec 4)
  | alike (px : Option Px) (d : RegNo) (a : Src) (lead : Bool)
  | passAt (o : SyRR)
  | passOff (o : SyRR)
  | passFlip (o : SyRR)
  | passRot (o : SyRR)
  | abarInit (o : AbOp)
  | abarArrive (p : Pipe) (px : Option Px) (a : Src)
  | abarDue (o : AbOp)
  | abarWait (o : AbOp)
  | abarTest (o : AbOp) (d : RegNo)
  | fence (kind scope : BitVec 3)
  | rput (o : AbOp)
  | arm (p : Pipe) (px : Option Px) (d : RegNo)
  | ctrWait (o : CtrWaitOp)
  | ctrRd (p : Pipe) (px : Option Px) (d : RegNo) (c : BitVec 2)
  | plop (px : Option Px) (pd pa pb pc : PredNo) (tt : BitVec 8)
  | pmovRd (px : Option Px) (d : RegNo)
  | pmovWr (px : Option Px) (a : Src)
  | csrRd (px : Option Px) (d : RegNo) (n : BitVec 8)
  | csrWr (px : Option Px) (a : Src) (n : BitVec 8)
  | time (p : Pipe) (px : Option Px) (d : RegNo)
  | evt (p : Pipe) (px : Option Px) (a : Src) (n : BitVec 8)
  | trap (px : Option Px) (n : BitVec 16)
  | brk (px : Option Px)
  | nap (px : Option Px) (cond : BitVec 3) (sp : Bool) (a b : Src)
  | wpw (px : Option Px) (a : Src) (ch : BitVec 4)
  | shape (o : SyR1)
  | expand (o : SyD)
  | bcast (o : SyR1)
  | iota (o : SyRR)
  | fragResume (px : Option Px) (a : Src)
  | fragResumeSkip (px : Option Px) (a : Src)
  | fragKill (px : Option Px) (a : Src)
  | fragInfo (px : Option Px) (d : RegNo) (a : Src) (sel : BitVec 3) (n : BitVec 5)
  | fragStep (px : Option Px) (a : Src)
  | mma (p : Pipe) (px : Option Px) (w : MatWord) (x : MmaWord)
  | mloop (px : Option Px) (w : MatWord) (x : LoopWord)
  | mjoin (w : MatWord) (x : JoinWord)
  | mwait (p : Pipe) (px : Option Px) (t : TileNo)
  | tzero (p : Pipe) (px : Option Px) (t : TileNo)
  | tld (p : Pipe) (px : Option Px) (t : TileNo) (x : Src)
  | tst (p : Pipe) (px : Option Px) (t : TileNo) (x : Src)
  | tmovin (px : Option Px) (t : TileNo) (x : Src) (w : BitVec 2)
  | tmovout (px : Option Px) (t : TileNo) (d : RegNo) (w : BitVec 2)
  | tcvt (p : Pipe) (px : Option Px) (t : TileNo) (dst src : BitVec 4) (u : TileNo)
  | mscl (p : Pipe) (px : Option Px) (t : TileNo) (x : Src) (u : TileNo)
  | copyStart (p : Pipe) (px : Option Px) (ch : BitVec 4) (d : RegNo) (a : Src)
  | copyCancel (p : Pipe) (px : Option Px) (ch : BitVec 4)
  | copyWpr (p : Pipe) (px : Option Px) (ch : BitVec 4) (d : RegNo)
  | collStart (p : Pipe) (px : Option Px) (a : Src)
  | collQuery (p : Pipe) (px : Option Px) (d : RegNo) (a : Src)
  | stn (o : StnOp)
  | gath (p : Pipe) (px : Option Px) (a : Src)
  | tblLd (p : Pipe) (px : Option Px) (a : Src)
  | tblSel (p : Pipe) (px : Option Px) (a : Src)
  -- events of the other agents (95_what_each_step_holds), with what names their object or what an outside agent supplies
  | fuseHoldExpiry (core sheaf : Nat) (pc : DWord)
  | joinBinTimerExpiry (core bin : Nat)
  | spawnBinTimerExpiry (core bin : Nat)
  | plotAdmission (core wait : Nat)
  | plotRetire (core plot : Nat)
  | loadDataReturn (id : Nat)
  | fallowRefill (core tid reg : Nat)
  | mgmtRegisterRead (core : Nat) (place : MgmtPlace) (word : Nat)
  | debuggerRegisterWrite (core tid reg : Nat) (value : Word)
  | depositPerform (core : Nat)
  | icacheLineFill (core : Nat) (va : Nat)
  | dirtyLineDrain (core : Nat)
  | homeStorePerform (id : Nat)
  | homeLoadService (id tid : Nat)
  | atomicRequestPerform (id : Nat)
  | atomicAck (id : Nat)
  | ldspWrite (id : Nat)
  | stnCompletion (id : Nat)
  | fabricResponseTimeout (id : Nat)
  | fenceComplete (core tid : Nat)
  | napWordRecheck (core tid : Nat)
  | matrixStepComplete (core : Nat)
  | tileOpComplete (core id : Nat)
  | tableLoadCommit (core id : Nat)
  | copyCommandAccept (cluster channel : Nat)
  | copyChunkDelivery (cluster channel : Nat)
  | gatherElement (core id : Nat)
  | collUnitStart (engine : Nat)
  | collChunkReceived (comm rank : Nat) (cid : DWord) (data : List Byte)
  | collStepEnd (comm : Nat)
  | collOperationComplete (comm : Nat)
  | collWatchdogExpiry (comm : Nat)
  | handlerDelivery (core plot : Nat)
  | stopRequest (core plot : Nat)
  | plotSave (core plot : Nat)
  | plotRestore (core saved : Nat)
  | hostWindow2Write (offset : Nat) (data : List Byte)
  | hostWindow2Read (offset len : Nat)
  | registerWrite (offset size : Nat) (value : DWord)
  | tailWrite (queue : Nat) (value : Word)
  | queueEnable (queue : Nat) (value : Word)
  | residencyRequest (queue : Nat)
  | queueRecordAccept (queue : Nat)
  | runEnd (run : Nat)
  | nodeDispatch (run node : Nat)
  | nodeComplete (run node : Nat)
  | condRead (run node : Nat)
  | plotStage (run node core : Nat)
  | pageWalkComplete (cluster walk : Nat)
  | pageService (ctx page : Nat)
  | packetForward (link cls hop source dest : Nat) (local_ : Bool) (cid : DWord)
  | remoteRequestArrival (link source address op : Nat) (data : List Byte) (len : Nat) (cid : DWord)
  | linkTrainingComplete (link domain device plink : Nat)
  | linkPartnerReset (link : Nat)
  | flitGroupTransmit (send : FlitSend)
  | flitGroupReceive (link phase : Nat) (tagOk : Bool)
  | powerLimitWindow (milliwatts : Nat) (clusterPower : List Nat)
  | voltageDroop (cluster : Nat)
  | thermalThrottle (cluster : Nat)
  | timeExchange (link : Nat) (offset : Int) (parentE : Nat) (parentF : Option Nat)
  | fleetTimeSync (offset : Int)
  | recordWrite (unit : Word)
  | residencyReturn (queue : Nat)
  | debuggerAttach (core plot : Nat) (on : Bool)
  -- steps without operands
  | tfence
  | issueCycle
  | threadOverdue
  | yieldExpiry
  | leaseExpiry
  | stopFallbackExpiry
  | erheadWrite
  | firmwareEventDispatch
  | firmwareRetention
  | ginvWrite
  | pageVerdict
  | tlbInvalidate
  | tlbInvalidateComplete
  | migrationStart
  | migrationDrained
  | migrationCopyDone
  | saveSetImport
  | frozenKill
  | frozenResume
  | coldReset
  | warmReset
  | routeTableLoad
  | routeLoadComplete
  | routeBankSelect
  | packetWaitTimeout
  | getcert
  | getnonce
  | unlock
  | attest
  | extend
  | tkey
  | lkey
  | lifecycle
  | recover
  | powerOn
  | railGoodTimeout
  | thermalTrip
  | timeBoundGrowth
  | quotaWrite
  | granaryReadout
  | granaryReadoutComplete
  | waitforSnapshot
  | profileHostStart
  | profileHostStop
  | profileSummaryInterval
  | detailSelectWrite
  | prheadWrite
  | powerLoss
  deriving DecidableEq, Repr

end Sys2Proof
end

