-- ==== Sys2Proof/Machine/State.lean ====
section
/-!
DEFINITION. The state of the VS-P9M as plain data: threads, sheaves, plots, cores, clusters, homes, queues, launcher,
collective engines, fabric, security processor, power, time, granary (INVENTORY.md lists every field with its rule), and
State.reset, the machine right after a cold reset (27 R377, R378).
-/
namespace Sys2Proof.Machine
open Sys2Proof

/-- Shape tag of a mapped register (R38). A released register is not mapped and has no cell. -/
inductive Tag where
  | general
  | uniform
  | affine (base stride : Word)
  deriving DecidableEq, Repr

/-- State of a mapped register (R37). -/
inductive RegSt where
  | full | empty | fallow
  deriving DecidableEq, Repr

/-- One mapped register of one thread (R37 to R39, R47, R56, R304). -/
structure RegCell where
  st : RegSt := .full
  tag : Tag := .general
  /-- the value this thread sees -/
  val : Word := 0
  /-- armed for a deposit (R56) -/
  armed : Bool := false
  /-- stored in the uniform bank of the slot, not in the thread's lane bank (R38, R39) -/
  uni : Bool := false
  /-- first cycle in which a reader may issue (R303, R304) -/
  ready : Nat := 0
  /-- the outstanding producer that will fill it; 0 for none (R47, R48) -/
  prod : Nat := 0
  deriving DecidableEq, Repr

/-- What a waiting thread waits for (R11). `retry` re-executes the instruction in a later cycle: 1 flags not posted (R117), 2 accesses
not performed (R91, R246), 9 a full channel queue (R140), 10 a gather outstanding
(R150), 11 a busy tile or a full matrix unit (R96, R131), 12 flags before a write of `ast` (R116), 13 a busy table bank (R289). `place`, `queue`, `arriving`, `fences` and `target` re-execute too. -/
inductive Wait where
  | rendezvous
  | barrier (b seen : Nat)
  /-- destination register of the `join`, or 64 for a spawned thread -/
  | gathering (bin dest : Nat)
  | fuse (pc : DWord)
  | nap (sp : Bool) (addr cond : Nat) (b last : Word)
  | counter (c : Nat) (target : Word)
  | abar (addr phase : Nat)
  | pointer (channel w : Nat)
  | fence (kind scope seq : Nat)
  | walk
  | matrix (op : Nat)
  | tile (op : Nat)
  /-- until the tile of the core is not busy (R282) -/
  | mwait (tile : Nat)
  | retry (why : Nat)
  /-- for a place: a bin for a `join` of this key (R22), or a thread slot and a bin for a `spawn` of this target (R29) -/
  | place (isJoin : Bool) (key : Nat)
  /-- for a place in the deposit queue of a core (R58) -/
  | queue (core : Nat)
  /-- at registers that the instruction reads and that are empty or fallow (R11, R47, R53) -/
  | source (regs : List Nat)
  /-- at a `bar` of barrier b: for the release half of its arrival, or for the end of the phase in which an arrival of it is outstanding (R261) -/
  | arriving (b : Nat) (only : Bool)
  /-- for the release fences of the threads of its drill at one `abar.arrive` (R264, R265) -/
  | fences (tids : List Nat)
  /-- for a saved target of an `rput`, by its sheaf handle (R267) -/
  | target (handle : Nat)
  /-- while the participants of its `regroup` are moved (R163) -/
  | moving
  deriving DecidableEq, Repr

/-- State of an occupied thread slot (R11); a free slot has no thread. A saved thread keeps its slot until its whole plot is saved
(R164, R165): it was ready, or it waited. -/
inductive TSt where
  | ready
  | waiting (w : Wait)
  | parked (frag : Nat)
  | saved (waited : Bool)
  deriving DecidableEq, Repr

/-- A fault that came after its access was issued (R148, R230): group and detail, PC of the access, its producer number, and the registers
of the instruction as it found them. -/
structure LateFault where
  group : Nat
  det0 : Word
  det1 : Word
  det2 : Word
  pc : DWord
  prod : Nat
  cells : Tbl RegCell
  deriving DecidableEq, Repr

/-- One thread (R9, R370). -/
structure Thread where
  pc : DWord := 0
  regs : Tbl RegCell := []
  preds : BitVec 8 := 1
  /-- first cycle in which each predicate written may be read (R304) -/
  predReady : Tbl Nat := []
  mode : Word := 0
  ast : Word := 0
  /-- flags of lane-pipe and uniform-pipe operations that have not completed, each with the cycle in which it does (R115, R304) -/
  flags : List (Nat × Word) := []
  aen : Word := 0
  plot : Nat := 0
  /-- 0 to 3; 4 in a handler (R161) -/
  role : Nat := 0
  /-- sheaf-table index slot × 64 + entry; none when solitary (R19) -/
  sheaf : Option Nat := none
  rank : Nat := 0
  age : Nat := 0
  /-- thread slot in which it was launched, spawned or delivered (R32) -/
  born : Nat := 0
  st : TSt := .ready
  /-- completion horizon H (R83) -/
  horizon : Nat := 0
  /-- latest `time` reading (R295) -/
  tlast : Nat := 0
  prog : Word := 0
  cause : Word := 0
  det0 : Word := 0
  det1 : Word := 0
  det2 : Word := 0
  dbgst : Word := 0
  /-- bits [63:32] of the cycle counter as latched by the latest read of `cyc` (R293) -/
  cych : Word := 0
  /-- first cycle in which the thread may issue (R302) -/
  eligible : Nat := 0
  /-- address after the instruction the thread waits at (R176), and the registers its L bits release then (R45; log 21) -/
  nextPc : DWord := 0
  lastUse : List Nat := []
  /-- operands of the thread's instruction in progress: they are not evicted (R52) -/
  held : List Nat := []
  /-- what the second and the third operand of the instruction under way read where reads are undefined, at 64 × place + register (R6, R95) -/
  seen : Tbl Word := []
  /-- cycle in which the thread became ready (R35) -/
  readySince : Nat := 0
  /-- cycle in which the thread became overdue (R35) -/
  overdue : Option Nat := none
  /-- last cycle of the low-priority window of `yield` (R33, R308) -/
  lowUntil : Option Nat := none
  /-- rejections counted (R70) -/
  rejects : Nat := 0
  /-- holds a reservation (R70) -/
  reserved : Bool := false
  /-- a lost fabric store not yet raised at a fence, with its address (R89, R148) -/
  lostAt : Option Nat := none
  /-- table bank a solitary thread selects (R288) -/
  tblSel : Bool := false
  /-- fragment in which the thread executes one instruction under `frag.step` (R301) -/
  stepping : Option Nat := none
  /-- the long operation whose progress `prog` reads (R132, R150) -/
  longOp : Option Nat := none
  /-- waits at a `regroup` that every participant has to reach (R23, R163) -/
  regrouping : Bool := false
  /-- the move of a `regroup` under way: participants, and the register that receives the rank (R163) -/
  moving : Option (Nat × Nat) := none
  /-- registers of `mjoin` parts whose matching `mwait` has not completed, as (physical tile, register) (R95) -/
  joinRegs : List (Nat × Nat) := []
  /-- saved in the waits of sheaf barriers, by barrier with the phase: it waits again without arriving (R263) -/
  rejoin : Tbl Nat := []
  /-- place in the order of the core's stores from which the release half of its instruction counts (R88, R91) -/
  relSeq : Option Nat := none
  /-- saved in full under R164 -/
  savedFull : Bool := false
  /-- stands at its role's entry point, which has not yet been seen to be a target (R176, R345) -/
  fresh : Bool := false
  /-- device time of the latest read of the word that its `nap` waits on (R269) -/
  napAt : Nat := 0
  /-- a read of the word that its `nap` waits on has left the core: it holds an MSHR (R70) -/
  napOpen : Bool := false
  /-- line of the PC, by address / 128, whose fetched copy the thread executes (R177) -/
  onLine : Option Nat := none
  /-- a fault of an access in flight that has still to be taken (R148, R230) -/
  late : Option LateFault := none
  /-- handle of the fragment a handler thread serves (R161) -/
  serves : Option Nat := none
  deriving DecidableEq, Repr

/-- One sheaf (R19, R20, R371). Its members are the threads that name its index. -/
structure Sheaf where
  gen : Nat := 0
  /-- CORE of its handle where it was restored on another core (R165, R373) -/
  core0 : Option Nat := none
  plot : Nat := 0
  role : Nat := 0
  /-- phase numbers of the four sheaf barriers, modulo 2^32 (R261) -/
  phase : Tbl Nat := []
  /-- OUT bits of the four barriers, one mask by rank each (R261) -/
  outs : Tbl Nat := []
  /-- arrival counters (R20) -/
  ctr : Tbl Word := []
  tblSel : Bool := false
  /-- the rendezvous under way: address, kind, thread slots arrived (R23) -/
  rdv : Option (DWord × Nat × List Nat) := none
  /-- fuse holds: address, cycle of the first arrival, cycles (R18) -/
  fuses : List (DWord × Nat × Nat) := []
  deriving DecidableEq, Repr

/-- Where a fragment stands in its service (R154, R161). -/
inductive Delivery where
  | service
  | pending
  | delivered
  deriving DecidableEq, Repr

/-- One fragment-table entry (R154 to R160). -/
structure Frag where
  gen : Nat := 0
  members : List Nat := []
  group : Nat := 0
  det0 : Word := 0
  det1 : Word := 0
  det2 : Word := 0
  plot : Nat := 0
  /-- 0 threads, 1 copy channel, 2 collective operation, 3 gather (R156) -/
  kind : Nat := 0
  /-- channel, communicator or gather of an engine fragment -/
  unit : Nat := 0
  delivery : Delivery := .pending
  /-- order of the faults (R161) -/
  seq : Nat := 0
  /-- members that still execute their stepped instruction (R301) -/
  stepping : List Nat := []
  /-- each member's own detail (R153), by thread slot -/
  details : Tbl (Word × Word × Word) := []
  /-- cause group of the members that joined the entry as it stood, by thread slot (R155, R293) -/
  groups : Tbl Nat := []
  /-- the member that last ended its step did so by a fault that goes to page service first (R161, R301) -/
  again : Bool := false
  /-- page (of an engine: faulting address) under service, whether a store or atomic asked, and when (R361, R362) -/
  page : Nat := 0
  wr : Bool := false
  since : Nat := 0
  deriving DecidableEq, Repr

/-- One role of a launch header (R24, R344). -/
structure RoleInfo where
  entry : DWord := 0
  s : Nat := 1
  z : Nat := 1
  floor : Nat := 8
  peak : Nat := 8
  tiles : Nat := 0
  bin : Nat := 0
  /-- physical tiles of the role, `t0` first (R122) -/
  tileMap : List Nat := []
  deriving DecidableEq, Repr

/-- A launch header as the launcher reads it (R343 to R345). -/
structure Header where
  wide : Bool := false
  fuse : Bool := false
  hnd : Bool := false
  copych : Nat := 0
  /-- scratchpad window in KiB -/
  scratch : Nat := 1
  hentry : DWord := 0
  roles : List RoleInfo := []
  params : List Byte := []
  deriving DecidableEq, Repr

/-- One resident plot (R25, R369). -/
structure Plot where
  hdrAddr : DWord := 0
  hdr : Header := {}
  run : Nat := 0
  node : Nat := 0
  queue : Nat := 0
  plotNo : Nat := 0
  cid : DWord := 0
  ctx : Nat := 0
  pri : Nat := 0
  part : Nat := 0
  /-- physical base of the scratchpad window in its slice (R62) -/
  scrBase : Nat := 0
  /-- roles with their tiles mapped (R122) -/
  roles : List RoleInfo := []
  /-- thread slots whose tines the plot holds, with the role that holds them (R21, R25) -/
  slots : Tbl Nat := []
  /-- those of them that admission reserved: they are held until the plot retires (R25) -/
  home : Tbl Nat := []
  /-- floor terms per lane bank (R50) -/
  floors : Tbl Nat := []
  /-- frozen, with the cause group (R162) -/
  frozen : Option Nat := none
  /-- a stop request and its cycle (R164) -/
  stop : Option Nat := none
  admitted : Nat := 0
  /-- latest GWCT its accesses returned (R248) -/
  gwct : Nat := 0
  /-- physical tiles that the masks of `safe` have named since the stop request (R298) -/
  tileMask : Nat := 0
  /-- the slot of the save pool that the launcher holds for the part it stops (R354, R367) -/
  saveAt : Option Nat := none
  /-- attached debugger (R294) -/
  att : Bool := false
  deriving DecidableEq, Repr

/-- A spawn or join bin (R22, R29). -/
structure Bin where
  isJoin : Bool := false
  plot : Nat := 0
  role : Nat := 0
  slot : Nat := 0
  /-- join key or spawn target -/
  key : Nat := 0
  /-- join count (R249) -/
  count : Nat := 0
  /-- cycle of the first arrival -/
  first : Nat := 0
  members : List Nat := []
  deriving DecidableEq, Repr

/-- A queued deposit (R58). -/
structure Deposit where
  sheaf : Nat := 0
  rank : Nat := 0
  reg : Nat := 0
  ctr : Nat := 0
  all : Bool := false
  val : Word := 0
  deriving DecidableEq, Repr

/-- Scheduling state of one pipe of one issue slot (R32, R302). -/
structure Pol where
  kept : Option (DWord × Nat × Nat) := none
  lastTine : Option Nat := none
  busyUntil : Nat := 0
  deriving DecidableEq, Repr

/-- What the tile port has given a tile operation or a `tbl.ld` (R305): the first cycle after its issue, the cycles used, and the cycle in
which it is complete. -/
structure PortUse where
  id : Nat
  seen : Nat
  used : Nat := 0
  fin : Option Nat := none
  deriving DecidableEq, Repr

/-- A line copy in an L1, an L2 or an instruction cache: per-byte valid and dirty bits, lease expiry (R66, R78). -/
structure Line where
  data : BitVec 1024 := 0
  valid : BitVec 128 := 0
  dirty : BitVec 128 := 0
  /-- lease expiry E of the clean bytes -/
  expiry : Nat := 0
  /-- of a fabric window: an instruction line's lease is then a fabric lease (R100) -/
  far : Bool := false
  /-- of an instruction line: first cycle in which it is there (R302) -/
  due : Nat := 0
  deriving DecidableEq, Repr

/-- A dirty-FIFO entry (R81). -/
structure Dirty where
  line : Nat
  seq : Nat
  since : Nat
  /-- plots (core × 8 + plot) and threads (core × 256 + slot) that dirtied the line (R148, R248) -/
  plots : List Nat
  tids : List Nat
  deriving DecidableEq, Repr

/-- A matrix operand as the unit holds it (R125 to R127): fragment words by rank, physical tiles, or a captured descriptor. -/
inductive Operand where
  | frag (vals : List Nat)
  | tile (phys : List Nat) (tr : Bool)
  | desc (addr rpitch tpitch rot : Nat) (tr : Bool) (inc : Int)
  deriving DecidableEq, Repr

/-- A matrix operation accepted by the unit (R131). -/
structure MatOp where
  id : Nat := 0
  plot : Nat := 0
  /-- 0 mma, 1 mloop, 2 part of a join -/
  form : Nat := 0
  pair : Nat := 0
  acc : Nat := 0
  a : Operand := .frag []
  b : Operand := .frag []
  steps : Nat := 1
  done : Nat := 0
  chain : Bool := false
  zacc : Bool := false
  sat : Bool := false
  rm : Nat := 0
  tids : List Nat := []
  /-- join identifier and part (R130) -/
  ident : Nat := 0
  part : Nat := 0
  /-- PC of the `mjoin`, and the first fragment register (R95, R133) -/
  pc : DWord := 0
  base : Nat := 0
  /-- threads whose registers a part of a join still reads, by rank; none for one that has ended (R95, R126) -/
  reads : List (Option Nat) := []
  /-- registers whose release waits for the operand read (R45) -/
  lastUse : List Nat := []
  flags : Word := 0
  /-- tiles of which its operands read undefined values (R95) -/
  undef : List Nat := []
  deriving DecidableEq, Repr

/-- An open join (R130). -/
structure Join where
  /-- its place in the order of acceptance -/
  id : Nat := 0
  plot : Nat := 0
  ident : Nat := 0
  count : Nat := 1
  pair : Nat := 0
  b : Operand := .frag []
  chain : Bool := false
  sat : Bool := false
  parts : List Nat := []
  accs : List Nat := []
  /-- operations of its accepted parts (R132) -/
  ids : List Nat := []
  written : List Nat := []
  /-- B as its one read found it, by index (R130) -/
  bvals : List (List Nat) := []
  tids : List Nat := []
  flags : Word := 0
  deriving DecidableEq, Repr

/-- A tile-port operation in its order of arrival (R283). -/
structure TileOp where
  id : Nat := 0
  plot : Nat := 0
  /-- 0 tzero, 1 tld, 2 tst, 3 tmovin, 4 tmovout, 5 tcvt, 6 mscl -/
  kind : Nat := 0
  tile : Nat := 0
  src : Nat := 0
  desc : Operand := .frag []
  width : Nat := 32
  /-- conversion code (R222) or TYPE of the partial sums (R287) -/
  code : Nat := 0
  rsa : Nat := 0
  csa : Nat := 0
  rm : Nat := 0
  /-- threads in drill order, with rank and, for tmovin, the values -/
  shares : List (Nat × Nat × List Word) := []
  reg : Nat := 0
  tids : List Nat := []
  /-- thread and tile of the reads that give undefined values (R95) -/
  undef : List (Nat × Nat) := []
  /-- cycle in which its scratchpad reads have been made (R305) -/
  due : Nat := 0
  deriving DecidableEq, Repr

/-- A staged `tbl.ld` image (R289). -/
structure TblLoad where
  id : Nat := 0
  plot : Nat := 0
  bank : Bool := false
  image : BitVec 16512 := 0
  tids : List Nat := []
  /-- cycle in which its scratchpad reads have been made (R305) -/
  due : Nat := 0
  deriving DecidableEq, Repr

/-- A gather (R150). -/
structure Gather where
  id : Nat := 0
  plot : Nat := 0
  tids : List Nat := []
  base : Nat := 0
  idx : Nat := 0
  cnt : Nat := 0
  esz : Nat := 16
  stride : Nat := 0
  dest : Nat := 0
  obj : Nat := 0
  blk : Nat := 0
  done : Nat := 0
  /-- frozen by an engine fault (R141) -/
  frozen : Bool := false
  bad : Option Nat := none
  deriving DecidableEq, Repr

/-- A translation held by a TLB (R359). -/
structure Tr where
  ctx : Nat
  /-- virtual page base and size in bytes -/
  va : Nat
  size : Nat
  pa : Nat
  /-- device of a fabric window -/
  dev : Option Nat
  nc : Bool
  w : Bool
  deriving DecidableEq, Repr

/-- A pointer entry of a cluster's walk cache (R359): context, level of the table it names (1 to 3), the address bits above what that
table translates, and where the table stands. -/
structure WalkPtr where
  ctx : Nat
  level : Nat
  top : Nat
  base : Nat
  deriving DecidableEq, Repr

/-- A drill that occupies the lane pipe of an issue slot: first cycle, cycles, PC, and for each of its four lanes the active threads,
the drill's threads and the live threads beside the drill (R302, R425). -/
structure Occ where
  start : Nat := 0
  n : Nat := 1
  pc : DWord := 0
  lanes : List (Nat × Nat × Nat) := []
  deriving DecidableEq, Repr

/-- A lane-cycle count per (bin, class), at bin × 8 + class (R426), the capture state (R428), what is selected for detail records, as the
handle of a sheaf or as 2^32 + slot of a solitary thread (R430), and the drills in the lane pipes. -/
structure Profile where
  capture : Bool := false
  counts : Tbl Word := []
  selected : Option Nat := none
  occ : Tbl Occ := []
  /-- the host has stopped capture in this cycle (R428) -/
  stop : Bool := false
  deriving DecidableEq, Repr

/-- One core (R10, R36). -/
structure Core where
  cyc : Nat := 0
  roundRobin : Bool := false
  threads : Tbl Thread := []
  sheaves : Tbl Sheaf := []
  /-- next generation of a sheaf-table entry (R19) -/
  sheafGen : Tbl Nat := []
  plots : Tbl Plot := []
  /-- thread slots that staged plots hold (R25, R353) -/
  stagedSlots : List Nat := []
  frags : Tbl Frag := []
  /-- generation of each fragment entry (R154) -/
  fragGen : Tbl Nat := []
  fragSeq : Nat := 0
  /-- engine faults that found entries 0 to 62 in use (R155) -/
  fragWait : List Frag := []
  lanePol : Tbl Pol := []
  uniPol : Tbl Pol := []
  bins : Tbl Bin := []
  deposits : List Deposit := []
  /-- FSBASE (R365) -/
  fsbase : DWord := 0
  tiles : Tbl (BitVec 8192) := []
  busy : List Nat := []
  mops : List MatOp := []
  joins : List Join := []
  /-- operation that took the latest step (R131) -/
  mlast : Nat := 0
  /-- operation whose step is under way (R131) -/
  mcur : Option Nat := none
  /-- cycles the present step has taken (R124, R305) -/
  mrun : Nat := 0
  tops : List TileOp := []
  port : List PortUse := []
  tblOwner : Option Nat := none
  bank0 : BitVec 16512 := 0
  bank1 : BitVec 16512 := 0
  tblLoads : List TblLoad := []
  gathers : List Gather := []
  l1 : Tbl Line := []
  fifo : List Dirty := []
  /-- GWCTs of written-back lines that have not passed: sequence number, time, over the fabric (R88) -/
  gwcts : List (Nat × Nat × Bool) := []
  icache : Tbl Line := []
  tlb : List Tr := []
  /-- first cycle in which the LSU of an issue slot is free (R63, R306) -/
  lsu : Tbl Nat := []
  prof : Profile := {}
  deriving DecidableEq, Repr

/-- A copy command in a channel's queue (R140). -/
structure CopyCmd where
  core : Nat := 0
  plot : Nat := 0
  /-- threads whose D it fills, the first register of D, its producer, and whether the uniform pipe issued it -/
  tids : List Nat := []
  dreg : Nat := 0
  prod : Nat := 0
  unif : Bool := false
  /-- scratchpad address of the command block -/
  blk : Nat := 0
  /-- accepted: what the block and the record said; DEST and OBJ are scratchpad addresses -/
  accepted : Bool := false
  dest : Nat := 0
  rot : Nat := 0
  obj : Option Nat := none
  base : Nat := 0
  esz : Nat := 1
  /-- box origin, extent, stride and box size by dimension -/
  coords : List Int := []
  extents : List Nat := []
  strides : List Nat := []
  boxes : List Nat := []
  /-- padded bytes of the box, bytes delivered -/
  total : Nat := 0
  done : Nat := 0
  deriving DecidableEq, Repr

/-- A COPY node on a channel (R341, R348): addresses, bytes, bytes done, latest GWCT. -/
structure CopyJob where
  run : Nat := 0
  node : Nat := 0
  ctx : Nat := 0
  src : Nat := 0
  dst : Nat := 0
  bytes : Nat := 0
  done : Nat := 0
  gwct : Nat := 0
  /-- faulting address under service, whether a store faulted, and when (R361, R362) -/
  page : Nat := 0
  wr : Bool := false
  since : Nat := 0
  deriving DecidableEq, Repr

/-- A copy channel (R138 to R143). -/
structure Channel where
  wptr : Nat := 0
  cmds : List CopyCmd := []
  frozen : Bool := false
  /-- frozen for the host to decide (R348, R375), not for page service alone -/
  master : Bool := false
  /-- a COPY node the launcher placed here (R349) -/
  job : Option CopyJob := none
  deriving DecidableEq, Repr

/-- A drill that waits for page walks (R74, R359), or one that was issued and is to be carried out. -/
structure Drill where
  core : Nat := 0
  slot : Nat := 0
  pipe : Pipe := .lane
  pc : DWord := 0
  /-- thread slots in drill order (R64) -/
  tids : List Nat := []
  /-- the thread that supplied the PC (R32, R308) -/
  sup : Nat := 0
  /-- the rendezvous is complete: carry the collective out (R23) -/
  coll : Bool := false
  /-- pages whose walk failed for this drill, with the subcause (R357) -/
  failed : List (Nat × Nat) := []
  /-- it has waited for walks that have ended (R359; log 26) -/
  walked : Bool := false
  deriving DecidableEq, Repr

/-- A page walk (R359). -/
structure Walk where
  ctx : Nat
  page : Nat
  drills : List Drill
  deriving DecidableEq, Repr

/-- One cluster of 16 cores (R62, R138, R359). -/
structure Cluster where
  /-- scratchpad bytes at slice × 2^18 + physical offset -/
  scratch : List Host.Cell := []
  tlb : List Tr := []
  walkCache : List WalkPtr := []
  walks : Tbl Walk := []
  channels : Tbl Channel := []
  /-- the 16 L1s act as one (R67) -/
  fused : Bool := false
  /-- fusion is about to begin (true) or to end: the L1s are written back meanwhile (R67) -/
  fusing : Option Bool := none
  /-- 100 MHz steps below 2.4 GHz (R399) -/
  slow : Nat := 0
  /-- a stretched cycle (R400) -/
  droop : Bool := false
  /-- saved CORE value to present core, by field (R165, R267) -/
  routing : List (Nat × Nat) := []
  deriving DecidableEq, Repr

/-- What the home knows of a line (R79, R80, R83). The model's choice: the first lease of a line that has neither been written nor leased runs
for 64 ns, as after a write; R79 gives only the range of lengths. -/
structure HomeLine where
  ed : Nat := 0
  ef : Nat := 0
  len : Nat := 256
  gwct : Nat := 0
  deriving DecidableEq, Repr

/-- Where an access goes: this device's memory, or physical memory of another device (R68). -/
inductive Loc where
  | here (pa : Nat) (nc : Bool)
  | there (dev pa : Nat)
  deriving DecidableEq, Repr

/-- One thread's part of a load (R230 to R232). -/
structure LoadPart where
  tid : Nat := 0
  loc : Loc := .here 0 false
  /-- place in the order of the core's requests -/
  seq : Nat := 0
  data : Option Nat := none
  /-- the data met an uncorrectable error (R230) -/
  bad : Bool := false
  /-- the address the thread accesses (R160) -/
  va : Nat := 0
  /-- the thread's registers of the instruction as it found them (R148) -/
  cells : Tbl RegCell := []
  deriving DecidableEq, Repr

/-- An outstanding load of one drill (R47). -/
structure LoadOp where
  core : Nat := 0
  plot : Nat := 0
  pipe : Pipe := .lane
  size : Nat := 4
  signed : Bool := false
  dreg : Nat := 0
  nreg : Nat := 1
  parts : List LoadPart := []
  /-- masked-off threads that write 0 (R232) -/
  zeros : List Nat := []
  /-- active threads of a broadcast load beside the one that made the access (R231) -/
  also : List Nat := []
  /-- MSHRs taken (R70) -/
  mshr : Nat := 0
  /-- first cycle in which it may return (R306) -/
  due : Nat := 0
  /-- PC of the load (R148) -/
  pc : DWord := 0
  /-- device time of issue -/
  at_ : Nat := 0
  deriving DecidableEq, Repr

/-- One step of a combined atomic (R71, R236). -/
structure AtomStep where
  tid : Nat := 0
  /-- the address the thread accesses (R160) -/
  va : Nat := 0
  v : DWord := 0
  u : Word := 0
  rm : Nat := 0
  old : DWord := 0
  flags : Word := 0
  /-- the thread's registers of the instruction as it found them (R148) -/
  cells : Tbl RegCell := []
  deriving DecidableEq, Repr

/-- A combined atomic request (R71, R238). -/
structure AtomOp where
  core : Nat := 0
  plot : Nat := 0
  kind : Nat := 0
  sp : Bool := false
  loc : Loc := .here 0 false
  steps : List AtomStep := []
  ret : Bool := false
  dreg : Nat := 0
  performed : Bool := false
  gwct : Nat := 0
  /-- first cycle in which it may be acknowledged (R306) -/
  due : Nat := 0
  va : Nat := 0
  /-- number of its drill, which is the producer of its destinations: they fill together (R47) -/
  drill : Nat := 0
  /-- acknowledged, while another request of its drill is not -/
  acked : Bool := false
  /-- PC of the atomic (R148) -/
  pc : DWord := 0
  /-- device time of issue -/
  at_ : Nat := 0
  deriving DecidableEq, Repr

/-- A write-back of a line's dirty bytes (R81). -/
structure WBack where
  /-- core whose L1 held the line -/
  core : Nat := 0
  plots : List Nat := []
  line : Nat := 0
  dev : Option Nat := none
  data : BitVec 1024 := 0
  mask : BitVec 128 := 0
  seq : Nat := 0
  /-- device time of the line's first store (R81), and the threads that stored (R148) -/
  since : Nat := 0
  tids : List Nat := []
  /-- device time at which it set out (R89) -/
  sent : Nat := 0
  /-- a store to a no-cache page, which no L1 holds (R85, R91) -/
  direct : Bool := false
  deriving DecidableEq, Repr

/-- An `ldsp` (R241). -/
structure LdspReq where
  core : Nat := 0
  plot : Nat := 0
  tid : Nat := 0
  /-- issue slot of the drill: the source that its object records (R134) -/
  slot : Nat := 0
  /-- the other active threads of a uniform-pipe drill (R82) -/
  also : List Nat := []
  size : Nat := 4
  src : Loc := .here 0 false
  /-- physical scratchpad positions of the destination and of the object -/
  dst : Nat := 0
  obj : Nat := 0
  /-- MSHRs taken: one for each line a drill reads (R70, R242) -/
  mshr : Nat := 0
  /-- number of its drill (R242) -/
  drill : Nat := 0
  /-- bytes bound by an L1 hit -/
  data : Option Nat := none
  /-- device time of issue, and the address of the source (R422) -/
  at_ : Nat := 0
  va : Nat := 0
  deriving DecidableEq, Repr

/-- An `stn` (R273). -/
structure StnReq where
  core : Nat := 0
  plot : Nat := 0
  tid : Nat := 0
  /-- the other active threads of a uniform-pipe drill (R82, R88) -/
  also : List Nat := []
  /-- number of its drill; first cycles in which it is performed and in which its acknowledgement is back (R306) -/
  drill : Nat := 0
  due : Nat := 0
  ack : Nat := 0
  size : Nat := 4
  dst : Loc := .here 0 false
  data : BitVec 128 := 0
  obj : Nat := 0
  gwct : Option Nat := none
  va : Nat := 0
  /-- device time of issue -/
  at_ : Nat := 0
  deriving DecidableEq, Repr

/-- A request in flight. -/
inductive Req where
  | load (o : LoadOp)
  | atomic (o : AtomOp)
  | wback (o : WBack)
  | ldsp (o : LdspReq)
  | stn (o : StnReq)
  deriving DecidableEq, Repr

/-- State of a node of a run (R347). -/
inductive NodeSt where
  | waiting | ready | dispatched | reading | complete | skipped
  deriving DecidableEq, Repr

/-- A field being launched (R27, R349). -/
structure Field where
  hdrAddr : DWord := 0
  hdr : Header := {}
  plots : Nat := 1
  next : Nat := 0
  retired : Nat := 0
  readyAt : Nat := 0
  deriving DecidableEq, Repr

/-- A graph run (R333, R347). -/
structure Run where
  no : Nat := 0
  queue : Nat := 0
  ctx : Nat := 0
  gaddr : Nat := 0
  ncnt : Nat := 0
  tag : Word := 0
  compl : Nat := 0
  complv : DWord := 0
  sig : Bool := false
  gfence : Bool := false
  recs : Tbl (BitVec 512) := []
  cnt : Tbl Nat := []
  live : Tbl Bool := []
  sts : Tbl NodeSt := []
  /-- ready nodes in the order in which they became ready (R349) -/
  ready : List Nat := []
  fields : Tbl Field := []
  chosen : Tbl Bool := []
  /-- GWCT of a SIGNAL node's store (R348) -/
  acks : Tbl Nat := []
  failed : Bool := false
  deriving DecidableEq, Repr

/-- A staged plot (R353). -/
structure Staged where
  run : Nat
  node : Nat
  core : Nat
  plot : Plot
  /-- its sheaves: role, tines, size -/
  sheaves : List (Nat × List Nat × Nat) := []
  deriving DecidableEq, Repr

/-- A saved plot part with its slot of the pool (R368). -/
structure SavedPart where
  slot : Nat := 0
  plot : Plot := {}
  threads : Tbl Thread := []
  sheaves : Tbl Sheaf := []
  frags : Tbl Frag := []
  /-- engine faults that wait for an entry (R155) -/
  fragWait : List Frag := []
  deposits : List Deposit := []
  tiles : Tbl (BitVec 8192) := []
  tables : Option (BitVec 16512 × BitVec 16512) := none
  mops : List MatOp := []
  gathers : List Gather := []
  channels : Tbl Channel := []
  scratch : List Host.Cell := []
  device : Nat := 0
  oldCore : Nat := 0
  /-- collective operations that completed meanwhile: address of OBJ, and engine (R147) -/
  collArr : List (Nat × Nat) := []
  /-- index of the plot on the core that it was saved from (R143) -/
  oldPlot : Nat := 0
  deriving DecidableEq, Repr

/-- Bookkeeping of one queue beside its window-0 words (R331 to R335). -/
structure QueueSt where
  running : Option Nat := none
  lastTag : Word := 0
  lastTail : Nat := 0
  /-- tail that has reached the launcher (R335) -/
  seen : Word := 0
  /-- order of the latest RES write (R335) -/
  resAt : Nat := 0
  /-- completion time of the latest COMPL store (R333, R360) -/
  gwct : Nat := 0
  /-- tail writes not yet tied to a run: first index, new tail, time (R411, R419) -/
  tailRecs : List (Word × Word × Nat) := []
  deriving DecidableEq, Repr

/-- A firmware event: ordering key, what it is, its operands, when it came (R336, R337). -/
structure FwEvent where
  key : Nat
  what : Nat
  x : Nat
  y : Nat
  since : Nat
  deriving DecidableEq, Repr

/-- A firmware core (R336, R337). -/
structure FwCore where
  busy : Option Nat := none
  retained : Bool := false
  idleSince : Nat := 0
  deriving DecidableEq, Repr

/-- A page request (R362). -/
structure PageReq where
  id : Nat
  ctx : Nat
  page : Nat
  va : Nat
  wr : Bool
  eng : Bool
  posted : Bool
  time : Nat
  deriving DecidableEq, Repr

/-- A migration under way (R363): old page, its size, the leaf entry and the new page; have the old homes drained? -/
structure Migr where
  old : Nat
  size : Nat
  entry : Nat
  dst : Nat
  /-- context of the leaf, and the number of the first request that comes after the invalidation (R360, R364) -/
  ctx : Nat := 0
  since : Nat := 0
  drained : Bool := false
  deriving DecidableEq, Repr

/-- A launcher access under page service: run, node, faulting address (R342, R362). -/
structure LaunchWait where
  run : Nat
  node : Nat
  page : Nat
  /-- device time of the fault (R362) -/
  since : Nat := 0
  deriving DecidableEq, Repr

/-- A step of a collective operation that has started and not ended (R318 to R320, R435). -/
structure CollStep where
  /-- number within the operation, from 0 -/
  idx : Nat := 0
  /-- STEP of its CID (R419) -/
  no : Nat := 0
  start : Nat := 0
  sent : Bool := false
  /-- contributions received, by rank -/
  got : Tbl (List Byte) := []
  /-- their CIDs (R419) -/
  cids : Tbl DWord := []
  written : Bool := false
  warned : Bool := false
  deriving DecidableEq, Repr

/-- A collective operation (R144, R318, R435). -/
structure CollOp where
  id : Nat := 0
  cid : DWord := 0
  comm : Nat := 0
  op : Nat := 0
  type : Nat := 0
  red : Nat := 0
  pri : Nat := 0
  root : Nat := 0
  /-- bytes of a chunk -/
  chunk : Nat := 65536
  src : Nat := 0
  dst : Nat := 0
  count : Nat := 0
  /-- core and plot that issued it with the scratchpad addresses of the block and of OBJ; or the COLL node -/
  core : Nat := 0
  plot : Nat := 0
  blk : Nat := 0
  obj : Nat := 0
  node : Option (Nat × Nat) := none
  /-- device time of `coll.start` (R146) -/
  issued : Nat := 0
  /-- steps before its first one within its node CID (R419) -/
  base : Nat := 0
  /-- the first words of the block break a check (R144): SUB -/
  bad : Option Nat := none
  /-- steps in flight, number of the next send unit, steps ended -/
  steps : List CollStep := []
  /-- steps not yet started here for which contributions have landed (R318: the receive side never waits) -/
  early : List CollStep := []
  next : Nat := 0
  ended : Nat := 0
  gwct : Nat := 0
  frozen : Bool := false
  /-- faulting address under service, whether a store faulted, and when (R361, R362) -/
  page : Nat := 0
  wr : Bool := false
  since : Nat := 0
  /-- slot of the save pool that holds its plot (R147) -/
  savedAt : Option Nat := none
  /-- it faulted while its plot was saved: the fragment comes with the restore, for page service or not (R435) -/
  owes : Option Bool := none
  deriving DecidableEq, Repr

/-- A communicator (R144, R320, R424). -/
structure Comm where
  engine : Nat := 0
  cls : Nat := 0
  /-- device number by rank -/
  ranks : List Nat := []
  me : Nat := 0
  ctx : Nat := 0
  /-- room in the peers' reserved buffers, in bytes, by rank (R146) -/
  room : Tbl Nat := []
  /-- chunks sent whose room has not come back, oldest first: operation, step, rank, bytes, CID (R146, R419) -/
  owed : List (Nat × Nat × Nat × Nat × DWord) := []
  /-- chunks and tokens landed here and not yet taken by a step, by rank, with their CIDs (R318, R419) -/
  landed : Tbl (List (DWord × List Byte)) := []
  /-- chunks whose packet was dropped: rank and CID (R381) -/
  lost : List (Nat × DWord) := []
  done : Word := 0
  ops : List CollOp := []
  /-- durations of the last 64 ended steps, by operation kind (R320) -/
  durs : Tbl (List Nat) := []
  lastCid : Tbl DWord := []
  deriving DecidableEq, Repr

/-- A packet that waits on a link or at this device (R381, R382). -/
structure Packet where
  link : Option Nat
  /-- link it arrived on; none when this device sent it -/
  via : Option Nat
  cls : Nat
  hop : Nat
  source : Nat
  dest : Nat
  since : Nat
  cid : DWord
  /-- flits that it takes of a channel's buffer (R382; log 65) -/
  flits : Nat := 1
  /-- the own far request that it carries, by its place in the order (R148) -/
  req : Option Nat := none
  /-- the chunk that it carries: communicator and bytes (R146, R383) -/
  chunk : Option (Nat × Nat) := none
  deriving DecidableEq, Repr

/-- A request of another device that its frozen stream holds at the port (R162, R376). -/
structure HeldRequest where
  link : Nat
  source : Nat
  address : Nat
  op : Nat
  data : List Byte
  len : Nat
  cid : DWord
  deriving DecidableEq, Repr

/-- How far the packet of an own far request has come: it stands in this device, it has left on a link, or it was dropped, on a
key-stalled link or not (R148, R381, R387). -/
inductive Way where
  | queued | left
  | lost (stalled : Bool)
  deriving DecidableEq, Repr

/-- Keys of one link direction (R385, R386). -/
structure LinkKeys where
  txCur : Option Nat := none
  txNext : Option Nat := none
  rxCur : Option Nat := none
  rxNext : Option Nat := none
  rxPhase : Nat := 0
  resent : Bool := false
  /-- the latest group sent has been requested once more by the partner (R385) -/
  again : Bool := false
  /-- partner's domain at the last training -/
  pdom : Nat := 0
  deriving DecidableEq, Repr

/-- One record of the recorder (R408). -/
structure Rec where
  time : Nat
  cid : DWord
  unit : Word
  type : BitVec 16
  flags : BitVec 16
  payload : DWord
  deriving DecidableEq, Repr

/-- One granary segment (R412 to R414). -/
structure Segment where
  /-- held by its class; a freed segment keeps what stands in it -/
  held : Bool := true
  cls : Nat := 0
  seq : Nat := 0
  drops : Nat := 0
  htime : Nat := 0
  ebnd : Word := 0
  fbnd : Word := 0
  lock : Bool := false
  /-- records from slot 2 on, and what stood in the slots before (R412) -/
  recs : List Rec := []
  old : List Rec := []
  deriving DecidableEq, Repr

/-- A frozen master (R375). -/
structure Frozen where
  kind : Nat
  id : Nat
  group : Nat
  time : Nat
  deriving DecidableEq, Repr

/-- The security processor (R389 to R396). -/
structure Sec where
  lifecycle : Nat := 2
  /-- fuse to take effect at the next reset (R396) -/
  nextLifecycle : Nat := 2
  measure : Tbl (BitVec 512) := []
  nonce : Option (BitVec 256) := none
  nonces : Nat := 0
  /-- epoch of the per-boot device key (R365, R395) -/
  bootKey : Nat := 0
  /-- tenant key number by context (R366) -/
  tenantKeys : Tbl Nat := []
  keyNo : Nat := 1
  recovery : Bool := false
  imageSvn : Word := 0
  deriving DecidableEq, Repr

/-- Time discipline of R406. -/
structure Disc where
  /-- bound e in quarter-nanoseconds, before an exchange the least for which EBND is all ones (R405; log 20); the time of the latest
  exchange, the growth since, F of the reference in ns -/
  e : Nat := 0x1FFFFFFFE
  last : Nat := 0
  grown : Nat := 0
  fRef : Option Nat := none
  /-- offset still to be slewed away, in quarter-nanoseconds (R403) -/
  slew : Int := 0
  /-- since a reset: no bound is known; the record of the lost lock is due; the device was locked before and is not again; the
  reset-end record waits for that; the links that were retrained (R313) -/
  fresh : Bool := false
  unlockDue : Bool := false
  relock : Bool := false
  endDue : Bool := false
  retrained : Nat := 0
  deriving DecidableEq, Repr

/-- Why the machine stops. Safe: the hardware may go on where the model stops. -/
inductive Fault where
  /-- A physical address that is neither HBM (below 768 GiB) nor host memory (PA[47] = 1) is reached, R356: raised where
  a page walk ends on such an address and where a request of another device names one. Safe: nothing is claimed of such
  an access. -/
  | physicalHole
  deriving DecidableEq, Repr

/-- Why a step has no meaning. -/
inductive Refusal where
  /-- An instruction without a meaning in this model, by its mnemonic: raised by the dispatcher alone. Safe. -/
  | notModelled (mnemonic : String)
  deriving DecidableEq, Repr

/-- The machine. -/
structure State where
  /-- core-clock ticks since reset in twelfths of a nanosecond (log 6) -/
  ticks : Nat := 0
  /-- device time in quarter-nanoseconds (R402) -/
  now : Nat := 0
  cores : Tbl Core := []
  clusters : Tbl Cluster := []
  /-- physical memory of this device and its host (R356) -/
  mem : List Host.Cell := []
  /-- lines written under a tenant key, with the key (R366) -/
  lineKeys : Tbl Nat := []
  /-- places whose contents meet an uncorrectable error when they are read, as `linePlace`, `tilePlace` and `scratchPlace` number them (R55,
  R133, R230, R242; log 79) -/
  bad : List Nat := []
  homes : Tbl HomeLine := []
  /-- leased copies in non-home L2s, at die × 2^63 + line (R78) -/
  l2 : Tbl Line := []
  reqs : Tbl Req := []
  nextId : Nat := 1
  /-- words of window 0 that differ from their reset value, by offset (R5) -/
  w0 : Tbl Word := []
  queues : Tbl QueueSt := []
  runs : Tbl Run := []
  runNo : Nat := 0
  nodeCache : Tbl (BitVec 512) := []
  hdrCache : Tbl (List Byte) := []
  staged : List Staged := []
  /-- drills whose walks have ended, in that order (R359; log 26) -/
  walked : List Drill := []
  savedParts : Tbl SavedPart := []
  resHeld : List Nat := []
  fwEvents : List FwEvent := []
  fwCores : Tbl FwCore := []
  overflowed : Bool := false
  pageReqs : List PageReq := []
  nextReq : Nat := 1
  launchWaits : List LaunchWait := []
  comms : Tbl Comm := []
  /-- collective operations that failed their checks and did not start (R144) -/
  collHeld : List CollOp := []
  /-- collective steps numbered so far, by node CID (R419) -/
  stepNos : Tbl Nat := []
  /-- entries of route banks 0 and 1 by device, and the bank that governs (R380) -/
  routes0 : Tbl Word := []
  routes1 : Tbl Word := []
  routeBank : Bool := false
  packets : List Packet := []
  /-- own requests to other devices whose packet has been made, by their place in the order (R148, R381) -/
  ways : Tbl Way := []
  /-- flits of the partner's receive buffers that are taken, by link, class and hop (R382) -/
  credit : Tbl Nat := []
  keys : Tbl LinkKeys := []
  frozen : List Frozen := []
  frozenStreams : List (Nat × Nat) := []
  heldRequests : List HeldRequest := []
  sec : Sec := {}
  disc : Disc := {}
  ports : Tbl (List Rec) := []
  segments : Tbl Segment := []
  granarySig : Bool := true
  lastTime : Nat := 0
  /-- summary intervals ended since reset, and the device time of the latest end (R429) -/
  interval : Nat := 0
  sumAt : Nat := 0
  /-- rails that are good: IOD, base dies, compute dies (R401) -/
  rails : Nat := 3
  tripped : Bool := false
  railFault : Option Nat := none
  /-- answer of the latest read over the management path, as state, tag code, armed and value (R433), or through window 2 (R329) -/
  mgmt : Option (Nat × Nat × Bool × Word) := none
  hostRead : List Byte := []
  /-- the latest register write that an event carries on (R5): offset and value -/
  wrOff : Nat := 0
  wrVal : DWord := 0
  /-- latest GWCT of the window-2 writes (R330) -/
  winGwct : Nat := 0
  mig : Option Migr := none
  /-- an invalidation under way: requests with lower numbers came before it; then the time that their GWCTs end (R360) -/
  inval : Option (Nat × Option Nat) := none
  /-- the model's own: counter of free values (log 2) -/
  free : Nat := 0
  /-- the model's own: acts of the agents in the order in which they come (log 2) -/
  agenda : List Instr := []
  /-- the model's own: drills issued and not yet carried out (log 5) -/
  issued : List Drill := []
  /-- the model's own: the drill whose instruction is carried out, and its length in words (log 5) -/
  cur : Drill := {}
  curLen : Nat := 1
  deriving DecidableEq, Repr

/-- Extend(n, e) of R391: the measurement after it. -/
def extendWith (m : BitVec 512) (e : List Byte) : BitVec 512 := Config.shake256 (natLe 64 m.toNat ++ e)
/-- The 32-bit LCSTATE word without DBGU and SCOPE (R390). -/
def lcWord (lifecycle : Nat) : Word := BitVec.ofNat 32 (Config.fusedSvn.toNat * 256 + lifecycle)
/-- What the ROM measures before it reads the image, and from the image that it accepts (R391). -/
def romMeasure : Tbl (BitVec 512) := [(0, extendWith 0 (Config.romDigest ++ Config.fuseImage))]
def imageMeasure (lifecycle : Nat) (image : List Byte) : Tbl (BitVec 512) :=
  romMeasure ++ [(1, extendWith 0 (natLe 64 (Config.shake256 image).toNat)), (2, extendWith 0 (natLe 4 (lcWord lifecycle).toNat))]
/-- A record without CID, flags and payload (R408). -/
def plainRec (time : Nat) (unit : Word) (type : BitVec 16) : Rec := { time := time, cid := 0, unit := unit, type := type, flags := 0, payload := 0 }

/-- The machine right after a cold reset that finds no granary signature and an acceptable firmware image (R377, R378, R391, R404,
R417): no plot, no queue, no context; memory scrubbed; device time 0; every window-0 word at its reset value; the granary-empty record
and the two records of the reset in their ports. Values the spec does not give stand in log 3, 8, 18, 19 and 20. -/
def State.reset : State :=
  { sec := { measure := imageMeasure 2 Config.flashImage, imageSvn := Config.imageSvn Config.flashImage }
    disc := { fresh := true, retrained := 0xFFFFFFFF }
    ports := [(0x80000000, [plainRec 0 0x80000000 0x0501, { plainRec 0 0x80000000 0x0502 with payload := 0xFFFFFFFF }]), (0x90000000, [plainRec 0 0x90000000 0x0505])] }

end Sys2Proof.Machine
end

