-- ==== Sys2Proof/Machine/Ops.lean ====
section
/-!
DEFINITION. The named operations over the state: cores and threads, bytes of memory, words of window 0, the recorder's ports
and the host event ring, and the taking of a fault (R152 to R162) with the return from one (R157) beside it.
-/
namespace Sys2Proof.Machine
open Sys2Proof

/-- What every meaning answers. -/
abbrev Out := Host.Outcome State Fault Refusal

/-! ### Parts of the machine -/

/-- Core ci; one that nothing has touched is as reset left it, with the cycles since (R293). -/
def getCore (s : State) (ci : Nat) : Core := tgetD s.cores ci { cyc := s.ticks / Config.ticksPerCycle }
/-- Put core ci. -/
def putCore (s : State) (ci : Nat) (c : Core) : State := { s with cores := tput s.cores ci c }
/-- Change core ci. -/
def updCore (s : State) (ci : Nat) (f : Core → Core) : State := putCore s ci (f (getCore s ci))
/-- Cluster k. -/
def getCluster (s : State) (k : Nat) : Cluster := tgetD s.clusters k {}
/-- Change cluster k. -/
def updCluster (s : State) (k : Nat) (f : Cluster → Cluster) : State :=
  { s with clusters := tput s.clusters k (f (getCluster s k)) }
/-- Thread tid of core ci. -/
def getThread (s : State) (ci tid : Nat) : Option Thread := tget (getCore s ci).threads tid
/-- Change a thread of a core, if it is there. -/
def updThreadC (c : Core) (tid : Nat) (f : Thread → Thread) : Core := { c with threads := tupd c.threads tid f }
/-- Change thread tid of core ci, if it is there. -/
def updThread (s : State) (ci tid : Nat) (f : Thread → Thread) : State := updCore s ci fun c => updThreadC c tid f
/-- Change every listed thread of core ci. -/
def updThreads (s : State) (ci : Nat) (l : List Nat) (f : Thread → Thread) : State :=
  updCore s ci fun c => { c with threads := tmap c.threads fun t th => if l.contains t then f th else th }
/-- Change every listed thread of core ci, by its slot. -/
def updThreads' (s : State) (ci : Nat) (l : List Nat) (f : Nat → Thread → Thread) : State :=
  updCore s ci fun c => { c with threads := tmap c.threads fun t th => if l.contains t then f t th else th }
/-- Plot pi of core ci. -/
def getPlot (c : Core) (pi : Nat) : Plot := tgetD c.plots pi {}
/-- Change plot pi of core ci, if it is there. -/
def updPlot (s : State) (ci pi : Nat) (f : Plot → Plot) : State :=
  updCore s ci fun c => { c with plots := tupd c.plots pi f }
/-- Cluster of a core (R2). -/
def clusterOf (ci : Nat) : Nat := ci / Config.coresPerCluster
/-- Issue slot of a thread (R10). -/
def slotOf (tid : Nat) : Nat := tid / 64
/-- Tine of a thread (R10). -/
def tineOf (tid : Nat) : Nat := tid / 4
/-- Core lane and lane bank of a thread (R10). -/
def laneOf (tid : Nat) : Nat := 4 * (tid / 64) + tid % 4
/-- Role of a thread in its plot's header; a handler has floor 16, peak 64 (R49). -/
def roleInfo (p : Plot) (role : Nat) : RoleInfo :=
  if role = 4 then { floor := 16, peak := 64, z := 4 } else p.roles.getD role {}
/-- Live members of a sheaf: the threads that name it, by thread slot (R19). -/
def members (c : Core) (k : Nat) : List (Nat × Thread) := c.threads.filter fun e => e.2.sheaf == some k
/-- The sheaf-table handle of entry k of core ci (R19). -/
def handleOf (ci k gen : Nat) : Word := BitVec.ofNat 32 (ci * 2 ^ 20 + (k / 64) * 2 ^ 18 + (k % 64) * 2 ^ 12 + gen)
/-- What `csr.rd sheaf` reads (R19, R293). -/
def threadHandle (ci : Nat) (c : Core) (th : Thread) : Word :=
  match th.sheaf with
  | none => 0xFFFFFFFF
  | some k => let sh := tgetD c.sheaves k {}; handleOf (sh.core0.getD ci) k sh.gen

/-- A fresh number for a request, a producer or an operation. -/
def freshId (s : State) : Nat × State := (s.nextId, { s with nextId := s.nextId + 1 })
/-- The next free value (R6; log 2). -/
def freeVal (s : State) : Word × State := (Config.freeWord s.free, { s with free := s.free + 1 })

/-! ### Bytes -/

/-- One byte of memory; an unlisted one reads 0 (R377; log 3). -/
def memGet : List Host.Cell → Nat → Byte
  | [], _ => 0
  | (j, v) :: t, a => if j = a then v else memGet t a
/-- Write one byte; the list stays ascending and holds no 0. -/
def memSet : List Host.Cell → Nat → Byte → List Host.Cell
  | [], a, b => if b = 0 then [] else [(a, b)]
  | (j, v) :: t, a, b =>
    if j = a then (if b = 0 then t else (a, b) :: t)
    else if a < j then (if b = 0 then (j, v) :: t else (a, b) :: (j, v) :: t)
    else (j, v) :: memSet t a b
/-- The canonical form of memory: addresses rise strictly, and no entry holds what an unlisted byte reads as. -/
def memWf (m : List Host.Cell) : Bool := tsorted m && m.all fun e => e.2 != 0
/-- n bytes from a. -/
def memRead (m : List Host.Cell) (a n : Nat) : List Byte := (List.range n).map fun k => memGet m (a + k)
/-- Write a run of bytes at a. -/
def memWrite : List Host.Cell → Nat → List Byte → List Host.Cell
  | m, _, [] => m
  | m, a, b :: r => memWrite (memSet m a b) (a + 1) r
/-- The number of n bytes at a. -/
def memNat (m : List Host.Cell) (a n : Nat) : Nat := leNat (memRead m a n)
/-- Write the low n bytes of a number at a. -/
def memPut (m : List Host.Cell) (a n x : Nat) : List Host.Cell := memWrite m a (natLe n x)
/-- Physical memory of this device and its host. -/
def physRead (s : State) (a n : Nat) : List Byte := memRead s.mem a n
/-- Write physical memory. -/
def physWrite (s : State) (a : Nat) (l : List Byte) : State := { s with mem := memWrite s.mem a l }
/-! ### Window 0 -/

/-- The reset value of the window-0 word at an offset, where it is not 0 (R379, R415, R405, R427, R424). -/
def resetWord (off : Nat) : Word :=
  if 0x120100 ≤ off ∧ off < 0x120200 ∧ off % 32 = 0 then 2047
  else if off = 0x100008 then 100
  else if off = 0x110008 ∨ off = 0x11000C ∨ off = 0x110010 then 0xFFFFFFFF
  else if off = 0x140018 then 10000
  else if 0x130000 ≤ off ∧ off < 0x130800 ∧ off % 8 = 4 then 1000000
  else 0
/-- The word at a window-0 offset. -/
def reg32 (s : State) (off : Nat) : Word := (tget s.w0 off).getD (resetWord off)
/-- Set a window-0 word; the table lists only words that differ from their reset value. -/
def setReg32 (s : State) (off : Nat) (v : Word) : State :=
  { s with w0 := if v = resetWord off then tdel s.w0 off else tput s.w0 off v }
/-- The 64-bit register at an offset (R4). -/
def reg64 (s : State) (off : Nat) : Nat := (reg32 s off).toNat + 2 ^ 32 * (reg32 s (off + 4)).toNat
/-- Set a 64-bit register. -/
def setReg64 (s : State) (off v : Nat) : State := setReg32 (setReg32 s off (BitVec.ofNat 32 v)) (off + 4) (BitVec.ofNat 32 (v / 2 ^ 32))
/-- The word at an offset as a number. -/
def regN (s : State) (off : Nat) : Nat := (reg32 s off).toNat
/-- Set a word from a number. -/
def setRegN (s : State) (off v : Nat) : State := setReg32 s off (BitVec.ofNat 32 v)
/-- Bit i of a word. -/
def regBit (s : State) (off i : Nat) : Bool := (regN s off).testBit i
/-- Set or clear bit i of a word. -/
def setRegBit (s : State) (off i : Nat) (b : Bool) : State :=
  setRegN s off (if b then maskSet (regN s off) i else maskClear (regN s off) i)

/-- Base of the save pool (R367). -/
def poolBase (s : State) : Nat := reg64 s 0x35000 / 2 ^ 20 % 2 ^ 28 * 2 ^ 20
/-- Does an address lie in a slot of a saved plot (R367)? -/
def inSavedSlot (s : State) (a : Nat) : Bool := decide (poolBase s ≤ a) && s.savedParts.any fun e => e.2.slot == (a - poolBase s) / 2 ^ 20

/-! ### Memory under keys (R366) -/

/-- Key of a context's HBM lines; 0 is the per-boot device key (R366). -/
def ctxKey (s : State) (ctx : Nat) : Nat := tgetD s.sec.tenantKeys ctx s.sec.bootKey
/-- A byte of physical memory under a key: a line that another key wrote reads as noise (R366). -/
def keyedByte (s : State) (key a : Nat) : Byte :=
  let k := tgetD s.lineKeys (a / 128 * 128) 0
  if a < Config.hbmBytes ∧ k ≠ key then Config.noise k key a (memNat s.mem (a / 16 * 16) 16) else memGet s.mem a
/-- n bytes of it. -/
def keyedBytes (s : State) (key pa n : Nat) : List Byte := (List.range n).map fun i => keyedByte s key (pa + i)
/-- What software reads of physical memory, by a core, an engine, another device or the host: nothing of the slot of a saved plot, which gives
all ones; R367 says so of window 2, and for the others it is the model's choice (log 88). -/
def keyedRead (s : State) (key pa n : Nat) : List Byte :=
  (List.range n).map fun i => if inSavedSlot s (pa + i) then 0xFF else keyedByte s key (pa + i)
/-- Put a line under a key: what stands in it under another key becomes noise (R366). -/
def rekeyLine (s : State) (key line : Nat) : State :=
  if line ≥ Config.hbmBytes ∨ tgetD s.lineKeys line 0 = key then s
  else { s with mem := memWrite s.mem line (keyedBytes s key line 128), lineKeys := if key = 0 then tdel s.lineKeys line else tput s.lineKeys line key }
/-- Write physical bytes under a key. -/
def keyedWrite (s : State) (key pa : Nat) (l : List Byte) : State :=
  let lines := (List.range ((pa % 128 + l.length + 127) / 128)).map fun i => (pa / 128 + i) * 128
  physWrite (lines.foldl (fun s x => rekeyLine s key x) s) pa l

/-- A word of a core's fallow store, whose lines are under the per-boot device key (R365, R366). -/
def fallowGet (s : State) (a : Nat) : Word := BitVec.ofNat 32 (leNat (keyedBytes s s.sec.bootKey a 4))
/-- Write a word of a fallow store. -/
def fallowPut (s : State) (a : Nat) (w : Word) : State := keyedWrite s s.sec.bootKey a (natLe 4 w.toNat)
/-- Number of the place of a physical line (R55, R230). -/
def linePlace (pa : Nat) : Nat := pa / 128
/-- Number of the place of a tile (R133). -/
def tilePlace (ci tile : Nat) : Nat := 2 ^ 61 + ci * 32 + tile
/-- Number of the place of 128 bytes of a cluster's scratchpad (R230). -/
def scratchPlace (cl pos : Nat) : Nat := 2 ^ 62 + cl * 2 ^ 20 + pos / 128
/-- Does one of n bytes of physical memory stand with an uncorrectable error? -/
def lineBad (s : State) (pa n : Nat) : Bool := s.bad.any fun x => decide (linePlace pa ≤ x) && decide (x ≤ linePlace (pa + n - 1))

/-- Is the range in HBM or in host memory (R356)? -/
def physOk (a n : Nat) : Bool := decide (a + n ≤ Config.hbmBytes) || (decide (Config.hostBase ≤ a) && decide (a + n ≤ 2 * Config.hostBase))
/-- Physical address of a host address (R338, R356; log 22). -/
def hostPa (a : Nat) : Nat := Config.hostBase + a % Config.hostBase

/-! ### Fabric time -/

/-- Is the device locked to fabric time (R100, R405, R406)? -/
def locked (s : State) : Bool := regBit s 0x110004 31

/-! ### Links and packets (R379 to R384) -/

/-- The device number (R379). -/
def deviceNo (s : State) : Nat := regN s 0x100000 % 2 ^ 14
/-- Offset of a link's registers (R384). -/
def linkOff (l : Nat) : Nat := 0x101000 + 64 * l
/-- STATE of a link: 0 down, 1 training, 2 identified, 3 up, 4 key-stalled (R384). -/
def linkState (s : State) (l : Nat) : Nat := fieldN (regN s (linkOff l)) 31 29
/-- Usable link of a device's route entry: the first alternative that is valid and up (R381). -/
def egressLink (s : State) (dest : Nat) : Option Nat :=
  let e := (tgetD (if s.routeBank then s.routes1 else s.routes0) dest 0).toNat
  ((List.range 4).map fun a => e / 2 ^ (8 * a) % 256).findSome? fun b =>
    let l := b % 32
    if b.testBit 7 && linkState s l == 3 then some l else none
/-- Flits of a packet, 1 to the 8 of a channel's buffer, which the spec does not give (R382; log 65). -/
def flitsNow (s : State) : Nat := Config.freePick s.free % 8 + 1
/-- A packet that this device sends, or passes on, is queued on the link of its first usable alternative, or waits (R381). -/
def queuePacket (s : State) (p : Packet) : State :=
  { s with packets := s.packets ++ [{ p with link := egressLink s p.dest, flits := flitsNow s }], free := s.free + 1 }
/-- A packet that this device sends, of a class, to a device: hop 0 (R382). -/
def ownPacket (s : State) (cls dest : Nat) (cid : DWord) : Packet :=
  { link := none, via := none, cls := cls, hop := 0, source := deviceNo s, dest := dest, since := s.now, cid := cid }

/-! ### The recorder (R408 to R411) and the host event ring (R338, R339) -/

/-- UNIT words (R409). -/
def unitCore (ci : Nat) (slot : Option Nat) : Word :=
  match slot with
  | none => BitVec.ofNat 32 ci
  | some k => BitVec.ofNat 32 (2 ^ 14 + k * 2 ^ 12 + ci)
/-- A unit of another kind (R409). -/
def unitOf (kind id : Nat) : Word := BitVec.ofNat 32 (kind * 2 ^ 28 + id)

/-- Class of an event type (R410). -/
def classOf (t : Nat) : Nat :=
  if t ≥ 0xF000 then 0 else if t < 0x100 then 1 else if t < 0x200 then 2 else if t < 0x300 then 3 else if t < 0x400 then 4
  else if t < 0x500 then 5 else if t < 0x600 then 6 else 7

/-- Count a dropped record of a class, saturating (R411, R415). -/
def countDrop (s : State) (cls : Nat) : State :=
  let off := 0x120104 + 32 * cls
  if reg32 s off = 0xFFFFFFFF then s else setReg32 s off (reg32 s off + 1)

/-- The trace port of a unit: the issue slots of a core share the core's (R296, R411). -/
def portOf (u : Word) : Nat := if u.toNat / 2 ^ 28 = 0 then u.toNat % 2 ^ 12 else u.toNat
/-- Emit a record through a unit's trace port of 16 (R411). -/
def emitRec (s : State) (r : Rec) : State :=
  let port := tgetD s.ports (portOf r.unit) []
  if port.length ≥ 16 then countDrop s (classOf r.type.toNat) else { s with ports := tput s.ports (portOf r.unit) (port ++ [r]) }

/-- Emit a record with the device time of now. -/
def emitR (s : State) (unit : Word) (type : Nat) (cid : DWord) (payload : Nat := 0) (flags : Nat := 0) : State :=
  emitRec s { time := s.now, cid := cid, unit := unit, type := BitVec.ofNat 16 type, flags := BitVec.ofNat 16 flags, payload := BitVec.ofNat 64 payload }

/-- Free slots of the host event ring (R338). -/
def ringFree (s : State) : Nat :=
  2 ^ (regN s 0x20008 % 16) - (reg32 s 0x20014 - reg32 s 0x20010).toNat

/-- Write one entry of 32 bytes at ERTAIL (R338). -/
def ringWrite (s : State) (queue kind : Nat) (tag : Word) (data count : Nat) : State :=
  let lg := regN s 0x20008 % 16
  let n := regN s 0x20014
  let a := hostPa (reg64 s 0x20000 + 32 * (n % 2 ^ lg))
  let w3 := (if n.testBit lg then 2 ^ 31 else 0) + count % 2 ^ 31
  let s := physWrite s a (natLe 4 (queue * 2 ^ 16 + kind) ++ natLe 4 tag.toNat ++ natLe 8 data ++ natLe 8 s.now ++ natLe 4 w3 ++ natLe 4 0)
  setReg32 s 0x20014 (reg32 s 0x20014 + 1)

/-- Post an ordinary entry; with fewer than two free slots it is withheld and counted, and the first withheld one writes the
overflow entry (R339). Queue 0xFFFF: no queue. -/
def ringPost (s : State) (queue kind : Nat) (tag : Word) (data : Nat := 0) : State :=
  if !regBit s 0x20008 31 then s
  else if decide (ringFree s ≥ 2) && !s.overflowed then ringWrite s queue kind tag data 1
  else
    let s := if queue = 0xFFFF then countDrop s 5 else setReg32 s (0x1001C + 32 * queue) (reg32 s (0x1001C + 32 * queue) + 1)
    if s.overflowed then s
    else { (if ringFree s ≥ 1 then ringWrite s 0xFFFF 3 0 0 1 else s) with overflowed := true }

/-- Set a QERR bit of a queue and post the kind-2 entry that reports it (R331, R338, R339). -/
def queueError (s : State) (q bit : Nat) : State :=
  ringPost (setRegBit s (0x10018 + 32 * q) bit true) q 2 (tgetD s.queues q {}).lastTag (2 ^ bit)

/-! ### Faults (R152 to R162) -/

/-- One thread's fault: group and detail words (R159, R160). -/
structure FaultRec where
  group : Nat
  det0 : Word := 0
  det1 : Word := 0
  det2 : Word := 0
  deriving DecidableEq, Repr

/-- The subcause that separates fragments; groups without a SUB field count as 0 (R153). -/
def subOf (f : FaultRec) : Nat := if [2, 4, 10, 11, 12, 13].contains f.group then 0 else f.det0.toNat % 64

/-- A memory fault (R75). -/
def memFault (sub size : Nat) (wr sp : Bool) (addr : Nat) : FaultRec :=
  { group := 1, det0 := BitVec.ofNat 32 (size * 256 + wr.toNat * 128 + sp.toNat * 64 + sub)
    det1 := BitVec.ofNat 32 addr, det2 := if sp then 0 else BitVec.ofNat 32 (addr / 2 ^ 32) }
/-- A register fault (R160 group 5). -/
def regFault (sub reg : Nat) : FaultRec := { group := 5, det0 := BitVec.ofNat 32 (reg * 256 + sub) }
/-- A control-flow fault at a target (R160 group 4). -/
def flowFault (target : DWord) : FaultRec := { group := 4, det1 := target.setWidth 32, det2 := (target >>> 32).setWidth 32 }
/-- A sheaf fault (R160 group 6). -/
def sheafFault (sub : Nat) (handle : Word) (pc : DWord := 0) : FaultRec :=
  { group := 6, det0 := BitVec.ofNat 32 sub, det1 := handle, det2 := pc.setWidth 32 }
/-- An engine fault (R151): subcause, KIND, UNIT, block or object address, bytes or elements completed. -/
def engFault (sub kind unit blk prog : Nat) : FaultRec :=
  { group := 7, det0 := BitVec.ofNat 32 (unit * 4096 + kind * 256 + sub), det1 := BitVec.ofNat 32 blk, det2 := BitVec.ofNat 32 prog }
/-- A fabric fault at an address (R160 group 8). -/
def fabFault (sub addr : Nat) : FaultRec :=
  { group := 8, det0 := BitVec.ofNat 32 sub, det1 := BitVec.ofNat 32 addr, det2 := BitVec.ofNat 32 (addr / 2 ^ 32) }
/-- A resource fault (R160 group 9). -/
def resFault (sub plot : Nat) : FaultRec := { group := 9, det0 := BitVec.ofNat 32 sub, det1 := BitVec.ofNat 32 plot }
/-- A hardware-error fault (R160 group 12). The spec numbers no units and no syndromes: both words are free values (log 79). -/
def hwFault (s : State) : FaultRec :=
  { group := 12, det0 := Config.freeWord s.free &&& 0xFF, det1 := Config.freeWord (s.free + 1) }
/-- Encoding fault (R160 group 3). -/
def encFault (sub : Nat) (d1 d2 : Word) : FaultRec := { group := 3, det0 := BitVec.ofNat 32 sub, det1 := d1, det2 := d2 }

/-- A memory fault that page service may repair (R76, R161). -/
def repairable (f : FaultRec) : Bool := f.group == 1 && (subOf f == 1 || subOf f == 2)

/-- The cause word (R159). -/
def causeWord (count : Nat) (eng ovf : Bool) (group : Nat) : Word :=
  BitVec.ofNat 32 (count * 2 ^ 16 + eng.toNat * 64 + ovf.toNat * 32 + group)
/-- The cause word of fragment e. -/
def fragCause (e : Nat) (f : Frag) : Word := causeWord f.members.length (decide (f.kind ≠ 0)) (decide (e = 63)) f.group

/-- Freeze a plot in place (R162, R375). -/
def freezePlot (s : State) (ci pi group : Nat) : State :=
  match tget (getCore s ci).plots pi with
  | none => s
  | some p =>
    if p.frozen.isSome then s
    else
      let s := updPlot s ci pi fun p => { p with frozen := some group }
      let s := if s.frozen.length < 64 then { s with frozen := s.frozen ++ [{ kind := 0, id := ci * 8 + pi, group := group, time := s.now }] }
               else countDrop s 5
      let s := ringPost s p.queue 5 (tgetD s.runs p.run {}).tag
      emitR s (unitCore ci none) 0x0402 p.cid

/-- Is a handler thread among these threads (R162)? -/
def anyHandler (c : Core) (l : List Nat) : Bool := l.any fun t => match tget c.threads t with
  | some th => th.role == 4
  | none => false
/-- A fragment becomes pending: its plot is frozen if it has no handler or if a handler thread is a member (R161, R162). -/
def fragPending (s : State) (ci e : Nat) : State :=
  let c := getCore s ci
  match tget c.frags e with
  | none => s
  | some f =>
    let s := putCore s ci { c with frags := tput c.frags e { f with delivery := .pending } }
    if !(getPlot c f.plot).hdr.hnd || anyHandler c f.members then freezePlot s ci f.plot f.group else s

/-- Put a fault's cause and detail into the members' own registers (R293). -/
def showCause (s : State) (ci e : Nat) : State :=
  match tget (getCore s ci).frags e with
  | none => s
  | some f =>
    updThreads' s ci f.members fun t th =>
      let d := tgetD f.details t (f.det0, f.det1, f.det2)
      { th with cause := fragCause e { f with group := tgetD f.groups t f.group }, det0 := d.1, det1 := d.2.1, det2 := d.2.2 }

/-- Threads have joined the overflow entry: a plot of theirs without a handler, or one whose handler thread is among them, is frozen (R155,
R162). -/
def joinPending (s : State) (ci plot group : Nat) (mem : List Nat) : State :=
  if !(getPlot (getCore s ci) plot).hdr.hnd || anyHandler (getCore s ci) mem then freezePlot s ci plot group else s

/-- A core reports fragment-table exhaustion to the firmware cores, which post it on the ring (R155, R336). -/
def reportFull (s : State) (ci : Nat) : State := { s with fwEvents := s.fwEvents ++ [{ key := 0x20000 + ci, what := 5, x := ci, y := 0, since := s.now }] }
/-- Page of the address that a memory fault names (R361). -/
def faultPage (f : FaultRec) : Nat := (f.det1.toNat + 2 ^ 32 * f.det2.toNat) / 2 ^ 16 * 2 ^ 16
/-- A fragment goes to page service: the firmware cores take the event (R161, R361). -/
def askService (s : State) (ci e : Nat) : State :=
  let c := getCore s ci
  match tget c.frags e with
  | none => s
  | some f =>
    let s := putCore s ci { c with frags := tput c.frags e { f with delivery := .service, again := false, since := s.now } }
    { s with fwEvents := s.fwEvents ++ [{ key := 0x10000 + (getPlot c f.plot).ctx, what := 1, x := ci * 64 + e, y := f.page, since := s.now }] }
/-- TAKING A FAULT: park the threads of one (group, subcause), in drill order, as one fragment in the lowest free entry, or in the
overflow entry (R153 to R155); then page service or the plot's handler (R161). Their PCs stay where they are (R152). -/
def parkGroup (s : State) (ci : Nat) (l : List (Nat × FaultRec)) : State :=
  match l with
  | [] => s
  | (t0, f0) :: _ =>
    let c := getCore s ci
    let plot := (tgetD c.threads t0 {}).plot
    let mem := l.map (·.1)
    let det : Tbl (Word × Word × Word) := l.foldl (fun d x => tput d x.1 (x.2.det0, x.2.det1, x.2.det2)) []
    let free := lowestFree 63 (tkeys c.frags)
    let e := free.getD 63
    let old := tget c.frags 63
    let gen := (tgetD c.fragGen e 0 + 1) % 1024
    let joins := free.isNone && old.isSome
    let svc := repairable f0 && !joins
    let frag : Frag :=
      match free, old with
      | none, some o => { o with members := o.members ++ mem, details := det.foldl (fun d x => tput d x.1 x.2) o.details,
                                 groups := mem.foldl (fun d t => tput d t f0.group) o.groups }
      | _, _ => { gen := gen, members := mem, group := f0.group, det0 := f0.det0, det1 := f0.det1, det2 := f0.det2, plot := plot,
                  details := det, delivery := if svc then .service else .pending, seq := c.fragSeq, page := faultPage f0, since := s.now,
                  wr := f0.det0.getLsbD 7 }
    let c := { c with
      frags := tput c.frags e frag
      fragGen := if joins then c.fragGen else tput c.fragGen e gen
      fragSeq := c.fragSeq + 1
      threads := tmap c.threads fun t th => if mem.contains t then { th with st := .parked e } else th }
    let s := putCore s ci c
    let s := if joins then s else emitR s (unitCore ci none) 0x0401 (getPlot c plot).cid
    let s := if free.isNone && old.isNone then reportFull s ci else s
    if svc then askService s ci e
    else if joins then joinPending (showCause s ci e) ci plot f0.group mem
    else fragPending (showCause s ci e) ci e

/-- An engine's fragment takes an entry: a translation fault goes to page service, any other is pending (R155, R161). -/
def placeEngine (s : State) (ci e : Nat) (fr : Frag) : State :=
  let c := getCore s ci
  let gen := (tgetD c.fragGen e 0 + 1) % 1024
  let s := putCore s ci { c with frags := tput c.frags e { fr with gen := gen }, fragGen := tput c.fragGen e gen }
  let s := emitR s (unitCore ci none) 0x0401 (getPlot c fr.plot).cid
  if fr.delivery = .service then
    { s with fwEvents := s.fwEvents ++ [{ key := 0x10000 + (getPlot c fr.plot).ctx, what := 1, x := ci * 64 + e, y := fr.page / 2 ^ 16 * 2 ^ 16, since := s.now }] }
  else fragPending s ci e
/-- Free a fragment entry; an engine fault that waited for one takes it (R155). -/
def freeFrag (s : State) (ci e : Nat) : State :=
  let c := getCore s ci
  let c := { c with frags := tdel c.frags e }
  match c.fragWait with
  | [] => putCore s ci c
  | w :: rest => if e = 63 then putCore s ci c else placeEngine (putCore s ci { c with fragWait := rest }) ci e w

/-- Free every entry of a plot; engine faults of others that waited take them (R155). -/
def freePlotFrags (s : State) (ci pi : Nat) : State :=
  let s := updCore s ci fun c => { c with fragWait := c.fragWait.filter fun f => f.plot != pi }
  (((getCore s ci).frags.filter fun e => e.2.plot == pi).map (·.1)).foldl (fun s e => freeFrag s ci e) s

/-- A stepped member leaves the step, by a fault or by ending: the entry that has no more stepping members becomes pending again, and
one without members is freed (R301, R161). -/
def stepLeft (s : State) (ci e : Nat) : State :=
  let c := getCore s ci
  match tget c.frags e with
  | none => s
  | some f =>
    if f.members.isEmpty then freeFrag s ci e
    else if f.stepping.isEmpty then (if f.again then askService s ci e else fragPending s ci e)
    else s
/-- A stepped member faults: it parks again in its own entry, whose cause becomes the fault (R301). -/
def stepFault (s : State) (ci t : Nat) (f : FaultRec) : State :=
  let c := getCore s ci
  match (tget c.threads t).bind (·.stepping) with
  | none => s
  | some e =>
    let c := { c with frags := tupd c.frags e fun x =>
      { x with group := f.group, det0 := f.det0, det1 := f.det1, det2 := f.det2, details := tput x.details t (f.det0, f.det1, f.det2),
               groups := tdel x.groups t, again := repairable f, page := if repairable f then faultPage f else x.page, wr := if repairable f then f.det0.getLsbD 7 else x.wr,
               stepping := x.stepping.filter (· != t) } }
    let w := fragCause e (tgetD c.frags e {})
    let c := updThreadC c t fun th => { th with st := .parked e, stepping := none, cause := w, det0 := f.det0, det1 := f.det1, det2 := f.det2 }
    stepLeft (putCore s ci c) ci e

/-- The distinct (group, subcause) pairs of a drill's faults, in drill order (R153). -/
def faultKinds (l : List (Nat × FaultRec)) : List (Nat × Nat) := (l.map fun x => (x.2.group, subOf x.2)).eraseDups

/-- The faults of one drill: one fragment for each (group, subcause) (R153); stepped members stay in their entries (R301). -/
def takeFaults (s : State) (ci : Nat) (l : List (Nat × FaultRec)) : State :=
  let stepped := fun (x : Nat × FaultRec) => ((getThread s ci x.1).bind (·.stepping)).isSome
  let rest := l.filter fun x => !stepped x
  let s := (l.filter stepped).foldr (fun x s => stepFault s ci x.1 x.2) s
  (faultKinds rest).foldl (fun s k => parkGroup s ci (rest.filter fun x => (x.2.group, subOf x.2) == k)) s

/-- A thread becomes ready (R11, R35); one that a `regroup` was moving goes on being moved (R163). -/
def makeReady (c : Core) (delay : Nat) (th : Thread) : Thread :=
  { th with st := if th.moving.isSome then .waiting .moving else .ready, held := [], eligible := max th.eligible (c.cyc + delay), readySince := max c.cyc (c.cyc + delay), overdue := none }

/-- RETURN FROM A FAULT: every member becomes ready at its PC and executes its instruction again; the entry is freed (R157). -/
def resumeThreads (s : State) (ci e : Nat) : State :=
  let c := getCore s ci
  match tget c.frags e with
  | none => s
  | some f =>
    freeFrag (updThreads s ci f.members fun th =>
      if th.st == .parked e then makeReady c 1 th else if th.stepping = some e then { th with stepping := none } else th) ci e

/-- An engine's fragment takes the lowest free entry of 0 to 62, or waits for one (R154, R155). -/
def admitFrag (s : State) (ci : Nat) (fr : Frag) : State :=
  let c := getCore s ci
  match lowestFree 63 (tkeys c.frags) with
  | none => reportFull (putCore s ci { c with fragWait := c.fragWait ++ [fr] }) ci
  | some e => placeEngine s ci e fr
/-- Raise an engine fragment in the issuing plot's core (R154, R155). -/
def engineFrag (s : State) (ci pi kind unit : Nat) (f : FaultRec) (page : Nat) (wr svc : Bool) : State :=
  let c := getCore s ci
  let fr : Frag := { group := f.group, det0 := f.det0, det1 := f.det1, det2 := f.det2, plot := pi, kind := kind, unit := unit,
                     delivery := if svc then .service else .pending, seq := c.fragSeq, page := page, wr := wr, since := s.now }
  admitFrag (putCore s ci { c with fragSeq := c.fragSeq + 1 }) ci fr

/-- `dbgst` as it reads: ATT is the plot's (R294). -/
def dbgstOf (p : Plot) (th : Thread) : Word := (th.dbgst &&& 7) ||| (if p.att then 0x80 else 0)

/-- A stepped member has completed one instruction: it parks again in the same fragment with group 11 (R157, R301, R294). -/
def stepDone (s : State) (ci tid : Nat) : State :=
  let c := getCore s ci
  match tget c.threads tid with
  | none => s
  | some th =>
    match th.stepping with
    | none => s
    | some e =>
      match tget c.frags e with
      | none => s
      | some f =>
        let db : Word := (th.dbgst &&& (~~~ 3)) ||| 2
        let left := f.stepping.filter (· != tid)
        let d1 := dbgstOf (getPlot c th.plot) { th with dbgst := db }
        let f := { f with stepping := left, group := 11, det0 := 2, det1 := d1, det2 := 0, details := tput f.details tid (2, d1, 0), groups := tdel f.groups tid, again := false }
        let th := { th with st := .parked e, stepping := none, dbgst := db, cause := fragCause e f, det0 := 2, det1 := d1, det2 := 0 }
        let s := putCore s ci { c with threads := tput c.threads tid th, frags := tput c.frags e f }
        if left.isEmpty then fragPending s ci e else s

/-- The waited-for condition holds: the thread moves past its instruction, its last uses are released, and it is ready after the
delay (R11, R45, R307). -/
def wakeThread (s : State) (ci tid delay : Nat) : State :=
  let c := getCore s ci
  match tget c.threads tid with
  | none => s
  | some th =>
    let th := { th with pc := th.nextPc, regs := th.regs.filter fun e => !th.lastUse.contains e.1, lastUse := [], moving := none, fresh := false }
    stepDone (putCore s ci { c with threads := tput c.threads tid (makeReady c delay th) }) ci tid

/-- The thread executes its instruction again in a later cycle. -/
def retryThread (s : State) (ci tid : Nat) : State :=
  let c := getCore s ci
  updThread s ci tid fun th => makeReady c 1 th

/-- A thread that waits takes a fault instead (R89, R136, R142). -/
def faultThread (s : State) (ci tid : Nat) (f : FaultRec) : State := takeFaults s ci [(tid, f)]

end Sys2Proof.Machine
end

