-- ==== Sys2Proof/Machine/Flags.lean ====
section
/-!
DEFINITION. The flag words (R114) and every flag a result sets: the bits of `ast` and `aen`, the integer clamp (R197), and the
rounding modes of `mode` and of the PX word (R106, R107).
-/
namespace Sys2Proof.Machine
open Sys2Proof

/-- Bits of `ast` and `aen` (R114). -/
def flNV : Nat := 1
def flDZ : Nat := 2
def flOF : Nat := 4
def flUF : Nat := 8
def flIS : Nat := 16
def flSR : Nat := 32

/-- A result with the flags it sets. -/
structure Res where
  bits : Nat := 0
  fl : Nat := 0
  deriving DecidableEq, Repr

/-- Flags as a word of `ast`. -/
def flagWord (n : Nat) : Word := BitVec.ofNat 32 (n % 64)
/-- OR flags into a thread's `ast` (R115). -/
def orFlags (th : Thread) (f : Word) : Thread := { th with ast := th.ast ||| f }

/-- Clamp32S (R197): clamp an exact sum to i32, setting IS when it clamps. -/
def clamp32 (x : Int) : Word × Word :=
  if x > 2 ^ 31 - 1 then (0x7FFFFFFF, flagWord flIS)
  else if x < -(2 ^ 31) then (0x80000000, flagWord flIS)
  else (BitVec.ofInt 32 x, 0)

/-- RM of `mode` (R107): 0 RNE, 1 RZ, 2 RD, 3 RU. -/
def modeRm (mode : Word) : Nat := mode.toNat % 4
/-- FTZ of `mode` (R107). -/
def modeFtz (mode : Word) : Bool := mode.getLsbD 2
/-- The rounding mode of an instruction: its PX field, or the dynamic mode (R106). -/
def rmOf (px : Option Px) (mode : Word) : Nat :=
  match px with
  | none => modeRm mode
  | some x => if x.rnd.toNat = 0 then modeRm mode else x.rnd.toNat - 1
/-- The SAT bit of a PX word (R188). -/
def satOf (px : Option Px) : Bool :=
  match px with
  | none => false
  | some x => x.sat
/-- Negations of a PX word: A, B, C (R189). -/
def negA (px : Option Px) : Bool := (px.map (·.na)).getD false
def negB (px : Option Px) : Bool := (px.map (·.nb)).getD false
def negC (px : Option Px) : Bool := (px.map (·.nc)).getD false

end Sys2Proof.Machine
end

