-- ==== Sys2Proof/Machine/Float.lean ====
section
/-!
DEFINITION. Floating numbers: formats (R101), unpacking, the one rounding of R112 from an exact dyadic value, special values
(R110), subnormals (R111), SH codes (R103, R104), conversions (R113), and the fixed maps of R217 (log 9).
-/
namespace Sys2Proof.Machine
open Sys2Proof

/-- A binary format (R101): exponent bits, fraction bits, and the e4m3 exception (no infinity, one NaN). -/
structure Fmt where
  eb : Nat
  fb : Nat
  e4 : Bool := false
  deriving DecidableEq, Repr

def fF32 : Fmt := { eb := 8, fb := 23 }
def fF16 : Fmt := { eb := 5, fb := 10 }
def fBf16 : Fmt := { eb := 8, fb := 7 }
def fE4m3 : Fmt := { eb := 4, fb := 3, e4 := true }
def fE5m2 : Fmt := { eb := 5, fb := 2 }

/-- Exponent bias (R101). -/
def Fmt.bias (f : Fmt) : Nat := 2 ^ (f.eb - 1) - 1
/-- Least normal exponent. -/
def Fmt.emin (f : Fmt) : Int := 1 - (f.bias : Int)
/-- The sign bit's place. -/
def Fmt.signBit (f : Fmt) : Nat := f.eb + f.fb
/-- Infinity, positive. -/
def Fmt.inf (f : Fmt) : Nat := (2 ^ f.eb - 1) * 2 ^ f.fb
/-- Largest finite (R101). -/
def Fmt.maxFinite (f : Fmt) : Nat := if f.e4 then 0x7E else f.inf - 1
/-- The canonical NaN (R110). -/
def Fmt.nan (f : Fmt) : Nat := if f.e4 then 0x7F else f.inf + 2 ^ (f.fb - 1)

/-- What a word of a format stands for: a NaN, an infinity, or the exact value (−1)^neg × m × 2^e. -/
inductive FV where
  | nan (signalling : Bool)
  | inf (neg : Bool)
  | fin (neg : Bool) (m : Nat) (e : Int)
  deriving DecidableEq, Repr

/-- Unpack a word of a format (R101, R110). -/
def unpack (f : Fmt) (b : Nat) : FV :=
  let neg := b.testBit f.signBit
  let ex := b / 2 ^ f.fb % 2 ^ f.eb
  let fr := b % 2 ^ f.fb
  if f.e4 then
    if ex = 15 ∧ fr = 7 then .nan false
    else if ex = 0 then .fin neg fr (f.emin - f.fb) else .fin neg (fr + 2 ^ f.fb) ((ex : Int) - f.bias - f.fb)
  else if ex = 2 ^ f.eb - 1 then (if fr = 0 then .inf neg else .nan (!fr.testBit (f.fb - 1)))
  else if ex = 0 then .fin neg fr (f.emin - f.fb)
  else .fin neg (fr + 2 ^ f.fb) ((ex : Int) - f.bias - f.fb)

/-- The sign bit in place. -/
def signed (f : Fmt) (neg : Bool) (b : Nat) : Nat := if neg then b + 2 ^ f.signBit else b
/-- Is the word subnormal and nonzero? -/
def isSub (f : Fmt) (b : Nat) : Bool := decide (b / 2 ^ f.fb % 2 ^ f.eb = 0) && decide (b % 2 ^ f.fb ≠ 0)
/-- Zero of the word's sign where FTZ acts on a subnormal input (R111). -/
def flushIn (f : Fmt) (ftz : Bool) (b : Nat) : Nat := if ftz && isSub f b then (if b.testBit f.signBit then 2 ^ f.signBit else 0) else b
/-- Zero of the result's sign, raising UF, where FTZ acts on a subnormal result (R111). -/
def flushOut (f : Fmt) (ftz : Bool) (r : Res) : Res :=
  if ftz && isSub f r.bits then { bits := if r.bits.testBit f.signBit then 2 ^ f.signBit else 0, fl := r.fl ||| flUF } else r
/-- Is the sign inverted? An exact inversion of the operand's sign (R189). -/
def negate (f : Fmt) (n : Bool) (b : Nat) : Nat := if n then b ^^^ 2 ^ f.signBit else b

/-- Round a quotient and remainder of a magnitude to an integer under rm (R106): half is compared with rem × 2. -/
def roundUp (rm : Nat) (neg : Bool) (q rem d : Nat) : Bool :=
  if rem = 0 then false
  else match rm with
    | 0 => decide (2 * rem > d) || (decide (2 * rem = d) && decide (q % 2 = 1))
    | 1 => false
    | 2 => neg
    | _ => !neg

/-- m × 2^e in units of 2^q, rounded under rm; and is it inexact? -/
def quantize (rm : Nat) (neg : Bool) (m : Nat) (e q : Int) : Nat × Bool :=
  if e ≥ q then (m * 2 ^ (e - q).toNat, false)
  else
    let d := 2 ^ (q - e).toNat
    (m / d + (roundUp rm neg (m / d) (m % d) d).toNat, decide (m % d ≠ 0))

/-- One rounding of (−1)^neg × m × 2^e, m not 0, to a format (R112): UF for a tiny inexact result, OF on overflow; with
saturation the largest finite. -/
def roundFin (f : Fmt) (rm : Nat) (sat neg : Bool) (m : Nat) (e : Int) : Res :=
  let top : Int := (Nat.log2 m : Int) + e
  let q : Int := max top f.emin - f.fb
  let (r, inexact) := quantize rm neg m e q
  let free := (quantize rm neg m e (top - f.fb)).1
  let tiny := decide (top < f.emin) && !(decide (top = f.emin - 1) && decide (free = 2 ^ (f.fb + 1)))
  let uf := if tiny && inexact then flUF else 0
  let carry := decide (r = 2 ^ (f.fb + 1))
  let mant := if carry then 2 ^ f.fb else r
  let ex : Int := if carry then q + 1 else q
  let field : Int := if mant < 2 ^ f.fb then 0 else ex + f.fb + f.bias
  let bits : Nat := field.toNat * 2 ^ f.fb + mant % 2 ^ f.fb
  if mant ≥ 2 ^ f.fb ∧ (field ≥ 2 ^ f.eb ∨ bits > f.maxFinite) then
    let toMax := sat || rm == 1 || (rm == 2 && !neg) || (rm == 3 && neg)
    { bits := if toMax then signed f neg f.maxFinite else if f.e4 then f.nan else signed f neg f.inf, fl := flOF }
  else { bits := signed f neg bits, fl := uf }

/-- The exact sum of signed dyadic terms as (sum, exponent). -/
def dySum (l : List (Bool × Nat × Int)) : Int × Int :=
  let e := l.foldl (fun x t => min x t.2.2) (match l with
    | [] => 0
    | t :: _ => t.2.2)
  (l.foldl (fun s t => let v : Int := (t.2.1 : Int) * 2 ^ (t.2.2 - e).toNat; if t.1 then s - v else s + v) 0, e)

/-- Round an exact sum of terms; an exact zero takes the terms' common sign, else −0 under RD and +0 otherwise (R212). -/
def roundSum (f : Fmt) (rm : Nat) (sat : Bool) (l : List (Bool × Nat × Int)) : Res :=
  let (s, e) := dySum l
  if s = 0 then
    let neg := if l.all (·.1) then true else if l.all (!·.1) then false else rm == 2
    { bits := signed f neg 0 }
  else roundFin f rm sat (decide (s < 0)) s.natAbs e

/-- NV if any is a signalling NaN (R110). -/
def nvOf (l : List FV) : Nat := if l.any (fun v => v == .nan true) then flNV else 0
/-- Is any a NaN? -/
def anyNan (l : List FV) : Bool := l.any fun v => match v with
  | .nan _ => true
  | _ => false

/-- x + y, exact, rounded once (R212). -/
def fAdd (f : Fmt) (rm : Nat) (sat : Bool) (x y : FV) : Res :=
  match x, y with
  | .inf a, .inf b => if a = b then { bits := signed f a f.inf } else { bits := f.nan, fl := flNV }
  | .inf a, .fin _ _ _ => { bits := signed f a f.inf }
  | .fin _ _ _, .inf b => { bits := signed f b f.inf }
  | .fin a m e, .fin b n g => roundSum f rm sat [(a, m, e), (b, n, g)]
  | x, y => { bits := f.nan, fl := nvOf [x, y] }

/-- The exact product: a value, or none where it is invalid (0 × ∞) (R110). -/
def fProd (x y : FV) : Option FV :=
  match x, y with
  | .inf a, .inf b => some (.inf (xor a b))
  | .inf a, .fin b m _ => if m = 0 then none else some (.inf (xor a b))
  | .fin a m _, .inf b => if m = 0 then none else some (.inf (xor a b))
  | .fin a m e, .fin b n g => some (.fin (xor a b) (m * n) (e + g))
  | x, y => some (.nan (decide (nvOf [x, y] ≠ 0)))

/-- A value rounded once. -/
def fRound (f : Fmt) (rm : Nat) (sat : Bool) (v : FV) : Res :=
  match v with
  | .nan s => { bits := f.nan, fl := if s then flNV else 0 }
  | .inf a => { bits := signed f a f.inf }
  | .fin a m e => if m = 0 then { bits := signed f a 0 } else roundFin f rm sat a m e

/-- x × y (R212). -/
def fMul (f : Fmt) (rm : Nat) (sat : Bool) (x y : FV) : Res :=
  match fProd x y with
  | none => { bits := f.nan, fl := flNV }
  | some v => fRound f rm sat v

/-- x × y + z with one rounding (R212); 0 × ∞ raises NV whatever z is. -/
def fFma (f : Fmt) (rm : Nat) (sat : Bool) (x y z : FV) : Res :=
  match fProd x y with
  | none => { bits := f.nan, fl := flNV }
  | some p => let r := fAdd f rm sat p z; { r with fl := r.fl ||| nvOf [x, y, z] }

/-- A value with its sign inverted. -/
def FV.neg : FV → FV
  | .nan s => .nan s
  | .inf a => .inf (!a)
  | .fin a m e => .fin (!a) m e

/-- x < y of two that are not NaN; `zeros` says whether −0 lies below +0 (R110). -/
def fLess (zeros : Bool) (x y : FV) : Bool :=
  match x, y with
  | .inf a, .inf b => a && !b
  | .inf a, _ => a
  | _, .inf b => !b
  | .fin a m e, .fin b n g =>
    if m = 0 ∧ n = 0 then zeros && a && !b
    else decide ((dySum [(a, m, e), (!b, n, g)]).1 < 0)
  | _, _ => false

/-- minimumNumber or maximumNumber of two words (R110, R213). -/
def fMinMax (f : Fmt) (isMax : Bool) (a b : Nat) : Res :=
  let x := unpack f a
  let y := unpack f b
  let fl := nvOf [x, y]
  match x, y with
  | .nan _, .nan _ => { bits := f.nan, fl := fl }
  | .nan _, _ => { bits := b, fl := fl }
  | _, .nan _ => { bits := a, fl := fl }
  | x, y => { bits := if (if isMax then fLess true x y else fLess true y x) then b else a }

/-- A compare by its condition code (R181): result and flags. -/
def fCompare (cond : Nat) (x y : FV) : Bool × Nat :=
  let un := anyNan [x, y]
  let sig := nvOf [x, y]
  let any := if un then flNV else 0
  let lt := fLess false x y
  let gt := fLess false y x
  match cond with
  | 0 => (!un && !lt && !gt, sig)
  | 1 => (un || lt || gt, sig)
  | 2 => (!un && lt, any)
  | 3 => (!un && !gt, any)
  | 4 => (!un && gt, any)
  | 5 => (!un && !lt, any)
  | 6 => (!un, sig)
  | _ => (un, sig)

/-- x ÷ y, correctly rounded (R215). -/
def fDiv (rm : Nat) (sat : Bool) (x y : FV) : Res :=
  let f := fF32
  match x, y with
  | .inf _, .inf _ => { bits := f.nan, fl := flNV }
  | .inf a, .fin b _ _ => { bits := signed f (xor a b) f.inf }
  | .fin a _ _, .inf b => { bits := signed f (xor a b) 0 }
  | .fin a m e, .fin b n g =>
    if n = 0 then (if m = 0 then { bits := f.nan, fl := flNV } else { bits := signed f (xor a b) f.inf, fl := flDZ })
    else if m = 0 then { bits := signed f (xor a b) 0 }
    else
      let q := m * 2 ^ 64 / n
      let r := m * 2 ^ 64 % n
      roundFin f rm sat (xor a b) (2 * q + (if r = 0 then 0 else 1)) (e - g - 65)
  | x, y => { bits := f.nan, fl := nvOf [x, y] }

/-- Square root of a value, correctly rounded (R215). -/
def fSqrt (rm : Nat) (x : FV) : Res :=
  let f := fF32
  match x with
  | .nan s => { bits := f.nan, fl := if s then flNV else 0 }
  | .inf a => if a then { bits := f.nan, fl := flNV } else { bits := f.inf }
  | .fin a m e =>
    if m = 0 then { bits := signed f a 0 }
    else if a then { bits := f.nan, fl := flNV }
    else
      let odd := e % 2 ≠ 0
      let m2 := (if odd then 2 * m else m) * 2 ^ 80
      let e2 : Int := (if odd then e - 1 else e) / 2 - 40
      let r := Nat.sqrt m2
      roundFin f rm false false (2 * r + (if r * r = m2 then 0 else 1)) (e2 - 1)

/-! ### The fixed maps of R216 and R217: fixed-point evaluation, one rounding (log 9) -/

/-- Fraction bits of the fixed-point evaluation. -/
def fxBits : Nat := 512
/-- 1 in fixed point. -/
def fxOne : Nat := 2 ^ fxBits
/-- Product in fixed point. -/
def fxMul (a b : Nat) : Nat := a * b / fxOne

/-- arctan(1/k) in fixed point: n further terms from term i, of the given power of 1/k. -/
def atanInv (k : Nat) : Nat → Nat → Nat → Int
  | 0, _, _ => 0
  | n + 1, i, p => (if i % 2 = 0 then Int.ofNat (p / (2 * i + 1)) else -Int.ofNat (p / (2 * i + 1))) + atanInv k n (i + 1) (p / (k * k))
/-- π in fixed point, by Machin's formula. -/
def fxPi : Nat := (4 * (4 * atanInv 5 120 0 (fxOne / 5) - atanInv 239 40 0 (fxOne / 239))).toNat
/-- Σ z^(2i+1) / (2i+1) in fixed point, n further terms. -/
def atanhSum (z2 : Nat) : Nat → Nat → Nat → Nat
  | 0, _, _ => 0
  | n + 1, i, p => p / (2 * i + 1) + atanhSum z2 n (i + 1) (fxMul p z2)
/-- ln of a/b ≥ 1, at most 2, in fixed point. -/
def fxLn (a b : Nat) : Nat := let z := (a - b) * fxOne / (a + b); 2 * atanhSum (fxMul z z) 170 0 z
/-- ln 2. -/
def fxLn2 : Nat := fxLn 2 1
/-- Σ t^i / i! in fixed point, n further terms. -/
def expSum (t : Nat) : Nat → Nat → Nat → Nat
  | 0, _, _ => 0
  | n + 1, i, p => p + expSum t n (i + 1) (fxMul p t / (i + 1))
/-- e^t for 0 ≤ t < 1 in fixed point. -/
def fxExp (t : Nat) : Nat := expSum t 110 0 fxOne
/-- Σ (−1)^i r^(2i+o) / (2i+o)! in fixed point, n further terms: o = 1 sine, 0 cosine. -/
def trigSum (r2 o : Nat) : Nat → Nat → Nat → Int
  | 0, _, _ => 0
  | n + 1, i, p => (if i % 2 = 0 then (p : Int) else -(p : Int)) + trigSum r2 o n (i + 1) (fxMul p r2 / ((2 * i + o + 1) * (2 * i + o + 2)))
/-- sin r for 0 ≤ r < 2 in fixed point. -/
def fxSin (r : Nat) : Int := trigSum (fxMul r r) 1 70 0 r
/-- cos r for 0 ≤ r < 2 in fixed point. -/
def fxCos (r : Nat) : Int := trigSum (fxMul r r) 0 70 0 fxOne

/-- Round a fixed-point value that is not exact, under RNE. -/
def fxRound (neg : Bool) (m : Nat) (e : Int) : Res := roundFin fF32 0 false neg (2 * m + 1) (e - 1 - fxBits)
/-- m × 2^e in fixed point, floor. -/
def toFx (m : Nat) (e : Int) : Nat := if e + fxBits ≥ 0 then m * 2 ^ (e + fxBits).toNat else m / 2 ^ (-(e + fxBits)).toNat

/-- 2^x (R216). -/
def fEx2 (x : FV) : Res :=
  match x with
  | .nan s => { bits := fF32.nan, fl := if s then flNV else 0 }
  | .inf a => { bits := if a then 0 else fF32.inf }
  | .fin a m e =>
    if m = 0 then { bits := 0x3F800000 }
    else if (Nat.log2 m : Int) + e ≥ 8 then
      (if a then { bits := 0, fl := flUF } else { bits := fF32.inf, fl := flOF })
    else
      let t := toFx m e
      let n : Int := if a then (if t % fxOne = 0 then -((t / fxOne : Nat) : Int) else -((t / fxOne : Nat) : Int) - 1) else (t / fxOne : Nat)
      let fr := if a then (fxOne - t % fxOne) % fxOne else t % fxOne
      if n ≥ 128 then { bits := fF32.inf, fl := flOF }
      else if fr = 0 then roundFin fF32 0 false false 1 n
      else fxRound false (fxExp (fxMul fr fxLn2)) n

/-- log2 x (R216). -/
def fLg2 (x : FV) : Res :=
  match x with
  | .nan s => { bits := fF32.nan, fl := if s then flNV else 0 }
  | .inf a => if a then { bits := fF32.nan, fl := flNV } else { bits := fF32.inf }
  | .fin a m e =>
    if m = 0 then { bits := signed fF32 true fF32.inf, fl := flDZ }
    else if a then { bits := fF32.nan, fl := flNV }
    else
      let k := Nat.log2 m
      let n : Int := (k : Int) + e
      if m = 2 ^ k then (if n = 0 then { bits := 0 } else roundFin fF32 0 false (decide (n < 0)) n.natAbs 0)
      else
        let fr := fxLn m (2 ^ k) * fxOne / fxLn2
        let s : Int := n * (fxOne : Int) + (fr : Int)
        fxRound (decide (s < 0)) s.natAbs 0

/-- sin or cos of x radians (R216). -/
def fTrig (isCos : Bool) (x : FV) : Res :=
  match x with
  | .nan s => { bits := fF32.nan, fl := if s then flNV else 0 }
  | .inf _ => { bits := fF32.nan, fl := flNV }
  | .fin a m e =>
    if m = 0 then { bits := if isCos then 0x3F800000 else signed fF32 a 0 }
    else
      let t := toFx m e
      let h := fxPi / 2
      let k := t / h + (if isCos then 1 else 0)
      let r := t % h
      let v := if (t / h) % 2 = 0 then (if isCos then fxCos r else fxSin r) else (if isCos then fxSin r else fxCos r)
      let neg := if isCos then decide (k % 4 = 2 ∨ k % 4 = 3) else xor a (decide (k % 4 = 2 ∨ k % 4 = 3))
      fxRound neg v.natAbs 0

/-- tanh x (R216). -/
def fTanh (b : Nat) (x : FV) : Res :=
  match x with
  | .nan s => { bits := fF32.nan, fl := if s then flNV else 0 }
  | .inf a => { bits := signed fF32 a 0x3F800000 }
  | .fin a m e =>
    if m = 0 ∨ (Nat.log2 m : Int) + e < -12 then { bits := b }
    else
      let t := toFx m e
      if t ≥ 9 * fxOne then { bits := signed fF32 a 0x3F800000 }
      else
        -- e^(2t) from e^(t / 16), five squarings
        let g := fxExp (t / 16)
        let g := fxMul g g
        let g := fxMul g g
        let g := fxMul g g
        let g := fxMul g g
        let g := fxMul g g
        fxRound a ((g - fxOne) * fxOne / (g + fxOne)) 0

/-- 1 ÷ x and 1 ÷ √x (R216). -/
def fRcp (x : FV) : Res :=
  match x with
  | .nan s => { bits := fF32.nan, fl := if s then flNV else 0 }
  | .inf a => { bits := signed fF32 a 0 }
  | .fin a m e => if m = 0 then { bits := signed fF32 a fF32.inf, fl := flDZ } else fDiv 0 false (.fin false 1 0) (.fin a m e)
def fRsq (x : FV) : Res :=
  match x with
  | .nan s => { bits := fF32.nan, fl := if s then flNV else 0 }
  | .inf a => if a then { bits := fF32.nan, fl := flNV } else { bits := 0 }
  | .fin a m e =>
    if m = 0 then { bits := signed fF32 a fF32.inf }
    else if a then { bits := fF32.nan, fl := flNV }
    else
      -- 1 ÷ √(m × 2^e) = √(2^(2k) ÷ m) × 2^(−k − e/2), e made even
      let odd := e % 2 ≠ 0
      let m2 := if odd then 2 * m else m
      let e2 : Int := (if odd then e - 1 else e) / 2
      let q := 2 ^ 160 / m2
      let r := Nat.sqrt q
      let exact := decide (r * r * m2 = 2 ^ 160)
      roundFin fF32 0 false false (2 * r + (if exact then 0 else 1)) (-80 - e2 - 1)

/-- An approximate function on a word under FTZ (R216, R217): input and result flushed by R111. -/
def approx (f : FV → Res) (ftz : Bool) (a : Word) : Res :=
  let b := flushIn fF32 ftz a.toNat
  flushOut fF32 ftz (f (unpack fF32 b))

/-! ### SH codes (R103, R104) and conversions (R113) -/

/-- A term in units of 2^-6 (R103). -/
def shTerm (n : Nat) : Int :=
  let k := n % 8
  let v : Int := if k = 7 then 0 else ((2 ^ (6 - k) : Nat) : Int)
  if n % 16 ≥ 8 then -v else v
/-- An SH element in units of 2^-6: one nibble or two (R103). -/
def shVal (sh2 : Bool) (b : Nat) : Int := if sh2 then shTerm (b / 16 % 16) + shTerm (b % 16) else shTerm (b % 16)
/-- All codes with their values. -/
def shCodes (sh2 : Bool) : List (Nat × Int) := (List.range (if sh2 then 256 else 16)).map fun c => (c, shVal sh2 c)
/-- The numerically smallest code of a value (R104). -/
def lowestCode (sh2 : Bool) (v : Int) : Nat := (((shCodes sh2).find? fun e => e.2 == v).map (·.1)).getD 0

/-- ToSh (R104) of a value. -/
def toSh (sh2 sat : Bool) (x : FV) : Res :=
  let code0 := lowestCode sh2 0
  let top : Int := if sh2 then 128 else 64
  let beyond (neg : Bool) : Res := if sat then { bits := lowestCode sh2 (if neg then -top else top), fl := flOF } else { bits := code0, fl := flNV }
  match x with
  | .nan _ => { bits := code0, fl := flNV }
  | .inf a => beyond a
  | .fin a m e =>
    if m = 0 then { bits := code0 }
    else if (dySum [(false, m, e), (true, top.toNat, -6)]).1 > 0 then beyond a
    else
      let sgn (v : Int) : Bool := decide (v < 0)
      -- distance to v, in units of 2^e' with a common exponent
      let dist (v : Int) : Nat × Int := let d := dySum [(a, m, e), (!sgn v, v.natAbs, -6)]; (d.1.natAbs, d.2)
      let best := (shCodes sh2).foldl (fun (b : Option Int) c =>
        match b with
        | none => some c.2
        | some v =>
          let x := dist c.2
          let y := dist v
          let cmp := (dySum [(false, x.1, x.2), (true, y.1, y.2)]).1
          if cmp < 0 ∨ (cmp = 0 ∧ c.2.natAbs < v.natAbs) then some c.2 else some v) none
      let v := best.getD 0
      { bits := lowestCode sh2 v, fl := if v = 0 then flUF else 0 }

/-- Float formats by type code (R190). -/
def fmtOf (code : Nat) : Option Fmt :=
  match code with
  | 0 => some fF32
  | 13 => some fF32
  | 1 => some fF16
  | 2 => some fBf16
  | 3 => some fE4m3
  | 4 => some fE5m2
  | _ => none
/-- Width of a type code in bits (R190). -/
def typeBits (code : Nat) : Nat :=
  match code with
  | 0 | 5 | 6 | 13 => 32
  | 1 | 2 | 7 | 8 => 16
  | 3 | 4 | 9 | 10 | 11 => 8
  | 12 => 4
  | _ => 32
/-- Is the integer type code signed (R190)? -/
def typeSigned (code : Nat) : Bool := code == 5 || code == 7 || code == 9
/-- The integer the low bits of a word hold. -/
def intOf (code b : Nat) : Int :=
  let w := typeBits code
  let x := b % 2 ^ w
  if typeSigned code && decide (x ≥ 2 ^ (w - 1)) then (x : Int) - 2 ^ w else x
/-- Range of an integer type. -/
def intMin (code : Nat) : Int := if typeSigned code then -(2 ^ (typeBits code - 1) : Int) else 0
def intMax (code : Nat) : Int := if typeSigned code then 2 ^ (typeBits code - 1) - 1 else 2 ^ typeBits code - 1
/-- An integer clamped, with IS. -/
def clampTo (code : Nat) (v : Int) : Int × Nat :=
  if v > intMax code then (intMax code, flIS) else if v < intMin code then (intMin code, flIS) else (v, 0)
/-- An integer's low bits in a 32-bit destination: i types sign-extended (R223). -/
def intBits (code : Nat) (v : Int) : Nat :=
  let x := (v % 2 ^ typeBits code).toNat
  if typeSigned code && decide (x ≥ 2 ^ (typeBits code - 1)) then x + (2 ^ 32 - 2 ^ typeBits code) else x
/-- A value as a dyadic number. -/
def intFV (v : Int) (e : Int) : FV := .fin (decide (v < 0)) v.natAbs e

/-- Round a value to an integer under rm. -/
def toIntRm (rm : Nat) (neg : Bool) (m : Nat) (e : Int) : Int :=
  let q := (quantize rm neg m e 0).1
  if neg then -(q : Int) else q

/-- An integer value to an integer type (R113): the row "integer → narrower" and "equal width". -/
def intToInt (dst : Nat) (sat : Bool) (v : Int) : Res :=
  if sat then let c := clampTo dst v; { bits := intBits dst c.1, fl := c.2 } else { bits := intBits dst v }

/-- A float value to a destination type (R113). -/
def cvtFloat (dst rm : Nat) (sat : Bool) (v : FV) : Res :=
  match dst with
  | 11 => toSh true sat v
  | 12 => toSh false sat v
  | 13 =>
    match v with
    | .fin a m e =>
      if e ≥ 0 ∨ m = 0 then fRound fF32 rm false v
      else
        let q := (quantize rm a m e 0).1
        { bits := (fRound fF32 rm false (.fin a q 0)).bits }
    | v => fRound fF32 rm false v
  | _ =>
    match fmtOf dst with
    | some f =>
      match v with
      | .inf a => if f.e4 then (if sat then { bits := signed f a f.maxFinite, fl := flOF } else { bits := f.nan, fl := flNV }) else { bits := signed f a f.inf }
      | v => fRound f rm sat v
    | none =>
      match v with
      | .nan _ => { bits := 0, fl := flNV }
      | .inf a => { bits := intBits dst (if a then intMin dst else intMax dst), fl := flIS }
      | .fin a m e =>
        -- a magnitude beyond 2^40 clamps whatever its low bits
        let c := clampTo dst (if (Nat.log2 m : Int) + e > 40 ∧ m ≠ 0 then (if a then -(2 ^ 41) else 2 ^ 41) else toIntRm rm a m e)
        { bits := intBits dst c.1, fl := c.2 }

/-- Cvt (R113, R222, R223): type codes, rounding mode, SAT, the source word. -/
def cvtWord (dst src rm : Nat) (sat : Bool) (a : Nat) : Res :=
  match fmtOf src with
  | some f => cvtFloat dst rm sat (unpack f (a % 2 ^ typeBits src))
  | none =>
    if src = 11 ∨ src = 12 then
      let v := shVal (src == 11) a
      if dst = 11 ∨ dst = 12 then toSh (dst == 11) sat (intFV v (-6))
      else match fmtOf dst with
        | some _ => cvtFloat dst rm sat (intFV v (-6))
        | none => intToInt dst sat v
    else
      let v := intOf src a
      if dst = 11 ∨ dst = 12 then toSh (dst == 11) sat (intFV v 0)
      else match fmtOf dst with
        | some _ => cvtFloat dst rm sat (intFV v 0)
        | none => if typeBits dst > typeBits src then { bits := intBits dst v } else intToInt dst sat v

end Sys2Proof.Machine
end

