-- ==== Sys2Proof/WellFormed.lean ====
section
/-!
DEFINITION. The form of an instruction (10_encoding R178 to R193): the pipes that may issue it, the fields of a PX word that
it accepts, and the reserved values and unused fields that make its words an encoding fault (R195); and `wellFormed`, their
conjunction, which Decode checks in the order of R195.
-/
namespace Sys2Proof

/-- Fields of a PX word that an instruction accepts (R189): mask, ZERO, RND, C with NC, SCOPE, SAT, NA with NB. -/
structure Acc where
  mask : Bool := false
  zero : Bool := false
  rnd : Bool := false
  c : Bool := false
  scope : Bool := false
  sat : Bool := false
  neg : Bool := false
  deriving DecidableEq, Repr

/-- Only the mask (R192, R259, R276, R290). -/
def accM : Acc := { mask := true }
/-- Mask and ZERO (R189). -/
def accMZ : Acc := { mask := true, zero := true }
/-- What AT accepts (R189, R229). -/
def accAT : Acc := { mask := true, scope := true }

/-- What a set of words must meet beside its opcode. -/
structure Form where
  p : Pipe := .lane
  px : Option Px := none
  acc : Acc := {}
  /-- a PX word may stand before it (with no field set, where `acc` is empty) -/
  takes : Bool := true
  lane : Bool := true
  unif : Bool := false
  /-- a reserved value, a bad pair or quad: SUB 1 -/
  bad : Bool := false
  /-- an unused field that is not zero: SUB 2 -/
  mbz : Bool := false
  deriving DecidableEq, Repr

/-- Is the register number odd (R179)? -/
def oddR (r : RegNo) : Bool := decide (r.toNat % 2 ≠ 0)

/-- A data register that does not fit the size code: pairs for 8 bytes, quads for 16 (R179, R182). -/
def badSize (size : BitVec 3) (r : RegNo) : Bool :=
  (decide (size.toNat = 3) && oddR r) || (decide (size.toNat = 4) && decide (r.toNat % 4 ≠ 0))

/-- Conversion codes that are reserved (R222). -/
def badCvt (dst src : BitVec 4) : Bool :=
  decide (dst.toNat ≥ 14) || decide (src.toNat ≥ 13) || (decide (dst.toNat = 13) && decide (src.toNat > 4))

/-- The CSR numbers (R293). -/
def csrNumbers : List Nat := [0, 1, 2, 3, 4, 5, 6, 7, 8, 16, 17, 18, 24, 25, 26, 27, 32, 33, 34, 40]
/-- The CSR numbers that are RW (R293). -/
def csrWritable : List Nat := [16, 17, 18, 40]

/-- Registers of a rank's share of a tile, by width code (R285). -/
def tmovCount (w : BitVec 2) : Nat := 8 * 2 ^ w.toNat

/-- Bytes of an A row by pair code (R124). -/
def rowA (pair : Nat) : Nat := if pair ≥ 12 then 128 else if pair ≥ 8 then 64 else 32
/-- Bytes of a B row by pair code (R124). -/
def rowB (pair : Nat) : Nat := if pair ≥ 9 then 64 else 32
/-- Does the pair accumulate in i32 (R124)? -/
def intPair (pair : Nat) : Bool := pair == 6 || pair == 7 || pair == 11 || pair == 14

/-- Reserved operand bytes of `mma` (R279), by kind: fragments that pass v63, an odd A tile of 128-byte rows, an odd
descriptor register. -/
def badOperand (kind : Nat) (b : Byte) (row : Nat) (wide : Bool) : Bool :=
  match kind with
  | 0 => decide (b.toNat / 4 + row / 8 > 64)
  | 1 => wide && decide (b.toNat / 16 % 2 ≠ 0)
  | 2 => decide (b.toNat / 4 % 2 ≠ 0)
  | _ => true

/-- The usual form: PX by `acc`, the lane pipe, and the uniform pipe where `u` says so. -/
def mk (p : Pipe) (px : Option Px) (acc : Acc) (u : Bool) (bad : Bool := false) (mbz : Bool := false) : Form :=
  { p := p, px := px, acc := acc, unif := u, bad := bad, mbz := mbz }

/-- A lane-pipe instruction that takes no PX word. -/
def bare (bad : Bool := false) : Form := { takes := false, bad := bad }

/-- A lane-pipe instruction of the R layout that takes no PX word (R189, R258). -/
def nopx (px : Option Px) : Form := { px := px, takes := false }

/-- Form of `mma` (R187, R276, R279). -/
def formMma (p : Pipe) (px : Option Px) (w : MatWord) (x : MmaWord) : Form :=
  let fragA := decide (x.ka.toNat = 0)
  let fragB := decide (x.kb.toNat = 0)
  let pair := w.pair.toNat
  { p := p, px := px
    acc := if fragA || fragB then {} else accM
    takes := !(fragA || fragB)
    lane := fragA || fragB
    unif := !(fragA || fragB)
    bad := decide (pair = 15) || decide (x.rnd.toNat ≥ 5) || (x.chain && intPair pair)
      || badOperand x.ka.toNat w.a (rowA pair) (decide (pair ≥ 12)) || badOperand x.kb.toNat w.b (rowB pair) false
    mbz := (x.ta && decide (x.ka.toNat ≠ 1)) || (x.tb && decide (x.kb.toNat ≠ 1))
      || (decide (x.ka.toNat = 1) && decide (w.a.toNat % 16 ≠ 0)) || (decide (x.kb.toNat = 1) && decide (w.b.toNat % 16 ≠ 0)) }

/-- Reserved operand bytes of `mloop` (R129, R280): bit 0 says descriptor. -/
def badLoopOperand (b inc : Byte) (wide : Bool) : Bool :=
  if b.toNat % 2 = 1 then decide (b.toNat / 4 % 2 ≠ 0)
  else decide (inc.toNat ≠ 0) || (wide && decide (b.toNat / 16 % 2 ≠ 0))

/-- Form of `mloop` (R187, R276, R280). -/
def formMloop (px : Option Px) (w : MatWord) (x : LoopWord) : Form :=
  let pair := w.pair.toNat
  { p := .unif, px := px, acc := accM, lane := false, unif := true
    bad := decide (pair = 15) || (x.chain && intPair pair) || badLoopOperand w.a x.inca (decide (pair ≥ 12))
      || badLoopOperand w.b x.incb false
    mbz := (decide (w.a.toNat % 2 = 0) && decide (w.a.toNat % 16 ≠ 0))
      || (decide (w.b.toNat % 2 = 0) && decide (w.b.toNat % 16 ≠ 0)) }

/-- Form of `mjoin` (R187, R276, R281): A fragments, B descriptor. -/
def formMjoin (w : MatWord) (x : JoinWord) : Form :=
  let pair := w.pair.toNat
  { takes := false
    bad := decide (pair = 15) || (x.chain && intPair pair) || badOperand 0 w.a (rowA pair) false
      || badOperand 2 w.b (rowB pair) false }

/-- The form of every instruction; an event has no words and no form to break. -/
def form : Instr → Form
  | .fuseHoldExpiry _ _ _ | .joinBinTimerExpiry _ _ | .spawnBinTimerExpiry _ _ | .plotAdmission _ _ | .plotRetire _ _ 
  | .loadDataReturn _ | .fallowRefill _ _ _ | .mgmtRegisterRead _ _ _ | .debuggerRegisterWrite _ _ _ _ 
  | .depositPerform _ | .icacheLineFill _ _ | .dirtyLineDrain _ | .homeStorePerform _ | .homeLoadService _ _ 
  | .atomicRequestPerform _ | .atomicAck _ | .ldspWrite _ | .stnCompletion _ | .fabricResponseTimeout _ 
  | .fenceComplete _ _ | .napWordRecheck _ _ | .matrixStepComplete _ | .tileOpComplete _ _ | .tableLoadCommit _ _ 
  | .copyCommandAccept _ _ | .copyChunkDelivery _ _ | .gatherElement _ _ | .collUnitStart _ 
  | .collChunkReceived _ _ _ _ | .collStepEnd _ | .collOperationComplete _ | .collWatchdogExpiry _ 
  | .handlerDelivery _ _ | .stopRequest _ _ | .plotSave _ _ | .plotRestore _ _ | .hostWindow2Write _ _ 
  | .hostWindow2Read _ _ | .registerWrite _ _ _ | .tailWrite _ _ | .queueEnable _ _ | .residencyRequest _ 
  | .queueRecordAccept _ | .runEnd _ | .nodeDispatch _ _ | .nodeComplete _ _ | .condRead _ _ | .plotStage _ _ _ 
  | .pageWalkComplete _ _ | .pageService _ _ | .packetForward _ _ _ _ _ _ _ | .remoteRequestArrival _ _ _ _ _ _ _ 
  | .linkTrainingComplete _ _ _ _ | .linkPartnerReset _ | .flitGroupTransmit _ | .flitGroupReceive _ _ _ 
  | .powerLimitWindow _ _ | .voltageDroop _ | .thermalThrottle _ | .timeExchange _ _ _ _ | .fleetTimeSync _ 
  | .recordWrite _ | .residencyReturn _ | .debuggerAttach _ _ _ | .issueCycle | .threadOverdue | .yieldExpiry 
  | .leaseExpiry | .stopFallbackExpiry | .erheadWrite | .firmwareEventDispatch | .firmwareRetention | .ginvWrite 
  | .pageVerdict | .tlbInvalidate | .tlbInvalidateComplete | .migrationStart | .migrationDrained | .migrationCopyDone 
  | .saveSetImport | .frozenKill | .frozenResume | .coldReset | .warmReset | .routeTableLoad | .routeLoadComplete 
  | .routeBankSelect | .packetWaitTimeout | .getcert | .getnonce | .unlock | .attest | .extend | .tkey | .lkey 
  | .lifecycle | .recover | .powerOn | .railGoodTimeout | .thermalTrip | .timeBoundGrowth | .quotaWrite 
  | .granaryReadout | .granaryReadoutComplete | .waitforSnapshot | .profileHostStart | .profileHostStop 
  | .profileSummaryInterval | .detailSelectWrite | .prheadWrite | .powerLoss => {}
  | .add o => mk o.p o.px ⟨true, true, false, false, false, true, false⟩ true (false)
  | .sub o => mk o.p o.px ⟨true, true, false, false, false, true, false⟩ true (false)
  | .mul o => mk o.p o.px ⟨true, true, false, false, false, true, false⟩ true (false)
  | .mulhiI32 o => mk o.p o.px ⟨true, true, false, false, false, false, false⟩ true (false)
  | .mulhiN32 o => mk o.p o.px ⟨true, true, false, false, false, false, false⟩ true (false)
  | .minI32 o => mk o.p o.px ⟨true, true, false, false, false, false, false⟩ true (false)
  | .maxI32 o => mk o.p o.px ⟨true, true, false, false, false, false, false⟩ true (false)
  | .minN32 o => mk o.p o.px ⟨true, true, false, false, false, false, false⟩ true (false)
  | .maxN32 o => mk o.p o.px ⟨true, true, false, false, false, false, false⟩ true (false)
  | .and o => mk o.p o.px ⟨true, true, false, false, false, false, false⟩ true (false)
  | .or o => mk o.p o.px ⟨true, true, false, false, false, false, false⟩ true (false)
  | .xor o => mk o.p o.px ⟨true, true, false, false, false, false, false⟩ true (false)
  | .andn o => mk o.p o.px ⟨true, true, false, false, false, false, false⟩ true (false)
  | .shl o => mk o.p o.px ⟨true, true, false, false, false, false, false⟩ true (false)
  | .shr o => mk o.p o.px ⟨true, true, false, false, false, false, false⟩ true (false)
  | .sar o => mk o.p o.px ⟨true, true, false, false, false, false, false⟩ true (false)
  | .rotl o => mk o.p o.px ⟨true, true, false, false, false, false, false⟩ true (false)
  | .bfeN32 o => mk o.p o.px ⟨true, true, false, false, false, false, false⟩ true (false)
  | .bfeI32 o => mk o.p o.px ⟨true, true, false, false, false, false, false⟩ true (false)
  | .bfi o => mk o.p o.px ⟨true, true, false, false, false, false, false⟩ true (false)
  | .addB64 o => mk o.p o.px ⟨true, true, false, false, false, false, false⟩ true (oddR o.d || oddR o.a.reg || oddR o.b.reg)
  | .subB64 o => mk o.p o.px ⟨true, true, false, false, false, false, false⟩ true (oddR o.d || oddR o.a.reg || oddR o.b.reg)
  | .lea o => mk o.p o.px ⟨true, true, false, false, false, false, false⟩ true (oddR o.d || oddR o.a.reg)
  | .lea4 o => mk o.p o.px ⟨true, true, false, false, false, false, false⟩ true (oddR o.d || oddR o.a.reg)
  | .mulWideI32 o => mk o.p o.px ⟨true, true, false, false, false, false, false⟩ true (oddR o.d)
  | .mulWideN32 o => mk o.p o.px ⟨true, true, false, false, false, false, false⟩ true (oddR o.d)
  | .mad o => mk o.p o.px ⟨true, true, false, true, false, true, false⟩ true (false)
  | .clz o => mk o.p o.px ⟨true, true, false, false, false, false, false⟩ true (false)
  | .popc o => mk o.p o.px ⟨true, true, false, false, false, false, false⟩ true (false)
  | .brev o => mk o.p o.px ⟨true, true, false, false, false, false, false⟩ true (false)
  | .mov o => mk o.p o.px ⟨true, true, false, false, false, false, false⟩ true (false)
  | .icmpI32 o => mk o.p o.px ⟨true, true, false, false, false, false, false⟩ true (decide (o.cond.toNat ≥ 6))
  | .icmpN32 o => mk o.p o.px ⟨true, true, false, false, false, false, false⟩ true (decide (o.cond.toNat ≥ 6))
  | .addi o => mk o.p o.px ⟨true, true, false, false, false, true, false⟩ true (false)
  | .muli o => mk o.p o.px ⟨true, true, false, false, false, true, false⟩ true (false)
  | .andi o => mk o.p o.px ⟨true, true, false, false, false, false, false⟩ true (false)
  | .ori o => mk o.p o.px ⟨true, true, false, false, false, false, false⟩ true (false)
  | .xori o => mk o.p o.px ⟨true, true, false, false, false, false, false⟩ true (false)
  | .shli o => mk o.p o.px ⟨true, true, false, false, false, false, false⟩ true (false)
  | .shri o => mk o.p o.px ⟨true, true, false, false, false, false, false⟩ true (false)
  | .sari o => mk o.p o.px ⟨true, true, false, false, false, false, false⟩ true (false)
  | .rotli o => mk o.p o.px ⟨true, true, false, false, false, false, false⟩ true (false)
  | .miniI32 o => mk o.p o.px ⟨true, true, false, false, false, false, false⟩ true (false)
  | .maxiI32 o => mk o.p o.px ⟨true, true, false, false, false, false, false⟩ true (false)
  | .miniN32 o => mk o.p o.px ⟨true, true, false, false, false, false, false⟩ true (false)
  | .maxiN32 o => mk o.p o.px ⟨true, true, false, false, false, false, false⟩ true (false)
  | .icmpiI32 o => mk o.p o.px ⟨true, true, false, false, false, false, false⟩ true (decide (o.cond.toNat ≥ 6))
  | .icmpiN32 o => mk o.p o.px ⟨true, true, false, false, false, false, false⟩ true (decide (o.cond.toNat ≥ 6))
  | .leai o => mk o.p o.px ⟨true, true, false, false, false, false, false⟩ true (oddR o.d || oddR o.a.reg)
  | .bfeiN32 o => mk o.p o.px ⟨true, true, false, false, false, false, false⟩ true (false)
  | .bfeiI32 o => mk o.p o.px ⟨true, true, false, false, false, false, false⟩ true (false)
  | .passiAt o => mk .lane o.px accM false
  | .passiOff o => mk .lane o.px accM false
  | .passiFlip o => mk .lane o.px accM false
  | .passiRot o => mk .lane o.px accM false
  | .li o => mk o.p o.px accMZ true
  | .liw o => mk o.p o.px accMZ true
  | .fcmpF32 o => mk o.p o.px ⟨true, true, false, false, false, false, true⟩ true (false)
  | .faddF32 o => mk o.p o.px ⟨true, true, true, false, false, true, true⟩ true (false)
  | .fsubF32 o => mk o.p o.px ⟨true, true, true, false, false, true, true⟩ true (false)
  | .fmulF32 o => mk o.p o.px ⟨true, true, true, false, false, true, true⟩ true (false)
  | .ffmaF32 o => mk o.p o.px ⟨true, true, true, true, false, true, true⟩ true (false)
  | .fminF32 o => mk o.p o.px ⟨true, true, false, false, false, false, true⟩ true (false)
  | .fmaxF32 o => mk o.p o.px ⟨true, true, false, false, false, false, true⟩ true (false)
  | .frcp o => mk o.p o.px ⟨true, true, false, false, false, false, false⟩ false (false)
  | .frsq o => mk o.p o.px ⟨true, true, false, false, false, false, false⟩ false (false)
  | .fsqrt o => mk o.p o.px ⟨true, true, true, false, false, true, false⟩ false (false)
  | .fex2 o => mk o.p o.px ⟨true, true, false, false, false, false, false⟩ false (false)
  | .flg2 o => mk o.p o.px ⟨true, true, false, false, false, false, false⟩ false (false)
  | .fsin o => mk o.p o.px ⟨true, true, false, false, false, false, false⟩ false (false)
  | .fcos o => mk o.p o.px ⟨true, true, false, false, false, false, false⟩ false (false)
  | .ftanh o => mk o.p o.px ⟨true, true, false, false, false, false, false⟩ false (false)
  | .ftbl o => mk o.p o.px ⟨true, true, false, false, false, false, false⟩ false (false)
  | .scacc o => mk o.p o.px ⟨true, true, true, false, false, true, true⟩ false (false)
  | .cvt o => mk o.p o.px ⟨true, true, true, false, false, true, false⟩ true (badCvt o.dst o.src)
  | .pkBf2 o => mk o.p o.px ⟨true, true, true, false, false, true, false⟩ false (false)
  | .pkH2 o => mk o.p o.px ⟨true, true, true, false, false, true, false⟩ false (false)
  | .pk8loE4m3 o => mk o.p o.px ⟨true, true, true, false, false, true, false⟩ false (false)
  | .pk8hiE4m3 o => mk o.p o.px ⟨true, true, true, false, false, true, false⟩ false (false)
  | .pk8loE5m2 o => mk o.p o.px ⟨true, true, true, false, false, true, false⟩ false (false)
  | .pk8hiE5m2 o => mk o.p o.px ⟨true, true, true, false, false, true, false⟩ false (false)
  | .haddBf2 o => mk o.p o.px ⟨true, true, true, false, false, true, true⟩ false (false)
  | .hmulBf2 o => mk o.p o.px ⟨true, true, true, false, false, true, true⟩ false (false)
  | .hfmaBf2 o => mk o.p o.px ⟨true, true, true, true, false, true, true⟩ false (false)
  | .haddH2 o => mk o.p o.px ⟨true, true, true, false, false, true, true⟩ false (false)
  | .hmulH2 o => mk o.p o.px ⟨true, true, true, false, false, true, true⟩ false (false)
  | .hfmaH2 o => mk o.p o.px ⟨true, true, true, true, false, true, true⟩ false (false)
  | .fdivF32 o => mk o.p o.px ⟨true, true, true, false, false, true, false⟩ false (false)
  | .ld o => mk o.p o.px accMZ true (decide (o.size.toNat = 7) || badSize o.size o.d || (!o.sp && oddR o.a.reg))
  | .st o => mk o.p o.px accM true (decide (o.size.toNat ≥ 5) || badSize o.size o.v.reg || (!o.sp && oddR o.a.reg))
  | .pf o => mk o.p o.px accM true (oddR o.a.reg)
  | .atomAdd o => mk .lane o.px accAT false ((!o.sp && oddR o.a.reg)) (!o.ret && decide (o.d.toNat ≠ 0))
  | .atomMinI32 o => mk .lane o.px accAT false ((!o.sp && oddR o.a.reg)) (!o.ret && decide (o.d.toNat ≠ 0))
  | .atomMaxI32 o => mk .lane o.px accAT false ((!o.sp && oddR o.a.reg)) (!o.ret && decide (o.d.toNat ≠ 0))
  | .atomMinN32 o => mk .lane o.px accAT false ((!o.sp && oddR o.a.reg)) (!o.ret && decide (o.d.toNat ≠ 0))
  | .atomMaxN32 o => mk .lane o.px accAT false ((!o.sp && oddR o.a.reg)) (!o.ret && decide (o.d.toNat ≠ 0))
  | .atomAnd o => mk .lane o.px accAT false ((!o.sp && oddR o.a.reg)) (!o.ret && decide (o.d.toNat ≠ 0))
  | .atomOr o => mk .lane o.px accAT false ((!o.sp && oddR o.a.reg)) (!o.ret && decide (o.d.toNat ≠ 0))
  | .atomXor o => mk .lane o.px accAT false ((!o.sp && oddR o.a.reg)) (!o.ret && decide (o.d.toNat ≠ 0))
  | .atomXchg o => mk .lane o.px accAT false ((!o.sp && oddR o.a.reg)) (!o.ret && decide (o.d.toNat ≠ 0))
  | .atomCas o => mk .lane o.px accAT false ((!o.sp && oddR o.a.reg)) (false)
  | .atomAddB64 o => mk .lane o.px accAT false (oddR o.d || oddR o.v.reg || (!o.sp && oddR o.a.reg)) (!o.ret && decide (o.d.toNat ≠ 0))
  | .atomFaddF32 o => mk .lane o.px accAT false ((!o.sp && oddR o.a.reg)) (!o.ret && decide (o.d.toNat ≠ 0))
  | .atomFaddBf2 o => mk .lane o.px accAT false ((!o.sp && oddR o.a.reg)) (!o.ret && decide (o.d.toNat ≠ 0))
  | .atomFmaxF32 o => mk .lane o.px accAT false ((!o.sp && oddR o.a.reg)) (!o.ret && decide (o.d.toNat ≠ 0))
  | .atomFminF32 o => mk .lane o.px accAT false ((!o.sp && oddR o.a.reg)) (!o.ret && decide (o.d.toNat ≠ 0))
  | .atomIncw o => mk .lane o.px accAT false ((!o.sp && oddR o.a.reg)) (!o.ret && decide (o.d.toNat ≠ 0))
  | .ldsp o => mk .lane o.px accM false (decide (o.size.toNat = 3) || oddR o.g.reg)
  | .br o => bare (decide (o.word.toNat < 2))
  | .call o => bare (decide (o.word.toNat < 2))
  | .spawn o => bare (decide (o.word.toNat < 2))
  | .brx o => mk .lane o.px accM false (oddR o.a.reg)
  | .callx o => mk .lane o.px accM false (oddR o.a.reg)
  | .nop p px => { p := p, px := px, unif := true }
  | .exit px => mk .lane px accM false
  | .join o => nopx o.px
  | .leave px => { px := px }
  | .regroup o => nopx o.px
  | .fuse _ => bare
  | .yield _ => bare
  | .safe _ _ _ _ => bare
  | .bar mode _ => bare (decide (mode.toNat = 3))
  | .poll px d fn _ _ => { px := px, bad := decide (fn.toNat ≥ 5), mbz := decide (fn.toNat ≤ 2) && decide (d.toNat % 8 ≠ 0) }
  | .sred px _ _ fn => { px := px, bad := decide (fn.toNat ≥ 11) }
  | .sscan px _ _ _ fn => { px := px, bad := decide (fn.toNat ≥ 11) }
  | .alike px _ _ _ => { px := px }
  | .passAt o => { px := o.px }
  | .passOff o => { px := o.px }
  | .passFlip o => { px := o.px }
  | .passRot o => { px := o.px }
  | .abarInit o => mk o.p o.px accM true
  | .abarArrive p px _ => mk p px accM true
  | .abarDue o => mk o.p o.px accM true
  | .abarWait o => mk o.p o.px accM false
  | .abarTest o _ => mk o.p o.px accM true
  | .fence kind scope => bare (decide (kind.toNat ≥ 5) || decide (scope.toNat ≥ 4) || (decide (kind.toNat = 4) && decide (scope.toNat ≠ 0)))
  | .rput o => mk o.p o.px accM true (oddR o.b.reg)
  | .arm p px _ => mk p px accM true
  | .ctrWait o => mk .lane o.px accM false
  | .ctrRd p px _ _ => mk p px accM true
  | .plop px _ _ _ _ _ => mk .lane px accM false
  | .pmovRd px _ => mk .lane px accM false
  | .pmovWr px _ => mk .lane px accM false
  | .csrRd px _ n => mk .lane px accM false (!csrNumbers.contains n.toNat)
  | .csrWr px _ n => mk .lane px accM false (!csrWritable.contains n.toNat)
  | .time p px d => mk p px accM true (oddR d)
  | .evt p px a _ => mk p px accM true (oddR a.reg)
  | .trap px _ => mk .lane px accM false
  | .brk px => mk .lane px accM false
  | .nap px cond sp a _ => mk .lane px accM false (decide (cond.toNat ≥ 6) || (!sp && oddR a.reg))
  | .wpw px a _ => mk .lane px accM false (oddR a.reg)
  | .shape o => nopx o.px
  | .expand o => nopx o.px
  | .bcast o => nopx o.px
  | .iota o => nopx o.px
  | .fragResume px a => mk .lane px accM false (oddR a.reg)
  | .fragResumeSkip px a => mk .lane px accM false (oddR a.reg)
  | .fragKill px a => mk .lane px accM false (oddR a.reg)
  | .fragInfo px _ a sel n => mk .lane px accM false (oddR a.reg || decide (sel.toNat = 7) || (decide (sel.toNat ≠ 4) && decide (n.toNat ≠ 0)) || decide (n.toNat ≥ 8))
  | .fragStep px a => mk .lane px accM false (oddR a.reg)
  | .mma p px w x => formMma p px w x
  | .mloop px w x => formMloop px w x
  | .mjoin w x => formMjoin w x
  | .mwait p px _ => mk p px accM true
  | .tzero p px _ => mk p px accM true
  | .tld p px _ x => mk p px accM true (oddR x.reg)
  | .tst p px _ x => mk p px accM true (oddR x.reg)
  | .tmovin px _ x w => mk .lane px accM false (decide (x.reg.toNat + tmovCount w > 64))
  | .tmovout px _ d w => mk .lane px accM false (decide (d.toNat + tmovCount w > 64))
  | .tcvt p px _ dst src _ => mk p px accM true (badCvt dst src)
  | .mscl p px _ x _ => mk p px accM true (oddR x.reg)
  | .copyStart p px _ d _ => mk p px accM true (oddR d)
  | .copyCancel p px _ => mk p px accM true
  | .copyWpr p px _ d => mk p px accM true (oddR d)
  | .collStart p px _ => mk p px accM true
  | .collQuery p px _ _ => mk p px accM true
  | .stn o => mk o.p o.px accM true (decide (o.size.toNat = 3) || oddR o.a.reg || badSize (BitVec.ofNat 3 (o.size.toNat + 2)) o.v.reg)
  | .gath p px _ => mk p px accM true
  | .tblLd p px _ => mk p px accM true
  | .tblSel p px _ => mk p px accM true
  | .tfence => bare

/-- Does an instruction that accepts `acc` take this PX word (R188, R189)? A field is set when it is not zero; the mask is
one field; NC asks for CV. -/
def pxOk (takes : Bool) (acc : Acc) (px : Option Px) : Bool :=
  match px with
  | none => true
  | some x =>
    takes && (acc.mask || (!x.mneg && decide (x.mpred.toNat = 0))) && (acc.zero || !x.zero)
      && (acc.rnd || decide (x.rnd.toNat = 0)) && (acc.c || (x.c.isNone && !x.nc)) && (acc.scope || decide (x.scope.toNat = 0))
      && (acc.sat || !x.sat) && (acc.neg || (!x.na && !x.nb)) && (!x.nc || x.c.isSome)

/-- Does the form allow the pipe (R178)? -/
def pipeOk (f : Form) (p : Pipe) : Bool :=
  match p with
  | .lane => f.lane
  | .unif => f.unif

/-- A reserved rounding code of a PX word (R106, R188). -/
def pxBad (px : Option Px) : Bool :=
  match px with
  | none => false
  | some x => decide (x.rnd.toNat ≥ 5)

/-- A well-formed instruction: the checks of R195 beside the start mask. -/
def wellFormed (i : Instr) : Bool :=
  let f := form i
  pxOk f.takes f.acc f.px && pipeOk f f.p && !pxBad f.px && !f.bad && !f.mbz

end Sys2Proof
end

