-- ==== Sys2Proof/Machine/Operands.lean ====
section
/-!
DEFINITION. Operand forms: what registers an instruction reads and writes (R44, R179 to R188), guards (R15), full and empty
sources (R12, R47), stale reads (R46), last uses (R45), the peak (R49), tags of a write (R39 to R42), and the banks with
eviction and refill (R50 to R55).
-/
namespace Sys2Proof.Machine
open Sys2Proof

/-- A register that an instruction reads, with its L and E bits (R44). -/
structure SrcReg where
  reg : Nat
  last : Bool := false
  etrap : Bool := false
  /-- reading it released sets no SR (R258) -/
  quiet : Bool := false
  /-- a fallow register is not waited for (R258) -/
  fal : Bool := false
  deriving DecidableEq, Repr

/-- One register of a source byte. -/
def one (s : Src) : List SrcReg := [{ reg := s.reg.toNat, last := s.last, etrap := s.etrap }]
/-- n registers from a source byte; L and E apply to each (R179). -/
def many (s : Src) (n : Nat) : List SrcReg := (List.range n).map fun k => { reg := s.reg.toNat + k, last := s.last, etrap := s.etrap }
/-- A pair (R179). -/
def two (s : Src) : List SrcReg := many s 2
/-- D read as a source, L = E = 0 (R198). -/
def dsrc (d : RegNo) : List SrcReg := [{ reg := d.toNat }]
/-- Register C of a PX word (R188). -/
def cOf (px : Option Px) : Option Src := px.bind (·.c)
/-- C of a PX word, or D (R198, R205). -/
def addend (px : Option Px) (d : RegNo) : List SrcReg :=
  match cOf px with
  | some c => one c
  | none => dsrc d
/-- Data registers by size code (R182). -/
def sizeRegs (size : Nat) : Nat := if size = 3 then 2 else if size = 4 then 4 else 1
/-- Address registers: a register for scratchpad, a pair for global (R182). -/
def addrRegs (sp : Bool) (a : Src) : List SrcReg := if sp then one a else two a
/-- Operand byte of a matrix issue as a source byte. -/
def byteSrc (b : Byte) : Src := ⟨BitVec.ofNat 6 (b.toNat / 4), b.getLsbD 1, b.getLsbD 0⟩
/-- Registers a matrix operand byte names, by kind (R125, R126). -/
def matRegs (kind : Nat) (b : Byte) (row : Nat) : List SrcReg :=
  match kind with
  | 0 => many (byteSrc b) (row / 8)
  | 2 => two (byteSrc b)
  | _ => []
/-- Registers an `mloop` operand byte names: bit 0 says descriptor, and there is no E bit (R280). -/
def loopRegs (b : Byte) : List SrcReg :=
  if b.getLsbD 0 then many ⟨BitVec.ofNat 6 (b.toNat / 4), b.getLsbD 1, false⟩ 2 else []

/-- The registers an instruction reads at issue, in operand order. -/
def reads : Instr → List SrcReg
  | .fuseHoldExpiry _ _ _ | .joinBinTimerExpiry _ _ | .spawnBinTimerExpiry _ _ | .plotAdmission _ _ | .plotRetire _ _ 
  | .loadDataReturn _ | .fallowRefill _ _ _ | .mgmtRegisterRead _ _ _ | .debuggerRegisterWrite _ _ _ _ 
  | .depositPerform _ | .icacheLineFill _ _ | .dirtyLineDrain _ | .homeStorePerform _ | .homeLoadService _ _ 
  | .atomicRequestPerform _ | .atomicAck _ | .ldspWrite _ | .stnCompletion _ | .fabricResponseTimeout _ 
  | .fenceComplete _ _ | .napWordRecheck _ _ | .matrixStepComplete _ | .tileOpComplete _ _ | .tableLoadCommit _ _ 
  | .copyCommandAccept _ _ | .copyChunkDelivery _ _ | .gatherElement _ _ | .collUnitStart _ 
  | .collChunkReceived _ _ _ _ | .collStepEnd _ | .collOperationComplete _ | .collWatchdogExpiry _ 
  | .handlerDelivery _ _ | .stopRequest _ _ | .plotSave _ _ | .plotRestore _ _ | .hostWindow2Write _ _ 
  | .hostWindow2Read _ _ | .registerWrite _ _ _ | .tailWrite _ _ | .queueEnable _ _ | .residencyRequest _ 
  | .queueRecordAccept _ | .runEnd _ | .nodeDispatch _ _ | .nodeComplete _ _ | .condRead _ _ | .plotStage _ _ _ 
  | .pageWalkComplete _ _ | .pageService _ _ | .packetForward _ _ _ _ _ _ _ | .remoteRequestArrival _ _ _ _ _ _ _
  | .linkTrainingComplete _ _ _ _ | .linkPartnerReset _ | .flitGroupTransmit _ | .flitGroupReceive _ _ _ 
  | .powerLimitWindow _ _ | .voltageDroop _ | .thermalThrottle _ | .timeExchange _ _ _ _ | .fleetTimeSync _ 
  | .recordWrite _ | .residencyReturn _ | .debuggerAttach _ _ _ | .issueCycle | .threadOverdue | .yieldExpiry 
  | .leaseExpiry | .stopFallbackExpiry | .erheadWrite | .firmwareEventDispatch | .firmwareRetention | .ginvWrite 
  | .pageVerdict | .tlbInvalidate | .tlbInvalidateComplete | .migrationStart | .migrationDrained | .migrationCopyDone 
  | .saveSetImport | .frozenKill | .frozenResume | .coldReset | .warmReset | .routeTableLoad | .routeLoadComplete 
  | .routeBankSelect | .packetWaitTimeout | .getcert | .getnonce | .unlock | .attest | .extend | .tkey | .lkey 
  | .lifecycle | .recover | .powerOn | .railGoodTimeout | .thermalTrip | .timeBoundGrowth | .quotaWrite 
  | .granaryReadout | .granaryReadoutComplete | .waitforSnapshot | .profileHostStart | .profileHostStop 
  | .profileSummaryInterval | .detailSelectWrite | .prheadWrite | .powerLoss => []
  | .add o => one o.a ++ one o.b
  | .sub o => one o.a ++ one o.b
  | .mul o => one o.a ++ one o.b
  | .mulhiI32 o => one o.a ++ one o.b
  | .mulhiN32 o => one o.a ++ one o.b
  | .minI32 o => one o.a ++ one o.b
  | .maxI32 o => one o.a ++ one o.b
  | .minN32 o => one o.a ++ one o.b
  | .maxN32 o => one o.a ++ one o.b
  | .and o => one o.a ++ one o.b
  | .or o => one o.a ++ one o.b
  | .xor o => one o.a ++ one o.b
  | .andn o => one o.a ++ one o.b
  | .shl o => one o.a ++ one o.b
  | .shr o => one o.a ++ one o.b
  | .sar o => one o.a ++ one o.b
  | .rotl o => one o.a ++ one o.b
  | .bfeN32 o => one o.a ++ one o.b
  | .bfeI32 o => one o.a ++ one o.b
  | .bfi o => one o.a ++ one o.b ++ dsrc o.d
  | .addB64 o => two o.a ++ two o.b
  | .subB64 o => two o.a ++ two o.b
  | .lea o => two o.a ++ one o.b
  | .lea4 o => two o.a ++ one o.b
  | .mulWideI32 o => one o.a ++ one o.b
  | .mulWideN32 o => one o.a ++ one o.b
  | .mad o => one o.a ++ one o.b ++ addend o.px o.d
  | .clz o => one o.a
  | .popc o => one o.a
  | .brev o => one o.a
  | .mov o => one o.a
  | .icmpI32 o => one o.a ++ one o.b
  | .icmpN32 o => one o.a ++ one o.b
  | .addi o => one o.a
  | .muli o => one o.a
  | .andi o => one o.a
  | .ori o => one o.a
  | .xori o => one o.a
  | .shli o => one o.a
  | .shri o => one o.a
  | .sari o => one o.a
  | .rotli o => one o.a
  | .miniI32 o => one o.a
  | .maxiI32 o => one o.a
  | .miniN32 o => one o.a
  | .maxiN32 o => one o.a
  | .icmpiI32 o => one o.a
  | .icmpiN32 o => one o.a
  | .leai o => two o.a
  | .bfeiN32 o => one o.a
  | .bfeiI32 o => one o.a
  | .passiAt o => one o.a
  | .passiOff o => one o.a
  | .passiFlip o => one o.a
  | .passiRot o => one o.a
  | .li _ => []
  | .liw _ => []
  | .fcmpF32 o => one o.a ++ one o.b
  | .faddF32 o => one o.a ++ one o.b
  | .fsubF32 o => one o.a ++ one o.b
  | .fmulF32 o => one o.a ++ one o.b
  | .ffmaF32 o => one o.a ++ one o.b ++ addend o.px o.d
  | .fminF32 o => one o.a ++ one o.b
  | .fmaxF32 o => one o.a ++ one o.b
  | .frcp o => one o.a
  | .frsq o => one o.a
  | .fsqrt o => one o.a
  | .fex2 o => one o.a
  | .flg2 o => one o.a
  | .fsin o => one o.a
  | .fcos o => one o.a
  | .ftanh o => one o.a
  | .ftbl o => one o.a
  | .scacc o => one o.a ++ one o.b ++ dsrc o.d
  | .cvt o => one o.a
  | .pkBf2 o => one o.a ++ one o.b
  | .pkH2 o => one o.a ++ one o.b
  | .pk8loE4m3 o => one o.a ++ one o.b ++ dsrc o.d
  | .pk8hiE4m3 o => one o.a ++ one o.b ++ dsrc o.d
  | .pk8loE5m2 o => one o.a ++ one o.b ++ dsrc o.d
  | .pk8hiE5m2 o => one o.a ++ one o.b ++ dsrc o.d
  | .haddBf2 o => one o.a ++ one o.b
  | .hmulBf2 o => one o.a ++ one o.b
  | .hfmaBf2 o => one o.a ++ one o.b ++ addend o.px o.d
  | .haddH2 o => one o.a ++ one o.b
  | .hmulH2 o => one o.a ++ one o.b
  | .hfmaH2 o => one o.a ++ one o.b ++ addend o.px o.d
  | .fdivF32 o => one o.a ++ one o.b
  | .ld o => addrRegs o.sp o.a
  | .st o => many o.v (sizeRegs o.size.toNat) ++ addrRegs o.sp o.a
  | .pf o => two o.a
  | .atomAdd o => one o.v ++ addrRegs o.sp o.a
  | .atomMinI32 o => one o.v ++ addrRegs o.sp o.a
  | .atomMaxI32 o => one o.v ++ addrRegs o.sp o.a
  | .atomMinN32 o => one o.v ++ addrRegs o.sp o.a
  | .atomMaxN32 o => one o.v ++ addrRegs o.sp o.a
  | .atomAnd o => one o.v ++ addrRegs o.sp o.a
  | .atomOr o => one o.v ++ addrRegs o.sp o.a
  | .atomXor o => one o.v ++ addrRegs o.sp o.a
  | .atomXchg o => one o.v ++ addrRegs o.sp o.a
  | .atomCas o => one o.v ++ addrRegs o.sp o.a ++ dsrc o.d
  | .atomAddB64 o => two o.v ++ addrRegs o.sp o.a
  | .atomFaddF32 o => one o.v ++ addrRegs o.sp o.a
  | .atomFaddBf2 o => one o.v ++ addrRegs o.sp o.a
  | .atomFmaxF32 o => one o.v ++ addrRegs o.sp o.a
  | .atomFminF32 o => one o.v ++ addrRegs o.sp o.a
  | .atomIncw o => one o.v ++ addrRegs o.sp o.a
  | .ldsp o => two o.g ++ one o.s ++ one o.obj
  | .br _ => []
  | .call _ => []
  | .spawn _ => []
  | .brx o => two o.a
  | .callx o => two o.a
  | .nop _ _ => []
  | .exit _ => []
  | .join o => one o.a ++ one o.b
  | .leave _ => []
  | .regroup o => one o.a
  | .fuse _ => []
  | .yield _ => []
  | .safe _ _ _ _ => []
  | .bar _ _ => []
  | .poll _ _ _ _ _ => []
  | .sred _ _ a _ => one a
  | .sscan _ _ a _ _ => one a
  | .alike _ _ a _ => one a
  | .passAt o => one o.a ++ one o.b
  | .passOff o => one o.a ++ one o.b
  | .passFlip o => one o.a ++ one o.b
  | .passRot o => one o.a ++ one o.b
  | .abarInit o => one o.a ++ one o.b
  | .abarArrive _ _ a => one a
  | .abarDue o => one o.a ++ one o.b
  | .abarWait o => one o.a ++ one o.b
  | .abarTest o _ => one o.a ++ one o.b
  | .fence _ _ => []
  | .rput o => one o.a ++ two o.b
  | .arm _ _ _ => []
  | .ctrWait o => one o.a
  | .ctrRd _ _ _ _ => []
  | .plop _ _ _ _ _ _ => []
  | .pmovRd _ _ => []
  | .pmovWr _ a => one a
  | .csrRd _ _ _ => []
  | .csrWr _ a _ => one a
  | .time _ _ _ => []
  | .evt _ _ a _ => two a
  | .trap _ _ => []
  | .brk _ => []
  | .nap _ _ sp a b => addrRegs sp a ++ one b
  | .wpw _ a _ => two a
  | .shape o => (one o.a).map fun x => { x with quiet := true, fal := true }
  | .expand o => (dsrc o.d).map fun x => { x with quiet := true }
  | .bcast o => one o.a
  | .iota o => one o.a ++ one o.b
  | .fragResume _ a => two a
  | .fragResumeSkip _ a => two a
  | .fragKill _ a => two a
  | .fragInfo _ d a _ _ => two a ++ dsrc d
  | .fragStep _ a => two a
  | .mma _ _ w x => matRegs x.ka.toNat w.a (rowA w.pair.toNat) ++ matRegs x.kb.toNat w.b (rowB w.pair.toNat)
  | .mloop _ w _ => loopRegs w.a ++ loopRegs w.b
  | .mjoin w _ => matRegs 0 w.a (rowA w.pair.toNat) ++ two (byteSrc w.b)
  | .mwait _ _ _ => []
  | .tzero _ _ _ => []
  | .tld _ _ _ x => two x
  | .tst _ _ _ x => two x
  | .tmovin _ _ x w => many x (tmovCount w)
  | .tmovout _ _ _ _ => []
  | .tcvt _ _ _ _ _ _ => []
  | .mscl _ _ _ x _ => two x
  | .copyStart _ _ _ _ a => one a
  | .copyCancel _ _ _ => []
  | .copyWpr _ _ _ _ => []
  | .collStart _ _ a => one a
  | .collQuery _ _ _ a => one a
  | .stn o => two o.a ++ many o.v (sizeRegs (o.size.toNat + 2)) ++ one o.obj
  | .gath _ _ a => one a
  | .tblLd _ _ a => one a
  | .tblSel _ _ a => one a
  | .tfence => []

/-- n destination registers from d. -/
def dregs (d : RegNo) (n : Nat) : List Nat := (List.range n).map fun k => d.toNat + k

/-- The registers an instruction writes or marks empty. -/
def writes : Instr → List Nat
  | .icmpI32 _ | .icmpN32 _ | .icmpiI32 _ | .icmpiN32 _ | .fcmpF32 _ | .st _ | .pf _ | .ldsp _ | .br _ | .spawn _ 
  | .brx _ | .nop _ _ | .exit _ | .leave _ | .fuse _ | .yield _ | .safe _ _ _ _ | .bar _ _ | .abarInit _ 
  | .abarArrive _ _ _ | .abarDue _ | .abarWait _ | .fence _ _ | .rput _ | .ctrWait _ | .plop _ _ _ _ _ _ 
  | .pmovWr _ _ | .csrWr _ _ _ | .evt _ _ _ _ | .trap _ _ | .brk _ | .nap _ _ _ _ _ | .wpw _ _ _ | .expand _ 
  | .fragResume _ _ | .fragResumeSkip _ _ | .fragKill _ _ | .fragStep _ _ | .mma _ _ _ _ | .mloop _ _ _ | .mjoin _ _ 
  | .mwait _ _ _ | .tzero _ _ _ | .tld _ _ _ _ | .tst _ _ _ _ | .tmovin _ _ _ _ | .tcvt _ _ _ _ _ _ | .mscl _ _ _ _ _ 
  | .copyCancel _ _ _ | .collStart _ _ _ | .stn _ | .gath _ _ _ | .tblLd _ _ _ | .tblSel _ _ _ 
  | .fuseHoldExpiry _ _ _ | .joinBinTimerExpiry _ _ | .spawnBinTimerExpiry _ _ | .plotAdmission _ _ | .plotRetire _ _ 
  | .loadDataReturn _ | .fallowRefill _ _ _ | .mgmtRegisterRead _ _ _ | .debuggerRegisterWrite _ _ _ _ 
  | .depositPerform _ | .icacheLineFill _ _ | .dirtyLineDrain _ | .homeStorePerform _ | .homeLoadService _ _ 
  | .atomicRequestPerform _ | .atomicAck _ | .ldspWrite _ | .stnCompletion _ | .fabricResponseTimeout _ 
  | .fenceComplete _ _ | .napWordRecheck _ _ | .matrixStepComplete _ | .tileOpComplete _ _ | .tableLoadCommit _ _ 
  | .copyCommandAccept _ _ | .copyChunkDelivery _ _ | .gatherElement _ _ | .collUnitStart _ 
  | .collChunkReceived _ _ _ _ | .collStepEnd _ | .collOperationComplete _ | .collWatchdogExpiry _ 
  | .handlerDelivery _ _ | .stopRequest _ _ | .plotSave _ _ | .plotRestore _ _ | .hostWindow2Write _ _ 
  | .hostWindow2Read _ _ | .registerWrite _ _ _ | .tailWrite _ _ | .queueEnable _ _ | .residencyRequest _ 
  | .queueRecordAccept _ | .runEnd _ | .nodeDispatch _ _ | .nodeComplete _ _ | .condRead _ _ | .plotStage _ _ _ 
  | .pageWalkComplete _ _ | .pageService _ _ | .packetForward _ _ _ _ _ _ _ | .remoteRequestArrival _ _ _ _ _ _ _
  | .linkTrainingComplete _ _ _ _ | .linkPartnerReset _ | .flitGroupTransmit _ | .flitGroupReceive _ _ _ 
  | .powerLimitWindow _ _ | .voltageDroop _ | .thermalThrottle _ | .timeExchange _ _ _ _ | .fleetTimeSync _ 
  | .recordWrite _ | .residencyReturn _ | .debuggerAttach _ _ _ | .tfence | .issueCycle | .threadOverdue 
  | .yieldExpiry | .leaseExpiry | .stopFallbackExpiry | .erheadWrite | .firmwareEventDispatch | .firmwareRetention 
  | .ginvWrite | .pageVerdict | .tlbInvalidate | .tlbInvalidateComplete | .migrationStart | .migrationDrained 
  | .migrationCopyDone | .saveSetImport | .frozenKill | .frozenResume | .coldReset | .warmReset | .routeTableLoad 
  | .routeLoadComplete | .routeBankSelect | .packetWaitTimeout | .getcert | .getnonce | .unlock | .attest | .extend 
  | .tkey | .lkey | .lifecycle | .recover | .powerOn | .railGoodTimeout | .thermalTrip | .timeBoundGrowth 
  | .quotaWrite | .granaryReadout | .granaryReadoutComplete | .waitforSnapshot | .profileHostStart | .profileHostStop 
  | .profileSummaryInterval | .detailSelectWrite | .prheadWrite | .powerLoss => []
  | .add o => dregs o.d 1
  | .sub o => dregs o.d 1
  | .mul o => dregs o.d 1
  | .mulhiI32 o => dregs o.d 1
  | .mulhiN32 o => dregs o.d 1
  | .minI32 o => dregs o.d 1
  | .maxI32 o => dregs o.d 1
  | .minN32 o => dregs o.d 1
  | .maxN32 o => dregs o.d 1
  | .and o => dregs o.d 1
  | .or o => dregs o.d 1
  | .xor o => dregs o.d 1
  | .andn o => dregs o.d 1
  | .shl o => dregs o.d 1
  | .shr o => dregs o.d 1
  | .sar o => dregs o.d 1
  | .rotl o => dregs o.d 1
  | .bfeN32 o => dregs o.d 1
  | .bfeI32 o => dregs o.d 1
  | .bfi o => dregs o.d 1
  | .addB64 o => dregs o.d 2
  | .subB64 o => dregs o.d 2
  | .lea o => dregs o.d 2
  | .lea4 o => dregs o.d 2
  | .mulWideI32 o => dregs o.d 2
  | .mulWideN32 o => dregs o.d 2
  | .mad o => dregs o.d 1
  | .clz o => dregs o.d 1
  | .popc o => dregs o.d 1
  | .brev o => dregs o.d 1
  | .mov o => dregs o.d 1
  | .addi o => dregs o.d 1
  | .muli o => dregs o.d 1
  | .andi o => dregs o.d 1
  | .ori o => dregs o.d 1
  | .xori o => dregs o.d 1
  | .shli o => dregs o.d 1
  | .shri o => dregs o.d 1
  | .sari o => dregs o.d 1
  | .rotli o => dregs o.d 1
  | .miniI32 o => dregs o.d 1
  | .maxiI32 o => dregs o.d 1
  | .miniN32 o => dregs o.d 1
  | .maxiN32 o => dregs o.d 1
  | .leai o => dregs o.d 2
  | .bfeiN32 o => dregs o.d 1
  | .bfeiI32 o => dregs o.d 1
  | .passiAt o => dregs o.d 1
  | .passiOff o => dregs o.d 1
  | .passiFlip o => dregs o.d 1
  | .passiRot o => dregs o.d 1
  | .li o => dregs o.d 1
  | .liw o => dregs o.d 1
  | .faddF32 o => dregs o.d 1
  | .fsubF32 o => dregs o.d 1
  | .fmulF32 o => dregs o.d 1
  | .ffmaF32 o => dregs o.d 1
  | .fminF32 o => dregs o.d 1
  | .fmaxF32 o => dregs o.d 1
  | .frcp o => dregs o.d 1
  | .frsq o => dregs o.d 1
  | .fsqrt o => dregs o.d 1
  | .fex2 o => dregs o.d 1
  | .flg2 o => dregs o.d 1
  | .fsin o => dregs o.d 1
  | .fcos o => dregs o.d 1
  | .ftanh o => dregs o.d 1
  | .ftbl o => dregs o.d 1
  | .scacc o => dregs o.d 1
  | .cvt o => dregs o.d 1
  | .pkBf2 o => dregs o.d 1
  | .pkH2 o => dregs o.d 1
  | .pk8loE4m3 o => dregs o.d 1
  | .pk8hiE4m3 o => dregs o.d 1
  | .pk8loE5m2 o => dregs o.d 1
  | .pk8hiE5m2 o => dregs o.d 1
  | .haddBf2 o => dregs o.d 1
  | .hmulBf2 o => dregs o.d 1
  | .hfmaBf2 o => dregs o.d 1
  | .haddH2 o => dregs o.d 1
  | .hmulH2 o => dregs o.d 1
  | .hfmaH2 o => dregs o.d 1
  | .fdivF32 o => dregs o.d 1
  | .ld o => dregs o.d (sizeRegs o.size.toNat)
  | .atomAdd o => if o.ret then dregs o.d 1 else []
  | .atomMinI32 o => if o.ret then dregs o.d 1 else []
  | .atomMaxI32 o => if o.ret then dregs o.d 1 else []
  | .atomMinN32 o => if o.ret then dregs o.d 1 else []
  | .atomMaxN32 o => if o.ret then dregs o.d 1 else []
  | .atomAnd o => if o.ret then dregs o.d 1 else []
  | .atomOr o => if o.ret then dregs o.d 1 else []
  | .atomXor o => if o.ret then dregs o.d 1 else []
  | .atomXchg o => if o.ret then dregs o.d 1 else []
  | .atomCas o => if o.ret then dregs o.d 1 else []
  | .atomAddB64 o => if o.ret then dregs o.d 2 else []
  | .atomFaddF32 o => if o.ret then dregs o.d 1 else []
  | .atomFaddBf2 o => if o.ret then dregs o.d 1 else []
  | .atomFmaxF32 o => if o.ret then dregs o.d 1 else []
  | .atomFminF32 o => if o.ret then dregs o.d 1 else []
  | .atomIncw o => if o.ret then dregs o.d 1 else []
  | .call _ => [62, 63]
  | .callx _ => [62, 63]
  | .join o => dregs o.d 1
  | .regroup o => dregs o.d 1
  | .poll _ d fn _ _ => if fn.toNat ≥ 3 then dregs d 1 else []
  | .sred _ d _ _ => dregs d 1
  | .sscan _ d _ _ _ => dregs d 1
  | .alike _ d _ _ => dregs d 1
  | .passAt o => dregs o.d 1
  | .passOff o => dregs o.d 1
  | .passFlip o => dregs o.d 1
  | .passRot o => dregs o.d 1
  | .abarTest _ d => dregs d 1
  | .arm _ _ d => dregs d 1
  | .ctrRd _ _ d _ => dregs d 1
  | .pmovRd _ d => dregs d 1
  | .csrRd _ d _ => dregs d 1
  | .time _ _ d => dregs d 2
  | .shape o => dregs o.d 1
  | .bcast o => dregs o.d 1
  | .iota o => dregs o.d 1
  | .fragInfo _ d _ _ _ => dregs d 1
  | .tmovout _ _ d w => dregs d (tmovCount w)
  | .copyStart _ _ _ d _ => dregs d 2
  | .copyWpr _ _ _ d => dregs d 2
  | .collQuery _ _ d _ => dregs d 1

/-- Does the thread transfer or spawn (R243)? -/
def brTaken (o : BrOp) (th : Thread) : Bool := xor (o.pred == 0 || th.preds.getLsbD o.pred.toNat) o.neg
/-- The registers whose write by this thread is checked against the peak at issue; `join` checks its own after the count (R249). -/
def writesBy (i : Instr) : List Nat :=
  match i with
  | .join _ => []
  | i => writes i

/-- Predicates an instruction reads: its mask, and those that the instruction names (R9, R15, R304). -/
def predsRead (i : Instr) : List Nat :=
  (match (form i).px with
    | none => []
    | some x => [x.mpred.toNat])
  ++ match i with
    | .br o | .call o | .spawn o => [o.pred.toNat]
    | .poll _ _ _ _ k => [k.toNat]
    | .plop _ _ pa pb pc _ => [pa.toNat, pb.toNat, pc.toNat]
    | .pmovRd _ _ => List.range 8
    | _ => []

/-- Predicates an instruction writes that accepts ZERO (R188, R189). -/
def predsWritten : Instr → List Nat
  | .icmpI32 o | .icmpN32 o | .fcmpF32 o => [o.pd.toNat]
  | .icmpiI32 o | .icmpiN32 o => [o.pd.toNat]
  | _ => []

/-- Predicate p; p0 reads 1 (R9). -/
def predOf (th : Thread) (p : PredNo) : Bool := p == 0 || th.preds.getLsbD p.toNat
/-- Write predicate p; a write of p0 is discarded (R9). -/
def setPred (th : Thread) (p : Nat) (b : Bool) : Thread :=
  if p = 0 then th
  else { th with preds := if b then th.preds ||| (1#8 <<< p) else th.preds &&& ~~~(1#8 <<< p) }
/-- Is the thread active under the mask of a PX word (R15, R188)? -/
def guardOn (px : Option Px) (th : Thread) : Bool :=
  match px with
  | none => true
  | some x => xor (predOf th x.mpred) x.mneg

/-- The value a thread reads from a register; a released one reads 0 (R38, R46). -/
def rv (th : Thread) (r : Nat) : Word :=
  match tget th.regs r with
  | none => 0
  | some c => c.val
/-- A pair (R4). -/
def rvPair (th : Thread) (r : Nat) : Nat := (rv th r).toNat + 2 ^ 32 * (rv th (r + 1)).toNat
/-- What the operand at a place reads from a register: where reads of it are undefined each operand reads a value of its own (R6, R95). -/
def rvAt (th : Thread) (place r : Nat) : Word := (tget th.seen (64 * place + r)).getD (rv th r)
/-- A pair, read by the operand at a place. -/
def rvPairAt (th : Thread) (place r : Nat) : Nat := (rvAt th place r).toNat + 2 ^ 32 * (rvAt th place (r + 1)).toNat
/-- The value of the first source byte. -/
def sv (th : Thread) (s : Src) : Word := rv th s.reg.toNat
/-- The value of the second source byte. -/
def sv2 (th : Thread) (s : Src) : Word := rvAt th 1 s.reg.toNat
/-- The value of the third source byte. -/
def sv3 (th : Thread) (s : Src) : Word := rvAt th 2 s.reg.toNat
/-- The value of the first source pair. -/
def svPair (th : Thread) (s : Src) : Nat := rvPair th s.reg.toNat
/-- The value of the second source pair. -/
def svPair2 (th : Thread) (s : Src) : Nat := rvPairAt th 1 s.reg.toNat

/-- May the thread read this source now (R12, R47)? Empty with E set lets it join and trap. -/
def srcReady (th : Thread) (x : SrcReg) : Bool :=
  match tget th.regs x.reg with
  | none => true
  | some c =>
    match c.st with
    | .full => true
    | .empty => x.etrap
    | .fallow => x.fal

/-- Registers at which a thread is held: empty and read with E clear, or fallow (R47, R53). -/
def heldAt (th : Thread) (l : List SrcReg) : List Nat := (l.filter fun x => !srcReady th x).map (·.reg)

/-- The first empty source read with E set (R47). -/
def emptyTrap (th : Thread) (l : List SrcReg) : Option Nat :=
  (l.find? fun x => x.etrap && match tget th.regs x.reg with
    | some c => c.st == .empty
    | none => false).map (·.reg)

/-- Live members of the thread's sheaf; a solitary thread is a sheaf of one (R19). -/
def sheafSize (c : Core) (th : Thread) : Nat :=
  match th.sheaf with
  | none => 1
  | some k => (members c k).length

/-- The tag a register shows (R38, R39): 0 general, 1 uniform, 2 affine, 3 released. -/
def tagCode (c : Core) (th : Thread) (r : Nat) : Nat :=
  match tget th.regs r with
  | none => 3
  | some x =>
    if sheafSize c th ≤ 1 then 1
    else match x.tag with
      | .general => 0
      | .uniform => 1
      | .affine _ _ => 2

/-- Is the register empty? Its tag is decided when it fills (R47). -/
def emptyAt (th : Thread) (r : Nat) : Bool :=
  match tget th.regs r with
  | some x => x.st == .empty
  | none => false
/-- May the uniform pipe read it (R40)? A read of an empty one is no matter of its tag (R47). -/
def uniformSrc (c : Core) (th : Thread) (r : Nat) : Bool := tagCode c th r == 1 || tagCode c th r == 3 || emptyAt th r

/-- Registers a thread has mapped (R37). -/
def mapped (th : Thread) : Nat := th.regs.length
/-- Release registers (R45). -/
def release (l : List Nat) (th : Thread) : Thread := { th with regs := th.regs.filter fun e => !l.contains e.1 }
/-- Peak of the thread's role (R24, R49). -/
def peakOf (c : Core) (th : Thread) : Nat := (roleInfo (getPlot c th.plot) th.role).peak
/-- The first destination whose write would pass the peak, once the last uses are released (R45, R49). -/
def peakReg (c : Core) (th : Thread) (last dst : List Nat) : Option Nat :=
  (dst.foldl (fun (a : Thread × Option Nat) r =>
    if a.2.isSome then a
    else if (tget a.1.regs r).isSome then a
    else if mapped a.1 ≥ peakOf c th then (a.1, some r)
    else ({ a.1 with regs := tput a.1.regs r {} }, none)) (release last th, none)).2

/-- Write a register: a fresh entry, full, not armed, no producer (R48, R56). The tag follows in `retag`. -/
def writeReg (th : Thread) (r : Nat) (v : Word) (ready : Nat) : Thread :=
  { th with regs := tput th.regs r { val := v, ready := ready } }
/-- Mark a register empty for a producer (R47); armed for a deposit (R56). -/
def emptyReg (th : Thread) (r prod : Nat) (armed : Bool := false) : Thread :=
  { th with regs := tput th.regs r { st := .empty, val := if armed then 0 else rv th r, prod := prod, armed := armed } }

/-- Derivation of R42 over (rank, value) in ascending rank. The model's choice: the rule does not say how the two 32-bit values are
extended for their signed 33-bit difference, and they are zero-extended here. -/
def derive (l : List (Nat × Word)) : Tag :=
  match l with
  | [] => .general
  | (_, v) :: rest =>
    if rest.all fun e => e.2 == v then .uniform
    else match l with
      | (a, va) :: (b, vb) :: _ =>
        let d : Int := (vb.toNat : Int) - va.toNat
        let n : Int := (b : Int) - a
        if d % n ≠ 0 then .general
        else
          let st := d / n
          if st < -(2 ^ 31) ∨ st ≥ 2 ^ 31 then .general
          else
            let stw : Word := BitVec.ofInt 32 st
            let base := va - stw * BitVec.ofNat 32 a
            if l.all fun e => e.2 == base + stw * BitVec.ofNat 32 e.1 then .affine base stw else .general
      | _ => .general

/-- Sort by rank, then by thread slot (R64). -/
def insertRank (x : Nat × Thread) : List (Nat × Thread) → List (Nat × Thread)
  | [] => [x]
  | y :: t => if x.2.rank < y.2.rank ∨ (x.2.rank = y.2.rank ∧ x.1 < y.1) then x :: y :: t else y :: insertRank x t
/-- Drill order (R64). -/
def drillOrder (l : List (Nat × Thread)) : List (Nat × Thread) := l.foldr insertRank []

/-- A register leaves the uniform bank for an entry of the thread's own in its lane bank, which holds its old value (R41, R43); one that was
fallow is full there. -/
def ownEntry (x : RegCell) : RegCell := { x with uni := false, st := if x.uni && x.st == .fallow then .full else x.st }
/-- Set the tag of register r in one thread, and where it is stored. -/
def setTag (th : Thread) (r : Nat) (t : Tag) (uni : Bool) : Thread :=
  { th with regs := tupd th.regs r fun x => if uni then { x with tag := t, uni := true } else { ownEntry x with tag := t } }

/-- The tag that a write of r by these writers leaves in one sheaf (R39, R41, R42). The model's choice: where a uniform-pipe write by every
live member leaves different values, the result and the zeros of masked-off threads under ZERO, the register is general: the table says uniform,
and one uniform value cannot hold both (log 23). -/
def writeTag (uniformPipe : Bool) (r : Nat) (mem : List (Nat × Thread)) (writers : List Nat) : Tag :=
  if mem.length ≤ 1 then .uniform
  else if mem.all fun m => writers.contains m.1 then
    let vals := (drillOrder mem).map fun m => (m.2.rank, rv m.2 r)
    if uniformPipe then (match derive vals with
      | .uniform => .uniform
      | _ => .general)
    else derive vals
  else .general

/-- Re-tag register r after a write by these thread slots (R39 to R42): members of a sheaf carry one tag. -/
def retag (uniformPipe : Bool) (writers : List Nat) (c : Core) (r : Nat) : Core :=
  let sheaves := (writers.filterMap fun t => (tget c.threads t).bind (·.sheaf)).eraseDups
  let c := { c with threads := tmap c.threads fun t th => if writers.contains t && th.sheaf.isNone then setTag th r .uniform false else th }
  sheaves.foldl (fun c k =>
    let mem := members c k
    let tag := writeTag uniformPipe r mem writers
    let uni := decide (mem.length > 1) && decide (tag ≠ .general)
    { c with threads := tmap c.threads fun _ th => if th.sheaf == some k then setTag th r tag uni else th }) c

/-- Register r of these threads' sheaves becomes general (R41, R56). -/
def retagGeneral (writers : List Nat) (c : Core) (r : Nat) : Core :=
  let sheaves := (writers.filterMap fun t => (tget c.threads t).bind (·.sheaf)).eraseDups
  { c with threads := tmap c.threads fun _ th => if sheaves.any fun k => th.sheaf == some k
      then setTag th r (if sheafSize c th ≤ 1 then .uniform else .general) false else th }

/-! ### Banks (R50 to R55) -/

/-- General entries a thread holds in its lane bank. -/
def laneEntries (th : Thread) : Nat := (th.regs.filter fun e => !e.2.uni && decide (e.2.st ≠ .fallow)).length
/-- Mapped registers of a thread that hold an entry: all but the fallow ones. -/
def entries (th : Thread) : Nat := (th.regs.filter fun e => decide (e.2.st ≠ .fallow)).length
/-- Entries of its lane bank that a thread has borrowed: what it has mapped above its floor, less its fallow registers, whose entries went
back, as far as it stands in the lane bank (R51, R52; log 51). -/
def borrowed (c : Core) (th : Thread) : Nat := min (laneEntries th) (entries th - (roleInfo (getPlot c th.plot) th.role).floor)
/-- Floors reserved on a lane by the resident plots (R25, R50). -/
def floorSum (c : Core) (lane : Nat) : Nat := c.plots.foldl (fun n p => n + tgetD p.2.floors lane 0) 0
/-- Lendable entries of a lane bank (R51). -/
def lendable (c : Core) (lane : Nat) : Nat := Config.laneBankSize - floorSum c lane - Config.spillReserve
/-- Borrowed entries on a lane. -/
def borrowedSum (c : Core) (lane : Nat) : Nat :=
  c.threads.foldl (fun n e => if laneOf e.1 = lane then n + borrowed c e.2 else n) 0

/-- The uniform-bank entries of one thread's registers, as (register, entries). -/
def uniRegs (th : Thread) : List (Nat × Nat) :=
  th.regs.filterMap fun e => if e.2.uni && decide (e.2.st ≠ .fallow) then some (e.1, match e.2.tag with
    | .affine _ _ => 2
    | _ => 1) else none
/-- The uniform-bank entries of a sheaf: one use for all its members (R38). -/
def sheafUni (c : Core) (k : Nat) : List (Nat × Nat) := ((members c k).flatMap fun m => uniRegs m.2).eraseDups
/-- Sheaves of an issue slot. -/
def slotSheaves (c : Core) (slot : Nat) : List Nat := (tkeys c.sheaves).filter fun k => k / 64 == slot
/-- Uniform-bank entries in use in a slot. -/
def uniUse (c : Core) (slot : Nat) : Nat := (slotSheaves c slot).foldl (fun n k => (sheafUni c k).foldl (fun n e => n + e.2) n) 0

/-- Is a runnable thread: ready, its plot not frozen (R52, R158, R162)? -/
def runnable (c : Core) (th : Thread) : Bool := th.st == .ready && (getPlot c th.plot).frozen.isNone
/-- The order of two threads by age: lower age, then lower slot at the launch, then lower slot now (R32). -/
def ageKey (a : Nat × Thread) : Nat := (a.2.age * 256 + a.2.born) * 256 + a.1
/-- Is a older than b (R32)? -/
def older (a b : Nat × Thread) : Bool := decide (ageKey a < ageKey b)
/-- The oldest of a list. -/
def oldest : List (Nat × Thread) → Option (Nat × Thread)
  | [] => none
  | x :: t => match oldest t with
    | none => some x
    | some y => if older y x then some y else some x
/-- Does the thread wait for a register that is fallow (R53)? -/
def waitsFallow (th : Thread) : Bool :=
  match th.st with
  | .waiting (.source l) => l.any fun r => match tget th.regs r with
    | some x => x.st == .fallow
    | none => false
  | _ => false
/-- The oldest runnable thread of the core, one that waits for its own refill among them: R53 refills "for the oldest runnable thread"
(R52, R53). -/
def oldestRunnable (c : Core) : Option Nat :=
  (oldest (c.threads.filter fun e => runnable c e.2 || (waitsFallow e.2 && (getPlot c e.2.plot).frozen.isNone))).map (·.1)
/-- Is the thread, but for what it refills, the oldest runnable one of the core (R53)? -/
def refillsFirst (c : Core) (tid : Nat) : Bool := oldestRunnable c == some tid

/-- The better of two victims, each as (not ready, borrowed entries, order by age): parked and waiting first, then most borrowed, then
youngest (R52). -/
def betterVictim (a b : Bool × Nat × Nat) : Bool :=
  if a.1 != b.1 then a.1 else if a.2.1 ≠ b.2.1 then decide (a.2.1 > b.2.1) else decide (a.2.2 > b.2.2)

/-- Registers that an eviction leaves a thread: operands of its instruction in progress, and those that it waits for, once they are back (the
model's choice: the rule does not say whether an instruction that waits for a refill is in progress; R52, R53). -/
def keptRegs (th : Thread) : List Nat :=
  match th.st with
  | .waiting (.source l) => l ++ th.held
  | _ => th.held
/-- The highest-numbered full register that is no operand of an instruction in progress (R52). -/
def evictable (th : Thread) (uni : Bool) (keep : List Nat) : Option Nat :=
  (th.regs.filter fun e => e.2.uni == uni && e.2.st == .full && !keep.contains e.1 && !(keptRegs th).contains e.1).getLast?.map (·.1)

/-- The victim thread of a lane bank with its register (R52): entries that the allocation under way has just given a thread (`fresh`) are not
yet borrowed entries that it holds. The model's choice: a thread whose borrowed entries are all empty or in use is passed over for the next
candidate. -/
def laneVictim (c : Core) (lane : Nat) (keep : Nat → List Nat) (fresh : Nat → Nat) : Option (Nat × Nat) :=
  let old := oldestRunnable c
  let cands := c.threads.filterMap fun e =>
    if laneOf e.1 = lane ∧ old ≠ some e.1 ∧ borrowed c e.2 > fresh e.1 then
      (evictable e.2 false (keep e.1)).map fun r => ((e.1, r), (decide (e.2.st ≠ .ready), borrowed c e.2 - fresh e.1, ageKey e))
    else none
  match cands with
  | [] => none
  | x :: t => some (t.foldl (fun a b => if betterVictim b.2 a.2 then b else a) x).1

/-- The victim sheaf of a uniform bank with its register (R52). The model's choice: the rule does not say when a sheaf counts as parked or
waiting, and here it does when none of its members is ready. -/
def uniVictim (c : Core) (slot : Nat) (keep : Nat → List Nat) : Option (Nat × Nat) :=
  let old := (oldestRunnable c).bind fun t => (tget c.threads t).bind (·.sheaf)
  let cands := (slotSheaves c slot).filterMap fun k =>
    let mem := members c k
    let regs := (sheafUni c k).map (·.1)
    let ok := regs.filter fun r => mem.all fun m => !(keep m.1).contains r && !(keptRegs m.2).contains r && (match tget m.2.regs r with
      | some x => !x.uni || x.st == .full
      | none => true)
    if old = some k then none
    else ok.max?.map fun r => ((k, r), (mem.all fun m => m.2.st != .ready, (sheafUni c k).foldl (fun n e => n + e.2) 0,
      ((oldest mem).map ageKey).getD 0))
  match cands with
  | [] => none
  | x :: t => some (t.foldl (fun a b => if betterVictim b.2 a.2 then b else a) x).1

/-- Physical address of the core's fallow store, if FSBASE is valid and in HBM (R54, R365). -/
def fallowBase (c : Core) : Option Nat :=
  let b := c.fsbase.toNat / 2 ^ 16 % 2 ^ 32 * 2 ^ 16
  if c.fsbase.getLsbD 0 && decide (b + 2 ^ 18 ≤ Config.hbmBytes) then some b else none

/-- A hardware error of these plots of a core (R55, R133, R162, R230): they are frozen in place; those of these threads that are not parked or
saved take the fault. -/
def hardError (s : State) (ci : Nat) (plots who : List Nat) : State :=
  let f := hwFault s
  let c := getCore s ci
  -- R163: what one participant of a move meets parks all of them, as one fragment
  let role (t : Nat) : Option (Nat × Nat) := (tget c.threads t).bind fun th => if th.st == .waiting .moving then some (th.plot, th.role) else none
  let hit := who.filterMap role
  let who := who ++ (tkeys c.threads).filter fun t => !who.contains t && ((role t).map hit.contains).getD false
  let l := who.filter fun t => match tget c.threads t with
    | some th => match th.st with
      | .parked _ | .saved _ => false
      | _ => true
    | none => false
  let s := takeFaults { emitR s (unitCore ci none) 0x0405 0 with free := s.free + 2 } ci (l.map fun t => (t, f))
  plots.foldl (fun s p => freezePlot s ci p 12) s
/-- A hardware error of a core: of every plot on it (R55, R133). -/
def coreError (s : State) (ci : Nat) (who : List Nat) : State := hardError s ci (tkeys (getCore s ci).plots) who
/-- The fallow store of a core at an offset, where an access of n bytes does not fail (R54, R55). -/
def fallowAt (s : State) (ci off n : Nat) : Option Nat :=
  match fallowBase (getCore s ci) with
  | some b => if lineBad s (b + off) n then none else some (b + off)
  | none => none

/-- A full register whose value has gone to the fallow store (R52). -/
def toFallow (x : RegCell) : RegCell := if x.st = .full then { x with st := .fallow } else x
/-- Evict one general register to the fallow store (R52, R54); where the access fails the register keeps its last state (R55). -/
def evictLane (s : State) (ci tid r : Nat) : State :=
  let c := getCore s ci
  match fallowAt s ci (tid * 256 + r * 4) 4, tget c.threads tid with
  | some a, some th =>
    fallowPut (putCore s ci (updThreadC c tid fun th => { th with regs := tupd th.regs r toFallow })) a (rv th r)
  | _, _ => coreError s ci [tid]

/-- Evict one uniform or affine register of a sheaf as a unit (R52, R54). -/
def evictUni (s : State) (ci k r : Nat) : State :=
  let c := getCore s ci
  match fallowAt s ci (2 ^ 16 + k * 512 + r * 8) 8, (members c k).find? (fun m => (tget m.2.regs r).isSome) with
  | some a, some m =>
    let x := tgetD m.2.regs r {}
    let w := match x.tag with
      | .affine base st => (base, st)
      | _ => (x.val, 0)
    let c := { c with threads := tmap c.threads fun _ th =>
                 if th.sheaf == some k then { th with regs := tupd th.regs r fun x => if x.uni then toFallow x else x } else th }
    fallowPut (fallowPut (putCore s ci c) a w.1) (a + 4) w.2
  | _, _ => coreError s ci ((members c k).map (·.1))

/-- Evict from a lane bank while it is over its lendable entries; answers the state and the entries evicted. The model's choice: where no
candidate has a register that may be evicted, the write stands and the bank is over its bound until a later allocation finds one; the spec
does not say what such an allocation does (R52). -/
def settleLane (ci lane : Nat) (keep : Nat → List Nat) (fresh : Nat → Nat) : Nat → State → State × Nat
  | 0, s => (s, 0)
  | n + 1, s =>
    let c := getCore s ci
    if borrowedSum c lane ≤ lendable c lane then (s, 0)
    else match laneVictim c lane keep fresh with
      | none => (s, 0)
      | some (t, r) =>
        if (fallowAt s ci (t * 256 + r * 4) 4).isNone then (evictLane s ci t r, 0)
        else
          let x := settleLane ci lane keep fresh n (evictLane s ci t r)
          (x.1, x.2 + 1)
/-- Evict from a uniform bank while it is over its size; the model's choice is as for a lane bank. -/
def settleUni (ci slot : Nat) (keep : Nat → List Nat) : Nat → State → State × Nat
  | 0, s => (s, 0)
  | n + 1, s =>
    let c := getCore s ci
    if uniUse c slot ≤ Config.uniformBankSize then (s, 0)
    else match uniVictim c slot keep with
      | none => (s, 0)
      | some (k, r) =>
        if (fallowAt s ci (2 ^ 16 + k * 512 + r * 8) 8).isNone then (evictUni s ci k r, 0)
        else
          let x := settleUni ci slot keep n (evictUni s ci k r)
          (x.1, x.2 + 1)

/-- Lane-bank entries that each thread holds beyond those it held in `old`. -/
def freshOf (old now : Core) (t : Nat) : Nat :=
  match tget old.threads t, tget now.threads t with
  | some a, some b => laneEntries b - laneEntries a
  | none, some b => laneEntries b
  | _, _ => 0
/-- After writes by these thread slots, `old` being the core before them: bring their banks back within their bounds (R51, R52). `n` bounds the
evictions. -/
def settleBanks (old : Core) (s : State) (ci : Nat) (tids : List Nat) (keep : Nat → List Nat) (n : Nat) : State × Nat :=
  let lanes := (tids.map laneOf).eraseDups
  let slots := (tids.map slotOf).eraseDups
  let fresh := freshOf old (getCore s ci)
  let a := lanes.foldl (fun (a : State × Nat) l => let x := settleLane ci l keep fresh n a.1; (x.1, a.2 + x.2)) (s, 0)
  slots.foldl (fun (a : State × Nat) k => let x := settleUni ci k keep n a.1; (x.1, a.2 + x.2)) a

/-- Thread slots of a core that stand among these or belong to a sheaf of one of them: a write by some members may give each of the others a
lane-bank entry (R41). -/
def sheafMates (c : Core) (tids : List Nat) : List Nat :=
  (tids ++ (c.threads.filter fun e => e.2.sheaf.isSome && tids.any fun t => ((tget c.threads t).map (·.sheaf)) == some e.2.sheaf).map (·.1)).eraseDups
/-- Writes are 2 cycles later for each entry that was evicted for them (R304): registers of these threads. -/
def lateWrites (s : State) (ci ev : Nat) (tids regs : List Nat) : State :=
  if ev = 0 then s
  else updThreads s ci tids fun th =>
    { th with regs := th.regs.map fun e => if regs.contains e.1 then (e.1, { e.2 with ready := e.2.ready + 2 * ev }) else e }
/-- Fill registers from their producers in one cycle (R47): each (thread slot, registers with values) whose cell still awaits the
producer; then the tags over all of them (R41, R42), and the banks (R51, R52, R304). -/
def fillRegs (s : State) (ci prod : Nat) (unif : Bool) (l : List (Nat × List (Nat × Word))) : State :=
  let c := getCore s ci
  let ok := l.filterMap fun e => (tget c.threads e.1).map fun th =>
    (e.1, e.2.filter fun x => match tget th.regs x.1 with
      | some y => y.st == .empty && y.prod == prod
      | none => false)
  let c := { c with threads := tmap c.threads fun t th =>
               match tget ok t with
               | none => th
               | some ws => ws.foldl (fun th x => writeReg th x.1 x.2 c.cyc) th }
  let regs := (ok.flatMap fun e => e.2.map (·.1)).eraseDups
  let c := regs.foldl (fun c r => retag unif ((ok.filter fun e => (e.2.map (·.1)).contains r).map (·.1)) c r) c
  let all := sheafMates c (ok.map (·.1))
  let x := settleBanks (getCore s ci) (putCore s ci c) ci all (fun t => ((tget ok t).getD []).map (·.1)) (2 * regs.length * all.length)
  lateWrites x.1 ci x.2 (ok.map (·.1)) regs

/-- The value a fallow register of a thread holds in the fallow store that stands at b (R54). -/
def fallowWord (s : State) (b tid : Nat) (th : Thread) (r : Nat) (x : RegCell) : Word :=
  if x.uni then
    let a := b + 2 ^ 16 + th.sheaf.getD 0 * 512 + r * 8
    match x.tag with
    | .affine _ _ => fallowGet s a + fallowGet s (a + 4) * BitVec.ofNat 32 th.rank
    | _ => fallowGet s a
  else fallowGet s (b + tid * 256 + r * 4)
/-- The value a thread's register holds: a fallow one's stands in the fallow store (R53, R54). -/
def cellValue (s : State) (ci tid : Nat) (th : Thread) (r : Nat) (x : RegCell) : Word :=
  match x.st, fallowBase (getCore s ci) with
  | .fallow, some b => fallowWord s b tid th r x
  | _, _ => x.val
/-- A uniform or affine register comes back from the two words of the fallow store. -/
def backUni (cyc : Nat) (v st : Word) (t : Thread) (y : RegCell) : RegCell :=
  if !y.uni then y
  else match y.tag with
    | .affine _ _ => { y with st := .full, tag := .affine v st, val := v + st * BitVec.ofNat 32 t.rank, ready := cyc }
    | _ => { y with st := .full, val := v, ready := cyc }
/-- Refill a fallow register from the fallow store. It needs an entry as any allocation does: a thread below its floor finds one, for any other
entries are evicted until one is free; where none can be, only the oldest runnable thread takes one, of the spill reserve, and any other stays
as it is (R51 to R53). -/
def refillReg (s : State) (ci tid r : Nat) : State :=
  let c := getCore s ci
  match tget c.threads tid with
  | none => s
  | some th =>
    match tget th.regs r with
    | none => s
    | some x =>
      if x.st ≠ .fallow then s
      else if x.uni then
        let k := th.sheaf.getD 0
        match fallowAt s ci (2 ^ 16 + k * 512 + r * 8) 8 with
        | none => coreError s ci [tid]
        | some a =>
          let v := fallowGet s a
          let st := fallowGet s (a + 4)
          let c := { c with threads := tmap c.threads fun t th' =>
                       if t = tid ∨ (th.sheaf.isSome ∧ th'.sheaf = th.sheaf) then { th' with regs := tupd th'.regs r (backUni c.cyc v st th') } else th' }
          let s' := (settleUni ci (slotOf tid) (fun t => if t = tid then [r] else []) 1024 (putCore s ci c)).1
          if uniUse (getCore s' ci) (slotOf tid) ≤ Config.uniformBankSize ∨ (getCore s' ci).plots ≠ c.plots then s' else s
      else match fallowAt s ci (tid * 256 + r * 4) 4 with
        | none => coreError s ci [tid]
        | some a =>
          let v := fallowGet s a
          let first := refillsFirst c tid
          let old := c
          let c := updThreadC c tid fun th => { th with regs := tput th.regs r { x with st := .full, val := v, ready := c.cyc } }
          if ((tget c.threads tid).map (borrowed c)).getD 0 ≤ borrowed old th then putCore s ci c
          else
            let s' := (settleLane ci (laneOf tid) (fun t => if t = tid then [r] else []) (freshOf old c) 1024 (putCore s ci c)).1
            let c' := getCore s' ci
            let room := lendable c' (laneOf tid) + (if first then Config.spillReserve else 0)
            if borrowedSum c' (laneOf tid) ≤ room ∨ c'.plots ≠ c.plots then s' else s

end Sys2Proof.Machine
end

