-- ==== Sys2Proof/Machine/Drill.lean ====
section
/-!
DEFINITION. How one drill carries an instruction out (R12 to R16, R44 to R49, R152, R199, R302 to R304): its active threads, the
checks before anything is performed, each thread's part, and the commit of results, tags, faults, waits and time.
-/
namespace Sys2Proof.Machine
open Sys2Proof

/-- What one thread's part of an instruction does. -/
structure Fx where
  /-- registers written -/
  regs : List (Nat × Word) := []
  /-- registers marked empty for a producer (R47), armed for a deposit (R56) -/
  empties : List Nat := []
  prod : Nat := 0
  armed : Bool := false
  preds : List (Nat × Bool) := []
  /-- flags of `ast` -/
  flags : Word := 0
  /-- transfer target (R176, R302) -/
  jump : Option DWord := none
  fault : Option FaultRec := none
  /-- the thread waits (R11) -/
  wait : Option Wait := none
  /-- the part is not performed; the thread executes the instruction again in a later cycle (R70) -/
  stay : Bool := false
  /-- the part found no MSHR (R70) -/
  rej : Bool := false
  /-- the thread is gone (`exit`) -/
  gone : Bool := false
  deriving DecidableEq, Repr

/-- Result latencies: lane pipe and uniform pipe (R304). -/
structure Lat where
  lane : Nat
  unif : Nat
  deriving DecidableEq, Repr
def latInt : Lat := ⟨4, 2⟩
def latMul : Lat := ⟨6, 4⟩
def latApprox : Lat := ⟨12, 12⟩
def latDiv : Lat := ⟨24, 24⟩
def latPass : Lat := ⟨8, 8⟩
def latRed : Lat := ⟨12, 12⟩

/-- The address of the next instruction in fall-through order (R176): after word 31, word 2 of the next line. -/
def nextPc (pc : DWord) (len : Nat) : DWord :=
  let w := pc.toNat / 4 % 32 + len
  if w ≥ 32 then BitVec.ofNat 64 ((pc.toNat / 128 + 1) * 128 + 8) else pc + BitVec.ofNat 64 (4 * len)

/-- The pipe of the drill being carried out. -/
def isUnif (s : State) : Bool := s.cur.pipe == .unif

/-- The registers that a taken `spawn` copies: `v0` to `v7` (R246). -/
def spawnCopies (i : Instr) (th : Thread) : List Nat :=
  match i with
  | .spawn o => if brTaken o th then List.range 8 else []
  | _ => []
/-- Those among them that it finds empty or fallow. -/
def spawnHeld (i : Instr) (th : Thread) : List Nat :=
  (spawnCopies i th).filter fun r => match tget th.regs r with
    | some c => c.st != .full
    | none => false
/-- Does a taken `spawn` find `v0` to `v7` full (R246)? -/
def spawnReady (i : Instr) (th : Thread) : Bool := (spawnHeld i th).isEmpty
/-- The registers at which an instruction holds a thread (R11, R47, R53, R246). -/
def sourceHeld (i : Instr) (th : Thread) : List Nat := heldAt th (reads i) ++ spawnHeld i th
/-- May this thread take part (R12): ready, or arrived for the completed collective, and every source it reads is ready? -/
def qualifies (i : Instr) (coll : Bool) (th : Thread) : Bool :=
  (th.st == .ready || (coll && th.st == .waiting .rendezvous)) && (reads i).all (srcReady th) && spawnReady i th
/-- Is the thread active: its guard and its mask are true (R15, R243)? -/
def actOn (i : Instr) (th : Thread) : Bool :=
  match i with
  | .br o | .call o | .spawn o => brTaken o th
  | i => guardOn (form i).px th

/-- What a thread reads between an `mjoin` and the matching `mwait`: a register of the part reads as a free value, another one for each
operand that names it (R6, R95; log 12). -/
def undefReads (s : State) (tid : Nat) (th : Thread) : Thread :=
  th.joinRegs.foldl (fun th x => { th with
    regs := tupd th.regs x.2 fun c => { c with val := Config.freeReg s.free tid x.2 }
    seen := tput (tput th.seen (64 + x.2) (Config.freeReg s.free tid (64 + x.2))) (128 + x.2) (Config.freeReg s.free tid (128 + x.2)) }) { th with seen := [] }
/-- The threads of the drill, in drill order (R12, R64). -/
def drillThreads (i : Instr) (s : State) : List (Nat × Thread) :=
  let c := getCore s s.cur.core
  drillOrder (s.cur.tids.filterMap fun t => (tget c.threads t).bind fun th =>
    if qualifies i s.cur.coll th then some (t, undefReads s t th) else none)

/-- The active threads: those whose mask is true (R15). -/
def activeThreads (i : Instr) (s : State) : List (Nat × Thread) := (drillThreads i s).filter fun e => actOn i e.2

/-- Largest number of active threads in one lane, at least 1 (R15, R16). -/
def occupancy (act : List (Nat × Thread)) : Nat :=
  max 1 ((List.range 16).foldl (fun n l => max n (act.filter fun e => laneOf e.1 == l).length) 0)

/-- Does the instruction never fault (R233)? -/
def neverFaults (i : Instr) : Bool :=
  match i with
  | .pf _ => true
  | _ => false
/-- Registers with an L bit that are released with the instruction; the fragments of an `mjoin` part are released after the unit has
read them (R45). -/
def lastRegs (i : Instr) : List Nat :=
  match i with
  | .mjoin w _ => ((two (byteSrc w.b)).filter (·.last)).map (·.reg)
  | i => ((reads i).filter (·.last)).map (·.reg)

/-- The shape fault of a whole drill of the uniform pipe (R40); `pf` never faults (R233). -/
def shapeFault (i : Instr) (s : State) (act : List (Nat × Thread)) : Option FaultRec :=
  if isUnif s && !neverFaults i then
    (act.findSome? fun e => (reads i).find? fun x => !uniformSrc (getCore s s.cur.core) e.2 x.reg).map fun x => regFault 2 x.reg
  else none
/-- A thread's own fault decided before its part is performed: an empty-read trap (R47), the peak (R49). -/
def ownFault (i : Instr) (c : Core) (th : Thread) : Option FaultRec :=
  if neverFaults i then none
  else match emptyTrap th (reads i) with
    | some r => some (regFault 1 r)
    | none => (peakReg c th (lastRegs i) (writesBy i)).map (regFault 3)
/-- Is a fault of one active thread that of the whole drill: a broadcast load (R231)? -/
def drillFaults (i : Instr) : Bool :=
  match i with
  | .ld _ => true
  | _ => false
/-- The faults decided before a part is performed: a shape fault of the whole drill (R40), an empty-read trap (R47), the peak (R49); a
broadcast load is checked once, and any of these faults every active thread (R231). -/
def preFault (i : Instr) (s : State) (act : List (Nat × Thread)) (th : Thread) : Option FaultRec :=
  let c := getCore s s.cur.core
  match shapeFault i s act with
  | some f => some f
  | none =>
    match if isUnif s && drillFaults i then act.findSome? fun e => ownFault i c e.2 else none with
    | some f => some f
    | none => ownFault i c th

/-- One thread's part of an instruction: what it does to the rest of the machine, and to the thread. -/
abbrev Part := State → Nat → Thread → State × Fx

/-- The parts of the active threads, in drill order; a part with a fault decided before performs nothing. -/
def runParts (i : Instr) (part : Part) (act : List (Nat × Thread)) :
    List (Nat × Thread) → State → State × List (Nat × Fx)
  | [], s => (s, [])
  | (t, th) :: rest, s =>
    match preFault i s act th with
    | some f => let r := runParts i part act rest s; (r.1, (t, { fault := some f }) :: r.2)
    | none =>
      let x := part s t th
      let r := runParts i part act rest x.1
      (r.1, (t, x.2) :: r.2)

/-- Is the instruction carried out for each active thread, in the uniform pipe too: `arm` finds each thread's own register (R56, R266)? -/
def ownParts (i : Instr) : Bool :=
  match i with
  | .arm _ _ _ => true
  | _ => false
/-- The mode of a uniform-pipe drill is that of its lowest-ranked active thread, whether or not that thread faults (R109). -/
def leadMode (act : List (Nat × Thread)) (th : Thread) : Thread :=
  match act with
  | (_, m) :: _ => { th with mode := m.mode }
  | [] => th

/-- The parts of a drill: one for each active thread, or in the uniform pipe one for the drill, by its lowest-ranked active
thread without a fault, which every other active thread shares (R16, R109, R199). The model's choice: where some active threads have released
a uniform source and others have not, the value is that of this thread for all. -/
def drillParts (i : Instr) (part : Part) (act : List (Nat × Thread)) (s : State) : State × List (Nat × Fx) :=
  if isUnif s && !ownParts i then
    match act.filter fun e => (preFault i s act e.2).isNone with
    | [] => (s, act.map fun e => (e.1, { fault := preFault i s act e.2 }))
    | lead :: _ =>
      let x := part s lead.1 (leadMode act lead.2)
      (x.1, act.map fun e => match preFault i s act e.2 with
        | some f => (e.1, { fault := some f })
        | none => (e.1, x.2))
  else runParts i part act act s

/-- Flag SR for a read of a released register (R46). -/
def staleFlag (i : Instr) (th : Thread) : Word :=
  if (reads i).any fun x => !x.quiet && (tget th.regs x.reg).isNone then flagWord flSR else 0

/-- Flag SR of an active thread: for its own reads, or in the uniform pipe for those of any active thread, since the one execution posts to all
(R46, R109). -/
def readFlag (i : Instr) (s : State) (th : Thread) : Word :=
  if isUnif s && !ownParts i then (activeThreads i s).foldl (fun w e => w ||| staleFlag i e.2) 0 else staleFlag i th
/-- Flags that are set when the operation completes, in the cycle in which its result is ready (R115, R304). -/
def flagsAt (ready : Nat) (w : Word) (th : Thread) : Thread := if w = 0 then th else { th with flags := th.flags ++ [(ready, w)] }
/-- When the predicates of a result may be read (R304). -/
def predsDue (fx : Fx) (ready : Nat) (g : Tbl Nat) : Tbl Nat := fx.preds.foldl (fun g x => tput g x.1 ready) g
/-- Results written: registers, empties, predicates (R47, R48). -/
def applyResults (fx : Fx) (ready : Nat) (th : Thread) : Thread :=
  let th := fx.regs.foldl (fun th x => writeReg th x.1 x.2 ready) th
  let th := fx.empties.foldl (fun th r => emptyReg th r fx.prod fx.armed) th
  let th := fx.preds.foldl (fun th x => setPred th x.1 x.2) th
  { th with predReady := predsDue fx ready th.predReady }

/-- The thread after a part that was performed: SR, which is set in the cycle of the read, last uses released, then results written (R45, R46,
R48). The model's choice: SR of a `csr.wr` to `ast` that reads a released register survives the write, since the rules do not order the two
(R46, R116). -/
def applyFx (i : Instr) (sr : Word) (fx : Fx) (ready : Nat) (th : Thread) : Thread :=
  applyResults fx ready (release (lastRegs i) (flagsAt ready fx.flags (orFlags th sr)))

/-- What a masked-off thread writes under ZERO: 0 wherever the instruction writes (R41, R199); where the others await a producer it awaits
it too (R232). -/
def zeroFx (i : Instr) (fx : Option Fx) : Fx :=
  match fx with
  | some fx => { regs := fx.regs.map fun x => (x.1, 0), empties := fx.empties, prod := fx.prod, preds := fx.preds.map fun x => (x.1, false) }
  | none => { regs := (writes i).map fun r => (r, 0), preds := (predsWritten i).map fun p => (p, false) }
/-- Does a masked-off thread supply a value: the `passi` forms (R253)? -/
def suppliesOff (i : Instr) : Bool :=
  match i with
  | .passiAt _ | .passiOff _ | .passiFlip _ | .passiRot _ => true
  | _ => false
/-- A masked-off thread: SR where a value that it supplies is that of a released register (R46, R253; log 83), last uses released (R45), and
under ZERO its zeros written. -/
def applyOff (i : Instr) (zero : Bool) (fx : Option Fx) (ready : Nat) (th : Thread) : Thread :=
  let th := release (lastRegs i) (if suppliesOff i then orFlags th (staleFlag i th) else th)
  if zero then applyResults (zeroFx i fx) ready th else th
/-- The fault of a masked-off thread: it joined the drill with an empty source of its own, and takes the empty-read trap (R12, R47, R198; log
83); or its write of 0 under ZERO would pass its peak (R41, R49). A masked-off thread of a load cannot fault (R232). -/
def offFault (i : Instr) (c : Core) (zero : Bool) (th : Thread) : Option FaultRec :=
  if neverFaults i || drillFaults i then none
  else match emptyTrap th (reads i) with
    | some r => some (regFault 1 r)
    | none => if zero then (peakReg c th (lastRegs i) (writesBy i)).map (regFault 3) else none

/-- Move the thread on: to the transfer target or the next instruction, eligible n cycles on (R302). The model's choice: a rejection count and a
reservation end with the instruction, also where its access completed without an entry, as an L1 hit does; the rule names only the access that
obtains an entry (R70). -/
def advance (s : State) (n : Nat) (jump : Option DWord) (th : Thread) : Thread :=
  let cyc := (getCore s s.cur.core).cyc
  match jump with
  | some p => { th with pc := p, st := .ready, eligible := cyc + n + 2, readySince := cyc, overdue := none, held := [], rejects := 0, reserved := false, relSeq := none, rejoin := [], fresh := false, napOpen := false }
  | none => { th with pc := nextPc s.cur.pc s.curLen, st := .ready, eligible := cyc + n, readySince := cyc, overdue := none, held := [], rejects := 0, reserved := false, relSeq := none, rejoin := [], fresh := false, napOpen := false }

/-- Is it a wait after which the thread executes its instruction again? -/
def isRetry : Wait → Bool
  | .retry _ | .place _ _ | .queue _ | .arriving _ _ | .fences _ | .target _ => true
  | _ => false
/-- The thread begins a wait (R11): its PC stays; when the wait ends it goes to the next instruction and its last uses are
released (log 21). -/
def startWait (i : Instr) (s : State) (w : Wait) (th : Thread) : Thread :=
  { th with st := .waiting w, nextPc := nextPc s.cur.pc s.curLen, lastUse := lastRegs i, readySince := (getCore s s.cur.core).cyc,
            overdue := none, held := [], rejects := 0, reserved := false, napOpen := false, relSeq := if isRetry w then th.relSeq else none,
            rejoin := if isRetry w then th.rejoin else [] }

/-- The PC to which a supplier advances: one that waits goes to the next instruction when its wait ends, unless it executes its own again
(R11, R308). -/
def keptPc (th : Thread) : DWord :=
  match th.st with
  | .waiting .walk | .waiting .rendezvous | .waiting (.source _) => th.pc
  | .waiting w => if isRetry w then th.pc else th.nextPc
  | _ => th.pc
/-- The pipe is occupied for n cycles, and the policy keeps what the drill leaves: the PC its supplier advanced to, and the
supplier's tine (R32, R302, R308). -/
def drillDone (s : State) (n : Nat) : State :=
  let d := s.cur
  updCore { s with free := s.free + 1 } d.core fun c =>
    let pol : Pol := { kept := (tget c.threads d.sup).map fun th => (keptPc th, th.plot, th.role), lastTine := some (tineOf d.sup), busyUntil := c.cyc + n }
    match d.pipe with
    | .lane => { c with lanePol := tput c.lanePol d.slot pol }
    | .unif => { c with uniPol := tput c.uniPol d.slot pol }

/-- What becomes of one thread of the drill. -/
def commitThread (i : Instr) (s : State) (n ready : Nat) (zero : Bool) (some1 : Option Fx) (fxs : List (Nat × Fx))
    (tid : Nat) (th : Thread) : Thread :=
  let cyc := (getCore s s.cur.core).cyc
  match tget fxs tid with
  | some fx =>
    if fx.fault.isSome ∨ fx.gone then th
    else if fx.stay then
      { th with st := .ready, held := [], eligible := cyc + n, rejects := th.rejects + fx.rej.toNat, reserved := th.reserved || (fx.rej && decide (th.rejects ≥ 7)) }
    else match fx.wait with
      | some w => startWait i s w (applyResults fx ready (flagsAt ready fx.flags (orFlags th (readFlag i s th))))
      | none => advance s n fx.jump (applyFx i (readFlag i s th) fx ready th)
  | none => advance s n none (applyOff i zero some1 ready th)

/-- ZERO of the PX word (R188). -/
def zeroOf (i : Instr) : Bool := ((form i).px.map (·.zero)).getD false

/-- The threads that write a register in a way that is tagged now (R41): under ZERO masked-off ones too, but where the others await a producer
all of them are tagged when it fills (R47, R232). The model's choice: of an `arm` only the threads that it newly arms are writers, so where some
members had armed the register before, it becomes general (R56). -/
def tagsNow (fxs : List (Nat × Fx)) (zero : Bool) (ths : List (Nat × Thread)) (r : Nat) : List Nat :=
  let w := fxs.filterMap fun e => if e.2.fault.isNone && !e.2.stay && !e.2.gone && (e.2.regs.any (·.1 == r) || (e.2.armed && e.2.empties.contains r)) then some e.1 else none
  if !zero || fxs.any (fun e => !e.2.armed && e.2.empties.contains r) then w else w ++ (ths.map (·.1)).filter fun t => (tget fxs t).isNone

/-- A stepped member that has completed its instruction parks again (R301). -/
def stepsDone (fxs : List (Nat × Fx)) (ci : Nat) (tids : List Nat) (s : State) : State :=
  tids.foldl (fun s t => match getThread s ci t with
    | some th => if th.stepping.isSome && th.st == .ready && !((tget fxs t).map (·.stay)).getD false then stepDone s ci t else s
    | none => s) s

/-- A shape fault of the whole drill: every active thread takes it, no part of the instruction is performed, and the masked-off threads only
advance (R15, R40, R152). -/
def shapeDrill (i : Instr) (f : FaultRec) (s : State) : State :=
  let ci := s.cur.core
  let off := ((drillThreads i s).filter fun e => !actOn i e.2).map (·.1)
  let s1 := takeFaults (updThreads s ci off (advance s 1 none)) ci ((activeThreads i s).map fun e => (e.1, f))
  drillDone (stepsDone [] ci off s1) 1

/-- Carry an instruction out by its drill: the parts, then the commit (R16, R41, R42, R45, R48, R51, R152, R302, R304). -/
def runDrill (i : Instr) (lat : Lat) (part : Part) (s : State) : State :=
  let ci := s.cur.core
  let ths := drillThreads i s
  let act := ths.filter fun e => actOn i e.2
  let unif := isUnif s
  let n := if unif then 1 else occupancy act
  if unif ∧ act.isEmpty then
    -- R16: a uniform-pipe instruction without an active thread does not execute
    drillDone (stepsDone [] ci (ths.map (·.1)) (updThreads s ci (ths.map (·.1)) (advance s 1 none))) 1
  else match shapeFault i s act with
  | some f => shapeDrill i f s
  | none =>
    let (s1, fxs) := drillParts i part act s
    let fxs := fxs ++ (ths.filter fun e => !actOn i e.2).filterMap fun e =>
      (offFault i (getCore s ci) (zeroOf i && !act.isEmpty) e.2).map fun f => (e.1, { fault := some f })
    let cyc := (getCore s1 ci).cyc
    let ready := cyc + n - 1 + (if unif then lat.unif else lat.lane)
    let zero := zeroOf i && !act.isEmpty
    let some1 := (fxs.find? fun e => e.2.fault.isNone && !e.2.stay).map (·.2)
    let c := getCore s1 ci
    let c := { c with threads := tmap c.threads fun t th =>
                 if (ths.map (·.1)).contains t then commitThread i s1 n ready zero some1 fxs t th else th }
    let c := (writes i).foldl (fun c r => match tagsNow fxs zero ths r with
      | [] => c
      -- R56: an `arm` in the lane pipe leaves a general register
      | w => if !unif && fxs.any (fun e => e.2.armed) then retagGeneral w c r else retag unif w c r) c
    let keep := fun t => if (ths.map (·.1)).contains t then (reads i).map (·.reg) ++ writes i else []
    -- R41: members that did not write may have received lane-bank entries
    let all := (ths.map (·.1) ++ (c.threads.filter fun e => e.2.sheaf.isSome && ths.any fun x => x.2.sheaf == e.2.sheaf).map (·.1)).eraseDups
    let (s2, ev) := settleBanks (getCore s1 ci) (putCore s1 ci c) ci all keep (2 * (writes i).length * all.length)
    -- R304: a write that evicts is 2 cycles later for each entry
    let s2 := lateWrites s2 ci ev (ths.map (·.1)) (writes i)
    let s3 := takeFaults s2 ci (ths.filterMap fun e => ((tget fxs e.1).bind (·.fault)).map fun f => (e.1, f))
    drillDone (stepsDone fxs ci (ths.map (·.1)) s3) n

/-- A fault that concerns the whole drill (R152): every active thread takes it; nothing is performed. -/
def faultDrill (i : Instr) (f : FaultRec) (s : State) : State :=
  runDrill i latInt (fun s _ _ => (s, { fault := some f })) s

/-- A part that only computes: registers, predicates and flags from the thread's own values. -/
def pureFx (f : Thread → Fx) : Part := fun s _ th => (s, f th)

end Sys2Proof.Machine
end

