-- ==== Sys2Proof/Machine/Integer.lean ====
section
/-!
DEFINITION. Integer, logic, address and compare instructions, and constants (11_isa_integer R196 to R208).
-/
namespace Sys2Proof.Machine
open Sys2Proof

/-- A value without flags. -/
def plain (v : Word) : Word × Word := (v, 0)
/-- An exact signed result: clamped under SAT, else its low 32 bits (R201). -/
def satOrLow (px : Option Px) (x : Int) : Word × Word := if satOf px then clamp32 x else plain (BitVec.ofInt 32 x)
/-- One thread's part of an RR instruction with two sources. -/
def rrFx (o : RR) (f : Word → Word → Word × Word) (th : Thread) : Fx :=
  let r := f (sv th o.a) (sv2 th o.b)
  { regs := [(o.d.toNat, r.1)], flags := r.2 }
/-- One thread's part of an RI instruction: b is the sign-extended immediate (R180, R200). -/
def riFx (o : RI) (f : Word → Word → Word × Word) (th : Thread) : Fx :=
  let r := f (sv th o.a) (o.imm.signExtend 32)
  { regs := [(o.d.toNat, r.1)], flags := r.2 }
/-- One thread's part of an instruction with one source. -/
def r1Fx (o : R1) (f : Word → Word) (th : Thread) : Fx := { regs := [(o.d.toNat, f (sv th o.a))] }
/-- A pair written from 64 bits (R4). -/
def pairRegs (d : RegNo) (x : Nat) : List (Nat × Word) := [(d.toNat, BitVec.ofNat 32 x), (d.toNat + 1, BitVec.ofNat 32 (x / 2 ^ 32))]

/-- Signed and unsigned choice (R200). -/
def minS (a b : Word) : Word := if a.toInt ≤ b.toInt then a else b
def maxS (a b : Word) : Word := if a.toInt ≤ b.toInt then b else a
def minU (a b : Word) : Word := if a.toNat ≤ b.toNat then a else b
def maxU (a b : Word) : Word := if a.toNat ≤ b.toNat then b else a
/-- Shifts by b[5:0], rotate by b[4:0] (R202). -/
def shlW (a b : Word) : Word := if b.toNat % 64 ≥ 32 then 0 else a <<< (b.toNat % 64)
def shrW (a b : Word) : Word := if b.toNat % 64 ≥ 32 then 0 else a >>> (b.toNat % 64)
def sarW (a b : Word) : Word := if b.toNat % 64 ≥ 32 then (if a.getLsbD 31 then 0xFFFFFFFF else 0) else a.sshiftRight (b.toNat % 64)
def rotlW (a b : Word) : Word := a.rotateLeft (b.toNat % 32)
/-- Leading zeros, from bit n − 1 down (R203). -/
def clzW (a : Word) : Nat → Nat
  | 0 => 0
  | n + 1 => if a.getLsbD n then 0 else 1 + clzW a n
/-- Set bits (R203). -/
def popcW (a : Word) : Nat := ((List.range 32).filter fun i => a.getLsbD i).length
/-- Bits in the reverse order (R203). -/
def brevW (a : Word) : Word := a.reverse
/-- n = min(len, 32 − pos) (R204). -/
def fieldLen (pos len : Nat) : Nat := min len (32 - pos)
/-- Bit field extract, zero- or sign-extended (R204). -/
def bfeW (sgn : Bool) (a : Word) (pos len : Nat) : Word :=
  let n := fieldLen pos len
  let f := a.toNat / 2 ^ pos % 2 ^ n
  if sgn && decide (f ≥ 2 ^ (n - 1)) then BitVec.ofInt 32 ((f : Int) - 2 ^ n) else BitVec.ofNat 32 f
/-- Position and length from a value of B (R204). -/
def bfPos (b : Word) : Nat := b.toNat % 32
def bfLen (b : Word) : Nat := b.toNat / 32 % 32 + 1
/-- Bit field insert of a into d (R204). -/
def bfiW (d a : Word) (pos len : Nat) : Word :=
  let m : Word := BitVec.ofNat 32 ((2 ^ fieldLen pos len - 1) * 2 ^ pos)
  (d &&& ~~~m) ||| ((a <<< pos) &&& m)
/-- Integer compare by condition code (R181, R207). -/
def icmpW (sgn : Bool) (cond : Nat) (a b : Word) : Bool :=
  let lt := if sgn then decide (a.toInt < b.toInt) else decide (a.toNat < b.toNat)
  match cond with
  | 0 => a == b
  | 1 => a != b
  | 2 => lt
  | 3 => lt || a == b
  | 4 => !(lt || a == b)
  | _ => !lt
/-- One thread's part of a compare. -/
def cmpFx (pd : PredNo) (b : Bool) : Fx := { preds := [(pd.toNat, b)] }
/-- `mad` (R205): the addend is C or D, negated exactly under NC. -/
def madFx (o : RR) (th : Thread) : Fx :=
  let c : Int := match cOf o.px with
    | some c => (sv3 th c).toInt
    | none => (rvAt th 2 o.d.toNat).toInt
  let c := if negC o.px then -c else c
  let r := satOrLow o.px ((sv th o.a).toInt * (sv2 th o.b).toInt + c)
  { regs := [(o.d.toNat, r.1)], flags := r.2 }

/-- `d = a + b` (R200, R201). -/
def execAdd (o : RR) (s : State) : Out :=
  .next (runDrill (.add o) latInt (pureFx (rrFx o fun a b => satOrLow o.px (a.toInt + b.toInt))) s)

/-- `d = a − b` (R200, R201). -/
def execSub (o : RR) (s : State) : Out :=
  .next (runDrill (.sub o) latInt (pureFx (rrFx o fun a b => satOrLow o.px (a.toInt - b.toInt))) s)

/-- `d = a × b` (R200, R201). -/
def execMul (o : RR) (s : State) : Out :=
  .next (runDrill (.mul o) latMul (pureFx (rrFx o fun a b => satOrLow o.px (a.toInt * b.toInt))) s)

/-- `d = bits [63:32] of the signed product` (R205). -/
def execMulhiI32 (o : RR) (s : State) : Out :=
  .next (runDrill (.mulhiI32 o) latMul (pureFx (rrFx o fun a b => plain (BitVec.ofInt 32 (a.toInt * b.toInt / 2 ^ 32)))) s)

/-- `d = bits [63:32] of the unsigned product` (R205). -/
def execMulhiN32 (o : RR) (s : State) : Out :=
  .next (runDrill (.mulhiN32 o) latMul (pureFx (rrFx o fun a b => plain (BitVec.ofNat 32 (a.toNat * b.toNat / 2 ^ 32)))) s)

/-- `minI32` (R200). -/
def execMinI32 (o : RR) (s : State) : Out :=
  .next (runDrill (.minI32 o) latInt (pureFx (rrFx o fun a b => plain (minS a b))) s)

/-- `maxI32` (R200). -/
def execMaxI32 (o : RR) (s : State) : Out :=
  .next (runDrill (.maxI32 o) latInt (pureFx (rrFx o fun a b => plain (maxS a b))) s)

/-- `minN32` (R200). -/
def execMinN32 (o : RR) (s : State) : Out :=
  .next (runDrill (.minN32 o) latInt (pureFx (rrFx o fun a b => plain (minU a b))) s)

/-- `maxN32` (R200). -/
def execMaxN32 (o : RR) (s : State) : Out :=
  .next (runDrill (.maxN32 o) latInt (pureFx (rrFx o fun a b => plain (maxU a b))) s)

/-- `and` (R200). -/
def execAnd (o : RR) (s : State) : Out :=
  .next (runDrill (.and o) latInt (pureFx (rrFx o fun a b => plain (a &&& b))) s)

/-- `or` (R200). -/
def execOr (o : RR) (s : State) : Out :=
  .next (runDrill (.or o) latInt (pureFx (rrFx o fun a b => plain (a ||| b))) s)

/-- `xor` (R200). -/
def execXor (o : RR) (s : State) : Out :=
  .next (runDrill (.xor o) latInt (pureFx (rrFx o fun a b => plain (a ^^^ b))) s)

/-- `andn` (R200). -/
def execAndn (o : RR) (s : State) : Out :=
  .next (runDrill (.andn o) latInt (pureFx (rrFx o fun a b => plain (a &&& ~~~b))) s)

/-- `shl` (R202). -/
def execShl (o : RR) (s : State) : Out :=
  .next (runDrill (.shl o) latInt (pureFx (rrFx o fun a b => plain (shlW a b))) s)

/-- `shr` (R202). -/
def execShr (o : RR) (s : State) : Out :=
  .next (runDrill (.shr o) latInt (pureFx (rrFx o fun a b => plain (shrW a b))) s)

/-- `sar` (R202). -/
def execSar (o : RR) (s : State) : Out :=
  .next (runDrill (.sar o) latInt (pureFx (rrFx o fun a b => plain (sarW a b))) s)

/-- `rotl` (R202). -/
def execRotl (o : RR) (s : State) : Out :=
  .next (runDrill (.rotl o) latInt (pureFx (rrFx o fun a b => plain (rotlW a b))) s)

/-- `bfe.n32` (R204). -/
def execBfeN32 (o : RR) (s : State) : Out :=
  .next (runDrill (.bfeN32 o) latInt (pureFx (rrFx o fun a b => plain (bfeW false a (bfPos b) (bfLen b)))) s)

/-- `bfe.i32` (R204). -/
def execBfeI32 (o : RR) (s : State) : Out :=
  .next (runDrill (.bfeI32 o) latInt (pureFx (rrFx o fun a b => plain (bfeW true a (bfPos b) (bfLen b)))) s)

/-- `bfi`: D is also read (R198, R204). -/
def execBfi (o : RR) (s : State) : Out :=
  .next (runDrill (.bfi o) latInt (pureFx fun th => rrFx o (fun a b => plain (bfiW (rvAt th 2 o.d.toNat) a (bfPos b) (bfLen b))) th) s)

/-- `pair d = A + B mod 2^64` (R206). -/
def execAddB64 (o : RR) (s : State) : Out :=
  .next (runDrill (.addB64 o) latInt (pureFx fun th => { regs := pairRegs o.d (svPair th o.a + svPair2 th o.b) }) s)

/-- `pair d = A − B mod 2^64` (R206). -/
def execSubB64 (o : RR) (s : State) : Out :=
  .next (runDrill (.subB64 o) latInt (pureFx fun th => { regs := pairRegs o.d (svPair th o.a + 2 ^ 64 - svPair2 th o.b) }) s)

/-- `pair d = A + SExt(b)` (R206). -/
def execLea (o : RR) (s : State) : Out :=
  .next (runDrill (.lea o) latInt (pureFx fun th => { regs := pairRegs o.d (svPair th o.a + ((sv2 th o.b).signExtend 64).toNat) }) s)

/-- `pair d = A + 4 × SExt(b)` (R206). -/
def execLea4 (o : RR) (s : State) : Out :=
  .next (runDrill (.lea4 o) latInt (pureFx fun th => { regs := pairRegs o.d (svPair th o.a + 4 * ((sv2 th o.b).signExtend 64).toNat) }) s)

/-- `pair d = signed product` (R205). -/
def execMulWideI32 (o : RR) (s : State) : Out :=
  .next (runDrill (.mulWideI32 o) latMul (pureFx fun th => { regs := pairRegs o.d ((BitVec.ofInt 64 ((sv th o.a).toInt * (sv2 th o.b).toInt)).toNat) }) s)

/-- `pair d = unsigned product` (R205). -/
def execMulWideN32 (o : RR) (s : State) : Out :=
  .next (runDrill (.mulWideN32 o) latMul (pureFx fun th => { regs := pairRegs o.d ((sv th o.a).toNat * (sv2 th o.b).toNat) }) s)

/-- `mad` (R205). -/
def execMad (o : RR) (s : State) : Out :=
  .next (runDrill (.mad o) latMul (pureFx (madFx o)) s)

/-- `clz` (R203). -/
def execClz (o : R1) (s : State) : Out :=
  .next (runDrill (.clz o) latInt (pureFx (r1Fx o (fun a => BitVec.ofNat 32 (clzW a 32)))) s)

/-- `popc` (R203). -/
def execPopc (o : R1) (s : State) : Out :=
  .next (runDrill (.popc o) latInt (pureFx (r1Fx o (fun a => BitVec.ofNat 32 (popcW a)))) s)

/-- `brev` (R203). -/
def execBrev (o : R1) (s : State) : Out :=
  .next (runDrill (.brev o) latInt (pureFx (r1Fx o brevW)) s)

/-- `mov` (R203). -/
def execMov (o : R1) (s : State) : Out :=
  .next (runDrill (.mov o) latInt (pureFx (r1Fx o id)) s)

/-- `icmpI32` (R207). -/
def execIcmpI32 (o : Cmp) (s : State) : Out :=
  .next (runDrill (.icmpI32 o) latInt (pureFx fun th => cmpFx o.pd (icmpW true o.cond.toNat (sv th o.a) (sv2 th o.b))) s)

/-- `icmpN32` (R207). -/
def execIcmpN32 (o : Cmp) (s : State) : Out :=
  .next (runDrill (.icmpN32 o) latInt (pureFx fun th => cmpFx o.pd (icmpW false o.cond.toNat (sv th o.a) (sv2 th o.b))) s)

/-- `d = a + imm` (R200, R201). -/
def execAddi (o : RI) (s : State) : Out :=
  .next (runDrill (.addi o) latInt (pureFx (riFx o fun a b => satOrLow o.px (a.toInt + b.toInt))) s)

/-- `d = a × imm` (R200, R201). -/
def execMuli (o : RI) (s : State) : Out :=
  .next (runDrill (.muli o) latMul (pureFx (riFx o fun a b => satOrLow o.px (a.toInt * b.toInt))) s)

/-- `andi` (R200). -/
def execAndi (o : RI) (s : State) : Out :=
  .next (runDrill (.andi o) latInt (pureFx (riFx o fun a b => plain (a &&& b))) s)

/-- `ori` (R200). -/
def execOri (o : RI) (s : State) : Out :=
  .next (runDrill (.ori o) latInt (pureFx (riFx o fun a b => plain (a ||| b))) s)

/-- `xori` (R200). -/
def execXori (o : RI) (s : State) : Out :=
  .next (runDrill (.xori o) latInt (pureFx (riFx o fun a b => plain (a ^^^ b))) s)

/-- `miniI32` (R200). -/
def execMiniI32 (o : RI) (s : State) : Out :=
  .next (runDrill (.miniI32 o) latInt (pureFx (riFx o fun a b => plain (minS a b))) s)

/-- `maxiI32` (R200). -/
def execMaxiI32 (o : RI) (s : State) : Out :=
  .next (runDrill (.maxiI32 o) latInt (pureFx (riFx o fun a b => plain (maxS a b))) s)

/-- `miniN32` (R200). -/
def execMiniN32 (o : RI) (s : State) : Out :=
  .next (runDrill (.miniN32 o) latInt (pureFx (riFx o fun a b => plain (minU a b))) s)

/-- `maxiN32` (R200). -/
def execMaxiN32 (o : RI) (s : State) : Out :=
  .next (runDrill (.maxiN32 o) latInt (pureFx (riFx o fun a b => plain (maxU a b))) s)

/-- `shli` (R202). -/
def execShli (o : ShI) (s : State) : Out :=
  .next (runDrill (.shli o) latInt (pureFx fun th => { regs := [(o.d.toNat, shlW (sv th o.a) (o.n.setWidth 32))] }) s)

/-- `shri` (R202). -/
def execShri (o : ShI) (s : State) : Out :=
  .next (runDrill (.shri o) latInt (pureFx fun th => { regs := [(o.d.toNat, shrW (sv th o.a) (o.n.setWidth 32))] }) s)

/-- `sari` (R202). -/
def execSari (o : ShI) (s : State) : Out :=
  .next (runDrill (.sari o) latInt (pureFx fun th => { regs := [(o.d.toNat, sarW (sv th o.a) (o.n.setWidth 32))] }) s)

/-- `rotli` (R202). -/
def execRotli (o : ShI) (s : State) : Out :=
  .next (runDrill (.rotli o) latInt (pureFx fun th => { regs := [(o.d.toNat, rotlW (sv th o.a) (o.n.setWidth 32))] }) s)

/-- `icmpiI32` (R207). -/
def execIcmpiI32 (o : CmpI) (s : State) : Out :=
  .next (runDrill (.icmpiI32 o) latInt (pureFx fun th => cmpFx o.pd (icmpW true o.cond.toNat (sv th o.a) (o.imm.signExtend 32))) s)

/-- `icmpiN32` (R207). -/
def execIcmpiN32 (o : CmpI) (s : State) : Out :=
  .next (runDrill (.icmpiN32 o) latInt (pureFx fun th => cmpFx o.pd (icmpW false o.cond.toNat (sv th o.a) (o.imm.signExtend 32))) s)

/-- `leai` (R206). -/
def execLeai (o : RI) (s : State) : Out :=
  .next (runDrill (.leai o) latInt (pureFx fun th => { regs := pairRegs o.d (svPair th o.a + (o.imm.signExtend 64).toNat) }) s)

/-- `bfeiN32` (R204). -/
def execBfeiN32 (o : BfI) (s : State) : Out :=
  .next (runDrill (.bfeiN32 o) latInt (pureFx fun th => { regs := [(o.d.toNat, bfeW false (sv th o.a) o.pos.toNat (o.lenM1.toNat + 1))] }) s)

/-- `bfeiI32` (R204). -/
def execBfeiI32 (o : BfI) (s : State) : Out :=
  .next (runDrill (.bfeiI32 o) latInt (pureFx fun th => { regs := [(o.d.toNat, bfeW true (sv th o.a) o.pos.toNat (o.lenM1.toNat + 1))] }) s)

/-- `li` (R208). -/
def execLi (o : LiOp) (s : State) : Out :=
  .next (runDrill (.li o) latInt (pureFx fun _ => { regs := [(o.d.toNat, o.imm.signExtend 32)] }) s)

/-- `liw` (R208). -/
def execLiw (o : LiwOp) (s : State) : Out :=
  .next (runDrill (.liw o) latInt (pureFx fun _ => { regs := [(o.d.toNat, o.imm)] }) s)

end Sys2Proof.Machine
end

