-- ==== Sys2Proof/Machine/FloatOps.lean ====
section
/-!
DEFINITION. Floating point, conversion and packed instructions (12_isa_float R209 to R226): each applies the arithmetic of
Float.lean to the operands of R211.
-/
namespace Sys2Proof.Machine
open Sys2Proof

/-- FTZ of the thread (R107, R111). -/
def ftzOf (th : Thread) : Bool := modeFtz th.mode
/-- The rounding mode of an instruction in a thread (R106). -/
def rmIn (px : Option Px) (th : Thread) : Nat := rmOf px th.mode
/-- In(x) of R211: the sign inverted under a negate bit, then a subnormal flushed under FTZ. -/
def inBits (f : Fmt) (ftz neg : Bool) (b : Nat) : Nat := flushIn f ftz (negate f neg b)
/-- In(x) as a value. -/
def inVal (f : Fmt) (ftz neg : Bool) (b : Nat) : FV := unpack f (inBits f ftz neg b)
/-- A result written to d with its flags. -/
def resFx (d : RegNo) (r : Res) : Fx := { regs := [(d.toNat, BitVec.ofNat 32 r.bits)], flags := flagWord r.fl }
/-- f32 arithmetic on two sources (R212). -/
def f32Fx (o : RR) (g : Nat → Bool → FV → FV → Res) (th : Thread) : Fx :=
  resFx o.d (flushOut fF32 (ftzOf th) (g (rmIn o.px th) (satOf o.px) (inVal fF32 (ftzOf th) (negA o.px) (sv th o.a).toNat)
    (inVal fF32 (ftzOf th) (negB o.px) (sv2 th o.b).toNat)))
/-- The third operand of a fused multiply-add: C with its negation, or D (R212, R226). -/
def addBits (o : RR) (th : Thread) : Word :=
  match cOf o.px with
  | some c => sv3 th c
  | none => rvAt th 2 o.d.toNat
/-- Is C negated? -/
def addNeg (o : RR) : Bool := (cOf o.px).isSome && negC o.px
/-- `ffma.f32` (R212). -/
def ffmaFx (o : RR) (th : Thread) : Fx :=
  f32Fx o (fun rm sat x y => fFma fF32 rm sat x y (inVal fF32 (ftzOf th) (addNeg o) (addBits o th).toNat)) th
/-- `fmin.f32` and `fmax.f32` (R213). -/
def fmmFx (isMax : Bool) (o : RR) (th : Thread) : Fx :=
  resFx o.d (fMinMax fF32 isMax (inBits fF32 (ftzOf th) (negA o.px) (sv th o.a).toNat) (inBits fF32 (ftzOf th) (negB o.px) (sv2 th o.b).toNat))
/-- `fcmp.f32` (R214). -/
def fcmpFx (o : Cmp) (th : Thread) : Fx :=
  let r := fCompare o.cond.toNat (inVal fF32 (ftzOf th) (negA o.px) (sv th o.a).toNat) (inVal fF32 (ftzOf th) (negB o.px) (sv2 th o.b).toNat)
  { preds := [(o.pd.toNat, r.1)], flags := flagWord r.2 }
/-- An approximate function (R216, R217). -/
def approxFx (o : R1) (f : Word → FV → Res) (th : Thread) : Fx := 
  resFx o.d (approx (f (BitVec.ofNat 32 (flushIn fF32 (ftzOf th) (sv th o.a).toNat))) (ftzOf th) (sv th o.a))
/-- The exact value of a difference and a product: floor((x − x0) × inv), clamped to 0 to 255 (R219). -/
def tblIndex (x x0 inv : FV) : Nat :=
  match x, x0, inv with
  | .inf a, _, _ => if a then 0 else 255
  | .fin a m e, .fin b n g, .fin _ k h =>
    let d := dySum [(a, m, e), (!b, n, g)]
    if d.1 ≤ 0 then 0
    else
      let v := d.1.natAbs * k
      let ex := d.2 + h
      if ex ≥ 0 then min 255 (v * 2 ^ (min ex.toNat 8)) else min 255 (v / 2 ^ (-ex).toNat)
  | _, _, _ => 0
/-- Word n of a table image (R218). -/
def tblWord (image : BitVec 16512) (n : Nat) : Nat := image.toNat / 2 ^ (32 * n) % 2 ^ 32
/-- Is the header of a table image valid: X0 and INV finite, INV above 0 (R219)? -/
def tblHeaderOk (x0 inv : FV) : Bool :=
  match x0, inv with
  | .fin _ _ _, .fin b k _ => !b && decide (k ≠ 0)
  | _, _ => false
/-- The evaluation of R219. -/
def tblEval (image : BitVec 16512) (ftz : Bool) (a : Nat) : Res :=
  let x := inVal fF32 ftz false a
  let x0 := unpack fF32 (tblWord image 0)
  let inv := unpack fF32 (tblWord image 1)
  let ok := tblHeaderOk x0 inv
  if anyNan [x] || !ok then { bits := fF32.nan, fl := if !ok then flNV else nvOf [x] }
  else
    let i := tblIndex x x0 inv
    let slope := flushIn fF32 ftz (tblWord image (4 + 2 * i))
    let icpt := flushIn fF32 ftz (tblWord image (5 + 2 * i))
    let sl := unpack fF32 slope
    let ic := unpack fF32 icpt
    if anyNan [sl, ic] then { bits := fF32.nan, fl := nvOf [sl, ic] }
    else match x with
      | .inf neg => { bits := if slope % 2 ^ 31 = 0 then icpt else signed fF32 (xor neg (slope.testBit 31)) fF32.inf }
      | x => flushOut fF32 ftz (fFma fF32 0 false sl x ic)
/-- Does the thread select bank 1: its sheaf's selection, or its own when it is solitary (R288)? -/
def tblBankOf (c : Core) (th : Thread) : Bool :=
  match th.sheaf with
  | some k => (tgetD c.sheaves k {}).tblSel
  | none => th.tblSel
/-- The table banks for a plot: none while another plot holds them; the first use takes them and zeroes both (R288). -/
def takeBanks (s : State) (ci plot : Nat) : Option State :=
  match (getCore s ci).tblOwner with
  | some p => if p = plot then some s else none
  | none => some (updCore s ci fun c => { c with tblOwner := some plot, bank0 := 0, bank1 := 0 })
/-- `scacc.i32` (R221). -/
def scaccFx (o : RR) (th : Thread) : Fx :=
  let v : Int := (sv th o.a).toInt
  resFx o.d (flushOut fF32 (ftzOf th) (fFma fF32 (rmIn o.px th) (satOf o.px) (intFV (if negA o.px then -v else v) 0)
    (inVal fF32 (ftzOf th) (negB o.px) (sv2 th o.b).toNat) (inVal fF32 (ftzOf th) false (rvAt th 2 o.d.toNat).toNat)))
/-- Two f32 values each rounded to a narrower format; the flags of both (R224, R225). The model's choice: FTZ does not act on them, as on `cvt`;
for `pk8lo` and `pk8hi` R111 and R225 leave it open. -/
def pkTwo (f : Fmt) (o : RR) (th : Thread) : Nat × Nat × Nat :=
  let code := if f = fBf16 then 2 else if f = fF16 then 1 else if f = fE4m3 then 3 else 4
  let r0 := cvtFloat code (rmIn o.px th) (satOf o.px) (unpack fF32 (sv th o.a).toNat)
  let r1 := cvtFloat code (rmIn o.px th) (satOf o.px) (unpack fF32 (sv2 th o.b).toNat)
  (r0.bits, r1.bits, r0.fl ||| r1.fl)
/-- `pk.bf2` and `pk.h2` (R224). -/
def pkFx (f : Fmt) (o : RR) (th : Thread) : Fx :=
  let x := pkTwo f o th
  resFx o.d { bits := x.1 + 2 ^ 16 * x.2.1, fl := x.2.2 }
/-- `pk8lo` and `pk8hi` (R225). -/
def pk8Fx (f : Fmt) (hi : Bool) (o : RR) (th : Thread) : Fx :=
  let x := pkTwo f o th
  let v := x.1 + 2 ^ 8 * x.2.1
  let d := (rvAt th 2 o.d.toNat).toNat
  resFx o.d { bits := if hi then d % 2 ^ 16 + 2 ^ 16 * v else d / 2 ^ 16 * 2 ^ 16 + v, fl := x.2.2 }
/-- Element e of a packed register (R102). -/
def elemOf (w : Word) (e : Nat) : Nat := w.toNat / 2 ^ (16 * e) % 2 ^ 16
/-- Packed arithmetic on elements 0 and 1; the flags of both (R226). -/
def packedFx (f : Fmt) (o : RR) (g : Nat → Bool → FV → FV → FV → Res) (th : Thread) : Fx :=
  let r (e : Nat) : Res := flushOut f (ftzOf th) (g (rmIn o.px th) (satOf o.px) (inVal f (ftzOf th) (negA o.px) (elemOf (sv th o.a) e))
    (inVal f (ftzOf th) (negB o.px) (elemOf (sv2 th o.b) e)) (inVal f (ftzOf th) (addNeg o) (elemOf (addBits o th) e)))
  resFx o.d { bits := (r 0).bits + 2 ^ 16 * (r 1).bits, fl := (r 0).fl ||| (r 1).fl }

/-- `fcmp.f32` (R214). -/
def execFcmpF32 (o : Cmp) (s : State) : Out :=
  .next (runDrill (.fcmpF32 o) latInt (pureFx (fcmpFx o)) s)

/-- `d = x + y` (R212). -/
def execFaddF32 (o : RR) (s : State) : Out :=
  .next (runDrill (.faddF32 o) latMul (pureFx (f32Fx o (fAdd fF32))) s)

/-- `d = x − y` (R212). -/
def execFsubF32 (o : RR) (s : State) : Out :=
  .next (runDrill (.fsubF32 o) latMul (pureFx (f32Fx o fun rm sat x y => fAdd fF32 rm sat x y.neg)) s)

/-- `d = x × y` (R212). -/
def execFmulF32 (o : RR) (s : State) : Out :=
  .next (runDrill (.fmulF32 o) latMul (pureFx (f32Fx o (fMul fF32))) s)

/-- `d = x × y + z` (R212). -/
def execFfmaF32 (o : RR) (s : State) : Out :=
  .next (runDrill (.ffmaF32 o) latMul (pureFx (ffmaFx o)) s)

/-- minimumNumber (R213). -/
def execFminF32 (o : RR) (s : State) : Out :=
  .next (runDrill (.fminF32 o) latMul (pureFx (fmmFx false o)) s)

/-- maximumNumber (R213). -/
def execFmaxF32 (o : RR) (s : State) : Out :=
  .next (runDrill (.fmaxF32 o) latMul (pureFx (fmmFx true o)) s)

/-- `1 ÷ a` (R216). -/
def execFrcp (o : R1) (s : State) : Out :=
  .next (runDrill (.frcp o) latApprox (pureFx (approxFx o fun _ x => fRcp x)) s)

/-- `1 ÷ √a` (R216). -/
def execFrsq (o : R1) (s : State) : Out :=
  .next (runDrill (.frsq o) latApprox (pureFx (approxFx o fun _ x => fRsq x)) s)

/-- Square root, correctly rounded, whatever FTZ says (R215). -/
def execFsqrt (o : R1) (s : State) : Out :=
  .next (runDrill (.fsqrt o) latDiv (pureFx fun th => resFx o.d (fSqrt (rmIn o.px th) (unpack fF32 (sv th o.a).toNat))) s)

/-- `2^a` (R216). -/
def execFex2 (o : R1) (s : State) : Out :=
  .next (runDrill (.fex2 o) latApprox (pureFx (approxFx o fun _ x => fEx2 x)) s)

/-- `log2 a` (R216). -/
def execFlg2 (o : R1) (s : State) : Out :=
  .next (runDrill (.flg2 o) latApprox (pureFx (approxFx o fun _ x => fLg2 x)) s)

/-- Sine (R216, R217). -/
def execFsin (o : R1) (s : State) : Out :=
  .next (runDrill (.fsin o) latApprox (pureFx (approxFx o fun _ x => fTrig false x)) s)

/-- Cosine (R216, R217). -/
def execFcos (o : R1) (s : State) : Out :=
  .next (runDrill (.fcos o) latApprox (pureFx (approxFx o fun _ x => fTrig true x)) s)

/-- tanh a (R216). -/
def execFtanh (o : R1) (s : State) : Out :=
  .next (runDrill (.ftanh o) latApprox (pureFx (approxFx o fun a x => fTanh a.toNat x)) s)

/-- Table evaluation on the bank the thread selects, as it stands at issue (R219, R220); while another plot holds the banks it waits
(R288). -/
def execFtbl (o : R1) (s : State) : Out :=
  .next (runDrill (.ftbl o) latApprox (fun s _ th =>
    match takeBanks s s.cur.core th.plot with
    | none => (s, { wait := some (.retry 13) })
    | some s =>
      let c := getCore s s.cur.core
      (s, resFx o.d (tblEval (if tblBankOf c th then c.bank1 else c.bank0) (ftzOf th) (sv th o.a).toNat))) s)

/-- `scacc.i32` (R221). -/
def execScacc (o : RR) (s : State) : Out :=
  .next (runDrill (.scacc o) latMul (pureFx (scaccFx o)) s)

/-- Conversion by the code byte (R113, R222, R223). -/
def execCvt (o : CvtOp) (s : State) : Out :=
  .next (runDrill (.cvt o) latMul (pureFx fun th =>
    resFx o.d (cvtWord o.dst.toNat o.src.toNat (rmIn o.px th) (satOf o.px) (sv th o.a).toNat)) s)

/-- `pk.bf2` (R224). -/
def execPkBf2 (o : RR) (s : State) : Out :=
  .next (runDrill (.pkBf2 o) latMul (pureFx (pkFx fBf16 o)) s)

/-- `pk.h2` (R224). -/
def execPkH2 (o : RR) (s : State) : Out :=
  .next (runDrill (.pkH2 o) latMul (pureFx (pkFx fF16 o)) s)

/-- `pk8lo.e4m3` (R225). -/
def execPk8loE4m3 (o : RR) (s : State) : Out :=
  .next (runDrill (.pk8loE4m3 o) latMul (pureFx (pk8Fx fE4m3 false o)) s)

/-- `pk8lo.e5m2` (R225). -/
def execPk8loE5m2 (o : RR) (s : State) : Out :=
  .next (runDrill (.pk8loE5m2 o) latMul (pureFx (pk8Fx fE5m2 false o)) s)

/-- `pk8hi.e4m3` (R225). -/
def execPk8hiE4m3 (o : RR) (s : State) : Out :=
  .next (runDrill (.pk8hiE4m3 o) latMul (pureFx (pk8Fx fE4m3 true o)) s)

/-- `pk8hi.e5m2` (R225). -/
def execPk8hiE5m2 (o : RR) (s : State) : Out :=
  .next (runDrill (.pk8hiE5m2 o) latMul (pureFx (pk8Fx fE5m2 true o)) s)

/-- Packed addition (R226). -/
def execHaddBf2 (o : RR) (s : State) : Out :=
  .next (runDrill (.haddBf2 o) latMul (pureFx (packedFx fBf16 o fun rm sat x y _ => fAdd fBf16 rm sat x y)) s)

/-- Packed multiplication (R226). -/
def execHmulBf2 (o : RR) (s : State) : Out :=
  .next (runDrill (.hmulBf2 o) latMul (pureFx (packedFx fBf16 o fun rm sat x y _ => fMul fBf16 rm sat x y)) s)

/-- Packed fused multiply-add (R226). -/
def execHfmaBf2 (o : RR) (s : State) : Out :=
  .next (runDrill (.hfmaBf2 o) latMul (pureFx (packedFx fBf16 o (fFma fBf16))) s)

/-- Packed addition (R226). -/
def execHaddH2 (o : RR) (s : State) : Out :=
  .next (runDrill (.haddH2 o) latMul (pureFx (packedFx fF16 o fun rm sat x y _ => fAdd fF16 rm sat x y)) s)

/-- Packed multiplication (R226). -/
def execHmulH2 (o : RR) (s : State) : Out :=
  .next (runDrill (.hmulH2 o) latMul (pureFx (packedFx fF16 o fun rm sat x y _ => fMul fF16 rm sat x y)) s)

/-- Packed fused multiply-add (R226). -/
def execHfmaH2 (o : RR) (s : State) : Out :=
  .next (runDrill (.hfmaH2 o) latMul (pureFx (packedFx fF16 o (fFma fF16))) s)

/-- Division, correctly rounded, whatever FTZ says (R215). -/
def execFdivF32 (o : RR) (s : State) : Out :=
  .next (runDrill (.fdivF32 o) latDiv (pureFx fun th =>
    resFx o.d (fDiv (rmIn o.px th) (satOf o.px) (unpack fF32 (sv th o.a).toNat) (unpack fF32 (sv2 th o.b).toNat))) s)

end Sys2Proof.Machine
end

