-- ==== Sys2Proof/Machine/Memory.lean ====
section
/-!
DEFINITION. Global memory and scratchpad beneath the instructions: homes and their leases (R68, R77 to R85), keys of HBM lines
(R366), the L1 with its dirty FIFO and MSHRs (R66, R67, R70, R81), translation (R355 to R359, R364), the checks of R61, R62 and
R228, and the drill that waits for a page walk (R74).
-/
namespace Sys2Proof.Machine
open Sys2Proof

/-! ### Bytes of a line, as numbers -/

/-- The n mask bits from o. -/
def bytesMask (o n : Nat) : Nat := (2 ^ n - 1) * 2 ^ o
/-- All bits of every byte that a mask of k bytes names. -/
def spread (m : Nat) : Nat → Nat
  | 0 => 0
  | k + 1 => spread m k + (if m.testBit k then 255 * 256 ^ k else 0)
/-- The bytes the mask names come from `new`, the others from `old`. -/
def mergeBytes (old new m k : Nat) : Nat := let f := spread m k; (old &&& (2 ^ (8 * k) - 1 - f)) ||| (new &&& f)
/-- Are all bits of a in b? -/
def within (a b : Nat) : Bool := a &&& b == a

/-- A list with x, once. -/
def addNew (l : List Nat) (x : Nat) : List Nat := if l.contains x then l else l ++ [x]

/-! ### Places -/

/-- Die of a core (R2). -/
def dieOf (ci : Nat) : Nat := ci / 512
/-- Home die of a physical address of this device (R68). -/
def homeDie (pa : Nat) : Nat :=
  if pa ≥ Config.hostBase then pa / 2 ^ 12 % 8
  else ((pa / 2 ^ 12 % 16) ^^^ (pa / 2 ^ 16 % 16) ^^^ (pa / 2 ^ 20 % 16) ^^^ (pa / 2 ^ 24 % 16)) / 2
/-- Home slice of a physical address within its home die (R68). -/
def homeSlice (pa : Nat) : Nat := (pa / 2 ^ 7 % 32) ^^^ (pa / 2 ^ 29 % 32)
/-- Number of the 128-byte line a location lies in; lines of device d stand from (d + 1) × 2^48. -/
def lineKey : Loc → Nat
  | .here pa _ => pa / 128 * 128
  | .there d pa => (d + 1) * 2 ^ 48 + pa / 128 * 128
/-- Latency of a global load beyond the last LSU cycle at the level that it reaches (R306). A leased copy in the die's L2 serves it there; the
model holds no copies of home lines, so which of the home's levels does is a free choice, as are the hops to another device (log 6). -/
def missLatency (s : State) (ci : Nat) (loc : Loc) : Nat :=
  match loc with
  | .there d _ => 600 + 240 * (1 + Config.hops s.free d % 6)
  | .here pa nc =>
    let home := if dieOf ci = homeDie pa then 110 else 190
    if nc then 2400
    else if (tget s.l2 (dieOf ci * 2 ^ 63 + lineKey loc)).isSome then 110
    else match Config.homeLevel s.free % 3, decide (pa ≥ Config.hostBase) with
      | 0, _ => home
      | _, true => 2400
      | 1, false => 260
      | _, false => 480
/-- Is it a place of a page that is not cached (R85)? -/
def notCached : Loc → Bool
  | .here _ nc => nc
  | .there _ _ => false
/-- Byte of the line. -/
def lineOff : Loc → Nat
  | .here pa _ => pa % 128
  | .there _ pa => pa % 128
/-- Is the line homed on another device? -/
def farKey (key : Nat) : Bool := decide (key ≥ 2 ^ 48)
/-- Is the location homed on another device? -/
def isFar (l : Loc) : Bool := farKey (lineKey l)
/-- The device of a location. -/
def locDev : Loc → Option Nat
  | .here _ _ => none
  | .there d _ => some d
/-- Slice of a fused L1: XOR of the 4-bit groups of bits [10:7] to [50:47] (R67). The model's choice: the spec does not say what the address
of a fabric-window line is there; the number of its line is taken, so the device's number enters the XOR beside the physical address. -/
def fuseSlice (key : Nat) : Nat := (List.range 11).foldl (fun x g => x ^^^ (key / 2 ^ (7 + 4 * g) % 16)) 0
/-- The core whose L1 holds the line for core ci (R66, R67). -/
def l1Core (s : State) (ci key : Nat) : Nat :=
  if (getCluster s (clusterOf ci)).fused then clusterOf ci * Config.coresPerCluster + fuseSlice key else ci
/-- Set of the line in its L1 (R66, R67). -/
def l1Set (s : State) (ci key : Nat) : Nat :=
  if (getCluster s (clusterOf ci)).fused then key / 2 ^ 11 % 128 else key / 2 ^ 7 % 128
/-- Scratchpad position: slice × 2^18 + physical offset (R62). -/
def slicePos (slice off : Nat) : Nat := slice * 2 ^ 18 + off
/-- Context of a plot. -/
def plotCtx (s : State) (ci pi : Nat) : Nat := (getPlot (getCore s ci) pi).ctx

/-! ### Homes: keys, leases, completion times -/

/-- What the home knows of a line. -/
def homeOf (s : State) (line : Nat) : HomeLine := tgetD s.homes line {}
/-- Guard of R80, by the fabric leases of the line and the lock of R100. -/
def guardOf (s : State) (h : HomeLine) : Nat := if h.ef > s.now ∨ !locked s then Config.guardFar else Config.guardNear
/-- Is the line written at its home now: the global write completion time, and the length of leases set back (R79, R80). The line keeps the
latest one that is pending, since the value it returns may rest on it (R83). -/
def homeStored (s : State) (line : Nat) : Nat × State :=
  let h := homeOf s line
  let g := max s.now (max h.ed h.ef) + guardOf s h
  (g, { s with homes := tput s.homes line { h with gwct := max h.gwct g, len := Config.leaseMin } })
/-- Grant a lease on a line: its expiry; the next one is twice as long, up to 16 µs (R79). -/
def grantLease (s : State) (line : Nat) (fabric : Bool) : Nat × State :=
  let h := homeOf s line
  let e := s.now + h.len
  let h := if fabric then { h with ef := max h.ef e } else { h with ed := max h.ed e }
  (e, { s with homes := tput s.homes line { h with len := min (2 * h.len) Config.leaseMax } })
/-- The next free byte (log 10). -/
def freeBytes (s : State) (n : Nat) : List Byte × State :=
  ((List.range n).map fun i => Config.freeByte (s.free + i), { s with free := s.free + n })
/-- A time up to n quarter-nanoseconds from now that the spec does not fix (log 10). -/
def freeTime (s : State) (n : Nat) : Nat × State := let v := freeVal s; (s.now + v.1.toNat % (n + 1), v.2)

/-! ### The L1 -/

/-- The L1's copy of a line. -/
def l1Line (s : State) (k key : Nat) : Line := tgetD (getCore s k).l1 key {}
/-- Bytes of a copy that a load may be performed on now: dirty ones, and clean ones under an unexpired lease; an unlocked device
treats fabric leases as expired (R78, R100). -/
def usable (s : State) (key : Nat) (l : Line) : Nat :=
  if decide (s.now < l.expiry) && (!farKey key || locked s) then l.valid.toNat ||| l.dirty.toNat else l.dirty.toNat
/-- Is the line in the dirty FIFO of core k? -/
def fifoEntry (c : Core) (key : Nat) : Option Dirty := c.fifo.find? fun d => d.line == key
/-- Put a line, or take it out where it holds nothing. -/
def putLine (s : State) (k key : Nat) (l : Line) : State :=
  updCore s k fun c => { c with l1 := if l.valid = 0 ∧ l.dirty = 0 then tdel c.l1 key else tput c.l1 key l }
/-- The plain address and the device of a line. -/
def keyDev (key : Nat) : Option Nat := if farKey key then some (key / 2 ^ 48 - 1) else none
/-- Drain one line: its dirty bytes set out for the home, and it leaves the FIFO (R81, R84). -/
def drainLine (s : State) (k key : Nat) : State :=
  match fifoEntry (getCore s k) key with
  | none => s
  | some d =>
    let l := l1Line s k key
    let (id, s) := freshId s
    let s := putLine s k key { l with dirty := 0 }
    let s := updCore s k fun c => { c with fifo := c.fifo.filter fun e => e.line != key }
    { s with reqs := tput s.reqs id (.wback { core := k, plots := d.plots, line := key % 2 ^ 48, dev := keyDev key, data := l.data,
                                               mask := l.dirty, seq := d.seq, since := d.since, tids := d.tids, sent := s.now }) }
/-- Take the clean bytes of a line out of an L1. -/
def dropClean (s : State) (k key : Nat) : State :=
  let l := l1Line s k key
  putLine s k key { l with valid := l.dirty, expiry := 0 }
/-- Write a line back and invalidate it (R84). -/
def flushLine (s : State) (ci key : Nat) : State := dropClean (drainLine s (l1Core s ci key) key) (l1Core s ci key) key
/-- Make room for a line in its set: of 20 ways the clean line whose lease ends first gives way, else the oldest dirty one is
drained first (R66; log 24). -/
def makeRoom (s : State) (ci k key : Nat) : State :=
  let c := getCore s k
  if (tget c.l1 key).isSome then s
  else
    let same := c.l1.filter fun e => l1Set s ci e.1 == l1Set s ci key
    if same.length < 20 then s
    else match same.filter (fun e => e.2.dirty == 0) with
      | x :: t => putLine s k (t.foldl (fun a b => if b.2.expiry < a.2.expiry then b else a) x).1 {}
      | [] => match c.fifo.find? fun d => same.any fun e => e.1 == d.line with
        | some d => putLine (drainLine s k d.line) k d.line {}
        | none => s
/-- Bytes a fill may bring: those that are not dirty. -/
def fillLine (s : State) (ci key o n val expiry : Nat) : State :=
  let k := l1Core s ci key
  let s := makeRoom s ci k key
  let l := l1Line s k key
  -- a line has one expiry: bytes held under an older lease are dropped with it
  let keep := if l.expiry = expiry then l.valid.toNat else 0
  let m := bytesMask o n &&& (2 ^ 128 - 1 - l.dirty.toNat)
  putLine s k key { l with data := BitVec.ofNat 1024 (mergeBytes l.data.toNat (val * 256 ^ o) m 128)
                           valid := BitVec.ofNat 128 (keep ||| m), expiry := expiry }

/-- A list with more members, each once. -/
def addAll (l more : List Nat) : List Nat := more.foldl addNew l
/-- A core store of n bytes by these threads (R66, R81): none while a line new to the FIFO finds it full. A no-cache page's store goes to the
host at once (R85). -/
def l1Store (s : State) (ci plot : Nat) (tids : List Nat) (loc : Loc) (n val : Nat) : Option State :=
  let key := lineKey loc
  let o := lineOff loc
  let k := l1Core s ci key
  let who := tids.map fun t => ci * 256 + t
  let nc := match loc with
    | .here _ nc => nc
    | .there _ _ => false
  let wide := BitVec.ofNat 1024 (val % 256 ^ n * 256 ^ o)
  if nc then
    let (id, s) := freshId s
    some { s with reqs := tput s.reqs id (.wback { core := k, plots := [ci * 8 + plot], line := key % 2 ^ 48, dev := none, data := wide,
                                                   mask := BitVec.ofNat 128 (bytesMask o n), seq := id, since := s.now, tids := who, sent := s.now, direct := true }) }
  else
    match fifoEntry (getCore s k) key, decide ((getCore s k).fifo.length ≥ Config.dirtyFifo) with
    | none, true => none
    | e, _ =>
      let s := makeRoom s ci k key
      let l := l1Line s k key
      let m := bytesMask o n
      let s := putLine s k key { l with data := BitVec.ofNat 1024 (mergeBytes l.data.toNat wide.toNat m 128)
                                        dirty := l.dirty ||| BitVec.ofNat 128 m
                                        valid := l.valid &&& ~~~(BitVec.ofNat 128 m) }
      match e with
      | some _ => some (updCore s k fun c => { c with fifo := c.fifo.map fun d =>
          if d.line = key then { d with tids := addAll d.tids who, plots := addNew d.plots (ci * 8 + plot) } else d })
      | none =>
        let (id, s) := freshId s
        some (updCore s k fun c => { c with fifo := c.fifo ++ [{ line := key, seq := id, since := s.now, plots := [ci * 8 + plot], tids := who }] })

/-! ### Requests in flight: order and MSHRs -/

/-- A byte range of a line. -/
structure Span where
  key : Nat
  off : Nat
  len : Nat
  deriving DecidableEq, Repr
def Span.meets (a b : Span) : Bool := a.key == b.key && decide (a.off < b.off + b.len) && decide (b.off < a.off + a.len)
def spanOf (l : Loc) (n : Nat) : Span := ⟨lineKey l, lineOff l, n⟩
/-- The bytes an atomic of a kind touches (R227). -/
def atomBytes (kind : Nat) : Nat := if kind = 10 then 8 else 4

/-- Requests of this device that are not performed at another device: place in the order, device, core and plot (R148). -/
def farParts (id : Nat) : Req → List (Nat × Nat × Nat × Nat)
  | .load o => (o.parts.filter fun p => p.data.isNone).filterMap fun p => (locDev p.loc).map fun d => (p.seq, d, o.core, o.plot)
  | .atomic o => if o.performed then [] else (locDev o.loc).toList.map fun d => (id, d, o.core, o.plot)
  | .wback o => o.dev.toList.map fun d => (id, d, (o.plots.headD 0) / 8, (o.plots.headD 0) % 8)
  | .ldsp o => if o.data.isSome then [] else (locDev o.src).toList.map fun d => (id, d, o.core, o.plot)
  | .stn o => if o.gwct.isSome then [] else (locDev o.dst).toList.map fun d => (id, d, o.core, o.plot)
/-- All of them. -/
def openFar (s : State) : List (Nat × Nat × Nat × Nat) := s.reqs.flatMap fun e => farParts e.1 e.2
/-- The packet of each new one is sent, in class 0 with the CID of its plot (R381, R382, R419): once a cycle, the model's choice of the point
(log 65). What is over is forgotten. -/
def launchFar (s : State) : State :=
  let l := openFar s
  let s := { s with ways := s.ways.filter fun e => l.any (·.1 == e.1) }
  (l.filter fun x => (tget s.ways x.1).isNone).foldl (fun s x =>
    queuePacket { s with ways := tput s.ways x.1 .queued }
      { ownPacket s 0 x.2.1 (getPlot (getCore s x.2.2.1) x.2.2.2).cid with req := some x.1 }) s
/-- May a request be performed as far as its way is concerned: at this device, or its packet has left (R381)? -/
def hasLeft (s : State) (seq : Nat) (far : Bool) : Bool := !far || tget s.ways seq == some .left
/-- What of a request of core ci is not yet performed, or to another device not yet acknowledged: threads and bytes (R77, R98). -/
def openSpans (ci : Nat) : Req → List (List Nat × Span)
  | .load o => if o.core ≠ ci then [] else (o.parts.filter fun p => p.data.isNone).map fun p => (p.tid :: o.also, spanOf p.loc o.size)
  | .atomic o => if o.core ≠ ci ∨ o.sp ∨ o.acked ∨ (o.performed ∧ !isFar o.loc) then [] else [(o.steps.map (·.tid), spanOf o.loc (atomBytes o.kind))]
  | .wback _ => []
  | .ldsp o => if o.core ≠ ci ∨ o.data.isSome then [] else [(o.tid :: o.also, spanOf o.src o.size)]
  | .stn o => if o.core ≠ ci ∨ o.gwct.isSome then [] else [(o.tid :: o.also, spanOf o.dst o.size)]

/-- The line a write-back carries. -/
def wbKey (o : WBack) : Nat := (match o.dev with
  | some d => (d + 1) * 2 ^ 48
  | none => 0) + o.line

/-- Is an access (part of request id, with its place in the order) of these threads to these bytes behind an unperformed request with a lower number: one of the same thread to the same
bytes, or a write-back of the line from the same L1 (R82, R98; log 25)? -/
def blocked (s : State) (id seq ci : Nat) (tids : List Nat) (sp : Span) : Bool :=
  s.reqs.any fun e => decide (e.1 < seq) && e.1 != id && match e.2 with
    | .wback o => o.core == l1Core s ci sp.key && wbKey o == sp.key
    | r => (openSpans ci r).any fun x => x.2.meets sp && x.1.any tids.contains
/-- The same for a write-back: behind any earlier unperformed request of its core to its line (log 25). The parts of a load have their own
places in the order, since a part may drain its line first. -/
def wbBlocked (s : State) (id : Nat) (o : WBack) : Bool :=
  s.reqs.any fun e => match e.2 with
    | .wback p => decide (e.1 < id) && p.core == o.core && wbKey p == wbKey o
    | .load p => l1Core s p.core (wbKey o) == o.core && p.parts.any fun x => x.data.isNone && decide (x.seq ≤ id) && lineKey x.loc == wbKey o
    | .atomic p => decide (e.1 < id) && l1Core s p.core (wbKey o) == o.core && (openSpans p.core e.2).any fun x => x.2.key == wbKey o
    | .ldsp p => decide (e.1 < id) && l1Core s p.core (wbKey o) == o.core && (openSpans p.core e.2).any fun x => x.2.key == wbKey o
    | .stn p => decide (e.1 < id) && l1Core s p.core (wbKey o) == o.core && (openSpans p.core e.2).any fun x => x.2.key == wbKey o

/-- MSHRs of core ci in use (R70). -/
def mshrUse (s : State) (ci : Nat) : Nat :=
  s.reqs.foldl (fun n e => n + match e.2 with
    | .load o => if o.core = ci then o.mshr else 0
    | .atomic o => if o.core = ci ∧ !o.sp ∧ !o.acked then 1 else 0
    | .wback _ => 0
    | .ldsp o => if o.core = ci ∧ o.data.isNone then o.mshr else 0
    | .stn o => if o.core = ci then 1 else 0) ((getCore s ci).threads.filter fun e => e.2.napOpen).length
/-- Does a thread of the drill under way come after another one in drill order (R64)? -/
def laterInDrill (s : State) (x y : Nat × Thread) : Bool :=
  s.cur.tids.contains x.1 && (decide (y.2.rank < x.2.rank) || (y.2.rank == x.2.rank && decide (y.1 < x.1)))
/-- Does a rejected thread retry in this cycle after the thread at hand: later in its drill, or in a drill still to be carried out (R70)? -/
def retriesAfter (s : State) (ci : Nat) (x y : Nat × Thread) : Bool :=
  decide (x.2.rejects > 0) && (laterInDrill s x y || s.issued.any fun d => d.core == ci && d.tids.contains x.1)
/-- Does the thread find a free MSHR: one that no older thread with a reservation, or no reserved thread at all, has a claim to; and where no
thread holds a reservation, no rejected thread that retries in this cycle, or to one that was rejected itself no older one (R70)? -/
def mshrFree (s : State) (ci tid : Nat) (th : Thread) : Bool :=
  let ths := (getCore s ci).threads
  let claims := if ths.any fun e => e.2.reserved then ths.filter fun e => e.2.reserved && e.1 != tid && (!th.reserved || older e (tid, th))
    else ths.filter fun e => e.1 != tid && (th.rejects == 0 || older e (tid, th)) && retriesAfter s ci e (tid, th)
  decide (mshrUse s ci + claims.length < Config.mshrs)

/-- Accesses of a thread that are neither performed nor core-performed: loads, atomics, `ldsp`, `stn`, and stores to no-cache pages (R88, R91). -/
def unperformed (s : State) (ci tid : Nat) : Bool :=
  s.reqs.any fun e => match e.2 with
    | .load o => o.core == ci && o.parts.any fun p => p.data.isNone && (p.tid == tid || o.also.contains tid)
    | .atomic o => o.core == ci && !o.acked && o.steps.any fun x => x.tid == tid
    | .wback o => o.direct && o.tids.contains (ci * 256 + tid)
    | .ldsp o => o.core == ci && (o.tid :: o.also).contains tid && o.data.isNone
    | .stn o => o.core == ci && (o.tid :: o.also).contains tid && o.gwct.isNone

/-! ### Translation -/

/-- What a walk answers: a translation, a failure with its subcause and whether page service declines it at once (R361), busy
(R364), or a table or page at a physical address that does not exist (R356). -/
inductive WalkRes where
  | ok (t : Tr)
  | fail (sub : Nat) (decline : Bool)
  | busy
  | hole
  deriving DecidableEq, Repr

/-- Levels 4 to 1 as (index shift, index bits) (R355). -/
def walkLevel (level : Nat) : Nat × Nat :=
  match level with
  | 4 => (43, 14)
  | 3 => (30, 13)
  | 2 => (21, 9)
  | _ => (16, 5)

/-- One level of a walk and the levels below it (R355 to R357, R364). -/
def walkFrom (s : State) (ctx va : Nat) : Nat → Nat → WalkRes
  | 0, _ => .fail 1 true
  | level + 1, base =>
    let lv := level + 1
    let (sh, bits) := walkLevel lv
    let a := base + 8 * (va / 2 ^ sh % 2 ^ bits)
    if !physOk a 8 then .hole
    else
      let e := memNat s.mem a 8
      let leaf := e.testBit 2
      let rmt := e.testBit 5
      if !e.testBit 0 then .fail 1 (e.testBit 7)
      else if e.testBit 6 then .busy
      else if e.testBit 1 || decide (fieldN e 49 48 ≠ 0) || (!rmt && decide (fieldN e 63 50 ≠ 0)) || (rmt && !leaf) then .fail 1 true
      else if leaf then
        let size := 2 ^ sh
        let pa := fieldN e 47 16 * 2 ^ 16
        if lv = 4 ∨ fieldN e 15 14 ≠ 0 ∨ pa % size ≠ 0 then .fail 1 true
        else if fieldN e 13 8 ≠ ctx then .fail 1 false
        else if !rmt && !physOk pa size then .hole
        else .ok { ctx := ctx, va := va / size * size, size := size, pa := pa, dev := if rmt then some (fieldN e 63 50) else none
                   nc := e.testBit 4, w := e.testBit 3 }
      else
        let next := fieldN e 47 8 * 2 ^ 8
        let (_, nb) := walkLevel level
        if lv = 1 ∨ next % (8 * 2 ^ nb) ≠ 0 then .fail 1 true else walkFrom s ctx va level next

/-- Walk the tables of a context (R355 to R358). A context that is not valid fails. -/
def walkTables (s : State) (ctx va : Nat) : WalkRes :=
  let r := reg64 s (0x31000 + 16 * ctx)
  if !r.testBit 0 then .fail 1 false else walkFrom s ctx va 4 (fieldN r 47 17 * 2 ^ 17)
/-- The address bits above those that a table of a level translates. -/
def walkTop (va level : Nat) : Nat := va / 2 ^ (walkLevel (level + 1)).1
/-- The pointers that a walk from a table on passes (R359); a walk that has succeeded met no other entries. -/
def walkPath (s : State) (ctx va : Nat) : Nat → Nat → List WalkPtr
  | 0, _ => []
  | level + 1, base =>
    let (sh, bits) := walkLevel (level + 1)
    let e := memNat s.mem (base + 8 * (va / 2 ^ sh % 2 ^ bits)) 8
    let next := fieldN e 47 8 * 2 ^ 8
    if level = 0 ∨ e.testBit 2 then [] else { ctx := ctx, level := level, top := walkTop va level, base := next } :: walkPath s ctx va level next
/-- The pointer of the lowest level that a walk cache holds for the address. -/
def walkHit (l : List WalkPtr) (ctx va : Nat) : Option WalkPtr :=
  let at_ (n : Nat) : Option WalkPtr := l.find? fun p => p.ctx == ctx && p.level == n && p.top == walkTop va n
  (at_ 1).orElse fun _ => (at_ 2).orElse fun _ => at_ 3
/-- A walk cache with the pointers of a walk; the oldest entries give way (R359; log 24). -/
def walkAdd (l new : List WalkPtr) : List WalkPtr :=
  let m := l ++ new.filter fun p => !l.contains p
  m.drop (m.length - Config.walkPtrs)
/-- A walk of a cluster: from the lowest table its walk cache names, else from the context's own; a walk that succeeds fills the cache
(R359). -/
def clusterWalk (s : State) (cl ctx va : Nat) : WalkRes × State :=
  let r := reg64 s (0x31000 + 16 * ctx)
  if !r.testBit 0 then (.fail 1 false, s)
  else
    let (lv, base) := match walkHit (getCluster s cl).walkCache ctx va with
      | some p => (p.level, p.base)
      | none => (4, fieldN r 47 17 * 2 ^ 17)
    match walkFrom s ctx va lv base with
    | .ok t => (.ok t, updCluster s cl fun k => { k with walkCache := walkAdd k.walkCache (walkPath s ctx va lv base) })
    | x => (x, s)

/-- Does a translation cover the address for the context? -/
def Tr.covers (t : Tr) (ctx va : Nat) : Bool := t.ctx == ctx && decide (t.va ≤ va) && decide (va < t.va + t.size)
/-- Where a translation sends the address. -/
def Tr.loc (t : Tr) (va : Nat) : Loc :=
  match t.dev with
  | none => .here (t.pa + (va - t.va)) t.nc
  | some d => .there d (t.pa + (va - t.va))
/-- A TLB of n entries with one more; the oldest gives way (R359; log 24). -/
def tlbAdd (n : Nat) (l : List Tr) (t : Tr) : List Tr := if l.contains t then l else (if l.length ≥ n then l.drop 1 else l) ++ [t]
/-- What the core's or its cluster's TLB holds for the address (R359). -/
def tlbFind (s : State) (ci ctx va : Nat) : Option Tr :=
  match (getCore s ci).tlb.find? fun t => t.covers ctx va with
  | some t => some t
  | none => (getCluster s (clusterOf ci)).tlb.find? fun t => t.covers ctx va
/-- Set of a cluster TLB that a translation belongs to, of 512 (R359; log 24). -/
def tlbSetOf (t : Tr) : Nat := Config.tlbSet (t.ctx * 2 ^ 48 + t.va / 2 ^ 16) % 512
/-- A TLB of 8 ways with one more: where its set is full the set's oldest gives way (R359; log 24). -/
def tlbAddWay (l : List Tr) (t : Tr) : List Tr :=
  if l.contains t then l
  else if l.length < 8 then l ++ [t]
  else match l.filter fun x => tlbSetOf x == tlbSetOf t with
    | x :: rest => if rest.length + 1 ≥ 8 then l.erase x ++ [t] else l ++ [t]
    | [] => l ++ [t]
/-- Fill the cluster's TLB, and a core's (R359). -/
def tlbFill (s : State) (cl : Nat) (t : Tr) : State := updCluster s cl fun k => { k with tlb := tlbAddWay k.tlb t }
def coreTlbFill (s : State) (ci : Nat) (t : Tr) : State := updCore s ci fun c => { c with tlb := tlbAdd 256 c.tlb t }

/-- Canonical: bits [63:57] equal bit 56 (R61). -/
def canonical (a : Nat) : Bool := decide (a / 2 ^ 56 = 0) || decide (a / 2 ^ 56 = 255)
/-- Canonical form compares bits [63:56] of a 64-bit address. -/
def page64 (va : Nat) : Nat := va / 2 ^ 16 * 2 ^ 16

/-- Start or join a walk for a page; beyond the 32 that are in use it waits, oldest first (R359). -/
def joinWalk (s : State) (cl ctx page : Nat) (d : Option Drill) : State :=
  match (getCluster s cl).walks.find? fun e => e.2.ctx == ctx && e.2.page == page with
  | some (k, w) => updCluster s cl fun c => { c with walks := tput c.walks k { w with drills := w.drills ++ d.toList } }
  | none =>
    let (id, s) := freshId s
    updCluster s cl fun c => { c with walks := tput c.walks id { ctx := ctx, page := page, drills := d.toList } }
/-- A translation for a fetch, an engine or the launcher: the cluster's TLB, else a walk that fills it (R359). Where a walk for the page is in
progress the request joins it, and where all 32 are in use it waits among the walks, oldest first: it asks again when that walk is done. -/
inductive EngRes where
  | ok (loc : Loc)
  | fault (sub : Nat) (decline : Bool)
  | busy
  deriving DecidableEq, Repr
def engTranslate (s : State) (cl : Option Nat) (ctx va : Nat) (wr : Bool) : EngRes × State :=
  let hit := cl.bind fun k => (getCluster s k).tlb.find? fun t => t.covers ctx va
  match hit with
  | some t => if wr && !t.w then (.fault 2 true, s) else (.ok (t.loc va), s)
  | none =>
    let inWalk := match cl with
      | some k => let w := (getCluster s k).walks; (w.any fun e => e.2.ctx == ctx && e.2.page == page64 va) || decide (w.length ≥ Config.maxWalks)
      | none => false
    if inWalk then (.busy, match cl with
      | some k => joinWalk s k ctx (page64 va) none
      | none => s)
    else
      let (r, s) := match cl with
        | some k => clusterWalk s k ctx va
        | none => (walkTables s ctx va, s)
      match r with
      | .ok t =>
        let s := match cl with
          | some k => tlbFill s k t
          | none => s
        if wr && !t.w then (.fault 2 true, s) else (.ok (t.loc va), s)
      | .fail sub d => (.fault sub d, s)
      | .busy => (.busy, s)
      | .hole => (.fault 1 true, s)

/-! ### The checks of an access (R61, R62, R228) -/

/-- One global access of a thread. -/
structure Acc where
  addr : Nat
  size : Nat
  /-- size code of the detail (R75, R434) -/
  code : Nat
  wr : Bool
  deriving DecidableEq, Repr

/-- What the checks of R228 answer for a global access: where it goes, a fault, a page to walk, or a busy page (R364). -/
inductive AccRes where
  | ok (loc : Loc)
  | fault (f : FaultRec)
  | miss (page : Nat)
  | busy
  deriving DecidableEq, Repr

/-- The checks of R228 on a global address. -/
def checkGlobal (s : State) (ci plot : Nat) (a : Acc) : AccRes :=
  if !canonical a.addr then .fault (memFault 3 a.code a.wr false a.addr)
  else if a.addr % a.size ≠ 0 then .fault (memFault 4 a.code a.wr false a.addr)
  else
    let ctx := plotCtx s ci plot
    match tlbFind s ci ctx a.addr with
    | some t => if a.wr && !t.w then .fault (memFault 2 a.code a.wr false a.addr) else .ok (t.loc a.addr)
    | none => match s.cur.failed.find? fun e => e.1 == page64 a.addr with
      | some (_, 63) => .busy
      | some (_, sub) => .fault (memFault sub a.code a.wr false a.addr)
      | none => .miss (page64 a.addr)

/-- Is the scratchpad range inside the plot's window, and where (R62)? -/
def scratchPos (s : State) (ci plot addr size : Nat) : Option Nat :=
  let p := getPlot (getCore s ci) plot
  let slice := addr / 2 ^ 18 % 16
  let off := addr % 2 ^ 18
  if addr < 2 ^ 22 ∧ (slice = ci % 16 ∨ p.hdr.wide) ∧ off + size ≤ p.hdr.scratch * 1024 then some (slicePos slice (p.scrBase + off)) else none
/-- The checks of R228 on a scratchpad address: its position, or the fault (R434 for the detail). -/
def checkScratch (s : State) (ci plot addr size align code : Nat) (wr : Bool) : Except FaultRec Nat :=
  if addr ≥ 2 ^ 22 then .error (memFault 5 code wr true addr)
  else if addr % align ≠ 0 then .error (memFault 4 code wr true addr)
  else match scratchPos s ci plot addr size with
    | none => .error (memFault 5 code wr true addr)
    | some p => .ok p

/-- Read scratchpad bytes of a core's cluster. -/
def scrRead (s : State) (ci pos n : Nat) : Nat := memNat (getCluster s (clusterOf ci)).scratch pos n
/-- Write the low n bytes of a number. -/
def scrWrite (s : State) (ci pos n v : Nat) : State :=
  updCluster s (clusterOf ci) fun k => { k with scratch := memPut k.scratch pos n v }

/-! ### Drills that wait for walks -/

/-- Pages the active threads of a drill need a walk for, in drill order; in the uniform pipe the one access of R231. -/
def pagesMissing (i : Instr) (s : State) (acc : Thread → List Acc) : List Nat :=
  let act := activeThreads i s
  let who := if isUnif s then act.take 1 else act
  let ok := who.filter fun e => (preFault i s act e.2).isNone
  (ok.flatMap fun e => (acc e.2).filterMap fun a => match checkGlobal s s.cur.core e.2.plot a with
    | .miss p => some p
    | _ => none).eraseDups
/-- The whole drill waits for the walks of these pages; it is carried out when the first has ended (log 26). -/
def holdForWalks (i : Instr) (s : State) (pages : List Nat) : State :=
  let ci := s.cur.core
  let ths := drillThreads i s
  let ctx := plotCtx s ci ((ths.head?.map fun e => e.2.plot).getD 0)
  let d := { s.cur with tids := ths.map (·.1) }
  let s := updThreads s ci d.tids fun th => { th with st := .waiting .walk, readySince := (getCore s ci).cyc, overdue := none }
  match pages with
  | [] => s
  | p :: rest => drillDone (rest.foldl (fun s q => joinWalk s (clusterOf ci) ctx q none) (joinWalk s (clusterOf ci) ctx p (some d))) 1

/-- Is the cluster of a core between fused and unfused L1s, when no access issues (R67)? -/
def changing (s : State) (ci : Nat) : Bool := (getCluster s (clusterOf ci)).fusing.isSome
/-- Carry out an instruction with global accesses, or hold its drill while a page it needs is walked (R74), or while the cluster's L1s change
(R67). -/
def runGlobal (i : Instr) (acc : Thread → List Acc) (run : State → State) (s : State) : State :=
  if changing s s.cur.core then runDrill i latInt (fun s _ _ => (s, { stay := true })) s
  else match pagesMissing i s acc with
    | [] => run s
    | pages => holdForWalks i s pages

/-! ### Serving an access at its home -/

/-- Take the clean copy of a line out of a die's L2 (R82). -/
def dropL2 (s : State) (ci key : Nat) : State := { s with l2 := tdel s.l2 (dieOf ci * 2 ^ 63 + key) }

/-- Copies of a die's L2 in one slice, by key. -/
def l2Slice (s : State) (die slice : Nat) : Tbl Line := s.l2.filter fun e => e.1 / 2 ^ 63 == die && homeSlice (e.1 % 2 ^ 48) == slice
/-- Put a leased copy into a die's L2: where its slice holds as many lines as it has room for, the copy whose lease ends first gives way (R2,
R68; log 24). -/
def l2Put (s : State) (die key : Nat) (l : Line) : State :=
  let same := l2Slice s die (homeSlice (key % 2 ^ 48))
  let t := match same with
    | x :: rest => if same.length ≥ Config.l2SliceLines then tdel s.l2 (rest.foldl (fun a b => if b.2.expiry < a.2.expiry then b else a) x).1 else s.l2
    | [] => s.l2
  { s with l2 := tput t (die * 2 ^ 63 + key) l }
/-- A load of n bytes that left the core: performed on the die's leased L2 copy or at the home, where it is granted a lease (R68, R78,
R79, R83, R85, R100). Answers the value, a GWCT not yet passed that it carries, and the state with the line filled. -/
def serveLoad (s : State) (ci plot : Nat) (loc : Loc) (n : Nat) (alloc : Bool) : Nat × Nat × State :=
  let key := lineKey loc
  let ck := ctxKey s (plotCtx s ci plot)
  match loc with
  | .here pa true => (leNat (keyedRead s ck pa n), 0, s)
  | .here pa false =>
    let lk := dieOf ci * 2 ^ 63 + key
    let l2 := tgetD s.l2 lk {}
    if dieOf ci ≠ homeDie pa ∧ within (bytesMask (lineOff loc) n) (usable s key l2) then
      let v := l2.data.toNat / 256 ^ (lineOff loc) % 256 ^ n
      (v, 0, if alloc then fillLine s ci key (lineOff loc) n v l2.expiry else s)
    else
      let h := homeOf s key
      let whole := leNat (keyedRead s ck key 128)
      let (e, s) := grantLease s key false
      let s := if dieOf ci ≠ homeDie pa then l2Put s (dieOf ci) key { data := BitVec.ofNat 1024 whole, valid := BitVec.ofNat 128 (2 ^ 128 - 1), expiry := e } else s
      (whole / 256 ^ (lineOff loc) % 256 ^ n, if h.gwct ≥ s.now then h.gwct else 0, if alloc then fillLine s ci key 0 128 whole e else s)
  | .there _ _ =>
    let (bs, s) := freeBytes s n
    let (g, s) := freeTime s (Config.leaseMax + Config.guardFar)
    let (e, s) := freeTime s (Config.leaseMax - Config.leaseMin)
    (leNat bs, g, if alloc && locked s then fillLine s ci key (lineOff loc) n (leNat bs) (e + Config.leaseMin) else s)

/-- The latest lease of a line among the copies that this device holds. -/
def heldUntil (s : State) (key : Nat) : Nat :=
  let l1 := s.cores.foldl (fun n c => max n (tgetD c.2.l1 key {}).expiry) 0
  (List.range 8).foldl (fun n d => max n (tgetD s.l2 (d * 2 ^ 63 + key) {}).expiry) l1
/-- The GWCT that a remote home answers: a time that this device cannot compute, since it does not know the leases of others, but not before
the bound of R80 over the leases that it holds itself (R80, R98; log 10). -/
def farGwct (s : State) (key : Nat) : Nat × State :=
  let e := heldUntil s key
  let (t, s) := freeTime s Config.leaseMax
  (max t e + (if e > s.now then Config.guardFar else Config.guardNear), s)
/-- A store performed at its home (R80): the bytes the mask names, under a key, and the GWCT. -/
def homeStore (s : State) (ck : Nat) (key data mask : Nat) : Nat × State :=
  if farKey key then farGwct s key
  else
    let s := rekeyLine s ck key
    let s := (List.range 128).foldl (fun s i => if mask.testBit i then { s with mem := memSet s.mem (key + i) (BitVec.ofNat 8 (data / 256 ^ i)) } else s) s
    homeStored s key

/-- Raise a thread's completion horizon (R83). -/
def raiseHorizon (s : State) (ci tid g : Nat) : State := updThread s ci tid fun th => { th with horizon := max th.horizon g }
/-- The same for several threads. -/
def raiseAll (s : State) (ci : Nat) (l : List Nat) (g : Nat) : State := l.foldl (fun s t => raiseHorizon s ci t g) s
/-- A plot's latest returned GWCT (R248). -/
def notePlot (s : State) (ci plot g : Nat) : State := updPlot s ci plot fun p => { p with gwct := max p.gwct g }

/-- Is a location in the page that moves? -/
def locIn (m : Migr) (l : Loc) : Bool :=
  match l with
  | .here pa _ => decide (m.old ≤ pa) && decide (pa < m.old + m.size)
  | .there _ _ => false
/-- Is something that was translated before the page's invalidation still to be performed in it: step 1 of R363 is not over (R360)? -/
def migOpen (s : State) (m : Migr) : Bool :=
  let lineIn (k : Nat) : Bool := decide (m.old ≤ k) && decide (k < m.old + m.size)
  (s.reqs.any fun e => match e.2 with
    | .load o => decide (e.1 < m.since) && o.parts.any fun p => p.data.isNone && locIn m p.loc
    | .atomic o => decide (e.1 < m.since) && !o.sp && !o.performed && locIn m o.loc
    | .wback o => decide (o.seq < m.since) && o.dev.isNone && lineIn o.line
    | .ldsp o => decide (e.1 < m.since) && o.data.isNone && locIn m o.src
    | .stn o => decide (e.1 < m.since) && o.gwct.isNone && locIn m o.dst)
    || s.cores.any fun c => c.2.fifo.any fun d => decide (d.seq < m.since) && lineIn d.line
/-- Does a request to this location of physical memory get "busy" while its page moves (R364)? From the end of step 1 of R363 on; the request
stands in the place it has and is made again by its unit. -/
def pageBusy (s : State) (loc : Loc) : Bool :=
  match s.mig with
  | some m => locIn m loc && !migOpen s m
  | none => false

end Sys2Proof.Machine
end

