-- ==== Sys2Proof/Machine/LoadStore.lean ====
section
/-!
DEFINITION. Loads, stores and prefetch (13_isa_memory_atomics R227 to R234), with the LSU cycles of R63 and R306.
-/
namespace Sys2Proof.Machine
open Sys2Proof

/-- Bytes of an LS size code (R182, R227). -/
def sizeBytes (code : Nat) : Nat :=
  match code with
  | 0 | 5 => 1
  | 1 | 6 => 2
  | 3 => 8
  | 4 => 16
  | _ => 4
/-- The effective address (R227). -/
def effAddr (sp : Bool) (a : Src) (off : BitVec 7) (size : Nat) (th : Thread) : Nat :=
  if sp then ((((sv th a).toNat : Int) + off.toInt * size) % 2 ^ 32).toNat
  else (((svPair th a : Int) + off.toInt * size) % 2 ^ 64).toNat

/-! ### LSU cycles -/

/-- The words of an access as (bank of the cluster, word) (R63). -/
def bankWords (a : Nat × Nat) : List (Nat × Nat) :=
  (List.range ((a.1 % 4 + a.2 + 3) / 4)).map fun i =>
    let w := a.1 / 4 + i
    (a.1 / 2 ^ 18 * 32 + w % 32, w)
/-- One LSU cycle over the lanes' queues: heads in lane order proceed where no bank conflicts (R63). -/
def lsuCycle (wr : Bool) : List (List (Nat × Nat)) → List (Nat × Nat) → List (List (Nat × Nat))
  | [], _ => []
  | [] :: rest, used => [] :: lsuCycle wr rest used
  | (a :: q) :: rest, used =>
    let ws := bankWords a
    let clash := ws.any fun w => used.any fun u => u.1 == w.1 && (wr || u.2 != w.2)
    if clash then (a :: q) :: lsuCycle wr rest used else q :: lsuCycle wr rest (used ++ ws)
/-- Cycles a drill's scratchpad accesses take; the first argument bounds them. -/
def lsuCycles (wr : Bool) : Nat → List (List (Nat × Nat)) → Nat
  | 0, _ => 0
  | n + 1, qs => if qs.all (·.isEmpty) then 0 else 1 + lsuCycles wr n (lsuCycle wr qs [])
/-- Cycles a drill's global accesses take: one for each round of the lanes, and one more for each further line (R306). -/
def lineCycles : Nat → List (List Nat) → Nat
  | 0, _ => 0
  | n + 1, qs =>
    if qs.all (·.isEmpty) then 0
    else (qs.filterMap List.head?).eraseDups.length + lineCycles n (qs.map (List.drop 1))
/-- The LSU of the drill's slot takes m cycles, after those of the drills before it (R63, R306): the last of them. -/
def lsuPass (s : State) (m : Nat) : Nat × State :=
  let c := getCore s s.cur.core
  let start := max c.cyc (tgetD c.lsu s.cur.slot 0)
  (start + m - 1, putCore s s.cur.core { c with lsu := if m = 0 then c.lsu else tput c.lsu s.cur.slot (start + m) })
/-- Insert by thread slot: on one lane that is by tine. -/
def insertTine {α : Type} (x : Nat × α) : List (Nat × α) → List (Nat × α)
  | [] => [x]
  | y :: t => if x.1 < y.1 then x :: y :: t else y :: insertTine x t
/-- The lanes' queues of the active threads of a drill, in ascending tine order (R15, R63). -/
def laneQueues {α : Type} (l : List (Nat × α)) : List (List α) :=
  (List.range 16).map fun k => ((l.filter fun e => laneOf e.1 == k).foldr insertTine []).map (·.2)

/-- The threads for which a part of a drill acts: in the uniform pipe every active thread without a fault of its own (R231, R234). -/
def actsFor (i : Instr) (s : State) (act : List (Nat × Thread)) (tid : Nat) : List Nat :=
  if isUnif s then (act.filter fun e => (preFault i s act e.2).isNone).map (·.1) else [tid]

/-! ### Loads -/

/-- The value a load leaves in its registers (R230): a number of `size` bytes, extended for b8, b16, s8 and s16. -/
def loadRegs (code dreg v : Nat) : List (Nat × Word) :=
  match code with
  | 5 => [(dreg, (BitVec.ofNat 8 v).signExtend 32)]
  | 6 => [(dreg, (BitVec.ofNat 16 v).signExtend 32)]
  | 3 => (List.range 2).map fun i => (dreg + i, BitVec.ofNat 32 (v / 2 ^ (32 * i)))
  | 4 => (List.range 4).map fun i => (dreg + i, BitVec.ofNat 32 (v / 2 ^ (32 * i)))
  | _ => [(dreg, BitVec.ofNat 32 v)]
/-- Cycles in which the LSU takes scratchpad accesses of these threads, by thread, position and size (R63). -/
def scrCycles (s : State) (wr : Bool) (l : List (Nat × Nat × Nat)) : Nat :=
  if l.isEmpty then 0 else if isUnif s then 1 else lsuCycles wr l.length (laneQueues l)
/-- Cycles in which the LSU takes global accesses of these threads, by thread and line (R306). -/
def globCycles (s : State) (l : List (Nat × Nat)) : Nat :=
  if l.isEmpty then 0 else if isUnif s then 1 else lineCycles 64 (laneQueues l)
/-- The access of a load. -/
def ldAcc (o : LdOp) (th : Thread) : Acc :=
  { addr := effAddr o.sp o.a o.off (sizeBytes o.size.toNat) th, size := sizeBytes o.size.toNat, code := o.size.toNat, wr := false }
/-- The load request under a number. -/
def loadOf (s : State) (id : Nat) : LoadOp :=
  match tget s.reqs id with
  | some (.load o) => o
  | _ => {}
/-- Change it. -/
def updLoad (s : State) (id : Nat) (f : LoadOp → LoadOp) : State := { s with reqs := tput s.reqs id (.load (f (loadOf s id))) }
/-- One access for a load by these threads: bound by an L1 hit, or sent to its home under an MSHR, one for each line of the drill (R70,
R78; log 25); a page that is not cached is never served by the L1 (R85). A line held in part as dirty bytes is drained first. Answers the part,
or none where no MSHR is free. -/
def loadAccess (s : State) (ci id tid : Nat) (tids : List Nat) (th : Thread) (loc : Loc) (size : Nat) : Option LoadPart × Bool × State :=
  let key := lineKey loc
  let k := l1Core s ci key
  let m := bytesMask (lineOff loc) size
  let l := l1Line s k key
  if !notCached loc && within m (usable s key l) && !blocked s id s.nextId ci tids (spanOf loc size) then
    (some { tid := tid, loc := loc, seq := s.nextId, data := some (l.data.toNat / 256 ^ (lineOff loc) % 256 ^ size) }, false, s)
  else
    let same := (loadOf s id).parts.any fun p => p.data.isNone && lineKey p.loc == key
    if !same && !mshrFree s ci tid th then (none, false, s)
    else
      let s := if l.dirty.toNat &&& m ≠ 0 then drainLine s k key else s
      (some { tid := tid, loc := loc, seq := s.nextId }, !same, s)
/-- The registers of an instruction as its thread holds them: those it reads and those it writes (R148, R152). -/
def cellsOf (i : Instr) (th : Thread) : Tbl RegCell := th.regs.filter fun e => (reads i).any (fun x => x.reg == e.1) || (writesBy i).contains e.1
/-- One thread's part of a load (R228, R230). -/
def loadPart (o : LdOp) (id : Nat) (act : List (Nat × Thread)) : Part := fun s tid th =>
  let ci := s.cur.core
  let a := ldAcc o th
  let fx : Fx := { empties := dregs o.d (sizeRegs o.size.toNat), prod := id }
  if o.sp then
    match checkScratch s ci th.plot a.addr a.size a.size a.code false with
    | .error f => (s, { fault := some f })
    | .ok p => (updLoad s id fun q => { q with parts := q.parts ++ [{ tid := tid, seq := s.nextId, data := some (scrRead s ci p a.size), bad := s.bad.contains (scratchPlace (clusterOf ci) p), cells := cellsOf (.ld o) th, va := a.addr }] }, fx)
  else
    match checkGlobal s ci th.plot a with
    | .fault f => (s, { fault := some f })
    | .busy => (s, { stay := true, rej := true })
    | .miss _ => (s, { stay := true })
    | .ok loc =>
      match loadAccess s ci id tid (actsFor (.ld o) s act tid) th loc a.size with
      | (none, _, s) => (s, { stay := true, rej := true })
      | (some p, new, s) => (updLoad s id fun q => { q with parts := q.parts ++ [{ p with cells := cellsOf (.ld o) th, va := a.addr }], mshr := q.mshr + new.toNat }, fx)
/-- First cycle in which a load's destinations may fill, and the LSU after it (R306). -/
def loadDue (s : State) (o : LdOp) (q : LoadOp) (pos : List (Nat × Nat)) : Nat × State :=
  let ci := s.cur.core
  let size := sizeBytes o.size.toNat
  if o.sp then
    let (last, s) := lsuPass s (scrCycles s false (pos.map fun e => (e.1, e.2, size)))
    (last + (if pos.all fun e => e.2 / 2 ^ 18 == ci % 16 then 24 else 40), s)
  else
    let (last, s) := lsuPass s (globCycles s (q.parts.map fun p => (p.tid, lineKey p.loc)))
    let hit := if (getCluster s (clusterOf ci)).fused then 46 else 32
    (last + q.parts.foldl (fun n p => max n (if p.data.isSome then hit else missLatency s ci p.loc)) 0, s)
/-- Scratchpad places of the accesses of a load that pass their checks. -/
def ldPlaces (o : LdOp) (s : State) (l : List (Nat × Thread)) : List (Nat × Nat) :=
  l.filterMap fun e => (scratchPos s s.cur.core e.2.plot (ldAcc o e.2).addr (sizeBytes o.size.toNat)).map fun p => (e.1, p)
/-- Carry a load out: its request, its parts, and the threads that the fill will write (R230 to R232). -/
def runLoad (o : LdOp) (s : State) : State :=
  let i : Instr := .ld o
  let ci := s.cur.core
  let ths := drillThreads i s
  let act := activeThreads i s
  let (id, s) := freshId s
  let s := updLoad s id fun _ => { core := ci, plot := (ths.head?.map fun e => e.2.plot).getD 0, pipe := s.cur.pipe, size := sizeBytes o.size.toNat
                                   signed := decide (o.size.toNat ≥ 5), dreg := o.d.toNat, nreg := sizeRegs o.size.toNat, at_ := s.now, pc := s.cur.pc }
  let pos := ldPlaces o s (if isUnif s then act.take 1 else act)
  let s := runDrill i latInt (loadPart o id act) s
  let q := loadOf s id
  if q.parts.isEmpty then { s with reqs := tdel s.reqs id }
  else
    let off := if zeroOf i then (ths.map (·.1)).filter fun x => !(act.map (·.1)).contains x else []
    let also := if isUnif s then (act.map (·.1)).filter fun x => q.parts.all fun p => p.tid != x else []
    let (due, s) := loadDue s o q (pos.filter fun e => q.parts.any fun p => p.tid == e.1)
    updLoad s id fun q => { q with zeros := off, also := also, due := due }

/-- `ld` (R230 to R232). -/
def execLd (o : LdOp) (s : State) : Out :=
  .next (if o.sp then runLoad o s else runGlobal (.ld o) (fun th => [ldAcc o th]) (runLoad o) s)

/-! ### Prefetch -/

/-- One thread's part of a prefetch: the line is asked for under lease, or the prefetch is dropped (R233). While its page is walked, or moves, the
thread executes it again (R359, R364). -/
def pfPart (o : PfOp) : Part := fun s tid th =>
  let ci := s.cur.core
  let a := effAddr false o.a o.off 4 th
  if changing s ci then (s, { stay := true })
  else if !canonical a ∨ a % 4 ≠ 0 then (s, {})
  else
    let ctx := plotCtx s ci th.plot
    let (r, s) := match tlbFind s ci ctx a with
      | some t => (EngRes.ok (t.loc a), s)
      | none => engTranslate s (some (clusterOf ci)) ctx a false
    match r with
    | .ok loc =>
      let key := lineKey loc
      let here := decide (usable s key (l1Line s (l1Core s ci key) key) ≠ 0)
      if notCached loc || here || !mshrFree s ci tid th then (s, {})
      else
        let (id, s) := freshId s
        let whole := match loc with
          | .here pa nc => Loc.here (pa / 128 * 128) nc
          | .there d pa => Loc.there d (pa / 128 * 128)
        (updLoad s id fun _ => { core := ci, plot := th.plot, size := 128, nreg := 0, mshr := 1, at_ := s.now
                                 parts := [{ tid := 256, loc := whole, seq := id, va := a }] }, {})
    | .busy => (s, { stay := true })
    | .fault _ _ => (s, {})
/-- `pf` (R233). -/
def execPf (o : PfOp) (s : State) : Out := .next (runDrill (.pf o) latInt (pfPart o) s)

/-! ### Stores -/

/-- The access of a store. -/
def stAcc (o : StOp) (th : Thread) : Acc :=
  { addr := effAddr o.sp o.a o.off (sizeBytes o.size.toNat) th, size := sizeBytes o.size.toNat, code := o.size.toNat, wr := true }
/-- The number n registers from r hold, the lowest register least significant (R4). -/
def regsNat (th : Thread) (r : Nat) : Nat → Nat
  | 0 => 0
  | n + 1 => regsNat th r n + (rvAt th 1 (r + n)).toNat * 2 ^ (32 * n)
/-- The value stored: the low bytes of the data operand (R234). -/
def stData (o : StOp) (th : Thread) : Nat := regsNat th o.v.reg.toNat (sizeRegs o.size.toNat) % 256 ^ sizeBytes o.size.toNat
/-- One thread's part of a store (R228, R234). -/
def storePart (o : StOp) (act : List (Nat × Thread)) : Part := fun s tid th =>
  let ci := s.cur.core
  let a := stAcc o th
  if o.sp then
    match checkScratch s ci th.plot a.addr a.size a.size a.code true with
    | .error f => (s, { fault := some f })
    | .ok p => (scrWrite s ci p a.size (stData o th), {})
  else
    match checkGlobal s ci th.plot a with
    | .fault f => (s, { fault := some f })
    | .busy => (s, { stay := true, rej := true })
    | .miss _ => (s, { stay := true })
    | .ok loc => match l1Store s ci th.plot (actsFor (.st o) s act tid) loc a.size (stData o th) with
      | none => (s, { stay := true })
      | some s => (s, {})
/-- The LSU takes the accesses of a store that pass their checks (R63, R306). -/
def stCycles (o : StOp) (s : State) (act : List (Nat × Thread)) : Nat :=
  let size := sizeBytes o.size.toNat
  let l := if isUnif s then act.take 1 else act
  if o.sp then scrCycles s true (l.filterMap fun e => (scratchPos s s.cur.core e.2.plot (stAcc o e.2).addr size).map fun p => (e.1, p, size))
  else globCycles s (l.map fun e => (e.1, (stAcc o e.2).addr / 128))
/-- Carry a store out. -/
def runStore (o : StOp) (s : State) : State :=
  let act := activeThreads (.st o) s
  runDrill (.st o) latInt (storePart o act) (lsuPass s (stCycles o s act)).2
/-- `st` (R234). -/
def execSt (o : StOp) (s : State) : Out :=
  .next (if o.sp then runStore o s else runGlobal (.st o) (fun th => [stAcc o th]) (runStore o) s)

end Sys2Proof.Machine
end

