-- ==== Sys2Proof/Machine/Atomics.lean ====
section
/-!
DEFINITION. Atomics (13_isa_memory_atomics R235 to R240): one step for each thread, combined by address (R71), performed at the home or
at the scratchpad slice, acknowledged later.
-/
namespace Sys2Proof.Machine
open Sys2Proof

/-- Two's complement number of a word. -/
def s32 (x : Nat) : Int := (BitVec.ofNat 32 x).toInt
/-- One step of R236: the new memory value and the flags, from the value before it, the thread's value v, its compare value u, and its
rounding mode. -/
def atomStep (kind m v u rm : Nat) : Nat × Nat :=
  match kind with
  | 0 => ((m + v) % 2 ^ 32, 0)
  | 1 => (if s32 v < s32 m then v else m, 0)
  | 2 => (if s32 v > s32 m then v else m, 0)
  | 3 => (min m v, 0)
  | 4 => (max m v, 0)
  | 5 => (m &&& v, 0)
  | 6 => (m ||| v, 0)
  | 7 => (m ^^^ v, 0)
  | 8 => (v, 0)
  | 9 => (if m = u then v else m, 0)
  | 10 => ((m + v) % 2 ^ 64, 0)
  | 11 => let r := fAdd fF32 rm false (unpack fF32 m) (unpack fF32 v); (r.bits, r.fl)
  | 12 =>
    let e (k : Nat) : Res := fAdd fBf16 rm false (unpack fBf16 (m / 2 ^ (16 * k) % 2 ^ 16)) (unpack fBf16 (v / 2 ^ (16 * k) % 2 ^ 16))
    ((e 0).bits + 2 ^ 16 * (e 1).bits, (e 0).fl ||| (e 1).fl)
  | 13 => let r := fMinMax fF32 true m v; (r.bits, r.fl)
  | 14 => let r := fMinMax fF32 false m v; (r.bits, r.fl)
  | _ => (if m ≥ v then 0 else m + 1, 0)
/-- The steps of a combined request in their order, from a memory value: the steps with the value each returns and its flags, and the
value left (R71, R236). -/
def atomSteps (kind : Nat) : List AtomStep → Nat → List AtomStep × Nat
  | [], m => ([], m)
  | x :: rest, m =>
    let r := atomStep kind m x.v.toNat x.u.toNat x.rm
    let t := atomSteps kind rest r.1
    ({ x with old := BitVec.ofNat 64 m, flags := flagWord r.2 } :: t.1, t.2)
/-- The atomic request under a number. -/
def atomOf (s : State) (id : Nat) : Option AtomOp :=
  match tget s.reqs id with
  | some (.atomic o) => some o
  | _ => none
/-- Put it. -/
def putAtom (s : State) (id : Nat) (o : AtomOp) : State := { s with reqs := tput s.reqs id (.atomic o) }
/-- Perform a request indivisibly, at its scratchpad slice or at its home (R84, R238, R240); a remote home's value is free (log 10). -/
def atomPerform (s : State) (o : AtomOp) : AtomOp × State :=
  let n := atomBytes o.kind
  if o.sp then
    let (st, m) := atomSteps o.kind o.steps (scrRead s o.core o.va n)
    ({ o with steps := st, performed := true }, scrWrite s o.core o.va n m)
  else
    match o.loc with
    | .here pa _ =>
      let ck := ctxKey s (plotCtx s o.core o.plot)
      let (st, m) := atomSteps o.kind o.steps (leNat (keyedRead s ck pa n))
      let (g, s) := homeStored (keyedWrite s ck pa (natLe n m)) (lineKey o.loc)
      ({ o with steps := st, performed := true, gwct := g }, s)
    | .there _ _ =>
      let (bs, s) := freeBytes s n
      let (st, _) := atomSteps o.kind o.steps (leNat bs)
      let (g, s) := farGwct s (lineKey o.loc)
      ({ o with steps := st, performed := true, gwct := g }, s)
/-- The access of an atomic (R227, R228). -/
def atAcc (kind : Nat) (o : AtOp) (th : Thread) : Acc :=
  { addr := effAddr o.sp o.a 0 (atomBytes kind) th, size := atomBytes kind, code := if kind = 10 then 3 else 2, wr := true }
/-- Add a thread's step to the drill's request for its place, or begin one (R71); a new global request takes an MSHR, and the line
leaves the L1 first (R70, R84). Answers whether it found its MSHR. -/
def atomJoin (s : State) (id0 ci tid kind : Nat) (o : AtOp) (th : Thread) (cells : Tbl RegCell) (sp : Bool) (pos : Nat) (loc : Loc) (va : Nat) : Bool × State :=
  let step : AtomStep := { tid := tid, cells := cells, va := va, v := BitVec.ofNat 64 (if kind = 10 then svPair2 th o.v else (sv2 th o.v).toNat), u := rvAt th 2 o.d.toNat, rm := modeRm th.mode }
  let same := s.reqs.find? fun e => match e.2 with
    | .atomic q => q.core == ci && q.drill == id0 && q.sp == sp && (if sp then q.va == pos else q.loc == loc)
    | _ => false
  match same with
  | some (id, .atomic q) => (true, putAtom s id { q with steps := q.steps ++ [step] })
  | _ =>
    if !sp && !mshrFree s ci tid th then (false, s)
    else
      let s := if sp then s else flushLine s ci (lineKey loc)
      let (id, s) := freshId s
      (true, putAtom s id { core := ci, plot := th.plot, kind := kind, sp := sp, loc := loc, steps := [step], ret := o.ret, dreg := o.d.toNat,
                               va := if sp then pos else va, at_ := s.now, drill := id0, pc := s.cur.pc })
/-- One thread's part of an atomic (R228, R236, R237). -/
def atomPart (i : Instr) (kind : Nat) (o : AtOp) (id0 : Nat) : Part := fun s tid th =>
  let ci := s.cur.core
  let a := atAcc kind o th
  let fx : Fx := if o.ret then { empties := dregs o.d (if kind = 10 then 2 else 1), prod := id0 } else {}
  if o.sp then
    match checkScratch s ci th.plot a.addr a.size a.size a.code true with
    | .error f => (s, { fault := some f })
    | .ok p => ((atomJoin s id0 ci tid kind o th (cellsOf i th) true p (.here 0 false) p).2, fx)
  else
    match checkGlobal s ci th.plot a with
    | .fault f => (s, { fault := some f })
    | .busy => (s, { stay := true, rej := true })
    | .miss _ => (s, { stay := true })
    | .ok loc => match atomJoin s id0 ci tid kind o th (cellsOf i th) false 0 loc a.addr with
      | (false, s) => (s, { stay := true, rej := true })
      | (true, s) => (s, fx)
/-- The LSU cycles of an atomic's steps, those of its drill's requests (R63, R306, R307): the steps on one word, which are combined, proceed
together. -/
def atomCycles (kind : Nat) (sp : Bool) (s : State) (id0 : Nat) : Nat :=
  let l := s.reqs.flatMap fun e => match e.2 with
    | .atomic q => if q.drill = id0 ∧ q.core = s.cur.core then q.steps.map fun x => (x.tid, if sp then q.va else lineKey q.loc) else []
    | _ => []
  if sp then scrCycles s false (l.map fun x => (x.1, x.2, atomBytes kind)) else globCycles s l
/-- When a request of the drill may be acknowledged: after the last LSU cycle, the latency of its level, 8 cycles and one a step (R306). A
scratchpad request is performed at once at its slice (log 7). -/
def settleAtom (ci id0 last : Nat) (s : State) (e : Nat × Req) : State :=
  match e.2 with
  | .atomic q =>
    if q.drill ≠ id0 ∨ q.core ≠ ci then s
    else
      let n := q.steps.length
      if q.sp then let (q, s) := atomPerform s q; putAtom s e.1 { q with due := last + n + (if q.va / 2 ^ 18 = ci % 16 then 24 else 40) + 8 }
      else putAtom s e.1 { q with due := last + n + missLatency s ci q.loc + 8 }
  | _ => s
/-- Carry an atomic out: one request for each place, all of one drill, which is their producer (R47, R71). -/
def runAtom (i : Instr) (kind : Nat) (o : AtOp) (s : State) : State :=
  let ci := s.cur.core
  let (id0, s) := freshId s
  let s := runDrill i latInt (atomPart i kind o id0) s
  let (last, s) := lsuPass s (atomCycles kind o.sp s id0)
  s.reqs.foldl (settleAtom ci id0 last) s
/-- An atomic of a kind. -/
def atomicOp (i : Instr) (kind : Nat) (o : AtOp) (s : State) : State :=
  if o.sp then runAtom i kind o s else runGlobal i (fun th => [atAcc kind o th]) (runAtom i kind o) s

/-- Atomic kind 0: m + v (R236). -/
def execAtomAdd (o : AtOp) (s : State) : Out := .next (atomicOp (.atomAdd o) 0 o s)
/-- Atomic kind 1: signed minimum (R236). -/
def execAtomMinI32 (o : AtOp) (s : State) : Out := .next (atomicOp (.atomMinI32 o) 1 o s)
/-- Atomic kind 2: signed maximum (R236). -/
def execAtomMaxI32 (o : AtOp) (s : State) : Out := .next (atomicOp (.atomMaxI32 o) 2 o s)
/-- Atomic kind 3: unsigned minimum (R236). -/
def execAtomMinN32 (o : AtOp) (s : State) : Out := .next (atomicOp (.atomMinN32 o) 3 o s)
/-- Atomic kind 4: unsigned maximum (R236). -/
def execAtomMaxN32 (o : AtOp) (s : State) : Out := .next (atomicOp (.atomMaxN32 o) 4 o s)
/-- Atomic kind 5: m and v (R236). -/
def execAtomAnd (o : AtOp) (s : State) : Out := .next (atomicOp (.atomAnd o) 5 o s)
/-- Atomic kind 6: m or v (R236). -/
def execAtomOr (o : AtOp) (s : State) : Out := .next (atomicOp (.atomOr o) 6 o s)
/-- Atomic kind 7: m xor v (R236). -/
def execAtomXor (o : AtOp) (s : State) : Out := .next (atomicOp (.atomXor o) 7 o s)
/-- Atomic kind 8: exchange (R236). -/
def execAtomXchg (o : AtOp) (s : State) : Out := .next (atomicOp (.atomXchg o) 8 o s)
/-- Atomic kind 9: compare and swap; D is the compare value (R237) (R236). -/
def execAtomCas (o : AtOp) (s : State) : Out := .next (atomicOp (.atomCas o) 9 o s)
/-- Atomic kind 10: 64-bit sum (R236). -/
def execAtomAddB64 (o : AtOp) (s : State) : Out := .next (atomicOp (.atomAddB64 o) 10 o s)
/-- Atomic kind 11: f32 sum (R236). -/
def execAtomFaddF32 (o : AtOp) (s : State) : Out := .next (atomicOp (.atomFaddF32 o) 11 o s)
/-- Atomic kind 12: packed bf16 sum (R236). -/
def execAtomFaddBf2 (o : AtOp) (s : State) : Out := .next (atomicOp (.atomFaddBf2 o) 12 o s)
/-- Atomic kind 13: maximumNumber (R236). -/
def execAtomFmaxF32 (o : AtOp) (s : State) : Out := .next (atomicOp (.atomFmaxF32 o) 13 o s)
/-- Atomic kind 14: minimumNumber (R236). -/
def execAtomFminF32 (o : AtOp) (s : State) : Out := .next (atomicOp (.atomFminF32 o) 14 o s)
/-- Atomic kind 15: increment with wrap at v (R236). -/
def execAtomIncw (o : AtOp) (s : State) : Out := .next (atomicOp (.atomIncw o) 15 o s)

end Sys2Proof.Machine
end

