-- ==== Sys2Proof/Decode.lean ====
section
/-!
DEFINITION. The decoder of 10_encoding R174 to R195, total on any bytes, and the encoder written from the same maps: formats and
fields R178 to R188, opcode maps R190 to R193, lengths R175, fates of words that are no instruction R195.
-/
namespace Sys2Proof

/-- Why words are no instruction (R195), by the subcause of the encoding fault. -/
inductive DecodeError where
  /-- SUB 1: reserved opcode, value, pair or quad -/
  | reservedValue
  /-- SUB 2: nonzero must-be-zero or unused field -/
  | mustBeZero
  /-- SUB 3: PX rule broken -/
  | pxRule
  /-- SUB 5: pipe not valid -/
  | invalidPipe
  /-- fewer words than the instruction has (SUB 4, R175) -/
  | truncated
  deriving DecidableEq, Repr

/-- SUB of the encoding fault (R195). -/
def DecodeError.sub : DecodeError → Nat
  | .reservedValue => 1
  | .mustBeZero => 2
  | .pxRule => 3
  | .truncated => 4
  | .invalidPipe => 5

/-- What stands in the fields of one instruction, before the checks: `bad` and `mbz` for what the constructor cannot hold. -/
structure Raw where
  i : Instr
  bad : Bool := false
  mbz : Bool := false
  deriving DecidableEq, Repr

/-- The field [hi:lo] as a bit vector (R4). -/
def fld (n w hi lo : Nat) : BitVec n := BitVec.ofNat n (fieldN w hi lo)

/-- Bit k of a word. -/
def flag (w k : Nat) : Bool := decide (fieldN w k k = 1)

/-- A source operand byte at bit lo (R179). -/
def srcAt (w lo : Nat) : Src := ⟨fld 6 w (lo + 7) (lo + 2), flag w (lo + 1), flag w lo⟩

/-- Is the field nonzero? -/
def nz (w hi lo : Nat) : Bool := decide (fieldN w hi lo ≠ 0)

/-- The pipe of bit 31 (R178). -/
def pipeOf (w : Nat) : Pipe := if fieldN w 31 31 = 1 then .unif else .lane

/-- The fields of a PX word (R188). -/
def pxOf (w : Nat) : Px :=
  { mneg := flag w 27, mpred := fld 3 w 26 24, zero := flag w 23, rnd := fld 3 w 22 20
    c := if fieldN w 11 11 = 1 then some (srcAt w 12) else none
    scope := fld 2 w 10 9, sat := flag w 8, na := flag w 7, nb := flag w 6, nc := flag w 5 }

/-- Nonzero must-be-zero bits of a PX word: [31], [4:0], and C without CV (R188). -/
def pxMbz (w : Nat) : Bool := nz w 31 31 || nz w 4 0 || (decide (fieldN w 11 11 = 0) && nz w 19 12)

/-- Is C of a PX word nonzero, with CV or without it (R189)? -/
def pxCset (w : Nat) : Bool := nz w 19 12

/-- RR format (R180, R190). -/
def rawRR (px : Option Px) (w : Nat) : Option Raw :=
  let p := pipeOf w
  let o : RR := ⟨p, px, fld 6 w 21 16, srcAt w 8, srcAt w 0⟩
  let u : R1 := ⟨p, px, fld 6 w 21 16, srcAt w 8⟩
  let c : Cmp := ⟨p, px, fld 3 w 21 19, fld 3 w 18 16, srcAt w 8, srcAt w 0⟩
  let v : CvtOp := ⟨p, px, fld 6 w 21 16, srcAt w 8, fld 4 w 7 4, fld 4 w 3 0⟩
  let z := nz w 7 0
  match fieldN w 27 22 with
  | 0 => some { i := .add o }
  | 1 => some { i := .sub o }
  | 2 => some { i := .mul o }
  | 3 => some { i := .mulhiI32 o }
  | 4 => some { i := .mulhiN32 o }
  | 5 => some { i := .minI32 o }
  | 6 => some { i := .maxI32 o }
  | 7 => some { i := .minN32 o }
  | 8 => some { i := .maxN32 o }
  | 9 => some { i := .and o }
  | 10 => some { i := .or o }
  | 11 => some { i := .xor o }
  | 12 => some { i := .andn o }
  | 13 => some { i := .shl o }
  | 14 => some { i := .shr o }
  | 15 => some { i := .sar o }
  | 16 => some { i := .rotl o }
  | 17 => some { i := .bfeN32 o }
  | 18 => some { i := .bfeI32 o }
  | 19 => some { i := .bfi o }
  | 20 => some { i := .addB64 o }
  | 21 => some { i := .subB64 o }
  | 22 => some { i := .lea o }
  | 23 => some { i := .lea4 o }
  | 24 => some { i := .mulWideI32 o }
  | 25 => some { i := .mulWideN32 o }
  | 26 => some { i := .mad o }
  | 27 => some { i := .clz u, mbz := z }
  | 28 => some { i := .popc u, mbz := z }
  | 29 => some { i := .brev u, mbz := z }
  | 30 => some { i := .mov u, mbz := z }
  | 31 => some { i := .icmpI32 c }
  | 32 => some { i := .icmpN32 c }
  | 33 => some { i := .fcmpF32 c }
  | 34 => some { i := .faddF32 o }
  | 35 => some { i := .fsubF32 o }
  | 36 => some { i := .fmulF32 o }
  | 37 => some { i := .ffmaF32 o }
  | 38 => some { i := .fminF32 o }
  | 39 => some { i := .fmaxF32 o }
  | 40 => some { i := .frcp u, mbz := z }
  | 41 => some { i := .frsq u, mbz := z }
  | 42 => some { i := .fsqrt u, mbz := z }
  | 43 => some { i := .fex2 u, mbz := z }
  | 44 => some { i := .flg2 u, mbz := z }
  | 45 => some { i := .fsin u, mbz := z }
  | 46 => some { i := .fcos u, mbz := z }
  | 47 => some { i := .ftanh u, mbz := z }
  | 48 => some { i := .ftbl u, mbz := z }
  | 49 => some { i := .scacc o }
  | 50 => some { i := .cvt v }
  | 51 => some { i := .pkBf2 o }
  | 52 => some { i := .pkH2 o }
  | 53 => some { i := .pk8loE4m3 o }
  | 54 => some { i := .pk8hiE4m3 o }
  | 55 => some { i := .pk8loE5m2 o }
  | 56 => some { i := .pk8hiE5m2 o }
  | 57 => some { i := .haddBf2 o }
  | 58 => some { i := .hmulBf2 o }
  | 59 => some { i := .hfmaBf2 o }
  | 60 => some { i := .haddH2 o }
  | 61 => some { i := .hmulH2 o }
  | 62 => some { i := .hfmaH2 o }
  | 63 => some { i := .fdivF32 o }
  | _ => none

/-- RI format (R180, R191). -/
def rawRI (px : Option Px) (w : Nat) : Option Raw :=
  let p := pipeOf w
  let o : RI := ⟨p, px, fld 6 w 22 17, srcAt w 9, fld 9 w 8 0⟩
  let n : ShI := ⟨p, px, fld 6 w 22 17, srcAt w 9, fld 5 w 4 0⟩
  let c : CmpI := ⟨p, px, fld 3 w 22 20, fld 3 w 19 17, srcAt w 9, fld 9 w 8 0⟩
  let b : BfI := ⟨p, px, fld 6 w 22 17, srcAt w 9, fld 4 w 8 5, fld 5 w 4 0⟩
  let k : PassI := ⟨px, fld 6 w 22 17, srcAt w 9, fld 5 w 4 0⟩
  let f : PassOff := ⟨px, fld 6 w 22 17, srcAt w 9, fld 6 w 5 0⟩
  match fieldN w 27 23 with
  | 0 => some { i := .addi o }
  | 1 => some { i := .muli o }
  | 2 => some { i := .andi o }
  | 3 => some { i := .ori o }
  | 4 => some { i := .xori o }
  | 5 => some { i := .shli n, mbz := nz w 8 5 }
  | 6 => some { i := .shri n, mbz := nz w 8 5 }
  | 7 => some { i := .sari n, mbz := nz w 8 5 }
  | 8 => some { i := .rotli n, mbz := nz w 8 5 }
  | 9 => some { i := .miniI32 o }
  | 10 => some { i := .maxiI32 o }
  | 11 => some { i := .miniN32 o }
  | 12 => some { i := .maxiN32 o }
  | 13 => some { i := .icmpiI32 c }
  | 14 => some { i := .icmpiN32 c }
  | 15 => some { i := .leai o }
  | 16 => some { i := .bfeiN32 b }
  | 17 => some { i := .bfeiI32 b }
  | 18 => some { i := .passiAt k, mbz := nz w 8 5 }
  | 19 => some { i := .passiOff f, mbz := nz w 8 6 }
  | 20 => some { i := .passiFlip k, mbz := nz w 8 5 }
  | 21 => some { i := .passiRot k, mbz := nz w 8 5 }
  | _ => none

/-- LS format (R182). -/
def rawLS (px : Option Px) (w : Nat) : Option Raw :=
  let p := pipeOf w
  let sp := flag w 26
  let size : BitVec 3 := fld 3 w 25 23
  let a := srcAt w 7
  let off : BitVec 7 := fld 7 w 6 0
  if fieldN w 27 27 = 1 then some { i := .st ⟨p, px, sp, size, srcAt w 15, a, off⟩ }
  else if fieldN w 25 23 = 7 then some { i := .pf ⟨p, px, a, off⟩, bad := sp, mbz := nz w 22 15 }
  else some { i := .ld ⟨p, px, sp, size, fld 6 w 22 17, a, off⟩, mbz := nz w 16 15 }

/-- AT format (R183). -/
def rawAT (px : Option Px) (w : Nat) : Option Raw :=
  let o : AtOp := ⟨px, flag w 23, fld 6 w 22 17, srcAt w 9, srcAt w 1, flag w 0⟩
  match fieldN w 27 24 with
  | 0 => some { i := .atomAdd o }
  | 1 => some { i := .atomMinI32 o }
  | 2 => some { i := .atomMaxI32 o }
  | 3 => some { i := .atomMinN32 o }
  | 4 => some { i := .atomMaxN32 o }
  | 5 => some { i := .atomAnd o }
  | 6 => some { i := .atomOr o }
  | 7 => some { i := .atomXor o }
  | 8 => some { i := .atomXchg o }
  | 9 => some { i := .atomCas o }
  | 10 => some { i := .atomAddB64 o }
  | 11 => some { i := .atomFaddF32 o }
  | 12 => some { i := .atomFaddBf2 o }
  | 13 => some { i := .atomFmaxF32 o }
  | 14 => some { i := .atomFminF32 o }
  | 15 => some { i := .atomIncw o }
  | _ => none

/-- BR format (R184). -/
def rawBR (w : Nat) : Option Raw :=
  let o : BrOp := ⟨flag w 24, fld 3 w 23 21, fld 16 w 20 5, fld 5 w 4 0⟩
  match fieldN w 27 25 with
  | 0 => some { i := .br o }
  | 1 => some { i := .call o }
  | 2 => some { i := .spawn o }
  | _ => none

/-- SY format (R185, R192); w1 and w2 are the later words of `safe`. -/
def rawSY (px : Option Px) (w w1 w2 : Nat) : Option Raw :=
  let p := pipeOf w
  let d : RegNo := fld 6 w 21 16
  let a := srcAt w 8
  let b := srcAt w 0
  let zd := nz w 21 16
  let za := nz w 15 8
  let zb := nz w 7 0
  let zz := nz w 21 0
  match fieldN w 27 22 with
  | 0x00 => some { i := .nop p px, mbz := zz }
  | 0x01 => some { i := .exit px, mbz := zz }
  | 0x02 => some { i := .join ⟨px, d, a, b⟩ }
  | 0x03 => some { i := .leave px, mbz := zz }
  | 0x04 => some { i := .regroup ⟨px, d, a⟩, mbz := zb }
  | 0x05 => some { i := .fuse (fld 16 w 15 0), mbz := zd }
  | 0x06 => some { i := .yield (fld 16 w 15 0), mbz := zd }
  | 0x07 => some { i := .safe (fld 16 w 21 6) (fld 6 w 5 0) (BitVec.ofNat 32 w1) (BitVec.ofNat 32 w2) }
  | 0x08 => some { i := .bar (fld 2 w 21 20) (fld 2 w 17 16), mbz := nz w 19 18 || nz w 15 0 }
  | 0x09 => some { i := .poll px d (fld 3 w 15 13) (flag w 12) (fld 3 w 11 9), mbz := nz w 8 0 }
  | 0x0A => some { i := .sred px d a (fld 4 w 3 0), bad := flag w 7, mbz := nz w 6 4 }
  | 0x0B => some { i := .sscan px d a (flag w 7) (fld 4 w 3 0), mbz := nz w 6 4 }
  | 0x0C => some { i := .alike px d a (flag w 0), mbz := nz w 7 1 }
  | 0x0D => some { i := .passAt ⟨px, d, a, b⟩ }
  | 0x0E => some { i := .passOff ⟨px, d, a, b⟩ }
  | 0x0F => some { i := .passFlip ⟨px, d, a, b⟩ }
  | 0x10 => some { i := .passRot ⟨px, d, a, b⟩ }
  | 0x11 => some { i := .abarInit ⟨p, px, a, b⟩, mbz := zd }
  | 0x12 => some { i := .abarArrive p px a, mbz := zd || zb }
  | 0x13 => some { i := .abarDue ⟨p, px, a, b⟩, mbz := zd }
  | 0x14 => some { i := .abarWait ⟨p, px, a, b⟩, mbz := zd }
  | 0x15 => some { i := .abarTest ⟨p, px, a, b⟩ d }
  | 0x16 => some { i := .fence (fld 3 w 21 19) (fld 3 w 18 16), mbz := nz w 15 0 }
  | 0x17 => some { i := .tfence, mbz := zz }
  | 0x18 => some { i := .rput ⟨p, px, a, b⟩, mbz := zd }
  | 0x19 => some { i := .arm p px d, mbz := za || zb }
  | 0x1A => some { i := .ctrWait ⟨px, a, fld 2 w 1 0⟩, mbz := zd || nz w 7 2 }
  | 0x1B => some { i := .ctrRd p px d (fld 2 w 1 0), mbz := za || nz w 7 2 }
  | 0x1C => some { i := .plop px (fld 3 w 21 19) (fld 3 w 18 16) (fld 3 w 15 13) (fld 3 w 12 10) (fld 8 w 9 2), mbz := nz w 1 0 }
  | 0x1D => if fieldN w 7 7 = 1 then some { i := .pmovWr px a, mbz := zd || nz w 6 0 }
            else some { i := .pmovRd px d, mbz := za || nz w 6 0 }
  | 0x1E => some { i := .csrRd px d (fld 8 w 7 0), mbz := za }
  | 0x1F => some { i := .csrWr px a (fld 8 w 7 0), mbz := zd }
  | 0x20 => some { i := .time p px d, mbz := za || zb }
  | 0x21 => some { i := .evt p px a (fld 8 w 7 0), mbz := zd }
  | 0x22 => some { i := .trap px (fld 16 w 15 0), mbz := zd }
  | 0x23 => some { i := .brk px, mbz := zz }
  | 0x24 => some { i := .brx ⟨px, a⟩, mbz := zd || zb }
  | 0x25 => some { i := .callx ⟨px, a⟩, mbz := zd || zb }
  | 0x26 => some { i := .nap px (fld 3 w 21 19) (flag w 18) a b, mbz := nz w 17 16 }
  | 0x27 => some { i := .wpw px a (fld 4 w 3 0), mbz := zd || nz w 7 4 }
  | 0x28 => some { i := .shape ⟨px, d, a⟩, mbz := zb }
  | 0x29 => some { i := .expand ⟨px, d⟩, mbz := za || zb }
  | 0x2A => some { i := .bcast ⟨px, d, a⟩, mbz := zb }
  | 0x2B => some { i := .iota ⟨px, d, a, b⟩ }
  | 0x2C => if fieldN w 0 0 = 1 then some { i := .fragResumeSkip px a, mbz := zd || nz w 7 1 }
            else some { i := .fragResume px a, mbz := zd || nz w 7 1 }
  | 0x2D => some { i := .fragKill px a, mbz := zd || zb }
  | 0x2E => some { i := .fragInfo px d a (fld 3 w 2 0) (fld 5 w 7 3) }
  | 0x2F => some { i := .fragStep px a, mbz := zd || zb }
  | _ => none

/-- Tile group of EX (R186). -/
def rawTile (px : Option Px) (w : Nat) : Option Raw :=
  let p := pipeOf w
  let t : TileNo := fld 4 w 19 16
  let x := srcAt w 8
  let zx := nz w 15 8
  let zs := nz w 7 4
  let zw := nz w 3 0
  match fieldN w 23 20 with
  | 0 => some { i := .tzero p px t, mbz := zx || zs || zw }
  | 1 => some { i := .tld p px t x, mbz := zs || zw }
  | 2 => some { i := .tst p px t x, mbz := zs || zw }
  | 3 => some { i := .tmovin px t x (fld 2 w 1 0), bad := nz w 3 2, mbz := zs }
  | 4 => some { i := .tmovout px t (fld 6 w 15 10) (fld 2 w 1 0), bad := nz w 3 2, mbz := zs || nz w 9 8 }
  | 5 => some { i := .tcvt p px t (fld 4 w 15 12) (fld 4 w 11 8) (fld 4 w 7 4), mbz := zw }
  | 6 => some { i := .mscl p px t x (fld 4 w 7 4), mbz := zw }
  | _ => none

/-- Copy group of EX (R186, R271). -/
def rawCopy (px : Option Px) (w : Nat) : Option Raw :=
  let p := pipeOf w
  let ch : BitVec 4 := fld 4 w 19 16
  let d : RegNo := fld 6 w 15 10
  match fieldN w 23 20 with
  | 0 => some { i := .copyStart p px ch d (srcAt w 2), mbz := nz w 1 0 }
  | 1 => some { i := .copyCancel p px ch, mbz := nz w 15 0 }
  | 2 => some { i := .copyWpr p px ch d, mbz := nz w 9 0 }
  | _ => none

/-- EX format (R186, R187, R193); w1 is the second word. -/
def rawEX (px : Option Px) (w w1 : Nat) : Option Raw :=
  let p := pipeOf w
  let mw : MatWord := ⟨fld 4 w 23 20, fld 8 w 19 12, fld 8 w 11 4, fld 4 w 3 0⟩
  match fieldN w 27 24 with
  | 0 => some { i := .li ⟨p, px, fld 6 w 23 18, fld 18 w 17 0⟩ }
  | 1 => some { i := .liw ⟨p, px, fld 6 w 23 18, BitVec.ofNat 32 w1⟩, mbz := nz w 17 0 }
  | 2 => some { i := .mma p px mw ⟨fld 2 w1 31 30, fld 2 w1 29 28, flag w1 27, flag w1 26, flag w1 25, flag w1 24, flag w1 23,
                  fld 3 w1 22 20⟩, mbz := nz w1 19 0 }
  | 3 => some { i := .mloop px mw ⟨fld 12 w1 31 20, fld 8 w1 19 12, fld 8 w1 11 4, flag w1 3, flag w1 2, flag w1 1⟩, mbz := nz w1 0 0 }
  | 4 => some { i := .mjoin mw ⟨fld 2 w1 31 30, fld 2 w1 29 28, fld 8 w1 27 20, flag w1 3, flag w1 2, flag w1 1⟩,
                mbz := nz w1 19 4 || nz w1 0 0 }
  | 5 => some { i := .mwait p px (fld 4 w 23 20), mbz := nz w 19 0 }
  | 6 => rawTile px w
  | 7 => rawCopy px w
  | 8 => some { i := .ldsp ⟨px, fld 2 w 23 22, srcAt w 14, srcAt w 6, srcAt w1 24⟩, mbz := nz w 5 0 || nz w1 23 0 }
  | 9 =>
    match fieldN w 23 20 with
    | 0 => some { i := .collStart p px (srcAt w 6), mbz := nz w 19 14 || nz w 5 0 }
    | 1 => some { i := .collQuery p px (fld 6 w 19 14) (srcAt w 6), mbz := nz w 5 0 }
    | _ => none
  | 10 => some { i := .stn ⟨p, px, fld 2 w 23 22, srcAt w 14, srcAt w 6, srcAt w1 24⟩, mbz := nz w 5 0 || nz w1 23 0 }
  | 11 => some { i := .gath p px (srcAt w 16), mbz := nz w 15 0 }
  | 12 =>
    match fieldN w 23 20 with
    | 0 => some { i := .tblLd p px (srcAt w 12), mbz := nz w 11 0 }
    | 1 => some { i := .tblSel p px (srcAt w 12), mbz := nz w 11 0 }
    | _ => none
  | _ => none

/-- The fields of the instruction whose first word (after a PX word) is w; none: a reserved opcode or sub-op. -/
def raw (px : Option Px) (w w1 w2 : Nat) : Option Raw :=
  match fieldN w 30 28 with
  | 0 => rawRR px w
  | 1 => rawRI px w
  | 2 => rawLS px w
  | 3 => rawAT px w
  | 4 => rawBR w
  | 5 => rawSY px w w1 w2
  | 7 => rawEX px w w1
  | _ => none

/-- Words of an instruction without its PX word (R175). -/
def baseLen (w : Nat) : Nat :=
  if fieldN w 30 28 = 5 ∧ fieldN w 27 22 = 7 then 3
  else if fieldN w 30 28 = 7 ∧ [1, 2, 3, 4, 8, 10].contains (fieldN w 27 24) then 2 else 1

/-- A reserved opcode: a PX word before BR is SUB 3 (R184), P = 1 where no opcode of the format has it is SUB 5, else SUB 1. -/
def judgeNone (px : Option Px) (w : Nat) : DecodeError :=
  let f := fieldN w 30 28
  if px.isSome && f == 4 then .pxRule
  else if (f == 1 || f == 4 || f == 5) && decide (fieldN w 31 31 = 1) then .invalidPipe
  else .reservedValue

/-- The order of the checks (R195): PX rule, pipe, reserved values, fields that must be zero. `pw` is the prefix word, or 0. -/
def judge (px : Option Px) (pw : Nat) (p : Pipe) (r : Raw) : Except DecodeError Instr :=
  let f := form r.i
  if !pxOk f.takes f.acc px || (pxCset pw && !f.acc.c) then .error .pxRule
  else if !pipeOk f p then .error .invalidPipe
  else if r.bad || f.bad || pxBad px then .error .reservedValue
  else if r.mbz || f.mbz || pxMbz pw then .error .mustBeZero
  else .ok r.i

/-- Decode the words after an optional PX word: the instruction and how many of them it has. -/
def decodeBase (px : Option Px) (pw : Nat) (w : Word) (rest : List Word) : Except DecodeError (Instr × Nat) :=
  let n := w.toNat
  if rest.length + 1 < baseLen n then .error .truncated
  else
    match raw px n (rest.getD 0 0).toNat (rest.getD 1 0).toNat with
    | none => .error (judgeNone px n)
    | some r =>
      match judge px pw (pipeOf n) r with
      | .error e => .error e
      | .ok i => .ok (i, baseLen n)

/-- Decode the words at a PC (R175, R188, R195): the instruction and its length in words, PX word counted. -/
def decode : List Word → Except DecodeError (Instr × Nat)
  | [] => .error .truncated
  | w :: rest =>
    if fieldN w.toNat 30 28 = 6 then
      match rest with
      | [] => .error .truncated
      | v :: more =>
        if fieldN v.toNat 30 28 = 6 then .error .pxRule
        else
          match decodeBase (some (pxOf w.toNat)) w.toNat v more with
          | .error e => .error e
          | .ok (i, k) => .ok (i, k + 1)
    else decodeBase none 0 w rest

/-- Length in words of the instruction at a PC, PX word counted (R175), for the start-mask check. -/
def lengthOf : List Word → Nat
  | [] => 1
  | w :: rest =>
    if fieldN w.toNat 30 28 = 6 then
      match rest with
      | [] => 2
      | v :: _ => if fieldN v.toNat 30 28 = 6 then 2 else baseLen v.toNat + 1
    else baseLen w.toNat

/-- The little-endian words of a run of bytes (R4, R174). -/
def wordsOf : List Byte → List Word
  | a :: b :: c :: d :: rest => (d ++ c ++ b ++ a : BitVec 32) :: wordsOf rest
  | _ => []

/-- The bytes of a word, lowest address first (R4). -/
def wordBytes (w : Word) : List Byte :=
  [w.extractLsb' 0 8, w.extractLsb' 8 8, w.extractLsb' 16 8, w.extractLsb' 24 8]

/-- Decode from bytes as the memory holds them. -/
def decodeBytes (bs : List Byte) : Except DecodeError (Instr × Nat) := decode (wordsOf bs)

/-- Longest instruction: `safe`, three words (R175); a PX word before a two-word instruction also makes three. -/
def maxWords : Nat := 3

/-- The words of an instruction numbered as the opcode table numbers bits: the first word is the lowest. -/
def tableWords (nbits w : Nat) : List Word :=
  (List.range maxWords).map fun k => BitVec.ofNat 32 (w % 2 ^ nbits / 2 ^ (32 * k))

/-- What the decoder reads from an instruction whose bits are w (nbits of them; the rest 0). -/
def decodeTableWord (nbits w : Nat) : Option Instr :=
  match decodeBytes ((tableWords nbits w).flatMap wordBytes) with
  | .ok (i, _) => some i
  | .error _ => none

/-- Bit 31 (R178). -/
def encPipe (p : Pipe) : Nat :=
  match p with
  | .lane => 0
  | .unif => 2 ^ 31
/-- A source operand byte (R179). -/
def encSrc (s : Src) : Nat := s.reg.toNat * 4 + s.last.toNat * 2 + s.etrap.toNat
/-- A word from its fields. -/
def wd (n : Nat) : Word := BitVec.ofNat 32 n

/-- A PX word (R188). -/
def encPx (x : Px) : Word :=
  wd (6 * 2 ^ 28 + x.mneg.toNat * 2 ^ 27 + x.mpred.toNat * 2 ^ 24 + x.zero.toNat * 2 ^ 23 + x.rnd.toNat * 2 ^ 20
    + (match x.c with
       | none => 0
       | some c => encSrc c * 2 ^ 12 + 2 ^ 11)
    + x.scope.toNat * 2 ^ 9 + x.sat.toNat * 2 ^ 8 + x.na.toNat * 2 ^ 7 + x.nb.toNat * 2 ^ 6 + x.nc.toNat * 2 ^ 5)

/-- RR words (R180). -/
def encRR (op : Nat) (o : RR) : List Word :=
  [wd (encPipe o.p + op * 2 ^ 22 + o.d.toNat * 2 ^ 16 + encSrc o.a * 2 ^ 8 + encSrc o.b)]
/-- RR words of one source (R190). -/
def encR1 (op : Nat) (o : R1) : List Word :=
  [wd (encPipe o.p + op * 2 ^ 22 + o.d.toNat * 2 ^ 16 + encSrc o.a * 2 ^ 8)]
/-- RR words of a compare (R180). -/
def encCmp (op : Nat) (o : Cmp) : List Word :=
  [wd (encPipe o.p + op * 2 ^ 22 + o.pd.toNat * 2 ^ 19 + o.cond.toNat * 2 ^ 16 + encSrc o.a * 2 ^ 8 + encSrc o.b)]
/-- RI words from the low nine bits (R180). -/
def encRI (p : Pipe) (op : Nat) (d : RegNo) (a : Src) (low : Nat) : List Word :=
  [wd (encPipe p + 2 ^ 28 + op * 2 ^ 23 + d.toNat * 2 ^ 17 + encSrc a * 2 ^ 9 + low)]
/-- RI words of a compare (R180). -/
def encCmpI (op : Nat) (o : CmpI) : List Word :=
  [wd (encPipe o.p + 2 ^ 28 + op * 2 ^ 23 + o.pd.toNat * 2 ^ 20 + o.cond.toNat * 2 ^ 17 + encSrc o.a * 2 ^ 9 + o.imm.toNat)]
/-- AT words (R183). -/
def encAT (kind : Nat) (o : AtOp) : List Word :=
  [wd (3 * 2 ^ 28 + kind * 2 ^ 24 + o.sp.toNat * 2 ^ 23 + o.d.toNat * 2 ^ 17 + encSrc o.v * 2 ^ 9 + encSrc o.a * 2 + o.ret.toNat)]
/-- BR words (R184). -/
def encBR (op3 : Nat) (o : BrOp) : List Word :=
  [wd (4 * 2 ^ 28 + op3 * 2 ^ 25 + o.neg.toNat * 2 ^ 24 + o.pred.toNat * 2 ^ 21 + o.delta.toNat * 2 ^ 5 + o.word.toNat)]
/-- SY words from pipe, opcode and the three fields of the R layout (R185). -/
def encSY (p : Pipe) (op d a b : Nat) : List Word := [wd (encPipe p + 5 * 2 ^ 28 + op * 2 ^ 22 + d * 2 ^ 16 + a * 2 ^ 8 + b)]
/-- EX word 0 from pipe, opcode and the low 24 bits (R186). -/
def encEX (p : Pipe) (op low : Nat) : Word := wd (encPipe p + 7 * 2 ^ 28 + op * 2 ^ 24 + low)
/-- Low bits of word 0 of a matrix issue (R186). -/
def encMat (m : MatWord) : Nat := m.acc.toNat * 2 ^ 20 + m.a.toNat * 2 ^ 12 + m.b.toNat * 2 ^ 4 + m.pair.toNat

/-- The words of an instruction without its PX word. Events have none. -/
def encodeBase : Instr → List Word
  | .fuseHoldExpiry _ _ _ | .joinBinTimerExpiry _ _ | .spawnBinTimerExpiry _ _ | .plotAdmission _ _ | .plotRetire _ _ 
  | .loadDataReturn _ | .fallowRefill _ _ _ | .mgmtRegisterRead _ _ _ | .debuggerRegisterWrite _ _ _ _ 
  | .depositPerform _ | .icacheLineFill _ _ | .dirtyLineDrain _ | .homeStorePerform _ | .homeLoadService _ _ 
  | .atomicRequestPerform _ | .atomicAck _ | .ldspWrite _ | .stnCompletion _ | .fabricResponseTimeout _ 
  | .fenceComplete _ _ | .napWordRecheck _ _ | .matrixStepComplete _ | .tileOpComplete _ _ | .tableLoadCommit _ _ 
  | .copyCommandAccept _ _ | .copyChunkDelivery _ _ | .gatherElement _ _ | .collUnitStart _ 
  | .collChunkReceived _ _ _ _ | .collStepEnd _ | .collOperationComplete _ | .collWatchdogExpiry _ 
  | .handlerDelivery _ _ | .stopRequest _ _ | .plotSave _ _ | .plotRestore _ _ | .hostWindow2Write _ _ 
  | .hostWindow2Read _ _ | .registerWrite _ _ _ | .tailWrite _ _ | .queueEnable _ _ | .residencyRequest _ 
  | .queueRecordAccept _ | .runEnd _ | .nodeDispatch _ _ | .nodeComplete _ _ | .condRead _ _ | .plotStage _ _ _ 
  | .pageWalkComplete _ _ | .pageService _ _ | .packetForward _ _ _ _ _ _ _ | .remoteRequestArrival _ _ _ _ _ _ _ 
  | .linkTrainingComplete _ _ _ _ | .linkPartnerReset _ | .flitGroupTransmit _ | .flitGroupReceive _ _ _ 
  | .powerLimitWindow _ _ | .voltageDroop _ | .thermalThrottle _ | .timeExchange _ _ _ _ | .fleetTimeSync _ 
  | .recordWrite _ | .residencyReturn _ | .debuggerAttach _ _ _ | .issueCycle | .threadOverdue | .yieldExpiry 
  | .leaseExpiry | .stopFallbackExpiry | .erheadWrite | .firmwareEventDispatch | .firmwareRetention | .ginvWrite 
  | .pageVerdict | .tlbInvalidate | .tlbInvalidateComplete | .migrationStart | .migrationDrained | .migrationCopyDone 
  | .saveSetImport | .frozenKill | .frozenResume | .coldReset | .warmReset | .routeTableLoad | .routeLoadComplete 
  | .routeBankSelect | .packetWaitTimeout | .getcert | .getnonce | .unlock | .attest | .extend | .tkey | .lkey 
  | .lifecycle | .recover | .powerOn | .railGoodTimeout | .thermalTrip | .timeBoundGrowth | .quotaWrite 
  | .granaryReadout | .granaryReadoutComplete | .waitforSnapshot | .profileHostStart | .profileHostStop 
  | .profileSummaryInterval | .detailSelectWrite | .prheadWrite | .powerLoss => []
  | .add o => encRR 0 o
  | .sub o => encRR 1 o
  | .mul o => encRR 2 o
  | .mulhiI32 o => encRR 3 o
  | .mulhiN32 o => encRR 4 o
  | .minI32 o => encRR 5 o
  | .maxI32 o => encRR 6 o
  | .minN32 o => encRR 7 o
  | .maxN32 o => encRR 8 o
  | .and o => encRR 9 o
  | .or o => encRR 10 o
  | .xor o => encRR 11 o
  | .andn o => encRR 12 o
  | .shl o => encRR 13 o
  | .shr o => encRR 14 o
  | .sar o => encRR 15 o
  | .rotl o => encRR 16 o
  | .bfeN32 o => encRR 17 o
  | .bfeI32 o => encRR 18 o
  | .bfi o => encRR 19 o
  | .addB64 o => encRR 20 o
  | .subB64 o => encRR 21 o
  | .lea o => encRR 22 o
  | .lea4 o => encRR 23 o
  | .mulWideI32 o => encRR 24 o
  | .mulWideN32 o => encRR 25 o
  | .mad o => encRR 26 o
  | .clz o => encR1 27 o
  | .popc o => encR1 28 o
  | .brev o => encR1 29 o
  | .mov o => encR1 30 o
  | .icmpI32 o => encCmp 31 o
  | .icmpN32 o => encCmp 32 o
  | .addi o => encRI o.p 0 o.d o.a o.imm.toNat
  | .muli o => encRI o.p 1 o.d o.a o.imm.toNat
  | .andi o => encRI o.p 2 o.d o.a o.imm.toNat
  | .ori o => encRI o.p 3 o.d o.a o.imm.toNat
  | .xori o => encRI o.p 4 o.d o.a o.imm.toNat
  | .shli o => encRI o.p 5 o.d o.a o.n.toNat
  | .shri o => encRI o.p 6 o.d o.a o.n.toNat
  | .sari o => encRI o.p 7 o.d o.a o.n.toNat
  | .rotli o => encRI o.p 8 o.d o.a o.n.toNat
  | .miniI32 o => encRI o.p 9 o.d o.a o.imm.toNat
  | .maxiI32 o => encRI o.p 10 o.d o.a o.imm.toNat
  | .miniN32 o => encRI o.p 11 o.d o.a o.imm.toNat
  | .maxiN32 o => encRI o.p 12 o.d o.a o.imm.toNat
  | .icmpiI32 o => encCmpI 13 o
  | .icmpiN32 o => encCmpI 14 o
  | .leai o => encRI o.p 15 o.d o.a o.imm.toNat
  | .bfeiN32 o => encRI o.p 16 o.d o.a (o.lenM1.toNat * 2 ^ 5 + o.pos.toNat)
  | .bfeiI32 o => encRI o.p 17 o.d o.a (o.lenM1.toNat * 2 ^ 5 + o.pos.toNat)
  | .passiAt o => encRI .lane 18 o.d o.a o.n.toNat
  | .passiOff o => encRI .lane 19 o.d o.a o.n.toNat
  | .passiFlip o => encRI .lane 20 o.d o.a o.n.toNat
  | .passiRot o => encRI .lane 21 o.d o.a o.n.toNat
  | .li o => [encEX o.p 0 (o.d.toNat * 2 ^ 18 + o.imm.toNat)]
  | .liw o => [encEX o.p 1 (o.d.toNat * 2 ^ 18), o.imm]
  | .fcmpF32 o => encCmp 33 o
  | .faddF32 o => encRR 34 o
  | .fsubF32 o => encRR 35 o
  | .fmulF32 o => encRR 36 o
  | .ffmaF32 o => encRR 37 o
  | .fminF32 o => encRR 38 o
  | .fmaxF32 o => encRR 39 o
  | .frcp o => encR1 40 o
  | .frsq o => encR1 41 o
  | .fsqrt o => encR1 42 o
  | .fex2 o => encR1 43 o
  | .flg2 o => encR1 44 o
  | .fsin o => encR1 45 o
  | .fcos o => encR1 46 o
  | .ftanh o => encR1 47 o
  | .ftbl o => encR1 48 o
  | .scacc o => encRR 49 o
  | .cvt o => [wd (encPipe o.p + 50 * 2 ^ 22 + o.d.toNat * 2 ^ 16 + encSrc o.a * 2 ^ 8 + o.dst.toNat * 2 ^ 4 + o.src.toNat)]
  | .pkBf2 o => encRR 51 o
  | .pkH2 o => encRR 52 o
  | .pk8loE4m3 o => encRR 53 o
  | .pk8hiE4m3 o => encRR 54 o
  | .pk8loE5m2 o => encRR 55 o
  | .pk8hiE5m2 o => encRR 56 o
  | .haddBf2 o => encRR 57 o
  | .hmulBf2 o => encRR 58 o
  | .hfmaBf2 o => encRR 59 o
  | .haddH2 o => encRR 60 o
  | .hmulH2 o => encRR 61 o
  | .hfmaH2 o => encRR 62 o
  | .fdivF32 o => encRR 63 o
  | .ld o => [wd (encPipe o.p + 2 * 2 ^ 28 + o.sp.toNat * 2 ^ 26 + o.size.toNat * 2 ^ 23 + o.d.toNat * 2 ^ 17 + encSrc o.a * 2 ^ 7 + o.off.toNat)]
  | .st o => [wd (encPipe o.p + 2 * 2 ^ 28 + 2 ^ 27 + o.sp.toNat * 2 ^ 26 + o.size.toNat * 2 ^ 23 + encSrc o.v * 2 ^ 15 + encSrc o.a * 2 ^ 7 + o.off.toNat)]
  | .pf o => [wd (encPipe o.p + 2 * 2 ^ 28 + 7 * 2 ^ 23 + encSrc o.a * 2 ^ 7 + o.off.toNat)]
  | .atomAdd o => encAT 0 o
  | .atomMinI32 o => encAT 1 o
  | .atomMaxI32 o => encAT 2 o
  | .atomMinN32 o => encAT 3 o
  | .atomMaxN32 o => encAT 4 o
  | .atomAnd o => encAT 5 o
  | .atomOr o => encAT 6 o
  | .atomXor o => encAT 7 o
  | .atomXchg o => encAT 8 o
  | .atomCas o => encAT 9 o
  | .atomAddB64 o => encAT 10 o
  | .atomFaddF32 o => encAT 11 o
  | .atomFaddBf2 o => encAT 12 o
  | .atomFmaxF32 o => encAT 13 o
  | .atomFminF32 o => encAT 14 o
  | .atomIncw o => encAT 15 o
  | .ldsp o => [encEX .lane 8 (o.size.toNat * 2 ^ 22 + encSrc o.g * 2 ^ 14 + encSrc o.s * 2 ^ 6), wd (encSrc o.obj * 2 ^ 24)]
  | .br o => encBR 0 o
  | .call o => encBR 1 o
  | .spawn o => encBR 2 o
  | .brx o => encSY .lane 0x24 0 (encSrc o.a) 0
  | .callx o => encSY .lane 0x25 0 (encSrc o.a) 0
  | .nop p _ => encSY p 0x0 0 0 0
  | .exit _ => encSY .lane 0x1 0 0 0
  | .join o => encSY .lane 0x2 o.d.toNat (encSrc o.a) (encSrc o.b)
  | .leave _ => encSY .lane 0x3 0 0 0
  | .regroup o => encSY .lane 0x4 o.d.toNat (encSrc o.a) 0
  | .fuse n => [wd (5 * 2 ^ 28 + 5 * 2 ^ 22 + n.toNat)]
  | .yield n => [wd (5 * 2 ^ 28 + 6 * 2 ^ 22 + n.toNat)]
  | .safe t p lo hi => [wd (5 * 2 ^ 28 + 7 * 2 ^ 22 + t.toNat * 2 ^ 6 + p.toNat), lo, hi]
  | .bar m b => [wd (5 * 2 ^ 28 + 8 * 2 ^ 22 + m.toNat * 2 ^ 20 + b.toNat * 2 ^ 16)]
  | .poll _ d fn neg k => [wd (5 * 2 ^ 28 + 9 * 2 ^ 22 + d.toNat * 2 ^ 16 + fn.toNat * 2 ^ 13 + neg.toNat * 2 ^ 12 + k.toNat * 2 ^ 9)]
  | .sred _ d a fn => encSY .lane 0xa d.toNat (encSrc a) fn.toNat
  | .sscan _ d a exc fn => encSY .lane 0xb d.toNat (encSrc a) (exc.toNat * 2 ^ 7 + fn.toNat)
  | .alike _ d a lead => encSY .lane 0xc d.toNat (encSrc a) lead.toNat
  | .passAt o => encSY .lane 0xd o.d.toNat (encSrc o.a) (encSrc o.b)
  | .passOff o => encSY .lane 0xe o.d.toNat (encSrc o.a) (encSrc o.b)
  | .passFlip o => encSY .lane 0xf o.d.toNat (encSrc o.a) (encSrc o.b)
  | .passRot o => encSY .lane 0x10 o.d.toNat (encSrc o.a) (encSrc o.b)
  | .abarInit o => encSY o.p 0x11 0 (encSrc o.a) (encSrc o.b)
  | .abarArrive p _ a => encSY p 0x12 0 (encSrc a) 0
  | .abarDue o => encSY o.p 0x13 0 (encSrc o.a) (encSrc o.b)
  | .abarWait o => encSY o.p 0x14 0 (encSrc o.a) (encSrc o.b)
  | .abarTest o d => encSY o.p 0x15 d.toNat (encSrc o.a) (encSrc o.b)
  | .fence k s => [wd (5 * 2 ^ 28 + 22 * 2 ^ 22 + k.toNat * 2 ^ 19 + s.toNat * 2 ^ 16)]
  | .rput o => encSY o.p 0x18 0 (encSrc o.a) (encSrc o.b)
  | .arm p _ d => encSY p 0x19 d.toNat 0 0
  | .ctrWait o => encSY .lane 0x1a 0 (encSrc o.a) o.c.toNat
  | .ctrRd p _ d c => encSY p 0x1b d.toNat 0 c.toNat
  | .plop _ pd pa pb pc tt => [wd (5 * 2 ^ 28 + 28 * 2 ^ 22 + pd.toNat * 2 ^ 19 + pa.toNat * 2 ^ 16 + pb.toNat * 2 ^ 13 + pc.toNat * 2 ^ 10 + tt.toNat * 2 ^ 2)]
  | .pmovRd _ d => encSY .lane 0x1d d.toNat 0 0
  | .pmovWr _ a => encSY .lane 0x1d 0 (encSrc a) (2 ^ 7)
  | .csrRd _ d n => encSY .lane 0x1e d.toNat 0 n.toNat
  | .csrWr _ a n => encSY .lane 0x1f 0 (encSrc a) n.toNat
  | .time p _ d => encSY p 0x20 d.toNat 0 0
  | .evt p _ a n => encSY p 0x21 0 (encSrc a) n.toNat
  | .trap _ n => [wd (5 * 2 ^ 28 + 34 * 2 ^ 22 + n.toNat)]
  | .brk _ => encSY .lane 0x23 0 0 0
  | .nap _ cond sp a b => encSY .lane 0x26 (cond.toNat * 8 + sp.toNat * 4) (encSrc a) (encSrc b)
  | .wpw _ a ch => encSY .lane 0x27 0 (encSrc a) ch.toNat
  | .shape o => encSY .lane 0x28 o.d.toNat (encSrc o.a) 0
  | .expand o => encSY .lane 0x29 o.d.toNat 0 0
  | .bcast o => encSY .lane 0x2a o.d.toNat (encSrc o.a) 0
  | .iota o => encSY .lane 0x2b o.d.toNat (encSrc o.a) (encSrc o.b)
  | .fragResume _ a => encSY .lane 0x2c 0 (encSrc a) 0
  | .fragResumeSkip _ a => encSY .lane 0x2c 0 (encSrc a) 1
  | .fragKill _ a => encSY .lane 0x2d 0 (encSrc a) 0
  | .fragInfo _ d a sel n => encSY .lane 0x2e d.toNat (encSrc a) (n.toNat * 8 + sel.toNat)
  | .fragStep _ a => encSY .lane 0x2f 0 (encSrc a) 0
  | .mma p _ m x => [encEX p 2 (encMat m), wd (x.ka.toNat * 2 ^ 30 + x.kb.toNat * 2 ^ 28 + x.ta.toNat * 2 ^ 27 + x.tb.toNat * 2 ^ 26
      + x.chain.toNat * 2 ^ 25 + x.zacc.toNat * 2 ^ 24 + x.sat.toNat * 2 ^ 23 + x.rnd.toNat * 2 ^ 20)]
  | .mloop _ m x => [encEX .unif 3 (encMat m), wd (x.stepsM1.toNat * 2 ^ 20 + x.inca.toNat * 2 ^ 12 + x.incb.toNat * 2 ^ 4
      + x.chain.toNat * 2 ^ 3 + x.zacc.toNat * 2 ^ 2 + x.sat.toNat * 2)]
  | .mjoin m x => [encEX .lane 4 (encMat m), wd (x.part.toNat * 2 ^ 30 + x.countM1.toNat * 2 ^ 28 + x.ident.toNat * 2 ^ 20
      + x.chain.toNat * 2 ^ 3 + x.zacc.toNat * 2 ^ 2 + x.sat.toNat * 2)]
  | .mwait p _ t => [encEX p 5 (t.toNat * 2 ^ 20)]
  | .tzero p _ t => [encEX p 6 (t.toNat * 2 ^ 16)]
  | .tld p _ t x => [encEX p 6 (2 ^ 20 + t.toNat * 2 ^ 16 + encSrc x * 2 ^ 8)]
  | .tst p _ t x => [encEX p 6 (2 * 2 ^ 20 + t.toNat * 2 ^ 16 + encSrc x * 2 ^ 8)]
  | .tmovin _ t x w => [encEX .lane 6 (3 * 2 ^ 20 + t.toNat * 2 ^ 16 + encSrc x * 2 ^ 8 + w.toNat)]
  | .tmovout _ t d w => [encEX .lane 6 (4 * 2 ^ 20 + t.toNat * 2 ^ 16 + d.toNat * 2 ^ 10 + w.toNat)]
  | .tcvt p _ t dst src u => [encEX p 6 (5 * 2 ^ 20 + t.toNat * 2 ^ 16 + dst.toNat * 2 ^ 12 + src.toNat * 2 ^ 8 + u.toNat * 2 ^ 4)]
  | .mscl p _ t x u => [encEX p 6 (6 * 2 ^ 20 + t.toNat * 2 ^ 16 + encSrc x * 2 ^ 8 + u.toNat * 2 ^ 4)]
  | .copyStart p _ ch d a => [encEX p 7 (ch.toNat * 2 ^ 16 + d.toNat * 2 ^ 10 + encSrc a * 2 ^ 2)]
  | .copyCancel p _ ch => [encEX p 7 (2 ^ 20 + ch.toNat * 2 ^ 16)]
  | .copyWpr p _ ch d => [encEX p 7 (2 * 2 ^ 20 + ch.toNat * 2 ^ 16 + d.toNat * 2 ^ 10)]
  | .collStart p _ a => [encEX p 9 (encSrc a * 2 ^ 6)]
  | .collQuery p _ d a => [encEX p 9 (2 ^ 20 + d.toNat * 2 ^ 14 + encSrc a * 2 ^ 6)]
  | .stn o => [encEX o.p 10 (o.size.toNat * 2 ^ 22 + encSrc o.a * 2 ^ 14 + encSrc o.v * 2 ^ 6), wd (encSrc o.obj * 2 ^ 24)]
  | .gath p _ a => [encEX p 11 (encSrc a * 2 ^ 16)]
  | .tblLd p _ a => [encEX p 12 (encSrc a * 2 ^ 12)]
  | .tblSel p _ a => [encEX p 12 (2 ^ 20 + encSrc a * 2 ^ 12)]
  | .tfence => encSY .lane 0x17 0 0 0

/-- The words of an instruction, its PX word first. -/
def encode (i : Instr) : List Word :=
  match (form i).px with
  | none => encodeBase i
  | some x => encPx x :: encodeBase i

/-- Is it an instruction of Soldal, which has words, and not an event? -/
def hasWords (i : Instr) : Bool := !(encodeBase i).isEmpty

end Sys2Proof
end

