-- ==== Sys2Proof/Machine/Fetch.lean ====
section
/-!
DEFINITION. Fetching (R174 to R177, R195): lines of the instruction cache, the checks of a line's header and start mask, decoding what
stands at the PC of an issued drill, and the target of a transfer (R176, R244).
-/
namespace Sys2Proof.Machine
open Sys2Proof

/-- Where the instruction cache of a core holds a line of a context. -/
def iKey (ctx va : Nat) : Nat := ctx * 2 ^ 64 + va / 128 * 128
/-- The copy of the line, while its lease runs (R177, R78); an unlocked device treats the lease of a fabric window's line as expired (R100). -/
def iLine (s : State) (ci ctx va : Nat) : Option Line :=
  (tget (getCore s ci).icache (iKey ctx va)).filter fun l => decide (s.now < l.expiry) && (!l.far || locked s)
/-- The copy that a thread executes: one whose lease runs, or that of the line on which it already is (R177). -/
def heldLine (s : State) (ci : Nat) (th : Thread) : Option Line :=
  let ctx := (getPlot (getCore s ci) th.plot).ctx
  if th.onLine = some (th.pc.toNat / 128) then tget (getCore s ci).icache (iKey ctx th.pc.toNat) else iLine s ci ctx th.pc.toNat
/-- Word k of a line. -/
def lineWord (l : Line) (k : Nat) : Word := BitVec.ofNat 32 (l.data.toNat / 2 ^ (32 * k))
/-- The words of a line from k. -/
def lineWords (l : Line) (k : Nat) : List Word := (List.range (32 - k)).map fun i => lineWord l (k + i)

/-- What a fetch answers. -/
inductive FetchRes where
  | ok (l : Line)
  | fault (sub : Nat)
  | busy
  deriving DecidableEq, Repr

/-- Fetch a line from its home under lease into the instruction cache (R177), where it is after the latency of its level (R302); one of a no-cache page, or of a fabric window while the device is
unlocked, comes without a lease and serves the threads that wait on it (R85, R100). -/
def fetchFor (s : State) (ci ctx va : Nat) : FetchRes × State :=
  match iLine s ci ctx va with
  | some l => (.ok l, s)
  | none =>
    match engTranslate s (some (clusterOf ci)) ctx va false with
    | (.fault sub _, s) => (.fault sub, s)
    | (.busy, s) => (.busy, s)
    | (.ok loc, s) =>
      if pageBusy s loc then (.busy, s)
      else
        let (v, e, s) := match loc with
          | .here pa nc =>
            let a := pa / 128 * 128
            let v := leNat (keyedRead s (ctxKey s ctx) a 128)
            if nc then (v, s.now, s) else let (e, s) := grantLease s a false; (v, e, s)
          | .there _ _ =>
            let (bs, s) := freeBytes s 128
            let (e, s) := freeTime s (Config.leaseMax - Config.leaseMin)
            (leNat bs, if locked s then e + Config.leaseMin else s.now, s)
        let l : Line := { data := BitVec.ofNat 1024 v, valid := BitVec.ofNat 128 (2 ^ 128 - 1), expiry := e, far := isFar loc
                          due := (getCore s ci).cyc + missLatency s ci loc }
        (.ok l, updCore s ci fun c => { c with icache := tput c.icache (iKey ctx va) l })
/-- The same for a plot. -/
def fetchLine (s : State) (ci plot va : Nat) : FetchRes × State := fetchFor s ci (plotCtx s ci plot) va

/-- The header word that breaks R174, if one does. -/
def badHeader (l : Line) : Option Nat :=
  let st := (lineWord l 0).toNat
  let tg := (lineWord l 1).toNat
  if st % 4 ≠ 0 then some 0 else if tg % 4 ≠ 0 then some 1 else if tg &&& st ≠ tg then some 1 else none
/-- Does the start mask agree with an instruction of n words at word k (R175)? -/
def startOk (l : Line) (k n : Nat) : Bool :=
  let st := (lineWord l 0).toNat
  decide (k + n ≤ 32) && (List.range n).all fun i => st.testBit (k + i) == (i == 0)
/-- Is a transfer to this address allowed, its line in hand (R176, R244)? -/
def targetOk (l : Line) (va : Nat) : Bool := decide (va % 4 = 0) && decide (va / 4 % 32 ≥ 2) && (lineWord l 1).toNat.testBit (va / 4 % 32)

/-- What a transfer to a target does (R176, R177, R244). -/
inductive Target where
  | ok
  | fault (f : FaultRec)
  | busy
  deriving DecidableEq, Repr
def transferTo (s : State) (ci plot : Nat) (t : DWord) : Target × State :=
  let va := t.toNat
  if !canonical va ∨ va % 4 ≠ 0 ∨ va / 4 % 32 < 2 then (.fault (flowFault t), s)
  else match fetchLine s ci plot va with
    | (.busy, s) => (.busy, s)
    | (.fault sub, s) => (.fault (memFault sub 2 false false va), s)
    | (.ok l, s) => (if targetOk l va then .ok else .fault (flowFault t), s)

/-- det1 and det2 of an encoding fault at word k (R195): the first word; the word after it where it is a PX word, which after word 31
is word 2 of the next line (R176). -/
def encDetail (s : State) (ci plot : Nat) (l : Line) (pc : Nat) : Word × Word :=
  let k := pc / 4 % 32
  let w := lineWord l k
  if fieldN w.toNat 30 28 ≠ 6 then (w, 0)
  else if k < 31 then (w, lineWord l (k + 1))
  else match (fetchLine s ci plot ((pc / 128 + 1) * 128)).1 with
    | .ok n => (w, lineWord n 2)
    | _ => (w, 0)
/-- Is a thread active for words that are no instruction: by the mask of the prefix word and the guard of a BR word, where they stand
there (R15, R184, R188)? -/
def wordsOn (ws : List Word) (th : Thread) : Bool :=
  let w := (ws.headD 0).toNat
  let pre := decide (fieldN w 30 28 = 6)
  let v := if pre then (ws.getD 1 0).toNat else w
  (!pre || xor (predOf th (BitVec.ofNat 3 (fieldN w 26 24))) (w.testBit 27)) &&
    (!decide (fieldN v 30 28 = 4) || xor (predOf th (BitVec.ofNat 3 (fieldN v 23 21))) (v.testBit 24))
/-- An encoding fault of the whole drill (R152, R195): every active thread takes it, the others go past the n words. -/
def encodingFault (s : State) (d : Drill) (f : FaultRec) (on : Thread → Bool) (n : Nat) : State :=
  let c := getCore s d.core
  let ths := drillOrder (d.tids.filterMap fun t => (tget c.threads t).bind fun th => if th.st == .ready then some (t, th) else none)
  let off := ths.filter fun e => !on e.2
  let s := updThreads s d.core (off.map (·.1)) (advance { s with curLen := n } 1 none)
  drillDone (takeFaults s d.core ((ths.filter fun e => on e.2).map fun e => (e.1, f))) 1
/-- What stands at the PC of a line: the instruction and its length, or the fault (R174, R175, R195). -/
def readAt (l : Line) (pc : Nat) (det : Word × Word) : Except FaultRec (Instr × Nat) :=
  let k := pc / 4 % 32
  match badHeader l with
  | some h => .error (encFault (64 + 2) (lineWord l h) (BitVec.ofNat 32 h))
  | none =>
    if !startOk l k (lengthOf (lineWords l k)) then .error (encFault 4 det.1 det.2)
    else match decode (lineWords l k) with
      | .error e => .error (encFault e.sub det.1 det.2)
      | .ok x => .ok x
/-- Fetch and decode for an issued drill: the instruction with the state in which it is carried out, or the state in which the drill
has ended without one. -/
def fetchDrill (s : State) (d : Drill) : Except State (Instr × State) :=
  let s := { s with cur := d }
  let lead := d.tids.head?.bind fun t => getThread s d.core t
  let plot := (lead.map (·.plot)).getD 0
  match lead.bind fun th => heldLine s d.core { th with pc := d.pc } with
  | none => .error s
  | some l =>
    -- R176, R345: a role's entry point must be a target
    let new := if targetOk l d.pc.toNat then [] else d.tids.filter fun t => ((getThread s d.core t).map (·.fresh)).getD false
    let rest := d.tids.filter fun t => !new.contains t
    if !new.isEmpty then
      let s := encodingFault s { d with tids := new } (flowFault d.pc) (fun _ => true) 1
      -- those that fell through to the word need only a start bit: the drill goes on with them
      .error (if rest.isEmpty then s else { s with issued := { d with tids := rest, sup := if rest.contains d.sup then d.sup else rest.headD 0 } :: s.issued })
    else match readAt l d.pc.toNat (encDetail s d.core plot l d.pc.toNat) with
    | .error f =>
      -- where the header or the start bit is wrong no instruction stands there, with or without a mask
      let ws := lineWords l (d.pc.toNat / 4 % 32)
      .error (if (badHeader l).isSome ∨ (lineWord l 0).toNat.testBit (d.pc.toNat / 4 % 32) = false then encodingFault s d f (fun _ => true) 1
        else encodingFault s d f (wordsOn ws) (lengthOf ws))
    | .ok (i, n) => .ok (i, { s with curLen := n })
/-- Cycles until a line that is not in the instruction cache is there: those of a load at its level (R302, R306; log 6). -/
def fetchLatency (s : State) (ci plot va : Nat) : Nat :=
  match (engTranslate s (some (clusterOf ci)) (plotCtx s ci plot) va false).1 with
  | .ok loc => missLatency s ci loc
  | _ => 0
/-- The line of a plot's threads arrives, or its fetch faults them (R177). A role's entry point that is not canonical is no target (R176). -/
def fillFor (core va : Nat) (s : State) (plot : Nat) : State :=
  let on := drillOrder ((getCore s core).threads.filter fun e => runnable (getCore s core) e.2 && e.2.plot == plot && e.2.pc.toNat / 128 == va / 128 && (heldLine s core e.2).isNone)
  let fault (sub : Nat) : State := takeFaults s core (on.map fun e => (e.1, memFault sub 2 false false e.2.pc.toNat))
  if on.isEmpty then s
  else if !canonical va then takeFaults s core (on.map fun e => (e.1, if e.2.fresh then flowFault e.2.pc else memFault 3 2 false false e.2.pc.toNat))
  else match fetchLine s core plot va with
    | (.fault sub, _) => fault sub
    | (.busy, s) => s
    | (.ok _, s') => updThreads s' core (on.map (·.1)) fun th => { th with onLine := some (va / 128) }
/-- An instruction line arrives at a core for every plot that waits for one at this address (R177). -/
def execIcacheLineFill (core : Nat) (va : Nat) (s : State) : Out := .next ((tkeys (getCore s core).plots).foldl (fillFor core va) s)

end Sys2Proof.Machine
end

