-- ==== Sys2Proof/Machine/Objects.lean ====
section
/-!
DEFINITION. Asynchronous barrier objects (R134 to R137): their fields, the one update every contribution goes through, and the
release of waiters.
-/
namespace Sys2Proof.Machine
open Sys2Proof

/-- The fields of a barrier object (R134). R134 says that ENG counts commands, `ldsp` and `stn` requests in flight; the model changes it only at
the events for which R135 states a change, so no copy command, gather or collective counts in it (log 82). -/
structure Obj where
  brk : Bool
  init : Nat
  arr : Nat
  bytes : Int
  wcnt : Nat
  eng : Nat
  done : Nat
  lsrc : Nat
  deriving DecidableEq, Repr

/-- The object at a scratchpad position of a cluster. -/
def objAt (s : State) (cl pos : Nat) : Obj :=
  let m := (getCluster s cl).scratch
  let w0 := memNat m pos 4
  let w2 := memNat m (pos + 8) 4
  let w3 := memNat m (pos + 12) 4
  { brk := w0.testBit 31, init := fieldN w0 27 14, arr := fieldN w0 13 0, bytes := (BitVec.ofNat 32 (memNat m (pos + 4) 4)).toInt
    wcnt := w2 / 2 ^ 16, eng := w2 % 2 ^ 16, done := w3 / 2 ^ 16, lsrc := w3 % 2 ^ 16 }
/-- The 16 bytes of an object. -/
def objBytes (o : Obj) : List Byte :=
  natLe 4 (o.brk.toNat * 2 ^ 31 + o.init % 2 ^ 14 * 2 ^ 14 + o.arr % 2 ^ 14) ++ natLe 4 (BitVec.ofInt 32 o.bytes).toNat
    ++ natLe 4 (o.wcnt % 2 ^ 16 * 2 ^ 16 + o.eng % 2 ^ 16) ++ natLe 4 (o.done % 2 ^ 16 * 2 ^ 16 + o.lsrc % 2 ^ 16)
/-- Put an object. -/
def putObj (s : State) (cl pos : Nat) (o : Obj) : State :=
  updCluster s cl fun k => { k with scratch := memWrite k.scratch pos (objBytes o) }

/-- Is phase n done: DONE has counted past it, as a signed 16-bit difference (R136)? -/
def phaseDone (done n : Nat) : Bool := let d := (done + 2 ^ 16 - n % 2 ^ 16) % 2 ^ 16; decide (0 < d) && decide (d < 2 ^ 15)

/-- Cores of a cluster that hold threads. -/
def clusterCores (s : State) (cl : Nat) : List Nat := (tkeys s.cores).filter fun ci => clusterOf ci == cl
/-- Threads of a cluster that wait on the object, with their phase. -/
def objWaiters (s : State) (cl pos : Nat) : List (Nat × Nat × Nat) :=
  (clusterCores s cl).flatMap fun ci => (getCore s ci).threads.filterMap fun e => match e.2.st with
    | .waiting (.abar a n) => if a = pos then some (ci, e.1, n) else none
    | _ => none
/-- Scratchpad address that a position has for a plot (R62). -/
def scratchAddr (s : State) (ci plot pos : Nat) : Nat := pos / 2 ^ 18 * 2 ^ 18 + (pos % 2 ^ 18 - (getPlot (getCore s ci) plot).scrBase)
/-- Release waiters of an object: those whose phase is done go on 2 cycles later; where BRK is set every one faults (R136, R265, R307). -/
def releaseWaiters (s : State) (cl pos : Nat) : State :=
  let o := objAt s cl pos
  (objWaiters s cl pos).foldl (fun s w =>
    let (ci, t, n) := w
    if o.brk then
      let plot := ((getThread s ci t).map (·.plot)).getD 0
      let o' := objAt s cl pos
      faultThread (putObj s cl pos { o' with wcnt := o'.wcnt - 1 }) ci t (engFault 9 0 0 (scratchAddr s ci plot pos) 0)
    else if phaseDone o.done n then
      let o' := objAt s cl pos
      wakeThread (putObj s cl pos { o' with wcnt := o'.wcnt - 1 }) ci t 2
    else s) s
/-- The one update of an object: the change, and the phase that it completes (R135). -/
def objStep (o : Obj) : Obj :=
  if o.arr = 0 ∧ o.bytes = 0 then { o with done := (o.done + 1) % 2 ^ 16, arr := o.init, bytes := 0 } else o
def objUpdate (s : State) (cl pos : Nat) (f : Obj → Obj) : State :=
  releaseWaiters (putObj s cl pos (objStep (f (objAt s cl pos)))) cl pos
/-- LSRC of a core's contribution (R134). -/
def srcCore (ci slot : Nat) : Nat := ci * 4 + slot
/-- LSRC of a copy channel, a collective engine, a fabric acknowledgement. -/
def srcChannel (cl ch : Nat) : Nat := 2 ^ 14 + cl % 2 ^ 8 * 16 + ch
def srcEngine (e : Nat) : Nat := 2 * 2 ^ 14 + e
def srcDevice (d : Nat) : Nat := 3 * 2 ^ 14 + d % 2 ^ 14
/-- Credit at issue: bytes and a contribution in flight (R135). -/
def objIssue (s : State) (cl pos size : Nat) : State := objUpdate s cl pos fun o => { o with bytes := o.bytes + size, eng := (o.eng + 1) % 2 ^ 16 }
/-- A contribution arrives (R135). -/
def objArriveBytes (s : State) (cl pos size src : Nat) : State :=
  objUpdate s cl pos fun o => { o with bytes := o.bytes - size, eng := (o.eng + 2 ^ 16 - 1) % 2 ^ 16, lsrc := src }
/-- A copy credit (R135). -/
def objCredit (s : State) (cl pos size src : Nat) : State := objUpdate s cl pos fun o => { o with bytes := o.bytes - size, lsrc := src }
/-- A lost contribution: BRK, and it leaves ENG (R135). -/
def objLost (s : State) (cl pos : Nat) : State := objUpdate s cl pos fun o => { o with brk := true, eng := (o.eng + 2 ^ 16 - 1) % 2 ^ 16 }
/-- BRK set by a discarded command (R141, R142). -/
def objBreak (s : State) (cl pos : Nat) : State := objUpdate s cl pos fun o => { o with brk := true }
/-- One arrival (R135); the caller has seen that ARR is not 0. -/
def objArrive (s : State) (cl pos src : Nat) : State := objUpdate s cl pos fun o => { o with arr := o.arr - 1, lsrc := src }

end Sys2Proof.Machine
end

