-- ==== Sys2Proof/Machine/Sync.lean ====
section
/-!
DEFINITION. Fences, sheaf barriers, barrier objects, deposits and counters, `nap` and `wpw` (15_isa_sync_engines R259 to R270, with
R86 to R91, R56 to R59, R117), and the steps that end their waits.
-/
namespace Sys2Proof.Machine
open Sys2Proof

/-! ### Leaving a wait, and faults of accesses in flight (R133, R148, R152, R164, R230) -/

/-- An arrival at a rendezvous is withdrawn. -/
def withdrawArrival (tid : Nat) (sh : Sheaf) : Sheaf :=
  let f (r : DWord × Nat × List Nat) : Option (DWord × Nat × List Nat) :=
    let l := r.2.2.filter (· != tid)
    if l.isEmpty then none else some (r.1, r.2.1, l)
  { sh with rdv := sh.rdv.bind f }
/-- Take a waiting thread out of what it waits in; it executes its instruction again after the restore (R133, R148, R164; log 30). -/
def leaveWait (s : State) (ci tid : Nat) (th : Thread) (w : Wait) : State :=
  match w with
  | .nap _ _ _ _ _ => updThread s ci tid fun th => { th with napOpen := false }
  | .rendezvous =>
    match th.sheaf with
    | none => s
    | some k => updCore s ci fun c => { c with sheaves := tupd c.sheaves k (withdrawArrival tid) }
  | .gathering b _ => updCore s ci fun c => { c with bins := (tupd c.bins b fun x => { x with members := x.members.filter (· != tid) }).filter fun e => e.1 != b || !e.2.members.isEmpty }
  | .fuse pc =>
    match th.sheaf with
    | none => s
    | some k => updCore s ci fun c =>
        if (members c k).any fun m => m.1 != tid && m.2.st == .waiting (.fuse pc) then c
        else { c with sheaves := tupd c.sheaves k fun sh => { sh with fuses := sh.fuses.filter fun f => f.1 != pc } }
  | .abar pos _ =>
    let o := objAt s (clusterOf ci) pos
    putObj s (clusterOf ci) pos { o with wcnt := o.wcnt - 1 }
  | .matrix id => updCore s ci fun c => { c with mops := c.mops.filter fun m => m.id != id }
  | .tile id => updCore s ci fun c => { c with tops := c.tops.filter fun m => m.id != id, tblLoads := c.tblLoads.filter fun m => m.id != id }
  | _ => s
/-- A register comes back as its instruction found it, where nothing but that instruction has touched it since (R152). -/
def restoreCell (prod : Nat) (th : Thread) (e : Nat × RegCell) : Thread :=
  match tget th.regs e.1 with
  | none => { th with regs := tput th.regs e.1 e.2 }
  | some y => if y.st = .empty ∧ y.prod = prod then { th with regs := tput th.regs e.1 e.2 } else th
/-- Do the members of a sheaf that hold a register, and await no producer, show one tag for it? -/
def sameTags (c : Core) (th : Thread) (r : Nat) : Bool :=
  match th.sheaf with
  | none => false
  | some k => match (members c k).filterMap fun m => (tget m.2.regs r).filter fun x => x.st != .empty with
    | [] => true
    | x :: t => t.all fun y => y.tag == x.tag && y.uni == x.uni
/-- Is the thread parked or saved? -/
def isSet (th : Thread) : Bool :=
  match th.st with
  | .parked _ | .saved _ => true
  | _ => false
/-- Does a thread's wait outlast a fault of one of its accesses: it is parked or saved, or others depend on what it waits in? -/
def lateHeld (th : Thread) : Bool :=
  isSet th || match th.st with
  | .waiting (.matrix _) | .waiting (.tile _) | .waiting (.barrier _ _) | .waiting .moving => true
  | _ => false
/-- Undo the instruction of a late fault in its thread: its registers come back and its PC stands there again (R148, R152, R230). -/
def undoLate (f : LateFault) (th : Thread) : Thread := { f.cells.foldl (restoreCell f.prod) th with pc := f.pc }
/-- The same in the core; a register whose tag the rest of the sheaf no longer shares becomes general (R39, R41). -/
def undoIn (f : LateFault) (tid : Nat) (c : Core) : Core :=
  let c' := updThreadC c tid (undoLate f)
  let back := (f.cells.map (·.1)).filter fun r => (tget c'.threads tid).map (fun th => tget th.regs r) != (tget c.threads tid).map fun th => tget th.regs r
  back.foldl (fun c r => if ((tget c.threads tid).map fun th => sameTags c th r).getD true then c else retagGeneral [tid] c r) c'
/-- Threads of a core with a fault of an access in flight that can be taken now, each with it. -/
def lateNow (c : Core) (tids : List Nat) : List (Nat × Thread × LateFault) :=
  tids.filterMap fun t => (tget c.threads t).bind fun th => th.late.bind fun f => if lateHeld th then none else some (t, th, f)
/-- A thread leaves what it waits in, and the instruction of its late fault is undone. -/
def leaveLate (s : State) (ci : Nat) (x : Nat × Thread × LateFault) : State :=
  let s := match x.2.1.st with
    | .waiting w => leaveWait s ci x.1 x.2.1 w
    | _ => s
  updCore s ci fun c => updThreadC (undoIn x.2.2 x.1 c) x.1 fun th =>
    { th with st := .ready, late := none, napOpen := false, relSeq := none, rejoin := [], lastUse := [] }
/-- Faults of accesses in flight are taken at the accesses, those of one drill together (R148, R152, R153, R230; log 27). -/
def takeLates (s : State) (ci : Nat) (tids : List Nat) : State :=
  let l := lateNow (getCore s ci) tids
  takeFaults (l.foldl (fun s x => leaveLate s ci x) s) ci (l.map fun x => (x.1, { group := x.2.2.group, det0 := x.2.2.det0, det1 := x.2.2.det1, det2 := x.2.2.det2 }))
/-- Take every late fault of a core that can be taken, drill by drill (R153). -/
def takeAllLates (s : State) (ci : Nat) : State :=
  let l := (getCore s ci).threads.filterMap fun e => e.2.late.map fun f => (e.1, f.prod)
  ((l.map (·.2)).eraseDups).foldl (fun s p => takeLates s ci ((l.filter fun x => x.2 == p).map (·.1))) s
/-- Note a fault of an access in flight. Of several the first is kept: its instruction is executed again, and so are those after it. In a parked
or saved thread the instruction is undone at once, so that no register of it stays empty (R165). -/
def noteLate (s : State) (ci tid : Nat) (f : LateFault) : State :=
  match getThread s ci tid with
  | none => s
  | some th =>
    if th.late.isSome then s
    else if isSet th then updCore s ci fun c => updThreadC (undoIn f tid c) tid fun th => { th with late := some { f with cells := [] } }
    else updThread s ci tid fun th => { th with late := some f }
/-- Accesses in flight of threads of one drill fail: their faults are taken now, or once a thread is no longer parked, saved or in a wait that
others depend on. -/
def lateThreads (s : State) (ci prod : Nat) (pc : DWord) (l : List (Nat × Tbl RegCell × FaultRec)) : State :=
  takeLates (l.foldl (fun s x => noteLate s ci x.1 { group := x.2.2.group, det0 := x.2.2.det0, det1 := x.2.2.det1, det2 := x.2.2.det2, pc := pc, prod := prod, cells := x.2.1 }) s) ci (l.map (·.1))

/-! ### Fences (R86 to R89, R260) -/

/-- Cores whose L1s hold core ci's stores: all of the cluster while it is fused (R67). -/
def storeCores (s : State) (ci : Nat) : List Nat :=
  if (getCluster s (clusterOf ci)).fused then (List.range 16).map fun k => clusterOf ci * 16 + k else [ci]
/-- Is every line dirtied before the marker written back and performed, with its GWCT passed, as far as the scope asks (R88)? -/
def drainedTo (s : State) (ci seq : Nat) (fabric : Bool) : Bool :=
  (storeCores s ci).all fun k =>
    let c := getCore s k
    (c.fifo.all fun d => decide (d.seq ≥ seq))
    && (s.reqs.all fun e => match e.2 with
        | .wback o => o.core != k || decide (o.seq ≥ seq) || (o.dev.isSome && !fabric)
        | _ => true)
    && (c.gwcts.all fun g => decide (g.1 ≥ seq) || decide (g.2.1 < s.now) || (g.2.2 && !fabric))
/-- Has the thread a fabric request that is not acknowledged (R88)? -/
def farOpen (s : State) (ci tid : Nat) : Bool :=
  s.reqs.any fun e => match e.2 with
    | .load o => o.core == ci && o.parts.any fun p => p.data.isNone && isFar p.loc && (p.tid == tid || o.also.contains tid)
    | .atomic o => o.core == ci && !o.sp && !o.acked && isFar o.loc && o.steps.any fun x => x.tid == tid
    | .wback o => o.dev.isSome && o.tids.contains (ci * 256 + tid)
    | .ldsp o => o.core == ci && (o.tid :: o.also).contains tid && o.data.isNone && isFar o.src
    | .stn o => o.core == ci && (o.tid :: o.also).contains tid && o.gwct.isNone && isFar o.dst
/-- Has an `stn` of the thread a GWCT that has not passed, as far as the scope asks: cluster scope without a fused L1 asks for what device scope
does (R87)? -/
def stnPending (s : State) (ci tid scope : Nat) : Bool :=
  (decide (scope ≥ 2) || (scope == 1 && !(getCluster s (clusterOf ci)).fused)) && s.reqs.any fun e => match e.2 with
    | .stn o => o.core == ci && (o.tid :: o.also).contains tid && (scope == 3 || !isFar o.dst) && decide (s.now ≤ o.gwct.getD s.now)
    | _ => false
/-- Loads and returning atomics of a thread that have not bound their values (R88). -/
def loadsOpen (s : State) (ci tid : Nat) : Bool :=
  s.reqs.any fun e => match e.2 with
    | .load o => o.core == ci && o.parts.any fun p => p.data.isNone && (p.tid == tid || o.also.contains tid)
    | .atomic o => o.core == ci && !o.performed && o.ret && o.steps.any fun x => x.tid == tid
    | _ => false
/-- Has the thread a lane-pipe result outstanding: a register that a load, an atomic, a `tmovout` or a `copy.start` of the lane pipe is to fill
(R88)? -/
def laneWritesOpen (s : State) (ci : Nat) (th : Thread) : Bool :=
  th.regs.any fun e => e.2.st == .empty && !e.2.armed && ((match tget s.reqs e.2.prod with
    | some (.load o) => o.pipe == .lane
    | _ => false) || (s.reqs.any fun q => match q.2 with
      | .atomic o => o.core == ci && o.ret && o.drill == e.2.prod
      | _ => false) || ((getCore s ci).tops.any fun o => o.id == e.2.prod)
      || (getCluster s (clusterOf ci)).channels.any fun k => k.2.cmds.any fun x => x.core == ci && x.prod == e.2.prod && !x.unif)
/-- The release half: earlier accesses performed; from cluster scope on, the stores before the marker too, unless a fused L1 serves the
cluster scope (R87, R88). -/
def releaseDone (s : State) (ci tid scope seq : Nat) : Bool :=
  !unperformed s ci tid && !stnPending s ci tid scope && (scope = 0 || (scope == 1 && (getCluster s (clusterOf ci)).fused) || drainedTo s ci seq (scope == 3))
/-- Does a fence find nothing left to wait for (R88)? -/
def fenceDone (s : State) (ci tid : Nat) (th : Thread) (kind scope seq : Nat) : Bool :=
  match kind with
  -- no later load is performed before the earlier ones are
  | 0 => !loadsOpen s ci tid
  | 4 => !laneWritesOpen s ci th && th.regs.all fun e => e.2.st != .full || decide (e.2.ready ≤ (getCore s ci).cyc)
  | k => releaseDone s ci tid scope seq && (k != 3 || ((th.horizon == 0 || decide (th.horizon < s.now)) && (scope != 3 || !farOpen s ci tid)))
/-- The marker: every store before it has a lower number. -/
def marker (s : State) : Nat := s.nextId
/-- `fence` (R86 to R89): a lost fabric store is raised at a fabric-scope fence (R148). -/
def fencePart (kind scope : Nat) : Part := fun s tid th =>
  let ci := s.cur.core
  match (if scope = 3 then th.lostAt else none) with
  | some a => (updThread s ci tid fun th => { th with lostAt := none }, { fault := some (fabFault 2 a) })
  | none =>
    if fenceDone s ci tid th kind scope (marker s) then (s, {})
    else let (seq, s) := freshId s; (s, { wait := some (.fence kind scope seq) })
def execFence (kind scope : BitVec 3) (s : State) : Out :=
  .next (runDrill (.fence kind scope) latInt (fencePart kind.toNat scope.toNat) s)
/-- A waiting fence ends where its condition holds (R88, R307); a store lost meanwhile is raised (R89). -/
def execFenceComplete (core tid : Nat) (s : State) : Out :=
  .next (match getThread s core tid with
    | some th => match th.st with
      | .waiting (.fence kind scope seq) =>
        if scope = 3 ∧ th.lostAt.isSome then
          faultThread (updThread s core tid fun th => { th with lostAt := none }) core tid (fabFault 2 (th.lostAt.getD 0))
        else if fenceDone s core tid th kind scope seq then wakeThread s core tid 2 else s
      | _ => s
    | none => s)

/-- Matrix and tile operations of a thread, and float atomics, that have not posted their flags (R115). -/
def flagsOpen (s : State) (ci tid : Nat) : Bool :=
  let c := getCore s ci
  ((tget c.threads tid).map fun th => !th.flags.isEmpty).getD false || (c.mops.any fun m => m.tids.contains tid) || (c.joins.any fun j => j.tids.contains tid)
    || (c.tops.any fun o => (o.kind == 5 || o.kind == 6) && o.tids.contains tid)
    || s.reqs.any fun e => match e.2 with
      | .atomic o => o.core == ci && !o.acked && decide (11 ≤ o.kind) && decide (o.kind ≤ 14) && o.steps.any fun x => x.tid == tid
      | _ => false
/-- `tfence` (R117): waits for the flags, then raises what `aen` enables; the raised bits are clear when the thread comes back. -/
def tfencePart : Part := fun s tid th =>
  let ci := s.cur.core
  if flagsOpen s ci tid then (s, { wait := some (.retry 1) })
  else
    let f := th.ast &&& th.aen &&& 0x3F
    if f = 0 then (s, {})
    else (updThread s ci tid fun th => { th with ast := th.ast &&& ~~~f }, { fault := some { group := 2, det0 := f } })
def execTfence (s : State) : Out := .next (runDrill .tfence latInt tfencePart s)

/-! ### Sheaf barriers (R91, R261 to R263) -/

/-- Is the thread parked (R11)? -/
def isParked (th : Thread) : Bool :=
  match th.st with
  | .parked _ => true
  | _ => false
/-- Evaluate the completion of barrier b of a sheaf (R261). -/
def tryComplete (s : State) (ci k b : Nat) : State :=
  let c := getCore s ci
  match tget c.sheaves k with
  | none => s
  | some sh =>
    let mem := members c k
    let out := tgetD sh.outs b 0
    -- R158: a parked member counts as not arrived
    if mem.isEmpty || !(mem.all fun m => out.testBit m.2.rank && !isParked m.2) then s
    else putCore s ci { c with sheaves := tput c.sheaves k { sh with phase := tput sh.phase b ((tgetD sh.phase b 0 + 1) % 2 ^ 32), outs := tput sh.outs b 0 } }
/-- Release the members that wait for a phase that has ended: 4 cycles after the completing arrival (R261, R305). -/
def wakeBarriers (s : State) (ci k : Nat) : State :=
  let c := getCore s ci
  match tget c.sheaves k with
  | none => s
  | some sh => (members c k).foldl (fun s m => match m.2.st with
    | .waiting (.barrier b seen) => if tgetD sh.phase b 0 ≠ seen then wakeThread s ci m.1 4 else s
    | _ => s) s
/-- Every barrier of a sheaf after its membership has changed (R20, R261). -/
def recheckBarriers (s : State) (ci k : Nat) : State :=
  wakeBarriers ((List.range 4).foldl (fun s b => tryComplete s ci k b) s) ci k
/-- Is another collective's rendezvous under way in the sheaf (R23, R263)? Its PC. -/
def otherRdv (c : Core) (th : Thread) (pc : DWord) (kind : Nat) : Option DWord :=
  match th.sheaf.bind fun k => (tget c.sheaves k).bind (·.rdv) with
  | some (p, k, _) => if p = pc ∧ k = kind then none else some p
  | none => none
/-- The release half of an arrival: all earlier accesses performed or core-performed (R91, R262). -/
def arriveReady (s : State) (ci tid : Nat) : Bool := !unperformed s ci tid
/-- One member's part of `bar` (R261). A solitary thread is a sheaf of one: its arrival completes the phase (R261). -/
def barPart (mode b : Nat) : Part := fun s tid th =>
  let ci := s.cur.core
  let c := getCore s ci
  match th.sheaf with
  -- R261: a sheaf of one completes each phase at its own arrival
  | none => if !arriveReady s ci tid then (s, { wait := some (.arriving b (mode == 1)) })
            else if mode = 1 then (s, {}) else (s, { wait := some (.barrier b 0) })
  | some k =>
    let sh := tgetD c.sheaves k {}
    let phase := tgetD sh.phase b 0
    let out := (tgetD sh.outs b 0).testBit th.rank
    match (if mode = 1 then none else tget th.rejoin b), (if mode = 1 then none else otherRdv c th s.cur.pc 100) with
    | some seen, _ => (s, if seen = phase then { wait := some (.barrier b phase) } else {})
    | none, some p => (s, { fault := some (sheafFault 1 (threadHandle ci c th) p) })
    | none, none =>
      if out then (if mode = 2 then (s, { wait := some (.barrier b phase) }) else (s, { wait := some (.arriving b (mode == 1)) }))
      else if !arriveReady s ci tid then (s, { wait := some (.arriving b (mode == 1)) })
      else
        let s := putCore s ci { c with sheaves := tput c.sheaves k { sh with outs := tput sh.outs b (maskSet (tgetD sh.outs b 0) th.rank) } }
        let s := tryComplete s ci k b
        if mode = 1 then (s, {}) else (s, { wait := some (.barrier b phase) })
/-- A solitary thread that has arrived at a barrier goes on 4 cycles later (R261, R305). -/
def wakeLone (s : State) (ci t : Nat) : State :=
  match (getThread s ci t).map fun th => (th.sheaf, th.st) with
  | some (Option.none, TSt.waiting (Wait.barrier _ _)) => wakeThread s ci t 4
  | _ => s
/-- `bar`, `bar.arrive`, `bar.wait` (R261). -/
def execBar (mode bar : BitVec 2) (s : State) : Out :=
  let ci := s.cur.core
  let ths := drillThreads (.bar mode bar) s
  let ks := (ths.filterMap fun e => e.2.sheaf).eraseDups
  let lone := (ths.filter fun e => e.2.sheaf.isNone).map (·.1)
  .next (lone.foldl (fun s t => wakeLone s ci t) <| ks.foldl (fun s k => wakeBarriers s ci k) (runDrill (.bar mode bar) latInt (barPart mode.toNat bar.toNat) s))

/-! ### Barrier objects (R264, R265) -/

/-- The object a register names: its position, or the fault of R259. -/
def objOf (s : State) (ci : Nat) (th : Thread) (a : Src) (wr : Bool) : Except FaultRec Nat :=
  checkScratch s ci th.plot (sv th a).toNat 16 16 4 wr
/-- Misuse of an object (R137). -/
def objMisuse (addr : Nat) : FaultRec := engFault 8 0 0 addr 0
/-- A part that acts on the object of register a. -/
def objPart (a : Src) (wr : Bool) (f : State → Nat → Thread → Nat → Obj → State × Fx) : Part := fun s tid th =>
  match objOf s s.cur.core th a wr with
  | .error e => (s, { fault := some e })
  | .ok pos => f s tid th pos (objAt s (clusterOf s.cur.core) pos)
/-- `abar.init` (R135, R137). -/
def abarInitPart (o : AbOp) : Part := objPart o.a true fun s _ th pos x =>
  let n := (sv2 th o.b).toNat
  if x.wcnt ≠ 0 ∨ x.eng ≠ 0 ∨ n = 0 ∨ n > 16383 then (s, { fault := some (objMisuse (sv th o.a).toNat) })
  else (objUpdate s (clusterOf s.cur.core) pos fun x => { x with done := 0, brk := false, init := n, arr := n, bytes := 0 }, {})
def execAbarInit (o : AbOp) (s : State) : Out := .next (runDrill (.abarInit o) latInt (abarInitPart o) s)
/-- The release fence of an arriving thread (R265): has it ended, with the marker it counts from? -/
def arriveFence (s : State) (ci tid : Nat) (th : Thread) : Bool × State :=
  match th.relSeq with
  | some seq => (releaseDone s ci tid 1 seq, s)
  | none =>
    if releaseDone s ci tid 1 (marker s) then (true, s)
    else let (seq, s) := freshId s; (false, updThread s ci tid fun th => { th with relSeq := some seq })
/-- The release fences of all active threads of a drill. -/
def arriveFences (s : State) (ci : Nat) (l : List (Nat × Thread)) : Bool × State :=
  l.foldl (fun a e => let r := arriveFence a.2 ci e.1 e.2; (a.1 && r.1, r.2)) (true, s)
/-- `abar.arrive`: a `fence rel, cluster` of every active thread, then one arrival a thread, or in the uniform pipe one; the steps of a drill are
one request, so none is made before every fence of the drill has ended (R264, R265). -/
def abarArrivePart (a : Src) (act : List (Nat × Thread)) : Part := objPart a true fun s tid th pos x =>
  let ci := s.cur.core
  let (ok, s) := arriveFences s ci act
  if !ok then (s, { wait := some (.fences (act.map (·.1))) })
  else if x.arr = 0 then (s, { fault := some (objMisuse (sv th a).toNat) })
  else (objArrive s (clusterOf ci) pos (srcCore ci (slotOf tid)), {})
def execAbarArrive (p : Pipe) (px : Option Px) (a : Src) (s : State) : Out :=
  let act := activeThreads (.abarArrive p px a) s
  let s := runDrill (.abarArrive p px a) latInt (abarArrivePart a act) s
  -- the threads that wait for their fences go on as the drill they are (R264)
  let on (t : Nat) : Bool := match (getThread s s.cur.core t).map fun (th : Thread) => th.st with
    | some (TSt.waiting (Wait.fences _)) => true
    | _ => false
  let d : Drill := { s.cur with tids := (act.map (·.1)).filter on }
  .next (if d.tids.isEmpty then s else { s with walked := s.walked ++ [d] })
/-- `abar.due` (R135, R137). -/
def abarDuePart (o : AbOp) : Part := objPart o.a true fun s _ th pos x =>
  let v := x.bytes + (sv2 th o.b).toInt
  if v ≥ 2 ^ 31 ∨ v < -(2 ^ 31) then (s, { fault := some (objMisuse (sv th o.a).toNat) })
  else (objUpdate s (clusterOf s.cur.core) pos fun x => { x with bytes := v }, {})
def execAbarDue (o : AbOp) (s : State) : Out := .next (runDrill (.abarDue o) latInt (abarDuePart o) s)
/-- A wait or test on a broken object (R136). -/
def objBroken (addr : Nat) : FaultRec := engFault 9 0 0 addr 0
/-- `abar.wait` (R136): WCNT counts the waiter (R265). -/
def abarWaitPart (o : AbOp) : Part := objPart o.a false fun s _ th pos x =>
  let n := (sv2 th o.b).toNat % 2 ^ 16
  if x.brk then (s, { fault := some (objBroken (sv th o.a).toNat) })
  else if phaseDone x.done n then (s, {})
  else (putObj s (clusterOf s.cur.core) pos { x with wcnt := x.wcnt + 1 }, { wait := some (.abar pos n) })
def execAbarWait (o : AbOp) (s : State) : Out := .next (runDrill (.abarWait o) latInt (abarWaitPart o) s)
/-- `abar.test` (R136). -/
def abarTestPart (o : AbOp) (d : RegNo) : Part := objPart o.a false fun s _ th _ x =>
  if x.brk then (s, { fault := some (objBroken (sv th o.a).toNat) })
  else (s, { regs := [(d.toNat, if phaseDone x.done ((sv2 th o.b).toNat % 2 ^ 16) then 1 else 0)] })
def execAbarTest (o : AbOp) (d : RegNo) (s : State) : Out := .next (runDrill (.abarTest o d) latInt (abarTestPart o d) s)

/-! ### Deposits and counters (R56 to R59, R266 to R268) -/

/-- `arm`: a register that is already armed stays as it is (R266). -/
def armPart (d : RegNo) : Part := fun s _ th =>
  (s, match tget th.regs d.toNat with
    | some c => if c.armed then {} else { empties := [d.toNat], armed := true }
    | none => { empties := [d.toNat], armed := true })
def execArm (p : Pipe) (px : Option Px) (d : RegNo) (s : State) : Out := .next (runDrill (.arm p px d) latInt (armPart d) s)

/-- What a sheaf handle names, seen from a core: the core and entry, nothing where it is stale, or a plot that is being saved or saved
(R19, R57, R165, R267). -/
inductive HandleRes where
  | live (ci k : Nat)
  | stale
  | saved
  deriving DecidableEq, Repr
/-- The saved plot of the sender's field whose sheaf a handle names, as core and index before the save (R267 step 3). -/
def savedTarget (s : State) (ci : Nat) (th : Thread) (h : Nat) : Option (Nat × Nat) :=
  let k := h / 2 ^ 18 % 4 * 64 + h / 2 ^ 12 % 64
  let p := getPlot (getCore s ci) th.plot
  (s.savedParts.find? fun e => e.2.plot.run == p.run && e.2.plot.node == p.node && clusterOf e.2.oldCore == clusterOf ci
    && (match tget e.2.sheaves k with
      | some sh => sh.gen == h % 2 ^ 12 && sh.core0.getD e.2.oldCore == h / 2 ^ 20
      | none => false)).map fun e => (e.2.oldCore, ((e.2.threads.head?).map (·.2.plot)).getD 0)
/-- The plot under a save whose sheaf a handle names, as core and index. -/
def stoppingTarget (s : State) (ci h : Nat) : Option (Nat × Nat) :=
  let k := h / 2 ^ 18 % 4 * 64 + h / 2 ^ 12 % 64
  let core := (((getCluster s (clusterOf ci)).routing.find? fun e => e.1 == h).map (·.2)).getD (h / 2 ^ 20)
  (tget (getCore s core).sheaves k).map fun sh => (core, sh.plot)
/-- The core that a handle names for a sender: the cluster's routing maps it for a sender of the field of the plot that the sheaf belongs to
(R165, R267). -/
def handleCore (s : State) (ci : Nat) (th : Thread) (h : Nat) : Nat :=
  let k := h / 2 ^ 18 % 4 * 64 + h / 2 ^ 12 % 64
  let p := getPlot (getCore s ci) th.plot
  let ours (core : Nat) : Bool := match tget (getCore s core).sheaves k with
    | some sh => (getPlot (getCore s core) sh.plot).run == p.run && (getPlot (getCore s core) sh.plot).node == p.node
    | none => false
  (((getCluster s (clusterOf ci)).routing.find? fun e => e.1 == h && ours e.2).map (·.2)).getD (h / 2 ^ 20)
/-- Resolve a handle by the cluster's routing (R267 steps 1 to 3). -/
def resolveHandle (s : State) (ci : Nat) (th : Thread) (h : Nat) : HandleRes :=
  let cl := clusterOf ci
  let core0 := h / 2 ^ 20
  let k := h / 2 ^ 18 % 4 * 64 + h / 2 ^ 12 % 64
  let gen := h % 2 ^ 12
  let p := getPlot (getCore s ci) th.plot
  -- step 1: a plot of the field restored in this cluster keeps its handles
  let core := handleCore s ci th h
  let saved := (savedTarget s ci th h).isSome
  if clusterOf core ≠ cl then .stale
  else match tget (getCore s core).sheaves k with
    | some sh =>
      let q := getPlot (getCore s core) sh.plot
      if sh.gen ≠ gen ∨ sh.core0.getD core ≠ core0 then (if saved then .saved else .stale)
      else if q.stop.isSome ∧ q.run = p.run ∧ q.node = p.node then .saved else .live core k
    | none => if saved then .saved else .stale
/-- `rput` (R57, R58, R267): the sender waits while the target is saved or its core's queue is full. -/
def rputPart (o : AbOp) : Part := fun s _ th =>
  let ci := s.cur.core
  let h := sv2 th o.b
  let w := (rvAt th 1 (o.b.reg.toNat + 1)).toNat
  let all := w.testBit 31
  let rank := w % 32
  match resolveHandle s ci th h.toNat with
  | .stale => (s, { fault := some (sheafFault 2 h) })
  | .saved => (s, { wait := some (.target h.toNat) })
  | .live tc k =>
    let c := getCore s tc
    let sh := tgetD c.sheaves k {}
    let mine := getPlot (getCore s ci) th.plot
    let theirs := getPlot c sh.plot
    if !all && !((members c k).any fun m => m.2.rank == rank) then (s, { fault := some (sheafFault 3 h) })
    else if mine.run ≠ theirs.run ∨ mine.node ≠ theirs.node then (s, { fault := some (sheafFault 4 h) })
    else if c.deposits.length ≥ Config.depositSlots then (s, { wait := some (.queue tc) })
    else (updCore s tc fun c => { c with deposits := c.deposits ++
      [{ sheaf := k, rank := rank, reg := fieldN w 11 6, ctr := fieldN w 13 12, all := all, val := sv th o.a }] }, {})
def execRput (o : AbOp) (s : State) : Out := .next (runDrill (.rput o) latInt (rputPart o) s)

/-- Is the deposit's register armed: for ALL as uniform in the whole sheaf, else in the thread of its rank (R58, R267)? -/
def depositReady (c : Core) (d : Deposit) : Bool :=
  let mem := members c d.sheaf
  let armed (m : Nat × Thread) : Option RegCell := (tget m.2.regs d.reg).filter fun x => x.armed
  if d.all then !mem.isEmpty && mem.all fun m => match armed m with
    | some x => x.tag == .uniform || mem.length == 1
    | none => false
  else mem.any fun m => m.2.rank == d.rank && (armed m).isSome
/-- A sheaf's counter, one higher (R58). -/
def bumpCounter (sh : Sheaf) (n : Nat) : Sheaf := { sh with ctr := tput sh.ctr n (tgetD sh.ctr n 0 + 1) }
/-- Does a `ctr.wait` end (R268)? -/
def ctrReached (v target : Word) : Bool := decide ((v - target).toInt ≥ 0)
/-- Release the `ctr.wait`s of a sheaf that have ended. -/
def wakeCounters (s : State) (ci k : Nat) : State :=
  let c := getCore s ci
  let sh := tgetD c.sheaves k {}
  (members c k).foldl (fun s m => match m.2.st with
    | .waiting (.counter n target) => if ctrReached (tgetD sh.ctr n 0) target then wakeThread s ci m.1 2 else s
    | _ => s) s
/-- Perform a deposit: the register fills, tag general, or uniform for ALL; then the counter rises (R58). -/
def depositFill (s : State) (ci : Nat) (d : Deposit) : State :=
  let c := getCore s ci
  let hit (m : Thread) : Bool := m.sheaf == some d.sheaf && (d.all || m.rank == d.rank)
  let uni := d.all && decide ((members c d.sheaf).length > 1)
  let c := { c with threads := tmap c.threads fun _ th => if hit th then writeReg th d.reg d.val c.cyc else th }
  let c := { c with threads := tmap c.threads fun _ th =>
               if th.sheaf == some d.sheaf then setTag th d.reg (if d.all || decide ((members c d.sheaf).length = 1) then .uniform else .general) uni else th }
  let all := (members c d.sheaf).map (·.1)
  let x := settleBanks (getCore s ci) (putCore s ci c) ci all (fun _ => [d.reg]) (2 * all.length)
  let s := lateWrites x.1 ci x.2 all [d.reg]
  wakeCounters (updCore s ci fun c => { c with sheaves := tupd c.sheaves d.sheaf fun sh => bumpCounter sh d.ctr }) ci d.sheaf
/-- The core performs its oldest queued deposit whose register is armed; one whose sheaf has dissolved is dropped (R58, R59). -/
def execDepositPerform (core : Nat) (s : State) : Out :=
  let c := getCore s core
  let dead := c.deposits.filter fun d => (tget c.sheaves d.sheaf).isNone
  let s := dead.foldl (fun s _ => emitR s (unitCore core none) 0x0403 0) (updCore s core fun c => { c with deposits := c.deposits.filter fun d => (tget c.sheaves d.sheaf).isSome })
  let c := getCore s core
  .next (match c.deposits.findIdx? (depositReady c) with
    | none => s
    | some n => depositFill (updCore s core fun c => { c with deposits := c.deposits.eraseIdx n }) core (c.deposits.getD n {}))

/-- The counter a thread reads (R268). -/
def ctrOf (c : Core) (th : Thread) (n : Nat) : Word :=
  match th.sheaf with
  | none => 0
  | some k => tgetD (tgetD c.sheaves k {}).ctr n 0
/-- `ctr.wait` (R268). -/
def ctrWaitPart (o : CtrWaitOp) : Part := fun s _ th =>
  (s, if ctrReached (ctrOf (getCore s s.cur.core) th o.c.toNat) (sv th o.a) then {} else { wait := some (.counter o.c.toNat (sv th o.a)) })
def execCtrWait (o : CtrWaitOp) (s : State) : Out := .next (runDrill (.ctrWait o) latInt (ctrWaitPart o) s)
/-- `ctr.rd` (R268). -/
def execCtrRd (p : Pipe) (px : Option Px) (d : RegNo) (c : BitVec 2) (s : State) : Out :=
  .next (runDrill (.ctrRd p px d c) latInt (fun s _ th => (s, { regs := [(d.toNat, ctrOf (getCore s s.cur.core) th c.toNat)] })) s)

/-! ### `nap` and `wpw` (R269, R270) -/

/-- The condition of `nap` (R269). -/
def napHolds (cond : Nat) (m b : Word) : Bool :=
  match cond with
  | 0 => m == b
  | 1 => m != b
  | 2 => decide (m.toInt < b.toInt)
  | 3 => decide (m.toInt ≥ b.toInt)
  | 4 => decide (m.toNat < b.toNat)
  | _ => decide (m.toNat ≥ b.toNat)
/-- The word a `nap` reads at its slice or home, never from a cached copy (R269); a remote home's is free (log 10). -/
def napWord (s : State) (ci plot : Nat) (sp : Bool) (addr : Nat) : Option Word × State :=
  if sp then (some (BitVec.ofNat 32 (scrRead s ci addr 4)), s)
  else
    match engTranslate s (some (clusterOf ci)) (plotCtx s ci plot) addr false with
    | (.ok loc, s) =>
      if pageBusy s loc then (none, s)
      else match loc with
        | .here pa _ => (some (BitVec.ofNat 32 (leNat (keyedRead s (ctxKey s (plotCtx s ci plot)) pa 4))), s)
        | .there _ _ => let (bs, s) := freeBytes s 4; (some (BitVec.ofNat 32 (leNat bs)), s)
    | (_, s) => (none, s)
/-- Own stores of the thread to the word go to the home before the read, and copies that the core could read instead of the home are given
up: no later load of the thread meets a value older than the one its `nap` reads (R82). -/
def napFlush (s : State) (ci plot addr : Nat) : State :=
  match engTranslate s (some (clusterOf ci)) (plotCtx s ci plot) addr false with
  | (.ok loc, s) =>
    let s := flushLine s ci (lineKey loc)
    { s with l2 := tdel s.l2 (dieOf ci * 2 ^ 63 + lineKey loc) }
  | (_, s) => s
/-- Is the word's line behind an earlier unperformed request of the thread (R82)? -/
def napBlocked (s : State) (ci tid plot addr : Nat) : Bool :=
  match (engTranslate s (some (clusterOf ci)) (plotCtx s ci plot) addr false).1 with
  | .ok loc => blocked s s.nextId s.nextId ci [tid] (spanOf loc 4)
  | _ => true
/-- Scope of the acquire that a satisfied `nap` of a global word acts as: device, for a fabric window fabric (R269). -/
def napScope (s : State) (ci plot addr : Nat) : Nat :=
  match (engTranslate s (some (clusterOf ci)) (plotCtx s ci plot) addr false).1 with
  | .ok loc => if isFar loc then 3 else 2
  | _ => 2
/-- A satisfied `nap` acts as `fence acq` (R88, R269): it waits as that fence does, while loads of the thread are unbound. -/
def napEnds (s : State) (ci tid scope : Nat) : State × Fx :=
  if loadsOpen s ci tid then let (seq, s) := freshId s; (s, { wait := some (.fence 0 scope seq) }) else (s, {})
/-- `nap` (R269). The model's choice: its read raises no horizon; R83 names the GWCTs that loads return, and the word is only "checked as a b32
load" (log 85). -/
def napPart (cond : Nat) (sp : Bool) (a b : Src) : Part := fun s tid th =>
  let ci := s.cur.core
  let v := sv2 th b
  if sp then
    match checkScratch s ci th.plot (sv th a).toNat 4 4 4 false with
    | .error f => (s, { fault := some f })
    | .ok pos =>
      let m : Word := BitVec.ofNat 32 (scrRead s ci pos 4)
      if napHolds cond m v then napEnds s ci tid 2 else (s, { wait := some (.nap true pos cond v m) })
  else
    let acc : Acc := { addr := svPair th a, size := 4, code := 2, wr := false }
    match checkGlobal s ci th.plot acc with
    | .fault f => (s, { fault := some f })
    | .busy => (s, { stay := true, rej := true })
    | .miss _ => (s, { stay := true })
    | .ok _ =>
      if !mshrFree s ci tid th then (s, { stay := true, rej := true })
      else
        -- the entry that the read holds, so that the next thread of the drill finds one less (R70)
        let s := updThread (napFlush s ci th.plot acc.addr) ci tid fun th => { th with napAt := s.now, napOpen := true }
        if napBlocked s ci tid th.plot acc.addr then (s, { wait := some (.nap false acc.addr cond v 0) })
        else
          let (m, s) := napWord s ci th.plot false acc.addr
          match m with
          | some m => if napHolds cond m v then napEnds s ci tid (napScope s ci th.plot acc.addr) else (s, { wait := some (.nap false acc.addr cond v m) })
          | none => (s, { wait := some (.nap false acc.addr cond v 0) })
def execNap (px : Option Px) (cond : BitVec 3) (sp : Bool) (a b : Src) (s : State) : Out :=
  let i : Instr := .nap px cond sp a b
  .next (if sp then runDrill i latInt (napPart cond.toNat sp a b) s
         else runGlobal i (fun th => [{ addr := svPair th a, size := 4, code := 2, wr := false }]) (runDrill i latInt (napPart cond.toNat sp a b)) s)
/-- The word of a waiting `nap` is read again (R269). A read at a home first takes an MSHR, which it holds until it is performed (R70). -/
def execNapWordRecheck (core tid : Nat) (s : State) : Out :=
  .next (match getThread s core tid with
    | some th => match th.st with
      | .waiting (.nap sp addr cond b last) =>
        if changing s core || (!sp && napBlocked s core tid th.plot addr) then s
        else if !sp && !th.napOpen then (if mshrFree s core tid th then updThread s core tid fun th => { th with napOpen := true } else s)
        else match napWord s core th.plot sp addr with
        | (some m, s) =>
          let s := if sp then s else updThread (napFlush s core th.plot addr) core tid fun th => { th with napAt := s.now, napOpen := false }
          if napHolds cond m b then
            (if loadsOpen s core tid then let (seq, s) := freshId s; updThread s core tid fun th => { th with st := .waiting (.fence 0 (if sp then 2 else napScope s core th.plot addr) seq) }
             else wakeThread s core tid 2)
          else if m = last then s else updThread s core tid fun th => { th with st := .waiting (.nap sp addr cond b m) }
        | (none, s) => s
      | _ => s
    | none => s)

/-- Is a waiting `nap` due to read its word: a store or an atomic has changed it at its slice or home, or the word of a remote home was last read
a microsecond ago (R269)? -/
def napDue (s : State) (ci tid : Nat) (th : Thread) : Bool :=
  match th.st with
  | .waiting (.nap sp addr cond b last) =>
    let far := !sp && (match (engTranslate s (some (clusterOf ci)) (plotCtx s ci th.plot) addr false).1 with
      | .ok loc => isFar loc
      | _ => false)
    !changing s ci && (sp || (!napBlocked s ci tid th.plot addr && (th.napOpen || mshrFree s ci tid th))) && (if far then decide (s.now ≥ th.napAt + 3990)
      else match (napWord s ci th.plot sp addr).1 with
        | some m => m != last || napHolds cond m b
        | none => false)
  | _ => false

/-- Has the plot reserved the channel (R138)? -/
def channelOwned (s : State) (ci plot ch : Nat) : Bool := (getPlot (getCore s ci) plot).hdr.copych.testBit ch
/-- The fault of a channel that is not reserved (R138): BLK and PROG hold no block. -/
def notReserved (ch : Nat) : FaultRec := engFault 6 1 ch 0 0
/-- `wpw` (R270). -/
def wpwPart (a : Src) (ch : Nat) : Part := fun s _ th =>
  let ci := s.cur.core
  if !channelOwned s ci th.plot ch then (s, { fault := some (notReserved ch) })
  else if (tgetD (getCluster s (clusterOf ci)).channels ch {}).wptr ≥ svPair th a then (s, {})
  else (s, { wait := some (.pointer ch (svPair th a)) })
def execWpw (px : Option Px) (a : Src) (ch : BitVec 4) (s : State) : Out := .next (runDrill (.wpw px a ch) latInt (wpwPart a ch.toNat) s)
/-- Release the `wpw`s of a channel that its write pointer satisfies (R270, R307). -/
def wakePointers (s : State) (cl ch : Nat) : State :=
  let w := (tgetD (getCluster s cl).channels ch {}).wptr
  (clusterCores s cl).foldl (fun s ci => (getCore s ci).threads.foldl (fun s e => match e.2.st with
    | .waiting (.pointer c target) => if c = ch ∧ target ≤ w ∧ channelOwned s ci e.2.plot ch then wakeThread s ci e.1 2 else s
    | _ => s) s) s

end Sys2Proof.Machine
end

