-- ==== Sys2Proof/Machine/Threads.lean ====
section
/-!
DEFINITION. Threads and sheaves as objects (R11, R18 to R22, R28, R29, R39, R43): creating and dissolving sheaves, leaving and ending,
bins, fuse holds; shared by the control instructions, the fragment operations and the dispatcher.
-/
namespace Sys2Proof.Machine
open Sys2Proof

/-! ### Fuse holds (R18) -/

/-- End the hold of one address: its holders become ready together. -/
def releaseFuse (s : State) (ci k : Nat) (pc : DWord) : State :=
  let s := updCore s ci fun c => { c with sheaves := tupd c.sheaves k fun sh => { sh with fuses := sh.fuses.filter fun f => f.1 != pc } }
  (members (getCore s ci) k).foldl (fun s m => if m.2.st = .waiting (.fuse pc) then wakeThread s ci m.1 1 else s) s
/-- Holds that every live, unparked member has reached end. -/
def checkFuses (s : State) (ci k : Nat) : State :=
  let c := getCore s ci
  let sh := tgetD c.sheaves k {}
  let mem := (members c k).filter fun m => match m.2.st with
    | .parked _ => false
    | _ => true
  sh.fuses.foldl (fun s f => if !mem.isEmpty && mem.all fun m => m.2.st == .waiting (.fuse f.1) then releaseFuse s ci k f.1 else s) s

/-! ### Leaving a sheaf (R20, R43, R59) -/

/-- Drop the queued deposits that a test picks, each with its event (R59). -/
def dropDeposits (s : State) (ci : Nat) (p : Deposit → Bool) : State :=
  let gone := (getCore s ci).deposits.filter p
  gone.foldl (fun s _ => emitR s (unitCore ci none) 0x0403 0) (updCore s ci fun c => { c with deposits := c.deposits.filter fun d => !p d })
/-- A thread's own copies of its uniform and affine registers (R43); alone, every register is uniform (R39). -/
def soloRegs (th : Thread) : Thread := { th with regs := th.regs.map fun e => (e.1, { ownEntry e.2 with tag := .uniform }) }
/-- The one member that a sheaf has left: every register is uniform, and stays where it stands (R39). -/
def loneRegs (th : Thread) : Thread := { th with regs := th.regs.map fun e => (e.1, { e.2 with tag := .uniform }) }
/-- Words of a lone member's fallow uniform-bank registers: each its one value (R39, R54). -/
def loneWords (s : State) (ci k tid : Nat) (th : Thread) : State :=
  match fallowBase (getCore s ci) with
  | none => s
  | some b => th.regs.foldl (fun s e =>
      if e.2.uni && e.2.st == .fallow then fallowPut s (b + 2 ^ 16 + k * 512 + e.1 * 8) (fallowWord s b tid th e.1 e.2) else s) s
/-- Membership has fallen to one: R39 applies to the member that is left. -/
def loneMember (s : State) (ci k : Nat) : State :=
  match members (getCore s ci) k with
  | [(t, th)] => updThread (loneWords s ci k t th) ci t loneRegs
  | _ => s
/-- What follows a change of a sheaf's live set: it dissolves when empty (R20, R59); otherwise its barriers and holds are looked at again. -/
def sheafChanged (s : State) (ci k : Nat) : State :=
  let c := getCore s ci
  if (tget c.sheaves k).isNone then s
  else if (members c k).isEmpty then dropDeposits (putCore s ci { c with sheaves := tdel c.sheaves k }) ci fun d => d.sheaf == k
  else checkFuses (recheckBarriers (loneMember s ci k) ci k) ci k
/-- Take a thread out of its sheaf (R20, R43). A solitary thread stays as it is. -/
def leaveSheaf (s : State) (ci tid : Nat) : State :=
  let c := getCore s ci
  match (tget c.threads tid).bind fun th => th.sheaf.map fun k => (th, k) with
  | none => s
  | some (th, k) =>
    let c := { c with
      threads := tput c.threads tid { soloRegs th with sheaf := none, rank := 0, tblSel := (tgetD c.sheaves k {}).tblSel }
      sheaves := tupd c.sheaves k fun sh => { sh with outs := tmap sh.outs fun _ m => maskClear m th.rank
                                                      rdv := sh.rdv.bind fun r => if (r.2.2.filter (· != tid)).isEmpty then none else some (r.1, r.2.1, r.2.2.filter (· != tid)) } }
    let s := (settleBanks (getCore s ci) (putCore s ci c) ci [tid] (fun _ => []) 128).1
    sheafChanged s ci k

/-! ### The end of a thread (R11, R247) -/

/-- A handler that ends while its fragment is delivered returns it to pending (R161). Thread.serves holds generation × 64 + entry. -/
def returnFrag (s : State) (ci : Nat) (th : Thread) : State :=
  match th.serves with
  | none => s
  | some h =>
    match tget (getCore s ci).frags (h % 64) with
    | none => s
    | some f =>
      if f.delivery = .delivered ∧ f.gen = h / 64 then
        updCore s ci fun c => { c with frags := tput c.frags (h % 64) { f with delivery := .pending } }
      else s
/-- A stepped member that ends leaves its fragment (R301). -/
def endStep (s : State) (ci tid : Nat) (th : Thread) : State :=
  match th.stepping with
  | none => s
  | some e =>
    stepLeft (updCore s ci fun c => { c with frags := tupd c.frags e fun f =>
      { f with members := f.members.filter (· != tid), stepping := f.stepping.filter (· != tid), details := tdel f.details tid } }) ci e
/-- A request whose thread has ended is still performed, but its results go to no thread: they bear no slot's number (R11, R247). -/
def orphanReq (ci tid : Nat) (r : Req) : Req :=
  let f (t : Nat) : Nat := if t = tid then Config.threadSlots + t else t
  let away (l : List Nat) : List Nat := l.filter (· != ci * Config.threadSlots + tid)
  match r with
  | .load o => .load (if o.core = ci then { o with parts := o.parts.map fun p => { p with tid := f p.tid }, zeros := o.zeros.filter (· != tid), also := o.also.filter (· != tid) } else o)
  | .atomic o => .atomic (if o.core = ci then { o with steps := o.steps.map fun p => { p with tid := f p.tid } } else o)
  | .wback o => .wback { o with tids := away o.tids }
  | .ldsp o => .ldsp (if o.core = ci then { o with tid := f o.tid } else o)
  | .stn o => .stn (if o.core = ci then { o with tid := f o.tid } else o)
/-- A thread that ends in a wait leaves the object, gathering, rendezvous or fuse that it waits on; its matrix and tile operations run on. -/
def leaveKilled (s : State) (ci tid : Nat) (th : Thread) (w : Wait) : State :=
  match w with
  | .matrix _ | .tile _ => s
  | w => leaveWait s ci tid th w
/-- A thread ends: it leaves its sheaf, deposits for its registers are dropped, its slot becomes free (R11, R247, R161). -/
def endThread (s : State) (ci tid : Nat) : State :=
  match getThread s ci tid with
  | none => s
  | some th =>
    -- what the thread waits on no longer counts it (R22, R265)
    let s := match th.st with
      | .waiting w => leaveKilled s ci tid th w
      | _ => s
    let s := match th.sheaf with
      | some k => dropDeposits s ci fun d => d.sheaf == k && !d.all && d.rank == th.rank
      | none => s
    let s := leaveSheaf s ci tid
    let s := updCore s ci fun c => { c with
      threads := tdel c.threads tid
      gathers := c.gathers.map fun g => { g with tids := g.tids.filter (· != tid) }
      mops := c.mops.map fun m => { m with tids := m.tids.filter (· != tid), reads := m.reads.map fun t => if t = some tid then none else t }
      joins := c.joins.map fun m => { m with tids := m.tids.filter (· != tid) }
      tops := c.tops.map fun m => { m with tids := m.tids.filter (· != tid), shares := m.shares.filter fun e => m.kind != 4 || e.1 != tid }
      tblLoads := c.tblLoads.map fun m => { m with tids := m.tids.filter (· != tid) }
      fifo := c.fifo.map fun d => { d with tids := d.tids.filter (· != ci * Config.threadSlots + tid) } }
    endStep (returnFrag { s with reqs := tmap s.reqs fun _ r => orphanReq ci tid r } ci th) ci tid th

/-! ### New sheaves (R19, R21, R39, R43) -/

/-- The next generation of an entry: 0xFFF is skipped (R19). -/
def nextGen (g : Nat) : Nat := if g ≥ 0xFFE then 0 else g + 1
/-- Take the lowest free entry of an issue slot's sheaf table: its index and generation. -/
def newEntry (c : Core) (slot : Nat) : Nat × Nat :=
  let e := (lowestFree 64 ((slotSheaves c slot).map (· % 64))).getD 0
  (slot * 64 + e, tgetD c.sheafGen (slot * 64 + e) 0)
/-- Make a sheaf of these threads of one issue slot: ranks in the order of the list, every register general, uniform for one member
(R21, R39, R43). -/
def makeSheaf (s : State) (ci plot role : Nat) (tids : List Nat) : State :=
  match tids with
  | [] => s
  | t0 :: _ =>
    let c := getCore s ci
    let (k, g) := newEntry c (slotOf t0)
    let tag : Tag := if tids.length = 1 then .uniform else .general
    putCore s ci { c with
      sheaves := tput c.sheaves k { gen := g, plot := plot, role := role }
      sheafGen := tput c.sheafGen k (nextGen g)
      threads := tmap c.threads fun t th =>
        match tids.findIdx? (· == t) with
        | some r => { th with sheaf := some k, rank := r, regs := th.regs.map fun e => (e.1, { e.2 with tag := tag, uni := false }) }
        | none => th }

/-! ### Bins (R22, R28, R29) -/

/-- Thread slots of the core that no thread and no other holder has: free for spawns of this plot and role (R21, R28). -/
def freeFor (c : Core) (plot role t : Nat) : Bool :=
  (tget c.threads t).isNone && !c.stagedSlots.contains t && c.plots.all fun p => match tget p.2.slots t with
    | none => true
    | some r => p.1 == plot && r == role
/-- Slots a handler may use: the plot's handler tine (R25, R246). -/
def handlerSlots (c : Core) (plot : Nat) : List Nat := ((getPlot c plot).slots.filter fun e => e.2 == 4 && (tget c.threads e.1).isNone).map (·.1)
/-- Free thread slots of an issue slot for a plot's role. -/
def freeSlots (c : Core) (plot role slot : Nat) : List Nat :=
  if role = 4 then (handlerSlots c plot).filter fun t => slotOf t == slot
  else ((List.range 64).map fun i => slot * 64 + i).filter fun t => freeFor c plot role t
/-- The slot with the most of something, the lower one on a tie (R21, R28). -/
def bestSlot (f : Nat → Nat) : Nat := (List.range 4).foldl (fun b k => if f k > f b then k else b) 0
/-- The lowest-numbered free thread slot, one that the plot's role holds before any other (R28). -/
def pickSlot (c : Core) (plot role slot : Nat) : Option Nat :=
  let l := freeSlots c plot role slot
  match l.find? fun t => (tget (getPlot c plot).slots t) == some role with
  | some t => some t
  | none => l.head?
/-- Bin timer of a role; a handler's is 0 (R24, R30). -/
def binTimer (p : Plot) (role : Nat) : Nat := (roleInfo p role).bin
/-- Launch a spawn bin's threads as one sheaf (R29): ready in the next cycle. -/
def launchBin (s : State) (ci b : Nat) : State :=
  let c := getCore s ci
  match tget c.bins b with
  | none => s
  | some x =>
    let s := makeSheaf (putCore s ci { c with bins := tdel c.bins b }) ci x.plot x.role (x.members.mergeSort (· ≤ ·))
    let c := getCore s ci
    updThreads s ci x.members (makeReady c 1)
/-- The spawn bin of a (plot, role, target), if there is one. -/
def spawnBin (c : Core) (plot role target : Nat) : Option Nat :=
  (c.bins.find? fun e => !e.2.isJoin && e.2.plot == plot && e.2.role == role && e.2.key == target).map (·.1)
/-- A place for a spawned thread: its bin and thread slot, after a bin whose issue slot is full has launched (R28, R29). -/
def spawnPlace (s : State) (ci plot role target : Nat) : Option (Nat × Nat) × State :=
  let c := getCore s ci
  let full := match spawnBin c plot role target with
    | some b => if (pickSlot c plot role (tgetD c.bins b {}).slot).isNone then some b else none
    | none => none
  let s := match full with
    | some b => launchBin s ci b
    | none => s
  let c := getCore s ci
  match spawnBin c plot role target with
  | some b => ((pickSlot c plot role (tgetD c.bins b {}).slot).map fun t => (b, t), s)
  | none =>
    let slot := bestSlot fun k => (freeSlots c plot role k).length
    match lowestFree Config.binCount (tkeys c.bins), pickSlot c plot role slot with
    | some b, some t => (some (b, t), putCore s ci { c with bins := tput c.bins b { plot := plot, role := role, slot := slot, key := target, first := c.cyc } })
    | _, _ => (none, s)
/-- Could a waiting spawn of this plot, role and target find a place now: a free thread slot of its bin's issue slot, or one anywhere with a bin
that is free or that its own full bin leaves (R29)? -/
def spawnRoom (c : Core) (plot role target : Nat) : Bool :=
  let any := (List.range 4).any fun k => !(freeSlots c plot role k).isEmpty
  match spawnBin c plot role target with
  | some _ => any
  | none => any && decide (c.bins.length < Config.binCount)
/-- The open gathering of a (plot, role, slot, key) (R22). -/
def joinBin (c : Core) (plot role slot key : Nat) : Option Nat :=
  (c.bins.find? fun e => e.2.isJoin && e.2.plot == plot && e.2.role == role && e.2.slot == slot && e.2.key == key).map (·.1)
/-- Could a waiting `join` find its gathering, or a free bin for one (R22)? -/
def joinRoom (c : Core) (plot role slot key : Nat) : Bool :=
  (joinBin c plot role slot key).isSome || decide (c.bins.length < Config.binCount)
/-- Does the thread wait in a `spawn` (R29)? -/
def spawnWaits (th : Thread) : Bool :=
  match th.st with
  | .waiting (.place false _) => true
  | _ => false
/-- Does every live thread of the plot wait in `spawn` (R29)? -/
def spawnStuck (c : Core) (plot : Nat) : Bool :=
  let l := c.threads.filter fun e => e.2.plot == plot
  !l.isEmpty && l.all fun e => spawnWaits e.2
/-- The spawn-deadlock fault (R29): every thread of the plot in one fragment. -/
def spawnDeadlock (s : State) (ci plot : Nat) : State :=
  let c := getCore s ci
  if spawnStuck c plot then
    takeFaults s ci ((drillOrder (c.threads.filter fun e => e.2.plot == plot)).map fun e => (e.1, resFault 2 (getPlot c plot).plotNo))
  else s

/-- Close a gathering: the sheaf is made; its members receive their ranks in `finishJoins` (R22, R249). -/
def closeJoin (s : State) (ci b : Nat) : State :=
  let c := getCore s ci
  match tget c.bins b with
  | none => s
  | some x => makeSheaf (putCore s ci { c with bins := tdel c.bins b }) ci x.plot x.role (x.members.mergeSort (· ≤ ·))
/-- Members of closed gatherings go on: last uses released, the rank in D 4 cycles after the close, tagged over all of them (R249, R305). -/
def finishJoins (s : State) (ci : Nat) : State :=
  let c := getCore s ci
  let done := c.threads.filterMap fun e => match e.2.st, e.2.sheaf with
    | .waiting (.gathering _ d), some k => some (e.1, d, k)
    | _, _ => none
  let s := done.foldl (fun s x => updThread (wakeThread s ci x.1 1) ci x.1 fun th =>
    writeReg th x.2.1 (BitVec.ofNat 32 th.rank) (c.cyc + 4)) s
  let groups := (done.map fun x => (x.2.2, x.2.1)).eraseDups
  let s := groups.foldl (fun s g => updCore s ci fun c => retag false ((done.filter fun x => x.2.2 == g.1 && x.2.1 == g.2).map (·.1)) c g.2) s
  let x := settleBanks c s ci (done.map (·.1)) (fun _ => done.map (·.2.1)) (2 * done.length)
  lateWrites x.1 ci x.2 (done.map (·.1)) (done.map (·.2.1))

end Sys2Proof.Machine
end

