-- ==== Sys2Proof/Machine/Sheaf.lean ====
section
/-!
DEFINITION. Sheaf collectives and shape instructions (14_isa_control_threads R251, R253 to R258, with R23 and R163): arrival at a
rendezvous, the exchange when it is complete, and `regroup`.
-/
namespace Sys2Proof.Machine
open Sys2Proof

/-! ### The rendezvous (R23, R253) -/

/-- The kind of a sheaf collective that meets at an address; `bar` meets by barrier number (R23, R263). -/
def collKind (i : Instr) : Option Nat :=
  match i with
  | .regroup _ => some 1
  | .poll _ _ _ _ _ => some 2
  | .sred _ _ _ _ => some 3
  | .sscan _ _ _ _ _ => some 4
  | .alike _ _ _ _ => some 5
  | .passAt _ | .passOff _ | .passFlip _ | .passRot _ | .passiAt _ | .passiOff _ | .passiFlip _ | .passiRot _ => some 6
  | .mma _ _ _ x => if x.ka = 0 ∨ x.kb = 0 then some 7 else none
  | .mjoin _ _ => some 8
  | _ => none
/-- A live member that waits in a `bar`, other than this thread (R263). -/
def barWaiter (c : Core) (k tid : Nat) : Option DWord :=
  ((members c k).find? fun m => m.1 != tid && match m.2.st with
    | .waiting (.barrier _ _) | .waiting (.arriving _ false) => true
    | _ => false).map (·.2.pc)
/-- A participant of the role that waits in a `regroup` at another address (R23, R163). -/
def otherRegroup (c : Core) (th : Thread) (pc : DWord) : Option DWord :=
  (c.threads.find? fun e => e.2.plot == th.plot && e.2.role == th.role && e.2.st == .waiting .rendezvous && e.2.pc != pc && e.2.regrouping).map (·.2.pc)
/-- The PC of another collective at which members already wait (R23, R263). -/
def mismatch (c : Core) (tid : Nat) (th : Thread) (pc : DWord) (kind : Nat) : Option DWord :=
  match th.sheaf with
  | none => if kind = 1 then otherRegroup c th pc else none
  | some k => (otherRdv c th pc kind).or ((barWaiter c k tid).or (if kind = 1 then otherRegroup c th pc else none))
/-- What an arrival at `regroup` checks beside: an outstanding arrival, the peak (R163 phase 1). -/
def regroupCheck (ci : Nat) (c : Core) (th : Thread) (d : Nat) (last : List Nat) : Option FaultRec :=
  let out := match th.sheaf.bind fun k => tget c.sheaves k with
    | some sh => (List.range 4).any fun b => (tgetD sh.outs b 0).testBit th.rank
    | none => false
  if out then some (sheafFault 8 (threadHandle ci c th)) else (peakReg c th last [d]).map (regFault 3)
/-- One thread arrives: a fault, or the wait at the rendezvous (R23, R253). -/
def arriveOne (i : Instr) (kind : Nat) (s : State) (t : Nat) : State × Option FaultRec :=
  let ci := s.cur.core
  let c := getCore s ci
  match tget c.threads t with
  | none => (s, none)
  | some th =>
    match mismatch c t th s.cur.pc kind with
    | some p => (s, some (sheafFault 1 (threadHandle ci c th) p))
    | none =>
      let pre := match i with
        | .regroup o => match emptyTrap th (reads i) with
          | some r => some (regFault 1 r)
          | none => regroupCheck ci c th o.d.toNat (lastRegs i)
        | _ => if actOn i th then preFault i s [] th else offFault i c false th
      match pre with
      | some f => (s, some f)
      | none =>
        let c := updThreadC c t fun th => { th with st := .waiting .rendezvous, regrouping := decide (kind = 1), held := (reads i).map (·.reg), readySince := c.cyc, overdue := none }
        let c := match th.sheaf with
          | none => c
          | some k => { c with sheaves := tupd c.sheaves k fun sh =>
              { sh with rdv := some (s.cur.pc, kind, ((sh.rdv.map (·.2.2)).getD []) ++ [t]) } }
        (putCore s ci c, none)
/-- The arrivals of an issued drill (R23): no pipe is taken. -/
def arriveColl (i : Instr) (kind : Nat) (s : State) : State :=
  let r := (drillThreads i s).foldl (fun a e =>
    let x := arriveOne i kind a.1 e.1
    (x.1, match x.2 with
      | some f => a.2 ++ [(e.1, f)]
      | none => a.2)) (s, ([] : List (Nat × FaultRec)))
  takeFaults r.1 s.cur.core r.2
/-- Is the rendezvous of a sheaf complete: every live member has arrived (R23)? -/
def rdvDone (c : Core) (k : Nat) : Bool :=
  match (tget c.sheaves k).bind (·.rdv) with
  | some (_, kind, l) => kind != 1 && !(members c k).isEmpty && (members c k).all fun m => l.contains m.1 && m.2.st == .waiting .rendezvous
  | none => false
/-- Is a `regroup` of a plot's role complete, and does no participant hold an empty register (R163 phases 1 and 2)? -/
def regroupDone (c : Core) (plot role : Nat) (pc : DWord) : Bool :=
  let l := c.threads.filter fun e => e.2.plot == plot && e.2.role == role
  !l.isEmpty && l.all fun e => e.2.st == .waiting .rendezvous && e.2.pc == pc && e.2.regs.all fun r => r.2.st != .empty
/-- The rendezvous of the drill's sheaves is over. -/
def clearRdv (s : State) : State :=
  let ci := s.cur.core
  let c := getCore s ci
  let ks := (s.cur.tids.filterMap fun t => (tget c.threads t).bind (·.sheaf)).eraseDups
  ks.foldl (fun s k => updCore s ci fun c => { c with sheaves := tupd c.sheaves k fun sh => { sh with rdv := none } }) s
/-- A collective: before its rendezvous is complete a drill only arrives; then all members carry it out as one drill (R23, R253). The
part is given every member. -/
def collective (i : Instr) (kind : Nat) (lat : Lat) (part : List (Nat × Thread) → Part) (s : State) : State :=
  if s.cur.coll then clearRdv (runDrill i lat (part (drillThreads i s)) s) else arriveColl i kind s

/-! ### Passes, votes and reductions (R254 to R257) -/

/-- The value register a holds in the member of a rank. -/
def memberVal (ms : List (Nat × Thread)) (a : Src) (rank : Nat) : Option Word := (ms.find? fun m => m.2.rank == rank).map fun m => sv m.2 a
/-- Live ranks in ascending order. -/
def ranksOf (ms : List (Nat × Thread)) : List Nat := ms.map (·.2.rank)
/-- A pass: the value of the source rank, or one's own (R254). -/
def passFx (d : RegNo) (a : Src) (src : List (Nat × Thread) → Thread → Int) (ms : List (Nat × Thread)) : Part := fun s _ th =>
  let r := src ms th
  let v := if r < 0 then sv th a else (memberVal ms a r.toNat).getD (sv th a)
  (s, { regs := [(d.toNat, v)] })
/-- Source rank by form (R254). -/
def srcAt (δ : Thread → Nat) (_ : List (Nat × Thread)) (th : Thread) : Int := (δ th : Int)
def srcOff (δ : Thread → Int) (_ : List (Nat × Thread)) (th : Thread) : Int := (th.rank : Int) + δ th
def srcFlip (δ : Thread → Nat) (_ : List (Nat × Thread)) (th : Thread) : Int := ((th.rank ^^^ δ th : Nat) : Int)
def srcRot (δ : Thread → Nat) (ms : List (Nat × Thread)) (th : Thread) : Int :=
  let l := ranksOf ms
  ((l.getD (((l.findIdx? (· == th.rank)).getD 0 + δ th) % l.length) th.rank : Nat) : Int)
/-- b[4:0] and the signed b[5:0] (R254). -/
def low5 (b : Src) (th : Thread) : Nat := (sv2 th b).toNat % 32
def low6s (b : Src) (th : Thread) : Int := ((sv2 th b).setWidth 6).toInt

def execPassAt (o : SyRR) (s : State) : Out := .next (collective (.passAt o) 6 latPass (passFx o.d o.a (srcAt (low5 o.b))) s)
def execPassOff (o : SyRR) (s : State) : Out := .next (collective (.passOff o) 6 latPass (passFx o.d o.a (srcOff (low6s o.b))) s)
def execPassFlip (o : SyRR) (s : State) : Out := .next (collective (.passFlip o) 6 latPass (passFx o.d o.a (srcFlip (low5 o.b))) s)
def execPassRot (o : SyRR) (s : State) : Out := .next (collective (.passRot o) 6 latPass (passFx o.d o.a (srcRot (low5 o.b))) s)
def execPassiAt (o : PassI) (s : State) : Out := .next (collective (.passiAt o) 6 latPass (passFx o.d o.a (srcAt fun _ => o.n.toNat)) s)
def execPassiOff (o : PassOff) (s : State) : Out := .next (collective (.passiOff o) 6 latPass (passFx o.d o.a (srcOff fun _ => o.n.toInt)) s)
def execPassiFlip (o : PassI) (s : State) : Out := .next (collective (.passiFlip o) 6 latPass (passFx o.d o.a (srcFlip fun _ => o.n.toNat)) s)
def execPassiRot (o : PassI) (s : State) : Out := .next (collective (.passiRot o) 6 latPass (passFx o.d o.a (srcRot fun _ => o.n.toNat)) s)

/-- `poll` (R255): q of every live member. -/
def pollFx (d : RegNo) (fn : Nat) (neg : Bool) (k : PredNo) (ms : List (Nat × Thread)) : Part := fun s _ _ =>
  let qs := ms.map fun m => (m.2.rank, xor (predOf m.2 k) neg)
  let on := qs.filter (·.2)
  let pd := d.toNat / 8
  (s, match fn with
    | 0 => { preds := [(pd, !on.isEmpty)] }
    | 1 => { preds := [(pd, decide (on.length = qs.length))] }
    | 2 => { preds := [(pd, on.isEmpty || decide (on.length = qs.length))] }
    | 3 => { regs := [(d.toNat, BitVec.ofNat 32 (maskOf (on.map (·.1))))] }
    | _ => { regs := [(d.toNat, BitVec.ofNat 32 on.length)] })
def execPoll (px : Option Px) (d : RegNo) (fn : BitVec 3) (neg : Bool) (k : PredNo) (s : State) : Out :=
  .next (collective (.poll px d fn neg k) 2 latInt (pollFx d fn.toNat neg k) s)

/-- One step of a reduction, under RM and FTZ of the lowest live rank (R256): result and flags. -/
def redStep (fn rm : Nat) (ftz : Bool) (acc x : Word) : Word × Word :=
  let fl (r : Res) : Word × Word := (BitVec.ofNat 32 (flushOut fF32 ftz r).bits, flagWord (flushOut fF32 ftz r).fl)
  match fn with
  | 0 => plain (acc + x)
  | 1 => plain (minS acc x)
  | 2 => plain (maxS acc x)
  | 3 => plain (minU acc x)
  | 4 => plain (maxU acc x)
  | 5 => plain (acc &&& x)
  | 6 => plain (acc ||| x)
  | 7 => plain (acc ^^^ x)
  | 8 => fl (fAdd fF32 rm false (inVal fF32 ftz false acc.toNat) (inVal fF32 ftz false x.toNat))
  | 9 => fl (fMinMax fF32 false (inBits fF32 ftz false acc.toNat) (inBits fF32 ftz false x.toNat))
  | _ => fl (fMinMax fF32 true (inBits fF32 ftz false acc.toNat) (inBits fF32 ftz false x.toNat))
/-- The identity an exclusive scan gives the lowest live rank (R256). -/
def redIdent (fn : Nat) : Word :=
  match fn with
  | 1 => 0x7FFFFFFF
  | 2 => 0x80000000
  | 3 => 0xFFFFFFFF
  | 5 => 0xFFFFFFFF
  | 8 => 0x80000000
  | 9 => 0x7F800000
  | 10 => 0xFF800000
  | _ => 0
/-- The running results by live rank, in ascending order, with the flags of every step (R256). -/
def redRun (fn rm : Nat) (ftz : Bool) : List Word → List Word × Word
  | [] => ([], 0)
  | x :: rest =>
    let r := rest.foldl (fun (a : Word × List Word × Word) y =>
      let z := redStep fn rm ftz a.1 y
      (z.1, a.2.1 ++ [z.1], a.2.2 ||| z.2)) (x, [x], 0)
    r.2
/-- The running results of the members. -/
def redAll (a : Src) (fn : Nat) (ms : List (Nat × Thread)) : List Word × Word :=
  let lead := (ms.head?.map (·.2)).getD {}
  redRun fn (modeRm lead.mode) (modeFtz lead.mode) (ms.map fun m => sv m.2 a)
/-- `sred` (R256). -/
def sredFx (d : RegNo) (a : Src) (fn : Nat) (ms : List (Nat × Thread)) : Part := fun s _ _ =>
  let r := redAll a fn ms
  (s, { regs := [(d.toNat, r.1.getLast?.getD 0)], flags := r.2 })
def execSred (px : Option Px) (d : RegNo) (a : Src) (fn : BitVec 4) (s : State) : Out :=
  .next (collective (.sred px d a fn) 3 latRed (sredFx d a fn.toNat) s)
/-- `sscan` (R256). -/
def sscanFx (d : RegNo) (a : Src) (exc : Bool) (fn : Nat) (ms : List (Nat × Thread)) : Part := fun s _ th =>
  let r := redAll a fn ms
  let p := ((ranksOf ms).findIdx? (· == th.rank)).getD 0
  let v := if !exc then r.1.getD p 0 else if p = 0 then redIdent fn else r.1.getD (p - 1) 0
  (s, { regs := [(d.toNat, v)], flags := r.2 })
def execSscan (px : Option Px) (d : RegNo) (a : Src) (exc : Bool) (fn : BitVec 4) (s : State) : Out :=
  .next (collective (.sscan px d a exc fn) 4 latRed (sscanFx d a exc fn.toNat) s)
/-- `alike` (R257). -/
def alikeFx (d : RegNo) (a : Src) (lead : Bool) (ms : List (Nat × Thread)) : Part := fun s _ th =>
  let same := (ms.filter fun m => sv m.2 a == sv th a).map (·.2.rank)
  (s, { regs := [(d.toNat, BitVec.ofNat 32 (if lead then same.head?.getD 0 else maskOf same))] })
def execAlike (px : Option Px) (d : RegNo) (a : Src) (lead : Bool) (s : State) : Out :=
  .next (collective (.alike px d a lead) 5 latPass (alikeFx d a lead) s)

/-! ### Regroup (R163, R251) -/

/-- Cut a list into runs of at most n. -/
def chunksOf {α : Type} (n : Nat) : Nat → List α → List (List α)
  | 0, _ => []
  | k + 1, l => if l.isEmpty then [] else l.take n :: chunksOf n k (l.drop n)
/-- The new sheaves in sorted order: participants by (key, thread slot), each key's run cut into sheaves of z (R163 phase 3). -/
def regroupPlan (z : Nat) (l : List (Nat × Nat)) : List (List Nat) :=
  let keys := ((l.map (·.2)).eraseDups).mergeSort (· ≤ ·)
  keys.flatMap fun k => chunksOf (max 1 z) 256 (((l.filter fun e => e.2 == k).map (·.1)).mergeSort (· ≤ ·))
/-- Tines of a slot that are free once the participants have left (R21, R163). -/
def freeTines (c : Core) (plot role : Nat) (parts : List Nat) (taken : List Nat) (slot : Nat) : List Nat :=
  ((List.range 16).map fun j => slot * 16 + j).filter fun j => !taken.contains j && (List.range 4).all fun i =>
    let t := j * 4 + i
    (parts.contains t || (tget c.threads t).isNone) && !c.stagedSlots.contains t && c.plots.all fun p => match tget p.2.slots t with
      | none => true
      | some r => p.1 == plot && r == role
/-- Tines of one sheaf: the slot with the most free tines, there the lowest (R21). -/
def placeSheaf (free : Nat → List Nat) (size : Nat) : Option (List Nat) :=
  let k := bestSlot fun k => (free k).length
  let n := (size + 3) / 4
  if (free k).length < n then none else some ((free k).take n)
/-- Tines of every new sheaf in order (R21, R163); none where they do not fit. -/
def placeAll (free : List Nat → Nat → List Nat) : List Nat → List Nat → Option (List (List Nat))
  | [], _ => some []
  | z :: rest, taken =>
    match placeSheaf (free taken) z with
    | none => none
    | some l => (placeAll free rest (taken ++ l)).map fun r => l :: r
/-- The new thread slot of each participant, sheaf by sheaf, in rank order. -/
def newTids (groups : List (List Nat)) (tines : List (List Nat)) : List (List (Nat × Nat)) :=
  (groups.zip tines).map fun g => g.1.zipIdx.map fun e => (e.1, (g.2.getD (e.2 / 4) 0) * 4 + e.2 % 4)
/-- The tag a register takes in a new sheaf (R163 phase 5, R39): one that was general in a member's old sheaf stays general. -/
def movedTag (group : List (Nat × Thread)) (r : Nat) : Tag :=
  let cells := group.map fun m => tget m.2.regs r
  match cells with
  | some x :: _ =>
    if group.length = 1 ∨ cells.all fun y => match y with
      | some y => y.val == x.val && decide (y.tag ≠ .general)
      | none => false then .uniform else .general
  | _ => .general
/-- Every reference to a thread slot of a core, renamed (R163 phase 5). -/
def renameReq (ci : Nat) (f : Nat → Nat) (r : Req) : Req :=
  let g (x : Nat) : Nat := if x / 256 = ci then ci * 256 + f (x % 256) else x
  match r with
  | .load o => .load (if o.core = ci then { o with parts := o.parts.map fun p => { p with tid := f p.tid }, zeros := o.zeros.map f, also := o.also.map f } else o)
  | .atomic o => .atomic (if o.core = ci then { o with steps := o.steps.map fun p => { p with tid := f p.tid } } else o)
  | .wback o => .wback { o with tids := o.tids.map g }
  | .ldsp o => .ldsp (if o.core = ci then { o with tid := f o.tid, also := o.also.map f } else o)
  | .stn o => .stn (if o.core = ci then { o with tid := f o.tid, also := o.also.map f } else o)
/-- The same in the copy channels of its cluster. -/
def renameChannel (ci : Nat) (f : Nat → Nat) (ch : Channel) : Channel :=
  { ch with cmds := ch.cmds.map fun x => if x.core = ci then { x with tids := x.tids.map f } else x }
/-- The same in a fragment: a stepped member may be moved (R301). -/
def renameFrag (f : Nat → Nat) (x : Frag) : Frag :=
  { x with members := x.members.map f, stepping := x.stepping.map f, details := x.details.foldl (fun d e => tput d (f e.1) e.2) [],
           groups := x.groups.foldl (fun d e => tput d (f e.1) e.2) [] }
/-- The same in the core's own units. -/
def renameCore (ci : Nat) (f : Nat → Nat) (c : Core) : Core :=
  let g (x : Nat) : Nat := if x / 256 = ci then ci * 256 + f (x % 256) else x
  { c with
    frags := tmap c.frags fun _ x => renameFrag f x
    mops := c.mops.map fun m => { m with tids := m.tids.map f, reads := m.reads.map fun t => t.map f }
    joins := c.joins.map fun m => { m with tids := m.tids.map f }
    tops := c.tops.map fun m => { m with tids := m.tids.map f, shares := m.shares.map fun e => (f e.1, e.2) }
    tblLoads := c.tblLoads.map fun m => { m with tids := m.tids.map f }
    gathers := c.gathers.map fun m => { m with tids := m.tids.map f }
    fifo := c.fifo.map fun d => { d with tids := d.tids.map g } }
/-- Commit (R163 phase 4): old sheaves dissolve, new sheaves begin, threads stand in their new slots with their registers. They wait while
they are moved, one a cycle; each then receives its rank in register d (R163 phase 5). -/
def regroupMove (s : State) (ci plot role : Nat) (groups : List (List (Nat × Nat))) (tines : List (List Nat)) (d : Nat) (m : Nat) : State :=
  let c := getCore s ci
  let all := groups.flatten
  let f (t : Nat) : Nat := (tget all t).getD t
  let moved := all.filterMap fun e => (tget c.threads e.1).map fun th =>
    (e.2, { th with regs := tmap th.regs fun r x => { x with val := cellValue s ci e.1 th r x } })
  let old := (all.filterMap fun e => (tget c.threads e.1).bind (·.sheaf)).eraseDups
  let keep := c.threads.filter fun e => (tget all e.1).isNone
  let c := renameCore ci f { c with
    threads := moved.foldl (fun t e => tput t e.1 { e.2 with sheaf := none, rank := 0 }) keep
    sheaves := old.foldl tdel c.sheaves
    plots := tupd c.plots plot fun p =>
      if role = 4 then p
      else
        -- R25, R248: what admission reserved stays held
        let held := p.home.foldl (fun t e => if e.2 = role then tput t e.1 role else t) (p.slots.filter fun e => e.2 != role)
        { p with slots := tines.flatten.foldl (fun t j => (List.range 4).foldl (fun t i => tput t (j * 4 + i) role) t) held } }
  let s := { putCore s ci c with reqs := tmap s.reqs fun _ r => renameReq ci f r }
  let s := updCluster s (clusterOf ci) fun k => { k with channels := tmap k.channels fun _ ch => renameChannel ci f ch }
  let s := dropDeposits s ci fun x => old.contains x.sheaf
  groups.foldl (fun s g =>
    let tids := g.map (·.2)
    let mem := g.filterMap fun e => (tget moved e.2).map fun th => (e.2, th)
    let s := makeSheaf s ci plot role tids
    let c := getCore s ci
    let k := ((tids.head?.bind fun t => tget c.threads t).bind (·.sheaf)).getD 0
    let c := { c with
      threads := tmap c.threads fun t th => if tids.contains t then
          let th := { th with regs := tmap th.regs fun r x =>
            let tag := movedTag mem r
            { x with tag := tag, uni := decide (tag ≠ Tag.general) && decide (tids.length > 1) } }
          { th with prog := 0, longOp := none, moving := some (m, d), st := .waiting .moving }
        else th }
    -- fallow registers stay fallow: their words move with the thread
    let s := putCore s ci c
    let s := match fallowBase c with
      | none => s
      | some b => tids.foldl (fun s t => match tget c.threads t with
        | none => s
        | some th => th.regs.foldl (fun s e =>
            if e.2.st ≠ .fallow then s
            else if e.2.uni then fallowPut (fallowPut s (b + 2 ^ 16 + k * 512 + e.1 * 8) e.2.val) (b + 2 ^ 16 + k * 512 + e.1 * 8 + 4) 0
            else fallowPut s (b + t * 256 + e.1 * 4) e.2.val) s) s
    s) s
/-- The participants of a `regroup` that are all moved have their ranks in D and are ready at the next instruction (R163, R251). -/
def regroupEnd (s : State) (ci : Nat) (tids : List Nat) : State :=
  let regs := (tids.filterMap fun t => ((getThread s ci t).bind (·.moving)).map (·.2)).eraseDups
  let s := updThreads s ci tids fun th =>
    let d := (th.moving.map (·.2)).getD 0
    { writeReg { th with moving := none, pc := th.nextPc, fresh := false } d (BitVec.ofNat 32 th.rank) th.eligible with
      st := .ready, readySince := (getCore s ci).cyc, overdue := none }
  let old := getCore s ci
  let s := (settleBanks old (updCore s ci fun c => regs.foldl (fun c d => retag false tids c d) c) ci tids (fun _ => regs) (2 * tids.length)).1
  -- R301: a stepped participant parks again
  tids.foldl (fun s t => stepDone s ci t) s
/-- One cycle of the moves under way on a core: `prog` counts a thread more, and after the last the participants go on (R163). -/
def moveOn (s : State) (ci : Nat) : State :=
  let c := getCore s ci
  let on := c.threads.filter fun e => e.2.st == .waiting .moving && (getPlot c e.2.plot).frozen.isNone
  let s := updThreads s ci (on.map (·.1)) fun th => { th with prog := th.prog + 1 }
  regroupEnd s ci ((on.filter fun e => decide (((e.2.moving.map (·.1)).getD 0) ≤ e.2.prog.toNat + 1)).map (·.1))
/-- `regroup`, when every participant has arrived and none holds an empty register: keys, plan, commit (R163, R251), and the cycle from which
the participants are eligible with their D (R305). -/
def regroupRun (o : SyR1) (s : State) : State :=
  let ci := s.cur.core
  let c := getCore s ci
  let ths := drillThreads (.regroup o) s
  match ths with
  | [] => drillDone s 1
  | (_, t0) :: _ =>
    if ths.any fun e => e.2.regs.any fun r => r.2.st == .empty then drillDone s 1
    else
      let n := occupancy ths
      let z := (roleInfo (getPlot c t0.plot) t0.role).z
      let groups := regroupPlan z (ths.map fun e => (e.1, (sv e.2 o.a).toNat % 2 ^ 16))
      match placeAll (freeTines c t0.plot t0.role (ths.map (·.1))) (groups.map (·.length)) [] with
      | none =>
        let s := updThreads s ci (ths.map (·.1)) fun th => { th with st := .ready }
        drillDone (takeFaults (clearRdv s) ci (ths.map fun e => (e.1, resFault 4 (getPlot c t0.plot).plotNo))) n
      | some tines =>
        let m := ths.length
        let dest := newTids groups tines
        let s1 := updThreads s ci (ths.map (·.1)) fun th =>
          startWait (.regroup o) s .moving (release (lastRegs (.regroup o)) (orFlags th (staleFlag (.regroup o) th)))
        let s2 := regroupMove s1 ci t0.plot t0.role dest tines o.d.toNat m
        let tids := dest.flatten.map (·.2)
        let (s3, ev) := settleBanks { c with threads := [] } s2 ci tids (fun _ => [o.d.toNat]) (64 * m)
        let s4 := updThreads s3 ci tids fun th => { th with lastUse := [], eligible := c.cyc + n - 1 + 4 + m + 2 * ev }
        drillDone { s4 with cur := { s4.cur with sup := (tget dest.flatten s.cur.sup).getD s.cur.sup } } n
def execRegroup (o : SyR1) (s : State) : Out := .next (if s.cur.coll then regroupRun o s else arriveColl (.regroup o) 1 s)

/-! ### Shapes (R258) -/

/-- `shape` (R258). -/
def execShape (o : SyR1) (s : State) : Out :=
  .next (runDrill (.shape o) latInt (fun s _ th => (s, { regs := [(o.d.toNat, BitVec.ofNat 32 (tagCode (getCore s s.cur.core) th o.a.reg.toNat))] })) s)
/-- `expand` (R258): the register becomes general in the whole sheaf; its members receive lane-bank entries (R41, R51). -/
def expandSheaf (s : State) (tids : List Nat) (r : Nat) : State :=
  let ci := s.cur.core
  let c := getCore s ci
  let w := tids.filter fun t => (((tget c.threads t).bind fun th => tget th.regs r)).isSome
  let ks := (w.filterMap fun t => (tget c.threads t).bind (·.sheaf)).eraseDups
  let all := (c.threads.filter fun e => ks.any fun k => e.2.sheaf == some k).map (·.1)
  (settleBanks c (putCore s ci (retagGeneral w c r)) ci all (fun _ => [r]) (2 * all.length)).1
def execExpand (o : SyD) (s : State) : Out :=
  .next (expandSheaf (runDrill (.expand o) latInt (fun s _ _ => (s, {})) s) ((activeThreads (.expand o) s).map (·.1)) o.d.toNat)
/-- `bcast` (R258): the value of the lowest-ranked active thread. -/
def execBcast (o : SyR1) (s : State) : Out :=
  let v := (((activeThreads (.bcast o) s).head?).map fun e => sv e.2 o.a).getD 0
  .next (runDrill (.bcast o) latInt (fun s _ _ => (s, { regs := [(o.d.toNat, v)] })) s)
/-- `iota` (R258). -/
def execIota (o : SyRR) (s : State) : Out :=
  .next (runDrill (.iota o) latInt (pureFx fun th => { regs := [(o.d.toNat, sv th o.a + sv2 th o.b * BitVec.ofNat 32 th.rank)] }) s)

end Sys2Proof.Machine
end

