-- ==== Sys2Proof/Machine/Control.lean ====
section
/-!
DEFINITION. Control flow, threads and membership (14_isa_control_threads R243 to R252, with R18, R22, R28, R29, R33): transfers, `spawn`,
`exit`, `join`, `leave`, `fuse`, `yield`, and the timers of bins and holds.
-/
namespace Sys2Proof.Machine
open Sys2Proof

/-! ### Transfers (R243 to R245) -/

/-- The target of a BR word at a PC (R243). -/
def brTarget (pc : DWord) (o : BrOp) : DWord := ((pc >>> 7) + o.delta.signExtend 64) * 128 + BitVec.ofNat 64 (o.word.toNat * 4)
/-- Go to a target whose line is in hand, with an optional link write first (R244). -/
def goTo (t : DWord) (link : Bool) : Part := fun s _ th =>
  let (r, s) := transferTo s s.cur.core th.plot t
  let next := nextPc s.cur.pc s.curLen
  (s, match r with
    | .ok => { jump := some t, regs := if link then [(62, next.setWidth 32), (63, (next >>> 32).setWidth 32)] else [] }
    | .fault f => { fault := some f }
    | .busy => { stay := true })
/-- `br` (R243). -/
def execBr (o : BrOp) (s : State) : Out := .next (runDrill (.br o) latInt (goTo (brTarget s.cur.pc o) false) s)
/-- `call` (R243). -/
def execCall (o : BrOp) (s : State) : Out := .next (runDrill (.call o) latInt (goTo (brTarget s.cur.pc o) true) s)
/-- `brx` (R245). -/
def execBrx (o : IndOp) (s : State) : Out :=
  .next (runDrill (.brx o) latInt (fun s t th => goTo (BitVec.ofNat 64 (svPair th o.a)) false s t th) s)
/-- `callx` (R245). -/
def execCallx (o : IndOp) (s : State) : Out :=
  .next (runDrill (.callx o) latInt (fun s t th => goTo (BitVec.ofNat 64 (svPair th o.a)) true s t th) s)
/-- `nop` (R243, R192). -/
def execNop (p : Pipe) (px : Option Px) (s : State) : Out := .next (runDrill (.nop p px) latInt (fun s _ _ => (s, {})) s)

/-! ### `spawn` and `exit` (R28, R29, R246, R247) -/

/-- The thread a spawner makes (R28, R246). -/
def spawnChild (s : State) (th : Thread) (target : DWord) (bin slot : Nat) : Thread :=
  { pc := target
    regs := (th.regs.filter fun e => decide (e.1 < 8)).map fun e => (e.1, { val := e.2.val })
    mode := th.mode, aen := th.aen, plot := th.plot, role := th.role, age := s.now, born := slot, horizon := th.horizon
    st := .waiting (.gathering bin 64) }
/-- One taken `spawn` (R246). -/
def spawnPart (o : BrOp) : Part := fun s tid th =>
  let ci := s.cur.core
  if unperformed s ci tid then (s, { wait := some (.retry 2) })
  else
    let target := brTarget s.cur.pc o
    match transferTo s ci th.plot target with
    | (.fault f, s) => (s, { fault := some f })
    | (.busy, s) => (s, { stay := true })
    | (.ok, s) =>
      match spawnPlace s ci th.plot th.role target.toNat with
      | (none, s) => (s, { wait := some (.place false target.toNat) })
      | (some (b, t), s) =>
        let old := getCore s ci
        let s := updCore s ci fun c => { c with
          threads := tput c.threads t (spawnChild s th target b t)
          bins := tupd c.bins b fun x => { x with members := x.members ++ [t] } }
        let s := (settleBanks old s ci [t] (fun u => if u = tid then List.range 8 else []) 16).1
        (if (tgetD (getCore s ci).bins b {}).members.length ≥ 32 then launchBin s ci b else s, {})
def execSpawn (o : BrOp) (s : State) : Out :=
  let plot := ((drillThreads (.spawn o) s).head?.map (·.2.plot)).getD 0
  .next (spawnDeadlock (runDrill (.spawn o) latInt (spawnPart o) s) s.cur.core plot)
/-- `exit` (R247). -/
def execExit (px : Option Px) (s : State) : Out :=
  .next (runDrill (.exit px) latInt (fun s t _ => (endThread s s.cur.core t, { gone := true })) s)

/-! ### `join`, `leave`, `fuse`, `yield` (R18, R22, R33, R249, R250, R252) -/

/-- The thread enters a gathering, which closes on the arrival that reaches its count (R249); one of count 0 closes on its 32nd arrival, since a
sheaf holds no more (R19; log 81). -/
def joinEnter (s : State) (ci tid b d : Nat) : State × Fx :=
  let s := leaveSheaf s ci tid
  let s := updCore s ci fun c => { c with bins := tupd c.bins b fun x => { x with members := x.members ++ [tid] } }
  let x := tgetD (getCore s ci).bins b {}
  (if x.members.length ≥ (if x.count = 0 then 32 else x.count) then closeJoin s ci b else s, { wait := some (.gathering b d) })
/-- One thread's `join` (R249). -/
def joinPart (o : SyRR) : Part := fun s tid th =>
  let ci := s.cur.core
  let c := getCore s ci
  let n := (sv2 th o.b).toNat
  let bad := some (sheafFault 5 (threadHandle ci c th))
  if n > 32 then (s, { fault := bad })
  else match peakReg c th (lastRegs (.join o)) [o.d.toNat] with
  | some r => (s, { fault := some (regFault 3 r) })
  | none =>
    match joinBin c th.plot th.role (slotOf tid) (sv th o.a).toNat with
    | some b => if (tgetD c.bins b {}).count ≠ n then (s, { fault := bad }) else joinEnter s ci tid b o.d.toNat
    | none =>
      match lowestFree Config.binCount (tkeys c.bins) with
      | none => (s, { wait := some (.place true (sv th o.a).toNat) })
      | some b =>
        let x : Bin := { isJoin := true, plot := th.plot, role := th.role, slot := slotOf tid, key := (sv th o.a).toNat, count := n, first := c.cyc }
        joinEnter (putCore s ci { c with bins := tput c.bins b x }) ci tid b o.d.toNat
def execJoin (o : SyRR) (s : State) : Out := .next (finishJoins (runDrill (.join o) latInt (joinPart o) s) s.cur.core)
/-- `leave` (R250). -/
def execLeave (px : Option Px) (s : State) : Out := .next (runDrill (.leave px) latInt (fun s t _ => (leaveSheaf s s.cur.core t, {})) s)
/-- The first arrival starts the hold of its address (R18). -/
def startHold (pc : DWord) (cyc n : Nat) (sh : Sheaf) : Sheaf :=
  if sh.fuses.any fun f => f.1 == pc then sh else { sh with fuses := sh.fuses ++ [(pc, cyc, n)] }
/-- `fuse` (R18). -/
def fusePart (n : Nat) : Part := fun s _ th =>
  match th.sheaf with
  | none => (s, {})
  | some k =>
    if n = 0 then (s, {})
    else
      let ci := s.cur.core
      (updCore s ci fun c => { c with sheaves := tupd c.sheaves k (startHold s.cur.pc c.cyc n) }, { wait := some (.fuse s.cur.pc) })
def execFuse (n : BitVec 16) (s : State) : Out :=
  let ks := ((drillThreads (.fuse n) s).filterMap fun e => e.2.sheaf).eraseDups
  .next (ks.foldl (fun s k => checkFuses s s.cur.core k) (runDrill (.fuse n) latInt (fusePart n.toNat) s))
/-- `yield` (R33, R308): low priority from the next cycle through cycle t + n. -/
def execYield (n : BitVec 16) (s : State) : Out :=
  .next (runDrill (.yield n) latInt (fun s t _ =>
    (updThread s s.cur.core t fun th => { th with lowUntil := some ((getCore s s.cur.core).cyc + n.toNat) }, {})) s)

/-! ### Timers (R18, R22, R29) -/

/-- n cycles have passed since the first arrival at a `fuse` address: its hold ends (R18). -/
def execFuseHoldExpiry (core sheaf : Nat) (pc : DWord) (s : State) : Out :=
  let c := getCore s core
  .next (match (tgetD c.sheaves sheaf {}).fuses.find? fun f => f.1 == pc with
    | some f => if c.cyc ≥ f.2.1 + f.2.2 then releaseFuse s core sheaf pc else s
    | none => s)
/-- A `join` gathering of count 0 closes at its bin timer (R22, R249). -/
def execJoinBinTimerExpiry (core bin : Nat) (s : State) : Out :=
  let c := getCore s core
  .next (match tget c.bins bin with
    | some x => if x.isJoin && decide (x.count = 0) && decide (c.cyc ≥ x.first + binTimer (getPlot c x.plot) x.role) then finishJoins (closeJoin s core bin) core else s
    | none => s)
/-- A spawn bin launches at its bin timer (R29). -/
def execSpawnBinTimerExpiry (core bin : Nat) (s : State) : Out :=
  let c := getCore s core
  .next (match tget c.bins bin with
    | some x => if !x.isJoin && !x.members.isEmpty && decide (c.cyc ≥ x.first + binTimer (getPlot c x.plot) x.role) then launchBin s core bin else s
    | none => s)

end Sys2Proof.Machine
end

