-- ==== Sys2Proof/Machine/MemEvents.lean ====
section
/-!
DEFINITION. `ldsp` and `stn` (R241, R242, R273), and the steps of the memory system beside the threads: loads served and returned,
atomics performed and acknowledged, dirty lines drained and performed, leases that expire, page walks, refills, and responses that do
not come (03, 04, 13, R148).
-/
namespace Sys2Proof.Machine
open Sys2Proof

/-! ### `ldsp` -/

/-- Bytes of an EX size code: 4, 8 or 16 (R186). -/
def exBytes (size : BitVec 2) : Nat := 4 * 2 ^ size.toNat
/-- The global source of an `ldsp`. -/
def ldspAcc (o : LdspOp) (th : Thread) : Acc := { addr := svPair th o.g, size := exBytes o.size, code := o.size.toNat + 2, wr := false }
/-- The `ldsp` request under a number. -/
def ldspOf (s : State) (id : Nat) : Option LdspReq :=
  match tget s.reqs id with
  | some (.ldsp o) => some o
  | _ => none
def putLdsp (s : State) (id : Nat) (o : LdspReq) : State := { s with reqs := tput s.reqs id (.ldsp o) }
/-- One thread's part of an `ldsp` (R241): the checks in their order, the credit, the request; the lines of a drill are read once each
(R242). -/
def ldspPart (o : LdspOp) (id0 : Nat) (act : List (Nat × Thread)) : Part := fun s tid th =>
  let ci := s.cur.core
  let a := ldspAcc o th
  match checkGlobal s ci th.plot a with
  | .fault f => (s, { fault := some f })
  | .busy => (s, { stay := true, rej := true })
  | .miss _ => (s, { stay := true })
  | .ok loc =>
    match checkScratch s ci th.plot (sv2 th o.s).toNat a.size a.size a.code true, checkScratch s ci th.plot (sv3 th o.obj).toNat 16 16 4 true with
    | .error f, _ => (s, { fault := some f })
    | .ok _, .error f => (s, { fault := some f })
    | .ok dst, .ok obj =>
      let key := lineKey loc
      let k := l1Core s ci key
      let l := l1Line s k key
      let m := bytesMask (lineOff loc) a.size
      let who := actsFor (.ldsp o) s act tid
      let hit := !notCached loc && within m (usable s key l) && !blocked s s.nextId s.nextId ci who (spanOf loc a.size)
      let same := s.reqs.any fun e => match e.2 with
        | .ldsp q => q.core == ci && q.drill == id0 && q.data.isNone && lineKey q.src == key
        | _ => false
      if !hit && !same && !mshrFree s ci tid th then (s, { stay := true, rej := true })
      else
        let s := if !hit && l.dirty.toNat &&& m ≠ 0 then drainLine s k key else s
        let (id, s) := freshId s
        let s := putLdsp s id { core := ci, plot := th.plot, tid := tid, slot := slotOf tid, also := who.filter (· != tid), size := a.size, src := loc, dst := dst, obj := obj, at_ := s.now, va := a.addr, drill := id0
                                mshr := (!hit && !same).toNat
                                data := if hit then some (l.data.toNat / 256 ^ (lineOff loc) % 256 ^ a.size) else none }
        (objIssue s (clusterOf ci) obj a.size, {})
/-- Carry an `ldsp` out: its requests bear the number of the drill, and the LSU takes those that are made as a load's (R306, R307). -/
def runLdsp (o : LdspOp) (s : State) : State :=
  let (id0, s) := freshId s
  let s := runDrill (.ldsp o) latInt (ldspPart o id0 (activeThreads (.ldsp o) s)) s
  (lsuPass s (globCycles s (s.reqs.filterMap fun e => match e.2 with
    | .ldsp q => if q.core = s.cur.core ∧ q.drill = id0 then some (q.tid, lineKey q.src) else none
    | _ => none))).2
/-- `ldsp` (R241). -/
def execLdsp (o : LdspOp) (s : State) : Out := .next (runGlobal (.ldsp o) (fun th => [ldspAcc o th]) (runLdsp o) s)
/-- Is a response of a request begun at this time overdue (R148)? FTMO in microseconds. -/
def overdueAt (s : State) (at_ : Nat) : Bool := decide (s.now ≥ at_ + regN s 0x100008 % 2 ^ 16 * 4000)
/-- Does a physical place of this device stand with an uncorrectable error? -/
def locBad (s : State) (l : Loc) (n : Nat) : Bool :=
  match l with
  | .here pa _ => lineBad s pa n
  | .there _ _ => false
/-- The whole line of a location. -/
def wholeLine : Loc → Loc
  | .here pa nc => .here (pa / 128 * 128) nc
  | .there d pa => .there d (pa / 128 * 128)
/-- The requests that one line read serves: those of a drill whose sources lie in the line of one of them (R242). -/
def lineMates (s : State) (o : LdspReq) : List (Nat × LdspReq) :=
  s.reqs.filterMap fun e => match e.2 with
    | .ldsp q => if q.core = o.core ∧ q.drill = o.drill ∧ q.data.isNone ∧ lineKey q.src = lineKey o.src then some (e.1, q) else none
    | _ => none
/-- May a source read of an `ldsp` be performed now? -/
def ldspCan (s : State) (id : Nat) (o : LdspReq) : Bool :=
  !pageBusy s o.src && !(isFar o.src && overdueAt s o.at_)
    && (lineMates s o).all fun e => hasLeft s e.1 (isFar e.2.src) && !blocked s (min id e.1) e.1 e.2.core (e.2.tid :: e.2.also) (spanOf e.2.src e.2.size)
/-- The line read of a drill: every request that it serves has its bytes, or, where the line meets an uncorrectable error, breaks its object
(R242). An older copy of the line leaves the L1, so that no later load of the thread meets it (R82). -/
def ldspRead (s : State) (o : LdspReq) : State :=
  let l := lineMates s o
  if locBad s o.src o.size then l.foldl (fun s e => objLost { s with reqs := tdel s.reqs e.1 } (clusterOf e.2.core) e.2.obj) s
  else
    let (v, g, s) := serveLoad s o.core o.plot (wholeLine o.src) 128 false
    let s := notePlot (dropClean s (l1Core s o.core (lineKey o.src)) (lineKey o.src)) o.core o.plot g
    l.foldl (fun s e => raiseAll (putLdsp s e.1 { e.2 with data := some (v / 256 ^ (lineOff e.2.src) % 256 ^ e.2.size) }) e.2.core (e.2.tid :: e.2.also) g) s
/-- Must the write of an `ldsp` follow another's: an earlier one of its drill, or an earlier one of its thread to the same bytes (R82, R242)? -/
def ldspAfter (o q : LdspReq) : Bool :=
  q.core == o.core && (q.drill == o.drill || (q.tid == o.tid && decide (q.dst < o.dst + o.size) && decide (o.dst < q.dst + q.size)))
/-- The bytes of an `ldsp` are read, one line for the requests of a drill that share it, without allocating; then they are written in one
piece and the object is debited (R92, R241). The writes of a drill land in drill order (R242). -/
def execLdspWrite (id : Nat) (s : State) : Out :=
  .next (match ldspOf s id with
    | none => s
    | some o => match o.data with
      | none => if ldspCan s id o then ldspRead s o else s
      | some v =>
        let earlier := s.reqs.any fun e => decide (e.1 < id) && match e.2 with
          | .ldsp q => ldspAfter o q
          | _ => false
        if earlier then s
        else
          let s := scrWrite { s with reqs := tdel s.reqs id } o.core o.dst o.size v
          objArriveBytes s (clusterOf o.core) o.obj o.size (srcCore o.core o.slot))

/-! ### `stn` -/

def stnAcc (o : StnOp) (th : Thread) : Acc := { addr := svPair th o.a, size := exBytes o.size, code := o.size.toNat + 2, wr := true }
def stnOf (s : State) (id : Nat) : Option StnReq :=
  match tget s.reqs id with
  | some (.stn o) => some o
  | _ => none
def putStn (s : State) (id : Nat) (o : StnReq) : State := { s with reqs := tput s.reqs id (.stn o) }
/-- One thread's part of an `stn` (R273): the checks, the credit, the store sent past the L1. -/
def stnPart (o : StnOp) (id0 : Nat) (act : List (Nat × Thread)) : Part := fun s tid th =>
  let ci := s.cur.core
  let a := stnAcc o th
  match checkGlobal s ci th.plot a with
  | .fault f => (s, { fault := some f })
  | .busy => (s, { stay := true, rej := true })
  | .miss _ => (s, { stay := true })
  | .ok loc =>
    match checkScratch s ci th.plot (sv3 th o.obj).toNat 16 16 4 true with
    | .error f => (s, { fault := some f })
    | .ok obj =>
      if !mshrFree s ci tid th then (s, { stay := true, rej := true })
      else
        let s := flushLine s ci (lineKey loc)
        let (id, s) := freshId s
        let s := putStn s id { core := ci, plot := th.plot, tid := tid, also := (actsFor (.stn o) s act tid).filter (· != tid), drill := id0, size := a.size, dst := loc, obj := obj, at_ := s.now, va := a.addr
                               data := BitVec.ofNat 128 (regsNat th o.v.reg.toNat (sizeRegs (o.size.toNat + 2)) % 256 ^ a.size) }
        (objIssue s (clusterOf ci) obj a.size, {})
/-- The cycles in which the requests of a drill are performed, half its latency after the last LSU cycle, and acknowledged (R306). -/
def stnTimed (s : State) (id0 last : Nat) (r : Req) : Req :=
  match r with
  | .stn q => if q.core = s.cur.core ∧ q.drill = id0 then
      .stn { q with due := last + missLatency s q.core q.dst / 2, ack := last + missLatency s q.core q.dst } else r
  | r => r
/-- Carry an `stn` out: the LSU takes the stores that are made (R306, R307). -/
def runStn (o : StnOp) (s : State) : State :=
  let (id0, s) := freshId s
  let s := runDrill (.stn o) latInt (stnPart o id0 (activeThreads (.stn o) s)) s
  let (last, s) := lsuPass s (globCycles s (s.reqs.filterMap fun e => match e.2 with
    | .stn q => if q.core = s.cur.core ∧ q.drill = id0 then some (q.tid, lineKey q.dst) else none
    | _ => none))
  { s with reqs := tmap s.reqs fun _ r => stnTimed s id0 last r }
/-- `stn` (R273). -/
def execStn (o : StnOp) (s : State) : Out := .next (runGlobal (.stn o) (fun th => [stnAcc o th]) (runStn o) s)
/-- May an `stn` be performed at its home now? -/
def stnCan (s : State) (id : Nat) (o : StnReq) : Bool :=
  decide (o.due ≤ (getCore s o.core).cyc + 1) && !blocked s id id o.core (o.tid :: o.also) (spanOf o.dst o.size) && !pageBusy s o.dst && hasLeft s id (isFar o.dst) && !(isFar o.dst && overdueAt s o.at_)
/-- An `stn` is performed at its home; once its GWCT has passed its object is debited (R80, R99, R273). -/
def execStnCompletion (id : Nat) (s : State) : Out :=
  .next (match stnOf s id with
    | none => s
    | some o => match o.gwct with
      | none =>
        if !stnCan s id o then s
        else
          let off := lineOff o.dst
          let (g, s) := homeStore s (ctxKey s (plotCtx s o.core o.plot)) (lineKey o.dst) (o.data.toNat * 256 ^ off) (bytesMask off o.size)
          let s := dropClean (dropL2 s o.core (lineKey o.dst)) (l1Core s o.core (lineKey o.dst)) (lineKey o.dst)
          notePlot (putStn s id { o with gwct := some g }) o.core o.plot g
      | some g =>
        if g < s.now ∧ o.ack ≤ (getCore s o.core).cyc + 1 then
          let dev := match o.dst with
            | .here _ _ => deviceNo s
            | .there d _ => d
          objArriveBytes { s with reqs := tdel s.reqs id } (clusterOf o.core) o.obj o.size (srcDevice dev)
        else s)

/-! ### Loads and atomics beside the core -/

/-- May a part of a load be performed beside the core now? -/
def loadCan (s : State) (id : Nat) (o : LoadOp) (p : LoadPart) : Bool :=
  !blocked s id p.seq o.core (p.tid :: o.also) (spanOf p.loc o.size) && !pageBusy s p.loc && hasLeft s p.seq (isFar p.loc) && !(isFar p.loc && overdueAt s o.at_)
/-- The part has its value, or has met an uncorrectable error. -/
def bindPart (s : State) (id : Nat) (p : LoadPart) (v : Nat) (bad : Bool) : State :=
  updLoad s id fun o => { o with parts := o.parts.map fun q => if q.tid = p.tid ∧ q.data.isNone ∧ q.seq = p.seq then { q with data := some v, bad := bad } else q }
/-- A load's part is performed at its home, or on the die's leased L2 copy (R68, R78, R79, R83); one whose bytes meet an uncorrectable error
brings no value (R230). -/
def execHomeLoadService (id tid : Nat) (s : State) : Out :=
  .next (match tget s.reqs id with
    | some (.load o) => match o.parts.find? fun p => p.tid == tid && p.data.isNone with
      | none => s
      | some p =>
        if !loadCan s id o p then s
        else if locBad s p.loc o.size then bindPart s id p 0 true
        else
          let (v, g, s) := serveLoad s o.core o.plot p.loc o.size true
          bindPart (notePlot (raiseAll s o.core (tid :: o.also) g) o.core o.plot g) id p v false
    | _ => s)
/-- The size code of a load request (R182). -/
def loadCode (o : LoadOp) : Nat :=
  match o.size with
  | 1 => if o.signed then 5 else 0
  | 2 => if o.signed then 6 else 1
  | 8 => 3
  | 16 => 4
  | _ => 2
/-- Each value of a load with its threads and their registers. -/
def loadFills (o : LoadOp) : Tbl (List (Nat × Word)) :=
  let of (t v : Nat) := (t, loadRegs (loadCode o) o.dreg v)
  let good := o.parts.filter fun p => !p.bad
  let l := (good.map fun p => of p.tid (p.data.getD 0)) ++ (if good.isEmpty then [] else o.also.map fun t => of t (((good.head?.bind (·.data))).getD 0)) ++ o.zeros.map fun t => of t 0
  l.foldl (fun (m : Tbl (List (Nat × Word))) x => tput m x.1 x.2) []
/-- Threads whose bytes met an uncorrectable error take the fault at their load, and their plot is frozen (R162, R230). -/
def loadErrors (s : State) (id : Nat) (o : LoadOp) : State :=
  match o.parts.filter (·.bad) with
  | [] => s
  | l =>
    let f := hwFault s
    let s := emitR { s with free := s.free + 2 } (unitCore o.core none) 0x0405 (getPlot (getCore s o.core) o.plot).cid
    freezePlot (lateThreads s o.core id o.pc (l.flatMap fun p => (p.tid :: o.also).map fun t => (t, p.cells, f))) o.core o.plot 12
/-- The last value has arrived: the destination fills in every writer of the drill at once (R47, R230 to R232). -/
def execLoadDataReturn (id : Nat) (s : State) : Out :=
  .next (match tget s.reqs id with
    | some (.load o) =>
      if (o.parts.any fun p => p.data.isNone) || decide (o.due > (getCore s o.core).cyc + 1) then s
      else
        let s := { s with reqs := tdel s.reqs id }
        if o.nreg = 0 then s else loadErrors (fillRegs s o.core id (o.pipe == .unif) (loadFills o)) id o
    | _ => s)
/-- May an atomic be performed at its home now? -/
def atomCan (s : State) (id : Nat) (o : AtomOp) : Bool :=
  !blocked s id id o.core (o.steps.map (·.tid)) (spanOf o.loc (atomBytes o.kind)) && !pageBusy s o.loc && hasLeft s id (isFar o.loc) && !(isFar o.loc && overdueAt s o.at_)
/-- A combined atomic is performed at its home, whole (R71, R84, R238, R364). -/
def execAtomicRequestPerform (id : Nat) (s : State) : Out :=
  .next (match atomOf s id with
    | none => s
    | some o =>
      if o.performed || !atomCan s id o then s
      else
        let (o, s) := atomPerform s o
        let s := dropClean (dropL2 s o.core (lineKey o.loc)) (l1Core s o.core (lineKey o.loc)) (lineKey o.loc)
        notePlot (putAtom s id o) o.core o.plot o.gwct)
/-- What a step returns to its registers (R236, R237). -/
def oldRegs (o : AtomOp) (x : AtomStep) : List (Nat × Word) :=
  (o.dreg, BitVec.ofNat 32 x.old.toNat) :: (if o.kind = 10 then [(o.dreg + 1, BitVec.ofNat 32 (x.old.toNat / 2 ^ 32))] else [])
/-- The requests of an atomic's drill (R47, R238). -/
def atomMates (s : State) (o : AtomOp) : List (Nat × AtomOp) :=
  s.reqs.filterMap fun e => match e.2 with
    | .atomic q => if q.core = o.core ∧ q.drill = o.drill then some (e.1, q) else none
    | _ => none
/-- Once every request of a returning drill is acknowledged, its destinations fill in every writer at once (R47, R237). -/
def atomFill (s : State) (o : AtomOp) : State :=
  let l := atomMates s o
  if l.isEmpty || l.any fun e => !e.2.acked then s
  else
    let w := l.foldl (fun m e => e.2.steps.foldl (fun (m : Tbl (List (Nat × Word))) x => tput m x.tid (oldRegs e.2 x)) m) []
    fillRegs (l.foldl (fun s e => { s with reqs := tdel s.reqs e.1 }) s) o.core o.drill false w
/-- The acknowledgement: each thread's flags and horizon, and with the last one of its drill the old values (R83, R115, R236, R237). -/
def execAtomicAck (id : Nat) (s : State) : Out :=
  .next (match atomOf s id with
    | none => s
    | some o =>
      if o.acked || !o.performed || decide (o.due > (getCore s o.core).cyc + 1) then s
      else
        let s := o.steps.foldl (fun s x => updThread s o.core x.tid fun th => { orFlags th x.flags with horizon := max th.horizon o.gwct }) s
        if !o.ret then { s with reqs := tdel s.reqs id } else atomFill (putAtom s id { o with acked := true }) o)

/-! ### Dirty lines and leases -/

/-- The oldest entry of a core's dirty FIFO is drained (R81). -/
def execDirtyLineDrain (core : Nat) (s : State) : Out :=
  .next (match (getCore s core).fifo with
    | [] => s
    | d :: _ => drainLine s core d.line)
/-- May a write-back be performed at its home now? -/
def wbCan (s : State) (id : Nat) (o : WBack) : Bool :=
  !wbBlocked s id o && hasLeft s id o.dev.isSome && !(o.dev.isSome && overdueAt s o.sent) && !(o.dev.isNone && pageBusy s (.here o.line false))
/-- A write-back is performed at its home; its GWCT is kept until it has passed (R80, R88). Clean copies of the line that the core could read
instead of the home are older, and are given up (R82). -/
def execHomeStorePerform (id : Nat) (s : State) : Out :=
  .next (match tget s.reqs id with
    | some (.wback o) =>
      if !wbCan s id o then s
      else
        let ctx := match o.plots with
          | [] => 0
          | p :: _ => plotCtx s (p / 8) (p % 8)
        let (g, s) := homeStore s (ctxKey s ctx) (wbKey o) o.data.toNat o.mask.toNat
        let s := dropClean (dropL2 { s with reqs := tdel s.reqs id } o.core (wbKey o)) o.core (wbKey o)
        let s := updCore s o.core fun c => { c with gwcts := (c.gwcts.filter fun g => decide (g.2.1 ≥ s.now)) ++ [(o.seq, g, o.dev.isSome)] }
        o.plots.foldl (fun s p => notePlot s (p / 8) (p % 8) g) s
    | _ => s)
/-- Clean bytes whose lease has ended are invalid, in every L1, L2 and of fabric lines while the device is unlocked (R78, R100). -/
def expireLines (s : State) (t : Tbl Line) : Tbl Line :=
  (tmap t fun key l => { l with valid := if s.now < l.expiry ∧ (!farKey (key % 2 ^ 63) ∨ locked s) then l.valid else 0 }).filter fun e => e.2.valid != 0 || e.2.dirty != 0
def execLeaseExpiry (s : State) : Out :=
  .next { s with l2 := expireLines s s.l2, cores := tmap s.cores fun _ c => { c with l1 := expireLines s c.l1 } }

/-! ### Walks and refills -/

/-- Issue a drill again whose walk has ended: those of its threads that still wait there. -/
def reissue (s : State) (d : Drill) : State := { s with walked := s.walked ++ [d] }
/-- A page walk ends (R355 to R359, R364): a translation fills the TLBs, a failure is noted for the waiting drills, and they are carried
out. A page of a physical address that does not exist is a fault of the model (R356). -/
def execPageWalkComplete (cluster walk : Nat) (s : State) : Out :=
  let k := getCluster s cluster
  match (k.walks.take Config.maxWalks).find? fun e => e.1 == walk with
  | none => .next s
  | some (_, w) =>
    let s := updCluster s cluster fun k => { k with walks := tdel k.walks walk }
    let (r, s) := clusterWalk s cluster w.ctx w.page
    match r with
    | .hole => .fault .physicalHole
    | .ok t =>
      let s := w.drills.foldl (fun s d => coreTlbFill s d.core t) (tlbFill s cluster t)
      .next (w.drills.foldl reissue s)
    | .fail sub _ => .next (w.drills.foldl (fun s d => reissue s { d with failed := (w.page, sub) :: d.failed }) s)
    | .busy => .next (w.drills.foldl (fun s d => reissue s { d with failed := (w.page, 63) :: d.failed }) s)
/-- The loads that refill a fallow register: their address, and one word, or two loads for an affine register (R54, R307). -/
def refillLoads (s : State) (core tid reg : Nat) : Option (Nat × Nat) :=
  ((getThread s core tid).bind fun th => (tget th.regs reg).map fun x => (th, x)).bind fun e =>
    (fallowAt s core (if e.2.uni then 2 ^ 16 + e.1.sheaf.getD 0 * 512 + reg * 8 else tid * 256 + reg * 4) 4).map fun a => (a, match e.2.tag with
      | .affine _ _ => 2
      | _ => 1)
/-- A register that was fallow and is full can be read so many cycles later. -/
def refillLate (old : Core) (reg n t : Nat) (th : Thread) : Thread :=
  match (tget old.threads t).bind fun x => tget x.regs reg, tget th.regs reg with
  | some x, some y => if x.st = .fallow ∧ y.st = .full then { th with regs := tput th.regs reg { y with ready := y.ready + n } } else th
  | _, _ => th
/-- A fallow register is refilled (R53): its loads pass the LSU of the thread's slot, and its readers issue when they are back (R306, R307;
log 6). -/
def execFallowRefill (core tid reg : Nat) (s : State) : Out :=
  let r := refillReg s core tid reg
  .next (match refillLoads s core tid reg, ((getThread r core tid).bind fun th => tget th.regs reg).map (fun (x : RegCell) => x.st) with
    | some (a, m), some RegSt.full =>
      let (last, t) := lsuPass { r with cur := { r.cur with core := core, slot := slotOf tid } } m
      let n := last + missLatency s core (.here a false) - (getCore s core).cyc
      updCore { t with cur := s.cur } core fun c => { c with threads := tmap c.threads (refillLate (getCore s core) reg n) }
    | _, _ => r)

/-! ### Responses that do not come -/

/-- Stands the packet of an own request on a key-stalled link, or was it dropped there (R387)? -/
def onStalled (s : State) (seq : Nat) : Bool :=
  tget s.ways seq == some (.lost true)
    || s.packets.any fun p => p.req == some seq && (p.link.map fun l => linkState s l == 4) == some true
/-- SUB of the fabric fault of a request that was not answered (R148, R387). -/
def lateSub (s : State) (seq : Nat) : Nat := if onStalled s seq then 3 else 1
/-- Threads that wait in a fabric-scope release for a write-back (R88, R89): by core and slot. -/
def fabricWaiters (s : State) (o : WBack) : List (Nat × Nat) :=
  s.cores.flatMap fun e => if (storeCores s e.1).contains o.core then e.2.threads.filterMap fun t => match t.2.st with
      | .waiting (.fence kind 3 seq) => if 1 ≤ kind ∧ kind ≤ 3 ∧ o.seq < seq then some (e.1, t.1) else none
      | _ => none
    else []
/-- A lost store: the thread's next fence of fabric scope, or the one it waits in, raises the fault (R89, R148). The first loss is kept. -/
def loseStore (s : State) (ci tid addr : Nat) : State :=
  updThread s ci tid fun th => { th with lostAt := some (th.lostAt.getD addr) }
/-- Does the thread wait in a release fence of fabric scope (R88)? -/
def inFabricFence (s : State) (ci tid : Nat) : Bool :=
  match (getThread s ci tid).map (fun (th : Thread) => th.st) with
  | some (TSt.waiting (.fence kind 3 _)) => decide (1 ≤ kind ∧ kind ≤ 3)
  | _ => false
/-- No response within FTMO (R89, R148, R149, R242): a load or returning atomic faults its threads; a store or other atomic is lost; an
`ldsp` or `stn` breaks its object, and a fabric-scope fence that waits for the `stn` faults. -/
def execFabricResponseTimeout (id : Nat) (s : State) : Out :=
  .next (match tget s.reqs id with
    | none => s
    | some (.load o) =>
      let late := o.parts.filter fun p => p.data.isNone && isFar p.loc
      if late.isEmpty || !overdueAt s o.at_ then s
      else if o.nreg = 0 then { s with reqs := tdel s.reqs id }
      else
        let s := updLoad s id fun o => { o with parts := o.parts.filter fun p => !(p.data.isNone && isFar p.loc), also := if o.parts.any (fun p => p.data.isNone && isFar p.loc) then [] else o.also }
        let s := if (loadOf s id).parts.isEmpty && (loadOf s id).zeros.isEmpty then { s with reqs := tdel s.reqs id } else s
        lateThreads s o.core id o.pc (late.flatMap fun p => (p.tid :: o.also).map fun t => (t, p.cells, fabFault (lateSub s p.seq) p.va))
    | some (.atomic o) =>
      if o.sp || o.performed || !isFar o.loc || !overdueAt s o.at_ then s
      else
        let s := { s with reqs := tdel s.reqs id }
        if o.ret then atomFill (lateThreads s o.core o.drill o.pc (o.steps.map fun x => (x.tid, x.cells, fabFault (lateSub s id) x.va))) o
        else emitR (o.steps.foldl (fun s x => loseStore s o.core x.tid x.va) s) (unitCore o.core none) 0x0305
               (getPlot (getCore s o.core) o.plot).cid o.va
    | some (.wback o) =>
      if o.dev.isNone || !overdueAt s o.sent then s
      else
        let who := (o.tids.map fun t => (t / 256, t % 256)) ++ fabricWaiters s o
        let s := { s with reqs := tdel s.reqs id }
        emitR (who.foldl (fun s t => loseStore s t.1 t.2 o.line) s) (unitCore o.core none) 0x0305 0 o.line
    | some (.ldsp o) =>
      if o.data.isSome || !isFar o.src || !overdueAt s o.at_ then s
      else objLost { s with reqs := tdel s.reqs id } (clusterOf o.core) o.obj
    | some (.stn o) =>
      if o.gwct.isSome || !isFar o.dst || !overdueAt s o.at_ then s
      else
        let s := ((o.tid :: o.also).filter (inFabricFence s o.core)).foldl (fun s t => loseStore s o.core t o.va) s
        objLost (emitR { s with reqs := tdel s.reqs id } (unitCore o.core none) 0x0305 (getPlot (getCore s o.core) o.plot).cid o.va) (clusterOf o.core) o.obj)

end Sys2Proof.Machine
end

