-- ==== Sys2Proof/Machine/Engines.lean ====
section
/-!
DEFINITION. Copy channels and the gather engine (07_async_engines_model R138 to R143, R150, R151; 15_isa_sync_engines R271, R274;
25_task_graphs_launcher R346): commands, their checks, delivery, faults after issue, cancel.
-/
namespace Sys2Proof.Machine
open Sys2Proof

/-! ### Global bytes of an engine (R94) -/

/-- Where a run of global bytes stands: pieces within 64 KiB pages, or why not: the first address on the page that fails (R362). -/
inductive Pieces where
  | ok (l : List (Loc × Nat))
  | fault (at_ sub : Nat) (decline : Bool)
  | busy
  deriving DecidableEq, Repr
/-- Has an engine's request a usable link to its home? Without one it waits here (R381; log 65). -/
def reachable (s : State) (l : Loc) : Bool :=
  match locDev l with
  | some d => (egressLink s d).isSome
  | none => true
/-- Translate a run of n bytes (R61, R94, R359). -/
def engPieces (cl : Option Nat) (ctx : Nat) (wr : Bool) : Nat → Nat → Nat → State → Pieces × State
  | 0, _, _, s => (.ok [], s)
  | k + 1, va, n, s =>
    if n = 0 then (.ok [], s)
    else
      let va := va % 2 ^ 64
      if !canonical va then (.fault va 1 true, s)
      else
        let m := min n (2 ^ 16 - va % 2 ^ 16)
        match engTranslate s cl ctx va wr with
        | (.fault sub d, s) => (.fault va sub d, s)
        | (.busy, s) => (.busy, s)
        | (.ok loc, s) =>
          if pageBusy s loc || !reachable s loc then (.busy, s)
          else match engPieces cl ctx wr k (va + m) (n - m) s with
            | (.ok l, s) => (.ok ((loc, m) :: l), s)
            | r => r
/-- Translate n bytes at va. -/
def engPlan (s : State) (cl : Option Nat) (ctx va n : Nat) (wr : Bool) : Pieces × State := engPieces cl ctx wr (n / 2 ^ 16 + 2) va n s
/-- Bytes of a plan, read at their homes (R94); a remote home's are free (log 10). -/
def planRead (s : State) (ctx : Nat) (l : List (Loc × Nat)) : List Byte × State :=
  l.foldl (fun a p => match p.1 with
    | .here pa _ => (a.1 ++ keyedRead a.2 (ctxKey a.2 ctx) pa p.2, a.2)
    | .there _ _ => let r := freeBytes a.2 p.2; (a.1 ++ r.1, r.2)) ([], s)
/-- Write bytes at their homes; the latest GWCT (R80, R94). -/
def planWrite (s : State) (ctx : Nat) (l : List (Loc × Nat)) (bs : List Byte) : Nat × State :=
  let r := l.foldl (fun (a : Nat × List Byte × State) p =>
    let here := a.2.1.take p.2
    let rest := a.2.1.drop p.2
    match p.1 with
    | .here pa _ =>
      let s := keyedWrite a.2.2 (ctxKey a.2.2 ctx) pa here
      let x := (List.range ((pa % 128 + p.2 + 127) / 128)).foldl (fun (b : Nat × State) i =>
        let y := homeStored b.2 ((pa / 128 + i) * 128)
        (max b.1 y.1, y.2)) (a.1, s)
      (x.1, rest, x.2)
    | .there _ _ => let y := freeTime a.2.2 (Config.leaseMax + Config.guardFar); (max a.1 y.1, rest, y.2)) (0, bs, s)
  (r.1, r.2.2)

/-! ### Channels (R138, R140, R142) -/

/-- Channel ch of a cluster. -/
def getChannel (s : State) (cl ch : Nat) : Channel := tgetD (getCluster s cl).channels ch {}
/-- Change a channel. -/
def updChannel (s : State) (cl ch : Nat) (f : Channel → Channel) : State :=
  updCluster s cl fun k => { k with channels := tput k.channels ch (f (tgetD k.channels ch {})) }
/-- UNIT of a channel's records (R409). -/
def unitCopy (cl ch : Nat) : Word := unitOf 1 (cl * 16 + ch)
/-- The fault of a channel that the plot has not reserved, with the block it was to run (R138, R151). -/
def chanFault (ch blk : Nat) : FaultRec := engFault 6 1 ch blk 0
/-- Fill the end-pointer pair of a command (R140, R142). -/
def fillEnd (s : State) (c : CopyCmd) (w : Nat) : State :=
  fillRegs s c.core c.prod c.unif (c.tids.map fun t => (t, [(c.dreg, BitVec.ofNat 32 w), (c.dreg + 1, BitVec.ofNat 32 (w / 2 ^ 32))]))
/-- OBJ of a command that has not been accepted, as its block names it now. -/
def blockObj (s : State) (c : CopyCmd) : Option Nat :=
  match scratchPos s c.core c.plot c.blk 32 with
  | none => none
  | some p => if (scrRead s c.core (p + 4) 4).testBit 27 then some (scrRead s c.core (p + 28) 4 % 2 ^ 22) else none
/-- Discard a command: its empty pair fills with the pointer at which the channel stopped, and BRK is set in its object (R141, R142). -/
def dropCmd (cl w : Nat) (s : State) (c : CopyCmd) : State :=
  let s := if c.accepted then s else fillEnd s c w
  match (if c.accepted then c.obj else blockObj s c) with
  | none => s
  | some o => match scratchPos s c.core c.plot o 16 with
    | none => s
    | some p => objBreak s cl p
/-- Discard a channel's commands (R141, R142). -/
def dropQueue (s : State) (cl ch : Nat) : State :=
  let c := getChannel s cl ch
  c.cmds.foldl (dropCmd cl c.wptr) (updChannel s cl ch fun k => { k with cmds := [] })

/-- `copy.start` (R140, R271): one command, queued; D is empty until it is accepted. The model's choice, which the spec leaves open: a memory
fault on the block of a copy, collective or gather has WR 0, as its block is read; R259 gives WR for object addresses only (R434). -/
def copyStartPart (ch : Nat) (d : RegNo) (a : Src) (act : List Nat) : Part := fun s tid th =>
  let ci := s.cur.core
  let cl := clusterOf ci
  let blk := (sv th a).toNat
  if !channelOwned s ci th.plot ch then (s, { fault := some (chanFault ch blk) })
  else match checkScratch s ci th.plot blk 32 32 4 false with
    | .error f => (s, { fault := some f })
    | .ok _ =>
      if (getChannel s cl ch).cmds.length ≥ 4 then (s, { wait := some (.retry 9) })
      else
        let (id, s) := freshId s
        let c : CopyCmd := { core := ci, plot := th.plot, tids := if isUnif s then act else [tid], dreg := d.toNat, prod := id, unif := isUnif s, blk := blk }
        (updChannel s cl ch fun k => { k with cmds := k.cmds ++ [c] }, { empties := [d.toNat, d.toNat + 1], prod := id })
def execCopyStart (p : Pipe) (px : Option Px) (ch : BitVec 4) (d : RegNo) (a : Src) (s : State) : Out :=
  let i : Instr := .copyStart p px ch d a
  .next (runDrill i latInt (copyStartPart ch.toNat d a (((activeThreads i s).filter fun e => (preFault i s (activeThreads i s) e.2).isNone).map (·.1))) s)
/-- Threads of the cluster that wait for a pointer value beyond the one reached fault (R142, R270). -/
def failPointers (s : State) (cl ch : Nat) : State :=
  let w := (getChannel s cl ch).wptr
  (clusterCores s cl).foldl (fun s ci => (getCore s ci).threads.foldl (fun s e => match e.2.st with
    | .waiting (.pointer c target) =>
      if c = ch ∧ target > w ∧ channelOwned s ci e.2.plot ch then faultThread s ci e.1 (engFault 0xA 1 ch 0 0) else s
    | _ => s) s) s
/-- `copy.cancel` (R142). The model's choice: a channel that an engine fault has frozen stays frozen until its fragment is resumed or killed; the
rule does not say whether the cancel releases it (R141, R142). -/
def copyCancelPart (ch : Nat) : Part := fun s _ th =>
  let cl := clusterOf s.cur.core
  if !channelOwned s s.cur.core th.plot ch then (s, { fault := some (chanFault ch 0) })
  else (failPointers (dropQueue s cl ch) cl ch, {})
def execCopyCancel (p : Pipe) (px : Option Px) (ch : BitVec 4) (s : State) : Out :=
  .next (runDrill (.copyCancel p px ch) latInt (copyCancelPart ch.toNat) s)
/-- `copy.wpr` (R142, R271). -/
def copyWprPart (ch : Nat) (d : RegNo) : Part := fun s _ th =>
  if !channelOwned s s.cur.core th.plot ch then (s, { fault := some (chanFault ch 0) })
  else (s, { regs := pairRegs d (getChannel s (clusterOf s.cur.core) ch).wptr })
def execCopyWpr (p : Pipe) (px : Option Px) (ch : BitVec 4) (d : RegNo) (s : State) : Out :=
  .next (runDrill (.copyWpr p px ch d) latInt (copyWprPart ch.toNat d) s)

/-! ### Acceptance (R139, R140, R346) -/

/-- A tensor-shape record as its table holds it (R346). -/
structure TensorRec where
  base : Nat
  esz : Nat
  gen : Nat
  anyCtx : Bool
  ctx : Nat
  strides : List Nat
  extents : List Nat
  boxes : List Nat
  ok : Bool
  deriving DecidableEq, Repr
/-- Read a record from its 128 bytes (R346): valid where it keeps the table. -/
def tensorRec (bs : List Byte) : TensorRec :=
  let f (o n : Nat) : Nat := leNat ((bs.drop o).take n)
  let w8 := f 8 4
  let nd := fieldN w8 3 2 + 1
  let esz := 2 ^ (w8 % 4)
  let dims := List.range nd
  let zero (o n : Nat) : Bool := decide (f o n = 0)
  let highOk := (List.range 4).all fun d => decide (d < nd) || zero (0x10 + 16 * d) 16
  let dimOk := dims.all fun d => decide (f (0x18 + 16 * d) 4 ≥ 1) && decide (f (0x1C + 16 * d) 4 ≥ 1) && decide (f (0x1C + 16 * d) 4 < 2 ^ 16)
  { base := f 0 8, esz := esz, gen := f 0xC 4 % 2 ^ 12, anyCtx := (f 0x50 4).testBit 31, ctx := f 0x50 4 % 64
    strides := dims.map fun d => f (0x10 + 16 * d) 8, extents := dims.map fun d => f (0x18 + 16 * d) 4, boxes := dims.map fun d => f (0x1C + 16 * d) 4
    ok := w8.testBit 31 && decide (fieldN w8 30 4 = 0) && decide (f 0xC 4 < 2 ^ 12) && decide (f 0 8 % esz = 0) && decide (f 0x10 8 = esz)
          && decide (fieldN (f 0x50 4) 30 6 = 0) && zero 0x54 44 && highOk && dimOk }
/-- Look a handle up (R139): the record, or the subcause. The model's choice, which the spec leaves open: where the GEN differs and the record is
also invalid or another context's, the GEN is tested first (SUB 1). -/
def tensorOf (s : State) (ctx handle : Nat) : Except Nat TensorRec :=
  let slot := handle / 2 ^ 12
  if slot ≥ regN s 0x30108 % 2 ^ 21 then .error 2
  else
    let r := tensorRec (keyedRead s s.sec.bootKey (reg64 s 0x30100 / 2 ^ 12 * 2 ^ 12 + 128 * slot) 128)
    if r.gen ≠ handle % 2 ^ 12 then .error 1
    else if !r.ok || (!r.anyCtx && decide (r.ctx ≠ ctx)) then .error 2
    else .ok r
/-- Bytes of one padded row of a box (R140). -/
def rowBytes (esz : Nat) (boxes : List Nat) : Nat := (boxes.headD 1 * esz + 15) / 16 * 16
/-- Padded bytes of a box. -/
def boxBytes (esz : Nat) (boxes : List Nat) : Nat := (boxes.drop 1).foldl (· * ·) (rowBytes esz boxes)
/-- The checks of acceptance: the command as it will run, or the subcause (R139, R140). The model's choice, where R140 names no subcause and R151
none for it: a misaligned DEST or OBJ gives SUB 4 as a bad block field does, and OBJ is tested for alignment and window only where OBJV = 1. -/
def acceptCmd (s : State) (c : CopyCmd) : Except Nat CopyCmd :=
  match scratchPos s c.core c.plot c.blk 32 with
  | none => .error 3
  | some p =>
    let w (o : Nat) : Nat := scrRead s c.core (p + o) 4
    match tensorOf s (plotCtx s c.core c.plot) (w 0) with
    | .error e => .error e
    | .ok r =>
      let w4 := w 4
      let dest := w 0x18
      let obj := w 0x1C
      let total := boxBytes r.esz r.boxes
      if w4 % 2 ^ 27 ≠ 0 ∨ dest ≥ 2 ^ 22 ∨ obj ≥ 2 ^ 22 ∨ w4 / 2 ^ 28 > 3 ∨ dest % 16 ≠ 0 ∨ (w4.testBit 27 ∧ obj % 16 ≠ 0) then .error 4
      else if (scratchPos s c.core c.plot dest total).isNone ∨ (w4.testBit 27 ∧ (scratchPos s c.core c.plot obj 16).isNone) then .error 3
      else .ok { c with accepted := true, dest := dest, rot := w4 / 2 ^ 28, obj := if w4.testBit 27 then some obj else none, base := r.base
                        esz := r.esz, coords := (List.range 4).map fun d => (BitVec.ofNat 32 (w (8 + 4 * d))).toInt
                        extents := r.extents, strides := r.strides, boxes := r.boxes, total := total }
/-- A fault of a channel after issue: it freezes, and its fragment goes to the issuing plot (R141, R161). -/
def channelFault (s : State) (cl ch : Nat) (c : CopyCmd) (sub page : Nat) (svc : Bool) : State :=
  engineFrag (updChannel s cl ch fun k => { k with frozen := true }) c.core c.plot 1 ch (engFault sub 1 ch c.blk c.done) page false svc
/-- Does the channel move: not frozen, its plot not frozen (R141, R162)? -/
def channelMoves (s : State) (c : Channel) : Bool :=
  !c.frozen && match c.cmds with
    | x :: _ => (getPlot (getCore s x.core) x.plot).frozen.isNone
    | [] => true
/-- The engine accepts the command at the head of a channel's queue (R140). -/
def execCopyCommandAccept (cluster channel : Nat) (s : State) : Out :=
  let k := getChannel s cluster channel
  .next (match k.cmds with
    | [] => s
    | c :: rest =>
      if c.accepted || !channelMoves s k then s
      else match acceptCmd s c with
        | .error sub => channelFault s cluster channel c sub 0 false
        | .ok c' =>
          let s := emitR s (unitCopy cluster channel) 0x0101 (getPlot (getCore s c.core) c.plot).cid c'.total
          fillEnd (updChannel s cluster channel fun k => { k with cmds := c' :: rest }) c' (k.wptr + c'.total))

/-! ### Delivery (R65, R93, R140) -/

/-- Box indices of row r over dimensions 1 to 3. -/
def rowIndex : List Nat → Nat → List Nat
  | [], _ => []
  | b :: rest, r => r % b :: rowIndex rest (r / b)
/-- Global address of an element of a box, or none where it lies outside an extent (R140). -/
def elemAddr (c : CopyCmd) (row k : Nat) : Option Nat :=
  let idx := k :: rowIndex (c.boxes.drop 1) row
  let pos := (idx.zip c.coords).map fun e => (e.1 : Int) + e.2
  if (pos.zip c.extents).all fun e => decide (0 ≤ e.1) && decide (e.1 < e.2) then
    some ((c.base + ((pos.zip c.strides).map fun e => e.1.toNat * e.2).sum) % 2 ^ 64)
  else none
/-- The bytes of one 16-byte chunk of the stream: elements, zeros outside the extents; the padding of a row is free (log 29). -/
inductive ChunkRes where
  | ok (bs : List Byte)
  | fault (page sub : Nat) (decline : Bool)
  | busy
  deriving DecidableEq, Repr
/-- Read the elements of a chunk one after another. -/
def chunkBytes (cl ctx : Nat) (c : CopyCmd) (row : Nat) : List Nat → State → ChunkRes × State
  | [], s => (.ok [], s)
  | k :: rest, s =>
    let here : ChunkRes × State :=
      if k ≥ c.boxes.headD 1 then let r := freeBytes s c.esz; (.ok r.1, r.2)
      else match elemAddr c row k with
        | none => (.ok (List.replicate c.esz 0), s)
        | some va => match engPlan s (some cl) ctx va c.esz false with
          | (.ok l, s) => let r := planRead s ctx l; (.ok r.1, r.2)
          | (.fault p sub d, s) => (.fault p sub d, s)
          | (.busy, s) => (.busy, s)
    match here with
    | (.ok bs, s) => match chunkBytes cl ctx c row rest s with
      | (.ok r, s) => (.ok (bs ++ r), s)
      | r => r
    | r => r
/-- Where logical chunk at a position goes: bits [6:4] turned by the row (R65). -/
def rotPos (pos row rot : Nat) : Nat := pos / 128 * 128 + (pos / 16 % 8 + row % 2 ^ rot) % 8 * 16 + pos % 16
/-- Deliver one chunk of a command: nothing is written where it faults. The model's choice: where DEST is not aligned to 128 bytes a rotated chunk
may go to bytes of its 128-byte span outside DEST to DEST + box bytes, and it is written there without a further check; the rules check the box
alone (R65, R140). -/
def deliverChunk (s : State) (cl : Nat) (c : CopyCmd) (off : Nat) : ChunkRes × State :=
  let rb := rowBytes c.esz c.boxes
  let row := off / rb
  let k0 := off % rb / c.esz
  match chunkBytes cl (plotCtx s c.core c.plot) c row ((List.range (16 / c.esz)).map (k0 + ·)) s with
  | (.ok bs, s) => match scratchPos s c.core c.plot (c.dest + off) 16 with
    | none => (.fault 0 3 true, s)
    | some p => (.ok bs, scrWrite s c.core (rotPos p row c.rot) 16 (leNat bs))
  | r => r
/-- Deliver chunks up to the next advance point: how far, and the failure if there is one (R93). -/
def deliverTo (cl : Nat) (c : CopyCmd) (stop : Nat) : Nat → Nat → State → Nat × Option (Nat × Nat × Bool) × Bool × State
  | 0, off, s => (off, none, false, s)
  | n + 1, off, s =>
    if off ≥ stop then (off, none, false, s)
    else match deliverChunk s cl c off with
      | (.ok _, s) => deliverTo cl c stop n (off + 16) s
      | (.fault p sub d, s) => (off, some (p, sub, d), false, s)
      | (.busy, s) => (off, none, true, s)
/-- The next advance point after `done` bytes: 16 bytes on, or the end of the 128-byte span under rotation (R93). -/
def advancePoint (c : CopyCmd) : Nat := if c.rot = 0 then c.done + 16 else min c.total (c.done + (128 - (c.dest + c.done) % 128))
/-- A channel delivers up to its next advance point: the pointer moves, the object is credited, waiters go on (R93, R135, R140). -/
def copyDeliver (s : State) (cl ch : Nat) (k : Channel) (c : CopyCmd) (rest : List CopyCmd) : State :=
  let stop := advancePoint c
  match deliverTo cl c stop 9 c.done s with
  | (_, some (p, sub, _), _, s) => channelFault s cl ch c (if sub = 3 then 3 else 5) p (sub != 3)
  | (_, none, true, s) => s
  | (_, none, false, s) =>
    let n := stop - c.done
    let c' := { c with done := stop }
    let fin := decide (stop ≥ c.total)
    let s := updChannel s cl ch fun x => { x with wptr := (k.wptr + n) % 2 ^ 64, cmds := if fin then rest else c' :: rest }
    let s := match c.obj.bind fun o => scratchPos s c.core c.plot o 16 with
      | some p => objCredit s cl p n (srcChannel cl ch)
      | none => s
    let s := if fin then emitR s (unitCopy cl ch) 0x0102 (getPlot (getCore s c.core) c.plot).cid ((k.wptr + n) % 2 ^ 64) else s
    wakePointers s cl ch
/-- A master freezes: list entry, ring entry, record (R348, R375). -/
def freezeMaster (s : State) (kind id group queue : Nat) (tag : Word) (unit : Word) (cid : DWord) : State :=
  let s := if s.frozen.length < 64 then { s with frozen := s.frozen ++ [{ kind := kind, id := id, group := group, time := s.now }] } else countDrop s 5
  emitR (ringPost s queue 5 tag) unit 0x0402 cid
/-- Node CID (R418, R419). -/
def nodeCid (s : State) (run node : Nat) : DWord := BitVec.ofNat 64 (deviceNo s * 2 ^ 50 + run % 2 ^ 26 * 2 ^ 24 + node % 2 ^ 12 * 2 ^ 12)
/-- Run CID (R419). -/
def runCid (s : State) (run : Nat) : DWord := nodeCid s run 0xFFF
/-- A COPY node's next piece, up to a line; the write pointer of its channel goes on, and its copy-end record bears it (R311, R348); a translation fault freezes the channel and goes to page service
(R361). -/
def jobDeliver (s : State) (cl ch : Nat) (j : CopyJob) : State :=
  let n := min (j.bytes - j.done) (128 - (j.dst + j.done) % 128)
  let fail (s : State) (page : Nat) (wr : Bool) : State :=
    let s := updChannel s cl ch fun k => { k with frozen := true, job := k.job.map fun j => { j with page := page, wr := wr, since := s.now } }
    { s with fwEvents := s.fwEvents ++ [{ key := 0x10000 + j.ctx, what := 2, x := j.run * 4096 + j.node, y := page64 page, since := s.now }] }
  match engPlan s (some cl) j.ctx (j.src + j.done) n false with
  | (.fault p _ _, s) => fail s p false
  | (.busy, s) => s
  | (.ok l, s) =>
    match engPlan s (some cl) j.ctx (j.dst + j.done) n true with
    | (.fault p _ _, s) => fail s p true
    | (.busy, s) => s
    | (.ok m, s) =>
      let r := planRead s j.ctx l
      let w := planWrite r.2 j.ctx m r.1
      let s := updChannel w.2 cl ch fun k =>
        { k with job := some { j with done := j.done + n, gwct := max j.gwct w.1 }, wptr := (k.wptr + n) % 2 ^ 64 }
      if j.done + n ≥ j.bytes then emitR s (unitCopy cl ch) 0x0102 (nodeCid s j.run j.node) (getChannel s cl ch).wptr else s
def execCopyChunkDelivery (cluster channel : Nat) (s : State) : Out :=
  let k := getChannel s cluster channel
  .next (if !channelMoves s k then s
    else match k.job, k.cmds with
      | some j, _ => if j.done ≥ j.bytes then s else jobDeliver s cluster channel j
      | none, c :: rest => if c.accepted then copyDeliver s cluster channel k c rest else s
      | none, [] => s)

/-! ### Gathers (R150, R274) -/

/-- Progress of a long operation, where `prog` still reads it (R132, R150). -/
def setProg (s : State) (ci : Nat) (tids : List Nat) (id n : Nat) : State :=
  updThreads s ci tids fun th => if th.longOp = some id then { th with prog := BitVec.ofNat 32 n } else th
/-- The block of a gather, with the subcause of a failed check (R150, R151). -/
def gatherOf (s : State) (ci plot blk pos id : Nat) (tids : List Nat) : Gather :=
  let w (o : Nat) : Nat := scrRead s ci (pos + o) 4
  let base := w 0 + 2 ^ 32 * w 4
  let cnt := w 0xC % 2 ^ 16 + 1
  let esz := w 0x10 % 2 ^ 9
  let inside (a n : Nat) : Bool := (scratchPos s ci plot a n).isSome
  let bad := if w 8 ≥ 2 ^ 22 ∨ w 0xC ≥ 2 ^ 16 ∨ w 0x10 ≥ 2 ^ 9 ∨ w 0x18 ≥ 2 ^ 22 ∨ w 0x1C ≥ 2 ^ 22 ∨ esz = 0 ∨ esz > 256 ∨ esz % 16 ≠ 0 ∨ w 0x1C % 16 ≠ 0 then some 4
    else if !inside (w 8) (4 * cnt) || !inside (w 0x18) (esz * cnt) || !inside (w 0x1C) 16 then some 3
    else none
  { id := id, plot := plot, tids := tids, base := base, idx := w 8, cnt := cnt, esz := esz, stride := w 0x14, dest := w 0x18, obj := w 0x1C
    blk := blk, bad := bad }
/-- Has one of these threads a gather outstanding (R150)? -/
def gathering (c : Core) (tids : List Nat) : Bool := c.gathers.any fun g => g.tids.any tids.contains
/-- `gath` (R150, R274). -/
def gathPart (a : Src) (act : List Nat) : Part := fun s tid th =>
  let ci := s.cur.core
  let tids := if isUnif s then act else [tid]
  match checkScratch s ci th.plot (sv th a).toNat 32 32 4 false with
  | .error f => (s, { fault := some f })
  | .ok pos =>
    if gathering (getCore s ci) tids then (s, { wait := some (.retry 10) })
    else
      let (id, s) := freshId s
      let g := gatherOf s ci th.plot (sv th a).toNat pos id tids
      let s := updCore s ci fun c => { c with gathers := c.gathers ++ [g] }
      (updThreads s ci tids fun th => { th with longOp := some id, prog := 0 }, {})
def execGath (p : Pipe) (px : Option Px) (a : Src) (s : State) : Out :=
  let i : Instr := .gath p px a
  .next (runDrill i latInt (gathPart a (((activeThreads i s).filter fun e => (preFault i s (activeThreads i s) e.2).isNone).map (·.1))) s)
/-- Change a gather. -/
def updGather (s : State) (ci id : Nat) (f : Gather → Gather) : State :=
  updCore s ci fun c => { c with gathers := c.gathers.map fun g => if g.id = id then f g else g }
/-- A gather faults after issue: it stops at its progress (R141, R150). -/
def gatherFault (s : State) (ci : Nat) (g : Gather) (sub page : Nat) (svc : Bool) : State :=
  engineFrag (updGather s ci g.id fun g => { g with frozen := true }) ci g.plot 3 g.id (engFault sub 3 0 g.blk g.done) page false svc
/-- The gather engine copies the next element (R150). -/
def gatherStep (s : State) (ci : Nat) (g : Gather) : State :=
  let cl := clusterOf ci
  match g.bad, scratchPos s ci g.plot (g.idx + 4 * g.done) 4, scratchPos s ci g.plot (g.dest + g.done * g.esz) g.esz, scratchPos s ci g.plot g.obj 16 with
  | some sub, _, _, _ => gatherFault s ci g sub 0 false
  | none, some ip, some dp, some op =>
    let ctx := plotCtx s ci g.plot
    match engPlan s (some cl) ctx (g.base + scrRead s ci ip 4 * g.stride) g.esz false with
    | (.fault p _ _, s) => gatherFault s ci g 5 p true
    | (.busy, s) => s
    | (.ok l, s) =>
      let r := planRead s ctx l
      let s := scrWrite r.2 ci dp g.esz (leNat r.1)
      let s := setProg s ci g.tids g.id (g.done + 1)
      let s := if g.done + 1 ≥ g.cnt then updCore s ci fun c => { c with gathers := c.gathers.filter fun x => x.id != g.id }
               else updGather s ci g.id fun g => { g with done := g.done + 1 }
      objCredit s cl op g.esz (srcCore ci (slotOf (g.tids.headD 0)))
  | none, _, _, _ => gatherFault s ci g 3 0 false
def execGatherElement (core id : Nat) (s : State) : Out :=
  .next (match (getCore s core).gathers.find? fun g => g.id == id with
    | some g => if g.frozen || (getPlot (getCore s core) g.plot).frozen.isSome then s else gatherStep s core g
    | none => s)

end Sys2Proof.Machine
end

