-- ==== Sys2Proof/Machine/Collectives.lean ====
section
/-!
DEFINITION. Collective engines (07_async_engines_model R144 to R147, R435; 21_program_two_communicators R318 to R320;
33_causality_waitfor_watchdogs R419, R424): commands and their checks, send units, chunks that land, steps, completion, watchdogs.
-/
namespace Sys2Proof.Machine
open Sys2Proof

/-! ### Commands (R144, R272) -/

/-- The words 0 and 1 of a command block: is a field reserved or nonzero where it must be zero (R144)? -/
def collWordsBad (w0 w1 : Nat) : Bool :=
  let op := fieldN w0 23 20
  let ch := w1 % 2 ^ 9
  decide (w0 ≥ 2 ^ 24) || decide (op > 4) || !([0, 1, 2, 5, 6].contains (fieldN w0 19 16)) || (decide (op ≤ 1) && decide (fieldN w0 15 12 > 2))
    || decide (fieldN w0 11 8 > 7) || decide (fieldN w1 15 9 ≠ 0) || decide (ch % 4 ≠ 0) || decide (ch > 256)
/-- An operation from its words and addresses (R144). -/
def collOfWords (w0 w1 src dst count : Nat) : CollOp :=
  { comm := w0 % 256, op := fieldN w0 23 20, type := fieldN w0 19 16, red := fieldN w0 15 12, pri := fieldN w0 11 8, root := w1 / 2 ^ 16
    chunk := (if w1 % 2 ^ 9 = 0 then 64 else w1 % 2 ^ 9) * 1024, src := src, dst := dst, count := count }
/-- What is wrong with an operation for a context: the subcause (R144). -/
def collCheck (s : State) (o : CollOp) (ctx : Nat) : Option Nat :=
  match o.bad with
  | some b => some b
  | none =>
    match tget s.comms o.comm with
    | none => some 7
    | some c => if c.ctx ≠ ctx then some 7 else if o.op = 3 ∧ o.root ≥ c.ranks.length then some 4 else none
/-- Bytes of an element (R144). -/
def collWidth (o : CollOp) : Nat := typeBits o.type / 8
/-- Elements of rank q's slice: first and one past the last (R435). -/
def sliceOf (o : CollOp) (ranks q : Nat) : Nat × Nat := (q * o.count / ranks, (q + 1) * o.count / ranks)
/-- Elements of a chunk. -/
def chunkElems (o : CollOp) : Nat := o.chunk / collWidth o
/-- The elements that chunk k of a range holds. -/
def chunkRange (o : CollOp) (r : Nat × Nat) (k : Nat) : Nat × Nat := (min r.2 (r.1 + k * chunkElems o), min r.2 (r.1 + (k + 1) * chunkElems o))
/-- Longest slice of a rank. -/
def longestSlice (o : CollOp) (ranks : Nat) : Nat := (List.range ranks).foldl (fun n q => max n ((sliceOf o ranks q).2 - (sliceOf o ranks q).1)) 0
/-- Steps of an operation: one for each chunk, one for a barrier (R318, R319; log 28 for more than two ranks). -/
def collSteps (o : CollOp) (ranks : Nat) : Nat :=
  let per (n : Nat) : Nat := (n + chunkElems o - 1) / chunkElems o
  match o.op with
  | 0 => per o.count
  | 1 => per (longestSlice o ranks)
  | 2 => per (longestSlice o ranks)
  | 3 => per o.count
  | _ => 1
/-- A command arrives at its communicator: in order, with its step numbers (R145, R419). -/
def collArrive (s : State) (o : CollOp) : State :=
  match tget s.comms o.comm with
  | none => s
  | some c =>
    let n := collSteps o c.ranks.length
    let key := o.cid.toNat
    let b := tgetD s.stepNos key 0
    { s with stepNos := tput s.stepNos key (b + n), comms := tput s.comms o.comm { c with ops := c.ops ++ [{ o with base := b }] } }
/-- UNIT of a communicator's engine, as KIND 2 of a fault has it (R151). -/
def engineOf (s : State) (comm : Nat) : Nat := (tgetD s.comms comm {}).engine
/-- The engine fault of an operation (R141, R151). -/
def collFaultRec (s : State) (o : CollOp) (sub prog : Nat) : FaultRec := engFault sub 2 (engineOf s o.comm) o.blk prog
/-- A command that fails its checks does not start (R144). -/
def collRefuse (s : State) (o : CollOp) (sub : Nat) : State :=
  engineFrag { s with collHeld := s.collHeld ++ [o] } o.core o.plot 2 o.id (collFaultRec s o sub 0) 0 false false
/-! ### Operations under way -/

/-- Change the operation at the head of a communicator. -/
def updHead (s : State) (comm : Nat) (f : CollOp → CollOp) : State :=
  { s with comms := tupd s.comms comm fun c => match c.ops with
      | o :: rest => { c with ops := f o :: rest }
      | [] => c }
/-- Context under which the engine translates for a communicator (R144). -/
def commCtx (s : State) (comm : Nat) : Nat := (tgetD s.comms comm {}).ctx
/-- Page service for an operation whose translation failed (R161, R435; R348 for a COLL node). While its plot is saved the
operation stands, and the fragment comes with the restore (log 28). -/
def collTransFault (s : State) (o : CollOp) (page : Nat) (wr : Bool) : State :=
  let s := updHead s o.comm fun o => { o with frozen := true, page := page, wr := wr, since := s.now, owes := if o.savedAt.isSome then some true else none }
  match o.node with
  | none => if o.savedAt.isSome then s else engineFrag s o.core o.plot 2 o.id (collFaultRec s o 5 (o.ended * chunkElems o)) page wr true
  | some (run, node) => { s with fwEvents := s.fwEvents ++ [{ key := 0x10000 + commCtx s o.comm, what := 2, x := run * 4096 + node, y := page64 page, since := s.now }] }
/-- The CID of a step (R419): numbers wrap from 4,095 to 1. -/
def stepCid (o : CollOp) (no : Nat) : DWord := (o.cid &&& ~~~0xFFF) ||| BitVec.ofNat 64 (no % 2 ^ 12)
/-- STEP of the step with index k (R419). -/
def stepNo (o : CollOp) (k : Nat) : Nat := (o.base + k) % 4095 + 1
/-- The lower median of durations (R320). -/
def medianOf (l : List Nat) : Nat := (l.mergeSort (· ≤ ·)).getD ((l.length + 1) / 2 - 1) 0
/-- Deadline of a step, in quarter-nanoseconds (R320, R424). -/
def stepDeadline (s : State) (comm : Nat) (c : Comm) (o : CollOp) (st : CollStep) : Nat :=
  let ctl := regN s (0x130000 + 8 * comm)
  let l := tgetD c.durs o.op []
  st.start + (if ctl % 2 ^ 30 ≠ 0 then ctl % 2 ^ 30 * 4 else if l.isEmpty then regN s (0x130004 + 8 * comm) * 4 else 2 * medianOf l)
/-- A step starts, with what has landed for it before; its record names the rank and the deadline (R311, R318, R319; log 87). -/
def startStep (s : State) (comm k : Nat) (sent : Bool) : State :=
  match tget s.comms comm with
  | none => s
  | some c => match c.ops with
    | [] => s
    | o :: _ =>
      let e := (o.early.find? (·.idx == k)).getD {}
      let s := updHead s comm fun o =>
        { o with next := k + 1, early := o.early.filter (·.idx != k)
                 steps := o.steps ++ [{ e with idx := k, no := stepNo o k, start := s.now, sent := sent }] }
      emitR s (unitOf 2 c.engine) 0x0110 (stepCid o (stepNo o k)) (c.me + stepDeadline s comm c o { start := s.now } * 2 ^ 16)
/-- Bytes that the unit of step k sends to rank q: a chunk, the last one of a range short, or a 64-byte token (R318, R435). -/
def unitBytes (o : CollOp) (c : Comm) (k q : Nat) : Nat :=
  let size (r : Nat × Nat) : Nat := ((chunkRange o r k).2 - (chunkRange o r k).1) * collWidth o
  let n := c.ranks.length
  match o.op with
  | 1 => size (sliceOf o n q)
  | 2 => size (sliceOf o n c.me)
  | 4 => 64
  | _ => size (0, o.count)
/-- Has this rank a send unit in step k of an operation: bytes for some peer (R318)? Where the slices are unequal a step may have none. -/
def hasUnit (o : CollOp) (c : Comm) (k : Nat) : Bool :=
  (o.op != 3 || o.root == c.me) && (List.range c.ranks.length).any fun q => q != c.me && unitBytes o c k q != 0
/-- Can the next send unit of a communicator start (R318): an operation is current, a unit is left, every peer has room? -/
def unitReady (c : Comm) : Bool :=
  match c.ops with
  | [] => false
  | o :: _ =>
    !o.frozen && hasUnit o c o.next && decide (o.next < collSteps o c.ranks.length)
      && (List.range c.ranks.length).all fun q => q == c.me || decide (tgetD c.room q 0 ≥ unitBytes o c o.next q)
/-- The communicators of an engine whose operations are ready, with priority and age. -/
def readyComms (s : State) (engine : Nat) : List (Nat × Nat × Nat) :=
  s.comms.filterMap fun e => if e.2.engine = engine ∧ unitReady e.2 then
    e.2.ops.head?.map fun o => (e.1, o.pri, o.issued) else none
/-- Highest PRI, then oldest (R146). -/
def bestComm (l : List (Nat × Nat × Nat)) : Option Nat :=
  match l with
  | [] => none
  | x :: t => some (t.foldl (fun a b => if b.2.1 > a.2.1 ∨ (b.2.1 = a.2.1 ∧ b.2.2 < a.2.2) then b else a) x).1
/-- Source elements that the unit of step k sends: of the whole, of the own slice, or of each peer's slice (R319, R435). -/
def unitRanges (o : CollOp) (c : Comm) (k : Nat) : List (Nat × Nat) :=
  let n := c.ranks.length
  match o.op with
  | 0 | 3 => [chunkRange o (0, o.count) k]
  | 1 => ((List.range n).filter (· != c.me)).map fun q => chunkRange o (sliceOf o n q) k
  | 2 =>
    let r := chunkRange o (sliceOf o n c.me) k
    let lo := (sliceOf o n c.me).1
    [(r.1 - lo, r.2 - lo)]
  | _ => []
/-- Translate the source of ranges of elements. -/
def planRanges (s : State) (ctx base w : Nat) (wr : Bool) : List (Nat × Nat) → Pieces × State
  | [] => (.ok [], s)
  | r :: rest =>
    match engPlan s none ctx (base + r.1 * w) ((r.2 - r.1) * w) wr with
    | (.ok l, s) => match planRanges s ctx base w wr rest with
      | (.ok m, s) => (.ok (l ++ m), s)
      | x => x
    | x => x

/-! ### Combining (R145, R319, R435) -/

/-- Elements of a run of bytes. -/
def elemsOf (w : Nat) : Nat → List Byte → List Nat
  | 0, _ => []
  | n + 1, bs => leNat (bs.take w) :: elemsOf w n (bs.drop w)
/-- One step of a reduction of two elements, under RNE (R145). -/
def redTwo (type red x y : Nat) : Nat :=
  match fmtOf type with
  | some f =>
    match red with
    | 0 => (fAdd f 0 false (unpack f x) (unpack f y)).bits
    | 1 => (fMinMax f false x y).bits
    | _ => (fMinMax f true x y).bits
  | none =>
    let a : Word := BitVec.ofNat 32 x
    let b : Word := BitVec.ofNat 32 y
    match red with
    | 0 => (a + b).toNat
    | 1 => if type = 5 then (if a.toInt ≤ b.toInt then x else y) else min x y
    | _ => if type = 5 then (if a.toInt ≤ b.toInt then y else x) else max x y
/-- Is a tree a schedule of n ranks: does each stand in it once? -/
def schedOk (n : Nat) (t : Config.Sched) : Bool := t.ranks.length == n && (List.range n).all t.ranks.contains
/-- What a schedule gives, each of its combining steps rounded (R145). -/
def schedEval (f : Nat → Nat → Nat) (l : List Nat) : Config.Sched → Nat
  | .rank q => l.getD q 0
  | .both a b => f (schedEval f l a) (schedEval f l b)
/-- The ranks in the order of their communicator's schedule: rank 0 first, and with three or more as the schedule has them (R145, R319;
log 28). -/
def schedRanks (devs : List Nat) : List Nat :=
  if devs.length > 2 ∧ schedOk devs.length (Config.collSched devs) then (Config.collSched devs).ranks else List.range devs.length
/-- One element over all ranks: rank 0 first, and with three or more by the communicator's own schedule (R145, R319; log 28). -/
def redElems (devs : List Nat) (o : CollOp) (l : List Nat) : Nat :=
  match l with
  | [] => 0
  | x :: rest =>
    if devs.length > 2 ∧ schedOk devs.length (Config.collSched devs) then schedEval (redTwo o.type o.red) l (Config.collSched devs)
    else rest.foldl (redTwo o.type o.red) x
/-- Combine the contributions of every rank to n elements. -/
def combine (devs : List Nat) (o : CollOp) (n : Nat) (bs : List (List Byte)) : List Byte :=
  let w := collWidth o
  let cols := bs.map (elemsOf w n)
  (List.range n).flatMap fun e => natLe w (redElems devs o (cols.map fun c => c.getD e 0))
/-- What step k writes on this rank: elements from and to with their offset in DST, and the bytes (R319, R435). -/
def stepOut (o : CollOp) (c : Comm) (st : CollStep) (mine : List Byte) : List (Nat × List Byte) :=
  let n := c.ranks.length
  let w := collWidth o
  let part (q : Nat) : List Byte := if q = c.me then mine else tgetD st.got q []
  match o.op with
  | 0 => let r := chunkRange o (0, o.count) st.idx; [(r.1 * w, combine c.ranks o (r.2 - r.1) ((List.range n).map part))]
  | 1 =>
    let sl := sliceOf o n c.me
    let r := chunkRange o sl st.idx
    [((r.1 - sl.1) * w, combine c.ranks o (r.2 - r.1) ((List.range n).map part))]
  | 2 => (List.range n).map fun q => let r := chunkRange o (sliceOf o n q) st.idx; (r.1 * w, (part q).take ((r.2 - r.1) * w))
  | 3 =>
    let r := chunkRange o (0, o.count) st.idx
    if o.root = c.me then (if o.src = o.dst then [] else [(r.1 * w, mine)]) else [(r.1 * w, (part o.root).take ((r.2 - r.1) * w))]
  | _ => []
/-- The own elements that a step combines or copies: their ranges in SRC. -/
def ownRanges (o : CollOp) (c : Comm) (k : Nat) : List (Nat × Nat) :=
  match o.op with
  | 0 => [chunkRange o (0, o.count) k]
  | 1 => [chunkRange o (sliceOf o c.ranks.length c.me) k]
  | 2 => unitRanges o c k
  | 3 => if o.root = c.me then [chunkRange o (0, o.count) k] else []
  | _ => []
/-- Elements that step k of an operation takes from rank q: a chunk of the own slice, of that rank's slice, or of the whole (R435). -/
def contribution (o : CollOp) (c : Comm) (k q : Nat) : Nat :=
  let n := c.ranks.length
  let r := chunkRange o (if o.op = 1 then sliceOf o n c.me else if o.op = 2 then sliceOf o n q else (0, o.count)) k
  if o.op = 4 then 1 else r.2 - r.1
/-- Ranks whose contribution step k needs (R435). -/
def needed (o : CollOp) (c : Comm) (k : Nat) : List Nat :=
  (if o.op = 3 then (if o.root = c.me then [] else [o.root]) else (List.range c.ranks.length).filter (· != c.me)).filter fun q =>
    contribution o c k q != 0
/-- Write the parts of a step, once all of them translate. -/
def writeParts (s : State) (ctx dst : Nat) : List (Nat × List Byte) → Pieces × Nat × State
  | [] => (.ok [], 0, s)
  | p :: rest =>
    match engPlan s none ctx (dst + p.1) p.2.length true with
    | (.ok l, s) =>
      match writeParts s ctx dst rest with
      | (.ok m, g, s) => let w := planWrite s ctx l p.2; (.ok m, max g w.1, w.2)
      | x => x
    | (x, s) => (x, 0, s)
/-- Change the step with index k of an operation. -/
def updStep (o : CollOp) (k : Nat) (f : CollStep → CollStep) : CollOp :=
  { o with steps := o.steps.map (fun x => if x.idx = k then f x else x), early := o.early.map fun x => if x.idx = k then f x else x }
/-- A packet of a communicator to one of its ranks: it travels in class 2 + c (R383). -/
def commPacket (s : State) (c : Comm) (q : Nat) (cid : DWord) : Packet := ownPacket s (2 + c.cls) (c.ranks.getD q 0) cid
/-- The receive side returns the room of what a step has written, to each rank under the CID of its chunk (R146, R419). -/
def returnRoom (s : State) (c : Comm) (st : CollStep) : State :=
  st.got.foldl (fun s e => queuePacket s (commPacket s c e.1 (tgetD st.cids e.1 0))) s
/-- Combine and write a step that has every contribution (R318: the receive side needs no unit). -/
def finishWrite (s : State) (comm : Nat) (st : CollStep) : State :=
  match tget s.comms comm with
  | none => s
  | some c => match c.ops with
    | [] => s
    | o :: _ =>
      if st.written || o.frozen || !((needed o c st.idx).all fun q => (tget st.got q).isSome) then s
      else
        let w := collWidth o
        match planRanges s c.ctx o.src w false (ownRanges o c st.idx) with
        | (.fault p _ _, s) => collTransFault s o p false
        | (.busy, s) => s
        | (.ok l, s) =>
          let r := planRead s c.ctx l
          match writeParts r.2 c.ctx o.dst (stepOut o c st r.1) with
          | (.fault p _ _, _, s) => collTransFault s o p true
          | (.busy, _, s) => s
          | (.ok _, g, s) => returnRoom (updHead s comm fun o => updStep { o with gwct := max o.gwct g } st.idx fun x => { x with written := true }) c st
/-- The first step of an operation, started or not, that lacks a contribution of a rank which it needs (R318): contributions come in the
order of the steps. -/
def lacking (o : CollOp) (c : Comm) (rank : Nat) : Option Nat :=
  ((List.range (collSteps o c.ranks.length - o.ended)).map (· + o.ended)).find? fun k =>
    (needed o c k).contains rank && (((o.steps ++ o.early).find? (·.idx == k)).bind fun st => tget st.got rank).isNone
/-- Take a landed contribution of a rank into the step it is for, which need not have started: the receive side never waits (R318). -/
def takeLanded (s : State) (comm rank : Nat) : State :=
  match tget s.comms comm with
  | none => s
  | some c => match c.ops, tgetD c.landed rank [] with
    | o :: _, x :: rest =>
      (match lacking o c rank with
      | none => s
      | some k =>
        let st := ((o.steps ++ o.early).find? (·.idx == k)).getD { idx := k }
        let st' := { st with got := tput st.got rank x.2, cids := tput st.cids rank x.1 }
        let s := { s with comms := tupd s.comms comm fun c => { c with landed := tput c.landed rank rest } }
        let s := updHead s comm fun o => if (o.steps ++ o.early).any (·.idx == k) then o else { o with early := o.early ++ [st] }
        finishWrite (updHead s comm fun o => updStep o k fun _ => st') comm st')
    | _, _ => s
/-- Steps without a unit on this rank start when they become current (R319); landed contributions are taken. -/
def collAdvance (s : State) (comm : Nat) : State :=
  match tget s.comms comm with
  | none => s
  | some c => match c.ops with
    | [] => s
    | o :: _ =>
      let s := if !hasUnit o c o.next && o.steps.isEmpty && decide (o.next < collSteps o c.ranks.length) then startStep s comm o.next true else s
      let s := c.landed.foldl (fun s e => e.2.foldl (fun s _ => takeLanded s comm e.1) s) s
      -- a write that waited for a busy page or a repair is tried again
      match (tget s.comms comm).bind fun c => c.ops.head? with
      | some o => (o.steps ++ o.early).foldl (fun s st => finishWrite s comm st) s
      | none => s
/-- `coll.start` (R144, R272): the block is read at issue. R144 states no check of OBJ: the model's choice is SUB 4 where it is not aligned
to 16 bytes and SUB 3 where it lies outside the plot's window, by the letters of R151 (log 28). -/
def collStartPart (a : Src) : Part := fun s _ th =>
  let ci := s.cur.core
  match checkScratch s ci th.plot (sv th a).toNat 64 64 4 false with
  | .error f => (s, { fault := some f })
  | .ok pos =>
    let w (o : Nat) : Nat := scrRead s ci (pos + o) 4
    let d (o : Nat) : Nat := scrRead s ci (pos + o) 8
    let (id, s) := freshId s
    let obj := w 0x20
    let mbz := (List.range 7).any fun k => decide (w (0x24 + 4 * k) ≠ 0)
    let bad := if collWordsBad (w 0) (w 4) || mbz || decide (obj ≥ 2 ^ 22) || decide (obj % 16 ≠ 0) then some 4
      else if (scratchPos s ci th.plot obj 16).isNone then some 3 else none
    let o : CollOp := { collOfWords (w 0) (w 4) (d 8) (d 0x10) (d 0x18) with
      id := id, cid := (getPlot (getCore s ci) th.plot).cid, core := ci, plot := th.plot, blk := (sv th a).toNat, obj := obj, issued := s.now, bad := bad }
    (match collCheck s o (plotCtx s ci th.plot) with
      | some sub => collRefuse s o sub
      | none => collAdvance (collArrive s o) o.comm, {})
def execCollStart (p : Pipe) (px : Option Px) (a : Src) (s : State) : Out := .next (runDrill (.collStart p px a) latInt (collStartPart a) s)
/-- `coll.query` (R147, R272). -/
def collQueryPart (d : RegNo) (a : Src) : Part := fun s _ th =>
  let k := (sv th a).toNat % 256
  match tget s.comms k with
  | none => (s, { fault := some (engFault 7 2 0 0 0) })
  | some c => if c.ctx ≠ plotCtx s s.cur.core th.plot then (s, { fault := some (engFault 7 2 c.engine 0 0) })
              else (s, { regs := [(d.toNat, c.done)] })
def execCollQuery (p : Pipe) (px : Option Px) (d : RegNo) (a : Src) (s : State) : Out :=
  .next (runDrill (.collQuery p px d a) latInt (collQueryPart d a) s)

/-- The unit of an operation's next step goes to the peers: its bytes are taken from their room until they come back (R146). -/
def sendChunk (c : Comm) (o : CollOp) (peers : List Nat) : Comm :=
  let n (q : Nat) : Nat := unitBytes o c o.next q
  { c with room := peers.foldl (fun t q => tput t q (tgetD c.room q 0 - n q)) c.room
           owed := c.owed ++ (peers.filter fun q => n q != 0).map fun q => (o.id, o.next, q, n q, stepCid o (stepNo o o.next)) }
/-- At a boundary the engine takes the best ready operation and starts its next unit: the source chunk is read, the peers' room is taken,
the step starts (R146, R318). -/
def execCollUnitStart (engine : Nat) (s : State) : Out :=
  .next (match bestComm (readyComms s engine) with
    | none => s
    | some k => match tget s.comms k with
      | none => s
      | some c => match c.ops with
        | [] => s
        | o :: _ =>
          match planRanges s c.ctx o.src (collWidth o) false (unitRanges o c o.next) with
          | (.fault p _ _, s) => collTransFault s o p false
          | (.busy, s) => s
          | (.ok _, s) =>
            let peers := (List.range c.ranks.length).filter (· != c.me)
            let s := { s with comms := tupd s.comms k fun c => sendChunk c o peers }
            let s := startStep s k o.next true
            let s := (peers.filter fun q => unitBytes o c o.next q != 0).foldl (fun s q =>
              queuePacket s { commPacket s c q (stepCid o (stepNo o o.next)) with chunk := some (k, unitBytes o c o.next q) }) s
            collAdvance s k)

/-- An incoming chunk or token lands in its communicator's buffer, is combined and written (R146, R318, R419). -/
def execCollChunkReceived (comm rank : Nat) (cid : DWord) (data : List Byte) (s : State) : Out :=
  .next (match tget s.comms comm with
    | none => s
    | some c =>
      if rank = c.me ∨ rank ≥ c.ranks.length then s
      else
        let s := { s with comms := tput s.comms comm { c with landed := tput c.landed rank (tgetD c.landed rank [] ++ [(cid, data)]), lastCid := tput c.lastCid rank cid } }
        collAdvance (emitR s (unitOf 2 c.engine) 0x0113 cid (comm + rank * 2 ^ 16)) comm)

/-! ### Ends (R147, R320, R435) -/

/-- Keep a duration of a kind: the last 64 (R320). -/
def keepDur (c : Comm) (kind d : Nat) : Comm :=
  let l := tgetD c.durs kind [] ++ [d]
  { c with durs := tput c.durs kind (l.drop (l.length - 64)) }
/-- Peers that still owe the acknowledgement of a step which ends only with them: of a reduce-scatter, or of a broadcast on its root (R319,
R435). -/
def acksOwed (c : Comm) (o : CollOp) (st : CollStep) : List Nat :=
  if o.op = 1 ∨ (o.op = 3 ∧ o.root = c.me) then (c.owed.filter fun x => x.1 == o.id && x.2.1 == st.idx).map (·.2.2.1) else []
/-- May the first step in flight end: sent, its contributions in and written, and acknowledged where it ends only then (R319, R435)? -/
def stepOver (c : Comm) (o : CollOp) (st : CollStep) : Bool := st.sent && st.written && !o.frozen && (acksOwed c o st).isEmpty
/-- A peer has written its oldest chunk: the room of it comes back, in a packet that bears the chunk's CID (R146, R419). -/
def takeBack (c : Comm) (x : Nat × Nat × Nat × Nat × DWord) : Comm :=
  { c with room := tput c.room x.2.2.1 (tgetD c.room x.2.2.1 0 + x.2.2.2.1), owed := c.owed.erase x, lastCid := tput c.lastCid x.2.2.1 x.2.2.2.2 }
/-- Does a chunk stand in this device still, or was it dropped (R381)? Then no peer can write it. -/
def notArrived (s : State) (comm : Nat) (c : Comm) (x : Nat × Nat × Nat × Nat × DWord) : Bool :=
  c.lost.contains (x.2.2.1, x.2.2.2.2)
    || s.packets.any fun p => (p.chunk.map (·.1)) == some comm && p.dest == c.ranks.getD x.2.2.1 0 && p.cid == x.2.2.2.2
/-- The chunk whose room comes back, if one does: the oldest of a peer that a free choice names, and of some peer where no step can end (R146;
log 10). -/
def backNow (s : State) (comm : Nat) (c : Comm) : Option (Nat × Nat × Nat × Nat × DWord) :=
  let ends : Bool := match c.ops with
    | o :: _ => (o.steps.head?.map (stepOver c o)).getD false
    | [] => false
  let n := Config.freePick s.free
  let l := c.owed.filter fun x => !notArrived s comm c x
  if ends && n % 2 == 0 then none
  else (l[n / 2 % l.length]?).bind fun y => l.find? fun x => x.2.2.1 == y.2.2.1
/-- Of a communicator: room comes back from a peer, or the first step in flight ends (R146, R319, R435). -/
def execCollStepEnd (comm : Nat) (s : State) : Out :=
  let s := collAdvance s comm
  .next (match tget s.comms comm with
    | none => s
    | some c => match backNow s comm c with
      | some x => { s with comms := tput s.comms comm (takeBack c x), free := s.free + 1 }
      | none => match c.ops with
        | [] => s
        | o :: rest =>
          match o.steps with
          | [] => s
          | st :: more =>
            if !stepOver c o st then s
            else
              let c := keepDur { c with ops := { o with steps := more, ended := o.ended + 1 } :: rest } o.op (s.now - st.start)
              collAdvance (emitR { s with comms := tput s.comms comm c, free := s.free + 1 } (unitOf 2 c.engine) 0x0111 (stepCid o st.no)) comm)
/-- The arrival of a completed operation on its object, or in the save area that holds its plot (R147). -/
def collNotify (s : State) (engine : Nat) (o : CollOp) : State :=
  match o.node, o.savedAt with
  | some _, _ => s
  | none, some k => { s with savedParts := tupd s.savedParts k fun p => { p with collArr := p.collArr ++ [(o.obj, engine)] } }
  | none, none =>
    match scratchPos s o.core o.plot o.obj 16 with
    | none => s
    | some p => objUpdate s (clusterOf o.core) p fun x => { x with arr := (x.arr + 2 ^ 14 - 1) % 2 ^ 14, lsrc := srcEngine engine }
/-- The last step has ended and its GWCTs have passed: the engine arrives once on OBJ; the next operation becomes current (R145, R147). -/
def execCollOperationComplete (comm : Nat) (s : State) : Out :=
  .next (match tget s.comms comm with
    | none => s
    | some c => match c.ops with
      | [] => s
      | o :: rest =>
        if o.ended < collSteps o c.ranks.length ∨ !o.steps.isEmpty ∨ o.frozen ∨ o.gwct ≥ s.now ∧ o.gwct ≠ 0 then s
        else collAdvance (collNotify { s with comms := tput s.comms comm { c with ops := rest, done := c.done + 1 } } c.engine o) comm)
/-- The rank a late step waits for: whose missing contribution comes first in the schedule, else the lowest that owes an acknowledgement, else
this one (R320). -/
def lateRank (c : Comm) (o : CollOp) (st : CollStep) : Nat :=
  match (if o.op ≤ 1 then schedRanks c.ranks else List.range c.ranks.length).find? fun q => (needed o c st.idx).contains q && (tget st.got q).isNone with
  | some q => q
  | none => (acksOwed c o st).foldl min c.ranks.length |> fun q => if q < c.ranks.length then q else c.me
/-- The watchdog fault of the threads that wait for an operation (R424). -/
def watchFault (s : State) (comm : Nat) (o : CollOp) (st : CollStep) (dl : Nat) : State :=
  match o.node, o.savedAt, scratchPos s o.core o.plot o.obj 16 with
  | none, none, some pos =>
    let cl := clusterOf o.core
    let f : FaultRec := { group := 13, det0 := BitVec.ofNat 32 (st.no % 2 ^ 12 * 256 + comm), det1 := BitVec.ofNat 32 dl, det2 := BitVec.ofNat 32 (dl / 2 ^ 32) }
    let ws := objWaiters s cl pos
    let x := objAt s cl pos
    let s := putObj s cl pos { x with wcnt := x.wcnt - ws.length }
    ((ws.map (·.1)).eraseDups).foldl (fun s ci => takeFaults s ci ((ws.filter fun w => w.1 == ci).map fun w => (w.2.1, f))) s
  | _, _, _ => s
/-- A step reaches its deadline: one record, and with WDRAISE the watchdog fault (R320, R424). -/
def execCollWatchdogExpiry (comm : Nat) (s : State) : Out :=
  .next (match tget s.comms comm with
    | none => s
    | some c => match c.ops with
      | [] => s
      | o :: _ =>
        match o.steps.find? fun st => !st.warned && decide (stepDeadline s comm c o st ≤ s.now) with
        | none => s
        | some st =>
          let dl := stepDeadline s comm c o st
          let q := lateRank c o st
          let s := updHead s comm fun o => { o with steps := o.steps.map fun x => if x.idx = st.idx then { x with warned := true } else x }
          let s := if regBit s (0x130000 + 8 * comm) 31 then s
            else emitRec s { time := dl, cid := tgetD c.lastCid q 0, unit := unitOf 2 c.engine, type := 0x0114, flags := 0
                             payload := BitVec.ofNat 64 (q + c.ranks.getD q 0 * 2 ^ 16 + st.no * 2 ^ 32 + comm * 2 ^ 48) }
          if regBit s (0x130000 + 8 * comm) 30 then watchFault s comm o st dl else s)

end Sys2Proof.Machine
end

