-- ==== Sys2Proof/Machine/Fabric.lean ====
section
/-!
DEFINITION. The fabric (28_fabric_management R379 to R388): route banks, packets, links, their keys, and requests that arrive for this
device as a home.
-/
namespace Sys2Proof.Machine
open Sys2Proof

/-! ### Links (R384 to R387) -/

/-- A number with the field [hi:lo] replaced. -/
def putField (x hi lo v : Nat) : Nat := x - fieldN x hi lo * 2 ^ lo + v % 2 ^ (hi + 1 - lo) * 2 ^ lo
def setLinkState (s : State) (l st : Nat) : State := setRegN s (linkOff l) (putField (regN s (linkOff l)) 31 29 st)
/-- May the link train (R384)? -/
def linkEn (s : State) (l : Nat) : Bool := regBit s (linkOff l) 28
/-- Transmit key phase (R384). -/
def linkPhase (s : State) (l : Nat) : Nat := fieldN (regN s (linkOff l)) 25 24
def setLinkPhase (s : State) (l p : Nat) : State := setRegN s (linkOff l) (putField (regN s (linkOff l)) 25 24 p)
/-- Keys of a link. -/
def linkKeys (s : State) (l : Nat) : LinkKeys := tgetD s.keys l {}
def putKeys (s : State) (l : Nat) (k : LinkKeys) : State := { s with keys := tput s.keys l k }
/-- UNIT of a link (R409). -/
def unitLink (l : Nat) : Word := unitOf 5 l
/-- Is any link up (R379)? -/
def anyLinkUp (s : State) : Bool := (List.range 32).any fun l => linkState s l == 3

/-- Packets that wait for an egress take the first alternative that has become usable (R380, R381). -/
def retryPackets (s : State) : State :=
  { s with packets := s.packets.map fun p => if p.link.isNone then { p with link := egressLink s p.dest } else p }
/-- An identified link with a current key in each direction becomes up (R384). -/
def settleLink (s : State) (l : Nat) : State :=
  let k := linkKeys s l
  if linkState s l = 2 ∧ k.txCur.isSome ∧ k.rxCur.isSome then retryPackets (setLinkState s l 3) else s
/-- The keys of a link are discarded; a link that was up or key-stalled returns to identified (R384, R386). Phases start again at 0
(log 36). -/
def wipeLink (s : State) (l : Nat) : State :=
  let s := setLinkPhase (putKeys s l {}) l 0
  if linkState s l ≥ 3 then setLinkState s l 2 else s

/-- A link with EN, or one that a cold reset trains (R377), has trained and exchanged DOMAIN and DEVICE: identified, or down where the domains differ (R384). While
no firmware image has been accepted links are not trained (R377, R391). -/
def execLinkTrainingComplete (link domain device plink : Nat) (s : State) : Out :=
  .next (if link ≥ 32 ∨ s.sec.recovery ∨ !(linkEn s link || linkState s link == 1) ∨ linkState s link ≥ 2 then s
    else if domain % 2 ^ 16 ≠ fieldN (regN s 0x100000) 31 16 then emitR (setLinkState s link 0) (unitLink link) 0x0302 0
    else
      let w := putField (putField (putField (regN s (linkOff link)) 31 29 2) 23 19 plink) 13 0 device
      let s := setRegN { s with credit := s.credit.filter fun e => e.1 / 36 != link } (linkOff link) w
      settleLink (putKeys s link { linkKeys s link with pdom := domain % 2 ^ 16 }) link)
/-- The partner's end was reset: this end discards its keys and returns to identified (R384); the partner's buffers are empty (R382). -/
def execLinkPartnerReset (link : Nat) (s : State) : Out :=
  .next (if link < 32 ∧ linkState s link ≥ 2 then wipeLink { s with credit := s.credit.filter fun e => e.1 / 36 != link } link else s)

/-- The transmitter switches to its next key at a group boundary (R386 step 2). -/
def switchKey (s : State) (l : Nat) : State :=
  let k := linkKeys s l
  match k.txNext with
  | none => s
  | some n =>
    let s := putKeys s l { k with txCur := some n, txNext := none }
    setReg64 (setLinkPhase s l ((linkPhase s l + 1) % 4)) (linkOff l + 8) 0
/-- TXCTR has reached its end without a next key: the link is key-stalled (R387). -/
def stallLink (s : State) (l : Nat) : State := emitR (setLinkState s l 4) (unitLink l) 0x0304 0
/-- A virtual channel of a link: class and hop (R382). -/
def chanNo (l cls hop : Nat) : Nat := l * 36 + (cls * 6 + hop) % 36
/-- Has the partner's buffer of the packet's channel room for it: 8 flits (R382)? -/
def hasCredit (s : State) (l : Nat) (p : Packet) : Bool := decide (tgetD s.credit (chanNo l p.cls p.hop) 0 + p.flits ≤ 8)
/-- The oldest packet of each channel of a link, oldest first. -/
def channelHeads (l : Nat) (ps : List Packet) : List Packet :=
  ps.foldl (fun a p => if p.link == some l && !(a.any fun q => chanNo l q.cls q.hop == chanNo l p.cls p.hop) then a ++ [p] else a) []
/-- The packet that leaves with the next group: the oldest whose channel has credit for it, the packets of one channel in their order (R382;
log 37, 65). -/
def leaving (s : State) (l : Nat) : Option Packet := (channelHeads l s.packets).find? (hasCredit s l)
/-- A packet leaves on a link (R148, R382); that of a chunk is recorded (R311, R409). -/
def departPacket (s : State) (l : Nat) (p : Packet) : State :=
  let ch := chanNo l p.cls p.hop
  let s := { s with packets := s.packets.erase p, credit := tput s.credit ch (tgetD s.credit ch 0 + p.flits)
                    ways := match p.req with
                      | some q => if tget s.ways q == some .queued then tput s.ways q .left else s.ways
                      | none => s.ways }
  match p.chunk with
  | some x => emitR s (unitLink l) 0x0112 p.cid (p.dest + x.2 * 2 ^ 32)
  | none => s
/-- The packet that leaves with a group, if one does. -/
def sendPacket (s : State) (l : Nat) : State :=
  match leaving s l with
  | some p => departPacket s l p
  | none => s
/-- A link direction sends one flit group, or sends the latest one again as the partner has requested it: under the same counter, with nothing new
in it. Asked for once more after that, the resent group has failed too: the link goes down (R385 to R387). -/
def execFlitGroupTransmit (send : FlitSend) (s : State) : Out :=
  let link := send.link
  .next (if link ≥ 32 ∨ linkState s link ≠ 3 then s
    else if send.again then
      let k := linkKeys s link
      if reg64 s (linkOff link + 8) = 0 then s
      else if k.again then emitR (setLinkState (putKeys s link { k with again := false }) link 0) (unitLink link) 0x0303 0
      else putKeys s link { k with again := true }
    else
      let s := switchKey s link
      let s := putKeys s link { linkKeys s link with again := false }
      let n := reg64 s (linkOff link + 8)
      if n ≥ 2 ^ 64 - 1 then stallLink s link
      else
        let s := sendPacket (setReg64 s (linkOff link + 8) (n + 1)) link
        if n + 1 = 2 ^ 64 - 1 then stallLink s link else s)

/-- Which key a group's phase names: the current one, or the next one (R386). -/
def phaseKey (k : LinkKeys) (phase : Nat) : Option Bool :=
  if phase % 4 = k.rxPhase then k.rxCur.map fun _ => false
  else if phase % 4 = (k.rxPhase + 1) % 4 then k.rxNext.map fun _ => true
  else none
/-- With a group that authenticates the partner gives back the credit of one channel, which a free choice names (R382; log 65). -/
def creditBack (s : State) (l : Nat) : State := { s with credit := tdel s.credit (l * 36 + Config.freePick s.free % 36), free := s.free + 1 }
/-- A group has arrived; it authenticates where the phase names a key and its tag is right. A failing one is requested once more; then the
link goes down (R385, R386). -/
def execFlitGroupReceive (link phase : Nat) (tagOk : Bool) (s : State) : Out :=
  .next (if link ≥ 32 ∨ linkState s link < 3 then s
    else
      let k := linkKeys s link
      match (if tagOk then phaseKey k phase else none) with
      | some false => creditBack (putKeys s link { k with resent := false }) link
      | some true => creditBack (putKeys s link { k with resent := false, rxCur := k.rxNext, rxNext := none, rxPhase := phase % 4 }) link
      | none =>
        if k.resent then emitR (setLinkState (putKeys s link { k with resent := false }) link 0) (unitLink link) 0x0303 0
        else putKeys s link { k with resent := true })

/-! ### Routes and packets (R380 to R382) -/

/-- A write of LOAD (R380). -/
def execRouteTableLoad (s : State) : Out := .next (setRegBit s 0x100010 30 true)
/-- The entries of a 64 KiB image that are not 0 (R380). -/
def routeImage (s : State) : Tbl Word :=
  let a := reg64 s 0x100018 / 2 ^ 16 * 2 ^ 16
  (List.range 16384).filterMap fun d =>
    let v := leNat (keyedRead s s.sec.bootKey (a + 4 * d) 4)
    if v = 0 then none else some (d, BitVec.ofNat 32 v)
/-- Bits [6:5] of the four alternatives (R380). -/
def routeMbz : Word := 0x60606060
/-- The route load ends: BUSY is cleared, and the inactive bank holds the image, or nothing and ERR is set (R380). -/
def execRouteLoadComplete (s : State) : Out :=
  .next (if !regBit s 0x100010 30 then s
    else
      let img := routeImage s
      let bad := img.any fun e => e.2 &&& routeMbz != 0
      let s := setRegBit s 0x100010 30 false
      let s := if bad then setRegBit s 0x100010 29 true else s
      let t := if bad then [] else img
      if s.routeBank then { s with routes0 := t } else { s with routes1 := t })
/-- A write of SEL: the bank governs every later choice (R380). -/
def execRouteBankSelect (s : State) : Out := .next (retryPackets { s with routeBank := regBit s 0x100010 28 })

/-- A packet is dropped: counted at the link and recorded with the packet's CID (R381, R384, R409, R419). A packet that this device sent
and that never had a link is put down to alternative 0 of its entry (log 37). A request that it carries gets no response, and a chunk no
acknowledgement (R148). -/
def dropPacket (s : State) (p : Packet) : State :=
  let first := (tgetD (if s.routeBank then s.routes1 else s.routes0) p.dest 0).toNat % 32
  let l := (p.link.orElse fun _ => p.via).getD first
  let off := linkOff l + 0x10
  let s := if reg32 s off = 0xFFFFFFFF then s else setReg32 s off (reg32 s off + 1)
  let s := { s with
    ways := match p.req with
      | some q => if (tget s.ways q).isSome then tput s.ways q (.lost ((p.link.map fun l => linkState s l == 4) == some true)) else s.ways
      | none => s.ways
    comms := match p.chunk with
      | some x => tupd s.comms x.1 fun c => { c with lost := c.lost ++ [(c.ranks.findIdx (· == p.dest), p.cid)] }
      | none => s.comms }
  emitR s (unitLink l) 0x0301 p.cid
/-- Flits of packets that came in on a link's channel and are still here (R382). -/
def heldFlits (s : State) (link cls hop : Nat) : Nat :=
  ((s.packets.filter fun p => p.via == some link && p.cls == cls && p.hop == hop + 1).map (·.flits)).sum
/-- A packet arrives on a link, or this device sends it: it is delivered here, or takes the first usable alternative, or waits, or is
dropped after its sixth link (R381, R382). One for which its channel has no room here cannot have been sent. -/
def execPacketForward (link cls hop source dest : Nat) (local_ : Bool) (cid : DWord) (s : State) : Out :=
  .next (if cls ≥ 6 ∨ (!local_ && (decide (link ≥ 32) || decide (linkState s link < 3))) then s
    else if dest % 2 ^ 14 = deviceNo s then s
    else if local_ then queuePacket s (ownPacket s cls (dest % 2 ^ 14) cid)
    else if heldFlits s link cls hop + flitsNow s > 8 then s
    else
      let p : Packet := { link := none, via := some link, cls := cls, hop := hop + 1, source := source, dest := dest % 2 ^ 14, since := s.now, cid := cid }
      if hop ≥ 5 then dropPacket s p else queuePacket s p)
/-- Has a packet waited for longer than FTMO (R379, R381)? -/
def packetLate (s : State) (p : Packet) : Bool := decide (s.now > p.since + regN s 0x100008 % 2 ^ 16 * 4000)
/-- The packets that have waited longer than FTMO are dropped (R381). -/
def execPacketWaitTimeout (s : State) : Out :=
  .next (let late := s.packets.filter (packetLate s)
    late.foldl dropPacket { s with packets := s.packets.filter fun p => !packetLate s p })

/-! ### Requests of other devices (R388) -/

/-- Does inbound window i accept the request (R388)? -/
def windowTakes (s : State) (source a n : Nat) (wr : Bool) (i : Nat) : Bool :=
  let off := 0x102000 + 32 * i
  let c := regN s (off + 0x10)
  c.testBit 31 && decide (c % 2 ^ 14 = source) && (!wr || c.testBit 30) && decide (reg64 s off ≤ a)
    && decide (a + n ≤ reg64 s off + reg64 s (off + 8))
/-- The key under which a line stands. -/
def lineKeyAt (s : State) (a : Nat) : Nat := tgetD s.lineKeys (a / 128 * 128) 0
/-- Load, store or atomic (2 + its kind) of an arrived request, performed at this home (R80, R84, R98, R100). A request carries its
operands in its data: V in bytes 0 to 7, U in bytes 8 to 11, the rounding mode in byte 12 (log 38). -/
def remotePerform (s : State) (a op : Nat) (data : List Byte) (len : Nat) : State :=
  let line := a / 128 * 128
  match op with
  | 0 => if locked s then (grantLease s line true).2 else s
  | 1 => (linesOf a data).foldl (fun s p => (homeStored (keyedWrite s (lineKeyAt s p.1) p.1 p.2) (p.1 / 128 * 128)).2) s
  | k + 2 =>
    let x : AtomStep := { v := BitVec.ofNat 64 (leNat (data.take 8)), u := BitVec.ofNat 32 (leNat ((data.drop 8).take 4)), rm := leNat ((data.drop 12).take 1) % 4 }
    let r := atomSteps k [x] (leNat (keyedRead s (lineKeyAt s a) a len))
    (homeStored (keyedWrite s (lineKeyAt s a) a (natLe len r.2)) line).2
where
  /-- The bytes of a store, cut at line ends. -/
  linesOf (a : Nat) (bs : List Byte) : List (Nat × List Byte) :=
    (List.range ((a % 128 + bs.length + 127) / 128)).map fun i =>
      let lo := if i = 0 then a else (a / 128 + i) * 128
      (lo, (bs.drop (lo - a)).take (128 - lo % 128))
/-- A request arrives at its home device: performed if an inbound window allows it, else its stream is frozen at the port, which holds
its requests, this one too, until the host decides (R162, R375, R376, R388). A moving page answers busy (R364). The response leaves in class 1 under the request's CID (R382, R419); the home does not hold a request for
response credit, as R382 lets it: the response waits instead (log 65). -/
def execRemoteRequestArrival (link source address op : Nat) (data : List Byte) (len : Nat) (cid : DWord) (s : State) : Out :=
  let n := if op = 1 then data.length else if op ≥ 2 then atomBytes (op - 2) else len
  let held : State := { s with heldRequests := s.heldRequests ++ [{ link := link, source := source, address := address, op := op, data := data, len := len, cid := cid }] }
  if link ≥ 32 then .next s
  else if s.frozenStreams.contains (link, source) then .next held
  else if !(List.range 64).any (windowTakes s source address n (decide (op ≠ 0))) then
    let s := { held with frozenStreams := s.frozenStreams ++ [(link, source)] }
    .next (freezeMaster s 2 (link * 2 ^ 14 + source % 2 ^ 14) 8 0xFFFF 0 (unitLink link) cid)
  else if pageBusy s (.here address false) then .next s
  else if !physOk address n then .fault .physicalHole
  else .next (queuePacket (remotePerform s address op data n) (ownPacket s 1 (source % 2 ^ 14) cid))

end Sys2Proof.Machine
end

