-- ==== Sys2Proof/Machine/Matrix.lean ====
section
/-!
DEFINITION. Matrix and tile instructions (06_matrix_model R122 to R133, 16_isa_matrix R275 to R289): the checks at issue, the step,
the operations the unit holds, the tile port, and the table banks.
-/
namespace Sys2Proof.Machine
open Sys2Proof

/-! ### Pairs and products (R105, R118 to R120, R124) -/

/-- Type code (R190) of the elements of A by pair code (R124). -/
def pairA (p : Nat) : Nat :=
  match p with
  | 0 | 8 => 2
  | 1 => 1
  | 2 | 3 | 9 | 12 => 3
  | 4 | 5 | 10 | 13 => 4
  | 7 => 10
  | _ => 9
/-- Type code of the elements of B (R124). -/
def pairB (p : Nat) : Nat :=
  match p with
  | 0 => 2
  | 1 => 1
  | 2 | 4 => 3
  | 3 | 5 => 4
  | 6 | 7 => 9
  | 8 | 9 | 10 | 11 => 11
  | _ => 12
/-- K of a pair (R124). -/
def pairK (p : Nat) : Nat := rowA p * 8 / typeBits (pairA p)

/-- An element as a value (R101, R103); an SH element is an integer in units of 2^-6. -/
def elemVal (type x : Nat) : FV :=
  match fmtOf type with
  | some f => unpack f x
  | none => if type = 11 ∨ type = 12 then intFV (shVal (type == 11) x) (-6) else intFV (intOf type x) 0
/-- An element of an integer pair as an integer: SH elements times 64 (R105). -/
def elemInt (type x : Nat) : Int := if type = 11 ∨ type = 12 then shVal (type == 11) x else intOf type x
/-- The exact product; 0 × ∞ counts as a signalling NaN, for it raises NV (R118). The model's choice: an infinite activation is multiplied by the
value t1 + t2 of an SH2 element, which gives an infinity where the two terms of R105 taken one by one could be NaN; neither R105 nor R118 says
which. -/
def exactProduct (x y : FV) : FV := (fProd x y).getD (.nan true)

/-- Is the value a zero? -/
def isZeroFV : FV → Bool
  | .fin _ m _ => decide (m = 0)
  | _ => false
/-- Sign of a value. -/
def signFV : FV → Bool
  | .fin a _ _ => a
  | .inf a => a
  | .nan _ => false
/-- Floor of log2 of the magnitude of a nonzero value. -/
def expFV : FV → Int
  | .fin _ m e => (Nat.log2 m : Int) + e
  | _ => 0
/-- A term cut toward zero to a multiple of 2^q, in units of 2^q (R118). -/
def truncTo (q : Int) : FV → Int
  | .fin a m e =>
    let v : Nat := if e ≥ q then m * 2 ^ (e - q).toNat else m / 2 ^ (q - e).toNat
    if a then -(v : Int) else v
  | _ => 0
/-- GroupSum (R118). -/
def groupSum (rm : Nat) (sat : Bool) (t : List FV) : Res :=
  if anyNan t then { bits := fF32.nan, fl := nvOf t }
  else
    let infs := (t.filter fun v => match v with
      | .inf _ => true
      | _ => false).map signFV
    match infs with
    | a :: r => if r.all (· == a) then { bits := signed fF32 a fF32.inf } else { bits := fF32.nan, fl := flNV }
    | [] =>
      let nz := t.filter fun v => !isZeroFV v
      match nz with
      | [] => { bits := signed fF32 (t.all signFV || rm == 2) 0 }
      | x :: r =>
        let q := r.foldl (fun m v => max m (expFV v)) (expFV x) - 47
        let s := nz.foldl (fun (s : Int) v => s + truncTo q v) 0
        if s = 0 then { bits := signed fF32 (rm == 2) 0 } else roundFin fF32 rm sat (decide (s < 0)) s.natAbs q
/-- The native order: groups of 16 products (R118). -/
def nativeSum (rm : Nat) (sat : Bool) (c : Nat) (p : List FV) : Res :=
  (chunksOf 16 8 p).foldl (fun r g => let x := groupSum rm sat (unpack fF32 r.bits :: g); { x with fl := x.fl ||| r.fl }) { bits := c }
/-- One addition of a chain. -/
def chainAdd (rm : Nat) (sat : Bool) (r : Res) (v : FV) : Res :=
  let x := fAdd fF32 rm sat (unpack fF32 r.bits) v
  { x with fl := x.fl ||| r.fl }
/-- Even and odd members of a list. -/
def unzipPairs {α : Type} : List α → List α × List α
  | [] => ([], [])
  | [a] => ([a], [])
  | a :: b :: r => let x := unzipPairs r; (a :: x.1, b :: x.2)
/-- The paired chain (R119). -/
def pairedChain (rm : Nat) (sat : Bool) (c : Nat) (p : List FV) : Res :=
  let x := unzipPairs p
  let even := x.1.foldl (chainAdd rm sat) { bits := c }
  let odd := x.2.foldl (chainAdd rm sat) { bits := 0 }
  let r := chainAdd rm sat even (unpack fF32 odd.bits)
  { r with fl := r.fl ||| odd.fl }
/-- An integer element: C and all products exact, clamped once (R120). -/
def intStep (c : Word) (p : List Int) : Res :=
  let r := clamp32 (p.foldl (· + ·) c.toInt)
  { bits := r.1.toNat, fl := r.2.toNat }
/-- One element of a step from its row of A and its column of B (R278). -/
def stepElem (pair : Nat) (chain : Bool) (rm : Nat) (sat : Bool) (c : Word) (a b : List Nat) : Res :=
  if intPair pair then intStep c ((a.zip b).map fun x => elemInt (pairA pair) x.1 * elemInt (pairB pair) x.2)
  else
    let p := (a.zip b).map fun x => exactProduct (elemVal (pairA pair) x.1) (elemVal (pairB pair) x.2)
    if chain then pairedChain rm sat c.toNat p else nativeSum rm sat c.toNat p

/-! ### Tiles and operands (R122, R123, R125 to R127) -/

/-- A field of a tile, by bit. -/
def tileBits (t : BitVec 8192) (off n : Nat) : Nat := t.toNat / 2 ^ off % 2 ^ n
/-- A tile from its rows of 64 bytes. -/
def tileOfRows (l : List Nat) : BitVec 8192 := BitVec.ofNat 8192 (l.foldr (fun r n => r % 2 ^ 512 + 2 ^ 512 * n) 0)
/-- A row from its elements of w bits. -/
def rowOf (w : Nat) (l : List Nat) : Nat := l.foldr (fun x n => x % 2 ^ w + 2 ^ w * n) 0
/-- The contents of physical tile t. -/
def tileAt (c : Core) (t : Nat) : BitVec 8192 := tgetD c.tiles t 0
/-- Physical tile of name n for a thread (R122). -/
def tileOf (c : Core) (th : Thread) (n : Nat) : Option Nat := (roleInfo (getPlot c th.plot) th.role).tileMap[n]?

/-- Rot(L, j) (R65, R278). -/
def rotAddr (l : Int) (j q : Nat) : Int :=
  let x := l / 16 % 8
  l + 16 * ((x + ((j % 2 ^ q : Nat) : Int)) % 8 - x)
/-- The chunks of a descriptor operand: row, byte in the row, address, bytes (R127, R278); `row` bytes per index, or 2w bytes of 16
index values when transposed. -/
def descSpans (addr : Int) (rp tp q : Nat) (tr : Bool) (row w k : Nat) : List (Nat × Nat × Int × Nat) :=
  if tr then
    (List.range k).flatMap fun e => (List.range ((2 * w + 15) / 16)).map fun c =>
      (e, 16 * c, rotAddr (addr + ((16 * (rp * (e % 16) + tp * (e / 16) + c) : Nat) : Int)) (e % 16) q, min 16 (2 * w - 16 * c))
  else
    (List.range 16).flatMap fun i => (List.range (row / 16)).map fun c =>
      (i, 16 * c, rotAddr (addr + ((16 * (rp * i + (if c < 4 then c else tp + c - 4)) : Nat) : Int)) i q, 16)
/-- The row a list of chunks gives. -/
def spanRow (s : State) (ci plot : Nat) (l : List (Nat × Nat × Int × Nat)) (i : Nat) : Nat :=
  (l.filter fun x => x.1 == i).foldl (fun n x => n + 2 ^ (8 * x.2.1) * scrRead s ci ((scratchPos s ci plot x.2.2.1.toNat x.2.2.2).getD 0) x.2.2.2) 0

/-- The elements of an operand, by index and then by k (R123, R126, R127), at step n of an `mloop` (R129). -/
def elements (s : State) (ci plot : Nat) (o : Operand) (row w k n : Nat) : List (List Nat) :=
  let c := getCore s ci
  match o with
  | .frag vals =>
    let z := row / 8
    let half (r : Nat) : Nat := rowOf 32 ((vals.drop (r * z)).take z)
    (List.range 16).map fun i => (List.range k).map fun e => half (i + 16 * (e / (k / 2))) / 2 ^ (w * (e % (k / 2))) % 2 ^ w
  | .tile phys tr =>
    let at_ (off j : Nat) : Nat := tileBits (tileAt c (phys.getD (off / 512) 0)) (512 * j + off % 512) w
    (List.range 16).map fun i => (List.range k).map fun e => if tr then at_ ((16 * (e / 16) + i) * w) (e % 16) else at_ (e * w) i
  | .desc addr rp tp q tr inc =>
    let l := descSpans ((addr : Int) + 16 * n * inc) rp tp q tr row w k
    let rows := (List.range (if tr then k else 16)).map (spanRow s ci plot l)
    (List.range 16).map fun i => (List.range k).map fun e =>
      if tr then rows.getD e 0 / 2 ^ (i * w) % 2 ^ w else rows.getD i 0 / 2 ^ (e * w) % 2 ^ w

/-- One 16×16 step (R278): the new accumulator tile and the flags. -/
def matStep (pair : Nat) (a b : List (List Nat)) (chain zero : Bool) (rm : Nat) (sat : Bool) (acc : BitVec 8192) : BitVec 8192 × Nat :=
  let r := (List.range 16).map fun i => (List.range 16).map fun j =>
    stepElem pair chain rm sat (if zero then 0 else BitVec.ofNat 32 (tileBits acc (512 * i + 32 * j) 32)) (a.getD i []) (b.getD j [])
  (tileOfRows (r.map fun row => rowOf 32 (row.map (·.bits))), r.foldl (fun n row => row.foldl (fun n x => n ||| x.fl) n) 0)

/-! ### Checks at issue (R277, R434) -/

/-- An operand as an instruction names it: kind, byte, transpose bit, increment, row bytes, element width. -/
structure MatSrc where
  kind : Nat
  byte : Byte
  tr : Bool := false
  inc : Int := 0
  row : Nat
  w : Nat
  deriving DecidableEq, Repr

/-- Step 2: descriptor and scale-address registers are uniform in every active thread (R127, R277). -/
def tagsCheck (c : Core) (act : List (Nat × Thread)) (l : List Nat) : Option FaultRec :=
  l.findSome? fun r => if act.all fun e => uniformSrc c e.2 r then none else some (regFault 2 r)
/-- Step 3: tile names against the role's count (R122). -/
def tilesCheck (c : Core) (th : Thread) (l : List Nat) : Option FaultRec :=
  l.findSome? fun n => if (tileOf c th n).isSome then none else some (regFault 4 n)
/-- The chunks that lie outside the window, as the fault of the first one (R62, R434). -/
def spansCheck (s : State) (ci plot : Nat) (wr : Bool) (l : List (Nat × Nat × Int × Nat)) : Option FaultRec :=
  (l.find? fun x => decide (x.2.2.1 < 0) || (scratchPos s ci plot x.2.2.1.toNat x.2.2.2).isNone).map fun x =>
    memFault 5 4 wr true (x.2.2.1 % 2 ^ 32).toNat
/-- Step 4: one descriptor: its fields, its alignment, every byte the operation touches (R127, R434). -/
def descCheck (s : State) (ci plot : Nat) (wr noTr : Bool) (even odd : Word) (spans : List (Nat × Nat × Int × Nat)) : Option FaultRec :=
  let addr := even.toNat % 2 ^ 22
  if odd.toNat / 2 ^ 21 ≠ 0 ∨ odd.toNat / 2 ^ 16 % 16 ≥ 4 ∨ (noTr ∧ odd.getLsbD 20) then some (memFault 6 4 wr true addr)
  else if addr % 16 ≠ 0 then some (memFault 4 4 wr true addr)
  else spansCheck s ci plot wr spans
/-- A descriptor's pair as an operand (R127). -/
def descOf (even odd : Word) (inc : Int) : Operand :=
  .desc (even.toNat % 2 ^ 22) (even.toNat / 2 ^ 22) (odd.toNat % 2 ^ 16) (odd.toNat / 2 ^ 16 % 16) (odd.getLsbD 20) inc
/-- The chunks of all n steps of a descriptor operand. -/
def allSpans (o : Operand) (row w k n : Nat) : List (Nat × Nat × Int × Nat) :=
  match o with
  | .desc addr rp tp q tr inc => (List.range n).flatMap fun (t : Nat) => descSpans ((addr : Int) + 16 * (t : Int) * inc) rp tp q tr row w k
  | _ => []

/-- Register a byte names. -/
def byteReg (b : Byte) : Nat := b.toNat / 4
/-- Tile names of an operand: two for a row of 128 bytes (R123). -/
def srcTiles (x : MatSrc) : List Nat :=
  if x.kind ≠ 1 then [] else (List.range ((x.row + 63) / 64)).map fun i => x.byte.toNat / 16 + i
/-- The operand a name stands for, as its thread holds it: fragments by rank are filled in by the caller. Each operand place reads its registers
on its own, which counts where they are undefined (R6, R95). -/
def resolve (c : Core) (lead : Thread) (frag : MatSrc → List Nat) (place : Nat) (x : MatSrc) : Operand :=
  match x.kind with
  | 0 => .frag (frag x)
  | 1 => .tile ((srcTiles x).filterMap (tileOf c lead)) x.tr
  | _ => descOf (rvAt lead place (byteReg x.byte)) (rvAt lead place (byteReg x.byte + 1)) x.inc
/-- The fragment words of a sheaf, by rank (R126). -/
def fragWords (mem : List (Nat × Thread)) (base z : Nat) (place : Nat := 0) : List Nat :=
  mem.flatMap fun e => (List.range z).map fun i => (rvAt e.2 place (base + i)).toNat
/-- The checks of R277 for a matrix issue of n steps: a fault, or the accumulator and the operands. -/
def matCheck (s : State) (act : List (Nat × Thread)) (acc : Nat) (srcs : List MatSrc) (pair n : Nat) : Except FaultRec (Nat × List Operand) :=
  let ci := s.cur.core
  let c := getCore s ci
  let lead := (act.head?.map (·.2)).getD {}
  let descs := srcs.filter fun x => x.kind == 2
  let ops := srcs.zipIdx.map fun y => resolve c lead (fun x => fragWords act (byteReg x.byte) (x.row / 8) y.2) y.2 y.1
  let bounds := (srcs.zipIdx.zip ops).findSome? fun e =>
    let x := e.1.1
    if x.kind = 2 then descCheck s ci lead.plot false false (rvAt lead e.1.2 (byteReg x.byte)) (rvAt lead e.1.2 (byteReg x.byte + 1))
      (allSpans e.2 x.row x.w (pairK pair) n)
    else none
  match (tagsCheck c act (descs.flatMap fun x => [byteReg x.byte, byteReg x.byte + 1])).or
      ((tilesCheck c lead (acc :: srcs.flatMap srcTiles)).or bounds) with
  | some f => .error f
  | none => .ok ((tileOf c lead acc).getD 0, ops)

/-! ### The unit (R96, R131) -/

/-- Tiles an operand holds busy. -/
def opTiles : Operand → List Nat
  | .tile l _ => l
  | _ => []
/-- Tiles a matrix operation holds busy (R131). -/
def mopTiles (m : MatOp) : List Nat := m.acc :: opTiles m.a ++ opTiles m.b
/-- Is tile t busy (R96)? -/
def tileBusy (c : Core) (t : Nat) : Bool := c.mops.any fun m => (mopTiles m).contains t
/-- Tiles a tile-port operation names. -/
def topTiles (o : TileOp) : List Nat := if o.kind = 5 ∨ o.kind = 6 then [o.tile, o.src] else [o.tile]
/-- Must a new matrix operation on these tiles wait: a busy one, or one that an earlier tile instruction has not yet used (R96,
R283; log 13)? -/
def tilesHeld (c : Core) (l : List Nat) : Bool := l.any fun t => tileBusy c t || c.tops.any fun o => (topTiles o).contains t
/-- Places of the unit in use: operations and open joins (R130, R131, R281). -/
def unitUse (c : Core) : Nat := (c.mops.filter fun m => m.form != 2).length + c.joins.length

/-- The active threads without a fault decided before (R277 step 1 and R40, R47). -/
def okThreads (i : Instr) (s : State) : List (Nat × Thread) :=
  let act := activeThreads i s
  act.filter fun e => (preFault i s act e.2).isNone
/-- The same with the mode that a drill executing once takes: that of its lowest-ranked active thread, also where that one faults (R109, R278). -/
def okLed (i : Instr) (s : State) : List (Nat × Thread) := (okThreads i s).map fun e => (e.1, leadMode (activeThreads i s) e.2)
/-- Carry out an instruction whose effect is one for the whole drill: `f` is given the active threads that do not fault. -/
def wholeDrill (i : Instr) (f : State → List (Nat × Thread) → State × Fx) (s : State) : State :=
  match okLed i s with
  | [] => runDrill i latInt (fun s _ _ => (s, {})) s
  | act => let r := f s act; runDrill i latInt (fun s _ _ => (s, r.2)) r.1
/-- Does the drill's sheaf have exactly 32 live members (R126)? -/
def sheaf32 (c : Core) (lead : Thread) : Bool :=
  match lead.sheaf with
  | none => false
  | some k => decide ((members c k).length = 32)
/-- A free or captured rounding mode: field 0 is the dynamic mode (R106, R108, R109). -/
def rmField (rnd : Nat) (lead : Thread) : Nat := if rnd = 0 then modeRm lead.mode else rnd - 1

/-- Reads of a tile, by thread and tile, that are undefined: a part of a join that has the tile as its accumulator has not met its `mwait` yet
(R95; log 12). -/
def undefTiles (act : List (Nat × Thread)) : List (Nat × Nat) := (act.flatMap fun e => e.2.joinRegs.map fun x => (e.1, x.1)).eraseDups
/-- The core with free values for what tiles of a list hold: of the state a read of them is made from (R6, R95). -/
def blurTiles (s : State) (c : Core) (l : List Nat) : Core := l.foldl (fun c t => { c with tiles := tput c.tiles t (Config.freeTile s.free t) }) c
/-- Accept an `mma` or an `mloop`, or wait for a place or a tile (R131). -/
def acceptMop (m : MatOp) (runsOn : Bool) (s : State) : State × Fx :=
  let ci := s.cur.core
  let c := getCore s ci
  if decide (unitUse c ≥ 4) || tilesHeld c (mopTiles m) then (s, { wait := some (.retry 11) })
  else
    let (id, s) := freshId s
    let s := updCore s ci fun c => { c with mops := c.mops ++ [{ m with id := id }] }
    if runsOn then (updThreads s ci m.tids fun th => { th with longOp := some id, prog := 0 }, {}) else (s, { wait := some (.matrix id) })

/-- The operands of an `mma` (R279). -/
def mmaSrcs (w : MatWord) (x : MmaWord) : List MatSrc :=
  let p := w.pair.toNat
  [{ kind := x.ka.toNat, byte := w.a, tr := x.ta, row := rowA p, w := typeBits (pairA p) },
   { kind := x.kb.toNat, byte := w.b, tr := x.tb, row := rowB p, w := typeBits (pairB p) }]
/-- `mma` for the whole drill (R279). -/
def mmaIssue (w : MatWord) (x : MmaWord) (s : State) (act : List (Nat × Thread)) : State × Fx :=
  let c := getCore s s.cur.core
  let lead := (act.head?.map (·.2)).getD {}
  match matCheck s act w.acc.toNat (mmaSrcs w x) w.pair.toNat 1 with
  | .error f => (s, { fault := some f })
  | .ok (acc, ops) =>
    if (x.ka.toNat = 0 ∨ x.kb.toNat = 0) ∧ !sheaf32 c lead then (s, { fault := some (sheafFault 6 (threadHandle s.cur.core c lead)) })
    else acceptMop { plot := lead.plot, pair := w.pair.toNat, acc := acc, a := ops.getD 0 (.frag []), b := ops.getD 1 (.frag []),
                     chain := x.chain, zacc := x.zacc, sat := x.sat, rm := rmField x.rnd.toNat lead, tids := act.map (·.1),
                     undef := (undefTiles act).map (·.2) } false s
/-- `mma` (R279): with fragments a sheaf collective, otherwise one operation of the uniform pipe. -/
def execMma (p : Pipe) (px : Option Px) (w : MatWord) (x : MmaWord) (s : State) : Out :=
  let i : Instr := .mma p px w x
  .next (if collKind i = some 7 then (if s.cur.coll then clearRdv (wholeDrill i (mmaIssue w x) s) else arriveColl i 7 s)
    else wholeDrill i (mmaIssue w x) s)

/-- An operand of an `mloop`: bit 0 says descriptor (R280). -/
def loopSrc (b : Byte) (inc : BitVec 8) (row w : Nat) : MatSrc :=
  { kind := if b.getLsbD 0 then 2 else 1, byte := b, inc := inc.toInt, row := row, w := w }
/-- `mloop` for the whole drill (R280): mode and descriptors are captured, the threads run on. -/
def mloopIssue (w : MatWord) (x : LoopWord) (s : State) (act : List (Nat × Thread)) : State × Fx :=
  let p := w.pair.toNat
  let lead := (act.head?.map (·.2)).getD {}
  let srcs := [loopSrc w.a x.inca (rowA p) (typeBits (pairA p)), loopSrc w.b x.incb (rowB p) (typeBits (pairB p))]
  let n := x.stepsM1.toNat + 1
  match matCheck s act w.acc.toNat srcs p n with
  | .error f => (s, { fault := some f })
  | .ok (acc, ops) =>
    acceptMop { form := 1, plot := lead.plot, pair := p, acc := acc, a := ops.getD 0 (.frag []), b := ops.getD 1 (.frag []), steps := n,
                chain := x.chain, zacc := x.zacc, sat := x.sat, rm := modeRm lead.mode, tids := act.map (·.1),
                  undef := (undefTiles act).map (·.2) } true s
def execMloop (px : Option Px) (w : MatWord) (x : LoopWord) (s : State) : Out := .next (wholeDrill (.mloop px w x) (mloopIssue w x) s)

/-- Does a part disagree with its open join (R130)? -/
def partRejected (j : Join) (plot pair acc : Nat) (b : Operand) (x : JoinWord) : Bool :=
  j.plot != plot || j.count != x.countM1.toNat + 1 || j.pair != pair || j.b != b || j.chain != x.chain || j.sat != x.sat
    || j.parts.contains x.part.toNat || decide (x.part.toNat ≥ j.count) || j.accs.contains acc
/-- Offer a part to its join (R130, R281). A first part opens the join, with its own part number within its count. -/
def offerPart (w : MatWord) (x : JoinWord) (acc : Nat) (frag b : Operand) (s : State) (act : List (Nat × Thread)) : State × Fx :=
  let ci := s.cur.core
  let c := getCore s ci
  let lead := (act.head?.map (·.2)).getD {}
  let reject : State × Fx := (s, { fault := some (sheafFault 7 (threadHandle ci c lead)) })
  let tids := act.map (·.1)
  let regs := (matRegs 0 w.a (rowA w.pair.toNat)).map (·.reg)
  let accept (c : Core) (s : State) : State × Fx :=
    let (id, s) := freshId s
    let m : MatOp := { id := id, form := 2, plot := lead.plot, pair := w.pair.toNat, acc := acc, a := frag, chain := x.chain, zacc := x.zacc,
                       sat := x.sat, rm := modeRm lead.mode, tids := tids, reads := tids.map some, ident := x.ident.toNat, part := x.part.toNat, pc := s.cur.pc,
                       base := byteReg w.a, lastUse := ((matRegs 0 w.a (rowA w.pair.toNat)).filter (·.last)).map (·.reg) }
    let joins := c.joins.map fun j =>
      if j.ident = x.ident.toNat then { j with parts := j.parts ++ [x.part.toNat], accs := j.accs ++ [acc], ids := j.ids ++ [id], tids := j.tids ++ tids } else j
    let s := putCore s ci { c with mops := c.mops ++ [m], joins := joins }
    (updThreads s ci tids fun th => { th with longOp := some id, prog := 0, joinRegs := th.joinRegs ++ regs.map fun r => (acc, r) }, {})
  match c.joins.find? fun j => j.ident == x.ident.toNat with
  | some j => if partRejected j lead.plot w.pair.toNat acc b x then reject
              else if tilesHeld c [acc] then (s, { wait := some (.retry 11) }) else accept c s
  | none =>
    if x.part.toNat > x.countM1.toNat then reject
    else if unitUse c ≥ 4 ∨ tilesHeld c [acc] then (s, { wait := some (.retry 11) })
    else
      let (id, s) := freshId s
      accept { c with joins := c.joins ++ [{ id := id, plot := lead.plot, ident := x.ident.toNat, count := x.countM1.toNat + 1,
                                             pair := w.pair.toNat, b := b, chain := x.chain, sat := x.sat }] } s
/-- `mjoin` for the sheaf (R281). -/
def mjoinIssue (w : MatWord) (x : JoinWord) (s : State) (act : List (Nat × Thread)) : State × Fx :=
  let p := w.pair.toNat
  let c := getCore s s.cur.core
  let lead := (act.head?.map (·.2)).getD {}
  let srcs : List MatSrc := [{ kind := 0, byte := w.a, row := rowA p, w := typeBits (pairA p) }, { kind := 2, byte := w.b, row := rowB p, w := typeBits (pairB p) }]
  match matCheck s act w.acc.toNat srcs p 1 with
  | .error f => (s, { fault := some f })
  | .ok (acc, ops) =>
    if !sheaf32 c lead then (s, { fault := some (sheafFault 6 (threadHandle s.cur.core c lead)) })
    else offerPart w x acc (ops.getD 0 (.frag [])) (ops.getD 1 (.frag [])) s act
def execMjoin (w : MatWord) (x : JoinWord) (s : State) : Out :=
  let i : Instr := .mjoin w x
  .next (if s.cur.coll then clearRdv (wholeDrill i (mjoinIssue w x) s) else arriveColl i 8 s)

/-- `mwait` (R282): until the tile is not busy; then the threads may touch the registers of its part again (R95). -/
def mwaitIssue (t : TileNo) (s : State) (act : List (Nat × Thread)) : State × Fx :=
  let ci := s.cur.core
  let c := getCore s ci
  let lead := (act.head?.map (·.2)).getD {}
  match tilesCheck c lead [t.toNat] with
  | some f => (s, { fault := some f })
  | none =>
    let k := (tileOf c lead t.toNat).getD 0
    if tileBusy c k then (s, { wait := some (.mwait k) })
    else (updThreads s ci (act.map (·.1)) fun th => { th with joinRegs := th.joinRegs.filter fun x => x.1 != k }, {})
def execMwait (p : Pipe) (px : Option Px) (t : TileNo) (s : State) : Out := .next (wholeDrill (.mwait p px t) (mwaitIssue t) s)

/-! ### The steps of the unit (R131, R132) -/

/-- Set a tile of a core. -/
def setTile (s : State) (ci t : Nat) (v : BitVec 8192) : State := updCore s ci fun c => { c with tiles := tput c.tiles t v }
/-- Change a matrix operation. -/
def updMop (s : State) (ci id : Nat) (f : MatOp → MatOp) : State :=
  updCore s ci fun c => { c with mops := c.mops.map fun m => if m.id = id then f m else m }
/-- Take a matrix operation out of the unit: its tiles are no longer busy. -/
def dropMop (s : State) (ci id : Nat) : State := updCore s ci fun c => { c with mops := c.mops.filter fun m => m.id != id }
/-- Flags post to threads (R115). -/
def postFlags (s : State) (ci : Nat) (tids : List Nat) (fl : Word) : State := updThreads s ci tids fun th => orFlags th fl
/-- Wake the threads that wait for an operation. -/
def wakeFor (s : State) (ci : Nat) (w : Wait) : State :=
  (getCore s ci).threads.foldl (fun s e => if e.2.st == .waiting w then wakeThread s ci e.1 1 else s) s

/-- One step of an `mma` or `mloop` (R131): after the last one its tiles are free, the flags post, an `mma`'s threads go on. -/
def mopStep (s : State) (ci : Nat) (m : MatOp) : State :=
  let p := m.pair
  let from_ := updCore s ci fun c => blurTiles s c m.undef
  let a := elements from_ ci m.plot m.a (rowA p) (typeBits (pairA p)) (pairK p) m.done
  let b := elements from_ ci m.plot m.b (rowB p) (typeBits (pairB p)) (pairK p) m.done
  let s := { s with free := s.free + m.undef.length }
  let r := matStep p a b m.chain (m.zacc && m.done == 0) m.rm m.sat (tileAt (getCore s ci) m.acc)
  let fl := m.flags ||| flagWord r.2
  let s := updMop (setTile s ci m.acc r.1) ci m.id fun m => { m with done := m.done + 1, flags := fl }
  let s := setProg' s ci m.tids m.id (m.done + 1)
  if m.done + 1 < m.steps then s
  else wakeFor (postFlags (dropMop s ci m.id) ci m.tids fl) ci (.matrix m.id)
where
  /-- `prog` of the threads for which this is still the latest long operation (R132). -/
  setProg' (s : State) (ci : Nat) (tids : List Nat) (id n : Nat) : State :=
    updThreads s ci tids fun th => if th.longOp = some id then { th with prog := BitVec.ofNat 32 n } else th

/-- The fragments an asynchronous part reads, rank by rank: each register's word as it was at issue, or as it is now; of a thread that has ended
the word it had at issue (R95, R126; log 12). -/
def partWords (s : State) (ci : Nat) (m : MatOp) : List Nat :=
  let z := rowA m.pair / 8
  let old := match m.a with
    | .frag l => l
    | _ => []
  let now := m.reads.flatMap fun t => match t.bind (getThread s ci) with
    | some th => (List.range z).map fun i => some (rv th (m.base + i)).toNat
    | none => (List.range z).map fun _ => none
  old.zipIdx.map fun e => match now.getD e.2 none with
    | some v => if Config.freePick (s.free + e.2) % 2 = 0 then e.1 else v
    | none => e.1
/-- The next part of a join whose parts have all arrived (R130, R281). -/
def joinStep (s : State) (ci : Nat) (j : Join) : State :=
  let c := getCore s ci
  match (c.mops.filter fun m => m.form == 2 && m.ident == j.ident).foldl (fun (o : Option MatOp) m => match o with
      | some x => if m.part < x.part then some m else o
      | none => some m) none with
  | none => updCore s ci fun c => { c with joins := c.joins.filter fun x => x.id != j.id }
  | some m =>
    let p := j.pair
    let b := if j.written.isEmpty then elements s ci j.plot j.b (rowB p) (typeBits (pairB p)) (pairK p) 0 else j.bvals
    let words := partWords s ci m
    let s := { s with free := s.free + words.length }
    let a := elements s ci j.plot (.frag words) (rowA p) (typeBits (pairA p)) (pairK p) 0
    let r := matStep p a b j.chain m.zacc m.rm j.sat (tileAt c m.acc)
    let s := dropMop (setTile s ci m.acc r.1) ci m.id
    let s := updThreads s ci m.tids (release m.lastUse)
    let j := { j with written := j.written ++ [m.part], bvals := b, flags := j.flags ||| flagWord r.2 }
    if j.written.length < j.count then updCore s ci fun c => { c with joins := c.joins.map fun x => if x.id = j.id then j else x }
    else
      -- the last part's rows are written: flags post and `prog` reads 1 in every part
      let s := updCore s ci fun c => { c with joins := c.joins.filter fun x => x.id != j.id }
      updThreads (postFlags s ci j.tids j.flags) ci j.tids fun th =>
        if j.ids.any fun x => th.longOp == some x then { th with prog := 1 } else th
/-- May an operation of the plot begin a step: the plot is not under a save (R133), nor frozen by a hardware error (R162)? -/
def stepsOn (c : Core) (plot : Nat) : Bool := (getPlot c plot).stop.isNone && (getPlot c plot).frozen != some 12
/-- The operations that hold a place of the unit and may step: what a restore puts back beyond the fourth place waits for one (R131, R133). -/
def placedMops (c : Core) : List MatOp := ((c.mops.filter fun m => m.form != 2).take (4 - c.joins.length)).filter fun m => stepsOn c m.plot
/-- The operation that takes the next step: a join that has begun, else round-robin in the order of acceptance (R131). -/
def nextMop (c : Core) : Option Nat :=
  match c.joins.find? fun j => !j.written.isEmpty && (getPlot c j.plot).frozen != some 12 with
  | some j => some j.id
  | none =>
    let ids := (placedMops c).map (·.id)
      ++ (c.joins.filter fun j => decide (j.parts.length = j.count) && stepsOn c j.plot).map (·.id)
    let after := ids.filter (· > c.mlast)
    if after.isEmpty then ids.min? else after.min?
/-- Is the operation or join of a number still in the unit? -/
def mopHere (c : Core) (id : Nat) : Bool := (c.mops.any fun m => m.id == id && m.form != 2) || c.joins.any fun j => j.id == id
/-- The operation whose step is under way, which took its turn when the step began; else the one that would begin one (R131). -/
def stepOf (c : Core) : Option Nat :=
  match c.mcur with
  | some id => if mopHere c id then some id else nextMop c
  | none => nextMop c
/-- Does one of these tiles meet an uncorrectable error (R133)? -/
def tilesBad (s : State) (ci : Nat) (l : List Nat) : Bool := l.any fun t => s.bad.contains (tilePlace ci t)
/-- A matrix step completes: 8 cycles each (R124, R131). An uncorrectable error in one of its tiles is a hardware error (R133). -/
def execMatrixStepComplete (core : Nat) (s : State) : Out :=
  .next (match stepOf (getCore s core) with
    | none => s
    | some id =>
      let s := updCore s core fun c => { c with mlast := id, mcur := none, mrun := 0 }
      match (getCore s core).mops.find? fun m => m.id == id && m.form != 2 with
      | some m => if tilesBad s core (mopTiles m) then coreError s core m.tids else mopStep s core m
      | none => match (getCore s core).joins.find? fun j => j.id == id with
        | some j => if tilesBad s core (j.accs ++ opTiles j.b) then coreError s core j.tids else joinStep s core j
        | none => s)

/-! ### Tile moves (R283 to R287) -/

/-- Put operations in the tile port's order (R283). -/
def addTops (s : State) (ci : Nat) (l : List TileOp) : State := updCore s ci fun c => { c with tops := c.tops ++ l }
/-- The chunks of a tile operation's descriptor. -/
def topSpans (o : TileOp) : List (Nat × Nat × Int × Nat) :=
  match o.desc with
  | .desc addr rp _ q _ _ => descSpans (addr : Int) rp 0 q false 64 32 16
  | _ => []
/-- Places in scratchpad from which a tile operation reads: of `tld` and of `mscl`. -/
def topPlaces (s : State) (ci : Nat) (o : TileOp) : List Nat :=
  match o.kind with
  | 1 => (topSpans o).filterMap fun x => scratchPos s ci o.plot x.2.2.1.toNat 16
  | 6 => [o.rsa, o.csa].filterMap fun a => scratchPos s ci o.plot a 64
  | _ => []
/-- The scratchpad reads of a drill, each by thread with the places it reads: they pass the LSU, and each is made a load's latency after the last
LSU cycle, by slice (R305, R306). What the LSU takes in for one thread in a cycle is its whole read, which meets the others at its first place
(log 6). -/
def readsDue (s : State) (l : List (Nat × List Nat)) : (List Nat → Nat) × State :=
  let who := l.filterMap fun e => e.2.head?.map fun p => (e.1, p, 16)
  if who.isEmpty then (fun _ => 0, s)
  else
    let (last, s) := lsuPass s (scrCycles s false who)
    (fun ps => last + if ps.all fun p => p / 2 ^ 18 == s.cur.core % 16 then 24 else 40, s)
/-- One operation for each active thread, or one for a drill of the uniform pipe; each thread waits for its own (R276, R283). -/
def topEach (s : State) (act : List (Nat × Thread)) (f : Thread → TileOp) (i : Instr) : State :=
  let ci := s.cur.core
  let groups := if isUnif s then (match act with
      | [] => []
      | e :: _ => [(e.2, act)]) else act.map fun e => (e.2, [e])
  let ops : List TileOp := groups.map fun g => { f g.1 with plot := g.1.plot, tids := g.2.map (·.1), undef := undefTiles g.2 }
  let (due, s) := readsDue s (ops.map fun o => (o.tids.headD 0, topPlaces s ci o))
  let r := ops.foldl (fun (a : State × Tbl Nat) o =>
    let (id, s) := freshId a.1
    (addTops s ci [{ o with id := id, due := due (topPlaces s ci o) }], o.tids.foldl (fun t x => tput t x id) a.2)) (s, [])
  runDrill i latInt (fun s t _ => (s, { wait := some (.tile (tgetD r.2 t 0)) })) r.1
/-- The first failed check in drill order faults every active thread (R277). -/
def topIssue (i : Instr) (check : State → List (Nat × Thread) → Thread → Option FaultRec) (f : State → Thread → TileOp) (s : State) : State :=
  let act := if isUnif s then okLed i s else okThreads i s
  let who := if isUnif s then act.take 1 else act
  match who.findSome? fun e => check s act e.2 with
  | some e => runDrill i latInt (fun s _ _ => (s, { fault := some e })) s
  | none => if act.isEmpty then runDrill i latInt (fun s _ _ => (s, {})) s else topEach s act (f s) i

/-- Tile names alone. -/
def namesCheck (l : List Nat) (s : State) (_ : List (Nat × Thread)) (th : Thread) : Option FaultRec := tilesCheck (getCore s s.cur.core) th l
/-- The physical tile a name stands for in the issuing core. -/
def physTile (s : State) (th : Thread) (n : Nat) : Nat := (tileOf (getCore s s.cur.core) th n).getD 0
/-- `tzero` (R284). -/
def execTzero (p : Pipe) (px : Option Px) (t : TileNo) (s : State) : Out :=
  .next (topIssue (.tzero p px t) (namesCheck [t.toNat]) (fun s th => { kind := 0, tile := physTile s th t.toNat }) s)
/-- Rows of a tile in scratchpad (R284). -/
def tileSpans (even odd : Word) : List (Nat × Nat × Int × Nat) :=
  descSpans ((even.toNat % 2 ^ 22 : Nat) : Int) (even.toNat / 2 ^ 22) 0 (odd.toNat / 2 ^ 16 % 16) false 64 32 16
/-- The checks of `tld` and `tst` (R277, R284, R434). -/
def tldCheck (wr : Bool) (t : TileNo) (x : Src) (s : State) (act : List (Nat × Thread)) (th : Thread) : Option FaultRec :=
  let c := getCore s s.cur.core
  let r := x.reg.toNat
  (tagsCheck c act [r, r + 1]).or ((tilesCheck c th [t.toNat]).or
    (descCheck s s.cur.core th.plot wr true (rv th r) (rv th (r + 1)) (tileSpans (rv th r) (rv th (r + 1)))))
/-- `tld` and `tst` (R284). -/
def execTld (p : Pipe) (px : Option Px) (t : TileNo) (x : Src) (s : State) : Out :=
  .next (topIssue (.tld p px t x) (tldCheck false t x)
    (fun s th => { kind := 1, tile := physTile s th t.toNat, desc := descOf (sv th x) (rv th (x.reg.toNat + 1)) 0 }) s)
def execTst (p : Pipe) (px : Option Px) (t : TileNo) (x : Src) (s : State) : Out :=
  .next (topIssue (.tst p px t x) (tldCheck true t x)
    (fun s th => { kind := 2, tile := physTile s th t.toNat, desc := descOf (sv th x) (rv th (x.reg.toNat + 1)) 0 }) s)
/-- The checks of `mscl`: its register pair, then RSA, then CSA (R287, R434). -/
def msclCheck (t u : TileNo) (x : Src) (s : State) (act : List (Nat × Thread)) (th : Thread) : Option FaultRec :=
  let c := getCore s s.cur.core
  let ci := s.cur.core
  let r := x.reg.toNat
  let a := rv th r
  let b := rv th (r + 1)
  let fields := if a.toNat / 2 ^ 22 % 2 ^ 9 ≠ 0 ∨ b.toNat / 2 ^ 22 ≠ 0 then some (memFault 6 4 false true (a.toNat % 2 ^ 22)) else none
  let scale (v : Word) : Option FaultRec :=
    match checkScratch s ci th.plot (v.toNat % 2 ^ 22) 64 16 4 false with
    | .error f => some f
    | .ok _ => none
  (tagsCheck c act [r, r + 1]).or ((tilesCheck c th [t.toNat, u.toNat]).or (fields.or ((scale a).or (scale b))))
/-- `mscl` (R287). -/
def execMscl (p : Pipe) (px : Option Px) (t : TileNo) (x : Src) (u : TileNo) (s : State) : Out :=
  .next (topIssue (.mscl p px t x u) (msclCheck t u x) (fun s th =>
    let a := sv th x
    { kind := 6, tile := physTile s th t.toNat, src := physTile s th u.toNat, code := a.toNat / 2 ^ 31, rsa := a.toNat % 2 ^ 22,
      csa := (rv th (x.reg.toNat + 1)).toNat % 2 ^ 22, rm := modeRm th.mode }) s)
/-- `tcvt` (R286). -/
def execTcvt (p : Pipe) (px : Option Px) (t : TileNo) (dst src : BitVec 4) (u : TileNo) (s : State) : Out :=
  .next (topIssue (.tcvt p px t dst src u) (namesCheck [t.toNat, u.toNat]) (fun s th =>
    { kind := 5, tile := physTile s th t.toNat, src := physTile s th u.toNat, code := dst.toNat * 16 + src.toNat, rm := modeRm th.mode }) s)

/-- Width of an element of `tmovin` and `tmovout` (R285). -/
def tmovWidth (w : BitVec 2) : Nat := 32 / 2 ^ w.toNat
/-- A tile move between a tile and the lane registers of a drill (R285): one operation in drill order. -/
def tmovIssue (kind : Nat) (t : TileNo) (reg : Nat) (w : BitVec 2) (s : State) (act : List (Nat × Thread)) : State × Fx :=
  let ci := s.cur.core
  let c := getCore s ci
  let lead := (act.head?.map (·.2)).getD {}
  match tilesCheck c lead [t.toNat] with
  | some f => (s, { fault := some f })
  | none =>
    let (id, s) := freshId s
    let regs := (List.range (tmovCount w)).map (reg + ·)
    let o : TileOp := { id := id, plot := lead.plot, kind := kind, tile := physTile s lead t.toNat, width := tmovWidth w, reg := reg, tids := act.map (·.1)
                        undef := if kind = 3 then [] else undefTiles act
                        shares := act.map fun e => (e.1, e.2.rank, if kind = 3 then regs.map (rv e.2) else []) }
    (addTops s ci [o], if kind = 3 then { wait := some (.tile id) } else { empties := regs, prod := id })
def execTmovin (px : Option Px) (t : TileNo) (x : Src) (w : BitVec 2) (s : State) : Out :=
  .next (wholeDrill (.tmovin px t x w) (tmovIssue 3 t x.reg.toNat w) s)
def execTmovout (px : Option Px) (t : TileNo) (d : RegNo) (w : BitVec 2) (s : State) : Out :=
  .next (wholeDrill (.tmovout px t d w) (tmovIssue 4 t d.toNat w) s)

/-- Replace n bits of a tile. -/
def tilePut (t : BitVec 8192) (off n v : Nat) : BitVec 8192 :=
  BitVec.ofNat 8192 (t.toNat - tileBits t off n * 2 ^ off + v % 2 ^ n * 2 ^ off)
/-- Place of a rank's share in a tile, in bits (R285). -/
def shareAt (rank : Nat) : Nat := 512 * (rank % 16) + 256 * (rank / 16)
/-- The conversion of one row (R286). -/
def tcvtRow (code rm row : Nat) : Nat × Nat :=
  let wd := typeBits (code / 16)
  let ws := typeBits (code % 16)
  let r := (List.range (512 / max ws wd)).map fun e => cvtWord (code / 16) (code % 16) rm false (row / 2 ^ (e * ws) % 2 ^ ws)
  (rowOf wd (r.map (·.bits)), r.foldl (fun n x => n ||| x.fl) 0)
/-- One element of `mscl` (R121, R287). -/
def msclElem (i32 : Bool) (rm x rs cs acc : Nat) : Res :=
  let v := if i32 then intFV (BitVec.ofNat 32 x).toInt 0 else unpack fF32 x
  fAdd fF32 rm false (exactProduct (exactProduct v (unpack fF32 rs)) (unpack fF32 cs)) (unpack fF32 acc)
/-- `mscl` on a whole tile. -/
def msclTile (i32 : Bool) (rm : Nat) (x acc : BitVec 8192) (rs cs : Nat) : BitVec 8192 × Nat :=
  let r := (List.range 16).map fun i => (List.range 16).map fun j =>
    msclElem i32 rm (tileBits x (512 * i + 32 * j) 32) (rs / 2 ^ (32 * i) % 2 ^ 32) (cs / 2 ^ (32 * j) % 2 ^ 32) (tileBits acc (512 * i + 32 * j) 32)
  (tileOfRows (r.map fun row => rowOf 32 (row.map (·.bits))), r.foldl (fun n row => row.foldl (fun n x => n ||| x.fl) n) 0)
/-- A tile operation, performed whole (R283 to R287). -/
def topPerform (s : State) (ci : Nat) (o : TileOp) : State :=
  let from_ := blurTiles s (getCore s ci) (o.undef.map (·.2))
  let t := tileAt from_ o.tile
  let src := tileAt from_ o.src
  let s := { s with free := s.free + o.undef.length }
  let scr (a n : Nat) : Nat := scrRead s ci ((scratchPos s ci o.plot a n).getD 0) n
  match o.kind with
  | 0 => setTile s ci o.tile 0
  | 1 => setTile s ci o.tile (tileOfRows ((List.range 16).map (spanRow s ci o.plot (topSpans o))))
  | 2 => (topSpans o).foldl (fun s x =>
      match scratchPos s ci o.plot x.2.2.1.toNat 16 with
      | some p => scrWrite s ci p 16 (tileBits t (512 * x.1 + 8 * x.2.1) 128)
      | none => s) s
  | 3 => setTile s ci o.tile (o.shares.foldl (fun t e => tilePut t (shareAt e.2.1) 256 (rowOf o.width (e.2.2.map (·.toNat)))) t)
  | 4 => fillRegs s ci o.id false (o.shares.map fun e => (e.1, (List.range (256 / o.width)).map fun k =>
      (o.reg + k, BitVec.ofNat 32 (tileBits (if o.undef.contains (e.1, o.tile) then t else tileAt (getCore s ci) o.tile) (shareAt e.2.1 + k * o.width) o.width))))
  | 5 =>
    let r := (List.range 16).map fun i => tcvtRow o.code o.rm (tileBits src (512 * i) 512)
    postFlags (setTile s ci o.tile (tileOfRows (r.map (·.1)))) ci o.tids (flagWord (r.foldl (fun n x => n ||| x.2) 0))
  | _ =>
    let r := msclTile (o.code == 1) o.rm src t (scr o.rsa 64) (scr o.csa 64)
    postFlags (setTile s ci o.tile r.1) ci o.tids (flagWord r.2)
/-- May a tile operation be performed: its tiles are not busy, and no earlier one at the port names them (R283)? -/
def topReady (c : Core) (o : TileOp) : Bool :=
  (getPlot c o.plot).frozen != some 12 && !((topTiles o).any (tileBusy c)) && (c.tops.takeWhile fun x => x.id != o.id).all fun x => !((topTiles x).any (topTiles o).contains)
/-- A tile operation completes; its threads go on (R283). -/
def execTileOpComplete (core id : Nat) (s : State) : Out :=
  .next (match (getCore s core).tops.find? fun o => o.id == id with
    | none => s
    | some o =>
      if !topReady (getCore s core) o then s
      else if tilesBad s core (topTiles o) then coreError s core o.tids
      else wakeFor (updCore (topPerform s core o) core fun c => { c with tops := c.tops.filter fun x => x.id != id, port := c.port.filter fun x => x.id != id }) core (.tile id))

/-! ### Table banks (R288, R289) -/

/-- The checks of `tbl.ld` (R277, R289, R434): the address; and, once the plot may have the banks, the image's must-be-zero bytes. -/
def tblLdCheck (a : Src) (s : State) (th : Thread) : Option FaultRec :=
  let ci := s.cur.core
  match checkScratch s ci th.plot (sv th a).toNat 2064 16 4 false with
  | .error f => some f
  | .ok pos => if (takeBanks s ci th.plot).isSome ∧ scrRead s ci (pos + 8) 8 ≠ 0 then some (memFault 6 4 false true (sv th a).toNat) else none
/-- `tbl.ld` of one thread (R289): the image is read into staging. -/
def tblLdPart (a : Src) (act : List Nat) (due : List Nat → Nat) : Part := fun s tid th =>
  let ci := s.cur.core
  match takeBanks s ci th.plot with
  | none => (s, { wait := some (.retry 13) })
  | some s =>
    let (id, s) := freshId s
    let pos := (scratchPos s ci th.plot (sv th a).toNat 2064).getD 0
    let l : TblLoad := { id := id, plot := th.plot, bank := !tblBankOf (getCore s ci) th, image := BitVec.ofNat 16512 (scrRead s ci pos 2064)
                         tids := if isUnif s then act else [tid], due := due [pos] }
    (updCore s ci fun c => { c with tblLoads := c.tblLoads ++ [l] }, { wait := some (.tile id) })
def execTblLd (p : Pipe) (px : Option Px) (a : Src) (s : State) : Out :=
  let i : Instr := .tblLd p px a
  let act := okThreads i s
  let who := if isUnif s then act.take 1 else act
  .next (match who.findSome? fun e => tblLdCheck a s e.2 with
    | some f => runDrill i latInt (fun s _ _ => (s, { fault := some f })) s
    | none =>
      let (due, s) := readsDue s (who.map fun e => (e.1, (scratchPos s s.cur.core e.2.plot (sv e.2 a).toNat 2064).toList))
      runDrill i latInt (tblLdPart a (act.map (·.1)) due) s)
/-- A staged image is committed to its bank in one cycle (R289). -/
def execTableLoadCommit (core id : Nat) (s : State) : Out :=
  .next (match (getCore s core).tblLoads.find? fun o => o.id == id with
    | none => s
    | some o =>
      let s := updCore s core fun c => { c with
        tblLoads := c.tblLoads.filter fun x => x.id != id
        port := c.port.filter fun x => x.id != id
        bank0 := if o.bank then c.bank0 else o.image
        bank1 := if o.bank then o.image else c.bank1 }
      wakeFor s core (.tile id))
/-! ### Cycles of the unit and of the tile port (R124, R305; log 6) -/

/-- Cycles of the tile port that an operation takes: 16 where it goes through scratchpad, else 4. -/
def portNeed (o : TileOp) : Nat := if o.kind = 1 ∨ o.kind = 2 ∨ o.kind = 6 then 16 else 4
/-- May a use take the port: not done, and the scratchpad reads of its operation made by now (R305, R306)? -/
def portOpen (due cyc : Nat) (u : PortUse) : Bool := u.fin.isNone && decide (due ≤ cyc)
/-- Do two tile operations come from one drill, whose port cycles they share: the same instruction, still waited for by threads of one
sheaf at one PC? -/
def sameDrill (c : Core) (a b : TileOp) : Bool :=
  let of (o : TileOp) : Option (DWord × Option Nat) := (o.tids.head?.bind (tget c.threads ·)).map fun th => (th.pc, th.sheaf)
  a.kind == b.kind && a.plot == b.plot && (of a).isSome && of a == of b
/-- The uses after a cycle in which the port served one operation: with its last cycle the operation, and those of its drill, are
complete in the next cycle, or where `tmovout` fills registers 8 cycles on. -/
def servePort (c : Core) (l : List PortUse) (id need : Nat) (same : Nat → Bool) (late : Bool) : List PortUse :=
  l.map fun u =>
    let used := ((l.find? fun x => x.id == id).map (·.used)).getD 0 + 1
    if u.id ≠ id ∧ !same u.id then u
    else if used ≥ need then { u with used := used, fin := some (c.cyc + if late then 8 else 1) }
    else if u.id = id then { u with used := used } else u
/-- A cycle of the tile port: it goes on with the operation it serves, or takes the first one that may have it. -/
def tickPort (c : Core) : Core :=
  let ids := c.tops.map (·.id) ++ c.tblLoads.map (·.id)
  let l := (c.port.filter fun u => ids.contains u.id) ++ (ids.filter fun i => c.port.all fun u => u.id != i).map fun i => { id := i, seen := c.cyc }
  let open_ := l.filter fun u => match c.tops.find? fun o => o.id == u.id with
    | some o => portOpen o.due c.cyc u && topReady c o
    | none => portOpen (((c.tblLoads.find? fun o => o.id == u.id).map (·.due)).getD 0) c.cyc u
  match (open_.find? fun u => decide (u.used > 0)).or open_.head? with
  | none => { c with port := l }
  | some u => match c.tops.find? fun o => o.id == u.id with
    | some o => { c with port := servePort c l o.id (portNeed o) (fun i => c.tops.any fun x => x.id == i && sameDrill c o x) (o.kind == 4) }
    | none => { c with port := servePort c l u.id 16 (fun _ => false) false }
/-- A cycle of the matrix unit and of the tile port. -/
def tickUnits (c : Core) : Core :=
  tickPort (match stepOf c with
    | some id => { c with mcur := some id, mrun := c.mrun + 1 }
    | none => { c with mcur := none, mrun := 0 })

/-- `tbl.sel` (R289). -/
def execTblSel (p : Pipe) (px : Option Px) (a : Src) (s : State) : Out :=
  .next (runDrill (.tblSel p px a) latInt (fun s tid th =>
    match takeBanks s s.cur.core th.plot with
    | none => (s, { wait := some (.retry 13) })
    | some s =>
      let b := (sv th a).getLsbD 0
      (updCore s s.cur.core fun c => match th.sheaf with
        | some k => { c with sheaves := tupd c.sheaves k fun sh => { sh with tblSel := b } }
        | none => { c with threads := tmap c.threads fun t x => if t = tid ∨ (isUnif s ∧ (s.cur.tids.contains t)) then { x with tblSel := b } else x }, {})) s)

end Sys2Proof.Machine
end

