-- ==== Sys2Proof/Machine/Granary.lean ====
section
/-!
DEFINITION. The segments of the granary (32_granary R411 to R415, R417): their headers, quotas and current segments, and the writing of a record.
-/
namespace Sys2Proof.Machine
open Sys2Proof

/-! ### Segments (R411 to R415) -/

/-- Offset of a class's registers (R415). -/
def clsOff (c : Nat) : Nat := 0x120100 + 32 * c
/-- QUOTA, index of the current segment (0 for none), records in it. -/
def clsQuota (s : State) (c : Nat) : Nat := regN s (clsOff c) % 2 ^ 14
def curSeg (s : State) (c : Nat) : Nat := regN s (clsOff c + 0x10) % 2 ^ 14
def segFill (s : State) (c : Nat) : Nat := regN s (clsOff c + 0x14) % 2 ^ 16
/-- Records of one segment (R412). -/
def segRecords : Nat := 32766
/-- Segments a class holds, with their SEQ. -/
def heldSegs (s : State) (c : Nat) : List (Nat × Nat) :=
  s.segments.filterMap fun e => if e.2.held ∧ e.2.cls = c then some (e.1, e.2.seq) else none
/-- The lowest SEQ of them. -/
def lowestSeq : List (Nat × Nat) → Option (Nat × Nat)
  | [] => none
  | x :: t => some (t.foldl (fun a b => if b.2 < a.2 then b else a) x)
/-- Free the lowest-SEQ segments of a class down to QUOTA − 1 where it holds more than QUOTA (R415). -/
def trimSegs (c : Nat) : Nat → State → State
  | 0, s => s
  | n + 1, s => match lowestSeq (heldSegs s c) with
    | none => s
    | some x => trimSegs c n { s with segments := tupd s.segments x.1 fun g => { g with held := false } }
/-- The segment that a class takes next: a free one within its quota, else its own oldest (R413). -/
def nextSeg (s : State) (c : Nat) : Option Nat :=
  let held := heldSegs s c
  let free := if held.length < clsQuota s c then (lowestFree 16384 (0 :: (s.segments.filter (·.2.held)).map (·.1))) else none
  free.orElse fun _ => (lowestSeq held).map (·.1)
/-- Greatest TIME written (R417). -/
def maxTime (s : State) : Nat :=
  s.segments.foldl (fun n e => e.2.recs.foldl (fun n r => max n r.time) n) s.lastTime
/-- Open a segment (R413, R414, R417). -/
def openSegment (s : State) (c : Nat) : State :=
  let n := (heldSegs s c).length
  let s := if n > clsQuota s c then trimSegs c (n - (clsQuota s c - 1)) s else s
  match nextSeg s c with
  | none => s
  | some k =>
    let before := tgetD s.segments k {}
    let seq := if curSeg s c = 0 then 0 else reg64 s (clsOff c + 8) + 1
    let g : Segment :=
      { cls := c, seq := seq, drops := regN s (clsOff c + 4), htime := s.now, ebnd := reg32 s 0x110008, fbnd := reg32 s 0x11000C, lock := locked s
        old := before.recs ++ before.old.drop before.recs.length }
    let s := { s with lastTime := maxTime s, segments := tput s.segments k g }
    let s := setReg64 (setRegN s (clsOff c + 4) 0) (clsOff c + 8) seq
    setRegN (setRegN s (clsOff c + 0x10) k) (clsOff c + 0x14) 0
/-- Write a record of a class in its current segment, opening one where that is full (R411 to R413). -/
def granaryPut (s : State) (r : Rec) : State :=
  let c := classOf r.type.toNat
  let s := if curSeg s c = 0 ∨ segFill s c ≥ segRecords then openSegment s c else s
  if curSeg s c = 0 ∨ segFill s c ≥ segRecords then countDrop s c
  else
    let s := { s with segments := tupd s.segments (curSeg s c) fun g => { g with recs := g.recs ++ [r] } }
    setRegN s (clsOff c + 0x14) (segFill s c + 1)

end Sys2Proof.Machine
end

