-- ==== Sys2Proof/Machine/System.lean ====
section
/-!
DEFINITION. Predicates, status, time, program events, traps, safe points and fragment operations (17_isa_system R290 to R301, with R154 to
R161, R164), and the delivery of a fragment to a handler thread.
-/
namespace Sys2Proof.Machine
open Sys2Proof

/-! ### Predicates (R291, R292) -/

/-- `plop` (R291): bit 4·pa + 2·pb + pc of TT. -/
def plopVal (tt : BitVec 8) (a b c : Bool) : Bool := tt.toNat.testBit (4 * a.toNat + 2 * b.toNat + c.toNat)
def execPlop (px : Option Px) (pd pa pb pc : PredNo) (tt : BitVec 8) (s : State) : Out :=
  .next (runDrill (.plop px pd pa pb pc tt) latInt
    (pureFx fun th => { preds := [(pd.toNat, plopVal tt (predOf th pa) (predOf th pb) (predOf th pc))] }) s)
/-- `pmov.rd` (R292): bit 0 reads 1. -/
def execPmovRd (px : Option Px) (d : RegNo) (s : State) : Out :=
  .next (runDrill (.pmovRd px d) latInt (pureFx fun th => { regs := [(d.toNat, (th.preds ||| 1).setWidth 32)] }) s)
/-- `pmov.wr` (R292). -/
def execPmovWr (px : Option Px) (a : Src) (s : State) : Out :=
  .next (runDrill (.pmovWr px a) latInt
    (pureFx fun th => { preds := (List.range 7).map fun k => (k + 1, (sv th a).getLsbD (k + 1)) }) s)

/-! ### Status registers (R293, R294) -/

/-- A status register (R293). -/
def csrVal (s : State) (ci tid : Nat) (th : Thread) (n : Nat) : Word :=
  let c := getCore s ci
  let p := getPlot c th.plot
  let k (x : Nat) : Word := BitVec.ofNat 32 x
  match n with
  | 0x00 => k tid
  | 0x01 => k th.rank
  | 0x02 => threadHandle ci c th
  | 0x03 => k (p.plotNo % 2 ^ 16 * 2 ^ 16 + th.plot % 8)
  | 0x04 => k th.role
  | 0x05 => k ci
  | 0x06 => k (clusterOf ci)
  | 0x07 => k (dieOf ci)
  | 0x08 => k (deviceNo s)
  | 0x10 => th.mode
  | 0x11 => th.ast
  | 0x12 => th.aen
  | 0x18 => th.cause
  | 0x19 => th.det0
  | 0x1A => th.det1
  | 0x1B => th.det2
  | 0x20 => th.prog
  | 0x21 => k c.cyc
  | 0x22 => th.cych
  | 0x28 => dbgstOf p th
  | _ => 0
/-- `csr.rd` (R293): a read of `cyc` latches `cych`. -/
def csrRdPart (d : RegNo) (n : Nat) : Part := fun s tid th =>
  let ci := s.cur.core
  let v := csrVal s ci tid th n
  let s := if n = 0x21 then updThread s ci tid fun th => { th with cych := BitVec.ofNat 32 ((getCore s ci).cyc / 2 ^ 32) } else s
  (s, { regs := [(d.toNat, v)] })
def execCsrRd (px : Option Px) (d : RegNo) (n : BitVec 8) (s : State) : Out :=
  .next (runDrill (.csrRd px d n) latInt (csrRdPart d n.toNat) s)
/-- A write of a status register: bits that must be zero are ignored (R5, R107, R114, R293, R294). -/
def csrSet (n : Nat) (v : Word) (th : Thread) : Thread :=
  match n with
  | 0x10 => { th with mode := v &&& 7 }
  | 0x11 => { th with ast := v &&& 0x3F }
  | 0x12 => { th with aen := v &&& 0x3F }
  | 0x28 => { th with dbgst := th.dbgst &&& ~~~(v &&& 4) }
  | _ => th
/-- `csr.wr` (R293): a write of `ast` first waits until earlier operations have posted their flags (R116). -/
def csrWrPart (a : Src) (n : Nat) : Part := fun s tid th =>
  let ci := s.cur.core
  if n = 0x11 ∧ flagsOpen s ci tid then (s, { wait := some (.retry 12) })
  else (updThread s ci tid (csrSet n (sv th a)), {})
def execCsrWr (px : Option Px) (a : Src) (n : BitVec 8) (s : State) : Out :=
  .next (runDrill (.csrWr px a n) latInt (csrWrPart a n.toNat) s)

/-! ### Time and program events (R295, R296) -/

/-- `time` (R295): one value for every active thread of the drill: device time, never below what one of them has read before. -/
def timePart (d : RegNo) (act : List (Nat × Thread)) : Part := fun s _ _ =>
  let t := act.foldl (fun n e => max n e.2.tlast) s.now
  let s := updThreads s s.cur.core (act.map (·.1)) fun x => { x with tlast := t }
  (s, { regs := pairRegs d t })
def execTime (p : Pipe) (px : Option Px) (d : RegNo) (s : State) : Out :=
  let i : Instr := .time p px d
  .next (runDrill i latInt (timePart d ((activeThreads i s).filter fun e => (preFault i s (activeThreads i s) e.2).isNone)) s)
/-- `evt` (R296). -/
def evtPart (a : Src) (n : Nat) : Part := fun s tid th =>
  let ci := s.cur.core
  (emitR s (unitCore ci (some s.cur.slot)) (0xF000 + n) (getPlot (getCore s ci) th.plot).cid (svPair th a) tid, {})
def execEvt (p : Pipe) (px : Option Px) (a : Src) (n : BitVec 8) (s : State) : Out :=
  .next (runDrill (.evt p px a n) latInt (evtPart a n.toNat) s)

/-! ### Traps and safe points (R297, R298) -/

/-- `trap` (R297): it takes the software trap. -/
def execTrap (px : Option Px) (n : BitVec 16) (s : State) : Out :=
  .next (runDrill (.trap px n) latInt (fun s _ _ => (s, { fault := some { group := 10, det0 := n.setWidth 32 } })) s)
/-- `brk` (R297): BRK set, STEP cleared, then the debug trap. -/
def brkPart : Part := fun s tid th =>
  let ci := s.cur.core
  let db : Word := (th.dbgst &&& ~~~ 2) ||| 1
  (updThread s ci tid fun th => { th with dbgst := db },
    { fault := some { group := 11, det0 := 1, det1 := dbgstOf (getPlot (getCore s ci) th.plot) { th with dbgst := db } } })
def execBrk (px : Option Px) (s : State) : Out := .next (runDrill (.brk px) latInt brkPart s)

/-- Predicates that a `safe` keeps: `p1` and those of PMASK, whose bit n − 2 is `p`n (R185, R298). -/
def safePreds (pmask : BitVec 6) : BitVec 8 := 3#8 ||| (pmask.setWidth 8 <<< 2)
/-- Physical tiles that a mask of names stands for in a role; names beyond its count are ignored (R298). -/
def physMask (r : RoleInfo) (m : Nat) : Nat := maskOf ((r.tileMap.zipIdx.filter fun e => m.testBit e.2).map (·.1))
/-- One thread's `safe` (R298): without a stop request, or under `frag.step`, a `nop` (R164); else the thread is saved by the masks, and the save of
its plot waits for what is still to fill its registers. -/
def safePart (tmask : BitVec 16) (pmask : BitVec 6) (lo hi : Word) : Part := fun s tid th =>
  let ci := s.cur.core
  let p := getPlot (getCore s ci) th.plot
  let mask := lo.toNat + 2 ^ 32 * hi.toNat
  if p.stop.isNone then (s, {})
  else if th.stepping.isSome then
    -- R301: a stepped member that has completed its `safe` parks again, with what lives after it
    let s := updThread s ci tid fun th => { th with regs := th.regs.filter fun e => mask.testBit e.1, preds := th.preds &&& safePreds pmask }
    (updPlot s ci th.plot fun p => { p with tileMask := p.tileMask ||| physMask (roleInfo p th.role) tmask.toNat }, {})
  else
    let s := updThread s ci tid fun th => { th with
      pc := nextPc s.cur.pc s.curLen, st := .saved false, fresh := false, regs := th.regs.filter fun e => mask.testBit e.1, preds := th.preds &&& safePreds pmask }
    (updPlot s ci th.plot fun p => { p with tileMask := p.tileMask ||| physMask (roleInfo p th.role) tmask.toNat }, { gone := true })
def execSafe (tmask : BitVec 16) (pmask : BitVec 6) (lo hi : Word) (s : State) : Out :=
  .next (runDrill (.safe tmask pmask lo hi) latInt (safePart tmask pmask lo hi) s)

/-! ### Fragment operations (R154 to R157, R299 to R301) -/

/-- The entry a handle pair names for a thread's plot (R156). -/
def fragOf (c : Core) (th : Thread) (a : Src) : Option (Nat × Frag) :=
  let v0 := sv th a
  let e := v0.toNat % 64
  match tget c.frags e with
  | none => none
  | some f =>
    if f.gen = v0.toNat / 2 ^ 10 % 2 ^ 10 ∧ v0.toNat / 2 ^ 6 % 16 = 0 ∧ (rv th (a.reg.toNat + 1)).toNat % 2 ^ 16 = 0 ∧ f.plot = th.plot then some (e, f)
    else none
/-- One thread's fragment operation: a failed check raises SUB 3 on it alone (R299). -/
def fragPart (a : Src) (f : State → Nat → Thread → Nat → Frag → Option (State × Fx)) : Part := fun s tid th =>
  let c := getCore s s.cur.core
  let bad : State × Fx := (s, { fault := some (resFault 3 (getPlot c th.plot).plotNo) })
  match fragOf c th a with
  | none => bad
  | some (e, fr) => (f s tid th e fr).getD bad
/-- The engine of a fragment goes on from its progress (R141, R150, R157). -/
def resumeEngine (s : State) (ci : Nat) (f : Frag) : State :=
  match f.kind with
  | 1 => updChannel s (clusterOf ci) f.unit fun k => { k with frozen := false }
  | 2 =>
    match s.collHeld.find? fun o => o.id == f.unit with
    | some o =>
      let s := { s with collHeld := s.collHeld.filter fun x => x.id != o.id }
      match collCheck s o (plotCtx s ci f.plot) with
      | some sub => collRefuse s o sub
      | none => collAdvance (collArrive s o) o.comm
    | none => { s with comms := tmap s.comms fun _ c => { c with ops := c.ops.map fun o => if o.id = f.unit then { o with frozen := false } else o } }
  | 3 => updGather s ci f.unit fun g => { g with frozen := false }
  | _ => s
/-- `frag.resume` on an entry (R157). -/
def resumeEntry (s : State) (ci e : Nat) : State :=
  match tget (getCore s ci).frags e with
  | none => s
  | some f => if f.kind = 0 then resumeThreads s ci e else resumeEngine (freeFrag s ci e) ci f
/-- BRK in the object of a plot's scratchpad address. -/
def breakAt (s : State) (ci plot obj : Nat) : State :=
  match scratchPos s ci plot obj 16 with
  | some p => objBreak s (clusterOf ci) p
  | none => s
/-- The engine's work is discarded, BRK set in each affected object (R141, R142, R157). -/
def killEngine (s : State) (ci : Nat) (f : Frag) : State :=
  match f.kind with
  | 1 => updChannel (dropQueue s (clusterOf ci) f.unit) (clusterOf ci) f.unit fun k => { k with frozen := false }
  | 2 =>
    let gone := s.collHeld.filter (fun o => o.id == f.unit) ++ s.comms.flatMap fun e => e.2.ops.filter fun o => o.id == f.unit
    let s := { s with collHeld := s.collHeld.filter fun o => o.id != f.unit
                      comms := tmap s.comms fun _ c => { c with ops := c.ops.filter fun o => o.id != f.unit } }
    gone.foldl (fun s o => breakAt (collAdvance s o.comm) ci f.plot o.obj) s
  | 3 =>
    let gone := (getCore s ci).gathers.filter fun g => g.id == f.unit
    gone.foldl (fun s g => breakAt s ci f.plot g.obj) (updCore s ci fun c => { c with gathers := c.gathers.filter fun g => g.id != f.unit })
  | _ => s
/-- `frag.kill` on an entry (R157): members exit, or the engine's work is discarded. -/
def killEntry (s : State) (ci e : Nat) : State :=
  match tget (getCore s ci).frags e with
  | none => s
  | some f =>
    let s := freeFrag s ci e
    if f.kind = 0 then
      (updThreads s ci f.members fun th => { th with stepping := if th.stepping = some e then none else th.stepping }) |>
        fun s => f.members.foldl (fun s t => endThread s ci t) s
    else killEngine s ci f
/-- `frag.resume` (R299). -/
def execFragResume (px : Option Px) (a : Src) (s : State) : Out :=
  .next (runDrill (.fragResume px a) latInt (fragPart a fun s _ _ e _ => some (resumeEntry s s.cur.core e, {})) s)
/-- The address after the instruction a member stands at (R176, R299): none where its PC has no start bit; and is its line still to be
fetched? -/
def skipPc (s : State) (ci : Nat) (th : Thread) : Option DWord × Bool × State :=
  match fetchLine s ci th.plot th.pc.toNat with
  | (.ok l, s) =>
    let k := th.pc.toNat / 4 % 32
    (if (lineWord l 0).toNat.testBit k then some (nextPc th.pc (lengthOf (lineWords l k))) else none, false, s)
  | (.busy, s) => (none, true, s)
  | (.fault _, s) => (none, false, s)
/-- `frag.resume.skip` (R299): refused on an engine fragment, or where a member's word has no start bit. -/
def skipEntry (s : State) (e : Nat) (f : Frag) : Option (State × Fx) :=
  let ci := s.cur.core
  let r := f.members.foldl (fun (a : State × Bool × Tbl (Option DWord)) t => match getThread a.1 ci t with
    | some th => let x := skipPc a.1 ci th; (x.2.2, a.2.1 || x.2.1, tput a.2.2 t x.1)
    | none => a) (s, false, [])
  if f.kind ≠ 0 then none
  else if r.2.1 then some (r.1, { stay := true })
  else if r.2.2.any fun x => x.2.isNone then none
  else some (resumeThreads (updThreads' r.1 ci f.members fun t th => { th with pc := ((tget r.2.2 t).bind id).getD th.pc, fresh := false }) ci e, {})
def execFragResumeSkip (px : Option Px) (a : Src) (s : State) : Out :=
  .next (runDrill (.fragResumeSkip px a) latInt (fragPart a fun s _ _ e f => skipEntry s e f) s)
/-- `frag.kill` (R299). -/
def execFragKill (px : Option Px) (a : Src) (s : State) : Out :=
  .next (runDrill (.fragKill px a) latInt (fragPart a fun s _ _ e _ => some (killEntry s s.cur.core e, {})) s)
/-- What `frag.info` selects (R300). -/
def fragInfoVal (c : Core) (e : Nat) (f : Frag) (d : Nat) (sel n : Nat) : Word :=
  let det := if f.kind = 0 ∧ f.members.contains d then tgetD f.details d (f.det0, f.det1, f.det2) else (f.det0, f.det1, f.det2)
  let who := if f.members.contains d then some d else f.members.head?
  let pc : DWord := ((who.bind fun t => tget c.threads t).map (·.pc)).getD 0
  match sel with
  | 0 => fragCause e f
  | 1 => det.1
  | 2 => det.2.1
  | 3 => det.2.2
  | 4 => BitVec.ofNat 32 (maskOf ((f.members.filter fun t => t / 32 == n).map (· % 32)))
  | 5 => if f.kind = 0 then pc.setWidth 32 else 0
  | _ => if f.kind = 0 then (pc >>> 32).setWidth 32 else 0
/-- `frag.info` (R300): D first names a member, then receives the result. -/
def execFragInfo (px : Option Px) (d : RegNo) (a : Src) (sel : BitVec 3) (n : BitVec 5) (s : State) : Out :=
  .next (runDrill (.fragInfo px d a sel n) latInt (fragPart a fun s _ th e f =>
    some (s, { regs := [(d.toNat, fragInfoVal (getCore s s.cur.core) e f ((rvAt th 1 d.toNat).toNat % 256) sel.toNat n.toNat)] })) s)
/-- `frag.step` (R301): every member becomes ready for one instruction; the entry stays allocated. -/
def stepEntry (s : State) (e : Nat) (f : Frag) : Option State :=
  if f.kind ≠ 0 then none
  else
    let ci := s.cur.core
    let c := getCore s ci
    let on := f.members.filter fun t => match tget c.threads t with
      | some th => th.st == .parked e
      | none => false
    let s := updThreads s ci on fun th => { makeReady c 1 th with stepping := some e }
    some (updCore s ci fun c => { c with frags := tupd c.frags e fun f => { f with stepping := f.stepping ++ on, delivery := .delivered } })
def execFragStep (px : Option Px) (a : Src) (s : State) : Out :=
  .next (runDrill (.fragStep px a) latInt (fragPart a fun s _ _ e f => (stepEntry s e f).map fun s => (s, {})) s)

/-! ### Handlers (R25, R154, R156, R161) -/

/-- The handle pair of an entry (R156). -/
def fragHandle (s : State) (ci e : Nat) (f : Frag) : Word × Word :=
  (BitVec.ofNat 32 (ci * 2 ^ 20 + f.gen % 2 ^ 10 * 2 ^ 10 + e), BitVec.ofNat 32 (f.kind * 2 ^ 30 + deviceNo s * 2 ^ 16))
/-- The oldest pending fragment of a plot (R161). -/
def oldestPending (c : Core) (plot : Nat) : Option (Nat × Frag) :=
  (c.frags.filter fun e => e.2.plot == plot && e.2.delivery == .pending && e.2.stepping.isEmpty).foldl (fun b e => match b with
    | none => some e
    | some x => if e.2.seq < x.2.seq then some e else b) none
/-- A handler thread (R161): solitary, role 4, `v0` to `v5` uniform. -/
def handlerThread (s : State) (ci plot slot e : Nat) (f : Frag) (pc : DWord) : Thread :=
  let h := fragHandle s ci e f
  let c := getCore s ci
  { pc := pc, plot := plot, role := 4, age := s.now, born := slot, fresh := true, cause := fragCause e f, det0 := f.det0, det1 := f.det1, det2 := f.det2
    regs := [(0, h.1), (1, h.2), (2, fragCause e f), (3, f.det0), (4, f.det1), (5, f.det2)].map fun x => (x.1, { tag := .uniform, val := x.2, ready := c.cyc })
    serves := some (f.gen * 64 + e), eligible := c.cyc + 1, readySince := c.cyc }
/-- The oldest pending fragment of a plot goes to a handler thread, while the handler tine has a free slot (R161); the entry is a
transfer to the `.handler` address (R176). -/
def execHandlerDelivery (core plot : Nat) (s : State) : Out :=
  let c := getCore s core
  .next (match tget c.plots plot, oldestPending c plot, handlerSlots c plot with
    | some p, some (e, f), t :: _ =>
      if !p.hdr.hnd || p.frozen.isSome then s
      else match transferTo s core plot p.hdr.hentry with
        | (.busy, s) => s
        | (r, s) =>
          let s := updCore s core fun c => { c with
            threads := tput c.threads t (handlerThread s core plot t e f p.hdr.hentry)
            frags := tput c.frags e { f with delivery := .delivered } }
          let s := (settleBanks c s core [t] (fun _ => []) 16).1
          match r with
          | .fault g => takeFaults s core [(t, g)]
          | _ => s
    | _, _, _ => s)

end Sys2Proof.Machine
end

