-- ==== Sys2Proof/Machine/Launcher.lean ====
section
/-!
DEFINITION. The graph launcher and the dispatcher (25_task_graphs_launcher R340 to R354, with R21, R24 to R27, R50, R62, R122, R138,
R248): launch headers and node records, counting, placement, admission and retirement of plots, staging and pre-emption.
-/
namespace Sys2Proof.Machine
open Sys2Proof

/-- UNIT of the launcher (R409). -/
def unitLauncher : Word := unitOf 3 0
/-- Change a run, if it is there. -/
def updRun (s : State) (no : Nat) (f : Run → Run) : State := { s with runs := tupd s.runs no f }
def getRun (s : State) (no : Nat) : Run := tgetD s.runs no {}
/-- Priority of a queue (R331, R354). -/
def queuePri (s : State) (q : Nat) : Nat := fieldN (regN s (0x10008 + 32 * q)) 10 8
/-- Context of a queue (R358). -/
def queueCtx (s : State) (q : Nat) : Nat := regN s (0x32000 + 4 * q) % 64

/-! ### Launch headers (R343 to R345) -/

/-- n bytes at o, as a number. -/
def bf (bs : List Byte) (o n : Nat) : Nat := leNat ((bs.drop o).take n)
/-- Are the bytes from a up to b zero? -/
def bzero (bs : List Byte) (a b : Nat) : Bool := ((bs.drop a).take (b - a)).all (· == 0)
/-- Role r of a header (R344). -/
def roleAt (bs : List Byte) (r : Nat) : RoleInfo :=
  let b := 0x20 + 32 * r
  let w8 := bf bs (b + 8) 4
  let wc := bf bs (b + 0xC) 4
  let w10 := bf bs (b + 0x10) 4
  { entry := BitVec.ofNat 64 (bf bs b 8), s := fieldN w8 21 16 + 1, z := fieldN w8 4 0 + 1, peak := fieldN wc 22 16, floor := fieldN wc 6 0
    bin := fieldN w10 31 16, tiles := fieldN w10 4 0 }
/-- A header as the launcher reads its 256 bytes (R343). -/
def headerOf (bs : List Byte) : Header :=
  let w0 := bf bs 0 4
  { wide := w0.testBit 31, fuse := w0.testBit 30, hnd := w0.testBit 29, copych := w0 % 2 ^ 16, scratch := bf bs 4 4 % 2 ^ 9
    hentry := BitVec.ofNat 64 (bf bs 8 8), roles := (List.range (bf bs 0x14 4 % 4 + 1)).map (roleAt bs)
    params := (bs.drop 0xA0).take (bf bs 0x10 4 % 2 ^ 7) }
/-- Is a role entry malformed (R344, R345)? -/
def roleBad (bs : List Byte) (r : Nat) : Bool :=
  let b := 0x20 + 32 * r
  let w8 := bf bs (b + 8) 4
  let wc := bf bs (b + 0xC) 4
  let i := roleAt bs r
  decide (fieldN w8 31 22 ≠ 0) || decide (fieldN w8 15 5 ≠ 0) || decide (fieldN wc 31 23 ≠ 0) || decide (fieldN wc 15 7 ≠ 0)
    || decide (fieldN (bf bs (b + 0x10) 4) 15 5 ≠ 0) || !bzero bs (b + 0x14) (b + 0x20)
    || !(decide (8 ≤ i.floor) && decide (i.floor ≤ i.peak) && decide (i.peak ≤ 64)) || decide (i.entry.toNat % 128 ≠ 8)
/-- Is the header malformed, apart from its fit (R343, R345)? -/
def headerWordsBad (bs : List Byte) : Bool :=
  let w0 := bf bs 0 4
  let h := headerOf bs
  let n := h.roles.length
  decide (fieldN w0 28 16 ≠ 0) || decide (fieldN (bf bs 4 4) 31 9 ≠ 0) || decide (fieldN (bf bs 0x10 4) 31 7 ≠ 0) || decide (fieldN (bf bs 0x14 4) 31 2 ≠ 0)
    || !bzero bs 0x18 0x20 || (List.range n).any (roleBad bs) || !bzero bs (0x20 + 32 * n) 0xA0
    || (if h.hnd then decide (h.hentry.toNat % 128 ≠ 8) else decide (h.hentry ≠ 0)) || (h.fuse && !h.wide)
    || !(decide (1 ≤ h.scratch) && decide (h.scratch ≤ 256)) || decide (bf bs 0x10 4 % 2 ^ 7 > 96)

/-! ### Placement (R21, R25, R26, R50, R62, R122) -/

/-- What placement gives a plot on one core: sheaves as (role, tines, size), roles with their tiles, scratchpad base, resident index. -/
structure Place where
  sheaves : List (Nat × List Nat × Nat)
  roles : List RoleInfo
  scrBase : Nat
  idx : Nat
  deriving DecidableEq, Repr
/-- Sheaves a header asks for, in their order, the handler tine last (R21, R25). -/
def sheavesWanted (h : Header) : List (Nat × Nat) :=
  (h.roles.zipIdx.flatMap fun r => List.replicate r.1.s (r.2, r.1.z)) ++ if h.hnd then [(4, 4)] else []
/-- Plots that hold resources of a core: resident ones and staged ones (R353). -/
def heldPlots (s : State) (ci : Nat) : List Plot := ((getCore s ci).plots.map (·.2)) ++ (s.staged.filter fun x => x.core == ci).map (·.plot)
/-- Free tines of an issue slot (R21). -/
def openTines (c : Core) (held : List Plot) (taken : List Nat) (slot : Nat) : List Nat :=
  ((List.range 16).map fun j => slot * 16 + j).filter fun j => !taken.contains j && (List.range 4).all fun i =>
    (tget c.threads (j * 4 + i)).isNone && held.all fun p => (tget p.slots (j * 4 + i)).isNone
/-- Place sheaves one by one (R21). -/
def placeSheaves (avail : List Nat → Nat → List Nat) : List (Nat × Nat) → List Nat → Option (List (Nat × List Nat × Nat))
  | [], _ => some []
  | (r, z) :: rest, taken =>
    match placeSheaf (avail taken) z with
    | none => none
    | some l => (placeSheaves avail rest (taken ++ l)).map fun x => (r, l, z) :: x
/-- Thread slots of a placed sheaf's threads, in rank order. -/
def sheafTids (x : Nat × List Nat × Nat) : List Nat := (x.2.1.flatMap fun j => (List.range 4).map (j * 4 + ·)).take x.2.2
/-- A role of a header by number; 4 is the handler (R49). -/
def roleFrom (roles : List RoleInfo) (r : Nat) : RoleInfo := roleInfo { roles := roles } r
/-- Floor terms of placed sheaves by lane (R50). -/
def laneFloors (roles : List RoleInfo) (l : List (Nat × List Nat × Nat)) : Tbl Nat :=
  l.foldl (fun t x => (sheafTids x).foldl (fun t tid => tput t (laneOf tid) (tgetD t (laneOf tid) 0 + (roleFrom roles x.1).floor)) t) []
/-- The whole tines that placed sheaves hold, with their role (R21). -/
def placedSlots (l : List (Nat × List Nat × Nat)) : Tbl Nat :=
  l.foldl (fun t x => x.2.1.foldl (fun t j => (List.range 4).foldl (fun t i => tput t (j * 4 + i) x.1) t) t) []
/-- Largest peak − floor of a plot's roles on a lane (R50). -/
def laneGap (roles : List RoleInfo) (slots : Tbl Nat) (lane : Nat) : Nat :=
  slots.foldl (fun n e => if laneOf e.1 = lane then max n ((roleFrom roles e.2).peak - (roleFrom roles e.2).floor) else n) 0
/-- The register term, lane bank by lane bank (R50). -/
def banksFit (held : List Plot) (roles : List RoleInfo) (l : List (Nat × List Nat × Nat)) : Bool :=
  let fl := laneFloors roles l
  let sl := placedSlots l
  (List.range 16).all fun lane =>
    let f := held.foldl (fun n p => n + tgetD p.floors lane 0) (tgetD fl lane 0)
    let gap := held.foldl (fun n p => max n (laneGap p.roles p.slots lane)) (laneGap roles sl lane)
    decide (f + Config.spillReserve + gap ≤ Config.laneBankSize)
/-- Give each role its physical tiles, the lowest free ones (R122). -/
def giveTiles : List RoleInfo → List Nat → Option (List RoleInfo)
  | [], _ => some []
  | r :: rest, used =>
    let l := ((List.range 16).filter fun t => !used.contains t).take r.tiles
    if l.length < r.tiles then none else (giveTiles rest (used ++ l)).map fun x => { r with tileMap := l } :: x
/-- Bases of free scratchpad windows of n KiB in a core's slice, lowest first (R62). -/
def freeBases (held : List Plot) (n : Nat) : List Nat :=
  ((List.range (257 - n)).filter fun b => held.all fun p => decide (b + n ≤ p.scrBase / 1024) || decide (p.scrBase / 1024 + p.hdr.scratch ≤ b)).map (· * 1024)
/-- Place a plot on a core whose holders are given, with a window at one of these bases (R25). -/
def placeOn (c : Core) (held : List Plot) (h : Header) (bases : List Nat) : Option Place :=
  match placeSheaves (openTines c held) (sheavesWanted h) [], giveTiles h.roles (held.flatMap fun p => p.roles.flatMap (·.tileMap)), bases with
  | some sh, some roles, b :: _ =>
    match lowestFree Config.maxPlots (tkeys c.plots) with
    | some i => if held.length < Config.maxPlots ∧ banksFit held roles sh then some { sheaves := sh, roles := roles, scrBase := b, idx := i } else none
    | none => none
  | _, _, _ => none
/-- Cores a plot takes at a core: the one, or the 16 of its cluster (R26). -/
def partCores (h : Header) (ci : Nat) : List Nat :=
  if h.wide then (List.range Config.coresPerCluster).map (clusterOf ci * Config.coresPerCluster + ·) else [ci]
/-- Could an empty core take the plot (R345)? Every core of the model's module is enabled. -/
def fitsEmpty (h : Header) : Bool := (placeOn {} [] h (freeBases [] h.scratch)).isSome
/-- Channels of a cluster that run a COPY node's job: no plot that reserves one is let in beside it (R138, R349). -/
def copyJobs (s : State) (cl : Nat) : Nat := maskOf (((getCluster s cl).channels.filter fun k => k.2.job.isSome).map (·.1))
/-- Place a plot at a core, or on every core of the cluster together, with some plots and staged ones left out of the count (R25, R26,
R138, R350, R365). -/
def placeAt (s : State) (ci : Nat) (h : Header) (gone : Nat → List Nat) (staged : List Staged) : Option (List (Nat × Place)) :=
  let cores := partCores h ci
  let without (k : Nat) : Core × List Plot :=
    let c := getCore s k
    let c := { c with plots := c.plots.filter fun e => !(gone k).contains e.1, threads := c.threads.filter fun e => !(gone k).contains e.2.plot }
    (c, (c.plots.map (·.2)) ++ (staged.filter fun x => x.core == k).map (·.plot))
  let rivals := (List.range Config.coresPerCluster).flatMap fun i => (without (clusterOf ci * Config.coresPerCluster + i)).2
  let bases := (freeBases [] h.scratch).filter fun b => cores.all fun k => (freeBases (without k).2 h.scratch).contains b
  if !(cores.all fun k => decide (k < Config.numCores) && (getCore s k).fsbase.getLsbD 0) || (rivals.any fun p => p.hdr.copych &&& h.copych != 0) || copyJobs s (clusterOf ci) &&& h.copych != 0 then none
  else
    let l := cores.map fun k => (placeOn (without k).1 (without k).2 h bases).map fun p => (k, p)
    if l.all (·.isSome) then some (l.filterMap id) else none
/-- Placement beside everything held now. -/
def placeNow (s : State) (ci : Nat) (h : Header) : Option (List (Nat × Place)) := placeAt s ci h (fun _ => []) s.staged
/-- Cores on which a plot could be placed at all: those with a fallow store; of a cluster the first for a wide plot. -/
def candidateCores (s : State) (h : Header) : List Nat :=
  let l := (s.cores.filter fun e => e.2.fsbase.getLsbD 0).map (·.1)
  if h.wide then (l.map fun k => clusterOf k * Config.coresPerCluster).eraseDups else l

/-! ### Staged plots (R353) -/

/-- The staged plots change, and with them the thread slots that each core holds for them (R25, R353). -/
def setStaged (s : State) (l : List Staged) : State :=
  { s with staged := l, cores := tmap s.cores fun ci c => { c with stagedSlots := (l.filter fun x => x.core == ci).flatMap fun x => tkeys x.plot.slots } }
/-- Node and plot-of-node CIDs are `nodeCid`; free staged reservations that a test picks, each with its event (R353). -/
def unstage (s : State) (p : Staged → Bool) : State :=
  let gone := s.staged.filter p
  gone.foldl (fun s x => if x.plot.part = 0 then emitR s unitLauncher 0x0015 (nodeCid s x.run x.node) else s) (setStaged s (s.staged.filter fun x => !p x))
/-- The staged plot that a reservation belongs to. -/
def stagedKey (x : Staged) : Nat × Nat × Nat := (x.run, x.node, x.plot.plotNo)
/-- Staged plots of a cluster that have to give way, none of them needlessly, before something fits there (R353). -/
def giveWay (s : State) (ci : Nat) (fits : State → Bool) : Option (List (Nat × Nat × Nat)) :=
  let without (l : List (Nat × Nat × Nat)) : State := setStaged s (s.staged.filter fun x => !l.contains (stagedKey x))
  let all := ((s.staged.filter fun x => clusterOf x.core == clusterOf ci).map stagedKey).eraseDups
  if fits s then some []
  else if !fits (without all) then none
  else some (all.foldl (fun a k => if fits (without (a.filter (· != k))) then a.filter (· != k) else a) all)
/-- The plot a field's number n becomes on a core (R25, R369). -/
def plotFrom (s : State) (r : Run) (node n : Nat) (f : Field) (ci : Nat) (pl : Place) : Plot :=
  { hdrAddr := f.hdrAddr, hdr := f.hdr, run := r.no, node := node, queue := r.queue, plotNo := n, cid := nodeCid s r.no node, ctx := r.ctx
    pri := queuePri s r.queue, part := if f.hdr.wide then ci % 16 else 0, scrBase := pl.scrBase, roles := pl.roles, slots := placedSlots pl.sheaves, home := placedSlots pl.sheaves
    floors := laneFloors pl.roles pl.sheaves, admitted := s.now }

/-! ### Admission and retirement (R25 to R27, R67, R122, R138, R248, R345) -/

/-- Every L1 of a cluster begins to be written back and invalidated, before fusion begins or ends; no access issues until it is (R67). -/
def changeFusion (s : State) (cl : Nat) (to_ : Bool) : State :=
  let s := ((List.range Config.coresPerCluster).map (cl * Config.coresPerCluster + ·)).foldl (fun s k =>
    if (tget s.cores k).isNone then s
    else
      let s := ((getCore s k).fifo.map (·.line)).foldl (fun s l => drainLine s k l) s
      updCore s k fun c => { c with l1 := [] }) s
  updCluster s cl fun k => { k with fusing := some to_ }
/-- Is a cluster fused, or about to be? -/
def fusesTo (k : Cluster) : Bool := k.fusing.getD k.fused
/-- A thread as it is launched (R24, R25, R83): it stands at its role's entry point. -/
def launchThread (c : Core) (now plot role : Nat) (entry : DWord) : Thread :=
  { pc := entry, plot := plot, role := role, age := now, fresh := true, eligible := c.cyc + 1, readySince := c.cyc + 1 }
/-- One sheaf of an admitted plot (R21). -/
def launchSheaf (s : State) (ci plot : Nat) (roles : List RoleInfo) (x : Nat × List Nat × Nat) : State :=
  if x.1 = 4 then s
  else
    let c := getCore s ci
    let ts := sheafTids x
    let th := launchThread c s.now plot x.1 (roleFrom roles x.1).entry
    makeSheaf (putCore s ci { c with threads := ts.foldl (fun t tid => tput t tid { th with born := tid }) c.threads }) ci plot x.1 ts
/-- Admit a part on its core: reservations, zeroed tiles, channels at 0, parameters, threads (R25, R122, R138, R345). -/
def admitPart (s : State) (ci : Nat) (p : Plot) (pl : Place) : State :=
  let c := getCore s ci
  let tiles := p.roles.flatMap (·.tileMap)
  let s := putCore s ci { c with plots := tput c.plots pl.idx p, tiles := c.tiles.filter fun e => !tiles.contains e.1 }
  let s := ((List.range 16).filter fun ch => p.hdr.copych.testBit ch).foldl (fun s ch => updChannel s (clusterOf ci) ch fun k => { k with wptr := 0 }) s
  let s := updCluster s (clusterOf ci) fun k => { k with scratch := memWrite k.scratch (slicePos (ci % 16) p.scrBase) p.hdr.params }
  emitR (pl.sheaves.foldl (fun s x => launchSheaf s ci pl.idx p.roles x) s) (unitCore ci none) 0x0201 p.cid p.plotNo
/-- Admit a plot with its parts, all in one cycle (R25, R26). With its first plot the node's dispatch record is written, which names the core
(R311; log 87). -/
def admitPlot (s : State) (r : Run) (node n : Nat) (f : Field) (l : List (Nat × Place)) : State :=
  let cl := clusterOf ((l.head?.map (·.1)).getD 0)
  let s := if f.hdr.fuse && !fusesTo (getCluster s cl) then changeFusion s cl true else s
  let s := if n = 0 then emitR s unitLauncher 0x0011 (nodeCid s r.no node) ((l.head?.map (·.1)).getD 0) else s
  let s := l.foldl (fun s x => admitPart s x.1 (plotFrom s r node n f x.1 x.2) x.2) s
  updRun s r.no fun r => { r with fields := tupd r.fields node fun f => { f with next := n + 1 } }
/-- Fields with a plot that waits for admission, in the order of R349: queue priority, then readiness. -/
def waitingFields (s : State) : List (Nat × Nat) :=
  let l := s.runs.flatMap fun e => (e.2.fields.filter fun f => tget e.2.sts f.1 == some .dispatched && decide (f.2.next < f.2.plots)).map fun f => (queuePri s e.2.queue, f.2.readyAt, e.1, f.1)
  (l.mergeSort fun a b => decide (a.1 > b.1) || (decide (a.1 = b.1) && (decide (a.2.1 < b.2.1) || (decide (a.2.1 = b.2.1) && decide (a.2.2.1 < b.2.2.1 ∨ (a.2.2.1 = b.2.2.1 ∧ a.2.2.2 ≤ b.2.2.2)))))).map fun x => (x.2.2.1, x.2.2.2)
/-- Is plot n of a node staged (R353)? -/
def isStaged (s : State) (run node n : Nat) : Bool := s.staged.any fun x => stagedKey x == (run, node, n)
/-- The reservations that staging holds for plot n of a node at a core (R353). -/
def stagedPlace (s : State) (run node n ci : Nat) (h : Header) : Option (List (Nat × Place)) :=
  let l := (partCores h ci).map fun k => (s.staged.find? fun x => stagedKey x == (run, node, n) && x.core == k).bind fun x =>
    (lowestFree Config.maxPlots (tkeys (getCore s k).plots)).map fun i => (k, { sheaves := x.sheaves, roles := x.plot.roles, scrBase := x.plot.scrBase, idx := i : Place })
  if l.all (·.isSome) then some (l.filterMap id) else none
/-- Where a plot goes at a core: a staged one takes over its reservations, wherever they are; another takes what is free, or what staged plots
give up (R353). -/
def placeReady (s : State) (run node n ci : Nat) (h : Header) : Option (List (Nat × Place)) × State :=
  if isStaged s run node n then
    match stagedPlace s run node n ci h with
    | some l => (some l, setStaged s (s.staged.filter fun x => stagedKey x != (run, node, n)))
    | none => (none, s)
  else match giveWay s ci fun s => (placeNow s ci h).isSome with
    | some a => let s := unstage s fun x => a.contains (stagedKey x); (placeNow s ci h, s)
    | none => (none, s)
/-- Does the next plot of a field fit on some core now (R349)? -/
def fieldFits (s : State) (run node : Nat) : Bool :=
  let f := tgetD (getRun s run).fields node {}
  (candidateCores s f.hdr).any fun ci => (placeReady s run node f.next ci f.hdr).1.isSome

/-! ### Pre-emption (R354) -/

/-- Sublists of a list by ascending length come from this one by sorting. -/
def sublistsOf {α : Type} : List α → List (List α)
  | [] => [[]]
  | x :: t => let r := sublistsOf t; r ++ r.map (x :: ·)
/-- Slots of the pool in use: those of saved parts, and those that the launcher holds for plots it stops (R354, R367). -/
def usedSlots (s : State) : List Nat := s.savedParts.map (·.2.slot) ++ s.cores.flatMap fun e => e.2.plots.filterMap fun p => p.2.saveAt
/-- The first run of n free slots of the pool (R367). -/
def freeSlotsRun (s : State) (n : Nat) : Option Nat :=
  let used := usedSlots s
  (List.range (regN s 0x35008 % 2 ^ 13)).find? fun b => decide (b + n ≤ regN s 0x35008 % 2 ^ 13) && (List.range n).all fun i => !used.contains (b + i)
/-- Priority of a resident plot: its queue's; of an imported one, its own (R354, R369, R374). -/
def plotPri (s : State) (p : Plot) : Nat := if (tget s.runs p.run).isSome then queuePri s p.queue else p.pri
/-- Resident plots of a core that may be stopped for a plot of priority P: lower, not frozen (R354). -/
def stoppable (s : State) (ci pri : Nat) : List (Nat × Plot) :=
  (getCore s ci).plots.filter fun e => decide (plotPri s e.2 < pri) && e.2.frozen.isNone
/-- Parts of a plot: (core, resident index) (R26). -/
def partsOf (s : State) (ci pi : Nat) : List (Nat × Nat) :=
  let p := getPlot (getCore s ci) pi
  if !p.hdr.wide then [(ci, pi)]
  else (partCores p.hdr ci).filterMap fun k => ((getCore s k).plots.find? fun e => e.2.run == p.run && e.2.node == p.node && e.2.plotNo == p.plotNo && e.2.queue == p.queue).map fun e => (k, e.1)
/-- Admission times of resident plots, the youngest first (R354). -/
def admitAges (s : State) (l : List (Nat × Nat)) : List Nat :=
  (l.map fun x => (getPlot (getCore s x.1) x.2).admitted).mergeSort fun a b => decide (a ≥ b)
/-- Is the first set of plots the better one to stop: fewer plots, or as many and younger (R354)? -/
def stopsLess (s : State) (l x : List (Nat × Nat)) : Bool :=
  decide (l.length < x.length) || (decide (l.length = x.length) && decide (admitAges s x < admitAges s l))
/-- The best of some sets of plots to stop; of equal ones the earliest (R354). -/
def leastStop (s : State) (sets : List (List (Nat × Nat))) : Option (List (Nat × Nat)) :=
  sets.foldl (fun b l => match b with
    | none => some l
    | some x => if stopsLess s l x then some l else b) none
/-- Does a part of a wide plot fit on a core, with its window at one base, when these resident plots are gone (R26, R62, R138)? -/
def partFits (s : State) (h : Header) (base k : Nat) (gone : List Nat) : Bool :=
  let c := getCore s k
  let c := { c with plots := c.plots.filter fun e => !gone.contains e.1, threads := c.threads.filter fun e => !gone.contains e.2.plot }
  let held := c.plots.map (·.2)
  k < Config.numCores && c.fsbase.getLsbD 0 && (held.all fun p => p.hdr.copych &&& h.copych == 0) && (freeBases held h.scratch).contains base
    && (placeOn c held h [base]).isSome
/-- The fewest plots of one core to stop beside the wide ones that go, for a part of a wide plot to fit there (R354). -/
def partVictims (s : State) (pri : Nat) (h : Header) (base : Nat) (wide : List (Nat × Nat)) (k : Nat) : Option (List (Nat × Nat)) :=
  let mine := ((stoppable s k pri).filter fun e => !e.2.hdr.wide).map fun e => (k, e.1)
  let gone := (wide.filter fun x => x.1 == k).map (·.2)
  leastStop s ((sublistsOf mine).filter fun l => partFits s h base k (gone ++ l.map (·.2)))
/-- The plots to stop in a cluster for a wide plot: for each window base and each choice of wide plots, the fewest of every core
(R26, R354). A wide plot counts as one, by its first part. -/
def wideVictims (s : State) (ci pri : Nat) (h : Header) : Option (List (Nat × Nat)) :=
  let cores := partCores h ci
  let wides := (((stoppable s ci pri).filter fun e => e.2.hdr.wide).map fun e => (ci, e.1)).filter fun v =>
    (partsOf s v.1 v.2).all fun x => (getPlot (getCore s x.1) x.2).frozen.isNone
  if copyJobs s (clusterOf ci) &&& h.copych != 0 then none
  else leastStop s ((freeBases [] h.scratch).flatMap fun base => (sublistsOf wides).filterMap fun w =>
    let own := cores.map (partVictims s pri h base (w.flatMap fun v => partsOf s v.1 v.2))
    if own.all (·.isSome) then some (w ++ (own.filterMap id).flatten) else none)
/-- The plots to stop at a core: the fewest that make room, of those the youngest (R354). -/
def victimsAt (s : State) (ci pri : Nat) (h : Header) : Option (List (Nat × Nat)) :=
  if h.wide then wideVictims s ci pri h
  else leastStop s ((sublistsOf ((stoppable s ci pri).map fun e => (ci, e.1))).filter fun l =>
    (placeAt s ci h (fun k => (l.filter fun x => x.1 == k).map (·.2)) []).isSome)
/-- Hold slots for the parts of a plot that is to stop: one run of them (R367). -/
def holdSlots (s : State) (v : Nat × Nat) : Option State :=
  let parts := (partsOf s v.1 v.2).mergeSort fun a b => decide (a.1 ≤ b.1)
  (freeSlotsRun s parts.length).map fun b => parts.zipIdx.foldl (fun s x => updPlot s x.1.1 x.1.2 fun p => { p with saveAt := some (b + x.2) }) s
/-- Stop plots to make room for one that fits nowhere (R354): none where plots already stopping will make it, nor where a plot to stop has no
slots (R367). -/
def preempt (s : State) (pri : Nat) (h : Header) : State :=
  let cores := candidateCores s h
  let leaving (p : Plot) : Bool := p.stop.isSome || p.saveAt.isSome
  let stopping (k : Nat) : List Nat := ((getCore s k).plots.filter fun e => leaving e.2).map (·.1)
  if cores.any fun ci => (placeAt s ci h stopping []).isSome then s
  else
    let opts := cores.filterMap fun ci => (victimsAt s ci pri h).map fun l => (ci, l)
    let best := opts.foldl (fun (b : Option (Nat × List (Nat × Nat))) x => match b with
      | none => some x
      | some y => if stopsLess s x.2 y.2 then some x else b) none
    match best with
    | none => s
    | some (_, l) =>
      let new := l.filter fun v => !leaving (getPlot (getCore s v.1) v.2)
      match new.foldl (fun (t : Option State) v => t.bind fun t => holdSlots t v) (some s) with
      | none => s
      | some t => { t with agenda := t.agenda ++ new.map fun v => .stopRequest v.1 v.2 }
/-- Every waiting field's next plot that fits nowhere asks for room (R354). -/
def preemptFields (s : State) : State :=
  (waitingFields s).foldl (fun s x =>
    if fieldFits s x.1 x.2 then s else preempt s (queuePri s (getRun s x.1).queue) (tgetD (getRun s x.1).fields x.2 {}).hdr) s

/-- Is every access of a plot's threads and engines performed, with its GWCT passed (R248)? -/
def plotQuiet (s : State) (ci pi : Nat) : Bool :=
  let c := getCore s ci
  let p := getPlot c pi
  let tag := ci * 8 + pi
  let reqOpen := s.reqs.any fun e => match e.2 with
    | .load o => o.core == ci && o.plot == pi
    | .atomic o => o.core == ci && o.plot == pi
    | .wback o => o.plots.contains tag
    | .ldsp o => o.core == ci && o.plot == pi
    | .stn o => o.core == ci && o.plot == pi
  let fifoOpen := s.cores.any fun e => clusterOf e.1 == clusterOf ci && e.2.fifo.any fun d => d.plots.contains tag
  let chan := (getCluster s (clusterOf ci)).channels.any fun k => k.2.cmds.any fun x => x.core == ci && x.plot == pi
  let coll := (s.collHeld.any fun o => o.node.isNone && o.savedAt.isNone && o.core == ci && o.plot == pi) || s.comms.any fun k => k.2.ops.any fun o => o.node.isNone && o.savedAt.isNone && o.core == ci && o.plot == pi
  !reqOpen && !fifoOpen && !chan && !coll && (c.gathers.all fun g => g.plot != pi) && (c.mops.all fun m => m.plot != pi || m.form == 2)
    && (c.tops.all fun m => m.plot != pi) && (c.tblLoads.all fun m => m.plot != pi) && (decide (p.gwct < s.now) || decide (p.gwct = 0))
/-- Release everything a part holds on its core (R25). -/
def freePart (s : State) (ci pi : Nat) : State :=
  updCore (freePlotFrags s ci pi) ci fun c => { c with
    plots := tdel c.plots pi
    tblOwner := if c.tblOwner = some pi then none else c.tblOwner
    joins := c.joins.filter fun j => j.plot != pi
    mops := c.mops.filter fun m => m.plot != pi
    bins := c.bins.filter fun e => e.2.plot != pi }
/-- L1 fusion ends with the last wide plot that asks for it (R67). -/
def unfuse (s : State) (cl : Nat) : State :=
  let still := s.cores.any fun e => clusterOf e.1 == cl && e.2.plots.any fun p => p.2.hdr.fuse
  if fusesTo (getCluster s cl) && !still then changeFusion s cl false else s
/-- A plot retires, with every part: its last thread has exited, its accesses are performed and their GWCTs have passed (R248). -/
def execPlotRetire (core plot : Nat) (s : State) : Out :=
  .next (match tget (getCore s core).plots plot with
    | none => s
    | some p =>
      let parts := partsOf s core plot
      let done := parts.all fun x => (getPlot (getCore s x.1) x.2).frozen.isNone && ((getCore s x.1).threads.all fun e => e.2.plot != x.2) && plotQuiet s x.1 x.2
      if !done then s
      else
        let s := parts.foldl (fun s x => emitR (freePart s x.1 x.2) (unitCore x.1 none) 0x0202 p.cid) s
        let s := unfuse s (clusterOf core)
        updRun s p.run fun r => { r with fields := tupd r.fields p.node fun f => { f with retired := f.retired + 1 } })

/-! ### Node records (R340 to R342) -/

/-- Field of a node record. -/
def nf (r : BitVec 512) (o n : Nat) : Nat := r.toNat / 2 ^ (8 * o) % 2 ^ (8 * n)
/-- KIND and DEPS (R340). -/
def nodeKind (r : BitVec 512) : Nat := nf r 0 4 / 2 ^ 28
def nodeDeps (r : BitVec 512) : Nat := fieldN (nf r 0 4) 27 16
/-- Valid successor entries: node and set (R340). -/
def nodeSuccs (r : BitVec 512) : List (Nat × Bool) :=
  (List.range 8).filterMap fun k => let e := nf r (0x30 + 2 * k) 2; if e.testBit 15 then some (e % 4096, e.testBit 12) else none
/-- The collective operation of a COLL node (R341). -/
def nodeColl (s : State) (run node : Nat) (r : BitVec 512) : CollOp :=
  { collOfWords (nf r 8 4) (nf r 0xC 4) (nf r 0x10 8) (nf r 0x18 8) (nf r 0x20 8) with
    cid := nodeCid s run node, node := some (run, node), issued := s.now, bad := if collWordsBad (nf r 8 4) (nf r 0xC 4) then some 4 else none }
/-- Does a node record fail its checks, apart from a header (R342)? -/
def nodeBad (s : State) (run node ncnt ctx : Nat) (r : BitVec 512) : Bool :=
  let zero (a b : Nat) : Bool := decide (nf r a (b - a) = 0)
  let k := nodeKind r
  let payload := match k with
    | 0 => decide (nf r 8 8 % 256 ≠ 0) || decide (nf r 0x12 2 ≠ 0) || !zero 0x14 0x30
    | 1 => decide (nf r 8 8 % 16 ≠ 0) || decide (nf r 0x10 8 % 16 ≠ 0) || decide (nf r 0x18 8 % 16 ≠ 0) || decide (nf r 0x18 8 = 0) || decide (nf r 0x18 8 > 2 ^ 40) || !zero 0x20 0x30
    | 2 => !zero 0x28 0x30 || (collCheck s (nodeColl s run node r) ctx).isSome
    | 3 => !zero 8 0x30
    | 4 => decide (nf r 8 8 % 4 ≠ 0) || !zero 0x18 0x30
    | 5 => decide (nf r 8 8 % 8 ≠ 0) || !zero 0x18 0x30
    | 6 => !zero 9 0x10 || !zero 0x18 0x30
    | _ => true
  let succ := (List.range 8).any fun j =>
    let e := nf r (0x30 + 2 * j) 2
    e.testBit 15 && (decide (fieldN e 14 13 ≠ 0) || decide (e % 4096 ≥ ncnt) || (e.testBit 12 && decide (k ≠ 4)))
  decide (nf r 0 2 ≠ 0) || !zero 4 8 || payload || succ

/-- The run fails (R342): BADREC and its entry; nothing more is dispatched; staged plots are given up. -/
def failRun (s : State) (no : Nat) : State :=
  let r := getRun s no
  if (tget s.runs no).isNone ∨ r.failed then s
  else
    let s := updRun s no fun r => { r with failed := true, ready := [] }
    let s := unstage { s with launchWaits := s.launchWaits.filter fun w => w.run != no } fun x => x.run == no
    ringPost (setRegBit s (0x10018 + 32 * r.queue) 0 true) r.queue 2 r.tag 1
/-- A translation of the launcher's own access failed: page service, as for an engine (R342, R361). -/
def launchMiss (s : State) (no node page : Nat) : State :=
  if s.launchWaits.any fun w => w.run == no && page64 w.page == page64 page then s
  else { s with launchWaits := s.launchWaits ++ [{ run := no, node := node, page := page, since := s.now }]
                fwEvents := s.fwEvents ++ [{ key := 0x10000 + (getRun s no).ctx, what := 2, x := no * 4096 + node, y := page64 page, since := s.now }] }
/-- Does a run wait for page service? -/
def runWaits (s : State) (no : Nat) : Bool := s.launchWaits.any fun w => w.run == no
/-- Physical key of a plan's first byte: for the caches of R351. -/
def planKey (l : List (Loc × Nat)) : Nat :=
  match l with
  | (x, _) :: _ => lineKey x + lineOff x
  | [] => 0
/-- May a cached copy serve (R351)? With GFENCE it does not; else whether it does is free (log 2). -/
def useCached (s : State) (r : Run) : Bool := !r.gfence && decide (Config.freePick s.free % 2 = 0)
/-- Take one node record (R342, R351). -/
def takeNode (s : State) (no node : Nat) : State :=
  let r := getRun s no
  if r.failed ∨ (tget r.recs node).isSome then s
  else match engPlan s none r.ctx (r.gaddr + 64 * node) 64 false with
    | (.fault p _ _, s) => launchMiss s no node p
    | (.busy, s) => s
    | (.ok l, s) =>
      let x : BitVec 512 × State := match tget s.nodeCache (planKey l), useCached s r with
        | some x, true => (x, s)
        | _, _ => let b := planRead s r.ctx l; (BitVec.ofNat 512 (leNat b.1), b.2)
      let s := { x.2 with nodeCache := tput x.2.nodeCache (planKey l) x.1, free := x.2.free + 1 }
      if nodeBad s no node r.ncnt r.ctx x.1 then failRun s no else updRun s no fun r => { r with recs := tput r.recs node x.1 }
/-- Take the launch header of a KERNEL node (R342, R345, R351). -/
def takeHeader (s : State) (no node : Nat) : State :=
  let r := getRun s no
  match tget r.recs node with
  | none => s
  | some nr =>
    let at_ : DWord := BitVec.ofNat 64 (nf nr 8 8)
    let field (h : Header) : Field := { hdrAddr := at_, hdr := h, plots := nf nr 0x10 2 + 1 }
    if r.failed ∨ nodeKind nr ≠ 0 ∨ (tget r.fields node).isSome then s
    else match r.fields.find? fun e => e.2.hdrAddr == at_ with
    | some e => updRun s no fun r => { r with fields := tput r.fields node (field e.2.hdr) }
    | none => match engPlan s none r.ctx (nf nr 8 8) 256 false with
      | (.fault p _ _, s) => launchMiss s no node p
      | (.busy, s) => s
      | (.ok l, s) =>
        let x : List Byte × State := match tget s.hdrCache (planKey l), useCached s r with
          | some x, true => (x, s)
          | _, _ => planRead s r.ctx l
        let s := { x.2 with hdrCache := tput x.2.hdrCache (planKey l) x.1, free := x.2.free + 1 }
        if headerWordsBad x.1 || !fitsEmpty (headerOf x.1) then failRun s no
        else updRun s no fun r => { r with fields := tput r.fields node (field (headerOf x.1)) }
/-- Have all records and headers of a run been taken? -/
def allTaken (r : Run) : Bool := decide (r.recs.length = r.ncnt) && r.recs.all fun e => nodeKind e.2 != 0 || (tget r.fields e.1).isSome
/-- Nodes become ready, in ascending index (R347, R349). -/
def makeNodesReady (s : State) (no : Nat) (l : List Nat) : State :=
  let l := l.mergeSort (· ≤ ·)
  updRun s no fun r => { r with
    ready := r.ready ++ l
    sts := l.foldl (fun t n => tput t n .ready) r.sts
    fields := l.foldl (fun t n => tupd t n fun f => { f with readyAt := s.now }) r.fields }
/-- Take what is not yet taken; when all is, counters are set to DEPS, and nodes without dependences are ready,
with a record each; a node that a completion makes ready stands in the completion's record (R311, R347, R351; log 32, 87). -/
def takeRecords (s : State) (no : Nat) : State :=
  let l := List.range (getRun s no).ncnt
  let s := l.foldl (fun s n => takeHeader (takeNode s no n) no n) s
  let r := getRun s no
  if r.failed || !allTaken r || !r.cnt.isEmpty then s
  else
    let s := updRun s no fun r => { r with cnt := tmap r.recs fun _ x => nodeDeps x, sts := tmap r.recs fun _ _ => .waiting }
    let l := ((r.recs.filter fun e => nodeDeps e.2 == 0).map (·.1)).mergeSort (· ≤ ·)
    l.foldl (fun s n => emitR s unitLauncher 0x0010 (nodeCid s no n)) (makeNodesReady s no l)

/-! ### Counting and completion (R347, R348) -/

/-- Decrements one after another (R347): nodes that reach 0 become ready or are skipped, a skipped node sending dead ones at once. -/
def sendDecs (no : Nat) : Nat → List (Nat × Bool) → List Nat → State → State × List Nat
  | 0, _, acc, s => (s, acc)
  | _ + 1, [], acc, s => (s, acc)
  | k + 1, (n, live) :: rest, acc, s =>
    let r := getRun s no
    if r.failed then (s, [])
    else if tgetD r.cnt n 0 = 0 then (failRun s no, [])
    else
      let c := tgetD r.cnt n 0 - 1
      let lv := live || tgetD r.live n false
      let s := updRun s no fun r => { r with cnt := tput r.cnt n c, live := tput r.live n lv }
      if c ≠ 0 then sendDecs no k rest acc s
      else if lv then sendDecs no k rest (acc ++ [n]) s
      else
        let s := updRun s no fun r => { r with sts := tput r.sts n .skipped }
        let s := unstage (emitR s unitLauncher 0x0013 (nodeCid s no n)) fun x => x.run == no && x.node == n
        sendDecs no k (rest ++ (nodeSuccs (tgetD r.recs n 0)).map fun e => (e.1, false)) acc s
/-- Payload of a completion record: the first two successors, each with its index and the value its counter reaches, 0 for a BARRIER (R311;
log 87). -/
def countersNow (r : Run) (nr : BitVec 512) : Nat :=
  if nodeKind nr = 3 then 0
  else ((((nodeSuccs nr).map (·.1)).eraseDups.take 2).zipIdx.map fun x =>
    (2 ^ 31 + x.1 + (tgetD r.cnt x.1 0 - ((nodeSuccs nr).filter fun e => e.1 == x.1).length) * 2 ^ 12) * 2 ^ (32 * x.2)).sum
/-- A node completes: its record and its decrements (R311, R347). -/
def completeNode (s : State) (no node : Nat) : State :=
  let r := getRun s no
  let nr := tgetD r.recs node 0
  let s := emitR (updRun s no fun r => { r with sts := tput r.sts node .complete }) unitLauncher 0x0012 (nodeCid s no node)
    (if r.failed then 0 else countersNow r nr)
  let decs := (nodeSuccs nr).map fun e => (e.1, nodeKind nr != 4 || e.2 == tgetD r.chosen node false)
  if r.failed then s
  else
    let x := sendDecs no (8 * r.ncnt + 9) decs [] s
    makeNodesReady x.1 no x.2
/-- Channel that carries a COPY node: cluster and number. -/
def nodeChannel (s : State) (no node : Nat) : Option (Nat × Nat × CopyJob) :=
  s.clusters.findSome? fun k => k.2.channels.findSome? fun c => c.2.job.bind fun j => if j.run = no ∧ j.node = node then some (k.1, c.1, j) else none
/-- Has a GWCT passed (0: none)? -/
def passed (s : State) (g : Nat) : Bool := decide (g = 0) || decide (g < s.now)
/-- Has a dispatched node reached its completion point (R348)? -/
def nodeFinished (s : State) (no node : Nat) : Bool :=
  let r := getRun s no
  match nodeKind (tgetD r.recs node 0) with
  | 0 => let f := tgetD r.fields node {}; decide (f.retired ≥ f.plots)
  | 1 => match nodeChannel s no node with
    | some (_, _, j) => decide (j.done ≥ j.bytes) && passed s j.gwct
    | none => true
  | 2 => !(s.comms.any fun c => c.2.ops.any fun o => o.node == some (no, node))
  | 4 => (tget r.chosen node).isSome
  | 5 => passed s (tgetD r.acks node 0)
  | 6 => !((tgetD s.ports (portOf unitLauncher) []).any fun x => x.cid == nodeCid s no node && decide (x.type.toNat / 256 = 0xF1))
  | _ => true
def execNodeComplete (run node : Nat) (s : State) : Out :=
  let r := getRun s run
  .next (if (tget r.sts node == some .dispatched || tget r.sts node == some .reading) && nodeFinished s run node then
      let s := match nodeChannel s run node with
        | some (cl, ch, _) => updChannel s cl ch fun k => { k with job := none }
        | none => s
      completeNode s run node
    else s)

/-! ### Dispatch (R349, R350, R352) -/

/-- A channel that no resident plot reserves and no other job uses, from a free number on (R349). -/
def freeChannel (s : State) : Option (Nat × Nat) :=
  let start := Config.freePick s.free % 4096
  ((List.range 4096).map fun i => ((start + i) % 4096 / 16, (start + i) % 16)).find? fun x =>
    let k := getChannel s x.1 x.2
    k.job.isNone && k.cmds.isEmpty && (clusterCores s x.1).all fun ci => (heldPlots s ci).all fun p => !p.hdr.copych.testBit x.2
/-- Mark a node dispatched. -/
def dispatched (s : State) (no node : Nat) (st : NodeSt) : State :=
  updRun s no fun r => { r with sts := tput r.sts node st, ready := r.ready.filter (· != node) }
/-- The dispatch record of a node, with what it is dispatched to (R311; log 87). -/
def dispatchRec (s : State) (no node place : Nat) : State := emitR s unitLauncher 0x0011 (nodeCid s no node) place
/-- Dispatch the ready node at the head of its run (R349). -/
def dispatchNode (s : State) (no node : Nat) : State :=
  let r := getRun s no
  let nr := tgetD r.recs node 0
  match nodeKind nr with
  | 0 => preemptFields (dispatched s no node .dispatched)
  | 1 =>
    match freeChannel s with
    | none => s
    | some (cl, ch) =>
      let j : CopyJob := { run := no, node := node, ctx := r.ctx, src := nf nr 8 8, dst := nf nr 0x10 8, bytes := nf nr 0x18 8 }
      let s := dispatched (updChannel { s with free := s.free + 1 } cl ch fun k => { k with job := some j, frozen := false }) no node .dispatched
      emitR (dispatchRec s no node (cl + ch / 8 * 2 ^ 16 + ch * 2 ^ 32)) (unitCopy cl ch) 0x0101 (nodeCid s no node) j.bytes
  | 2 =>
    let (id, s) := freshId s
    let comm := nf nr 8 4 % 256
    let s := dispatchRec (dispatched s no node .dispatched) no node ((tgetD s.comms comm {}).engine + comm * 2 ^ 32)
    collAdvance (collArrive s { nodeColl s no node nr with id := id }) comm
  | 4 => dispatchRec (dispatched s no node .reading) no node 0
  | 5 =>
    match engPlan s none r.ctx (nf nr 8 8) 8 true with
    | (.fault p _ _, s) => launchMiss s no node p
    | (.busy, s) => s
    | (.ok l, s) =>
      let w := planWrite s r.ctx l (natLe 8 (nf nr 0x10 8))
      dispatchRec (dispatched (updRun w.2 no fun r => { r with acks := tput r.acks node w.1 }) no node .dispatched) no node 0
  | 6 => emitR (dispatchRec (dispatched s no node .dispatched) no node 0) unitLauncher (0xF100 + nf nr 8 1) (nodeCid s no node) (nf nr 0x10 8)
  | _ => dispatched s no node .dispatched
def execNodeDispatch (run node : Nat) (s : State) : Out :=
  let s := takeRecords s run
  let r := getRun s run
  .next (if r.failed || runWaits s run || r.ready.head? != some node then s else dispatchNode s run node)
/-- The launcher reads a COND node's word at its home and chooses (R352). -/
def execCondRead (run node : Nat) (s : State) : Out :=
  let r := getRun s run
  let nr := tgetD r.recs node 0
  .next (if tget r.sts node != some .reading || runWaits s run || (tget r.chosen node).isSome then s
    else match engPlan s none r.ctx (nf nr 8 8) 4 false with
      | (.fault p _ _, s) => launchMiss s run node p
      | (.busy, s) => s
      | (.ok l, s) =>
        let b := planRead s r.ctx l
        let w := leNat b.1
        updRun b.2 run fun r => { r with chosen := tput r.chosen node (decide (w &&& nf nr 0x10 4 = nf nr 0x14 4)) })

/-! ### Staging (R353) -/

/-- Would a waiting COND's completion make this node ready (R353)? -/
def stageable (r : Run) (node : Nat) : Bool :=
  let left := tgetD r.cnt node 0
  decide (left > 0) && r.recs.any fun e => nodeKind e.2 == 4 && (match tget r.sts e.1 with
    | some .waiting | some .ready | some .reading => true
    | _ => false) && [false, true].any fun b => decide (((nodeSuccs e.2).filter fun x => x.1 == node).length = left) && (nodeSuccs e.2).any fun x => x.1 == node && x.2 == b
/-- The launcher stages the next plot of a KERNEL successor of a waiting COND on a core (R353): resources and entry lines. -/
def execPlotStage (run node core : Nat) (s : State) : Out :=
  let r := getRun s run
  let n := ((s.staged.filter fun x => x.run == run && x.node == node && x.plot.part == 0).length)
  .next (match tget r.fields node with
    | none => s
    | some f =>
      if r.failed || !stageable r node || decide (n ≥ min 16 f.plots) then s
      else match placeNow s core f.hdr with
        | none => s
        | some l =>
          let s := l.foldl (fun s x =>
            let s := setStaged s (s.staged ++ [{ run := run, node := node, core := x.1, plot := plotFrom s r node n f x.1 x.2, sheaves := x.2.sheaves }])
            f.hdr.roles.foldl (fun s ro => (fetchFor s x.1 r.ctx ro.entry.toNat).2) s) s
          emitR s unitLauncher 0x0014 (nodeCid s run node))

end Sys2Proof.Machine
end

