-- ==== Sys2Proof/Machine/Queues.lean ====
section
/-!
DEFINITION. The host link, queues, the resident filter, the firmware cores and the host event ring (24_host_queues_firmware R329 to R339),
and the start and end of runs (R333).
-/
namespace Sys2Proof.Machine
open Sys2Proof

/-! ### Window 2 (R329, R330, R366) -/

/-- The device store of one piece of a host write within a line, under the per-boot key (R80, R330, R366). -/
def window2Store (s : State) (pa : Nat) (bs : List Byte) : State :=
  let r := homeStored (keyedWrite s s.sec.bootKey pa bs) (pa / 128 * 128)
  { r.2 with winGwct := max r.2.winGwct r.1 }
/-- Cut bytes at line ends. -/
def linePieces : Nat → Nat → List Byte → List (Nat × List Byte)
  | 0, _, _ => []
  | k + 1, a, bs => if bs.isEmpty then [] else (a, bs.take (128 - a % 128)) :: linePieces k (a + (128 - a % 128)) (bs.drop (128 - a % 128))
/-- A host access beyond HBM (R329): recorded, by the unit of the launcher's host link (log 33). -/
def hostAccessEvent (s : State) : State := emitR s unitLauncher 0x0020 0
/-- A host write through window 2 (R329, R330). -/
def execHostWindow2Write (offset : Nat) (data : List Byte) (s : State) : Out :=
  let keep := data.take (Config.hbmBytes - offset)
  let s := (linePieces (keep.length / 128 + 2) offset keep).foldl (fun s p => window2Store s p.1 p.2) s
  .next (if keep.length < data.length then hostAccessEvent s else s)
/-- A host read through window 2: all ones above HBM and in a saved plot's slot (R329, R366, R367). -/
def execHostWindow2Read (offset len : Nat) (s : State) : Out :=
  let bs := (List.range len).map fun i =>
    let a := offset + i
    if a ≥ Config.hbmBytes then 0xFF else (keyedRead s s.sec.bootKey a 1).headD 0
  let s := { s with hostRead := bs }
  .next (if offset + len > Config.hbmBytes then hostAccessEvent s else s)

/-- A register write of the host: it takes effect once every earlier window-2 write is performed and its GWCT has passed (R330); until
then a cycle passes. -/
def hostGate (i : Instr) (k : State → State) (s : State) : Out :=
  .next (if s.winGwct < s.now ∨ s.winGwct = 0 then k s else { s with agenda := .issueCycle :: i :: s.agenda })

/-! ### Queues (R331, R334, R335) -/

/-- Offset of a queue's block. -/
def qBlock (q : Nat) : Nat := 0x10000 + 32 * q
def qEn (s : State) (q : Nat) : Bool := regBit s (qBlock q + 8) 31
def qRes (s : State) (q : Nat) : Bool := regBit s (qBlock q + 8) 30
def qResg (s : State) (q : Nat) : Bool := regBit s (qBlock q + 8) 29
def qLog2 (s : State) (q : Nat) : Nat := fieldN (regN s (qBlock q + 8)) 19 16
def qTail (s : State) (q : Nat) : Word := reg32 s (qBlock q + 0x10)
def qHead (s : State) (q : Nat) : Word := reg32 s (qBlock q + 0x14)
def updQueue (s : State) (q : Nat) (f : QueueSt → QueueSt) : State := { s with queues := tput s.queues q (f (tgetD s.queues q {})) }
/-- A firmware event (R336). -/
def fwEvent (s : State) (key what x y : Nat) : State := { s with fwEvents := s.fwEvents ++ [{ key := key, what := what, x := x, y := y, since := s.now }] }

/-- The tail reaches the launcher: at once for a resident queue, else as a firmware event, of which one at most is pending (R335,
R336). -/
def passTail (s : State) (q : Nat) : State :=
  if qResg s q then updQueue s q fun x => { x with seen := qTail s q }
  else if s.fwEvents.any fun e => e.what == 3 && e.x == q then s
  else fwEvent s q 3 q 0
/-- A write to QTAIL (R331, R334, R335). -/
def tailWritten (q : Nat) (v : Word) (s : State) : State :=
  if v = qTail s q then s
  else if (v - qHead s q).toNat > 2 ^ qLog2 s q then queueError s q 1
  else
    let old := qTail s q
    passTail (updQueue (setReg32 s (qBlock q + 0x10) v) q fun x => { x with lastTail := s.now, tailRecs := x.tailRecs ++ [(old, v, s.now)] }) q
def execTailWrite (queue : Nat) (value : Word) (s : State) : Out := hostGate (.tailWrite queue value) (tailWritten queue value) s

/-- A write that sets RES asks firmware (R335). -/
def askResidency (s : State) (q : Nat) : State :=
  fwEvent (updQueue { s with nextId := s.nextId + 1 } q fun x => { x with resAt := s.nextId }) q 4 q 0
/-- Filter entries granted. -/
def grantedQueues (s : State) : List Nat := (List.range 1024).filter (qResg s)
/-- Set or clear RESG; the tails written so far are then seen as residency changes at a record boundary (R335). -/
def setResg (s : State) (q : Nat) (b : Bool) : State := setRegBit s (qBlock q + 8) 29 b
/-- The queue to reclaim an entry from for a priority: idle, lower, of the lowest PRI, the oldest latest tail write (R335). -/
def reclaimable (s : State) (pri : Nat) : Option Nat :=
  let l := (grantedQueues s).filter fun q => decide (queuePri s q < pri) && qHead s q == qTail s q
  l.foldl (fun b q => match b with
    | none => some q
    | some x =>
      let key (q : Nat) : Nat × Nat := (queuePri s q, (tgetD s.queues q {}).lastTail)
      if (key q).1 < (key x).1 ∨ ((key q).1 = (key x).1 ∧ (key q).2 < (key x).2) then some q else b) none
/-- The requests without an entry, in the order of their RES writes (R335). -/
def resOrder (s : State) : List Nat :=
  let at_ (q : Nat) : Nat := (tgetD s.queues q {}).resAt
  s.resHeld.foldr (fun q l => l.takeWhile (fun x => decide (at_ x < at_ q)) ++ q :: l.dropWhile fun x => decide (at_ x < at_ q)) []
/-- Firmware serves the held requests: the earliest gets a free entry, or, where there is none, the earliest for which one can be reclaimed
(R335). The model's choice: a request for which none can be reclaimed does not keep a later one of higher priority from reclaiming; the rule
orders the grants alone (log 86). -/
def grantHeld (s : State) : State :=
  let l := (resOrder s).filter fun q => qRes s q && !qResg s q
  if (grantedQueues s).length < 64 then (match l with
    | [] => s
    | q :: _ => setResg { s with resHeld := s.resHeld.filter (· != q) } q true)
  else match l.findSome? fun q => (reclaimable s (queuePri s q)).map fun v => (q, v) with
    | some (q, v) => setResg (setResg { s with resHeld := (s.resHeld.filter (· != q)) ++ [v] } v false) q true
    | none => s
/-- A request joins those that are held, and they are served (R335). -/
def grantResidency (s : State) (q : Nat) : State :=
  if !qRes s q || qResg s q then s
  else grantHeld { s with resHeld := if s.resHeld.contains q then s.resHeld else s.resHeld ++ [q] }
/-- RES or EN is cleared: the entry returns (R335). -/
def returnEntry (s : State) (q : Nat) : State :=
  let had := qResg s q
  let s := setResg { s with resHeld := s.resHeld.filter (· != q) } q false
  if had then grantHeld s else s
/-- A write of a queue's control word (R331): while EN is 1 LOG2 keeps its value; EN is not set with a bad LOG2 or QBASE. -/
def queueControl (q : Nat) (value : Word) (s : State) : State :=
  let v := value.toNat
  let en0 := qEn s q
  let res0 := qRes s q
  let log2 := if en0 then qLog2 s q else fieldN v 19 16
  let bad := !en0 && v.testBit 31 && !(decide (4 ≤ log2) && decide (log2 ≤ 16) && decide (reg64 s (qBlock q) % 2 ^ 12 = 0))
  let en := v.testBit 31 && !bad
  let w := (if en then 2 ^ 31 else 0) + (if v.testBit 30 then 2 ^ 30 else 0) + (if qResg s q then 2 ^ 29 else 0) + log2 * 2 ^ 16 + fieldN v 10 8 * 2 ^ 8
  let s := setReg32 s (qBlock q + 8) (BitVec.ofNat 32 w)
  let s := if bad then queueError s q 2 else s
  let s := if v.testBit 30 && !res0 then askResidency s q else s
  if (res0 && !v.testBit 30) || (en0 && !en) then returnEntry s q else s
def execQueueEnable (queue : Nat) (value : Word) (s : State) : Out := hostGate (.queueEnable queue value) (queueControl queue value) s
/-- A write that sets RES (R335). -/
def execResidencyRequest (queue : Nat) (s : State) : Out :=
  hostGate (.residencyRequest queue) (fun s => queueControl queue (reg32 s (qBlock queue + 8) ||| (1 <<< 30)) s) s
/-- A write that clears RES (R335). -/
def execResidencyReturn (queue : Nat) (s : State) : Out :=
  hostGate (.residencyReturn queue) (fun s => queueControl queue (reg32 s (qBlock queue + 8) &&& ~~~((1 : Word) <<< 30)) s) s

/-! ### Records and runs (R332, R333, R419) -/

/-- Do the fields of a graph-launch record fail a check (R332, R333)? -/
def launchRecBad (bs : List Byte) : Bool :=
  let w8 := bf bs 8 4
  decide (w8 ≥ 2 ^ 15) || w8.testBit 12 || decide (w8 % 4096 = 0) || decide (bf bs 0 8 % 64 ≠ 0) || !bzero bs 0x20 0x40
/-- Tail-write records whose CID is now fixed (R411, R419): those of which record n is the first to start a run, or none is left. -/
def fixTailRecs (s : State) (q : Nat) (n : Word) (run : Option Nat) : State :=
  let l := (tgetD s.queues q {}).tailRecs
  let due := l.filter fun x => x.1 == n && (run.isSome || x.1 + 1 == x.2.1)
  let rest := (l.filter fun x => !due.contains x).map fun x => if x.1 = n then (x.1 + 1, x.2) else x
  let s := updQueue s q fun x => { x with tailRecs := rest }
  due.foldl (fun s x => emitRec s { time := x.2.2, cid := (run.map (runCid s)).getD 0, unit := unitOf 4 q, type := 0x0001, flags := 0, payload := x.2.1.setWidth 64 }) s
/-- Start a run (R333, R347). -/
def startRun (s : State) (q : Nat) (bs : List Byte) : State :=
  let no := s.runNo
  let w8 := bf bs 8 4
  let r : Run := { no := no, queue := q, ctx := queueCtx s q, gaddr := bf bs 0 8, ncnt := w8 % 4096, tag := BitVec.ofNat 32 (bf bs 0xC 4)
                   compl := bf bs 0x10 8, complv := BitVec.ofNat 64 (bf bs 0x18 8), sig := w8.testBit 13, gfence := w8.testBit 14 }
  let s := { s with runNo := (no + 1) % 2 ^ 26, runs := tput s.runs no r }
  takeRecords (emitR (updQueue s q fun x => { x with running := some no }) unitLauncher 0x0002 (runCid s no) r.gaddr) no
/-- May a queue accept its next record: one below the tail that has reached the launcher, and below the latest QTAIL, which governs (R333,
R334)? -/
def canAccept (s : State) (q : Nat) : Bool :=
  qEn s q && !regBit s (qBlock q + 0x18) 3 && (tgetD s.queues q {}).running.isNone && (tgetD s.queues q {}).seen != qHead s q && qTail s q != qHead s q
/-- A queue reads its next record (R331 to R333). -/
def acceptRecord (s : State) (q : Nat) : State :=
  let n := qHead s q
  match engPlan s none (queueCtx s q) (reg64 s (qBlock q) / 2 ^ 12 * 2 ^ 12 + 64 * (n.toNat % 2 ^ qLog2 s q)) 64 false with
  | (.busy, s) => s
  | (.fault _ _ _, s) => queueError s q 3
  | (.ok l, s) =>
    let (bs, s) := planRead s (queueCtx s q) l
    let s := setReg32 s (qBlock q + 0x14) (n + 1)
    if launchRecBad bs then queueError (fixTailRecs s q n none) q 0
    else startRun (fixTailRecs s q n (some s.runNo)) q bs
def execQueueRecordAccept (queue : Nat) (s : State) : Out := .next (if canAccept s queue then acceptRecord s queue else s)

/-- Has every node of a run come to its end; of a failed one, every node that was dispatched (R333, R342)? -/
def runOver (r : Run) : Bool :=
  if r.failed then r.sts.all fun e => e.2 != .dispatched && e.2 != .reading
  else !r.sts.isEmpty && r.sts.all fun e => e.2 == .complete || e.2 == .skipped
/-- A run is over: its queue may start the next (R333). -/
def closeRun (s : State) (r : Run) : State :=
  emitR (updQueue { s with runs := tdel s.runs r.no } r.queue fun x => { x with running := none }) unitLauncher 0x0003 (runCid s r.no) r.queue
/-- The end of a run (R333): COMPV, then the completion entry. A COMPL that does not translate goes the way of R342 (log 34). -/
def execRunEnd (run : Nat) (s : State) : Out :=
  .next (match tget s.runs run with
    | none => s
    | some r =>
      if !runOver r || runWaits s run then s
      else if r.failed then closeRun s r
      else
        let post (s : State) : State :=
          let s := closeRun (updQueue s r.queue fun x => { x with lastTag := r.tag }) r
          if r.sig then ringPost s r.queue 1 r.tag else s
        if r.compl = 0 then post s
        else match engPlan s none r.ctx r.compl 8 true with
          | (.fault p _ _, s) => launchMiss s run 0xFFF p
          | (.busy, s) => s
          | (.ok l, s) =>
            let w := planWrite s r.ctx l (natLe 8 r.complv.toNat)
            post (updQueue w.2 r.queue fun x => { x with gwct := max x.gwct w.1 }))

/-- GINV: cached records and headers are discarded (R351). -/
def execGinvWrite (s : State) : Out := .next { s with nodeCache := [], hdrCache := [] }

/-! ### The event ring and firmware cores (R336 to R339) -/

/-- Catch-up entries, in ascending queue order, while two slots are free (R339). -/
def catchUp : List Nat → State → State
  | [], s => s
  | q :: rest, s =>
    if ringFree s < 2 then s
    else
      let n := regN s (qBlock q + 0x1C)
      let s := ringWrite s q 4 (tgetD s.queues q {}).lastTag (regN s (qBlock q + 0x18)) n
      catchUp rest (setReg32 s (qBlock q + 0x1C) 0)
/-- The host has advanced ERHEAD (R339). -/
def execErheadWrite (s : State) : Out :=
  .next (if !s.overflowed || !regBit s 0x20008 31 then s
    else
      let s := catchUp ((List.range 1024).filter fun q => regN s (qBlock q + 0x1C) ≠ 0) s
      -- with every catch-up written ordinary entries resume: the next one that finds one slot free is the first withheld again
      if (List.range 1024).all (fun q => regN s (qBlock q + 0x1C) = 0) then { s with overflowed := false } else s)

/-- Firmware cores and their states. -/
def fwCore (s : State) (k : Nat) : FwCore := tgetD s.fwCores k {}
/-- The core that takes an event: an idle one awake before a retained one (R336, R337). -/
def idleFw (s : State) : Option Nat :=
  let idle := (List.range 12).filter fun k => (fwCore s k).busy.isNone
  (idle.find? fun k => !(fwCore s k).retained).or idle.head?
/-- The events that stand in a slot: a queue's tail event in its own, and as many of the others as there are slots; the sources of the rest
wait (R336). -/
def slotted : Nat → List FwEvent → List FwEvent
  | _, [] => []
  | n, e :: l => if e.what = 3 then e :: slotted n l else match n with
    | 0 => slotted 0 l
    | k + 1 => e :: slotted k l
/-- The first event in a slot whose key no core holds (R336). -/
def nextFw (s : State) : Option FwEvent := (slotted 1024 s.fwEvents).find? fun e => (List.range 12).all fun k => (fwCore s k).busy != some e.key
/-- Is a firmware core to enter retention, having been idle for 2 µs (R337)? -/
def retentionDue (s : State) : Bool :=
  (List.range 12).any fun k => (fwCore s k).busy.isNone && !(fwCore s k).retained && decide (s.now ≥ (fwCore s k).idleSince + 8000)
/-- A core takes an event and runs it; page service is a step of its own, which frees the core (R336, R337, R361). -/
def execFirmwareEventDispatch (s : State) : Out :=
  .next (match nextFw s, idleFw s with
    | some e, some k =>
      let s := { s with fwEvents := s.fwEvents.erase e }
      let core (b : Option Nat) (s : State) : State := { s with fwCores := tput s.fwCores k { busy := b, idleSince := s.now } }
      match e.what with
      | 3 => core none (updQueue s e.x fun x => { x with seen := qTail s e.x })
      | 4 => core none (grantResidency s e.x)
      | 5 => core none (ringPost s 0xFFFF 6 0)
      | _ => core (some e.key) { s with agenda := .pageService (e.key - 0x10000) e.y :: s.agenda }
    | _, _ => s)
/-- Firmware cores idle for 2 µs are retained (R337). -/
def execFirmwareRetention (s : State) : Out :=
  .next { s with fwCores := (List.range 12).map fun k =>
    let c := fwCore s k
    (k, if c.busy.isNone ∧ s.now ≥ c.idleSince + 8000 then { c with retained := true } else c) }

end Sys2Proof.Machine
end

