-- ==== Sys2Proof/Machine/Translation.lean ====
section
/-!
DEFINITION. Page service, invalidation and migration (26_translation_migration R360 to R364).
-/
namespace Sys2Proof.Machine
open Sys2Proof

/-! ### Page service (R361, R362) -/

/-- What firmware finds when it walks again. -/
inductive Verdict where
  | repaired
  | declined
  | ask
  deriving DecidableEq, Repr
/-- Firmware walks again (R361 steps 2 and 3): a migrating page is retried by its requester. -/
def serviceWalk (s : State) (ctx page : Nat) (wr : Bool) : Verdict :=
  match walkTables s ctx page with
  | .ok t => if wr && !t.w then .declined else .repaired
  | .busy => .repaired
  | .fail _ d => if d then .declined else .ask
  | .hole => .declined

/-- Who waits for a page: a fragment (core, entry), a run of the launcher, a COPY node's channel, a COLL node's operation. -/
inductive Waiter where
  | frag (ci e : Nat)
  | launch (run node : Nat)
  | job (cl ch : Nat)
  | coll (comm : Nat)
  deriving DecidableEq, Repr
/-- When a waiter faulted (R362). -/
def waiterSince (s : State) (page : Nat) (w : Waiter) : Nat :=
  match w with
  | .frag ci e => (tgetD (getCore s ci).frags e {}).since
  | .launch run node => ((s.launchWaits.find? fun w => w.run == run && w.node == node && page64 w.page == page).map (·.since)).getD 0
  | .job cl ch => ((getChannel s cl ch).job.map (·.since)).getD 0
  | .coll comm => ((tgetD s.comms comm {}).ops.head?.map (·.since)).getD 0
/-- Everything that waits for service of a page of a context, with whether a store asked. -/
def waitersOf (s : State) (ctx page : Nat) : List (Waiter × Bool) :=
  (s.cores.flatMap fun c => (c.2.frags.filter fun f => f.2.delivery == .service && page64 f.2.page == page && (getPlot c.2 f.2.plot).ctx == ctx).map fun f => (Waiter.frag c.1 f.1, f.2.wr))
    ++ ((s.launchWaits.filter fun w => page64 w.page == page && (getRun s w.run).ctx == ctx).map fun w =>
      (Waiter.launch w.run w.node, decide (w.node = 0xFFF) || nodeKind (tgetD (getRun s w.run).recs w.node 0) == 5))
    ++ (s.clusters.flatMap fun k => k.2.channels.filterMap fun c => match c.2.job with
      | some j => if c.2.frozen ∧ j.ctx = ctx ∧ page64 j.page = page ∧ !c.2.master then
          some (Waiter.job k.1 c.1, j.wr) else none
      | none => none)
    ++ s.comms.filterMap fun c => match c.2.ops.head? with
      | some o => if o.node.isSome ∧ o.frozen ∧ c.2.ctx = ctx ∧ page64 o.page = page then some (Waiter.coll c.1, o.wr) else none
      | none => none
/-- Put a waiter among those that faulted before and after it. -/
def insertWaiter (s : State) (page : Nat) (x : Waiter × Bool) : List (Waiter × Bool) → List (Waiter × Bool)
  | [] => [x]
  | y :: l => if waiterSince s page x.1 ≤ waiterSince s page y.1 then x :: y :: l else y :: insertWaiter s page x l
/-- The waiters of a page in the order of their faults: the first names the address of a request (R362). The model's choice for faults of one
instant: cores first, by number and entry, then the launcher, channels and communicators. -/
def pageWaiters (s : State) (ctx page : Nat) : List (Waiter × Bool) := (waitersOf s ctx page).foldr (insertWaiter s page) []
/-- A repaired page: the waiter goes on (R361 step 5). -/
def repairWaiter (s : State) (page : Nat) (w : Waiter) : State :=
  match w with
  | .frag ci e => resumeEntry s ci e
  | .launch run _ => takeRecords { s with launchWaits := s.launchWaits.filter fun x => !(x.run == run && page64 x.page == page) } run
  | .job cl ch => updChannel s cl ch fun k => { k with frozen := false }
  | .coll comm => collAdvance (updHead s comm fun o => { o with frozen := false }) comm
/-- A declined one: a fragment goes to its plot's handler, a run fails, a COPY channel is the host's (R342, R348, R361). -/
def declineWaiter (s : State) (page : Nat) (w : Waiter) : State :=
  match w with
  | .frag ci e => fragPending (showCause s ci e) ci e
  | .launch run _ => failRun { s with launchWaits := s.launchWaits.filter fun x => !(x.run == run && page64 x.page == page) } run
  | .job cl ch =>
    match (getChannel s cl ch).job with
    | some j => let r := getRun s j.run; freezeMaster (updChannel s cl ch fun k => { k with master := true }) 1 (cl * 16 + ch) 7 r.queue r.tag (unitCopy cl ch) (nodeCid s j.run j.node)
    | none => s
  | .coll comm =>
    match (tgetD s.comms comm {}).ops.head?.bind (·.node) with
    | some (run, _) => ringPost s (getRun s run).queue 5 (getRun s run).tag
    | none => s
/-- Free slots of the page-request ring (R362). -/
def prFree (s : State) : Nat := 2 ^ (regN s 0x34108 % 16) - (reg32 s 0x34114 - reg32 s 0x34110).toNat
/-- Write one entry of the ring. -/
def prWrite (s : State) (r : PageReq) : State :=
  let lg := regN s 0x34108 % 16
  let n := regN s 0x34114
  let w8 := r.ctx % 64 * 2 ^ 26 + r.wr.toNat * 2 ^ 25 + r.eng.toNat * 2 ^ 24 + r.id % 2 ^ 24
  let s := physWrite s (hostPa (reg64 s 0x34100 + 32 * (n % 2 ^ lg)))
    (natLe 8 r.va ++ natLe 4 w8 ++ natLe 4 0 ++ natLe 8 r.time ++ natLe 4 (if n.testBit lg then 2 ^ 31 else 0) ++ natLe 4 0)
  setReg32 s 0x34114 (reg32 s 0x34114 + 1)
/-- Waiting requests are written in arrival order while the ring has room (R362). -/
def prDrain : List PageReq → State → State
  | [], s => s
  | r :: rest, s =>
    if r.posted then prDrain rest s
    else if prFree s = 0 then s
    else
      let s := prWrite s r
      prDrain rest { s with pageReqs := s.pageReqs.map fun x => if x.id = r.id then { x with posted := true } else x }
/-- Faulting address of a waiter on a page (R362): a fragment's detail, or where the engine's or the launcher's access failed. -/
def waiterVa (s : State) (page : Nat) (w : Waiter) : Nat :=
  match w with
  | .frag ci e => ((tget (getCore s ci).frags e).map fun f => if f.kind = 0 then f.det1.toNat + 2 ^ 32 * f.det2.toNat else f.page).getD page
  | .launch run node => ((s.launchWaits.find? fun w => w.run == run && w.node == node && page64 w.page == page).map (·.page)).getD page
  | .job cl ch => ((getChannel s cl ch).job.map (·.page)).getD page
  | .coll comm => ((tgetD s.comms comm {}).ops.head?.map (·.page)).getD page
/-- Is the waiter an engine or the launcher (R362)? -/
def waiterEng (s : State) (w : Waiter) : Bool :=
  match w with
  | .frag ci e => ((tget (getCore s ci).frags e).map fun f => decide (f.kind ≠ 0)).getD false
  | _ => true
/-- One waiter of a page: resumed, declined, or joined to a request, which is posted if there is none (R361). -/
def serveWaiter (ctx page : Nat) (s : State) (w : Waiter × Bool) : State :=
  match serviceWalk s ctx page w.2 with
  | .repaired => repairWaiter s page w.1
  | .declined => declineWaiter s page w.1
  | .ask =>
    if s.pageReqs.any fun r => r.ctx == ctx && r.page == page then s
    else if !regBit s 0x34108 31 then declineWaiter s page w.1
    else
      let r : PageReq := { id := s.nextReq, ctx := ctx, page := page, va := waiterVa s page w.1, wr := w.2, eng := waiterEng s w.1, posted := false, time := s.now }
      let s := { s with pageReqs := s.pageReqs ++ [r], nextReq := (s.nextReq + 1) % 2 ^ 24 }
      prDrain s.pageReqs s
/-- Firmware serves a page of a context (R361); an open request is joined. -/
def execPageService (ctx page : Nat) (s : State) : Out :=
  let s := { s with fwCores := tmap s.fwCores fun _ c => if c.busy = some (0x10000 + ctx) then { c with busy := none, idleSince := s.now } else c }
  .next (if s.pageReqs.any fun r => r.ctx == ctx && r.page == page then s else (pageWaiters s ctx page).foldl (serveWaiter ctx page) s)
/-- A write to VERDICT (R361 step 5, R362). -/
def execPageVerdict (s : State) : Out :=
  let v := regN s 0x34118
  -- R5: a WO field reads zero
  let s := setReg32 s 0x34118 0
  .next (match s.pageReqs.find? fun r => r.id == v % 2 ^ 24 with
    | none => s
    | some r =>
      let l := pageWaiters s r.ctx r.page
      let s := { s with pageReqs := s.pageReqs.filter fun x => x.id != r.id }
      l.foldl (fun s w => if v.testBit 31 then declineWaiter s r.page w.1 else repairWaiter s r.page w.1) s)
/-- The host has advanced PRHEAD (R362). -/
def execPrheadWrite (s : State) : Out := .next (prDrain s.pageReqs s)

/-! ### Invalidation (R360) -/

/-- Take the translations of a range of a context, and instruction lines fetched through them, out of every TLB and cache. -/
def dropRange (s : State) (ctx lo n : Nat) : State :=
  let hit (va size : Nat) : Bool := decide (va < lo + n) && decide (lo < va + size)
  { s with
    cores := tmap s.cores fun _ c => { c with
      tlb := c.tlb.filter fun t => !(t.ctx == ctx && hit t.va t.size)
      icache := c.icache.filter fun e => !(decide (e.1 / 2 ^ 64 = ctx) && hit (e.1 % 2 ^ 64) 128) }
    clusters := tmap s.clusters fun _ k => { k with
      tlb := k.tlb.filter fun t => !(t.ctx == ctx && hit t.va t.size)
      walkCache := k.walkCache.filter fun p => !(p.ctx == ctx && hit (p.top * 2 ^ (walkLevel (p.level + 1)).1) (2 ^ (walkLevel (p.level + 1)).1)) } }
/-- A GO write (R360): ignored while BUSY. -/
def execTlbInvalidate (s : State) : Out :=
  let w := regN s 0x34008
  let s := setRegBit s 0x34008 31 false
  .next (if w.testBit 30 || !w.testBit 31 then s
    else
      let ctx := fieldN w 21 16
      let s := if w.testBit 29 then dropRange s ctx 0 (2 ^ 64) else dropRange s ctx (reg64 s 0x34000 / 2 ^ 16 * 2 ^ 16) ((w % 2 ^ 16 + 1) * 2 ^ 16)
      setRegBit { s with inval := some (s.nextId, none) } 0x34008 30 true)
/-- Latest of some times. -/
def latestOf (l : List Nat) : Nat := l.foldl max 0
/-- Latest GWCT that has been returned, to a core, a plot, an engine's job, a collective, a run or the end of one, or that a home line's last store waits
for, and that may not have passed (R83, R360). -/
def latestGwct (s : State) : Nat :=
  latestOf ((s.cores.flatMap fun c => (c.2.gwcts.map fun x => x.2.1) ++ c.2.plots.map fun p => p.2.gwct) ++ (s.homes.map fun h => h.2.gwct)
    ++ (s.clusters.flatMap fun k => k.2.channels.filterMap fun c => c.2.job.map (·.gwct)) ++ (s.comms.flatMap fun c => c.2.ops.map (·.gwct))
    ++ (s.runs.flatMap fun r => r.2.acks.map (·.2)) ++ s.queues.map fun q => q.2.gwct)
/-- Everything translated before the invalidation is performed; then its GWCTs pass; then BUSY clears (R360). -/
def execTlbInvalidateComplete (s : State) : Out :=
  .next (match s.inval with
    | none => s
    | some (n, none) =>
      if (s.reqs.any fun e => decide (e.1 < n)) || s.cores.any fun c => c.2.fifo.any fun d => decide (d.seq < n) then s
      else { s with inval := some (n, some (latestGwct s)) }
    | some (_, some g) => if passed s g then setRegBit { s with inval := none } 0x34008 30 false else s)

/-! ### Migration (R363) -/

/-- The leaf entry that maps an address: where it stands, its value and the page size; none where the walk fails (R355). -/
def leafFrom (s : State) (ctx va : Nat) : Nat → Nat → Option (Nat × Nat × Nat)
  | 0, _ => none
  | level + 1, base =>
    let (sh, bits) := walkLevel (level + 1)
    let a := base + 8 * (va / 2 ^ sh % 2 ^ bits)
    let e := memNat s.mem a 8
    if !physOk a 8 || !e.testBit 0 then none
    else if e.testBit 2 then some (a, e, 2 ^ sh) else leafFrom s ctx va level (fieldN e 47 8 * 2 ^ 8)
/-- A write of MGO (R363): MIG set and the page invalidated, or MERR. -/
def execMigrationStart (s : State) : Out :=
  let w := regN s 0x34210
  let s := setRegBit s 0x34210 31 false
  .next (if !w.testBit 31 ∨ w.testBit 30 then s
    else
      let va := reg64 s 0x34200
      let dst := reg64 s 0x34208
      let ctx := w % 64
      let root := reg64 s (0x31000 + 16 * ctx)
      match walkTables s ctx va, leafFrom s ctx va 4 (fieldN root 47 17 * 2 ^ 17) with
      | .ok t, some (a, e, size) =>
        if t.dev.isSome ∨ size > 2 ^ 21 ∨ dst % size ≠ 0 ∨ dst + size > Config.hbmBytes then setRegBit s 0x34210 29 true
        else
          let s := { s with mem := memPut s.mem a 8 (e ||| 64), mig := some { old := t.pa, size := size, entry := a, dst := dst, ctx := ctx, since := s.nextId } }
          setRegBit (dropRange s ctx t.va size) 0x34210 30 true
      | _, _ => setRegBit s 0x34210 29 true)
/-- Are the old homes drained (R363 steps 2 and 3): everything accepted there performed, its GWCTs passed, every lease and its guard over? -/
def migDrained (s : State) (m : Migr) : Bool :=
  !migOpen s m && !(s.homes.any fun h => decide (m.old ≤ h.1) && decide (h.1 < m.old + m.size)
    && !(decide (h.2.gwct < s.now) && decide (max h.2.ed h.2.ef + guardOf s h.2 < s.now)))
/-- The old homes have drained: the copy engine takes the page (R363 step 4). -/
def execMigrationDrained (s : State) : Out :=
  .next (match s.mig with
    | some m => if !m.drained && migDrained s m then { s with mig := some { m with drained := true } } else s
    | none => s)
/-- Copy a page, line by line, each read and written under the key of its leaf's context (R363, R366). -/
def copyPage (s : State) (m : Migr) : State :=
  (List.range (m.size / 128)).foldl (fun s i =>
    keyedWrite s (ctxKey s m.ctx) (m.dst + 128 * i) (keyedBytes s (ctxKey s m.ctx) (m.old + 128 * i) 128)) s
/-- The copy ends: ADDR = MDST with MIG clear, MBUSY clear (R363 steps 4 to 6). -/
def execMigrationCopyDone (s : State) : Out :=
  .next (match s.mig with
    | some m =>
      if !m.drained then s
      else
        let s := copyPage s m
        let e := memNat s.mem m.entry 8
        let e := e - fieldN e 47 16 * 2 ^ 16 + m.dst % 2 ^ 48
        setRegBit { s with mem := memPut s.mem m.entry 8 (maskClear e 6), mig := none } 0x34210 30 false
    | none => s)

end Sys2Proof.Machine
end

