-- ==== Sys2Proof/Machine/Save.lean ====
section
/-!
DEFINITION. Stopping, saving and restoring plots, and the host's release of frozen masters (08_faults_and_preemption R162, R164, R165;
27_context_reset_recovery R367 to R376).
-/
namespace Sys2Proof.Machine
open Sys2Proof

/-! ### The stop (R164) -/

/-- A stepped thread that is to be saved in a wait stands in its entry again, with its instruction still to execute (log 30). -/
def backInEntry (s : State) (ci tid e : Nat) : State :=
  stepLeft (updCore s ci fun c =>
    let c := updThreadC c tid fun th => { th with st := .parked e, stepping := none, lastUse := [] }
    { c with frags := tupd c.frags e fun f => { f with stepping := f.stepping.filter (· != tid) } }) ci e
/-- Does a thread wait for a matrix step that has begun? It completes first (R133). -/
def stepBegun (c : Core) (w : Wait) : Bool :=
  match w with
  | .matrix id => c.mcur == some id
  | _ => false
/-- A waiting thread of a stopping plot is saved at once, with every register (R164); in a barrier it keeps the phase it waits for
(R263). -/
def saveWaiting (s : State) (ci tid : Nat) : State :=
  match getThread s ci tid with
  | none => s
  | some th => match th.st with
    | .waiting w =>
      if stepBegun (getCore s ci) w then s
      else
        -- R263: what waits in a barrier with its arrival counted waits again without arriving
        let s := updThread (leaveWait s ci tid th w) ci tid fun th => { th with rejoin := match w with
          | .barrier b seen => if th.sheaf.isSome then [(b, seen)] else []
          | _ => th.rejoin }
        match th.stepping with
        | some e => backInEntry s ci tid e
        | none => updThread s ci tid fun th => { th with
            st := .saved true, savedFull := true, lastUse := [] }
    | _ => s
/-- The waiting threads of stopping plots are saved; spawn bins of those plots launch first (R164). -/
def sweepStops (s : State) : State :=
  let stopping (c : Core) (pi : Nat) : Bool := (getPlot c pi).stop.isSome && (getPlot c pi).frozen.isNone
  (tkeys s.cores).foldl (fun s ci =>
    let c := getCore s ci
    if c.plots.all fun e => e.2.stop.isNone then s
    else
      let bins := (c.bins.filter fun e => !e.2.isJoin && stopping c e.2.plot).map (·.1)
      let s := bins.foldl (fun s b => launchBin s ci b) s
      let l := ((getCore s ci).threads.filter fun e => stopping (getCore s ci) e.2.plot && match e.2.st with
        | .waiting _ => true
        | _ => false).map (·.1)
      l.foldl (fun s t => saveWaiting s ci t) s) s
/-- A stop request reaches a plot, with every part of it (R164); a frozen plot is not stopped, nor one that has no slots (R162, R367). -/
def execStopRequest (core plot : Nat) (s : State) : Out :=
  .next (match tget (getCore s core).plots plot with
    | none => s
    | some p =>
      let parts := partsOf s core plot
      if p.stop.isSome || parts.any fun x => (getPlot (getCore s x.1) x.2).frozen.isSome then s
      else match if p.saveAt.isSome then some s else holdSlots s (core, plot) with
        | none => s
        | some s => sweepStops (parts.foldl (fun s x => updPlot s x.1 x.2 fun p => { p with stop := some (getCore s x.1).cyc, tileMask := 0 }) s))
/-- 16,384 cycles after the request a ready thread is saved in full at its next instruction boundary (R164); one under `frag.step` executes
its instruction and parks. -/
def execStopFallbackExpiry (s : State) : Out :=
  .next { s with cores := tmap s.cores fun _ c => { c with threads := tmap c.threads fun _ th =>
    match (getPlot c th.plot).stop with
    | some t => if th.st = .ready ∧ th.stepping.isNone ∧ (getPlot c th.plot).frozen.isNone ∧ c.cyc ≥ t + Config.stopFallback then { th with st := .saved false, savedFull := true } else th
    | none => th } }

/-! ### The image of a part (R368 to R371) -/

/-- A mask of 8·n bits as n bytes. -/
def maskBytes (n : Nat) (l : List Nat) : List Byte := natLe n (maskOf l)
/-- Physical tiles by their place in the save area: those of the roles in order (R298, R368). -/
def tilePlaces (p : Plot) : List Nat := p.roles.flatMap (·.tileMap)
/-- Does the part hold collective operations (R369)? -/
def collOpen (s : State) (ci pi : Nat) : Bool :=
  (s.collHeld.any fun o => o.node.isNone && o.savedAt.isNone && o.core == ci && o.plot == pi)
    || s.comms.any fun k => k.2.ops.any fun o => o.node.isNone && o.savedAt.isNone && o.core == ci && o.plot == pi
/-- The part header (R369). -/
def headBytes (sp : SavedPart) (coll : Bool) : List Byte :=
  let p := sp.plot
  let places := tilePlaces p
  let tv := maskOf ((places.zipIdx.filter fun e => (tget sp.tiles e.1).isSome).map (·.2))
  natLe 8 p.hdrAddr.toNat ++ natLe 8 p.cid.toNat ++ natLe 4 (p.hdr.wide.toNat * 2 ^ 20 + sp.oldCore % 16 * 2 ^ 16 + p.pri % 8 * 2 ^ 8 + p.ctx % 64) ++ natLe 4 p.plotNo
    ++ maskBytes 32 (tkeys sp.threads) ++ maskBytes 32 (tkeys sp.sheaves)
    ++ natLe 4 (tv % 2 ^ 16 * 2 ^ 16 + maskOf (tkeys sp.channels) % 2 ^ 16)
    ++ natLe 4 (sp.tables.isSome.toNat * 2 ^ 7 + coll.toNat * 2 ^ 6 + (!sp.frags.isEmpty).toNat * 2 ^ 5 + min 16 sp.deposits.length)
    ++ natLe 4 (sp.device % 2 ^ 14) ++ List.replicate 0x9C 0
/-- Tag code of a register of a saved thread; in a sheaf of one every register is uniform (R38, R39). -/
def savedTag (mem : Tbl Thread) (th : Thread) (r : Nat) : Nat := tagCode { threads := mem } th r
/-- Was a saved thread saved in full: by the fallback, waiting or parked (R164)? -/
def fullSave (th : Thread) : Bool :=
  th.savedFull || match th.st with
    | .parked _ => true
    | _ => false
/-- The value a register holds, 0 for a released one. -/
def cellWord (th : Thread) (r : Nat) : Word :=
  match tget th.regs r with
  | some x => x.val
  | none => 0
/-- A thread record (R370), as pieces at offsets. A solitary thread has no sheaf record: its values stand in its own (log 35). -/
def threadBytes (mem : Tbl Thread) (th : Thread) : List (Nat × List Byte) :=
  let st := match th.st with
    | .saved true | .waiting _ => 2
    | .parked _ => 3
    | _ => 1
  let w := st * 2 ^ 28 + (fullSave th).toNat * 2 ^ 27 + th.sheaf.isNone.toNat * 2 ^ 26 + (th.preds ||| 1).toNat * 2 ^ 16 + th.sheaf.getD 0 * 2 ^ 8 + th.role % 8 * 2 ^ 5 + th.rank % 32
  let frag := match th.st with
    | .parked e => 64 + e % 64
    | _ => 0
  let tags := (List.range 64).foldl (fun n r => n + savedTag mem th r * 4 ^ r) 0
  let armed := maskOf ((th.regs.filter fun e => e.2.armed).map (·.1))
  let val (r : Nat) : List Byte := natLe 4 (if savedTag mem th r = 0 ∨ (th.sheaf.isNone ∧ savedTag mem th r ≠ 3) then (cellWord th r).toNat else 0)
  [(0, natLe 8 th.pc.toNat ++ natLe 8 th.horizon ++ natLe 8 th.age ++ natLe 8 th.tlast ++ natLe 4 th.mode.toNat ++ natLe 4 th.ast.toNat ++ natLe 4 th.aen.toNat
      ++ natLe 4 w ++ natLe 4 th.prog.toNat ++ natLe 4 th.cause.toNat ++ natLe 4 th.det0.toNat ++ natLe 4 th.det1.toNat ++ natLe 4 th.det2.toNat ++ natLe 4 frag),
    (0x50, natLe 16 tags), (0x60, natLe 8 armed), (0x100, (List.range 64).flatMap val)]
/-- A sheaf record (R371), as pieces at offsets. -/
def sheafBytes (sp : SavedPart) (k : Nat) (sh : Sheaf) : List (Nat × List Byte) :=
  let mem := sp.threads.filter fun e => e.2.sheaf == some k
  let cell (r : Nat) : Option RegCell := mem.findSome? fun m => (tget m.2.regs r).bind fun x =>
    if mem.length ≤ 1 then some { x with tag := .uniform } else if x.tag = .general then none else some x
  let val (r : Nat) : List Byte := match cell r with
    | some x => match x.tag with
      | .affine b st => natLe 4 b.toNat ++ natLe 4 st.toNat
      | _ => natLe 4 x.val.toNat ++ natLe 4 0
    | none => natLe 8 0
  let armed := maskOf ((List.range 64).filter fun r => ((cell r).map (·.armed)).getD false)
  [(0, natLe 4 (handleOf (sh.core0.getD sp.oldCore) k sh.gen).toNat ++ natLe 4 (maskOf (mem.map (·.2.rank))) ++ (List.range 4).flatMap (fun i => natLe 4 (tgetD sh.ctr i 0).toNat)
      ++ natLe 4 sh.tblSel.toNat ++ (List.range 4).flatMap fun i => natLe 4 (tgetD sh.phase i 0)),
    (0x30, natLe 8 armed), (0x40, (List.range 4).flatMap fun i => natLe 4 (tgetD sh.outs i 0)), (0x200, (List.range 64).flatMap val)]
/-- The code of a delivery state in a fragment entry, 0 for a free one. -/
def deliveryCode (d : Delivery) : Nat :=
  match d with
  | .service => 1
  | .pending => 2
  | .delivered => 3
/-- A fragment entry (R154 to R156, R368): members by their number in the cause word, since their own records name the entry; cause, detail, GEN,
delivery state, KIND and unit, place in the order of faults, page. The model's choice are the places within the 32 bytes (log 35). -/
def fragBytes (all : Tbl Frag) (e : Nat) (f : Frag) : List Byte :=
  natLe 4 (fragCause e f).toNat ++ natLe 4 f.det0.toNat ++ natLe 4 f.det1.toNat ++ natLe 4 f.det2.toNat ++ natLe 2 f.gen ++ natLe 1 (deliveryCode f.delivery)
    ++ natLe 1 (f.kind + f.wr.toNat * 16) ++ natLe 2 f.unit ++ natLe 2 (all.filter fun x => decide (x.2.seq < f.seq)).length ++ natLe 8 f.page
/-- A queued deposit (R59, R267, R368): handle, control word and value of its `rput`. The model's choice are the places within the 16 bytes
(log 35). -/
def depositBytes (sp : SavedPart) (d : Deposit) : List Byte :=
  let sh := tgetD sp.sheaves d.sheaf {}
  natLe 4 (handleOf (sh.core0.getD sp.oldCore) d.sheaf sh.gen).toNat ++ natLe 4 (d.all.toNat * 2 ^ 31 + d.ctr % 4 * 2 ^ 12 + d.reg % 64 * 2 ^ 6 + d.rank % 32)
    ++ natLe 4 d.val.toNat ++ natLe 4 0
/-- A copy channel (R143, R368): write pointer; commands, and what the first of them does when it is accepted; their blocks; of the first DEST,
OBJ, base, box and progress. The model's choice are the places within the 128 bytes (log 35). -/
def channelBytes (k : Channel) : List Byte :=
  let c := k.cmds.headD {}
  let four (n : Nat) (f : Nat → Nat) : List Byte := (List.range 4).flatMap fun i => natLe n (f i)
  natLe 8 k.wptr ++ natLe 4 (k.cmds.length % 8 + c.accepted.toNat * 8 + c.rot % 16 * 16 + Nat.log2 c.esz % 4 * 256 + c.boxes.length % 8 * 1024)
    ++ four 4 (fun i => (k.cmds.getD i {}).blk) ++ natLe 4 c.dest ++ natLe 4 (match c.obj with
      | some o => 2 ^ 31 + o
      | none => 0)
    ++ natLe 8 c.base ++ four 4 (fun i => (BitVec.ofInt 32 (c.coords.getD i 0)).toNat) ++ four 4 (fun i => c.extents.getD i 0) ++ four 2 (fun i => c.boxes.getD i 0)
    ++ (List.range 3).flatMap (fun i => natLe 8 (c.strides.getD (i + 1) 0)) ++ natLe 8 c.done ++ natLe 12 0
/-- The bytes of a saved part within its slot (R368). -/
def partImage (sp : SavedPart) (coll : Bool) : List (Nat × List Byte) :=
  let pieces (base : Nat) (l : List (Nat × List Byte)) : List (Nat × List Byte) := l.map fun e => (base + e.1, e.2)
  [(0, headBytes sp coll)]
    ++ (if sp.frags.isEmpty then [] else (List.range 64).map fun e => (0x100 + 32 * e, match tget sp.frags e with
      | some f => fragBytes sp.frags e f
      | none => natLe 32 0))
    ++ (sp.deposits.take 16).zipIdx.map (fun e => (0x1000 + 16 * e.2, depositBytes sp e.1))
    ++ sp.channels.map (fun e => (0x1100 + 128 * e.1, channelBytes e.2))
    ++ (match sp.tables with
      | some t => [(0x2000, natLe 2064 t.1.toNat), (0x3000, natLe 2064 t.2.toNat)]
      | none => [])
    ++ ((tilePlaces sp.plot).zipIdx.filterMap fun e => (tget sp.tiles e.1).map fun v => (0x4000 + 1024 * e.2, natLe 1024 v.toNat))
    ++ sp.sheaves.flatMap (fun e => pieces (0x8000 + 1024 * e.1) (sheafBytes sp e.1 e.2))
    ++ sp.threads.flatMap (fun e => pieces (0x48000 + 512 * e.1) (threadBytes sp.threads e.2))
    ++ [(0x68000, memRead sp.scratch 0 (sp.plot.hdr.scratch * 1024))]

/-! ### The save (R165, R367) -/

/-- Is a matrix step of a plot under way (R133)? -/
def stepUnder (c : Core) (pi : Nat) : Bool :=
  match c.mcur with
  | some id => (c.mops.any fun m => m.id == id && m.plot == pi) || c.joins.any fun j => j.id == id && j.plot == pi
  | none => false
/-- Is everything of a part in hand: its threads saved or parked, producers filled, accesses performed and GWCTs passed (R164, R165)? A
command behind a frozen channel's is saved with its pair still empty (log 30). -/
def partSaved (s : State) (ci pi : Nat) : Bool :=
  let c := getCore s ci
  let p := getPlot c pi
  let tag := ci * 8 + pi
  let mine := c.threads.filter fun e => e.2.plot == pi
  let cmds := (getCluster s (clusterOf ci)).channels.flatMap fun k => k.2.cmds.filterMap fun x => if x.core = ci ∧ x.plot = pi ∧ !x.accepted then some (x.prod, k.2.frozen) else none
  let stuck (r : RegCell) : Bool := cmds.any fun x => x.1 == r.prod && x.2
  p.stop.isSome && p.frozen.isNone
    && (mine.all fun e => match e.2.st with
      | .saved _ | .parked _ => true
      | _ => false)
    && (mine.all fun e => e.2.stepping.isNone && e.2.regs.all fun r => r.2.st != .empty || r.2.armed || stuck r.2)
    && (s.reqs.all fun e => match e.2 with
      | .load o => o.core != ci || o.plot != pi
      | .atomic o => o.core != ci || o.plot != pi
      | .wback o => !o.plots.contains tag
      | .ldsp o => o.core != ci || o.plot != pi
      | .stn o => o.core != ci || o.plot != pi)
    && (s.cores.all fun e => clusterOf e.1 != clusterOf ci || e.2.fifo.all fun d => !d.plots.contains tag)
    && (c.mops.all fun m => m.plot != pi || m.form != 0) && (c.joins.all fun j => j.plot != pi || j.written.isEmpty) && !(stepUnder c pi)
    && (c.tops.all fun m => m.plot != pi) && (c.tblLoads.all fun m => m.plot != pi)
    && passed s p.gwct && cmds.all fun x => x.2
/-- A register as it is saved: a fallow one is read back from the fallow store (R371). -/
def savedCell (s : State) (ci tid : Nat) (th : Thread) (r : Nat) (x : RegCell) : RegCell :=
  if x.st ≠ .fallow then x
  else
    let x' := { x with val := cellValue s ci tid th r x, st := .full }
    match x.tag, fallowBase (getCore s ci) with
    | .affine _ _, some b => if !x.uni then x' else
        let a := b + 2 ^ 16 + th.sheaf.getD 0 * 512 + r * 8
        { x' with tag := .affine (fallowGet s a) (fallowGet s (a + 4)) }
    | _, _ => x'
/-- Tiles that the matrix work of a plot under way reads or adds to: they are saved with it (R133). -/
def workTiles (c : Core) (pi : Nat) : List Nat :=
  (c.mops.filter fun m => m.plot == pi).flatMap mopTiles ++ (c.joins.filter fun j => j.plot == pi).flatMap fun j => j.accs ++ opTiles j.b
/-- The saved form of a part (R368): a join whose step has not begun is cancelled, its threads standing at their `mjoin` (R133). The model's
choice, which the spec leaves open: a thread with parts in several cancelled joins stands at the `mjoin` of the part accepted first. -/
def savePart (s : State) (ci pi slot : Nat) : SavedPart :=
  let c := getCore s ci
  let p := getPlot c pi
  let parts := c.mops.filter fun m => m.plot == pi && m.form == 2
  let threads := (c.threads.filter fun e => e.2.plot == pi).map fun e =>
    -- R115: the flags of the operations that are still under way are saved with the others
    let th := { e.2 with regs := tmap e.2.regs (savedCell s ci e.1 e.2), ast := e.2.flags.foldl (fun w f => w ||| f.2) e.2.ast, flags := [] }
    (e.1, match parts.find? fun m => m.tids.contains e.1 with
      | some m => { th with pc := m.pc, joinRegs := [] }
      | none => th)
  let ks := (threads.filterMap fun e => e.2.sheaf).eraseDups
  let full (r : Nat) : Bool := threads.any fun e => e.2.role == r && fullSave e.2
  let tiles := p.roles.zipIdx.flatMap fun r => (r.1.tileMap.filter fun t => p.tileMask.testBit t || full r.2 || (workTiles c pi).contains t)
  let win := slicePos (ci % 16) p.scrBase
  { slot := slot, plot := p, threads := threads, sheaves := c.sheaves.filter fun e => ks.contains e.1, frags := c.frags.filter fun e => e.2.plot == pi
    fragWait := c.fragWait.filter fun f => f.plot == pi
    deposits := c.deposits.filter fun d => ks.contains d.sheaf, tiles := tiles.foldl (fun t k => tput t k (tgetD c.tiles k 0)) []
    tables := if c.tblOwner = some pi then some (c.bank0, c.bank1) else none
    mops := c.mops.filter fun m => m.plot == pi && m.form == 1, gathers := c.gathers.filter fun g => g.plot == pi
    -- the channels of a wide plot are saved with its first part (R143; log 35)
    channels := if p.hdr.wide ∧ p.part ≠ 0 then [] else ((getCluster s (clusterOf ci)).channels.filter fun k => p.hdr.copych.testBit k.1).map fun k => (k.1, { k.2 with job := none })
    scratch := (((getCluster s (clusterOf ci)).scratch.filter fun e => decide (win ≤ e.1) && decide (e.1 < win + p.hdr.scratch * 1024)).map fun e => (e.1 - win, e.2))
    device := deviceNo s, oldCore := ci, oldPlot := pi }
/-- Collective operations of a part run on; their arrival is kept for it (R147). -/
def bindOps (s : State) (f : CollOp → Bool) (g : CollOp → CollOp) : State :=
  let m (o : CollOp) : CollOp := if f o then g o else o
  { s with collHeld := s.collHeld.map m, comms := tmap s.comms fun _ c => { c with ops := c.ops.map m } }
/-- SPFREE (R367). -/
def setSpFree (s : State) : State := setReg32 s 0x35010 (BitVec.ofNat 32 (regN s 0x35008 % 2 ^ 13 - s.savedParts.length))
/-- Save one part: its image in the slot, its saved form with the launcher, its core freed (R165, R368). -/
def saveOne (s : State) (ci pi slot : Nat) : State :=
  let sp := savePart s ci pi slot
  let ck := ctxKey s sp.plot.ctx
  let s := (partImage sp (collOpen s ci pi)).foldl (fun s e => keyedWrite s ck (poolBase s + slot * 2 ^ 20 + e.1) e.2) s
  let s := bindOps s (fun o => o.node.isNone && o.savedAt.isNone && o.core == ci && o.plot == pi) fun o => { o with savedAt := some slot }
  let s := { s with savedParts := tput s.savedParts slot sp }
  let chs := tkeys sp.channels
  let s := updCluster s (clusterOf ci) fun k => { k with channels := tmap k.channels fun ch x => if chs.contains ch then { x with cmds := [], frozen := false } else x }
  let s := updCore s ci fun c => { c with
    threads := c.threads.filter fun e => e.2.plot != pi
    sheaves := c.sheaves.filter fun e => (tget sp.sheaves e.1).isNone
    deposits := c.deposits.filter fun d => (tget sp.sheaves d.sheaf).isNone
    gathers := c.gathers.filter fun g => g.plot != pi }
  emitR (freePart s ci pi) (unitCore ci none) 0x0203 sp.plot.cid
/-- The save of a plot completes, with all its parts (R165, R367). -/
def execPlotSave (core plot : Nat) (s : State) : Out :=
  let s := sweepStops s
  let parts := (partsOf s core plot).mergeSort fun a b => decide (a.1 ≤ b.1)
  .next (if (tget (getCore s core).plots plot).isNone || !(parts.all fun x => partSaved s x.1 x.2) then s
    else setSpFree (unfuse (parts.foldl (fun s x => saveOne s x.1 x.2 (((getPlot (getCore s x.1) x.2).saveAt).getD 0)) s) (clusterOf core)))

/-! ### The restore (R372, R373) -/

/-- The parts of a saved set, by any of its slots. -/
def savedSet (s : State) (slot : Nat) : List (Nat × SavedPart) :=
  match tget s.savedParts slot with
  | none => []
  | some x => (s.savedParts.filter fun e => e.2.plot.run == x.plot.run && e.2.plot.node == x.plot.node && e.2.plot.plotNo == x.plot.plotNo && e.2.plot.cid == x.plot.cid)
      |>.mergeSort fun a b => decide (a.2.plot.part ≤ b.2.plot.part)
/-- A whole tine of a role in a table of thread slots. -/
def withTine (role : Nat) (t : Tbl Nat) (j : Nat) : Tbl Nat := (List.range 4).foldl (fun t i => if (tget t (j * 4 + i)).isSome then t else tput t (j * 4 + i) role) t
/-- Thread slots that a saved part needs: those its plot held, and the tines its threads stand in (R372). -/
def neededSlots (sp : SavedPart) : Tbl Nat := sp.threads.foldl (fun t e => withTine e.2.role t (tineOf e.1)) sp.plot.slots
/-- The handler tine of an imported part, which its records do not name: placed by R25 (log 35). -/
def handlerTine (c : Core) (held : List Plot) (sp : SavedPart) : Option (List Nat) :=
  if !sp.plot.hdr.hnd || sp.plot.slots.any fun e => e.2 == 4 then some []
  else placeSheaf (fun k => (openTines c held [] k).filter fun j => (List.range 4).all fun i => (tget (neededSlots sp) (j * 4 + i)).isNone) 4
/-- Floor terms of a part with the four slots of its handler tine, 16 for each (R25, R50). -/
def restoredFloors (sp : SavedPart) (ht : List Nat) : Tbl Nat :=
  ht.foldl (fun t j => (List.range 4).foldl (fun t i => tput t (laneOf (j * 4 + i)) (tgetD t (laneOf (j * 4 + i)) 0 + 16)) t) sp.plot.floors
/-- Do the floors of a part fit on every lane bank of a core (R50, R372)? -/
def restoredBanks (held : List Plot) (sp : SavedPart) (ht : List Nat) : Bool :=
  let slots := ht.foldl (withTine 4) (neededSlots sp)
  (List.range 16).all fun lane =>
    let f := held.foldl (fun n p => n + tgetD p.floors lane 0) (tgetD (restoredFloors sp ht) lane 0)
    let gap := held.foldl (fun n p => max n (laneGap p.roles p.slots lane)) (laneGap sp.plot.roles slots lane)
    decide (f + Config.spillReserve + gap ≤ Config.laneBankSize)
/-- Where a part fits on a core: window base, resident index, roles with tiles, handler tine (R372). -/
def restoreFit (s : State) (ci : Nat) (sp : SavedPart) (bases : List Nat) : Option (Nat × Nat × List RoleInfo × List Nat) :=
  let c := getCore s ci
  let held := heldPlots s ci
  let slotsOk := (neededSlots sp).all fun e => (tget c.threads e.1).isNone && held.all fun p => (tget p.slots e.1).isNone
  let sheavesOk := sp.sheaves.all fun e => (tget c.sheaves e.1).isNone
  let fragsOk := sp.frags.all fun e => (tget c.frags e.1).isNone
  let tablesOk := sp.tables.isNone || c.tblOwner.isNone
  if !(decide (ci < Config.numCores) && c.fsbase.getLsbD 0 && decide (held.length < Config.maxPlots) && slotsOk && sheavesOk && fragsOk && tablesOk) then none
  else match bases, lowestFree Config.maxPlots (tkeys c.plots), giveTiles sp.plot.roles (held.flatMap fun p => p.roles.flatMap (·.tileMap)), handlerTine c held sp with
    | b :: _, some i, some roles, some ht => if restoredBanks held sp ht then some (b, i, roles, ht) else none
    | _, _, _, _ => none
/-- The fragments of collective operations that faulted while their plot was saved (R435; log 28). -/
def owedFaults (s : State) (ci pi : Nat) : State :=
  let due := s.comms.flatMap fun e => e.2.ops.filter fun o => o.owes.isSome && o.node.isNone && o.savedAt.isNone && o.core == ci && o.plot == pi
  let s := bindOps s (fun o => due.any fun x => x.id == o.id) fun o => { o with owes := none }
  due.foldl (fun s o => engineFrag s ci pi 2 o.id (collFaultRec s o 5 (o.ended * chunkElems o)) o.page o.wr (o.owes.getD false)) s
/-- The channels of a restored set, on the cluster that holds it now: the commands' cores are those of its parts (R143, R373). -/
def restoreChannels (s : State) (cl : Nat) (chs : Tbl Channel) (moved : List (Nat × Nat × Nat)) : State :=
  let cmd (x : CopyCmd) : CopyCmd :=
    match moved.find? fun m => m.1 == x.core with
    | some m => { x with core := m.2.1, plot := m.2.2 }
    | none => x
  updCluster s cl fun k => { k with channels := chs.foldl (fun t e => tput t e.1 { e.2 with cmds := e.2.cmds.map cmd }) k.channels }
/-- Put a restored part on its core (R373). A restored `mloop` that finds the four places of the matrix unit in use waits for one of
them; which of those that wait takes it is the model's choice (R131, R133, R279; log 30). -/
def restorePart (s : State) (ci : Nat) (slot : Nat) (sp : SavedPart) (fit : Nat × Nat × List RoleInfo × List Nat) : State :=
  let (base, pi, roles, ht) := fit
  let cl := clusterOf ci
  let c := getCore s ci
  let oldT := tilePlaces sp.plot
  let newT := roles.flatMap (·.tileMap)
  let moveT (t : Nat) : Nat := match oldT.findIdx? (· == t) with
    | some i => newT.getD i t
    | none => t
  let withTines (t : Tbl Nat) : Tbl Nat := ht.foldl (withTine 4) t
  let p := { sp.plot with scrBase := base, roles := roles, slots := withTines sp.plot.slots, home := withTines sp.plot.home, floors := restoredFloors sp ht, stop := none, saveAt := none, tileMask := 0, gwct := 0, part := if sp.plot.hdr.wide then ci % 16 else 0 }
  let threads := sp.threads.map fun e => (e.1, { e.2 with
    plot := pi, savedFull := false, onLine := none, joinRegs := e.2.joinRegs.map fun x => (moveT x.1, x.2), eligible := c.cyc + 1, readySince := c.cyc + 1, overdue := none
    regs := tmap e.2.regs fun _ x => { x with ready := c.cyc }, predReady := []
    st := match e.2.st with
      | .parked f => .parked f
      | _ => if e.2.moving.isSome then .waiting .moving else .ready })
  let moveOp (o : Operand) : Operand := match o with
    | .tile l tr => .tile (l.map moveT) tr
    | o => o
  let c := { c with
    plots := tput c.plots pi p
    threads := threads.foldl (fun t e => tput t e.1 e.2) c.threads
    sheaves := sp.sheaves.foldl (fun t e => tput t e.1 { e.2 with plot := pi, core0 := some (e.2.core0.getD sp.oldCore) }) c.sheaves
    frags := sp.frags.foldl (fun t e => tput t e.1 { e.2 with plot := pi }) c.frags
    fragGen := sp.frags.foldl (fun t e => tput t e.1 e.2.gen) c.fragGen
    deposits := sp.deposits ++ c.deposits
    tiles := sp.tiles.foldl (fun t e => tput t (moveT e.1) e.2) (c.tiles.filter fun e => !newT.contains e.1)
    tblOwner := if sp.tables.isSome then some pi else c.tblOwner
    bank0 := (sp.tables.map (·.1)).getD c.bank0
    bank1 := (sp.tables.map (·.2)).getD c.bank1
    mops := c.mops ++ sp.mops.map fun m => { m with plot := pi, acc := moveT m.acc, a := moveOp m.a, b := moveOp m.b, undef := m.undef.map moveT }
    gathers := c.gathers ++ sp.gathers.map fun g => { g with plot := pi } }
  let s := sp.fragWait.foldl (fun s f => admitFrag s ci { f with plot := pi }) (putCore s ci c)
  let win := slicePos (ci % 16) base
  let s := updCluster s cl fun k => { k with
    scratch := sp.scratch.foldl (fun m e => memSet m (win + e.1) e.2) (k.scratch.filter fun e => !(decide (win ≤ e.1) && decide (e.1 < win + p.hdr.scratch * 1024)))
    routing := (k.routing.filter fun r => !(sp.sheaves.any fun e => (handleOf (e.2.core0.getD sp.oldCore) e.1 e.2.gen).toNat == r.1))
      ++ sp.sheaves.map fun e => ((handleOf (e.2.core0.getD sp.oldCore) e.1 e.2.gen).toNat, ci) }
  let s := bindOps s (fun o => o.savedAt == some slot) fun o => { o with savedAt := none, core := ci, plot := pi }
  let s := owedFaults s ci pi
  -- pages under service are asked for again on the new core
  let s := sp.frags.foldl (fun s e => if e.2.delivery = .service then fwEvent s (0x10000 + p.ctx) 1 (ci * 64 + e.1) (page64 e.2.page) else s) s
  let s := sp.collArr.foldl (fun s a => match scratchPos s ci pi a.1 16 with
    | some q => objUpdate s cl q fun o => { o with arr := (o.arr + 2 ^ 14 - 1) % 2 ^ 14, lsrc := srcEngine a.2 }
    | none => s) s
  let s := (settleBanks { getCore s ci with threads := [] } s ci (threads.map (·.1)) (fun _ => []) 1024).1
  emitR { s with savedParts := tdel s.savedParts slot } (unitCore ci none) 0x0204 p.cid
/-- Where a set fits at a core: each part with its fit, in one cluster for a wide plot (R372). -/
def setFit (s : State) (core : Nat) (l : List (Nat × SavedPart)) : Option (List (Nat × Nat × SavedPart × (Nat × Nat × List RoleInfo × List Nat))) :=
  match l with
  | [] => none
  | x :: _ =>
    let cores := partCores x.2.plot.hdr core
    let h := x.2.plot.hdr
    let bases := (freeBases [] h.scratch).filter fun b => cores.all fun k => (freeBases (heldPlots s k) h.scratch).contains b
    let rivals := (List.range Config.coresPerCluster).flatMap fun i => heldPlots s (clusterOf core * Config.coresPerCluster + i)
    if cores.length ≠ l.length ∨ (rivals.any fun p => p.hdr.copych &&& h.copych != 0) ∨ copyJobs s (clusterOf core) &&& h.copych ≠ 0 then none
    else
      let f := (cores.zip l).map fun e => (restoreFit s e.1 e.2.2 bases).map fun r => (e.1, e.2.1, e.2.2, r)
      if f.all (·.isSome) then some (f.filterMap id) else none
/-- What waits for a place on a core: the next plot of a field, or a saved set by one of its slots; with its priority, the time since which it is
ready, and run, node and plot number (R349, R354). -/
structure Waiting where
  pri : Nat
  ready : Nat
  run : Nat
  node : Nat
  plot : Nat
  saved : Option Nat := none
  deriving DecidableEq, Repr
/-- The one order of admission and restore: priority, then readiness; of equal ones the lower run, node and plot number (R349, R354). -/
def waitsBefore (a b : Waiting) : Bool :=
  if a.pri ≠ b.pri then decide (a.pri > b.pri)
  else if a.ready ≠ b.ready then decide (a.ready < b.ready)
  else if a.run ≠ b.run then decide (a.run < b.run)
  else if a.node ≠ b.node then decide (a.node < b.node) else decide (a.plot ≤ b.plot)
/-- Saved sets that wait to be restored, each by its first part (R354). The model's choice: a set is ready since its node was, an imported one
since it was admitted. -/
def waitingSets (s : State) : List Waiting :=
  s.savedParts.filterMap fun e => match savedSet s e.1 with
    | x :: _ => if x.1 ≠ e.1 then none else
        let p := e.2.plot
        some { pri := plotPri s p, ready := ((tget s.runs p.run).bind fun r => (tget r.fields p.node).map (·.readyAt)).getD p.admitted
               run := p.run, node := p.node, plot := p.plotNo, saved := some e.1 }
    | [] => none
/-- Everything that waits for a place, first the one that is tried first (R349, R354). -/
def waitingAll (s : State) : List Waiting :=
  let fields := (waitingFields s).map fun x => let f := tgetD (getRun s x.1).fields x.2 {}
    ({ pri := queuePri s (getRun s x.1).queue, ready := f.readyAt, run := x.1, node := x.2, plot := f.next } : Waiting)
  (fields ++ waitingSets s).mergeSort waitsBefore
/-- Where a saved set goes at a core, staged plots that stand in its way having been given up (R353, R372). -/
def placeSet (s : State) (core : Nat) (l : List (Nat × SavedPart)) : Option (List (Nat × Nat × SavedPart × (Nat × Nat × List RoleInfo × List Nat))) × State :=
  match giveWay s core fun s => (setFit s core l).isSome with
  | some a => let s := unstage s fun x => a.contains (stagedKey x); (setFit s core l, s)
  | none => (none, s)
/-- Does something that waits fit on some core now (R349, R354)? -/
def waitFits (s : State) (w : Waiting) : Bool :=
  match w.saved with
  | none => fieldFits s w.run w.node
  | some k => let l := savedSet s k; (l.head?.map fun x => (candidateCores s x.2.plot.hdr).any fun ci => (placeSet s ci l).1.isSome).getD false
/-- Does nothing that stands before it in the order fit anywhere (R349, R354)? -/
def firstToFit (s : State) (w : Waiting) : Bool :=
  (waitingAll s).contains w && !((waitingAll s).takeWhile fun x => x != w).any (waitFits s)
/-- The dispatcher admits the next plot of a waiting field, named by run × 4096 + node, at a core, if nothing ahead of it fits anywhere
(R25, R349, R350, R354). -/
def execPlotAdmission (core wait : Nat) (s : State) : Out :=
  let run := wait / 4096
  let node := wait % 4096
  let r := getRun s run
  let f := tgetD r.fields node {}
  .next (if !(waitingFields s).contains (run, node) || !firstToFit s { pri := queuePri s r.queue, ready := f.readyAt, run := run, node := node, plot := f.next } then s
    else match placeReady s run node f.next core f.hdr with
      | (some l, s) => preemptFields (admitPlot s r node f.next f l)
      | (none, s) => if fieldFits s run node then s else preempt s (queuePri s r.queue) f.hdr)
/-- The launcher restores a saved set, named by a slot, at a core, if nothing ahead of it fits anywhere (R354, R372, R373). -/
def execPlotRestore (core saved : Nat) (s : State) : Out :=
  let l := savedSet s saved
  .next (if !((waitingSets s).find? fun w => w.saved == l.head?.map (·.1)).any (firstToFit s) then s
    else match placeSet s core l with
      | (none, s) => s
      | (some f, s) =>
        let cl := clusterOf core
        let fuse := l.any fun e => e.2.plot.hdr.fuse
        let s := if fuse && !fusesTo (getCluster s cl) then changeFusion s cl true else s
        let s := f.foldl (fun s x => restorePart s x.1 x.2.1 x.2.2.1 x.2.2.2) s
        preemptFields (setSpFree (restoreChannels s cl (f.flatMap fun x => x.2.2.1.channels) (f.map fun x => (x.2.2.1.oldCore, x.1, x.2.2.2.2.1)))))

/-! ### Imported sets (R374) -/

/-- A number of n bytes of a slot. The bytes are read as they stand, whichever key wrote them (log 35). -/
def slotNat (s : State) (slot o n : Nat) : Nat := memNat s.mem (poolBase s + slot * 2 ^ 20 + o) n
/-- A thread of an imported part (R370). -/
def importThread (s : State) (slot n : Nat) : Thread :=
  let b := 0x48000 + 512 * n
  let f (o k : Nat) : Nat := slotNat s slot (b + o) k
  let w := f 0x2C 4
  let solo := w.testBit 26
  let k := fieldN w 15 8
  let rank := w % 32
  let reg (r : Nat) : Option (Nat × RegCell) :=
    let code := f 0x50 16 / 4 ^ r % 4
    let armed := (f 0x60 8).testBit r
    let st : RegSt := if armed then .empty else .full
    let v : Word := BitVec.ofNat 32 (f (0x100 + 4 * r) 4)
    let u : Word := BitVec.ofNat 32 (slotNat s slot (0x8000 + 1024 * k + 0x200 + 8 * r) 4)
    let d : Word := BitVec.ofNat 32 (slotNat s slot (0x8000 + 1024 * k + 0x204 + 8 * r) 4)
    match code with
    | 0 => some (r, { st := st, val := v, armed := armed })
    | 1 => some (r, { st := st, tag := .uniform, val := if solo then v else u, armed := armed, uni := !solo })
    | 2 => some (r, { st := st, tag := .affine u d, val := u + d * BitVec.ofNat 32 rank, armed := armed, uni := true })
    | _ => none
  -- R263: one that waited in barriers whose arrival is outstanding waits again without arriving
  let out (b : Nat) : Option (Nat × Nat) :=
    if (slotNat s slot (0x8000 + 1024 * k + 0x40 + 4 * b) 4).testBit rank then some (b, slotNat s slot (0x8000 + 1024 * k + 0x1C + 4 * b) 4) else none
  { born := n, rejoin := if solo ∨ w / 2 ^ 28 ≠ 2 then [] else (List.range 4).filterMap out
    pc := BitVec.ofNat 64 (f 0 8), horizon := f 8 8, age := f 0x10 8, tlast := f 0x18 8, mode := BitVec.ofNat 32 (f 0x20 4), ast := BitVec.ofNat 32 (f 0x24 4)
    aen := BitVec.ofNat 32 (f 0x28 4), preds := BitVec.ofNat 8 (fieldN w 23 16) ||| 1, role := fieldN w 7 5, rank := if solo then 0 else rank
    sheaf := if solo then none else some k, prog := BitVec.ofNat 32 (f 0x30 4), cause := BitVec.ofNat 32 (f 0x34 4), det0 := BitVec.ofNat 32 (f 0x38 4)
    det1 := BitVec.ofNat 32 (f 0x3C 4), det2 := BitVec.ofNat 32 (f 0x40 4), regs := (List.range 64).filterMap reg
    st := if w / 2 ^ 28 = 3 then .parked (f 0x44 4 % 64) else .saved (decide (w / 2 ^ 28 = 2)) }
/-- A sheaf of an imported part (R371). -/
def importSheaf (s : State) (slot k role : Nat) : Sheaf :=
  let b := 0x8000 + 1024 * k
  let f (o n : Nat) : Nat := slotNat s slot (b + o) n
  { gen := f 0 4 % 2 ^ 12, core0 := some (f 0 4 / 2 ^ 20), role := role, ctr := (List.range 4).map fun i => (i, BitVec.ofNat 32 (f (8 + 4 * i) 4)), tblSel := (f 0x18 4).testBit 0
    phase := (List.range 4).map fun i => (i, f (0x1C + 4 * i) 4), outs := (List.range 4).map fun i => (i, f (0x40 + 4 * i) 4) }
/-- The header of an imported part's kernel, read under its context (R343, R369). -/
def importHeader (s : State) (ctx addr : Nat) : Option Header :=
  match engPlan s none ctx addr 256 false with
  | (.ok l, s) => some (headerOf (planRead s ctx l).1)
  | _ => none
/-- A deposit of an imported part (R59; log 35). -/
def importDeposit (s : State) (slot k : Nat) : Deposit :=
  let f (o : Nat) : Nat := slotNat s slot (0x1000 + 16 * k + o) 4
  let h := f 0
  let w := f 4
  { sheaf := h / 2 ^ 18 % 4 * 64 + h / 2 ^ 12 % 64, rank := w % 32, reg := fieldN w 11 6, ctr := fieldN w 13 12, all := w.testBit 31, val := BitVec.ofNat 32 (f 8) }
/-- The head command of an imported channel as far as it had been accepted (R143; log 35). -/
def importHead (f : Nat → Nat → Nat) (c : CopyCmd) : CopyCmd :=
  let w := f 8 4
  let dims := List.range (fieldN w 12 10)
  let esz := 2 ^ fieldN w 9 8
  let boxes := dims.map fun i => f (76 + 2 * i) 2
  { c with accepted := w.testBit 3, dest := f 28 4, rot := fieldN w 7 4, obj := if (f 32 4).testBit 31 then some (f 32 4 % 2 ^ 22) else none, base := f 36 8, esz := esz
           coords := (List.range 4).map fun i => (BitVec.ofNat 32 (f (44 + 4 * i) 4)).toInt, extents := dims.map fun i => f (60 + 4 * i) 4
           strides := dims.map fun i => if i = 0 then esz else f (84 + 8 * (i - 1)) 8, boxes := boxes, total := boxBytes esz boxes, done := f 108 8 }
/-- A channel of an imported part; one whose fragment came with it is frozen (R141, R143; log 35). -/
def importChannel (s : State) (slot core ch : Nat) (frozen : Bool) : Channel :=
  let f (o n : Nat) : Nat := slotNat s slot (0x1100 + 128 * ch + o) n
  let cmds : List CopyCmd := (List.range (min 4 (f 8 4 % 8))).map fun i => { core := core, blk := f (12 + 4 * i) 4 }
  { wptr := f 0 8, frozen := frozen, cmds := match cmds with
      | c :: rest => (if (f 8 4).testBit 3 then importHead f c else c) :: rest
      | [] => [] }
/-- A fragment entry of an imported part, where it is in use: its members are the threads that name it (R156, R368, R373; log 35). -/
def importFrag (s : State) (slot : Nat) (threads : Tbl Thread) (e : Nat) : Option Frag :=
  let f (o n : Nat) : Nat := slotNat s slot (0x100 + 32 * e + o) n
  let mem := threads.filter fun t => t.2.st == .parked e
  let state : Option Delivery := match f 18 1 with
    | 1 => some .service
    | 2 => some .pending
    | 3 => some .delivered
    | _ => none
  state.map fun d =>
    { gen := f 16 2, members := mem.map (·.1), group := f 0 4 % 32, det0 := BitVec.ofNat 32 (f 4 4), det1 := BitVec.ofNat 32 (f 8 4), det2 := BitVec.ofNat 32 (f 12 4)
      kind := f 19 1 % 16, unit := f 20 2, delivery := d, seq := f 22 2, details := mem.map fun t => (t.1, (t.2.det0, t.2.det1, t.2.det2)), page := f 24 8, wr := (f 19 1).testBit 4 }
/-- A gather of an imported part whose fragment names its block and its progress (R150, R151; log 35): its block is read again. -/
def importGather (scratch : List Host.Cell) (f : Frag) (n : Nat) : Gather :=
  let w (o : Nat) : Nat := memNat scratch (f.det1.toNat + o) 4
  { id := n, base := w 0 + 2 ^ 32 * w 4, idx := w 8 % 2 ^ 22, cnt := w 0xC % 2 ^ 16 + 1, esz := w 0x10 % 2 ^ 9, stride := w 0x14, dest := w 0x18 % 2 ^ 22, obj := w 0x1C % 2 ^ 22
    blk := f.det1.toNat, done := f.det2.toNat, frozen := true, bad := if subOf { group := 7, det0 := f.det0 } = 5 then none else some (f.det0.toNat % 64) }
/-- An imported part (R368 to R371). A gather in progress whose fragment does not stand in the image, and an `mloop`, are not in it: no byte of
the layout holds them (log 35). -/
def importPart (s : State) (slot : Nat) (h : Header) : SavedPart :=
  let f (o n : Nat) : Nat := slotNat s slot o n
  let w := f 0x10 4
  let cid : DWord := BitVec.ofNat 64 (f 8 8)
  let thrv := f 0x18 32
  let shfv := f 0x38 32
  let fl := f 0x5C 4
  let tids := (List.range 256).filter thrv.testBit
  let threads := tids.map fun n => (n, importThread s slot n)
  let tines := (tids.map tineOf).eraseDups
  let slots : Tbl Nat := tines.foldl (fun t j =>
    let role := ((threads.find? fun e => tineOf e.1 == j).map (·.2.role)).getD 0
    (List.range 4).foldl (fun t i => tput t (j * 4 + i) role) t) []
  let floors : Tbl Nat := threads.foldl (fun t e => tput t (laneOf e.1) (tgetD t (laneOf e.1) 0 + (roleFrom h.roles e.2.role).floor)) []
  let roles := (giveTiles h.roles []).getD h.roles
  let p : Plot := { hdrAddr := BitVec.ofNat 64 (f 0 8), hdr := h, run := 2 ^ 26 + cid.toNat / 2 ^ 24, node := fieldN cid.toNat 23 12, queue := 0xFFFF
                    plotNo := f 0x14 4, cid := cid, ctx := w % 64, pri := fieldN w 10 8, part := if w.testBit 20 then fieldN w 19 16 else 0, roles := roles, slots := slots, home := slots, floors := floors }
  let places := tilePlaces p
  let oldCore := (((List.range 256).find? shfv.testBit).map fun k => f (0x8000 + 1024 * k) 4 / 2 ^ 20).getD 0
  let scratch := (memRead s.mem (poolBase s + slot * 2 ^ 20 + 0x68000) (h.scratch * 1024)).zipIdx.filterMap fun e => if e.1 = 0 then none else some (e.2, e.1)
  let frags : Tbl Frag := if !fl.testBit 5 then [] else (List.range 64).filterMap fun e => (importFrag s slot threads e).map fun f => (e, if f.kind = 3 then { f with unit := s.nextId + e } else f)
  { slot := slot, plot := p, threads := threads, sheaves := ((List.range 256).filter shfv.testBit).map fun k => (k, importSheaf s slot k (((threads.find? fun e => e.2.sheaf == some k).map (·.2.role)).getD 0))
    frags := frags, tiles := (places.zipIdx.filter fun e => (f 0x58 4).testBit (16 + e.2)).map fun e => (e.1, BitVec.ofNat 8192 (f (0x4000 + 1024 * e.2) 1024))
    tables := if fl.testBit 7 then some (BitVec.ofNat 16512 (f 0x2000 2064), BitVec.ofNat 16512 (f 0x3000 2064)) else none
    scratch := scratch, gathers := (frags.filter fun e => e.2.kind == 3).map fun e => importGather scratch e.2 e.2.unit
    deposits := (List.range (min 16 (fl % 32))).map (importDeposit s slot)
    channels := ((List.range 16).filter (f 0x58 4).testBit).map fun ch => (ch, importChannel s slot oldCore ch (frags.any fun e => e.2.kind == 1 && e.2.unit == ch))
    device := f 0x60 4 % 2 ^ 14, oldCore := oldCore }
/-- A write of SPIMP (R374): the set queues for restore, unless a collective operation is outstanding, a slot is in use or its header
does not translate. -/
def execSaveSetImport (s : State) : Out :=
  let slot := regN s 0x35018
  -- R5: a WO field reads zero
  let s := setReg32 s 0x35018 0
  let w := slotNat s slot 0x10 4
  let n := if w.testBit 20 then 16 else 1
  let ok := decide (slot + n ≤ regN s 0x35008 % 2 ^ 13) && (List.range n).all fun i => !(s.savedParts.any fun e => e.2.slot == slot + i) && !(slotNat s (slot + i) 0x5C 4).testBit 6
  .next (if !ok then s
    else match importHeader s (w % 64) (slotNat s slot 0 8) with
      | none => s
      | some h => setSpFree ((List.range n).foldl (fun s i => { s with savedParts := tput s.savedParts (slot + i) (importPart s (slot + i) h), nextId := s.nextId + 64 }) s))

/-! ### Frozen masters (R375, R376) -/

/-- The FRZCTL word: KIND and ID; GO is cleared. -/
def frzTarget (s : State) : Nat × Nat := (fieldN (regN s 0x35100) 28 27, regN s 0x35100 % 2 ^ 24)
/-- GO has been seen; ERR may be set. -/
def frzDone (s : State) (err : Bool) : State :=
  let s := setRegBit (setRegBit s 0x35100 31 false) 0x35100 30 false
  if err then setRegBit s 0x35100 29 true else s
/-- Take a master off the frozen list. -/
def unlist (s : State) (kind id : Nat) : State := { s with frozen := s.frozen.filter fun f => !(f.kind == kind && f.id == id) }
/-- Is the master frozen (R376)? A full list does not keep one from being released. -/
def isFrozen (s : State) (kind id : Nat) : Bool :=
  match kind with
  | 0 => ((tget (getCore s (id / 8 % 4096)).plots (id % 8)).bind (·.frozen)).isSome
  | 1 => (getChannel s (id / 16 % 256) (id % 16)).master
  | 2 => s.frozenStreams.contains (id / 2 ^ 14 % 32, id % 2 ^ 14)
  | _ => false
/-- Kill a part: every thread exits, engines' work is discarded with BRK set; it retires by R248 (R157, R376). -/
def killPart (s : State) (ci pi : Nat) : State :=
  let c := getCore s ci
  let p := getPlot c pi
  let cl := clusterOf ci
  let s := (c.frags.filter fun e => e.2.plot == pi && e.2.kind != 0).foldl (fun s e => killEngine s ci e.2) s
  let s := ((List.range 16).filter fun ch => p.hdr.copych.testBit ch).foldl (fun s ch =>
    failPointers (updChannel (dropQueue s cl ch) cl ch fun k => { k with frozen := false }) cl ch) s
  let s := ((getCore s ci).gathers.filter fun g => g.plot == pi).foldl (fun s g => breakAt s ci pi g.obj) s
  let s := updCore (freePlotFrags s ci pi) ci fun c => { c with
    gathers := c.gathers.filter fun g => g.plot != pi
    mops := c.mops.filter fun m => m.plot != pi
    joins := c.joins.filter fun m => m.plot != pi
    tops := c.tops.filter fun m => m.plot != pi
    tblLoads := c.tblLoads.filter fun m => m.plot != pi
    bins := c.bins.filter fun e => e.2.plot != pi }
  let s := (((getCore s ci).threads.filter fun e => e.2.plot == pi).map (·.1)).foldl (fun s t => endThread s ci t) s
  unlist (updPlot s ci pi fun p => { p with frozen := none, stop := none, saveAt := none }) 0 (ci * 8 + pi)
/-- The port of a frozen stream opens: its held requests come again in their order, or are dropped, and their requester meets R148 (R376). -/
def openStream (s : State) (id : Nat) (again : Bool) : State :=
  let l := id / 2 ^ 14 % 32
  let src := id % 2 ^ 14
  let mine := s.heldRequests.filter fun r => r.link == l && r.source == src
  let s := { s with
    frozenStreams := s.frozenStreams.filter (· != (l, src))
    heldRequests := s.heldRequests.filter fun r => !(r.link == l && r.source == src)
    agenda := (if again then mine.map fun r => Instr.remoteRequestArrival r.link r.source r.address r.op r.data r.len r.cid else []) ++ s.agenda }
  unlist s 2 id
/-- FRZCTL kill (R376). -/
def execFrozenKill (s : State) : Out :=
  let (kind, id) := frzTarget s
  .next (if !isFrozen s kind id then frzDone s true
    else frzDone (match kind with
      | 0 => (partsOf s (id / 8 % 4096) (id % 8)).foldl (fun s x => killPart s x.1 x.2) s
      | 1 => unlist (updChannel (dropQueue s (id / 16 % 256) (id % 16)) (id / 16 % 256) (id % 16) fun k => { k with job := none, frozen := false, master := false }) 1 id
      | _ => openStream s id false) false)
/-- FRZCTL resume (R376): a plot frozen by a hardware error is refused. -/
def execFrozenResume (s : State) : Out :=
  let (kind, id) := frzTarget s
  let ci := id / 8 % 4096
  let pi := id % 8
  .next (if !isFrozen s kind id ∨ (kind = 0 ∧ (getPlot (getCore s ci) pi).frozen = some 12) then frzDone s true
    else frzDone (match kind with
      | 0 =>
        let s := unlist (updPlot s ci pi fun p => { p with frozen := none }) 0 id
        (((getCore s ci).frags.filter fun e => e.2.plot == pi).map (·.1)).foldl (fun s e => resumeEntry s ci e) s
      | 1 => unlist (updChannel s (id / 16 % 256) (id % 16) fun k => { k with frozen := false, master := false }) 1 id
      | _ => openStream s id true) false)

end Sys2Proof.Machine
end

