-- ==== Sys2Proof/Machine/Time.lean ====
section
/-!
DEFINITION. Device time and its discipline (31_time_discipline R402 to R407): fabric exchanges, the bound E and the lock, fleet time.
-/
namespace Sys2Proof.Machine
open Sys2Proof

/-- Nanoseconds, rounded up, of quarter-nanoseconds, saturating in 32 bits (R405). -/
def boundNs (q : Nat) : Nat := min ((q + 3) / 4) 0xFFFFFFFF
/-- FBND and FKNOWN from F of the reference, in ns, and the bound e (R405, R407). -/
def setFleet (s : State) : State :=
  match s.disc.fRef with
  | none => setRegBit (setReg32 s 0x11000C 0xFFFFFFFF) 0x110004 30 false
  | some f => setRegBit (setRegN s 0x11000C (min (f + boundNs s.disc.e) 0xFFFFFFFF)) 0x110004 30 true
/-- The first bound that is known after a reset: a segment of class 6 opens with it, and where the reset took the lock away the record of that
bears it (R313; log 42). -/
def firstBound (s : State) : State :=
  if !s.disc.fresh then s
  else
    let due := s.disc.unlockDue
    let s := openSegment { s with disc := { s.disc with fresh := false, unlockDue := false } } 6
    if due then emitR s (unitOf 8 0) 0x0504 0 (regN s 0x110008) else s
/-- The end of a reset: the reset-end record, with the links that were retrained. Where the device was locked before the reset it follows the
time-locked record (R313, R378; log 42). -/
def resetEnd (s : State) : State :=
  if s.disc.relock then { s with disc := { s.disc with endDue := true } }
  else emitR { s with disc := { s.disc with endDue := false } } (unitOf 8 0) 0x0502 0 s.disc.retrained
/-- LOCK is set: what waited for it. -/
def lockedAgain (s : State) : State :=
  let s := { s with disc := { s.disc with relock := false } }
  if s.disc.endDue then resetEnd s else s
/-- A new bound e: EBND, LOCK with its event, and F (R100, R406, R407). The event's unit is the management controller (log 40). -/
def setBound (s : State) (e : Nat) : State :=
  let was := locked s
  let s := { s with disc := { s.disc with e := e } }
  let s := setRegN s 0x110008 (boundNs (2 * e))
  let now := decide (2 * e ≤ 30 * 4)
  let s := firstBound (setFleet s)
  let s := setRegBit s 0x110004 31 now
  if now = was then s
  else
    let s := emitR s (unitOf 8 0) (if now then 0x0503 else 0x0504) 0 (boundNs (2 * e))
    if now then lockedAgain s else s
/-- Is this device the reference of its domain (R405)? -/
def isRef (s : State) : Bool := regBit s 0x110000 13
/-- F of the reference by its source (R407); with the number of the measurement at the 1588 port. HOSTERR of all ones makes it unknown under
SRC 1, whose F it is made from: the model's choice for the table's third row (log 40). -/
def refF (s : State) : Option Nat :=
  match regN s 0x110000 % 4 with
  | 1 => if reg32 s 0x110010 = 0xFFFFFFFF then none else some (regN s 0x110010 + 10)
  | 2 => some (Config.ieee1588Bound s.free)
  | _ => none
/-- The reference's own bounds (R406, R407). -/
def refUpdate (s : State) : State :=
  setBound { s with free := s.free + 1, disc := { s.disc with last := s.now, grown := 0, fRef := refF s } } 0
/-- An offset in quarter-nanoseconds, positive where this device is ahead: slewed away, or where an unlocked device is behind, stepped
over (R403). LOCK is that after the exchange (log 41). -/
def correct (s : State) (offset : Int) : State :=
  if offset < 0 ∧ !locked s then { s with now := s.now + offset.natAbs, disc := { s.disc with slew := 0 } }
  else { s with disc := { s.disc with slew := offset } }
/-- The ends of an up link exchange timestamps (R406). The offset is measured in quarter-nanoseconds from the parent; with it come the
parent's bound e, in quarter-nanoseconds, and F of the reference in ns. -/
def execTimeExchange (link : Nat) (offset : Int) (parentE : Nat) (parentF : Option Nat) (s : State) : Out :=
  .next (if link ≥ 32 ∨ linkState s link ≠ 3 then s
    else if isRef s then refUpdate s
    else if link ≠ fieldN (regN s 0x110000) 12 8 then s
    else
      let s := { s with disc := { s.disc with last := s.now, grown := 0, fRef := parentF } }
      correct (setBound s (parentE + offset.natAbs + 3 * 4)) offset)
/-- Quarter-nanoseconds by which e has grown since the latest exchange: 20 ns per ms (R406). -/
def growthNow (s : State) : Nat := (s.now - s.disc.last) / 50000
/-- Has the bound to grow now? -/
def growthDue (s : State) : Bool := !isRef s && decide (s.disc.grown < growthNow s)
/-- No exchange arrives: e grows (R406). -/
def execTimeBoundGrowth (s : State) : Out :=
  .next (if !growthDue s then s
    else
      let g := growthNow s
      let e := s.disc.e + (g - s.disc.grown)
      setBound { s with disc := { s.disc with grown := g } } e)
/-- The reference slews toward its fleet source (R407). -/
def execFleetTimeSync (offset : Int) (s : State) : Out :=
  .next (if !isRef s ∨ regN s 0x110000 % 4 = 0 then s else correct (refUpdate s) offset)

/-- Quarter-nanoseconds by which device time goes on in n of them, and the offset left: ahead, at half rate; behind, 500 ppm fast
(R403). -/
def slewed (n now : Nat) (slew : Int) : Nat × Int :=
  if slew > 0 then
    let back := min slew.toNat (n / 2)
    (n - back, slew - back)
  else if slew < 0 then
    let on := min slew.natAbs ((now + n) / 2000 - now / 2000)
    (n + on, slew + on)
  else (n, 0)

end Sys2Proof.Machine
end

