-- ==== Sys2Proof/Machine/Recorder.lean ====
section
/-!
DEFINITION. The event recorder and the granary (32_granary R408 to R417), snapshots of wait-for records (33 R420 to R423), lane-cycle
summaries and triggers (34 R426 to R430), and the management path (R433, R48, R294).
-/
namespace Sys2Proof.Machine
open Sys2Proof

/-! ### The granary (R411 to R415) -/

/-- The granary-empty record that waits in the controller's port is written before every other record (R417). -/
def emptyFirst (s : State) : State :=
  match tget s.ports (portOf (unitOf 9 0)) with
  | some (r :: rest) => if r.type = 0x0505 then granaryPut { s with ports := if rest.isEmpty then tdel s.ports (portOf (unitOf 9 0)) else tput s.ports (portOf (unitOf 9 0)) rest } r else s
  | _ => s
/-- The oldest record of a unit's port enters the granary (R411), after the granary-empty record if that waits (R417). -/
def execRecordWrite (unit : Word) (s : State) : Out :=
  let s := emptyFirst s
  .next (match tget s.ports (portOf unit) with
    | none => s
    | some [] => { s with ports := tdel s.ports (portOf unit) }
    | some (r :: rest) =>
      granaryPut { s with ports := if rest.isEmpty then tdel s.ports (portOf unit) else tput s.ports (portOf unit) rest } r)
/-- A QUOTA write, which stands in `wrOff` and `wrVal`: 0 counts as 1, and a sum above 16,383 is ignored (R415). -/
def execQuotaWrite (s : State) : Out :=
  .next (let c := (s.wrOff - 0x120100) / 32
    let q := max 1 (s.wrVal.toNat % 2 ^ 14)
    let sum := (List.range 8).foldl (fun n k => n + (if k = c then q else clsQuota s k)) 0
    if c ≥ 8 ∨ sum > 16383 then s else setRegN s (clsOff c) q)

/-! ### Readout (R416) -/

/-- The 32 bytes of a record (R408). -/
def recBytes (r : Rec) : List Byte :=
  natLe 8 r.time ++ natLe 8 r.cid.toNat ++ natLe 4 r.unit.toNat ++ natLe 2 r.type.toNat ++ natLe 2 r.flags.toNat ++ natLe 8 r.payload.toNat
/-- SIG of the granary header (R417). -/
def granarySigWord : Nat := 0x56594C5247524E31
/-- The 32 bytes of a slot (R412, R414, R417). -/
def slotBytes (s : State) (seg slot : Nat) : List Byte :=
  if seg = 0 then
    (if slot = 0 ∧ s.granarySig then natLe 8 granarySigWord ++ natLe 8 (2 ^ 64 - 1 - granarySigWord) ++ natLe 8 s.lastTime ++ natLe 8 0 else natLe 32 0)
  else match tget s.segments seg with
    | none => natLe 32 0
    | some g =>
      if slot = 0 then natLe 8 g.htime ++ natLe 8 g.seq ++ natLe 4 g.drops ++ natLe 4 g.cls ++ natLe 4 g.ebnd.toNat ++ natLe 4 g.fbnd.toNat
      else if slot = 1 then natLe 4 (g.lock.toNat * 2 ^ 31) ++ natLe 28 0
      else match (g.recs ++ g.old.drop g.recs.length)[slot - 2]? with
        | some r => recBytes r
        | none => natLe 32 0
/-- GO of the readout (R416). -/
def execGranaryReadout (s : State) : Out := .next (setRegBit s 0x120058 30 true)
/-- The copy ends: host memory holds the bytes, or ERR is set where an operand is misaligned or out of range (R416). -/
def execGranaryReadoutComplete (s : State) : Out :=
  .next (if !regBit s 0x120058 30 then s
    else
      let src := reg64 s 0x120040
      let dst := reg64 s 0x120048
      let n := regN s 0x120050
      let s := setRegBit s 0x120058 30 false
      if src % 32 ≠ 0 ∨ dst % 32 ≠ 0 ∨ n % 32 ≠ 0 ∨ n > 2 ^ 26 ∨ src + n > 2 ^ 34 then setRegBit s 0x120058 29 true
      else (List.range (n / 32)).foldl (fun s k =>
        let a := src / 32 + k
        physWrite s (hostPa (dst + 32 * k)) (slotBytes s (a / 32768) (a % 32768))) s)

/-! ### Snapshots (R420 to R423) -/

/-- One edge of a snapshot (R421, R422): the waiter's CID and unit, the object's kind, SUB, the waiting thread, the payload and its
continuations, and the queue and the plot it belongs to. -/
structure Edge where
  cid : DWord := 0
  unit : Word := 0
  kind : Nat := 0
  sub : Nat := 0
  tid : Nat := 0xFF
  pay : Nat := 0
  more : List Nat := []
  queue : Option Nat := none
  plot : Option (Nat × Nat) := none
  deriving DecidableEq, Repr
/-- A plot's ID as in R376. -/
def plotId (ci pi : Nat) : Nat := ci * 8 + pi
/-- An edge of a thread. -/
def threadEdge (s : State) (ci t : Nat) (th : Thread) (kind sub pay : Nat) (more : List Nat) : Edge :=
  let p := getPlot (getCore s ci) th.plot
  { cid := p.cid, unit := unitCore ci (some (slotOf t)), kind := kind, sub := sub, tid := t, pay := pay, more := more, queue := some p.queue
    plot := some (ci, th.plot) }
/-- Live ranks of a sheaf that have not arrived, parked ones included (R422). -/
def ranksOwed (c : Core) (k : Nat) (arrived : Nat × Thread → Bool) : Nat :=
  maskOf (((members c k).filter fun m => !arrived m).map fun m => m.2.rank)
/-- The saved plot a deposit's sheaf belongs to, as its ID on the core it was saved from: by the handle that the waiting `rput` names
(R267, R422). -/
def savedPlotId (s : State) (ci : Nat) (th : Thread) (h : Nat) : Nat :=
  match (savedTarget s ci th h).orElse fun _ => stoppingTarget s ci h with
  | some x => plotId x.1 x.2
  | none => 0
/-- The edge of a waiting thread, by what it waits for (R420, R422). -/
def waitEdge (s : State) (ci t : Nat) (c : Core) (th : Thread) : List Edge :=
  let e := threadEdge s ci t th
  let k := th.sheaf.getD 0
  let sh := tgetD c.sheaves k {}
  let handle := (threadHandle ci c th).toNat
  match th.st with
  | .waiting .rendezvous =>
    let arrived := (sh.rdv.map (·.2.2)).getD []
    -- a solitary thread waits in a `regroup` alone: no rank of a sheaf of its own is owed
    [e 0 4 (handle + (if th.sheaf.isNone then 0 else ranksOwed c k (fun m => arrived.contains m.1) * 2 ^ 32)) []]
  | .waiting (.barrier b _) | .waiting (.arriving b _) =>
    let o := tgetD sh.outs b 0
    if th.sheaf.isNone then [] else [e 0 b (handle + ranksOwed c k (fun m => o.testBit m.2.rank) * 2 ^ 32) []]
  | .waiting (.abar pos _) =>
    let o := objAt s (clusterOf ci) pos
    [e 1 0 (scratchAddr s ci th.plot pos % 2 ^ 22 + o.arr * 2 ^ 22 + o.eng * 2 ^ 36 + (decide (o.bytes ≠ 0)).toNat * 2 ^ 63)
      [(BitVec.ofInt 32 o.bytes).toNat + o.lsrc * 2 ^ 32 + o.done * 2 ^ 48]]
  | .waiting (.counter n target) => [e 2 n (target.toNat + (tgetD sh.ctr n 0).toNat * 2 ^ 32) []]
  | .waiting (.nap sp addr cond b last) => [e 3 cond ((if sp then scratchAddr s ci th.plot addr else addr) % 2 ^ 57 + sp.toNat * 2 ^ 57) [b.toNat + last.toNat * 2 ^ 32]]
  | .waiting (.gathering b dest) =>
    let x := tgetD c.bins b {}
    if dest < 64 then [e 7 0 (x.key % 2 ^ 32 + x.count % 64 * 2 ^ 32 + x.members.length % 64 * 2 ^ 38) []] else [e 9 2 0 []]
  | .waiting (.retry 13) => [e 9 1 (match c.tblOwner with
      | some p => plotId ci p
      | none => 0) []]
  | .waiting (.place _ _) => [e 9 2 0 []]
  | .waiting (.queue _) => [e 9 3 0 []]
  | .waiting (.target h) => [e 9 5 (savedPlotId s ci th h) []]
  | .waiting (.pointer ch w) => [e 11 0 ch [w]]
  | _ => []
/-- Is the page of a fragment asked of the host: its request's number (R361, R362)? -/
def fragReq (s : State) (ctx : Nat) (f : Frag) : Option Nat := (s.pageReqs.find? fun r => r.ctx == ctx && r.page == page64 f.page).map (·.id)
/-- Places of the objects that the faulting work of an engine fragment is to credit: of its command, operation or gather (R141). -/
def engineObjs (s : State) (ci : Nat) (f : Frag) : List Nat :=
  (match f.kind with
  | 1 => ((tgetD (getCluster s (clusterOf ci)).channels f.unit {}).cmds.head?.bind fun k => k.obj.bind fun o => scratchPos s k.core k.plot o 16).toList
  | 2 => (s.collHeld ++ s.comms.flatMap (·.2.ops)).filterMap fun o => if o.id = f.unit then scratchPos s ci f.plot o.obj 16 else none
  | 3 => (getCore s ci).gathers.filterMap fun g => if g.id = f.unit then scratchPos s ci f.plot g.obj 16 else none
  | _ => [])
/-- Who waits on a fragment: its members, or the waiters of the objects that its engine is to credit; none where nobody waits (R141, R422). -/
def fragWaiters (s : State) (ci : Nat) (f : Frag) : List (Nat × Nat × Option Nat) :=
  let l := if f.kind = 0 then f.members.map fun t => (ci, t) else
    (engineObjs s ci f).flatMap fun p => (objWaiters s (clusterOf ci) p).map fun w => (w.1, w.2.1)
  if l.isEmpty then [(ci, 0xFF, none)] else l.map fun w => (w.1, w.2, some (slotOf w.2))
/-- Edges of a core's parked fragments, one for each that waits on it (R422): the fragment, and the page request it waits for. -/
def fragEdges (s : State) (ci : Nat) (c : Core) : List Edge :=
  c.frags.flatMap fun e =>
    let h := fragHandle s ci e.1 e.2
    let p := getPlot c e.2.plot
    let sub := match e.2.delivery with
      | .service => 0
      | .pending => 1
      | .delivered => 2
    let mk (kind sub pay : Nat) (w : Nat × Nat × Option Nat) : Edge :=
      { cid := p.cid, unit := unitCore w.1 w.2.2, kind := kind, sub := sub, tid := w.2.1, pay := pay, queue := some p.queue, plot := some (ci, e.2.plot) }
    (fragWaiters s ci e.2).flatMap fun w =>
      mk 8 sub (h.1.toNat + h.2.toNat * 2 ^ 32) w :: (match e.2.delivery, fragReq s p.ctx e.2 with
        | .service, some id => [mk 9 4 id w]
        | _, _ => [])
/-- Edges of a core's open matrix joins (R422). -/
def joinEdges (ci : Nat) (c : Core) : List Edge :=
  c.joins.filterMap fun j =>
    let p := getPlot c j.plot
    if j.parts.length ≥ j.count then none
    else some { cid := p.cid, unit := unitCore ci none, kind := 6, pay := j.ident % 256 + maskOf j.parts % 16 * 2 ^ 8 + (j.count - 1) % 4 * 2 ^ 12
                queue := some p.queue, plot := some (ci, j.plot) }
/-- Three owed predecessors, 0xFFF for none (R422). -/
def threeOf (l : List Nat) : Nat := l.getD 0 0xFFF * 2 ^ 12 + l.getD 1 0xFFF * 2 ^ 24 + l.getD 2 0xFFF * 2 ^ 36
/-- Groups of three. -/
def threes : Nat → List Nat → List Nat
  | 0, _ => []
  | n + 1, l => if l.isEmpty then [] else threeOf (l.take 3) :: threes n (l.drop 3)
/-- Edges of the dependence counters and of the fields that wait for admission (R350, R422). The mask of missing resources has no stated
layout: a free value (log 43). -/
def runEdges (s : State) (r : Run) : List Edge :=
  let e (node kind sub pay : Nat) (more : List Nat) : Edge :=
    { cid := nodeCid s r.no node, unit := unitLauncher, kind := kind, sub := sub, pay := pay, more := more, queue := some r.queue }
  let owed (n : Nat) : List Nat := r.recs.filterMap fun x =>
    if (nodeSuccs x.2).any (fun d => d.1 == n) && (match tget r.sts x.1 with
      | some .complete => false
      | some .skipped => false
      | _ => true) then some x.1 else none
  (r.cnt.flatMap fun x => if tget r.sts x.1 = some .waiting ∧ x.2 ≠ 0 then
      let o := owed x.1
      [e x.1 4 0 (x.2 % 2 ^ 12 + threeOf (o.take 3)) (threes o.length (o.drop 3))] else [])
    ++ (r.fields.flatMap fun x => if tget r.sts x.1 = some .dispatched ∧ x.2.next < x.2.plots then [e x.1 9 0 (Config.freeWord s.free).toNat []] else [])
/-- Edges of the launcher's accesses under page service (R342, R422). -/
def launchEdges (s : State) : List Edge :=
  s.launchWaits.filterMap fun w =>
    let r := getRun s w.run
    (s.pageReqs.find? fun q => q.ctx == r.ctx && q.page == page64 w.page).map fun q =>
      { cid := nodeCid s w.run w.node, unit := unitLauncher, kind := 9, sub := 4, pay := q.id, queue := some r.queue }
/-- The edge of an engine's work for a node that waits for a page request (R348, R361, R422). -/
def nodePageEdge (s : State) (unit : Word) (run node ctx page : Nat) : List Edge :=
  ((s.pageReqs.find? fun q => q.ctx == ctx && q.page == page64 page).map fun q =>
    ({ cid := nodeCid s run node, unit := unit, kind := 9, sub := 4, pay := q.id, queue := some (getRun s run).queue } : Edge)).toList
/-- Edges of COPY nodes and of COLL nodes under page service. -/
def nodePageEdges (s : State) : List Edge :=
  (s.clusters.flatMap fun k => k.2.channels.flatMap fun ch => match ch.2.job with
    | some j => if ch.2.frozen ∧ !ch.2.master then nodePageEdge s (unitCopy k.1 ch.1) j.run j.node j.ctx j.page else []
    | none => [])
    ++ s.comms.flatMap fun e => match e.2.ops with
      | o :: _ => (match o.node with
        | some n => if o.frozen then nodePageEdge s (unitOf 2 e.2.engine) n.1 n.2 e.2.ctx o.page else []
        | none => [])
      | [] => []
/-- Ranks that a step still misses, earliest due first: those whose contribution has not come, in the order in which the schedule takes them;
else those that owe it an acknowledgement (R320, R422). -/
def missingRanks (c : Comm) (o : CollOp) (st : CollStep) : List Nat :=
  match (if o.op ≤ 1 then schedRanks c.ranks else List.range c.ranks.length).filter fun q => (needed o c st.idx).contains q && (tget st.got q).isNone with
  | [] => acksOwed c o st
  | l => l
/-- Edges of collective steps, one for each missing rank (R320, R422). -/
def collEdges (s : State) (comm : Nat) (c : Comm) : List Edge :=
  match c.ops with
  | [] => []
  | o :: _ => o.steps.flatMap fun st =>
    (missingRanks c o st).map fun q =>
      { cid := stepCid o st.no, unit := unitOf 2 c.engine, kind := 5, pay := q + c.ranks.getD q 0 * 2 ^ 16 + st.no * 2 ^ 32 + comm * 2 ^ 48
        more := [(tgetD c.lastCid q 0).toNat]
        queue := match o.node, o.savedAt with
          | some n, _ => some (getRun s n.1).queue
          | none, some k => (tget s.savedParts k).map (·.plot.queue)
          | none, none => some (getPlot (getCore s o.core) o.plot).queue
        plot := match o.node, o.savedAt with
          | none, none => some (o.core, o.plot)
          | _, _ => none }
/-- Edges of a request to another device that has had no response for 10 µs (R420, R422). -/
def fabricEdges (s : State) (q : Req) : List Edge :=
  let mk (ci plot va : Nat) (t : Option Nat) (l : Loc) : List Edge :=
    match locDev l with
    | none => []
    | some d =>
      let p := getPlot (getCore s ci) plot
      [{ cid := p.cid, unit := unitCore ci (t.map slotOf), kind := 10, tid := t.getD 0xFF, pay := d % 2 ^ 14 * 2 ^ 50 + va / 2 ^ 7 % 2 ^ 50
         queue := some p.queue, plot := some (ci, plot) }]
  let late (at_ : Nat) : Bool := decide (s.now > at_ + 40000)
  match q with
  | .load o => if late o.at_ then (o.parts.filter (·.data.isNone)).flatMap fun p => mk o.core o.plot p.va (some p.tid) p.loc else []
  | .atomic o => if late o.at_ then o.steps.flatMap fun x => mk o.core o.plot x.va (some x.tid) o.loc else []
  | .wback o => if late o.sent then (match o.dev, o.plots with
      | some d, p :: _ => mk (p / 8) (p % 8) 0 none (.there d 0) |>.map fun e => { e with pay := d % 2 ^ 14 * 2 ^ 50 + o.line / 2 ^ 7 % 2 ^ 50 }
      | some d, [] => [{ unit := unitCore o.core none, kind := 10, pay := d % 2 ^ 14 * 2 ^ 50 + o.line / 2 ^ 7 % 2 ^ 50 }]
      | none, _ => []) else []
  | .ldsp o => if late o.at_ then mk o.core o.plot o.va (some o.tid) o.src else []
  | .stn o => if late o.at_ ∧ o.gwct.isNone then mk o.core o.plot o.va (some o.tid) o.dst else []
/-- Every edge that stands now (R420). -/
def allEdges (s : State) : List Edge :=
  (s.cores.flatMap fun e => (e.2.threads.flatMap fun x => waitEdge s e.1 x.1 e.2 x.2) ++ fragEdges s e.1 e.2 ++ joinEdges e.1 e.2)
    ++ (s.runs.flatMap fun e => runEdges s e.2) ++ launchEdges s ++ nodePageEdges s ++ (s.comms.flatMap fun e => collEdges s e.1 e.2)
    ++ (s.reqs.flatMap fun e => fabricEdges s e.2)
/-- Those that SEL and ID choose (R421). -/
def chosenEdges (s : State) (w : Nat) : List Edge :=
  match fieldN w 28 27 with
  | 1 => (allEdges s).filter fun e => e.queue == some (w % 1024)
  | 2 => (allEdges s).filter fun e => e.plot == some (w % 2 ^ 24 / 8, w % 8)
  | _ => allEdges s
/-- Does SEL name no queue or no resident plot (R421)? -/
def snapError (s : State) (w : Nat) : Bool :=
  match fieldN w 28 27 with
  | 1 => decide (w % 2 ^ 24 ≥ 1024)
  | 2 => decide (w % 2 ^ 24 / 8 ≥ Config.numCores) || (tget (getCore s (w % 2 ^ 24 / 8)).plots (w % 8)).isNone
  | _ => false
/-- Has a unit's port no place (R411)? -/
def portFull (s : State) (unit : Word) : Bool := decide ((tgetD s.ports (portOf unit) []).length ≥ 16)
/-- FLAGS of a snapshot record (R422). -/
def snapFlags (kind sub tid : Nat) (more : Bool) : Nat := kind * 2 ^ 12 + more.toNat * 2 ^ 11 + sub * 2 ^ 8 + tid
/-- The continuations of an edge. -/
def emitMore (e : Edge) : List Nat → State → State
  | [], s => s
  | p :: rest, s => emitMore e rest (emitR s e.unit 0x0601 e.cid p (snapFlags 15 0 e.tid (!rest.isEmpty)))
/-- Write the edges; answers how many were written and how many dropped. -/
def emitEdges : List Edge → Nat × Nat → State → State × Nat × Nat
  | [], n, s => (s, n)
  | e :: rest, n, s =>
    let n := if portFull s e.unit then (n.1, n.2 + 1) else (n.1 + 1, n.2)
    emitEdges rest n (emitMore e e.more (emitR s e.unit 0x0601 e.cid e.pay (snapFlags e.kind e.sub e.tid (!e.more.isEmpty))))
/-- A snapshot: every edge, then the end record (R421 to R423). It is taken in one step, and its end record comes from the management
controller (log 43). -/
def execWaitforSnapshot (s : State) : Out :=
  .next (let w := regN s 0x120300
    let s := setRegBit s 0x120300 30 false
    if snapError s w then setRegBit s 0x120300 29 true
    else
      let r := emitEdges (chosenEdges s w) (0, 0) s
      let s := { r.1 with free := r.1.free + 1 }
      emitR s (unitOf 8 0) 0x0601 0 (r.2.1 + r.2.2 * 2 ^ 32) (snapFlags 14 0 0xFF false))

/-! ### Profiling (R426 to R430) -/

/-- Every core of the device: those that nothing has touched as they stand. -/
def allCores (s : State) (f : Core → Core) : State :=
  { s with cores := (List.range Config.numCores).map fun ci => (ci, f (getCore s ci)) }
/-- ANY of the trigger register (R427). -/
def setAny (s : State) : State := setRegBit s 0x140000 29 (s.cores.any fun e => e.2.prof.capture)
/-- Host start on every core (R427, R428). -/
def execProfileHostStart (s : State) : Out :=
  .next (setAny (allCores s fun c => { c with prof := { c.prof with capture := true } }))
/-- Host stop on every core: the cycle in which it comes is still captured (R427, R428). -/
def execProfileHostStop (s : State) : Out :=
  .next { s with cores := tmap s.cores fun _ c => { c with prof := { c.prof with stop := true } } }
/-- End of the current summary interval, in quarter-nanoseconds (R427, R429). -/
def sumEnd (s : State) : Nat := s.sumAt + regN s 0x140018 % 2 ^ 17 * 4000
/-- One core's summary records, bins and classes ascending (R429). -/
def coreSummary (ci t : Nat) (s : State) : State :=
  let c := getCore s ci
  let s := c.prof.counts.foldl (fun s e => if e.2 = 0 then s else
    emitRec s { time := t, cid := 0, unit := unitCore ci none, type := 0x0210, flags := BitVec.ofNat 16 (e.1 / 8 + e.1 % 8 * 2 ^ 8)
                payload := BitVec.ofNat 64 (e.2.toNat + s.interval % 2 ^ 32 * 2 ^ 32) }) s
  updCore s ci fun c => { c with prof := { c.prof with counts := [] } }
/-- An interval of INTV µs ends (R429). -/
def execProfileSummaryInterval (s : State) : Out :=
  .next (if s.now < sumEnd s then s
    else
      let t := sumEnd s
      let s := ((s.cores.filter fun e => !e.2.prof.counts.isEmpty).map (·.1)).foldl (fun s ci => coreSummary ci t s) s
      { s with interval := s.interval + 1, sumAt := t })
/-- A write to the detail selection clears every selection (R430). -/
def execDetailSelectWrite (s : State) : Out :=
  .next { s with cores := tmap s.cores fun _ c => { c with prof := { c.prof with selected := none } } }

/-! ### The management path (R294, R375, R394, R395, R433) -/

/-- Has an unlock opened plot state over the management path: SCOPE[0] (R394, R395)? -/
def plotStateOpen (s : State) : Bool := regBit s 0x200008 3
/-- Is a plot's state readable over the management path: it has been opened, or the plot is frozen (R375, R395; log 44)? -/
def mgmtReadable (s : State) (core pi : Nat) : Bool := plotStateOpen s || (getPlot (getCore s core) pi).frozen.isSome

/-- Words of a fragment as its handler gets them: handle, cause and detail; then its members as a mask of each word's 32 threads (R155, R161). -/
def fragWord (s : State) (ci e : Nat) (f : Frag) (k : Nat) : Word :=
  let h := fragHandle s ci e f
  match k with
  | 0 => h.1
  | 1 => h.2
  | 2 => fragCause e f
  | 3 => f.det0
  | 4 => f.det1
  | 5 => f.det2
  | _ => BitVec.ofNat 32 (maskOf ((f.members.filter fun t => t / 32 == k - 6).map (· % 32)))
/-- The plot that a place belongs to, and what a read of it gives: register state, tag code, armed and value, the first three 0 but for a
register (R375, R433; log 67). -/
def mgmtAnswer (s : State) (ci : Nat) (p : MgmtPlace) (w : Nat) : Option (Nat × Nat × Nat × Bool × Word) :=
  let c := getCore s ci
  let plain (plot n : Nat) : Option (Nat × Nat × Nat × Bool × Word) := some (plot, 0, 0, false, BitVec.ofNat 32 n)
  match p with
  | .reg t => (getThread s ci t).map fun th =>
    let st : Nat × Bool × Word := match tget th.regs w with
      | none => (3, false, 0)
      | some x => ((match x.st with
          | .full => 0
          | .empty => 1
          | .fallow => 2), x.armed, if x.st = .empty then 0 else cellValue s ci t th w x)
    (th.plot, st.1, tagCode c th w, st.2)
  | .pred t => (getThread s ci t).bind fun th => plain th.plot (w == 0 || th.preds.getLsbD (w % 8)).toNat
  | .tile pl t => if ((getPlot c pl).roles.flatMap (·.tileMap)).contains t then plain pl ((tgetD c.tiles t 0).toNat / 2 ^ (32 * (w % 256)) % 2 ^ 32) else none
  | .scratch pl => (scratchPos s ci pl (w / 4 * 4) 4).bind fun pos => plain pl (scrRead s ci pos 4)
  | .frag e => (tget c.frags e).bind fun f => plain f.plot (fragWord s ci e f w).toNat
  | .channel _ | .hbm _ => none
/-- A word of a copy channel: its write pointer, and the block and the bytes done of the command at the head of its queue (R375). -/
def channelWord (k : Channel) (w : Nat) : Nat :=
  match w with
  | 0 => k.wptr % 2 ^ 32
  | 1 => k.wptr / 2 ^ 32
  | 2 => (k.cmds.head?.map (·.blk)).getD 0
  | _ => (k.job.map (·.done)).getD ((k.cmds.head?.map (·.done)).getD 0)
/-- A read over the management path: of a thread's register its state, tag and value as the thread sees it (R433), of the other places of a master
their word (R375); and a record. A register that the thread does not hold reads as released; a place that does not exist, and a plot whose
state is not readable, answer nothing. A copy channel is readable while it is frozen, with the cluster's first core as its place; a word of HBM,
under the key of a context, once an unlock has set SCOPE[1] (R394; log 44, 67). -/
def execMgmtRegisterRead (core : Nat) (place : MgmtPlace) (word : Nat) (s : State) : Out :=
  .next (match place, mgmtAnswer s core place word with
    | .channel ch, _ =>
      let k := getChannel s (clusterOf core) ch
      if !k.frozen then s
      else emitR { s with mgmt := some (0, 0, false, BitVec.ofNat 32 (channelWord k word)) } (unitCopy (clusterOf core) ch) 0x0602 0
    | .hbm ctx, _ =>
      let a := word / 4 * 4
      if !regBit s 0x200008 4 || decide (a ≥ Config.hbmBytes) then s
      else emitR { s with mgmt := some (0, 0, false, BitVec.ofNat 32 (leNat (keyedBytes s (ctxKey s ctx) a 4))) } (unitOf 8 0) 0x0602 0
    | _, none => s
    | _, some (pi, ans) =>
      if !mgmtReadable s core pi then s
      else
        let slot := match place with
          | .reg t => some (slotOf t)
          | .pred t => some (slotOf t)
          | _ => none
        emitR { s with mgmt := some ans } (unitCore core slot) 0x0602 (getPlot (getCore s core) pi).cid)
/-- Is a producer an outstanding load (R48)? -/
def isLoad (s : State) (prod : Nat) : Bool :=
  match tget s.reqs prod with
  | some (.load _) => true
  | _ => false
/-- A debugger writes a thread's register: it is renamed; a load whose result is thereby discarded sets LOSTLD (R48, R294). A write that
would pass the thread's peak is not made, nor one before plot state is opened (log 44). -/
def execDebuggerRegisterWrite (core tid reg : Nat) (value : Word) (s : State) : Out :=
  .next (let c := getCore s core
    match tget c.threads tid with
    | none => s
    | some th =>
      if reg ≥ 64 ∨ !plotStateOpen s ∨ (peakReg c th [] [reg]).isSome then s
      else
        let lost : Bool := match tget th.regs reg with
          | some x => x.st == .empty && isLoad s x.prod
          | none => false
        let th := writeReg th reg value c.cyc
        let th := if lost then { th with dbgst := th.dbgst ||| 4 } else th
        let c := retag false [tid] { c with threads := tput c.threads tid th } reg
        let all := sheafMates c [tid]
        (settleBanks (getCore s core) (putCore s core c) core all (fun t => if t = tid then [reg] else []) (2 * all.length)).1)
/-- A debugger attaches to a plot, once plot state is opened, or leaves it (R294, R395; log 44). -/
def execDebuggerAttach (core plot : Nat) (on : Bool) (s : State) : Out :=
  .next (if on && !plotStateOpen s then s else updPlot s core plot fun p => { p with att := on })

end Sys2Proof.Machine
end

