-- ==== Sys2Proof/Machine/Issue.lean ====
section
/-!
DEFINITION. The issue cycle (01 R12 to R17, R32 to R35; 18 R302, R303, R305, R308; 34 R425 to R431): which drills each issue slot forms in a
cycle, by which policy, and what profiling counts.
-/
namespace Sys2Proof.Machine
open Sys2Proof

/-! ### Qualifying threads (R12, R303) -/

/-- A thread that qualifies in this cycle: with the instruction at its PC, where it decodes, and the pipe that it names. -/
structure Cand where
  tid : Nat
  th : Thread
  i : Option Instr
  unif : Bool
  deriving DecidableEq, Repr

/-- The pipe bit of what stands at a PC: bit 31 of the word that is not a prefix (R178). -/
def pipeBit (l : Line) (pc : Nat) : Bool :=
  let k := pc / 4 % 32
  let w := (lineWord l k).toNat
  let w := if fieldN w 30 28 = 6 ∧ k < 31 then (lineWord l (k + 1)).toNat else w
  w.testBit 31
/-- The instruction at a PC of a line, where it is one. -/
def peekAt (l : Line) (pc : Nat) : Option Instr :=
  match readAt l pc (0, 0) with
  | .ok x => some x.1
  | .error _ => none
/-- May a source be read in this cycle (R12, R46, R47, R303)? -/
def sourceReady (cyc : Nat) (th : Thread) (x : SrcReg) : Bool :=
  match tget th.regs x.reg with
  | none => true
  | some c => match c.st with
    | .full => decide (c.ready ≤ cyc)
    | .empty => x.etrap
    | .fallow => x.fal
/-- Do the instruction's sources and predicates let the thread join a drill? What does not decode reads nothing (R195). -/
def instrReady (cyc : Nat) (th : Thread) (i : Option Instr) : Bool :=
  match i with
  | none => true
  | some i => (reads i).all (sourceReady cyc th) && ((predsRead i).all fun p => decide (tgetD th.predReady p 0 ≤ cyc)) && (spawnCopies i th).all fun r => sourceReady cyc th { reg := r }
/-- Is the thread ready to issue, apart from its sources: eligible, in a plot that is not frozen (R11, R162, R302)? -/
def mayIssue (c : Core) (th : Thread) : Bool := runnable c th && decide (th.eligible ≤ c.cyc)
/-- The line a thread fetches from. -/
def threadLine (s : State) (ci : Nat) (th : Thread) : Option Line := heldLine s ci th
/-- SCOPE of an atomic: its prefix's, or none for what is not one (R239). -/
def atomScope (i : Option Instr) : Option Nat :=
  match i with
  | some (.atomAdd o) | some (.atomMinI32 o) | some (.atomMaxI32 o) | some (.atomMinN32 o) | some (.atomMaxN32 o) | some (.atomAnd o)
  | some (.atomOr o) | some (.atomXor o) | some (.atomXchg o) | some (.atomCas o) | some (.atomAddB64 o) | some (.atomFaddF32 o)
  | some (.atomFaddBf2 o) | some (.atomFmaxF32 o) | some (.atomFminF32 o) | some (.atomIncw o) => some ((o.px.map (·.scope.toNat)).getD 0)
  | _ => none
/-- Is it an access, of the hierarchy or of a scratchpad, which does not issue while a cluster's L1s change (R67)? -/
def isAccess (i : Option Instr) : Bool :=
  match i with
  | some (.ld _) | some (.st _) | some (.pf _) | some (.ldsp _) | some (.stn _) | some (.nap _ _ _ _ _) => true
  | i => (atomScope i).isSome
/-- The thread as a candidate, if it qualifies (R12). -/
def candOf (s : State) (ci : Nat) (c : Core) (e : Nat × Thread) : Option Cand :=
  if !mayIssue c e.2 then none
  else match threadLine s ci e.2 with
    | none => none
    | some l =>
      let i := peekAt l e.2.pc.toNat
      if decide (l.due ≤ c.cyc) && instrReady c.cyc e.2 i && !(changing s ci && isAccess i) then some { tid := e.1, th := e.2, i := i, unif := pipeBit l e.2.pc.toNat } else none
/-- The registers a thread holds at which its instruction is held up; none where its line is not there or does not decode. -/
def heldNow (s : State) (ci : Nat) (th : Thread) : List Nat :=
  match (threadLine s ci th).bind fun l => peekAt l th.pc.toNat with
  | some i => sourceHeld i th
  | none => []
/-- A ready thread whose instruction reads an empty or fallow register waits for it (R11, R47, R53). -/
def holdThread (s : State) (ci : Nat) (c : Core) (th : Thread) : Thread :=
  if !mayIssue c th then th
  else match heldNow s ci th with
    | [] => th
    | l => { th with st := .waiting (.source l), overdue := none }
/-- The same for every thread of a core. -/
def holdSources (s : State) (ci : Nat) : State :=
  updCore s ci fun c => { c with threads := tmap c.threads fun _ th => holdThread s ci c th }
/-- Does the register of a thread hold a value that can be read? -/
def fullAt (th : Thread) (r : Nat) : Bool :=
  match tget th.regs r with
  | some x => x.st == .full
  | none => true
/-- Registers that keep a waiting thread from its instruction: sources, or operands of a collective at its rendezvous. -/
def neededRegs (th : Thread) : List Nat :=
  match th.st with
  | .waiting (.source l) => l
  | .waiting .rendezvous => th.held
  | _ => []
/-- Fallow registers that the threads of a core wait for (R53). -/
def fallowWaits (ci : Nat) (c : Core) : List Instr :=
  c.threads.flatMap fun e =>
    if (getPlot c e.2.plot).frozen.isSome then []
    else (neededRegs e.2).filterMap fun r => match tget e.2.regs r with
      | some y => if y.st = .fallow then some (.fallowRefill ci e.1 r) else none
      | none => none
/-- Lines that the threads of a core wait for (R177). -/
def lineWaits (s : State) (ci : Nat) (c : Core) : List Instr :=
  ((c.threads.filter fun e => mayIssue c e.2 && (threadLine s ci e.2).isNone).map fun e => Instr.icacheLineFill ci (e.2.pc.toNat / 128 * 128)).eraseDups

/-! ### The choice of a PC (R32, R33, R35, R308) -/

/-- The first of a list by an order. -/
def firstBy (lt : Cand → Cand → Bool) : List Cand → Option Cand
  | [] => none
  | x :: t => some (t.foldl (fun a b => if lt b a then b else a) x)
/-- Older by R32. -/
def olderCand (a b : Cand) : Bool := older (a.tid, a.th) (b.tid, b.th)
/-- Earlier in becoming overdue, ties to the older (R35). -/
def overdueBefore (a b : Cand) : Bool :=
  let x := a.th.overdue.getD 0
  let y := b.th.overdue.getD 0
  decide (x < y) || (x == y && olderCand a b)
/-- Is the thread of low priority (R33, R308)? -/
def lowNow (cyc : Nat) (x : Cand) : Bool :=
  match x.th.lowUntil with
  | some n => decide (cyc ≤ n)
  | none => false
/-- Distance of a tine from the one after the last supplier, within the slot (R32). -/
def tineDist (last : Option Nat) (tid : Nat) : Nat :=
  match last with
  | none => tineOf tid % 16
  | some j => (tineOf tid % 16 + 31 - j % 16) % 16
/-- The thread that supplies the PC (R32, R33, R35). The model's choice: under loose round-robin, of several qualifying threads in the first
tine that stand at different PCs the one in the lowest thread slot supplies it; the spec names the tine alone. -/
def supplier (c : Core) (pol : Pol) (pool : List Cand) : Option Cand :=
  match firstBy overdueBefore (pool.filter fun x => x.th.overdue.isSome) with
  | some x => some x
  | none =>
    let hi := pool.filter fun x => !lowNow c.cyc x
    let p := if hi.isEmpty then pool else hi
    if c.roundRobin then
      firstBy (fun a b => decide (tineDist pol.lastTine a.tid < tineDist pol.lastTine b.tid) || (tineDist pol.lastTine a.tid == tineDist pol.lastTine b.tid && decide (a.tid < b.tid))) p
    else match pol.kept with
      | none => firstBy olderCand p
      | some (pc, plot, role) =>
        (firstBy olderCand (p.filter fun x => x.th.pc == pc && x.th.plot == plot && x.th.role == role)).orElse fun _ => firstBy olderCand p

/-! ### Forming a drill (R12 to R14) -/

/-- The tines with the oldest threads, up to n of them (R13). -/
def oldestTines : Nat → List Cand → List Nat
  | 0, _ => []
  | n + 1, l => match firstBy (fun a b => decide (a.th.age < b.th.age) || (a.th.age == b.th.age && decide (tineOf a.tid < tineOf b.tid))) l with
    | none => []
    | some x => tineOf x.tid :: oldestTines n (l.filter fun y => tineOf y.tid != tineOf x.tid)
/-- At most 8 tines, the supplier's among them (R13). -/
def limitTines (sup : Cand) (l : List Cand) : List Cand :=
  let mine := tineOf sup.tid
  let keep := mine :: oldestTines 7 (l.filter fun x => tineOf x.tid != mine)
  l.filter fun x => keep.contains (tineOf x.tid)
/-- Is it a `bar` in arrive-and-wait or wait mode (R23)? -/
def barColl (i : Instr) : Bool :=
  match i with
  | .bar m _ => m.toNat != 1
  | _ => false
/-- Does the drill take threads of one sheaf only: in the uniform pipe, or at a sheaf collective (R14, R23)? -/
def oneSheaf (x : Cand) : Bool := x.unif || (x.i.bind collKind).isSome || (x.i.map barColl).getD false
/-- The threads that the supplier's PC collects (R12 to R14). -/
def collect (sup : Cand) (pool : List Cand) : List Cand :=
  let at_ := pool.filter fun x => x.th.pc == sup.th.pc && x.th.plot == sup.th.plot && x.th.role == sup.th.role
  let one := if !oneSheaf sup then at_
    else if sup.th.sheaf.isNone then [sup] else at_.filter fun x => x.th.sheaf == sup.th.sheaf
  limitTines sup one
/-- A formed drill with the candidates it holds. -/
def drillOf (ci slot : Nat) (pipe : Pipe) (sup : Cand) (l : List Cand) : Drill :=
  { core := ci, slot := slot, pipe := pipe, pc := sup.th.pc, tids := l.map (·.tid), sup := sup.tid }
/-- Is the pipe of a slot free (R302)? -/
def pipeFree (c : Core) (slot : Nat) (pipe : Pipe) : Bool :=
  decide ((tgetD (match pipe with
    | .lane => c.lanePol
    | .unif => c.uniPol) slot {}).busyUntil ≤ c.cyc)
/-- The drill that a pipe of a slot forms from its candidates by the policy. -/
def formDrill (ci : Nat) (c : Core) (slot : Nat) (pipe : Pipe) (all : List Cand) : Option (Drill × List Cand) :=
  if !pipeFree c slot pipe then none
  else
    let pool := all.filter fun x => slotOf x.tid == slot && x.unif == (pipe == .unif)
    let pol := tgetD (match pipe with
      | .lane => c.lanePol
      | .unif => c.uniPol) slot {}
    (supplier c pol pool).map fun sup => let l := collect sup pool; (drillOf ci slot pipe sup l, l)

/-! ### Completed rendezvous (R23, R305) -/

/-- The members of completed collectives: each as a list of threads at one PC. -/
def doneRendezvous (c : Core) : List (List (Nat × Thread)) :=
  let sheaves := (c.sheaves.filter fun e => rdvDone c e.1).map fun e => members c e.1
  let waiting := c.threads.filter fun e => e.2.st == .waiting .rendezvous
  let solo := (waiting.filter fun e => e.2.sheaf.isNone && !e.2.regrouping).map fun e => [e]
  let kinds1 := waiting.filter fun e => e.2.regrouping
  let groups := (kinds1.map fun e => (e.2.plot, e.2.role, e.2.pc)).eraseDups
  let regroups := (groups.filter fun g => regroupDone c g.1 g.2.1 g.2.2).map fun g => c.threads.filter fun e => e.2.plot == g.1 && e.2.role == g.2.1
  sheaves ++ solo ++ regroups
/-- Is the identifier of an `mjoin` part that of an open join (R130)? -/
def joinOpen (c : Core) (i : Option Instr) : Bool :=
  match i with
  | some (.mjoin _ x) => c.joins.any fun j => j.ident == x.ident.toNat
  | _ => false
/-- Does the collective find what it needs: every operand full, a place in the matrix unit for an `mma` or for an `mjoin` that opens a join
(R130, R131, R305), every participant of its role for a `regroup` (R163)? -/
def collRoom (c : Core) (l : List (Nat × Thread)) (i : Option Instr) : Bool :=
  (l.all fun e => e.2.held.all (fullAt e.2)) && match i.bind collKind, l with
  | some 1, (_, th) :: _ => regroupDone c th.plot th.role th.pc && decide (l.length = (c.threads.filter fun e => e.2.plot == th.plot && e.2.role == th.role).length)
  | some 7, _ => decide (unitUse c < 4)
  | some 8, _ => joinOpen c i || decide (unitUse c < 4)
  | _, _ => true
/-- Does a thread wait to execute its instruction again with the drill it was in: for walks, or for the release fences of an `abar.arrive`, whose
arrivals are one request of that drill (R264, R359)? -/
def keepsDrill (th : Thread) : Bool :=
  match th.st with
  | .waiting .walk | .waiting (.fences _) => true
  | _ => false
/-- Have the fences that the thread waits for ended (R265)? -/
def fencesOver (s : State) (ci : Nat) (c : Core) (th : Thread) : Bool :=
  match th.st with
  | .waiting (.fences l) => l.all fun u => match tget c.threads u with
    | some x => (x.relSeq.map fun q => releaseDone s ci u 1 q).getD true
    | none => true
  | _ => true
/-- The threads of a drill that has waited and may go on, as far as they still wait. -/
def walkedTids (s : State) (c : Core) (d : Drill) : List Nat :=
  d.tids.filter fun t => match tget c.threads t with
    | some th => keepsDrill th && th.pc == d.pc && (getPlot c th.plot).frozen.isNone && fencesOver s d.core c th
    | none => false
/-- The drill that has waited longest for walks or fences which have ended, in a slot whose pipe is free (R302, R359; log 26). The model's choice: it
takes the pipe ahead of the policy and of a completed rendezvous; the spec does not order them. -/
def walkedDrill (s : State) (ci : Nat) (c : Core) (slot : Nat) (pipe : Pipe) : Option (Drill × List Cand) :=
  if !pipeFree c slot pipe then none
  else s.walked.findSome? fun d =>
    let run := walkedTids s c d
    match run with
    | [] => none
    | t :: _ =>
      if d.core ≠ ci ∨ d.slot ≠ slot ∨ d.pipe ≠ pipe then none
      else
        let l := run.filterMap fun t => (tget c.threads t).map fun th => (t, th)
        let i := (l.head?.bind fun e => threadLine s ci e.2).bind fun ln => peekAt ln d.pc.toNat
        some ({ d with tids := run, sup := if run.contains d.sup then d.sup else t, walked := true }, l.map fun e => { tid := e.1, th := e.2, i := i, unif := pipe == .unif })
/-- Drills that had waited for walks or fences and issue now wait no longer: their threads are ready. -/
def launchWalked (s : State) (ci : Nat) (ds : List (Drill × List Cand)) : State :=
  let go := (ds.filter fun x => x.1.walked).flatMap fun x => x.1.tids
  let s := updThreads s ci go fun th => if keepsDrill th then { th with st := .ready } else th
  { s with walked := s.walked.filter fun d => d.core != ci || d.tids.any fun t => match getThread s ci t with
      | some th => keepsDrill th && th.pc == d.pc
      | none => false }
/-- The drill of a completed collective in a slot whose pipe is free. The model's choice: of several completed ones in one slot the first in
`doneRendezvous` takes the pipe, sheaves in the order of the sheaf table, then solitary threads, then regroups; the spec does not order
them (R23). -/
def collDrill (s : State) (ci : Nat) (c : Core) (slot : Nat) (pipe : Pipe) : Option (Drill × List Cand) :=
  if !pipeFree c slot pipe then none
  else (doneRendezvous c).findSome? fun l => match l with
    | [] => none
    | (t, th) :: _ =>
      if slotOf t ≠ slot ∨ (getPlot c th.plot).frozen.isSome then none
      else match threadLine s ci th with
        | none => none
        | some ln =>
          let i := peekAt ln th.pc.toNat
          let u := pipeBit ln th.pc.toNat
          if ln.due > c.cyc ∨ u ≠ (pipe == .unif) ∨ !collRoom c l i then none
          else
            let cs : List Cand := l.map fun e => { tid := e.1, th := e.2, i := i, unif := u }
            some ({ core := ci, slot := slot, pipe := pipe, pc := th.pc, tids := l.map (·.1), sup := t, coll := true }, cs)
/-- Fetch again the lines that completed collectives wait for and no cache holds (R177). -/
def collLines (s : State) (ci : Nat) : State :=
  (doneRendezvous (getCore s ci)).foldl (fun s l => match l with
    | [] => s
    | (_, th) :: _ =>
      if (threadLine s ci th).isSome then s
      else match fetchLine s ci th.plot th.pc.toNat with
        | (.fault sub, s) =>
          let s := updCore s ci fun c => { c with sheaves := tmap c.sheaves fun k sh => if th.sheaf = some k then { sh with rdv := none } else sh }
          takeFaults s ci (l.map fun e => (e.1, memFault sub 2 false false th.pc.toNat))
        | (_, s) => s) s

/-! ### Waits that execute again -/

/-- May a thread that waits to execute its instruction again do so now? What these waits wait for is said at `Wait.retry`. -/
def retryNow (s : State) (ci : Nat) (c : Core) (t : Nat) (th : Thread) (why : Nat) : Bool :=
  match why with
  | 1 => !flagsOpen s ci t
  | 2 => !unperformed s ci t
  | 10 => !gathering c [t]
  | 11 => decide (c.mrun ≤ 1) || !c.tops.isEmpty
  | 12 => !flagsOpen s ci t
  | 13 => c.tblOwner.isNone || c.tblOwner == some th.plot
  | _ => true
/-- An `mwait` ends in the first cycle in which its tile is not busy (R282, R305). -/
def endMwait (s : State) (ci t : Nat) (th : Thread) : State :=
  let c := getCore s ci
  match th.st with
  | .waiting (.mwait k) =>
    if tileBusy c k ∨ (getPlot c th.plot).frozen.isSome then s
    else wakeThread (updThread s ci t fun th => { th with joinRegs := th.joinRegs.filter fun x => x.1 != k }) ci t 0
  | _ => s
/-- Does a wait that ends with the thread at its own instruction end now: for what a retry waits for, for a place, for its sources? -/
def endsNow (s : State) (ci : Nat) (c : Core) (t : Nat) (th : Thread) (w : Wait) : Bool :=
  match w with
  | .retry why => retryNow s ci c t th why
  | .place true key => joinRoom c th.plot th.role (slotOf t) key
  | .place false key => spawnRoom c th.plot th.role key
  | .arriving b _ =>
    let out := match th.sheaf with
      | some k => (tgetD (tgetD c.sheaves k {}).outs b 0).testBit th.rank
      | none => false
    !out && !unperformed s ci t
  | .target h => resolveHandle s ci th h != .saved
  | .queue k => decide ((getCore s k).deposits.length < Config.depositSlots)
  | .source l => l.all (fullAt th)
  | _ => false
/-- Threads whose retry is due are ready again. -/
def turnRetries (s : State) (ci : Nat) : State :=
  let s := (getCore s ci).threads.foldl (fun s e => endMwait s ci e.1 e.2) s
  updCore s ci fun c => { c with threads := tmap c.threads fun t th =>
    match th.st with
    | .waiting w => if (getPlot c th.plot).frozen.isNone ∧ endsNow s ci c t th w then makeReady c 0 th else th
    | _ => th }

/-! ### Profiling (R425 to R431) -/

/-- The active candidates of a drill; nothing is active in one that does not decode. -/
def activeCands (l : List Cand) : List (Nat × Thread) :=
  (l.filter fun x => match x.i with
    | some i => actOn i x.th
    | none => false).map fun x => (x.tid, x.th)
/-- Active threads, drill threads and live threads beside the drill on one lane of a slot (R425). -/
def laneParts (c : Core) (slot : Nat) (l : List Cand) (lane : Nat) : Nat × Nat × Nat :=
  let on (t : Nat) : Bool := laneOf t == 4 * slot + lane
  let a := ((activeCands l).filter fun e => on e.1).length
  let h := (l.filter fun x => on x.tid).length
  let g := (c.threads.filter fun e => on e.1 && !(l.any fun x => x.tid == e.1) && e.2.sheaf.isSome && l.any fun x => x.th.sheaf == e.2.sheaf).length
  (a, h, g)
/-- Does the drill execute, not merely arrive at a collective (R23)? -/
def executes (d : Drill) (l : List Cand) : Bool := d.coll || !(l.any fun x => (x.i.bind collKind).isSome)
/-- Cycles the drill occupies its pipe (R15, R302). -/
def drillCycles (d : Drill) (l : List Cand) : Nat := if d.pipe = .unif then 1 else occupancy (activeCands l)
/-- Note the drill in its lane pipe. -/
def noteOcc (c : Core) (x : Drill × List Cand) : Core :=
  if x.1.pipe = .unif ∨ !executes x.1 x.2 then c
  else
    let o : Occ := { start := c.cyc, n := drillCycles x.1 x.2, pc := x.1.pc, lanes := (List.range 4).map (laneParts c x.1.slot x.2) }
    { c with prof := { c.prof with occ := tput c.prof.occ x.1.slot o } }
/-- The class of a lane in cycle k of a drill (R425). -/
def laneClass (p : Nat × Nat × Nat) (k : Nat) : Nat :=
  if k < p.1 then 0 else if k < p.2.1 then 2 else if k < p.2.1 + p.2.2 then 1 else 3
/-- The bin of a PC (R426). -/
def binOf (s : State) (pc : Nat) : Nat :=
  ((List.range 16).find? fun r => decide (reg64 s (0x140100 + 16 * r) ≤ pc) && decide (pc < reg64 s (0x140108 + 16 * r))).getD 16
/-- Count one lane cycle. -/
def countLane (p : Profile) (bin cls : Nat) : Profile := { p with counts := tput p.counts (bin * 8 + cls) (tgetD p.counts (bin * 8 + cls) 0 + 1) }
/-- Class and count the four lanes of a slot in this cycle (R425, R426). -/
def countSlot (s : State) (cyc : Nat) (p : Profile) (slot : Nat) : Profile :=
  match tget p.occ slot with
  | some o =>
    if cyc < o.start + o.n then o.lanes.foldl (fun p x => countLane p (binOf s o.pc.toNat) (laneClass x (cyc - o.start))) p
    else (List.range 4).foldl (fun p _ => countLane p 17 4) p
  | none => (List.range 4).foldl (fun p _ => countLane p 17 4) p
/-- Number of the `evt` that an active thread of a drill issues (R427). -/
def evtOf (x : Drill × List Cand) : Option Nat :=
  match x.2.head?.bind (·.i) with
  | some (.evt _ _ _ n) => if (activeCands x.2).isEmpty then none else some n.toNat
  | _ => none
/-- Does a start or stop condition hold on a core in this cycle (R427)? -/
def condHolds (s : State) (code value : Nat) (evts : List Nat) : Bool :=
  match code with
  | 1 => evts.contains (value % 256)
  | 2 => decide (s.now ≥ value)
  | _ => false
/-- What identifies a thread's sheaf for detail records, or the thread where it is solitary (R430). -/
def detailKey (ci : Nat) (c : Core) (t : Nat) (th : Thread) : Nat := if th.sheaf.isSome then (threadHandle ci c th).toNat else 2 ^ 32 + t
/-- Does every enabled comparator match (R430)? -/
def detailMatch (s : State) (ci : Nat) (c : Core) (th : Thread) : Bool :=
  let w := regN s 0x140020
  let p := getPlot c th.plot
  (!w.testBit 30 || p.queue == w % 1024)
    && (!w.testBit 29 || (p.cid.toNat / 2 ^ 12 % 2 ^ 38 == reg64 s 0x140028 / 2 ^ 12 % 2 ^ 38 && p.plotNo % 2 ^ 16 == regN s 0x140030 / 2 ^ 16))
    && (!w.testBit 28 || (th.sheaf.isSome && (threadHandle ci c th).toNat == regN s 0x140034))
/-- Is what was selected still there (R430)? -/
def selectionLives (ci : Nat) (c : Core) (k : Nat) : Bool := c.threads.any fun e => detailKey ci c e.1 e.2 == k
/-- The selection of a core after the drills of a cycle (R430). -/
def selectDetail (s : State) (ci : Nat) (c : Core) (ds : List (Drill × List Cand)) : Option Nat :=
  let now := c.prof.selected.filter (selectionLives ci c)
  if now.isSome ∨ !regBit s 0x140020 31 then now
  else (ds.flatMap (·.2)).findSome? fun x => if detailMatch s ci c x.th then some (detailKey ci c x.tid x.th) else none
/-- The detail record of a drill of the selected sheaf (R431). -/
def detailRecord (s : State) (ci : Nat) (c : Core) (x : Drill × List Cand) : State :=
  match c.prof.selected, x.2 with
  | some k, y :: _ =>
    if !executes x.1 x.2 || !(x.2.any fun z => detailKey ci c z.tid z.th == k) then s
    else
      let sc := atomScope y.i
      let fl := (activeCands x.2).length % 64 + sc.isSome.toNat * 2 ^ 6 + sc.getD 0 * 2 ^ 7
      let pay := x.1.pc.toNat / 4 % 2 ^ 55 + (drillCycles x.1 x.2 - 1) * 2 ^ 55 + (x.1.pipe == .unif).toNat * 2 ^ 59
      emitR s (unitCore ci (some x.1.slot)) 0x0211 (getPlot c y.th.plot).cid pay fl
  | _, _ => s
/-- Profiling of a core's cycle: the start condition, the captured cycle, the stop condition (R427, R428, R431). -/
def profileCore (s : State) (ci : Nat) (ds : List (Drill × List Cand)) : State :=
  let c := ds.foldl noteOcc (getCore s ci)
  let evts := ds.filterMap evtOf
  let w := regN s 0x140000
  let cap := c.prof.capture || condHolds s (fieldN w 5 3) (reg64 s 0x140008) evts
  let p := { c.prof with selected := selectDetail s ci c ds }
  let p := if cap then (List.range 4).foldl (countSlot s c.cyc) p else p
  let c := { c with prof := { p with capture := cap && !(p.stop || condHolds s (w % 8) (reg64 s 0x140010) evts), stop := false } }
  let s := putCore s ci c
  if cap then ds.foldl (fun s x => detailRecord s ci c x) s else s
/-- A time condition starts capture on every core, touched or not (R427). -/
def timeStart (s : State) : State :=
  let w := regN s 0x140000
  if fieldN w 5 3 = 2 ∧ s.now ≥ reg64 s 0x140008 ∧ !(w % 8 = 2 ∧ s.now > reg64 s 0x140010) ∧ s.cores.length < Config.numCores then allCores s id else s

/-! ### The cycle -/

/-- Every drill that a core forms in this cycle, by slot, lane pipe before uniform pipe. The model's choice: a completed rendezvous takes its
slot's pipe ahead of an overdue thread of the slot; R23 gives it the first cycle in which the pipe is free, R35 puts overdue threads ahead of
the policy, and the spec does not order the two. -/
def formedDrills (s : State) (ci : Nat) : List (Drill × List Cand) :=
  let c := getCore s ci
  let all := c.threads.filterMap (candOf s ci c)
  (List.range 4).flatMap fun k => [Pipe.lane, Pipe.unif].filterMap fun p =>
    (walkedDrill s ci c k p).orElse fun _ => (collDrill s ci c k p).orElse fun _ => formDrill ci c k p all
/-- Does drill x win a port against drill y: it alone holds an overdue thread, else it holds the oldest thread, else its issue slot is lower
(R34, R35)? -/
def winsPort (x y : Drill × List Cand) : Bool :=
  let late (d : Drill × List Cand) : Bool := d.2.any fun e => e.th.overdue.isSome
  let age (d : Drill × List Cand) : Nat := ((d.2.map fun e => e.th.age * 256 + e.th.born).min?).getD 0
  if late x != late y then late x
  else if age x ≠ age y then decide (age x < age y)
  else decide (x.1.slot < y.1.slot)
/-- Do two drills of one cycle need the same port? The spec numbers no ports: which drills meet at one is a free choice (R34; log 64). -/
def meetAtPort (s : State) (x y : Drill × List Cand) : Bool :=
  (x.1.slot != y.1.slot || x.1.pipe != y.1.pipe) && Config.samePort s.free x.1.core (x.1.slot * 2 + (x.1.pipe == .unif).toNat) (y.1.slot * 2 + (y.1.pipe == .unif).toNat)
/-- Put a drill before those that it wins a port against. -/
def insertDrill (x : Drill × List Cand) : List (Drill × List Cand) → List (Drill × List Cand)
  | [] => [x]
  | y :: t => if winsPort x y then x :: y :: t else y :: insertDrill x t
/-- The drills that get their ports, from the first winner on: one that meets a drill already served loses. -/
def servePorts (s : State) (l : List (Drill × List Cand)) : List (Drill × List Cand) :=
  (l.foldr insertDrill []).foldl (fun k x => if k.any (meetAtPort s x) then k else k ++ [x]) []
/-- The drills of a core that start in this cycle: of two that meet at a port the loser retries in the next cycle (R34). -/
def coreDrills (s : State) (ci : Nat) : List (Drill × List Cand) :=
  let l := formedDrills s ci
  let won := servePorts s l
  l.filter fun x => won.any fun y => y.1 == x.1
/-- The operands of the drills that start are those of instructions in progress (R52), and their threads are on the lines they execute (R177). -/
def holdOperands (s : State) (ci : Nat) (ds : List (Drill × List Cand)) : State :=
  updThreads' s ci (ds.flatMap fun d => d.1.tids) fun t th =>
    match ((ds.flatMap (·.2)).find? fun x => x.tid == t).bind (·.i) with
    | some i => { th with held := (reads i).map (·.reg), onLine := some (th.pc.toNat / 128) }
    | none => { th with onLine := some (th.pc.toNat / 128) }
/-- Plots all of whose threads wait in `spawn` deadlock (R29). -/
def deadlocks (s : State) (ci : Nat) : State :=
  (getCore s ci).plots.foldl (fun s e => if e.2.frozen.isNone then spawnDeadlock s ci e.1 else s) s
/-- Flags of operations that have completed enter `ast` (R115). -/
def settleFlags (c : Core) : Core :=
  { c with threads := tmap c.threads fun _ th =>
      if th.flags.isEmpty then th
      else { th with ast := (th.flags.filter fun f => decide (f.1 ≤ c.cyc)).foldl (fun w f => w ||| f.2) th.ast, flags := th.flags.filter fun f => decide (c.cyc < f.1) } }
/-- One core's cycle: its drills are issued, what its threads wait for is asked for, and a queued deposit is performed (R12, R53, R58, R177). -/
def issueCore (s : State) (ci : Nat) : State :=
  let s := collLines (deadlocks (turnRetries (moveOn (updCore s ci fun c => tickUnits (settleFlags c)) ci) ci) ci) ci
  let s := (tkeys (getCore s ci).sheaves).foldl (fun s k => checkFuses (recheckBarriers s ci k) ci k) s
  let s := takeAllLates s ci
  let s := holdSources s ci
  let ds := coreDrills s ci
  let asks := lineWaits s ci (getCore s ci) ++ fallowWaits ci (getCore s ci) ++ (if (getCore s ci).deposits.isEmpty then [] else [.depositPerform ci])
  let s := profileCore (holdOperands (launchWalked s ci ds) ci ds) ci ds
  { s with issued := s.issued ++ ds.map (·.1), agenda := asks ++ s.agenda }
/-- Does a cluster that runs `slow` steps below 2.4 GHz take a cycle in tick n (R399)? -/
def takesCycle (slow n : Nat) : Bool := decide ((n + 1) * (24 - slow) / 24 ≠ n * (24 - slow) / 24)
/-- Does a core's clock tick in this cycle of the nominal clock (R399, R400)? -/
def clockTicks (s : State) (ci : Nat) : Bool :=
  let k := getCluster s (clusterOf ci)
  !k.droop && takesCycle k.slow (s.ticks / Config.ticksPerCycle)
/-- Time goes on by one cycle of the nominal clock: device time with its correction, and `cyc` of every core whose clock ticks (R293, R403). -/
def advanceTime (s : State) : State :=
  let run := (tkeys s.cores).filter (clockTicks s)
  let t := s.ticks + Config.ticksPerCycle
  let n := t / Config.ticksPerQuarter - s.ticks / Config.ticksPerQuarter
  let a := slewed n s.now s.disc.slew
  { s with
    ticks := t, now := s.now + a.1, disc := { s.disc with slew := a.2 }
    cores := tmap s.cores fun ci c => if run.contains ci then { c with cyc := c.cyc + 1 } else c
    clusters := tmap s.clusters fun _ k => { k with droop := false } }
/-- A place of memory, scratchpad or tiles may come to stand with an uncorrectable error (R55, R133, R230; log 79). -/
def strike (s : State) : State :=
  match Config.struck s.free with
  | some x => if s.bad.contains x then s else { s with bad := x :: s.bad }
  | none => s
/-- The driver may create a communicator whose number none has, and bind it to an engine, a class, its ranks with this device among them and a
context (R144; log 28). -/
def makeComm (s : State) : State :=
  match Config.newComm s.free with
  | none => s
  | some d =>
    if d.number < 256 ∧ d.engine < 16 ∧ d.cls < 4 ∧ d.me < d.ranks.length ∧ d.ranks.getD d.me 0 = deviceNo s ∧ d.ctx < 64 ∧ (tget s.comms d.number).isNone then
      let c : Comm := { engine := d.engine, cls := d.cls, ranks := d.ranks, me := d.me, ctx := d.ctx, room := (List.range d.ranks.length).map fun q => (q, d.room) }
      { s with comms := tput s.comms d.number c }
    else s
/-- A cluster whose L1s are written back and invalid acts from now on as it is to: fused or not (R67). -/
def settleFusion (s : State) (cl : Nat) : State :=
  match (getCluster s cl).fusing with
  | none => s
  | some b =>
    let mine (k : Nat) : Bool := clusterOf k == cl
    let busy := (s.cores.any fun e => mine e.1 && !e.2.fifo.isEmpty) || s.reqs.any fun e => match e.2 with
      | .wback o => mine o.core
      | _ => false
    if busy then s
    else updCluster { s with cores := tmap s.cores fun k c => if mine k then { c with l1 := [] } else c } cl fun k => { k with fused := b, fusing := none }
/-- One cycle of every core (R12). -/
def execIssueCycle (s : State) : Out :=
  let run := (tkeys s.cores).filter (clockTicks s)
  .next (launchFar (setAny (run.foldl issueCore (timeStart (sweepStops ((tkeys s.clusters).foldl settleFusion (makeComm (strike (advanceTime s)))))))))

/-- Is a ready thread overdue in the cycle to come (R35)? -/
def overdueNow (c : Core) (th : Thread) : Bool :=
  th.st == .ready && th.overdue.isNone && (getPlot c th.plot).frozen.isNone && decide (c.cyc + 1 ≥ th.readySince + Config.overdueCycles)
/-- Ready threads that have gone 4,096 cycles without issuing become overdue: they supply the PC in the very cycle in which they are (R35). -/
def markOverdue (c : Core) : Core :=
  { c with threads := tmap c.threads fun _ th => if overdueNow c th then { th with overdue := some (c.cyc + 1) } else th }
def execThreadOverdue (s : State) : Out := .next { s with cores := tmap s.cores fun _ c => markOverdue c }
/-- Has the low priority of a `yield` ended (R33, R308)? -/
def yieldOver (c : Core) (th : Thread) : Bool :=
  match th.lowUntil with
  | some n => decide (c.cyc ≥ n)
  | none => false
/-- The windows of `yield` that have ended (R33, R308). -/
def endYields (c : Core) : Core := { c with threads := tmap c.threads fun _ th => if yieldOver c th then { th with lowUntil := none } else th }
def execYieldExpiry (s : State) : Out := .next { s with cores := tmap s.cores fun _ c => endYields c }

end Sys2Proof.Machine
end

