-- ==== Sys2Proof/Machine/Security.lean ====
section
/-!
DEFINITION. The security processor (29_security_lifecycle R389 to R396): the mailbox, its commands, and what the ROM does at every reset.
-/
namespace Sys2Proof.Machine
open Sys2Proof

/-! ### The mailbox (R390) -/

/-- Byte i of BUF. -/
def bufByte (s : State) (i : Nat) : Byte := BitVec.ofNat 8 (regN s (0x208000 + i / 4 * 4) / 256 ^ (i % 4))
/-- n bytes of BUF from byte i. -/
def bufRead (s : State) (i n : Nat) : List Byte := (List.range n).map fun k => bufByte s (i + k)
/-- Words of a run of bytes. -/
def wordsOf : Nat → List Byte → List Word
  | 0, _ => []
  | n + 1, bs => if bs.isEmpty then [] else BitVec.ofNat 32 (leNat (bs.take 4)) :: wordsOf n (bs.drop 4)
/-- A command's output: in BUF from byte 0, with its length in SMLEN (log 39). -/
def bufOut (s : State) (bs : List Byte) : State :=
  let s := (wordsOf (bs.length / 4 + 1) bs).zipIdx.foldl (fun s x => setReg32 s (0x208000 + 4 * x.2) x.1) s
  setRegN s 0x200004 bs.length
/-- Bytes in the buffer. -/
def bufLen (s : State) : Nat := regN s 0x200004
/-- A command ends: STATUS is written and BUSY is cleared (R390). -/
def secDone (s : State) (status : Nat) : State :=
  setRegN s 0x200000 (putField (putField (regN s 0x200000) 23 16 status) 30 30 0)
/-- DBGU and SCOPE in place (R390). -/
def dbgBits (s : State) : Nat := regN s 0x200008 % 2 ^ 8 / 8 * 8
/-- The LCSTATE word (R390). -/
def lcState (s : State) : Word := lcWord s.sec.lifecycle ||| BitVec.ofNat 32 (dbgBits s)
/-- SCOPE (R390). -/
def secScope (s : State) : Nat := fieldN (regN s 0x200008) 6 3

/-- Is a command taken in this state: lifecycle 1 to 3, or 1 and 2 for TKEY and LKEY, and not in recovery (R391, R392)? -/
def secOpen (s : State) (keys : Bool) : Bool :=
  !s.sec.recovery && decide (1 ≤ s.sec.lifecycle) && decide (s.sec.lifecycle ≤ (if keys then 2 else 3))
/-- A command of lifecycles 1 to 3: refused with 0x05 elsewhere (R392). -/
def secCmd (keys : Bool) (f : State → State) (s : State) : Out := .next (if secOpen s keys then f s else secDone s 5)

/-- Extend(n, e) (R391). -/
def extendM (s : State) (n : Nat) (e : List Byte) : State :=
  { s with sec := { s.sec with measure := tput s.sec.measure n (extendWith (tgetD s.sec.measure n 0) e) } }
/-- Has any context CV = 1 (R358)? -/
def anyCv (s : State) : Bool := (List.range 64).any fun c => regBit s (0x31000 + 16 * c) 0
/-- Every tenant key is wiped, and KEYV is cleared in every context (R395 step 5). -/
def wipeTenantKeys (s : State) : State :=
  (List.range 64).foldl (fun s c => setRegBit s (0x31008 + 16 * c) 0 false) { s with sec := { s.sec with tenantKeys := [] } }
/-- Step 5 of R395: tenant keys, link keys, the per-boot device key. -/
def wipeKeys (s : State) : State :=
  let s := (List.range 32).foldl wipeLink (wipeTenantKeys s)
  { s with sec := { s.sec with bootKey := s.sec.keyNo, keyNo := s.sec.keyNo + 1 } }

/-! ### The commands (R392) -/

/-- GETCERT: the identity certificate. -/
def execGetcert (s : State) : Out := secCmd false (fun s => secDone (bufOut s Config.certificate) 0) s
/-- GETNONCE: a fresh nonce replaces any earlier one (R395). -/
def execGetnonce (s : State) : Out :=
  secCmd false (fun s =>
    let v := Config.nonce s.sec.nonces
    secDone (bufOut { s with sec := { s.sec with nonce := some v, nonces := s.sec.nonces + 1 } } (natLe 32 v.toNat)) 0) s
/-- The report (R393). -/
def reportOf (s : State) (hostNonce : List Byte) : List Byte :=
  natLe 16 Config.deviceId.toNat ++ natLe 4 (lcState s).toNat ++ natLe 4 s.sec.imageSvn.toNat ++ hostNonce
    ++ (List.range 8).flatMap (fun n => natLe 64 (tgetD s.sec.measure n 0).toNat) ++ natLe 8 s.now ++ natLe 16 0
/-- ATTEST: the report and its signature (R393). -/
def execAttest (s : State) : Out :=
  secCmd false (fun s =>
    if bufLen s ≠ 32 then secDone s 7
    else let r := reportOf s (bufRead s 0 32); secDone (bufOut s (r ++ Config.signReport r)) 0) s
/-- EXTEND: the host extends M(4) to M(7) (R391). -/
def execExtend (s : State) : Out :=
  secCmd false (fun s =>
    let n := (bufByte s 0).toNat
    if bufLen s = 0 ∨ bufLen s > 32768 ∨ n < 4 ∨ n > 7 then secDone s 7
    else secDone (extendM s n (bufRead s 1 (bufLen s - 1))) 0) s
/-- TKEY: a context's key, named by its own bytes; KEYV is set (R366, R392). -/
def execTkey (s : State) : Out :=
  secCmd true (fun s =>
    let c := (bufByte s 0).toNat
    if bufLen s ≠ 65 ∨ c ≥ 64 then secDone s 7
    else if regBit s (0x31000 + 16 * c) 0 then secDone s 6
    else
      let k := 2 ^ 512 + leNat (bufRead s 1 64)
      secDone (setRegBit { s with sec := { s.sec with tenantKeys := tput s.sec.tenantKeys c k } } (0x31008 + 16 * c) 0 true) 0) s
/-- Install a link key: the next key of its direction, or the current one where the direction has none (R386; log 36). -/
def installKey (s : State) (l key : Nat) (rx : Bool) : State :=
  let k := linkKeys s l
  if rx then
    settleLink (putKeys s l (if k.rxCur.isNone then { k with rxCur := some key } else { k with rxNext := some key })) l
  else if k.txCur.isNone then settleLink (setReg64 (putKeys s l { k with txCur := some key }) (linkOff l + 8) 0) l
  else
    let s := putKeys s l { k with txNext := some key }
    -- R387: a stalled link goes on through steps 2 and 3 of R386
    if linkState s l = 4 then retryPackets (setLinkState s l 3) else s
/-- LKEY: link, direction, salt and key (R386, R392). -/
def execLkey (s : State) : Out :=
  secCmd true (fun s =>
    let l := (bufByte s 0).toNat
    let d := (bufByte s 1).toNat
    if bufLen s ≠ 38 ∨ l ≥ 32 ∨ d > 1 then secDone s 7
    else secDone (installKey s l (leNat (bufRead s 2 36)) (decide (d = 1))) 0) s

/-! ### Tokens (R394 to R396) -/

/-- Bytes of a token's body and of its signature. -/
def tokBody : Nat := 0x80
def tokLen : Nat := 0x80 + 29792
/-- A field of the token body. -/
def tok (s : State) (off n : Nat) : Nat := leNat (bufRead s off n)
/-- Does the time error bound exceed 1 s, or is it unknown (R395, R407)? FBND is all ones while unknown. -/
def timeUnknown (s : State) : Bool := decide (regN s 0x11000C > 10 ^ 9)
/-- Steps 2 and 3 of R395: what is wrong with the token, for a kind and by the nonce that was held. -/
def tokenError (s : State) (kind : Nat) (held : Option (BitVec 256)) : Option Nat :=
  if bufLen s ≠ tokLen ∨ tok s 4 4 / 8 ≠ 0 ∨ tok s 0x38 4 / 16 ≠ 0 ∨ !((bufRead s 0x48 0x38).all (· == 0)) then some 7
  else if !Config.verifyDebug (bufRead s 0 tokLen) then some 1
  else if tok s 0 4 ≠ kind ∨ tok s 8 16 ≠ Config.deviceId.toNat ∨ tok s 4 4 % 8 ≠ s.sec.lifecycle then some 2
  else if held ≠ some (BitVec.ofNat 256 (tok s 0x18 32)) then some 3
  else if tok s 0x40 8 < s.now ∨ timeUnknown s then some 4
  else none
/-- The nonce is consumed (R395 step 1). -/
def useNonce (s : State) : State := { s with sec := { s.sec with nonce := none } }
/-- Steps 5 to 7 of R395. -/
def openDebug (s : State) : State :=
  let s := extendM (wipeKeys s) 3 (natLe 64 (Config.shake256 (bufRead s 0 tokBody)).toNat)
  setRegN s 0x200008 (2 ^ 7 + (secScope s ||| tok s 0x38 4 % 16) * 8)
/-- UNLOCK (R395). -/
def execUnlock (s : State) : Out :=
  secCmd false (fun s =>
    let held := s.sec.nonce
    let s := useNonce s
    match tokenError s 1 held with
    | some e => secDone s e
    | none => if anyCv s then secDone s 6 else secDone (openDebug s) 0) s
/-- The fuse is blown; the new state takes effect at the next reset (R396). -/
def blowFuse (s : State) (to_ : Nat) : State :=
  let s := { s with sec := { s.sec with nextLifecycle := max s.sec.nextLifecycle to_ } }
  if to_ = 3 then wipeTenantKeys s else s
/-- May the lifecycle advance so with a token (R396)? -/
def advanceOk (from_ to_ : Nat) : Bool := decide (from_ < to_) && ((from_ == 2 && to_ == 3) || to_ == 4)
/-- LIFECYCLE (R396). -/
def execLifecycle (s : State) : Out :=
  secCmd false (fun s =>
    if bufLen s = 0 then (if s.sec.lifecycle = 1 then secDone (blowFuse s 2) 0 else secDone s 7)
    else
      let held := s.sec.nonce
      let s := useNonce s
      match tokenError s 2 held with
      | some e => secDone s e
      | none =>
        let t := tok s 0x38 4 % 16
        if advanceOk s.sec.lifecycle t then secDone (blowFuse s t) 0 else secDone s 2) s

/-! ### The ROM (R391) -/

/-- Host memory: what a reset leaves, HBM being scrubbed to zero (R377). -/
def hostOnly (m : List Host.Cell) : List Host.Cell := m.filter fun e => decide (e.1 ≥ Config.hostBase)

/-- Is the firmware image accepted (R391)? -/
def imageOk (lifecycle : Nat) (image : List Byte) : Bool :=
  Config.imageDigestOk image && Config.verifyFirmware image && decide (Config.imageSvn image ≥ Config.fusedSvn.setWidth 32)
    && (decide (lifecycle ≠ 0) || Config.imageProvisioning image)
/-- Do the firmware cores run (R389, R391)? -/
def fwRuns (s : State) : Bool := !s.sec.recovery && decide (s.sec.lifecycle ≠ 4)
/-- The accepted image is measured and started (R391). -/
def startImage (s : State) (image : List Byte) : State :=
  let s := extendM (extendM s 1 (natLe 64 (Config.shake256 image).toNat)) 2 (natLe 4 (lcWord s.sec.lifecycle).toNat)
  { s with sec := { s.sec with recovery := false, imageSvn := Config.imageSvn image } }
/-- What the ROM does at a reset, with every M(n), the nonce, DBGU and SCOPE cleared before: it stops when the device is retired; else it
measures, and accepts the flash image or waits for another one (R389 to R391). -/
def bootRom (s : State) : State :=
  if s.sec.lifecycle = 4 then s
  else
    let s := extendM s 0 (Config.romDigest ++ Config.fuseImage)
    if imageOk s.sec.lifecycle Config.flashImage then resetEnd (startImage s Config.flashImage)
    else setRegN { s with sec := { s.sec with recovery := true } } 0x200000 (0x10 * 2 ^ 16)
/-- The scrub of HBM to zero (R377). -/
def scrub (s : State) : State :=
  { s with mem := hostOnly s.mem, lineKeys := [], bad := [], sec := { s.sec with bootKey := 0, keyNo := 1 } }
/-- RECOVER: the ROM fetches an image over the link and checks it in the same way; the firmware that starts then performs the rest of the reset,
the scrub among it (R377, R391). -/
def execRecover (s : State) : Out :=
  .next (if !s.sec.recovery then secDone s 5
    else if bufLen s ≠ 12 then secDone s 7
    else
      let a := hostPa (leNat (bufRead s 0 8))
      let image := memRead s.mem a (leNat (bufRead s 8 4))
      if imageOk s.sec.lifecycle image then resetEnd (secDone (startImage (scrub s) image) 0) else secDone s 0x12)

end Sys2Proof.Machine
end

