-- ==== Sys2Proof/Machine/Power.lean ====
section
/-!
DEFINITION. Resets (R377, R378, R384, R390, R404, R417) and the module's power (30_module_power R399 to R401).
-/
namespace Sys2Proof.Machine
open Sys2Proof

/-! ### Resets -/

/-- Words of window 0 that keep their value: those between two offsets. -/
def keepWords (s : State) (lo hi : Nat) : Tbl Word := s.w0.filter fun e => decide (lo ≤ e.1) && decide (e.1 < hi)
/-- Device time goes on from its value, later than every record before, or starts at 0 where nothing survives (R404). -/
def resetTime (s : State) : Nat := if s.granarySig then s.now + 1 else 0
/-- What a reset of either kind leaves, before links, granary and ROM: every other part of the machine is as State.reset has it (R378). A device
that was locked is so no more (R100, R313, R406). -/
def resetBase (s : State) (w : Tbl Word) : State :=
  { now := resetTime s, sumAt := resetTime s, mem := hostOnly s.mem, nextId := s.nextId, w0 := w, ports := s.ports, segments := s.segments
    lastTime := s.lastTime, granarySig := s.granarySig, mgmt := s.mgmt, hostRead := s.hostRead, free := s.free + 1, agenda := s.agenda
    disc := { last := resetTime s, fresh := true, unlockDue := locked s || s.disc.unlockDue, relock := locked s || s.disc.relock }
    sec := { lifecycle := s.sec.nextLifecycle, nextLifecycle := s.sec.nextLifecycle, nonces := s.sec.nonces } }
/-- The identity of a link's partner as the latest training gave it: domain, device and link (R384). -/
def partnerWas (s : State) (l : Nat) : Nat × Nat × Nat :=
  ((linkKeys s l).pdom, fieldN (regN s (linkOff l)) 13 0, fieldN (regN s (linkOff l)) 23 19)
/-- Has an identified link now another partner (R384)? Who stands there is not of this device (log 42). -/
def partnerChanged (s : State) (l : Nat) : Bool := decide (linkState s l ≥ 2) && Config.partnerOf s.free l != partnerWas s l
/-- The links that a reset trains: every link, or those whose partner has changed (R377, R384). -/
def retrained (s : State) (cold : Bool) : List Nat := (List.range 32).filter fun l => cold || partnerChanged s l
/-- A link after a reset: in training, or one that had no partner as it was, or back in identified with the partner it had and no keys (R377,
R384). EN stays (log 42). -/
def resetLink (old s : State) (train : Bool) (l : Nat) : State :=
  let w := regN old (linkOff l)
  if train || decide (linkState old l = 1) then setRegN s (linkOff l) (fieldN w 28 28 * 2 ^ 28 + 2 ^ 29)
  else if linkState old l = 0 then setRegN s (linkOff l) (fieldN w 28 28 * 2 ^ 28)
  else putKeys (setRegN s (linkOff l) (putField (putField w 31 29 2) 25 24 0)) l { pdom := (linkKeys old l).pdom }
/-- The links after a reset, with the note for the reset-end record of those that were retrained (R313, R377, R384). -/
def resetLinks (old s : State) (cold : Bool) : State :=
  let l := retrained old cold
  (List.range 32).foldl (fun s k => resetLink old s (l.contains k) k) { s with disc := { s.disc with retrained := maskOf l } }
/-- A reset that has scrubbed nothing: HBM holds what it held, under keys of the past, since the per-boot key is new (R365, R377). -/
def unscrubbed (old t : State) : State :=
  { t with mem := old.mem, lineKeys := old.lineKeys, bad := old.bad, sec := { t.sec with bootKey := old.sec.keyNo, keyNo := old.sec.keyNo + 1 } }
/-- What the ROM and the firmware do after the fuse read. A retired device does nothing more; where no image is accepted the firmware's steps, the
scrub of HBM and the training of links, wait for one (R377, R389, R391). -/
def afterFuses (old t : State) (go : State → State) : State :=
  if old.sec.nextLifecycle = 4 then unscrubbed old t
  else
    let b := bootRom (go t)
    if b.sec.recovery then unscrubbed old b else b
/-- A cold reset (R377, R378, R391, R404, R417): every link trains; the granary is kept where its signature stands, with its indices rebuilt
from the segment headers, else it starts empty and says so first. The record of its beginning says whether a host asked for it (R313; log
87). -/
def coldState (s : State) (asked : Bool) : State :=
  let s := emitR s (unitOf 8 0) 0x0501 0 asked.toNat
  let idx := (keepWords s 0x120100 0x120200).filter fun e => decide (e.1 % 32 ≥ 8)
  afterFuses s (resetBase s (if s.granarySig then idx else [])) fun t =>
    let t := if s.granarySig then setRegBit t 0x120000 31 true
             else emitR { t with segments := [], lastTime := 0, granarySig := true } (unitOf 9 0) 0x0505 0
    resetLinks s t true
/-- RSTCTL with COLD, or a PCIe conventional reset; not while the rails are down (R377, R401). -/
def execColdReset (s : State) : Out := .next (if s.rails = 0 ∨ s.railFault.isSome then s else coldState s true)
/-- A warm reset: RSTCTL without COLD, or a function-level reset (R377, R378). Its fuses are the retained shadow; links whose partner has
not changed are not retrained. After a thermal trip it does not end the trip (R400). -/
def execWarmReset (s : State) : Out :=
  .next (if s.rails < 3 then s
    else
      let s := emitR s (unitOf 8 0) 0x0501 0 1
      afterFuses s (resetBase s (keepWords s 0x120000 0x120200)) fun t => resetLinks s t false)

/-! ### Power (R399 to R401) -/

/-- One 100 MHz step down, to 1.2 GHz at the least (R399). -/
def slowCluster (s : State) (k : Nat) : State := updCluster s k fun c => { c with slow := min (c.slow + 1) 12 }
/-- The clusters that may still be lowered, with their power. -/
def lowerable (s : State) (power : List Nat) : List (Nat × Nat) :=
  (power.zipIdx.filter fun x => decide (x.2 < 256) && decide ((getCluster s x.2).slow < 12)).map fun x => (x.2, x.1)
/-- The one with the highest power, the lowest-numbered first. -/
def hottest : List (Nat × Nat) → Option Nat
  | [] => none
  | x :: t => some (t.foldl (fun a b => if b.2 > a.2 then b else a) x).1
/-- A 1 ms window ends: above 3,300 W, the cluster with the highest power is lowered by one step (R399). -/
def execPowerLimitWindow (milliwatts : Nat) (clusterPower : List Nat) (s : State) : Out :=
  .next (if milliwatts ≤ 3300000 then s
    else match hottest (lowerable s clusterPower) with
      | none => s
      | some k => slowCluster s k)
/-- Voltage droop stretches a clock cycle of the cluster (R400). -/
def execVoltageDroop (cluster : Nat) (s : State) : Out :=
  .next (if cluster < 256 then updCluster s cluster fun c => { c with droop := true } else s)
/-- 105 °C: the cluster is lowered by one step (R400). -/
def execThermalThrottle (cluster : Nat) (s : State) : Out := .next (if cluster < 256 then slowCluster s cluster else s)
/-- 115 °C: the compute dies and the HBM lose power; the IOD, the granary and the management controller keep it (R400). -/
def execThermalTrip (s : State) : Out :=
  .next (if s.rails < 3 then s
    else
      let s := emitR s (unitOf 8 0) 0x0404 0
      { s with rails := 1, tripped := true, cores := [], clusters := [], mem := hostOnly s.mem, lineKeys := [], homes := [], l2 := []
               reqs := [], issued := [], cur := {}, curLen := 1 })
/-- The next rail is good; once all are, the cold-start steps follow (R401). -/
def execPowerOn (s : State) : Out :=
  .next (if s.rails ≥ 3 ∨ s.railFault.isSome ∨ s.tripped then s
    else if s.rails = 2 then coldState { s with rails := 3 } false
    else { s with rails := s.rails + 1 })
/-- A rail is not good within 50 ms: the sequence stops (R401). -/
def execRailGoodTimeout (s : State) : Out :=
  .next (if s.rails ≥ 3 ∨ s.tripped then s else { s with railFault := some s.rails })
/-- The module loses power: everything but the fuses and host memory is gone, the granary too (R417). -/
def execPowerLoss (s : State) : Out :=
  .next { mem := hostOnly s.mem, nextId := s.nextId, free := s.free + 1, agenda := s.agenda, rails := 0, granarySig := false
          sec := { lifecycle := s.sec.nextLifecycle, nextLifecycle := s.sec.nextLifecycle, nonces := s.sec.nonces } }

end Sys2Proof.Machine
end

