-- ==== Sys2Proof/Machine/Registers.lean ====
section
/-!
DEFINITION. Writes to the control registers of window 0 (R5, R329, R330): which bits of each word the host writes or clears, which values
are replaced, and which event a write starts; and what a read of window 0 gives. Registers: R331, R338, R346, R351, R358, R360, R362,
R363, R365, R367, R374, R376, R377, R379, R380, R384, R388, R390, R405, R415, R416, R421, R424, R426, R427, R430.
-/
namespace Sys2Proof.Machine
open Sys2Proof

def allBits : Nat := 0xFFFFFFFF
/-- All bits, or none while a condition holds. -/
def holdBits (c : Bool) (m : Nat) : Nat := if c then 0 else m
/-- CV of the context whose registers an offset lies in (R358). -/
def cvAt (s : State) (off : Nat) : Bool := regBit s (off / 16 * 16) 0
/-- Does a security command run (R390)? -/
def secBusy (s : State) : Bool := regBit s 0x200000 30

/-- Bits of queue, ring and launcher words that a write stores now: RW fields, and WO fields that their event reads (R331, R338, R346). -/
def rwQueues (s : State) (off : Nat) : Nat :=
  if off < 0x20000 then (if off % 32 < 8 then holdBits (regBit s (off / 32 * 32 + 8) 31) allBits else 0)
  else match off with
    | 0x20000 => holdBits (regBit s 0x20008 31) allBits
    | 0x20004 => holdBits (regBit s 0x20008 31) allBits
    | 0x20008 => 2 ^ 31 + holdBits (regBit s 0x20008 31) 15
    | 0x20010 => allBits
    | 0x30100 => allBits
    | 0x30104 => allBits
    | 0x30108 => 0x1FFFFF
    | _ => 0
/-- The same for translation, page service, migration, the save pool and the frozen list (R358, R360, R362, R363, R367, R374, R376,
R377). -/
def rwTables (s : State) (off : Nat) : Nat :=
  if off < 0x31400 then (match off % 16 with
    | 0 => 1 + holdBits (cvAt s off) 0xFFFE0000
    | 4 => holdBits (cvAt s off) 0xFFFF
    | _ => 0)
  else if 0x32000 ≤ off ∧ off < 0x33000 then holdBits (regBit s (0x10008 + 32 * ((off - 0x32000) / 4)) 31) 0x3F
  else match off with
    | 0x34000 => allBits
    | 0x34004 => allBits
    | 0x34008 => 0xA03FFFFF
    | 0x34100 => holdBits (regBit s 0x34108 31) allBits
    | 0x34104 => holdBits (regBit s 0x34108 31) allBits
    | 0x34108 => 0x8000000F
    | 0x34110 => allBits
    | 0x34118 => 0x80FFFFFF
    | 0x34200 => allBits
    | 0x34204 => allBits
    | 0x34208 => allBits
    | 0x3420C => allBits
    | 0x34210 => 0x8000003F
    | 0x35000 => holdBits (!s.savedParts.isEmpty) 0xFFF00000
    | 0x35004 => holdBits (!s.savedParts.isEmpty) 0xFFFF
    | 0x35008 => 0x1FFF
    | 0x35018 => allBits
    | 0x35100 => 0x9EFFFFFF
    | 0x35600 => 1
    | _ => 0
/-- The same for fabric, time and granary (R379, R380, R384, R388, R405, R416, R421, R424). -/
def rwFabric (s : State) (off : Nat) : Nat :=
  if 0x101000 ≤ off ∧ off < 0x101800 then (if off % 64 = 0 then 2 ^ 28 else 0)
  else if 0x102000 ≤ off ∧ off < 0x102800 then (if off % 32 < 16 then allBits else if off % 32 = 16 then 0xC0003FFF else 0)
  else if 0x130000 ≤ off ∧ off < 0x130800 then allBits
  else match off with
    | 0x100000 => holdBits (anyLinkUp s) 0xFFFF3FFF
    | 0x100008 => 0xFFFF
    | 0x100010 => holdBits (regBit s 0x100010 30) (2 ^ 28)
    | 0x100018 => allBits
    | 0x10001C => allBits
    | 0x110000 => 0x3F03
    | 0x110010 => allBits
    | 0x120040 => allBits
    | 0x120044 => allBits
    | 0x120048 => allBits
    | 0x12004C => allBits
    | 0x120050 => allBits
    | 0x120300 => 0x18FFFFFF
    | _ => 0
/-- The same for profiling and the security processor (R390, R426, R427, R430). -/
def rwProfile (s : State) (off : Nat) : Nat :=
  if 0x140100 ≤ off ∧ off < 0x140200 then allBits
  else if 0x208000 ≤ off ∧ off < 0x210000 then holdBits (secBusy s) allBits
  else match off with
    | 0x140000 => 0x3F
    | 0x140008 => allBits
    | 0x14000C => allBits
    | 0x140010 => allBits
    | 0x140014 => allBits
    | 0x140018 => 0x1FFFF
    | 0x140020 => 0xF00003FF
    | 0x140028 => allBits
    | 0x14002C => allBits
    | 0x140030 => 0xFFFF0000
    | 0x140034 => allBits
    | 0x200000 => 0xFF
    | 0x200004 => holdBits (secBusy s) allBits
    | _ => 0
/-- Bits of a window-0 word that a write stores. -/
def rwMask (s : State) (off : Nat) : Nat :=
  if off < 0x10000 then 0
  else if off < 0x31000 then (if 0x18000 ≤ off ∧ off < 0x20000 then 0 else rwQueues s off)
  else if off < 0x40000 then rwTables s off
  else if off < 0x100000 then 0
  else if off < 0x140000 then rwFabric s off
  else rwProfile s off
/-- Bits of a window-0 word that writing 1 clears (R5). -/
def w1cMask (off : Nat) : Nat :=
  if 0x10000 ≤ off ∧ off < 0x18000 ∧ off % 32 = 0x18 then 15
  else if off = 0x34210 ∨ off = 0x35100 ∨ off = 0x100010 ∨ off = 0x120058 ∨ off = 0x120300 then 2 ^ 29
  else 0
/-- Values that are stored as others (R379, R405, R421, R427). -/
def storedAs (off v : Nat) : Nat :=
  match off with
  | 0x100008 => if v % 2 ^ 16 = 0 then 1 else v
  | 0x110000 => if v % 4 = 3 then v - 3 else v
  | 0x120300 => if fieldN v 28 27 = 3 then putField v 28 27 0 else v
  | 0x140000 =>
    let v := if fieldN v 5 3 > 2 then putField v 5 3 0 else v
    if v % 8 > 2 then putField v 2 0 0 else v
  | 0x140018 => min 100000 (max 100 (v % 2 ^ 17))
  | _ => v
/-- The security command of a CMD value (R392). -/
def secEvent (cmd : Nat) : Option Instr :=
  match cmd with
  | 1 => some .getcert
  | 2 => some .getnonce
  | 3 => some .unlock
  | 4 => some .attest
  | 5 => some .extend
  | 6 => some .tkey
  | 7 => some .lkey
  | 8 => some .lifecycle
  | 0x11 => some .recover
  | _ => none
/-- The events that a written word starts, in order; judged by the state before the write. -/
def startedBy (s : State) (off v : Nat) : List Instr :=
  let go := v.testBit 31
  let q := (off - 0x10000) / 32
  if 0x10000 ≤ off ∧ off < 0x18000 then (match off % 32 with
    | 8 => [.queueEnable q (BitVec.ofNat 32 v)]
    | 0x10 => [.tailWrite q (BitVec.ofNat 32 v)]
    | _ => [])
  else if 0x120100 ≤ off ∧ off < 0x120200 ∧ off % 32 = 0 then [.quotaWrite]
  else if 0x140020 ≤ off ∧ off < 0x140038 then [.detailSelectWrite]
  else match off with
    | 0x20010 => [.erheadWrite]
    | 0x30000 => [.ginvWrite]
    | 0x34008 => if go then [.tlbInvalidate] else []
    | 0x34110 => [.prheadWrite]
    | 0x34118 => [.pageVerdict]
    | 0x34210 => if go then [.migrationStart] else []
    | 0x35018 => [.saveSetImport]
    | 0x35100 => if regBit s 0x35100 30 then [] else if go ∧ fieldN v 26 25 = 0 then [.frozenKill] else if go ∧ fieldN v 26 25 = 1 then [.frozenResume] else []
    | 0x35600 => if go then (if v.testBit 0 then [.coldReset] else [.warmReset]) else []
    | 0x100010 => if regBit s 0x100010 30 then [] else .routeBankSelect :: (if go then [.routeTableLoad] else [])
    | 0x120058 => if go && !regBit s 0x120058 30 then [.granaryReadout] else []
    | 0x120300 => if go then [.waitforSnapshot] else []
    | 0x140000 => (if go then [.profileHostStart] else []) ++ (if v.testBit 30 then [.profileHostStop] else [])
    | 0x200000 => if go && !secBusy s then (secEvent (v % 256)).toList else []
    | _ => []
/-- FSBASE of a core, a word of it at a time; ignored while the core holds plots (R365). -/
def fsbaseWord (s : State) (off v : Nat) : State :=
  let ci := (off - 0x40000) / 8
  let c := getCore s ci
  if !c.plots.isEmpty then s
  else
    let lo := c.fsbase.toNat % 2 ^ 32
    let hi := c.fsbase.toNat / 2 ^ 32
    let n := if off % 8 = 0 then (v % 2 ^ 32 / 2 ^ 16 * 2 ^ 16 + v % 2) + hi * 2 ^ 32 else lo + v % 2 ^ 16 * 2 ^ 32
    putCore s ci { c with fsbase := BitVec.ofNat 64 n }
/-- What follows at once from some words: training of a link whose EN changes (R384), free slots (R367), a reserved ACTION (R376), an
unknown command (R392). -/
def settleWord (old s : State) (off v : Nat) : State :=
  if 0x101000 ≤ off ∧ off < 0x101800 ∧ off % 64 = 0 then
    let l := (off - 0x101000) / 64
    if v.testBit 28 ∧ linkState s l = 0 then setLinkState s l 1
    else if !v.testBit 28 ∧ linkState s l = 1 then setLinkState s l 0 else s
  else match off with
    | 0x35008 => setSpFree s
    | 0x35100 => if !v.testBit 31 || regBit old 0x35100 30 then s else if fieldN v 26 25 ≥ 2 then frzDone s true else setRegBit s 0x35100 30 true
    | 0x200000 =>
      if !v.testBit 31 || secBusy old then s
      else if (secEvent (v % 256)).isNone then secDone s 7 else setRegBit s 0x200000 30 true
    | _ => s
/-- The control registers of the cores that choose their scheduling policy (R32, R323). The spec gives them no place: the model lets each core have
one at an offset of window 0 that no rule uses, with a value that a function without a body reads (log 84). -/
def policyWord (s : State) (off v : Nat) : State :=
  ((List.range Config.numCores).filter fun ci => Config.policyReg ci == some off).foldl (fun s ci =>
    updCore s ci fun c => { c with roundRobin := Config.policyOf v }) s
/-- Write one word, by the masks of the state before the whole access. -/
def writeWord (old s : State) (off v : Nat) : State :=
  let s := { s with wrOff := off, wrVal := BitVec.ofNat 64 v }
  if 0x40000 ≤ off ∧ off < 0x48000 then fsbaseWord s off v
  else if 0x48000 ≤ off ∧ off < 0x100000 then policyWord s off v
  else
    let x := storedAs off v
    let rw := rwMask old off
    let w1c := w1cMask off &&& v
    let now := regN s off
    let n := (now - (now &&& (rw ||| w1c))) + (x &&& rw)
    let s := setRegN s off n
    { settleWord old s off v with agenda := startedBy old off v ++ s.agenda }
/-- A write to window 0: aligned, of 4 or 8 bytes; any other access is discarded (R329). -/
def writeWindow0 (off size : Nat) (value : DWord) (s : State) : State :=
  let v := value.toNat
  if off + size > 2 ^ 22 then s
  else if size = 4 ∧ off % 4 = 0 then writeWord s s off (v % 2 ^ 32)
  else if size = 8 ∧ off % 8 = 0 then writeWord s (writeWord s s (off + 4) (v / 2 ^ 32)) off (v % 2 ^ 32)
  else s
/-- A write to a register of window 0, after the host's earlier window-2 writes (R5, R329, R330). -/
def execRegisterWrite (offset size : Nat) (value : DWord) (s : State) : Out :=
  hostGate (.registerWrite offset size value) (writeWindow0 offset size value) s

/-! ### What a read of window 0 gives -/

/-- Word j of entry k of the frozen list: the masters that are frozen, in the order of their freezing (R375; log 67). -/
def frozenWord (s : State) (k j : Nat) : Nat :=
  match s.frozen[k]? with
  | none => 0
  | some f => match j with
    | 0 => 2 ^ 31 + f.kind % 8 * 2 ^ 28 + f.id % 2 ^ 24
    | 1 => f.group % 32
    | 2 => f.time % 2 ^ 32
    | _ => f.time / 2 ^ 32 % 2 ^ 32
/-- Bits that a word keeps for its event and that a read gives as zero: write-only fields (R5, R360, R362, R363, R374, R376). -/
def woMask (off : Nat) : Nat :=
  match off with
  | 0x34008 => 2 ^ 31
  | 0x34118 => allBits
  | 0x34210 => 2 ^ 31
  | 0x35018 => allBits
  | 0x35100 => 2 ^ 31
  | _ => 0
/-- A word of window 0 as the host reads it: device time, the frozen list, FSBASE and the words of the security processor as they stand, the
others as they are kept (R365, R375, R390, R405). -/
def window0Word (s : State) (off : Nat) : Nat :=
  if 0x35200 ≤ off ∧ off < 0x35600 then frozenWord s ((off - 0x35200) / 16) ((off - 0x35200) % 16 / 4)
  else if 0x40000 ≤ off ∧ off < 0x48000 then (getCore s ((off - 0x40000) / 8)).fsbase.toNat / 2 ^ (8 * (off % 8)) % 2 ^ 32
  else if 0x200010 ≤ off ∧ off < 0x200020 then Config.deviceId.toNat / 2 ^ (8 * (off - 0x200010)) % 2 ^ 32
  else if 0x200100 ≤ off ∧ off < 0x200300 then (tgetD s.sec.measure ((off - 0x200100) / 64) 0).toNat / 2 ^ (8 * (off % 64)) % 2 ^ 32
  else match off with
    | 0x110018 => s.now % 2 ^ 32
    | 0x11001C => s.now / 2 ^ 32 % 2 ^ 32
    | 0x200008 => (lcState s).toNat
    | _ => regN s off - (regN s off &&& woMask off)
/-- A read of window 0: aligned, of 4 or 8 bytes; any other gives all ones (R329). -/
def readWindow0 (s : State) (off size : Nat) : Nat :=
  if off + size ≤ 2 ^ 22 ∧ size = 4 ∧ off % 4 = 0 then window0Word s off
  else if off + size ≤ 2 ^ 22 ∧ size = 8 ∧ off % 8 = 0 then window0Word s off + 2 ^ 32 * window0Word s (off + 4)
  else 0xFFFFFFFF

end Sys2Proof.Machine
end

