-- ==== Sys2Proof/Machine/Dispatch.lean ====
section
/-!
DEFINITION. Dispatch: one arm for each constructor of Instr, each a call of its meaning.
-/
namespace Sys2Proof.Machine
open Sys2Proof

/-- Carry out one step of the machine: an instruction by the drill that stands in `cur`, or an event. -/
def exec (i : Instr) (s : State) : Host.Outcome State Fault Refusal :=
  match i with
  | .add o => Sys2Proof.Machine.execAdd o s
  | .sub o => Sys2Proof.Machine.execSub o s
  | .mul o => Sys2Proof.Machine.execMul o s
  | .mulhiI32 o => Sys2Proof.Machine.execMulhiI32 o s
  | .mulhiN32 o => Sys2Proof.Machine.execMulhiN32 o s
  | .minI32 o => Sys2Proof.Machine.execMinI32 o s
  | .maxI32 o => Sys2Proof.Machine.execMaxI32 o s
  | .minN32 o => Sys2Proof.Machine.execMinN32 o s
  | .maxN32 o => Sys2Proof.Machine.execMaxN32 o s
  | .and o => Sys2Proof.Machine.execAnd o s
  | .or o => Sys2Proof.Machine.execOr o s
  | .xor o => Sys2Proof.Machine.execXor o s
  | .andn o => Sys2Proof.Machine.execAndn o s
  | .shl o => Sys2Proof.Machine.execShl o s
  | .shr o => Sys2Proof.Machine.execShr o s
  | .sar o => Sys2Proof.Machine.execSar o s
  | .rotl o => Sys2Proof.Machine.execRotl o s
  | .bfeN32 o => Sys2Proof.Machine.execBfeN32 o s
  | .bfeI32 o => Sys2Proof.Machine.execBfeI32 o s
  | .bfi o => Sys2Proof.Machine.execBfi o s
  | .addB64 o => Sys2Proof.Machine.execAddB64 o s
  | .subB64 o => Sys2Proof.Machine.execSubB64 o s
  | .lea o => Sys2Proof.Machine.execLea o s
  | .lea4 o => Sys2Proof.Machine.execLea4 o s
  | .mulWideI32 o => Sys2Proof.Machine.execMulWideI32 o s
  | .mulWideN32 o => Sys2Proof.Machine.execMulWideN32 o s
  | .mad o => Sys2Proof.Machine.execMad o s
  | .clz o => Sys2Proof.Machine.execClz o s
  | .popc o => Sys2Proof.Machine.execPopc o s
  | .brev o => Sys2Proof.Machine.execBrev o s
  | .mov o => Sys2Proof.Machine.execMov o s
  | .icmpI32 o => Sys2Proof.Machine.execIcmpI32 o s
  | .icmpN32 o => Sys2Proof.Machine.execIcmpN32 o s
  | .addi o => Sys2Proof.Machine.execAddi o s
  | .muli o => Sys2Proof.Machine.execMuli o s
  | .andi o => Sys2Proof.Machine.execAndi o s
  | .ori o => Sys2Proof.Machine.execOri o s
  | .xori o => Sys2Proof.Machine.execXori o s
  | .shli o => Sys2Proof.Machine.execShli o s
  | .shri o => Sys2Proof.Machine.execShri o s
  | .sari o => Sys2Proof.Machine.execSari o s
  | .rotli o => Sys2Proof.Machine.execRotli o s
  | .miniI32 o => Sys2Proof.Machine.execMiniI32 o s
  | .maxiI32 o => Sys2Proof.Machine.execMaxiI32 o s
  | .miniN32 o => Sys2Proof.Machine.execMiniN32 o s
  | .maxiN32 o => Sys2Proof.Machine.execMaxiN32 o s
  | .icmpiI32 o => Sys2Proof.Machine.execIcmpiI32 o s
  | .icmpiN32 o => Sys2Proof.Machine.execIcmpiN32 o s
  | .leai o => Sys2Proof.Machine.execLeai o s
  | .bfeiN32 o => Sys2Proof.Machine.execBfeiN32 o s
  | .bfeiI32 o => Sys2Proof.Machine.execBfeiI32 o s
  | .passiAt o => Sys2Proof.Machine.execPassiAt o s
  | .passiOff o => Sys2Proof.Machine.execPassiOff o s
  | .passiFlip o => Sys2Proof.Machine.execPassiFlip o s
  | .passiRot o => Sys2Proof.Machine.execPassiRot o s
  | .li o => Sys2Proof.Machine.execLi o s
  | .liw o => Sys2Proof.Machine.execLiw o s
  | .fcmpF32 o => Sys2Proof.Machine.execFcmpF32 o s
  | .faddF32 o => Sys2Proof.Machine.execFaddF32 o s
  | .fsubF32 o => Sys2Proof.Machine.execFsubF32 o s
  | .fmulF32 o => Sys2Proof.Machine.execFmulF32 o s
  | .ffmaF32 o => Sys2Proof.Machine.execFfmaF32 o s
  | .fminF32 o => Sys2Proof.Machine.execFminF32 o s
  | .fmaxF32 o => Sys2Proof.Machine.execFmaxF32 o s
  | .frcp o => Sys2Proof.Machine.execFrcp o s
  | .frsq o => Sys2Proof.Machine.execFrsq o s
  | .fsqrt o => Sys2Proof.Machine.execFsqrt o s
  | .fex2 o => Sys2Proof.Machine.execFex2 o s
  | .flg2 o => Sys2Proof.Machine.execFlg2 o s
  | .fsin o => Sys2Proof.Machine.execFsin o s
  | .fcos o => Sys2Proof.Machine.execFcos o s
  | .ftanh o => Sys2Proof.Machine.execFtanh o s
  | .ftbl o => Sys2Proof.Machine.execFtbl o s
  | .scacc o => Sys2Proof.Machine.execScacc o s
  | .cvt o => Sys2Proof.Machine.execCvt o s
  | .pkBf2 o => Sys2Proof.Machine.execPkBf2 o s
  | .pkH2 o => Sys2Proof.Machine.execPkH2 o s
  | .pk8loE4m3 o => Sys2Proof.Machine.execPk8loE4m3 o s
  | .pk8hiE4m3 o => Sys2Proof.Machine.execPk8hiE4m3 o s
  | .pk8loE5m2 o => Sys2Proof.Machine.execPk8loE5m2 o s
  | .pk8hiE5m2 o => Sys2Proof.Machine.execPk8hiE5m2 o s
  | .haddBf2 o => Sys2Proof.Machine.execHaddBf2 o s
  | .hmulBf2 o => Sys2Proof.Machine.execHmulBf2 o s
  | .hfmaBf2 o => Sys2Proof.Machine.execHfmaBf2 o s
  | .haddH2 o => Sys2Proof.Machine.execHaddH2 o s
  | .hmulH2 o => Sys2Proof.Machine.execHmulH2 o s
  | .hfmaH2 o => Sys2Proof.Machine.execHfmaH2 o s
  | .fdivF32 o => Sys2Proof.Machine.execFdivF32 o s
  | .ld o => Sys2Proof.Machine.execLd o s
  | .st o => Sys2Proof.Machine.execSt o s
  | .pf o => Sys2Proof.Machine.execPf o s
  | .atomAdd o => Sys2Proof.Machine.execAtomAdd o s
  | .atomMinI32 o => Sys2Proof.Machine.execAtomMinI32 o s
  | .atomMaxI32 o => Sys2Proof.Machine.execAtomMaxI32 o s
  | .atomMinN32 o => Sys2Proof.Machine.execAtomMinN32 o s
  | .atomMaxN32 o => Sys2Proof.Machine.execAtomMaxN32 o s
  | .atomAnd o => Sys2Proof.Machine.execAtomAnd o s
  | .atomOr o => Sys2Proof.Machine.execAtomOr o s
  | .atomXor o => Sys2Proof.Machine.execAtomXor o s
  | .atomXchg o => Sys2Proof.Machine.execAtomXchg o s
  | .atomCas o => Sys2Proof.Machine.execAtomCas o s
  | .atomAddB64 o => Sys2Proof.Machine.execAtomAddB64 o s
  | .atomFaddF32 o => Sys2Proof.Machine.execAtomFaddF32 o s
  | .atomFaddBf2 o => Sys2Proof.Machine.execAtomFaddBf2 o s
  | .atomFmaxF32 o => Sys2Proof.Machine.execAtomFmaxF32 o s
  | .atomFminF32 o => Sys2Proof.Machine.execAtomFminF32 o s
  | .atomIncw o => Sys2Proof.Machine.execAtomIncw o s
  | .ldsp o => Sys2Proof.Machine.execLdsp o s
  | .br o => Sys2Proof.Machine.execBr o s
  | .call o => Sys2Proof.Machine.execCall o s
  | .spawn o => Sys2Proof.Machine.execSpawn o s
  | .brx o => Sys2Proof.Machine.execBrx o s
  | .callx o => Sys2Proof.Machine.execCallx o s
  | .nop p px => Sys2Proof.Machine.execNop p px s
  | .exit px => Sys2Proof.Machine.execExit px s
  | .join o => Sys2Proof.Machine.execJoin o s
  | .leave px => Sys2Proof.Machine.execLeave px s
  | .regroup o => Sys2Proof.Machine.execRegroup o s
  | .fuse n => Sys2Proof.Machine.execFuse n s
  | .yield n => Sys2Proof.Machine.execYield n s
  | .safe tmask pmask lo hi => Sys2Proof.Machine.execSafe tmask pmask lo hi s
  | .bar mode bar => Sys2Proof.Machine.execBar mode bar s
  | .poll px d fn neg k => Sys2Proof.Machine.execPoll px d fn neg k s
  | .sred px d a fn => Sys2Proof.Machine.execSred px d a fn s
  | .sscan px d a exc fn => Sys2Proof.Machine.execSscan px d a exc fn s
  | .alike px d a lead => Sys2Proof.Machine.execAlike px d a lead s
  | .passAt o => Sys2Proof.Machine.execPassAt o s
  | .passOff o => Sys2Proof.Machine.execPassOff o s
  | .passFlip o => Sys2Proof.Machine.execPassFlip o s
  | .passRot o => Sys2Proof.Machine.execPassRot o s
  | .abarInit o => Sys2Proof.Machine.execAbarInit o s
  | .abarArrive p px a => Sys2Proof.Machine.execAbarArrive p px a s
  | .abarDue o => Sys2Proof.Machine.execAbarDue o s
  | .abarWait o => Sys2Proof.Machine.execAbarWait o s
  | .abarTest o d => Sys2Proof.Machine.execAbarTest o d s
  | .fence kind scope => Sys2Proof.Machine.execFence kind scope s
  | .rput o => Sys2Proof.Machine.execRput o s
  | .arm p px d => Sys2Proof.Machine.execArm p px d s
  | .ctrWait o => Sys2Proof.Machine.execCtrWait o s
  | .ctrRd p px d c => Sys2Proof.Machine.execCtrRd p px d c s
  | .plop px pd pa pb pc tt => Sys2Proof.Machine.execPlop px pd pa pb pc tt s
  | .pmovRd px d => Sys2Proof.Machine.execPmovRd px d s
  | .pmovWr px a => Sys2Proof.Machine.execPmovWr px a s
  | .csrRd px d n => Sys2Proof.Machine.execCsrRd px d n s
  | .csrWr px a n => Sys2Proof.Machine.execCsrWr px a n s
  | .time p px d => Sys2Proof.Machine.execTime p px d s
  | .evt p px a n => Sys2Proof.Machine.execEvt p px a n s
  | .trap px n => Sys2Proof.Machine.execTrap px n s
  | .brk px => Sys2Proof.Machine.execBrk px s
  | .nap px cond sp a b => Sys2Proof.Machine.execNap px cond sp a b s
  | .wpw px a ch => Sys2Proof.Machine.execWpw px a ch s
  | .shape o => Sys2Proof.Machine.execShape o s
  | .expand o => Sys2Proof.Machine.execExpand o s
  | .bcast o => Sys2Proof.Machine.execBcast o s
  | .iota o => Sys2Proof.Machine.execIota o s
  | .fragResume px a => Sys2Proof.Machine.execFragResume px a s
  | .fragResumeSkip px a => Sys2Proof.Machine.execFragResumeSkip px a s
  | .fragKill px a => Sys2Proof.Machine.execFragKill px a s
  | .fragInfo px d a sel n => Sys2Proof.Machine.execFragInfo px d a sel n s
  | .fragStep px a => Sys2Proof.Machine.execFragStep px a s
  | .mma p px w x => Sys2Proof.Machine.execMma p px w x s
  | .mloop px w x => Sys2Proof.Machine.execMloop px w x s
  | .mjoin w x => Sys2Proof.Machine.execMjoin w x s
  | .mwait p px t => Sys2Proof.Machine.execMwait p px t s
  | .tzero p px t => Sys2Proof.Machine.execTzero p px t s
  | .tld p px t x => Sys2Proof.Machine.execTld p px t x s
  | .tst p px t x => Sys2Proof.Machine.execTst p px t x s
  | .tmovin px t x w => Sys2Proof.Machine.execTmovin px t x w s
  | .tmovout px t d w => Sys2Proof.Machine.execTmovout px t d w s
  | .tcvt p px t dst src u => Sys2Proof.Machine.execTcvt p px t dst src u s
  | .mscl p px t x u => Sys2Proof.Machine.execMscl p px t x u s
  | .copyStart p px ch d a => Sys2Proof.Machine.execCopyStart p px ch d a s
  | .copyCancel p px ch => Sys2Proof.Machine.execCopyCancel p px ch s
  | .copyWpr p px ch d => Sys2Proof.Machine.execCopyWpr p px ch d s
  | .collStart p px a => Sys2Proof.Machine.execCollStart p px a s
  | .collQuery p px d a => Sys2Proof.Machine.execCollQuery p px d a s
  | .stn o => Sys2Proof.Machine.execStn o s
  | .gath p px a => Sys2Proof.Machine.execGath p px a s
  | .tblLd p px a => Sys2Proof.Machine.execTblLd p px a s
  | .tblSel p px a => Sys2Proof.Machine.execTblSel p px a s
  | .fuseHoldExpiry core sheaf pc => Sys2Proof.Machine.execFuseHoldExpiry core sheaf pc s
  | .joinBinTimerExpiry core bin => Sys2Proof.Machine.execJoinBinTimerExpiry core bin s
  | .spawnBinTimerExpiry core bin => Sys2Proof.Machine.execSpawnBinTimerExpiry core bin s
  | .plotAdmission core wait => Sys2Proof.Machine.execPlotAdmission core wait s
  | .plotRetire core plot => Sys2Proof.Machine.execPlotRetire core plot s
  | .loadDataReturn id => Sys2Proof.Machine.execLoadDataReturn id s
  | .fallowRefill core tid reg => Sys2Proof.Machine.execFallowRefill core tid reg s
  | .mgmtRegisterRead core place word => Sys2Proof.Machine.execMgmtRegisterRead core place word s
  | .debuggerRegisterWrite core tid reg value => Sys2Proof.Machine.execDebuggerRegisterWrite core tid reg value s
  | .depositPerform core => Sys2Proof.Machine.execDepositPerform core s
  | .icacheLineFill core va => Sys2Proof.Machine.execIcacheLineFill core va s
  | .dirtyLineDrain core => Sys2Proof.Machine.execDirtyLineDrain core s
  | .homeStorePerform id => Sys2Proof.Machine.execHomeStorePerform id s
  | .homeLoadService id tid => Sys2Proof.Machine.execHomeLoadService id tid s
  | .atomicRequestPerform id => Sys2Proof.Machine.execAtomicRequestPerform id s
  | .atomicAck id => Sys2Proof.Machine.execAtomicAck id s
  | .ldspWrite id => Sys2Proof.Machine.execLdspWrite id s
  | .stnCompletion id => Sys2Proof.Machine.execStnCompletion id s
  | .fabricResponseTimeout id => Sys2Proof.Machine.execFabricResponseTimeout id s
  | .fenceComplete core tid => Sys2Proof.Machine.execFenceComplete core tid s
  | .napWordRecheck core tid => Sys2Proof.Machine.execNapWordRecheck core tid s
  | .matrixStepComplete core => Sys2Proof.Machine.execMatrixStepComplete core s
  | .tileOpComplete core id => Sys2Proof.Machine.execTileOpComplete core id s
  | .tableLoadCommit core id => Sys2Proof.Machine.execTableLoadCommit core id s
  | .copyCommandAccept cluster channel => Sys2Proof.Machine.execCopyCommandAccept cluster channel s
  | .copyChunkDelivery cluster channel => Sys2Proof.Machine.execCopyChunkDelivery cluster channel s
  | .gatherElement core id => Sys2Proof.Machine.execGatherElement core id s
  | .collUnitStart engine => Sys2Proof.Machine.execCollUnitStart engine s
  | .collChunkReceived comm rank cid data => Sys2Proof.Machine.execCollChunkReceived comm rank cid data s
  | .collStepEnd comm => Sys2Proof.Machine.execCollStepEnd comm s
  | .collOperationComplete comm => Sys2Proof.Machine.execCollOperationComplete comm s
  | .collWatchdogExpiry comm => Sys2Proof.Machine.execCollWatchdogExpiry comm s
  | .handlerDelivery core plot => Sys2Proof.Machine.execHandlerDelivery core plot s
  | .stopRequest core plot => Sys2Proof.Machine.execStopRequest core plot s
  | .plotSave core plot => Sys2Proof.Machine.execPlotSave core plot s
  | .plotRestore core saved => Sys2Proof.Machine.execPlotRestore core saved s
  | .hostWindow2Write offset data => Sys2Proof.Machine.execHostWindow2Write offset data s
  | .hostWindow2Read offset len => Sys2Proof.Machine.execHostWindow2Read offset len s
  | .registerWrite offset size value => Sys2Proof.Machine.execRegisterWrite offset size value s
  | .tailWrite queue value => Sys2Proof.Machine.execTailWrite queue value s
  | .queueEnable queue value => Sys2Proof.Machine.execQueueEnable queue value s
  | .residencyRequest queue => Sys2Proof.Machine.execResidencyRequest queue s
  | .queueRecordAccept queue => Sys2Proof.Machine.execQueueRecordAccept queue s
  | .runEnd run => Sys2Proof.Machine.execRunEnd run s
  | .nodeDispatch run node => Sys2Proof.Machine.execNodeDispatch run node s
  | .nodeComplete run node => Sys2Proof.Machine.execNodeComplete run node s
  | .condRead run node => Sys2Proof.Machine.execCondRead run node s
  | .plotStage run node core => Sys2Proof.Machine.execPlotStage run node core s
  | .pageWalkComplete cluster walk => Sys2Proof.Machine.execPageWalkComplete cluster walk s
  | .pageService ctx page => Sys2Proof.Machine.execPageService ctx page s
  | .packetForward link cls hop source dest local_ cid => Sys2Proof.Machine.execPacketForward link cls hop source dest local_ cid s
  | .remoteRequestArrival link source address op data len cid => Sys2Proof.Machine.execRemoteRequestArrival link source address op data len cid s
  | .linkTrainingComplete link domain device plink => Sys2Proof.Machine.execLinkTrainingComplete link domain device plink s
  | .linkPartnerReset link => Sys2Proof.Machine.execLinkPartnerReset link s
  | .flitGroupTransmit send => Sys2Proof.Machine.execFlitGroupTransmit send s
  | .flitGroupReceive link phase tagOk => Sys2Proof.Machine.execFlitGroupReceive link phase tagOk s
  | .powerLimitWindow milliwatts clusterPower => Sys2Proof.Machine.execPowerLimitWindow milliwatts clusterPower s
  | .voltageDroop cluster => Sys2Proof.Machine.execVoltageDroop cluster s
  | .thermalThrottle cluster => Sys2Proof.Machine.execThermalThrottle cluster s
  | .timeExchange link offset parentE parentF => Sys2Proof.Machine.execTimeExchange link offset parentE parentF s
  | .fleetTimeSync offset => Sys2Proof.Machine.execFleetTimeSync offset s
  | .recordWrite unit => Sys2Proof.Machine.execRecordWrite unit s
  | .residencyReturn queue => Sys2Proof.Machine.execResidencyReturn queue s
  | .debuggerAttach core plot on => Sys2Proof.Machine.execDebuggerAttach core plot on s
  | .tfence => Sys2Proof.Machine.execTfence s
  | .issueCycle => Sys2Proof.Machine.execIssueCycle s
  | .threadOverdue => Sys2Proof.Machine.execThreadOverdue s
  | .yieldExpiry => Sys2Proof.Machine.execYieldExpiry s
  | .leaseExpiry => Sys2Proof.Machine.execLeaseExpiry s
  | .stopFallbackExpiry => Sys2Proof.Machine.execStopFallbackExpiry s
  | .erheadWrite => Sys2Proof.Machine.execErheadWrite s
  | .firmwareEventDispatch => Sys2Proof.Machine.execFirmwareEventDispatch s
  | .firmwareRetention => Sys2Proof.Machine.execFirmwareRetention s
  | .ginvWrite => Sys2Proof.Machine.execGinvWrite s
  | .pageVerdict => Sys2Proof.Machine.execPageVerdict s
  | .tlbInvalidate => Sys2Proof.Machine.execTlbInvalidate s
  | .tlbInvalidateComplete => Sys2Proof.Machine.execTlbInvalidateComplete s
  | .migrationStart => Sys2Proof.Machine.execMigrationStart s
  | .migrationDrained => Sys2Proof.Machine.execMigrationDrained s
  | .migrationCopyDone => Sys2Proof.Machine.execMigrationCopyDone s
  | .saveSetImport => Sys2Proof.Machine.execSaveSetImport s
  | .frozenKill => Sys2Proof.Machine.execFrozenKill s
  | .frozenResume => Sys2Proof.Machine.execFrozenResume s
  | .coldReset => Sys2Proof.Machine.execColdReset s
  | .warmReset => Sys2Proof.Machine.execWarmReset s
  | .routeTableLoad => Sys2Proof.Machine.execRouteTableLoad s
  | .routeLoadComplete => Sys2Proof.Machine.execRouteLoadComplete s
  | .routeBankSelect => Sys2Proof.Machine.execRouteBankSelect s
  | .packetWaitTimeout => Sys2Proof.Machine.execPacketWaitTimeout s
  | .getcert => Sys2Proof.Machine.execGetcert s
  | .getnonce => Sys2Proof.Machine.execGetnonce s
  | .unlock => Sys2Proof.Machine.execUnlock s
  | .attest => Sys2Proof.Machine.execAttest s
  | .extend => Sys2Proof.Machine.execExtend s
  | .tkey => Sys2Proof.Machine.execTkey s
  | .lkey => Sys2Proof.Machine.execLkey s
  | .lifecycle => Sys2Proof.Machine.execLifecycle s
  | .recover => Sys2Proof.Machine.execRecover s
  | .powerOn => Sys2Proof.Machine.execPowerOn s
  | .railGoodTimeout => Sys2Proof.Machine.execRailGoodTimeout s
  | .thermalTrip => Sys2Proof.Machine.execThermalTrip s
  | .timeBoundGrowth => Sys2Proof.Machine.execTimeBoundGrowth s
  | .quotaWrite => Sys2Proof.Machine.execQuotaWrite s
  | .granaryReadout => Sys2Proof.Machine.execGranaryReadout s
  | .granaryReadoutComplete => Sys2Proof.Machine.execGranaryReadoutComplete s
  | .waitforSnapshot => Sys2Proof.Machine.execWaitforSnapshot s
  | .profileHostStart => Sys2Proof.Machine.execProfileHostStart s
  | .profileHostStop => Sys2Proof.Machine.execProfileHostStop s
  | .profileSummaryInterval => Sys2Proof.Machine.execProfileSummaryInterval s
  | .detailSelectWrite => Sys2Proof.Machine.execDetailSelectWrite s
  | .prheadWrite => Sys2Proof.Machine.execPrheadWrite s
  | .powerLoss => Sys2Proof.Machine.execPowerLoss s

end Sys2Proof.Machine
end

