-- ==== Sys2Proof/Machine/Pick.lean ====
section
/-!
DEFINITION. What the machine does of itself: the steps that are due by a time the spec gives, and the steps that may come next in an order
the spec leaves open, of which a free value picks one (log 2).
-/
namespace Sys2Proof.Machine
open Sys2Proof

/-! ### Steps that are due -/

/-- Has a request to another device gone without a response for FTMO (R148, R149, R242)? -/
def reqLate (s : State) (q : Req) : Bool :=
  match q with
  | .load o => (o.parts.any fun p => p.data.isNone && isFar p.loc) && overdueAt s o.at_
  | .atomic o => !o.sp && !o.performed && isFar o.loc && overdueAt s o.at_
  | .wback o => o.dev.isSome && overdueAt s o.sent
  | .ldsp o => o.data.isNone && isFar o.src && overdueAt s o.at_
  | .stn o => o.gwct.isNone && isFar o.dst && overdueAt s o.at_
/-- The step that performs an unperformed request of L1 k to a line, with its place in the order, where it can be performed now. -/
def performOf (s : State) (k key id : Nat) (q : Req) : List (Nat × Instr) :=
  match q with
  | .load o => if l1Core s o.core key ≠ k then [] else
      (o.parts.filter fun p => p.data.isNone && lineKey p.loc == key && loadCan s id o p).map fun p => (p.seq, .homeLoadService id p.tid)
  | .atomic o => if l1Core s o.core key = k ∧ !o.sp ∧ !o.performed ∧ lineKey o.loc = key ∧ atomCan s id o then [(id, .atomicRequestPerform id)] else []
  | .wback o => if o.core = k ∧ wbKey o = key ∧ wbCan s id o then [(id, .homeStorePerform id)] else []
  | .ldsp o => if l1Core s o.core key = k ∧ o.data.isNone ∧ lineKey o.src = key ∧ ldspCan s id o then [(id, .ldspWrite id)] else []
  | .stn o => if l1Core s o.core key = k ∧ o.gwct.isNone ∧ lineKey o.dst = key ∧ stnCan s id o then [(id, .stnCompletion id)] else []
/-- The first request that a write-back stands behind is performed, so that the write-back keeps its bound (R81). -/
def clearWay (s : State) (id : Nat) (o : WBack) : Option Instr :=
  if !wbBlocked s id o then none
  else (s.reqs.flatMap fun e => performOf s o.core (wbKey o) e.1 e.2).foldl (fun (a : Option (Nat × Instr)) x => match a with
    | some y => if x.1 < y.1 then some x else some y
    | none => if x.1 ≤ id then some x else none) none |>.map (·.2)
/-- Requests whose response is due: values that have come in the cycle R306 gives, and lost responses; a write-back late in its 2 µs (R81). -/
def dueReq (s : State) (id : Nat) (q : Req) : Option Instr :=
  if reqLate s q then some (.fabricResponseTimeout id)
  else match q with
    | .load o => if (o.parts.all fun p => p.data.isSome) && decide (o.due ≤ (getCore s o.core).cyc + 1) then some (.loadDataReturn id) else none
    | .atomic o => if o.performed && !o.acked && decide (o.due ≤ (getCore s o.core).cyc + 1) then some (.atomicAck id) else none
    | .wback o => if s.now < o.since + 6000 then none else if wbCan s id o then some (.homeStorePerform id) else clearWay s id o
    | _ => none
/-- Steps that are due on a core: matrix steps and tile operations, ends of holds, bins and `yield`, overdue threads, full saves, dirty
lines, fences (R18, R22, R29, R33, R35, R81, R88, R124, R164, R305). -/
def dueCore (s : State) (ci : Nat) (c : Core) : Option Instr :=
  let fuse := c.sheaves.findSome? fun k => k.2.fuses.findSome? fun f => if f.2.1 + f.2.2 ≤ c.cyc then some (Instr.fuseHoldExpiry ci k.1 f.1) else none
  let bin := c.bins.findSome? fun b =>
    if c.cyc < b.2.first + binTimer (getPlot c b.2.plot) b.2.role then none
    else if b.2.isJoin then (if b.2.count = 0 then some (Instr.joinBinTimerExpiry ci b.1) else none)
    else if b.2.members.isEmpty then none else some (.spawnBinTimerExpiry ci b.1)
  let drain := match c.fifo with
    | d :: _ => if s.now ≥ d.since + 4000 then some (Instr.dirtyLineDrain ci) else none
    | [] => none
  let thread := c.threads.findSome? fun e =>
    if overdueNow c e.2 then some Instr.threadOverdue
    else if (match e.2.lowUntil with
      | some n => decide (c.cyc ≥ n)
      | none => false) then some Instr.yieldExpiry
    else match e.2.st, (getPlot c e.2.plot).stop with
      | .ready, some t => if (getPlot c e.2.plot).frozen.isNone ∧ e.2.stepping.isNone ∧ c.cyc ≥ t + Config.stopFallback then some .stopFallbackExpiry else none
      | .waiting (.fence kind scope seq), _ => if fenceDone s ci e.1 e.2 kind scope seq ∨ (scope = 3 ∧ e.2.lostAt.isSome) then some (.fenceComplete ci e.1) else none
      | _, _ => none
  let port := c.port.findSome? fun u => if (u.fin.map fun n => decide (n ≤ c.cyc + 1)) != some true then none
    else match c.tops.find? fun o => o.id == u.id with
      | some o => if topReady c o then some (Instr.tileOpComplete ci u.id) else none
      | none => if c.tblLoads.any fun o => o.id == u.id then some (Instr.tableLoadCommit ci u.id) else none
  let matrix := if (c.mcur.map (mopHere c)).getD false ∧ c.mrun ≥ 8 then some (Instr.matrixStepComplete ci) else none
  matrix.orElse fun _ => port.orElse fun _ => fuse.orElse fun _ => bin.orElse fun _ => drain.orElse fun _ => thread
/-- Has a step of the current operation of a communicator reached its deadline (R320)? -/
def watchDue (s : State) (k : Nat) (c : Comm) : Bool :=
  match c.ops with
  | [] => false
  | o :: _ => o.steps.any fun st => !st.warned && decide (stepDeadline s k c o st ≤ s.now)
/-- Has an event that a core could take been ready for the 1 µs within which a core takes it (R337)? -/
def fwDue (s : State) : Bool :=
  fwRuns s && (idleFw s).isSome && (match nextFw s with
    | some e => decide (e.since + 4000 ≤ s.now)
    | none => false)
/-- A waiting `nap` whose word has changed: it reads it before anything else happens to it (R269). -/
def dueNap (s : State) : Option Instr :=
  s.cores.findSome? fun e => e.2.threads.findSome? fun t => if napDue s e.1 t.1 t.2 then some (.napWordRecheck e.1 t.1) else none
/-- A step that is due now. -/
def dueNow (s : State) : Option Instr :=
  let rec_ := s.ports.findSome? fun p => match p.2 with
    | r :: _ => if s.now ≥ r.time + 79000 then some (.recordWrite (BitVec.ofNat 32 p.1)) else none
    | [] => none
  (s.reqs.findSome? fun e => dueReq s e.1 e.2).orElse fun _ =>
    (s.cores.findSome? fun e => dueCore s e.1 e.2).orElse fun _ =>
      (s.comms.findSome? fun e => if watchDue s e.1 e.2 then some (.collWatchdogExpiry e.1) else none).orElse fun _ =>
        if s.packets.any (packetLate s) then some .packetWaitTimeout
        else if growthDue s then some .timeBoundGrowth
        else if s.now ≥ sumEnd s then some .profileSummaryInterval
        else if fwDue s then some .firmwareEventDispatch
        else if retentionDue s then some .firmwareRetention
        else rec_

/-! ### Steps that may come next -/

/-- Requests on their way to a home (R68, R80, R84, R92, R99). -/
def mayReqs (s : State) : List Instr :=
  s.reqs.flatMap fun e => match e.2 with
    | .load o => (o.parts.filter fun p => p.data.isNone).map fun p => Instr.homeLoadService e.1 p.tid
    | .atomic o => if o.performed then [] else [.atomicRequestPerform e.1]
    | .wback _ => [.homeStorePerform e.1]
    | .ldsp _ => [.ldspWrite e.1]
    | .stn _ => [.stnCompletion e.1]
/-- What a core's units may do. -/
def mayCore (ci : Nat) (c : Core) : List Instr :=
  let drain : List Instr := if c.fifo.isEmpty then [] else [.dirtyLineDrain ci]
  let naps := c.threads.filterMap fun e => match e.2.st with
    | .waiting (.nap _ _ _ _ _) => some (Instr.napWordRecheck ci e.1)
    | _ => none
  let plots := c.plots.flatMap fun e =>
    (if (oldestPending c e.1).isSome ∧ !(handlerSlots c e.1).isEmpty ∧ e.2.hdr.hnd ∧ e.2.frozen.isNone then [Instr.handlerDelivery ci e.1] else [])
      ++ (if e.2.stop.isSome ∧ e.2.frozen.isNone then [Instr.plotSave ci e.1] else [])
      ++ (if c.threads.all fun t => t.2.plot != e.1 then [Instr.plotRetire ci e.1] else [])
  drain ++ naps ++ plots ++ (c.gathers.filter fun g => !g.frozen).map fun g => Instr.gatherElement ci g.id
/-- What a cluster's engines and walkers may do. -/
def mayCluster (cl : Nat) (k : Cluster) : List Instr :=
  ((k.walks.take Config.maxWalks).map fun e => Instr.pageWalkComplete cl e.1)
    ++ k.channels.flatMap fun e =>
      if e.2.frozen then []
      else if e.2.job.isSome then [.copyChunkDelivery cl e.1]
      else match e.2.cmds with
        | x :: _ => if x.accepted then [.copyChunkDelivery cl e.1] else [.copyCommandAccept cl e.1]
        | [] => []
/-- What the collective engines may do. -/
def mayColl (s : State) : List Instr :=
  (((List.range 16).filter fun e => !(readyComms s e).isEmpty).map Instr.collUnitStart)
    ++ s.comms.flatMap fun e => match e.2.ops with
      | [] => if e.2.owed.isEmpty then [] else [Instr.collStepEnd e.1]
      | o :: _ => (if o.steps.isEmpty && e.2.owed.isEmpty && o.early.isEmpty then [] else [Instr.collStepEnd e.1]) ++ (if o.ended ≥ collSteps o e.2.ranks.length ∧ o.steps.isEmpty then [Instr.collOperationComplete e.1] else [])
/-- What the launcher may do for a run. -/
def mayRun (s : State) (r : Run) : List Instr :=
  let nodes := r.sts.flatMap fun e => match e.2 with
    | .dispatched => if nodeFinished s r.no e.1 then [Instr.nodeComplete r.no e.1] else []
    | .reading => if nodeFinished s r.no e.1 then [Instr.nodeComplete r.no e.1] else [Instr.condRead r.no e.1]
    | _ => []
  let head := match r.ready with
    | n :: _ => [Instr.nodeDispatch r.no n]
    | [] => if r.sts.isEmpty then [Instr.nodeDispatch r.no 0] else []
  let stage := r.fields.flatMap fun e => if stageable r e.1 then ((candidateCores s e.2.hdr).filter fun ci => (placeNow s ci e.2.hdr).isSome).map fun ci => Instr.plotStage r.no e.1 ci else []
  nodes ++ (if r.failed then [] else head ++ stage) ++ (if runOver r then [Instr.runEnd r.no] else [])
/-- What the dispatcher may let in or restore, and where. -/
def mayPlace (s : State) : List Instr :=
  ((waitingFields s).flatMap fun x => (candidateCores s (tgetD (getRun s x.1).fields x.2 {}).hdr).map fun ci => Instr.plotAdmission ci (x.1 * 4096 + x.2))
    ++ s.savedParts.flatMap fun e => ((candidateCores s e.2.plot.hdr).filter fun ci => (placeSet s ci (savedSet s e.1)).1.isSome).map fun ci => Instr.plotRestore ci e.1
/-- What queues, firmware, translation, fabric and granary may do. -/
def mayDevice (s : State) : List Instr :=
  (((List.range 1024).filter (canAccept s)).map Instr.queueRecordAccept)
    ++ (if fwRuns s ∧ (nextFw s).isSome ∧ (idleFw s).isSome then [Instr.firmwareEventDispatch] else [])
    ++ (if s.inval.isSome then [Instr.tlbInvalidateComplete] else [])
    ++ (match s.mig with
      | some m => if m.drained then [Instr.migrationCopyDone] else if migDrained s m then [Instr.migrationDrained] else []
      | none => [])
    ++ (if regBit s 0x100010 30 then [Instr.routeLoadComplete] else []) ++ (if regBit s 0x120058 30 then [Instr.granaryReadoutComplete] else [])
    ++ (((List.range 32).filter fun l => linkState s l == 3 && (leaving s l).isSome).map fun l => Instr.flitGroupTransmit ⟨l, false⟩)
    ++ (s.ports.map fun p => Instr.recordWrite (BitVec.ofNat 32 p.1))
    ++ (if (s.l2.any fun e => decide (e.2.expiry ≤ s.now)) || s.cores.any fun c => c.2.l1.any fun e => e.2.valid != 0 && decide (e.2.expiry ≤ s.now) then [Instr.leaseExpiry] else [])
/-- Every step that may come next beside a cycle. -/
def mayNow (s : State) : List Instr :=
  mayReqs s ++ (s.cores.flatMap fun e => mayCore e.1 e.2) ++ (s.clusters.flatMap fun e => mayCluster e.1 e.2) ++ mayColl s
    ++ (s.runs.flatMap fun e => mayRun s e.2) ++ mayPlace s ++ mayDevice s
/-- The next step of the machine of itself: one that is due, or by a free choice one that may come, or a cycle. -/
def pick (s : State) : Instr :=
  match dueNow s with
  | some i => i
  | none => let l := mayNow s; l.getD (Config.freePick s.free % (l.length + 1)) .issueCycle

end Sys2Proof.Machine
end

