-- ==== Sys2Proof/Machine/Step.lean ====
section
/-!
DEFINITION. One step of the machine: a drill that was issued is fetched and carried out; else an act of an agent that stands on the agenda;
else what the machine does next of itself (log 2, 5). And the placing of an instruction for the next fetch (log 1).
-/
namespace Sys2Proof.Machine
open Sys2Proof

/-- One step. Between two others a `nap` whose word has changed reads it, so that it misses no store (R269). -/
def step (s : State) : Host.Outcome State Fault Refusal :=
  match dueNap s with
  | some i => exec i s
  | none =>
    match s.issued with
    | d :: rest =>
      match fetchDrill { s with issued := rest } d with
      | .error t => .next t
      | .ok (i, t) => exec i t
    | [] =>
      match s.agenda with
      | i :: rest => exec i { s with agenda := rest }
      | [] => exec (pick s) { s with free := s.free + 1 }

/-- The fetch line that holds an instruction's words from word 2, with its start and target bits (R174). -/
def placedLine (s : State) (w : Nat) : Line :=
  { data := BitVec.ofNat 1024 (4 + 2 ^ 32 * 4 + 2 ^ 64 * (w % 2 ^ 96)), valid := BitVec.ofNat 128 (2 ^ 128 - 1), expiry := s.now + 1 }
/-- The state in which the next step fetches and runs this instruction: its line stands in the instruction cache of core 0; a plot with one
solitary thread is resident there, whose drill has been issued (log 1). -/
def State.withFetchWord (s : State) (_nbits w : Nat) : State :=
  let ln := placedLine s w
  let p : Plot := { hdr := { roles := [{}] }, roles := [{}], slots := [(0, 0)] }
  let d : Drill := { pc := 8, tids := [0], pipe := if pipeBit ln 8 then .unif else .lane }
  { updCore s 0 fun c => { c with
      threads := tput c.threads 0 { pc := 8 }
      plots := tput c.plots 0 p
      icache := tput c.icache (iKey 0 0) ln } with
    issued := d :: s.issued }

end Sys2Proof.Machine
end

