-- ==== Sys2Proof/Safety.lean ====
section
/-!
DEFINITION. The terms the claims use: a step that goes on, the invariants of a well-kept state, what it is for a thread to take part in a
drill without a fault, what becomes of it, and what a drill leaves alone.
-/
namespace Sys2Proof.Machine
open Sys2Proof

/-- A step, whatever it is, keeps a predicate of the state. -/
def Keeps (P : State → Prop) : Prop := ∀ s t, P s → step s = .next t → P t

/-- Memory stands in its canonical form (log 3). -/
def MemInv (s : State) : Prop := memWf s.mem = true

/-- The tables stand in ascending order of key, scratchpads in the canonical form of memory, and requests under numbers already given. -/
structure WellKept (s : State) : Prop where
  mem : MemInv s
  reqs : tsorted s.reqs = true
  ids : ∀ e ∈ s.reqs, e.1 < s.nextId
  l2 : tsorted s.l2 = true
  cores : tsorted s.cores = true
  clusters : tsorted s.clusters = true
  core : ∀ c ∈ s.cores, tsorted c.2.threads = true ∧ tsorted c.2.plots = true ∧ tsorted c.2.frags = true ∧ tsorted c.2.sheaves = true ∧ tsorted c.2.l1 = true
  regs : ∀ c ∈ s.cores, ∀ e ∈ c.2.threads, tsorted e.2.regs = true
  scratch : ∀ k ∈ s.clusters, memWf k.2.scratch = true
  drills : ∀ e ∈ s.reqs, (∀ q, e.2 = .atomic q → q.drill < s.nextId) ∧ (∀ q, e.2 = .ldsp q → q.drill < s.nextId) ∧ ∀ q, e.2 = .stn q → q.drill < s.nextId
  saved : ∀ p ∈ s.savedParts, ∀ e ∈ p.2.threads, tsorted e.2.regs = true

/-! ### A thread in a drill -/

/-- The state in which an LSU of the drill's core has been taken for some cycles (R63, R306): nothing else differs. -/
def LsuTaken (s s0 : State) : Prop := ∃ l, s0 = putCore s s.cur.core { getCore s s.cur.core with lsu := l }

/-- Spills of a core do not fail: its fallow store is set up, and no uncorrectable error stands in memory (R54, R55). -/
structure SpillsOk (s : State) (ci : Nat) : Prop where
  store : (fallowBase (getCore s ci)).isSome = true
  good : s.bad = []

/-- The place after the instruction (R176). -/
def after (s : State) : DWord := nextPc s.cur.pc s.curLen

/-- Thread slot t takes part in the drill of i as an active thread, its sources as in th; no fault is decided against it before its part,
and no handler steps it (R12, R15, R40, R47, R49, R301), and the core's spills do not fail (R55). -/
structure Takes (i : Instr) (s : State) (t : Nat) (th : Thread) : Prop where
  act : (t, th) ∈ activeThreads i s
  sound : preFault i s (activeThreads i s) th = none
  free : th.stepping = none
  spills : SpillsOk s s.cur.core

/-- The thread whose registers supply the sources: in the lane pipe, and for `arm`, each its own; in the uniform pipe the lowest-ranked
active thread without a fault, for all, with the mode of the lowest-ranked active one (R16, R109, R199). -/
def sourceThread (i : Instr) (s : State) (th : Thread) : Thread :=
  if isUnif s && !ownParts i then
    (((activeThreads i s).find? fun e => (preFault i s (activeThreads i s) e.2).isNone).map fun e => leadMode (activeThreads i s) e.2).getD th
  else th

/-- What an instruction gives a thread: registers and predicates written, flags set; registers left empty for a producer (R47), armed for a
deposit (R56); the flag of a read of a released register (R46), which stands at once, and the flags of its own result, which enter `ast` when
the instruction completes (R115, R304). -/
structure Effect where
  regs : List (Nat × Word) := []
  awaits : List Nat := []
  prod : Nat := 0
  armed : Bool := false
  preds : List (Nat × Bool) := []
  flags : Word := 0
  sr : Word := 0

/-- One register written. -/
def toReg (d : RegNo) (v : Word) : Effect := { regs := [(d.toNat, v)] }
/-- A pair written, the low half in d (R4). -/
def toPair (d : RegNo) (x : DWord) : Effect := { regs := [(d.toNat, x.setWidth 32), (d.toNat + 1, (x >>> 32).setWidth 32)] }
/-- A predicate written. -/
def toPred (p : PredNo) (b : Bool) : Effect := { preds := [(p.toNat, b)] }
/-- A floating result with its flags. -/
def toRes (d : RegNo) (r : Res) : Effect := { regs := [(d.toNat, BitVec.ofNat 32 r.bits)], flags := BitVec.ofNat 32 r.fl }
/-- An exact integer: its low 32 bits, or under SAT clamped to i32 with IS where it does not fit (R197, R201). -/
def toSum (sat : Bool) (d : RegNo) (x : Int) : Effect :=
  if sat ∧ x > 2 ^ 31 - 1 then { regs := [(d.toNat, 0x7FFFFFFF)], flags := 16 }
  else if sat ∧ x < -(2 ^ 31) then { regs := [(d.toNat, 0x80000000)], flags := 16 }
  else { regs := [(d.toNat, BitVec.ofInt 32 x)] }
/-- The pair a thread reads. -/
def pairOf (th : Thread) (a : Src) : DWord := rv th (a.reg.toNat + 1) ++ rv th a.reg.toNat
/-- The pair it reads as its second operand; where reads are undefined each operand reads a value of its own (R6, R95). -/
def pairOf2 (th : Thread) (a : Src) : DWord := rvAt th 1 (a.reg.toNat + 1) ++ rvAt th 1 a.reg.toNat
/-- The word whose bit k is f k. -/
def bitsWord (f : Nat → Bool) : Word := BitVec.ofNat 32 (((List.range 32).filter f).map fun k => 2 ^ k).sum

/-! ### Numbers -/

/-- The exact rational value of a finite word's fields. -/
def fvRat : FV → ℚ
  | .fin neg m e => (if neg then -1 else 1) * (m : ℚ) * (2 : ℚ) ^ e
  | _ => 0
/-- A finite word of a format (R101). -/
def finite (f : Fmt) (w : Nat) : Prop := w < 2 ^ (f.signBit + 1) ∧ ∃ a m e, unpack f w = .fin a m e
/-- The value of a word. -/
def valOf (f : Fmt) (w : Nat) : ℚ := fvRat (unpack f w)
/-- Is r the rounding of x to the format under a mode: 0 to the nearest, ties to even; 1 toward zero; 2 down; 3 up (R106, R112)? -/
def RoundsTo (f : Fmt) (rm : Nat) (x : ℚ) (r : Nat) : Prop :=
  finite f r ∧
  (rm = 0 → ∀ w, finite f w → |valOf f r - x| ≤ |valOf f w - x| ∧ (|valOf f r - x| = |valOf f w - x| → valOf f w = valOf f r ∨ r % 2 = 0)) ∧
  (rm = 1 → |valOf f r| ≤ |x| ∧ ∀ w, finite f w → |valOf f w| ≤ |x| → |valOf f w| ≤ |valOf f r|) ∧
  (rm = 1 → 0 ≤ valOf f r * x) ∧
  (rm = 2 → valOf f r ≤ x ∧ ∀ w, finite f w → valOf f w ≤ x → valOf f w ≤ valOf f r) ∧
  (rm = 3 → x ≤ valOf f r ∧ ∀ w, finite f w → x ≤ valOf f w → valOf f r ≤ valOf f w)

/-- The words of a thread that an instruction writes only by name. -/
def namedWords (th : Thread) : Word × Word × Word × Word × Word × Nat × Nat × Nat × Nat :=
  (th.mode, th.aen, th.prog, th.dbgst, th.cych, th.horizon, th.tlast, th.rank, th.role)

/-- The registers that an effect changes. -/
def Effect.keys (e : Effect) : List Nat := e.regs.map (·.1) ++ e.awaits
/-- A thread's registers, predicates and flags after an effect: last uses are released (R45), every other register, predicate, flag and word
of it is as before. -/
structure Got (i : Instr) (e : Effect) (old new : Thread) : Prop where
  written : ∀ x ∈ e.regs, (tget new.regs x.1).map (·.val) = some x.2
  awaited : ∀ r ∈ e.awaits, ∃ c, tget new.regs r = some c ∧ c.st ≠ .full ∧ c.prod = e.prod ∧ c.armed = e.armed
  released : ∀ r ∈ lastRegs i, r ∉ e.keys → tget new.regs r = none
  kept : ∀ r, r ∉ e.keys → r ∉ lastRegs i → (tget new.regs r).map (·.val) = (tget old.regs r).map (·.val)
  preds : ∀ p, 0 < p → p < 8 → new.preds.getLsbD p = (tget e.preds p).getD (old.preds.getLsbD p)
  p0 : new.preds.getLsbD 0 = old.preds.getLsbD 0
  ast : new.ast = old.ast ||| e.sr
  pending : ∃ ready, new.flags = if e.flags = 0 then old.flags else old.flags ++ [(ready, e.flags)]
  words : namedWords new = namedWords old
  place : new.plot = old.plot ∧ new.sheaf = old.sheaf ∧ new.serves = old.serves
/-- A thread that has got an effect and stands at pc, ready. -/
structure Moved (i : Instr) (e : Effect) (pc : DWord) (old new : Thread) : Prop where
  got : Got i e old new
  pc : new.pc = pc
  ready : new.st = .ready

/-- A waiting thread of a core has been released: it stands ready at the instruction after its own, with its last uses released and its
other registers and its predicates as before (R11, R45). -/
def WakesUp (s s' : State) (ci t : Nat) : Prop :=
  ∃ old new, getThread s ci t = some old ∧ getThread s' ci t = some new ∧ new.st = .ready ∧ new.pc = old.nextPc ∧
    (∀ r ∈ old.lastUse, tget new.regs r = none) ∧ (∀ r, r ∉ old.lastUse → (tget new.regs r).map (·.val) = (tget old.regs r).map (·.val)) ∧
    new.preds = old.preds

/-- Slot t of the drill's core holds a thread before and after, and it has moved so. -/
def MovesTo (i : Instr) (e : Thread → Effect) (pc : DWord) (s s' : State) (t : Nat) : Prop :=
  ∃ old new, getThread s s.cur.core t = some old ∧ getThread s' s.cur.core t = some new ∧ Moved i (e old) pc old new
/-- The same, but the thread waits at its instruction, which is followed by the next (R11, R176); its registers are as before but for the
effect. -/
def WaitsFor (i : Instr) (w : Wait) (s s' : State) (t : Nat) : Prop :=
  ∃ old new, getThread s s.cur.core t = some old ∧ getThread s' s.cur.core t = some new ∧ new.st = .waiting w ∧ new.pc = old.pc ∧
    new.nextPc = nextPc s.cur.pc s.curLen ∧ new.lastUse = lastRegs i ∧ (∀ r, (tget new.regs r).map (·.val) = (tget old.regs r).map (·.val)) ∧
    new.preds = old.preds ∧ new.plot = old.plot ∧ new.sheaf = old.sheaf
/-- The thread has taken a fault of one thread: it is parked at its instruction in a fragment of this core that shows the fault (R152 to
R154, R159), its registers and predicates as before. -/
def ParksWith (f : FaultRec) (s s' : State) (t : Nat) : Prop :=
  ∃ old new e g, getThread s s.cur.core t = some old ∧ getThread s' s.cur.core t = some new ∧ new.st = .parked e ∧ new.pc = old.pc ∧
    (∀ r, (tget new.regs r).map (·.val) = (tget old.regs r).map (·.val)) ∧ new.preds = old.preds ∧
    tget (getCore s' s.cur.core).frags e = some g ∧ t ∈ g.members ∧ tget g.details t = some (f.det0, f.det1, f.det2) ∧ g.group = f.group

/-- A thread takes a fault late (R148, R152): it is parked at the PC of the access whose answer did not come, with the registers it had
there that nothing has written since. -/
def ParksLate (ci : Nat) (f : FaultRec) (prod : Nat) (pc : DWord) (cells : Tbl RegCell) (s s' : State) (t : Nat) : Prop :=
  ∃ old new e g, getThread s ci t = some old ∧ getThread s' ci t = some new ∧ new.st = .parked e ∧ new.pc = pc ∧
    (∀ r, (tget new.regs r).map (·.val) = (tget (cells.foldl (restoreCell prod) old).regs r).map (·.val)) ∧ new.preds = old.preds ∧
    tget (getCore s' ci).frags e = some g ∧ t ∈ g.members ∧ tget g.details t = some (f.det0, f.det1, f.det2) ∧ g.group = f.group
/-- A thread whose late fault is taken as soon as it comes: no other one waits, it is not stepped, and it is in no operation that goes on first. -/
structure TakesLate (th : Thread) : Prop where
  first : th.late = none
  held : lateHeld th = false
  free : th.stepping = none

/-- The same for a thread of a core, outside any drill. -/
def ParksOn (ci : Nat) (f : FaultRec) (s s' : State) (t : Nat) : Prop := ParksWith f { s with cur := { s.cur with core := ci } } s' t

/-- In any state the instruction goes on, and gives every active thread without a fault this effect and the flag of a read of a released
register (R46; in the uniform pipe of any active thread's, R109), at the next instruction (R302). -/
def ComputesIn (i : Instr) (e : State → Thread → Effect) : Prop :=
  ∀ s t th, Takes i s t th → ∃ s', exec i s = .next s' ∧
    MovesTo i (fun old => { e s (sourceThread i s th) with sr := readFlag i s old }) (nextPc s.cur.pc s.curLen) s s' t
/-- The same where the effect depends on the thread alone. -/
def Computes (i : Instr) (e : Thread → Effect) : Prop := ComputesIn i fun _ x => e x

/-- The state without its cores, its memory, the keys of its lines and the counter of free values. -/
def besides (s : State) : State := { s with cores := [], mem := [], lineKeys := [], free := 0 }

/-- The bytes of the fallow store to which a drill's writes may evict: slots of registers that a thread of the core holds, or that a thread
of the drill holds after writing. -/
def evictSlots (i : Instr) (s : State) (b a : Nat) : Prop :=
  (∃ e ∈ (getCore s s.cur.core).threads, ∃ r,
    ((tget e.2.regs r).isSome = true ∨ (e.1 ∈ s.cur.tids ∧ r ∈ writes i)) ∧
    b + e.1 * 256 + r * 4 ≤ a ∧ a < b + e.1 * 256 + r * 4 + 4) ∨
  (∃ e ∈ (getCore s s.cur.core).threads, ∃ k r, e.2.sheaf = some k ∧
    ((tget e.2.regs r).isSome = true ∨ (e.1 ∈ s.cur.tids ∧ r ∈ writes i)) ∧
    b + 2 ^ 16 + k * 512 + r * 8 ≤ a ∧ a < b + 2 ^ 16 + k * 512 + r * 8 + 8)
/-- The line of an address is encrypted under the boot key, or not at all (R365, R366): a device write to another byte of it leaves this one. -/
def ownLine (s : State) (a : Nat) : Prop := Config.hbmBytes ≤ a / 128 * 128 ∨ tgetD s.lineKeys (a / 128 * 128) 0 = s.sec.bootKey
/-- A drill's spills leave the line of an address as it is but for the slots: none of them is in it, or it already stands under the boot key. -/
def Spared (i : Instr) (s : State) (b a : Nat) : Prop := ownLine s a ∨ ∀ x, x / 128 = a / 128 → ¬ evictSlots i s b x

/-- What a drill without faults leaves alone. -/
structure CleanFrame (i : Instr) (b : Nat) (s s' : State) : Prop where
  state : besides s' = besides s
  others : ∀ cj, cj ≠ s.cur.core → tget s'.cores cj = tget s.cores cj
  core : getCore s' s.cur.core = { getCore s s.cur.core with
    threads := (getCore s' s.cur.core).threads
    lanePol := (getCore s' s.cur.core).lanePol
    uniPol := (getCore s' s.cur.core).uniPol }
  mem : ∀ a, ¬ evictSlots i s b a → Spared i s b a → memGet s'.mem a = memGet s.mem a
  keys : ∀ a, Spared i s b a → tgetD s'.lineKeys (a / 128 * 128) 0 = tgetD s.lineKeys (a / 128 * 128) 0

/-- In a drill no thread is stepped, no masked-off thread takes a fault of its own (an empty source it would read, R12, R47; a passed peak under
ZERO, R41, R49), and the core's spills do not fail (R55). -/
structure Calm (i : Instr) (s : State) : Prop where
  free : ∀ e ∈ drillThreads i s, e.2.stepping = none
  off : ∀ e ∈ drillThreads i s, actOn i e.2 = false → offFault i (getCore s s.cur.core) (zeroOf i) e.2 = none
  spills : SpillsOk s s.cur.core
/-- A drill with an active thread in which no thread faults and none is stepped, on a core whose fallow store stands at b. -/
structure CleanDrill (i : Instr) (s : State) (b : Nat) : Prop where
  some1 : activeThreads i s ≠ []
  sound : ∀ e ∈ activeThreads i s, preFault i s (activeThreads i s) e.2 = none
  calm : Calm i s
  store : fallowBase (getCore s s.cur.core) = some b

/-- A thread that nothing has happened to but that a register of it may stand in the fallow store, and may be tagged and timed anew. -/
structure Untouched (a b : Thread) : Prop where
  regs : ∀ r, (tget b.regs r).map (·.val) = (tget a.regs r).map (·.val)
  rest : { b with regs := [] } = { a with regs := [] }

/-- Beside the drill's own threads nothing has changed from s1 to s': other threads of the core are untouched, and the rest of the machine
is as in s1, but for fallow slots to which banks may evict (R52, R365). -/
structure RestOf (i : Instr) (s1 s' : State) : Prop where
  frame : ∀ b, fallowBase (getCore s1 s1.cur.core) = some b → CleanFrame i b s1 s'
  threads : ∀ u, u ∉ (drillThreads i s1).map (·.1) → ∀ old, getThread s1 s1.cur.core u = some old →
    ∃ new, getThread s' s1.cur.core u = some new ∧ Untouched old new

/-- The drill has one active thread, t with sources as in th, no fault is decided against it before its part, and the drill is calm. -/
structure Alone (i : Instr) (s : State) (t : Nat) (th : Thread) : Prop where
  act : activeThreads i s = [(t, th)]
  sound : preFault i s [(t, th)] th = none
  calm : Calm i s
/-- The instruction goes on: its one active thread gets an effect and stands at pc, and the rest of the machine is as in s1. -/
def Finishes (i : Instr) (s s1 : State) (t : Nat) (e : Effect) (pc : DWord) : Prop :=
  ∃ s', exec i s = .next s' ∧ RestOf i s1 s' ∧
    MovesTo i (fun old => { e with sr := readFlag i s old }) pc s1 s' t
/-- The instruction goes on: its one active thread waits, and the rest of the machine is as in s1. -/
def FinishesWaiting (i : Instr) (s s1 : State) (t : Nat) (w : Wait) : Prop :=
  ∃ s', exec i s = .next s' ∧ RestOf i s1 s' ∧ WaitsFor i w s1 s' t
/-- An instruction's drill has an active thread, none of them faults before its part, and it is calm. -/
structure SoundDrill (i : Instr) (s : State) : Prop where
  some1 : activeThreads i s ≠ []
  sound : ∀ e ∈ activeThreads i s, preFault i s (activeThreads i s) e.2 = none
  calm : Calm i s
/-- The drill goes on as one: the rest of the machine is as in s1, and this becomes of every active thread from s1 on. -/
def Together (i : Instr) (s s1 : State) (p : State → State → Nat → Prop) : Prop :=
  ∃ s', exec i s = .next s' ∧ RestOf i s1 s' ∧ ∀ e ∈ activeThreads i s, p s1 s' e.1
/-- A completed collective: every active member gets the effect that the live members and it itself give, at the next instruction; in a drill
without faults the rest of the machine is as before, but that the rendezvous is over (R23, R253). -/
def Exchanges (i : Instr) (e : List (Nat × Thread) → Thread → Effect) : Prop :=
  ∀ (s : State) (t : Nat) (th : Thread), s.cur.coll = true → isUnif s = false → ((drillThreads i s).map (·.2.rank)).Pairwise (· < ·) → Takes i s t th →
    ∃ s', exec i s = .next s' ∧ (SoundDrill i s → RestOf i (clearRdv s) s') ∧
      MovesTo i (fun old => { e (drillThreads i s) th with sr := readFlag i s old }) (after s) s s' t
/-- What a rank pass gives: the value of the source rank where it is live, else one's own (R254). -/
def rankPassed (d : RegNo) (a : Src) (ms : List (Nat × Thread)) (x : Thread) (r : Int) : Effect :=
  toReg d (((ms.find? fun m => (m.2.rank : Int) == r).map fun m => sv m.2 a).getD (sv x a))
/-- The live rank δ places on from a thread's own, around the sheaf (R254). -/
def rotated (ms : List (Nat × Thread)) (x : Thread) (δ : Nat) : Int :=
  let l : List Nat := ms.map (·.2.rank)
  ((l.getD ((l.idxOf x.rank + δ) % l.length) 0 : Nat) : Int)
/-- The line of an address stands in the instruction cache for this plot, and its target bit for the address is set (R176, R244). -/
def Lands (s : State) (plot : Nat) (t : DWord) : Prop :=
  canonical t.toNat = true ∧ t.toNat % 4 = 0 ∧ 2 ≤ t.toNat / 4 % 32 ∧
    ∃ l, iLine s s.cur.core (plotCtx s s.cur.core plot) t.toNat = some l ∧ targetOk l t.toNat = true
/-- These threads of a core have become one sheaf: each is a ready member of it, ranked by ascending slot. -/
def BecomeSheaf (s' : State) (ci : Nat) (l : List Nat) : Prop :=
  ∃ k, ∀ u ∈ l, ∃ new, getThread s' ci u = some new ∧ new.sheaf = some k ∧ new.st = .ready ∧ new.rank = (l.filter (· < u)).length
/-- A unit's trace port, if it has a place, has one more record (R411): its time is that of s. -/
def Recorded (s s' : State) (unit : Word) (type : Nat) (cid : DWord) (payload : Nat) : Prop :=
  (tgetD s.ports (portOf unit) []).length < 16 → tgetD s'.ports (portOf unit) [] = tgetD s.ports (portOf unit) [] ++
    [{ time := s.now, cid := cid, unit := unit, type := BitVec.ofNat 16 type, flags := 0, payload := BitVec.ofNat 64 payload }]
/-- What a load of a size code leaves in its registers from the bytes read, as a number (R230). -/
def loaded (code d v : Nat) : List (Nat × Word) :=
  match code with
  | 0 => [(d, BitVec.zeroExtend 32 (BitVec.ofNat 8 v))]
  | 1 => [(d, BitVec.zeroExtend 32 (BitVec.ofNat 16 v))]
  | 2 => [(d, BitVec.ofNat 32 v)]
  | 3 => [(d, BitVec.ofNat 32 v), (d + 1, BitVec.ofNat 32 (v >>> 32))]
  | 4 => [(d, BitVec.ofNat 32 v), (d + 1, BitVec.ofNat 32 (v >>> 32)), (d + 2, BitVec.ofNat 32 (v >>> 64)), (d + 3, BitVec.ofNat 32 (v >>> 96))]
  | 5 => [(d, BitVec.signExtend 32 (BitVec.ofNat 8 v))]
  | _ => [(d, BitVec.signExtend 32 (BitVec.ofNat 16 v))]
/-- One step of an integer or exchange atomic on 32 bits, by kind (R236). -/
def atomWord (kind : Nat) (m v u : Word) : Word :=
  match kind with
  | 0 => m + v
  | 1 => if v.slt m then v else m
  | 2 => if m.slt v then v else m
  | 3 => if v.ult m then v else m
  | 4 => if m.ult v then v else m
  | 5 => m &&& v
  | 6 => m ||| v
  | 7 => m ^^^ v
  | 8 => v
  | 9 => if m = u then v else m
  | _ => if v.ule m then 0 else m + 1
/-- One step of a reduction: the integer functions without flags, the float ones under a mode (R256). -/
def redOf (fn rm : Nat) (ftz : Bool) (acc x : Word) : Word × Word :=
  let a := acc.toNat
  let b := x.toNat
  let r := match fn with
    | 8 => flushOut fF32 ftz (fAdd fF32 rm false (inVal fF32 ftz false a) (inVal fF32 ftz false b))
    | n => fMinMax fF32 (n == 10) (inBits fF32 ftz false a) (inBits fF32 ftz false b)
  if fn < 8 then (atomWord fn acc x 0, 0) else (BitVec.ofNat 32 r.bits, BitVec.ofNat 32 r.fl)
/-- A reduction over values in the order of ranks, with the flags of all steps (R256). -/
def reduced (fn rm : Nat) (ftz : Bool) : List Word → Word × Word
  | [] => (0, 0)
  | x :: rest => rest.foldl (fun a y => let z := redOf fn rm ftz a.1 y; (z.1, a.2 ||| z.2)) (x, 0)
/-- One step of any atomic: the new memory value and the flags, from the old one (R236). -/
def atomNew (kind m : Nat) (x : AtomStep) : Nat × Nat :=
  let bf (k : Nat) : Res := fAdd fBf16 x.rm false (unpack fBf16 (m >>> (16 * k) % 2 ^ 16)) (unpack fBf16 (x.v.toNat >>> (16 * k) % 2 ^ 16))
  match kind with
  | 10 => ((BitVec.ofNat 64 m + x.v).toNat, 0)
  | 11 => let r := fAdd fF32 x.rm false (unpack fF32 m) (unpack fF32 x.v.toNat); (r.bits, r.fl)
  | 12 => ((bf 0).bits + 2 ^ 16 * (bf 1).bits, (bf 0).fl ||| (bf 1).fl)
  | 13 => let r := fMinMax fF32 true m x.v.toNat; (r.bits, r.fl)
  | 14 => let r := fMinMax fF32 false m x.v.toNat; (r.bits, r.fl)
  | k => ((atomWord k (BitVec.ofNat 32 m) (x.v.setWidth 32) x.u).toNat, 0)
/-- The memory value after the steps of a request in their order (R71). -/
def atomLeft (kind m : Nat) (l : List AtomStep) : Nat := l.foldl (fun m x => (atomNew kind m x).1) m
/-- The atomic instruction of each kind (R235). -/
def atomInstr (kind : Nat) (o : AtOp) : Instr :=
  match kind with
  | 0 => .atomAdd o
  | 1 => .atomMinI32 o
  | 2 => .atomMaxI32 o
  | 3 => .atomMinN32 o
  | 4 => .atomMaxN32 o
  | 5 => .atomAnd o
  | 6 => .atomOr o
  | 7 => .atomXor o
  | 8 => .atomXchg o
  | 9 => .atomCas o
  | 10 => .atomAddB64 o
  | 11 => .atomFaddF32 o
  | 12 => .atomFaddBf2 o
  | 13 => .atomFmaxF32 o
  | 14 => .atomFminF32 o
  | _ => .atomIncw o
/-- The step that a thread gives an atomic: its value, its compare value, its own rounding mode (R236, R237). -/
def atomStepOf (kind : Nat) (o : AtOp) (t : Nat) (th : Thread) : AtomStep :=
  { tid := t, v := if kind = 10 then pairOf2 th o.v else (sv2 th o.v).zeroExtend 64, u := rvAt th 2 o.d.toNat, rm := th.mode.toNat % 4 }
/-- What a returning atomic leaves its destination waiting for (R237). -/
def atomDest (kind id : Nat) (o : AtOp) : Effect :=
  if o.ret then { awaits := if kind = 10 then [o.d.toNat, o.d.toNat + 1] else [o.d.toNat], prod := id } else {}
/-- Instructions whose drills only compute registers and predicates. -/
def computes : Instr → Bool
  | .add _ | .sub _ | .mul _ | .mulhiI32 _ | .mulhiN32 _ | .minI32 _ | .maxI32 _ | .minN32 _ | .maxN32 _ | .and _ | .or _ | .xor _ | .andn _
  | .shl _ | .shr _ | .sar _ | .rotl _ | .bfeN32 _ | .bfeI32 _ | .bfi _ | .addB64 _ | .subB64 _ | .lea _ | .lea4 _ | .mulWideI32 _
  | .mulWideN32 _ | .mad _ | .clz _ | .popc _ | .brev _ | .mov _ | .icmpI32 _ | .icmpN32 _ | .addi _ | .muli _ | .andi _ | .ori _ | .xori _
  | .shli _ | .shri _ | .sari _ | .rotli _ | .miniI32 _ | .maxiI32 _ | .miniN32 _ | .maxiN32 _ | .icmpiI32 _ | .icmpiN32 _ | .leai _
  | .bfeiN32 _ | .bfeiI32 _ | .li _ | .liw _ | .fcmpF32 _ | .faddF32 _ | .fsubF32 _ | .fmulF32 _ | .ffmaF32 _ | .fminF32 _ | .fmaxF32 _
  | .frcp _ | .frsq _ | .fsqrt _ | .fex2 _ | .flg2 _ | .fsin _ | .fcos _ | .ftanh _ | .scacc _ | .cvt _ | .pkBf2 _ | .pkH2 _ | .pk8loE4m3 _
  | .pk8hiE4m3 _ | .pk8loE5m2 _ | .pk8hiE5m2 _ | .haddBf2 _ | .hmulBf2 _ | .hfmaBf2 _ | .haddH2 _ | .hmulH2 _ | .hfmaH2 _ | .fdivF32 _
  | .iota _ | .plop _ _ _ _ _ _ | .pmovRd _ _ | .pmovWr _ _ => true
  | _ => false
/-- The predicate that a compare writes. -/
def comparePred : Instr → Option PredNo
  | .icmpI32 o | .icmpN32 o | .fcmpF32 o => some o.pd
  | .icmpiI32 o | .icmpiN32 o => some o.pd
  | _ => none
end Sys2Proof.Machine
end

