-- ==== Sys2Proof/Certificates/Slice0/Obligations.lean ====
section
/-!
DEFINITION. The statements for the provers, from the spec's numbered rules.
-/
section Slice0
open Sys2Proof Sys2Proof.Machine

/-! ### Encoding -/

/-- R175, R178 to R195: the words of every well-formed instruction decode to it, every operand at every value, whatever words follow. -/
def Obligations.DecodeOfEncode : Prop :=
  ∀ (i : Instr) (rest : List Word), hasWords i = true → wellFormed i = true →
    decode (encode i ++ rest) = .ok (i, (encode i).length)

/-- R195: words that decode are those of one well-formed instruction and of no other: no bit of them is dropped. -/
def Obligations.EncodeOfDecode : Prop :=
  ∀ (ws : List Word) (i : Instr) (n : Nat), decode ws = .ok (i, n) → wellFormed i = true ∧ hasWords i = true ∧ encode i = ws.take n

/-- Words written out from the encoding tables: `add` (R180, R190), `liw` in two words (R186, R208), `br` (R184, R192), a load (R182), an
atomic (R183), `mma` in two words (R187), and `safe` in three (R192). -/
def Obligations.DecodedWords : Prop :=
  decode [0x00031D0A] = .ok (.add ⟨.lane, none, 3, ⟨7, false, true⟩, ⟨2, true, false⟩⟩, 1) ∧
  decode [0xF1140000, 0xDEADBEEF] = .ok (.liw ⟨.unif, none, 5, 0xDEADBEEF⟩, 2) ∧
  decode [0x41A00045] = .ok (.br ⟨true, 5, 2, 5⟩, 1) ∧
  decode [0x25068185] = .ok (.ld ⟨.lane, none, true, 2, 3, ⟨3, false, false⟩, 5⟩, 1) ∧
  decode [0x30040E11] = .ok (.atomAdd ⟨none, false, 2, ⟨1, true, true⟩, ⟨4, false, false⟩, true⟩, 1) ∧
  decode [0x51C00042, 0x11111111, 0x22222222] = .ok (.safe 1 2 0x11111111 0x22222222, 3) ∧
  decode [0x68100000, 0x08C61C04] = .ok (.fsubF32 ⟨.lane, some ⟨true, 0, false, 1, none, 0, false, false, false, false⟩, 6, ⟨7, false, false⟩, ⟨1, false, false⟩⟩, 2)

/-! ### Steps and reset -/

/-- A step in which no nap has a word to read again carries out the instruction that stands at the PC of the first issued drill: when the line that
holds it is in the core's instruction cache, or has just come for the thread, its header and its start mask are as R174 and R175 ask, no thread of the drill stands at an entry point that has not
been seen (R345), and the words decode, the step is exec of that instruction for that drill, with its length for the next PC (R176). -/
def Obligations.StepRunsTheInstruction : Prop :=
  ∀ (s : State) (d : Drill) (rest : List Drill) (t : Nat) (th : Thread) (l : Line) (i : Instr) (n : Nat),
    dueNap s = none → s.issued = d :: rest → d.tids.head? = some t → getThread s d.core t = some th →
    heldLine s d.core { th with pc := d.pc } = some l →
    (∀ u ∈ d.tids, ∀ x, getThread s d.core u = some x → x.fresh = false) →
    badHeader l = none → startOk l (d.pc.toNat / 4 % 32) (lengthOf (lineWords l (d.pc.toNat / 4 % 32))) = true →
    decode (lineWords l (d.pc.toNat / 4 % 32)) = .ok (i, n) →
    step s = exec i { s with issued := rest, cur := d, curLen := n }

/-- A nap whose word has been written is read again first; else, between drills, a step is the act of an agent on the agenda, or else what the
machine picks of itself (model's own order: log 2, 5). -/
def Obligations.StepRunsAgents : Prop :=
  (∀ (s : State) (i : Instr), dueNap s = some i → step s = exec i s) ∧
  (∀ (s : State) (i : Instr) (rest : List Instr), dueNap s = none → s.issued = [] → s.agenda = i :: rest → step s = exec i { s with agenda := rest }) ∧
  (∀ s : State, dueNap s = none → s.issued = [] → s.agenda = [] → step s = exec (pick s) { s with free := s.free + 1 })

/-- R77, R377: every step keeps memory in its canonical form: one byte at each address, none listed that reads as an unlisted one. -/
def Obligations.StepKeepsMemory : Prop := Keeps MemInv

/-- Every step keeps the tables of the state in order and the requests under numbers already given; the state after reset has it. -/
def Obligations.StepKeepsTables : Prop := Keeps WellKept ∧ WellKept State.reset

/-- R377, R378: what a reset leaves: memory scrubbed to zero, so in its canonical form with every byte 0; no plot, thread, queue, context,
frozen or saved plot, TLB entry, fallow store, or work in flight; device time 0. -/
def Obligations.ResetState : Prop :=
  MemInv State.reset ∧ (∀ a, memGet State.reset.mem a = 0) ∧
  (∀ ci, (getCore State.reset ci).threads = [] ∧ (getCore State.reset ci).plots = [] ∧ (getCore State.reset ci).tlb = [] ∧
    fallowBase (getCore State.reset ci) = none) ∧
  State.reset.queues = [] ∧ State.reset.frozen = [] ∧ State.reset.savedParts = [] ∧ State.reset.reqs = [] ∧ State.reset.runs = [] ∧
  State.reset.issued = [] ∧ State.reset.agenda = [] ∧ State.reset.now = 0 ∧
  (∀ ctx, ctx < 64 → reg64 State.reset (0x31000 + 16 * ctx) = 0)

/-! ### Integer instructions (11_isa_integer) -/

/-- R200, R201: sums, differences and products, wrapping, or under SAT clamped to i32 with IS.
R205, R206: high halves, 64-bit products and sums into pairs, addresses, and `mad` with its addend from C, negated under NC, or from D. -/
def Obligations.IntegerSums : Prop :=
  ((∀ o : RR,
     Computes (.add o) (fun x => if satOf o.px then toSum true o.d ((sv x o.a).toInt + (sv2 x o.b).toInt) else toReg o.d (sv x o.a + sv2 x o.b)) ∧
     Computes (.sub o) (fun x => if satOf o.px then toSum true o.d ((sv x o.a).toInt - (sv2 x o.b).toInt) else toReg o.d (sv x o.a - sv2 x o.b)) ∧
     Computes (.mul o) (fun x => if satOf o.px then toSum true o.d ((sv x o.a).toInt * (sv2 x o.b).toInt) else toReg o.d (sv x o.a * sv2 x o.b))) ∧
   (∀ o : RI,
     Computes (.addi o) (fun x => if satOf o.px then toSum true o.d ((sv x o.a).toInt + o.imm.toInt) else toReg o.d (sv x o.a + o.imm.signExtend 32)) ∧
     Computes (.muli o) (fun x => if satOf o.px then toSum true o.d ((sv x o.a).toInt * o.imm.toInt) else toReg o.d (sv x o.a * o.imm.signExtend 32)))) ∧
  ((∀ o : RR,
     Computes (.mulhiI32 o) (fun x => toReg o.d ((((sv x o.a).signExtend 64 * (sv2 x o.b).signExtend 64) >>> 32).setWidth 32)) ∧
     Computes (.mulhiN32 o) (fun x => toReg o.d ((((sv x o.a).zeroExtend 64 * (sv2 x o.b).zeroExtend 64) >>> 32).setWidth 32)) ∧
     Computes (.mulWideI32 o) (fun x => toPair o.d ((sv x o.a).signExtend 64 * (sv2 x o.b).signExtend 64)) ∧
     Computes (.mulWideN32 o) (fun x => toPair o.d ((sv x o.a).zeroExtend 64 * (sv2 x o.b).zeroExtend 64)) ∧
     Computes (.addB64 o) (fun x => toPair o.d (pairOf x o.a + pairOf2 x o.b)) ∧
     Computes (.subB64 o) (fun x => toPair o.d (pairOf x o.a - pairOf2 x o.b)) ∧
     Computes (.lea o) (fun x => toPair o.d (pairOf x o.a + (sv2 x o.b).signExtend 64)) ∧
     Computes (.lea4 o) (fun x => toPair o.d (pairOf x o.a + 4 * (sv2 x o.b).signExtend 64)) ∧
     Computes (.mad o) (fun x =>
       let c := match cOf o.px with
         | some c => (sv3 x c).toInt
         | none => (rvAt x 2 o.d.toNat).toInt
       toSum (satOf o.px) o.d ((sv x o.a).toInt * (sv2 x o.b).toInt + (if negC o.px then -c else c)))) ∧
   (∀ o : RI, Computes (.leai o) (fun x => toPair o.d (pairOf x o.a + o.imm.signExtend 64))))

/-- R200: the smaller and the larger, signed and unsigned, and the logic instructions, with a register or a sign-extended immediate.
R202: shifts by 0 to 63 with zero or sign fill, rotates by 0 to 31, by a register or an immediate count, as arithmetic on numbers;
an immediate form with a nonzero bit in [8:5] is an encoding fault of SUB 2. -/
def Obligations.IntegerLogicShifts : Prop :=
  ((∀ o : RR,
     Computes (.minI32 o) (fun x => toReg o.d (BitVec.ofInt 32 (min (sv x o.a).toInt (sv2 x o.b).toInt))) ∧
     Computes (.maxI32 o) (fun x => toReg o.d (BitVec.ofInt 32 (max (sv x o.a).toInt (sv2 x o.b).toInt))) ∧
     Computes (.minN32 o) (fun x => toReg o.d (BitVec.ofNat 32 (min (sv x o.a).toNat (sv2 x o.b).toNat))) ∧
     Computes (.maxN32 o) (fun x => toReg o.d (BitVec.ofNat 32 (max (sv x o.a).toNat (sv2 x o.b).toNat))) ∧
     Computes (.and o) (fun x => toReg o.d (bitsWord fun k => (sv x o.a).getLsbD k && (sv2 x o.b).getLsbD k)) ∧
     Computes (.or o) (fun x => toReg o.d (bitsWord fun k => (sv x o.a).getLsbD k || (sv2 x o.b).getLsbD k)) ∧
     Computes (.xor o) (fun x => toReg o.d (bitsWord fun k => (sv x o.a).getLsbD k != (sv2 x o.b).getLsbD k)) ∧
     Computes (.andn o) (fun x => toReg o.d (bitsWord fun k => (sv x o.a).getLsbD k && !(sv2 x o.b).getLsbD k))) ∧
   (∀ o : RI,
     Computes (.miniI32 o) (fun x => toReg o.d (BitVec.ofInt 32 (min (sv x o.a).toInt o.imm.toInt))) ∧
     Computes (.maxiI32 o) (fun x => toReg o.d (BitVec.ofInt 32 (max (sv x o.a).toInt o.imm.toInt))) ∧
     Computes (.miniN32 o) (fun x => toReg o.d (BitVec.ofNat 32 (min (sv x o.a).toNat (o.imm.signExtend 32).toNat))) ∧
     Computes (.maxiN32 o) (fun x => toReg o.d (BitVec.ofNat 32 (max (sv x o.a).toNat (o.imm.signExtend 32).toNat))) ∧
     Computes (.andi o) (fun x => toReg o.d (bitsWord fun k => (sv x o.a).getLsbD k && (o.imm.signExtend 32).getLsbD k)) ∧
     Computes (.ori o) (fun x => toReg o.d (bitsWord fun k => (sv x o.a).getLsbD k || (o.imm.signExtend 32).getLsbD k)) ∧
     Computes (.xori o) (fun x => toReg o.d (bitsWord fun k => (sv x o.a).getLsbD k != (o.imm.signExtend 32).getLsbD k)))) ∧
  ((∀ o : RR,
     Computes (.shl o) (fun x => toReg o.d (BitVec.ofNat 32 ((sv x o.a).toNat * 2 ^ ((sv2 x o.b).toNat % 64)))) ∧
     Computes (.shr o) (fun x => toReg o.d (BitVec.ofNat 32 ((sv x o.a).toNat / 2 ^ ((sv2 x o.b).toNat % 64)))) ∧
     Computes (.sar o) (fun x => toReg o.d (BitVec.ofInt 32 ((sv x o.a).toInt / 2 ^ ((sv2 x o.b).toNat % 64)))) ∧
     Computes (.rotl o) (fun x => let y := (sv x o.a).toNat * 2 ^ ((sv2 x o.b).toNat % 32); toReg o.d (BitVec.ofNat 32 (y % 2 ^ 32 + y / 2 ^ 32)))) ∧
   (∀ o : ShI,
     Computes (.shli o) (fun x => toReg o.d (BitVec.ofNat 32 ((sv x o.a).toNat * 2 ^ o.n.toNat))) ∧
     Computes (.shri o) (fun x => toReg o.d (BitVec.ofNat 32 ((sv x o.a).toNat / 2 ^ o.n.toNat))) ∧
     Computes (.sari o) (fun x => toReg o.d (BitVec.ofInt 32 ((sv x o.a).toInt / 2 ^ o.n.toNat))) ∧
     Computes (.rotli o) (fun x => let y := (sv x o.a).toNat * 2 ^ o.n.toNat; toReg o.d (BitVec.ofNat 32 (y % 2 ^ 32 + y / 2 ^ 32)))) ∧
   (∀ (o : ShI) (i : Instr) (m : BitVec 4) (pre rest : List Word) (w : Word), i ∈ [.shli o, .shri o, .sari o, .rotli o] → wellFormed i = true →
     encode i = pre ++ [w] → m ≠ 0 → decode (pre ++ (w ||| (m.zeroExtend 32 <<< 5)) :: rest) = .error .mustBeZero))

/-- R204: fields of n = min(len, 32 − pos) bits from bit pos, extracted with zero or sign fill, or inserted.
R203, R208: leading zeros, set bits, reversed bits, a move; constants of 18 bits sign-extended and of 32 bits. -/
def Obligations.BitFieldsCountsMoves : Prop :=
  ((∀ (o : RR),
     (let pos := fun x : Thread => (sv2 x o.b).toNat % 32
      let n := fun x : Thread => min ((sv2 x o.b).toNat / 32 % 32 + 1) (32 - pos x)
      Computes (.bfeN32 o) (fun x => toReg o.d (bitsWord fun k => decide (k < n x) && (sv x o.a).getLsbD (pos x + k))) ∧
      Computes (.bfeI32 o) (fun x => toReg o.d (bitsWord fun k => (sv x o.a).getLsbD (pos x + min k (n x - 1)))) ∧
      Computes (.bfi o) (fun x => toReg o.d (bitsWord fun k =>
        if pos x ≤ k ∧ k < pos x + n x then (sv x o.a).getLsbD (k - pos x) else (rvAt x 2 o.d.toNat).getLsbD k)))) ∧
   (∀ (o : BfI),
     (let n := min (o.lenM1.toNat + 1) (32 - o.pos.toNat)
      Computes (.bfeiN32 o) (fun x => toReg o.d (bitsWord fun k => decide (k < n) && (sv x o.a).getLsbD (o.pos.toNat + k))) ∧
      Computes (.bfeiI32 o) (fun x => toReg o.d (bitsWord fun k => (sv x o.a).getLsbD (o.pos.toNat + min k (n - 1))))))) ∧
  ((∀ o : R1,
     Computes (.clz o) (fun x => toReg o.d (BitVec.ofNat 32 (32 - (sv x o.a).toNat.size))) ∧
     Computes (.popc o) (fun x => toReg o.d (BitVec.ofNat 32 ((sv x o.a).toNat.bits.count true))) ∧
     Computes (.brev o) (fun x => toReg o.d (bitsWord fun k => (sv x o.a).getLsbD (31 - k))) ∧
     Computes (.mov o) (fun x => toReg o.d (sv x o.a))) ∧
   (∀ o : LiOp, Computes (.li o) (fun _ => toReg o.d (BitVec.ofInt 32 o.imm.toInt))) ∧
   (∀ o : LiwOp, Computes (.liw o) (fun _ => toReg o.d o.imm)))

/-- R181, R207: the six integer conditions, signed and unsigned, with a register or a sign-extended immediate, into a predicate (a write of
p0 is discarded). COND 6 and 7 are encoding faults of SUB 1. -/
def Obligations.IntegerCompares : Prop :=
  (∀ o : Cmp, o.cond.toNat < 6 →
    (let holds := fun (lt eq : Bool) => match o.cond.toNat with
       | 0 => eq
       | 1 => !eq
       | 2 => lt
       | 3 => lt || eq
       | 4 => !lt && !eq
       | _ => !lt
     Computes (.icmpI32 o) (fun x => toPred o.pd (holds (decide ((sv x o.a).toInt < (sv2 x o.b).toInt)) (decide (sv x o.a = sv2 x o.b)))) ∧
     Computes (.icmpN32 o) (fun x => toPred o.pd (holds (decide ((sv x o.a).toNat < (sv2 x o.b).toNat)) (decide (sv x o.a = sv2 x o.b)))))) ∧
  (∀ o : CmpI, o.cond.toNat < 6 →
    (let holds := fun (lt eq : Bool) => match o.cond.toNat with
       | 0 => eq
       | 1 => !eq
       | 2 => lt
       | 3 => lt || eq
       | 4 => !lt && !eq
       | _ => !lt
     let b : Word := o.imm.signExtend 32
     Computes (.icmpiI32 o) (fun x => toPred o.pd (holds (decide ((sv x o.a).toInt < b.toInt)) (decide (sv x o.a = b)))) ∧
     Computes (.icmpiN32 o) (fun x => toPred o.pd (holds (decide ((sv x o.a).toNat < b.toNat)) (decide (sv x o.a = b)))))) ∧
  (∀ (o : Cmp) (rest : List Word), 6 ≤ o.cond.toNat →
    (wellFormed (.icmpI32 { o with cond := 0 }) = true → decode (encode (.icmpI32 o) ++ rest) = .error .reservedValue) ∧
    (wellFormed (.icmpN32 { o with cond := 0 }) = true → decode (encode (.icmpN32 o) ++ rest) = .error .reservedValue)) ∧
  (∀ (o : CmpI) (rest : List Word), 6 ≤ o.cond.toNat →
    (wellFormed (.icmpiI32 { o with cond := 0 }) = true → decode (encode (.icmpiI32 o) ++ rest) = .error .reservedValue) ∧
    (wellFormed (.icmpiN32 { o with cond := 0 }) = true → decode (encode (.icmpiN32 o) ++ rest) = .error .reservedValue))

/-! ### Floating point (12_isa_float, 05_numbers_and_arithmetic) -/

/-- R112: one rounding of an exact nonzero dyadic value that does not pass the largest finite: the word is the correctly rounded one of the
format for the mode, and it has the value's sign. -/
def Obligations.RoundedOnce : Prop :=
  ∀ f ∈ [fF32, fF16, fBf16, fE4m3, fE5m2], ∀ (rm : Nat) (sat neg : Bool) (m : Nat) (e : Int), rm < 4 → m ≠ 0 →
    |fvRat (.fin neg m e)| ≤ valOf f f.maxFinite →
    RoundsTo f rm (fvRat (.fin neg m e)) (roundFin f rm sat neg m e).bits ∧ (roundFin f rm sat neg m e).bits.testBit f.signBit = neg

/-- R212, R215: sum, product, fused multiply-add and quotient of finite f32 operands are the exact results rounded once, where the exact
result is not zero and does not pass the largest finite. -/
def Obligations.ArithmeticRoundsExact : Prop :=
  ∀ (rm : Nat) (sat a b c : Bool) (m n k : Nat) (e g h : Int), rm < 4 →
    (let x := fvRat (.fin a m e)
     let y := fvRat (.fin b n g)
     let z := fvRat (.fin c k h)
     let ok := fun v : ℚ => v ≠ 0 ∧ |v| ≤ valOf fF32 fF32.maxFinite
     (ok (x + y) → RoundsTo fF32 rm (x + y) (fAdd fF32 rm sat (.fin a m e) (.fin b n g)).bits) ∧
     (ok (x * y) → RoundsTo fF32 rm (x * y) (fMul fF32 rm sat (.fin a m e) (.fin b n g)).bits) ∧
     (ok (x * y + z) → RoundsTo fF32 rm (x * y + z) (fFma fF32 rm sat (.fin a m e) (.fin b n g) (.fin c k h)).bits) ∧
     (y ≠ 0 → ok (x / y) → m < 2 ^ 24 → n < 2 ^ 24 → RoundsTo fF32 rm (x / y) (fDiv rm sat (.fin a m e) (.fin b n g)).bits))

/-- R110, R212, R215: the special results: a NaN operand and the invalid cases give the canonical NaN, NV for the invalid cases and for a
signalling NaN alone; a nonzero number divided by zero gives a signed infinity and DZ; exact zero sums are +0, −0 under RD, and keep a
common sign.
R216, R217: the special inputs of the approximate functions that a word shows. -/
def Obligations.FloatSpecials : Prop :=
  (∀ (rm : Nat) (sat a b : Bool) (v : FV) (m : Nat) (e g : Int), rm < 4 → m ≠ 0 →
     fAdd fF32 rm sat (.inf a) (.inf (!a)) = { bits := 0x7FC00000, fl := 1 } ∧
     fMul fF32 rm sat (.fin b 0 e) (.inf a) = { bits := 0x7FC00000, fl := 1 } ∧
     (fFma fF32 rm sat (.fin b 0 e) (.inf a) v).bits = 0x7FC00000 ∧ (fFma fF32 rm sat (.fin b 0 e) (.inf a) v).fl = 1 ∧
     fDiv rm sat (.fin a 0 e) (.fin b 0 g) = { bits := 0x7FC00000, fl := 1 } ∧
     fDiv rm sat (.inf a) (.inf b) = { bits := 0x7FC00000, fl := 1 } ∧
     fDiv rm sat (.fin a m e) (.fin b 0 g) = { bits := (if xor a b then 0xFF800000 else 0x7F800000), fl := 2 } ∧
     fSqrt rm (.fin true m e) = { bits := 0x7FC00000, fl := 1 } ∧ fSqrt rm (.fin true 0 e) = { bits := 0x80000000 } ∧
     (∀ sig, (fAdd fF32 rm sat v (.nan sig)).bits = 0x7FC00000 ∧ ((fAdd fF32 rm sat v (.nan sig)).fl = 1 ↔ sig = true ∨ v = .nan true)) ∧
     (fAdd fF32 rm sat (.fin a m e) (.fin (!a) m e)).bits = (if rm = 2 then 0x80000000 else 0) ∧
     (fAdd fF32 rm sat (.fin a 0 e) (.fin a 0 g)).bits = (if a then 0x80000000 else 0)) ∧
  (∀ (n : Int) (a : Bool) (e : Int) (s : Bool),
     fRcp (.fin a 0 e) = { bits := (if a then 0xFF800000 else 0x7F800000), fl := 2 } ∧ fRcp (.inf a) = { bits := (if a then 0x80000000 else 0) } ∧
     (fRsq (.fin a 0 e)).bits = (if a then 0xFF800000 else 0x7F800000) ∧ fRsq (.inf false) = { bits := 0 } ∧
     fEx2 (.inf true) = { bits := 0 } ∧ fEx2 (.inf false) = { bits := 0x7F800000 } ∧
     fEx2 (.fin false 1 7) = { bits := 0x7F800000, fl := 4 } ∧
     (-126 ≤ n → n < 128 → (fEx2 (.fin (decide (n < 0)) n.natAbs 0)) = { bits := (n + 127).toNat * 2 ^ 23 }) ∧
     fLg2 (.fin a 0 e) = { bits := 0xFF800000, fl := 2 } ∧ fLg2 (.inf false) = { bits := 0x7F800000 } ∧
     fTrig false (.inf a) = { bits := 0x7FC00000, fl := 1 } ∧ fTrig true (.fin a 0 e) = { bits := 0x3F800000 } ∧
     fTrig false (.fin a 0 e) = { bits := (if a then 0x80000000 else 0) } ∧
     (∀ b, fTanh b (.inf a) = { bits := (if a then 0xBF800000 else 0x3F800000) }) ∧
     fRcp (.nan s) = { bits := 0x7FC00000, fl := (if s then 1 else 0) } ∧ fEx2 (.nan s) = { bits := 0x7FC00000, fl := (if s then 1 else 0) })

/-- R209 to R216, R221 to R226: the floating, conversion and packing instructions complete: each writes D, or its predicate, with the result
of its operation on the operands of R211 and ORs in the flags of that result.
R102, R224 to R226: packed results: two rounded elements in the halves of D, two 8-bit elements in one half of D with the other kept, and
packed arithmetic on each element alone, the flags of both ORed. -/
def Obligations.FloatResults : Prop :=
  ((∀ o : RR,
     (let a := fun x : Thread => inVal fF32 (ftzOf x) (negA o.px) (sv x o.a).toNat
      let b := fun x : Thread => inVal fF32 (ftzOf x) (negB o.px) (sv2 x o.b).toNat
      let out := fun (x : Thread) (r : Res) => toRes o.d (flushOut fF32 (ftzOf x) r)
      let rm := fun x : Thread => rmOf o.px x.mode
      Computes (.faddF32 o) (fun x => out x (fAdd fF32 (rm x) (satOf o.px) (a x) (b x))) ∧
      Computes (.fsubF32 o) (fun x => out x (fAdd fF32 (rm x) (satOf o.px) (a x) (b x).neg)) ∧
      Computes (.fmulF32 o) (fun x => out x (fMul fF32 (rm x) (satOf o.px) (a x) (b x))) ∧
      Computes (.ffmaF32 o) (fun x => out x (fFma fF32 (rm x) (satOf o.px) (a x) (b x) (match cOf o.px with
        | some c => inVal fF32 (ftzOf x) (negC o.px) (sv3 x c).toNat
        | none => inVal fF32 (ftzOf x) false (rvAt x 2 o.d.toNat).toNat))) ∧
      Computes (.fdivF32 o) (fun x => toRes o.d (fDiv (rm x) (satOf o.px) (unpack fF32 (sv x o.a).toNat) (unpack fF32 (sv2 x o.b).toNat))) ∧
      Computes (.fminF32 o) (fun x => toRes o.d (fMinMax fF32 false (inBits fF32 (ftzOf x) (negA o.px) (sv x o.a).toNat) (inBits fF32 (ftzOf x) (negB o.px) (sv2 x o.b).toNat))) ∧
      Computes (.fmaxF32 o) (fun x => toRes o.d (fMinMax fF32 true (inBits fF32 (ftzOf x) (negA o.px) (sv x o.a).toNat) (inBits fF32 (ftzOf x) (negB o.px) (sv2 x o.b).toNat))) ∧
      Computes (.scacc o) (fun x => out x (fFma fF32 (rm x) (satOf o.px)
        (intFV (if negA o.px then -(sv x o.a).toInt else (sv x o.a).toInt) 0) (b x) (inVal fF32 (ftzOf x) false (rvAt x 2 o.d.toNat).toNat))))) ∧
   (∀ o : Cmp, Computes (.fcmpF32 o) (fun x =>
     let r := fCompare o.cond.toNat (inVal fF32 (ftzOf x) (negA o.px) (sv x o.a).toNat) (inVal fF32 (ftzOf x) (negB o.px) (sv2 x o.b).toNat)
     { preds := [(o.pd.toNat, r.1)], flags := BitVec.ofNat 32 r.2 })) ∧
   (∀ o : R1,
     (let out := fun (x : Thread) (f : FV → Res) => toRes o.d (approx f (ftzOf x) (sv x o.a))
      Computes (.fsqrt o) (fun x => toRes o.d (fSqrt (rmOf o.px x.mode) (unpack fF32 (sv x o.a).toNat))) ∧
      Computes (.frcp o) (fun x => out x fRcp) ∧ Computes (.frsq o) (fun x => out x fRsq) ∧
      Computes (.fex2 o) (fun x => out x fEx2) ∧ Computes (.flg2 o) (fun x => out x fLg2) ∧
      Computes (.fsin o) (fun x => out x (fTrig false)) ∧ Computes (.fcos o) (fun x => out x (fTrig true)) ∧
      Computes (.ftanh o) (fun x => out x (fTanh (flushIn fF32 (ftzOf x) (sv x o.a).toNat))))) ∧
   (∀ o : CvtOp, Computes (.cvt o) (fun x => toRes o.d (cvtWord o.dst.toNat o.src.toNat (rmOf o.px x.mode) (satOf o.px) (sv x o.a).toNat)))) ∧
  (∀ o : RR,
     (let two := fun (x : Thread) (code : Nat) =>
        (cvtFloat code (rmOf o.px x.mode) (satOf o.px) (unpack fF32 (sv x o.a).toNat), cvtFloat code (rmOf o.px x.mode) (satOf o.px) (unpack fF32 (sv2 x o.b).toNat))
      let wide := fun (x : Thread) (code : Nat) => toRes o.d { bits := (two x code).1.bits + 2 ^ 16 * (two x code).2.bits, fl := (two x code).1.fl ||| (two x code).2.fl }
      let low := fun (x : Thread) (code : Nat) => toRes o.d
        { bits := (rvAt x 2 o.d.toNat).toNat / 2 ^ 16 * 2 ^ 16 + 2 ^ 8 * (two x code).2.bits + (two x code).1.bits, fl := (two x code).1.fl ||| (two x code).2.fl }
      let high := fun (x : Thread) (code : Nat) => toRes o.d
        { bits := (rvAt x 2 o.d.toNat).toNat % 2 ^ 16 + 2 ^ 24 * (two x code).2.bits + 2 ^ 16 * (two x code).1.bits, fl := (two x code).1.fl ||| (two x code).2.fl }
      let half := fun (w : Word) (e : Nat) => (w >>> (16 * e)).toNat % 2 ^ 16
      let each := fun (x : Thread) (f : Fmt) (g : Nat → Bool → FV → FV → FV → Res) =>
        let r := fun e => flushOut f (ftzOf x) (g (rmOf o.px x.mode) (satOf o.px) (inVal f (ftzOf x) (negA o.px) (half (sv x o.a) e))
          (inVal f (ftzOf x) (negB o.px) (half (sv2 x o.b) e))
          (match cOf o.px with
            | some c => inVal f (ftzOf x) (negC o.px) (half (sv3 x c) e)
            | none => inVal f (ftzOf x) false (half (rvAt x 2 o.d.toNat) e)))
        toRes o.d { bits := (r 0).bits + 2 ^ 16 * (r 1).bits, fl := (r 0).fl ||| (r 1).fl }
      Computes (.pkBf2 o) (fun x => wide x 2) ∧ Computes (.pkH2 o) (fun x => wide x 1) ∧
      Computes (.pk8loE4m3 o) (fun x => low x 3) ∧ Computes (.pk8loE5m2 o) (fun x => low x 4) ∧
      Computes (.pk8hiE4m3 o) (fun x => high x 3) ∧ Computes (.pk8hiE5m2 o) (fun x => high x 4) ∧
      Computes (.haddBf2 o) (fun x => each x fBf16 fun rm sat a b _ => fAdd fBf16 rm sat a b) ∧
      Computes (.hmulBf2 o) (fun x => each x fBf16 fun rm sat a b _ => fMul fBf16 rm sat a b) ∧
      Computes (.hfmaBf2 o) (fun x => each x fBf16 (fFma fBf16)) ∧
      Computes (.haddH2 o) (fun x => each x fF16 fun rm sat a b _ => fAdd fF16 rm sat a b) ∧
      Computes (.hmulH2 o) (fun x => each x fF16 fun rm sat a b _ => fMul fF16 rm sat a b) ∧
      Computes (.hfmaH2 o) (fun x => each x fF16 (fFma fF16))))

/-! ### What a computing drill leaves alone -/

/-- R16, R45, R48, R52, R64: the frame of every instruction that only computes, for a drill in which no thread faults: other threads of the
core keep registers, predicates, flags and words; of the rest of the machine only the pipe's policy and the counter of free values change, and
of memory only slots of the core's fallow store, to which its banks may evict.
R15, R16, R41, R45, R199: a masked-off thread of a drill: it moves on with its last uses released and writes nothing, or under ZERO
writes 0 to the destination, false for a compare; in the uniform pipe without an active thread nothing executes and every thread moves on. -/
def Obligations.ComputingFrame : Prop :=
  (∀ (i : Instr) (s : State) (b : Nat), computes i = true → CleanDrill i s b →
     ∃ s', exec i s = .next s' ∧ CleanFrame i b s s' ∧
       (∀ u, u ∉ (drillThreads i s).map (·.1) → ∀ old, getThread s s.cur.core u = some old →
         ∃ new, getThread s' s.cur.core u = some new ∧ Untouched old new) ∧
       (∀ u old new, getThread s s.cur.core u = some old → getThread s' s.cur.core u = some new →
         new.cause = old.cause ∧ new.det0 = old.det0 ∧ new.det1 = old.det1 ∧ new.det2 = old.det2)) ∧
  ((∀ (i : Instr) (s : State) (u t : Nat) (x old : Thread), computes i = true → wellFormed i = true → Takes i s u x →
     t ∉ (activeThreads i s).map (·.1) → getThread s s.cur.core t = some old → old.stepping = none →
     (∃ y, (t, y) ∈ drillThreads i s ∧ offFault i (getCore s s.cur.core) (zeroOf i) y = none) →
     ∃ s', exec i s = .next s' ∧ MovesTo i (fun _ =>
       if zeroOf i then { regs := (writes i).map fun r => (r, 0), preds := (comparePred i).toList.map fun p => (p.toNat, false) } else {})
       (after s) s s' t) ∧
   (∀ (i : Instr) (s : State) (t : Nat) (old : Thread), computes i = true → isUnif s = true → activeThreads i s = [] →
     (∀ e ∈ drillThreads i s, e.2.stepping = none) → t ∈ (drillThreads i s).map (·.1) → getThread s s.cur.core t = some old →
     ∃ s' new, exec i s = .next s' ∧ getThread s' s.cur.core t = some new ∧ new.pc = after s ∧ new.st = .ready ∧ new.regs = old.regs ∧
       new.preds = old.preds ∧ new.ast = old.ast ∧ s'.mem = s.mem))

/-! ### Memory (03, 04, 13) -/

/-- R47, R227, R228, R230, R231: a scratchpad load that passes its checks: the destination is empty for the load, which holds the bytes of
its address; beside the LSU's cycles nothing else changes.
R66, R70, R78, R82, R230: a global load that passes its checks: a hit on usable bytes of the L1 takes them at once; a line that the L1 does
not hold takes an MSHR and its value is to come; the destination is empty either way. -/
def Obligations.Loads : Prop :=
  (∀ (o : LdOp) (s : State) (t : Nat) (th : Thread) (p : Nat), o.sp = true → o.size.toNat < 7 → Alone (.ld o) s t th →
     (let n := sizeBytes o.size.toNat
      checkScratch s s.cur.core th.plot (effAddr true o.a o.off n th) n n o.size.toNat false = .ok p →
      ∃ s0, LsuTaken s s0 ∧ ∃ q : LoadOp, Finishes (.ld o) s { s0 with nextId := s.nextId + 1, reqs := tput s.reqs s.nextId (.load q) } t
          { awaits := (List.range (sizeRegs o.size.toNat)).map fun k => o.d.toNat + k, prod := s.nextId } (after s) ∧
        q.core = s.cur.core ∧ q.dreg = o.d.toNat ∧ loadCode q = o.size.toNat ∧
        q.parts.map (fun x => (x.tid, x.data)) = [(t, some (memNat (getCluster s (clusterOf s.cur.core)).scratch p n))])) ∧
  (∀ (o : LdOp) (s : State) (t : Nat) (th : Thread) (loc : Loc), o.sp = false → o.size.toNat < 7 → Alone (.ld o) s t th → changing s s.cur.core = false →
     checkGlobal s s.cur.core th.plot (ldAcc o th) = .ok loc →
     (let n := sizeBytes o.size.toNat
      let l := l1Line s (l1Core s s.cur.core (lineKey loc)) (lineKey loc)
      let hit := !notCached loc && within (bytesMask (lineOff loc) n) (usable s (lineKey loc) l) && !blocked s s.nextId (s.nextId + 1) s.cur.core [t] (spanOf loc n)
      hit = true ∨ (l.dirty = 0 ∧ mshrFree s s.cur.core t th = true) →
      ∃ s0, LsuTaken s s0 ∧ ∃ q : LoadOp, Finishes (.ld o) s { s0 with nextId := s.nextId + 1, reqs := tput s.reqs s.nextId (.load q) } t
          { awaits := (List.range (sizeRegs o.size.toNat)).map fun k => o.d.toNat + k, prod := s.nextId } (after s) ∧
        q.core = s.cur.core ∧ q.dreg = o.d.toNat ∧ loadCode q = o.size.toNat ∧ q.mshr = (if hit then 0 else 1) ∧
        q.parts.map (fun x => (x.tid, x.loc, x.data)) =
          [(t, loc, if hit then some (l.data.toNat / 256 ^ lineOff loc % 256 ^ n) else none)]))

/-- R68, R77, R79, R83: a load's part served at its home on this device reads the bytes that stand in memory there, and the line comes
under lease until now plus its length, which doubles up to 16 µs.
R47, R230 to R232: when the last value of a load has come, every writer's destination fills: bytes zero- or sign-extended, pairs and
quads from the low register up, 0 for a masked-off thread under ZERO; the request is over. -/
def Obligations.LoadsReturn : Prop :=
  (∀ (s : State) (id tid pa : Nat) (q : LoadOp) (p : LoadPart), WellKept s → pa < 2 ^ 48 → tget s.reqs id = some (.load q) → q.parts = [p] → p.tid = tid → p.data = none →
     q.also = [] → s.bad = [] → p.loc = .here pa false → dieOf q.core = homeDie pa → blocked s id p.seq q.core [tid] (spanOf p.loc q.size) = false → pageBusy s p.loc = false →
     pa % 128 + q.size ≤ 128 → (∀ k, k < q.size → inSavedSlot s (pa + k) = false) →
     (pa < Config.hbmBytes → tgetD s.lineKeys (pa / 128 * 128) 0 = ctxKey s (plotCtx s q.core q.plot)) →
     ∃ s', exec (.homeLoadService id tid) s = .next s' ∧ (loadOf s' id).parts = [{ p with data := some (memNat s.mem pa q.size), bad := false }] ∧ s'.mem = s.mem ∧
       (homeOf s' (pa / 128 * 128)).ed = max (homeOf s (pa / 128 * 128)).ed (s.now + (homeOf s (pa / 128 * 128)).len) ∧
       (homeOf s' (pa / 128 * 128)).len = min (2 * (homeOf s (pa / 128 * 128)).len) Config.leaseMax) ∧
  (∀ (s : State) (id : Nat) (q : LoadOp) (t v : Nat) (th : Thread), WellKept s → tget s.reqs id = some (.load q) → v < 256 ^ q.size →
     SpillsOk s q.core → (∀ p ∈ q.parts, p.data.isSome = true ∧ p.bad = false) → q.due ≤ (getCore s q.core).cyc + 1 → q.nreg ≠ 0 → loadCode q < 7 →
     (q.parts.map (·.tid) ++ q.also ++ q.zeros).Nodup →
     ((∃ p ∈ q.parts, p.tid = t ∧ p.data = some v) ∨ (t ∈ q.also ∧ (q.parts.head?.bind (·.data)) = some v) ∨ (t ∈ q.zeros ∧ v = 0)) →
     getThread s q.core t = some th → (∀ x ∈ loaded (loadCode q) q.dreg v, ∃ c, tget th.regs x.1 = some c ∧ c.st = .empty ∧ c.prod = id) →
     ∃ s' new, exec (.loadDataReturn id) s = .next s' ∧ tget s'.reqs id = none ∧ getThread s' q.core t = some new ∧
       (∀ x ∈ loaded (loadCode q) q.dreg v, (tget new.regs x.1).map (·.val) = some x.2) ∧
       (∀ r, r ∉ (loaded (loadCode q) q.dreg v).map (·.1) → (tget new.regs r).map (·.val) = (tget th.regs r).map (·.val)) ∧
       new.pc = th.pc ∧ new.preds = th.preds)

/-- R62, R64, R90, R227, R228, R234: a scratchpad store by a drill in the lane pipe in which every active thread passes its checks: each byte
that an active thread stores holds the value of the last one in drill order that stores to it, its low bytes, lowest first; every other byte of
the cluster's scratchpad, and all of memory outside fallow slots, is as before.
R66, R81, R227, R228, R234: a global store that passes its checks, to a cacheable page, with room in the dirty FIFO: it is performed in
the core's L1: the bytes from its address on are dirty and hold the data's low bytes, the line's other bytes stand as they were, the line is in
the dirty FIFO; memory itself changes only when the line is drained. -/
def Obligations.Stores : Prop :=
  (∀ (o : StOp) (s : State) (b : Nat) (place : Nat → Nat), WellKept s → o.sp = true → o.size.toNat < 5 → isUnif s = false → CleanDrill (.st o) s b →
     (let n := sizeBytes o.size.toNat
      let act := activeThreads (.st o) s
      (∀ e ∈ act, checkScratch s s.cur.core e.2.plot (effAddr true o.a o.off n e.2) n n o.size.toNat true = .ok (place e.1)) →
      ∃ s', exec (.st o) s = .next s' ∧
        (∀ pre e post k, act = pre ++ e :: post → k < n → (∀ f ∈ post, ¬ (place f.1 ≤ place e.1 + k ∧ place e.1 + k < place f.1 + n)) →
          memGet (getCluster s' (clusterOf s.cur.core)).scratch (place e.1 + k) = BitVec.ofNat 8 (stData o e.2 / 256 ^ k)) ∧
        (∀ a, (∀ e ∈ act, ¬ (place e.1 ≤ a ∧ a < place e.1 + n)) →
          memGet (getCluster s' (clusterOf s.cur.core)).scratch a = memGet (getCluster s (clusterOf s.cur.core)).scratch a) ∧
        (∀ a, ¬ evictSlots (.st o) s b a → Spared (.st o) s b a → memGet s'.mem a = memGet s.mem a) ∧
        (∀ e ∈ act, MovesTo (.st o) (fun old => { sr := staleFlag (.st o) old }) (after s) s s' e.1))) ∧
  (∀ (o : StOp) (s : State) (t : Nat) (th : Thread) (loc : Loc), WellKept s → o.sp = false → o.size.toNat < 5 → Alone (.st o) s t th →
     changing s s.cur.core = false → checkGlobal s s.cur.core th.plot (stAcc o th) = .ok loc → (∀ pa, loc ≠ .here pa true) →
     (let n := sizeBytes o.size.toNat
      let k := l1Core s s.cur.core (lineKey loc)
      (tget (getCore s k).l1 (lineKey loc)).isSome = true → (getCore s k).fifo.length < Config.dirtyFifo →
      ∃ s1, Finishes (.st o) s s1 t {} (after s) ∧ s1.mem = s.mem ∧ s1.clusters = s.clusters ∧
        (∃ d ∈ (getCore s1 k).fifo, d.line = lineKey loc ∧ s.cur.core * 256 + t ∈ d.tids) ∧
        (∀ j, j < 128 → let new := l1Line s1 k (lineKey loc)
          let old := l1Line s k (lineKey loc)
          if lineOff loc ≤ j ∧ j < lineOff loc + n then
            new.dirty.getLsbD j = true ∧ new.data.toNat / 256 ^ j % 256 = stData o th / 256 ^ (j - lineOff loc) % 256
          else new.dirty.getLsbD j = old.dirty.getLsbD j ∧ new.valid.getLsbD j = old.valid.getLsbD j ∧
            new.data.toNat / 256 ^ j % 256 = old.data.toNat / 256 ^ j % 256)))

/-- R81, R84: draining the oldest line of a core's dirty FIFO sends its dirty bytes home and takes it out of the FIFO; R80: the home writes
exactly those bytes, sets the line's global write completion time past every lease granted on it, and its lease length back to the least.
R78, R100: when leases have ended, no L1 or L2 holds a clean byte under an ended lease; dirty bytes stay, and a line that holds nothing
is gone.
R70, R78, R233: a prefetch never faults and writes no register: with an address that fails a check it is dropped; of a cacheable line that
is not present, with an MSHR free, it asks for the line of 128 bytes; the thread moves on either way. -/
def Obligations.CachesAndLeases : Prop :=
  ((∀ (s : State) (ci : Nat) (d : Dirty) (rest : List Dirty), WellKept s → (getCore s ci).fifo = d :: rest →
     (let l := l1Line s ci d.line
      ∃ s' w, exec (.dirtyLineDrain ci) s = .next s' ∧ tget s'.reqs s.nextId = some (.wback w) ∧ w.core = ci ∧ w.line = d.line % 2 ^ 48 ∧
        w.data = l.data ∧ w.mask = l.dirty ∧ w.tids = d.tids ∧ (∀ e ∈ (getCore s' ci).fifo, e.line ≠ d.line) ∧ (l1Line s' ci d.line).dirty = 0 ∧ s'.mem = s.mem)) ∧
   (∀ (s : State) (id : Nat) (w : WBack), WellKept s → tget s.reqs id = some (.wback w) → wbBlocked s id w = false → pageBusy s (.here w.line false) = false → w.dev = none → w.line < 2 ^ 48 → w.line % 128 = 0 →
     (w.line < Config.hbmBytes → tgetD s.lineKeys w.line 0 = ctxKey s (match w.plots with
       | [] => 0
       | p :: _ => plotCtx s (p / 8) (p % 8))) →
     ∃ s', exec (.homeStorePerform id) s = .next s' ∧ tget s'.reqs id = none ∧
       (∀ k, k < 128 → memGet s'.mem (w.line + k) = if w.mask.getLsbD k then BitVec.ofNat 8 (w.data.toNat / 256 ^ k) else memGet s.mem (w.line + k)) ∧
       (∀ a, a < w.line ∨ w.line + 128 ≤ a → memGet s'.mem a = memGet s.mem a) ∧
       (homeOf s' w.line).gwct > max s.now (max (homeOf s w.line).ed (homeOf s w.line).ef) ∧ (homeOf s' w.line).len = Config.leaseMin)) ∧
  (∀ (s : State), ∃ s', exec .leaseExpiry s = .next s' ∧ s'.mem = s.mem ∧
     (∀ e ∈ s'.l2, s.now < e.2.expiry ∨ e.2.valid = 0) ∧
     (∀ c ∈ s'.cores, ∀ e ∈ c.2.l1, (s.now < e.2.expiry ∨ e.2.valid = 0) ∧ (e.2.valid ≠ 0 ∨ e.2.dirty ≠ 0) ∧
       ∃ d ∈ s.cores, d.1 = c.1 ∧ ∃ old ∈ d.2.l1, old.1 = e.1 ∧ e.2.dirty = old.2.dirty ∧ e.2.data = old.2.data)) ∧
  (∀ (o : PfOp) (s : State) (t : Nat) (th : Thread), Alone (.pf o) s t th → changing s s.cur.core = false →
     (let a := effAddr false o.a o.off 4 th
      (canonical a = false ∨ a % 4 ≠ 0 → Finishes (.pf o) s s t {} (after s)) ∧
      (∀ x pa, canonical a = true → a % 4 = 0 → tlbFind s s.cur.core (plotCtx s s.cur.core th.plot) a = some x → x.loc a = .here pa false →
        (let key := pa / 128 * 128
         let there := decide (usable s key (l1Line s (l1Core s s.cur.core key) key) ≠ 0)
         (there = true ∨ mshrFree s s.cur.core t th = false → Finishes (.pf o) s s t {} (after s)) ∧
         (there = false → mshrFree s s.cur.core t th = true →
           ∃ q : LoadOp, Finishes (.pf o) s { s with nextId := s.nextId + 1, reqs := tput s.reqs s.nextId (.load q) } t {} (after s) ∧
             q.nreg = 0 ∧ q.mshr = 1 ∧ q.size = 128 ∧ q.parts.map (·.loc) = [.here key false])))))

/-- R71, R236 to R238: a scratchpad atomic of every kind that passes its checks: its word, or double word for `add.b64`, holds the new value of
the kind's formula on the old one; the request holds the old value and the step's flags for the acknowledgement, and with RET the destination
is empty for it.
R70, R84, R237, R238: a global atomic of every kind that passes its checks and finds an MSHR: the line leaves the L1, the request holds
the thread's step for its home, and with RET the destination is empty for it. -/
def Obligations.Atomics : Prop :=
  (∀ (kind : Nat) (o : AtOp) (s : State) (t : Nat) (th : Thread) (p : Nat), WellKept s → kind < 16 → o.sp = true → Alone (atomInstr kind o) s t th →
     (let n := if kind = 10 then 8 else 4
      checkScratch s s.cur.core th.plot (effAddr true o.a 0 n th) n n (if kind = 10 then 3 else 2) true = .ok p →
      (let m := memNat (getCluster s (clusterOf s.cur.core)).scratch p n
       let x := atomStepOf kind o t th
       ∃ s0, LsuTaken s s0 ∧ ∃ q : AtomOp, Finishes (atomInstr kind o) s
           { scrWrite s0 s.cur.core p n (atomNew kind m x).1 with nextId := s.nextId + 2, reqs := tput s.reqs (s.nextId + 1) (.atomic q) } t
           (atomDest kind s.nextId o) (after s) ∧
         q.performed = true ∧ q.drill = s.nextId ∧ q.ret = o.ret ∧ q.kind = kind ∧ q.dreg = o.d.toNat ∧ q.core = s.cur.core ∧
         q.steps = [{ x with va := p, cells := cellsOf (atomInstr kind o) th, old := BitVec.ofNat 64 m, flags := BitVec.ofNat 32 (atomNew kind m x).2 }]))) ∧
  (∀ (kind : Nat) (o : AtOp) (s : State) (t : Nat) (th : Thread) (loc : Loc), WellKept s → kind < 16 → o.sp = false → Alone (atomInstr kind o) s t th →
     changing s s.cur.core = false → checkGlobal s s.cur.core th.plot (atAcc kind o th) = .ok loc → mshrFree s s.cur.core t th = true →
     (∃ s1, LsuTaken s s1 ∧ let s0 := flushLine { s1 with nextId := s.nextId + 1 } s.cur.core (lineKey loc)
      ∃ q : AtomOp, Finishes (atomInstr kind o) s { s0 with nextId := s0.nextId + 1, reqs := tput s0.reqs s0.nextId (.atomic q) } t
          (atomDest kind s.nextId o) (after s) ∧
        q.performed = false ∧ q.drill = s.nextId ∧ q.sp = false ∧ q.loc = loc ∧ q.ret = o.ret ∧ q.kind = kind ∧ q.dreg = o.d.toNat ∧ q.core = s.cur.core ∧
        q.steps = [{ atomStepOf kind o t th with va := (atAcc kind o th).addr, cells := cellsOf (atomInstr kind o) th }]))

/-- R71, R80, R84, R236, R238: a combined atomic is performed whole at its home on this device: the memory value passes through its steps in
their order, each step's old value and flags are kept, the line's GWCT lies past every lease, and no L1 of the core's nor its die's L2 keeps the line's clean bytes.
R83, R115, R236, R237: the acknowledgement of an atomic gives each thread its own step's flags and raises its horizon; with RET, once the
other requests of its drill are acknowledged (R47), its destination fills with the old value.
R71, R236: both acts go on in every state, whatever the request. -/
def Obligations.AtomicsPerformed : Prop :=
  (∀ (s : State) (id : Nat), (∃ s', exec (.atomicRequestPerform id) s = .next s') ∧ ∃ s', exec (.atomicAck id) s = .next s') ∧
  (∀ (s : State) (id pa : Nat) (q : AtomOp), WellKept s → (∀ x ∈ q.steps, q.kind ≠ 10 → x.v.toNat < 2 ^ 32) → atomOf s id = some q → q.kind < 16 → q.performed = false → q.sp = false → q.loc = .here pa false →
     pa % 128 + atomBytes q.kind ≤ 128 → (∀ k, k < atomBytes q.kind → inSavedSlot s (pa + k) = false) → blocked s id id q.core (q.steps.map (·.tid)) (spanOf q.loc (atomBytes q.kind)) = false → pageBusy s q.loc = false →
     (pa < Config.hbmBytes → tgetD s.lineKeys (pa / 128 * 128) 0 = ctxKey s (plotCtx s q.core q.plot)) → pa < 2 ^ 48 →
     (let n := atomBytes q.kind
      let m := memNat s.mem pa n
      ∃ s' r, exec (.atomicRequestPerform id) s = .next s' ∧ atomOf s' id = some r ∧ r.performed = true ∧
        memNat s'.mem pa n = atomLeft q.kind m q.steps % 256 ^ n ∧ (∀ a, a < pa ∨ pa + n ≤ a → memGet s'.mem a = memGet s.mem a) ∧
        r.steps.length = q.steps.length ∧
        (∀ (k : Nat) (x : AtomStep), q.steps[k]? = some x → r.steps[k]? =
          some { x with old := (BitVec.ofNat 64 (atomLeft q.kind m (q.steps.take k)) : DWord), flags := BitVec.ofNat 32 (atomNew q.kind (atomLeft q.kind m (q.steps.take k)) x).2 }) ∧
        r.gwct > max (homeOf s (pa / 128 * 128)).ed (homeOf s (pa / 128 * 128)).ef ∧ tget s'.l2 (dieOf q.core * 2 ^ 63 + pa / 128 * 128) = none ∧
        (let l := l1Line s' (l1Core s q.core (pa / 128 * 128)) (pa / 128 * 128); l.valid = l.dirty))) ∧
  (∀ (s : State) (id : Nat) (q : AtomOp) (x : AtomStep) (th : Thread), WellKept s → atomOf s id = some q → q.performed = true → q.acked = false →
     SpillsOk s q.core → (∀ e ∈ atomMates s q, e.1 ≠ id → e.2.acked = true ∧ x.tid ∉ e.2.steps.map (·.tid)) → q.due ≤ (getCore s q.core).cyc + 1 → (q.steps.map (·.tid)).Nodup → x ∈ q.steps → getThread s q.core x.tid = some th →
     (let dest : List (Nat × Word) := if q.ret then (if q.kind = 10 then [(q.dreg, x.old.setWidth 32), (q.dreg + 1, (x.old >>> 32).setWidth 32)] else [(q.dreg, x.old.setWidth 32)]) else []
      (∀ y ∈ dest, ∃ c, tget th.regs y.1 = some c ∧ c.st = .empty ∧ c.prod = q.drill) →
      ∃ s' new, exec (.atomicAck id) s = .next s' ∧ tget s'.reqs id = none ∧ getThread s' q.core x.tid = some new ∧
        (∀ y ∈ dest, (tget new.regs y.1).map (·.val) = some y.2) ∧
        (∀ r, r ∉ dest.map (·.1) → (tget new.regs r).map (·.val) = (tget th.regs r).map (·.val)) ∧
        new.ast = th.ast ||| x.flags ∧ new.horizon = max th.horizon q.gwct ∧ new.pc = th.pc))

/-- R61, R62, R75, R152, R228: an access that fails a check: the thread is parked at its instruction with a memory fault that names the first
failing check, the size code, the direction, the space and the address; no register of it is written or emptied. -/
def Obligations.AccessFaults : Prop :=
  ∀ (s : State) (t : Nat) (th : Thread) (f : FaultRec), (getCore s s.cur.core).frags = [] → (getCore s s.cur.core).fragWait = [] →
    (∀ o : LdOp, o.sp = true → Alone (.ld o) s t th →
      checkScratch s s.cur.core th.plot (ldAcc o th).addr (ldAcc o th).size (ldAcc o th).size o.size.toNat false = .error f →
      ∃ s', exec (.ld o) s = .next s' ∧ ParksWith f s s' t) ∧
    (∀ o : StOp, o.sp = true → Alone (.st o) s t th →
      checkScratch s s.cur.core th.plot (stAcc o th).addr (stAcc o th).size (stAcc o th).size o.size.toNat true = .error f →
      ∃ s', exec (.st o) s = .next s' ∧ ParksWith f s s' t ∧ s'.clusters = s.clusters) ∧
    (∀ o : StOp, o.sp = false → Alone (.st o) s t th → checkGlobal s s.cur.core th.plot (stAcc o th) = .fault f → changing s s.cur.core = false →
      ∃ s', exec (.st o) s = .next s' ∧ ParksWith f s s' t ∧ ∀ k, (getCore s' k).l1 = (getCore s k).l1) ∧
    (∀ a, canonical a.addr = false → checkGlobal s s.cur.core th.plot a = .fault (memFault 3 a.code a.wr false a.addr)) ∧
    (∀ a, canonical a.addr = true → a.addr % a.size ≠ 0 → checkGlobal s s.cur.core th.plot a = .fault (memFault 4 a.code a.wr false a.addr)) ∧
    (∀ addr n code wr, addr ≥ 2 ^ 22 → checkScratch s s.cur.core th.plot addr n n code wr = .error (memFault 5 code wr true addr))

/-! ### Synchronisation (15_isa_sync_engines) -/

/-- R86 to R89, R148, R260: a fence that finds nothing outstanding completes at once; else its thread waits behind a marker of the dirty FIFO
and goes on when what it waits for has ended; a lost fabric store is raised at a fabric-scope fence.
R117: `tfence` passes where no enabled flag is raised; with flags outstanding it waits; else it clears the enabled raised flags and raises
group 2 with them at this instruction. -/
def Obligations.Fences : Prop :=
  ((∀ (k sc : BitVec 3) (s : State) (t : Nat) (th : Thread), Alone (.fence k sc) s t th →
     ((sc ≠ 3 ∨ th.lostAt = none) →
       (fenceDone s s.cur.core t th k.toNat sc.toNat s.nextId = true → Finishes (.fence k sc) s s t {} (after s)) ∧
       (fenceDone s s.cur.core t th k.toNat sc.toNat s.nextId = false →
         FinishesWaiting (.fence k sc) s { s with nextId := s.nextId + 1 } t (.fence k.toNat sc.toNat s.nextId))) ∧
     (∀ a, sc = 3 → th.lostAt = some a → (getCore s s.cur.core).frags = [] →
       ∃ s', exec (.fence k sc) s = .next s' ∧ ParksWith (fabFault 2 a) s s' t ∧ ∀ new, getThread s' s.cur.core t = some new → new.lostAt = none)) ∧
   (∀ (s : State) (ci t k sc seq : Nat) (th : Thread), getThread s ci t = some th → th.st = .waiting (.fence k sc seq) → th.stepping = none →
     (sc ≠ 3 ∨ th.lostAt = none) →
     (fenceDone s ci t th k sc seq = true → ∃ s', exec (.fenceComplete ci t) s = .next s' ∧ WakesUp s s' ci t ∧ s'.mem = s.mem) ∧
     (fenceDone s ci t th k sc seq = false → exec (.fenceComplete ci t) s = .next s)) ∧
   (∀ (s : State) (ci t seq : Nat) (th : Thread) (sc id : Nat) (q : LoadOp) (p : LoadPart), fenceDone s ci t th 0 sc seq = true →
     (id, Req.load q) ∈ s.reqs → q.core = ci → p ∈ q.parts → p.tid = t → p.data.isSome = true) ∧
   (∀ (s : State) (ci t seq : Nat) (th : Thread) (k sc : Nat), 0 < k → k < 4 → 1 < sc → fenceDone s ci t th k sc seq = true →
     unperformed s ci t = false ∧ stnPending s ci t sc = false ∧
     (∀ id w, (id, Req.wback w) ∈ s.reqs → w.core ∈ storeCores s ci → w.seq < seq → w.dev.isSome = true ∧ sc ≠ 3) ∧
     (∀ c ∈ storeCores s ci, (∀ d ∈ (getCore s c).fifo, seq ≤ d.seq) ∧
       ∀ g ∈ (getCore s c).gwcts, g.1 < seq → g.2.1 < s.now ∨ (g.2.2 = true ∧ sc ≠ 3)))) ∧
  (∀ (s : State) (t : Nat) (th : Thread), Alone .tfence s t th →
     (let f := th.ast &&& th.aen &&& 0x3F
      (flagsOpen s s.cur.core t = true → FinishesWaiting .tfence s s t (.retry 1)) ∧
      (flagsOpen s s.cur.core t = false → f = 0 → Finishes .tfence s s t {} (after s)) ∧
      (flagsOpen s s.cur.core t = false → f ≠ 0 → (getCore s s.cur.core).frags = [] →
        ∃ s', exec .tfence s = .next s' ∧ ParksWith { group := 2, det0 := f } s s' t ∧
          ∀ new, getThread s' s.cur.core t = some new → new.ast = th.ast &&& ~~~f)))

/-- R91, R261: a sheaf barrier: an arrival that is not the last sets the member's bit and, where the mode waits, the member waits for the
phase; the last one ends the phase: its number rises, every bit is cleared, the arriving member and every waiting one go on; a parked member has not arrived (R158). A
solitary thread's arrival completes at once. -/
def Obligations.SheafBarrier : Prop :=
  ∀ (m b : BitVec 2) (s : State) (t : Nat) (th : Thread), m ≠ 3 → Alone (.bar m b) s t th → arriveReady s s.cur.core t = true → th.rejoin = [] →
    (th.sheaf = none → Finishes (.bar m b) s s t {} (after s)) ∧
    (∀ k sh, th.sheaf = some k → WellKept s → tget (getCore s s.cur.core).sheaves k = some sh → sh.rdv = none →
      (tgetD sh.outs b.toNat 0).testBit th.rank = false →
      (let c := getCore s s.cur.core
       let others := (members c k).filter fun e => e.1 != t
       let bits := (tgetD sh.outs b.toNat 0) ||| 2 ^ th.rank
       let phase := tgetD sh.phase b.toNat 0
       ((others.any fun e => !bits.testBit e.2.rank || isParked e.2) = true → (∀ e ∈ others, ∀ x n, e.2.st = .waiting (.barrier x n) → tgetD sh.phase x 0 = n) →
         (let s1 := putCore s s.cur.core { c with sheaves := tput c.sheaves k { sh with outs := tput sh.outs b.toNat bits } }
          if m = 1 then Finishes (.bar m b) s s1 t {} (after s) else FinishesWaiting (.bar m b) s s1 t (.barrier b.toNat phase))) ∧
       ((others.all fun e => bits.testBit e.2.rank && !isParked e.2 && e.2.stepping.isNone) = true →
         ∃ s' sh', exec (.bar m b) s = .next s' ∧ tget (getCore s' s.cur.core).sheaves k = some sh' ∧
           tgetD sh'.phase b.toNat 0 = (phase + 1) % 2 ^ 32 ∧ tgetD sh'.outs b.toNat 0 = 0 ∧
           (∃ new, getThread s' s.cur.core t = some new ∧ new.st = .ready ∧ new.pc = after s) ∧
           ∀ e ∈ others, e.1 ∉ s.cur.tids → e.2.st = .waiting (.barrier b.toNat phase) → WakesUp s s' s.cur.core e.1)))

/-- R134: an object's fields stand in its 16 bytes where the layout puts them, and reading them back gives what was put.
R136: phase n is done exactly where the 16-bit difference DONE − n, read as signed, is above 0.
R135, R136, R307: after an update of an object that is not broken, every waiter whose phase is done goes on and is counted out, every
other waits on. -/
def Obligations.ObjectPhases : Prop :=
  (∀ (s : State) (cl pos : Nat) (o : Obj), WellKept s → o.init < 2 ^ 14 → o.arr < 2 ^ 14 → o.wcnt < 2 ^ 16 → o.eng < 2 ^ 16 → o.done < 2 ^ 16 → o.lsrc < 2 ^ 16 →
     -(2 ^ 31) ≤ o.bytes → o.bytes < 2 ^ 31 →
     objAt (putObj s cl pos o) cl pos = o ∧
     memNat (getCluster (putObj s cl pos o) cl).scratch pos 4 = (if o.brk then 2 ^ 31 else 0) + o.init * 2 ^ 14 + o.arr ∧
     memNat (getCluster (putObj s cl pos o) cl).scratch (pos + 4) 4 = (o.bytes % 2 ^ 32).toNat ∧
     memNat (getCluster (putObj s cl pos o) cl).scratch (pos + 8) 4 = o.wcnt * 2 ^ 16 + o.eng ∧
     memNat (getCluster (putObj s cl pos o) cl).scratch (pos + 12) 4 = o.done * 2 ^ 16 + o.lsrc) ∧
  (∀ done n : Nat, phaseDone done n = true ↔ 0 < (BitVec.ofNat 16 done - BitVec.ofNat 16 n).toInt) ∧
  (∀ (s : State) (cl pos : Nat) (f : Obj → Obj), WellKept s →
     (let o := objStep (f (objAt s cl pos))
      let s' := objUpdate s cl pos f
      o.brk = false → objAt (putObj s cl pos o) cl pos = o → (∀ w ∈ objWaiters s cl pos, ∃ th, getThread s w.1 w.2.1 = some th ∧ th.stepping = none) →
      (objWaiters s cl pos).length ≤ o.wcnt →
      (∀ w ∈ objWaiters s cl pos, phaseDone o.done w.2.2 = true → WakesUp s s' w.1 w.2.1) ∧
      (∀ w ∈ objWaiters s cl pos, phaseDone o.done w.2.2 = false → getThread s' w.1 w.2.1 = getThread s w.1 w.2.1) ∧
      objAt s' cl pos = { o with wcnt := o.wcnt - ((objWaiters s cl pos).filter fun w => phaseDone o.done w.2.2).length }))

/-- R135 to R137, R264, R265: the barrier-object instructions on an object that no thread waits on: `init`, `arrive`, `due`, `wait` and `test`
change the fields as the table says, a phase with nothing missing completes, and each misuse is an engine fault of SUB 8, a broken object one
of SUB 9. -/
def Obligations.BarrierObjects : Prop :=
  ∀ (p : Pipe) (px : Option Px) (a b : Src) (d : RegNo) (s : State) (t : Nat) (th : Thread) (pos : Nat),
    checkScratch s s.cur.core th.plot (sv th a).toNat 16 16 4 true = .ok pos → checkScratch s s.cur.core th.plot (sv th a).toNat 16 16 4 false = .ok pos →
    objWaiters s (clusterOf s.cur.core) pos = [] → (getCore s s.cur.core).frags = [] →
    (let o : AbOp := ⟨p, px, a, b⟩
     let cl := clusterOf s.cur.core
     let x := objAt s cl pos
     let n := (sv2 th b).toNat
     let due := x.bytes + (sv2 th b).toInt
     let put := fun y => putObj s cl pos y
     (Alone (.abarInit o) s t th → x.wcnt = 0 → x.eng = 0 → 0 < n → n ≤ 16383 →
       Finishes (.abarInit o) s (put { x with done := 0, brk := false, init := n, arr := n, bytes := 0 }) t {} (after s)) ∧
     (Alone (.abarInit o) s t th → x.wcnt ≠ 0 ∨ x.eng ≠ 0 ∨ n = 0 ∨ n > 16383 →
       ∃ s', exec (.abarInit o) s = .next s' ∧ ParksWith (engFault 8 0 0 (sv th a).toNat 0) s s' t ∧ s'.clusters = s.clusters) ∧
     (Alone (.abarArrive p px a) s t th → th.relSeq = none → releaseDone s s.cur.core t 1 s.nextId = true → x.arr ≠ 0 →
       Finishes (.abarArrive p px a) s (put (if x.arr = 1 ∧ x.bytes = 0 then { x with done := (x.done + 1) % 2 ^ 16, arr := x.init, lsrc := s.cur.core * 4 + t / 64 }
         else { x with arr := x.arr - 1, lsrc := s.cur.core * 4 + t / 64 })) t {} (after s)) ∧
     (Alone (.abarArrive p px a) s t th → th.relSeq = none → releaseDone s s.cur.core t 1 s.nextId = true → x.arr = 0 →
       ∃ s', exec (.abarArrive p px a) s = .next s' ∧ ParksWith (engFault 8 0 0 (sv th a).toNat 0) s s' t ∧ s'.clusters = s.clusters) ∧
     (Alone (.abarArrive p px a) s t th → th.relSeq = none → releaseDone s s.cur.core t 1 s.nextId = false →
       FinishesWaiting (.abarArrive p px a) s { s with nextId := s.nextId + 1, walked := s.walked ++ [{ s.cur with tids := [t] }] } t (.fences [t])) ∧
     (Alone (.abarDue o) s t th → -(2 ^ 31) ≤ due → due < 2 ^ 31 →
       Finishes (.abarDue o) s (put (if x.arr = 0 ∧ due = 0 then { x with done := (x.done + 1) % 2 ^ 16, arr := x.init, bytes := 0 } else { x with bytes := due })) t {} (after s)) ∧
     (Alone (.abarWait o) s t th → x.brk = false → phaseDone x.done (n % 2 ^ 16) = true → Finishes (.abarWait o) s s t {} (after s)) ∧
     (Alone (.abarWait o) s t th → x.brk = false → phaseDone x.done (n % 2 ^ 16) = false →
       FinishesWaiting (.abarWait o) s (put { x with wcnt := x.wcnt + 1 }) t (.abar pos (n % 2 ^ 16))) ∧
     (Alone (.abarTest o d) s t th → x.brk = false → Finishes (.abarTest o d) s s t (toReg d (if phaseDone x.done (n % 2 ^ 16) then 1 else 0)) (after s)) ∧
     (Alone (.abarTest o d) s t th → x.brk = true →
       ∃ s', exec (.abarTest o d) s = .next s' ∧ ParksWith (engFault 9 0 0 (sv th a).toNat 0) s s' t))

/-- R56 to R59, R266 to R268: `arm` leaves a register armed, or as it is where it is armed; `rput` to a live rank of the field queues the
deposit at the target's core; a queued deposit whose register is armed fills it, its counter rises, and a `ctr.wait` that the counter reaches
goes on; `ctr.rd` reads the counter, 0 for a solitary thread. -/
def Obligations.DepositsAndCounters : Prop :=
  (∀ (p : Pipe) (px : Option Px) (d : RegNo) (s : State) (t : Nat) (th : Thread), Alone (.arm p px d) s t th →
    ((∀ c, tget th.regs d.toNat = some c → c.armed = false) → Finishes (.arm p px d) s s t { awaits := [d.toNat], armed := true } (after s)) ∧
    ((∃ c, tget th.regs d.toNat = some c ∧ c.armed = true) → Finishes (.arm p px d) s s t {} (after s))) ∧
  (∀ (o : AbOp) (s : State) (t : Nat) (th : Thread) (tc k : Nat), Alone (.rput o) s t th →
    (let h := (sv2 th o.b).toNat
     let w := (rvAt th 1 (o.b.reg.toNat + 1)).toNat
     let c := getCore s tc
     let sh := tgetD c.sheaves k {}
     resolveHandle s s.cur.core th h = .live tc k → (w.testBit 31 = true ∨ ∃ m ∈ members c k, m.2.rank = w % 32) →
     (getPlot (getCore s s.cur.core) th.plot).run = (getPlot c sh.plot).run → (getPlot (getCore s s.cur.core) th.plot).node = (getPlot c sh.plot).node →
     c.deposits.length < Config.depositSlots →
     Finishes (.rput o) s (putCore s tc { c with deposits := c.deposits ++
       [{ sheaf := k, rank := w % 32, reg := w / 2 ^ 6 % 64, ctr := w / 2 ^ 12 % 4, all := w.testBit 31, val := sv th o.a }] }) t {} (after s))) ∧
  (∀ (s : State) (ci : Nat) (d : Deposit) (rest : List Deposit) (m : Nat × Thread) (sh : Sheaf), WellKept s → (getCore s ci).deposits = d :: rest →
    (∀ x ∈ d :: rest, (tget (getCore s ci).sheaves x.sheaf).isSome = true) → tget (getCore s ci).sheaves d.sheaf = some sh → depositReady (getCore s ci) d = true →
    m ∈ members (getCore s ci) d.sheaf → (d.all = true ∨ m.2.rank = d.rank) → (∀ x n, m.2.st ≠ .waiting (.counter x n)) →
    ∃ s' new, exec (.depositPerform ci) s = .next s' ∧ getThread s' ci m.1 = some new ∧ (tget new.regs d.reg).map (fun c => (c.st, c.val)) = some (.full, d.val) ∧
      (getCore s' ci).deposits = rest ∧ ∃ sh', tget (getCore s' ci).sheaves d.sheaf = some sh' ∧ tgetD sh'.ctr d.ctr 0 = tgetD sh.ctr d.ctr 0 + 1) ∧
  (∀ (o : CtrWaitOp) (s : State) (t : Nat) (th : Thread), Alone (.ctrWait o) s t th →
    (let v := ctrOf (getCore s s.cur.core) th o.c.toNat
     (0 ≤ (v - sv th o.a).toInt → Finishes (.ctrWait o) s s t {} (after s)) ∧
     ((v - sv th o.a).toInt < 0 → FinishesWaiting (.ctrWait o) s s t (.counter o.c.toNat (sv th o.a))))) ∧
  (∀ (p : Pipe) (px : Option Px) (d : RegNo) (c : BitVec 2), ComputesIn (.ctrRd p px d c) (fun s x => toReg d (match x.sheaf with
    | none => 0
    | some k => tgetD (tgetD (getCore s s.cur.core).sheaves k {}).ctr c.toNat 0)))

/-- R269: `nap` on a scratchpad word: where the word meets its condition against b it ends as an acquire fence does, at once where no earlier load
of the thread is open; else it waits; a later reading that meets the condition ends it so. R270: `wpw` goes on where the channel's pointer has reached its target, else it waits. -/
def Obligations.Naps : Prop :=
  (∀ (px : Option Px) (cond : BitVec 3) (a b : Src) (s : State) (t : Nat) (th : Thread) (pos : Nat), cond.toNat < 6 → Alone (.nap px cond true a b) s t th →
    checkScratch s s.cur.core th.plot (sv th a).toNat 4 4 4 false = .ok pos →
    (let m : Word := BitVec.ofNat 32 (memNat (getCluster s (clusterOf s.cur.core)).scratch pos 4)
     let v := sv2 th b
     let holds := [m = v, m ≠ v, m.toInt < v.toInt, v.toInt ≤ m.toInt, m.toNat < v.toNat, v.toNat ≤ m.toNat].getD cond.toNat False
     (holds → loadsOpen s s.cur.core t = false → Finishes (.nap px cond true a b) s s t {} (after s)) ∧
     (holds → loadsOpen s s.cur.core t = true → FinishesWaiting (.nap px cond true a b) s { s with nextId := s.nextId + 1 } t (.fence 0 2 s.nextId)) ∧
     (¬ holds → FinishesWaiting (.nap px cond true a b) s s t (.nap true pos cond.toNat v m)))) ∧
  (∀ (s : State) (ci t pos cond : Nat) (v last : Word) (th : Thread), getThread s ci t = some th → th.st = .waiting (.nap true pos cond v last) → th.stepping = none →
    (let m : Word := BitVec.ofNat 32 (memNat (getCluster s (clusterOf ci)).scratch pos 4)
     changing s ci = false → napHolds cond m v = true →
     (loadsOpen s ci t = false → ∃ s', exec (.napWordRecheck ci t) s = .next s' ∧ WakesUp s s' ci t) ∧
     (loadsOpen s ci t = true → ∃ s' new, exec (.napWordRecheck ci t) s = .next s' ∧ getThread s' ci t = some new ∧ new.st = .waiting (.fence 0 2 s.nextId)))) ∧
  (∀ (px : Option Px) (a : Src) (ch : BitVec 4) (s : State) (t : Nat) (th : Thread), Alone (.wpw px a ch) s t th →
    (getPlot (getCore s s.cur.core) th.plot).hdr.copych.testBit ch.toNat = true →
    (let w := (tgetD (getCluster s (clusterOf s.cur.core)).channels ch.toNat {}).wptr
     ((pairOf th a).toNat ≤ w → Finishes (.wpw px a ch) s s t {} (after s)) ∧
     (w < (pairOf th a).toNat → FinishesWaiting (.wpw px a ch) s s t (.pointer ch.toNat (pairOf th a).toNat))))

/-- R135, R241, R242, R273: `ldsp` and `stn` to an object that no thread waits on: past their checks, the object is credited, the request is on
its way and no register changes; when the `ldsp` has its bytes they are written in one piece and the object is debited; an `stn` is performed
at its home, and its object is debited when its GWCT has passed. -/
def Obligations.ObjectTransfers : Prop :=
  (∀ (o : LdspOp) (s : State) (t : Nat) (th : Thread) (loc : Loc) (dst obj : Nat), o.size.toNat < 3 → Alone (.ldsp o) s t th →
    (let n := exBytes o.size
     let ci := s.cur.core
     let cl := clusterOf ci
     let l := l1Line s (l1Core s ci (lineKey loc)) (lineKey loc)
     changing s ci = false → checkGlobal s ci th.plot (ldspAcc o th) = .ok loc → checkScratch s ci th.plot (sv2 th o.s).toNat n n (o.size.toNat + 2) true = .ok dst →
     checkScratch s ci th.plot (sv3 th o.obj).toNat 16 16 4 true = .ok obj → objWaiters s cl obj = [] → WellKept s →
     (l.dirty = 0 ∧ l.valid = 0 ∧ mshrFree s ci t th = true) →
     (let x := objAt s cl obj
      ∃ s0, LsuTaken s s0 ∧ ∃ q : LdspReq, Finishes (.ldsp o) s (putObj { s0 with nextId := s.nextId + 2, reqs := tput s.reqs (s.nextId + 1) (.ldsp q) } cl obj
          (objStep { x with bytes := x.bytes + n, eng := (x.eng + 1) % 2 ^ 16 })) t {} (after s) ∧
        q.src = loc ∧ q.dst = dst ∧ q.obj = obj ∧ q.size = n ∧ q.data = none ∧ q.tid = t ∧ q.core = ci))) ∧
  (∀ (s : State) (id v : Nat) (q : LdspReq), WellKept s → tget s.reqs id = some (.ldsp q) → q.data = some v → v < 256 ^ q.size →
    (∀ e ∈ s.reqs, e.1 < id → ∀ r, e.2 = .ldsp r → ldspAfter q r = false) →
    (q.dst + q.size ≤ q.obj ∨ q.obj + 16 ≤ q.dst) → objWaiters s (clusterOf q.core) q.obj = [] →
    (let cl := clusterOf q.core
     let x := objAt s cl q.obj
     ∃ s', exec (.ldspWrite id) s = .next s' ∧ tget s'.reqs id = none ∧ memNat (getCluster s' cl).scratch q.dst q.size = v ∧
       s' = putObj (scrWrite { s with reqs := tdel s.reqs id } q.core q.dst q.size v) cl q.obj
         (objStep { x with bytes := x.bytes - q.size, eng := (x.eng + 2 ^ 16 - 1) % 2 ^ 16, lsrc := q.core * 4 + q.slot }))) ∧
  (∀ (o : StnOp) (s : State) (t : Nat) (th : Thread) (loc : Loc) (obj : Nat), o.size.toNat < 3 → Alone (.stn o) s t th →
    (let n := exBytes o.size
     let ci := s.cur.core
     let cl := clusterOf ci
     changing s ci = false → checkGlobal s ci th.plot (stnAcc o th) = .ok loc → checkScratch s ci th.plot (sv3 th o.obj).toNat 16 16 4 true = .ok obj →
     objWaiters s cl obj = [] → mshrFree s ci t th = true → WellKept s →
     (∃ s1, LsuTaken s s1 ∧ let x := objAt s cl obj
      let s0 := flushLine { s1 with nextId := s.nextId + 1 } ci (lineKey loc)
      ∃ q : StnReq, Finishes (.stn o) s (putObj { s0 with nextId := s0.nextId + 1, reqs := tput s0.reqs s0.nextId (.stn q) } cl obj
          (objStep { x with bytes := x.bytes + n, eng := (x.eng + 1) % 2 ^ 16 })) t {} (after s) ∧
        q.dst = loc ∧ q.obj = obj ∧ q.size = n ∧ q.gwct = none ∧ q.data.toNat = regsNat th o.v.reg.toNat (n / 4) ∧ q.tid = t ∧ q.core = ci))) ∧
  (∀ (s : State) (id pa : Nat) (q : StnReq), WellKept s → tget s.reqs id = some (.stn q) → q.dst = .here pa false → pa < 2 ^ 48 → pa % 128 + q.size ≤ 128 → q.size ≤ 16 →
    (q.gwct = none → q.due ≤ (getCore s q.core).cyc + 1 → blocked s id id q.core (q.tid :: q.also) (spanOf q.dst q.size) = false → pageBusy s q.dst = false →
      (pa < Config.hbmBytes → tgetD s.lineKeys (pa / 128 * 128) 0 = ctxKey s (plotCtx s q.core q.plot)) →
      ∃ s' r, exec (.stnCompletion id) s = .next s' ∧ tget s'.reqs id = some (.stn r) ∧ memNat s'.mem pa q.size = q.data.toNat % 256 ^ q.size ∧
        (∀ a, a < pa ∨ pa + q.size ≤ a → memGet s'.mem a = memGet s.mem a) ∧
        ∃ g, r.gwct = some g ∧ g > max s.now (max (homeOf s (pa / 128 * 128)).ed (homeOf s (pa / 128 * 128)).ef)) ∧
    (∀ g, q.gwct = some g → g < s.now → q.ack ≤ (getCore s q.core).cyc + 1 → objWaiters s (clusterOf q.core) q.obj = [] →
      (let cl := clusterOf q.core
       let x := objAt s cl q.obj
       exec (.stnCompletion id) s = .next (putObj { s with reqs := tdel s.reqs id } cl q.obj
         (objStep { x with bytes := x.bytes - q.size, eng := (x.eng + 2 ^ 16 - 1) % 2 ^ 16, lsrc := 3 * 2 ^ 14 + deviceNo s % 2 ^ 14 })))))

/-! ### Control and threads (14_isa_control_threads) -/

/-- R176, R184, R243 to R245: a taken branch or call goes to its target where that is a marked target whose line is in hand, a call writing
the address after it to v62 and v63; a thread whose guard is false goes on to the next instruction; `brx` and `callx` take the target from the
pair; `nop` only goes on. A target that is not marked is a control-flow fault at the transfer. -/
def Obligations.Transfers : Prop :=
  (∀ (o : BrOp) (s : State) (t : Nat) (th : Thread),
    (let target : DWord := BitVec.ofInt 64 (((s.cur.pc.toNat / 128 : Nat) : Int) + o.delta.toInt) * 128 + 4 * o.word.zeroExtend 64
     let link : List (Nat × Word) := [(62, (after s).setWidth 32), (63, (after s >>> 32).setWidth 32)]
     (Takes (.br o) s t th → (∀ e ∈ activeThreads (.br o) s, e.2.plot = th.plot) → Lands s th.plot target →
       ∃ s', exec (.br o) s = .next s' ∧ MovesTo (.br o) (fun _ => {}) target s s' t) ∧
     (Takes (.call o) s t th → (∀ e ∈ activeThreads (.call o) s, e.2.plot = th.plot) → Lands s th.plot target →
       ∃ s', exec (.call o) s = .next s' ∧ MovesTo (.call o) (fun _ => { regs := link }) target s s' t) ∧
     (∀ i, i = .br o ∨ i = .call o → (t, th) ∈ drillThreads i s → (th.preds.getLsbD o.pred.toNat || o.pred == 0) = o.neg → th.stepping = none → isUnif s = false → SpillsOk s s.cur.core →
       ∃ s', exec i s = .next s' ∧ MovesTo i (fun _ => {}) (after s) s s' t) ∧
     (Alone (.br o) s t th → (getCore s s.cur.core).frags = [] →
       (canonical target.toNat = false ∨ target.toNat / 4 % 32 < 2 ∨
         ∃ l, iLine s s.cur.core (plotCtx s s.cur.core th.plot) target.toNat = some l ∧ targetOk l target.toNat = false) →
       ∃ s', exec (.br o) s = .next s' ∧ ParksWith (flowFault target) s s' t))) ∧
  (∀ (o : IndOp) (s : State) (t : Nat) (th : Thread), Lands s th.plot (pairOf th o.a) →
    (Alone (.brx o) s t th → Finishes (.brx o) s s t {} (pairOf th o.a)) ∧
    (Alone (.callx o) s t th → Finishes (.callx o) s s t { regs := [(62, (after s).setWidth 32), (63, (after s >>> 32).setWidth 32)] } (pairOf th o.a))) ∧
  (∀ (p : Pipe) (px : Option Px), Computes (.nop p px) fun _ => {})

/-- R28, R38, R83, R246: a taken `spawn` whose earlier accesses are performed, whose target is marked, and that finds a place: the child stands
there with the target as its PC, the spawner's values in v0 to v7 and nothing else, predicates and flags clear, mode, enables and horizon of
the spawner, the device time as its age; the spawner goes on.
R22, R39, R43, R249: a solitary thread's `join` with a count of 2 to 32 that finds no gathering of its key opens one in the lowest free
bin and waits in it; one that finds its key's gathering one thread short closes it: all its threads become one sheaf, ranked by slot, each with
its rank in the register it named, ready after its `join`. A count above 32 is a sheaf fault. -/
def Obligations.SpawnsAndJoins : Prop :=
  (∀ (o : BrOp) (s : State) (t u b : Nat) (th : Thread), Alone (.spawn o) s t th → unperformed s s.cur.core t = false → WellKept s →
     (let target : DWord := BitVec.ofInt 64 (((s.cur.pc.toNat / 128 : Nat) : Int) + o.delta.toInt) * 128 + 4 * o.word.zeroExtend 64
      let c := getCore s s.cur.core
      Lands s th.plot target → spawnBin c th.plot th.role target.toNat = none → lowestFree Config.binCount (tkeys c.bins) = some b →
      pickSlot c th.plot th.role (bestSlot fun k => (freeSlots c th.plot th.role k).length) = some u →
      ∃ s' child, exec (.spawn o) s = .next s' ∧ getThread s' s.cur.core u = some child ∧ child.pc = target ∧
        (∀ r, r < 8 → (tget child.regs r).map (·.val) = (tget th.regs r).map (·.val)) ∧ (∀ r, 8 ≤ r → tget child.regs r = none) ∧
        child.preds = 1 ∧ child.ast = 0 ∧ child.mode = th.mode ∧ child.aen = th.aen ∧ child.horizon = th.horizon ∧ child.plot = th.plot ∧
        child.role = th.role ∧ child.age = s.now ∧ child.sheaf = none ∧
        (tgetD (getCore s' s.cur.core).bins b {}).members = [u] ∧ MovesTo (.spawn o) (fun _ => {}) (after s) s s' t)) ∧
  (∀ (o : SyRR) (s : State) (t : Nat) (th : Thread), WellKept s → Alone (.join o) s t th → th.sheaf = none →
     (∀ e ∈ (getCore s s.cur.core).threads, e.2.stepping = none) → tsorted (getCore s s.cur.core).bins = true →
     (let c := getCore s s.cur.core
      let n := (sv2 th o.b).toNat
      let key := (sv th o.a).toNat
      peakReg c th (lastRegs (.join o)) [o.d.toNat] = none →
      (n > 32 → c.frags = [] → ∃ s', exec (.join o) s = .next s' ∧ ParksWith (sheafFault 5 0xFFFFFFFF) s s' t) ∧
      (∀ b, 2 ≤ n → n ≤ 32 → joinBin c th.plot th.role (t / 64) key = none → lowestFree Config.binCount (tkeys c.bins) = some b →
        (∀ e ∈ c.threads, ∀ x d, e.2.st = .waiting (.gathering x d) → e.2.sheaf = none) →
        ∃ s' x, exec (.join o) s = .next s' ∧ WaitsFor (.join o) (.gathering b o.d.toNat) s s' t ∧ tget (getCore s' s.cur.core).bins b = some x ∧
          x.isJoin = true ∧ x.count = n ∧ x.key = key ∧ x.members = [t] ∧ x.plot = th.plot ∧ x.role = th.role ∧ x.slot = t / 64) ∧
      (∀ b x, 1 < n → n ≤ 32 → joinBin c th.plot th.role (t / 64) key = some b → tget c.bins b = some x → x.count = n → x.members.length + 1 = n →
        (x.members ++ [t]).Nodup → (∀ u ∈ x.members, u ∉ s.cur.tids ∧ ∃ w d, getThread s s.cur.core u = some w ∧ w.st = .waiting (.gathering b d) ∧ w.sheaf = none ∧ w.stepping = none) →
        (∃ e, e < 64 ∧ (tget c.sheaves (t / 64 * 64 + e)).isNone = true) → (∀ u ∈ x.members, u / 64 = t / 64) → SpillsOk s s.cur.core →
        ∃ s', exec (.join o) s = .next s' ∧ BecomeSheaf s' s.cur.core (x.members ++ [t]) ∧ (tget (getCore s' s.cur.core).bins b).isNone = true ∧
          (∃ new, getThread s' s.cur.core t = some new ∧ new.pc = after s ∧ (tget new.regs o.d.toNat).map (·.val) = some (BitVec.ofNat 32 new.rank)) ∧
          (∀ u ∈ x.members, ∀ w d, getThread s s.cur.core u = some w → w.st = .waiting (.gathering b d) →
            ∃ new, getThread s' s.cur.core u = some new ∧ new.pc = w.nextPc ∧ (tget new.regs d).map (·.val) = some (BitVec.ofNat 32 new.rank)))))

/-- R11, R20, R43, R247, R250: after `exit` the thread is gone, its slot is free, and results still in flight are for no slot; after `leave` it is solitary with its registers' values, and
its sheaf goes on without it, or dissolves when it was the last member. -/
def Obligations.ExitsAndLeaves : Prop :=
  (∀ (px : Option Px) (s : State) (t : Nat) (th : Thread), WellKept s → Alone (.exit px) s t th →
    ∃ s', exec (.exit px) s = .next s' ∧ getThread s' s.cur.core t = none ∧
      (th.sheaf = none → th.serves = none → RestOf (.exit px) (updCore { s with reqs := tmap s.reqs fun _ r => orphanReq s.cur.core t r } s.cur.core fun c => { c with
        threads := tdel c.threads t
        gathers := c.gathers.map fun g => { g with tids := g.tids.filter (· != t) }
        mops := c.mops.map fun m => { m with tids := m.tids.filter (· != t), reads := m.reads.map fun u => if u = some t then none else u }
        fifo := c.fifo.map fun d => { d with tids := d.tids.filter (· != s.cur.core * 256 + t) }
        joins := c.joins.map fun m => { m with tids := m.tids.filter (· != t) }
        tops := c.tops.map fun m => { m with tids := m.tids.filter (· != t), shares := m.shares.filter fun e => m.kind != 4 || e.1 != t }
        tblLoads := c.tblLoads.map fun m => { m with tids := m.tids.filter (· != t) } }) s')) ∧
  (∀ (px : Option Px) (s : State) (t : Nat) (th : Thread), WellKept s → Alone (.leave px) s t th →
    (th.sheaf = none → Finishes (.leave px) s s t {} (after s)) ∧
    (∀ k, th.sheaf = some k → (tget (getCore s s.cur.core).sheaves k).isSome = true →
      ∃ s' old new, exec (.leave px) s = .next s' ∧ getThread s s.cur.core t = some old ∧ getThread s' s.cur.core t = some new ∧
        new.sheaf = none ∧ new.pc = after s ∧ new.st = .ready ∧
        (∀ r, (tget new.regs r).map (·.val) = (tget old.regs r).map (·.val)) ∧ new.preds = old.preds ∧
        ((tget (getCore s' s.cur.core).sheaves k).isNone = true ↔ (members (getCore s s.cur.core) k).map (·.1) = [t])))

/-- R18, R33, R252: `fuse` of a solitary thread or of 0 cycles only goes on; of a sheaf's member it holds the thread until every live, unparked
member is held there, when all go on together; `yield` marks its threads as low-priority until n cycles on.
R18, R22, R29, R249: when a hold's cycles have passed its holders go on together and the hold is over; when a gathering of count 0 or a spawn
bin meets its timer its threads become one sheaf, ready, and the bin is free. -/
def Obligations.FuseYieldAndHolds : Prop :=
  ((∀ (n : BitVec 16) (s : State) (t : Nat) (th : Thread), WellKept s → Alone (.fuse n) s t th →
     (th.sheaf = none → Finishes (.fuse n) s s t {} (after s)) ∧
     (∀ k sh, th.sheaf = some k → n ≠ 0 → tget (getCore s s.cur.core).sheaves k = some sh → sh.fuses.any (fun f => f.1 == s.cur.pc) = false →
       (let others := (members (getCore s s.cur.core) k).filter fun e => e.1 != t
        (∃ e ∈ others, ∀ x, e.2.st ≠ .parked x ∧ e.2.st ≠ .waiting (.fuse x)) →
        (∀ e ∈ others, e.1 ∉ s.cur.tids) →
          FinishesWaiting (.fuse n) s (updCore s s.cur.core fun c => { c with sheaves := tput c.sheaves k { sh with fuses := sh.fuses ++ [(s.cur.pc, c.cyc, n.toNat)] } }) t (.fuse s.cur.pc))) ∧
     (∀ k sh, th.sheaf = some k → n ≠ 0 → tget (getCore s s.cur.core).sheaves k = some sh → sh.fuses.map (·.1) = [s.cur.pc] →
       (let others := (members (getCore s s.cur.core) k).filter fun e => e.1 != t
        (∀ e ∈ others, e.2.st = .waiting (.fuse s.cur.pc) ∧ e.2.stepping = none ∧ e.1 ∉ s.cur.tids) →
          ∃ s', exec (.fuse n) s = .next s' ∧ (∀ e ∈ others, WakesUp s s' s.cur.core e.1) ∧
            ∃ new, getThread s' s.cur.core t = some new ∧ new.st = .ready ∧ new.pc = after s))) ∧
   (∀ (n : BitVec 16) (s : State) (t : Nat) (th : Thread), Takes (.yield n) s t th → isUnif s = false →
     ∃ s' new, exec (.yield n) s = .next s' ∧ MovesTo (.yield n) (fun _ => {}) (after s) s s' t ∧
       getThread s' s.cur.core t = some new ∧ new.lowUntil = some ((getCore s s.cur.core).cyc + n.toNat))) ∧
  ((∀ (s : State) (ci k : Nat) (pc : DWord) (f : DWord × Nat × Nat) (sh : Sheaf), WellKept s → tget (getCore s ci).sheaves k = some sh →
     sh.fuses.find? (fun f => f.1 == pc) = some f → f.2.1 + f.2.2 ≤ (getCore s ci).cyc → (∀ e ∈ members (getCore s ci) k, e.2.stepping = none) →
     ∃ s', exec (.fuseHoldExpiry ci k pc) s = .next s' ∧ (∀ e ∈ members (getCore s ci) k, e.2.st = .waiting (.fuse pc) → WakesUp s s' ci e.1) ∧
       ∀ sh', tget (getCore s' ci).sheaves k = some sh' → ∀ g ∈ sh'.fuses, g.1 ≠ pc) ∧
   (∀ (s : State) (ci b : Nat) (x : Bin), WellKept s → tget (getCore s ci).bins b = some x → tsorted (getCore s ci).bins = true → x.members.Nodup → x.members ≠ [] →
     binTimer (getPlot (getCore s ci) x.plot) x.role + x.first ≤ (getCore s ci).cyc → (∃ e, e < 64 ∧ ∀ u ∈ x.members, u / 64 = x.slot ∧ (tget (getCore s ci).sheaves (x.slot * 64 + e)).isNone = true) →
     (∀ u ∈ x.members, ∃ w d, getThread s ci u = some w ∧ w.st = .waiting (.gathering b d) ∧ w.sheaf = none ∧ w.stepping = none ∧ w.moving = none) → SpillsOk s ci →
     (x.isJoin = true → x.count = 0 → ∃ s', exec (.joinBinTimerExpiry ci b) s = .next s' ∧ BecomeSheaf s' ci x.members ∧ (tget (getCore s' ci).bins b).isNone = true ∧
       ∀ u ∈ x.members, ∀ w d, getThread s ci u = some w → w.st = .waiting (.gathering b d) →
         ∃ new, getThread s' ci u = some new ∧ new.pc = w.nextPc ∧ (tget new.regs d).map (·.val) = some (BitVec.ofNat 32 new.rank)) ∧
     (x.isJoin = false → ∃ s', exec (.spawnBinTimerExpiry ci b) s = .next s' ∧ BecomeSheaf s' ci x.members ∧ (tget (getCore s' ci).bins b).isNone = true)))

/-! ### Sheaf collectives and shapes (14_isa_control_threads) -/

/-- R254: the rank passes: each member receives the value that the member of its source rank holds in A, or its own where that rank is not
live; a rotation steps over the gaps; a masked-off member of a `passi` writes nothing.
R255 to R257: votes: some, every, agree into a predicate, the mask of ranks and the count into D; a reduction folds the values in the order
of ranks, a scan gives the partial results, exclusive from the identity, with RM and FTZ of the lowest rank and the flags of every step;
`alike` gives the ranks of equal values or the lowest of them. -/
def Obligations.RankExchange : Prop :=
  ((∀ o : SyRR,
     (let n := fun x : Thread => (sv2 x o.b).toNat
      Exchanges (.passAt o) (fun (ms : List (Nat × Thread)) (x : Thread) => rankPassed o.d o.a ms x (n x % 32 : Nat)) ∧
      Exchanges (.passOff o) (fun (ms : List (Nat × Thread)) (x : Thread) => rankPassed o.d o.a ms x (x.rank + (if n x % 64 < 32 then (n x % 64 : Int) else (n x % 64 : Int) - 64))) ∧
      Exchanges (.passFlip o) (fun (ms : List (Nat × Thread)) (x : Thread) => rankPassed o.d o.a ms x ((x.rank ^^^ (n x % 32) : Nat) : Int)) ∧
      Exchanges (.passRot o) (fun (ms : List (Nat × Thread)) (x : Thread) => rankPassed o.d o.a ms x (rotated ms x (n x % 32))))) ∧
   (∀ o : PassI,
     Exchanges (.passiAt o) (fun (ms : List (Nat × Thread)) (x : Thread) => rankPassed o.d o.a ms x o.n.toNat) ∧
     Exchanges (.passiFlip o) (fun (ms : List (Nat × Thread)) (x : Thread) => rankPassed o.d o.a ms x ((x.rank ^^^ o.n.toNat : Nat) : Int)) ∧
     Exchanges (.passiRot o) (fun (ms : List (Nat × Thread)) (x : Thread) => rankPassed o.d o.a ms x (rotated ms x o.n.toNat))) ∧
   (∀ o : PassOff, Exchanges (.passiOff o) (fun (ms : List (Nat × Thread)) (x : Thread) => rankPassed o.d o.a ms x (x.rank + o.n.toInt))) ∧
   (∀ (o : PassI) (q : PassOff) (i : Instr) (s : State) (t u : Nat) (x old : Thread), i = .passiAt o ∨ i = .passiFlip o ∨ i = .passiRot o ∨ i = .passiOff q →
     s.cur.coll = true → isUnif s = false → zeroOf i = false → Takes i s u x → t ∉ (activeThreads i s).map (·.1) →
     (∃ y, (t, y) ∈ drillThreads i s ∧ offFault i (getCore s s.cur.core) (zeroOf i) y = none) →
     getThread s s.cur.core t = some old → old.stepping = none →
     ∃ s', exec i s = .next s' ∧ MovesTo i (fun old => { sr := staleFlag i old }) (after s) s s' t)) ∧
  ((∀ (px : Option Px) (d : RegNo) (fn : BitVec 3) (neg : Bool) (k : PredNo), fn.toNat < 5 → Exchanges (.poll px d fn neg k) (fun (ms : List (Nat × Thread)) (_ : Thread) =>
     let q := fun m : Nat × Thread => (m.2.preds.getLsbD k.toNat || k == 0) != neg
     let pd := d.toNat / 8
     match fn.toNat with
     | 0 => { preds := [(pd, ms.any q)] }
     | 1 => { preds := [(pd, ms.all q)] }
     | 2 => { preds := [(pd, ms.all q || ms.all fun m => !q m)] }
     | 3 => toReg d (bitsWord fun r => ms.any fun m => m.2.rank == r && q m)
     | _ => toReg d (BitVec.ofNat 32 (ms.countP q)))) ∧
   (∀ (px : Option Px) (d : RegNo) (a : Src) (fn : BitVec 4), fn.toNat < 11 → Exchanges (.sred px d a fn) (fun (ms : List (Nat × Thread)) (_ : Thread) =>
     let lead : Thread := (ms.head?.map (·.2)).getD {}
     let r := reduced fn.toNat (lead.mode.toNat % 4) (lead.mode.getLsbD 2) (ms.map fun m => sv m.2 a)
     { regs := [(d.toNat, r.1)], flags := r.2 })) ∧
   (∀ (px : Option Px) (d : RegNo) (a : Src) (exc : Bool) (fn : BitVec 4), fn.toNat < 11 → Exchanges (.sscan px d a exc fn) (fun (ms : List (Nat × Thread)) (x : Thread) =>
     let lead : Thread := (ms.head?.map (·.2)).getD {}
     let r := fun n => reduced fn.toNat (lead.mode.toNat % 4) (lead.mode.getLsbD 2) ((ms.take n).map fun m => sv m.2 a)
     let p := ms.countP fun m => decide (m.2.rank < x.rank)
     let v := if exc then (if p = 0 then [0, 0x7FFFFFFF, 0x80000000, 0xFFFFFFFF, 0, 0xFFFFFFFF, 0, 0, 0x80000000, 0x7F800000, 0xFF800000].getD fn.toNat 0 else (r p).1)
       else (r (p + 1)).1
     { regs := [(d.toNat, v)], flags := (r ms.length).2 })) ∧
   (∀ (px : Option Px) (d : RegNo) (a : Src) (lead : Bool), Exchanges (.alike px d a lead) (fun (ms : List (Nat × Thread)) (x : Thread) => toReg d
     (if lead then BitVec.ofNat 32 (((ms.find? fun m => sv m.2 a == sv x a).map (·.2.rank)).getD 0)
      else bitsWord fun r => ms.any fun m => m.2.rank == r && sv m.2 a == sv x a))))

/-- R23, R253: a collective before its rendezvous is complete: an arriving thread that fails no check waits, its registers untouched, and its sheaf counts it; where
members wait at another collective it takes a sheaf fault of SUB 1. R258: `shape` reads a tag, `expand` makes a register general in the
whole sheaf (in a sheaf of one every register is uniform, R39), `bcast` gives the lowest-ranked active thread's value, `iota` a + b × rank.
R163, R251: `regroup` when every thread of the role has arrived and none holds an empty register: in the order of key, then thread slot, each
key's run becomes sheaves of Z threads; every participant stands in a new slot with its registers, predicates and age, and waits while as many
cycles as there are participants move them; then its new rank is in D and it is ready at the next instruction. Where the sheaves do not fit, every participant takes a resource fault of SUB 4. -/
def Obligations.ShapesAndRegroups : Prop :=
  ((∀ (i : Instr) (kind : Nat) (s : State) (t : Nat) (th : Thread), collKind i = some kind → s.cur.coll = false → isUnif s = false → drillThreads i s = [(t, th)] →
     th.joinRegs = [] →
     ((kind ≠ 1 → (if actOn i th then preFault i s [] th else offFault i (getCore s s.cur.core) false th) = none) →
       (∀ o, i = .regroup o → emptyTrap th (reads i) = none ∧ regroupCheck s.cur.core (getCore s s.cur.core) th o.d.toNat (lastRegs i) = none) → mismatch (getCore s s.cur.core) t th s.cur.pc kind = none →
       ∃ s' new, exec i s = .next s' ∧ getThread s' s.cur.core t = some new ∧ new.st = .waiting .rendezvous ∧ new.pc = th.pc ∧ new.regs = th.regs ∧
         new.preds = th.preds ∧ s'.mem = s.mem ∧
         ∀ k sh, th.sheaf = some k → tget (getCore s s.cur.core).sheaves k = some sh → ∃ sh' r, tget (getCore s' s.cur.core).sheaves k = some sh' ∧
           sh'.rdv = some (s.cur.pc, kind, r) ∧ t ∈ r) ∧
     (∀ p, mismatch (getCore s s.cur.core) t th s.cur.pc kind = some p → (getCore s s.cur.core).frags = [] → (getCore s s.cur.core).fragWait = [] → th.stepping = none →
       ∃ s', exec i s = .next s' ∧ ParksWith (sheafFault 1 (threadHandle s.cur.core (getCore s s.cur.core) th) p) s s' t)) ∧
   (∀ o : SyR1, ComputesIn (.shape o) (fun s x => toReg o.d (match tget x.regs o.a.reg.toNat with
     | none => 3
     | some c => if sheafSize (getCore s s.cur.core) x ≤ 1 then 1 else (match c.tag with
       | .general => 0
       | .uniform => 1
       | .affine _ _ => 2)))) ∧
   (∀ (o : SyD) (s : State) (t : Nat) (th : Thread), Takes (.expand o) s t th → isUnif s = false →
     ∃ s', exec (.expand o) s = .next s' ∧ MovesTo (.expand o) (fun old => { sr := staleFlag (.expand o) old }) (after s) s s' t ∧
       ∀ k, th.sheaf = some k → (tget th.regs o.d.toNat).isSome = true → ∀ u new x, getThread s' s.cur.core u = some new → new.sheaf = some k →
         tget new.regs o.d.toNat = some x →
           x.tag = (if (members (getCore s s.cur.core) k).length ≤ 1 then .uniform else .general) ∧ x.uni = false) ∧
   (∀ (o : SyR1) (s : State) (t u : Nat) (th lead : Thread), Takes (.bcast o) s t th → isUnif s = false → (activeThreads (.bcast o) s).head? = some (u, lead) →
     ∃ s', exec (.bcast o) s = .next s' ∧
       MovesTo (.bcast o) (fun old => { toReg o.d (sv lead o.a) with sr := staleFlag (.bcast o) old }) (after s) s s' t) ∧
   (∀ o : SyRR, Computes (.iota o) (fun x => toReg o.d (sv x o.a + sv2 x o.b * BitVec.ofNat 32 x.rank)))) ∧
  (∀ (o : SyR1) (s : State) (pl ro : Nat), s.cur.coll = true → WellKept s → s.cur.tids.Nodup →
     (let i : Instr := .regroup o
      let ci := s.cur.core
      let c := getCore s ci
      let ms := drillThreads i s
      let z := max 1 (roleInfo (getPlot c pl) ro).z
      let key := fun e : Nat × Thread => (sv e.2 o.a).toNat % 2 ^ 16
      let place := fun e : Nat × Thread => ms.countP fun f => key f == key e && decide (f.1 < e.1)
      let fit := placeAll (freeTines c pl ro (ms.map (·.1))) ((regroupPlan z (ms.map fun e => (e.1, key e))).map (·.length)) []
      ms ≠ [] → ro < 5 → (∀ e ∈ ms, e.1 < 256 ∧ e.2.plot = pl ∧ e.2.role = ro ∧ e.2.stepping = none ∧ ∀ r ∈ e.2.regs, r.2.st ≠ .empty) →
      (∀ e ∈ c.threads, e.2.plot = pl → e.2.role = ro → e.1 ∈ ms.map (·.1)) →
      (∀ q, ((tkeys c.sheaves).filter fun k => k / 64 == q && ms.all fun e => e.2.sheaf != some k).length ≤ 48) →
      (∀ tines, fit = some tines → SpillsOk s ci → ∃ (s' : State) (f : Nat → Nat), exec i s = .next s' ∧ (∀ e ∈ ms, ∀ g ∈ ms, f e.1 = f g.1 → e.1 = g.1) ∧
        ∀ e ∈ ms, ∃ old new, getThread s ci e.1 = some old ∧ getThread s' ci (f e.1) = some new ∧ new.rank = place e % z ∧ new.nextPc = after s ∧ new.st = .waiting .moving ∧
          new.moving = some (ms.length, o.d.toNat) ∧ new.prog = 0 ∧ new.preds = old.preds ∧ new.age = old.age ∧ new.mode = old.mode ∧
          (∀ r, r ∉ lastRegs i → (tget new.regs r).map (·.val) = (tget old.regs r).map (cellValue s ci e.1 old r)) ∧
          ∀ g ∈ ms, ∀ other, getThread s' ci (f g.1) = some other → (other.sheaf = new.sheaf ↔ key g = key e ∧ place g / z = place e / z)) ∧
      (fit = none → c.frags = [] → c.fragWait = [] → ∃ s', exec i s = .next s' ∧ ∀ e ∈ ms, ParksWith (resFault 4 (getPlot c pl).plotNo) s s' e.1))) ∧
  (∀ (s : State) (ci t m d : Nat) (th : Thread), WellKept s → getThread s ci t = some th → th.st = .waiting .moving → th.moving = some (m, d) →
     th.stepping = none → (getPlot (getCore s ci) th.plot).frozen = none → SpillsOk s ci →
     ∃ new, getThread (moveOn s ci) ci t = some new ∧ new.prog = th.prog + 1 ∧ new.rank = th.rank ∧
       (m ≤ th.prog.toNat + 1 → new.st = .ready ∧ new.pc = th.nextPc ∧ (tget new.regs d).map (·.val) = some (BitVec.ofNat 32 th.rank) ∧
         ∀ r, r ≠ d → (tget new.regs r).map (·.val) = (tget th.regs r).map (·.val)) ∧
       (th.prog.toNat + 1 < m → new.st = .waiting .moving ∧ new.pc = th.pc ∧ ∀ r, (tget new.regs r).map (·.val) = (tget th.regs r).map (·.val)))

/-! ### Matrix unit, tiles and tables (06_matrix_model, 16_isa_matrix) -/

/-- R118 to R121, R278: a group sum cuts every finite term toward zero to a multiple of 2^(emax − 47), sums exactly and rounds once; the native order
takes groups of 16 products, the paired chain adds even and odd products apart; an integer element is clamped once; a step applies these to
every row of A and column of B; `mscl` rounds acc + x × rs × cs once.
R123, R126, R127, R129, R278: where the element of index i and place k of an operand stands: in a tile's row, native or transposed; in the registers of
rank i mod 16 of a half; in scratchpad at the descriptor's row, moved by 16 × n × INC at step n of a loop, its chunks rotated. -/
def Obligations.MatrixArithmetic : Prop :=
  ((∀ (rm : Nat) (sat : Bool) (q : Int) (t : List FV), rm < 4 → (∀ v ∈ t, ∃ a m e, v = .fin a m e) →
     (∃ v ∈ t, (2 : ℚ) ^ (q + 47) ≤ |fvRat v|) → (∀ v ∈ t, |fvRat v| < (2 : ℚ) ^ (q + 48)) →
     (let cut := fun v : FV => (if fvRat v < 0 then -1 else 1) * ((⌊|fvRat v| / (2 : ℚ) ^ q⌋ : ℤ) : ℚ) * (2 : ℚ) ^ q
      let x := (t.map cut).sum
      (x ≠ 0 → |x| ≤ valOf fF32 fF32.maxFinite → RoundsTo fF32 rm x (groupSum rm sat t).bits) ∧
      (x = 0 → (groupSum rm sat t).bits = if rm = 2 then 0x80000000 else 0))) ∧
   (∀ (rm : Nat) (sat : Bool) (c : Nat) (g rest : List FV), g.length = 16 → rest.length ≤ 112 →
     (let x := groupSum rm sat (unpack fF32 c :: g)
      (nativeSum rm sat c (g ++ rest)).bits = (nativeSum rm sat x.bits rest).bits ∧
      (nativeSum rm sat c (g ++ rest)).fl = (nativeSum rm sat x.bits rest).fl ||| x.fl ∧ (nativeSum rm sat c []).bits = c)) ∧
   (∀ (rm : Nat) (sat : Bool) (c : Nat) (p : List FV),
     (let pick := fun b => ((List.range p.length).filter (· % 2 == b)).map fun k => p.getD k (.nan false)
      let chain := fun c l => l.foldl (fun r v => (fAdd fF32 rm sat (unpack fF32 r) v).bits) c
      (pairedChain rm sat c p).bits = (fAdd fF32 rm sat (unpack fF32 (chain c (pick 0))) (unpack fF32 (chain 0 (pick 1)))).bits)) ∧
   (∀ (c : Word) (p : List Int), BitVec.ofNat 32 (intStep c p).bits = BitVec.ofInt 32 (max (-(2 ^ 31)) (min (2 ^ 31 - 1) (c.toInt + p.sum))) ∧
     ((intStep c p).fl = 16 ↔ c.toInt + p.sum < -(2 ^ 31) ∨ 2 ^ 31 - 1 < c.toInt + p.sum)) ∧
   (∀ (pair : Nat) (a b : List (List Nat)) (chain zero sat : Bool) (rm i j : Nat) (acc : BitVec 8192), i < 16 → j < 16 → pair < 15 →
     tileBits (matStep pair a b chain zero rm sat acc).1 (512 * i + 32 * j) 32 =
       (stepElem pair chain rm sat (if zero then 0 else BitVec.ofNat 32 (tileBits acc (512 * i + 32 * j) 32)) (a.getD i []) (b.getD j [])).bits % 2 ^ 32) ∧
   (∀ (rm x r c acc : Nat), rm < 4 → finite fF32 x → finite fF32 r → finite fF32 c → finite fF32 acc →
     (let y := valOf fF32 acc + valOf fF32 x * valOf fF32 r * valOf fF32 c
      y ≠ 0 → |y| ≤ valOf fF32 fF32.maxFinite → RoundsTo fF32 rm y (msclElem false rm x r c acc).bits))) ∧
  (∀ (s : State) (ci plot row w k n i e : Nat), i < 16 → e < k → k % 16 = 0 → w ∈ [4, 8, 16] → k * w = 8 * row → row ∈ [32, 64, 128] →
     (let elem := fun o => ((elements s ci plot o row w k n).getD i []).getD e 0
      let tile := fun t => tileAt (getCore s ci) t
      let rot := fun (x j q : Nat) => x - 16 * (x / 16 % 8) + 16 * ((x / 16 % 8 + j % 2 ^ q) % 8)
      let scr := (getCluster s (clusterOf ci)).scratch
      (∀ t0 t1, elem (.tile [t0, t1] false) = (tile (if e * w < 512 then t0 else t1)).toNat / 2 ^ (512 * i + e * w % 512) % 2 ^ w) ∧
      (∀ t0 t1, elem (.tile [t0, t1] true) =
        (tile (if (16 * (e / 16) + i) * w < 512 then t0 else t1)).toNat / 2 ^ (512 * (e % 16) + (16 * (e / 16) + i) * w % 512) % 2 ^ w) ∧
      (∀ vals : List Nat, vals.length = 4 * row → (∀ v ∈ vals, v < 2 ^ 32) →
        (let half := e / (k / 2)
         let bit := w * (e % (k / 2))
         elem (.frag vals) = vals.getD ((i + 16 * half) * (row / 8) + bit / 32) 0 / 2 ^ (bit % 32) % 2 ^ w)) ∧
      (∀ (addr rp tp q pos : Nat) (inc : Int), q < 4 → 0 ≤ (addr : Int) + 16 * n * inc →
        (let base := ((addr : Int) + 16 * n * inc).toNat
         let chunk := e * w / 128
         scratchPos s ci plot (rot (base + 16 * (rp * i + (if chunk < 4 then chunk else tp + chunk - 4))) i q) 16 = some pos →
         elem (.desc addr rp tp q false inc) = memNat scr pos 16 / 2 ^ (e * w % 128) % 2 ^ w)) ∧
      (∀ (addr rp tp q pos : Nat) (inc : Int), q < 4 → 0 ≤ (addr : Int) + 16 * n * inc →
        (let base := ((addr : Int) + 16 * n * inc).toNat
         let chunk := i * w / 128
         let len := min 16 (2 * w - 16 * chunk)
         scratchPos s ci plot (rot (base + 16 * (rp * (e % 16) + tp * (e / 16) + chunk)) (e % 16) q) len = some pos →
         elem (.desc addr rp tp q true inc) = memNat scr pos len / 2 ^ (i * w % 128) % 2 ^ w))))

/-- R96, R109, R126, R131, R132, R277, R279 to R282: an `mma`, an `mloop` and a part of an `mjoin` that pass their checks are accepted while
the unit has a place and their tiles are not held: threads of an `mma` wait for its step, the others run on with `prog` 0; else they wait; a failed check
faults every active thread. `mwait` goes on when its tile is not busy. -/
def Obligations.MatrixIssues : Prop :=
  (∀ (p : Pipe) (px : Option Px) (w : MatWord) (x : MmaWord) (s : State), SoundDrill (.mma p px w x) s → (s.cur.coll = true ∨ x.ka ≠ 0 ∧ x.kb ≠ 0) → s.cur.tids.Nodup →
    (let i : Instr := .mma p px w x
     let c := getCore s s.cur.core
     let act := activeThreads i s
     let lead : Thread := (act.head?.map (·.2)).getD {}
     let out := fun s1 => if x.ka = 0 ∨ x.kb = 0 then clearRdv s1 else s1
     (∀ f, matCheck s act w.acc.toNat (mmaSrcs w x) w.pair.toNat 1 = .error f → c.frags = [] → c.fragWait = [] →
       ∃ s', exec i s = .next s' ∧ ∀ e ∈ act, ParksWith f s s' e.1) ∧
     (∀ acc a b, matCheck s act w.acc.toNat (mmaSrcs w x) w.pair.toNat 1 = .ok (acc, [a, b]) → (x.ka = 0 ∨ x.kb = 0 → sheaf32 c lead = true) →
       (unitUse c < 4 ∧ tilesHeld c (acc :: opTiles a ++ opTiles b) = false →
         Together i s (out (updCore { s with nextId := s.nextId + 1 } s.cur.core fun c => { c with mops := c.mops ++
           [{ id := s.nextId, plot := lead.plot, form := 0, pair := w.pair.toNat, acc := acc, a := a, b := b, chain := x.chain, zacc := x.zacc, sat := x.sat,
              rm := if x.rnd = 0 then lead.mode.toNat % 4 else x.rnd.toNat - 1, tids := act.map (·.1), undef := (undefTiles act).map (·.2) }] })) (WaitsFor i (.matrix s.nextId))) ∧
       (4 ≤ unitUse c ∨ tilesHeld c (acc :: opTiles a ++ opTiles b) = true → Together i s (out s) (WaitsFor i (.retry 11)))))) ∧
  (∀ (px : Option Px) (w : MatWord) (x : LoopWord) (s : State) (acc : Nat) (a b : Operand), SoundDrill (.mloop px w x) s → s.cur.tids.Nodup →
    (let i : Instr := .mloop px w x
     let c := getCore s s.cur.core
     let act := activeThreads i s
     let lead : Thread := (act.head?.map (·.2)).getD {}
     let p := w.pair.toNat
     matCheck s act w.acc.toNat [loopSrc w.a x.inca (rowA p) (typeBits (pairA p)), loopSrc w.b x.incb (rowB p) (typeBits (pairB p))] p (x.stepsM1.toNat + 1) =
       .ok (acc, [a, b]) →
     (unitUse c < 4 ∧ tilesHeld c (acc :: opTiles a ++ opTiles b) = false →
       Together i s (updThreads (updCore { s with nextId := s.nextId + 1 } s.cur.core fun c => { c with mops := c.mops ++
         [{ id := s.nextId, plot := lead.plot, form := 1, pair := p, acc := acc, a := a, b := b, steps := x.stepsM1.toNat + 1, chain := x.chain, zacc := x.zacc,
            sat := x.sat, rm := lead.mode.toNat % 4, tids := act.map (·.1), undef := (undefTiles act).map (·.2) }] }) s.cur.core (act.map (·.1)) fun th => { th with longOp := some s.nextId, prog := 0 })
         (MovesTo i (fun old => { sr := readFlag i s old }) (after s))) ∧
     (4 ≤ unitUse c ∨ tilesHeld c (acc :: opTiles a ++ opTiles b) = true → Together i s s (WaitsFor i (.retry 11))))) ∧
  (∀ (w : MatWord) (x : JoinWord) (s : State) (acc : Nat) (a b : Operand), SoundDrill (.mjoin w x) s → s.cur.coll = true → s.cur.tids.Nodup →
    (let i : Instr := .mjoin w x
     let c := getCore s s.cur.core
     let act := activeThreads i s
     let lead : Thread := (act.head?.map (·.2)).getD {}
     let p := w.pair.toNat
     matCheck s act w.acc.toNat [{ kind := 0, byte := w.a, row := rowA p, w := typeBits (pairA p) }, { kind := 2, byte := w.b, row := rowB p, w := typeBits (pairB p) }] p 1 =
       .ok (acc, [a, b]) → sheaf32 c lead = true →
     (∀ j, c.joins.find? (fun j => j.ident == x.ident.toNat) = some j → c.frags = [] → c.fragWait = [] →
       (j.plot ≠ lead.plot ∨ j.count ≠ x.countM1.toNat + 1 ∨ j.pair ≠ p ∨ j.b ≠ b ∨ j.chain ≠ x.chain ∨ j.sat ≠ x.sat ∨ x.part.toNat ∈ j.parts ∨
         j.count ≤ x.part.toNat ∨ acc ∈ j.accs) →
       ∃ s', exec i s = .next s' ∧ ∀ e ∈ act, ParksWith (sheafFault 7 (threadHandle s.cur.core c lead)) s s' e.1) ∧
     (c.joins.find? (fun j => j.ident == x.ident.toNat) = none → x.part.toNat ≤ x.countM1.toNat → unitUse c < 4 → tilesHeld c [acc] = false →
       ∃ s' j m, exec i s = .next s' ∧ (getCore s' s.cur.core).joins = c.joins ++ [j] ∧ (getCore s' s.cur.core).mops = c.mops ++ [m] ∧
         j.ident = x.ident.toNat ∧ j.count = x.countM1.toNat + 1 ∧ j.pair = p ∧ j.b = b ∧ j.chain = x.chain ∧ j.sat = x.sat ∧ j.plot = lead.plot ∧
         j.parts = [x.part.toNat] ∧ j.accs = [acc] ∧ j.ids = [m.id] ∧ j.tids = act.map (·.1) ∧ m.form = 2 ∧ m.acc = acc ∧ m.a = a ∧ m.zacc = x.zacc ∧
         m.part = x.part.toNat ∧ m.ident = x.ident.toNat ∧ m.rm = lead.mode.toNat % 4 ∧
         ∀ e ∈ act, ∃ new, getThread s' s.cur.core e.1 = some new ∧ new.st = .ready ∧ new.pc = after s ∧ new.prog = 0 ∧ new.longOp = some m.id))) ∧
  (∀ (p : Pipe) (px : Option Px) (t : TileNo) (s : State) (lead : Nat × Thread) (k : Nat), SoundDrill (.mwait p px t) s → s.cur.tids.Nodup →
    (let i : Instr := .mwait p px t
     let c := getCore s s.cur.core
     (activeThreads i s).head? = some lead → tileOf c lead.2 t.toNat = some k →
     (tileBusy c k = true → Together i s s (WaitsFor i (.mwait k))) ∧
     (tileBusy c k = false → Together i s (updThreads s s.cur.core ((activeThreads i s).map (·.1)) fun th => { th with joinRegs := th.joinRegs.filter fun x => x.1 != k })
       (MovesTo i (fun _ => {}) (after s)))))

/-- R115, R130 to R132, R278: when a step of the unit completes, the accumulator holds the step's sums; after the last step of an operation its tiles are free, its
flags post, `prog` reads the count of steps, and an `mma`'s threads go on; parts of a join are computed in their order against one
reading of B, each fragment word as it was at issue or as it is now, of a thread that has ended as it was at issue, and with the last one `prog` reads 1. -/
def Obligations.MatrixStepsComplete : Prop :=
  (∀ (s : State) (ci : Nat) (m : MatOp), WellKept s → stepOf (getCore s ci) = some m.id → m ∈ (getCore s ci).mops → m.form ≠ 2 → s.bad = [] →
    (∀ e ∈ (getCore s ci).threads, e.2.st = .waiting (.matrix m.id) → e.2.stepping = none) →
    (∀ x ∈ (getCore s ci).mops, x.id = m.id → x = m) →
    (let p := m.pair
     let s0 := updCore s ci fun c => blurTiles s c m.undef
     let r := matStep p (elements s0 ci m.plot m.a (rowA p) (typeBits (pairA p)) (pairK p) m.done)
       (elements s0 ci m.plot m.b (rowB p) (typeBits (pairB p)) (pairK p) m.done) m.chain (m.zacc && m.done == 0) m.rm m.sat (tileAt (getCore s ci) m.acc)
     let fl : Word := m.flags ||| BitVec.ofNat 32 r.2
     ∃ s', exec (.matrixStepComplete ci) s = .next s' ∧ s'.mem = s.mem ∧ s'.clusters = s.clusters ∧ tileAt (getCore s' ci) m.acc = r.1 ∧
       (∀ k, k ≠ m.acc → tileAt (getCore s' ci) k = tileAt (getCore s ci) k) ∧
       (m.done + 1 < m.steps → (getCore s' ci).mops = (getCore s ci).mops.map fun x => if x.id = m.id then { m with done := m.done + 1, flags := fl } else x) ∧
       (m.steps ≤ m.done + 1 → (getCore s' ci).mops = (getCore s ci).mops.filter fun x => x.id != m.id) ∧
       ∀ t th, t ∈ m.tids → getThread s ci t = some th → th.stepping = none → ∃ new, getThread s' ci t = some new ∧
         (th.longOp = some m.id → new.prog = BitVec.ofNat 32 (m.done + 1)) ∧
         new.ast = (if m.steps ≤ m.done + 1 then th.ast ||| fl else th.ast) ∧
         (m.steps ≤ m.done + 1 → th.st = .waiting (.matrix m.id) → WakesUp s s' ci t))) ∧
  (∀ (s : State) (ci : Nat) (j : Join) (m : MatOp), WellKept s → stepOf (getCore s ci) = some j.id → s.bad = [] → j ∈ (getCore s ci).joins → m ∈ (getCore s ci).mops →
    m.form = 2 → m.ident = j.ident → (∀ x ∈ (getCore s ci).mops, (x.id = m.id → x = m) ∧ (x.form ≠ 2 → x.id ≠ j.id)) → (∀ x ∈ (getCore s ci).joins, x.id = j.id → x = j) →
    (∀ x ∈ (getCore s ci).mops, x.form = 2 → x.ident = j.ident → x = m ∨ m.part < x.part) →
    (let p := j.pair
     let z := rowA m.pair / 8
     ∀ old, m.a = .frag old → old.length = m.reads.length * z →
     ∃ s' words, exec (.matrixStepComplete ci) s = .next s' ∧ words.length = old.length ∧
       (∀ u y, m.reads[u]? = some none → y < z → words.getD (u * z + y) 0 = old.getD (u * z + y) 0) ∧
       (∀ u y t th, m.reads[u]? = some (some t) → y < z → getThread s ci t = some th →
         words.getD (u * z + y) 0 = old.getD (u * z + y) 0 ∨ words.getD (u * z + y) 0 = (rv th (m.base + y)).toNat) ∧
       (let b := if j.written = [] then elements s ci j.plot j.b (rowB p) (typeBits (pairB p)) (pairK p) 0 else j.bvals
        tileAt (getCore s' ci) m.acc = (matStep p (elements s ci j.plot (.frag words) (rowA p) (typeBits (pairA p)) (pairK p) 0) b j.chain m.zacc m.rm j.sat
          (tileAt (getCore s ci) m.acc)).1) ∧
       (getCore s' ci).mops = (getCore s ci).mops.filter (fun x => x.id != m.id) ∧
       (j.written.length + 1 < j.count → ∃ k ∈ (getCore s' ci).joins, k.id = j.id ∧ k.written = j.written ++ [m.part]) ∧
       (j.count ≤ j.written.length + 1 → (∀ k ∈ (getCore s' ci).joins, k.id ≠ j.id) ∧
         ∀ t th x, t ∈ j.tids → x ∈ j.ids → getThread s ci t = some th → th.longOp = some x → ∃ new, getThread s' ci t = some new ∧ new.prog = 1)))

/-- R122, R283 to R285: a tile instruction that passes its checks stands at the tile port with what it names, its thread waits, or under `tmovout`
runs on with its registers empty; a tile name beyond the role's count is a register fault.
R283 to R287: a tile operation whose tiles are free and that no earlier one at the port precedes is performed whole, its threads go on, and it is gone: `tzero`
clears the tile; `tld` reads 16 rows of 4 chunks, `tst` writes them; `tmovin` and `tmovout` move each rank's share; `tcvt` converts the elements of each row; `mscl`
scales every element; a tile that an issuing thread may not yet read (R95) reads as a free value. One that is not ready stands. -/
def Obligations.TileOperations : Prop :=
  (∀ (p : Pipe) (px : Option Px) (t u : TileNo) (x : Src) (s : State) (n : Nat) (th : Thread) (k l : Nat),
     tileOf (getCore s s.cur.core) th t.toNat = some k → tileOf (getCore s s.cur.core) th u.toNat = some l →
     (let put := fun o => updCore { s with nextId := s.nextId + 1 } s.cur.core fun c => { c with tops := c.tops ++ [o] }
      let desc : Operand := .desc ((sv th x).toNat % 2 ^ 22) ((sv th x).toNat / 2 ^ 22) ((rv th (x.reg.toNat + 1)).toNat % 2 ^ 16)
        ((rv th (x.reg.toNat + 1)).toNat / 2 ^ 16 % 16) ((rv th (x.reg.toNat + 1)).getLsbD 20) 0
      let rm := th.mode.toNat % 4
      let op : TileOp := { id := s.nextId, plot := th.plot, tile := k, tids := [n], undef := undefTiles [(n, th)] }
      let waits := fun i o => Alone i s n th → FinishesWaiting i s (put o) n (.tile s.nextId)
      let reads := fun (i : Instr) (o : TileOp) => Alone i s n th → ∃ s0 due, LsuTaken s s0 ∧ FinishesWaiting i s
        (updCore { s0 with nextId := s.nextId + 1 } s.cur.core fun c => { c with tops := c.tops ++ [{ o with due := due }] }) n (.tile s.nextId)
      waits (.tzero p px t) { op with kind := 0 } ∧
      (tldCheck false t x s [(n, th)] th = none → reads (.tld p px t x) { op with kind := 1, desc := desc }) ∧
      (tldCheck true t x s [(n, th)] th = none → waits (.tst p px t x) { op with kind := 2, desc := desc }) ∧
      (∀ w : BitVec 2, waits (.tmovin px t x w) { op with undef := [], kind := 3, width := 32 / 2 ^ w.toNat, reg := x.reg.toNat, shares := [(n, th.rank, (List.range (8 * 2 ^ w.toNat)).map fun i => rv th (x.reg.toNat + i))] }) ∧
      (∀ (w : BitVec 2) (d : RegNo), Alone (.tmovout px t d w) s n th → Finishes (.tmovout px t d w) s
          (put { op with kind := 4, width := 32 / 2 ^ w.toNat, reg := d.toNat, shares := [(n, th.rank, [])] }) n
        { awaits := (List.range (8 * 2 ^ w.toNat)).map fun i => d.toNat + i, prod := s.nextId } (after s)) ∧
      (∀ dst src, waits (.tcvt p px t dst src u) { op with kind := 5, src := l, code := dst.toNat * 16 + src.toNat, rm := rm }) ∧
      (msclCheck t u x s [(n, th)] th = none → reads (.mscl p px t x u) { op with kind := 6, src := l, code := (sv th x).toNat / 2 ^ 31, rm := rm, rsa := (sv th x).toNat % 2 ^ 22, csa := (rv th (x.reg.toNat + 1)).toNat % 2 ^ 22 }) ∧
      (∀ bad : TileNo, tileOf (getCore s s.cur.core) th bad.toNat = none → (getCore s s.cur.core).frags = [] → (getCore s s.cur.core).fragWait = [] →
        (Alone (.tzero p px bad) s n th → ∃ s', exec (.tzero p px bad) s = .next s' ∧ ParksWith (regFault 4 bad.toNat) s s' n) ∧
        (Alone (.mwait p px bad) s n th → ∃ s', exec (.mwait p px bad) s = .next s' ∧ ParksWith (regFault 4 bad.toNat) s s' n)))) ∧
  (∀ (s : State) (ci : Nat) (o : TileOp), WellKept s → s.bad = [] → (∀ e ∈ (getCore s ci).threads, e.2.st = .waiting (.tile o.id) → e.2.stepping = none) → (getCore s ci).tops.find? (fun x => x.id == o.id) = some o →
     (topReady (getCore s ci) o = false → exec (.tileOpComplete ci o.id) s = .next s) ∧
     (topReady (getCore s ci) o = true →
       (let old := tileAt (getCore s ci) o.tile
        let read := tileAt (blurTiles s (getCore s ci) (o.undef.map (·.2))) o.tile
        let src := tileAt (blurTiles s (getCore s ci) (o.undef.map (·.2))) o.src
        let scr := (getCluster s (clusterOf ci)).scratch
        ∃ s', exec (.tileOpComplete ci o.id) s = .next s' ∧ (o.kind ≠ 4 → s'.mem = s.mem) ∧ (getCore s' ci).tops = (getCore s ci).tops.filter (fun x => x.id != o.id) ∧
          (∀ k, k ≠ o.tile → tileAt (getCore s' ci) k = tileAt (getCore s ci) k) ∧ (o.kind ≠ 2 → s'.clusters = s.clusters) ∧
          (∀ t th, getThread s ci t = some th → th.st = .waiting (.tile o.id) → th.stepping = none → WakesUp s s' ci t) ∧
          (let new := tileAt (getCore s' ci) o.tile
           (o.kind = 0 → new = 0) ∧ (o.kind = 2 ∨ o.kind = 4 → new = old) ∧
           (∀ addr rp tp q inc j c pos, o.desc = .desc addr rp tp q false inc → q < 4 → j < 16 → c < 4 →
             (let place := fun j c => let x := addr + 16 * (rp * j + c); x - 16 * (x / 16 % 8) + 16 * ((x / 16 % 8 + j % 2 ^ q) % 8)
              scratchPos s ci o.plot (place j c) 16 = some pos →
              (o.kind = 1 → new.toNat / 2 ^ (512 * j + 128 * c) % 2 ^ 128 = memNat scr pos 16) ∧
              (o.kind = 2 → (∀ j2 c2, j2 < 16 → c2 < 4 → (j < j2 ∨ j = j2 ∧ c < c2) → place j2 c2 + 16 ≤ place j c ∨ place j c + 16 ≤ place j2 c2) →
                memNat (getCluster s' (clusterOf ci)).scratch pos 16 = read.toNat / 2 ^ (512 * j + 128 * c) % 2 ^ 128))) ∧
           (∀ e ∈ o.shares, ∀ k, o.width ∈ [4, 8, 16, 32] → (o.shares.map fun e => e.2.1).Nodup → (∀ e ∈ o.shares, e.2.1 < 32 ∧ e.2.2.length = 256 / o.width) → k < 256 / o.width →
             (let at_ := 512 * (e.2.1 % 16) + 256 * (e.2.1 / 16) + k * o.width
              o.kind = 3 → new.toNat / 2 ^ at_ % 2 ^ o.width = (e.2.2.getD k 0).toNat % 2 ^ o.width)) ∧
           (∀ e ∈ o.shares, ∀ k th c, o.kind = 4 → o.width ∈ [4, 8, 16, 32] → (o.shares.map (·.1)).Nodup → k < 256 / o.width → getThread s ci e.1 = some th →
             tget th.regs (o.reg + k) = some c → c.st = .empty → c.prod = o.id →
             ∃ th', getThread s' ci e.1 = some th' ∧ (tget th'.regs (o.reg + k)).map (fun c => (c.st, c.val)) =
               some (.full, BitVec.ofNat 32 ((if (e.1, o.tile) ∈ o.undef then read else old).toNat / 2 ^ (512 * (e.2.1 % 16) + 256 * (e.2.1 / 16) + k * o.width) % 2 ^ o.width))) ∧
           (o.kind = 5 → (let wd := typeBits (o.code / 16)
             let ws := typeBits (o.code % 16)
             wd ∈ [4, 8, 16, 32] → ws ∈ [4, 8, 16, 32] → ∀ i e, i < 16 →
               (e < 512 / max ws wd → new.toNat / 2 ^ (512 * i + e * wd) % 2 ^ wd =
                 (cvtWord (o.code / 16) (o.code % 16) o.rm false (src.toNat / 2 ^ (512 * i + e * ws) % 2 ^ ws)).bits % 2 ^ wd) ∧
               (512 / max ws wd ≤ e → e < 512 / wd → new.toNat / 2 ^ (512 * i + e * wd) % 2 ^ wd = 0))) ∧
           (o.kind = 6 → ∀ i j pr pc, i < 16 → j < 16 → scratchPos s ci o.plot o.rsa 64 = some pr → scratchPos s ci o.plot o.csa 64 = some pc →
             new.toNat / 2 ^ (512 * i + 32 * j) % 2 ^ 32 = (msclElem (o.code == 1) o.rm (src.toNat / 2 ^ (512 * i + 32 * j) % 2 ^ 32)
               (memNat scr (pr + 4 * i) 4) (memNat scr (pc + 4 * j) 4) (read.toNat / 2 ^ (512 * i + 32 * j) % 2 ^ 32)).bits % 2 ^ 32)))))

/-- R218 to R220, R288, R289: `ftbl` evaluates the segment of its sheaf's bank that holds x, fused and rounded once; the first of `ftbl`, `tbl.ld`, `tbl.sel` takes
free banks, zeroed; `tbl.ld` stages its image for the bank not selected, which the commit writes whole; `tbl.sel` selects. -/
def Obligations.TableBanks : Prop :=
  (∀ (o : R1) (s s1 : State) (t : Nat) (th : Thread), Alone (.ftbl o) s t th → takeBanks s s.cur.core th.plot = some s1 →
    (let c := getCore s1 s.cur.core
     Finishes (.ftbl o) s s1 t (toRes o.d (tblEval (if tblBankOf c th then c.bank1 else c.bank0) (ftzOf th) (sv th o.a).toNat)) (after s))) ∧
  (∀ (image : BitVec 16512) (a n : Nat), a < 2 ^ 32 →
    (let word := fun k => image.toNat / 2 ^ (32 * k) % 2 ^ 32
     let x := valOf fF32 a
     let sl := word (4 + 2 * n)
     let ic := word (5 + 2 * n)
     let y := valOf fF32 sl * x + valOf fF32 ic
     finite fF32 a → finite fF32 (word 0) → finite fF32 (word 1) → 0 < valOf fF32 (word 1) → (n : Int) = max 0 (min 255 ⌊(x - valOf fF32 (word 0)) * valOf fF32 (word 1)⌋) →
     finite fF32 sl → finite fF32 ic → y ≠ 0 → |y| ≤ valOf fF32 fF32.maxFinite → RoundsTo fF32 0 y (tblEval image false a).bits)) ∧
  (∀ a, tblEval 0 false a = { bits := 0x7FC00000, fl := 1 }) ∧
  (∀ (s : State) (ci plot : Nat), (∀ p, (getCore s ci).tblOwner = some p → takeBanks s ci plot = if p = plot then some s else none) ∧
    ((getCore s ci).tblOwner = none → takeBanks s ci plot = some (updCore s ci fun c => { c with tblOwner := some plot, bank0 := 0, bank1 := 0 }))) ∧
  (∀ (o : R1) (p : Pipe) (px : Option Px) (a : Src) (i : Instr) (s : State) (t : Nat) (th : Thread), i = .ftbl o ∨ i = .tblSel p px a → Alone i s t th →
    takeBanks s s.cur.core th.plot = none → FinishesWaiting i s s t (.retry 13)) ∧
  (∀ (p : Pipe) (px : Option Px) (a : Src) (s : State) (t : Nat) (th : Thread) (pos : Nat), Alone (.tblLd p px a) s t th → takeBanks s s.cur.core th.plot = none →
    checkScratch s s.cur.core th.plot (sv th a).toNat 2064 16 4 false = .ok pos → ∃ s0, LsuTaken s s0 ∧ FinishesWaiting (.tblLd p px a) s s0 t (.retry 13)) ∧
  (∀ (p : Pipe) (px : Option Px) (a : Src) (s s1 : State) (t : Nat) (th : Thread) (pos : Nat), Alone (.tblLd p px a) s t th → takeBanks s s.cur.core th.plot = some s1 →
    checkScratch s s.cur.core th.plot (sv th a).toNat 2064 16 4 false = .ok pos →
    (let image := memNat (getCluster s (clusterOf s.cur.core)).scratch pos 2064
     (image / 2 ^ 64 % 2 ^ 64 = 0 → ∃ s0 s2 due, LsuTaken s s0 ∧ takeBanks s0 s.cur.core th.plot = some s2 ∧
       FinishesWaiting (.tblLd p px a) s (updCore { s2 with nextId := s.nextId + 1 } s.cur.core fun c => { c with tblLoads := c.tblLoads ++
         [{ id := s.nextId, plot := th.plot, bank := !tblBankOf (getCore s s.cur.core) th, image := BitVec.ofNat 16512 image, tids := [t], due := due }] }) t (.tile s.nextId)) ∧
     (image / 2 ^ 64 % 2 ^ 64 ≠ 0 → (getCore s s.cur.core).frags = [] → (getCore s s.cur.core).fragWait = [] →
       ∃ s', exec (.tblLd p px a) s = .next s' ∧ ParksWith (memFault 6 4 false true (sv th a).toNat) s s' t))) ∧
  (∀ (s : State) (ci : Nat) (l : TblLoad), WellKept s → (getCore s ci).tblLoads.find? (fun x => x.id == l.id) = some l →
    ∃ s', exec (.tableLoadCommit ci l.id) s = .next s' ∧ (getCore s' ci).bank0 = (if l.bank then (getCore s ci).bank0 else l.image) ∧
      (getCore s' ci).bank1 = (if l.bank then l.image else (getCore s ci).bank1) ∧
      ∀ t th, getThread s ci t = some th → th.st = .waiting (.tile l.id) → th.stepping = none → WakesUp s s' ci t) ∧
  (∀ (p : Pipe) (px : Option Px) (a : Src) (s s1 : State) (t : Nat) (th : Thread), Alone (.tblSel p px a) s t th → takeBanks s s.cur.core th.plot = some s1 →
    (∀ k, th.sheaf = some k → Finishes (.tblSel p px a) s (updCore s1 s.cur.core fun c => { c with
      sheaves := tupd c.sheaves k (fun sh => { sh with tblSel := (sv th a).getLsbD 0 }) }) t {} (after s)) ∧
    (th.sheaf = none → s.cur.tids = [t] → ∃ s' new, exec (.tblSel p px a) s = .next s' ∧ getThread s' s.cur.core t = some new ∧
      new.tblSel = (sv th a).getLsbD 0 ∧ new.pc = after s ∧ new.st = .ready))

/-! ### Predicates, status, traps and fragments (17_isa_system) -/

/-- R291 to R296: `plop` writes the truth table's bit, `pmov` moves the predicates; `csr.rd` reads each status register, one of `cyc` also latching
`cych`; `csr.wr` writes `mode`, `aen`, `dbgst` and, when no flags are outstanding, `ast`, which a flag enters when its operation completes; `time` gives the device time,
never less than before; `evt` emits its record. -/
def Obligations.PredicatesAndStatus : Prop :=
  (∀ (px : Option Px) (pd pa pb pc : PredNo) (tt : BitVec 8), Computes (.plop px pd pa pb pc tt) (fun x =>
    let p := fun k : PredNo => k == 0 || x.preds.getLsbD k.toNat
    toPred pd (tt.getLsbD ((if p pa then 4 else 0) + (if p pb then 2 else 0) + (if p pc then 1 else 0))))) ∧
  (∀ (px : Option Px) (d : RegNo), Computes (.pmovRd px d) (fun x => toReg d (bitsWord fun k => decide (k < 8) && (k == 0 || x.preds.getLsbD k)))) ∧
  (∀ (px : Option Px) (a : Src), Computes (.pmovWr px a) (fun x => { preds := [1, 2, 3, 4, 5, 6, 7].map fun k => (k, (sv x a).getLsbD k) })) ∧
  (∀ (px : Option Px) (d : RegNo) (n : BitVec 8) (s : State) (t : Nat) (th : Thread), isUnif s = false →
    (let ci := s.cur.core
     let c := getCore s ci
     let p := getPlot c th.plot
     let k := BitVec.ofNat 32
     let v : Word := match n.toNat with
       | 0x00 => k t
       | 0x01 => k th.rank
       | 0x02 => threadHandle ci c th
       | 0x03 => k (p.plotNo % 2 ^ 16 * 2 ^ 16 + th.plot % 8)
       | 0x04 => k th.role
       | 0x05 => k ci
       | 0x06 => k (ci / 16)
       | 0x07 => k (ci / 512)
       | 0x08 => k (deviceNo s)
       | 0x10 => th.mode
       | 0x11 => th.ast
       | 0x12 => th.aen
       | 0x18 => th.cause
       | 0x19 => th.det0
       | 0x1A => th.det1
       | 0x1B => th.det2
       | 0x20 => th.prog
       | 0x21 => k c.cyc
       | 0x22 => th.cych
       | 0x28 => (th.dbgst &&& 7) ||| (if p.att then 0x80 else 0)
       | _ => 0
     (n.toNat ≠ 0x21 → Takes (.csrRd px d n) s t th →
       ∃ s', exec (.csrRd px d n) s = .next s' ∧ MovesTo (.csrRd px d n) (fun _ => toReg d v) (after s) s s' t) ∧
     (n.toNat = 0x21 → Alone (.csrRd px d n) s t th → Finishes (.csrRd px d n) s (updThread s ci t fun x => { x with cych := k (c.cyc / 2 ^ 32) }) t (toReg d v) (after s)))) ∧
  (∀ (px : Option Px) (a : Src) (n : BitVec 8) (s : State) (t : Nat) (th : Thread), Alone (.csrWr px a n) s t th →
    (let v := sv th a
     let writes := fun f => Finishes (.csrWr px a n) s (updThread s s.cur.core t f) t {} (after s)
     (n.toNat = 0x10 → writes fun x => { x with mode := v &&& 7 }) ∧
     (n.toNat = 0x12 → writes fun x => { x with aen := v &&& 0x3F }) ∧
     (n.toNat = 0x28 → writes fun x => { x with dbgst := if v.getLsbD 2 then x.dbgst &&& ~~~(4 : Word) else x.dbgst }) ∧
     (n.toNat = 0x11 → flagsOpen s s.cur.core t = false → writes fun x => { x with ast := v &&& 0x3F }) ∧
     (n.toNat = 0x11 → flagsOpen s s.cur.core t = true → FinishesWaiting (.csrWr px a n) s s t (.retry 12)))) ∧
  (∀ (c : Core) (t : Nat) (th : Thread), tget c.threads t = some th → ∃ new, tget (settleFlags c).threads t = some new ∧
    (∀ k, new.ast.getLsbD k = (th.ast.getLsbD k || th.flags.any fun f => decide (f.1 ≤ c.cyc) && f.2.getLsbD k)) ∧
    new.flags = th.flags.filter fun f => decide (c.cyc < f.1)) ∧
  (∀ (p : Pipe) (px : Option Px) (d : RegNo) (s : State) (t : Nat) (th : Thread), Alone (.time p px d) s t th →
    (let now := max s.now th.tlast
     Finishes (.time p px d) s (updThread s s.cur.core t fun x => { x with tlast := max now x.tlast }) t (toPair d (BitVec.ofNat 64 now)) (after s))) ∧
  (∀ (p : Pipe) (px : Option Px) (a : Src) (n : BitVec 8) (s : State) (t : Nat) (th : Thread), Alone (.evt p px a n) s t th →
    Finishes (.evt p px a n) s (emitRec s { time := s.now, cid := (getPlot (getCore s s.cur.core) th.plot).cid, unit := unitCore s.cur.core (some s.cur.slot), type := BitVec.ofNat 16 (0xF000 + n.toNat), flags := BitVec.ofNat 16 t, payload := pairOf th a }) t {} (after s))

/-- R164, R297, R298: `trap` and `brk` take their faults at their own PC, `brk` with BRK set and STEP clear; `safe` without a stop request only
goes on; with one the thread is saved in the same cycle with its PC at the next instruction, the registers of the mask (whatever they still wait for fills
the saved ones), `p1` and the predicates of PMASK.
R154 to R157, R161, R299 to R301: the fragment operations act on the entry that their handle names and go on; a handle that fails its check is a resource
fault of SUB 3. A resume makes the members ready at their PCs and frees the entry; a kill ends them; a step makes them ready for one
instruction, after which each parks again with group 11. The oldest pending fragment goes to a new handler thread at the handler's entry. -/
def Obligations.TrapsSafePointsFragments : Prop :=
  ((∀ (px : Option Px) (n : BitVec 16) (s : State) (t : Nat) (th : Thread), (getCore s s.cur.core).frags = [] →
     (Alone (.trap px n) s t th → ∃ s', exec (.trap px n) s = .next s' ∧ ParksWith { group := 10, det0 := n.zeroExtend 32 } s s' t) ∧
     (Alone (.brk px) s t th → ∃ s' new, exec (.brk px) s = .next s' ∧
       ParksWith { group := 11, det0 := 1, det1 := (th.dbgst &&& 4) ||| 1 ||| (if (getPlot (getCore s s.cur.core) th.plot).att then 0x80 else 0) } s s' t ∧
       getThread s' s.cur.core t = some new ∧ new.dbgst = (th.dbgst &&& ~~~(2 : Word)) ||| 1)) ∧
   (∀ (tm : BitVec 16) (pm : BitVec 6) (lo hi : Word) (s : State) (t : Nat) (th : Thread), Alone (.safe tm pm lo hi) s t th → th.joinRegs = [] →
     (let p := getPlot (getCore s s.cur.core) th.plot
      let mask := fun r => if r < 32 then lo.getLsbD r else hi.getLsbD (r - 32)
      (p.stop = none → Finishes (.safe tm pm lo hi) s s t {} (after s)) ∧
      (p.stop ≠ none → WellKept s →
        ∃ s' new, exec (.safe tm pm lo hi) s = .next s' ∧ getThread s' s.cur.core t = some new ∧ new.st = .saved false ∧ new.pc = after s ∧
          (∀ r, r < 64 → tget new.regs r = if mask r then tget th.regs r else none) ∧
          (∀ k, k < 8 → new.preds.getLsbD k = (th.preds.getLsbD k && (decide (k < 2) || pm.getLsbD (k - 2)))) ∧
          ((tget (getCore s s.cur.core).plots th.plot).isSome = true → ∀ k j, k < 16 → tm.getLsbD k = true → (roleInfo p th.role).tileMap[k]? = some j →
            (getPlot (getCore s' s.cur.core) th.plot).tileMask.testBit j = true))))) ∧
  ((∀ (px : Option Px) (d : RegNo) (a : Src) (sel : BitVec 3) (n : BitVec 5) (s : State) (t : Nat) (th : Thread),
     (let ci := s.cur.core
      let c := getCore s ci
      (∀ e f, fragOf c th a = some (e, f) →
        (Alone (.fragResume px a) s t th → Finishes (.fragResume px a) s (resumeEntry s ci e) t {} (after s)) ∧
        (Alone (.fragKill px a) s t th → f.kind = 0 → t ∉ f.members → Finishes (.fragKill px a) s (killEntry s ci e) t {} (after s)) ∧
        (∀ s1, Alone (.fragResumeSkip px a) s t th → skipEntry s e f = some (s1, {}) → Finishes (.fragResumeSkip px a) s s1 t {} (after s)) ∧
        (Alone (.fragStep px a) s t th → f.kind = 0 → ∃ s1, stepEntry s e f = some s1 ∧ Finishes (.fragStep px a) s s1 t {} (after s)) ∧
        (Alone (.fragInfo px d a sel n) s t th → f.kind = 0 →
          (let m := (rvAt th 1 d.toNat).toNat % 256
           let det := if m ∈ f.members then tgetD f.details m (f.det0, f.det1, f.det2) else (f.det0, f.det1, f.det2)
           let gives := fun v => Finishes (.fragInfo px d a sel n) s s t (toReg d v) (after s)
           (sel.toNat = 0 → gives (fragCause e f)) ∧ (sel.toNat = 1 → gives det.1) ∧ (sel.toNat = 2 → gives det.2.1) ∧ (sel.toNat = 3 → gives det.2.2) ∧
           (sel.toNat = 4 → f.members.Nodup → gives (bitsWord fun k => f.members.any fun u => u == 32 * n.toNat + k)) ∧
           (∀ x, getThread s ci m = some x → m ∈ f.members → (sel.toNat = 5 → gives (x.pc.setWidth 32)) ∧ (sel.toNat = 6 → gives ((x.pc >>> 32).setWidth 32)))))) ∧
      (∀ i, i = .fragResume px a ∨ i = .fragResumeSkip px a ∨ i = .fragKill px a ∨ i = .fragStep px a ∨ i = .fragInfo px d a sel n →
        fragOf c th a = none → Alone i s t th → c.frags = [] → c.fragWait = [] → ∃ s', exec i s = .next s' ∧ ParksWith (resFault 3 (getPlot c th.plot).plotNo) s s' t))) ∧
   (∀ (s : State) (ci e u : Nat) (f : Frag) (old : Thread), WellKept s → tget (getCore s ci).frags e = some f → f.kind = 0 → u ∈ f.members → getThread s ci u = some old →
     old.st = .parked e → old.stepping = none → old.moving = none → (getCore s ci).fragWait = [] →
     (∃ new, getThread (resumeEntry s ci e) ci u = some new ∧ new.st = .ready ∧ new.pc = old.pc ∧ new.regs = old.regs ∧ new.preds = old.preds) ∧
     tget (getCore (resumeEntry s ci e) ci).frags e = none ∧ getThread (killEntry s ci e) ci u = none ∧
     (∀ s1, stepEntry s e f = some s1 → s.cur.core = ci → (∃ new, getThread s1 ci u = some new ∧ new.st = .ready ∧ new.stepping = some e ∧ new.pc = old.pc ∧ new.regs = old.regs) ∧
       (tget (getCore s1 ci).frags e).map (·.gen) = some f.gen) ∧
     (∀ s1 l, skipEntry s e f = some (s1, {}) → s.cur.core = ci → f.members = [u] → iLine s ci (plotCtx s ci old.plot) old.pc.toNat = some l →
       ∃ new, getThread s1 ci u = some new ∧ new.st = .ready ∧ new.pc = nextPc old.pc (lengthOf (lineWords l (old.pc.toNat / 4 % 32))) ∧ new.regs = old.regs)) ∧
   (∀ (p : Pipe) (px : Option Px) (s : State) (t e : Nat) (th : Thread) (f : Frag), drillThreads (.nop p px) s = [(t, th)] → actOn (.nop p px) th = true →
     th.stepping = some e → tget (getCore s s.cur.core).frags e = some f → f.stepping = [t] →
     ∃ s' new g, exec (.nop p px) s = .next s' ∧ getThread s' s.cur.core t = some new ∧ new.st = .parked e ∧ new.stepping = none ∧ new.pc = after s ∧
       new.dbgst = (th.dbgst &&& ~~~(3 : Word)) ||| 2 ∧ tget (getCore s' s.cur.core).frags e = some g ∧ g.gen = f.gen ∧ g.group = 11 ∧ g.det0 = 2 ∧
       g.det1 = (new.dbgst &&& 7) ||| (if (getPlot (getCore s s.cur.core) th.plot).att then 0x80 else 0) ∧ new.cause = fragCause e g) ∧
   (∀ (s : State) (ci pl e t : Nat) (p : Plot) (f : Frag) (rest : List Nat), WellKept s → tget (getCore s ci).plots pl = some p → oldestPending (getCore s ci) pl = some (e, f) →
     SpillsOk s ci → handlerSlots (getCore s ci) pl = t :: rest → p.hdr.hnd = true → p.frozen = none → transferTo s ci pl p.hdr.hentry = (.ok, s) →
     ∃ s' new, exec (.handlerDelivery ci pl) s = .next s' ∧ getThread s' ci t = some new ∧ new.pc = p.hdr.hentry ∧ new.st = .ready ∧ new.role = 4 ∧ new.sheaf = none ∧
       new.preds = 1 ∧ (List.range 8).map (fun r => (tget new.regs r).map (·.val)) =
         [some (BitVec.ofNat 32 (ci * 2 ^ 20 + f.gen % 2 ^ 10 * 2 ^ 10 + e)), some (BitVec.ofNat 32 (f.kind * 2 ^ 30 + deviceNo s * 2 ^ 16)), some (fragCause e f),
           some f.det0, some f.det1, some f.det2, none, none] ∧
       (tget (getCore s' ci).frags e).map (·.delivery) = some .delivered))

/-! ### Engines (07_async_engines_model, 15_isa_sync_engines, 21_program_two_communicators) -/

/-- R138, R140, R142, R150, R271, R274: `copy.start` on a reserved channel with room queues its command and leaves its pair empty, on a full queue it waits, on a
channel that is not reserved it faults; `copy.cancel` empties the queue; `copy.wpr` gives the pointer; `gath` opens a gather of its block's
fields with `prog` 0, and waits where the thread has one.
R93, R139 to R141, R150: a command at the head of its queue that passes the checks of its block and record is accepted, and its pair fills with the pointer at which
its stream will end; one that fails them freezes the channel and raises an engine fragment. A chunk of 16 bytes holds the elements in order, zeros outside
an extent; when it is delivered the pointer and the object have moved by its bytes. A gather copies one element and credits its object. -/
def Obligations.Engines : Prop :=
  (∀ (p : Pipe) (px : Option Px) (ch : BitVec 4) (d : RegNo) (a : Src) (s : State) (t : Nat) (th : Thread),
     (let ci := s.cur.core
      let cl := clusterOf ci
      let own := (getPlot (getCore s ci) th.plot).hdr.copych.testBit ch.toNat
      let k := getChannel s cl ch.toNat
      (∀ pos, own = true → checkScratch s ci th.plot (sv th a).toNat 32 32 4 false = .ok pos → Alone (.copyStart p px ch d a) s t th →
        (k.cmds.length < 4 → Finishes (.copyStart p px ch d a) s (updChannel { s with nextId := s.nextId + 1 } cl ch.toNat fun k => { k with cmds := k.cmds ++
          [{ core := ci, plot := th.plot, tids := [t], dreg := d.toNat, prod := s.nextId, unif := isUnif s, blk := (sv th a).toNat }] }) t
          { awaits := [d.toNat, d.toNat + 1], prod := s.nextId } (after s)) ∧
        (4 ≤ k.cmds.length → FinishesWaiting (.copyStart p px ch d a) s s t (.retry 9))) ∧
      (own = false → (getCore s ci).frags = [] →
        (Alone (.copyStart p px ch d a) s t th → ∃ s', exec (.copyStart p px ch d a) s = .next s' ∧ ParksWith (engFault 6 1 ch.toNat (sv th a).toNat 0) s s' t) ∧
        (Alone (.copyCancel p px ch) s t th → ∃ s', exec (.copyCancel p px ch) s = .next s' ∧ ParksWith (engFault 6 1 ch.toNat 0 0) s s' t) ∧
        (Alone (.copyWpr p px ch d) s t th → ∃ s', exec (.copyWpr p px ch d) s = .next s' ∧ ParksWith (engFault 6 1 ch.toNat 0 0) s s' t)) ∧
      (own = true → Alone (.copyWpr p px ch d) s t th → Finishes (.copyWpr p px ch d) s s t (toPair d (BitVec.ofNat 64 k.wptr)) (after s)) ∧
      (own = true → Alone (.copyCancel p px ch) s t th → WellKept s → (∀ c ∈ k.cmds, t ∉ c.tids) → ∃ s1, Finishes (.copyCancel p px ch) s s1 t {} (after s) ∧
        (getChannel s1 cl ch.toNat).cmds = [] ∧ (getChannel s1 cl ch.toNat).wptr = k.wptr) ∧
      (∀ pos, checkScratch s ci th.plot (sv th a).toNat 32 32 4 false = .ok pos → Alone (.gath p px a) s t th →
        (let w := fun o => memNat (getCluster s cl).scratch (pos + o) 4
         ((∀ g ∈ (getCore s ci).gathers, t ∉ g.tids) → ∃ g : Gather, Finishes (.gath p px a) s
            (updThreads (updCore { s with nextId := s.nextId + 1 } ci fun c => { c with gathers := c.gathers ++ [g] }) ci [t] fun x => { x with longOp := some s.nextId, prog := 0 })
            t {} (after s) ∧
            g.id = s.nextId ∧ g.base = w 0 + 2 ^ 32 * w 4 ∧ g.idx = w 8 ∧ g.cnt = w 0xC % 2 ^ 16 + 1 ∧ g.esz = w 0x10 % 2 ^ 9 ∧ g.stride = w 0x14 ∧ g.dest = w 0x18 ∧
            g.obj = w 0x1C ∧ g.done = 0 ∧ g.tids = [t] ∧ g.plot = th.plot ∧
            (w 8 ≥ 2 ^ 22 ∨ w 0xC ≥ 2 ^ 16 ∨ w 0x10 ≥ 2 ^ 9 ∨ w 0x18 ≥ 2 ^ 22 ∨ w 0x1C ≥ 2 ^ 22 ∨ w 0x1C % 16 ≠ 0 ∨ g.esz = 0 ∨ 256 < g.esz ∨ g.esz % 16 ≠ 0 → g.bad = some 4)) ∧
         ((∃ g ∈ (getCore s ci).gathers, t ∈ g.tids) → FinishesWaiting (.gath p px a) s s t (.retry 10)))))) ∧
  ((∀ (s : State) (cl ch : Nat) (c : CopyCmd) (rest : List CopyCmd), WellKept s → (getChannel s cl ch).cmds = c :: rest → c.accepted = false →
     channelMoves s (getChannel s cl ch) = true → c.tids.Nodup → SpillsOk s c.core →
     (let w0 := (getChannel s cl ch).wptr
      (∀ c', acceptCmd s c = .ok c' → ∃ s', exec (.copyCommandAccept cl ch) s = .next s' ∧ (getChannel s' cl ch).cmds = c' :: rest ∧ (getChannel s' cl ch).wptr = w0 ∧
        (∃ r pos, tensorOf s (plotCtx s c.core c.plot) (memNat (getCluster s (clusterOf c.core)).scratch pos 4) = .ok r ∧ scratchPos s c.core c.plot c.blk 32 = some pos ∧
          c'.accepted = true ∧ c'.base = r.base ∧ c'.esz = r.esz ∧ c'.extents = r.extents ∧ c'.strides = r.strides ∧ c'.boxes = r.boxes ∧ c'.dest % 16 = 0 ∧ c'.rot < 4 ∧
          c'.dest = memNat (getCluster s (clusterOf c.core)).scratch (pos + 0x18) 4 ∧ (scratchPos s c.core c.plot c'.dest c'.total).isSome = true) ∧
        ∀ t th, t ∈ c.tids → getThread s c.core t = some th → (∀ r, r = c.dreg ∨ r = c.dreg + 1 → ∃ x, tget th.regs r = some x ∧ x.st = .empty ∧ x.prod = c.prod) →
          ∃ new, getThread s' c.core t = some new ∧ (tget new.regs c.dreg).map (·.val) = some (BitVec.ofNat 32 (w0 + c'.total)) ∧
            (tget new.regs (c.dreg + 1)).map (·.val) = some (BitVec.ofNat 32 ((w0 + c'.total) / 2 ^ 32))) ∧
      (∀ sub, acceptCmd s c = .error sub → (getCore s c.core).frags = [] → ∃ s' e g, exec (.copyCommandAccept cl ch) s = .next s' ∧ (getChannel s' cl ch).frozen = true ∧
        (getChannel s' cl ch).cmds = c :: rest ∧ (∀ k, (getCluster s' k).scratch = (getCluster s k).scratch) ∧ tget (getCore s' c.core).frags e = some g ∧ g.kind = 1 ∧
        g.unit = ch ∧ g.plot = c.plot ∧ g.group = 7 ∧ g.det0 = (engFault sub 1 ch c.blk c.done).det0))) ∧
   (∀ (s s1 : State) (cl ctx row k va pa : Nat) (nc : Bool) (c : CopyCmd), k < c.boxes.headD 1 →
     (elemAddr c row k = none → chunkBytes cl ctx c row [k] s = (.ok (List.replicate c.esz 0), s)) ∧
     (elemAddr c row k = some va → engPlan s (some cl) ctx va c.esz false = (.ok [(.here pa nc, c.esz)], s1) → pa % 128 + c.esz ≤ 128 → (∀ j, j < c.esz → inSavedSlot s1 (pa + j) = false) →
       (pa < Config.hbmBytes → tgetD s1.lineKeys (pa / 128 * 128) 0 = ctxKey s1 ctx) →
       (chunkBytes cl ctx c row [k] s).1 = .ok ((List.range c.esz).map fun j => memGet s1.mem (pa + j)))) ∧
   (∀ (s s2 : State) (cl ch : Nat) (c : CopyCmd) (rest : List CopyCmd) (bs : List Byte) (pos : Nat), WellKept s → (getChannel s cl ch).cmds = c :: rest → c.accepted = true →
     channelMoves s (getChannel s cl ch) = true → (getChannel s cl ch).job = none → c.rot = 0 → clusterOf c.core = cl → deliverChunk s cl c c.done = (.ok bs, s2) →
     scratchPos s c.core c.plot (c.dest + c.done) 16 = some pos →
     memNat (getCluster s2 cl).scratch pos 16 = leNat bs % 256 ^ 16 ∧
     (∀ o x, c.obj = some o → scratchPos s c.core c.plot o 16 = some x → objWaiters s2 cl x = [] →
       ∃ s', exec (.copyChunkDelivery cl ch) s = .next s' ∧ (getChannel s' cl ch).wptr = ((getChannel s cl ch).wptr + 16) % 2 ^ 64 ∧
         (getChannel s' cl ch).cmds = (if c.total ≤ c.done + 16 then rest else { c with done := c.done + 16 } :: rest) ∧
         (getCluster s' cl).scratch = (getCluster (putObj s2 cl x (objStep { objAt s2 cl x with bytes := (objAt s2 cl x).bytes - 16, lsrc := 2 ^ 14 + cl % 2 ^ 8 * 16 + ch })) cl).scratch) ∧
     (c.obj = none → ∃ s', exec (.copyChunkDelivery cl ch) s = .next s' ∧ (getChannel s' cl ch).wptr = ((getChannel s cl ch).wptr + 16) % 2 ^ 64 ∧
       (getCluster s' cl).scratch = (getCluster s2 cl).scratch ∧
       ∀ ci t target th, clusterOf ci = cl → getThread s ci t = some th → th.st = .waiting (.pointer ch target) → target ≤ (getChannel s' cl ch).wptr →
         channelOwned s ci th.plot ch = true → th.stepping = none → WakesUp s s' ci t)) ∧
   (∀ (s s1 s2 : State) (ci ip dp op : Nat) (g : Gather) (l : List (Loc × Nat)) (bs : List Byte), WellKept s → (getCore s ci).gathers.find? (fun x => x.id == g.id) = some g →
     g.frozen = false → (getPlot (getCore s ci) g.plot).frozen = none → g.bad = none →
     scratchPos s ci g.plot (g.idx + 4 * g.done) 4 = some ip → scratchPos s ci g.plot (g.dest + g.done * g.esz) g.esz = some dp → scratchPos s ci g.plot g.obj 16 = some op →
     engPlan s (some (clusterOf ci)) (plotCtx s ci g.plot) (g.base + memNat (getCluster s (clusterOf ci)).scratch ip 4 * g.stride) g.esz false = (.ok l, s1) →
     planRead s1 (plotCtx s ci g.plot) l = (bs, s2) → objWaiters s2 (clusterOf ci) op = [] → (op + 16 ≤ dp ∨ dp + g.esz ≤ op) →
     ∃ s', exec (.gatherElement ci g.id) s = .next s' ∧ memNat (getCluster s' (clusterOf ci)).scratch dp g.esz = leNat bs % 256 ^ g.esz ∧
       (g.cnt ≤ g.done + 1 → ∀ x ∈ (getCore s' ci).gathers, x.id ≠ g.id) ∧ (g.done + 1 < g.cnt → ∃ x ∈ (getCore s' ci).gathers, x.id = g.id ∧ x.done = g.done + 1) ∧
       (let x := objAt s2 (clusterOf ci) op
        memNat (getCluster s' (clusterOf ci)).scratch (op + 4) 4 = (BitVec.ofInt 32 (objStep { x with bytes := x.bytes - g.esz }).bytes).toNat) ∧
       ∀ t th, t ∈ g.tids → getThread s ci t = some th → th.longOp = some g.id → ∃ new, getThread s' ci t = some new ∧ new.prog = BitVec.ofNat 32 (g.done + 1)))

/-- R144 to R147, R272, R318 to R320, R424: `coll.start` puts its block's operation behind those of its communicator; on a communicator that is not open it raises an engine
fragment. An engine takes the ready operation of highest priority, the oldest among equals, and starts its next step. A chunk that lands belongs to the first step that lacks it; elements are
combined rank 0 first, each step rounded to nearest. A peer's room comes back by the bytes of a chunk it has written. A step that is sent, written and owed nothing ends; after the last one the object has its arrival, and the count rises; a step past its deadline is recorded once. -/
def Obligations.Collectives : Prop :=
  (∀ (p : Pipe) (px : Option Px) (d : RegNo) (a : Src) (s : State) (t : Nat) (th : Thread),
    (let ci := s.cur.core
     (∀ pos, checkScratch s ci th.plot (sv th a).toNat 64 64 4 false = .ok pos → Alone (.collStart p px a) s t th →
       (let w := fun o => memNat (getCluster s (clusterOf ci)).scratch (pos + o) 4
        let w2 := fun o => memNat (getCluster s (clusterOf ci)).scratch (pos + o) 8
        collWordsBad (w 0) (w 4) = false → (∀ k, k < 7 → w (0x24 + 4 * k) = 0) → w 0x20 < 2 ^ 22 → w 0x20 % 16 = 0 → (scratchPos s ci th.plot (w 0x20) 16).isSome = true →
        ∃ o : CollOp, o.comm = w 0 % 256 ∧ o.op = w 0 / 2 ^ 20 % 16 ∧ o.type = w 0 / 2 ^ 16 % 16 ∧ o.red = w 0 / 2 ^ 12 % 16 ∧ o.pri = w 0 / 2 ^ 8 % 16 ∧ o.root = w 4 / 2 ^ 16 ∧
          o.chunk = 1024 * (if w 4 % 2 ^ 9 = 0 then 64 else w 4 % 2 ^ 9) ∧ o.src = w2 8 ∧ o.dst = w2 0x10 ∧ o.count = w2 0x18 ∧ o.obj = w 0x20 ∧ o.issued = s.now ∧
          o.core = ci ∧ o.plot = th.plot ∧
          (∀ c, tget s.comms o.comm = some c → c.ctx = plotCtx s ci th.plot → (o.op ≠ 3 ∨ o.root < c.ranks.length) →
            Finishes (.collStart p px a) s (collAdvance (collArrive { s with nextId := s.nextId + 1 } o) o.comm) t {} (after s) ∧
            ∃ b c', tget (collArrive { s with nextId := s.nextId + 1 } o).comms o.comm = some c' ∧ c'.ops = c.ops ++ [{ o with base := b }] ∧ c'.done = c.done) ∧
          (tget s.comms o.comm = none → (getCore s ci).frags = [] → Finishes (.collStart p px a) s (collRefuse { s with nextId := s.nextId + 1 } o 7) t {} (after s) ∧
            ∃ e g, tget (getCore (collRefuse { s with nextId := s.nextId + 1 } o 7) ci).frags e = some g ∧ g.kind = 2 ∧ g.group = 7 ∧ g.det0.toNat % 2 ^ 8 = 7))) ∧
     (Alone (.collQuery p px d a) s t th → ∀ c, tget s.comms ((sv th a).toNat % 256) = some c → c.ctx = plotCtx s ci th.plot →
       Finishes (.collQuery p px d a) s s t (toReg d c.done) (after s)) ∧
     (Alone (.collQuery p px d a) s t th → tget s.comms ((sv th a).toNat % 256) = none → (getCore s ci).frags = [] →
       ∃ s', exec (.collQuery p px d a) s = .next s' ∧ ParksWith (engFault 7 2 0 0 0) s s' t))) ∧
  (∀ (l : List (Nat × Nat × Nat)) (k : Nat), bestComm l = some k → ∃ x ∈ l, x.1 = k ∧ ∀ y ∈ l, y.2.1 < x.2.1 ∨ (y.2.1 = x.2.1 ∧ x.2.2 ≤ y.2.2)) ∧
  (∀ (s s1 : State) (e k : Nat) (c : Comm) (o : CollOp) (rest : List CollOp) (l : List (Loc × Nat)), tsorted s.comms = true → bestComm (readyComms s e) = some k →
    tget s.comms k = some c → c.ops = o :: rest → (∀ st ∈ o.steps, st.idx < o.next) → planRanges s c.ctx o.src (collWidth o) false (unitRanges o c o.next) = (.ok l, s1) →
    ∃ s' c' o' st, exec (.collUnitStart e) s = .next s' ∧ tget s'.comms k = some c' ∧ c'.ops = o' :: rest ∧ o'.next = o.next + 1 ∧ st ∈ o'.steps ∧ st.idx = o.next ∧ st.sent = true ∧
      st.start = s1.now ∧ ∀ q, q < c.ranks.length → q ≠ c.me → tgetD c'.room q 0 = tgetD c.room q 0 - unitBytes o c o.next q) ∧
  (∀ (s : State) (k rank : Nat) (cid : DWord) (data : List Byte) (c : Comm) (o : CollOp) (rest : List CollOp) (st : CollStep), tsorted s.comms = true → tget s.comms k = some c →
    c.ops = o :: rest → o.steps = [st] → rank ≠ c.me → rank < c.ranks.length → rank ∈ needed o c st.idx → o.early = [] → st.idx = o.ended → o.ended < collSteps o c.ranks.length → tget st.got rank = none → (∀ q, tgetD c.landed q [] = []) →
    ∃ s' c' o' st', exec (.collChunkReceived k rank cid data) s = .next s' ∧ tget s'.comms k = some c' ∧ c'.ops = o' :: rest ∧ o'.steps = [st'] ∧ st'.idx = st.idx ∧
      tget st'.got rank = some data ∧ tget c'.lastCid rank = some cid) ∧
  (∀ (devs : List Nat) (o : CollOp) (x y : Nat), devs.length = 2 → redElems devs o [x, y] = redTwo o.type o.red x y) ∧
  (∀ (f : Fmt) (type red x y : Nat), fmtOf type = some f → finite f x → finite f y → red = 0 → valOf f x + valOf f y ≠ 0 → |valOf f x + valOf f y| ≤ valOf f f.maxFinite →
    f ∈ [fF32, fF16, fBf16] → RoundsTo f 0 (valOf f x + valOf f y) (redTwo type red x y)) ∧
  (∀ (s : State) (k : Nat) (c : Comm) (o : CollOp) (rest : List CollOp), tsorted s.comms = true → tget s.comms k = some c → c.ops = o :: rest → hasUnit o c o.next = true → o.early = [] →
    (∀ q, tgetD c.landed q [] = []) → o.frozen = false →
    (o.steps = [] → c.owed ≠ [] → (∀ x ∈ c.owed, notArrived s k c x = false) → ∃ s' c' x, exec (.collStepEnd k) s = .next s' ∧ tget s'.comms k = some c' ∧ x ∈ c.owed ∧ c'.owed = c.owed.erase x ∧
      tgetD c'.room x.2.2.1 0 = tgetD c.room x.2.2.1 0 + x.2.2.2.1 ∧ tget c'.lastCid x.2.2.1 = some x.2.2.2.2 ∧ c'.ops = c.ops) ∧
    (∀ st more, o.steps = st :: more → (∀ x ∈ o.steps, x.written = true) → st.sent = true → c.owed = [] →
      ∃ s' c' o', exec (.collStepEnd k) s = .next s' ∧ tget s'.comms k = some c' ∧ c'.ops = o' :: rest ∧ o'.steps = more ∧ o'.ended = o.ended + 1) ∧
    (∀ pos, o.steps = [] → collSteps o c.ranks.length ≤ o.ended → (o.gwct = 0 ∨ o.gwct < s.now) → rest = [] → o.node = none → o.savedAt = none →
      scratchPos s o.core o.plot o.obj 16 = some pos → objWaiters s (clusterOf o.core) pos = [] →
      (let x := objAt s (clusterOf o.core) pos
       ∃ s' c', exec (.collOperationComplete k) s = .next s' ∧ tget s'.comms k = some c' ∧ c'.ops = [] ∧ c'.done = c.done + 1 ∧
         s'.clusters = (putObj s (clusterOf o.core) pos (objStep { x with arr := (x.arr + 2 ^ 14 - 1) % 2 ^ 14, lsrc := 2 * 2 ^ 14 + c.engine })).clusters)) ∧
    (∀ st, o.steps = [st] → st.warned = false → stepDeadline s k c o st ≤ s.now → regBit s (0x130000 + 8 * k) 30 = false →
      ∃ s' c' o' st', exec (.collWatchdogExpiry k) s = .next s' ∧ tget s'.comms k = some c' ∧ c'.ops = o' :: rest ∧ o'.steps = [st'] ∧ st'.warned = true ∧ st'.idx = st.idx ∧
        (regBit s (0x130000 + 8 * k) 31 = true → s'.ports = s.ports) ∧
        (regBit s (0x130000 + 8 * k) 31 = false → (tgetD s.ports (portOf (unitOf 2 c.engine)) []).length < 16 →
          ∃ r, tgetD s'.ports (portOf (unitOf 2 c.engine)) [] = tgetD s.ports (portOf (unitOf 2 c.engine)) [] ++ [r] ∧ r.type = 0x0114 ∧ r.time = stepDeadline s k c o st)))

/-- R55, R148, R149, R152, R177, R356 to R359, R53: a line that is fetched stands in the instruction cache as its home holds it and its threads may issue after the
latency of its level, and a fetch that cannot be translated or is not canonical faults the threads on the line; a walk that ends, from the cluster's
page-walk cache or the root, fills the TLBs or notes its failure, and its drill stands to be issued again; a fallow register comes back from its place in the
fallow store, where its bank has room; without a store the thread faults with group 12 and the core's plots freeze. A fabric request without a response within FTMO
faults its threads at their access, or for a store is noted with its threads and those whose release waits for it, or breaks its object. -/
def Obligations.FetchWalkRefillTimeout : Prop :=
  (∀ (s s1 : State) (ci va pl pa : Nat) (nc : Bool) (t0 : Nat) (th0 : Thread), WellKept s → getThread s ci t0 = some th0 → th0.st = .ready →
    (getPlot (getCore s ci) pl).frozen = none → (tget (getCore s ci).plots pl).isSome = true → th0.plot = pl → th0.pc.toNat / 128 = va / 128 → heldLine s ci th0 = none →
    (∀ t th, getThread s ci t = some th → th.pc.toNat / 128 = va / 128 → th.plot = pl) →
    iLine s ci (plotCtx s ci pl) va = none →
    (canonical va = true → engTranslate s (some (clusterOf ci)) (plotCtx s ci pl) va false = (.ok (.here pa nc), s1) → pageBusy s1 (.here pa nc) = false →
      ∃ s' l, exec (.icacheLineFill ci va) s = .next s' ∧ s'.mem = s.mem ∧ tget (getCore s' ci).icache (iKey (plotCtx s ci pl) va) = some l ∧
        l.data.toNat = leNat (keyedRead s (ctxKey s (plotCtx s ci pl)) (pa / 128 * 128) 128) ∧ l.due = (getCore s ci).cyc + missLatency s1 ci (.here pa nc) ∧
        ∀ t th, getThread s ci t = some th → ∃ new, getThread s' ci t = some new ∧ { new with onLine := th.onLine } = th ∧
          (th.st = .ready → th.pc.toNat / 128 = va / 128 → heldLine s ci th = none → new.onLine = some (va / 128))) ∧
    (canonical va = false → (getCore s ci).frags = [] → (∀ t th, getThread s ci t = some th → th.stepping = none) →
      ∃ s', exec (.icacheLineFill ci va) s = .next s' ∧ ∀ t th, getThread s ci t = some th → th.st = .ready → th.pc.toNat / 128 = va / 128 → heldLine s ci th = none →
        ParksOn ci (if th.fresh then flowFault th.pc else memFault 3 2 false false th.pc.toNat) s s' t) ∧
    (∀ sub d, canonical va = true → engTranslate s (some (clusterOf ci)) (plotCtx s ci pl) va false = (.fault sub d, s1) → (getCore s ci).frags = [] →
      (∀ t th, getThread s ci t = some th → th.stepping = none) →
      ∃ s', exec (.icacheLineFill ci va) s = .next s' ∧ ∀ t th, getThread s ci t = some th → th.st = .ready → th.pc.toNat / 128 = va / 128 → heldLine s ci th = none →
        ParksOn ci (memFault sub 2 false false th.pc.toNat) s s' t)) ∧
  (∀ (s : State) (cl ctx va : Nat), walkHit (getCluster s cl).walkCache ctx va = none → (clusterWalk s cl ctx va).1 = walkTables s ctx va) ∧
  (∀ (s : State) (cl n : Nat) (w : Walk) (d : Drill), WellKept s → tsorted (getCluster s cl).walks = true → tget (getCluster s cl).walks n = some w →
    (n, w) ∈ (getCluster s cl).walks.take 32 → w.drills = [d] →
    (∀ tr, (clusterWalk s cl w.ctx w.page).1 = .ok tr → ∃ s', exec (.pageWalkComplete cl n) s = .next s' ∧ s'.mem = s.mem ∧ tget (getCluster s' cl).walks n = none ∧
      tr ∈ (getCluster s' cl).tlb ∧ tr ∈ (getCore s' d.core).tlb ∧ s'.issued = s.issued ∧ s'.walked = s.walked ++ [d] ∧
      ∀ t, getThread s' d.core t = getThread s d.core t) ∧
    (∀ sub k, (clusterWalk s cl w.ctx w.page).1 = .fail sub k → ∃ s', exec (.pageWalkComplete cl n) s = .next s' ∧ s'.mem = s.mem ∧ tget (getCluster s' cl).walks n = none ∧
      s'.issued = s.issued ∧ s'.walked = s.walked ++ [{ d with failed := (w.page, sub) :: d.failed }])) ∧
  (∀ (s : State) (ci t r b : Nat) (th : Thread) (x : RegCell), WellKept s → getThread s ci t = some th → tget th.regs r = some x → x.st = .fallow →
    fallowBase (getCore s ci) = some b → s.bad = [] →
    (x.uni = false → (∀ k, k < 4 → ownLine s (b + 256 * t + 4 * r + k)) →
      (let c := updThreadC (getCore s ci) t fun th => { th with regs := tput th.regs r { x with st := .full } }
       borrowedSum c (laneOf t) ≤ lendable c (laneOf t)) → ∃ s' new y, exec (.fallowRefill ci t r) s = .next s' ∧ getThread s' ci t = some new ∧ tget new.regs r = some y ∧ y.st = .full ∧
      y.val = BitVec.ofNat 32 (memNat s.mem (b + 256 * t + 4 * r) 4) ∧ y.tag = x.tag ∧ new.pc = th.pc ∧ new.st = th.st ∧ new.preds = th.preds) ∧
    (∀ k, x.uni = true → th.sheaf = some k → (∀ j, j < 8 → ownLine s (b + 2 ^ 16 + 512 * k + 8 * r + j)) →
      (let full : Nat → Thread → Thread := fun u th' =>
         if u = t ∨ th'.sheaf = some k then { th' with regs := tupd th'.regs r fun y => if y.uni then { y with st := .full } else y } else th'
       uniUse { getCore s ci with threads := tmap (getCore s ci).threads full } (slotOf t) ≤ Config.uniformBankSize) →
      (let place := b + 2 ^ 16 + 512 * k + 8 * r
       let v : Word := BitVec.ofNat 32 (memNat s.mem place 4)
       let d : Word := BitVec.ofNat 32 (memNat s.mem (place + 4) 4)
       ∃ s' new y, exec (.fallowRefill ci t r) s = .next s' ∧ getThread s' ci t = some new ∧ tget new.regs r = some y ∧ y.st = .full ∧
         (x.tag = .uniform → y.val = v ∧ y.tag = .uniform) ∧
         ((∃ a c, x.tag = .affine a c) → y.val = v + d * BitVec.ofNat 32 th.rank ∧ y.tag = .affine v d)))) ∧
  (∀ (s : State) (ci t r : Nat) (th : Thread) (x : RegCell), getThread s ci t = some th → tget th.regs r = some x → x.st = .fallow →
    fallowBase (getCore s ci) = none → WellKept s → ∃ s', exec (.fallowRefill ci t r) s = .next s' ∧ ∀ q p, tget (getCore s ci).plots q = some p → p.frozen = none →
      (tget (getCore s' ci).plots q).map (·.frozen) = some (some 12) ∧
      ((getCore s ci).frags = [] → th.stepping = none → (∀ e, th.st ≠ .parked e) → (∀ k, th.st ≠ .saved k) → ∃ f, f.group = 12 ∧ ParksOn ci f s s' t)) ∧
  (∀ (s : State) (id dev pa : Nat), WellKept s →
    (let late := fun at_ => at_ + 4000 * (regN s 0x100008 % 2 ^ 16) ≤ s.now
     let gone := fun s' : State => tget s'.reqs id = none
     let f := fun seq => fabFault (if onStalled s seq then 3 else 1)
     (∀ o p, tget s.reqs id = some (.load o) → o.parts = [p] → p.data = none → p.loc = .there dev pa → o.also = [] → o.zeros = [] → o.nreg ≠ 0 →
       (¬ late o.at_ → exec (.fabricResponseTimeout id) s = .next s) ∧
       (late o.at_ → (getCore s o.core).frags = [] → ∀ th, getThread s o.core p.tid = some th → TakesLate th →
         ∃ s', exec (.fabricResponseTimeout id) s = .next s' ∧ gone s' ∧ ParksLate o.core (f p.seq p.va) id o.pc p.cells s s' p.tid)) ∧
     (∀ o x, tget s.reqs id = some (.atomic o) → o.sp = false → o.performed = false → o.loc = .there dev pa → o.steps = [x] → late o.at_ →
       (o.ret = true → (getCore s o.core).frags = [] → (∀ e ∈ s.reqs, ∀ q, e.1 ≠ id → e.2 = .atomic q → q.core = o.core → q.drill ≠ o.drill) →
         ∀ th, getThread s o.core x.tid = some th → TakesLate th →
         ∃ s', exec (.fabricResponseTimeout id) s = .next s' ∧ gone s' ∧ ParksLate o.core (f id x.va) o.drill o.pc x.cells s s' x.tid) ∧
       (o.ret = false → ∀ th, getThread s o.core x.tid = some th → ∃ s', exec (.fabricResponseTimeout id) s = .next s' ∧ gone s' ∧ s'.mem = s.mem ∧
         getThread s' o.core x.tid = some { th with lostAt := some (th.lostAt.getD x.va) })) ∧
     (∀ o, tget s.reqs id = some (.wback o) → o.dev = some dev → late o.sent → ∃ s', exec (.fabricResponseTimeout id) s = .next s' ∧ gone s' ∧ s'.mem = s.mem ∧
       ∀ ci t th, (∃ x ∈ o.tids, ci = x / 256 ∧ t = x % 256) ∨ (ci, t) ∈ fabricWaiters s o → getThread s ci t = some th →
         getThread s' ci t = some { th with lostAt := some (th.lostAt.getD o.line) }) ∧
     (∀ o, tget s.reqs id = some (.ldsp o) → o.data = none → o.src = .there dev pa → late o.at_ → objWaiters s (clusterOf o.core) o.obj = [] →
       (let x := objAt s (clusterOf o.core) o.obj
        ∃ s', exec (.fabricResponseTimeout id) s = .next s' ∧ gone s' ∧
          s'.clusters = (putObj s (clusterOf o.core) o.obj (objStep { x with brk := true, eng := (x.eng + 2 ^ 16 - 1) % 2 ^ 16 })).clusters)) ∧
     (∀ o, tget s.reqs id = some (.stn o) → o.gwct = none → o.dst = .there dev pa → late o.at_ → objWaiters s (clusterOf o.core) o.obj = [] →
       (let x := objAt s (clusterOf o.core) o.obj
        ∃ s', exec (.fabricResponseTimeout id) s = .next s' ∧ gone s' ∧
          s'.clusters = (putObj s (clusterOf o.core) o.obj (objStep { x with brk := true, eng := (x.eng + 2 ^ 16 - 1) % 2 ^ 16 })).clusters ∧
          (o.also = [] → inFabricFence s o.core o.tid = true → ∀ th, getThread s o.core o.tid = some th →
            getThread s' o.core o.tid = some { th with lostAt := some (th.lostAt.getD o.va) })))))

/-- R12 to R14, R32, R33, R35, R293, R399: an issue cycle is a cycle of every core whose clock ticks and of device time; a drill that it issues is of ready, eligible threads of one slot at one
PC, one plot and one role, in at most 8 tines, and in the uniform pipe of one sheaf, or of threads of a drill that has waited for walks or fences; an overdue thread supplies before any other, the earliest first, and a thread
of low priority only where there is no other; a thread is overdue in the cycle 4,096 after it became ready; the window of `yield` ends.
R162, R164, R263: a stop request marks every part of a plot that is not frozen, where save slots are free for it, with its cycle; threads that wait are saved at once, in full, but for one whose
matrix step has begun; after 16,384 cycles a ready thread that is not stepped is saved in full. -/
def Obligations.IssueAndStops : Prop :=
  ((∀ s : State, WellKept s → ∃ s', exec .issueCycle s = .next s' ∧ s'.ticks = s.ticks + 5 ∧
     (s.disc.slew = 0 → s'.now = s.now + ((s.ticks + 5) / 3 - s.ticks / 3)) ∧
     (∀ ci c, ci < 4096 → tget s.cores ci = some c →
       (getCore s' ci).cyc = c.cyc + (if (getCluster s (clusterOf ci)).droop = false ∧
         (s.ticks / 5 + 1) * (24 - (getCluster s (clusterOf ci)).slow) / 24 ≠ s.ticks / 5 * (24 - (getCluster s (clusterOf ci)).slow) / 24 then 1 else 0)) ∧
     ∀ d ∈ s'.issued, d ∈ s.issued ∨ d.coll = true ∨
       (d.walked = true ∧ ∃ w ∈ s.walked, w.core = d.core ∧ w.pc = d.pc ∧ ∀ t ∈ d.tids, t ∈ w.tids ∧ ∃ th, getThread s' d.core t = some th ∧ th.pc = d.pc ∧ th.st = .ready) ∨
       (d.sup ∈ d.tids ∧ ((d.tids.map tineOf).eraseDups).length ≤ 8 ∧
        ∀ t ∈ d.tids, slotOf t = d.slot ∧ ∃ sup th, getThread s' d.core d.sup = some sup ∧ getThread s' d.core t = some th ∧ th.pc = d.pc ∧ th.st = .ready ∧
          th.plot = sup.plot ∧ th.role = sup.role ∧ th.eligible ≤ (getCore s' d.core).cyc ∧ (getPlot (getCore s' d.core) th.plot).frozen = none ∧
          (d.pipe = .unif → th.sheaf = sup.sheaf ∧ (th.sheaf = none → t = d.sup)))) ∧
   (∀ (c : Core) (p : Pol) (pool : List Cand) (x : Cand), supplier c p pool = some x → x ∈ pool ∧
     (∀ y ∈ pool, ∀ n, y.th.overdue = some n → ∃ m, x.th.overdue = some m ∧ m ≤ n) ∧
     ((∀ y ∈ pool, y.th.overdue = none) → (∃ y ∈ pool, ∀ n, y.th.lowUntil = some n → n < c.cyc) → ∀ n, x.th.lowUntil = some n → n < c.cyc) ∧
     (c.roundRobin = false → (∀ y ∈ pool, y.th.overdue = none ∧ y.th.lowUntil = none ∧ y.th.born < 256 ∧ y.tid < 256) →
       (∀ pc plot role, p.kept = some (pc, plot, role) → (∃ y ∈ pool, y.th.pc = pc ∧ y.th.plot = plot ∧ y.th.role = role) →
         x.th.pc = pc ∧ x.th.plot = plot ∧ x.th.role = role) ∧
       ((∀ pc plot role, p.kept = some (pc, plot, role) → ∀ y ∈ pool, ¬ (y.th.pc = pc ∧ y.th.plot = plot ∧ y.th.role = role)) →
         ∀ y ∈ pool, x.th.age ≤ y.th.age))) ∧
   (∀ s : State, ∃ s', exec .threadOverdue s = .next s' ∧ besides s' = besides s ∧ s'.mem = s.mem ∧
     ∀ ci c, tget s.cores ci = some c → ∃ c', tget s'.cores ci = some c' ∧ { c' with threads := c.threads } = c ∧
       ∀ t th, tget c.threads t = some th → ∃ new, tget c'.threads t = some new ∧ { new with overdue := th.overdue } = th ∧
         new.overdue = (if th.st = .ready ∧ th.overdue = none ∧ (getPlot c th.plot).frozen = none ∧ th.readySince + 4096 ≤ c.cyc + 1 then some (c.cyc + 1) else th.overdue)) ∧
   (∀ s : State, ∃ s', exec .yieldExpiry s = .next s' ∧ s'.mem = s.mem ∧ besides s' = besides s ∧
     ∀ ci c, tget s.cores ci = some c → ∃ c', tget s'.cores ci = some c' ∧ { c' with threads := c.threads } = c ∧
       ∀ t th, tget c.threads t = some th → ∃ new, tget c'.threads t = some new ∧ { new with lowUntil := th.lowUntil } = th ∧
         (∀ n, th.lowUntil = some n → (n ≤ c.cyc → new.lowUntil = none) ∧ (c.cyc < n → new.lowUntil = some n)))) ∧
  ((∀ (s : State) (ci pi : Nat) (p : Plot), WellKept s → tget (getCore s ci).plots pi = some p → p.frozen = none → p.stop = none → p.hdr.wide = false →
     (∀ cj, tget s.cores cj ≠ none → ∀ q r, tget (getCore s cj).plots q = some r → r.stop = none) → (getCore s ci).bins = [] →
     (∀ t th, getThread s ci t = some th → th.plot = pi → th.stepping = none) →
     p.saveAt.isSome = true ∨ (freeSlotsRun s 1).isSome = true →
     ∃ s' p', exec (.stopRequest ci pi) s = .next s' ∧ s'.mem = s.mem ∧ tget (getCore s' ci).plots pi = some p' ∧
       p' = { p with stop := some (getCore s ci).cyc, tileMask := 0, saveAt := p.saveAt.orElse fun _ => freeSlotsRun s 1 } ∧
       ∀ t th, getThread s ci t = some th → ∃ new, getThread s' ci t = some new ∧
         (th.plot ≠ pi → new = th) ∧ (th.plot = pi → (∀ w, th.st ≠ .waiting w) → new = th) ∧
         (th.plot = pi → ∀ w, th.st = .waiting w → (∀ id, w = .matrix id → (getCore s ci).mcur ≠ some id) → new.st = .saved true ∧ new.savedFull = true ∧ new.pc = th.pc ∧ new.regs = th.regs ∧ new.preds = th.preds ∧
           (∀ b seen, w = .barrier b seen → th.sheaf.isSome = true → tget new.rejoin b = some seen))) ∧
   (∀ (s : State) (ci pi : Nat) (p : Plot), tget (getCore s ci).plots pi = some p → p.frozen ≠ none → p.hdr.wide = false → exec (.stopRequest ci pi) s = .next s) ∧
   (∀ s : State, ∃ s', exec .stopFallbackExpiry s = .next s' ∧ s'.mem = s.mem ∧ besides s' = besides s ∧
     ∀ ci c, tget s.cores ci = some c → ∃ c', tget s'.cores ci = some c' ∧ { c' with threads := c.threads } = c ∧
       ∀ t th, tget c.threads t = some th → ∃ new, tget c'.threads t = some new ∧
         (∀ at_, (getPlot c th.plot).stop = some at_ → (getPlot c th.plot).frozen = none → th.st = .ready → th.stepping = none → at_ + 16384 ≤ c.cyc →
           new = { th with st := .saved false, savedFull := true }) ∧
         ((getPlot c th.plot).stop = none ∨ (getPlot c th.plot).frozen ≠ none ∨ th.st ≠ .ready ∨ th.stepping ≠ none → new = th)))

/-- R21, R24, R25, R62, R83, R122, R138, R345: admission gives the next plot of the first field that fits its resident index, its parameters at its scratchpad base, zeroed tiles, channels whose
pointers are 0, and for each sheaf its threads, ready at the role's entry with no register mapped; where it does not fit nothing is placed. R248: a plot retires
when its threads have exited and its accesses have ended, and then holds nothing; a frozen one does not. -/
def Obligations.PlotsComeAndGo : Prop :=
  (∀ (s : State) (ci run node : Nat) (f : Field), WellKept s → (run, node) ∈ waitingFields s → node < 4096 → s.staged = [] → (∀ e ∈ s.cores, e.2.stagedSlots = []) →
    firstToFit s { pri := queuePri s (getRun s run).queue, ready := f.readyAt, run := run, node := node, plot := f.next } = true → tget s.runs run ≠ none → (getRun s run).no = run → tget (getRun s run).fields node = some f → f.hdr.wide = false → f.hdr.fuse = false →
    (∀ pl, placeNow s ci f.hdr = some [(ci, pl)] →
      ∃ s' p, exec (.plotAdmission ci (run * 4096 + node)) s = .next s' ∧ s'.mem = s.mem ∧ tget (getCore s' ci).plots pl.idx = some p ∧
        p.hdr = f.hdr ∧ p.run = run ∧ p.node = node ∧ p.plotNo = f.next ∧ p.queue = (getRun s run).queue ∧ p.ctx = (getRun s run).ctx ∧ p.scrBase = pl.scrBase ∧
        p.frozen = none ∧ p.stop = none ∧ (∀ k q, k ≠ pl.idx → tget (getCore s ci).plots k = some q → ∃ v, tget (getCore s' ci).plots k = some { q with saveAt := v }) ∧
        (tget (getRun s' run).fields node).map (·.next) = some (f.next + 1) ∧
        memRead (getCluster s' (clusterOf ci)).scratch (slicePos (ci % 16) pl.scrBase) f.hdr.params.length = f.hdr.params ∧
        (∀ r ∈ pl.roles, ∀ k ∈ r.tileMap, tileAt (getCore s' ci) k = 0) ∧
        (∀ ch, ch < 16 → f.hdr.copych.testBit ch = true → (getChannel s' (clusterOf ci) ch).wptr = 0) ∧
        (∀ x ∈ pl.sheaves, x.1 ≠ 4 → ∃ k, ∀ j u, (sheafTids x)[j]? = some u → ∃ th, getThread s' ci u = some th ∧ th.st = .ready ∧ th.pc = (roleFrom pl.roles x.1).entry ∧
          th.regs = [] ∧ th.preds = 1 ∧ th.mode = 0 ∧ th.ast = 0 ∧ th.aen = 0 ∧ th.horizon = 0 ∧ th.plot = pl.idx ∧ th.role = x.1 ∧ th.sheaf = some k ∧ th.rank = j) ∧
        (∀ t th, getThread s ci t = some th → getThread s' ci t = some th)) ∧
    (placeNow s ci f.hdr = none → ∃ s', exec (.plotAdmission ci (run * 4096 + node)) s = .next s' ∧ s'.mem = s.mem ∧ besides { s' with agenda := s.agenda } = besides s ∧
      ∀ cj, (getCore s' cj).threads = (getCore s cj).threads ∧ ∀ k q, tget (getCore s cj).plots k = some q → ∃ v, tget (getCore s' cj).plots k = some { q with saveAt := v })) ∧
  (∀ (s : State) (ci pi : Nat) (p : Plot), WellKept s → tsorted s.runs = true → tget (getCore s ci).plots pi = some p → p.hdr.wide = false →
    (p.frozen = none → (∀ t th, getThread s ci t = some th → th.plot ≠ pi) → plotQuiet s ci pi = true → p.hdr.fuse = false →
      fusesTo (getCluster s (clusterOf ci)) = false → (∀ x ∈ (getCore s ci).fragWait, x.plot = pi) →
      ∃ s', exec (.plotRetire ci pi) s = .next s' ∧ s'.mem = s.mem ∧ tget (getCore s' ci).plots pi = none ∧
        (∀ k, k ≠ pi → tget (getCore s' ci).plots k = tget (getCore s ci).plots k) ∧ (getCore s' ci).threads = (getCore s ci).threads ∧
        (∀ x ∈ (getCore s' ci).joins, x.plot ≠ pi) ∧ (getCore s' ci).tblOwner ≠ some pi ∧
        (∀ r f, tget s.runs p.run = some r → tget r.fields p.node = some f → ∃ r', tget s'.runs p.run = some r' ∧
          tget r'.fields p.node = some { f with retired := f.retired + 1 })) ∧
    (p.frozen ≠ none ∨ (∃ t th, getThread s ci t = some th ∧ th.plot = pi) ∨ plotQuiet s ci pi = false → exec (.plotRetire ci pi) s = .next s))

/-- R340, R347 to R349, R352, R353: with all its records taken a run's counters are set, and nodes without dependences are ready; the head of the ready list is dispatched by its
kind: a field, a copy on a channel, a conditional read, a signal's store at its home, or none; a node that has ended counts down its successors, which are
ready at 0, or skipped where every decrement was dead; a COND compares its word; a successor of a waiting COND is staged. -/
def Obligations.GraphRuns : Prop :=
  (∀ (s : State) (no n : Nat) (r : Run), tget s.runs no = some r → r.failed = false → r.ready = [] → r.cnt = [] → 0 < r.ncnt → r.recs.length = r.ncnt → tsorted r.recs = true →
    (∀ k, k < r.ncnt → ∃ x, tget r.recs k = some x ∧ (nodeKind x = 0 → (tget r.fields k).isSome = true)) →
    (∃ x, tget r.recs n = some x ∧ nodeDeps x ≠ 0) → (∀ w ∈ s.launchWaits, w.run ≠ no) →
    ∃ s' r', exec (.nodeDispatch no n) s = .next s' ∧ s'.mem = s.mem ∧ tget s'.runs no = some r' ∧
      ∀ k x, tget r.recs k = some x → tget r'.cnt k = some (nodeDeps x) ∧ tget r'.sts k = some (if nodeDeps x = 0 then .ready else .waiting) ∧
        (k ∈ r'.ready ↔ nodeDeps x = 0)) ∧
  (∀ (s : State) (no n : Nat) (r : Run) (x : BitVec 512) (rest : List Nat), tget s.runs no = some r → r.failed = false → r.cnt ≠ [] → r.ready = n :: rest → n ∉ rest →
    (∀ k, k < r.ncnt → ∃ x, tget r.recs k = some x ∧ (nodeKind x = 0 → (tget r.fields k).isSome = true)) → tget r.recs n = some x → (∀ w ∈ s.launchWaits, w.run ≠ no) →
    (let goes := fun (st : NodeSt) (p : State → Prop) => ∃ s' r', exec (.nodeDispatch no n) s = .next s' ∧ tget s'.runs no = some r' ∧ tget r'.sts n = some st ∧ r'.ready = rest ∧ p s'
     (nodeKind x = 0 → goes .dispatched fun s' => s'.mem = s.mem ∧ ∀ cj, (getCore s' cj).threads = (getCore s cj).threads) ∧
     (nodeKind x = 1 → freeChannel s = none → exec (.nodeDispatch no n) s = .next s) ∧
     (∀ cl ch, nodeKind x = 1 → freeChannel s = some (cl, ch) → goes .dispatched fun s' => s'.mem = s.mem ∧ ∃ j, (getChannel s' cl ch).job = some j ∧ j.run = no ∧ j.node = n ∧
       j.ctx = r.ctx ∧ j.src = nf x 8 8 ∧ j.dst = nf x 0x10 8 ∧ j.bytes = nf x 0x18 8 ∧ j.done = 0) ∧
     (nodeKind x = 3 → goes .dispatched fun s' => s'.mem = s.mem ∧ s'.cores = s.cores) ∧
     (nodeKind x = 4 → goes .reading fun s' => s'.mem = s.mem ∧ s'.cores = s.cores) ∧
     (∀ pa nc s1, nodeKind x = 5 → engPlan s none r.ctx (nf x 8 8) 8 true = (.ok [(.here pa nc, 8)], s1) → goes .dispatched fun s' => memNat s'.mem pa 8 = nf x 0x10 8 ∧ s'.cores = s.cores) ∧
     (nodeKind x = 6 → goes .dispatched fun s' => s'.mem = s.mem ∧ s'.cores = s.cores ∧
       ((tgetD s.ports (portOf unitLauncher) []).length < 15 → ∃ a b, tgetD s'.ports (portOf unitLauncher) [] = tgetD s.ports (portOf unitLauncher) [] ++ [a, b] ∧ b.time = s.now ∧
         b.type.toNat = 0xF100 + nf x 8 1 ∧ b.cid = nodeCid s no n ∧ b.payload.toNat = nf x 0x10 8)))) ∧
  (∀ (s : State) (no n m : Nat) (b : Bool) (r : Run) (x y : BitVec 512), tget s.runs no = some r → r.failed = false → tget r.recs n = some x → nodeSuccs x = [(m, b)] → n ≠ m →
    tget r.recs m = some y → nodeChannel s no n = none → nodeFinished s no n = true → (tget r.sts n = some .dispatched ∨ tget r.sts n = some .reading) →
    tget r.sts m = some .waiting → 0 < r.ncnt →
    (let live : Bool := nodeKind x != 4 || b == tgetD r.chosen n false
     let c := tgetD r.cnt m 0
     (c = 0 → ∃ s' r', exec (.nodeComplete no n) s = .next s' ∧ tget s'.runs no = some r' ∧ r'.failed = true ∧ r'.ready = [] ∧ regBit s' (0x10018 + 32 * r.queue) 0 = true) ∧
     (0 < c → ∃ s' r', exec (.nodeComplete no n) s = .next s' ∧ s'.mem = s.mem ∧ tget s'.runs no = some r' ∧ tget r'.sts n = some .complete ∧ tget r'.cnt m = some (c - 1) ∧
       tget r'.live m = some (live || tgetD r.live m false) ∧
       (1 < c → tget r'.sts m = some .waiting ∧ r'.ready = r.ready) ∧
       (c = 1 → (live || tgetD r.live m false) = true → tget r'.sts m = some .ready ∧ r'.ready = r.ready ++ [m]) ∧
       (c = 1 → (live || tgetD r.live m false) = false → nodeSuccs y = [] → tget r'.sts m = some .skipped ∧ r'.ready = r.ready)))) ∧
  (∀ (s : State) (no n : Nat) (r : Run) (x : BitVec 512), tget s.runs no = some r → tget r.recs n = some x → nodeFinished s no n = false → exec (.nodeComplete no n) s = .next s) ∧
  (∀ (s s1 : State) (no n pa : Nat) (nc : Bool) (r : Run) (x : BitVec 512), tget s.runs no = some r → tget r.recs n = some x → tget r.sts n = some .reading → tget r.chosen n = none →
    (∀ w ∈ s.launchWaits, w.run ≠ no) → engPlan s none r.ctx (nf x 8 8) 4 false = (.ok [(.here pa nc, 4)], s1) →
    ∃ s' r', exec (.condRead no n) s = .next s' ∧ s'.mem = s.mem ∧ tget s'.runs no = some r' ∧
      tget r'.chosen n = some (decide (leNat (keyedRead s (ctxKey s r.ctx) pa 4) &&& nf x 0x10 4 = nf x 0x14 4)) ∧ { r' with chosen := r.chosen } = r) ∧
  (∀ (s : State) (no n ci : Nat) (r : Run) (f : Field) (pl : Place), tget s.runs no = some r → r.no = no → tget r.fields n = some f → r.failed = false → f.hdr.wide = false →
    (stageable r n = true → placeNow s ci f.hdr = some [(ci, pl)] → s.staged = [] → 0 < f.plots →
      ∃ s' x, exec (.plotStage no n ci) s = .next s' ∧ s'.mem = s.mem ∧ s'.staged = [x] ∧ x.run = no ∧ x.node = n ∧ x.core = ci ∧ x.plot.plotNo = 0 ∧ x.sheaves = pl.sheaves ∧
        x.plot.roles = pl.roles ∧ x.plot.scrBase = pl.scrBase ∧ ∀ k, (getCore s' k).plots = (getCore s k).plots ∧ (getCore s' k).threads = (getCore s k).threads) ∧
    (stageable r n = false ∨ placeNow s ci f.hdr = none → exec (.plotStage no n ci) s = .next s))

/-- R330, R331, R334 to R336: a register write of the host takes effect after its earlier window-2 writes; a tail write beyond the ring is an error and is not made, another moves QTAIL and reaches
the launcher, through firmware where the queue is not resident; a control write keeps LOG2 while EN is set and refuses EN for a bad ring; RES asks firmware, and clearing it
gives the entry back.
R331 to R333, R351, R419: an enabled queue without a run takes the record at its head: a good one starts a run with its fields, a bad one sets BADREC, one that does not
translate FAULT; a run that is over writes its completion value, then posts its entry; GINV empties the caches. -/
def Obligations.Queues : Prop :=
  ((∀ (s : State) (q : Nat) (v : Word), s.now ≤ s.winGwct → s.winGwct ≠ 0 →
     ∀ i ∈ [Instr.tailWrite q v, .queueEnable q v, .residencyRequest q, .residencyReturn q], exec i s = .next { s with agenda := .issueCycle :: i :: s.agenda }) ∧
   (∀ (s : State) (q : Nat) (v : Word), s.winGwct < s.now → q < 1024 →
     (let tail := reg32 s (0x10010 + 32 * q)
      let head := reg32 s (0x10014 + 32 * q)
      let size := 2 ^ fieldN (regN s (0x10008 + 32 * q)) 19 16
      (v = tail → exec (.tailWrite q v) s = .next s) ∧
      (v ≠ tail → size < (v - head).toNat → ∃ s', exec (.tailWrite q v) s = .next s' ∧ reg32 s' (0x10010 + 32 * q) = tail ∧ regBit s' (0x10018 + 32 * q) 1 = true ∧
        s'.queues = s.queues ∧ s'.cores = s.cores) ∧
      (v ≠ tail → (v - head).toNat ≤ size → ∃ s', exec (.tailWrite q v) s = .next s' ∧ s'.mem = s.mem ∧ s'.cores = s.cores ∧ reg32 s' (0x10010 + 32 * q) = v ∧
        (∀ o, o ≠ 0x10010 + 32 * q → reg32 s' o = reg32 s o) ∧
        (regBit s (0x10008 + 32 * q) 29 = true → (tgetD s'.queues q {}).seen = v ∧ s'.fwEvents = s.fwEvents) ∧
        (regBit s (0x10008 + 32 * q) 29 = false → (tgetD s'.queues q {}).seen = (tgetD s.queues q {}).seen ∧ ∃ e ∈ s'.fwEvents, e.what = 3 ∧ e.x = q)))) ∧
   (∀ (s : State) (q : Nat) (v : Word), s.winGwct < s.now → q < 1024 → s.resHeld = [] →
     (let off := 0x10008 + 32 * q
      let en := regBit s off 31
      let log2 := if en then fieldN (regN s off) 19 16 else fieldN v.toNat 19 16
      let bad := en = false ∧ v.getLsbD 31 = true ∧ ¬ (4 ≤ log2 ∧ log2 ≤ 16 ∧ reg64 s (0x10000 + 32 * q) % 2 ^ 12 = 0)
      ∃ s', exec (.queueEnable q v) s = .next s' ∧ s'.cores = s.cores ∧ fieldN (regN s' off) 19 16 = log2 ∧ fieldN (regN s' off) 10 8 = fieldN v.toNat 10 8 ∧
        regBit s' off 30 = v.getLsbD 30 ∧
        (bad → regBit s' off 31 = false ∧ regBit s' (0x10018 + 32 * q) 2 = true) ∧ (¬ bad → regBit s' off 31 = v.getLsbD 31 ∧ s'.mem = s.mem) ∧
        ((regBit s off 30 = true ∧ v.getLsbD 30 = false) ∨ (en = true ∧ v.getLsbD 31 = false) → regBit s' off 29 = false) ∧
        (regBit s off 30 = false → v.getLsbD 30 = true → (en = true → v.getLsbD 31 = true) → ∃ e ∈ s'.fwEvents, e.what = 4 ∧ e.x = q))) ∧
   (∀ (s : State) (q : Nat), s.winGwct < s.now → q < 1024 →
     (let off := 0x10008 + 32 * q
      let same := fun s' : State => s'.cores = s.cores ∧ s'.mem = s.mem ∧ fieldN (regN s' off) 19 16 = fieldN (regN s off) 19 16 ∧ fieldN (regN s' off) 10 8 = fieldN (regN s off) 10 8
      let fit := regBit s off 31 = true
      (fit → ∃ s', exec (.residencyRequest q) s = .next s' ∧ same s' ∧ regBit s' off 31 = true ∧ regBit s' off 30 = true ∧ regBit s' off 29 = regBit s off 29 ∧
        (regBit s off 30 = false → ∃ e ∈ s'.fwEvents, e.what = 4 ∧ e.x = q)) ∧
      (fit → s.resHeld = [] → ∃ s', exec (.residencyReturn q) s = .next s' ∧ same s' ∧ regBit s' off 31 = true ∧ regBit s' off 30 = false ∧
        (regBit s off 30 = true → regBit s' off 29 = false))))) ∧
  ((∀ (s : State) (q : Nat), canAccept s q = false → exec (.queueRecordAccept q) s = .next s) ∧
   (∀ (s s1 : State) (q pa : Nat) (nc : Bool), q < 1024 → regBit s (0x10008 + 32 * q) 31 = true → regBit s (0x10018 + 32 * q) 3 = false →
     (tgetD s.queues q {}).running = none → (tgetD s.queues q {}).seen ≠ reg32 s (0x10014 + 32 * q) → reg32 s (0x10010 + 32 * q) ≠ reg32 s (0x10014 + 32 * q) → (∀ e ∈ s.runs, e.1 ≠ s.runNo) →
     (let head := reg32 s (0x10014 + 32 * q)
      let ctx := regN s (0x32000 + 4 * q) % 64
      let at_ := reg64 s (0x10000 + 32 * q) / 2 ^ 12 * 2 ^ 12 + 64 * (head.toNat % 2 ^ fieldN (regN s (0x10008 + 32 * q)) 19 16)
      (∀ p sub d, engPlan s none ctx at_ 64 false = (.fault p sub d, s1) → ∃ s', exec (.queueRecordAccept q) s = .next s' ∧ s'.cores = s.cores ∧ s'.runs = s.runs ∧
        reg32 s' (0x10014 + 32 * q) = head ∧ regBit s' (0x10018 + 32 * q) 3 = true) ∧
      (engPlan s none ctx at_ 64 false = (.ok [(.here pa nc, 64)], s1) →
        (let bs := keyedRead s (ctxKey s ctx) pa 64
         (launchRecBad bs = true → ∃ s', exec (.queueRecordAccept q) s = .next s' ∧ s'.cores = s.cores ∧ s'.runs = s.runs ∧ reg32 s' (0x10014 + 32 * q) = head + 1 ∧
           regBit s' (0x10018 + 32 * q) 0 = true ∧ (tgetD s'.queues q {}).running = none) ∧
         (launchRecBad bs = false → ∃ s' r, exec (.queueRecordAccept q) s = .next s' ∧ reg32 s' (0x10014 + 32 * q) = head + 1 ∧ (tgetD s'.queues q {}).running = some s.runNo ∧
           s'.runNo = (s.runNo + 1) % 2 ^ 26 ∧ tget s'.runs s.runNo = some r ∧ r.no = s.runNo ∧ r.queue = q ∧ r.ctx = ctx ∧ r.gaddr = bf bs 0 8 ∧ r.ncnt = bf bs 8 4 % 4096 ∧
           r.tag = BitVec.ofNat 32 (bf bs 0xC 4) ∧ r.compl = bf bs 0x10 8 ∧ r.complv = BitVec.ofNat 64 (bf bs 0x18 8) ∧ r.sig = (bf bs 8 4).testBit 13 ∧ r.gfence = (bf bs 8 4).testBit 14))))) ∧
   (∀ bs : List Byte, launchRecBad bs = true ↔ ¬ (bf bs 8 4 < 2 ^ 15 ∧ (bf bs 8 4).testBit 12 = false ∧ bf bs 8 4 % 4096 ≠ 0 ∧ bf bs 0 8 % 64 = 0 ∧ bzero bs 0x20 0x40 = true)) ∧
   (∀ (s : State) (no : Nat) (r : Run), tsorted s.runs = true → tget s.runs no = some r → r.no = no → (∀ w ∈ s.launchWaits, w.run ≠ no) →
     (runOver r = false → exec (.runEnd no) s = .next s) ∧
     (runOver r = true → r.failed = true → ∃ s', exec (.runEnd no) s = .next s' ∧ s'.mem = s.mem ∧ tget s'.runs no = none ∧ (tgetD s'.queues r.queue {}).running = none) ∧
     (runOver r = true → r.failed = false → r.sig = false →
       (r.compl = 0 → ∃ s', exec (.runEnd no) s = .next s' ∧ s'.mem = s.mem ∧ tget s'.runs no = none ∧ (tgetD s'.queues r.queue {}).running = none) ∧
       (∀ pa nc s1, r.compl ≠ 0 → engPlan s none r.ctx r.compl 8 true = (.ok [(.here pa nc, 8)], s1) →
         ∃ s', exec (.runEnd no) s = .next s' ∧ memNat s'.mem pa 8 = r.complv.toNat ∧ tget s'.runs no = none ∧ (tgetD s'.queues r.queue {}).running = none)) ∧
     (runOver r = true → r.failed = false → r.sig = true → r.compl = 0 → regBit s 0x20008 31 = true → s.overflowed = false →
       (let lg := regN s 0x20008 % 16
        let n := reg32 s 0x20014
        let a := 2 ^ 47 + (reg64 s 0x20000 + 32 * (n.toNat % 2 ^ lg)) % 2 ^ 47
        (n - reg32 s 0x20010).toNat + 2 ≤ 2 ^ lg → r.queue < 2 ^ 16 →
        ∃ s', exec (.runEnd no) s = .next s' ∧ memNat s'.mem a 4 = r.queue * 2 ^ 16 + 1 ∧ memNat s'.mem (a + 4) 4 = r.tag.toNat ∧ reg32 s' 0x20014 = n + 1 ∧
          (memNat s'.mem (a + 24) 4).testBit 31 = n.toNat.testBit lg ∧ memNat s'.mem (a + 24) 4 % 2 ^ 31 = 1 ∧ tget s'.runs no = none))) ∧
   (∀ s : State, exec .ginvWrite s = .next { s with nodeCache := [], hdrCache := [] }))

/-- R329, R330, R336 to R339, R366, R367: an event ring with room again has an entry for each queue that missed some; an idle firmware core takes the first event whose key none holds and is awake; one idle
for 2 microseconds is retained; host accesses through window 2 read and write HBM under the device's key, all ones beyond it and in a saved plot's slot. -/
def Obligations.RingFirmwareWindow : Prop :=
  (∀ (s : State) (q : Nat), s.overflowed = true → regBit s 0x20008 31 = true → q < 1024 → 0 < regN s 0x20008 % 16 →
    (∀ k, k < 1024 → (regN s (0x1001C + 32 * k) ≠ 0 ↔ k = q)) →
    (let lg := regN s 0x20008 % 16
     let n := reg32 s 0x20014
     let m := regN s (0x1001C + 32 * q)
     let a := 2 ^ 47 + (reg64 s 0x20000 + 32 * (n.toNat % 2 ^ lg)) % 2 ^ 47
     let used := (n - reg32 s 0x20010).toNat
     (2 ^ lg < used + 2 → exec .erheadWrite s = .next s) ∧
     (used + 2 ≤ 2 ^ lg → ∃ s', exec .erheadWrite s = .next s' ∧ s'.cores = s.cores ∧ memNat s'.mem a 4 = q * 2 ^ 16 + 4 ∧ memNat s'.mem (a + 4) 4 = (tgetD s.queues q {}).lastTag.toNat ∧
       memNat s'.mem (a + 8) 8 = regN s (0x10018 + 32 * q) ∧ memNat s'.mem (a + 24) 4 % 2 ^ 31 = m % 2 ^ 31 ∧ regN s' (0x1001C + 32 * q) = 0 ∧ reg32 s' 0x20014 = n + 1 ∧
       s'.overflowed = false))) ∧
  (∀ s : State, s.overflowed = false → exec .erheadWrite s = .next s) ∧
  (∀ (s : State) (e : FwEvent) (rest : List FwEvent), s.fwEvents = e :: rest → (∀ k, k < 12 → (tgetD s.fwCores k {}).busy = none) →
    ∃ s' k, exec .firmwareEventDispatch s = .next s' ∧ k < 12 ∧ s'.cores = s.cores ∧ s'.mem = s.mem ∧ (tgetD s'.fwCores k {}).retained = false ∧
      ((∃ j, j < 12 ∧ (tgetD s.fwCores j {}).retained = false) → (tgetD s.fwCores k {}).retained = false) ∧ (∀ j, j ≠ k → tget s'.fwCores j = tget s.fwCores j) ∧
      (e.what = 3 → s'.fwEvents = rest ∧ (tgetD s'.queues e.x {}).seen = reg32 s (0x10010 + 32 * e.x) ∧ (tgetD s'.fwCores k {}).busy = none) ∧
      (e.what = 4 → s.resHeld = [] → e.x < 1024 → regBit s (0x10008 + 32 * e.x) 31 = true → regBit s (0x10008 + 32 * e.x) 30 = true →
        ((List.range 1024).filter fun q => regBit s (0x10008 + 32 * q) 29).length < 64 → regBit s' (0x10008 + 32 * e.x) 29 = true) ∧
      (e.what = 1 ∨ e.what = 2 → s'.fwEvents = rest ∧ (tgetD s'.fwCores k {}).busy = some e.key ∧ s'.agenda = .pageService (e.key - 0x10000) e.y :: s.agenda)) ∧
  (∀ s : State, s.fwEvents = [] → exec .firmwareEventDispatch s = .next s) ∧
  (∀ s : State, ∃ s', exec .firmwareRetention s = .next s' ∧ s' = { s with fwCores := s'.fwCores } ∧
    ∀ k, k < 12 → (let c := tgetD s.fwCores k {}
      tgetD s'.fwCores k {} = if c.busy = none ∧ c.idleSince + 8000 ≤ s.now then { c with retained := true } else c)) ∧
  (∀ (s : State) (off : Nat) (data : List Byte), (off + data.length ≤ 768 * 2 ^ 30 → off % 128 + data.length ≤ 128 → data ≠ [] → (∀ k, k < data.length → inSavedSlot s (off + k) = false) →
      ∃ s', exec (.hostWindow2Write off data) s = .next s' ∧ s'.cores = s.cores ∧ keyedRead s' s.sec.bootKey off data.length = data ∧ s.now < s'.winGwct ∧
        ∀ a, a / 128 ≠ off / 128 → memGet s'.mem a = memGet s.mem a) ∧
    (768 * 2 ^ 30 ≤ off → data ≠ [] → ∃ s', exec (.hostWindow2Write off data) s = .next s' ∧ s'.mem = s.mem ∧ s'.cores = s.cores ∧ Recorded s s' (unitOf 3 0) 0x0020 0 0) ∧
    ∀ n, ∃ s', exec (.hostWindow2Read off n) s = .next s' ∧ s'.mem = s.mem ∧ s'.cores = s.cores ∧ s'.hostRead.length = n ∧
      ∀ k, k < n → s'.hostRead.getD k 0 = (if 768 * 2 ^ 30 ≤ off + k ∨ inSavedSlot s (off + k) = true then 0xFF else (keyedRead s s.sec.bootKey (off + k) 1).headD 0))

/-- R165, R365 to R374: a plot all of whose parts are in hand is saved in the slot of the pool that its stop request took: its image stands there, its saved form with the launcher, and its core holds nothing of it; a
restore puts it on a core again, every thread at its place with its values, ready where it is not parked; an imported image gives a saved plot of what its
records say, and SPIMP reads zero.
R375, R376: FRZCTL kills or resumes a frozen plot; of one that is not frozen, or frozen by a hardware error under a resume, it sets ERR; GO is cleared. -/
def Obligations.SavesAndFrozenPlots : Prop :=
  ((∀ (s : State) (ci pi b : Nat) (p : Plot), WellKept s → tget (getCore s ci).plots pi = some p → p.hdr.wide = false → p.hdr.fuse = false →
     fusesTo (getCluster s (clusterOf ci)) = false → (∀ x ∈ (getCore s ci).fragWait, x.plot = pi) → (∀ c ∈ s.cores, c.2.bins = [] ∧ ∀ e ∈ c.2.threads, ∀ w, e.2.st ≠ .waiting w) →
     (partSaved s ci pi = false → exec (.plotSave ci pi) s = .next s) ∧
     (partSaved s ci pi = true → p.saveAt = some b →
       (let base := reg64 s 0x35000 / 2 ^ 20 % 2 ^ 28 * 2 ^ 20 + b * 2 ^ 20
        ∃ s' sp, exec (.plotSave ci pi) s = .next s' ∧ tget s'.savedParts b = some sp ∧ tget (getCore s' ci).plots pi = none ∧ sp.plot = p ∧ sp.slot = b ∧ sp.oldCore = ci ∧
          memNat s'.mem base 8 = p.hdrAddr.toNat ∧ memNat s'.mem (base + 8) 8 = p.cid.toNat ∧
          (∀ t th, getThread s ci t = some th → th.plot ≠ pi → getThread s' ci t = some th ∧ tget sp.threads t = none) ∧
          (∀ t th, getThread s ci t = some th → th.plot = pi → (∀ m ∈ (getCore s ci).mops, t ∉ m.tids) → getThread s' ci t = none ∧
            ∃ x, tget sp.threads t = some x ∧ x.pc = th.pc ∧ x.preds = th.preds ∧ x.mode = th.mode ∧ x.ast = th.flags.foldl (fun w f => w ||| f.2) th.ast ∧ x.aen = th.aen ∧ x.horizon = th.horizon ∧ x.st = th.st ∧
              (∀ r c, tget th.regs r = some c → c.st ≠ .fallow → tget x.regs r = some c) ∧ (t < 256 → memNat s'.mem (base + 0x48000 + 512 * t) 8 = th.pc.toNat)) ∧
          (∀ a, a < base ∨ base + 0x68000 + p.hdr.scratch * 1024 ≤ a → p.hdr.scratch ≤ 256 → (∀ e ∈ sp.threads, e.1 < 256) → (∀ e ∈ sp.sheaves, e.1 < 256) → (∀ e ∈ sp.frags, e.1 < 64) →
            (∀ e ∈ sp.channels, e.1 < 16) → (tilePlaces p).length ≤ 16 → memGet s'.mem a = memGet s.mem a)))) ∧
   (∀ (s : State) (ci slot base pi : Nat) (sp : SavedPart) (roles : List RoleInfo) (ht : List Nat), WellKept s → savedSet s slot = [(slot, sp)] → s.staged = [] → (∀ e ∈ s.cores, e.2.stagedSlots = []) →
     ((waitingSets s).find? fun w => w.saved == some slot).any (firstToFit s) = true →
     setFit s ci [(slot, sp)] = some [(ci, slot, sp, base, pi, roles, ht)] → sp.plot.hdr.fuse = false → sp.plot.hdr.wide = false → sp.collArr = [] → sp.fragWait = [] → (∀ e ∈ s.comms, ∀ o ∈ e.2.ops, o.owes = none) →
     SpillsOk s ci → tsorted sp.threads = true →
     (∀ e ∈ sp.threads, tsorted e.2.regs = true) →
     ∃ s' p, exec (.plotRestore ci slot) s = .next s' ∧ tget s'.savedParts slot = none ∧ tget (getCore s' ci).plots pi = some p ∧ p.hdr = sp.plot.hdr ∧ p.cid = sp.plot.cid ∧
       p.scrBase = base ∧ p.stop = none ∧
       ∀ t th, tget sp.threads t = some th → ∃ new, getThread s' ci t = some new ∧ new.pc = th.pc ∧ new.preds = th.preds ∧ new.mode = th.mode ∧ new.ast = th.ast ∧ new.aen = th.aen ∧
         new.horizon = th.horizon ∧ new.tlast = th.tlast ∧ new.plot = pi ∧ new.role = th.role ∧ new.sheaf = th.sheaf ∧ new.rank = th.rank ∧
         (∀ r, (tget new.regs r).map (·.val) = (tget th.regs r).map (·.val)) ∧
         (∀ f, th.st = .parked f → new.st = .parked f) ∧ ((∀ f, th.st ≠ .parked f) → new.st = if th.moving.isSome then .waiting .moving else .ready)) ∧
   (∀ (s : State) (ci slot : Nat), s.staged = [] → (∀ e ∈ s.cores, e.2.stagedSlots = []) → setFit s ci (savedSet s slot) = none → exec (.plotRestore ci slot) s = .next s) ∧
   (∀ s : State, (let slot := regN s 0x35018
     let at_ := reg64 s 0x35000 / 2 ^ 20 % 2 ^ 28 * 2 ^ 20 + slot * 2 ^ 20
     let rd := fun o n => memNat s.mem (at_ + o) n
     (regN s 0x35008 % 2 ^ 13 ≤ slot ∨ (rd 0x5C 4).testBit 6 = true ∨ (∃ e ∈ s.savedParts, e.2.slot = slot) → exec .saveSetImport s = .next (setReg32 s 0x35018 0)) ∧
     (∀ h, slot < regN s 0x35008 % 2 ^ 13 → (rd 0x10 4).testBit 20 = false → (rd 0x5C 4).testBit 6 = false → (∀ e ∈ s.savedParts, e.2.slot ≠ slot) →
       importHeader s (rd 0x10 4 % 64) (rd 0 8) = some h →
       ∃ s' sp, exec .saveSetImport s = .next s' ∧ s'.mem = s.mem ∧ s'.cores = s.cores ∧ reg32 s' 0x35018 = 0 ∧ tget s'.savedParts slot = some sp ∧ sp.plot.hdr = h ∧ sp.plot.hdrAddr.toNat = rd 0 8 ∧
         sp.plot.cid.toNat = rd 8 8 ∧ sp.plot.plotNo = rd 0x14 4 ∧ sp.plot.ctx = rd 0x10 4 % 64 ∧
         ∀ t, t < 256 → ((tget sp.threads t).isSome = (rd 0x18 32).testBit t) ∧ ∀ th, tget sp.threads t = some th →
           (let w := rd (0x48000 + 512 * t + 0x2C) 4
            th.pc.toNat = rd (0x48000 + 512 * t) 8 ∧ th.role = fieldN w 7 5 ∧ th.sheaf = (if w.testBit 26 then none else some (fieldN w 15 8)) ∧
              (w.testBit 26 = true → ∀ r, r < 64 → (rd (0x48000 + 512 * t + 0x50) 16 / 4 ^ r % 4 = 1 →
                (tget th.regs r).map (·.val) = some (BitVec.ofNat 32 (rd (0x48000 + 512 * t + 0x100 + 4 * r) 4))) ∧
                (rd (0x48000 + 512 * t + 0x50) 16 / 4 ^ r % 4 = 3 → tget th.regs r = none))))))) ∧
  (∀ (s : State) (ci pi : Nat) (p : Plot), WellKept s → ci < 4096 → pi < 8 → tget (getCore s ci).plots pi = some p → fieldN (regN s 0x35100) 28 27 = 0 → regN s 0x35100 % 2 ^ 24 = ci * 8 + pi →
     (let done := fun s' : State => regBit s' 0x35100 31 = false
      (p.frozen = none → ∀ i ∈ [Instr.frozenKill, .frozenResume], ∃ s', exec i s = .next s' ∧ done s' ∧ regBit s' 0x35100 29 = true ∧ { s' with w0 := s.w0 } = s) ∧
      (p.frozen = some 12 → ∃ s', exec .frozenResume s = .next s' ∧ done s' ∧ regBit s' 0x35100 29 = true ∧ { s' with w0 := s.w0 } = s) ∧
      (∀ g e f, p.frozen = some g → g ≠ 12 → (getCore s ci).frags = [(e, f)] → f.plot = pi → f.kind = 0 → (getCore s ci).fragWait = [] →
        (∀ t ∈ f.members, ∃ th, getThread s ci t = some th ∧ th.st = .parked e ∧ th.moving = none) →
        ∃ s', exec .frozenResume s = .next s' ∧ done s' ∧ regBit s' 0x35100 29 = regBit s 0x35100 29 ∧ s'.mem = s.mem ∧
          (tget (getCore s' ci).plots pi) = some { p with frozen := none } ∧ (getCore s' ci).frags = [] ∧ (∀ x ∈ s'.frozen, ¬ (x.kind = 0 ∧ x.id = ci * 8 + pi)) ∧
          ∀ t ∈ f.members, ∃ old new, getThread s ci t = some old ∧ getThread s' ci t = some new ∧ new.st = .ready ∧ new.pc = old.pc ∧ new.regs = old.regs ∧ new.preds = old.preds) ∧
      (∀ g, p.frozen = some g → p.hdr.wide = false →
        ∃ s', exec .frozenKill s = .next s' ∧ done s' ∧ (tget (getCore s' ci).plots pi).map (·.frozen) = some none ∧ (∀ x ∈ s'.frozen, ¬ (x.kind = 0 ∧ x.id = ci * 8 + pi)) ∧
          (∀ t th, getThread s' ci t = some th → th.plot ≠ pi))))

/-- R360 to R364: page service resumes the fragment of a page that has been repaired, gives a declined one to its plot's handler, else asks the host with one entry of its ring; the host's
verdict ends the request, and its register reads zero; a ring with room takes a waiting one. An invalidation takes out every translation of its range, and of a whole context the page-walk caches' pointers, and is busy until what came before is
performed with its completion times passed; a migration marks its page, waits for the old homes, copies, and maps the new page. -/
def Obligations.PagesServedAndMoved : Prop :=
  (∀ (s : State) (ctx page ci e : Nat) (wr : Bool) (f : Frag), WellKept s → s.pageReqs = [] → pageWaiters s ctx page = [(.frag ci e, wr)] → tget (getCore s ci).frags e = some f → f.kind = 0 →
    (getCore s ci).fragWait = [] → (∀ t ∈ f.members, ∃ th, getThread s ci t = some th ∧ th.st = .parked e ∧ th.role ≠ 4 ∧ th.moving = none) →
    (let resumed := fun s' : State => tget (getCore s' ci).frags e = none ∧ ∀ t ∈ f.members, ∃ old new, getThread s ci t = some old ∧ getThread s' ci t = some new ∧ new.st = .ready ∧
       new.pc = old.pc ∧ new.regs = old.regs ∧ new.preds = old.preds
     let pending := fun s' : State => (tget (getCore s' ci).frags e).map (fun x => (x.delivery, x.members)) = some (.pending, f.members) ∧
       ∀ t ∈ f.members, (getThread s' ci t).map (fun th => (th.st, th.cause)) = some (.parked e, fragCause e f)
     let lg := regN s 0x34108 % 16
     let n := reg32 s 0x34114
     let at_ := 2 ^ 47 + (reg64 s 0x34100 + 32 * (n.toNat % 2 ^ lg)) % 2 ^ 47
     (∀ t, walkTables s ctx page = .ok t → (wr = true → t.w = true) → ∃ s', exec (.pageService ctx page) s = .next s' ∧ s'.mem = s.mem ∧ resumed s') ∧
     ((∃ sub, walkTables s ctx page = .fail sub true) ∨ (∃ t, walkTables s ctx page = .ok t ∧ wr = true ∧ t.w = false) ∨
        ((∃ sub, walkTables s ctx page = .fail sub false) ∧ regBit s 0x34108 31 = false) → ∃ s', exec (.pageService ctx page) s = .next s' ∧ pending s') ∧
     (∀ sub, walkTables s ctx page = .fail sub false → regBit s 0x34108 31 = true → s.nextReq < 2 ^ 24 →
       ∃ s' r, exec (.pageService ctx page) s = .next s' ∧ s'.cores = s.cores ∧ s'.pageReqs = [r] ∧ r.id = s.nextReq ∧ r.ctx = ctx ∧ r.page = page ∧ r.wr = wr ∧
         s'.nextReq = (s.nextReq + 1) % 2 ^ 24 ∧
         ((n - reg32 s 0x34110).toNat < 2 ^ lg → r.posted = true ∧ reg32 s' 0x34114 = n + 1 ∧ memNat s'.mem at_ 8 = f.det1.toNat + 2 ^ 32 * f.det2.toNat ∧
           memNat s'.mem (at_ + 8) 4 % 2 ^ 24 = s.nextReq ∧ (memNat s'.mem (at_ + 8) 4).testBit 25 = wr ∧ memNat s'.mem (at_ + 8) 4 / 2 ^ 26 = ctx % 64) ∧
         (2 ^ lg ≤ (n - reg32 s 0x34110).toNat → r.posted = false ∧ s'.mem = s.mem)))) ∧
  (∀ (s : State) (r : PageReq) (ci e : Nat) (wr : Bool) (f : Frag), WellKept s → s.pageReqs = [r] → pageWaiters s r.ctx r.page = [(.frag ci e, wr)] → tget (getCore s ci).frags e = some f →
    f.kind = 0 → (getCore s ci).fragWait = [] → (∀ t ∈ f.members, ∃ th, getThread s ci t = some th ∧ th.st = .parked e ∧ th.moving = none) →
    (r.id ≠ regN s 0x34118 % 2 ^ 24 → exec .pageVerdict s = .next (setReg32 s 0x34118 0)) ∧
    (r.id = regN s 0x34118 % 2 ^ 24 → ∃ s', exec .pageVerdict s = .next s' ∧ s'.pageReqs = [] ∧ reg32 s' 0x34118 = 0 ∧
      (regBit s 0x34118 31 = false → s'.mem = s.mem ∧ tget (getCore s' ci).frags e = none ∧ ∀ t ∈ f.members, ∃ old new, getThread s ci t = some old ∧ getThread s' ci t = some new ∧ new.st = .ready ∧ new.pc = old.pc) ∧
      (regBit s 0x34118 31 = true → (tget (getCore s' ci).frags e).map (·.delivery) = some .pending ∧ ∀ t ∈ f.members, (getThread s' ci t).map (·.st) = some (.parked e)))) ∧
  (∀ (s : State) (r : PageReq), s.pageReqs = [r] → r.posted = false → r.va < 2 ^ 64 →
    (let lg := regN s 0x34108 % 16
     let n := reg32 s 0x34114
     (2 ^ lg ≤ (n - reg32 s 0x34110).toNat → exec .prheadWrite s = .next s) ∧
     ((n - reg32 s 0x34110).toNat < 2 ^ lg → ∃ s', exec .prheadWrite s = .next s' ∧ s'.cores = s.cores ∧ s'.pageReqs = [{ r with posted := true }] ∧ reg32 s' 0x34114 = n + 1 ∧
       memNat s'.mem (2 ^ 47 + (reg64 s 0x34100 + 32 * (n.toNat % 2 ^ lg)) % 2 ^ 47) 8 = r.va))) ∧
  (∀ s : State, (let w := regN s 0x34008
    let ctx := fieldN w 21 16
    let lo := reg64 s 0x34000 / 2 ^ 16 * 2 ^ 16
    let n := (w % 2 ^ 16 + 1) * 2 ^ 16
    let hits := fun t : Tr => t.ctx = ctx ∧ (w.testBit 29 = true ∨ t.va < lo + n ∧ lo < t.va + t.size)
    w.testBit 31 = true → w.testBit 30 = false → ∃ s', exec .tlbInvalidate s = .next s' ∧ s'.mem = s.mem ∧ regBit s' 0x34008 31 = false ∧ regBit s' 0x34008 30 = true ∧
      s'.inval = some (s.nextId, none) ∧
      (∀ ci c, tget s.cores ci = some c → ∀ t, t.va < 2 ^ 64 → 0 < t.size → (t ∈ (getCore s' ci).tlb ↔ t ∈ c.tlb ∧ ¬ hits t)) ∧
      (∀ k c, tget s.clusters k = some c → ∀ t, t.va < 2 ^ 64 → 0 < t.size → (t ∈ (getCluster s' k).tlb ↔ t ∈ c.tlb ∧ ¬ hits t) ∧
        (w.testBit 29 = true → ∀ p ∈ (getCluster s' k).walkCache, p.ctx ≠ ctx ∨ 2 ^ 64 ≤ p.top * 2 ^ (walkLevel (p.level + 1)).1)) ∧
      (∀ ci c, tget s.cores ci = some c → (getCore s' ci).threads = c.threads ∧ (getCore s' ci).l1 = c.l1))) ∧
  (∀ (s : State) (n : Nat), (∀ g, s.inval = some (n, some g) →
      (g ≠ 0 → s.now ≤ g → exec .tlbInvalidateComplete s = .next s) ∧
      (g < s.now → ∃ s', exec .tlbInvalidateComplete s = .next s' ∧ s'.inval = none ∧ regBit s' 0x34008 30 = false ∧ { s' with w0 := s.w0, inval := s.inval } = s)) ∧
    (s.inval = some (n, none) → ((∃ e ∈ s.reqs, e.1 < n) ∨ (∃ c ∈ s.cores, ∃ d ∈ c.2.fifo, d.seq < n) → exec .tlbInvalidateComplete s = .next s) ∧
      ((∀ e ∈ s.reqs, n ≤ e.1) → (∀ c ∈ s.cores, ∀ d ∈ c.2.fifo, n ≤ d.seq) → ∃ g, exec .tlbInvalidateComplete s = .next { s with inval := some (n, some g) } ∧
        ∀ c ∈ s.cores, (∀ p ∈ c.2.plots, p.2.gwct ≤ g) ∧ ∀ x ∈ c.2.gwcts, x.2.1 ≤ g))) ∧
  (∀ s : State, (let w := regN s 0x34210
    let ctx := w % 64
    let dst := reg64 s 0x34208
    let root := fieldN (reg64 s (0x31000 + 16 * ctx)) 47 17 * 2 ^ 17
    let bad := fun s' : State => regBit s' 0x34210 31 = false ∧ regBit s' 0x34210 30 = false ∧ regBit s' 0x34210 29 = true ∧ s'.mem = s.mem ∧ s'.mig = s.mig
    w.testBit 31 = true → w.testBit 30 = false →
    (∀ t a e size, walkTables s ctx (reg64 s 0x34200) = .ok t → leafFrom s ctx (reg64 s 0x34200) 4 root = some (a, e, size) →
      (t.dev = none → size ≤ 2 ^ 21 → dst % size = 0 → dst + size ≤ 768 * 2 ^ 30 →
        ∃ s', exec .migrationStart s = .next s' ∧ memNat s'.mem a 8 = e ||| 64 ∧ (∀ b, b < a ∨ a + 8 ≤ b → memGet s'.mem b = memGet s.mem b) ∧ regBit s' 0x34210 30 = true ∧
          regBit s' 0x34210 31 = false ∧ s'.mig = some { old := t.pa, size := size, entry := a, dst := dst, ctx := ctx, since := s.nextId }) ∧
      (t.dev ≠ none ∨ 2 ^ 21 < size ∨ dst % size ≠ 0 ∨ 768 * 2 ^ 30 < dst + size → ∃ s', exec .migrationStart s = .next s' ∧ bad s')) ∧
    (∀ sub d, walkTables s ctx (reg64 s 0x34200) = .fail sub d → ∃ s', exec .migrationStart s = .next s' ∧ bad s'))) ∧
  (∀ (s : State) (m : Migr), s.mig = some m →
    (m.drained = false → migDrained s m = true → exec .migrationDrained s = .next { s with mig := some { m with drained := true } }) ∧
    (m.drained = false → migDrained s m = false → exec .migrationDrained s = .next s) ∧
    (m.drained = false → exec .migrationCopyDone s = .next s) ∧
    (m.drained = true → MemInv s → tsorted s.lineKeys = true → m.size % 128 = 0 → m.old % 2 ^ 16 = 0 → m.dst % 2 ^ 16 = 0 → (m.entry + 8 ≤ m.dst ∨ m.dst + m.size ≤ m.entry) →
      (m.old + m.size ≤ m.dst ∨ m.dst + m.size ≤ m.old) → (m.entry + 8 ≤ m.old ∨ m.old + m.size ≤ m.entry) →
      ∃ s' x, exec .migrationCopyDone s = .next s' ∧ s'.cores = s.cores ∧ s'.mig = none ∧ regBit s' 0x34210 30 = false ∧ x = memNat s'.mem m.entry 8 ∧
        fieldN x 47 16 * 2 ^ 16 = m.dst % 2 ^ 48 ∧ x.testBit 6 = false ∧ (∀ k, (k < 16 ∧ k ≠ 6 ∨ 47 < k) → x.testBit k = (memNat s.mem m.entry 8).testBit k) ∧
        ∀ k, k < m.size → keyedByte s' (ctxKey s m.ctx) (m.dst + k) = keyedByte s (ctxKey s m.ctx) (m.old + k)))

/-- R380 to R382, R384: a packet for another device takes the first alternative of its route entry that is valid and up, or waits; after its sixth link, or when it has waited for longer than FTMO,
it is dropped and counted; the bank that SEL names governs; a load fills the other bank from its image.
R384 to R387: a trained link is identified, and up once it has a key in each direction, unless the domains differ; a reset of the partner discards its keys; a group sent counts, under the next
key where there is one, and carries the oldest packet of its link; at the end of the counter the link is key-stalled; a group received under the next key's phase makes
it current; one that fails twice takes the link down.
R80, R84, R98, R162, R364, R375, R388: a request of another device that an inbound window allows is performed at its home: a load takes a fabric lease, a store writes its bytes, an atomic its step;
any other freezes its stream and changes no memory; a stream that is frozen is not served. -/
def Obligations.Fabric : Prop :=
  ((∀ (s : State) (dest a : Nat), a < 4 →
     (let e := (tgetD (if s.routeBank then s.routes1 else s.routes0) dest 0).toNat
      let valid := fun k => (e / 2 ^ (8 * k)).testBit 7 = true ∧ linkState s (e / 2 ^ (8 * k) % 32) = 3
      (valid a → (∀ k, k < a → ¬ valid k) → egressLink s dest = some (e / 2 ^ (8 * a) % 32)) ∧ ((∀ k, k < 4 → ¬ valid k) → egressLink s dest = none))) ∧
   (∀ (s : State) (link cls hop source dest : Nat) (loc : Bool) (cid : DWord),
     (let i : Instr := .packetForward link cls hop source dest loc cid
      let held := ((s.packets.filter fun p => p.via == some link && p.cls == cls && p.hop == hop + 1).map (·.flits)).sum
      (loc = false → 32 ≤ link ∨ linkState s link < 3 ∨ 8 ≤ held → exec i s = .next s) ∧ (6 ≤ cls ∨ dest % 2 ^ 14 = deviceNo s → exec i s = .next s) ∧
      (cls < 6 → dest % 2 ^ 14 ≠ deviceNo s → (loc = true ∨ link < 32 ∧ 3 ≤ linkState s link ∧ hop < 5 ∧ held = 0) →
        ∃ n, 1 ≤ n ∧ n ≤ 8 ∧ exec i s = .next { s with free := s.free + 1, packets := s.packets ++
          [{ link := egressLink s (dest % 2 ^ 14), via := if loc then none else some link, cls := cls, hop := if loc then 0 else hop + 1,
             source := if loc then deviceNo s else source, dest := dest % 2 ^ 14, since := s.now, cid := cid, flits := n }] }) ∧
      (cls < 6 → dest % 2 ^ 14 ≠ deviceNo s → loc = false → link < 32 → 3 ≤ linkState s link → 5 ≤ hop → held = 0 → ∃ s', exec i s = .next s' ∧ s'.packets = s.packets ∧ s'.cores = s.cores ∧ s'.mem = s.mem ∧
        (reg32 s (0x101010 + 64 * link) ≠ 0xFFFFFFFF → reg32 s' (0x101010 + 64 * link) = reg32 s (0x101010 + 64 * link) + 1) ∧
        Recorded s s' (unitLink link) 0x0301 cid 0))) ∧
   (∀ s : State, ∃ s', exec .packetWaitTimeout s = .next s' ∧ s'.cores = s.cores ∧ s'.mem = s.mem ∧
     s'.packets = s.packets.filter fun p => decide (s.now ≤ p.since + 4000 * (regN s 0x100008 % 2 ^ 16))) ∧
   (∀ s : State, ∃ s', exec .routeTableLoad s = .next s' ∧ regBit s' 0x100010 30 = true ∧ { s' with w0 := s.w0 } = s) ∧
   (∀ s : State, (regBit s 0x100010 30 = false → exec .routeLoadComplete s = .next s) ∧
     (regBit s 0x100010 30 = true →
       (let a := reg64 s 0x100018 / 2 ^ 16 * 2 ^ 16
        let word := fun d => leNat (keyedRead s s.sec.bootKey (a + 4 * d) 4)
        let bank := fun (s : State) => if s.routeBank then s.routes0 else s.routes1
        let used := fun (s : State) => if s.routeBank then s.routes1 else s.routes0
        ∃ s', exec .routeLoadComplete s = .next s' ∧ regBit s' 0x100010 30 = false ∧ s'.mem = s.mem ∧ s'.cores = s.cores ∧ s'.routeBank = s.routeBank ∧ used s' = used s ∧
          ((∀ d, d < 16384 → BitVec.ofNat 32 (word d) &&& routeMbz = 0) → ∀ d, d < 16384 → tgetD (bank s') d 0 = BitVec.ofNat 32 (word d)) ∧
          ((∃ d, d < 16384 ∧ BitVec.ofNat 32 (word d) &&& routeMbz ≠ 0) → bank s' = [] ∧ regBit s' 0x100010 29 = true)))) ∧
   (∀ s : State, ∃ s', exec .routeBankSelect s = .next s' ∧ s'.routeBank = regBit s 0x100010 28 ∧ s'.cores = s.cores ∧ s'.mem = s.mem ∧
     s'.packets = s.packets.map fun p => if p.link.isNone then { p with link := egressLink s' p.dest } else p)) ∧
  ((∀ (s : State) (l domain device plink : Nat), l < 32 → (linkEn s l = true ∨ linkState s l = 1) → linkState s l < 2 →
     (domain % 2 ^ 16 ≠ fieldN (regN s 0x100000) 31 16 → ∃ s', exec (.linkTrainingComplete l domain device plink) s = .next s' ∧ linkState s' l = 0 ∧ s'.keys = s.keys ∧
       Recorded s s' (unitLink l) 0x0302 0 0) ∧
     (domain % 2 ^ 16 = fieldN (regN s 0x100000) 31 16 → ∃ s', exec (.linkTrainingComplete l domain device plink) s = .next s' ∧ s'.cores = s.cores ∧ s'.mem = s.mem ∧
       linkState s' l = (if (linkKeys s l).txCur.isSome ∧ (linkKeys s l).rxCur.isSome then 3 else 2) ∧ fieldN (regN s' (linkOff l)) 23 19 = plink % 32 ∧
       fieldN (regN s' (linkOff l)) 13 0 = device % 2 ^ 14 ∧ linkEn s' l = linkEn s l ∧ (∀ k, k ≠ l → linkState s' k = linkState s k))) ∧
   (∀ (s : State) (l domain device plink : Nat), 32 ≤ l ∨ s.sec.recovery = true ∨ (linkEn s l = false ∧ linkState s l ≠ 1) ∨ 2 ≤ linkState s l → exec (.linkTrainingComplete l domain device plink) s = .next s) ∧
   (∀ (s : State) (l : Nat), (l < 32 → 2 ≤ linkState s l → ∃ s', exec (.linkPartnerReset l) s = .next s' ∧ linkState s' l = 2 ∧ linkKeys s' l = {} ∧ linkPhase s' l = 0 ∧
       s'.cores = s.cores ∧ s'.mem = s.mem) ∧ (linkState s l < 2 → exec (.linkPartnerReset l) s = .next s)) ∧
   (∀ (s : State) (l : Nat), l < 32 →
     (let ctr := fun (s : State) => reg64 s (linkOff l + 8)
      let k := linkKeys s l
      let fresh : Bool := k.txNext.isSome
      let n := if fresh then 0 else ctr s
      (∀ again, linkState s l ≠ 3 → exec (.flitGroupTransmit ⟨l, again⟩) s = .next s) ∧
      (linkState s l = 3 → (ctr s = 0 → exec (.flitGroupTransmit ⟨l, true⟩) s = .next s) ∧
        (ctr s ≠ 0 → k.again = false → exec (.flitGroupTransmit ⟨l, true⟩) s = .next (putKeys s l { k with again := true })) ∧
        (ctr s ≠ 0 → k.again = true → ∃ s', exec (.flitGroupTransmit ⟨l, true⟩) s = .next s' ∧ linkState s' l = 0 ∧ s'.packets = s.packets ∧ s'.cores = s.cores ∧ s'.mem = s.mem ∧
          Recorded s s' (unitLink l) 0x0303 0 0)) ∧
      (linkState s l = 3 → ∃ s', exec (.flitGroupTransmit ⟨l, false⟩) s = .next s' ∧ s'.cores = s.cores ∧ s'.mem = s.mem ∧
        (fresh = true → (linkKeys s' l).txCur = k.txNext ∧ (linkKeys s' l).txNext = none ∧ linkPhase s' l = (linkPhase s l + 1) % 4) ∧
        (fresh = false → linkKeys s' l = { k with again := false } ∧ linkPhase s' l = linkPhase s l) ∧
        (n < 2 ^ 64 - 1 → ctr s' = n + 1 ∧ s'.packets = (sendPacket s l).packets ∧ s'.credit = (sendPacket s l).credit) ∧
        (n < 2 ^ 64 - 2 → linkState s' l = 3) ∧ (2 ^ 64 - 2 ≤ n → linkState s' l = 4)))) ∧
   (let room := fun (s : State) (l : Nat) (p : Packet) => tgetD s.credit (chanNo l p.cls p.hop) 0 + p.flits ≤ 8
    (∀ (s : State) (l : Nat), (∀ p ∈ s.packets, p.link = some l → ¬ room s l p) → sendPacket s l = s) ∧
    (∀ (s : State) (a b : List Packet) (p : Packet) (l : Nat), s.packets = a ++ p :: b → (∀ q ∈ a, q.link ≠ some l) → p.link = some l →
      (room s l p → (sendPacket s l).packets = a ++ b ∧ tget (sendPacket s l).credit (chanNo l p.cls p.hop) = some (tgetD s.credit (chanNo l p.cls p.hop) 0 + p.flits)) ∧
      (¬ room s l p → (∀ q ∈ b, q.link = some l → chanNo l q.cls q.hop = chanNo l p.cls p.hop) → sendPacket s l = s))) ∧
   (∀ (s : State) (l phase : Nat) (ok : Bool), l < 32 → 3 ≤ linkState s l →
     (let k := linkKeys s l
      let i : Instr := .flitGroupReceive l phase ok
      let good := ok = true ∧ (phase % 4 = k.rxPhase ∧ k.rxCur.isSome ∨ phase % 4 ≠ k.rxPhase ∧ phase % 4 = (k.rxPhase + 1) % 4 ∧ k.rxNext.isSome)
      let back := fun (n : LinkKeys) => ∃ c, c < 36 ∧ exec i s = .next { putKeys s l n with credit := tdel s.credit (l * 36 + c), free := s.free + 1 }
      (ok = true → phase % 4 = k.rxPhase → k.rxCur.isSome → back { k with resent := false }) ∧
      (ok = true → phase % 4 ≠ k.rxPhase → phase % 4 = (k.rxPhase + 1) % 4 → k.rxNext.isSome → back { k with resent := false, rxCur := k.rxNext, rxNext := none, rxPhase := phase % 4 }) ∧
      (¬ good → k.resent = false → exec i s = .next (putKeys s l { k with resent := true })) ∧
      (¬ good → k.resent = true → ∃ s', exec i s = .next s' ∧ linkState s' l = 0 ∧ s'.cores = s.cores ∧ s'.mem = s.mem ∧ Recorded s s' (unitLink l) 0x0303 0 0)))) ∧
  (∀ (s : State) (link source a op len : Nat) (data : List Byte) (cid : DWord), link < 32 →
     (let i : Instr := .remoteRequestArrival link source a op data len cid
      let n := if op = 1 then data.length else if op ≥ 2 then atomBytes (op - 2) else len
      let allows := fun w => (regN s (0x102010 + 32 * w)).testBit 31 = true ∧ regN s (0x102010 + 32 * w) % 2 ^ 14 = source ∧ (op ≠ 0 → (regN s (0x102010 + 32 * w)).testBit 30 = true) ∧
        reg64 s (0x102000 + 32 * w) ≤ a ∧ a + n ≤ reg64 s (0x102000 + 32 * w) + reg64 s (0x102008 + 32 * w)
      let held := s.heldRequests ++ [{ link := link, source := source, address := a, op := op, data := data, len := len, cid := cid }]
      let answered := fun s' : State => ∃ p : Packet, s'.packets = s.packets ++ [p] ∧ p.cls = 1 ∧ p.hop = 0 ∧ p.dest = source % 2 ^ 14 ∧ p.cid = cid
      ((link, source) ∈ s.frozenStreams → exec i s = .next { s with heldRequests := held }) ∧
      ((link, source) ∉ s.frozenStreams → (∀ w, w < 64 → ¬ allows w) → regBit s 0x20008 31 = false → ∃ s', exec i s = .next s' ∧ s'.frozenStreams = s.frozenStreams ++ [(link, source)] ∧ s'.heldRequests = held ∧ s'.packets = s.packets ∧
        s'.mem = s.mem ∧ s'.cores = s.cores ∧ s'.homes = s.homes ∧
        (s.frozen.length < 64 → s'.frozen = s.frozen ++ [{ kind := 2, id := link * 2 ^ 14 + source % 2 ^ 14, group := 8, time := s.now }])) ∧
      ((link, source) ∉ s.frozenStreams → (∃ w, w < 64 ∧ allows w) → pageBusy s (.here a false) = true → exec i s = .next s) ∧
      ((link, source) ∉ s.frozenStreams → (∃ w, w < 64 ∧ allows w) → pageBusy s (.here a false) = false → physOk a n = true →
        (op = 0 → locked s = true → ∃ s', exec i s = .next s' ∧ answered s' ∧ s'.mem = s.mem ∧ s'.cores = s.cores ∧ s.now + (homeOf s (a / 128 * 128)).len ≤ (homeOf s' (a / 128 * 128)).ef) ∧
        (op = 0 → locked s = false → ∃ s', exec i s = .next s' ∧ answered s' ∧ { s' with packets := s.packets, free := s.free } = s) ∧
        (op = 1 → data ≠ [] → a % 128 + data.length ≤ 128 → ∃ s', exec i s = .next s' ∧ answered s' ∧ s'.cores = s.cores ∧ memRead s'.mem a data.length = data ∧
          (∀ b, b < a ∨ a + data.length ≤ b → memGet s'.mem b = memGet s.mem b) ∧ s.now < (homeOf s' (a / 128 * 128)).gwct) ∧
        (∀ k, op = k + 2 → k < 16 → a % 128 + n ≤ 128 → (∀ b, a ≤ b → b < a + n → inSavedSlot s b = false) →
          (let x : AtomStep := { v := BitVec.ofNat 64 (leNat (data.take 8)), u := BitVec.ofNat 32 (leNat ((data.drop 8).take 4)), rm := leNat ((data.drop 12).take 1) % 4 }
           ∃ s', exec i s = .next s' ∧ answered s' ∧ s'.cores = s.cores ∧ memNat s'.mem a n = (atomNew k (memNat s.mem a n) x).1 % 256 ^ n ∧
             (∀ b, b < a ∨ a + n ≤ b → memGet s'.mem b = memGet s.mem b) ∧ s.now < (homeOf s' (a / 128 * 128)).gwct)))))

/-- R366, R386, R389 to R392: a command of the mailbox that is not open in the lifecycle, or in recovery, ends with status 5 and has no other effect; GETCERT, GETNONCE and ATTEST leave their output in the
buffer; EXTEND extends M(4) to M(7); TKEY sets a context's key while the context is not valid; LKEY installs a link's key; RECOVER takes an image only in recovery.
R394 to R396: UNLOCK and LIFECYCLE use up the nonce, and refuse a token by its first failing check; an unlock with no context valid wipes tenant keys, link keys and the device's key, extends M(3) and opens
DBGU; the lifecycle advances at the next reset, without a token only from 1 to 2, else 2 to 3 or to 4. -/
def Obligations.Commands : Prop :=
  ((let status := fun (s' : State) (k : Nat) => fieldN (regN s' 0x200000) 23 16 = k ∧ regBit s' 0x200000 30 = false
    let only := fun (s s' : State) => { s' with w0 := s.w0 } = s
    let opened := fun (s : State) (hi : Nat) => s.sec.recovery = false ∧ 1 ≤ s.sec.lifecycle ∧ s.sec.lifecycle ≤ hi
    (∀ (s : State), ¬ opened s 3 → ∀ i ∈ [Instr.getcert, .getnonce, .unlock, .attest, .extend, .lifecycle], ∃ s', exec i s = .next s' ∧ status s' 5 ∧ only s s') ∧
    (∀ (s : State), ¬ opened s 2 → ∀ i ∈ [Instr.tkey, .lkey], ∃ s', exec i s = .next s' ∧ status s' 5 ∧ only s s') ∧
    (∀ s : State, opened s 3 → Config.certificate.length < 2 ^ 15 → ∃ s', exec .getcert s = .next s' ∧ status s' 0 ∧ only s s' ∧ bufRead s' 0 Config.certificate.length = Config.certificate ∧
      regN s' 0x200004 = Config.certificate.length) ∧
    (∀ s : State, opened s 3 → ∃ s' v, exec .getnonce s = .next s' ∧ status s' 0 ∧ s'.sec.nonce = some v ∧ bufRead s' 0 32 = natLe 32 v.toNat ∧ regN s' 0x200004 = 32 ∧
      { s' with w0 := s.w0, sec := s.sec } = s) ∧
    (∀ s : State, opened s 3 → (regN s 0x200004 ≠ 32 → ∃ s', exec .attest s = .next s' ∧ status s' 7 ∧ only s s') ∧
      (regN s 0x200004 = 32 →
        (let r := natLe 16 Config.deviceId.toNat ++ natLe 4 (lcState s).toNat ++ natLe 4 s.sec.imageSvn.toNat ++ bufRead s 0 32 ++
           (List.range 8).flatMap (fun n => natLe 64 (tgetD s.sec.measure n 0).toNat) ++ natLe 8 s.now ++ natLe 16 0
         (r ++ Config.signReport r).length < 2 ^ 15 → ∃ s', exec .attest s = .next s' ∧ status s' 0 ∧ only s s' ∧ bufRead s' 0 (r ++ Config.signReport r).length = r ++ Config.signReport r))) ∧
    (∀ s : State, opened s 3 →
      (let n := (bufByte s 0).toNat
       let len := regN s 0x200004
       (len = 0 ∨ 32768 < len ∨ n < 4 ∨ 7 < n → ∃ s', exec .extend s = .next s' ∧ status s' 7 ∧ only s s') ∧
       (0 < len → len ≤ 32768 → 4 ≤ n → n ≤ 7 → ∃ s', exec .extend s = .next s' ∧ status s' 0 ∧ { s' with w0 := s.w0, sec := s.sec } = s ∧
         tget s'.sec.measure n = some (Config.shake256 (natLe 64 (tgetD s.sec.measure n 0).toNat ++ bufRead s 1 (len - 1))) ∧
         ∀ k, k ≠ n → tget s'.sec.measure k = tget s.sec.measure k))) ∧
    (∀ s : State, opened s 2 →
      (let c := (bufByte s 0).toNat
       (regN s 0x200004 ≠ 65 ∨ 64 ≤ c → ∃ s', exec .tkey s = .next s' ∧ status s' 7 ∧ only s s') ∧
       (regN s 0x200004 = 65 → c < 64 → regBit s (0x31000 + 16 * c) 0 = true → ∃ s', exec .tkey s = .next s' ∧ status s' 6 ∧ only s s') ∧
       (regN s 0x200004 = 65 → c < 64 → regBit s (0x31000 + 16 * c) 0 = false → ∃ s', exec .tkey s = .next s' ∧ status s' 0 ∧ regBit s' (0x31008 + 16 * c) 0 = true ∧
         { s' with w0 := s.w0, sec := s.sec } = s ∧ (∀ k, k ≠ c → ctxKey s' k = ctxKey s k) ∧ ctxKey s' c = 2 ^ 512 + leNat (bufRead s 1 64)))) ∧
    (∀ s : State, opened s 2 →
      (let l := (bufByte s 0).toNat
       let d := (bufByte s 1).toNat
       let key := leNat (bufRead s 2 36)
       let k := linkKeys s l
       (regN s 0x200004 ≠ 38 ∨ 32 ≤ l ∨ 1 < d → ∃ s', exec .lkey s = .next s' ∧ status s' 7 ∧ only s s') ∧
       (regN s 0x200004 = 38 → l < 32 → d ≤ 1 → ∃ s', exec .lkey s = .next s' ∧ status s' 0 ∧ s'.cores = s.cores ∧ s'.mem = s.mem ∧
         (d = 0 → k.txCur = none → linkKeys s' l = { k with txCur := some key } ∧ reg64 s' (linkOff l + 8) = 0) ∧
         (d = 0 → k.txCur ≠ none → linkKeys s' l = { k with txNext := some key } ∧ (linkState s l = 4 → linkState s' l = 3)) ∧
         (d = 1 → k.rxCur = none → linkKeys s' l = { k with rxCur := some key }) ∧ (d = 1 → k.rxCur ≠ none → linkKeys s' l = { k with rxNext := some key }) ∧
         (linkState s l = 2 → (d = 0 ∧ k.txCur = none ∧ k.rxCur ≠ none ∨ d = 1 ∧ k.rxCur = none ∧ k.txCur ≠ none) → linkState s' l = 3)))) ∧
    (∀ s : State, (s.sec.recovery = false → ∃ s', exec .recover s = .next s' ∧ status s' 5 ∧ only s s') ∧
      (s.sec.recovery = true → regN s 0x200004 ≠ 12 → ∃ s', exec .recover s = .next s' ∧ status s' 7 ∧ only s s') ∧
      (s.sec.recovery = true → regN s 0x200004 = 12 →
        (let image := memRead s.mem (2 ^ 47 + leNat (bufRead s 0 8) % 2 ^ 47) (leNat (bufRead s 8 4))
         (imageOk s.sec.lifecycle image = false → ∃ s', exec .recover s = .next s' ∧ status s' 0x12 ∧ only s s') ∧
         (imageOk s.sec.lifecycle image = true → ∃ s', exec .recover s = .next s' ∧ status s' 0 ∧ s'.sec.recovery = false ∧ s'.sec.imageSvn = Config.imageSvn image ∧ s'.lineKeys = [] ∧
           (MemInv s → ∀ a, memGet s'.mem a = if a < 2 ^ 47 then 0 else memGet s.mem a) ∧
           tget s'.sec.measure 1 = some (Config.shake256 (natLe 64 (tgetD s.sec.measure 1 0).toNat ++ natLe 64 (Config.shake256 image).toNat)))))))) ∧
  ((let status := fun (s' : State) (k : Nat) => fieldN (regN s' 0x200000) 23 16 = k ∧ regBit s' 0x200000 30 = false
    let opened := fun (s : State) => s.sec.recovery = false ∧ 1 ≤ s.sec.lifecycle ∧ s.sec.lifecycle ≤ 3
    let form := fun (s : State) => regN s 0x200004 = 0x80 + 29792 ∧ tok s 4 4 < 8 ∧ tok s 0x38 4 < 16 ∧ ∀ b ∈ bufRead s 0x48 0x38, b = 0
    let signed := fun (s : State) => Config.verifyDebug (bufRead s 0 (0x80 + 29792)) = true
    let named := fun (s : State) (kind : Nat) => tok s 0 4 = kind ∧ tok s 8 16 = Config.deviceId.toNat ∧ tok s 4 4 % 8 = s.sec.lifecycle
    let fresh := fun (s : State) => s.sec.nonce = some (BitVec.ofNat 256 (tok s 0x18 32))
    let timely := fun (s : State) => s.now ≤ tok s 0x40 8 ∧ regN s 0x11000C ≤ 10 ^ 9
    let good := fun (s : State) (kind : Nat) => form s ∧ signed s ∧ named s kind ∧ fresh s ∧ timely s
    (∀ (s : State) (i : Instr) (kind : Nat), opened s → (i = .unlock ∧ kind = 1 ∨ i = .lifecycle ∧ kind = 2 ∧ regN s 0x200004 ≠ 0) →
      (let ends := fun k => ∃ s', exec i s = .next s' ∧ status s' k ∧ s'.sec = { s.sec with nonce := none } ∧ { s' with w0 := s.w0, sec := s.sec } = s
       (¬ form s → ends 7) ∧ (form s → ¬ signed s → ends 1) ∧ (form s → signed s → ¬ named s kind → ends 2) ∧ (form s → signed s → named s kind → ¬ fresh s → ends 3) ∧
       (form s → signed s → named s kind → fresh s → ¬ timely s → ends 4))) ∧
    (∀ s : State, opened s → good s 1 →
      (anyCv s = true → ∃ s', exec .unlock s = .next s' ∧ status s' 6 ∧ s'.sec.nonce = none ∧ s'.keys = s.keys) ∧
      (anyCv s = false → ∃ s', exec .unlock s = .next s' ∧ status s' 0 ∧ s'.sec.nonce = none ∧ s'.sec.tenantKeys = [] ∧ s'.sec.bootKey = s.sec.keyNo ∧ s'.sec.keyNo = s.sec.keyNo + 1 ∧
        (∀ l, l < 32 → linkKeys s' l = {} ∧ linkState s' l ≤ 2) ∧ (∀ c, c < 64 → regBit s' (0x31008 + 16 * c) 0 = false) ∧ regBit s' 0x200008 7 = true ∧
        tget s'.sec.measure 3 = some (Config.shake256 (natLe 64 (tgetD s.sec.measure 3 0).toNat ++ natLe 64 (Config.shake256 (bufRead s 0 0x80)).toNat)) ∧
        secScope s' = (secScope s ||| tok s 0x38 4 % 16) ∧ s'.mem = s.mem ∧ s'.cores = s.cores)) ∧
    (∀ s : State, opened s → regN s 0x200004 = 0 →
      (s.sec.lifecycle = 1 → ∃ s', exec .lifecycle s = .next s' ∧ status s' 0 ∧ s'.sec = { s.sec with nextLifecycle := max s.sec.nextLifecycle 2 }) ∧
      (s.sec.lifecycle ≠ 1 → ∃ s', exec .lifecycle s = .next s' ∧ status s' 7 ∧ s'.sec = s.sec)) ∧
    (∀ s : State, opened s → good s 2 →
      (let goal := tok s 0x38 4 % 16
       (s.sec.lifecycle = 2 ∧ goal = 3 ∨ goal = 4 → ∃ s', exec .lifecycle s = .next s' ∧ status s' 0 ∧ s'.sec.nonce = none ∧ s'.sec.lifecycle = s.sec.lifecycle ∧
         s'.sec.nextLifecycle = max s.sec.nextLifecycle goal ∧ (goal = 3 → s'.sec.tenantKeys = [])) ∧
       (¬ (s.sec.lifecycle = 2 ∧ goal = 3 ∨ goal = 4) → ∃ s', exec .lifecycle s = .next s' ∧ status s' 2 ∧ s'.sec = { s.sec with nonce := none })))))

/-- R377, R378, R384, R391, R396, R401, R404, R406, R417: a reset leaves no thread, plot, queue, run, request or key; HBM reads zero, host memory is as before, but where no firmware image is accepted the scrub waits for one; device time goes on where the granary survives; the
lifecycle is that of the fuses; every link trains in a cold reset, in a warm one those whose partner has changed, who it is being left to a free value, and EN of every link stays (log 42); a retired device does nothing
after the fuse read (log 42); ROM and fuses are measured, and of an accepted image its digest too; the bound e starts where EBND reads all ones (log 20). Without its rails the device is not reset; a loss of power takes the granary. -/
def Obligations.Resets : Prop :=
  (let empty := fun (s s' : State) => s'.cores = [] ∧ s'.clusters = [] ∧ s'.homes = [] ∧ s'.l2 = [] ∧ s'.reqs = [] ∧ s'.queues = [] ∧ s'.runs = [] ∧ s'.staged = [] ∧
     s'.savedParts = [] ∧ s'.comms = [] ∧ s'.packets = [] ∧ s'.ways = [] ∧ s'.credit = [] ∧ s'.heldRequests = [] ∧ s'.frozen = [] ∧ s'.pageReqs = [] ∧
     s'.fwEvents = [] ∧ s'.issued = []
   let scrubbed := fun (s s' : State) => s'.lineKeys = [] ∧ (∀ a, a < 2 ^ 47 → memGet s'.mem a = 0) ∧ (∀ a, 2 ^ 47 ≤ a → memGet s'.mem a = memGet s.mem a)
   let wiped := fun (s s' : State) => empty s s' ∧ (s'.sec.recovery = false → s.sec.nextLifecycle ≠ 4 → scrubbed s s') ∧
     (s'.sec.recovery = true ∨ s.sec.nextLifecycle = 4 → s'.mem = s.mem ∧ s'.lineKeys = s.lineKeys ∧ s'.sec.bootKey = s.sec.keyNo) ∧
     (∀ l, l < 32 → (linkKeys s' l).txCur = none ∧ (linkKeys s' l).txNext = none ∧ (linkKeys s' l).rxCur = none ∧ (linkKeys s' l).rxNext = none) ∧ s'.sec.nonce = none ∧ s'.sec.tenantKeys = [] ∧ s'.sec.lifecycle = s.sec.nextLifecycle ∧
     s'.disc.e = 0x1FFFFFFFE ∧ locked s' = false ∧ (s.granarySig = true → s.now < s'.now) ∧ (s.granarySig = false → s'.now = 0) ∧
     regN s' 0x200008 = 0 ∧ (∀ q, q < 1024 → reg32 s' (0x10008 + 32 * q) = 0) ∧ (∀ c, c < 64 → reg32 s' (0x31000 + 16 * c) = 0) ∧
     (s.sec.nextLifecycle ≠ 4 → ∀ l, l < 32 → linkEn s' l = linkEn s l) ∧
     (s.sec.nextLifecycle ≠ 4 → tget s'.sec.measure 0 = some (extendWith 0 (Config.romDigest ++ Config.fuseImage))) ∧
     (s.sec.nextLifecycle ≠ 4 → imageOk s.sec.nextLifecycle Config.flashImage = true → s'.sec.recovery = false ∧ s'.sec.imageSvn = Config.imageSvn Config.flashImage ∧
       tget s'.sec.measure 1 = some (extendWith 0 (natLe 64 (Config.shake256 Config.flashImage).toNat))) ∧
     (s.sec.nextLifecycle ≠ 4 → imageOk s.sec.nextLifecycle Config.flashImage = false → s'.sec.recovery = true ∧ fieldN (regN s' 0x200000) 23 16 = 0x10)
   (∀ s : State, MemInv s → s.rails ≠ 0 → s.railFault = none → ∃ s', exec .coldReset s = .next s' ∧ wiped s s' ∧ s'.rails = 3 ∧ s'.tripped = false ∧
     (s.granarySig = true → s'.segments = s.segments) ∧
     (s.sec.nextLifecycle ≠ 4 → (s.granarySig = false → s'.segments = []) ∧ ∀ l, l < 32 → linkState s' l = 1)) ∧
   (∀ s : State, s.rails = 0 ∨ s.railFault.isSome → exec .coldReset s = .next s) ∧
   (∀ s : State, MemInv s → s.rails = 3 → ∃ s', exec .warmReset s = .next s' ∧ wiped s s' ∧ s'.segments = s.segments ∧
     (s.sec.nextLifecycle ≠ 4 → ∀ l, l < 32 → (linkState s l < 2 → linkState s' l = linkState s l) ∧
       (2 ≤ linkState s l → linkState s' l = (if Config.partnerOf s.free l = partnerWas s l then 2 else 1)))) ∧
   (∀ s : State, s.rails < 3 → exec .warmReset s = .next s) ∧
   (∀ s : State, MemInv s → s.rails = 2 → s.railFault = none → s.tripped = false → ∃ s', exec .powerOn s = .next s' ∧ wiped s s' ∧ s'.rails = 3) ∧
   (∀ s : State, s.rails < 2 → s.railFault = none → s.tripped = false → exec .powerOn s = .next { s with rails := s.rails + 1 }) ∧
   (∀ s : State, 3 ≤ s.rails ∨ s.railFault.isSome ∨ s.tripped = true → exec .powerOn s = .next s) ∧
   (∀ s : State, (s.rails < 3 → s.tripped = false → exec .railGoodTimeout s = .next { s with railFault := some s.rails }) ∧
     (3 ≤ s.rails ∨ s.tripped = true → exec .railGoodTimeout s = .next s)) ∧
   (∀ s : State, MemInv s → 3 ≤ s.rails → ∃ s', exec .thermalTrip s = .next s' ∧ s'.rails = 1 ∧ s'.tripped = true ∧ s'.cores = [] ∧ s'.clusters = [] ∧ s'.reqs = [] ∧ s'.segments = s.segments ∧
     s'.now = s.now ∧ (∀ a, a < 2 ^ 47 → memGet s'.mem a = 0) ∧ (∀ a, 2 ^ 47 ≤ a → memGet s'.mem a = memGet s.mem a) ∧ Recorded s s' (unitOf 8 0) 0x0404 0 0) ∧
   (∀ s : State, s.rails < 3 → exec .thermalTrip s = .next s) ∧
   (∀ s : State, MemInv s → ∃ s', exec .powerLoss s = .next s' ∧ empty s s' ∧ scrubbed s s' ∧ s'.rails = 0 ∧ s'.granarySig = false ∧ s'.segments = [] ∧ s'.ports = [] ∧ s'.sec.lifecycle = s.sec.nextLifecycle))

/-- R399, R400, R402 to R407: above 3,300 W the cluster of highest power is lowered by 100 MHz, down to 1.2 GHz, and at 105 °C the hot one; a droop stretches a cycle; an exchange with the parent sets the bound and steps an
unlocked device forward, or slews; without exchanges the bound grows by 20 ns for each millisecond. -/
def Obligations.PowerAndTime : Prop :=
  (∀ (s : State) (k : Nat), (k < 256 → ∃ s', exec (.thermalThrottle k) s = .next s' ∧ (getCluster s' k).slow = min ((getCluster s k).slow + 1) 12 ∧
      (∀ j, j ≠ k → getCluster s' j = getCluster s j) ∧ { s' with clusters := s.clusters } = s) ∧
    (k < 256 → ∃ s', exec (.voltageDroop k) s = .next s' ∧ getCluster s' k = { getCluster s k with droop := true } ∧ (∀ j, j ≠ k → getCluster s' j = getCluster s j) ∧
      { s' with clusters := s.clusters } = s) ∧
    (256 ≤ k → exec (.thermalThrottle k) s = .next s ∧ exec (.voltageDroop k) s = .next s)) ∧
  (∀ (s : State) (mw : Nat) (power : List Nat), (mw ≤ 3300000 → exec (.powerLimitWindow mw power) s = .next s) ∧
    (∀ k, 3300000 < mw → k < power.length → k < 256 → (getCluster s k).slow < 12 →
      (∀ j, j < power.length → j < 256 → (getCluster s j).slow < 12 → power.getD j 0 < power.getD k 0 ∨ (power.getD j 0 = power.getD k 0 ∧ k ≤ j)) →
      ∃ s', exec (.powerLimitWindow mw power) s = .next s' ∧ (getCluster s' k).slow = (getCluster s k).slow + 1 ∧ (∀ j, j ≠ k → getCluster s' j = getCluster s j) ∧
        { s' with clusters := s.clusters } = s) ∧
    (3300000 < mw → (∀ j, j < power.length → j < 256 → 12 ≤ (getCluster s j).slow) → exec (.powerLimitWindow mw power) s = .next s)) ∧
  (∀ (s : State) (l : Nat) (off : Int) (e : Nat) (f : Option Nat),
    (32 ≤ l ∨ linkState s l ≠ 3 → exec (.timeExchange l off e f) s = .next s) ∧
    (l < 32 → linkState s l = 3 → regBit s 0x110000 13 = false → l ≠ fieldN (regN s 0x110000) 12 8 → exec (.timeExchange l off e f) s = .next s) ∧
    (l < 32 → linkState s l = 3 → regBit s 0x110000 13 = false → l = fieldN (regN s 0x110000) 12 8 →
      (let b := e + off.natAbs + 12
       ∃ s', exec (.timeExchange l off e f) s = .next s' ∧ s'.cores = s.cores ∧ s'.mem = s.mem ∧ s'.disc.e = b ∧ s'.disc.last = s.now ∧ s'.disc.fRef = f ∧
         regN s' 0x110008 = min ((2 * b + 3) / 4) 0xFFFFFFFF ∧ locked s' = decide (2 * b ≤ 120) ∧
         (off < 0 → 120 < 2 * b → s'.now = s.now + off.natAbs ∧ s'.disc.slew = 0) ∧ (0 ≤ off ∨ 2 * b ≤ 120 → s'.now = s.now ∧ s'.disc.slew = off) ∧
         (∀ g, f = some g → regN s' 0x11000C = min (g + min ((b + 3) / 4) 0xFFFFFFFF) 0xFFFFFFFF ∧ regBit s' 0x110004 30 = true) ∧
         (f = none → regN s' 0x11000C = 0xFFFFFFFF ∧ regBit s' 0x110004 30 = false)))) ∧
  (∀ (s : State) (off : Int), (regBit s 0x110000 13 = false ∨ regN s 0x110000 % 4 = 0 → exec (.fleetTimeSync off) s = .next s) ∧
    (regBit s 0x110000 13 = true → regN s 0x110000 % 4 ≠ 0 → ∃ s', exec (.fleetTimeSync off) s = .next s' ∧ s'.cores = s.cores ∧ s'.mem = s.mem ∧ s'.disc.e = 0 ∧ locked s' = true ∧
      s'.now = s.now ∧ s'.disc.slew = off ∧
      (regN s 0x110000 % 4 = 1 → reg32 s 0x110010 ≠ 0xFFFFFFFF → regN s' 0x11000C = min (regN s 0x110010 + 10) 0xFFFFFFFF))) ∧
  (∀ s : State, (let g := (s.now - s.disc.last) / 50000
    (regBit s 0x110000 13 = true ∨ g ≤ s.disc.grown → exec .timeBoundGrowth s = .next s) ∧
    (regBit s 0x110000 13 = false → s.disc.grown < g → ∃ s', exec .timeBoundGrowth s = .next s' ∧ s'.cores = s.cores ∧ s'.mem = s.mem ∧ s'.now = s.now ∧
      s'.disc.e = s.disc.e + (g - s.disc.grown) ∧ s'.disc.grown = g ∧ locked s' = decide (2 * s'.disc.e ≤ 120) ∧ regN s' 0x110008 = min ((2 * s'.disc.e + 3) / 4) 0xFFFFFFFF)))

/-- R408 to R417, R420 to R423: the oldest record of a port enters its class's segment, in a new one where that is full, or is counted as dropped where the class has no place, the granary-empty record before every other; a quota is set while the sum allows; a readout copies slots to host
memory, or sets ERR; a snapshot ends with a record that counts what was written.
R48, R294, R375, R394, R395, R426 to R430, R433: the host starts and stops capture on every core; an interval's counts become records and start at 0; a write to the selection clears it; the management path, once an unlock has opened plot state or where
the plot is frozen (as log 44 reads the rules), reads a register as it stands, with a record, or a word of its predicates, tiles, scratchpad or fragments, a channel's while it is frozen, and once opened a word of HBM (log 44, 67); a debugger's write, once opened, renames a register, and notes a load whose result is lost. -/
def Obligations.GranaryProfilingDebug : Prop :=
  ((∀ (s : State) (u : Word) (r : Rec) (rest : List Rec), tget s.ports (portOf u) = some (r :: rest) →
     (∀ e l, tget s.ports 0x90000000 = some (e :: l) → e.type ≠ 0x0505) → ∃ s', exec (.recordWrite u) s = .next s' ∧ s'.cores = s.cores ∧ s'.mem = s.mem ∧
     tgetD s'.ports (portOf u) [] = rest ∧ (∀ v, v ≠ portOf u → tget s'.ports v = tget s.ports v) ∧
     (let c := classOf r.type.toNat
      let k := regN s (0x120110 + 32 * c) % 2 ^ 14
      let n := regN s (0x120114 + 32 * c) % 2 ^ 16
      (∀ g, k ≠ 0 → n < 32766 → tget s.segments k = some g → tget s'.segments k = some { g with recs := g.recs ++ [r] } ∧ regN s' (0x120114 + 32 * c) = n + 1 ∧
        ∀ j, j ≠ k → tget s'.segments j = tget s.segments j) ∧
      (k = 0 ∨ 32766 ≤ n → heldSegs s c = [] → nextSeg s c = none → s'.segments = s.segments ∧ regN s' (0x120104 + 32 * c) = min (regN s (0x120104 + 32 * c) + 1) 0xFFFFFFFF) ∧
      (∀ j, k ≠ 0 → 32766 ≤ n → (heldSegs s c).length ≤ regN s (0x120100 + 32 * c) % 2 ^ 14 → nextSeg s c = some j → 0 < j → j < 16384 → ∃ g, tget s'.segments j = some g ∧ g.held = true ∧ g.cls = c ∧
        g.seq = reg64 s (0x120108 + 32 * c) + 1 ∧ g.recs = [r] ∧ g.drops = regN s (0x120104 + 32 * c) ∧ regN s' (0x120110 + 32 * c) % 2 ^ 14 = j ∧ regN s' (0x120104 + 32 * c) = 0 ∧
        regN s' (0x120114 + 32 * c) % 2 ^ 16 = 1) ∧
      (k = 0 → (∀ e ∈ s.segments, e.2.held = false) → 0 < regN s (0x120100 + 32 * c) % 2 ^ 14 → ∃ j g, tget s'.segments j = some g ∧ j ≠ 0 ∧ g.held = true ∧ g.cls = c ∧ g.seq = 0 ∧ g.recs = [r] ∧
        g.drops = regN s (0x120104 + 32 * c) ∧ g.htime = s.now ∧ regN s' (0x120110 + 32 * c) % 2 ^ 14 = j ∧ regN s' (0x120104 + 32 * c) = 0 ∧ regN s' (0x120114 + 32 * c) % 2 ^ 16 = 1))) ∧
   (∀ (s : State) (u : Word) (e : Rec), tget s.ports 0x90000000 = some [e] → e.type = 0x0505 →
     exec (.recordWrite u) s = exec (.recordWrite u) (granaryPut { s with ports := tdel s.ports 0x90000000 } e)) ∧
   (∀ (s : State) (u : Word), tget s.ports (portOf u) = none → (∀ e l, tget s.ports 0x90000000 = some (e :: l) → e.type ≠ 0x0505) → exec (.recordWrite u) s = .next s) ∧
   (∀ s : State, (let c := (s.wrOff - 0x120100) / 32
     let q := max 1 (s.wrVal.toNat % 2 ^ 14)
     let sum := ((List.range 8).map fun k => if k = c then q else regN s (0x120100 + 32 * k) % 2 ^ 14).sum
     (8 ≤ c ∨ 16383 < sum → exec .quotaWrite s = .next s) ∧
     (c < 8 → sum ≤ 16383 → ∃ s', exec .quotaWrite s = .next s' ∧ regN s' (0x120100 + 32 * c) = q ∧ { s' with w0 := s.w0 } = s ∧
       ∀ o, o ≠ 0x120100 + 32 * c → reg32 s' o = reg32 s o))) ∧
   (∀ s : State, ∃ s', exec .granaryReadout s = .next s' ∧ regBit s' 0x120058 30 = true ∧ { s' with w0 := s.w0 } = s) ∧
   (∀ s : State, (regBit s 0x120058 30 = false → exec .granaryReadoutComplete s = .next s) ∧
     (regBit s 0x120058 30 = true →
       (let src := reg64 s 0x120040
        let dst := reg64 s 0x120048
        let n := regN s 0x120050
        let bad := src % 32 ≠ 0 ∨ dst % 32 ≠ 0 ∨ n % 32 ≠ 0 ∨ 2 ^ 26 < n ∨ 2 ^ 34 < src + n
        ∃ s', exec .granaryReadoutComplete s = .next s' ∧ s'.cores = s.cores ∧ regBit s' 0x120058 30 = false ∧
          (bad → regBit s' 0x120058 29 = true ∧ s'.mem = s.mem) ∧
          (¬ bad → dst % 2 ^ 47 + n ≤ 2 ^ 47 → ∀ k, k < n / 32 →
            memRead s'.mem (2 ^ 47 + dst % 2 ^ 47 + 32 * k) 32 = slotBytes s ((src / 32 + k) / 32768) ((src / 32 + k) % 32768))))) ∧
   (∀ (s : State) (k j : Nat) (g : Segment) (r : Rec), k ≠ 0 → tget s.segments k = some g → g.recs[j]? = some r → slotBytes s k (j + 2) =
     natLe 8 r.time ++ natLe 8 r.cid.toNat ++ natLe 4 r.unit.toNat ++ natLe 2 r.type.toNat ++ natLe 2 r.flags.toNat ++ natLe 8 r.payload.toNat) ∧
   (∀ s : State, (let w := regN s 0x120300
     let names := fieldN w 28 27 = 1 ∧ w % 2 ^ 24 < 1024 ∨ fieldN w 28 27 = 2 ∧ w % 2 ^ 24 / 8 < 4096 ∧ (tget (getCore s (w % 2 ^ 24 / 8)).plots (w % 8)).isSome = true
     ∃ s', exec .waitforSnapshot s = .next s' ∧ s'.cores = s.cores ∧ s'.mem = s.mem ∧ regBit s' 0x120300 30 = false ∧
       (fieldN w 28 27 = 1 ∨ fieldN w 28 27 = 2 → ¬ names → regBit s' 0x120300 29 = true ∧ s'.ports = s.ports) ∧
       (fieldN w 28 27 = 0 ∨ names → s.ports = [] →
         (let edges := chosenEdges (setRegBit s 0x120300 30 false) w
          let last := fun (n : Nat) => ∃ r, tgetD s'.ports (portOf (unitOf 8 0)) [] = [r] ∧ r.type = 0x0601 ∧ r.payload = BitVec.ofNat 64 n ∧ r.flags.toNat / 2 ^ 12 = 14
          (edges = [] → last 0) ∧
          (∀ e, edges = [e] → e.more = [] → e.unit ≠ unitOf 8 0 → e.kind < 14 → e.sub < 8 → e.tid < 256 → last 1 ∧ ∃ r, tgetD s'.ports (portOf e.unit) [] = [r] ∧ r.type = 0x0601 ∧ r.cid = e.cid ∧
            r.payload = BitVec.ofNat 64 e.pay ∧ r.flags.toNat = e.kind * 2 ^ 12 + e.sub * 2 ^ 8 + e.tid))))) ∧
   (∀ (s : State) (ci t : Nat) (c : Core) (th : Thread) (n : Nat) (target : Word), getCore s ci = c → th.st = .waiting (.counter n target) →
     ∃ e, waitEdge s ci t c th = [e] ∧ e.kind = 2 ∧ e.sub = n ∧ e.tid = t ∧ e.cid = (getPlot c th.plot).cid ∧ e.more = [] ∧
       e.pay = target.toNat + 2 ^ 32 * (tgetD (tgetD c.sheaves (th.sheaf.getD 0) {}).ctr n 0).toNat)) ∧
  ((∀ s : State, ∃ s', exec .profileHostStart s = .next s' ∧ s'.mem = s.mem ∧ regBit s' 0x140000 29 = true ∧ ∀ ci, ci < 4096 → ∃ c, getCore s' ci = { getCore s ci with prof := c } ∧
     c = { (getCore s ci).prof with capture := true }) ∧
   (∀ s : State, ∃ s', exec .profileHostStop s = .next s' ∧ s'.mem = s.mem ∧ s'.w0 = s.w0 ∧
     ∀ ci c, tget s.cores ci = some c → tget s'.cores ci = some { c with prof := { c.prof with stop := true } }) ∧
   (∀ s : State, ∃ s', exec .detailSelectWrite s = .next s' ∧ s' = { s with cores := s'.cores } ∧
     ∀ ci c, tget s.cores ci = some c → tget s'.cores ci = some { c with prof := { c.prof with selected := none } }) ∧
   (∀ s : State, tsorted s.cores = true → (∀ e ∈ s.cores, e.1 < 2 ^ 14) →
     (let due := s.sumAt + 4000 * (regN s 0x140018 % 2 ^ 17)
      (s.now < due → exec .profileSummaryInterval s = .next s) ∧
      (due ≤ s.now → ∃ s', exec .profileSummaryInterval s = .next s' ∧ s'.mem = s.mem ∧ s'.now = s.now ∧ s'.interval = s.interval + 1 ∧ s'.sumAt = due ∧
        ∀ ci c, tget s.cores ci = some c → tget s'.cores ci = some { c with prof := { c.prof with counts := [] } } ∧
          ∀ e ∈ c.prof.counts, e.2 ≠ 0 → c.prof.counts = [e] → (tgetD s.ports (portOf (unitCore ci none)) []).length < 16 →
            (∃ r, tgetD s'.ports (portOf (unitCore ci none)) [] = tgetD s.ports (portOf (unitCore ci none)) [] ++ [r] ∧ r.time = due ∧ r.type = 0x0210 ∧
              r.flags = BitVec.ofNat 16 (e.1 / 8 + 256 * (e.1 % 8)) ∧ r.payload = BitVec.ofNat 64 (e.2.toNat + 2 ^ 32 * (s.interval % 2 ^ 32)))))) ∧
   (∀ (s : State) (ci t r : Nat), (getThread s ci t = none → exec (.mgmtRegisterRead ci (.reg t) r) s = .next s) ∧
     ∀ th, getThread s ci t = some th → (regBit s 0x200008 3 = false → (getPlot (getCore s ci) th.plot).frozen = none → exec (.mgmtRegisterRead ci (.reg t) r) s = .next s) ∧
      (regBit s 0x200008 3 = true ∨ (getPlot (getCore s ci) th.plot).frozen ≠ none → ∃ s', exec (.mgmtRegisterRead ci (.reg t) r) s = .next s' ∧ s'.cores = s.cores ∧ s'.mem = s.mem ∧
       Recorded s s' (unitCore ci (some (slotOf t))) 0x0602 (getPlot (getCore s ci) th.plot).cid 0 ∧
       (tget th.regs r = none → s'.mgmt = some (3, 3, false, 0)) ∧
       (∀ c, tget th.regs r = some c →
         (let tag : Nat := if th.sheaf = none ∨ (members (getCore s ci) (th.sheaf.getD 0)).length ≤ 1 then 1 else if c.tag = .general then 0 else if c.tag = .uniform then 1 else 2
          (c.st = .full → s'.mgmt = some (0, tag, c.armed, c.val)) ∧ (c.st = .empty → s'.mgmt = some (1, tag, c.armed, 0)) ∧
          (∀ b, c.st = .fallow → fallowBase (getCore s ci) = some b → s'.mgmt = some (2, tag, c.armed, fallowWord s b t th r c)))))) ∧
   (∀ (s : State) (ci pi w : Nat) (v : Word) (p : MgmtPlace),
     (∃ t th, p = .pred t ∧ getThread s ci t = some th ∧ th.plot = pi ∧ v = (if w = 0 ∨ th.preds.getLsbD (w % 8) = true then 1 else 0)) ∨
     (∃ t, p = .tile pi t ∧ (∃ r ∈ (getPlot (getCore s ci) pi).roles, t ∈ r.tileMap) ∧ v = BitVec.ofNat 32 ((tgetD (getCore s ci).tiles t 0).toNat / 2 ^ (32 * (w % 256)))) ∨
     (∃ pos, p = .scratch pi ∧ scratchPos s ci pi (w / 4 * 4) 4 = some pos ∧ v = BitVec.ofNat 32 (memNat (getCluster s (clusterOf ci)).scratch pos 4)) ∨
     (∃ e f, p = .frag e ∧ tget (getCore s ci).frags e = some f ∧ f.plot = pi ∧
       (w = 0 ∧ v = (fragHandle s ci e f).1 ∨ w = 1 ∧ v = (fragHandle s ci e f).2 ∨ w = 2 ∧ v = fragCause e f ∨ w = 3 ∧ v = f.det0 ∨ w = 4 ∧ v = f.det1 ∨ w = 5 ∧ v = f.det2)) →
     (regBit s 0x200008 3 = false → (getPlot (getCore s ci) pi).frozen = none → exec (.mgmtRegisterRead ci p w) s = .next s) ∧
     (regBit s 0x200008 3 = true ∨ (getPlot (getCore s ci) pi).frozen ≠ none → ∃ s', exec (.mgmtRegisterRead ci p w) s = .next s' ∧ s'.cores = s.cores ∧ s'.mem = s.mem ∧ s'.mgmt = some (0, 0, false, v))) ∧
   (∀ (s : State) (ci ch w : Nat), (let k := getChannel s (clusterOf ci) ch
     (k.frozen = false → exec (.mgmtRegisterRead ci (.channel ch) w) s = .next s) ∧
     (k.frozen = true → ∃ s', exec (.mgmtRegisterRead ci (.channel ch) w) s = .next s' ∧ s'.cores = s.cores ∧ s'.clusters = s.clusters ∧ s'.mem = s.mem ∧
       s'.mgmt = some (0, 0, false, BitVec.ofNat 32 (channelWord k w))))) ∧
   (∀ (s : State) (ci ctx a : Nat), (regBit s 0x200008 4 = false ∨ Config.hbmBytes ≤ a → exec (.mgmtRegisterRead ci (.hbm ctx) a) s = .next s) ∧
     (regBit s 0x200008 4 = true → a < Config.hbmBytes → ∃ s', exec (.mgmtRegisterRead ci (.hbm ctx) a) s = .next s' ∧ s'.cores = s.cores ∧ s'.mem = s.mem ∧
       s'.mgmt = some (0, 0, false, BitVec.ofNat 32 (leNat (keyedBytes s (ctxKey s ctx) (a / 4 * 4) 4))))) ∧
   (∀ (s : State) (ci t r : Nat) (v : Word) (th : Thread), WellKept s → SpillsOk s ci → getThread s ci t = some th → r < 64 → regBit s 0x200008 3 = true → peakReg (getCore s ci) th [] [r] = none →
     ∃ s' new, exec (.debuggerRegisterWrite ci t r v) s = .next s' ∧ getThread s' ci t = some new ∧ (tget new.regs r).map (fun c => (c.st, c.val)) = some (.full, v) ∧
       (∀ k, k ≠ r → (tget new.regs k).map (·.val) = (tget th.regs k).map (·.val)) ∧ new.pc = th.pc ∧ new.st = th.st ∧ new.preds = th.preds ∧
       (∀ c o, tget th.regs r = some c → c.st = .empty → tget s.reqs c.prod = some (.load o) → new.dbgst = th.dbgst ||| 4) ∧
       ((∀ c, tget th.regs r = some c → c.st ≠ .empty ∨ ∀ o, tget s.reqs c.prod ≠ some (.load o)) → new.dbgst = th.dbgst)) ∧
   (∀ (s : State) (ci t r : Nat) (v : Word), getThread s ci t = none ∨ regBit s 0x200008 3 = false → exec (.debuggerRegisterWrite ci t r v) s = .next s) ∧
   (∀ (s : State) (ci pi : Nat), regBit s 0x200008 3 = false → exec (.debuggerAttach ci pi true) s = .next s) ∧
   (∀ (s : State) (ci pi : Nat) (b : Bool) (p : Plot), tget (getCore s ci).plots pi = some p → (b = true → regBit s 0x200008 3 = true) → ∃ s', exec (.debuggerAttach ci pi b) s = .next s' ∧
     tget (getCore s' ci).plots pi = some { p with att := b } ∧ (∀ k, k ≠ pi → tget (getCore s' ci).plots k = tget (getCore s ci).plots k) ∧ (getCore s' ci).threads = (getCore s ci).threads ∧
     s'.mem = s.mem))

/-- R5, R329, R330, R331, R358, R365, R375, R405: a write to window 0 waits for the host's earlier window-2 writes; one that is not aligned, or of another size, is discarded; a word takes the bits it may take and clears those a 1 clears, and its
event comes next; read-only words stay; FSBASE is ignored while its core holds plots, and a core's policy word changes nothing but that core's policy (log 84). A read that is not aligned, or of another size, gives all ones; device time is read as one value, and the frozen list
names each frozen master, in the order of freezing (log 67). -/
def Obligations.RegisterWrites : Prop :=
  (∀ (s : State) (off size : Nat), ¬ (size = 4 ∧ off % 4 = 0 ∨ size = 8 ∧ off % 8 = 0) → readWindow0 s off size = 0xFFFFFFFF) ∧
  (∀ s : State, readWindow0 s 0x110018 8 = s.now % 2 ^ 64) ∧
  (∀ (s : State) (k : Nat) (f : Frozen), k < 64 → s.frozen[k]? = some f →
    fieldN (readWindow0 s (0x35200 + 16 * k) 4) 31 31 = 1 ∧ fieldN (readWindow0 s (0x35200 + 16 * k) 4) 30 28 = f.kind % 8 ∧
    fieldN (readWindow0 s (0x35200 + 16 * k) 4) 23 0 = f.id % 2 ^ 24 ∧ readWindow0 s (0x35204 + 16 * k) 4 = f.group % 32 ∧ readWindow0 s (0x35208 + 16 * k) 8 = f.time % 2 ^ 64) ∧
  (∀ (s : State) (off size : Nat) (v : DWord), s.now ≤ s.winGwct → s.winGwct ≠ 0 →
    exec (.registerWrite off size v) s = .next { s with agenda := .issueCycle :: .registerWrite off size v :: s.agenda }) ∧
  (∀ (s : State) (off size : Nat) (v : DWord), s.winGwct < s.now → ¬ (size = 4 ∧ off % 4 = 0 ∨ size = 8 ∧ off % 8 = 0) ∨ 2 ^ 22 < off + size → exec (.registerWrite off size v) s = .next s) ∧
  (∀ (s : State) (off : Nat) (v : DWord), s.winGwct < s.now → off % 4 = 0 → off + 4 ≤ 2 ^ 22 → ∃ s', exec (.registerWrite off 4 v) s = .next s' ∧ s'.mem = s.mem ∧ s'.runs = s.runs ∧ s'.reqs = s.reqs ∧
    (0x48000 ≤ off → off < 0x100000 → s'.w0 = s.w0 ∧ s'.agenda = s.agenda ∧ ∀ ci, (getCore s' ci).threads = (getCore s ci).threads ∧ (getCore s' ci).plots = (getCore s ci).plots ∧
      (Config.policyReg ci ≠ some off → getCore s' ci = getCore s ci)) ∧
    (off < 0x40000 ∨ 0x100000 ≤ off →
      s'.cores = s.cores ∧ s'.agenda = startedBy s off (v.toNat % 2 ^ 32) ++ s.agenda ∧ s'.wrOff = off ∧
      (let x := v.toNat % 2 ^ 32
       (off ∉ [0x100008, 0x110000, 0x120300, 0x140000, 0x140018, 0x35008, 0x35100, 0x200000] → ¬ (0x101000 ≤ off ∧ off < 0x101800 ∧ off % 64 = 0) →
         ∀ k, k < 32 → regBit s' off k = (if (rwMask s off).testBit k then x.testBit k else regBit s off k && !((w1cMask off).testBit k && x.testBit k))) ∧
       (rwMask s off = 0 → w1cMask off = 0 → off ≠ 0x35008 → off ≠ 0x35100 → off ≠ 0x200000 → ∀ o, reg32 s' o = reg32 s o))) ∧
    (0x40000 ≤ off → off < 0x48000 →
      (let ci := (off - 0x40000) / 8
       let x := v.toNat % 2 ^ 32
       let lo := (getCore s ci).fsbase.toNat % 2 ^ 32
       let hi := (getCore s ci).fsbase.toNat / 2 ^ 32
       ((getCore s ci).plots ≠ [] → (getCore s' ci).fsbase = (getCore s ci).fsbase) ∧
       ((getCore s ci).plots = [] → off % 8 = 0 → (getCore s' ci).fsbase.toNat = x / 2 ^ 16 * 2 ^ 16 + x % 2 + 2 ^ 32 * hi) ∧
       ((getCore s ci).plots = [] → off % 8 = 4 → (getCore s' ci).fsbase.toNat = lo + 2 ^ 32 * (x % 2 ^ 16)) ∧
       (getCore s' ci).threads = (getCore s ci).threads))) ∧
  (∀ (s : State) (q : Nat), q < 1024 →
    rwMask s (0x10008 + 32 * q) = 0 ∧ rwMask s (0x10014 + 32 * q) = 0 ∧ rwMask s (0x1001C + 32 * q) = 0 ∧ w1cMask (0x10018 + 32 * q) = 15 ∧
    (regBit s (0x10008 + 32 * q) 31 = true → rwMask s (0x10000 + 32 * q) = 0) ∧
    (∀ v, startedBy s (0x10008 + 32 * q) v = [.queueEnable q (BitVec.ofNat 32 v)] ∧ startedBy s (0x10010 + 32 * q) v = [.tailWrite q (BitVec.ofNat 32 v)])) ∧
  (∀ (s : State) (v : Nat), v.testBit 31 = true → startedBy s 0x34008 v = [.tlbInvalidate] ∧ startedBy s 0x34210 v = [.migrationStart] ∧ startedBy s 0x120300 v = [.waitforSnapshot] ∧
    startedBy s 0x35600 v = [if v.testBit 0 then .coldReset else .warmReset]) ∧
  (∀ (s : State) (c : Nat), c < 64 → regBit s (0x31000 + 16 * c) 0 = true → rwMask s (0x31000 + 16 * c) = 1 ∧ rwMask s (0x31004 + 16 * c) = 0 ∧ rwMask s (0x31008 + 16 * c) = 0)

end Slice0
end

