-- ==== Sys2Proof/Laws/Table.lean ====
section
/-!
SUPPORT. Tables: what is read after a write, a removal or a change, and that the ascending order of keys is kept.
-/
namespace Sys2Proof.Machine

@[simp] theorem tget_nil {α : Type} (k : Nat) : tget ([] : Tbl α) k = none := rfl

theorem tget_tput_self {α : Type} (t : Tbl α) (k : Nat) (v : α) : tget (tput t k v) k = some v := by
  induction t with
  | nil => simp [tput, tget]
  | cons e t ih =>
    obtain ⟨j, w⟩ := e
    unfold tput
    split
    · simp [tget]
    · rename_i hjk
      split
      · simp [tget]
      · simp [tget, hjk, ih]

theorem tget_tput_ne {α : Type} (t : Tbl α) (k j : Nat) (v : α) (h : j ≠ k) : tget (tput t k v) j = tget t j := by
  induction t with
  | nil => simp [tput, tget, Ne.symm h]
  | cons e t ih =>
    obtain ⟨i, w⟩ := e
    unfold tput
    split
    · rename_i hik
      subst hik
      simp [tget, Ne.symm h]
    · split
      · simp [tget, Ne.symm h]
      · simp [tget, ih]

/-- A read after a write (R4). -/
theorem tget_tput {α : Type} (t : Tbl α) (k j : Nat) (v : α) : tget (tput t k v) j = if j = k then some v else tget t j := by
  by_cases h : j = k
  · subst h
    simp [tget_tput_self]
  · simp [h, tget_tput_ne]

theorem tget_tmap {α β : Type} (t : Tbl α) (f : Nat → α → β) (k : Nat) : tget (tmap t f) k = (tget t k).map (f k) := by
  induction t with
  | nil => rfl
  | cons e t ih =>
    obtain ⟨j, w⟩ := e
    simp only [tmap, List.map_cons, tget]
    split
    · rename_i h
      subst h
      rfl
    · exact ih

theorem tget_tupd_self {α : Type} (t : Tbl α) (k : Nat) (f : α → α) : tget (tupd t k f) k = (tget t k).map f := by
  unfold tupd
  cases h : tget t k with
  | none => simp [h]
  | some v => simp [tget_tput_self]

theorem tget_tupd_ne {α : Type} (t : Tbl α) (k j : Nat) (f : α → α) (h : j ≠ k) : tget (tupd t k f) j = tget t j := by
  unfold tupd
  cases tget t k with
  | none => rfl
  | some v => exact tget_tput_ne t k j _ h

theorem tget_filter {α : Type} (t : Tbl α) (p : Nat → Bool) (k : Nat) :
    tget (t.filter fun e => p e.1) k = if p k then tget t k else none := by
  induction t with
  | nil => simp
  | cons e t ih =>
    obtain ⟨j, w⟩ := e
    by_cases hp : p j
    · simp only [List.filter_cons, hp, if_true, tget]
      split
      · rename_i h
        subst h
        simp [hp]
      · exact ih
    · have hp' : p j = false := by simpa using hp
      rw [List.filter_cons_of_neg (by simp [hp']), ih]
      by_cases hjk : j = k
      · subst hjk
        simp [hp']
      · simp [tget, hjk]

theorem tget_tdel_ne {α : Type} (t : Tbl α) (k j : Nat) (h : j ≠ k) : tget (tdel t k) j = tget t j := by
  rw [tdel, tget_filter t (fun j => j != k)]
  simp [h]
/-- A key that was taken out is gone. -/
@[simp] theorem tget_tdel_self {α : Type} (t : Tbl α) (k : Nat) : tget (tdel t k) k = none := by
  rw [tdel, tget_filter t (fun j => j != k)]
  simp

/-! ### The ascending order of keys -/

/-- Every key of the list is above k. -/
def tabove {α : Type} (k : Nat) (t : Tbl α) : Prop := ∀ e ∈ t, k < e.1

theorem tsorted_cons {α : Type} (j : Nat) (w : α) (t : Tbl α) :
    tsorted ((j, w) :: t) = true ↔ tsorted t = true ∧ tabove j t := by
  induction t generalizing j w with
  | nil => simp [tsorted, tabove]
  | cons e t ih =>
    obtain ⟨k, v⟩ := e
    have h1 : tsorted ((j, w) :: (k, v) :: t) = (decide (j < k) && tsorted ((k, v) :: t)) := rfl
    rw [h1, Bool.and_eq_true, decide_eq_true_iff]
    constructor
    · rintro ⟨hjk, hs⟩
      refine ⟨hs, ?_⟩
      intro e he
      rcases List.mem_cons.mp he with rfl | he
      · exact hjk
      · exact Nat.lt_trans hjk ((ih k v).mp hs |>.2 e he)
    · rintro ⟨hs, ha⟩
      exact ⟨ha (k, v) (List.mem_cons_self ..), hs⟩

theorem tabove_tput {α : Type} (t : Tbl α) (j k : Nat) (v : α) (h : tabove j t) (hk : j < k) : tabove j (tput t k v) := by
  induction t with
  | nil =>
    intro e he
    simp [tput] at he
    subst he
    exact hk
  | cons e t ih =>
    obtain ⟨i, w⟩ := e
    have hi : j < i := h (i, w) (List.mem_cons_self ..)
    have ht : tabove j t := fun e he => h e (List.mem_cons_of_mem _ he)
    intro e he
    unfold tput at he
    split at he
    · rcases List.mem_cons.mp he with rfl | he
      · exact hk
      · exact ht e he
    · split at he
      · rcases List.mem_cons.mp he with rfl | he
        · exact hk
        · rcases List.mem_cons.mp he with rfl | he
          · exact hi
          · exact ht e he
      · rcases List.mem_cons.mp he with rfl | he
        · exact hi
        · exact ih ht e he

theorem tsorted_tput {α : Type} (t : Tbl α) (k : Nat) (v : α) (h : tsorted t = true) : tsorted (tput t k v) = true := by
  induction t with
  | nil => simp [tput, tsorted]
  | cons e t ih =>
    obtain ⟨j, w⟩ := e
    obtain ⟨hs, ha⟩ := (tsorted_cons j w t).mp h
    unfold tput
    split
    · rename_i hjk
      subst hjk
      exact (tsorted_cons j v t).mpr ⟨hs, ha⟩
    · rename_i hjk
      split
      · rename_i hkj
        refine (tsorted_cons k v _).mpr ⟨h, ?_⟩
        intro e he
        rcases List.mem_cons.mp he with rfl | he
        · exact hkj
        · exact Nat.lt_trans hkj (ha e he)
      · rename_i hkj
        exact (tsorted_cons j w _).mpr ⟨ih hs, tabove_tput t j k v ha (by omega)⟩

theorem tsorted_tdel {α : Type} (t : Tbl α) (k : Nat) (h : tsorted t = true) : tsorted (tdel t k) = true := by
  unfold tdel
  induction t with
  | nil => rfl
  | cons e t ih =>
    obtain ⟨j, w⟩ := e
    obtain ⟨hs, ha⟩ := (tsorted_cons j w t).mp h
    rw [List.filter_cons]
    split
    · exact (tsorted_cons j w _).mpr ⟨ih hs, fun e he => ha e (List.mem_filter.mp he).1⟩
    · exact ih hs

/-- No key below the first of a table in ascending order stands in it. -/
theorem tget_above {α : Type} (t : Tbl α) (k : Nat) (h : tabove k t) : tget t k = none := by
  induction t with
  | nil => rfl
  | cons e t ih =>
    obtain ⟨j, w⟩ := e
    have hj : k < j := h (j, w) (List.mem_cons_self ..)
    have : j ≠ k := by omega
    simp only [tget, this, if_false]
    exact ih fun e he => h e (List.mem_cons_of_mem _ he)

end Sys2Proof.Machine
end

