-- ==== Sys2Proof/Laws/Memory.lean ====
section
/-!
SUPPORT. Memory: a read after a write, what a write leaves alone, and that every memory operation keeps the canonical form (log 3).
-/
namespace Sys2Proof.Machine
open Sys2Proof

theorem memGet_nil (a : Nat) : memGet [] a = 0 := rfl

/-- A byte below every listed address reads 0. -/
theorem memGet_above (m : List Host.Cell) (a : Nat) (h : tabove a m) : memGet m a = 0 := by
  induction m with
  | nil => rfl
  | cons e m ih =>
    obtain ⟨j, v⟩ := e
    have hj : a < j := h (j, v) (List.mem_cons_self ..)
    have : j ≠ a := by omega
    simp only [memGet, this, if_false]
    exact ih fun e he => h e (List.mem_cons_of_mem _ he)

/-- In an ascending memory the byte written is the byte read. -/
theorem memGet_memSet_self (m : List Host.Cell) (a : Nat) (b : Byte) (h : tsorted m = true) : memGet (memSet m a b) a = b := by
  induction m with
  | nil =>
    unfold memSet
    split
    · rename_i hb
      simp [memGet, hb]
    · simp [memGet]
  | cons e m ih =>
    obtain ⟨j, v⟩ := e
    obtain ⟨hs, ha⟩ := (tsorted_cons j v m).mp h
    unfold memSet
    split
    · rename_i hja
      subst hja
      split
      · rename_i hb
        rw [hb]
        exact memGet_above m j ha
      · simp [memGet]
    · rename_i hja
      split
      · rename_i haj
        split
        · rename_i hb
          rw [hb]
          apply memGet_above
          intro e he
          rcases List.mem_cons.mp he with rfl | he
          · exact haj
          · exact Nat.lt_trans haj (ha e he)
        · simp [memGet]
      · simp only [memGet, hja, if_false]
        exact ih hs

/-- A write leaves every other byte alone. -/
theorem memGet_memSet_ne (m : List Host.Cell) (a c : Nat) (b : Byte) (h : c ≠ a) : memGet (memSet m a b) c = memGet m c := by
  induction m with
  | nil =>
    unfold memSet
    split <;> simp [memGet, Ne.symm h]
  | cons e m ih =>
    obtain ⟨j, v⟩ := e
    unfold memSet
    split
    · rename_i hja
      subst hja
      split <;> simp [memGet, Ne.symm h]
    · split
      · split <;> simp [memGet, Ne.symm h]
      · simp only [memGet, ih]

theorem memSet_above (m : List Host.Cell) (j a : Nat) (b : Byte) (h : tabove j m) (ha : j < a) : tabove j (memSet m a b) := by
  induction m with
  | nil =>
    intro e he
    unfold memSet at he
    split at he
    · simp at he
    · simp at he
      subst he
      exact ha
  | cons e m ih =>
    obtain ⟨i, v⟩ := e
    have hi : j < i := h (i, v) (List.mem_cons_self ..)
    have hm : tabove j m := fun e he => h e (List.mem_cons_of_mem _ he)
    intro e he
    unfold memSet at he
    split at he
    · split at he
      · exact hm e he
      · rcases List.mem_cons.mp he with rfl | he
        · exact ha
        · exact hm e he
    · split at he
      · split at he
        · exact h e he
        · rcases List.mem_cons.mp he with rfl | he
          · exact ha
          · exact h e he
      · rcases List.mem_cons.mp he with rfl | he
        · exact hi
        · exact ih hm e he

theorem memSet_sorted (m : List Host.Cell) (a : Nat) (b : Byte) (h : tsorted m = true) : tsorted (memSet m a b) = true := by
  induction m with
  | nil =>
    unfold memSet
    split <;> rfl
  | cons e m ih =>
    obtain ⟨j, v⟩ := e
    obtain ⟨hs, ha⟩ := (tsorted_cons j v m).mp h
    unfold memSet
    split
    · rename_i hja
      subst hja
      split
      · exact hs
      · exact (tsorted_cons j b m).mpr ⟨hs, ha⟩
    · rename_i hja
      split
      · rename_i haj
        split
        · exact h
        · refine (tsorted_cons a b _).mpr ⟨h, ?_⟩
          intro e he
          rcases List.mem_cons.mp he with rfl | he
          · exact haj
          · exact Nat.lt_trans haj (ha e he)
      · exact (tsorted_cons j v _).mpr ⟨ih hs, memSet_above m j a b ha (by omega)⟩

theorem memSet_nonzero (m : List Host.Cell) (a : Nat) (b : Byte) (h : (m.all fun e => e.2 != 0) = true) :
    ((memSet m a b).all fun e => e.2 != 0) = true := by
  induction m with
  | nil =>
    unfold memSet
    split <;> simp_all
  | cons e m ih =>
    obtain ⟨j, v⟩ := e
    simp only [List.all_cons, Bool.and_eq_true] at h
    unfold memSet
    split
    · split
      · exact h.2
      · rename_i hb
        simp only [List.all_cons, Bool.and_eq_true]
        exact ⟨by simpa using hb, h.2⟩
    · split
      · split
        · simp only [List.all_cons, Bool.and_eq_true]
          exact h
        · rename_i hb
          simp only [List.all_cons, Bool.and_eq_true]
          exact ⟨by simpa using hb, h⟩
      · simp only [List.all_cons, Bool.and_eq_true]
        exact ⟨h.1, ih h.2⟩

/-- Writing one byte keeps the canonical form. -/
theorem memSet_wf (m : List Host.Cell) (a : Nat) (b : Byte) (h : memWf m = true) : memWf (memSet m a b) = true := by
  simp only [memWf, Bool.and_eq_true] at h ⊢
  exact ⟨memSet_sorted m a b h.1, memSet_nonzero m a b h.2⟩
/-- Writing a run of bytes keeps the canonical form. -/
theorem memWrite_wf (l : List Byte) (m : List Host.Cell) (a : Nat) (h : memWf m = true) : memWf (memWrite m a l) = true := by
  induction l generalizing m a with
  | nil => exact h
  | cons b l ih => exact ih _ _ (memSet_wf m a b h)
/-- Writing the bytes of a number keeps the canonical form. -/
theorem memPut_wf (m : List Host.Cell) (a n x : Nat) (h : memWf m = true) : memWf (memPut m a n x) = true := memWrite_wf _ _ _ h
theorem physWrite_wf (s : State) (a : Nat) (l : List Byte) (h : memWf s.mem = true) : memWf (physWrite s a l).mem = true :=
  memWrite_wf _ _ _ h

/-- A run of bytes written leaves every byte outside it alone. -/
theorem memGet_memWrite_out (l : List Byte) (m : List Host.Cell) (a c : Nat) (h : c < a ∨ a + l.length ≤ c) :
    memGet (memWrite m a l) c = memGet m c := by
  induction l generalizing m a with
  | nil => rfl
  | cons b l ih =>
    simp only [List.length_cons] at h
    unfold memWrite
    rw [ih (memSet m a b) (a + 1) (by omega), memGet_memSet_ne m a c b (by omega)]
/-- A byte of a run written reads as written. -/
theorem memGet_memWrite_in (l : List Byte) (m : List Host.Cell) (a k : Nat) (hm : memWf m = true) (h : k < l.length) :
    memGet (memWrite m a l) (a + k) = l.getD k 0 := by
  induction l generalizing m a k with
  | nil => simp at h
  | cons b l ih =>
    have hw := memSet_wf m a b hm
    unfold memWrite
    cases k with
    | zero =>
      rw [memGet_memWrite_out l (memSet m a b) (a + 1) (a + 0) (by omega)]
      simp only [memWf, Bool.and_eq_true] at hm
      simpa using memGet_memSet_self m a b hm.1
    | succ k =>
      have := ih (memSet m a b) (a + 1) k hw (by simpa using h)
      rw [show a + (k + 1) = a + 1 + k by omega, this]
      simp
theorem natLe_length (n x : Nat) : (natLe n x).length = n := by
  induction n generalizing x with
  | zero => rfl
  | succ n ih => simp [natLe, ih]
/-- Bytes put leave every byte outside alone. -/
theorem memGet_memPut_out (m : List Host.Cell) (a n x c : Nat) (h : c < a ∨ a + n ≤ c) : memGet (memPut m a n x) c = memGet m c :=
  memGet_memWrite_out _ _ _ _ (by simpa [natLe_length] using h)
/-- The low n bytes of a number are a number again. -/
theorem leNat_natLe (n x : Nat) : leNat (natLe n x) = x % 256 ^ n := by
  induction n generalizing x with
  | zero => simp [natLe, leNat, Nat.mod_one]
  | succ n ih =>
    have h : x % (256 * 256 ^ n) = x % 256 + 256 * (x / 256 % 256 ^ n) := Nat.mod_mul
    simp only [natLe, leNat, ih, BitVec.toNat_ofNat]
    rw [show 256 ^ (n + 1) = 256 * 256 ^ n by ring, h]
theorem memRead_length (m : List Host.Cell) (a n : Nat) : (memRead m a n).length = n := by simp [memRead]
/-- A run of bytes reads back as written. -/
theorem memRead_memWrite (l : List Byte) (m : List Host.Cell) (a : Nat) (hm : memWf m = true) :
    memRead (memWrite m a l) a l.length = l := by
  apply List.ext_getElem
  · simp [memRead]
  · intro k h1 h2
    simp only [memRead, List.getElem_map, List.getElem_range]
    rw [memGet_memWrite_in l m a k hm h2]
    simp [List.getD_eq_getElem?_getD, h2]
/-- A number put reads back modulo its size (R4). -/
theorem memNat_memPut (m : List Host.Cell) (a n x : Nat) (hm : memWf m = true) : memNat (memPut m a n x) a n = x % 256 ^ n := by
  have h := memRead_memWrite (natLe n x) m a hm
  rw [natLe_length] at h
  simp only [memNat, memPut, h, leNat_natLe]

/-! ### Keys of lines (R365, R366) -/

/-- A line that is not encrypted, or already stands under a key. -/
def underKey (s : State) (key line : Nat) : Prop := Config.hbmBytes ≤ line ∨ tgetD s.lineKeys line 0 = key
theorem tgetD_tput_ne {α : Type} (t : Tbl α) (k j : Nat) (v d : α) (h : j ≠ k) : tgetD (tput t k v) j d = tgetD t j d := by
  simp [tgetD, tget_tput_ne t k j v h]
theorem tgetD_tdel_ne {α : Type} (t : Tbl α) (k j : Nat) (d : α) (h : j ≠ k) : tgetD (tdel t k) j d = tgetD t j d := by
  simp [tgetD, tget_tdel_ne t k j h]
theorem rekeyLine_under (s : State) (key line : Nat) (h : underKey s key line) : rekeyLine s key line = s := if_pos h
/-- Putting a line under a key leaves every other line, and a line that already stands under it, as it is. -/
theorem rekeyLine_frame (s : State) (key i a : Nat) (h : i ≠ a / 128 ∨ underKey s key (a / 128 * 128)) :
    memGet (rekeyLine s key (i * 128)).mem a = memGet s.mem a ∧
      tgetD (rekeyLine s key (i * 128)).lineKeys (a / 128 * 128) 0 = tgetD s.lineKeys (a / 128 * 128) 0 := by
  by_cases hi : i = a / 128
  · subst hi
    rw [rekeyLine_under _ _ _ (h.resolve_left fun h => h rfl)]
    exact ⟨rfl, rfl⟩
  · have hne : a / 128 * 128 ≠ i * 128 := by omega
    unfold rekeyLine
    split
    · exact ⟨rfl, rfl⟩
    · have hlen : (keyedBytes s key (i * 128) 128).length = 128 := by simp only [keyedBytes, List.length_map, List.length_range]
      generalize keyedBytes s key (i * 128) 128 = l at hlen ⊢
      dsimp only
      refine ⟨memGet_memWrite_out l s.mem (i * 128) a (by omega), ?_⟩
      · split
        · exact tgetD_tdel_ne _ _ _ _ hne
        · exact tgetD_tput_ne _ _ _ _ _ hne
theorem foldl_rekeyLine_frame (key a : Nat) (l : List Nat) (s : State) (h : (∀ i ∈ l, i ≠ a / 128) ∨ underKey s key (a / 128 * 128)) :
    memGet ((l.map (· * 128)).foldl (fun s x => rekeyLine s key x) s).mem a = memGet s.mem a ∧
      tgetD ((l.map (· * 128)).foldl (fun s x => rekeyLine s key x) s).lineKeys (a / 128 * 128) 0 = tgetD s.lineKeys (a / 128 * 128) 0 := by
  induction l generalizing s with
  | nil => exact ⟨rfl, rfl⟩
  | cons i l ih =>
    obtain ⟨h1, h2⟩ := rekeyLine_frame s key i a (h.imp (fun h => h i (List.mem_cons_self ..)) id)
    obtain ⟨h3, h4⟩ := ih (rekeyLine s key (i * 128)) (h.imp (fun h j hj => h j (List.mem_cons_of_mem _ hj)) fun h => by
      unfold underKey at h ⊢
      rw [h2]
      exact h)
    exact ⟨h3.trans h1, h4.trans h2⟩
/-- A write under a key touches the bytes written, and the lines of them that stand under another key (R366). -/
theorem keyedWrite_frame (s : State) (key pa : Nat) (l : List Byte) (a : Nat) (hl : 0 < l.length)
    (h : (∀ x, pa ≤ x → x < pa + l.length → x / 128 ≠ a / 128) ∨ underKey s key (a / 128 * 128)) :
    (a < pa ∨ pa + l.length ≤ a → memGet (keyedWrite s key pa l).mem a = memGet s.mem a) ∧
      tgetD (keyedWrite s key pa l).lineKeys (a / 128 * 128) 0 = tgetD s.lineKeys (a / 128 * 128) 0 := by
  have hm : ((List.range ((pa % 128 + l.length + 127) / 128)).map fun i => (pa / 128 + i) * 128)
      = ((List.range ((pa % 128 + l.length + 127) / 128)).map fun i => pa / 128 + i).map (· * 128) := by rw [List.map_map]; rfl
  obtain ⟨h1, h2⟩ := foldl_rekeyLine_frame key a ((List.range ((pa % 128 + l.length + 127) / 128)).map fun i => pa / 128 + i) s
    (h.imp (fun h j hj => by
      obtain ⟨i, hi, rfl⟩ := List.mem_map.mp hj
      rw [List.mem_range] at hi
      have hq : i * 128 < pa % 128 + l.length := by omega
      have := h (max pa ((pa / 128 + i) * 128)) (by omega) (by omega)
      omega) id)
  unfold keyedWrite
  rw [hm]
  exact ⟨fun ho => (memGet_memWrite_out l _ pa a ho).trans h1, h2⟩
/-- The same for a word of a fallow store, under the boot key (R365). -/
theorem fallowPut_frame (s : State) (pa : Nat) (w : Word) (a : Nat)
    (h : (∀ x, pa ≤ x → x < pa + 4 → x / 128 ≠ a / 128) ∨ underKey s s.sec.bootKey (a / 128 * 128)) :
    (a < pa ∨ pa + 4 ≤ a → memGet (fallowPut s pa w).mem a = memGet s.mem a) ∧
      tgetD (fallowPut s pa w).lineKeys (a / 128 * 128) 0 = tgetD s.lineKeys (a / 128 * 128) 0 := by
  have := keyedWrite_frame s s.sec.bootKey pa (natLe 4 w.toNat) a (by rw [natLe_length]; omega) (by rwa [natLe_length])
  rw [natLe_length] at this
  exact this

end Sys2Proof.Machine
end

