-- ==== Sys2Proof/Laws/State.lean ====
section
/-!
SUPPORT. What each named update of the state leaves of it, field by field.
-/
namespace Sys2Proof.Machine
open Sys2Proof

@[simp] theorem putCore_ticks (s : State) (ci : Nat) (c : Core) : (putCore s ci c).ticks = s.ticks := rfl
@[simp] theorem putCore_now (s : State) (ci : Nat) (c : Core) : (putCore s ci c).now = s.now := rfl
@[simp] theorem putCore_clusters (s : State) (ci : Nat) (c : Core) : (putCore s ci c).clusters = s.clusters := rfl
@[simp] theorem putCore_mem (s : State) (ci : Nat) (c : Core) : (putCore s ci c).mem = s.mem := rfl
@[simp] theorem putCore_lineKeys (s : State) (ci : Nat) (c : Core) : (putCore s ci c).lineKeys = s.lineKeys := rfl
@[simp] theorem putCore_bad (s : State) (ci : Nat) (c : Core) : (putCore s ci c).bad = s.bad := rfl
@[simp] theorem putCore_homes (s : State) (ci : Nat) (c : Core) : (putCore s ci c).homes = s.homes := rfl
@[simp] theorem putCore_l2 (s : State) (ci : Nat) (c : Core) : (putCore s ci c).l2 = s.l2 := rfl
@[simp] theorem putCore_reqs (s : State) (ci : Nat) (c : Core) : (putCore s ci c).reqs = s.reqs := rfl
@[simp] theorem putCore_nextId (s : State) (ci : Nat) (c : Core) : (putCore s ci c).nextId = s.nextId := rfl
@[simp] theorem putCore_w0 (s : State) (ci : Nat) (c : Core) : (putCore s ci c).w0 = s.w0 := rfl
@[simp] theorem putCore_queues (s : State) (ci : Nat) (c : Core) : (putCore s ci c).queues = s.queues := rfl
@[simp] theorem putCore_runs (s : State) (ci : Nat) (c : Core) : (putCore s ci c).runs = s.runs := rfl
@[simp] theorem putCore_runNo (s : State) (ci : Nat) (c : Core) : (putCore s ci c).runNo = s.runNo := rfl
@[simp] theorem putCore_nodeCache (s : State) (ci : Nat) (c : Core) : (putCore s ci c).nodeCache = s.nodeCache := rfl
@[simp] theorem putCore_hdrCache (s : State) (ci : Nat) (c : Core) : (putCore s ci c).hdrCache = s.hdrCache := rfl
@[simp] theorem putCore_staged (s : State) (ci : Nat) (c : Core) : (putCore s ci c).staged = s.staged := rfl
@[simp] theorem putCore_walked (s : State) (ci : Nat) (c : Core) : (putCore s ci c).walked = s.walked := rfl
@[simp] theorem putCore_savedParts (s : State) (ci : Nat) (c : Core) : (putCore s ci c).savedParts = s.savedParts := rfl
@[simp] theorem putCore_resHeld (s : State) (ci : Nat) (c : Core) : (putCore s ci c).resHeld = s.resHeld := rfl
@[simp] theorem putCore_fwEvents (s : State) (ci : Nat) (c : Core) : (putCore s ci c).fwEvents = s.fwEvents := rfl
@[simp] theorem putCore_fwCores (s : State) (ci : Nat) (c : Core) : (putCore s ci c).fwCores = s.fwCores := rfl
@[simp] theorem putCore_overflowed (s : State) (ci : Nat) (c : Core) : (putCore s ci c).overflowed = s.overflowed := rfl
@[simp] theorem putCore_pageReqs (s : State) (ci : Nat) (c : Core) : (putCore s ci c).pageReqs = s.pageReqs := rfl
@[simp] theorem putCore_nextReq (s : State) (ci : Nat) (c : Core) : (putCore s ci c).nextReq = s.nextReq := rfl
@[simp] theorem putCore_launchWaits (s : State) (ci : Nat) (c : Core) : (putCore s ci c).launchWaits = s.launchWaits := rfl
@[simp] theorem putCore_comms (s : State) (ci : Nat) (c : Core) : (putCore s ci c).comms = s.comms := rfl
@[simp] theorem putCore_collHeld (s : State) (ci : Nat) (c : Core) : (putCore s ci c).collHeld = s.collHeld := rfl
@[simp] theorem putCore_stepNos (s : State) (ci : Nat) (c : Core) : (putCore s ci c).stepNos = s.stepNos := rfl
@[simp] theorem putCore_routes0 (s : State) (ci : Nat) (c : Core) : (putCore s ci c).routes0 = s.routes0 := rfl
@[simp] theorem putCore_routes1 (s : State) (ci : Nat) (c : Core) : (putCore s ci c).routes1 = s.routes1 := rfl
@[simp] theorem putCore_routeBank (s : State) (ci : Nat) (c : Core) : (putCore s ci c).routeBank = s.routeBank := rfl
@[simp] theorem putCore_packets (s : State) (ci : Nat) (c : Core) : (putCore s ci c).packets = s.packets := rfl
@[simp] theorem putCore_ways (s : State) (ci : Nat) (c : Core) : (putCore s ci c).ways = s.ways := rfl
@[simp] theorem putCore_credit (s : State) (ci : Nat) (c : Core) : (putCore s ci c).credit = s.credit := rfl
@[simp] theorem putCore_keys (s : State) (ci : Nat) (c : Core) : (putCore s ci c).keys = s.keys := rfl
@[simp] theorem putCore_frozen (s : State) (ci : Nat) (c : Core) : (putCore s ci c).frozen = s.frozen := rfl
@[simp] theorem putCore_frozenStreams (s : State) (ci : Nat) (c : Core) : (putCore s ci c).frozenStreams = s.frozenStreams := rfl
@[simp] theorem putCore_heldRequests (s : State) (ci : Nat) (c : Core) : (putCore s ci c).heldRequests = s.heldRequests := rfl
@[simp] theorem putCore_sec (s : State) (ci : Nat) (c : Core) : (putCore s ci c).sec = s.sec := rfl
@[simp] theorem putCore_disc (s : State) (ci : Nat) (c : Core) : (putCore s ci c).disc = s.disc := rfl
@[simp] theorem putCore_ports (s : State) (ci : Nat) (c : Core) : (putCore s ci c).ports = s.ports := rfl
@[simp] theorem putCore_segments (s : State) (ci : Nat) (c : Core) : (putCore s ci c).segments = s.segments := rfl
@[simp] theorem putCore_granarySig (s : State) (ci : Nat) (c : Core) : (putCore s ci c).granarySig = s.granarySig := rfl
@[simp] theorem putCore_lastTime (s : State) (ci : Nat) (c : Core) : (putCore s ci c).lastTime = s.lastTime := rfl
@[simp] theorem putCore_interval (s : State) (ci : Nat) (c : Core) : (putCore s ci c).interval = s.interval := rfl
@[simp] theorem putCore_sumAt (s : State) (ci : Nat) (c : Core) : (putCore s ci c).sumAt = s.sumAt := rfl
@[simp] theorem putCore_rails (s : State) (ci : Nat) (c : Core) : (putCore s ci c).rails = s.rails := rfl
@[simp] theorem putCore_tripped (s : State) (ci : Nat) (c : Core) : (putCore s ci c).tripped = s.tripped := rfl
@[simp] theorem putCore_railFault (s : State) (ci : Nat) (c : Core) : (putCore s ci c).railFault = s.railFault := rfl
@[simp] theorem putCore_mgmt (s : State) (ci : Nat) (c : Core) : (putCore s ci c).mgmt = s.mgmt := rfl
@[simp] theorem putCore_hostRead (s : State) (ci : Nat) (c : Core) : (putCore s ci c).hostRead = s.hostRead := rfl
@[simp] theorem putCore_wrOff (s : State) (ci : Nat) (c : Core) : (putCore s ci c).wrOff = s.wrOff := rfl
@[simp] theorem putCore_wrVal (s : State) (ci : Nat) (c : Core) : (putCore s ci c).wrVal = s.wrVal := rfl
@[simp] theorem putCore_winGwct (s : State) (ci : Nat) (c : Core) : (putCore s ci c).winGwct = s.winGwct := rfl
@[simp] theorem putCore_mig (s : State) (ci : Nat) (c : Core) : (putCore s ci c).mig = s.mig := rfl
@[simp] theorem putCore_inval (s : State) (ci : Nat) (c : Core) : (putCore s ci c).inval = s.inval := rfl
@[simp] theorem putCore_free (s : State) (ci : Nat) (c : Core) : (putCore s ci c).free = s.free := rfl
@[simp] theorem putCore_agenda (s : State) (ci : Nat) (c : Core) : (putCore s ci c).agenda = s.agenda := rfl
@[simp] theorem putCore_issued (s : State) (ci : Nat) (c : Core) : (putCore s ci c).issued = s.issued := rfl
@[simp] theorem putCore_cur (s : State) (ci : Nat) (c : Core) : (putCore s ci c).cur = s.cur := rfl
@[simp] theorem putCore_curLen (s : State) (ci : Nat) (c : Core) : (putCore s ci c).curLen = s.curLen := rfl

@[simp] theorem updCore_ticks (s : State) (ci : Nat) (f : Core → Core) : (updCore s ci f).ticks = s.ticks := rfl
@[simp] theorem updCore_now (s : State) (ci : Nat) (f : Core → Core) : (updCore s ci f).now = s.now := rfl
@[simp] theorem updCore_clusters (s : State) (ci : Nat) (f : Core → Core) : (updCore s ci f).clusters = s.clusters := rfl
@[simp] theorem updCore_mem (s : State) (ci : Nat) (f : Core → Core) : (updCore s ci f).mem = s.mem := rfl
@[simp] theorem updCore_lineKeys (s : State) (ci : Nat) (f : Core → Core) : (updCore s ci f).lineKeys = s.lineKeys := rfl
@[simp] theorem updCore_bad (s : State) (ci : Nat) (f : Core → Core) : (updCore s ci f).bad = s.bad := rfl
@[simp] theorem updCore_homes (s : State) (ci : Nat) (f : Core → Core) : (updCore s ci f).homes = s.homes := rfl
@[simp] theorem updCore_l2 (s : State) (ci : Nat) (f : Core → Core) : (updCore s ci f).l2 = s.l2 := rfl
@[simp] theorem updCore_reqs (s : State) (ci : Nat) (f : Core → Core) : (updCore s ci f).reqs = s.reqs := rfl
@[simp] theorem updCore_nextId (s : State) (ci : Nat) (f : Core → Core) : (updCore s ci f).nextId = s.nextId := rfl
@[simp] theorem updCore_w0 (s : State) (ci : Nat) (f : Core → Core) : (updCore s ci f).w0 = s.w0 := rfl
@[simp] theorem updCore_queues (s : State) (ci : Nat) (f : Core → Core) : (updCore s ci f).queues = s.queues := rfl
@[simp] theorem updCore_runs (s : State) (ci : Nat) (f : Core → Core) : (updCore s ci f).runs = s.runs := rfl
@[simp] theorem updCore_runNo (s : State) (ci : Nat) (f : Core → Core) : (updCore s ci f).runNo = s.runNo := rfl
@[simp] theorem updCore_nodeCache (s : State) (ci : Nat) (f : Core → Core) : (updCore s ci f).nodeCache = s.nodeCache := rfl
@[simp] theorem updCore_hdrCache (s : State) (ci : Nat) (f : Core → Core) : (updCore s ci f).hdrCache = s.hdrCache := rfl
@[simp] theorem updCore_staged (s : State) (ci : Nat) (f : Core → Core) : (updCore s ci f).staged = s.staged := rfl
@[simp] theorem updCore_walked (s : State) (ci : Nat) (f : Core → Core) : (updCore s ci f).walked = s.walked := rfl
@[simp] theorem updCore_savedParts (s : State) (ci : Nat) (f : Core → Core) : (updCore s ci f).savedParts = s.savedParts := rfl
@[simp] theorem updCore_resHeld (s : State) (ci : Nat) (f : Core → Core) : (updCore s ci f).resHeld = s.resHeld := rfl
@[simp] theorem updCore_fwEvents (s : State) (ci : Nat) (f : Core → Core) : (updCore s ci f).fwEvents = s.fwEvents := rfl
@[simp] theorem updCore_fwCores (s : State) (ci : Nat) (f : Core → Core) : (updCore s ci f).fwCores = s.fwCores := rfl
@[simp] theorem updCore_overflowed (s : State) (ci : Nat) (f : Core → Core) : (updCore s ci f).overflowed = s.overflowed := rfl
@[simp] theorem updCore_pageReqs (s : State) (ci : Nat) (f : Core → Core) : (updCore s ci f).pageReqs = s.pageReqs := rfl
@[simp] theorem updCore_nextReq (s : State) (ci : Nat) (f : Core → Core) : (updCore s ci f).nextReq = s.nextReq := rfl
@[simp] theorem updCore_launchWaits (s : State) (ci : Nat) (f : Core → Core) : (updCore s ci f).launchWaits = s.launchWaits := rfl
@[simp] theorem updCore_comms (s : State) (ci : Nat) (f : Core → Core) : (updCore s ci f).comms = s.comms := rfl
@[simp] theorem updCore_collHeld (s : State) (ci : Nat) (f : Core → Core) : (updCore s ci f).collHeld = s.collHeld := rfl
@[simp] theorem updCore_stepNos (s : State) (ci : Nat) (f : Core → Core) : (updCore s ci f).stepNos = s.stepNos := rfl
@[simp] theorem updCore_routes0 (s : State) (ci : Nat) (f : Core → Core) : (updCore s ci f).routes0 = s.routes0 := rfl
@[simp] theorem updCore_routes1 (s : State) (ci : Nat) (f : Core → Core) : (updCore s ci f).routes1 = s.routes1 := rfl
@[simp] theorem updCore_routeBank (s : State) (ci : Nat) (f : Core → Core) : (updCore s ci f).routeBank = s.routeBank := rfl
@[simp] theorem updCore_packets (s : State) (ci : Nat) (f : Core → Core) : (updCore s ci f).packets = s.packets := rfl
@[simp] theorem updCore_ways (s : State) (ci : Nat) (f : Core → Core) : (updCore s ci f).ways = s.ways := rfl
@[simp] theorem updCore_credit (s : State) (ci : Nat) (f : Core → Core) : (updCore s ci f).credit = s.credit := rfl
@[simp] theorem updCore_keys (s : State) (ci : Nat) (f : Core → Core) : (updCore s ci f).keys = s.keys := rfl
@[simp] theorem updCore_frozen (s : State) (ci : Nat) (f : Core → Core) : (updCore s ci f).frozen = s.frozen := rfl
@[simp] theorem updCore_frozenStreams (s : State) (ci : Nat) (f : Core → Core) : (updCore s ci f).frozenStreams = s.frozenStreams := rfl
@[simp] theorem updCore_heldRequests (s : State) (ci : Nat) (f : Core → Core) : (updCore s ci f).heldRequests = s.heldRequests := rfl
@[simp] theorem updCore_sec (s : State) (ci : Nat) (f : Core → Core) : (updCore s ci f).sec = s.sec := rfl
@[simp] theorem updCore_disc (s : State) (ci : Nat) (f : Core → Core) : (updCore s ci f).disc = s.disc := rfl
@[simp] theorem updCore_ports (s : State) (ci : Nat) (f : Core → Core) : (updCore s ci f).ports = s.ports := rfl
@[simp] theorem updCore_segments (s : State) (ci : Nat) (f : Core → Core) : (updCore s ci f).segments = s.segments := rfl
@[simp] theorem updCore_granarySig (s : State) (ci : Nat) (f : Core → Core) : (updCore s ci f).granarySig = s.granarySig := rfl
@[simp] theorem updCore_lastTime (s : State) (ci : Nat) (f : Core → Core) : (updCore s ci f).lastTime = s.lastTime := rfl
@[simp] theorem updCore_interval (s : State) (ci : Nat) (f : Core → Core) : (updCore s ci f).interval = s.interval := rfl
@[simp] theorem updCore_sumAt (s : State) (ci : Nat) (f : Core → Core) : (updCore s ci f).sumAt = s.sumAt := rfl
@[simp] theorem updCore_rails (s : State) (ci : Nat) (f : Core → Core) : (updCore s ci f).rails = s.rails := rfl
@[simp] theorem updCore_tripped (s : State) (ci : Nat) (f : Core → Core) : (updCore s ci f).tripped = s.tripped := rfl
@[simp] theorem updCore_railFault (s : State) (ci : Nat) (f : Core → Core) : (updCore s ci f).railFault = s.railFault := rfl
@[simp] theorem updCore_mgmt (s : State) (ci : Nat) (f : Core → Core) : (updCore s ci f).mgmt = s.mgmt := rfl
@[simp] theorem updCore_hostRead (s : State) (ci : Nat) (f : Core → Core) : (updCore s ci f).hostRead = s.hostRead := rfl
@[simp] theorem updCore_wrOff (s : State) (ci : Nat) (f : Core → Core) : (updCore s ci f).wrOff = s.wrOff := rfl
@[simp] theorem updCore_wrVal (s : State) (ci : Nat) (f : Core → Core) : (updCore s ci f).wrVal = s.wrVal := rfl
@[simp] theorem updCore_winGwct (s : State) (ci : Nat) (f : Core → Core) : (updCore s ci f).winGwct = s.winGwct := rfl
@[simp] theorem updCore_mig (s : State) (ci : Nat) (f : Core → Core) : (updCore s ci f).mig = s.mig := rfl
@[simp] theorem updCore_inval (s : State) (ci : Nat) (f : Core → Core) : (updCore s ci f).inval = s.inval := rfl
@[simp] theorem updCore_free (s : State) (ci : Nat) (f : Core → Core) : (updCore s ci f).free = s.free := rfl
@[simp] theorem updCore_agenda (s : State) (ci : Nat) (f : Core → Core) : (updCore s ci f).agenda = s.agenda := rfl
@[simp] theorem updCore_issued (s : State) (ci : Nat) (f : Core → Core) : (updCore s ci f).issued = s.issued := rfl
@[simp] theorem updCore_cur (s : State) (ci : Nat) (f : Core → Core) : (updCore s ci f).cur = s.cur := rfl
@[simp] theorem updCore_curLen (s : State) (ci : Nat) (f : Core → Core) : (updCore s ci f).curLen = s.curLen := rfl

@[simp] theorem updCluster_ticks (s : State) (k : Nat) (f : Cluster → Cluster) : (updCluster s k f).ticks = s.ticks := rfl
@[simp] theorem updCluster_now (s : State) (k : Nat) (f : Cluster → Cluster) : (updCluster s k f).now = s.now := rfl
@[simp] theorem updCluster_cores (s : State) (k : Nat) (f : Cluster → Cluster) : (updCluster s k f).cores = s.cores := rfl
@[simp] theorem updCluster_mem (s : State) (k : Nat) (f : Cluster → Cluster) : (updCluster s k f).mem = s.mem := rfl
@[simp] theorem updCluster_lineKeys (s : State) (k : Nat) (f : Cluster → Cluster) : (updCluster s k f).lineKeys = s.lineKeys := rfl
@[simp] theorem updCluster_bad (s : State) (k : Nat) (f : Cluster → Cluster) : (updCluster s k f).bad = s.bad := rfl
@[simp] theorem updCluster_homes (s : State) (k : Nat) (f : Cluster → Cluster) : (updCluster s k f).homes = s.homes := rfl
@[simp] theorem updCluster_l2 (s : State) (k : Nat) (f : Cluster → Cluster) : (updCluster s k f).l2 = s.l2 := rfl
@[simp] theorem updCluster_reqs (s : State) (k : Nat) (f : Cluster → Cluster) : (updCluster s k f).reqs = s.reqs := rfl
@[simp] theorem updCluster_nextId (s : State) (k : Nat) (f : Cluster → Cluster) : (updCluster s k f).nextId = s.nextId := rfl
@[simp] theorem updCluster_w0 (s : State) (k : Nat) (f : Cluster → Cluster) : (updCluster s k f).w0 = s.w0 := rfl
@[simp] theorem updCluster_queues (s : State) (k : Nat) (f : Cluster → Cluster) : (updCluster s k f).queues = s.queues := rfl
@[simp] theorem updCluster_runs (s : State) (k : Nat) (f : Cluster → Cluster) : (updCluster s k f).runs = s.runs := rfl
@[simp] theorem updCluster_runNo (s : State) (k : Nat) (f : Cluster → Cluster) : (updCluster s k f).runNo = s.runNo := rfl
@[simp] theorem updCluster_nodeCache (s : State) (k : Nat) (f : Cluster → Cluster) : (updCluster s k f).nodeCache = s.nodeCache := rfl
@[simp] theorem updCluster_hdrCache (s : State) (k : Nat) (f : Cluster → Cluster) : (updCluster s k f).hdrCache = s.hdrCache := rfl
@[simp] theorem updCluster_staged (s : State) (k : Nat) (f : Cluster → Cluster) : (updCluster s k f).staged = s.staged := rfl
@[simp] theorem updCluster_walked (s : State) (k : Nat) (f : Cluster → Cluster) : (updCluster s k f).walked = s.walked := rfl
@[simp] theorem updCluster_savedParts (s : State) (k : Nat) (f : Cluster → Cluster) : (updCluster s k f).savedParts = s.savedParts := rfl
@[simp] theorem updCluster_resHeld (s : State) (k : Nat) (f : Cluster → Cluster) : (updCluster s k f).resHeld = s.resHeld := rfl
@[simp] theorem updCluster_fwEvents (s : State) (k : Nat) (f : Cluster → Cluster) : (updCluster s k f).fwEvents = s.fwEvents := rfl
@[simp] theorem updCluster_fwCores (s : State) (k : Nat) (f : Cluster → Cluster) : (updCluster s k f).fwCores = s.fwCores := rfl
@[simp] theorem updCluster_overflowed (s : State) (k : Nat) (f : Cluster → Cluster) : (updCluster s k f).overflowed = s.overflowed := rfl
@[simp] theorem updCluster_pageReqs (s : State) (k : Nat) (f : Cluster → Cluster) : (updCluster s k f).pageReqs = s.pageReqs := rfl
@[simp] theorem updCluster_nextReq (s : State) (k : Nat) (f : Cluster → Cluster) : (updCluster s k f).nextReq = s.nextReq := rfl
@[simp] theorem updCluster_launchWaits (s : State) (k : Nat) (f : Cluster → Cluster) : (updCluster s k f).launchWaits = s.launchWaits := rfl
@[simp] theorem updCluster_comms (s : State) (k : Nat) (f : Cluster → Cluster) : (updCluster s k f).comms = s.comms := rfl
@[simp] theorem updCluster_collHeld (s : State) (k : Nat) (f : Cluster → Cluster) : (updCluster s k f).collHeld = s.collHeld := rfl
@[simp] theorem updCluster_stepNos (s : State) (k : Nat) (f : Cluster → Cluster) : (updCluster s k f).stepNos = s.stepNos := rfl
@[simp] theorem updCluster_routes0 (s : State) (k : Nat) (f : Cluster → Cluster) : (updCluster s k f).routes0 = s.routes0 := rfl
@[simp] theorem updCluster_routes1 (s : State) (k : Nat) (f : Cluster → Cluster) : (updCluster s k f).routes1 = s.routes1 := rfl
@[simp] theorem updCluster_routeBank (s : State) (k : Nat) (f : Cluster → Cluster) : (updCluster s k f).routeBank = s.routeBank := rfl
@[simp] theorem updCluster_packets (s : State) (k : Nat) (f : Cluster → Cluster) : (updCluster s k f).packets = s.packets := rfl
@[simp] theorem updCluster_ways (s : State) (k : Nat) (f : Cluster → Cluster) : (updCluster s k f).ways = s.ways := rfl
@[simp] theorem updCluster_credit (s : State) (k : Nat) (f : Cluster → Cluster) : (updCluster s k f).credit = s.credit := rfl
@[simp] theorem updCluster_keys (s : State) (k : Nat) (f : Cluster → Cluster) : (updCluster s k f).keys = s.keys := rfl
@[simp] theorem updCluster_frozen (s : State) (k : Nat) (f : Cluster → Cluster) : (updCluster s k f).frozen = s.frozen := rfl
@[simp] theorem updCluster_frozenStreams (s : State) (k : Nat) (f : Cluster → Cluster) : (updCluster s k f).frozenStreams = s.frozenStreams := rfl
@[simp] theorem updCluster_heldRequests (s : State) (k : Nat) (f : Cluster → Cluster) : (updCluster s k f).heldRequests = s.heldRequests := rfl
@[simp] theorem updCluster_sec (s : State) (k : Nat) (f : Cluster → Cluster) : (updCluster s k f).sec = s.sec := rfl
@[simp] theorem updCluster_disc (s : State) (k : Nat) (f : Cluster → Cluster) : (updCluster s k f).disc = s.disc := rfl
@[simp] theorem updCluster_ports (s : State) (k : Nat) (f : Cluster → Cluster) : (updCluster s k f).ports = s.ports := rfl
@[simp] theorem updCluster_segments (s : State) (k : Nat) (f : Cluster → Cluster) : (updCluster s k f).segments = s.segments := rfl
@[simp] theorem updCluster_granarySig (s : State) (k : Nat) (f : Cluster → Cluster) : (updCluster s k f).granarySig = s.granarySig := rfl
@[simp] theorem updCluster_lastTime (s : State) (k : Nat) (f : Cluster → Cluster) : (updCluster s k f).lastTime = s.lastTime := rfl
@[simp] theorem updCluster_interval (s : State) (k : Nat) (f : Cluster → Cluster) : (updCluster s k f).interval = s.interval := rfl
@[simp] theorem updCluster_sumAt (s : State) (k : Nat) (f : Cluster → Cluster) : (updCluster s k f).sumAt = s.sumAt := rfl
@[simp] theorem updCluster_rails (s : State) (k : Nat) (f : Cluster → Cluster) : (updCluster s k f).rails = s.rails := rfl
@[simp] theorem updCluster_tripped (s : State) (k : Nat) (f : Cluster → Cluster) : (updCluster s k f).tripped = s.tripped := rfl
@[simp] theorem updCluster_railFault (s : State) (k : Nat) (f : Cluster → Cluster) : (updCluster s k f).railFault = s.railFault := rfl
@[simp] theorem updCluster_mgmt (s : State) (k : Nat) (f : Cluster → Cluster) : (updCluster s k f).mgmt = s.mgmt := rfl
@[simp] theorem updCluster_hostRead (s : State) (k : Nat) (f : Cluster → Cluster) : (updCluster s k f).hostRead = s.hostRead := rfl
@[simp] theorem updCluster_wrOff (s : State) (k : Nat) (f : Cluster → Cluster) : (updCluster s k f).wrOff = s.wrOff := rfl
@[simp] theorem updCluster_wrVal (s : State) (k : Nat) (f : Cluster → Cluster) : (updCluster s k f).wrVal = s.wrVal := rfl
@[simp] theorem updCluster_winGwct (s : State) (k : Nat) (f : Cluster → Cluster) : (updCluster s k f).winGwct = s.winGwct := rfl
@[simp] theorem updCluster_mig (s : State) (k : Nat) (f : Cluster → Cluster) : (updCluster s k f).mig = s.mig := rfl
@[simp] theorem updCluster_inval (s : State) (k : Nat) (f : Cluster → Cluster) : (updCluster s k f).inval = s.inval := rfl
@[simp] theorem updCluster_free (s : State) (k : Nat) (f : Cluster → Cluster) : (updCluster s k f).free = s.free := rfl
@[simp] theorem updCluster_agenda (s : State) (k : Nat) (f : Cluster → Cluster) : (updCluster s k f).agenda = s.agenda := rfl
@[simp] theorem updCluster_issued (s : State) (k : Nat) (f : Cluster → Cluster) : (updCluster s k f).issued = s.issued := rfl
@[simp] theorem updCluster_cur (s : State) (k : Nat) (f : Cluster → Cluster) : (updCluster s k f).cur = s.cur := rfl
@[simp] theorem updCluster_curLen (s : State) (k : Nat) (f : Cluster → Cluster) : (updCluster s k f).curLen = s.curLen := rfl

@[simp] theorem physWrite_ticks (s : State) (a : Nat) (l : List Byte) : (physWrite s a l).ticks = s.ticks := rfl
@[simp] theorem physWrite_now (s : State) (a : Nat) (l : List Byte) : (physWrite s a l).now = s.now := rfl
@[simp] theorem physWrite_cores (s : State) (a : Nat) (l : List Byte) : (physWrite s a l).cores = s.cores := rfl
@[simp] theorem physWrite_clusters (s : State) (a : Nat) (l : List Byte) : (physWrite s a l).clusters = s.clusters := rfl
@[simp] theorem physWrite_lineKeys (s : State) (a : Nat) (l : List Byte) : (physWrite s a l).lineKeys = s.lineKeys := rfl
@[simp] theorem physWrite_bad (s : State) (a : Nat) (l : List Byte) : (physWrite s a l).bad = s.bad := rfl
@[simp] theorem physWrite_homes (s : State) (a : Nat) (l : List Byte) : (physWrite s a l).homes = s.homes := rfl
@[simp] theorem physWrite_l2 (s : State) (a : Nat) (l : List Byte) : (physWrite s a l).l2 = s.l2 := rfl
@[simp] theorem physWrite_reqs (s : State) (a : Nat) (l : List Byte) : (physWrite s a l).reqs = s.reqs := rfl
@[simp] theorem physWrite_nextId (s : State) (a : Nat) (l : List Byte) : (physWrite s a l).nextId = s.nextId := rfl
@[simp] theorem physWrite_w0 (s : State) (a : Nat) (l : List Byte) : (physWrite s a l).w0 = s.w0 := rfl
@[simp] theorem physWrite_queues (s : State) (a : Nat) (l : List Byte) : (physWrite s a l).queues = s.queues := rfl
@[simp] theorem physWrite_runs (s : State) (a : Nat) (l : List Byte) : (physWrite s a l).runs = s.runs := rfl
@[simp] theorem physWrite_runNo (s : State) (a : Nat) (l : List Byte) : (physWrite s a l).runNo = s.runNo := rfl
@[simp] theorem physWrite_nodeCache (s : State) (a : Nat) (l : List Byte) : (physWrite s a l).nodeCache = s.nodeCache := rfl
@[simp] theorem physWrite_hdrCache (s : State) (a : Nat) (l : List Byte) : (physWrite s a l).hdrCache = s.hdrCache := rfl
@[simp] theorem physWrite_staged (s : State) (a : Nat) (l : List Byte) : (physWrite s a l).staged = s.staged := rfl
@[simp] theorem physWrite_walked (s : State) (a : Nat) (l : List Byte) : (physWrite s a l).walked = s.walked := rfl
@[simp] theorem physWrite_savedParts (s : State) (a : Nat) (l : List Byte) : (physWrite s a l).savedParts = s.savedParts := rfl
@[simp] theorem physWrite_resHeld (s : State) (a : Nat) (l : List Byte) : (physWrite s a l).resHeld = s.resHeld := rfl
@[simp] theorem physWrite_fwEvents (s : State) (a : Nat) (l : List Byte) : (physWrite s a l).fwEvents = s.fwEvents := rfl
@[simp] theorem physWrite_fwCores (s : State) (a : Nat) (l : List Byte) : (physWrite s a l).fwCores = s.fwCores := rfl
@[simp] theorem physWrite_overflowed (s : State) (a : Nat) (l : List Byte) : (physWrite s a l).overflowed = s.overflowed := rfl
@[simp] theorem physWrite_pageReqs (s : State) (a : Nat) (l : List Byte) : (physWrite s a l).pageReqs = s.pageReqs := rfl
@[simp] theorem physWrite_nextReq (s : State) (a : Nat) (l : List Byte) : (physWrite s a l).nextReq = s.nextReq := rfl
@[simp] theorem physWrite_launchWaits (s : State) (a : Nat) (l : List Byte) : (physWrite s a l).launchWaits = s.launchWaits := rfl
@[simp] theorem physWrite_comms (s : State) (a : Nat) (l : List Byte) : (physWrite s a l).comms = s.comms := rfl
@[simp] theorem physWrite_collHeld (s : State) (a : Nat) (l : List Byte) : (physWrite s a l).collHeld = s.collHeld := rfl
@[simp] theorem physWrite_stepNos (s : State) (a : Nat) (l : List Byte) : (physWrite s a l).stepNos = s.stepNos := rfl
@[simp] theorem physWrite_routes0 (s : State) (a : Nat) (l : List Byte) : (physWrite s a l).routes0 = s.routes0 := rfl
@[simp] theorem physWrite_routes1 (s : State) (a : Nat) (l : List Byte) : (physWrite s a l).routes1 = s.routes1 := rfl
@[simp] theorem physWrite_routeBank (s : State) (a : Nat) (l : List Byte) : (physWrite s a l).routeBank = s.routeBank := rfl
@[simp] theorem physWrite_packets (s : State) (a : Nat) (l : List Byte) : (physWrite s a l).packets = s.packets := rfl
@[simp] theorem physWrite_ways (s : State) (a : Nat) (l : List Byte) : (physWrite s a l).ways = s.ways := rfl
@[simp] theorem physWrite_credit (s : State) (a : Nat) (l : List Byte) : (physWrite s a l).credit = s.credit := rfl
@[simp] theorem physWrite_keys (s : State) (a : Nat) (l : List Byte) : (physWrite s a l).keys = s.keys := rfl
@[simp] theorem physWrite_frozen (s : State) (a : Nat) (l : List Byte) : (physWrite s a l).frozen = s.frozen := rfl
@[simp] theorem physWrite_frozenStreams (s : State) (a : Nat) (l : List Byte) : (physWrite s a l).frozenStreams = s.frozenStreams := rfl
@[simp] theorem physWrite_heldRequests (s : State) (a : Nat) (l : List Byte) : (physWrite s a l).heldRequests = s.heldRequests := rfl
@[simp] theorem physWrite_sec (s : State) (a : Nat) (l : List Byte) : (physWrite s a l).sec = s.sec := rfl
@[simp] theorem physWrite_disc (s : State) (a : Nat) (l : List Byte) : (physWrite s a l).disc = s.disc := rfl
@[simp] theorem physWrite_ports (s : State) (a : Nat) (l : List Byte) : (physWrite s a l).ports = s.ports := rfl
@[simp] theorem physWrite_segments (s : State) (a : Nat) (l : List Byte) : (physWrite s a l).segments = s.segments := rfl
@[simp] theorem physWrite_granarySig (s : State) (a : Nat) (l : List Byte) : (physWrite s a l).granarySig = s.granarySig := rfl
@[simp] theorem physWrite_lastTime (s : State) (a : Nat) (l : List Byte) : (physWrite s a l).lastTime = s.lastTime := rfl
@[simp] theorem physWrite_interval (s : State) (a : Nat) (l : List Byte) : (physWrite s a l).interval = s.interval := rfl
@[simp] theorem physWrite_sumAt (s : State) (a : Nat) (l : List Byte) : (physWrite s a l).sumAt = s.sumAt := rfl
@[simp] theorem physWrite_rails (s : State) (a : Nat) (l : List Byte) : (physWrite s a l).rails = s.rails := rfl
@[simp] theorem physWrite_tripped (s : State) (a : Nat) (l : List Byte) : (physWrite s a l).tripped = s.tripped := rfl
@[simp] theorem physWrite_railFault (s : State) (a : Nat) (l : List Byte) : (physWrite s a l).railFault = s.railFault := rfl
@[simp] theorem physWrite_mgmt (s : State) (a : Nat) (l : List Byte) : (physWrite s a l).mgmt = s.mgmt := rfl
@[simp] theorem physWrite_hostRead (s : State) (a : Nat) (l : List Byte) : (physWrite s a l).hostRead = s.hostRead := rfl
@[simp] theorem physWrite_wrOff (s : State) (a : Nat) (l : List Byte) : (physWrite s a l).wrOff = s.wrOff := rfl
@[simp] theorem physWrite_wrVal (s : State) (a : Nat) (l : List Byte) : (physWrite s a l).wrVal = s.wrVal := rfl
@[simp] theorem physWrite_winGwct (s : State) (a : Nat) (l : List Byte) : (physWrite s a l).winGwct = s.winGwct := rfl
@[simp] theorem physWrite_mig (s : State) (a : Nat) (l : List Byte) : (physWrite s a l).mig = s.mig := rfl
@[simp] theorem physWrite_inval (s : State) (a : Nat) (l : List Byte) : (physWrite s a l).inval = s.inval := rfl
@[simp] theorem physWrite_free (s : State) (a : Nat) (l : List Byte) : (physWrite s a l).free = s.free := rfl
@[simp] theorem physWrite_agenda (s : State) (a : Nat) (l : List Byte) : (physWrite s a l).agenda = s.agenda := rfl
@[simp] theorem physWrite_issued (s : State) (a : Nat) (l : List Byte) : (physWrite s a l).issued = s.issued := rfl
@[simp] theorem physWrite_cur (s : State) (a : Nat) (l : List Byte) : (physWrite s a l).cur = s.cur := rfl
@[simp] theorem physWrite_curLen (s : State) (a : Nat) (l : List Byte) : (physWrite s a l).curLen = s.curLen := rfl

@[simp] theorem setReg32_ticks (s : State) (off : Nat) (v : Word) : (setReg32 s off v).ticks = s.ticks := rfl
@[simp] theorem setReg32_now (s : State) (off : Nat) (v : Word) : (setReg32 s off v).now = s.now := rfl
@[simp] theorem setReg32_cores (s : State) (off : Nat) (v : Word) : (setReg32 s off v).cores = s.cores := rfl
@[simp] theorem setReg32_clusters (s : State) (off : Nat) (v : Word) : (setReg32 s off v).clusters = s.clusters := rfl
@[simp] theorem setReg32_mem (s : State) (off : Nat) (v : Word) : (setReg32 s off v).mem = s.mem := rfl
@[simp] theorem setReg32_lineKeys (s : State) (off : Nat) (v : Word) : (setReg32 s off v).lineKeys = s.lineKeys := rfl
@[simp] theorem setReg32_bad (s : State) (off : Nat) (v : Word) : (setReg32 s off v).bad = s.bad := rfl
@[simp] theorem setReg32_homes (s : State) (off : Nat) (v : Word) : (setReg32 s off v).homes = s.homes := rfl
@[simp] theorem setReg32_l2 (s : State) (off : Nat) (v : Word) : (setReg32 s off v).l2 = s.l2 := rfl
@[simp] theorem setReg32_reqs (s : State) (off : Nat) (v : Word) : (setReg32 s off v).reqs = s.reqs := rfl
@[simp] theorem setReg32_nextId (s : State) (off : Nat) (v : Word) : (setReg32 s off v).nextId = s.nextId := rfl
@[simp] theorem setReg32_queues (s : State) (off : Nat) (v : Word) : (setReg32 s off v).queues = s.queues := rfl
@[simp] theorem setReg32_runs (s : State) (off : Nat) (v : Word) : (setReg32 s off v).runs = s.runs := rfl
@[simp] theorem setReg32_runNo (s : State) (off : Nat) (v : Word) : (setReg32 s off v).runNo = s.runNo := rfl
@[simp] theorem setReg32_nodeCache (s : State) (off : Nat) (v : Word) : (setReg32 s off v).nodeCache = s.nodeCache := rfl
@[simp] theorem setReg32_hdrCache (s : State) (off : Nat) (v : Word) : (setReg32 s off v).hdrCache = s.hdrCache := rfl
@[simp] theorem setReg32_staged (s : State) (off : Nat) (v : Word) : (setReg32 s off v).staged = s.staged := rfl
@[simp] theorem setReg32_walked (s : State) (off : Nat) (v : Word) : (setReg32 s off v).walked = s.walked := rfl
@[simp] theorem setReg32_savedParts (s : State) (off : Nat) (v : Word) : (setReg32 s off v).savedParts = s.savedParts := rfl
@[simp] theorem setReg32_resHeld (s : State) (off : Nat) (v : Word) : (setReg32 s off v).resHeld = s.resHeld := rfl
@[simp] theorem setReg32_fwEvents (s : State) (off : Nat) (v : Word) : (setReg32 s off v).fwEvents = s.fwEvents := rfl
@[simp] theorem setReg32_fwCores (s : State) (off : Nat) (v : Word) : (setReg32 s off v).fwCores = s.fwCores := rfl
@[simp] theorem setReg32_overflowed (s : State) (off : Nat) (v : Word) : (setReg32 s off v).overflowed = s.overflowed := rfl
@[simp] theorem setReg32_pageReqs (s : State) (off : Nat) (v : Word) : (setReg32 s off v).pageReqs = s.pageReqs := rfl
@[simp] theorem setReg32_nextReq (s : State) (off : Nat) (v : Word) : (setReg32 s off v).nextReq = s.nextReq := rfl
@[simp] theorem setReg32_launchWaits (s : State) (off : Nat) (v : Word) : (setReg32 s off v).launchWaits = s.launchWaits := rfl
@[simp] theorem setReg32_comms (s : State) (off : Nat) (v : Word) : (setReg32 s off v).comms = s.comms := rfl
@[simp] theorem setReg32_collHeld (s : State) (off : Nat) (v : Word) : (setReg32 s off v).collHeld = s.collHeld := rfl
@[simp] theorem setReg32_stepNos (s : State) (off : Nat) (v : Word) : (setReg32 s off v).stepNos = s.stepNos := rfl
@[simp] theorem setReg32_routes0 (s : State) (off : Nat) (v : Word) : (setReg32 s off v).routes0 = s.routes0 := rfl
@[simp] theorem setReg32_routes1 (s : State) (off : Nat) (v : Word) : (setReg32 s off v).routes1 = s.routes1 := rfl
@[simp] theorem setReg32_routeBank (s : State) (off : Nat) (v : Word) : (setReg32 s off v).routeBank = s.routeBank := rfl
@[simp] theorem setReg32_packets (s : State) (off : Nat) (v : Word) : (setReg32 s off v).packets = s.packets := rfl
@[simp] theorem setReg32_ways (s : State) (off : Nat) (v : Word) : (setReg32 s off v).ways = s.ways := rfl
@[simp] theorem setReg32_credit (s : State) (off : Nat) (v : Word) : (setReg32 s off v).credit = s.credit := rfl
@[simp] theorem setReg32_keys (s : State) (off : Nat) (v : Word) : (setReg32 s off v).keys = s.keys := rfl
@[simp] theorem setReg32_frozen (s : State) (off : Nat) (v : Word) : (setReg32 s off v).frozen = s.frozen := rfl
@[simp] theorem setReg32_frozenStreams (s : State) (off : Nat) (v : Word) : (setReg32 s off v).frozenStreams = s.frozenStreams := rfl
@[simp] theorem setReg32_heldRequests (s : State) (off : Nat) (v : Word) : (setReg32 s off v).heldRequests = s.heldRequests := rfl
@[simp] theorem setReg32_sec (s : State) (off : Nat) (v : Word) : (setReg32 s off v).sec = s.sec := rfl
@[simp] theorem setReg32_disc (s : State) (off : Nat) (v : Word) : (setReg32 s off v).disc = s.disc := rfl
@[simp] theorem setReg32_ports (s : State) (off : Nat) (v : Word) : (setReg32 s off v).ports = s.ports := rfl
@[simp] theorem setReg32_segments (s : State) (off : Nat) (v : Word) : (setReg32 s off v).segments = s.segments := rfl
@[simp] theorem setReg32_granarySig (s : State) (off : Nat) (v : Word) : (setReg32 s off v).granarySig = s.granarySig := rfl
@[simp] theorem setReg32_lastTime (s : State) (off : Nat) (v : Word) : (setReg32 s off v).lastTime = s.lastTime := rfl
@[simp] theorem setReg32_interval (s : State) (off : Nat) (v : Word) : (setReg32 s off v).interval = s.interval := rfl
@[simp] theorem setReg32_sumAt (s : State) (off : Nat) (v : Word) : (setReg32 s off v).sumAt = s.sumAt := rfl
@[simp] theorem setReg32_rails (s : State) (off : Nat) (v : Word) : (setReg32 s off v).rails = s.rails := rfl
@[simp] theorem setReg32_tripped (s : State) (off : Nat) (v : Word) : (setReg32 s off v).tripped = s.tripped := rfl
@[simp] theorem setReg32_railFault (s : State) (off : Nat) (v : Word) : (setReg32 s off v).railFault = s.railFault := rfl
@[simp] theorem setReg32_mgmt (s : State) (off : Nat) (v : Word) : (setReg32 s off v).mgmt = s.mgmt := rfl
@[simp] theorem setReg32_hostRead (s : State) (off : Nat) (v : Word) : (setReg32 s off v).hostRead = s.hostRead := rfl
@[simp] theorem setReg32_wrOff (s : State) (off : Nat) (v : Word) : (setReg32 s off v).wrOff = s.wrOff := rfl
@[simp] theorem setReg32_wrVal (s : State) (off : Nat) (v : Word) : (setReg32 s off v).wrVal = s.wrVal := rfl
@[simp] theorem setReg32_winGwct (s : State) (off : Nat) (v : Word) : (setReg32 s off v).winGwct = s.winGwct := rfl
@[simp] theorem setReg32_mig (s : State) (off : Nat) (v : Word) : (setReg32 s off v).mig = s.mig := rfl
@[simp] theorem setReg32_inval (s : State) (off : Nat) (v : Word) : (setReg32 s off v).inval = s.inval := rfl
@[simp] theorem setReg32_free (s : State) (off : Nat) (v : Word) : (setReg32 s off v).free = s.free := rfl
@[simp] theorem setReg32_agenda (s : State) (off : Nat) (v : Word) : (setReg32 s off v).agenda = s.agenda := rfl
@[simp] theorem setReg32_issued (s : State) (off : Nat) (v : Word) : (setReg32 s off v).issued = s.issued := rfl
@[simp] theorem setReg32_cur (s : State) (off : Nat) (v : Word) : (setReg32 s off v).cur = s.cur := rfl
@[simp] theorem setReg32_curLen (s : State) (off : Nat) (v : Word) : (setReg32 s off v).curLen = s.curLen := rfl

@[simp] theorem putCore_cores (s : State) (ci : Nat) (c : Core) : (putCore s ci c).cores = tput s.cores ci c := rfl
@[simp] theorem physWrite_mem (s : State) (a : Nat) (l : List Byte) : (physWrite s a l).mem = memWrite s.mem a l := rfl
theorem updCore_eq (s : State) (ci : Nat) (f : Core → Core) : updCore s ci f = putCore s ci (f (getCore s ci)) := rfl
/-- The core put is the core read. -/
@[simp] theorem getCore_putCore_self (s : State) (ci : Nat) (c : Core) : getCore (putCore s ci c) ci = c := by
  simp [getCore, tgetD, putCore, tget_tput_self]
/-- Every other core stays. -/
theorem getCore_putCore_ne (s : State) (ci cj : Nat) (c : Core) (h : cj ≠ ci) : getCore (putCore s ci c) cj = getCore s cj := by
  simp [getCore, tgetD, putCore, tget_tput_ne, h]
/-- A core depends on the table of cores and the ticks alone. -/
theorem getCore_congr (s s' : State) (ci : Nat) (h : s'.cores = s.cores) (ht : s'.ticks = s.ticks) : getCore s' ci = getCore s ci := by
  simp [getCore, h, ht]
/-- The register set is the register read. -/
@[simp] theorem reg32_setReg32_self (s : State) (off : Nat) (v : Word) : reg32 (setReg32 s off v) off = v := by
  unfold setReg32 reg32
  split
  · rename_i hv
    simp [hv]
  · simp [tget_tput_self]
/-- Every other register stays. -/
theorem reg32_setReg32_ne (s : State) (off o : Nat) (v : Word) (h : o ≠ off) : reg32 (setReg32 s off v) o = reg32 s o := by
  unfold setReg32 reg32
  split
  · simp [tget_tdel_ne _ _ _ h]
  · simp [tget_tput_ne _ _ _ _ h]

end Sys2Proof.Machine
end

