-- ==== Sys2Proof/Laws/Threads.lean ====
section
/-!
SUPPORT. What the banks, the tags and the taking of a fault leave of a thread they do not concern: everything but where its registers are
stored, their tags and ready times, and the words that show a fault's cause.
-/
namespace Sys2Proof.Machine
open Sys2Proof

/-! ### Operations that leave the cores alone -/

/-- The cores and the cycle count are the same. -/
structure SameCores (s s' : State) : Prop where
  cores : s'.cores = s.cores
  ticks : s'.ticks = s.ticks
theorem SameCores.refl (s : State) : SameCores s s := ⟨rfl, rfl⟩
theorem SameCores.trans {a b c : State} (h : SameCores a b) (k : SameCores b c) : SameCores a c :=
  ⟨k.cores.trans h.cores, k.ticks.trans h.ticks⟩
theorem SameCores.getCore {a b : State} (h : SameCores a b) (ci : Nat) : getCore b ci = getCore a ci := getCore_congr _ _ ci h.cores h.ticks
theorem SameCores.ite {c : Prop} [Decidable c] {s a b : State} (h : SameCores s a) (k : SameCores s b) : SameCores s (if c then a else b) := by
  split
  · exact h
  · exact k

theorem setReg32_same (s : State) (o : Nat) (v : Word) : SameCores s (setReg32 s o v) := ⟨rfl, rfl⟩
theorem countDrop_same (s : State) (k : Nat) : SameCores s (countDrop s k) := SameCores.ite (SameCores.refl s) (setReg32_same ..)
theorem emitRec_same (s : State) (r : Rec) : SameCores s (emitRec s r) := SameCores.ite (countDrop_same ..) ⟨rfl, rfl⟩
theorem emitR_same (s : State) (u : Word) (t : Nat) (c : DWord) (p f : Nat) : SameCores s (emitR s u t c p f) := emitRec_same ..
theorem ringWrite_same (s : State) (q k : Nat) (t : Word) (d n : Nat) : SameCores s (ringWrite s q k t d n) := by
  constructor <;> simp only [ringWrite, setReg32_cores, setReg32_ticks, physWrite_cores, physWrite_ticks]
theorem ringPost_same (s : State) (q k : Nat) (t : Word) (d : Nat) : SameCores s (ringPost s q k t d) := by
  unfold ringPost
  refine SameCores.ite (SameCores.refl s) (SameCores.ite (ringWrite_same ..) ?_)
  extract_lets s'
  have h : SameCores s s' := SameCores.ite (countDrop_same ..) (setReg32_same ..)
  refine SameCores.ite h (h.trans ?_)
  have k : SameCores s' (if ringFree s' ≥ 1 then ringWrite s' 0xFFFF 3 0 0 1 else s') := SameCores.ite (ringWrite_same ..) (SameCores.refl _)
  exact ⟨k.cores, k.ticks⟩

/-! ### Threads that stay -/

/-- The same value, producer and arming; empty exactly if it was. A full register may be evicted to the fallow store (R52), and one may leave
the uniform bank for an entry of its own (R43). -/
structure CellLike (c c' : RegCell) : Prop where
  val : c'.val = c.val
  prod : c'.prod = c.prod
  armed : c'.armed = c.armed
  st : c'.st = .empty ↔ c.st = .empty
theorem CellLike.refl (c : RegCell) : CellLike c c := ⟨rfl, rfl, rfl, Iff.rfl⟩
theorem CellLike.trans {a b c : RegCell} (h : CellLike a b) (k : CellLike b c) : CellLike a c :=
  ⟨k.val.trans h.val, k.prod.trans h.prod, k.armed.trans h.armed, k.st.trans h.st⟩
theorem CellLike.toFallow (c : RegCell) : CellLike c (Machine.toFallow c) := by
  unfold Machine.toFallow
  split
  · rename_i h
    exact ⟨rfl, rfl, rfl, by simp [h]⟩
  · exact CellLike.refl c
theorem CellLike.ownEntry (c : RegCell) : CellLike c (Machine.ownEntry c) := by
  refine ⟨rfl, rfl, rfl, ?_⟩
  unfold Machine.ownEntry
  cases c.st <;> cases c.uni <;> simp
/-- Both cells are there, alike, or neither. -/
def CellsLike : Option RegCell → Option RegCell → Prop
  | none, none => True
  | some a, some b => CellLike a b
  | _, _ => False
theorem CellsLike.refl : (c : Option RegCell) → CellsLike c c
  | none => trivial
  | some c => CellLike.refl c
theorem CellsLike.trans : {a b c : Option RegCell} → CellsLike a b → CellsLike b c → CellsLike a c
  | none, none, none, _, _ => trivial
  | some _, some _, some _, h, k => CellLike.trans h k
  | none, some _, _, h, _ => h.elim
  | some _, none, _, h, _ => h.elim
  | none, none, some _, _, k => k.elim
  | some _, some _, none, _, k => k.elim
theorem CellsLike.map (c : Option RegCell) (f : RegCell → RegCell) (h : ∀ x, CellLike x (f x)) : CellsLike c (c.map f) := by
  cases c with
  | none => trivial
  | some x => exact h x

/-- A thread without its registers and without the words that show a cause. -/
def bareThread (th : Thread) : Thread := { th with regs := [], cause := 0, det0 := 0, det1 := 0, det2 := 0 }
/-- Two threads that differ only in where registers are stored, in tags and ready times, and in the cause words. -/
structure Alike (a b : Thread) : Prop where
  regs : ∀ r, CellsLike (tget a.regs r) (tget b.regs r)
  rest : bareThread b = bareThread a

theorem Alike.refl (a : Thread) : Alike a a := ⟨fun _ => CellsLike.refl _, rfl⟩
theorem Alike.trans {a b c : Thread} (h : Alike a b) (k : Alike b c) : Alike a c :=
  ⟨fun r => (h.regs r).trans (k.regs r), k.rest.trans h.rest⟩
theorem Alike.of {α : Type} (g : Thread → α) (hg : ∀ th, g (bareThread th) = g th) {a b : Thread} (h : Alike a b) : g b = g a := by
  rw [← hg b, h.rest, hg a]
theorem Alike.pc {a b : Thread} (h : Alike a b) : b.pc = a.pc := h.of Thread.pc fun _ => rfl
theorem Alike.preds {a b : Thread} (h : Alike a b) : b.preds = a.preds := h.of Thread.preds fun _ => rfl
theorem Alike.st {a b : Thread} (h : Alike a b) : b.st = a.st := h.of Thread.st fun _ => rfl
theorem Alike.mode {a b : Thread} (h : Alike a b) : b.mode = a.mode := h.of Thread.mode fun _ => rfl
theorem Alike.ast {a b : Thread} (h : Alike a b) : b.ast = a.ast := h.of Thread.ast fun _ => rfl
theorem Alike.aen {a b : Thread} (h : Alike a b) : b.aen = a.aen := h.of Thread.aen fun _ => rfl
theorem Alike.plot {a b : Thread} (h : Alike a b) : b.plot = a.plot := h.of Thread.plot fun _ => rfl
theorem Alike.role {a b : Thread} (h : Alike a b) : b.role = a.role := h.of Thread.role fun _ => rfl
theorem Alike.sheaf {a b : Thread} (h : Alike a b) : b.sheaf = a.sheaf := h.of Thread.sheaf fun _ => rfl
theorem Alike.rank {a b : Thread} (h : Alike a b) : b.rank = a.rank := h.of Thread.rank fun _ => rfl
theorem Alike.age {a b : Thread} (h : Alike a b) : b.age = a.age := h.of Thread.age fun _ => rfl
theorem Alike.eligible {a b : Thread} (h : Alike a b) : b.eligible = a.eligible := h.of Thread.eligible fun _ => rfl
theorem Alike.horizon {a b : Thread} (h : Alike a b) : b.horizon = a.horizon := h.of Thread.horizon fun _ => rfl
theorem Alike.stepping {a b : Thread} (h : Alike a b) : b.stepping = a.stepping := h.of Thread.stepping fun _ => rfl
theorem Alike.lowUntil {a b : Thread} (h : Alike a b) : b.lowUntil = a.lowUntil := h.of Thread.lowUntil fun _ => rfl
theorem Alike.tblSel {a b : Thread} (h : Alike a b) : b.tblSel = a.tblSel := h.of Thread.tblSel fun _ => rfl
theorem Alike.nextPc {a b : Thread} (h : Alike a b) : b.nextPc = a.nextPc := h.of Thread.nextPc fun _ => rfl
theorem Alike.lastUse {a b : Thread} (h : Alike a b) : b.lastUse = a.lastUse := h.of Thread.lastUse fun _ => rfl
theorem Alike.rejects {a b : Thread} (h : Alike a b) : b.rejects = a.rejects := h.of Thread.rejects fun _ => rfl
theorem Alike.reserved {a b : Thread} (h : Alike a b) : b.reserved = a.reserved := h.of Thread.reserved fun _ => rfl
theorem Alike.prog {a b : Thread} (h : Alike a b) : b.prog = a.prog := h.of Thread.prog fun _ => rfl
theorem Alike.tlast {a b : Thread} (h : Alike a b) : b.tlast = a.tlast := h.of Thread.tlast fun _ => rfl
theorem Alike.longOp {a b : Thread} (h : Alike a b) : b.longOp = a.longOp := h.of Thread.longOp fun _ => rfl
theorem Alike.predReady {a b : Thread} (h : Alike a b) : b.predReady = a.predReady := h.of Thread.predReady fun _ => rfl
theorem Alike.rejoin {a b : Thread} (h : Alike a b) : b.rejoin = a.rejoin := h.of Thread.rejoin fun _ => rfl
theorem Alike.relSeq {a b : Thread} (h : Alike a b) : b.relSeq = a.relSeq := h.of Thread.relSeq fun _ => rfl
theorem Alike.serves {a b : Thread} (h : Alike a b) : b.serves = a.serves := h.of Thread.serves fun _ => rfl
theorem Alike.lostAt {a b : Thread} (h : Alike a b) : b.lostAt = a.lostAt := h.of Thread.lostAt fun _ => rfl
theorem Alike.joinRegs {a b : Thread} (h : Alike a b) : b.joinRegs = a.joinRegs := h.of Thread.joinRegs fun _ => rfl
theorem Alike.readySince {a b : Thread} (h : Alike a b) : b.readySince = a.readySince := h.of Thread.readySince fun _ => rfl
theorem Alike.overdue {a b : Thread} (h : Alike a b) : b.overdue = a.overdue := h.of Thread.overdue fun _ => rfl
theorem Alike.dbgst {a b : Thread} (h : Alike a b) : b.dbgst = a.dbgst := h.of Thread.dbgst fun _ => rfl
theorem Alike.fresh {a b : Thread} (h : Alike a b) : b.fresh = a.fresh := h.of Thread.fresh fun _ => rfl
theorem Alike.cych {a b : Thread} (h : Alike a b) : b.cych = a.cych := h.of Thread.cych fun _ => rfl
/-- The values read are the same. -/
theorem Alike.rv {a b : Thread} (h : Alike a b) (r : Nat) : rv b r = rv a r := by
  have hr := h.regs r
  unfold Machine.rv
  cases ha : tget a.regs r with
  | none =>
    cases hb : tget b.regs r with
    | none => rfl
    | some y =>
      rw [ha, hb] at hr
      exact hr.elim
  | some x =>
    cases hb : tget b.regs r with
    | none =>
      rw [ha, hb] at hr
      exact hr.elim
    | some y =>
      rw [ha, hb] at hr
      exact hr.val
/-- The same registers are mapped. -/
theorem Alike.isSome {a b : Thread} (h : Alike a b) (r : Nat) : (tget b.regs r).isSome = (tget a.regs r).isSome := by
  have hr := h.regs r
  cases ha : tget a.regs r with
  | none =>
    cases hb : tget b.regs r with
    | none => rfl
    | some y =>
      rw [ha, hb] at hr
      exact hr.elim
  | some x =>
    cases hb : tget b.regs r with
    | none =>
      rw [ha, hb] at hr
      exact hr.elim
    | some y => rfl

/-- Thread t of a core is there in both, alike. -/
structure Stays (t : Nat) (a b : Tbl Thread) : Prop where
  out : ∀ th, tget a t = some th → ∃ th', tget b t = some th' ∧ Alike th th'
theorem Stays.refl (t : Nat) (a : Tbl Thread) : Stays t a a := ⟨fun th h => ⟨th, h, Alike.refl th⟩⟩
theorem Stays.trans {t : Nat} {a b c : Tbl Thread} (h : Stays t a b) (k : Stays t b c) : Stays t a c := by
  constructor
  intro th h1
  obtain ⟨x, h2, h3⟩ := h.out th h1
  obtain ⟨y, h4, h5⟩ := k.out x h2
  exact ⟨y, h4, h3.trans h5⟩
/-- Changing every thread to one alike. -/
theorem Stays.tmap (t : Nat) (a : Tbl Thread) (f : Nat → Thread → Thread) (h : ∀ th, Alike th (f t th)) : Stays t a (tmap a f) := by
  constructor
  intro th h1
  exact ⟨f t th, by rw [tget_tmap, h1]; rfl, h th⟩
theorem Stays.tput_ne (t k : Nat) (a : Tbl Thread) (x : Thread) (h : t ≠ k) : Stays t a (tput a k x) := by
  constructor
  intro th h1
  exact ⟨th, by rw [tget_tput_ne _ _ _ _ h, h1], Alike.refl th⟩
theorem Stays.tupd_ne (t k : Nat) (a : Tbl Thread) (f : Thread → Thread) (h : t ≠ k) : Stays t a (tupd a k f) := by
  constructor
  intro th h1
  exact ⟨th, by rw [tget_tupd_ne _ _ _ _ h, h1], Alike.refl th⟩
theorem Stays.tupd (t k : Nat) (a : Tbl Thread) (f : Thread → Thread) (h : ∀ th, Alike th (f th)) : Stays t a (tupd a k f) := by
  by_cases hk : t = k
  · subst hk
    constructor
    intro th h1
    exact ⟨f th, by rw [tget_tupd_self, h1]; rfl, h th⟩
  · exact Stays.tupd_ne t k a f hk
/-- Changing a register's cell to one alike. -/
theorem Alike.tupd (th : Thread) (r : Nat) (f : RegCell → RegCell) (h : ∀ c, CellLike c (f c)) :
    Alike th { th with regs := Machine.tupd th.regs r f } := by
  refine ⟨fun q => ?_, rfl⟩
  by_cases hq : q = r
  · subst hq
    rw [tget_tupd_self]
    exact CellsLike.map _ f h
  · rw [tget_tupd_ne _ _ _ _ hq]
    exact CellsLike.refl _
theorem Alike.setTag (th : Thread) (r : Nat) (t : Tag) (u : Bool) : Alike th (setTag th r t u) :=
  Alike.tupd th r _ fun c => by
    split
    · exact ⟨rfl, rfl, rfl, Iff.rfl⟩
    · have h := CellLike.ownEntry c
      exact ⟨h.val, h.prod, h.armed, h.st⟩
theorem Alike.tmapRegs (th : Thread) (f : Nat → RegCell → RegCell) (h : ∀ r c, CellLike c (f r c)) :
    Alike th { th with regs := Machine.tmap th.regs f } := by
  refine ⟨fun q => ?_, rfl⟩
  rw [tget_tmap]
  exact CellsLike.map _ (f q) (h q)
theorem Alike.ite {p : Prop} [Decidable p] {th a b : Thread} (h : Alike th a) (k : Alike th b) : Alike th (if p then a else b) := by
  split
  · exact h
  · exact k

/-! ### Tags -/

theorem foldl_stays {α : Type} (t : Nat) (f : Core → α → Core) (h : ∀ c x, Stays t c.threads (f c x).threads) (l : List α) (c : Core) :
    Stays t c.threads (l.foldl f c).threads := by
  induction l generalizing c with
  | nil => exact Stays.refl t _
  | cons x l ih => exact (h c x).trans (ih _)
theorem retag_stays (u : Bool) (w : List Nat) (c : Core) (r t : Nat) : Stays t c.threads (retag u w c r).threads := by
  unfold retag
  extract_lets sheaves c'
  have h1 : Stays t c.threads c'.threads := by
    simp only [c']
    refine Stays.tmap _ _ _ fun th => ?_
    exact Alike.ite (Alike.setTag ..) (Alike.refl th)
  refine h1.trans (foldl_stays t _ ?_ _ _)
  intro c k
  dsimp only
  refine Stays.tmap _ _ _ fun th => ?_
  exact Alike.ite (Alike.setTag ..) (Alike.refl th)
theorem retag_fsbase (u : Bool) (w : List Nat) (c : Core) (r : Nat) : (retag u w c r).fsbase = c.fsbase := by
  unfold retag
  extract_lets sheaves c'
  have h : ∀ (l : List Nat) (d : Core), d.fsbase = c.fsbase → (l.foldl (fun c k =>
      let mem := members c k
      let tag := writeTag u r mem w
      let uni := decide (mem.length > 1) && decide (tag ≠ .general)
      { c with threads := tmap c.threads fun _ th => if th.sheaf == some k then setTag th r tag uni else th }) d).fsbase = c.fsbase := by
    intro l
    induction l with
    | nil => exact fun d hd => hd
    | cons k l ih => exact fun d hd => ih _ hd
  exact h _ c' rfl
theorem retagGeneral_stays (w : List Nat) (c : Core) (r t : Nat) : Stays t c.threads (retagGeneral w c r).threads := by
  unfold retagGeneral
  dsimp only
  refine Stays.tmap _ _ _ fun th => ?_
  exact Alike.ite (Alike.setTag ..) (Alike.refl th)

/-! ### The state's threads -/

/-- Thread t of core ci stays from one state to the next. -/
def StaysS (ci t : Nat) (s s' : State) : Prop := Stays t (getCore s ci).threads (getCore s' ci).threads
theorem StaysS.refl (ci t : Nat) (s : State) : StaysS ci t s s := Stays.refl _ _
theorem StaysS.trans {ci t : Nat} {a b c : State} (h : StaysS ci t a b) (k : StaysS ci t b c) : StaysS ci t a c := Stays.trans h k
theorem StaysS.of (ci t : Nat) {s s' : State} (h : SameCores s s') : StaysS ci t s s' := by
  unfold StaysS
  rw [h.getCore]
  exact Stays.refl _ _
theorem StaysS.putCore {ci t : Nat} {s : State} {c : Core} (h : Stays t (getCore s ci).threads c.threads) :
    StaysS ci t s (Machine.putCore s ci c) := by
  unfold StaysS
  rw [getCore_putCore_self]
  exact h
theorem StaysS.mem {ci t : Nat} {s s' : State} (m : List Host.Cell) (h : StaysS ci t s s') : StaysS ci t s { s' with mem := m } := h
theorem StaysS.ite {p : Prop} [Decidable p] {ci t : Nat} {s a b : State} (h : StaysS ci t s a) (k : StaysS ci t s b) :
    StaysS ci t s (if p then a else b) := by
  split
  · exact h
  · exact k
theorem StaysS.foldl {α : Type} (ci t : Nat) (f : State → α → State) (l : List α) (h : ∀ s, ∀ x ∈ l, StaysS ci t s (f s x)) (s : State) :
    StaysS ci t s (l.foldl f s) := by
  induction l generalizing s with
  | nil => exact StaysS.refl _ _ _
  | cons x l ih => exact (h s x (List.mem_cons_self ..)).trans (ih (fun s y hy => h s y (List.mem_cons_of_mem _ hy)) _)
theorem StaysS.foldr {α : Type} (ci t : Nat) (f : α → State → State) (l : List α) (h : ∀ s, ∀ x ∈ l, StaysS ci t s (f x s)) (s : State) :
    StaysS ci t s (l.foldr f s) := by
  induction l with
  | nil => exact StaysS.refl _ _ _
  | cons x l ih => exact (ih fun s y hy => h s y (List.mem_cons_of_mem _ hy)).trans (h _ x (List.mem_cons_self ..))
/-- Updating a list of other threads leaves this one. -/
theorem updThreads_stays (s : State) (ci t : Nat) (l : List Nat) (f : Thread → Thread) (h : t ∉ l ∨ ∀ th, Alike th (f th)) :
    StaysS ci t s (updThreads s ci l f) := by
  apply StaysS.putCore
  dsimp only
  apply Stays.tmap
  intro th
  rcases h with h | h
  · rw [if_neg (by simpa using h)]
    exact Alike.refl th
  · exact Alike.ite (h th) (Alike.refl th)
theorem updThreads'_stays (s : State) (ci t : Nat) (l : List Nat) (f : Nat → Thread → Thread) (h : ∀ th, Alike th (f t th)) :
    StaysS ci t s (updThreads' s ci l f) := by
  apply StaysS.putCore
  dsimp only
  refine Stays.tmap _ _ _ fun th => ?_
  exact Alike.ite (h th) (Alike.refl th)

/-! ### Banks -/

theorem freezePlot_stays (s : State) (ci pi g t : Nat) : StaysS ci t s (freezePlot s ci pi g) := by
  unfold freezePlot
  split
  · exact StaysS.refl _ _ _
  · refine StaysS.ite (StaysS.refl _ _ _) ?_
    refine StaysS.trans (b := updPlot s ci pi fun p => { p with frozen := some g }) (StaysS.putCore (Stays.refl _ _)) ?_
    exact StaysS.of _ _ (((SameCores.ite (by exact ⟨rfl, rfl⟩) (countDrop_same ..)).trans (ringPost_same ..)).trans (emitR_same ..))
/-- A thread stays, and spills do not fail afterwards either. -/
structure StaysOk (ci t : Nat) (s s' : State) : Prop where
  stays : StaysS ci t s s'
  ok : SpillsOk s' ci
theorem StaysOk.trans {ci t : Nat} {a b c : State} (h : StaysOk ci t a b) (k : StaysOk ci t b c) : StaysOk ci t a c := ⟨h.stays.trans k.stays, k.ok⟩
theorem fallowAt_ok {s : State} {ci : Nat} (h : SpillsOk s ci) (off n : Nat) : (fallowAt s ci off n).isSome = true := by
  obtain ⟨b, hb⟩ := Option.isSome_iff_exists.mp h.store
  unfold fallowAt
  simp [hb, lineBad, h.good]
/-- A state of the same fallow store, and without errors as before, spills as well. -/
theorem SpillsOk.of {s s' : State} {ci : Nat} (h : SpillsOk s ci) (hc : (getCore s' ci).fsbase = (getCore s ci).fsbase) (hb : s'.bad = s.bad) :
    SpillsOk s' ci := by
  refine ⟨?_, hb.trans h.good⟩
  have := h.store
  unfold fallowBase at this ⊢
  rwa [hc]
/-- A line put under a key changes memory and the keys of lines alone (R366). -/
theorem rekeyLine_eq (s : State) (key line : Nat) : ∃ m k, rekeyLine s key line = { s with mem := m, lineKeys := k } := by
  unfold rekeyLine
  split
  · exact ⟨s.mem, s.lineKeys, rfl⟩
  · exact ⟨_, _, rfl⟩
theorem foldl_rekeyLine_eq (key : Nat) (l : List Nat) (s : State) :
    ∃ m k, l.foldl (fun s x => rekeyLine s key x) s = { s with mem := m, lineKeys := k } := by
  induction l generalizing s with
  | nil => exact ⟨s.mem, s.lineKeys, rfl⟩
  | cons x l ih =>
    obtain ⟨m, k, h⟩ := rekeyLine_eq s key x
    obtain ⟨m', k', h'⟩ := ih { s with mem := m, lineKeys := k }
    exact ⟨m', k', by rw [List.foldl_cons, h, h']⟩
/-- A write under a key does so too. -/
theorem keyedWrite_eq (s : State) (key pa : Nat) (l : List Byte) : ∃ m k, keyedWrite s key pa l = { s with mem := m, lineKeys := k } := by
  unfold keyedWrite
  obtain ⟨m, k, h⟩ := foldl_rekeyLine_eq key ((List.range ((pa % 128 + l.length + 127) / 128)).map fun i => (pa / 128 + i) * 128) s
  exact ⟨memWrite m pa l, k, by simp only [h]; rfl⟩
theorem fallowPut_eq (s : State) (a : Nat) (w : Word) : ∃ m k, fallowPut s a w = { s with mem := m, lineKeys := k } := keyedWrite_eq ..
theorem getCore_fallowPut (s : State) (a : Nat) (w : Word) (ci : Nat) : getCore (fallowPut s a w) ci = getCore s ci := by
  obtain ⟨m, k, h⟩ := fallowPut_eq s a w
  rw [h]
  rfl
theorem fallowPut_bad (s : State) (a : Nat) (w : Word) : (fallowPut s a w).bad = s.bad := by
  obtain ⟨m, k, h⟩ := fallowPut_eq s a w
  rw [h]
theorem StaysS.fallow {ci t : Nat} {s s' : State} (a : Nat) (w : Word) (h : StaysS ci t s s') : StaysS ci t s (fallowPut s' a w) := by
  unfold StaysS at h ⊢
  rwa [getCore_fallowPut]
/-- The victim has the register that is evicted. -/
theorem evictLane_stays (s : State) (ci tid r t : Nat) (h : SpillsOk s ci) (ht : (tget (getCore s ci).threads tid).isSome = true) :
    StaysOk ci t s (evictLane s ci tid r) := by
  obtain ⟨th, ht⟩ := Option.isSome_iff_exists.mp ht
  obtain ⟨a, ha⟩ := Option.isSome_iff_exists.mp (fallowAt_ok h (tid * 256 + r * 4) 4)
  unfold evictLane
  simp only [ha, ht]
  exact ⟨StaysS.fallow _ _ (StaysS.putCore (Stays.tupd _ _ _ _ fun th => Alike.tupd th r _ CellLike.toFallow)),
    h.of (by rw [getCore_fallowPut, getCore_putCore_self]; rfl) (by rw [fallowPut_bad]; rfl)⟩
theorem evictUni_stays (s : State) (ci k r t : Nat) (h : SpillsOk s ci)
    (hm : ((members (getCore s ci) k).find? fun m => (tget m.2.regs r).isSome).isSome = true) : StaysOk ci t s (evictUni s ci k r) := by
  obtain ⟨m, hm⟩ := Option.isSome_iff_exists.mp hm
  obtain ⟨a, ha⟩ := Option.isSome_iff_exists.mp (fallowAt_ok h (2 ^ 16 + k * 512 + r * 8) 8)
  unfold evictUni
  simp only [ha, hm]
  refine ⟨StaysS.fallow _ _ (StaysS.fallow _ _ (StaysS.putCore ?_)),
    h.of (by rw [getCore_fallowPut, getCore_fallowPut, getCore_putCore_self]) (by rw [fallowPut_bad, fallowPut_bad]; rfl)⟩
  dsimp only
  refine Stays.tmap _ _ _ fun th => Alike.ite ?_ (Alike.refl th)
  refine Alike.tupd th r _ fun c => ?_
  split
  · exact CellLike.toFallow c
  · exact CellLike.refl c

/-! ### Victims are there -/

theorem tget_mem {α : Type} (t : Tbl α) (k : Nat) (v : α) (h : tget t k = some v) : (k, v) ∈ t := by
  induction t with
  | nil => simp at h
  | cons e t ih =>
    obtain ⟨j, w⟩ := e
    simp only [tget] at h
    split at h
    · rename_i hj
      subst hj
      simp only [Option.some.injEq] at h
      subst h
      exact List.mem_cons_self ..
    · exact List.mem_cons_of_mem _ (ih h)
theorem mem_tget {α : Type} (t : Tbl α) (e : Nat × α) (h : e ∈ t) : (tget t e.1).isSome = true := by
  induction t with
  | nil => simp at h
  | cons x t ih =>
    obtain ⟨j, w⟩ := x
    simp only [tget]
    split
    · rfl
    · rename_i hj
      rcases List.mem_cons.mp h with rfl | h
      · exact absurd rfl hj
      · exact ih h
theorem mem_tput {α : Type} (t : Tbl α) (k : Nat) (v : α) (e : Nat × α) (h : e ∈ tput t k v) : e = (k, v) ∨ e ∈ t := by
  induction t with
  | nil =>
    simp [tput] at h
    exact .inl h
  | cons x t ih =>
    obtain ⟨j, w⟩ := x
    unfold tput at h
    split at h
    · rcases List.mem_cons.mp h with rfl | h
      · exact .inl rfl
      · exact .inr (List.mem_cons_of_mem _ h)
    · split at h
      · rcases List.mem_cons.mp h with rfl | h
        · exact .inl rfl
        · exact .inr h
      · rcases List.mem_cons.mp h with rfl | h
        · exact .inr (List.mem_cons_self ..)
        · rcases ih h with h | h
          · exact .inl h
          · exact .inr (List.mem_cons_of_mem _ h)
theorem foldl_pick_mem {α : Type} (g : α → α → Bool) (l : List α) (x : α) : l.foldl (fun a b => if g a b then b else a) x ∈ x :: l := by
  induction l generalizing x with
  | nil => simp
  | cons y l ih =>
    simp only [List.foldl_cons]
    have := ih (if g x y then y else x)
    rcases List.mem_cons.mp this with h | h
    · rw [h]
      split <;> simp
    · simp [h]
theorem evictable_isSome (th : Thread) (u : Bool) (keep : List Nat) (r : Nat) (h : evictable th u keep = some r) : (tget th.regs r).isSome = true := by
  unfold evictable at h
  obtain ⟨e, he, rfl⟩ := Option.map_eq_some_iff.mp h
  exact mem_tget _ _ (List.mem_of_mem_filter (List.mem_of_getLast? he))
theorem laneVictim_is (c : Core) (lane : Nat) (keep : Nat → List Nat) (fresh : Nat → Nat) (t r : Nat) (h : laneVictim c lane keep fresh = some (t, r)) :
    ∃ e ∈ c.threads, e.1 = t ∧ (tget e.2.regs r).isSome = true := by
  unfold laneVictim at h
  extract_lets old cands at h
  cases hc : cands with
  | nil => simp [hc] at h
  | cons x l =>
    simp only [hc, Option.some.injEq] at h
    have hm := foldl_pick_mem (fun (a b : (Nat × Nat) × Bool × Nat × Nat) => betterVictim b.2 a.2) l x
    rw [← hc] at hm
    simp only [cands, List.mem_filterMap] at hm
    obtain ⟨e, he, hx⟩ := hm
    split at hx
    · obtain ⟨q, hq, hy⟩ := Option.map_eq_some_iff.mp hx
      have h1 := congrArg (·.1) hy
      simp only at h1
      rw [h] at h1
      simp only [Prod.mk.injEq] at h1
      exact ⟨e, he, h1.1, by rw [← h1.2]; exact evictable_isSome _ _ _ _ hq⟩
    · simp at hx
theorem uniRegs_isSome (th : Thread) (x : Nat × Nat) (h : x ∈ uniRegs th) : (tget th.regs x.1).isSome = true := by
  unfold uniRegs at h
  obtain ⟨e, he, hx⟩ := List.mem_filterMap.mp h
  split at hx
  · simp only [Option.some.injEq] at hx
    rw [← hx]
    exact mem_tget _ _ he
  · simp at hx
theorem uniVictim_is (c : Core) (slot : Nat) (keep : Nat → List Nat) (k r : Nat) (h : uniVictim c slot keep = some (k, r)) :
    ((members c k).find? fun m => (tget m.2.regs r).isSome).isSome = true := by
  unfold uniVictim at h
  extract_lets old cands at h
  cases hc : cands with
  | nil => simp [hc] at h
  | cons x l =>
    simp only [hc, Option.some.injEq] at h
    have hm := foldl_pick_mem (fun (a b : (Nat × Nat) × Bool × Nat × Nat) => betterVictim b.2 a.2) l x
    rw [← hc] at hm
    simp only [cands, List.mem_filterMap] at hm
    obtain ⟨j, _, hx⟩ := hm
    split at hx
    · simp at hx
    · obtain ⟨q, hq, hy⟩ := Option.map_eq_some_iff.mp hx
      have h1 := congrArg (·.1) hy
      simp only at h1
      rw [h] at h1
      simp only [Prod.mk.injEq] at h1
      obtain ⟨rfl, rfl⟩ := h1
      have hq' := List.mem_of_mem_filter (List.max?_mem hq)
      obtain ⟨y, hy, hyq⟩ := List.mem_map.mp hq'
      obtain ⟨m, hmm, hmy⟩ := List.mem_flatMap.mp (List.mem_eraseDups.mp hy)
      rw [List.find?_isSome]
      exact ⟨m, hmm, by rw [← hyq]; exact uniRegs_isSome _ _ hmy⟩

/-! ### Settling -/

theorem settleLane_stays (ci lane t : Nat) (keep : Nat → List Nat) (fresh : Nat → Nat) (n : Nat) (s : State) (h : SpillsOk s ci) :
    StaysOk ci t s (settleLane ci lane keep fresh n s).1 := by
  induction n generalizing s with
  | zero => exact ⟨StaysS.refl _ _ _, h⟩
  | succ n ih =>
    unfold settleLane
    extract_lets c
    split
    · exact ⟨StaysS.refl _ _ _, h⟩
    · split
      · exact ⟨StaysS.refl _ _ _, h⟩
      · rename_i u r hv
        obtain ⟨e, he, rfl, hr⟩ := laneVictim_is _ _ _ _ _ _ hv
        have h1 := evictLane_stays s ci e.1 r t h (mem_tget _ _ he)
        simp only [Option.isNone_iff_eq_none, Option.isSome_iff_ne_none.mp (fallowAt_ok h _ _), if_false]
        exact h1.trans (ih _ h1.ok)
theorem settleUni_stays (ci slot t : Nat) (keep : Nat → List Nat) (n : Nat) (s : State) (h : SpillsOk s ci) :
    StaysOk ci t s (settleUni ci slot keep n s).1 := by
  induction n generalizing s with
  | zero => exact ⟨StaysS.refl _ _ _, h⟩
  | succ n ih =>
    unfold settleUni
    extract_lets c
    split
    · exact ⟨StaysS.refl _ _ _, h⟩
    · split
      · exact ⟨StaysS.refl _ _ _, h⟩
      · rename_i k r hv
        have h1 := evictUni_stays s ci k r t h (uniVictim_is _ _ _ _ _ hv)
        simp only [Option.isNone_iff_eq_none, Option.isSome_iff_ne_none.mp (fallowAt_ok h _ _), if_false]
        exact h1.trans (ih _ h1.ok)
theorem foldPair_stays (ci t : Nat) (g : Nat → State → State × Nat) (h : ∀ l s, SpillsOk s ci → StaysOk ci t s (g l s).1) (ls : List Nat)
    (a : State × Nat) (ha : SpillsOk a.1 ci) : StaysOk ci t a.1 (ls.foldl (fun (a : State × Nat) l => let x := g l a.1; (x.1, a.2 + x.2)) a).1 := by
  induction ls generalizing a with
  | nil => exact ⟨StaysS.refl _ _ _, ha⟩
  | cons l ls ih =>
    have h1 := h l a.1 ha
    exact h1.trans (ih ((g l a.1).1, a.2 + (g l a.1).2) h1.ok)
/-- Where spills do not fail, bringing banks back within their bounds leaves every thread alike. -/
theorem settleBanks_stays (old : Core) (s : State) (ci : Nat) (tids : List Nat) (keep : Nat → List Nat) (n t : Nat) (h : SpillsOk s ci) :
    StaysOk ci t s (settleBanks old s ci tids keep n).1 := by
  have h1 := foldPair_stays ci t (fun l u => settleLane ci l keep (freshOf old (getCore s ci)) n u) (fun l s h => settleLane_stays ci l t keep _ n s h) (tids.map laneOf).eraseDups (s, 0) h
  exact h1.trans (foldPair_stays ci t (fun k s => settleUni ci k keep n s) (fun k s h => settleUni_stays ci k t keep n s h) _ _ h1.ok)

/-! ### Faults of other threads -/

theorem fragPending_stays (s : State) (ci e t : Nat) : StaysS ci t s (fragPending s ci e) := by
  unfold fragPending
  extract_lets c
  split
  · exact StaysS.refl _ _ _
  · extract_lets s' b
    exact StaysS.trans (b := s') (StaysS.putCore (Stays.refl _ _)) (StaysS.ite (freezePlot_stays ..) (StaysS.refl _ _ _))
theorem showCause_stays (s : State) (ci e t : Nat) : StaysS ci t s (showCause s ci e) := by
  unfold showCause
  split
  · exact StaysS.refl _ _ _
  · exact updThreads'_stays _ _ _ _ _ fun th => ⟨fun _ => CellsLike.refl _, rfl⟩
theorem joinPending_stays (s : State) (ci pi g t : Nat) (mem : List Nat) : StaysS ci t s (joinPending s ci pi g mem) := by
  unfold joinPending
  exact StaysS.ite (freezePlot_stays ..) (StaysS.refl _ _ _)
theorem placeEngine_stays (s : State) (ci e t : Nat) (fr : Frag) : StaysS ci t s (placeEngine s ci e fr) := by
  unfold placeEngine
  extract_lets c gen s1 s2
  have h1 : StaysS ci t s s1 := StaysS.putCore (Stays.refl _ _)
  have h2 : StaysS ci t s s2 := h1.trans (StaysS.of _ _ (emitR_same ..))
  exact StaysS.ite (h2.trans (StaysS.of _ _ ⟨rfl, rfl⟩)) (h2.trans (fragPending_stays ..))
theorem freeFrag_stays (s : State) (ci e t : Nat) : StaysS ci t s (freeFrag s ci e) := by
  unfold freeFrag
  extract_lets c c2
  split
  · exact StaysS.putCore (Stays.refl _ _)
  · rename_i w rest hw
    have h1 (d : Core) (hd : d.threads = c.threads) : StaysS ci t s (putCore s ci d) := StaysS.putCore (by rw [hd]; exact Stays.refl _ _)
    exact StaysS.ite (h1 c2 rfl) ((h1 { c2 with fragWait := rest } rfl).trans (placeEngine_stays ..))
theorem askService_stays (s : State) (ci e t : Nat) : StaysS ci t s (askService s ci e) := by
  unfold askService
  extract_lets c
  split
  · exact StaysS.refl _ _ _
  · extract_lets s'
    exact StaysS.trans (b := s') (StaysS.putCore (Stays.refl _ _)) (StaysS.of _ _ ⟨rfl, rfl⟩)
theorem parkGroup_stays (s : State) (ci t : Nat) (l : List (Nat × FaultRec)) (h : t ∉ l.map (·.1)) : StaysS ci t s (parkGroup s ci l) := by
  unfold parkGroup
  split
  · exact StaysS.refl _ _ _
  · extract_lets c plot mem det free e old gen joins svc frag c' s1 s2 s3
    have h1 : StaysS ci t s s1 := by
      apply StaysS.putCore
      simp only [c']
      apply Stays.tmap
      intro th
      rw [if_neg (by simpa [mem] using h)]
      exact Alike.refl th
    have h2 : StaysS ci t s s2 := h1.trans (StaysS.of _ _ (SameCores.ite (SameCores.refl _) (emitR_same ..)))
    have h3 : StaysS ci t s s3 := h2.trans (StaysS.of _ _ (SameCores.ite ⟨rfl, rfl⟩ (SameCores.refl _)))
    refine StaysS.ite (h3.trans (askService_stays ..)) (StaysS.ite ((h3.trans (showCause_stays ..)).trans (joinPending_stays ..)) ?_)
    exact (h3.trans (showCause_stays ..)).trans (fragPending_stays ..)
theorem stepLeft_stays (s : State) (ci e t : Nat) : StaysS ci t s (stepLeft s ci e) := by
  unfold stepLeft
  extract_lets c
  split
  · exact StaysS.refl _ _ _
  · exact StaysS.ite (freeFrag_stays ..) (StaysS.ite (StaysS.ite (askService_stays ..) (fragPending_stays ..)) (StaysS.refl _ _ _))
theorem stepFault_stays (s : State) (ci u t : Nat) (f : FaultRec) (h : t ≠ u) : StaysS ci t s (stepFault s ci u f) := by
  unfold stepFault
  extract_lets c
  split
  · exact StaysS.refl _ _ _
  · exact StaysS.trans (StaysS.putCore (Stays.tupd_ne _ _ _ _ h)) (stepLeft_stays ..)
/-- The faults of other threads leave a thread alike. -/
theorem takeFaults_stays (s : State) (ci t : Nat) (l : List (Nat × FaultRec)) (h : t ∉ l.map (·.1)) : StaysS ci t s (takeFaults s ci l) := by
  have hne : ∀ x ∈ l, t ≠ x.1 := fun x hx e => h (by rw [e]; exact List.mem_map_of_mem hx)
  unfold takeFaults
  extract_lets stepped rest s'
  have h1 : StaysS ci t s s' := StaysS.foldr ci t _ _ (fun s x hx => stepFault_stays s ci x.1 t x.2 (hne x (List.mem_of_mem_filter hx))) s
  refine h1.trans (StaysS.foldl ci t _ _ (fun s k _ => parkGroup_stays s ci t _ ?_) _)
  intro hm
  obtain ⟨x, hx, hxt⟩ := List.mem_map.mp hm
  exact hne x (List.mem_of_mem_filter (List.mem_of_mem_filter hx)) hxt.symm
theorem stepDone_stays (s : State) (ci u t : Nat) (h : t ≠ u) : StaysS ci t s (stepDone s ci u) := by
  unfold stepDone
  extract_lets c
  split
  · exact StaysS.refl _ _ _
  · split
    · exact StaysS.refl _ _ _
    · split
      · exact StaysS.refl _ _ _
      · extract_lets db left f1 f2 th2 s2
        have : StaysS ci t s s2 := StaysS.putCore (Stays.tput_ne _ _ _ _ h)
        exact StaysS.ite (this.trans (fragPending_stays ..)) this
theorem drillDone_stays (s : State) (n t : Nat) : StaysS s.cur.core t s (drillDone s n) := by
  apply StaysS.trans (b := { s with free := s.free + 1 }) (StaysS.of _ _ ⟨rfl, rfl⟩)
  refine StaysS.putCore ?_
  dsimp only
  split <;> exact Stays.refl _ _

end Sys2Proof.Machine
end

