-- ==== Sys2Proof/Laws/Quiet.lean ====
section
/-!
SUPPORT. What the banks, the taking of faults and the end of a drill leave of the state outside the cores: they touch memory (the fallow
store and the host event ring), the window-0 words that count, the recorder's ports, the frozen list and the events for firmware.
-/
namespace Sys2Proof.Machine
open Sys2Proof

/-- The state without what banks, faults and the end of a drill may touch. -/
def outer (s : State) : State :=
  { s with cores := [], mem := [], lineKeys := [], w0 := [], ports := [], frozen := [], fwEvents := [], overflowed := false, free := 0 }
/-- Everything else is the same. -/
structure Quiet (s s' : State) : Prop where
  out : outer s' = outer s
theorem Quiet.refl (s : State) : Quiet s s := ⟨rfl⟩
theorem Quiet.trans {a b c : State} (h : Quiet a b) (k : Quiet b c) : Quiet a c := ⟨k.out.trans h.out⟩
theorem Quiet.ite {p : Prop} [Decidable p] {s a b : State} (h : Quiet s a) (k : Quiet s b) : Quiet s (if p then a else b) := by
  split
  · exact h
  · exact k
theorem Quiet.foldl {α : Type} (f : State → α → State) (h : ∀ s x, Quiet s (f s x)) (l : List α) (s : State) : Quiet s (l.foldl f s) := by
  induction l generalizing s with
  | nil => exact Quiet.refl _
  | cons x l ih => exact (h s x).trans (ih _)
theorem Quiet.foldr {α : Type} (f : α → State → State) (h : ∀ s x, Quiet s (f x s)) (l : List α) (s : State) : Quiet s (l.foldr f s) := by
  induction l with
  | nil => exact Quiet.refl _
  | cons x l ih => exact ih.trans (h _ x)
theorem Quiet.of {α : Type} (g : State → α) (hg : ∀ s, g (outer s) = g s) {a b : State} (h : Quiet a b) : g b = g a := by
  rw [← hg b, h.out, hg a]
theorem Quiet.ticks {a b : State} (h : Quiet a b) : b.ticks = a.ticks := h.of State.ticks fun _ => rfl
theorem Quiet.now {a b : State} (h : Quiet a b) : b.now = a.now := h.of State.now fun _ => rfl
theorem Quiet.clusters {a b : State} (h : Quiet a b) : b.clusters = a.clusters := h.of State.clusters fun _ => rfl
theorem Quiet.bad {a b : State} (h : Quiet a b) : b.bad = a.bad := h.of State.bad fun _ => rfl
theorem Quiet.homes {a b : State} (h : Quiet a b) : b.homes = a.homes := h.of State.homes fun _ => rfl
theorem Quiet.l2 {a b : State} (h : Quiet a b) : b.l2 = a.l2 := h.of State.l2 fun _ => rfl
theorem Quiet.reqs {a b : State} (h : Quiet a b) : b.reqs = a.reqs := h.of State.reqs fun _ => rfl
theorem Quiet.nextId {a b : State} (h : Quiet a b) : b.nextId = a.nextId := h.of State.nextId fun _ => rfl
theorem Quiet.queues {a b : State} (h : Quiet a b) : b.queues = a.queues := h.of State.queues fun _ => rfl
theorem Quiet.runs {a b : State} (h : Quiet a b) : b.runs = a.runs := h.of State.runs fun _ => rfl
theorem Quiet.runNo {a b : State} (h : Quiet a b) : b.runNo = a.runNo := h.of State.runNo fun _ => rfl
theorem Quiet.nodeCache {a b : State} (h : Quiet a b) : b.nodeCache = a.nodeCache := h.of State.nodeCache fun _ => rfl
theorem Quiet.hdrCache {a b : State} (h : Quiet a b) : b.hdrCache = a.hdrCache := h.of State.hdrCache fun _ => rfl
theorem Quiet.staged {a b : State} (h : Quiet a b) : b.staged = a.staged := h.of State.staged fun _ => rfl
theorem Quiet.walked {a b : State} (h : Quiet a b) : b.walked = a.walked := h.of State.walked fun _ => rfl
theorem Quiet.savedParts {a b : State} (h : Quiet a b) : b.savedParts = a.savedParts := h.of State.savedParts fun _ => rfl
theorem Quiet.resHeld {a b : State} (h : Quiet a b) : b.resHeld = a.resHeld := h.of State.resHeld fun _ => rfl
theorem Quiet.fwCores {a b : State} (h : Quiet a b) : b.fwCores = a.fwCores := h.of State.fwCores fun _ => rfl
theorem Quiet.pageReqs {a b : State} (h : Quiet a b) : b.pageReqs = a.pageReqs := h.of State.pageReqs fun _ => rfl
theorem Quiet.nextReq {a b : State} (h : Quiet a b) : b.nextReq = a.nextReq := h.of State.nextReq fun _ => rfl
theorem Quiet.launchWaits {a b : State} (h : Quiet a b) : b.launchWaits = a.launchWaits := h.of State.launchWaits fun _ => rfl
theorem Quiet.comms {a b : State} (h : Quiet a b) : b.comms = a.comms := h.of State.comms fun _ => rfl
theorem Quiet.collHeld {a b : State} (h : Quiet a b) : b.collHeld = a.collHeld := h.of State.collHeld fun _ => rfl
theorem Quiet.stepNos {a b : State} (h : Quiet a b) : b.stepNos = a.stepNos := h.of State.stepNos fun _ => rfl
theorem Quiet.routes0 {a b : State} (h : Quiet a b) : b.routes0 = a.routes0 := h.of State.routes0 fun _ => rfl
theorem Quiet.routes1 {a b : State} (h : Quiet a b) : b.routes1 = a.routes1 := h.of State.routes1 fun _ => rfl
theorem Quiet.routeBank {a b : State} (h : Quiet a b) : b.routeBank = a.routeBank := h.of State.routeBank fun _ => rfl
theorem Quiet.packets {a b : State} (h : Quiet a b) : b.packets = a.packets := h.of State.packets fun _ => rfl
theorem Quiet.ways {a b : State} (h : Quiet a b) : b.ways = a.ways := h.of State.ways fun _ => rfl
theorem Quiet.credit {a b : State} (h : Quiet a b) : b.credit = a.credit := h.of State.credit fun _ => rfl
theorem Quiet.keys {a b : State} (h : Quiet a b) : b.keys = a.keys := h.of State.keys fun _ => rfl
theorem Quiet.frozenStreams {a b : State} (h : Quiet a b) : b.frozenStreams = a.frozenStreams := h.of State.frozenStreams fun _ => rfl
theorem Quiet.heldRequests {a b : State} (h : Quiet a b) : b.heldRequests = a.heldRequests := h.of State.heldRequests fun _ => rfl
theorem Quiet.sec {a b : State} (h : Quiet a b) : b.sec = a.sec := h.of State.sec fun _ => rfl
theorem Quiet.disc {a b : State} (h : Quiet a b) : b.disc = a.disc := h.of State.disc fun _ => rfl
theorem Quiet.segments {a b : State} (h : Quiet a b) : b.segments = a.segments := h.of State.segments fun _ => rfl
theorem Quiet.granarySig {a b : State} (h : Quiet a b) : b.granarySig = a.granarySig := h.of State.granarySig fun _ => rfl
theorem Quiet.lastTime {a b : State} (h : Quiet a b) : b.lastTime = a.lastTime := h.of State.lastTime fun _ => rfl
theorem Quiet.interval {a b : State} (h : Quiet a b) : b.interval = a.interval := h.of State.interval fun _ => rfl
theorem Quiet.sumAt {a b : State} (h : Quiet a b) : b.sumAt = a.sumAt := h.of State.sumAt fun _ => rfl
theorem Quiet.rails {a b : State} (h : Quiet a b) : b.rails = a.rails := h.of State.rails fun _ => rfl
theorem Quiet.tripped {a b : State} (h : Quiet a b) : b.tripped = a.tripped := h.of State.tripped fun _ => rfl
theorem Quiet.railFault {a b : State} (h : Quiet a b) : b.railFault = a.railFault := h.of State.railFault fun _ => rfl
theorem Quiet.mgmt {a b : State} (h : Quiet a b) : b.mgmt = a.mgmt := h.of State.mgmt fun _ => rfl
theorem Quiet.hostRead {a b : State} (h : Quiet a b) : b.hostRead = a.hostRead := h.of State.hostRead fun _ => rfl
theorem Quiet.wrOff {a b : State} (h : Quiet a b) : b.wrOff = a.wrOff := h.of State.wrOff fun _ => rfl
theorem Quiet.wrVal {a b : State} (h : Quiet a b) : b.wrVal = a.wrVal := h.of State.wrVal fun _ => rfl
theorem Quiet.winGwct {a b : State} (h : Quiet a b) : b.winGwct = a.winGwct := h.of State.winGwct fun _ => rfl
theorem Quiet.mig {a b : State} (h : Quiet a b) : b.mig = a.mig := h.of State.mig fun _ => rfl
theorem Quiet.inval {a b : State} (h : Quiet a b) : b.inval = a.inval := h.of State.inval fun _ => rfl
theorem Quiet.agenda {a b : State} (h : Quiet a b) : b.agenda = a.agenda := h.of State.agenda fun _ => rfl
theorem Quiet.issued {a b : State} (h : Quiet a b) : b.issued = a.issued := h.of State.issued fun _ => rfl
theorem Quiet.cur {a b : State} (h : Quiet a b) : b.cur = a.cur := h.of State.cur fun _ => rfl
theorem Quiet.curLen {a b : State} (h : Quiet a b) : b.curLen = a.curLen := h.of State.curLen fun _ => rfl

theorem putCore_quiet (s : State) (ci : Nat) (c : Core) : Quiet s (putCore s ci c) := ⟨rfl⟩
theorem updCore_quiet (s : State) (ci : Nat) (f : Core → Core) : Quiet s (updCore s ci f) := ⟨rfl⟩
theorem updThreads_quiet (s : State) (ci : Nat) (l : List Nat) (f : Thread → Thread) : Quiet s (updThreads s ci l f) := ⟨rfl⟩
theorem updThreads'_quiet (s : State) (ci : Nat) (l : List Nat) (f : Nat → Thread → Thread) : Quiet s (updThreads' s ci l f) := ⟨rfl⟩
theorem physWrite_quiet (s : State) (a : Nat) (l : List Byte) : Quiet s (physWrite s a l) := ⟨rfl⟩
theorem setReg32_quiet (s : State) (o : Nat) (v : Word) : Quiet s (setReg32 s o v) := ⟨rfl⟩
theorem countDrop_quiet (s : State) (k : Nat) : Quiet s (countDrop s k) := Quiet.ite (Quiet.refl s) (setReg32_quiet ..)
theorem emitRec_quiet (s : State) (r : Rec) : Quiet s (emitRec s r) := Quiet.ite (countDrop_quiet ..) ⟨rfl⟩
theorem emitR_quiet (s : State) (u : Word) (t : Nat) (c : DWord) (p f : Nat) : Quiet s (emitR s u t c p f) := emitRec_quiet ..
theorem ringWrite_quiet (s : State) (q k : Nat) (t : Word) (d n : Nat) : Quiet s (ringWrite s q k t d n) := by
  unfold ringWrite
  extract_lets lg n' a w3 s'
  exact (physWrite_quiet s _ _).trans (setReg32_quiet s' _ _)
theorem setOverflowed_quiet (s : State) (b : Bool) : Quiet s { s with overflowed := b } := ⟨rfl⟩
theorem setFrozen_quiet (s : State) (l : List Frozen) : Quiet s { s with frozen := l } := ⟨rfl⟩
theorem setFwEvents_quiet (s : State) (l : List FwEvent) : Quiet s { s with fwEvents := l } := ⟨rfl⟩
theorem ringPost_quiet (s : State) (q k : Nat) (t : Word) (d : Nat) : Quiet s (ringPost s q k t d) := by
  unfold ringPost
  refine Quiet.ite (Quiet.refl s) (Quiet.ite (ringWrite_quiet ..) ?_)
  extract_lets s'
  have h : Quiet s s' := Quiet.ite (countDrop_quiet ..) (setReg32_quiet ..)
  refine Quiet.ite h (h.trans ?_)
  have k : Quiet s' (if ringFree s' ≥ 1 then ringWrite s' 0xFFFF 3 0 0 1 else s') := Quiet.ite (ringWrite_quiet ..) (Quiet.refl _)
  exact k.trans (setOverflowed_quiet _ true)
theorem freezePlot_quiet (s : State) (ci pi g : Nat) : Quiet s (freezePlot s ci pi g) := by
  unfold freezePlot
  split
  · exact Quiet.refl _
  · refine Quiet.ite (Quiet.refl _) ?_
    extract_lets s1 s2 s3
    have h1 : Quiet s s1 := updCore_quiet ..
    have h2 : Quiet s s2 := h1.trans (Quiet.ite (setFrozen_quiet ..) (countDrop_quiet ..))
    exact (h2.trans (ringPost_quiet ..)).trans (emitR_quiet ..)
theorem fragPending_quiet (s : State) (ci e : Nat) : Quiet s (fragPending s ci e) := by
  unfold fragPending
  extract_lets c
  split
  · exact Quiet.refl _
  · extract_lets s' b
    exact Quiet.trans (b := s') ⟨rfl⟩ (Quiet.ite (freezePlot_quiet ..) (Quiet.refl _))
theorem showCause_quiet (s : State) (ci e : Nat) : Quiet s (showCause s ci e) := by
  unfold showCause
  split
  · exact Quiet.refl _
  · exact updThreads'_quiet ..
theorem joinPending_quiet (s : State) (ci pi g : Nat) (mem : List Nat) : Quiet s (joinPending s ci pi g mem) := by
  unfold joinPending
  exact Quiet.ite (freezePlot_quiet ..) (Quiet.refl _)
theorem placeEngine_quiet (s : State) (ci e : Nat) (fr : Frag) : Quiet s (placeEngine s ci e fr) := by
  unfold placeEngine
  extract_lets c gen s1 s2
  have h1 : Quiet s s1 := putCore_quiet ..
  have h2 : Quiet s s2 := h1.trans (emitR_quiet ..)
  exact Quiet.ite (h2.trans (setFwEvents_quiet ..)) (h2.trans (fragPending_quiet ..))
theorem freeFrag_quiet (s : State) (ci e : Nat) : Quiet s (freeFrag s ci e) := by
  unfold freeFrag
  extract_lets c c2
  split
  · exact putCore_quiet ..
  · exact Quiet.ite (putCore_quiet ..) ((putCore_quiet ..).trans (placeEngine_quiet ..))
theorem askService_quiet (s : State) (ci e : Nat) : Quiet s (askService s ci e) := by
  unfold askService
  extract_lets c
  split
  · exact Quiet.refl _
  · exact ⟨rfl⟩
theorem parkGroup_quiet (s : State) (ci : Nat) (l : List (Nat × FaultRec)) : Quiet s (parkGroup s ci l) := by
  unfold parkGroup
  split
  · exact Quiet.refl _
  · extract_lets c plot mem det free e old gen joins svc frag c' s1 s2 s3
    have h1 : Quiet s s1 := ⟨rfl⟩
    have h2 : Quiet s s2 := h1.trans (Quiet.ite (Quiet.refl _) (emitR_quiet ..))
    have h3 : Quiet s s3 := h2.trans (Quiet.ite ⟨rfl⟩ (Quiet.refl _))
    refine Quiet.ite (h3.trans (askService_quiet ..)) (Quiet.ite ((h3.trans (showCause_quiet ..)).trans (joinPending_quiet ..)) ?_)
    exact (h3.trans (showCause_quiet ..)).trans (fragPending_quiet ..)
theorem stepLeft_quiet (s : State) (ci e : Nat) : Quiet s (stepLeft s ci e) := by
  unfold stepLeft
  extract_lets c
  split
  · exact Quiet.refl _
  · exact Quiet.ite (freeFrag_quiet ..) (Quiet.ite (Quiet.ite (askService_quiet ..) (fragPending_quiet ..)) (Quiet.refl _))
theorem stepFault_quiet (s : State) (ci u : Nat) (f : FaultRec) : Quiet s (stepFault s ci u f) := by
  unfold stepFault
  extract_lets c
  split
  · exact Quiet.refl _
  · exact Quiet.trans (putCore_quiet ..) (stepLeft_quiet ..)
theorem takeFaults_quiet (s : State) (ci : Nat) (l : List (Nat × FaultRec)) : Quiet s (takeFaults s ci l) := by
  unfold takeFaults
  extract_lets stepped rest s'
  have h1 : Quiet s s' := Quiet.foldr _ (fun s (x : Nat × FaultRec) => stepFault_quiet s ci x.1 x.2) _ s
  exact h1.trans (Quiet.foldl _ (fun s k => parkGroup_quiet s ci _) _ _)
theorem hardError_quiet (s : State) (ci : Nat) (plots who : List Nat) : Quiet s (hardError s ci plots who) := by
  have h1 : Quiet s { emitR s (unitCore ci none) 0x0405 0 with free := s.free + 2 } := (emitR_quiet s (unitCore ci none) 0x0405 0 0 0).trans ⟨rfl⟩
  exact (h1.trans (takeFaults_quiet _ ci _)).trans (Quiet.foldl (fun s p => freezePlot s ci p 12) (fun s x => freezePlot_quiet s ci x 12) plots _)
theorem coreError_quiet (s : State) (ci : Nat) (who : List Nat) : Quiet s (coreError s ci who) := hardError_quiet ..
theorem fallowPut_quiet (s : State) (a : Nat) (w : Word) : Quiet s (fallowPut s a w) := by
  obtain ⟨m, k, h⟩ := fallowPut_eq s a w
  rw [h]
  exact ⟨rfl⟩
theorem evictLane_quiet (s : State) (ci tid r : Nat) : Quiet s (evictLane s ci tid r) := by
  unfold evictLane
  extract_lets c
  split
  · exact (putCore_quiet ..).trans (fallowPut_quiet ..)
  · exact coreError_quiet ..
theorem evictUni_quiet (s : State) (ci k r : Nat) : Quiet s (evictUni s ci k r) := by
  unfold evictUni
  extract_lets c
  split
  · exact ((putCore_quiet ..).trans (fallowPut_quiet ..)).trans (fallowPut_quiet ..)
  · exact coreError_quiet ..
theorem settleLane_quiet (ci lane : Nat) (keep : Nat → List Nat) (fresh : Nat → Nat) (n : Nat) (s : State) :
    Quiet s (settleLane ci lane keep fresh n s).1 := by
  induction n generalizing s with
  | zero => exact Quiet.refl _
  | succ n ih =>
    unfold settleLane
    extract_lets c
    split
    · exact Quiet.refl _
    · split
      · exact Quiet.refl _
      · split
        · exact evictLane_quiet ..
        · exact (evictLane_quiet ..).trans (ih _)
theorem settleUni_quiet (ci slot : Nat) (keep : Nat → List Nat) (n : Nat) (s : State) : Quiet s (settleUni ci slot keep n s).1 := by
  induction n generalizing s with
  | zero => exact Quiet.refl _
  | succ n ih =>
    unfold settleUni
    extract_lets c
    split
    · exact Quiet.refl _
    · split
      · exact Quiet.refl _
      · split
        · exact evictUni_quiet ..
        · exact (evictUni_quiet ..).trans (ih _)
theorem foldPair_quiet (g : Nat → State → State × Nat) (h : ∀ l s, Quiet s (g l s).1) (ls : List Nat) (a : State × Nat) :
    Quiet a.1 (ls.foldl (fun (a : State × Nat) l => let x := g l a.1; (x.1, a.2 + x.2)) a).1 := by
  induction ls generalizing a with
  | nil => exact Quiet.refl _
  | cons l ls ih => exact (h l a.1).trans (ih ((g l a.1).1, a.2 + (g l a.1).2))
theorem settleBanks_quiet (old : Core) (s : State) (ci : Nat) (tids : List Nat) (keep : Nat → List Nat) (n : Nat) :
    Quiet s (settleBanks old s ci tids keep n).1 :=
  (foldPair_quiet (fun l u => settleLane ci l keep (freshOf old (getCore s ci)) n u) (fun l u => settleLane_quiet ci l keep _ n u) _ (s, 0)).trans
    (foldPair_quiet (fun k s => settleUni ci k keep n s) (fun k s => settleUni_quiet ci k keep n s) _ _)
theorem stepDone_quiet (s : State) (ci u : Nat) : Quiet s (stepDone s ci u) := by
  unfold stepDone
  extract_lets c
  split
  · exact Quiet.refl _
  · split
    · exact Quiet.refl _
    · split
      · exact Quiet.refl _
      · extract_lets db left f1 f2 th2 s2
        exact Quiet.ite (Quiet.trans (b := s2) ⟨rfl⟩ (fragPending_quiet ..)) ⟨rfl⟩
theorem drillDone_quiet (s : State) (n : Nat) : Quiet s (drillDone s n) := ⟨rfl⟩

end Sys2Proof.Machine
end

