-- ==== Sys2Proof/Laws/Drill.lean ====
section
/-!
SUPPORT. What carrying an instruction out by its drill does to each thread of it, for instructions that only compute, and what it leaves
alone (R12 to R16, R45, R48, R152, R302).
-/
namespace Sys2Proof.Machine
open Sys2Proof

/-! ### The threads of a drill -/

theorem mem_insertRank (x y : Nat × Thread) (l : List (Nat × Thread)) : y ∈ insertRank x l ↔ y = x ∨ y ∈ l := by
  induction l with
  | nil => simp [insertRank]
  | cons z l ih =>
    unfold insertRank
    split
    · simp
    · simp only [List.mem_cons, ih]
      tauto
theorem mem_drillOrder (y : Nat × Thread) (l : List (Nat × Thread)) : y ∈ drillOrder l ↔ y ∈ l := by
  induction l with
  | nil => simp [drillOrder]
  | cons x l ih =>
    have : drillOrder (x :: l) = insertRank x (drillOrder l) := rfl
    rw [this, mem_insertRank, ih, List.mem_cons]
/-- A thread of the drill is a thread of the core that qualifies, as the drill reads it (R12, R95). -/
theorem mem_drillThreads {i : Instr} {s : State} {t : Nat} {th : Thread} (h : (t, th) ∈ drillThreads i s) :
    ∃ th0, getThread s s.cur.core t = some th0 ∧ t ∈ s.cur.tids ∧ qualifies i s.cur.coll th0 = true ∧ th = undefReads s t th0 := by
  unfold drillThreads at h
  rw [mem_drillOrder, List.mem_filterMap] at h
  obtain ⟨u, hu, hx⟩ := h
  simp only [Option.bind_eq_some_iff] at hx
  obtain ⟨th0, h0, h1⟩ := hx
  split at h1
  · rename_i hq
    simp only [Option.some.injEq, Prod.mk.injEq] at h1
    obtain ⟨rfl, rfl⟩ := h1
    exact ⟨th0, h0, hu, hq, rfl⟩
  · simp at h1
/-- Each thread slot stands for one thread. -/
theorem drillThreads_unique {i : Instr} {s : State} {t : Nat} {a b : Thread} (ha : (t, a) ∈ drillThreads i s) (hb : (t, b) ∈ drillThreads i s) :
    a = b := by
  obtain ⟨a0, h1, _, _, h2⟩ := mem_drillThreads ha
  obtain ⟨b0, h3, _, _, h4⟩ := mem_drillThreads hb
  rw [h1] at h3
  rw [h2, h4, Option.some.inj h3]
theorem mem_active {i : Instr} {s : State} {t : Nat} {th : Thread} (h : (t, th) ∈ activeThreads i s) :
    (t, th) ∈ drillThreads i s ∧ actOn i th = true := by
  simpa [activeThreads] using h

/-! ### The parts of an instruction that only computes -/

/-- What a thread gets: its own fault, or its own part. -/
def ownFx (i : Instr) (f : Thread → Fx) (s : State) (act : List (Nat × Thread)) (th : Thread) : Fx :=
  match preFault i s act th with
  | some x => { fault := some x }
  | none => f th
/-- The parts of a drill whose instruction only computes: in the lane pipe each thread's own, in the uniform pipe one for all (R16). -/
def pureFxs (i : Instr) (f : Thread → Fx) (s : State) (act : List (Nat × Thread)) : List (Nat × Fx) :=
  if isUnif s && !ownParts i then
    match act.filter fun e => (preFault i s act e.2).isNone with
    | [] => act.map fun e => (e.1, { fault := preFault i s act e.2 })
    | lead :: _ => act.map fun e => (e.1, ownFx i (fun _ => f (leadMode act lead.2)) s act e.2)
  else act.map fun e => (e.1, ownFx i f s act e.2)

theorem runParts_pure (i : Instr) (f : Thread → Fx) (act l : List (Nat × Thread)) (s : State) :
    runParts i (pureFx f) act l s = (s, l.map fun e => (e.1, ownFx i f s act e.2)) := by
  induction l with
  | nil => rfl
  | cons e l ih =>
    obtain ⟨t, th⟩ := e
    unfold runParts
    cases h : preFault i s act th with
    | some x => simp [ownFx, h, ih]
    | none => simp [ownFx, h, pureFx, ih]
theorem drillParts_pure (i : Instr) (f : Thread → Fx) (act : List (Nat × Thread)) (s : State) :
    drillParts i (pureFx f) act s = (s, pureFxs i f s act) := by
  unfold drillParts pureFxs
  split
  · cases act.filter fun e => (preFault i s act e.2).isNone with
    | nil => rfl
    | cons lead rest =>
      simp only [pureFx, Prod.mk.injEq, true_and]
      apply List.map_congr_left
      intro e _
      cases h : preFault i s act e.2 <;> simp [ownFx, h]
  · exact runParts_pure i f act act s

/-- What stands under a thread slot in a list made from threads. -/
theorem tget_map_of_mem {α : Type} (l : List (Nat × Thread)) (g : Thread → α) (t : Nat) (th : Thread) (hm : (t, th) ∈ l)
    (hu : ∀ a, (t, a) ∈ l → a = th) : tget (l.map fun e => (e.1, g e.2)) t = some (g th) := by
  induction l with
  | nil => simp at hm
  | cons e l ih =>
    obtain ⟨k, x⟩ := e
    simp only [List.map_cons, tget]
    split
    · rename_i hk
      subst hk
      rw [hu x (List.mem_cons_self ..)]
    · rename_i hk
      refine ih ?_ fun a ha => hu a (List.mem_cons_of_mem _ ha)
      rcases List.mem_cons.mp hm with h | h
      · simp only [Prod.mk.injEq] at h
        exact absurd h.1.symm hk
      · exact h

/-- The part that an active thread gets: its own, or in the uniform pipe that of the lowest-ranked active thread without a fault. -/
def activeFx (i : Instr) (f : Thread → Fx) (s : State) (th : Thread) : Fx :=
  if isUnif s && !ownParts i then
    match (activeThreads i s).find? fun e => (preFault i s (activeThreads i s) e.2).isNone with
    | some lead => f (leadMode (activeThreads i s) lead.2)
    | none => f th
  else f th

theorem tget_pureFxs {i : Instr} {f : Thread → Fx} {s : State} {t : Nat} {th : Thread} (hm : (t, th) ∈ activeThreads i s)
    (hp : preFault i s (activeThreads i s) th = none) : tget (pureFxs i f s (activeThreads i s)) t = some (activeFx i f s th) := by
  have hu : ∀ a, (t, a) ∈ activeThreads i s → a = th := fun a ha => drillThreads_unique (mem_active ha).1 (mem_active hm).1
  unfold pureFxs activeFx
  split
  · have hf : (activeThreads i s).find? (fun e => (preFault i s (activeThreads i s) e.2).isNone)
        = ((activeThreads i s).filter fun e => (preFault i s (activeThreads i s) e.2).isNone).head? := List.head?_filter.symm
    cases hl : (activeThreads i s).filter fun e => (preFault i s (activeThreads i s) e.2).isNone with
    | nil =>
      have : (t, th) ∈ (activeThreads i s).filter fun e => (preFault i s (activeThreads i s) e.2).isNone := by
        simp [List.mem_filter, hm, hp]
      rw [hl] at this
      simp at this
    | cons lead rest =>
      rw [hl] at hf
      simp only [hf, List.head?_cons]
      rw [tget_map_of_mem _ (fun e => ownFx i (fun _ => f (leadMode (activeThreads i s) lead.2)) s (activeThreads i s) e) t th hm hu]
      simp [ownFx, hp]
  · rw [tget_map_of_mem _ (fun e => ownFx i f s (activeThreads i s) e) t th hm hu]
    simp [ownFx, hp]

/-- Every entry of a thread slot in the parts of a drill is the part that its thread gets. -/
theorem pureFxs_at {i : Instr} {f : Thread → Fx} {s : State} {t : Nat} {th : Thread} (hm : (t, th) ∈ activeThreads i s)
    (hp : preFault i s (activeThreads i s) th = none) (e : Nat × Fx) (he : e ∈ pureFxs i f s (activeThreads i s)) (ht : e.1 = t) :
    e.2 = activeFx i f s th := by
  have hu : ∀ a, (t, a) ∈ activeThreads i s → a = th := fun a ha => drillThreads_unique (mem_active ha).1 (mem_active hm).1
  unfold pureFxs at he
  unfold activeFx
  split at he
  · rename_i hun
    rw [if_pos hun]
    have hf : (activeThreads i s).find? (fun e => (preFault i s (activeThreads i s) e.2).isNone)
        = ((activeThreads i s).filter fun e => (preFault i s (activeThreads i s) e.2).isNone).head? := List.head?_filter.symm
    cases hl : (activeThreads i s).filter fun e => (preFault i s (activeThreads i s) e.2).isNone with
    | nil =>
      have : (t, th) ∈ (activeThreads i s).filter fun e => (preFault i s (activeThreads i s) e.2).isNone := by
        simp [List.mem_filter, hm, hp]
      rw [hl] at this
      simp at this
    | cons lead rest =>
      rw [hl] at hf he
      obtain ⟨x, hx, rfl⟩ := List.mem_map.mp he
      obtain ⟨k, a⟩ := x
      simp only at ht
      subst ht
      simp only [hf, List.head?_cons, hu a hx, ownFx, hp]
  · rename_i hun
    rw [if_neg hun]
    obtain ⟨x, hx, rfl⟩ := List.mem_map.mp he
    obtain ⟨k, a⟩ := x
    simp only at ht
    subst ht
    simp only [hu a hx, ownFx, hp]

/-! ### What a part does to its thread -/

/-- Registers after results written and empties marked. -/
def fxRegs (fx : Fx) (ready : Nat) (regs : Tbl RegCell) : Tbl RegCell :=
  fx.empties.foldl (fun g r => tput g r { st := .empty, val := if fx.armed then 0 else rv { regs := g } r, prod := fx.prod, armed := fx.armed })
    (fx.regs.foldl (fun g x => tput g x.1 { val := x.2, ready := ready }) regs)
/-- Predicates after results written. -/
def fxPreds (fx : Fx) (preds : BitVec 8) : BitVec 8 :=
  fx.preds.foldl (fun p x => if x.1 = 0 then p else if x.2 then p ||| (1#8 <<< x.1) else p &&& ~~~(1#8 <<< x.1)) preds

theorem foldl_writeReg (l : List (Nat × Word)) (ready : Nat) (th : Thread) :
    l.foldl (fun th x => writeReg th x.1 x.2 ready) th
      = { th with regs := l.foldl (fun g x => tput g x.1 { val := x.2, ready := ready }) th.regs } := by
  induction l generalizing th with
  | nil => rfl
  | cons x l ih => exact ih _
theorem foldl_emptyReg (l : List Nat) (p : Nat) (a : Bool) (th : Thread) :
    l.foldl (fun th r => emptyReg th r p a) th
      = { th with regs := l.foldl (fun g r => tput g r { st := .empty, val := if a then 0 else rv { regs := g } r, prod := p, armed := a }) th.regs } := by
  induction l generalizing th with
  | nil => rfl
  | cons x l ih => exact ih _
theorem setPred_eq (th : Thread) (p : Nat) (b : Bool) :
    setPred th p b = { th with preds := if p = 0 then th.preds else if b then th.preds ||| (1#8 <<< p) else th.preds &&& ~~~(1#8 <<< p) } := by
  unfold setPred
  split <;> rfl
theorem foldl_setPred (l : List (Nat × Bool)) (th : Thread) :
    l.foldl (fun th x => setPred th x.1 x.2) th
      = { th with preds := l.foldl (fun p x => if x.1 = 0 then p else if x.2 then p ||| (1#8 <<< x.1) else p &&& ~~~(1#8 <<< x.1)) th.preds } := by
  induction l generalizing th with
  | nil => rfl
  | cons x l ih =>
    simp only [List.foldl_cons]
    rw [setPred_eq, ih]
/-- A part touches registers, predicates and flags alone. -/
theorem applyFx_eq (i : Instr) (sr : Word) (fx : Fx) (ready : Nat) (th : Thread) :
    applyFx i sr fx ready th = { th with
      regs := fxRegs fx ready (th.regs.filter fun e => !(lastRegs i).contains e.1)
      preds := fxPreds fx th.preds
      ast := th.ast ||| sr
      flags := if fx.flags = 0 then th.flags else th.flags ++ [(ready, fx.flags)]
      predReady := predsDue fx ready th.predReady } := by
  unfold applyFx applyResults
  simp only [foldl_writeReg, foldl_emptyReg, foldl_setPred, release, orFlags, flagsAt]
  split <;> rfl
theorem applyResults_eq (fx : Fx) (ready : Nat) (th : Thread) :
    applyResults fx ready th = { th with
      regs := fxRegs fx ready th.regs
      preds := fxPreds fx th.preds
      predReady := predsDue fx ready th.predReady } := by
  unfold applyResults
  simp only [foldl_writeReg, foldl_emptyReg, foldl_setPred]
  rfl
/-- A masked-off thread that supplies values gets its stale-read flag (R46, R198). -/
def offBase (i : Instr) (th : Thread) : Thread := if suppliesOff i then orFlags th (staleFlag i th) else th
/-- A masked-off thread loses its last uses; under ZERO it gets zeros where the others write, or awaits what they await (R41, R45, R199,
R232). -/
theorem applyOff_eq (i : Instr) (z : Bool) (fx : Option Fx) (ready : Nat) (th : Thread) :
    applyOff i z fx ready th = if z then { release (lastRegs i) (offBase i th) with
        regs := fxRegs (zeroFx i fx) ready (release (lastRegs i) (offBase i th)).regs
        preds := fxPreds (zeroFx i fx) (release (lastRegs i) (offBase i th)).preds
        predReady := predsDue (zeroFx i fx) ready (release (lastRegs i) (offBase i th)).predReady } else release (lastRegs i) (offBase i th) := by
  unfold applyOff
  cases z with
  | false => rfl
  | true =>
    simp only [if_true, applyResults_eq]
    rfl
theorem offBase_eq (i : Instr) (th : Thread) : offBase i th = { th with ast := (offBase i th).ast } := by
  unfold offBase
  split <;> rfl

/-! ### The commit -/

/-- Cycles for which a drill occupies its pipe (R16). -/
def drillTime (i : Instr) (s : State) : Nat := if isUnif s then 1 else occupancy (activeThreads i s)
/-- First cycle in which a result of the drill may be read (R304); s1 is the state after the parts. -/
def drillReady (i : Instr) (lat : Lat) (s s1 : State) : Nat :=
  (getCore s1 s.cur.core).cyc + drillTime i s - 1 + (if isUnif s then lat.unif else lat.lane)

/-- One thread's look at the end of its step: it parks again if it was stepped (R301). -/
def stepCheck (ci : Nat) (p : Nat → Thread → Bool) (s : State) (u : Nat) : State :=
  match getThread s ci u with
  | some th => if p u th then stepDone s ci u else s
  | none => s
theorem stepCheck_stays (ci t u : Nat) (p : Nat → Thread → Bool) (s : State) (x : Thread) (hx : getThread s ci t = some x)
    (hs : x.stepping = none) : StaysS ci t s (stepCheck ci p s u) := by
  unfold stepCheck
  split
  · rename_i th hu
    refine StaysS.ite ?_ (StaysS.refl _ _ _)
    by_cases hut : t = u
    · subst hut
      have h1 : th = x := Option.some.inj (hu.symm.trans hx)
      have : stepDone s ci t = s := by
        unfold stepDone
        simp only [getThread] at hx
        simp only [hx, hs]
      rw [this]
      exact StaysS.refl _ _ _
    · exact stepDone_stays s ci u t hut
  · exact StaysS.refl _ _ _
theorem foldl_stepCheck_stays (ci t : Nat) (p : Nat → Thread → Bool) (l : List Nat) (s : State) (x : Thread)
    (hx : getThread s ci t = some x) (hs : x.stepping = none) : StaysS ci t s (l.foldl (stepCheck ci p) s) := by
  induction l generalizing s x with
  | nil => exact StaysS.refl _ _ _
  | cons u l ih =>
    have h1 := stepCheck_stays ci t u p s x hx hs
    obtain ⟨y, hy, hal⟩ := h1.out x hx
    exact h1.trans (ih _ y hy (hal.stepping.trans hs))

/-- Later ready times after an eviction (R304) leave a thread alike. -/
theorem laterReady_alike (th : Thread) (w : List Nat) (n : Nat) :
    Alike th { th with regs := th.regs.map fun e => if w.contains e.1 then (e.1, { e.2 with ready := e.2.ready + n }) else e } := by
  have h : (th.regs.map fun e => if w.contains e.1 then (e.1, { e.2 with ready := e.2.ready + n }) else e)
      = tmap th.regs fun r c => if w.contains r then { c with ready := c.ready + n } else c := by
    unfold tmap
    apply List.map_congr_left
    intro e _
    by_cases hw : w.contains e.1 = true
    · simp only [hw, if_true]
    · simp only [hw, Bool.false_eq_true, if_false]
  rw [h]
  refine Alike.tmapRegs th _ fun r c => ?_
  split
  · exact ⟨rfl, rfl, rfl, Iff.rfl⟩
  · exact CellLike.refl c

theorem lateWrites_stays (s : State) (ci ev t : Nat) (l w : List Nat) : StaysS ci t s (lateWrites s ci ev l w) :=
  StaysS.ite (StaysS.refl _ _ _) (updThreads_stays _ _ _ _ _ (.inr fun th => laterReady_alike th _ _))

/-- The core of a drill after its threads' parts have been committed (R41, R45, R48); s1 is the state after the parts. -/
def committed (i : Instr) (lat : Lat) (fxs : List (Nat × Fx)) (s s1 : State) : Core :=
  let ths := drillThreads i s
  let zero := zeroOf i && !(activeThreads i s).isEmpty
  let some1 := (fxs.find? fun e => e.2.fault.isNone && !e.2.stay).map (·.2)
  let c := getCore s1 s.cur.core
  let c := { c with threads := tmap c.threads fun t th =>
               if (ths.map (·.1)).contains t then commitThread i s1 (drillTime i s) (drillReady i lat s s1) zero some1 fxs t th else th }
  (writes i).foldl (fun c r => match tagsNow fxs zero ths r with
    | [] => c
    | w => if !isUnif s && fxs.any (fun e => e.2.armed) then retagGeneral w c r else retag (isUnif s) w c r) c

theorem committed_stays (i : Instr) (lat : Lat) (fxs : List (Nat × Fx)) (s s1 : State) (t : Nat) (th0 : Thread)
    (h0 : getThread s1 s.cur.core t = some th0) (ht : t ∈ (drillThreads i s).map (·.1)) :
    ∃ th', tget (committed i lat fxs s s1).threads t = some th' ∧
      Alike (commitThread i s1 (drillTime i s) (drillReady i lat s s1) (zeroOf i && !(activeThreads i s).isEmpty)
        ((fxs.find? fun e => e.2.fault.isNone && !e.2.stay).map (·.2)) fxs t th0) th' := by
  unfold committed
  extract_lets ths zero some1 c c'
  have h1 : tget c'.threads t = some (commitThread i s1 (drillTime i s) (drillReady i lat s s1) zero some1 fxs t th0) := by
    simp only [c']
    rw [tget_tmap]
    simp only [getThread] at h0
    simp only [c, h0, Option.map_some]
    rw [if_pos (by simpa using ht)]
  refine (foldl_stays t _ ?_ _ _).out _ h1
  intro c r
  split
  · exact Stays.refl _ _
  · split
    · exact retagGeneral_stays ..
    · exact retag_stays ..
/-- A thread of the core that is not of the drill stays. -/
theorem committed_other (i : Instr) (lat : Lat) (fxs : List (Nat × Fx)) (s s1 : State) (t : Nat)
    (ht : t ∉ (drillThreads i s).map (·.1)) : Stays t (getCore s1 s.cur.core).threads (committed i lat fxs s s1).threads := by
  unfold committed
  extract_lets ths zero some1 c c'
  have h1 : Stays t c.threads c'.threads := by
    simp only [c']
    refine Stays.tmap _ _ _ fun th => ?_
    rw [if_neg (by simpa using ht)]
    exact Alike.refl th
  refine h1.trans (foldl_stays t _ ?_ _ _)
  intro c r
  split
  · exact Stays.refl _ _
  · split
    · exact retagGeneral_stays ..
    · exact retag_stays ..

/-- What follows the commit: banks are settled, faults are taken, stepped threads park again, the pipe is occupied. -/
def settled (i : Instr) (fxs : List (Nat × Fx)) (s1 : State) (ci n : Nat) (ths : List (Nat × Thread)) (c : Core) : State :=
  let keep := fun t => if (ths.map (·.1)).contains t then (reads i).map (·.reg) ++ writes i else []
  let all := (ths.map (·.1) ++ (c.threads.filter fun e => e.2.sheaf.isSome && ths.any fun x => x.2.sheaf == e.2.sheaf).map (·.1)).eraseDups
  let x := settleBanks (getCore s1 ci) (putCore s1 ci c) ci all keep (2 * (writes i).length * all.length)
  let s2 := lateWrites x.1 ci x.2 (ths.map (·.1)) (writes i)
  let s3 := takeFaults s2 ci (ths.filterMap fun e => ((tget fxs e.1).bind (·.fault)).map fun f => (e.1, f))
  let s4 := (ths.map (·.1)).foldl (stepCheck ci fun t th => th.stepping.isSome && th.st == .ready && !((tget fxs t).map (·.stay)).getD false) s3
  drillDone s4 n

/-- Settling touches nothing else (R50 to R55, R152 to R162). -/
theorem stepCheck_quiet (ci u : Nat) (p : Nat → Thread → Bool) (s : State) : Quiet s (stepCheck ci p s u) := by
  unfold stepCheck
  split
  · exact Quiet.ite (stepDone_quiet ..) (Quiet.refl _)
  · exact Quiet.refl _
theorem lateWrites_quiet (s : State) (ci ev : Nat) (l w : List Nat) : Quiet s (lateWrites s ci ev l w) :=
  Quiet.ite (Quiet.refl _) (updThreads_quiet ..)
theorem settled_quiet (i : Instr) (fxs : List (Nat × Fx)) (s1 : State) (ci n : Nat) (ths : List (Nat × Thread)) (c : Core) :
    Quiet s1 (settled i fxs s1 ci n ths c) := by
  unfold settled
  extract_lets keep all b s2 s3 s4
  have h1 : Quiet s1 b.1 := (putCore_quiet s1 ci c).trans (settleBanks_quiet ..)
  have h2 : Quiet s1 s2 := h1.trans (lateWrites_quiet ..)
  have h3 : Quiet s1 s3 := h2.trans (takeFaults_quiet ..)
  have h4 : Quiet s1 s4 := h3.trans (Quiet.foldl _ (fun s u => stepCheck_quiet ci u _ s) _ _)
  exact h4.trans (drillDone_quiet ..)

/-- The faults of masked-off threads: a source of their own that is empty, and under ZERO a peak that they would pass (R12, R41, R49). -/
def offFxs (i : Instr) (s : State) : List (Nat × Fx) :=
  ((drillThreads i s).filter fun e => !actOn i e.2).filterMap fun e =>
    (offFault i (getCore s s.cur.core) (zeroOf i && !(activeThreads i s).isEmpty) e.2).map fun f => (e.1, { fault := some f })
/-- A drill with an active thread and without a shape fault: its parts, then the commit, then the rest is settled. -/
theorem runDrill_eq (i : Instr) (lat : Lat) (part : Part) (s : State) (h : activeThreads i s ≠ [])
    (hsh : shapeFault i s (activeThreads i s) = none) :
    runDrill i lat part s
      = settled i ((drillParts i part (activeThreads i s) s).2 ++ offFxs i s) (drillParts i part (activeThreads i s) s).1 s.cur.core (drillTime i s)
          (drillThreads i s) (committed i lat ((drillParts i part (activeThreads i s) s).2 ++ offFxs i s) s
            (drillParts i part (activeThreads i s) s).1) := by
  have ha : ((drillThreads i s).filter fun e => actOn i e.2) = activeThreads i s := rfl
  unfold runDrill
  simp only [ha]
  rw [if_neg (by
    rintro ⟨_, hn⟩
    exact h (List.isEmpty_iff.mp hn))]
  rw [hsh]
  rfl
theorem offFxs_off {i : Instr} {s : State} {e : Nat × Fx} (h : e ∈ offFxs i s) :
    ∃ x ∈ drillThreads i s, x.1 = e.1 ∧ actOn i x.2 = false := by
  unfold offFxs at h
  obtain ⟨x, hx, he⟩ := List.mem_filterMap.mp h
  obtain ⟨f, _, rfl⟩ := Option.map_eq_some_iff.mp he
  simp only [List.mem_filter, Bool.not_eq_true'] at hx
  exact ⟨x, hx.1, rfl, hx.2⟩
/-- An active thread is not among the masked-off ones. -/
theorem offFxs_active {i : Instr} {s : State} {t : Nat} {th : Thread} (hm : (t, th) ∈ activeThreads i s) {e : Nat × Fx} (he : e ∈ offFxs i s) :
    e.1 ≠ t := by
  rintro rfl
  obtain ⟨x, hx, hxe, ho⟩ := offFxs_off he
  have ha := mem_active hm
  have : x.2 = th := drillThreads_unique (t := e.1) (i := i) (s := s) (by rw [← hxe]; exact hx) ha.1
  rw [this, ha.2] at ho
  simp at ho
/-- In a drill where no masked-off thread passes its peak there are none. -/
theorem offFxs_nil {i : Instr} {s : State} (h : ∀ e ∈ drillThreads i s, actOn i e.2 = false → offFault i (getCore s s.cur.core) (zeroOf i) e.2 = none) :
    offFxs i s = [] := by
  unfold offFxs
  rw [List.filterMap_eq_nil_iff]
  intro e he
  simp only [List.mem_filter, Bool.not_eq_true'] at he
  have h1 := h e he.1 he.2
  unfold offFault at h1 ⊢
  split
  · rfl
  · rename_i hn
    simp only [hn, Bool.false_eq_true, if_false] at h1
    split
    · rename_i r hr
      simp [hr] at h1
    · rename_i hr
      simp only [hr] at h1
      cases hz : zeroOf i with
      | false => simp
      | true =>
        simp only [hz, if_true, Option.map_eq_none_iff] at h1
        simp [h1]
theorem tget_append {α : Type} (a b : Tbl α) (k : Nat) (v : α) (h : tget a k = some v) : tget (a ++ b) k = some v := by
  induction a with
  | nil => simp at h
  | cons e a ih =>
    obtain ⟨j, w⟩ := e
    simp only [List.cons_append, tget] at h ⊢
    split
    · rename_i hj
      rw [if_pos hj] at h
      exact h
    · rename_i hj
      rw [if_neg hj] at h
      exact ih h

/-- Settling leaves a thread that takes no fault and is not stepped alike. -/
theorem settled_stays (i : Instr) (fxs : List (Nat × Fx)) (s1 : State) (ci n : Nat) (ths : List (Nat × Thread)) (c : Core) (t : Nat) (x : Thread)
    (hci : s1.cur.core = ci) (hx : tget c.threads t = some x) (hs : x.stepping = none) (hf : ∀ e ∈ fxs, e.1 = t → e.2.fault = none)
    (hok : SpillsOk (putCore s1 ci c) ci) : ∃ th', getThread (settled i fxs s1 ci n ths c) ci t = some th' ∧ Alike x th' := by
  unfold settled
  extract_lets keep all b s2 s3 s4
  have h0 : getThread (putCore s1 ci c) ci t = some x := by simp [getThread, hx]
  have h1 : StaysS ci t (putCore s1 ci c) b.1 := (settleBanks_stays _ _ _ _ _ _ _ hok).stays
  have h2 : StaysS ci t (putCore s1 ci c) s2 := h1.trans (lateWrites_stays ..)
  have h3 : StaysS ci t (putCore s1 ci c) s3 := by
    refine h2.trans (takeFaults_stays _ _ _ _ ?_)
    intro hm
    obtain ⟨y, hy, hyt⟩ := List.mem_map.mp hm
    obtain ⟨e, _, hey⟩ := List.mem_filterMap.mp hy
    obtain ⟨g, hg, hgy⟩ := Option.map_eq_some_iff.mp hey
    obtain ⟨fx, hfx, hfg⟩ := Option.bind_eq_some_iff.mp hg
    have he : e.1 = t := by rw [← hyt, ← hgy]
    rw [hf _ (tget_mem _ _ _ hfx) he] at hfg
    simp at hfg
  obtain ⟨y, hy, hxy⟩ := h3.out x h0
  have h4 : StaysS ci t s3 s4 := foldl_stepCheck_stays ci t _ _ s3 y hy (hxy.stepping.trans hs)
  obtain ⟨z, hz, hyz⟩ := h4.out y hy
  have hc : s4.cur.core = ci := by
    have q1 : Quiet s1 b.1 := (putCore_quiet s1 ci c).trans (settleBanks_quiet ..)
    have q2 : Quiet s1 s2 := q1.trans (lateWrites_quiet ..)
    have q3 : Quiet s1 s3 := q2.trans (takeFaults_quiet ..)
    rw [(q3.trans (Quiet.foldl _ (fun s u => stepCheck_quiet ci u _ s) _ _)).cur, hci]
  obtain ⟨w, hw, hzw⟩ := (drillDone_stays s4 n t).out z (by rw [hc]; exact hz)
  rw [hc] at hw
  exact ⟨w, hw, (hxy.trans hyz).trans hzw⟩

theorem flagsAt_eq (ready : Nat) (w : Word) (th : Thread) :
    flagsAt ready w th = { th with flags := if w = 0 then th.flags else th.flags ++ [(ready, w)] } := by
  unfold flagsAt
  split <;> rfl
theorem flagsAt_stepping (ready : Nat) (w : Word) (th : Thread) : (flagsAt ready w th).stepping = th.stepping := by rw [flagsAt_eq]
theorem commitThread_stepping (i : Instr) (s : State) (n ready : Nat) (z : Bool) (some1 : Option Fx) (fxs : List (Nat × Fx)) (t : Nat)
    (th : Thread) : (commitThread i s n ready z some1 fxs t th).stepping = th.stepping := by
  have hadv : ∀ n j u, (advance s n j u).stepping = u.stepping := by
    intro n j u
    unfold advance
    split <;> rfl
  unfold commitThread
  extract_lets cyc
  split
  · split
    · rfl
    · split
      · rfl
      · split
        · simp only [startWait, applyResults_eq, orFlags, flagsAt_stepping]
        · rw [hadv, applyFx_eq]
  · rw [hadv, applyOff_eq, offBase_eq]
    split <;> rfl

/-- What a thread of a drill becomes when it takes no fault: what the commit makes of it. -/
theorem committed_fsbase (i : Instr) (lat : Lat) (fxs : List (Nat × Fx)) (s s1 : State) :
    (committed i lat fxs s s1).fsbase = (getCore s1 s.cur.core).fsbase := by
  unfold committed
  extract_lets ths zero some1 c c'
  have h : ∀ (l : List Nat) (d : Core), d.fsbase = c.fsbase → (l.foldl (fun c r => match tagsNow fxs zero ths r with
      | [] => c
      | w => if !isUnif s && fxs.any (fun e => e.2.armed) then retagGeneral w c r else retag (isUnif s) w c r) d).fsbase = c.fsbase := by
    intro l
    induction l with
    | nil => exact fun d hd => hd
    | cons r l ih =>
      intro d hd
      refine ih _ (Eq.trans ?_ hd)
      cases ht : tagsNow fxs zero ths r with
      | nil => simp only [ht]
      | cons a w =>
        simp only [ht]
        split
        · rfl
        · exact retag_fsbase ..
  exact h _ c' rfl
/-- After the commit the spills do not fail either. -/
theorem committed_ok {i : Instr} {lat : Lat} {fxs : List (Nat × Fx)} {s s1 : State} (h : SpillsOk s1 s.cur.core) :
    SpillsOk (putCore s1 s.cur.core (committed i lat fxs s s1)) s.cur.core :=
  h.of (by rw [getCore_putCore_self, committed_fsbase]) rfl
theorem runDrill_commit {i : Instr} {lat : Lat} {part : Part} {s s1 : State} {fxs : List (Nat × Fx)} {t : Nat} {th1 : Thread}
    (hparts : drillParts i part (activeThreads i s) s = (s1, fxs)) (hne : activeThreads i s ≠ []) (hcur : s1.cur.core = s.cur.core)
    (hsh : shapeFault i s (activeThreads i s) = none)
    (hm : t ∈ (drillThreads i s).map (·.1)) (h1 : getThread s1 s.cur.core t = some th1) (hs : th1.stepping = none)
    (hf : ∀ e ∈ fxs ++ offFxs i s, e.1 = t → e.2.fault = none) (hok : SpillsOk s1 s.cur.core) :
    ∃ th', getThread (runDrill i lat part s) s.cur.core t = some th' ∧
      Alike (commitThread i s1 (drillTime i s) (drillReady i lat s s1) (zeroOf i && !(activeThreads i s).isEmpty)
        (((fxs ++ offFxs i s).find? fun e => e.2.fault.isNone && !e.2.stay).map (·.2)) (fxs ++ offFxs i s) t th1) th' := by
  rw [runDrill_eq i lat part s hne hsh, hparts]
  obtain ⟨x, hx, hal⟩ := committed_stays i lat (fxs ++ offFxs i s) s s1 t th1 h1 hm
  have hstep : x.stepping = none := by rw [hal.stepping, commitThread_stepping, hs]
  obtain ⟨y, hy, hxy⟩ := settled_stays i (fxs ++ offFxs i s) s1 s.cur.core (drillTime i s) (drillThreads i s) _ t x hcur hx hstep hf
    (committed_ok hok)
  exact ⟨y, hy, hal.trans hxy⟩
/-- A thread of the core that is not of the drill and is not stepped stays as the parts leave it. -/
theorem runDrill_other {i : Instr} {lat : Lat} {part : Part} {s s1 : State} {fxs : List (Nat × Fx)} {t : Nat} {th1 : Thread}
    (hparts : drillParts i part (activeThreads i s) s = (s1, fxs)) (hne : activeThreads i s ≠ []) (hcur : s1.cur.core = s.cur.core)
    (hsh : shapeFault i s (activeThreads i s) = none)
    (hm : t ∉ (drillThreads i s).map (·.1)) (h1 : getThread s1 s.cur.core t = some th1) (hs : th1.stepping = none)
    (hf : ∀ e ∈ fxs, e.1 ≠ t) (hok : SpillsOk s1 s.cur.core) : ∃ th', getThread (runDrill i lat part s) s.cur.core t = some th' ∧ Alike th1 th' := by
  rw [runDrill_eq i lat part s hne hsh, hparts]
  obtain ⟨x, hx, hal⟩ := (committed_other i lat (fxs ++ offFxs i s) s s1 t hm).out th1 h1
  obtain ⟨y, hy, hxy⟩ := settled_stays i (fxs ++ offFxs i s) s1 s.cur.core (drillTime i s) (drillThreads i s) _ t x hcur hx
    (hal.stepping.trans hs) (fun e he het => by
      rcases List.mem_append.mp he with h | h
      · exact absurd het (hf e h)
      · obtain ⟨y, hy, hye, _⟩ := offFxs_off h
        exact absurd (List.mem_map.mpr ⟨y, hy, hye.trans het⟩) hm) (committed_ok hok)
  exact ⟨y, hy, hal.trans hxy⟩
/-- A thread without a fault before its part is in a drill without a shape fault (R16, R40). -/
theorem shapeFault_none {i : Instr} {s : State} {act : List (Nat × Thread)} {th : Thread} (h : preFault i s act th = none) :
    shapeFault i s act = none := by
  unfold preFault at h
  extract_lets c at h
  cases hs : shapeFault i s act with
  | none => rfl
  | some f => simp [hs] at h
/-- What an active thread of a drill becomes, when its instruction only computes and the thread takes no fault: its part is applied and it
moves on (R45, R48, R302). -/
theorem runDrill_active {i : Instr} {lat : Lat} {f : Thread → Fx} {s : State} {t : Nat} {th th0 : Thread} (hm : (t, th) ∈ activeThreads i s)
    (hp : preFault i s (activeThreads i s) th = none) (h0 : getThread s s.cur.core t = some th0) (hs : th0.stepping = none)
    (hfa : (activeFx i f s th).fault = none) (hst : (activeFx i f s th).stay = false) (hw : (activeFx i f s th).wait = none)
    (hg : (activeFx i f s th).gone = false) (hok : SpillsOk s s.cur.core) :
    ∃ th', getThread (runDrill i lat (pureFx f) s) s.cur.core t = some th' ∧
      Alike (advance s (drillTime i s) (activeFx i f s th).jump (applyFx i (readFlag i s th0) (activeFx i f s th) (drillReady i lat s s) th0)) th' := by
  have hne : activeThreads i s ≠ [] := List.ne_nil_of_mem hm
  have hfx := tget_pureFxs (f := f) hm hp
  have ht : t ∈ (drillThreads i s).map (·.1) := List.mem_map_of_mem (f := (·.1)) (mem_active hm).1
  obtain ⟨y, hy, hal⟩ := runDrill_commit (lat := lat) (drillParts_pure i f (activeThreads i s) s) hne rfl (shapeFault_none hp) ht h0 hs (by
    intro e he het
    rcases List.mem_append.mp he with h | h
    · rw [pureFxs_at hm hp e h het, hfa]
    · exact absurd het (offFxs_active hm h)) hok
  refine ⟨y, hy, ?_⟩
  have hc : commitThread i s (drillTime i s) (drillReady i lat s s) (zeroOf i && !(activeThreads i s).isEmpty)
      (((pureFxs i f s (activeThreads i s) ++ offFxs i s).find? fun e => e.2.fault.isNone && !e.2.stay).map (·.2))
      (pureFxs i f s (activeThreads i s) ++ offFxs i s) t th0
      = advance s (drillTime i s) (activeFx i f s th).jump (applyFx i (readFlag i s th0) (activeFx i f s th) (drillReady i lat s s) th0) := by
    unfold commitThread
    simp only [tget_append _ _ _ _ hfx, hfa, hst, hw, hg, Option.isSome_none, Bool.false_eq_true, or_self, if_false]
  rw [← hc]
  exact hal

end Sys2Proof.Machine
end

