-- ==== Sys2Proof/Laws/Clean.lean ====
section
/-!
SUPPORT. The frame of a drill that takes no fault: beside the threads of its core and the policy of its pipe it touches only the slots of
the fallow store to which its writes evict (R52, R54).
-/
namespace Sys2Proof.Machine
open Sys2Proof

theorem tput_tput {α : Type} (t : Tbl α) (k : Nat) (v w : α) : tput (tput t k v) k w = tput t k w := by
  induction t with
  | nil => simp [tput]
  | cons x t ih =>
    obtain ⟨j, u⟩ := x
    by_cases hj : j = k
    · simp [tput, hj]
    · by_cases hk : k < j
      · simp [tput, hj, hk]
      · simp [tput, hj, hk, ih]

/-! ### Where evictions store -/

/-- The bytes of the fallow store that the registers of a core's threads have (R54). -/
def coreSlots (c : Core) (b a : Nat) : Prop :=
  (∃ e ∈ c.threads, ∃ r, (tget e.2.regs r).isSome = true ∧ b + e.1 * 256 + r * 4 ≤ a ∧ a < b + e.1 * 256 + r * 4 + 4) ∨
  (∃ e ∈ c.threads, ∃ k r, e.2.sheaf = some k ∧ (tget e.2.regs r).isSome = true ∧
    b + 2 ^ 16 + k * 512 + r * 8 ≤ a ∧ a < b + 2 ^ 16 + k * 512 + r * 8 + 8)
/-- A core whose threads have no more registers than another's. -/
structure Within (c c' : Core) : Prop where
  fsbase : c'.fsbase = c.fsbase
  threads : ∀ e' ∈ c'.threads, ∃ e ∈ c.threads, e.1 = e'.1 ∧ e.2.sheaf = e'.2.sheaf ∧
    ∀ r, (tget e'.2.regs r).isSome = true → (tget e.2.regs r).isSome = true
theorem Within.refl (c : Core) : Within c c := ⟨rfl, fun e h => ⟨e, h, rfl, rfl, fun _ h => h⟩⟩
theorem Within.trans {a b c : Core} (h : Within a b) (k : Within b c) : Within a c := by
  refine ⟨k.fsbase.trans h.fsbase, fun e he => ?_⟩
  obtain ⟨x, hx, h1, h2, h3⟩ := k.threads e he
  obtain ⟨y, hy, h4, h5, h6⟩ := h.threads x hx
  exact ⟨y, hy, h4.trans h1, h5.trans h2, fun r hr => h6 r (h3 r hr)⟩
theorem Within.slots {c c' : Core} (h : Within c c') {b a : Nat} (ha : coreSlots c' b a) : coreSlots c b a := by
  rcases ha with ⟨e, he, r, hr, h1⟩ | ⟨e, he, k, r, hk, hr, h1⟩
  · obtain ⟨x, hx, h2, h3, h4⟩ := h.threads e he
    exact .inl ⟨x, hx, r, h4 r hr, by rw [h2]; exact h1⟩
  · obtain ⟨x, hx, h2, h3, h4⟩ := h.threads e he
    exact .inr ⟨x, hx, k, r, h3.trans hk, h4 r hr, h1⟩
theorem Within.fallowBase {c c' : Core} (h : Within c c') : fallowBase c' = fallowBase c := by
  unfold Machine.fallowBase
  rw [h.fsbase]
/-- Changing threads so that none gets a register. -/
theorem Within.tmap (c c' : Core) (f : Nat → Thread → Thread) (hc : c'.fsbase = c.fsbase) (ht : c'.threads = tmap c.threads f)
    (hs : ∀ e ∈ c.threads, (f e.1 e.2).sheaf = e.2.sheaf)
    (hr : ∀ e ∈ c.threads, ∀ r, (tget (f e.1 e.2).regs r).isSome = true → (tget e.2.regs r).isSome = true) : Within c c' := by
  refine ⟨hc, fun e he => ?_⟩
  rw [ht] at he
  obtain ⟨x, hx, rfl⟩ := List.mem_map.mp he
  exact ⟨x, hx, rfl, (hs x hx).symm, hr x hx⟩
theorem tupd_isSome (t : Tbl RegCell) (k r : Nat) (f : RegCell → RegCell) : (tget (tupd t k f) r).isSome = (tget t r).isSome := by
  by_cases h : r = k
  · subst h
    rw [tget_tupd_self]
    simp
  · rw [tget_tupd_ne _ _ _ _ h]

/-- No slot of the core's registers is in the line of an address, or it stands under the boot key. -/
def CoreSpared (s : State) (ci b a : Nat) : Prop := ownLine s a ∨ ∀ x, x / 128 = a / 128 → ¬ coreSlots (getCore s ci) b x

/-- What a bank's settling does: cores other than this one stay, this one loses only places of registers, and memory changes only in the
slots of its registers, and in the lines of them that stand under another key than the boot key. -/
structure Settles (ci b : Nat) (s s' : State) : Prop where
  state : besides s' = besides s
  others : ∀ cj, cj ≠ ci → tget s'.cores cj = tget s.cores cj
  core : getCore s' ci = { getCore s ci with threads := (getCore s' ci).threads }
  within : Within (getCore s ci) (getCore s' ci)
  mem : ∀ a, ¬ coreSlots (getCore s ci) b a → CoreSpared s ci b a → memGet s'.mem a = memGet s.mem a
  keys : ∀ a, CoreSpared s ci b a → tgetD s'.lineKeys (a / 128 * 128) 0 = tgetD s.lineKeys (a / 128 * 128) 0

/-- Without an uncorrectable error every access to a fallow store that is set up succeeds (R55). -/
theorem fallowAt_good {s : State} {ci b : Nat} (hb : fallowBase (getCore s ci) = some b) (hbad : s.bad = []) (off n : Nat) :
    fallowAt s ci off n = some (b + off) := by
  unfold fallowAt
  simp [hb, lineBad, hbad]
theorem fallowPut_besides (s : State) (a : Nat) (w : Word) : besides (fallowPut s a w) = besides s := by
  obtain ⟨m, k, h⟩ := fallowPut_eq s a w
  rw [h]
  rfl
theorem fallowPut_cores (s : State) (a : Nat) (w : Word) : (fallowPut s a w).cores = s.cores := by
  obtain ⟨m, k, h⟩ := fallowPut_eq s a w
  rw [h]
theorem evictLane_settles {s : State} {ci r b : Nat} {e : Nat × Thread} (hb : fallowBase (getCore s ci) = some b) (hbad : s.bad = [])
    (hme : e ∈ (getCore s ci).threads) (hr : (tget e.2.regs r).isSome = true) : Settles ci b s (evictLane s ci e.1 r) := by
  obtain ⟨tid, th'⟩ := e
  obtain ⟨th, ht⟩ := Option.isSome_iff_exists.mp (mem_tget _ _ hme)
  simp only at ht hr ⊢
  have he : evictLane s ci tid r = fallowPut (putCore s ci (updThreadC (getCore s ci) tid fun th => { th with regs := tupd th.regs r toFallow }))
      (b + (tid * 256 + r * 4)) (rv th r) := by
    unfold evictLane
    simp only [fallowAt_good hb hbad, ht]
  rw [he]
  have hg : getCore (fallowPut (putCore s ci (updThreadC (getCore s ci) tid fun th => { th with regs := tupd th.regs r toFallow }))
      (b + (tid * 256 + r * 4)) (rv th r)) ci
      = updThreadC (getCore s ci) tid fun th => { th with regs := tupd th.regs r toFallow } := by rw [getCore_fallowPut, getCore_putCore_self]
  have hf : ∀ a, CoreSpared s ci b a → _ := fun a ha =>
    fallowPut_frame (putCore s ci (updThreadC (getCore s ci) tid fun th => { th with regs := tupd th.regs r toFallow }))
      (b + (tid * 256 + r * 4)) (rv th r) a (ha.symm.imp (fun ha x h1 h2 hx => ha x hx (.inl ⟨(tid, th'), hme, r, hr, by simp only; omega, by simp only; omega⟩)) id)
  constructor
  · exact fallowPut_besides ..
  · intro cj hj
    rw [fallowPut_cores]
    exact tget_tput_ne _ _ _ _ hj
  · rw [hg]
    rfl
  · rw [hg]
    refine ⟨rfl, fun e' he' => ?_⟩
    simp only [updThreadC, tupd, ht] at he'
    rcases mem_tput _ _ _ _ he' with rfl | h
    · refine ⟨(tid, th), tget_mem _ _ _ ht, rfl, rfl, fun q hq => ?_⟩
      have hq' : (tget (tupd th.regs r toFallow) q).isSome = true := hq
      rwa [tupd_isSome] at hq'
    · exact ⟨e', h, rfl, rfl, fun _ h => h⟩
  · intro a ha hs
    refine (hf a hs).1 ?_
    by_contra hcon
    apply ha
    exact .inl ⟨(tid, th'), hme, r, hr, by simp only; omega, by simp only; omega⟩
  · exact fun a hs => (hf a hs).2
theorem Settles.bad {ci b : Nat} {s s' : State} (h : Settles ci b s s') : s'.bad = s.bad := by
  have : (besides s').bad = (besides s).bad := by rw [h.state]
  exact this
theorem Settles.refl (ci b : Nat) (s : State) : Settles ci b s s := ⟨rfl, fun _ _ => rfl, rfl, Within.refl _, fun _ _ _ => rfl, fun _ _ => rfl⟩
theorem Settles.sec {ci b : Nat} {s s' : State} (h : Settles ci b s s') : s'.sec = s.sec := by
  have : (besides s').sec = (besides s).sec := by rw [h.state]
  exact this
theorem Settles.spared {ci b : Nat} {s s' : State} (h : Settles ci b s s') {a : Nat} (ha : CoreSpared s ci b a) : CoreSpared s' ci b a := by
  have hk := h.keys a ha
  unfold CoreSpared ownLine at ha ⊢
  rw [h.sec, hk]
  exact ha.imp id fun ha x hx hc => ha x hx (h.within.slots hc)
theorem Settles.trans {ci b : Nat} {x y z : State} (h : Settles ci b x y) (k : Settles ci b y z) : Settles ci b x z := by
  refine ⟨k.state.trans h.state, fun cj hj => (k.others cj hj).trans (h.others cj hj), ?_, h.within.trans k.within, fun a ha hs => ?_, fun a hs => ?_⟩
  · rw [k.core, h.core]
  · rw [k.mem a (fun hy => ha (h.within.slots hy)) (h.spared hs), h.mem a ha hs]
  · rw [k.keys a (h.spared hs), h.keys a hs]
theorem evictUni_settles {s : State} {ci k r b : Nat} (hb : fallowBase (getCore s ci) = some b) (hbad : s.bad = [])
    (hm : ((members (getCore s ci) k).find? fun m => (tget m.2.regs r).isSome).isSome = true) : Settles ci b s (evictUni s ci k r) := by
  obtain ⟨m, hf⟩ := Option.isSome_iff_exists.mp hm
  have hmem : m ∈ members (getCore s ci) k := List.mem_of_find?_eq_some hf
  have hr : (tget m.2.regs r).isSome = true := by
    have := List.find?_some hf
    exact this
  simp only [members, List.mem_filter, beq_iff_eq] at hmem
  generalize hw : (match (tgetD m.2.regs r {}).tag with
    | .affine base st => (base, st)
    | _ => ((tgetD m.2.regs r {}).val, 0)) = w
  obtain ⟨c2, hc⟩ : ∃ c2, ({ getCore s ci with threads := tmap (getCore s ci).threads fun _ th =>
      (if (th.sheaf == some k) then { th with regs := tupd th.regs r fun x => if x.uni then toFallow x else x } else th) } : Core) = c2 := ⟨_, rfl⟩
  obtain ⟨p, hp⟩ : ∃ p, b + (2 ^ 16 + k * 512 + r * 8) = p := ⟨_, rfl⟩
  obtain ⟨y, hy⟩ : ∃ y, fallowPut (putCore s ci c2) p w.1 = y := ⟨_, rfl⟩
  have he : evictUni s ci k r = fallowPut y (p + 4) w.2 := by
    unfold evictUni
    simp only [fallowAt_good hb hbad, hf, ← hc, ← hw, ← hp, ← hy] <;> rfl
  rw [he]
  have hg : getCore (fallowPut y (p + 4) w.2) ci = c2 := by rw [getCore_fallowPut, ← hy, getCore_fallowPut, getCore_putCore_self]
  have hin : ∀ x, p ≤ x → x < p + 8 → coreSlots (getCore s ci) b x := fun x h1 h2 =>
    .inr ⟨m, hmem.1, k, r, hmem.2, hr, by omega, by omega⟩
  have hysec : y.sec = s.sec := by
    have h : (besides y).sec = (besides (putCore s ci c2)).sec := by rw [← hy, fallowPut_besides]
    exact h
  have hf1 : ∀ a, CoreSpared s ci b a → _ := fun a ha =>
    fallowPut_frame (putCore s ci c2) p w.1 a (ha.symm.imp (fun ha x h1 h2 hx => ha x hx (hin x h1 (by omega))) id)
  have hf2 : ∀ a, CoreSpared s ci b a → _ := fun a ha =>
    fallowPut_frame y (p + 4) w.2 a (ha.symm.imp (fun ha x h1 h2 hx => ha x hx (hin x (by omega) (by omega))) fun ho => by
      have h1 := (hf1 a ha).2
      rw [hy] at h1
      unfold ownLine at ho
      unfold underKey
      rw [h1, hysec]
      exact ho)
  constructor
  · rw [fallowPut_besides, ← hy, fallowPut_besides]
    rfl
  · intro cj hj
    rw [fallowPut_cores, ← hy, fallowPut_cores]
    exact tget_tput_ne _ _ _ _ hj
  · rw [hg, ← hc]
  · rw [hg]
    refine Within.tmap (getCore s ci) c2 (fun _ th =>
      if th.sheaf == some k then { th with regs := tupd th.regs r fun x => if x.uni then toFallow x else x } else th) (by rw [← hc]) (by rw [← hc]) ?_ ?_
    · intro e _
      split <;> rfl
    · intro e _ q hq
      split at hq
      · rwa [tupd_isSome] at hq
      · exact hq
  · intro a ha hs
    have hout : ¬ (p ≤ a ∧ a < p + 8) := fun h => ha (hin a h.1 h.2)
    rw [(hf2 a hs).1 (by omega), ← hy, (hf1 a hs).1 (by omega)]
    rfl
  · intro a hs
    rw [(hf2 a hs).2, ← hy, (hf1 a hs).2]
    rfl

/-! ### Settling -/

theorem settleLane_settles (ci lane b : Nat) (keep : Nat → List Nat) (fresh : Nat → Nat) (n : Nat) (s : State) (hb : fallowBase (getCore s ci) = some b) (hbad : s.bad = []) :
    Settles ci b s (settleLane ci lane keep fresh n s).1 := by
  induction n generalizing s with
  | zero => exact Settles.refl _ _ _
  | succ n ih =>
    unfold settleLane
    extract_lets c
    split
    · exact Settles.refl _ _ _
    · split
      · exact Settles.refl _ _ _
      · rename_i t r hv
        obtain ⟨e, he, rfl, hr⟩ := laneVictim_is _ _ _ _ _ _ hv
        simp only [fallowAt_good hb hbad, Option.isNone_some, Bool.false_eq_true, if_false]
        have h1 := evictLane_settles hb hbad he hr
        exact h1.trans (ih _ (h1.within.fallowBase.trans hb) (h1.bad.trans hbad))
theorem settleUni_settles (ci slot b : Nat) (keep : Nat → List Nat) (n : Nat) (s : State) (hb : fallowBase (getCore s ci) = some b) (hbad : s.bad = []) :
    Settles ci b s (settleUni ci slot keep n s).1 := by
  induction n generalizing s with
  | zero => exact Settles.refl _ _ _
  | succ n ih =>
    unfold settleUni
    extract_lets c
    split
    · exact Settles.refl _ _ _
    · split
      · exact Settles.refl _ _ _
      · rename_i k r hv
        simp only [fallowAt_good hb hbad, Option.isNone_some, Bool.false_eq_true, if_false]
        have h1 := evictUni_settles hb hbad (uniVictim_is _ _ _ _ _ hv)
        exact h1.trans (ih _ (h1.within.fallowBase.trans hb) (h1.bad.trans hbad))
theorem foldPair_settles (ci b : Nat) (g : Nat → State → State × Nat)
    (h : ∀ l s, fallowBase (getCore s ci) = some b → s.bad = [] → Settles ci b s (g l s).1) (ls : List Nat) (a : State × Nat)
    (hb : fallowBase (getCore a.1 ci) = some b) (hbad : a.1.bad = []) :
    Settles ci b a.1 (ls.foldl (fun (a : State × Nat) l => let x := g l a.1; (x.1, a.2 + x.2)) a).1 := by
  induction ls generalizing a with
  | nil => exact Settles.refl _ _ _
  | cons l ls ih =>
    have h1 := h l a.1 hb hbad
    exact h1.trans (ih ((g l a.1).1, a.2 + (g l a.1).2) (h1.within.fallowBase.trans hb) (h1.bad.trans hbad))
/-- Bringing the banks back within their bounds evicts to the core's own slots and touches nothing else. -/
theorem settleBanks_settles (old : Core) (s : State) (ci b : Nat) (tids : List Nat) (keep : Nat → List Nat) (n : Nat)
    (hb : fallowBase (getCore s ci) = some b) (hbad : s.bad = []) : Settles ci b s (settleBanks old s ci tids keep n).1 := by
  have h1 := foldPair_settles ci b (fun l u => settleLane ci l keep (freshOf old (getCore s ci)) n u) (fun l s h => settleLane_settles ci l b keep _ n s h)
    (tids.map laneOf).eraseDups (s, 0) hb hbad
  exact h1.trans (foldPair_settles ci b (fun k s => settleUni ci k keep n s) (fun k s h => settleUni_settles ci k b keep n s h) _ _
    (h1.within.fallowBase.trans hb) (h1.bad.trans hbad))


/-! ### The registers after the commit -/

/-- A part writes and empties only these registers. -/
structure FxIn (W : List Nat) (fx : Fx) : Prop where
  regs : ∀ x ∈ fx.regs, x.1 ∈ W
  empties : ∀ r ∈ fx.empties, r ∈ W

theorem foldl_tput_isSome {α : Type} (g : Tbl RegCell → α → RegCell) (key : α → Nat) (l : List α) (t : Tbl RegCell) (r : Nat)
    (h : (tget (l.foldl (fun t x => tput t (key x) (g t x)) t) r).isSome = true) : (tget t r).isSome = true ∨ ∃ x ∈ l, key x = r := by
  induction l generalizing t with
  | nil => exact .inl h
  | cons x l ih =>
    rcases ih _ h with h1 | ⟨y, hy, hr⟩
    · by_cases hx : r = key x
      · exact .inr ⟨x, List.mem_cons_self .., hx.symm⟩
      · rw [tget_tput_ne _ _ _ _ hx] at h1
        exact .inl h1
    · exact .inr ⟨y, List.mem_cons_of_mem _ hy, hr⟩
theorem fxRegs_isSome {W : List Nat} {fx : Fx} (hW : FxIn W fx) (ready : Nat) (t : Tbl RegCell) (r : Nat)
    (h : (tget (fxRegs fx ready t) r).isSome = true) : (tget t r).isSome = true ∨ r ∈ W := by
  unfold fxRegs at h
  rcases foldl_tput_isSome (fun g r => { st := .empty, val := if fx.armed then 0 else rv { regs := g } r, prod := fx.prod, armed := fx.armed })
    (fun r => r) _ _ r h with h1 | ⟨x, hx, hr⟩
  · rcases foldl_tput_isSome (fun _ (x : Nat × Word) => { val := x.2, ready := ready }) (·.1) _ _ r h1 with h2 | ⟨x, hx, hr⟩
    · exact .inl h2
    · exact .inr (by rw [← hr]; exact hW.regs x hx)
  · exact .inr (by rw [← hr]; exact hW.empties x hx)
theorem filter_isSome (t : Tbl RegCell) (l : List Nat) (r : Nat) (h : (tget (t.filter fun e => !l.contains e.1) r).isSome = true) :
    (tget t r).isSome = true := by
  rw [tget_filter t (fun k => !l.contains k) r] at h
  split at h
  · exact h
  · simp at h
/-- Moving on changes neither registers nor the sheaf. -/
theorem advance_regs (s : State) (n : Nat) (j : Option DWord) (th : Thread) : (advance s n j th).regs = th.regs := by
  unfold advance
  split <;> rfl
theorem advance_sheaf (s : State) (n : Nat) (j : Option DWord) (th : Thread) : (advance s n j th).sheaf = th.sheaf := by
  unfold advance
  split <;> rfl
theorem zeroFx_in {W : List Nat} (i : Instr) (fx : Option Fx) (hW : ∀ x, fx = some x → FxIn W x) (hi : ∀ r ∈ writes i, r ∈ W) :
    FxIn W (zeroFx i fx) := by
  unfold zeroFx
  split
  · rename_i x
    have h := hW x rfl
    refine ⟨fun y hy => ?_, h.empties⟩
    obtain ⟨z, hz, rfl⟩ := List.mem_map.mp hy
    exact h.regs z hz
  · refine ⟨fun y hy => ?_, fun r hr => absurd hr List.not_mem_nil⟩
    obtain ⟨z, hz, rfl⟩ := List.mem_map.mp hy
    exact hi z hz
theorem applyOff_isSome {W : List Nat} (i : Instr) (z : Bool) (fx : Option Fx) (hW : ∀ x, fx = some x → FxIn W x) (hi : ∀ r ∈ writes i, r ∈ W)
    (ready : Nat) (th : Thread) (r : Nat) (h : (tget (applyOff i z fx ready th).regs r).isSome = true) :
    (tget th.regs r).isSome = true ∨ r ∈ W := by
  have hrel : (tget (release (lastRegs i) (offBase i th)).regs r).isSome = true → (tget th.regs r).isSome = true := by
    rw [offBase_eq]
    exact filter_isSome _ _ _
  rw [applyOff_eq] at h
  split at h
  · rcases fxRegs_isSome (zeroFx_in i fx hW hi) _ _ r h with h1 | h1
    · exact .inl (hrel h1)
    · exact .inr h1
  · exact .inl (hrel h)
theorem applyOff_sheaf (i : Instr) (z : Bool) (fx : Option Fx) (ready : Nat) (th : Thread) : (applyOff i z fx ready th).sheaf = th.sheaf := by
  rw [applyOff_eq, offBase_eq]
  split <;> rfl
/-- The commit gives a thread no register but those of its instruction's parts, and leaves its sheaf. -/
theorem commitThread_within {W : List Nat} (i : Instr) (s : State) (n ready : Nat) (z : Bool) (some1 : Option Fx) (fxs : List (Nat × Fx))
    (hW : ∀ e ∈ fxs, FxIn W e.2) (h1 : ∀ x, some1 = some x → FxIn W x) (hi : ∀ r ∈ writes i, r ∈ W) (t : Nat) (th : Thread) :
    (commitThread i s n ready z some1 fxs t th).sheaf = th.sheaf ∧
      ∀ r, (tget (commitThread i s n ready z some1 fxs t th).regs r).isSome = true → (tget th.regs r).isSome = true ∨ r ∈ W := by
  unfold commitThread
  extract_lets cyc
  split
  · rename_i fx hfx
    have hin : FxIn W fx := hW _ (tget_mem _ _ _ hfx)
    split
    · exact ⟨rfl, fun r h => .inl h⟩
    · split
      · exact ⟨rfl, fun r h => .inl h⟩
      · split
        · refine ⟨?_, fun r h => ?_⟩
          · simp only [startWait, applyResults_eq, orFlags, flagsAt_eq]
          · simp only [startWait, applyResults_eq, orFlags, flagsAt_eq] at h
            exact fxRegs_isSome hin _ _ r h
        · rw [advance_sheaf, advance_regs, applyFx_eq]
          refine ⟨rfl, fun r h => ?_⟩
          rcases fxRegs_isSome hin _ _ r h with h2 | h2
          · exact .inl (filter_isSome _ _ _ h2)
          · exact .inr h2
  · rw [advance_sheaf, advance_regs]
    exact ⟨applyOff_sheaf .., fun r h => applyOff_isSome i z some1 h1 hi ready th r h⟩

/-! ### The clean drill -/

theorem setTag_within (th : Thread) (r : Nat) (t : Tag) (u : Bool) (q : Nat) : (tget (setTag th r t u).regs q).isSome = (tget th.regs q).isSome :=
  tupd_isSome ..
/-- A core that is another but for its threads. -/
structure ThreadsOnly (c c' : Core) : Prop where
  eq : c' = { c with threads := c'.threads }
  within : Within c c'
theorem ThreadsOnly.refl (c : Core) : ThreadsOnly c c := ⟨rfl, Within.refl _⟩
theorem ThreadsOnly.trans {a b c : Core} (h : ThreadsOnly a b) (k : ThreadsOnly b c) : ThreadsOnly a c :=
  ⟨by rw [k.eq, h.eq], h.within.trans k.within⟩
theorem tagMap_only (c : Core) (p : Nat → Thread → Bool) (r : Nat) (t : Thread → Tag) (u : Bool) :
    ThreadsOnly c { c with threads := tmap c.threads fun k th => if p k th then setTag th r (t th) u else th } := by
  refine ⟨rfl, Within.tmap _ _ (fun k th => if p k th then setTag th r (t th) u else th) rfl rfl ?_ ?_⟩
  · intro e _
    split <;> rfl
  · intro e _ q hq
    split at hq
    · rwa [setTag_within] at hq
    · exact hq
theorem foldl_only {α : Type} (f : Core → α → Core) (h : ∀ c x, ThreadsOnly c (f c x)) (l : List α) (c : Core) : ThreadsOnly c (l.foldl f c) := by
  induction l generalizing c with
  | nil => exact ThreadsOnly.refl _
  | cons x l ih => exact (h c x).trans (ih _)
theorem retag_only (u : Bool) (w : List Nat) (c : Core) (r : Nat) : ThreadsOnly c (retag u w c r) :=
  (tagMap_only c (fun t th => w.contains t && th.sheaf.isNone) r (fun _ => .uniform) false).trans
    (foldl_only _ (fun c k => tagMap_only c (fun _ th => th.sheaf == some k) r (fun _ => _) _) _ _)
theorem retagGeneral_only (w : List Nat) (c : Core) (r : Nat) : ThreadsOnly c (retagGeneral w c r) :=
  tagMap_only c (fun _ th => ((w.filterMap fun t => (tget c.threads t).bind (·.sheaf)).eraseDups).any fun k => th.sheaf == some k) r
    (fun th => if sheafSize c th ≤ 1 then .uniform else .general) false

theorem drillThreads_tids {i : Instr} {s : State} {t : Nat} (h : t ∈ (drillThreads i s).map (·.1)) : t ∈ s.cur.tids := by
  obtain ⟨e, he, rfl⟩ := List.mem_map.mp h
  obtain ⟨th0, _, ht, _⟩ := mem_drillThreads (t := e.1) (th := e.2) he
  exact ht
theorem committed_slots {i : Instr} {lat : Lat} {fxs : List (Nat × Fx)} {s s1 : State} (hW : ∀ e ∈ fxs, FxIn (writes i) e.2)
    (hcur : s1.cur = s.cur) {b a : Nat} (h : coreSlots (committed i lat fxs s s1) b a) : evictSlots i s1 b a := by
  unfold committed at h
  extract_lets ths zero some1 c c' at h
  have honly : ThreadsOnly c' ((writes i).foldl (fun c r => match tagsNow fxs zero ths r with
    | [] => c
    | w => if !isUnif s && fxs.any (fun e => e.2.armed) then retagGeneral w c r else retag (isUnif s) w c r) c') := by
    refine foldl_only _ (fun c r => ?_) _ _
    split
    · exact ThreadsOnly.refl _
    · split
      · exact retagGeneral_only ..
      · exact retag_only ..
  have h1 : ∀ x, some1 = some x → FxIn (writes i) x := by
    intro x hx
    obtain ⟨e, he, rfl⟩ := Option.map_eq_some_iff.mp hx
    exact hW e (List.mem_of_find?_eq_some he)
  have hth : ∀ e' ∈ c'.threads, ∃ e ∈ c.threads, e.1 = e'.1 ∧ e.2.sheaf = e'.2.sheaf ∧ ∀ r, (tget e'.2.regs r).isSome = true →
      ((tget e.2.regs r).isSome = true ∨ (e.1 ∈ s.cur.tids ∧ r ∈ writes i)) := by
    intro e' he'
    obtain ⟨e, he, rfl⟩ := List.mem_map.mp he'
    refine ⟨e, he, rfl, ?_, ?_⟩
    · simp only
      split
      · exact (commitThread_within i s1 _ _ zero some1 fxs hW h1 (fun _ h => h) e.1 e.2).1.symm
      · rfl
    · intro r hr
      simp only at hr
      split at hr
      · rename_i hc
        rcases (commitThread_within i s1 _ _ zero some1 fxs hW h1 (fun _ h => h) e.1 e.2).2 r hr with h2 | h2
        · exact .inl h2
        · exact .inr ⟨drillThreads_tids (by simpa using hc), h2⟩
      · exact .inl hr
  unfold evictSlots
  rw [hcur]
  rcases honly.within.slots h with ⟨e', he', r, hr, h2⟩ | ⟨e', he', k, r, hk, hr, h2⟩
  · obtain ⟨e, he, h3, h4, h5⟩ := hth e' he'
    exact .inl ⟨e, he, r, h5 r hr, by rw [h3]; exact h2⟩
  · obtain ⟨e, he, h3, h4, h5⟩ := hth e' he'
    exact .inr ⟨e, he, k, r, h4.trans hk, h5 r hr, h2⟩
theorem committed_only (i : Instr) (lat : Lat) (fxs : List (Nat × Fx)) (s s1 : State) :
    committed i lat fxs s s1 = { getCore s1 s.cur.core with threads := (committed i lat fxs s s1).threads } := by
  have : ∀ (l : List Nat) (c c0 : Core), c = { c0 with threads := c.threads } →
      l.foldl (fun c r => match tagsNow fxs (zeroOf i && !(activeThreads i s).isEmpty) (drillThreads i s) r with
        | [] => c
        | w => if !isUnif s && fxs.any (fun e => e.2.armed) then retagGeneral w c r else retag (isUnif s) w c r) c
      = { c0 with threads := (l.foldl (fun c r => match tagsNow fxs (zeroOf i && !(activeThreads i s).isEmpty) (drillThreads i s) r with
        | [] => c
        | w => if !isUnif s && fxs.any (fun e => e.2.armed) then retagGeneral w c r else retag (isUnif s) w c r) c).threads } := by
    intro l c c0 hc
    have := (foldl_only (fun c r => match tagsNow fxs (zeroOf i && !(activeThreads i s).isEmpty) (drillThreads i s) r with
        | [] => c
        | w => if !isUnif s && fxs.any (fun e => e.2.armed) then retagGeneral w c r else retag (isUnif s) w c r) (fun c r => by
          split
          · exact ThreadsOnly.refl _
          · split
            · exact retagGeneral_only ..
            · exact retag_only ..) l c).eq
    rw [this, hc]
  exact this (writes i) _ (getCore s1 s.cur.core) rfl

theorem takeFaults_nil (s : State) (ci : Nat) : takeFaults s ci [] = s := rfl
theorem stepCheck_none (ci u : Nat) (p : Nat → Thread → Bool) (s : State) (h : ∀ th, getThread s ci u = some th → p u th = false) :
    stepCheck ci p s u = s := by
  unfold stepCheck
  split
  · rename_i th hth
    rw [h th hth]
    rfl
  · rfl
theorem foldl_stepCheck_none (ci : Nat) (p : Nat → Thread → Bool) (l : List Nat) (s : State)
    (h : ∀ u ∈ l, ∀ th, getThread s ci u = some th → p u th = false) : l.foldl (stepCheck ci p) s = s := by
  induction l with
  | nil => rfl
  | cons u l ih =>
    simp only [List.foldl_cons]
    rw [stepCheck_none ci u p s (h u (List.mem_cons_self ..))]
    exact ih fun v hv => h v (List.mem_cons_of_mem _ hv)

theorem drillDone_besides (s : State) (n : Nat) : besides (drillDone s n) = besides s := rfl
theorem drillDone_mem (s : State) (n : Nat) : (drillDone s n).mem = s.mem := rfl
theorem drillDone_others (s : State) (n cj : Nat) (h : cj ≠ s.cur.core) : tget (drillDone s n).cores cj = tget s.cores cj := by
  unfold drillDone
  extract_lets d
  exact tget_tput_ne _ _ _ _ h
theorem drillDone_core (s : State) (n : Nat) :
    ∃ lp up, getCore (drillDone s n) s.cur.core = { getCore s s.cur.core with lanePol := lp, uniPol := up } := by
  have hg : getCore { s with free := s.free + 1 } s.cur.core = getCore s s.cur.core := rfl
  unfold drillDone
  extract_lets d
  rw [updCore_eq, getCore_putCore_self, hg]
  extract_lets pol
  split
  · exact ⟨_, _, rfl⟩
  · exact ⟨_, _, rfl⟩
theorem updThreads_within (s : State) (ci : Nat) (l : List Nat) (f : Thread → Thread) (hs : ∀ th, (f th).sheaf = th.sheaf)
    (hr : ∀ th r, (tget (f th).regs r).isSome = true → (tget th.regs r).isSome = true) :
    Within (getCore s ci) (getCore (updThreads s ci l f) ci) := by
  have h : getCore (updThreads s ci l f) ci
      = { getCore s ci with threads := tmap (getCore s ci).threads fun t th => if l.contains t then f th else th } := getCore_putCore_self ..
  rw [h]
  refine Within.tmap _ _ (fun t th => if l.contains t then f th else th) rfl rfl ?_ ?_
  · intro e _
    split
    · exact hs e.2
    · rfl
  · intro e _ r h
    split at h
    · exact hr e.2 r h
    · exact h
theorem lateWrites_settles (s : State) (ci ev b : Nat) (l w : List Nat) : Settles ci b s (lateWrites s ci ev l w) := by
  unfold lateWrites
  split
  · exact Settles.refl _ _ _
  · refine ⟨rfl, fun cj hj => tget_tput_ne _ _ _ _ hj, ?_, ?_, fun _ _ _ => rfl, fun _ _ => rfl⟩
    · simp only [updThreads, updCore_eq, getCore_putCore_self]
    · refine updThreads_within _ _ _ _ (fun _ => rfl) fun th r hr => ?_
      have h := (laterReady_alike th w (2 * ev)).isSome r
      rw [← h]
      exact hr
/-- A drill in which no thread faults and none is stepped, in a core whose fallow store is set up: beside what its parts did (s1) it touches
the threads of its core, the policy of its pipe and the slots to which its writes evict. -/
theorem runDrill_frame {i : Instr} {lat : Lat} {part : Part} {s s1 : State} {fxs : List (Nat × Fx)} {b : Nat}
    (hparts : drillParts i part (activeThreads i s) s = (s1, fxs)) (hne : activeThreads i s ≠ []) (hcur : s1.cur = s.cur)
    (hsh : shapeFault i s (activeThreads i s) = none) (hff : ∀ e ∈ fxs, e.2.fault = none) (hW : ∀ e ∈ fxs, FxIn (writes i) e.2)
    (hex : ∀ t ∈ (drillThreads i s).map (·.1), ∃ th, getThread s1 s.cur.core t = some th ∧ th.stepping = none)
    (hoff : offFxs i s = []) (hb : fallowBase (getCore s1 s.cur.core) = some b) (hbad : s1.bad = []) :
    CleanFrame i b s1 (runDrill i lat part s) := by
  have hnof : ((drillThreads i s).filterMap fun e => ((tget fxs e.1).bind (·.fault)).map fun f => (e.1, f)) = [] := by
    rw [List.filterMap_eq_nil_iff]
    intro e _
    cases hfx : tget fxs e.1 with
    | none => rfl
    | some fx =>
      have h0 : fx.fault = none := hff _ (tget_mem _ _ _ hfx)
      simp only [Option.bind_some, h0, Option.map_none]
  have hok : SpillsOk s1 s.cur.core := ⟨by rw [hb]; rfl, hbad⟩
  have hok' := committed_ok (i := i) (lat := lat) (fxs := fxs) hok
  rw [runDrill_eq i lat part s hne hsh, hparts, hoff, List.append_nil]
  have hcb : fallowBase (committed i lat fxs s s1) = some b := by
    rw [← hb, committed_only]
    rfl
  unfold settled
  generalize hci : s.cur.core = ci at *
  extract_lets keep all x s2 s3 s4
  have hput : getCore (putCore s1 ci (committed i lat fxs s s1)) ci = committed i lat fxs s s1 := getCore_putCore_self ..
  have h1 : Settles ci b (putCore s1 ci (committed i lat fxs s s1)) x.1 :=
    settleBanks_settles _ _ ci b _ _ _ (by rw [hput]; exact hcb) hbad
  have h2 : Settles ci b (putCore s1 ci (committed i lat fxs s s1)) s2 := h1.trans (lateWrites_settles ..)
  have hstay : ∀ t ∈ (drillThreads i s).map (·.1), ∀ th, getThread s2 ci t = some th → th.stepping = none := by
    intro t ht th hth
    obtain ⟨th1, h0, hs0⟩ := hex t ht
    obtain ⟨c1, hc1, hal⟩ := committed_stays i lat fxs s s1 t th1 (by rw [hci]; exact h0) ht
    have hs1 : c1.stepping = none := by rw [hal.stepping, commitThread_stepping, hs0]
    have hst2 : StaysS ci t (putCore s1 ci (committed i lat fxs s s1)) s2 := by
      have hx1 : StaysS ci t (putCore s1 ci (committed i lat fxs s s1)) x.1 := (settleBanks_stays _ _ _ _ _ _ _ hok').stays
      exact hx1.trans (lateWrites_stays ..)
    obtain ⟨z, hz, hcz⟩ := hst2.out c1 (by rw [hput]; exact hc1)
    have : z = th := Option.some.inj (hz.symm.trans hth)
    rw [← this, hcz.stepping, hs1]
  have h3 : s3 = s2 := by
    simp only [s3, hnof]
    rfl
  have h4 : s4 = s2 := by
    simp only [s4]
    rw [h3]
    refine foldl_stepCheck_none _ _ _ _ fun u hu th hth => ?_
    simp only [hstay u hu th hth, Option.isSome_none, Bool.false_and]
  rw [h4]
  have hcur2 : s2.cur.core = ci := by
    have h5 := congrArg State.cur h2.state
    have h6 : s2.cur = s1.cur := h5
    rw [h6, hcur, hci]
  have hs1c : s1.cur.core = ci := by rw [hcur, hci]
  have hcore : getCore s2 ci = { getCore s1 ci with threads := (getCore s2 ci).threads } := by
    have h5 := h2.core
    rw [hput, committed_only, hci] at h5
    exact h5
  have hbes : besides (putCore s1 ci (committed i lat fxs s s1)) = besides s1 := rfl
  have hsp : ∀ a, Spared i s1 b a → CoreSpared (putCore s1 ci (committed i lat fxs s s1)) ci b a := by
    intro a ha
    unfold CoreSpared
    rw [hput]
    exact ha.imp id fun ha x hx hc => ha x hx (committed_slots hW hcur hc)
  refine ⟨(drillDone_besides s2 _).trans (h2.state.trans hbes), ?_, ?_, ?_, fun a ha => h2.keys a (hsp a ha)⟩
  · intro cj hj
    rw [hs1c] at hj
    rw [drillDone_others s2 _ cj (by rw [hcur2]; exact hj), h2.others cj hj]
    exact tget_tput_ne _ _ _ _ hj
  · obtain ⟨lp, up, h6⟩ := drillDone_core s2 (drillTime i s)
    rw [hcur2, hcore] at h6
    rw [hs1c, h6]
  · intro a ha hs
    rw [drillDone_mem, h2.mem a ?_ (hsp a hs)]
    · rfl
    · rw [hput]
      exact fun hc => ha (committed_slots hW hcur hc)

/-- The same, for an instruction that only computes. -/
theorem runDrill_clean {i : Instr} {lat : Lat} {f : Thread → Fx} {s : State} {b : Nat} (hne : activeThreads i s ≠ [])
    (hpf : ∀ e ∈ activeThreads i s, preFault i s (activeThreads i s) e.2 = none)
    (hff : ∀ e ∈ activeThreads i s, (f e.2).fault = none ∧ (f (leadMode (activeThreads i s) e.2)).fault = none)
    (hW : ∀ e ∈ activeThreads i s, FxIn (writes i) (f e.2) ∧ FxIn (writes i) (f (leadMode (activeThreads i s) e.2)))
    (hst : ∀ t ∈ (drillThreads i s).map (·.1), ∀ th, getThread s s.cur.core t = some th → th.stepping = none)
    (hoff : offFxs i s = []) (hb : fallowBase (getCore s s.cur.core) = some b) (hbad : s.bad = []) :
    CleanFrame i b s (runDrill i lat (pureFx f) s) := by
  have hfx : ∀ e ∈ pureFxs i f s (activeThreads i s), ∃ x ∈ activeThreads i s, e.2 = f x.2 ∨ e.2 = f (leadMode (activeThreads i s) x.2) := by
    intro e he
    have hm : ∃ x ∈ activeThreads i s, x.1 = e.1 := by
      unfold pureFxs at he
      split at he
      · split at he
        · obtain ⟨x, hx, rfl⟩ := List.mem_map.mp he
          exact ⟨x, hx, rfl⟩
        · obtain ⟨x, hx, rfl⟩ := List.mem_map.mp he
          exact ⟨x, hx, rfl⟩
      · obtain ⟨x, hx, rfl⟩ := List.mem_map.mp he
        exact ⟨x, hx, rfl⟩
    obtain ⟨x, hx, hxe⟩ := hm
    have := pureFxs_at (t := x.1) (th := x.2) hx (hpf x hx) e he hxe.symm
    rw [this]
    unfold activeFx
    split
    · split
      · rename_i lead hl
        exact ⟨lead, List.mem_of_find?_eq_some hl, .inr rfl⟩
      · exact ⟨x, hx, .inl rfl⟩
    · exact ⟨x, hx, .inl rfl⟩
  obtain ⟨x0, hx0⟩ := List.exists_mem_of_ne_nil _ hne
  refine runDrill_frame (drillParts_pure i f (activeThreads i s) s) hne rfl (shapeFault_none (hpf x0 hx0)) ?_ ?_ ?_ hoff hb hbad
  · intro e he
    obtain ⟨x, hx, hex⟩ := hfx e he
    rcases hex with h | h
    · rw [h, (hff x hx).1]
    · rw [h, (hff x hx).2]
  · intro e he
    obtain ⟨x, hx, hex⟩ := hfx e he
    rcases hex with h | h
    · rw [h]
      exact (hW x hx).1
    · rw [h]
      exact (hW x hx).2
  · intro t ht
    obtain ⟨y, hy, hyt⟩ := List.mem_map.mp ht
    obtain ⟨th0, h0, _⟩ := mem_drillThreads (t := y.1) (th := y.2) hy
    rw [← hyt]
    exact ⟨th0, h0, hst y.1 (by rw [hyt]; exact ht) th0 h0⟩

end Sys2Proof.Machine
end

