-- ==== Sys2Proof/Laws/Encode.lean ====
section
/-!
SUPPORT. Bounds of the encoder's fields and what the length of an instruction depends on (R175, R178 to R187).
-/
namespace Sys2Proof.Laws
open Sys2Proof

theorem encSrc_lt (s : Src) : encSrc s < 256 := by
  have h1 := s.reg.isLt
  have h2 := Bool.toNat_le s.last
  have h3 := Bool.toNat_le s.etrap
  unfold encSrc
  omega
theorem encPipe_or (p : Pipe) : encPipe p = 0 ∨ encPipe p = 2147483648 := by cases p <;> simp [encPipe]
theorem encPipe_lane : encPipe .lane = 0 := rfl
theorem encPipe_unif : encPipe .unif = 2147483648 := rfl
theorem encMat_lt (m : MatWord) : encMat m < 16777216 := by
  have h1 := m.acc.isLt
  have h2 := m.a.isLt
  have h3 := m.b.isLt
  have h4 := m.pair.isLt
  unfold encMat
  omega

/-- Outside SY and EX every instruction has one word. -/
theorem baseLen_fields (n : Nat) (hf : n / 268435456 % 8 ≠ 5) (hg : n / 268435456 % 8 ≠ 7) : baseLen n = 1 := by
  simp [baseLen, fieldN, hf, hg]
/-- In SY only `safe` has more than one word. -/
theorem baseLen_sy (n : Nat) (hf : n / 268435456 % 8 = 5) (hg : n / 4194304 % 64 ≠ 7) : baseLen n = 1 := by
  simp [baseLen, fieldN, hf, hg]
/-- `safe` has three words. -/
theorem baseLen_safe (n : Nat) (hf : n / 268435456 % 8 = 5) (hg : n / 4194304 % 64 = 7) : baseLen n = 3 := by
  simp [baseLen, fieldN, hf, hg]
/-- In EX the opcodes of `liw`, the matrix issues, `ldsp` and `stn` have two words. -/
theorem baseLen_ex (n : Nat) (hf : n / 268435456 % 8 = 7)
    (hg : n / 16777216 % 16 ∉ [1, 2, 3, 4, 8, 10]) : baseLen n = 1 := by
  simp at hg
  simp [baseLen, fieldN, hf, hg]
theorem baseLen_ex2 (n : Nat) (hf : n / 268435456 % 8 = 7) (hg : n / 16777216 % 16 ∈ [1, 2, 3, 4, 8, 10]) : baseLen n = 2 := by
  simp at hg
  simp [baseLen, fieldN, hf, hg]

theorem len_RR (op : Nat) (o : RR) (h : op < 64) : baseLen ((encRR op o).getD 0 0).toNat = (encRR op o).length := by
  have ha := encSrc_lt o.a
  have hb := encSrc_lt o.b
  have hd := o.d.isLt
  have hp := encPipe_or o.p
  simp only [encRR, wd, List.getD_cons_zero, List.length_singleton, BitVec.toNat_ofNat]
  apply baseLen_fields <;> omega
theorem len_R1 (op : Nat) (o : R1) (h : op < 64) : baseLen ((encR1 op o).getD 0 0).toNat = (encR1 op o).length := by
  have ha := encSrc_lt o.a
  have hd := o.d.isLt
  have hp := encPipe_or o.p
  simp only [encR1, wd, List.getD_cons_zero, List.length_singleton, BitVec.toNat_ofNat]
  apply baseLen_fields <;> omega
theorem len_Cmp (op : Nat) (o : Cmp) (h : op < 64) : baseLen ((encCmp op o).getD 0 0).toNat = (encCmp op o).length := by
  have ha := encSrc_lt o.a
  have hb := encSrc_lt o.b
  have hd := o.pd.isLt
  have hc := o.cond.isLt
  have hp := encPipe_or o.p
  simp only [encCmp, wd, List.getD_cons_zero, List.length_singleton, BitVec.toNat_ofNat]
  apply baseLen_fields <;> omega
theorem len_CmpI (op : Nat) (o : CmpI) (h : op < 32) : baseLen ((encCmpI op o).getD 0 0).toNat = (encCmpI op o).length := by
  have ha := encSrc_lt o.a
  have hi := o.imm.isLt
  have hd := o.pd.isLt
  have hc := o.cond.isLt
  have hp := encPipe_or o.p
  simp only [encCmpI, wd, List.getD_cons_zero, List.length_singleton, BitVec.toNat_ofNat]
  apply baseLen_fields <;> omega
theorem len_AT (k : Nat) (o : AtOp) (h : k < 16) : baseLen ((encAT k o).getD 0 0).toNat = (encAT k o).length := by
  have ha := encSrc_lt o.a
  have hv := encSrc_lt o.v
  have hd := o.d.isLt
  have hs := Bool.toNat_le o.sp
  have hr := Bool.toNat_le o.ret
  simp only [encAT, wd, List.getD_cons_zero, List.length_singleton, BitVec.toNat_ofNat]
  apply baseLen_fields <;> omega
theorem len_BR (k : Nat) (o : BrOp) (h : k < 8) : baseLen ((encBR k o).getD 0 0).toNat = (encBR k o).length := by
  have h1 := o.word.isLt
  have h2 := o.delta.isLt
  have h3 := o.pred.isLt
  have h4 := Bool.toNat_le o.neg
  simp only [encBR, wd, List.getD_cons_zero, List.length_singleton, BitVec.toNat_ofNat]
  apply baseLen_fields <;> omega

end Sys2Proof.Laws
end

