-- ==== Sys2Proof/Laws/PerInstr.lean ====
section
/-!
SUPPORT. Statements made of every instruction as syntax: Length, the number of words that the first word tells (R175) is the number that
the encoder writes.
-/
set_option Elab.async false
namespace Sys2Proof.Laws.Length
open Sys2Proof Sys2Proof.Laws

/-- The length read from the first word is the number of words (R175). -/
def Statement (i : Instr) : Prop := hasWords i = true → baseLen ((encodeBase i).getD 0 0).toNat = (encodeBase i).length

theorem add (o : RR) : Statement (.add o) := fun _ => len_RR 0 o (by decide)
theorem sub (o : RR) : Statement (.sub o) := fun _ => len_RR 1 o (by decide)
theorem mul (o : RR) : Statement (.mul o) := fun _ => len_RR 2 o (by decide)
theorem mulhiI32 (o : RR) : Statement (.mulhiI32 o) := fun _ => len_RR 3 o (by decide)
theorem mulhiN32 (o : RR) : Statement (.mulhiN32 o) := fun _ => len_RR 4 o (by decide)
theorem minI32 (o : RR) : Statement (.minI32 o) := fun _ => len_RR 5 o (by decide)
theorem maxI32 (o : RR) : Statement (.maxI32 o) := fun _ => len_RR 6 o (by decide)
theorem minN32 (o : RR) : Statement (.minN32 o) := fun _ => len_RR 7 o (by decide)
theorem maxN32 (o : RR) : Statement (.maxN32 o) := fun _ => len_RR 8 o (by decide)
theorem and (o : RR) : Statement (.and o) := fun _ => len_RR 9 o (by decide)
theorem or (o : RR) : Statement (.or o) := fun _ => len_RR 10 o (by decide)
theorem xor (o : RR) : Statement (.xor o) := fun _ => len_RR 11 o (by decide)
theorem andn (o : RR) : Statement (.andn o) := fun _ => len_RR 12 o (by decide)
theorem shl (o : RR) : Statement (.shl o) := fun _ => len_RR 13 o (by decide)
theorem shr (o : RR) : Statement (.shr o) := fun _ => len_RR 14 o (by decide)
theorem sar (o : RR) : Statement (.sar o) := fun _ => len_RR 15 o (by decide)
theorem rotl (o : RR) : Statement (.rotl o) := fun _ => len_RR 16 o (by decide)
theorem bfeN32 (o : RR) : Statement (.bfeN32 o) := fun _ => len_RR 17 o (by decide)
theorem bfeI32 (o : RR) : Statement (.bfeI32 o) := fun _ => len_RR 18 o (by decide)
theorem bfi (o : RR) : Statement (.bfi o) := fun _ => len_RR 19 o (by decide)
theorem addB64 (o : RR) : Statement (.addB64 o) := fun _ => len_RR 20 o (by decide)
theorem subB64 (o : RR) : Statement (.subB64 o) := fun _ => len_RR 21 o (by decide)
theorem lea (o : RR) : Statement (.lea o) := fun _ => len_RR 22 o (by decide)
theorem lea4 (o : RR) : Statement (.lea4 o) := fun _ => len_RR 23 o (by decide)
theorem mulWideI32 (o : RR) : Statement (.mulWideI32 o) := fun _ => len_RR 24 o (by decide)
theorem mulWideN32 (o : RR) : Statement (.mulWideN32 o) := fun _ => len_RR 25 o (by decide)
theorem mad (o : RR) : Statement (.mad o) := fun _ => len_RR 26 o (by decide)
theorem clz (o : R1) : Statement (.clz o) := fun _ => len_R1 27 o (by decide)
theorem popc (o : R1) : Statement (.popc o) := fun _ => len_R1 28 o (by decide)
theorem brev (o : R1) : Statement (.brev o) := fun _ => len_R1 29 o (by decide)
theorem mov (o : R1) : Statement (.mov o) := fun _ => len_R1 30 o (by decide)
theorem icmpI32 (o : Cmp) : Statement (.icmpI32 o) := fun _ => len_Cmp 31 o (by decide)
theorem icmpN32 (o : Cmp) : Statement (.icmpN32 o) := fun _ => len_Cmp 32 o (by decide)
theorem addi (o : RI) : Statement (.addi o) := by
  intro _
  have := encPipe_or o.p
  have := encSrc_lt o.a
  have := o.d.isLt
  have := o.imm.isLt
  simp only [encodeBase, encRI, wd, List.getD_cons_zero, List.length_cons, List.length_nil, BitVec.toNat_ofNat]
  apply baseLen_fields <;> omega
theorem muli (o : RI) : Statement (.muli o) := by
  intro _
  have := encPipe_or o.p
  have := encSrc_lt o.a
  have := o.d.isLt
  have := o.imm.isLt
  simp only [encodeBase, encRI, wd, List.getD_cons_zero, List.length_cons, List.length_nil, BitVec.toNat_ofNat]
  apply baseLen_fields <;> omega
theorem andi (o : RI) : Statement (.andi o) := by
  intro _
  have := encPipe_or o.p
  have := encSrc_lt o.a
  have := o.d.isLt
  have := o.imm.isLt
  simp only [encodeBase, encRI, wd, List.getD_cons_zero, List.length_cons, List.length_nil, BitVec.toNat_ofNat]
  apply baseLen_fields <;> omega
theorem ori (o : RI) : Statement (.ori o) := by
  intro _
  have := encPipe_or o.p
  have := encSrc_lt o.a
  have := o.d.isLt
  have := o.imm.isLt
  simp only [encodeBase, encRI, wd, List.getD_cons_zero, List.length_cons, List.length_nil, BitVec.toNat_ofNat]
  apply baseLen_fields <;> omega
theorem xori (o : RI) : Statement (.xori o) := by
  intro _
  have := encPipe_or o.p
  have := encSrc_lt o.a
  have := o.d.isLt
  have := o.imm.isLt
  simp only [encodeBase, encRI, wd, List.getD_cons_zero, List.length_cons, List.length_nil, BitVec.toNat_ofNat]
  apply baseLen_fields <;> omega
theorem shli (o : ShI) : Statement (.shli o) := by
  intro _
  have := encPipe_or o.p
  have := encSrc_lt o.a
  have := o.d.isLt
  have := o.n.isLt
  simp only [encodeBase, encRI, wd, List.getD_cons_zero, List.length_cons, List.length_nil, BitVec.toNat_ofNat]
  apply baseLen_fields <;> omega
theorem shri (o : ShI) : Statement (.shri o) := by
  intro _
  have := encPipe_or o.p
  have := encSrc_lt o.a
  have := o.d.isLt
  have := o.n.isLt
  simp only [encodeBase, encRI, wd, List.getD_cons_zero, List.length_cons, List.length_nil, BitVec.toNat_ofNat]
  apply baseLen_fields <;> omega
theorem sari (o : ShI) : Statement (.sari o) := by
  intro _
  have := encPipe_or o.p
  have := encSrc_lt o.a
  have := o.d.isLt
  have := o.n.isLt
  simp only [encodeBase, encRI, wd, List.getD_cons_zero, List.length_cons, List.length_nil, BitVec.toNat_ofNat]
  apply baseLen_fields <;> omega
theorem rotli (o : ShI) : Statement (.rotli o) := by
  intro _
  have := encPipe_or o.p
  have := encSrc_lt o.a
  have := o.d.isLt
  have := o.n.isLt
  simp only [encodeBase, encRI, wd, List.getD_cons_zero, List.length_cons, List.length_nil, BitVec.toNat_ofNat]
  apply baseLen_fields <;> omega
theorem miniI32 (o : RI) : Statement (.miniI32 o) := by
  intro _
  have := encPipe_or o.p
  have := encSrc_lt o.a
  have := o.d.isLt
  have := o.imm.isLt
  simp only [encodeBase, encRI, wd, List.getD_cons_zero, List.length_cons, List.length_nil, BitVec.toNat_ofNat]
  apply baseLen_fields <;> omega
theorem maxiI32 (o : RI) : Statement (.maxiI32 o) := by
  intro _
  have := encPipe_or o.p
  have := encSrc_lt o.a
  have := o.d.isLt
  have := o.imm.isLt
  simp only [encodeBase, encRI, wd, List.getD_cons_zero, List.length_cons, List.length_nil, BitVec.toNat_ofNat]
  apply baseLen_fields <;> omega
theorem miniN32 (o : RI) : Statement (.miniN32 o) := by
  intro _
  have := encPipe_or o.p
  have := encSrc_lt o.a
  have := o.d.isLt
  have := o.imm.isLt
  simp only [encodeBase, encRI, wd, List.getD_cons_zero, List.length_cons, List.length_nil, BitVec.toNat_ofNat]
  apply baseLen_fields <;> omega
theorem maxiN32 (o : RI) : Statement (.maxiN32 o) := by
  intro _
  have := encPipe_or o.p
  have := encSrc_lt o.a
  have := o.d.isLt
  have := o.imm.isLt
  simp only [encodeBase, encRI, wd, List.getD_cons_zero, List.length_cons, List.length_nil, BitVec.toNat_ofNat]
  apply baseLen_fields <;> omega
theorem icmpiI32 (o : CmpI) : Statement (.icmpiI32 o) := fun _ => len_CmpI 13 o (by decide)
theorem icmpiN32 (o : CmpI) : Statement (.icmpiN32 o) := fun _ => len_CmpI 14 o (by decide)
theorem leai (o : RI) : Statement (.leai o) := by
  intro _
  have := encPipe_or o.p
  have := encSrc_lt o.a
  have := o.d.isLt
  have := o.imm.isLt
  simp only [encodeBase, encRI, wd, List.getD_cons_zero, List.length_cons, List.length_nil, BitVec.toNat_ofNat]
  apply baseLen_fields <;> omega
theorem bfeiN32 (o : BfI) : Statement (.bfeiN32 o) := by
  intro _
  have := encPipe_or o.p
  have := encSrc_lt o.a
  have := o.d.isLt
  have := o.lenM1.isLt
  have := o.pos.isLt
  simp only [encodeBase, encRI, wd, List.getD_cons_zero, List.length_cons, List.length_nil, BitVec.toNat_ofNat]
  apply baseLen_fields <;> omega
theorem bfeiI32 (o : BfI) : Statement (.bfeiI32 o) := by
  intro _
  have := encPipe_or o.p
  have := encSrc_lt o.a
  have := o.d.isLt
  have := o.lenM1.isLt
  have := o.pos.isLt
  simp only [encodeBase, encRI, wd, List.getD_cons_zero, List.length_cons, List.length_nil, BitVec.toNat_ofNat]
  apply baseLen_fields <;> omega
theorem passiAt (o : PassI) : Statement (.passiAt o) := by
  intro _
  have := encSrc_lt o.a
  have := o.d.isLt
  have := o.n.isLt
  simp only [encodeBase, encRI, encPipe_lane, wd, List.getD_cons_zero, List.length_cons, List.length_nil, BitVec.toNat_ofNat]
  apply baseLen_fields <;> omega
theorem passiOff (o : PassOff) : Statement (.passiOff o) := by
  intro _
  have := encSrc_lt o.a
  have := o.d.isLt
  have := o.n.isLt
  simp only [encodeBase, encRI, encPipe_lane, wd, List.getD_cons_zero, List.length_cons, List.length_nil, BitVec.toNat_ofNat]
  apply baseLen_fields <;> omega
theorem passiFlip (o : PassI) : Statement (.passiFlip o) := by
  intro _
  have := encSrc_lt o.a
  have := o.d.isLt
  have := o.n.isLt
  simp only [encodeBase, encRI, encPipe_lane, wd, List.getD_cons_zero, List.length_cons, List.length_nil, BitVec.toNat_ofNat]
  apply baseLen_fields <;> omega
theorem passiRot (o : PassI) : Statement (.passiRot o) := by
  intro _
  have := encSrc_lt o.a
  have := o.d.isLt
  have := o.n.isLt
  simp only [encodeBase, encRI, encPipe_lane, wd, List.getD_cons_zero, List.length_cons, List.length_nil, BitVec.toNat_ofNat]
  apply baseLen_fields <;> omega
theorem li (o : LiOp) : Statement (.li o) := by
  intro _
  have := encPipe_or o.p
  have := o.d.isLt
  have := o.imm.isLt
  simp only [encodeBase, encEX, wd, List.getD_cons_zero, List.length_cons, List.length_nil, BitVec.toNat_ofNat]
  apply baseLen_ex <;> first | omega | (simp; omega)
theorem liw (o : LiwOp) : Statement (.liw o) := by
  intro _
  have := encPipe_or o.p
  have := o.d.isLt
  simp only [encodeBase, encEX, wd, List.getD_cons_zero, List.length_cons, List.length_nil, BitVec.toNat_ofNat]
  apply baseLen_ex2 <;> first | omega | (simp; omega)
theorem fcmpF32 (o : Cmp) : Statement (.fcmpF32 o) := fun _ => len_Cmp 33 o (by decide)
theorem faddF32 (o : RR) : Statement (.faddF32 o) := fun _ => len_RR 34 o (by decide)
theorem fsubF32 (o : RR) : Statement (.fsubF32 o) := fun _ => len_RR 35 o (by decide)
theorem fmulF32 (o : RR) : Statement (.fmulF32 o) := fun _ => len_RR 36 o (by decide)
theorem ffmaF32 (o : RR) : Statement (.ffmaF32 o) := fun _ => len_RR 37 o (by decide)
theorem fminF32 (o : RR) : Statement (.fminF32 o) := fun _ => len_RR 38 o (by decide)
theorem fmaxF32 (o : RR) : Statement (.fmaxF32 o) := fun _ => len_RR 39 o (by decide)
theorem frcp (o : R1) : Statement (.frcp o) := fun _ => len_R1 40 o (by decide)
theorem frsq (o : R1) : Statement (.frsq o) := fun _ => len_R1 41 o (by decide)
theorem fsqrt (o : R1) : Statement (.fsqrt o) := fun _ => len_R1 42 o (by decide)
theorem fex2 (o : R1) : Statement (.fex2 o) := fun _ => len_R1 43 o (by decide)
theorem flg2 (o : R1) : Statement (.flg2 o) := fun _ => len_R1 44 o (by decide)
theorem fsin (o : R1) : Statement (.fsin o) := fun _ => len_R1 45 o (by decide)
theorem fcos (o : R1) : Statement (.fcos o) := fun _ => len_R1 46 o (by decide)
theorem ftanh (o : R1) : Statement (.ftanh o) := fun _ => len_R1 47 o (by decide)
theorem ftbl (o : R1) : Statement (.ftbl o) := fun _ => len_R1 48 o (by decide)
theorem scacc (o : RR) : Statement (.scacc o) := fun _ => len_RR 49 o (by decide)
theorem cvt (o : CvtOp) : Statement (.cvt o) := by
  intro _
  have := encSrc_lt o.a
  have := encPipe_or o.p
  have := o.d.isLt
  have := o.dst.isLt
  have := o.src.isLt
  simp only [encodeBase, wd, List.getD_cons_zero, List.length_cons, List.length_nil, BitVec.toNat_ofNat]
  apply baseLen_fields <;> omega
theorem pkBf2 (o : RR) : Statement (.pkBf2 o) := fun _ => len_RR 51 o (by decide)
theorem pkH2 (o : RR) : Statement (.pkH2 o) := fun _ => len_RR 52 o (by decide)
theorem pk8loE4m3 (o : RR) : Statement (.pk8loE4m3 o) := fun _ => len_RR 53 o (by decide)
theorem pk8hiE4m3 (o : RR) : Statement (.pk8hiE4m3 o) := fun _ => len_RR 54 o (by decide)
theorem pk8loE5m2 (o : RR) : Statement (.pk8loE5m2 o) := fun _ => len_RR 55 o (by decide)
theorem pk8hiE5m2 (o : RR) : Statement (.pk8hiE5m2 o) := fun _ => len_RR 56 o (by decide)
theorem haddBf2 (o : RR) : Statement (.haddBf2 o) := fun _ => len_RR 57 o (by decide)
theorem hmulBf2 (o : RR) : Statement (.hmulBf2 o) := fun _ => len_RR 58 o (by decide)
theorem hfmaBf2 (o : RR) : Statement (.hfmaBf2 o) := fun _ => len_RR 59 o (by decide)
theorem haddH2 (o : RR) : Statement (.haddH2 o) := fun _ => len_RR 60 o (by decide)
theorem hmulH2 (o : RR) : Statement (.hmulH2 o) := fun _ => len_RR 61 o (by decide)
theorem hfmaH2 (o : RR) : Statement (.hfmaH2 o) := fun _ => len_RR 62 o (by decide)
theorem fdivF32 (o : RR) : Statement (.fdivF32 o) := fun _ => len_RR 63 o (by decide)
theorem ld (o : LdOp) : Statement (.ld o) := by
  intro _
  have := encSrc_lt o.a
  have := encPipe_or o.p
  have := Bool.toNat_le o.sp
  have := o.size.isLt
  have := o.d.isLt
  have := o.off.isLt
  simp only [encodeBase, wd, List.getD_cons_zero, List.length_cons, List.length_nil, BitVec.toNat_ofNat]
  apply baseLen_fields <;> omega
theorem st (o : StOp) : Statement (.st o) := by
  intro _
  have := encSrc_lt o.v
  have := encSrc_lt o.a
  have := encPipe_or o.p
  have := Bool.toNat_le o.sp
  have := o.size.isLt
  have := o.off.isLt
  simp only [encodeBase, wd, List.getD_cons_zero, List.length_cons, List.length_nil, BitVec.toNat_ofNat]
  apply baseLen_fields <;> omega
theorem pf (o : PfOp) : Statement (.pf o) := by
  intro _
  have := encSrc_lt o.a
  have := encPipe_or o.p
  have := o.off.isLt
  simp only [encodeBase, wd, List.getD_cons_zero, List.length_cons, List.length_nil, BitVec.toNat_ofNat]
  apply baseLen_fields <;> omega
theorem atomAdd (o : AtOp) : Statement (.atomAdd o) := fun _ => len_AT 0 o (by decide)
theorem atomMinI32 (o : AtOp) : Statement (.atomMinI32 o) := fun _ => len_AT 1 o (by decide)
theorem atomMaxI32 (o : AtOp) : Statement (.atomMaxI32 o) := fun _ => len_AT 2 o (by decide)
theorem atomMinN32 (o : AtOp) : Statement (.atomMinN32 o) := fun _ => len_AT 3 o (by decide)
theorem atomMaxN32 (o : AtOp) : Statement (.atomMaxN32 o) := fun _ => len_AT 4 o (by decide)
theorem atomAnd (o : AtOp) : Statement (.atomAnd o) := fun _ => len_AT 5 o (by decide)
theorem atomOr (o : AtOp) : Statement (.atomOr o) := fun _ => len_AT 6 o (by decide)
theorem atomXor (o : AtOp) : Statement (.atomXor o) := fun _ => len_AT 7 o (by decide)
theorem atomXchg (o : AtOp) : Statement (.atomXchg o) := fun _ => len_AT 8 o (by decide)
theorem atomCas (o : AtOp) : Statement (.atomCas o) := fun _ => len_AT 9 o (by decide)
theorem atomAddB64 (o : AtOp) : Statement (.atomAddB64 o) := fun _ => len_AT 10 o (by decide)
theorem atomFaddF32 (o : AtOp) : Statement (.atomFaddF32 o) := fun _ => len_AT 11 o (by decide)
theorem atomFaddBf2 (o : AtOp) : Statement (.atomFaddBf2 o) := fun _ => len_AT 12 o (by decide)
theorem atomFmaxF32 (o : AtOp) : Statement (.atomFmaxF32 o) := fun _ => len_AT 13 o (by decide)
theorem atomFminF32 (o : AtOp) : Statement (.atomFminF32 o) := fun _ => len_AT 14 o (by decide)
theorem atomIncw (o : AtOp) : Statement (.atomIncw o) := fun _ => len_AT 15 o (by decide)
theorem ldsp (o : LdspOp) : Statement (.ldsp o) := by
  intro _
  have := encSrc_lt o.g
  have := encSrc_lt o.s
  have := encSrc_lt o.obj
  have := o.size.isLt
  simp only [encodeBase, encEX, encPipe_lane, wd, List.getD_cons_zero, List.length_cons, List.length_nil, BitVec.toNat_ofNat]
  apply baseLen_ex2 <;> first | omega | (simp; omega)
theorem br (o : BrOp) : Statement (.br o) := fun _ => len_BR 0 o (by decide)
theorem call (o : BrOp) : Statement (.call o) := fun _ => len_BR 1 o (by decide)
theorem spawn (o : BrOp) : Statement (.spawn o) := fun _ => len_BR 2 o (by decide)
theorem brx (o : IndOp) : Statement (.brx o) := by
  intro _
  have := encSrc_lt o.a
  simp only [encodeBase, encSY, encPipe_lane, wd, List.getD_cons_zero, List.length_cons, List.length_nil, BitVec.toNat_ofNat]
  apply baseLen_sy <;> omega
theorem callx (o : IndOp) : Statement (.callx o) := by
  intro _
  have := encSrc_lt o.a
  simp only [encodeBase, encSY, encPipe_lane, wd, List.getD_cons_zero, List.length_cons, List.length_nil, BitVec.toNat_ofNat]
  apply baseLen_sy <;> omega
theorem nop (p : Pipe) (_u0 : Option Px) : Statement (.nop p _u0) := by
  intro _
  have := encPipe_or p
  simp only [encodeBase, encSY, wd, List.getD_cons_zero, List.length_cons, List.length_nil, BitVec.toNat_ofNat]
  apply baseLen_sy <;> omega
theorem exit (_u0 : Option Px) : Statement (.exit _u0) := by
  intro _
  simp only [encodeBase, encSY, encPipe_lane, wd, List.getD_cons_zero, List.length_cons, List.length_nil, BitVec.toNat_ofNat]
  apply baseLen_sy <;> omega
theorem join (o : SyRR) : Statement (.join o) := by
  intro _
  have := encSrc_lt o.a
  have := encSrc_lt o.b
  have := o.d.isLt
  simp only [encodeBase, encSY, encPipe_lane, wd, List.getD_cons_zero, List.length_cons, List.length_nil, BitVec.toNat_ofNat]
  apply baseLen_sy <;> omega
theorem leave (_u0 : Option Px) : Statement (.leave _u0) := by
  intro _
  simp only [encodeBase, encSY, encPipe_lane, wd, List.getD_cons_zero, List.length_cons, List.length_nil, BitVec.toNat_ofNat]
  apply baseLen_sy <;> omega
theorem regroup (o : SyR1) : Statement (.regroup o) := by
  intro _
  have := encSrc_lt o.a
  have := o.d.isLt
  simp only [encodeBase, encSY, encPipe_lane, wd, List.getD_cons_zero, List.length_cons, List.length_nil, BitVec.toNat_ofNat]
  apply baseLen_sy <;> omega
theorem fuse (n : BitVec 16) : Statement (.fuse n) := by
  intro _
  have := n.isLt
  simp only [encodeBase, wd, List.getD_cons_zero, List.length_cons, List.length_nil, BitVec.toNat_ofNat]
  apply baseLen_sy <;> omega
theorem yield (n : BitVec 16) : Statement (.yield n) := by
  intro _
  have := n.isLt
  simp only [encodeBase, wd, List.getD_cons_zero, List.length_cons, List.length_nil, BitVec.toNat_ofNat]
  apply baseLen_sy <;> omega
theorem safe (t : BitVec 16) (p : BitVec 6) (lo : Word) (hi : Word) : Statement (.safe t p lo hi) := by
  intro _
  have := t.isLt
  have := p.isLt
  simp only [encodeBase, wd, List.getD_cons_zero, List.length_cons, List.length_nil, BitVec.toNat_ofNat]
  apply baseLen_safe <;> omega
theorem bar (m : BitVec 2) (b : BitVec 2) : Statement (.bar m b) := by
  intro _
  have := m.isLt
  have := b.isLt
  simp only [encodeBase, wd, List.getD_cons_zero, List.length_cons, List.length_nil, BitVec.toNat_ofNat]
  apply baseLen_sy <;> omega
theorem poll (_u0 : Option Px) (d : RegNo) (fn : BitVec 3) (neg : Bool) (k : PredNo) : Statement (.poll _u0 d fn neg k) := by
  intro _
  have := d.isLt
  have := fn.isLt
  have := Bool.toNat_le neg
  have := k.isLt
  simp only [encodeBase, wd, List.getD_cons_zero, List.length_cons, List.length_nil, BitVec.toNat_ofNat]
  apply baseLen_sy <;> omega
theorem sred (_u0 : Option Px) (d : RegNo) (a : Src) (fn : BitVec 4) : Statement (.sred _u0 d a fn) := by
  intro _
  have := encSrc_lt a
  have := d.isLt
  have := fn.isLt
  simp only [encodeBase, encSY, encPipe_lane, wd, List.getD_cons_zero, List.length_cons, List.length_nil, BitVec.toNat_ofNat]
  apply baseLen_sy <;> omega
theorem sscan (_u0 : Option Px) (d : RegNo) (a : Src) (exc : Bool) (fn : BitVec 4) : Statement (.sscan _u0 d a exc fn) := by
  intro _
  have := encSrc_lt a
  have := d.isLt
  have := Bool.toNat_le exc
  have := fn.isLt
  simp only [encodeBase, encSY, encPipe_lane, wd, List.getD_cons_zero, List.length_cons, List.length_nil, BitVec.toNat_ofNat]
  apply baseLen_sy <;> omega
theorem alike (_u0 : Option Px) (d : RegNo) (a : Src) (lead : Bool) : Statement (.alike _u0 d a lead) := by
  intro _
  have := encSrc_lt a
  have := d.isLt
  have := Bool.toNat_le lead
  simp only [encodeBase, encSY, encPipe_lane, wd, List.getD_cons_zero, List.length_cons, List.length_nil, BitVec.toNat_ofNat]
  apply baseLen_sy <;> omega
theorem passAt (o : SyRR) : Statement (.passAt o) := by
  intro _
  have := encSrc_lt o.a
  have := encSrc_lt o.b
  have := o.d.isLt
  simp only [encodeBase, encSY, encPipe_lane, wd, List.getD_cons_zero, List.length_cons, List.length_nil, BitVec.toNat_ofNat]
  apply baseLen_sy <;> omega
theorem passOff (o : SyRR) : Statement (.passOff o) := by
  intro _
  have := encSrc_lt o.a
  have := encSrc_lt o.b
  have := o.d.isLt
  simp only [encodeBase, encSY, encPipe_lane, wd, List.getD_cons_zero, List.length_cons, List.length_nil, BitVec.toNat_ofNat]
  apply baseLen_sy <;> omega
theorem passFlip (o : SyRR) : Statement (.passFlip o) := by
  intro _
  have := encSrc_lt o.a
  have := encSrc_lt o.b
  have := o.d.isLt
  simp only [encodeBase, encSY, encPipe_lane, wd, List.getD_cons_zero, List.length_cons, List.length_nil, BitVec.toNat_ofNat]
  apply baseLen_sy <;> omega
theorem passRot (o : SyRR) : Statement (.passRot o) := by
  intro _
  have := encSrc_lt o.a
  have := encSrc_lt o.b
  have := o.d.isLt
  simp only [encodeBase, encSY, encPipe_lane, wd, List.getD_cons_zero, List.length_cons, List.length_nil, BitVec.toNat_ofNat]
  apply baseLen_sy <;> omega
theorem abarInit (o : AbOp) : Statement (.abarInit o) := by
  intro _
  have := encSrc_lt o.a
  have := encSrc_lt o.b
  have := encPipe_or o.p
  simp only [encodeBase, encSY, wd, List.getD_cons_zero, List.length_cons, List.length_nil, BitVec.toNat_ofNat]
  apply baseLen_sy <;> omega
theorem abarArrive (p : Pipe) (_u0 : Option Px) (a : Src) : Statement (.abarArrive p _u0 a) := by
  intro _
  have := encSrc_lt a
  have := encPipe_or p
  simp only [encodeBase, encSY, wd, List.getD_cons_zero, List.length_cons, List.length_nil, BitVec.toNat_ofNat]
  apply baseLen_sy <;> omega
theorem abarDue (o : AbOp) : Statement (.abarDue o) := by
  intro _
  have := encSrc_lt o.a
  have := encSrc_lt o.b
  have := encPipe_or o.p
  simp only [encodeBase, encSY, wd, List.getD_cons_zero, List.length_cons, List.length_nil, BitVec.toNat_ofNat]
  apply baseLen_sy <;> omega
theorem abarWait (o : AbOp) : Statement (.abarWait o) := by
  intro _
  have := encSrc_lt o.a
  have := encSrc_lt o.b
  have := encPipe_or o.p
  simp only [encodeBase, encSY, wd, List.getD_cons_zero, List.length_cons, List.length_nil, BitVec.toNat_ofNat]
  apply baseLen_sy <;> omega
theorem abarTest (o : AbOp) (d : RegNo) : Statement (.abarTest o d) := by
  intro _
  have := encSrc_lt o.a
  have := encSrc_lt o.b
  have := encPipe_or o.p
  have := d.isLt
  simp only [encodeBase, encSY, wd, List.getD_cons_zero, List.length_cons, List.length_nil, BitVec.toNat_ofNat]
  apply baseLen_sy <;> omega
theorem fence (k : BitVec 3) (s : BitVec 3) : Statement (.fence k s) := by
  intro _
  have := k.isLt
  have := s.isLt
  simp only [encodeBase, wd, List.getD_cons_zero, List.length_cons, List.length_nil, BitVec.toNat_ofNat]
  apply baseLen_sy <;> omega
theorem rput (o : AbOp) : Statement (.rput o) := by
  intro _
  have := encSrc_lt o.a
  have := encSrc_lt o.b
  have := encPipe_or o.p
  simp only [encodeBase, encSY, wd, List.getD_cons_zero, List.length_cons, List.length_nil, BitVec.toNat_ofNat]
  apply baseLen_sy <;> omega
theorem arm (p : Pipe) (_u0 : Option Px) (d : RegNo) : Statement (.arm p _u0 d) := by
  intro _
  have := encPipe_or p
  have := d.isLt
  simp only [encodeBase, encSY, wd, List.getD_cons_zero, List.length_cons, List.length_nil, BitVec.toNat_ofNat]
  apply baseLen_sy <;> omega
theorem ctrWait (o : CtrWaitOp) : Statement (.ctrWait o) := by
  intro _
  have := encSrc_lt o.a
  have := o.c.isLt
  simp only [encodeBase, encSY, encPipe_lane, wd, List.getD_cons_zero, List.length_cons, List.length_nil, BitVec.toNat_ofNat]
  apply baseLen_sy <;> omega
theorem ctrRd (p : Pipe) (_u0 : Option Px) (d : RegNo) (c : BitVec 2) : Statement (.ctrRd p _u0 d c) := by
  intro _
  have := encPipe_or p
  have := d.isLt
  have := c.isLt
  simp only [encodeBase, encSY, wd, List.getD_cons_zero, List.length_cons, List.length_nil, BitVec.toNat_ofNat]
  apply baseLen_sy <;> omega
theorem plop (_u0 : Option Px) (pd : PredNo) (pa : PredNo) (pb : PredNo) (pc : PredNo) (tt : BitVec 8) : Statement (.plop _u0 pd pa pb pc tt) := by
  intro _
  have := pd.isLt
  have := pa.isLt
  have := pb.isLt
  have := pc.isLt
  have := tt.isLt
  simp only [encodeBase, wd, List.getD_cons_zero, List.length_cons, List.length_nil, BitVec.toNat_ofNat]
  apply baseLen_sy <;> omega
theorem pmovRd (_u0 : Option Px) (d : RegNo) : Statement (.pmovRd _u0 d) := by
  intro _
  have := d.isLt
  simp only [encodeBase, encSY, encPipe_lane, wd, List.getD_cons_zero, List.length_cons, List.length_nil, BitVec.toNat_ofNat]
  apply baseLen_sy <;> omega
theorem pmovWr (_u0 : Option Px) (a : Src) : Statement (.pmovWr _u0 a) := by
  intro _
  have := encSrc_lt a
  simp only [encodeBase, encSY, encPipe_lane, wd, List.getD_cons_zero, List.length_cons, List.length_nil, BitVec.toNat_ofNat]
  apply baseLen_sy <;> omega
theorem csrRd (_u0 : Option Px) (d : RegNo) (n : BitVec 8) : Statement (.csrRd _u0 d n) := by
  intro _
  have := d.isLt
  have := n.isLt
  simp only [encodeBase, encSY, encPipe_lane, wd, List.getD_cons_zero, List.length_cons, List.length_nil, BitVec.toNat_ofNat]
  apply baseLen_sy <;> omega
theorem csrWr (_u0 : Option Px) (a : Src) (n : BitVec 8) : Statement (.csrWr _u0 a n) := by
  intro _
  have := encSrc_lt a
  have := n.isLt
  simp only [encodeBase, encSY, encPipe_lane, wd, List.getD_cons_zero, List.length_cons, List.length_nil, BitVec.toNat_ofNat]
  apply baseLen_sy <;> omega
theorem time (p : Pipe) (_u0 : Option Px) (d : RegNo) : Statement (.time p _u0 d) := by
  intro _
  have := encPipe_or p
  have := d.isLt
  simp only [encodeBase, encSY, wd, List.getD_cons_zero, List.length_cons, List.length_nil, BitVec.toNat_ofNat]
  apply baseLen_sy <;> omega
theorem evt (p : Pipe) (_u0 : Option Px) (a : Src) (n : BitVec 8) : Statement (.evt p _u0 a n) := by
  intro _
  have := encSrc_lt a
  have := encPipe_or p
  have := n.isLt
  simp only [encodeBase, encSY, wd, List.getD_cons_zero, List.length_cons, List.length_nil, BitVec.toNat_ofNat]
  apply baseLen_sy <;> omega
theorem trap (_u0 : Option Px) (n : BitVec 16) : Statement (.trap _u0 n) := by
  intro _
  have := n.isLt
  simp only [encodeBase, wd, List.getD_cons_zero, List.length_cons, List.length_nil, BitVec.toNat_ofNat]
  apply baseLen_sy <;> omega
theorem brk (_u0 : Option Px) : Statement (.brk _u0) := by
  intro _
  simp only [encodeBase, encSY, encPipe_lane, wd, List.getD_cons_zero, List.length_cons, List.length_nil, BitVec.toNat_ofNat]
  apply baseLen_sy <;> omega
theorem nap (_u0 : Option Px) (cond : BitVec 3) (sp : Bool) (a : Src) (b : Src) : Statement (.nap _u0 cond sp a b) := by
  intro _
  have := encSrc_lt a
  have := encSrc_lt b
  have := cond.isLt
  have := Bool.toNat_le sp
  simp only [encodeBase, encSY, encPipe_lane, wd, List.getD_cons_zero, List.length_cons, List.length_nil, BitVec.toNat_ofNat]
  apply baseLen_sy <;> omega
theorem wpw (_u0 : Option Px) (a : Src) (ch : BitVec 4) : Statement (.wpw _u0 a ch) := by
  intro _
  have := encSrc_lt a
  have := ch.isLt
  simp only [encodeBase, encSY, encPipe_lane, wd, List.getD_cons_zero, List.length_cons, List.length_nil, BitVec.toNat_ofNat]
  apply baseLen_sy <;> omega
theorem shape (o : SyR1) : Statement (.shape o) := by
  intro _
  have := encSrc_lt o.a
  have := o.d.isLt
  simp only [encodeBase, encSY, encPipe_lane, wd, List.getD_cons_zero, List.length_cons, List.length_nil, BitVec.toNat_ofNat]
  apply baseLen_sy <;> omega
theorem expand (o : SyD) : Statement (.expand o) := by
  intro _
  have := o.d.isLt
  simp only [encodeBase, encSY, encPipe_lane, wd, List.getD_cons_zero, List.length_cons, List.length_nil, BitVec.toNat_ofNat]
  apply baseLen_sy <;> omega
theorem bcast (o : SyR1) : Statement (.bcast o) := by
  intro _
  have := encSrc_lt o.a
  have := o.d.isLt
  simp only [encodeBase, encSY, encPipe_lane, wd, List.getD_cons_zero, List.length_cons, List.length_nil, BitVec.toNat_ofNat]
  apply baseLen_sy <;> omega
theorem iota (o : SyRR) : Statement (.iota o) := by
  intro _
  have := encSrc_lt o.a
  have := encSrc_lt o.b
  have := o.d.isLt
  simp only [encodeBase, encSY, encPipe_lane, wd, List.getD_cons_zero, List.length_cons, List.length_nil, BitVec.toNat_ofNat]
  apply baseLen_sy <;> omega
theorem fragResume (_u0 : Option Px) (a : Src) : Statement (.fragResume _u0 a) := by
  intro _
  have := encSrc_lt a
  simp only [encodeBase, encSY, encPipe_lane, wd, List.getD_cons_zero, List.length_cons, List.length_nil, BitVec.toNat_ofNat]
  apply baseLen_sy <;> omega
theorem fragResumeSkip (_u0 : Option Px) (a : Src) : Statement (.fragResumeSkip _u0 a) := by
  intro _
  have := encSrc_lt a
  simp only [encodeBase, encSY, encPipe_lane, wd, List.getD_cons_zero, List.length_cons, List.length_nil, BitVec.toNat_ofNat]
  apply baseLen_sy <;> omega
theorem fragKill (_u0 : Option Px) (a : Src) : Statement (.fragKill _u0 a) := by
  intro _
  have := encSrc_lt a
  simp only [encodeBase, encSY, encPipe_lane, wd, List.getD_cons_zero, List.length_cons, List.length_nil, BitVec.toNat_ofNat]
  apply baseLen_sy <;> omega
theorem fragInfo (_u0 : Option Px) (d : RegNo) (a : Src) (sel : BitVec 3) (n : BitVec 5) : Statement (.fragInfo _u0 d a sel n) := by
  intro _
  have := encSrc_lt a
  have := d.isLt
  have := n.isLt
  have := sel.isLt
  simp only [encodeBase, encSY, encPipe_lane, wd, List.getD_cons_zero, List.length_cons, List.length_nil, BitVec.toNat_ofNat]
  apply baseLen_sy <;> omega
theorem fragStep (_u0 : Option Px) (a : Src) : Statement (.fragStep _u0 a) := by
  intro _
  have := encSrc_lt a
  simp only [encodeBase, encSY, encPipe_lane, wd, List.getD_cons_zero, List.length_cons, List.length_nil, BitVec.toNat_ofNat]
  apply baseLen_sy <;> omega
theorem mma (p : Pipe) (_u0 : Option Px) (m : MatWord) (x : MmaWord) : Statement (.mma p _u0 m x) := by
  intro _
  have := encPipe_or p
  have := encMat_lt m
  have := x.ka.isLt
  have := x.kb.isLt
  have := Bool.toNat_le x.ta
  have := Bool.toNat_le x.tb
  have := Bool.toNat_le x.chain
  have := Bool.toNat_le x.zacc
  have := Bool.toNat_le x.sat
  have := x.rnd.isLt
  simp only [encodeBase, encEX, wd, List.getD_cons_zero, List.length_cons, List.length_nil, BitVec.toNat_ofNat]
  apply baseLen_ex2 <;> first | omega | (simp; omega)
theorem mloop (_u0 : Option Px) (m : MatWord) (x : LoopWord) : Statement (.mloop _u0 m x) := by
  intro _
  have := encMat_lt m
  have := x.stepsM1.isLt
  have := x.inca.isLt
  have := x.incb.isLt
  have := Bool.toNat_le x.chain
  have := Bool.toNat_le x.zacc
  have := Bool.toNat_le x.sat
  simp only [encodeBase, encEX, encPipe_unif, wd, List.getD_cons_zero, List.length_cons, List.length_nil, BitVec.toNat_ofNat]
  apply baseLen_ex2 <;> first | omega | (simp; omega)
theorem mjoin (m : MatWord) (x : JoinWord) : Statement (.mjoin m x) := by
  intro _
  have := encMat_lt m
  have := x.part.isLt
  have := x.countM1.isLt
  have := x.ident.isLt
  have := Bool.toNat_le x.chain
  have := Bool.toNat_le x.zacc
  have := Bool.toNat_le x.sat
  simp only [encodeBase, encEX, encPipe_lane, wd, List.getD_cons_zero, List.length_cons, List.length_nil, BitVec.toNat_ofNat]
  apply baseLen_ex2 <;> first | omega | (simp; omega)
theorem mwait (p : Pipe) (_u0 : Option Px) (t : TileNo) : Statement (.mwait p _u0 t) := by
  intro _
  have := encPipe_or p
  have := t.isLt
  simp only [encodeBase, encEX, wd, List.getD_cons_zero, List.length_cons, List.length_nil, BitVec.toNat_ofNat]
  apply baseLen_ex <;> first | omega | (simp; omega)
theorem tzero (p : Pipe) (_u0 : Option Px) (t : TileNo) : Statement (.tzero p _u0 t) := by
  intro _
  have := encPipe_or p
  have := t.isLt
  simp only [encodeBase, encEX, wd, List.getD_cons_zero, List.length_cons, List.length_nil, BitVec.toNat_ofNat]
  apply baseLen_ex <;> first | omega | (simp; omega)
theorem tld (p : Pipe) (_u0 : Option Px) (t : TileNo) (x : Src) : Statement (.tld p _u0 t x) := by
  intro _
  have := encSrc_lt x
  have := encPipe_or p
  have := t.isLt
  simp only [encodeBase, encEX, wd, List.getD_cons_zero, List.length_cons, List.length_nil, BitVec.toNat_ofNat]
  apply baseLen_ex <;> first | omega | (simp; omega)
theorem tst (p : Pipe) (_u0 : Option Px) (t : TileNo) (x : Src) : Statement (.tst p _u0 t x) := by
  intro _
  have := encSrc_lt x
  have := encPipe_or p
  have := t.isLt
  simp only [encodeBase, encEX, wd, List.getD_cons_zero, List.length_cons, List.length_nil, BitVec.toNat_ofNat]
  apply baseLen_ex <;> first | omega | (simp; omega)
theorem tmovin (_u0 : Option Px) (t : TileNo) (x : Src) (w : BitVec 2) : Statement (.tmovin _u0 t x w) := by
  intro _
  have := encSrc_lt x
  have := t.isLt
  have := w.isLt
  simp only [encodeBase, encEX, encPipe_lane, wd, List.getD_cons_zero, List.length_cons, List.length_nil, BitVec.toNat_ofNat]
  apply baseLen_ex <;> first | omega | (simp; omega)
theorem tmovout (_u0 : Option Px) (t : TileNo) (d : RegNo) (w : BitVec 2) : Statement (.tmovout _u0 t d w) := by
  intro _
  have := t.isLt
  have := d.isLt
  have := w.isLt
  simp only [encodeBase, encEX, encPipe_lane, wd, List.getD_cons_zero, List.length_cons, List.length_nil, BitVec.toNat_ofNat]
  apply baseLen_ex <;> first | omega | (simp; omega)
theorem tcvt (p : Pipe) (_u0 : Option Px) (t : TileNo) (dst : BitVec 4) (src : BitVec 4) (u : TileNo) : Statement (.tcvt p _u0 t dst src u) := by
  intro _
  have := encPipe_or p
  have := t.isLt
  have := dst.isLt
  have := src.isLt
  have := u.isLt
  simp only [encodeBase, encEX, wd, List.getD_cons_zero, List.length_cons, List.length_nil, BitVec.toNat_ofNat]
  apply baseLen_ex <;> first | omega | (simp; omega)
theorem mscl (p : Pipe) (_u0 : Option Px) (t : TileNo) (x : Src) (u : TileNo) : Statement (.mscl p _u0 t x u) := by
  intro _
  have := encSrc_lt x
  have := encPipe_or p
  have := t.isLt
  have := u.isLt
  simp only [encodeBase, encEX, wd, List.getD_cons_zero, List.length_cons, List.length_nil, BitVec.toNat_ofNat]
  apply baseLen_ex <;> first | omega | (simp; omega)
theorem copyStart (p : Pipe) (_u0 : Option Px) (ch : BitVec 4) (d : RegNo) (a : Src) : Statement (.copyStart p _u0 ch d a) := by
  intro _
  have := encSrc_lt a
  have := encPipe_or p
  have := ch.isLt
  have := d.isLt
  simp only [encodeBase, encEX, wd, List.getD_cons_zero, List.length_cons, List.length_nil, BitVec.toNat_ofNat]
  apply baseLen_ex <;> first | omega | (simp; omega)
theorem copyCancel (p : Pipe) (_u0 : Option Px) (ch : BitVec 4) : Statement (.copyCancel p _u0 ch) := by
  intro _
  have := encPipe_or p
  have := ch.isLt
  simp only [encodeBase, encEX, wd, List.getD_cons_zero, List.length_cons, List.length_nil, BitVec.toNat_ofNat]
  apply baseLen_ex <;> first | omega | (simp; omega)
theorem copyWpr (p : Pipe) (_u0 : Option Px) (ch : BitVec 4) (d : RegNo) : Statement (.copyWpr p _u0 ch d) := by
  intro _
  have := encPipe_or p
  have := ch.isLt
  have := d.isLt
  simp only [encodeBase, encEX, wd, List.getD_cons_zero, List.length_cons, List.length_nil, BitVec.toNat_ofNat]
  apply baseLen_ex <;> first | omega | (simp; omega)
theorem collStart (p : Pipe) (_u0 : Option Px) (a : Src) : Statement (.collStart p _u0 a) := by
  intro _
  have := encSrc_lt a
  have := encPipe_or p
  simp only [encodeBase, encEX, wd, List.getD_cons_zero, List.length_cons, List.length_nil, BitVec.toNat_ofNat]
  apply baseLen_ex <;> first | omega | (simp; omega)
theorem collQuery (p : Pipe) (_u0 : Option Px) (d : RegNo) (a : Src) : Statement (.collQuery p _u0 d a) := by
  intro _
  have := encSrc_lt a
  have := encPipe_or p
  have := d.isLt
  simp only [encodeBase, encEX, wd, List.getD_cons_zero, List.length_cons, List.length_nil, BitVec.toNat_ofNat]
  apply baseLen_ex <;> first | omega | (simp; omega)
theorem stn (o : StnOp) : Statement (.stn o) := by
  intro _
  have := encSrc_lt o.a
  have := encSrc_lt o.v
  have := encSrc_lt o.obj
  have := encPipe_or o.p
  have := o.size.isLt
  simp only [encodeBase, encEX, wd, List.getD_cons_zero, List.length_cons, List.length_nil, BitVec.toNat_ofNat]
  apply baseLen_ex2 <;> first | omega | (simp; omega)
theorem gath (p : Pipe) (_u0 : Option Px) (a : Src) : Statement (.gath p _u0 a) := by
  intro _
  have := encSrc_lt a
  have := encPipe_or p
  simp only [encodeBase, encEX, wd, List.getD_cons_zero, List.length_cons, List.length_nil, BitVec.toNat_ofNat]
  apply baseLen_ex <;> first | omega | (simp; omega)
theorem tblLd (p : Pipe) (_u0 : Option Px) (a : Src) : Statement (.tblLd p _u0 a) := by
  intro _
  have := encSrc_lt a
  have := encPipe_or p
  simp only [encodeBase, encEX, wd, List.getD_cons_zero, List.length_cons, List.length_nil, BitVec.toNat_ofNat]
  apply baseLen_ex <;> first | omega | (simp; omega)
theorem tblSel (p : Pipe) (_u0 : Option Px) (a : Src) : Statement (.tblSel p _u0 a) := by
  intro _
  have := encSrc_lt a
  have := encPipe_or p
  simp only [encodeBase, encEX, wd, List.getD_cons_zero, List.length_cons, List.length_nil, BitVec.toNat_ofNat]
  apply baseLen_ex <;> first | omega | (simp; omega)
theorem fuseHoldExpiry (core : Nat) (sheaf : Nat) (pc : DWord) : Statement (.fuseHoldExpiry core sheaf pc) := fun h => nomatch h
theorem joinBinTimerExpiry (core : Nat) (bin : Nat) : Statement (.joinBinTimerExpiry core bin) := fun h => nomatch h
theorem spawnBinTimerExpiry (core : Nat) (bin : Nat) : Statement (.spawnBinTimerExpiry core bin) := fun h => nomatch h
theorem plotAdmission (core : Nat) (wait : Nat) : Statement (.plotAdmission core wait) := fun h => nomatch h
theorem plotRetire (core : Nat) (plot : Nat) : Statement (.plotRetire core plot) := fun h => nomatch h
theorem loadDataReturn (id : Nat) : Statement (.loadDataReturn id) := fun h => nomatch h
theorem fallowRefill (core : Nat) (tid : Nat) (reg : Nat) : Statement (.fallowRefill core tid reg) := fun h => nomatch h
theorem mgmtRegisterRead (core : Nat) (place : MgmtPlace) (word : Nat) : Statement (.mgmtRegisterRead core place word) := fun h => nomatch h
theorem debuggerRegisterWrite (core : Nat) (tid : Nat) (reg : Nat) (value : Word) : Statement (.debuggerRegisterWrite core tid reg value) := fun h => nomatch h
theorem depositPerform (core : Nat) : Statement (.depositPerform core) := fun h => nomatch h
theorem icacheLineFill (core : Nat) (va : Nat) : Statement (.icacheLineFill core va) := fun h => nomatch h
theorem dirtyLineDrain (core : Nat) : Statement (.dirtyLineDrain core) := fun h => nomatch h
theorem homeStorePerform (id : Nat) : Statement (.homeStorePerform id) := fun h => nomatch h
theorem homeLoadService (id : Nat) (tid : Nat) : Statement (.homeLoadService id tid) := fun h => nomatch h
theorem atomicRequestPerform (id : Nat) : Statement (.atomicRequestPerform id) := fun h => nomatch h
theorem atomicAck (id : Nat) : Statement (.atomicAck id) := fun h => nomatch h
theorem ldspWrite (id : Nat) : Statement (.ldspWrite id) := fun h => nomatch h
theorem stnCompletion (id : Nat) : Statement (.stnCompletion id) := fun h => nomatch h
theorem fabricResponseTimeout (id : Nat) : Statement (.fabricResponseTimeout id) := fun h => nomatch h
theorem fenceComplete (core : Nat) (tid : Nat) : Statement (.fenceComplete core tid) := fun h => nomatch h
theorem napWordRecheck (core : Nat) (tid : Nat) : Statement (.napWordRecheck core tid) := fun h => nomatch h
theorem matrixStepComplete (core : Nat) : Statement (.matrixStepComplete core) := fun h => nomatch h
theorem tileOpComplete (core : Nat) (id : Nat) : Statement (.tileOpComplete core id) := fun h => nomatch h
theorem tableLoadCommit (core : Nat) (id : Nat) : Statement (.tableLoadCommit core id) := fun h => nomatch h
theorem copyCommandAccept (cluster : Nat) (channel : Nat) : Statement (.copyCommandAccept cluster channel) := fun h => nomatch h
theorem copyChunkDelivery (cluster : Nat) (channel : Nat) : Statement (.copyChunkDelivery cluster channel) := fun h => nomatch h
theorem gatherElement (core : Nat) (id : Nat) : Statement (.gatherElement core id) := fun h => nomatch h
theorem collUnitStart (engine : Nat) : Statement (.collUnitStart engine) := fun h => nomatch h
theorem collChunkReceived (comm : Nat) (rank : Nat) (cid : DWord) (data : List Byte) : Statement (.collChunkReceived comm rank cid data) := fun h => nomatch h
theorem collStepEnd (comm : Nat) : Statement (.collStepEnd comm) := fun h => nomatch h
theorem collOperationComplete (comm : Nat) : Statement (.collOperationComplete comm) := fun h => nomatch h
theorem collWatchdogExpiry (comm : Nat) : Statement (.collWatchdogExpiry comm) := fun h => nomatch h
theorem handlerDelivery (core : Nat) (plot : Nat) : Statement (.handlerDelivery core plot) := fun h => nomatch h
theorem stopRequest (core : Nat) (plot : Nat) : Statement (.stopRequest core plot) := fun h => nomatch h
theorem plotSave (core : Nat) (plot : Nat) : Statement (.plotSave core plot) := fun h => nomatch h
theorem plotRestore (core : Nat) (saved : Nat) : Statement (.plotRestore core saved) := fun h => nomatch h
theorem hostWindow2Write (offset : Nat) (data : List Byte) : Statement (.hostWindow2Write offset data) := fun h => nomatch h
theorem hostWindow2Read (offset : Nat) (len : Nat) : Statement (.hostWindow2Read offset len) := fun h => nomatch h
theorem registerWrite (offset : Nat) (size : Nat) (value : DWord) : Statement (.registerWrite offset size value) := fun h => nomatch h
theorem tailWrite (queue : Nat) (value : Word) : Statement (.tailWrite queue value) := fun h => nomatch h
theorem queueEnable (queue : Nat) (value : Word) : Statement (.queueEnable queue value) := fun h => nomatch h
theorem residencyRequest (queue : Nat) : Statement (.residencyRequest queue) := fun h => nomatch h
theorem queueRecordAccept (queue : Nat) : Statement (.queueRecordAccept queue) := fun h => nomatch h
theorem runEnd (run : Nat) : Statement (.runEnd run) := fun h => nomatch h
theorem nodeDispatch (run : Nat) (node : Nat) : Statement (.nodeDispatch run node) := fun h => nomatch h
theorem nodeComplete (run : Nat) (node : Nat) : Statement (.nodeComplete run node) := fun h => nomatch h
theorem condRead (run : Nat) (node : Nat) : Statement (.condRead run node) := fun h => nomatch h
theorem plotStage (run : Nat) (node : Nat) (core : Nat) : Statement (.plotStage run node core) := fun h => nomatch h
theorem pageWalkComplete (cluster : Nat) (walk : Nat) : Statement (.pageWalkComplete cluster walk) := fun h => nomatch h
theorem pageService (ctx : Nat) (page : Nat) : Statement (.pageService ctx page) := fun h => nomatch h
theorem packetForward (link : Nat) (cls : Nat) (hop : Nat) (source : Nat) (dest : Nat) (local_ : Bool) (cid : DWord) : Statement (.packetForward link cls hop source dest local_ cid) := fun h => nomatch h
theorem remoteRequestArrival (link : Nat) (source : Nat) (address : Nat) (op : Nat) (data : List Byte) (len : Nat) (cid : DWord) : Statement (.remoteRequestArrival link source address op data len cid) := fun h => nomatch h
theorem linkTrainingComplete (link : Nat) (domain : Nat) (device : Nat) (plink : Nat) : Statement (.linkTrainingComplete link domain device plink) := fun h => nomatch h
theorem linkPartnerReset (link : Nat) : Statement (.linkPartnerReset link) := fun h => nomatch h
theorem flitGroupTransmit (send : FlitSend) : Statement (.flitGroupTransmit send) := fun h => nomatch h
theorem flitGroupReceive (link : Nat) (phase : Nat) (tagOk : Bool) : Statement (.flitGroupReceive link phase tagOk) := fun h => nomatch h
theorem powerLimitWindow (milliwatts : Nat) (clusterPower : List Nat) : Statement (.powerLimitWindow milliwatts clusterPower) := fun h => nomatch h
theorem voltageDroop (cluster : Nat) : Statement (.voltageDroop cluster) := fun h => nomatch h
theorem thermalThrottle (cluster : Nat) : Statement (.thermalThrottle cluster) := fun h => nomatch h
theorem timeExchange (link : Nat) (offset : Int) (parentE : Nat) (parentF : Option Nat) : Statement (.timeExchange link offset parentE parentF) := fun h => nomatch h
theorem fleetTimeSync (offset : Int) : Statement (.fleetTimeSync offset) := fun h => nomatch h
theorem recordWrite (unit : Word) : Statement (.recordWrite unit) := fun h => nomatch h
theorem residencyReturn (queue : Nat) : Statement (.residencyReturn queue) := fun h => nomatch h
theorem debuggerAttach (core : Nat) (plot : Nat) (on : Bool) : Statement (.debuggerAttach core plot on) := fun h => nomatch h
theorem tfence : Statement .tfence := by
  intro _
  simp only [encodeBase, encSY, encPipe_lane, wd, List.getD_cons_zero, List.length_cons, List.length_nil, BitVec.toNat_ofNat]
  apply baseLen_sy <;> omega
theorem issueCycle : Statement .issueCycle := fun h => nomatch h
theorem threadOverdue : Statement .threadOverdue := fun h => nomatch h
theorem yieldExpiry : Statement .yieldExpiry := fun h => nomatch h
theorem leaseExpiry : Statement .leaseExpiry := fun h => nomatch h
theorem stopFallbackExpiry : Statement .stopFallbackExpiry := fun h => nomatch h
theorem erheadWrite : Statement .erheadWrite := fun h => nomatch h
theorem firmwareEventDispatch : Statement .firmwareEventDispatch := fun h => nomatch h
theorem firmwareRetention : Statement .firmwareRetention := fun h => nomatch h
theorem ginvWrite : Statement .ginvWrite := fun h => nomatch h
theorem pageVerdict : Statement .pageVerdict := fun h => nomatch h
theorem tlbInvalidate : Statement .tlbInvalidate := fun h => nomatch h
theorem tlbInvalidateComplete : Statement .tlbInvalidateComplete := fun h => nomatch h
theorem migrationStart : Statement .migrationStart := fun h => nomatch h
theorem migrationDrained : Statement .migrationDrained := fun h => nomatch h
theorem migrationCopyDone : Statement .migrationCopyDone := fun h => nomatch h
theorem saveSetImport : Statement .saveSetImport := fun h => nomatch h
theorem frozenKill : Statement .frozenKill := fun h => nomatch h
theorem frozenResume : Statement .frozenResume := fun h => nomatch h
theorem coldReset : Statement .coldReset := fun h => nomatch h
theorem warmReset : Statement .warmReset := fun h => nomatch h
theorem routeTableLoad : Statement .routeTableLoad := fun h => nomatch h
theorem routeLoadComplete : Statement .routeLoadComplete := fun h => nomatch h
theorem routeBankSelect : Statement .routeBankSelect := fun h => nomatch h
theorem packetWaitTimeout : Statement .packetWaitTimeout := fun h => nomatch h
theorem getcert : Statement .getcert := fun h => nomatch h
theorem getnonce : Statement .getnonce := fun h => nomatch h
theorem unlock : Statement .unlock := fun h => nomatch h
theorem attest : Statement .attest := fun h => nomatch h
theorem extend : Statement .extend := fun h => nomatch h
theorem tkey : Statement .tkey := fun h => nomatch h
theorem lkey : Statement .lkey := fun h => nomatch h
theorem lifecycle : Statement .lifecycle := fun h => nomatch h
theorem recover : Statement .recover := fun h => nomatch h
theorem powerOn : Statement .powerOn := fun h => nomatch h
theorem railGoodTimeout : Statement .railGoodTimeout := fun h => nomatch h
theorem thermalTrip : Statement .thermalTrip := fun h => nomatch h
theorem timeBoundGrowth : Statement .timeBoundGrowth := fun h => nomatch h
theorem quotaWrite : Statement .quotaWrite := fun h => nomatch h
theorem granaryReadout : Statement .granaryReadout := fun h => nomatch h
theorem granaryReadoutComplete : Statement .granaryReadoutComplete := fun h => nomatch h
theorem waitforSnapshot : Statement .waitforSnapshot := fun h => nomatch h
theorem profileHostStart : Statement .profileHostStart := fun h => nomatch h
theorem profileHostStop : Statement .profileHostStop := fun h => nomatch h
theorem profileSummaryInterval : Statement .profileSummaryInterval := fun h => nomatch h
theorem detailSelectWrite : Statement .detailSelectWrite := fun h => nomatch h
theorem prheadWrite : Statement .prheadWrite := fun h => nomatch h
theorem powerLoss : Statement .powerLoss := fun h => nomatch h
end Sys2Proof.Laws.Length
end

