-- ==== Sys2Proof/Tests/Slice0.lean ====
section
/-!
SUPPORT. Tests: words written out from the encoding tables, an ill-formed term for each check, single steps on small states with results
taken from the spec, and for every statement of Certificates/Slice0 states and operands that meet its hypotheses.
-/
set_option Elab.async false
namespace Sys2Proof.Tests
open Sys2Proof Sys2Proof.Machine

/-! ### Decoding -/

/-- Do these words decode to this instruction, with this length? -/
def decodesTo (x : List Word × Instr × Nat) : Bool :=
  match decode x.1 with
  | .ok r => r.1 == x.2.1 && r.2 == x.2.2
  | .error _ => false

/-- Words of format RR with the instructions they are (R174 to R193). -/
def wordsRR1 : List (List Word × Instr × Nat) :=
  [([0b1_000_000000_010100_00101010_00110001], .add ⟨.unif, none, 20, ⟨10, true, false⟩, ⟨12, false, true⟩⟩, 1),
   ([0b0_000_000001_010100_00101010_00110001], .sub ⟨.lane, none, 20, ⟨10, true, false⟩, ⟨12, false, true⟩⟩, 1),
   ([0b1_000_000010_010100_00101010_00110001], .mul ⟨.unif, none, 20, ⟨10, true, false⟩, ⟨12, false, true⟩⟩, 1),
   ([0b0_000_000011_010100_00101010_00110001], .mulhiI32 ⟨.lane, none, 20, ⟨10, true, false⟩, ⟨12, false, true⟩⟩, 1),
   ([0b1_000_000100_010100_00101010_00110001], .mulhiN32 ⟨.unif, none, 20, ⟨10, true, false⟩, ⟨12, false, true⟩⟩, 1),
   ([0b0_000_000101_010100_00101010_00110001], .minI32 ⟨.lane, none, 20, ⟨10, true, false⟩, ⟨12, false, true⟩⟩, 1),
   ([0b1_000_000110_010100_00101010_00110001], .maxI32 ⟨.unif, none, 20, ⟨10, true, false⟩, ⟨12, false, true⟩⟩, 1),
   ([0b0_000_000111_010100_00101010_00110001], .minN32 ⟨.lane, none, 20, ⟨10, true, false⟩, ⟨12, false, true⟩⟩, 1),
   ([0b1_000_001000_010100_00101010_00110001], .maxN32 ⟨.unif, none, 20, ⟨10, true, false⟩, ⟨12, false, true⟩⟩, 1),
   ([0b0_000_001001_010100_00101010_00110001], .and ⟨.lane, none, 20, ⟨10, true, false⟩, ⟨12, false, true⟩⟩, 1),
   ([0b1_000_001010_010100_00101010_00110001], .or ⟨.unif, none, 20, ⟨10, true, false⟩, ⟨12, false, true⟩⟩, 1),
   ([0b0_000_001011_010100_00101010_00110001], .xor ⟨.lane, none, 20, ⟨10, true, false⟩, ⟨12, false, true⟩⟩, 1),
   ([0b1_000_001100_010100_00101010_00110001], .andn ⟨.unif, none, 20, ⟨10, true, false⟩, ⟨12, false, true⟩⟩, 1),
   ([0b0_000_001101_010100_00101010_00110001], .shl ⟨.lane, none, 20, ⟨10, true, false⟩, ⟨12, false, true⟩⟩, 1),
   ([0b1_000_001110_010100_00101010_00110001], .shr ⟨.unif, none, 20, ⟨10, true, false⟩, ⟨12, false, true⟩⟩, 1),
   ([0b0_000_001111_010100_00101010_00110001], .sar ⟨.lane, none, 20, ⟨10, true, false⟩, ⟨12, false, true⟩⟩, 1),
   ([0b1_000_010000_010100_00101010_00110001], .rotl ⟨.unif, none, 20, ⟨10, true, false⟩, ⟨12, false, true⟩⟩, 1),
   ([0b0_000_010001_010100_00101010_00110001], .bfeN32 ⟨.lane, none, 20, ⟨10, true, false⟩, ⟨12, false, true⟩⟩, 1),
   ([0b1_000_010010_010100_00101010_00110001], .bfeI32 ⟨.unif, none, 20, ⟨10, true, false⟩, ⟨12, false, true⟩⟩, 1),
   ([0b0_000_010011_010100_00101010_00110001], .bfi ⟨.lane, none, 20, ⟨10, true, false⟩, ⟨12, false, true⟩⟩, 1),
   ([0b1_000_010100_010100_00101010_00110001], .addB64 ⟨.unif, none, 20, ⟨10, true, false⟩, ⟨12, false, true⟩⟩, 1),
   ([0b0_000_010101_010100_00101010_00110001], .subB64 ⟨.lane, none, 20, ⟨10, true, false⟩, ⟨12, false, true⟩⟩, 1),
   ([0b1_000_010110_010100_00101010_00110001], .lea ⟨.unif, none, 20, ⟨10, true, false⟩, ⟨12, false, true⟩⟩, 1),
   ([0b0_000_010111_010100_00101010_00110001], .lea4 ⟨.lane, none, 20, ⟨10, true, false⟩, ⟨12, false, true⟩⟩, 1)]
/-- Words of format RR with the instructions they are (R174 to R193). -/
def wordsRR2 : List (List Word × Instr × Nat) :=
  [([0b1_000_011000_010100_00101010_00110001], .mulWideI32 ⟨.unif, none, 20, ⟨10, true, false⟩, ⟨12, false, true⟩⟩, 1),
   ([0b0_000_011001_010100_00101010_00110001], .mulWideN32 ⟨.lane, none, 20, ⟨10, true, false⟩, ⟨12, false, true⟩⟩, 1),
   ([0b1_000_011010_010100_00101010_00110001], .mad ⟨.unif, none, 20, ⟨10, true, false⟩, ⟨12, false, true⟩⟩, 1),
   ([0b0_000_011011_010100_00101010_00000000], .clz ⟨.lane, none, 20, ⟨10, true, false⟩⟩, 1),
   ([0b1_000_011100_010100_00101010_00000000], .popc ⟨.unif, none, 20, ⟨10, true, false⟩⟩, 1),
   ([0b0_000_011101_010100_00101010_00000000], .brev ⟨.lane, none, 20, ⟨10, true, false⟩⟩, 1),
   ([0b1_000_011110_010100_00101010_00000000], .mov ⟨.unif, none, 20, ⟨10, true, false⟩⟩, 1),
   ([0b0_000_011111_011_011_00101010_00110001], .icmpI32 ⟨.lane, none, 3, 3, ⟨10, true, false⟩, ⟨12, false, true⟩⟩, 1),
   ([0b1_000_100000_011_011_00101010_00110001], .icmpN32 ⟨.unif, none, 3, 3, ⟨10, true, false⟩, ⟨12, false, true⟩⟩, 1),
   ([0b1_000_100001_011_011_00101010_00110001], .fcmpF32 ⟨.unif, none, 3, 3, ⟨10, true, false⟩, ⟨12, false, true⟩⟩, 1),
   ([0b0_000_100010_010100_00101010_00110001], .faddF32 ⟨.lane, none, 20, ⟨10, true, false⟩, ⟨12, false, true⟩⟩, 1),
   ([0b1_000_100011_010100_00101010_00110001], .fsubF32 ⟨.unif, none, 20, ⟨10, true, false⟩, ⟨12, false, true⟩⟩, 1),
   ([0b0_000_100100_010100_00101010_00110001], .fmulF32 ⟨.lane, none, 20, ⟨10, true, false⟩, ⟨12, false, true⟩⟩, 1),
   ([0b1_000_100101_010100_00101010_00110001], .ffmaF32 ⟨.unif, none, 20, ⟨10, true, false⟩, ⟨12, false, true⟩⟩, 1),
   ([0b0_000_100110_010100_00101010_00110001], .fminF32 ⟨.lane, none, 20, ⟨10, true, false⟩, ⟨12, false, true⟩⟩, 1),
   ([0b1_000_100111_010100_00101010_00110001], .fmaxF32 ⟨.unif, none, 20, ⟨10, true, false⟩, ⟨12, false, true⟩⟩, 1),
   ([0b0_000_101000_010100_00101010_00000000], .frcp ⟨.lane, none, 20, ⟨10, true, false⟩⟩, 1),
   ([0b0_000_101001_010100_00101010_00000000], .frsq ⟨.lane, none, 20, ⟨10, true, false⟩⟩, 1),
   ([0b0_000_101010_010100_00101010_00000000], .fsqrt ⟨.lane, none, 20, ⟨10, true, false⟩⟩, 1),
   ([0b0_000_101011_010100_00101010_00000000], .fex2 ⟨.lane, none, 20, ⟨10, true, false⟩⟩, 1),
   ([0b0_000_101100_010100_00101010_00000000], .flg2 ⟨.lane, none, 20, ⟨10, true, false⟩⟩, 1),
   ([0b0_000_101101_010100_00101010_00000000], .fsin ⟨.lane, none, 20, ⟨10, true, false⟩⟩, 1),
   ([0b0_000_101110_010100_00101010_00000000], .fcos ⟨.lane, none, 20, ⟨10, true, false⟩⟩, 1),
   ([0b0_000_101111_010100_00101010_00000000], .ftanh ⟨.lane, none, 20, ⟨10, true, false⟩⟩, 1)]
/-- Words of format RR with the instructions they are (R174 to R193). -/
def wordsRR3 : List (List Word × Instr × Nat) :=
  [([0b0_000_110000_010100_00101010_00000000], .ftbl ⟨.lane, none, 20, ⟨10, true, false⟩⟩, 1),
   ([0b0_000_110001_010100_00101010_00110001], .scacc ⟨.lane, none, 20, ⟨10, true, false⟩, ⟨12, false, true⟩⟩, 1),
   ([0b0_000_110010_010100_00101010_0101_0011], .cvt ⟨.lane, none, 20, ⟨10, true, false⟩, 5, 3⟩, 1),
   ([0b0_000_110011_010100_00101010_00110001], .pkBf2 ⟨.lane, none, 20, ⟨10, true, false⟩, ⟨12, false, true⟩⟩, 1),
   ([0b0_000_110100_010100_00101010_00110001], .pkH2 ⟨.lane, none, 20, ⟨10, true, false⟩, ⟨12, false, true⟩⟩, 1),
   ([0b0_000_110101_010100_00101010_00110001], .pk8loE4m3 ⟨.lane, none, 20, ⟨10, true, false⟩, ⟨12, false, true⟩⟩, 1),
   ([0b0_000_110110_010100_00101010_00110001], .pk8hiE4m3 ⟨.lane, none, 20, ⟨10, true, false⟩, ⟨12, false, true⟩⟩, 1),
   ([0b0_000_110111_010100_00101010_00110001], .pk8loE5m2 ⟨.lane, none, 20, ⟨10, true, false⟩, ⟨12, false, true⟩⟩, 1),
   ([0b0_000_111000_010100_00101010_00110001], .pk8hiE5m2 ⟨.lane, none, 20, ⟨10, true, false⟩, ⟨12, false, true⟩⟩, 1),
   ([0b0_000_111001_010100_00101010_00110001], .haddBf2 ⟨.lane, none, 20, ⟨10, true, false⟩, ⟨12, false, true⟩⟩, 1),
   ([0b0_000_111010_010100_00101010_00110001], .hmulBf2 ⟨.lane, none, 20, ⟨10, true, false⟩, ⟨12, false, true⟩⟩, 1),
   ([0b0_000_111011_010100_00101010_00110001], .hfmaBf2 ⟨.lane, none, 20, ⟨10, true, false⟩, ⟨12, false, true⟩⟩, 1),
   ([0b0_000_111100_010100_00101010_00110001], .haddH2 ⟨.lane, none, 20, ⟨10, true, false⟩, ⟨12, false, true⟩⟩, 1),
   ([0b0_000_111101_010100_00101010_00110001], .hmulH2 ⟨.lane, none, 20, ⟨10, true, false⟩, ⟨12, false, true⟩⟩, 1),
   ([0b0_000_111110_010100_00101010_00110001], .hfmaH2 ⟨.lane, none, 20, ⟨10, true, false⟩, ⟨12, false, true⟩⟩, 1),
   ([0b0_000_111111_010100_00101010_00110001], .fdivF32 ⟨.lane, none, 20, ⟨10, true, false⟩, ⟨12, false, true⟩⟩, 1)]
theorem test_decode_wordsRR1 : wordsRR1.all decodesTo = true := by decide +kernel
theorem test_decode_wordsRR2 : wordsRR2.all decodesTo = true := by decide +kernel
theorem test_decode_wordsRR3 : wordsRR3.all decodesTo = true := by decide +kernel
/-- Words of format RI with the instructions they are (R174 to R193). -/
def wordsRI : List (List Word × Instr × Nat) :=
  [([0b0_001_00000_010100_00101010_110101011], .addi ⟨.lane, none, 20, ⟨10, true, false⟩, 427⟩, 1),
   ([0b1_001_00001_010100_00101010_110101011], .muli ⟨.unif, none, 20, ⟨10, true, false⟩, 427⟩, 1),
   ([0b0_001_00010_010100_00101010_110101011], .andi ⟨.lane, none, 20, ⟨10, true, false⟩, 427⟩, 1),
   ([0b1_001_00011_010100_00101010_110101011], .ori ⟨.unif, none, 20, ⟨10, true, false⟩, 427⟩, 1),
   ([0b0_001_00100_010100_00101010_110101011], .xori ⟨.lane, none, 20, ⟨10, true, false⟩, 427⟩, 1),
   ([0b1_001_00101_010100_00101010_0000_01011], .shli ⟨.unif, none, 20, ⟨10, true, false⟩, 11⟩, 1),
   ([0b0_001_00110_010100_00101010_0000_01011], .shri ⟨.lane, none, 20, ⟨10, true, false⟩, 11⟩, 1),
   ([0b1_001_00111_010100_00101010_0000_01011], .sari ⟨.unif, none, 20, ⟨10, true, false⟩, 11⟩, 1),
   ([0b0_001_01000_010100_00101010_0000_01011], .rotli ⟨.lane, none, 20, ⟨10, true, false⟩, 11⟩, 1),
   ([0b1_001_01001_010100_00101010_110101011], .miniI32 ⟨.unif, none, 20, ⟨10, true, false⟩, 427⟩, 1),
   ([0b0_001_01010_010100_00101010_110101011], .maxiI32 ⟨.lane, none, 20, ⟨10, true, false⟩, 427⟩, 1),
   ([0b1_001_01011_010100_00101010_110101011], .miniN32 ⟨.unif, none, 20, ⟨10, true, false⟩, 427⟩, 1),
   ([0b0_001_01100_010100_00101010_110101011], .maxiN32 ⟨.lane, none, 20, ⟨10, true, false⟩, 427⟩, 1),
   ([0b1_001_01101_011_011_00101010_110101011], .icmpiI32 ⟨.unif, none, 3, 3, ⟨10, true, false⟩, 427⟩, 1),
   ([0b0_001_01110_011_011_00101010_110101011], .icmpiN32 ⟨.lane, none, 3, 3, ⟨10, true, false⟩, 427⟩, 1),
   ([0b1_001_01111_010100_00101010_110101011], .leai ⟨.unif, none, 20, ⟨10, true, false⟩, 427⟩, 1),
   ([0b0_001_10000_010100_00101010_1001_10001], .bfeiN32 ⟨.lane, none, 20, ⟨10, true, false⟩, 9, 17⟩, 1),
   ([0b1_001_10001_010100_00101010_1001_10001], .bfeiI32 ⟨.unif, none, 20, ⟨10, true, false⟩, 9, 17⟩, 1),
   ([0b0_001_10010_010100_00101010_0000_01011], .passiAt ⟨none, 20, ⟨10, true, false⟩, 11⟩, 1),
   ([0b0_001_10011_010100_00101010_000_101011], .passiOff ⟨none, 20, ⟨10, true, false⟩, 43⟩, 1),
   ([0b0_001_10100_010100_00101010_0000_01011], .passiFlip ⟨none, 20, ⟨10, true, false⟩, 11⟩, 1),
   ([0b0_001_10101_010100_00101010_0000_01011], .passiRot ⟨none, 20, ⟨10, true, false⟩, 11⟩, 1)]
theorem test_decode_wordsRI : wordsRI.all decodesTo = true := by decide +kernel
/-- Words of format LS with the instructions they are (R174 to R193). -/
def wordsLS : List (List Word × Instr × Nat) :=
  [([0b0_010_0_0_100_010100_00_00101010_1010001], .ld ⟨.lane, none, false, 4, 20, ⟨10, true, false⟩, 81⟩, 1),
   ([0b1_010_1_1_011_00010011_00101010_0101010], .st ⟨.unif, none, true, 3, ⟨4, true, true⟩, ⟨10, true, false⟩, 42⟩, 1),
   ([0b0_010_0011100000000_00101010_0000101], .pf ⟨.lane, none, ⟨10, true, false⟩, 5⟩, 1)]
theorem test_decode_wordsLS : wordsLS.all decodesTo = true := by decide +kernel
/-- Words of format AT with the instructions they are (R174 to R193). -/
def wordsAT : List (List Word × Instr × Nat) :=
  [([0b0_011_0000_1_010100_00010011_00101010_1], .atomAdd ⟨none, true, 20, ⟨4, true, true⟩, ⟨10, true, false⟩, true⟩, 1),
   ([0b0_011_0001_1_010100_00010011_00101010_1], .atomMinI32 ⟨none, true, 20, ⟨4, true, true⟩, ⟨10, true, false⟩, true⟩, 1),
   ([0b0_011_0010_1_010100_00010011_00101010_1], .atomMaxI32 ⟨none, true, 20, ⟨4, true, true⟩, ⟨10, true, false⟩, true⟩, 1),
   ([0b0_011_0011_1_010100_00010011_00101010_1], .atomMinN32 ⟨none, true, 20, ⟨4, true, true⟩, ⟨10, true, false⟩, true⟩, 1),
   ([0b0_011_0100_1_010100_00010011_00101010_1], .atomMaxN32 ⟨none, true, 20, ⟨4, true, true⟩, ⟨10, true, false⟩, true⟩, 1),
   ([0b0_011_0101_1_010100_00010011_00101010_1], .atomAnd ⟨none, true, 20, ⟨4, true, true⟩, ⟨10, true, false⟩, true⟩, 1),
   ([0b0_011_0110_1_010100_00010011_00101010_1], .atomOr ⟨none, true, 20, ⟨4, true, true⟩, ⟨10, true, false⟩, true⟩, 1),
   ([0b0_011_0111_1_010100_00010011_00101010_1], .atomXor ⟨none, true, 20, ⟨4, true, true⟩, ⟨10, true, false⟩, true⟩, 1),
   ([0b0_011_1000_1_010100_00010011_00101010_1], .atomXchg ⟨none, true, 20, ⟨4, true, true⟩, ⟨10, true, false⟩, true⟩, 1),
   ([0b0_011_1001_1_010100_00010011_00101010_1], .atomCas ⟨none, true, 20, ⟨4, true, true⟩, ⟨10, true, false⟩, true⟩, 1),
   ([0b0_011_1010_1_010100_00010011_00101010_1], .atomAddB64 ⟨none, true, 20, ⟨4, true, true⟩, ⟨10, true, false⟩, true⟩, 1),
   ([0b0_011_1011_1_010100_00010011_00101010_1], .atomFaddF32 ⟨none, true, 20, ⟨4, true, true⟩, ⟨10, true, false⟩, true⟩, 1),
   ([0b0_011_1100_1_010100_00010011_00101010_1], .atomFaddBf2 ⟨none, true, 20, ⟨4, true, true⟩, ⟨10, true, false⟩, true⟩, 1),
   ([0b0_011_1101_1_010100_00010011_00101010_1], .atomFmaxF32 ⟨none, true, 20, ⟨4, true, true⟩, ⟨10, true, false⟩, true⟩, 1),
   ([0b0_011_1110_1_010100_00010011_00101010_1], .atomFminF32 ⟨none, true, 20, ⟨4, true, true⟩, ⟨10, true, false⟩, true⟩, 1),
   ([0b0_011_1111_1_010100_00010011_00101010_1], .atomIncw ⟨none, true, 20, ⟨4, true, true⟩, ⟨10, true, false⟩, true⟩, 1)]
theorem test_decode_wordsAT : wordsAT.all decodesTo = true := by decide +kernel
/-- Words of format BR with the instructions they are (R174 to R193). -/
def wordsBR : List (List Word × Instr × Nat) :=
  [([0b0_100_000_1_101_1111111111110011_01001], .br ⟨true, 5, 65523, 9⟩, 1),
   ([0b0_100_001_1_101_1111111111110011_01001], .call ⟨true, 5, 65523, 9⟩, 1),
   ([0b0_100_010_1_101_1111111111110011_01001], .spawn ⟨true, 5, 65523, 9⟩, 1)]
theorem test_decode_wordsBR : wordsBR.all decodesTo = true := by decide +kernel
/-- Words of format SY with the instructions they are (R174 to R193). -/
def wordsSY1 : List (List Word × Instr × Nat) :=
  [([0b0_101_100100000000_00101010_00000000], .brx ⟨none, ⟨10, true, false⟩⟩, 1),
   ([0b0_101_100101000000_00101010_00000000], .callx ⟨none, ⟨10, true, false⟩⟩, 1),
   ([0b0_101_0000000000000000000000000000], .nop .lane none, 1),
   ([0b0_101_0000010000000000000000000000], .exit none, 1),
   ([0b0_101_000010_010100_00101010_00110001], .join ⟨none, 20, ⟨10, true, false⟩, ⟨12, false, true⟩⟩, 1),
   ([0b0_101_0000110000000000000000000000], .leave none, 1),
   ([0b0_101_000100_010100_00101010_00000000], .regroup ⟨none, 20, ⟨10, true, false⟩⟩, 1),
   ([0b0_101_000101000000_1011110011010101], .fuse 48341, 1),
   ([0b0_101_000110000000_1011110011010101], .yield 48341, 1),
   ([0b0_101_001000_10_00_11_0000000000000000], .bar 2 3, 1),
   ([0b0_101_001001_010100_100_1_110_000000000], .poll none 20 4 true 6, 1),
   ([0b0_101_001010_010100_00101010_0000_1010], .sred none 20 ⟨10, true, false⟩ 10, 1),
   ([0b0_101_001011_010100_00101010_1_000_1001], .sscan none 20 ⟨10, true, false⟩ true 9, 1),
   ([0b0_101_001100_010100_00101010_0000000_1], .alike none 20 ⟨10, true, false⟩ true, 1),
   ([0b0_101_001101_010100_00101010_00110001], .passAt ⟨none, 20, ⟨10, true, false⟩, ⟨12, false, true⟩⟩, 1),
   ([0b0_101_001110_010100_00101010_00110001], .passOff ⟨none, 20, ⟨10, true, false⟩, ⟨12, false, true⟩⟩, 1),
   ([0b0_101_001111_010100_00101010_00110001], .passFlip ⟨none, 20, ⟨10, true, false⟩, ⟨12, false, true⟩⟩, 1),
   ([0b0_101_010000_010100_00101010_00110001], .passRot ⟨none, 20, ⟨10, true, false⟩, ⟨12, false, true⟩⟩, 1),
   ([0b0_101_010001000000_00101010_00110001], .abarInit ⟨.lane, none, ⟨10, true, false⟩, ⟨12, false, true⟩⟩, 1),
   ([0b1_101_010010000000_00101010_00000000], .abarArrive .unif none ⟨10, true, false⟩, 1),
   ([0b0_101_010011000000_00101010_00110001], .abarDue ⟨.lane, none, ⟨10, true, false⟩, ⟨12, false, true⟩⟩, 1),
   ([0b0_101_010100000000_00101010_00110001], .abarWait ⟨.lane, none, ⟨10, true, false⟩, ⟨12, false, true⟩⟩, 1),
   ([0b0_101_010101_010100_00101010_00110001], .abarTest ⟨.lane, none, ⟨10, true, false⟩, ⟨12, false, true⟩⟩ 20, 1),
   ([0b0_101_010110_010_011_0000000000000000], .fence 2 3, 1)]
/-- Words of format SY with the instructions they are (R174 to R193). -/
def wordsSY2 : List (List Word × Instr × Nat) :=
  [([0b0_101_0101110000000000000000000000], .tfence, 1),
   ([0b1_101_011000000000_00101010_00110001], .rput ⟨.unif, none, ⟨10, true, false⟩, ⟨12, false, true⟩⟩, 1),
   ([0b0_101_011001_010100_0000000000000000], .arm .lane none 20, 1),
   ([0b0_101_011010000000_00101010_000000_01], .ctrWait ⟨none, ⟨10, true, false⟩, 1⟩, 1),
   ([0b0_101_011011_010100_00000000000000_01], .ctrRd .lane none 20 1, 1),
   ([0b0_101_011100_110_001_010_111_11001010_00], .plop none 6 1 2 7 202, 1),
   ([0b0_101_011101_010100_0000000000000000], .pmovRd none 20, 1),
   ([0b0_101_011101000000_00101010_10000000], .pmovWr none ⟨10, true, false⟩, 1),
   ([0b0_101_011110_010100_00000000_00011000], .csrRd none 20 24, 1),
   ([0b0_101_011111000000_00101010_00010001], .csrWr none ⟨10, true, false⟩ 17, 1),
   ([0b0_101_100000_010100_0000000000000000], .time .lane none 20, 1),
   ([0b1_101_100001000000_00101010_01111011], .evt .unif none ⟨10, true, false⟩ 123, 1),
   ([0b0_101_100010000000_1011110011010101], .trap none 48341, 1),
   ([0b0_101_1000110000000000000000000000], .brk none, 1),
   ([0b0_101_100110_100_1_00_00101010_00110001], .nap none 4 true ⟨10, true, false⟩ ⟨12, false, true⟩, 1),
   ([0b0_101_100111000000_00101010_0000_0101], .wpw none ⟨10, true, false⟩ 5, 1),
   ([0b0_101_101000_010100_00101010_00000000], .shape ⟨none, 20, ⟨10, true, false⟩⟩, 1),
   ([0b0_101_101001_010100_0000000000000000], .expand ⟨none, 20⟩, 1),
   ([0b0_101_101010_010100_00101010_00000000], .bcast ⟨none, 20, ⟨10, true, false⟩⟩, 1),
   ([0b0_101_101011_010100_00101010_00110001], .iota ⟨none, 20, ⟨10, true, false⟩, ⟨12, false, true⟩⟩, 1),
   ([0b0_101_101100000000_00101010_00000000], .fragResume none ⟨10, true, false⟩, 1),
   ([0b0_101_101100000000_00101010_00000001], .fragResumeSkip none ⟨10, true, false⟩, 1),
   ([0b0_101_101101000000_00101010_00000000], .fragKill none ⟨10, true, false⟩, 1),
   ([0b0_101_101110_010100_00101010_00110_100], .fragInfo none 20 ⟨10, true, false⟩ 4 6, 1)]
/-- Words of format SY with the instructions they are (R174 to R193). -/
def wordsSY3 : List (List Word × Instr × Nat) :=
  [([0b0_101_101111000000_00101010_00000000], .fragStep none ⟨10, true, false⟩, 1),
   ([0b0_101_000111_1000000000000101_100001, 0x0000FFFF, 0x80000001], .safe 0x8005 0x21 0x0000FFFF 0x80000001, 3)]
theorem test_decode_wordsSY1 : wordsSY1.all decodesTo = true := by decide +kernel
theorem test_decode_wordsSY2 : wordsSY2.all decodesTo = true := by decide +kernel
theorem test_decode_wordsSY3 : wordsSY3.all decodesTo = true := by decide +kernel
/-- Words of format EX with the instructions they are (R174 to R193). -/
def wordsEX : List (List Word × Instr × Nat) :=
  [([0b0_111_0000_010100_101011110011010101], .li ⟨.lane, none, 20, 179413⟩, 1),
   ([0b1_111_0101_0101_00000000000000000000], .mwait .unif none 5, 1),
   ([0b0_111_01100000_0101_0000000000000000], .tzero .lane none 5, 1),
   ([0b1_111_01100001_0101_00101010_00000000], .tld .unif none 5 ⟨10, true, false⟩, 1),
   ([0b0_111_01100010_0101_00101010_00000000], .tst .lane none 5 ⟨10, true, false⟩, 1),
   ([0b0_111_01100011_0101_00101010_0000_0010], .tmovin none 5 ⟨10, true, false⟩ 2, 1),
   ([0b0_111_01100100_0101_010100_000000_0010], .tmovout none 5 20 2, 1),
   ([0b1_111_01100101_0101_00110001_0111_0000], .tcvt .unif none 5 3 1 7, 1),
   ([0b0_111_01100110_0101_00101010_0101_0000], .mscl .lane none 5 ⟨10, true, false⟩ 5, 1),
   ([0b1_111_01110000_0101_010100_00101010_00], .copyStart .unif none 5 20 ⟨10, true, false⟩, 1),
   ([0b0_111_01110001_0101_0000000000000000], .copyCancel .lane none 5, 1),
   ([0b1_111_01110010_0101_010100_0000000000], .copyWpr .unif none 5 20, 1),
   ([0b0_111_10010000000000_00101010_000000], .collStart .lane none ⟨10, true, false⟩, 1),
   ([0b1_111_10010001_010100_00101010_000000], .collQuery .unif none 20 ⟨10, true, false⟩, 1),
   ([0b0_111_1011_00101010_0000000000000000], .gath .lane none ⟨10, true, false⟩, 1),
   ([0b1_111_11000000_00101010_000000000000], .tblLd .unif none ⟨10, true, false⟩, 1),
   ([0b0_111_11000001_00101010_000000000000], .tblSel .lane none ⟨10, true, false⟩, 1),
   ([0b0_111_0001_010100_000000000000000000, 0xDEADBEEF], .liw ⟨.lane, none, 20, 0xDEADBEEF⟩, 2),
   ([0b0_111_1000_10_00101010_00110001_000000, 0b00010011_000000000000000000000000], .ldsp ⟨none, 2, ⟨10, true, false⟩, ⟨12, false, true⟩, ⟨4, true, true⟩⟩, 2),
   ([0b1_111_1010_01_00101010_00100000_000000, 0b00010011_000000000000000000000000], .stn ⟨.unif, none, 1, ⟨10, true, false⟩, ⟨8, false, false⟩, ⟨4, true, true⟩⟩, 2),
   ([0b0_111_0010_0011_00101000_00110010_0010, 0b00_10_0_0_1_1_0_011_00000000000000000000], .mma .lane none ⟨3, 0x28, 0x32, 2⟩ ⟨0, 2, false, false, true, true, false, 3⟩, 2),
   ([0b1_111_0011_0011_00101001_00110011_0001, 0b000000000111_00000010_00000001_1_0_0_0], .mloop none ⟨3, 0x29, 0x33, 1⟩ ⟨7, 2, 1, true, false, false⟩, 2),
   ([0b0_111_0100_0011_00101000_00110010_0010, 0b01_11_10100101_0000000000000000_0_1_0_0], .mjoin ⟨3, 0x28, 0x32, 2⟩ ⟨1, 3, 0xA5, false, true, false⟩, 2)]
theorem test_decode_wordsEX : wordsEX.all decodesTo = true := by decide +kernel

/-! ### Ill-formed terms (R195) -/

/-- Do these words decode to an encoding fault of this subcode? -/
def refusedAs (ws : List Word) (e : DecodeError) : Bool :=
  match decode ws with
  | .ok _ => false
  | .error x => x == e

/-- R189: a PX word with a field that the instruction does not accept; R178: a pipe it may not issue in; R106: a reserved rounding code;
R179, R193: an odd pair, a reserved condition, size, function or CSR; R183: a D field that must be 0 without RET. -/
theorem test_ill_formed : [
    Instr.clz ⟨.lane, some ⟨false, 0, false, 1, none, 0, false, false, false, false⟩, 1, ⟨2, false, false⟩⟩,
    .join ⟨some ⟨false, 1, false, 0, none, 0, false, false, false, false⟩, 1, ⟨2, false, false⟩, ⟨3, false, false⟩⟩,
    .fdivF32 ⟨.unif, none, 1, ⟨2, false, false⟩, ⟨3, false, false⟩⟩,
    .faddF32 ⟨.lane, some ⟨false, 0, false, 5, none, 0, false, false, false, false⟩, 1, ⟨2, false, false⟩, ⟨3, false, false⟩⟩,
    .mad ⟨.lane, some ⟨false, 0, false, 0, none, 0, false, false, false, true⟩, 1, ⟨2, false, false⟩, ⟨3, false, false⟩⟩,
    .addB64 ⟨.lane, none, 1, ⟨2, false, false⟩, ⟨4, false, false⟩⟩,
    .icmpI32 ⟨.lane, none, 1, 6, ⟨2, false, false⟩, ⟨3, false, false⟩⟩,
    .ld ⟨.lane, none, true, 7, 1, ⟨2, false, false⟩, 0⟩,
    .st ⟨.lane, none, false, 2, ⟨1, false, false⟩, ⟨3, false, false⟩, 0⟩,
    .atomAdd ⟨none, true, 1, ⟨2, false, false⟩, ⟨3, false, false⟩, false⟩,
    .br ⟨false, 0, 0, 1⟩, .bar 3 0, .fence 4 1, .sred none 1 ⟨2, false, false⟩ 11, .poll none 9 0 false 1,
    .csrWr none ⟨2, false, false⟩ 0x11#8, .csrWr none ⟨2, false, false⟩ 0#8, .csrRd none 1 9,
    .mma .lane none ⟨0, 0, 0, 15⟩ ⟨0, 0, false, false, false, false, false, 0⟩,
    .mma .lane none ⟨0, 0, 0, 0⟩ ⟨0, 0, true, false, false, false, false, 0⟩].map wellFormed =
    [false, false, false, false, false, false, false, false, false, false, false, false, false, false, false, true, false, false, false, false] := by
  decide +kernel

/-- The worked encodings of R195, and its table of words that are refused, by the name of their fault. -/
theorem test_worked_words :
    decodesTo ([0x63436820, 0x094A2E30], .ffmaF32 ⟨.lane, some ⟨false, 3, false, 4, some ⟨13, true, false⟩, 0, false, false, false, true⟩, 10, ⟨11, true, false⟩, ⟨12, false, false⟩⟩, 2) = true ∧
    decodesTo ([0xA1281002], .ld ⟨.unif, none, false, 2, 20, ⟨8, false, false⟩, 2⟩, 1) = true ∧
    decodesTo ([0x415FFFE7], .br ⟨true, 2, 0xFFFF, 7⟩, 1) = true ∧
    refusedAs [0x5C000000] .reservedValue = true ∧ refusedAs [0xD5820000] .invalidPipe = true ∧
    refusedAs [0x60000200, 0x08C61C04] .pxRule = true ∧ refusedAs [0x07811001] .mustBeZero = true ∧
    refusedAs [0x40000021] .reservedValue = true ∧ refusedAs [] .truncated = true := by
  decide +kernel

/-! ### The spec's own worked words (11 to 17) -/

def u (r : Fin 64) : Src := ⟨BitVec.ofNat 6 r, false, false⟩
/-- A source with its last use marked. -/
def last (r : Fin 64) : Src := ⟨BitVec.ofNat 6 r, true, false⟩
/-- A PX word with nothing set. -/
def px0 : Px := ⟨false, 0, false, 0, none, 0, false, false, false, false⟩

/-- Words worked in 11_isa_integer, 12_isa_float and 13_isa_memory_atomics. -/
def workedArith : List (List Word × Instr × Nat) :=
  [([0x00031016], .add ⟨.lane, none, 3, u 4, last 5⟩, 1),
   ([0x60000100, 0x00031016], .add ⟨.lane, some { px0 with sat := true }, 3, u 4, last 5⟩, 2),
   ([0x60026900, 0x06861C20], .mad ⟨.lane, some { px0 with sat := true, c := some (last 9) }, 6, u 7, u 8⟩, 2),
   ([0x07D2282C], .icmpI32 ⟨.lane, none, 2, 2, u 10, u 11⟩, 1),
   ([0x188A3168], .bfeiI32 ⟨.lane, none, 5, u 6, 11, 8⟩, 1),
   ([0x701FFFFF], .li ⟨.lane, none, 7, 0x3FFFF⟩, 1),
   ([0x71200000, 0x12345678], .liw ⟨.lane, none, 8, 0x12345678⟩, 2),
   ([0x850A303A], .addB64 ⟨.unif, none, 10, u 12, last 14⟩, 1),
   ([0x08841418], .faddF32 ⟨.lane, none, 4, u 5, u 6⟩, 1),
   ([0x88841418], .faddF32 ⟨.unif, none, 4, u 5, u 6⟩, 1),
   ([0x084A080C], .fcmpF32 ⟨.lane, none, 1, 2, u 2, u 3⟩, 1),
   ([0x60200000, 0x0FC1080C], .fdivF32 ⟨.lane, some { px0 with rnd := 2 }, 1, u 2, u 3⟩, 2),
   ([0x0C072000], .ftbl ⟨.lane, none, 7, u 8⟩, 1),
   ([0x0C461C20], .scacc ⟨.lane, none, 6, u 7, u 8⟩, 1),
   ([0x09461C20], .ffmaF32 ⟨.lane, none, 6, u 7, u 8⟩, 1),
   ([0x60000100, 0x0C890C30], .cvt ⟨.lane, some { px0 with sat := true }, 9, u 3, 3, 0⟩, 2),
   ([0x60034800, 0x0ECA2C30], .hfmaBf2 ⟨.lane, some { px0 with c := some (u 13) }, 10, u 11, u 12⟩, 2),
   ([0x0D540408], .pk8loE4m3 ⟨.lane, none, 20, u 1, u 2⟩, 1),
   ([0x21940802], .ld ⟨.lane, none, false, 3, 10, u 4, 2⟩, 1),
   ([0x228A0440], .ld ⟨.lane, none, false, 5, 5, u 2, 0x40⟩, 1),
   ([0x26200602], .ld ⟨.lane, none, true, 4, 16, u 3, 2⟩, 1),
   ([0x29130C7F], .st ⟨.lane, none, false, 2, last 9, u 6, 0x7F⟩, 1),
   ([0x23801020], .pf ⟨.lane, none, u 8, 32⟩, 1),
   ([0x3B18A021], .atomFaddF32 ⟨none, false, 12, u 20, u 4, true⟩, 1),
   ([0x60000600, 0x30003C20], .atomAdd ⟨some { px0 with scope := 3 }, false, 0, last 7, u 4, false⟩, 2),
   ([0x39841831], .atomCas ⟨none, true, 2, u 3, u 6, true⟩, 1),
   ([0x3A105021], .atomAddB64 ⟨none, false, 8, u 10, u 4, true⟩, 1),
   ([0x78840300, 0x14000000], .ldsp ⟨none, 2, u 4, u 3, u 5⟩, 2)]

/-- Words worked in 14_isa_control_threads and 15_isa_sync_engines. -/
def workedControl : List (List Word × Instr × Nat) :=
  [([0x44200062], .spawn ⟨false, 1, 3, 2⟩, 1),
   ([0x5900F800], .brx ⟨none, u 62⟩, 1),
   ([0x59402800], .callx ⟨none, u 10⟩, 1),
   ([0x50C00000], .leave none, 1),
   ([0x50861C20], .join ⟨none, 6, u 7, u 8⟩, 1),
   ([0x51093200], .regroup ⟨none, 9, last 12⟩, 1),
   ([0x514000C8], .fuse 200, 1),
   ([0x51800040], .yield 64, 1),
   ([0x1A061801], .passiFlip ⟨none, 3, u 3, 1⟩, 1),
   ([0x1994083F], .passiOff ⟨none, 10, u 1, 0x3F⟩, 1),
   ([0x53472024], .passAt ⟨none, 7, u 8, u 9⟩, 1),
   ([0x52501600], .poll none 0x10 0 true 3, 1),
   ([0x52456800], .poll none 5 3 false 4, 1),
   ([0x52468200], .poll none 6 4 false 1, 1),
   ([0x52841408], .sred none 4 (u 5) 8, 1),
   ([0x52C41480], .sscan none 4 (u 5) true 0, 1),
   ([0x530B3000], .alike none 11 (u 12) false, 1),
   ([0x530B3001], .alike none 11 (u 12) true, 1),
   ([0x5A022000], .shape ⟨none, 2, u 8⟩, 1),
   ([0x5A490000], .expand ⟨none, 9⟩, 1),
   ([0x5A831000], .bcast ⟨none, 3, u 4⟩, 1),
   ([0x5AC60408], .iota ⟨none, 6, u 1, u 2⟩, 1),
   ([0x52010000], .bar 0 1, 1), ([0x52120000], .bar 1 2, 1), ([0x52220000], .bar 2 2, 1),
   ([0x54401014], .abarInit ⟨.lane, none, u 4, u 5⟩, 1),
   ([0xD4801000], .abarArrive .unif none (u 4), 1),
   ([0x54C01018], .abarDue ⟨.lane, none, u 4, u 6⟩, 1),
   ([0x5548101C], .abarTest ⟨.lane, none, u 4, u 7⟩ 8, 1),
   ([0x56540000], .arm .lane none 20, 1),
   ([0x56002428], .rput ⟨.lane, none, u 9, u 10⟩, 1),
   ([0x56803001], .ctrWait ⟨none, u 12, 1⟩, 1),
   ([0x56CD0001], .ctrRd .lane none 13 1, 1),
   ([0x599C0C18], .nap none 3 true (u 3) (u 6), 1),
   ([0x59C03803], .wpw none (u 14) 3, 1),
   ([0x77021060], .copyStart .lane none 2 4 (u 6), 1),
   ([0x77120000], .copyCancel .lane none 2, 1),
   ([0x77222000], .copyWpr .lane none 2 8, 1),
   ([0x79000800], .collStart .lane none (u 8), 1),
   ([0x7910C900], .collQuery .lane none 3 (u 9), 1),
   ([0x7A440600, 0x20000000], .stn ⟨.lane, none, 1, u 4, u 6, u 8⟩, 2),
   ([0x7B280000], .gath .lane none (u 10), 1)]

/-- Words worked in 16_isa_matrix and 17_isa_system. -/
def workedMatrix : List (List Word × Instr × Nat) :=
  [([0xF2240500, 0x50000000], .mma .unif none ⟨2, 0x40, 0x50, 0⟩ ⟨1, 1, false, false, false, false, false, 0⟩, 2),
   ([0x72020400, 0x00100000], .mma .lane none ⟨0, 0x20, 0x40, 0⟩ ⟨0, 0, false, false, false, false, false, 1⟩, 2),
   ([0xF3351590, 0x00302200], .mloop none ⟨3, 0x51, 0x59, 0⟩ ⟨3, 2, 0x20, false, false, false⟩, 2),
   ([0x74120600, 0x50500000], .mjoin ⟨1, 0x20, 0x60, 0⟩ ⟨1, 1, 5, false, false, false⟩, 2),
   ([0x75300000], .mwait .lane none 3, 1),
   ([0xF6122800], .tld .unif none 2 (u 10), 1),
   ([0x76408000], .tmovout none 0 32 0, 1),
   ([0xF6552000], .tcvt .unif none 5 2 0 0, 1),
   ([0xF6603010], .mscl .unif none 0 (u 12) 1, 1),
   ([0xFC018000], .tblLd .unif none (u 6), 1),
   ([0x7C11C000], .tblSel .lane none (u 7), 1),
   ([0x57194300], .plop none 3 1 2 0 0xC0, 1),
   ([0x57450000], .pmovRd none 5, 1),
   ([0x57401880], .pmovWr none (u 6), 1),
   ([0x57840001], .csrRd none 4 1, 1),
   ([0x57C01C10], .csrWr none (u 7) 0x10, 1),
   ([0x58080000], .time .lane none 8, 1), ([0xD8080000], .time .unif none 8, 1),
   ([0x58402807], .evt .lane none (u 10) 7, 1),
   ([0x58801234], .trap none 0x1234, 1), ([0x58C00000], .brk none, 1),
   ([0x51C00041, 0x000003FF, 0x00000000], .safe 1 1 0x3FF 0, 3),
   ([0x5B000001], .fragResumeSkip none (u 0), 1),
   ([0x5B860004], .fragInfo none 6 (u 0) 4 0, 1)]

theorem test_worked_arith : workedArith.all decodesTo = true := by decide +kernel
theorem test_worked_control : workedControl.all decodesTo = true := by decide +kernel
theorem test_worked_matrix : workedMatrix.all decodesTo = true := by decide +kernel

/-- The tables of words that are refused, 11 to 17: SUB 1, reserved. -/
theorem test_refused_reserved : ([[0x06031014], [0x07D6282C], [0x0C8108E0], [0x0C81085D], [0x21960802], [0x2A800400], [0x27801020],
    [0x78C40300, 0x14000000], [0x46000000], [0x59002C00], [0x52841488], [0x52300000], [0x59B01018], [0x77021460], [0x7AC40600, 0x20000000],
    [0xF224050F, 0x50000000], [0xF2240506, 0x52000000], [0xF6700000], [0x57C01C00], [0x58090000], [0x5B860007]].all
      fun ws => refusedAs ws .reservedValue) = true := by decide +kernel
/-- SUB 2, not zero. -/
theorem test_refused_nonzero : ([[0x128A1820], [0x0A010804], [0x21289002], [0x30183C20], [0x1A061821], [0x52511600], [0x52040000], [0x56803004],
    [0x7900C800], [0xF3351590, 0x00302201], [0x74120600, 0x50501000], [0x76408200], [0x57194301], [0x57401800]].all
      fun ws => refusedAs ws .mustBeZero) = true := by decide +kernel
/-- SUB 3, the prefix rule, and SUB 5, the pipe. -/
theorem test_refused_prefix_pipe : ([[0x60200000, 0x0A010800], [0x60800000, 0x29130C7F], [0x63000000, 0x51093200], [0x63000000, 0x53C00000],
    [0x60000100, 0xF3351590, 0x00302200]].all fun ws => refusedAs ws .pxRule) = true ∧
    ([[0x8A010800], [0xBB18A021], [0xD0861C20], [0xD2010000], [0x72240500, 0x50000000], [0xF6308000], [0xD1C00041, 0x3FF, 0]].all
      fun ws => refusedAs ws .invalidPipe) = true := by decide +kernel


/-! ### Small states -/

/-- A full register. -/
def full (v : Word) : RegCell := { val := v }
/-- A thread with `v0` to `v15`: a scratchpad object's address in `v0`, a global address in `v2`:`v3`, then small values. -/
def th0 : Thread := { pc := 0x1008, regs := [(0, full 0x40), (1, full 2), (2, full 0x10000), (3, full 0), (4, full 5), (5, full 0x80000000),
  (6, full 0x7FFFFFFF), (7, full 33), (8, full 0x3F800000), (9, full 0xBF800000), (10, full 1), (11, full 0), (12, full 7), (13, full 8), (14, full 9), (15, full 63)] }
/-- One role of one thread; the window is a slice. -/
def role0 : RoleInfo := { peak := 64, floor := 8 }
def plot0 : Plot := { hdr := { scratch := 64, roles := [role0], hnd := true }, roles := [role0], slots := [(0, 0)] }
/-- A core at cycle 100 with a fallow store, a plot, a translation of a page, and these threads. -/
def coreOf (ths : Tbl Thread) : Core :=
  { cyc := 100, fsbase := 0x100001, threads := ths, plots := [(0, plot0)], tlb := [{ ctx := 0, va := 0x10000, size := 0x10000, pa := 0x200000, dev := none, nc := false, w := true }] }
/-- A machine whose first core holds these threads, with their drill issued at 0x1008. -/
def world (ths : Tbl Thread) (pipe : Pipe := .lane) : State :=
  { now := 1000, cores := [(0, coreOf ths)], clusters := [(0, {})], cur := { pc := 0x1008, tids := tkeys ths, pipe := pipe } }
/-- One solitary thread. -/
def solo : State := world [(0, th0)]
/-- Two members of one sheaf, the second with its predicate 1 clear. -/
def mate (r : Nat) (p : BitVec 8) : Thread := { th0 with sheaf := some 0, rank := r, preds := p }
def pair2 : State :=
  let s := world [(0, mate 0 3), (1, mate 1 1)]
  updCore s 0 fun c => { c with sheaves := [(0, {})] }
def pairUnif : State := { pair2 with cur := { pair2.cur with pipe := .unif } }

/-- Do the conditions of these names hold? -/
def spillsB (s : State) (ci : Nat) : Bool := (fallowBase (getCore s ci)).isSome && s.bad.isEmpty
def calmB (s : State) (i : Instr) : Bool :=
  ((drillThreads i s).all fun e => e.2.stepping.isNone) && ((drillThreads i s).all fun e => actOn i e.2 || (offFault i (getCore s s.cur.core) (zeroOf i) e.2).isNone) && spillsB s s.cur.core
def takesB (s : State) (t : Nat) (th : Thread) (i : Instr) : Bool :=
  (activeThreads i s).contains (t, th) && (preFault i s (activeThreads i s) th).isNone && th.stepping.isNone && spillsB s s.cur.core
def aloneB (s : State) (t : Nat) (th : Thread) (i : Instr) : Bool :=
  (activeThreads i s == [(t, th)]) && (preFault i s [(t, th)] th).isNone && calmB s i
def soundB (s : State) (i : Instr) : Bool :=
  !(activeThreads i s).isEmpty && ((activeThreads i s).all fun e => (preFault i s (activeThreads i s) e.2).isNone) && calmB s i
def cleanB (s : State) (b : Nat) (i : Instr) : Bool := soundB s i && (fallowBase (getCore s s.cur.core) == some b)
def drillsB (s : State) : Bool := s.reqs.all fun e => match e.2 with
  | .atomic q => decide (q.drill < s.nextId)
  | .ldsp q => decide (q.drill < s.nextId)
  | .stn q => decide (q.drill < s.nextId)
  | _ => true
def keptB (s : State) : Bool :=
  memWf s.mem && tsorted s.reqs && (s.reqs.all fun e => decide (e.1 < s.nextId)) && tsorted s.l2 && tsorted s.cores && tsorted s.clusters
    && (s.cores.all fun c => tsorted c.2.threads && tsorted c.2.plots && tsorted c.2.frags && tsorted c.2.sheaves && tsorted c.2.l1 && c.2.threads.all fun e => tsorted e.2.regs)
    && (s.clusters.all fun k => memWf k.2.scratch) && drillsB s && s.savedParts.all fun p => p.2.threads.all fun e => tsorted e.2.regs
theorem spills_of_spillsB {s : State} {ci : Nat} (h : spillsB s ci = true) : SpillsOk s ci := by
  simp only [spillsB, Bool.and_eq_true, List.isEmpty_iff] at h
  exact ⟨h.1, h.2⟩
theorem calm_of_calmB {s : State} {i : Instr} (h : calmB s i = true) : Calm i s := by
  simp only [calmB, Bool.and_eq_true, Bool.or_eq_true, Option.isNone_iff_eq_none, List.all_eq_true] at h
  exact ⟨h.1.1, fun e he ho => (h.1.2 e he).resolve_left (by rw [ho]; decide), spills_of_spillsB h.2⟩
theorem takes_of_takesB {s : State} {t : Nat} {th : Thread} {i : Instr} (h : takesB s t th i = true) : Takes i s t th := by
  simp only [takesB, Bool.and_eq_true, List.contains_iff_mem, Option.isNone_iff_eq_none] at h
  exact ⟨h.1.1.1, h.1.1.2, h.1.2, spills_of_spillsB h.2⟩
theorem alone_of_aloneB {s : State} {t : Nat} {th : Thread} {i : Instr} (h : aloneB s t th i = true) : Alone i s t th := by
  simp only [aloneB, Bool.and_eq_true, beq_iff_eq, Option.isNone_iff_eq_none] at h
  exact ⟨h.1.1, h.1.2, calm_of_calmB h.2⟩
theorem sound_of_soundB {s : State} {i : Instr} (h : soundB s i = true) : SoundDrill i s := by
  simp only [soundB, Bool.and_eq_true, Bool.not_eq_true', List.isEmpty_eq_false_iff, Option.isNone_iff_eq_none, List.all_eq_true] at h
  exact ⟨h.1.1, h.1.2, calm_of_calmB h.2⟩
theorem clean_of_cleanB {s : State} {b : Nat} {i : Instr} (h : cleanB s b i = true) : CleanDrill i s b := by
  simp only [cleanB, Bool.and_eq_true, beq_iff_eq] at h
  have hs := sound_of_soundB h.1
  exact ⟨hs.some1, hs.sound, hs.calm, h.2⟩
theorem drills_of_drillsB {s : State} (h : drillsB s = true) : ∀ e ∈ s.reqs, (∀ q, e.2 = .atomic q → q.drill < s.nextId) ∧ (∀ q, e.2 = .ldsp q → q.drill < s.nextId) ∧
    ∀ q, e.2 = .stn q → q.drill < s.nextId := by
  simp only [drillsB, List.all_eq_true] at h
  refine fun e he => ⟨fun q hq => ?_, fun q hq => ?_, fun q hq => ?_⟩ <;> (have := h e he; rw [hq] at this; simpa using this)
theorem kept_of_keptB {s : State} (h : keptB s = true) : WellKept s := by
  simp only [keptB, Bool.and_eq_true, List.all_eq_true, decide_eq_true_eq] at h
  obtain ⟨⟨⟨⟨⟨⟨⟨⟨⟨h1, h2⟩, h3⟩, h4⟩, h5⟩, h6⟩, h7⟩, h8⟩, h9⟩, h10⟩ := h
  exact ⟨h1, h2, h3, h4, h5, h6, fun c hc => ⟨(h7 c hc).1.1.1.1.1, (h7 c hc).1.1.1.1.2, (h7 c hc).1.1.1.2, (h7 c hc).1.1.2, (h7 c hc).1.2⟩, fun c hc => (h7 c hc).2, h8, drills_of_drillsB h9, h10⟩
/-- The step goes on. -/
def goesOn (o : Host.Outcome State Fault Refusal) : Bool :=
  match o with
  | .next _ => true
  | _ => false
theorem decode_of_decodesTo {ws : List Word} {i : Instr} {n : Nat} (h : decodesTo (ws, i, n) = true) : decode ws = .ok (i, n) := by
  simp only [decodesTo] at h
  split at h
  · rename_i r hr
    simp only [Bool.and_eq_true, beq_iff_eq] at h
    rw [hr, ← h.1, ← h.2]
  · cases h

/-! ### Witnesses: states and operands that meet the hypotheses of the statements -/

/-- An instruction that has words and is well formed, and words that decode. -/
theorem meets_DecodeOfEncode : hasWords (.add ⟨.lane, none, 3, u 7, u 2⟩) = true ∧ wellFormed (.add ⟨.lane, none, 3, u 7, u 2⟩) = true := by decide
theorem meets_EncodeOfDecode : decode [0x00031D0A] = .ok (.add ⟨.lane, none, 3, ⟨7, false, true⟩, ⟨2, true, false⟩⟩, 1) := by rfl

/-- A fetched line with a start bit and an `exit` at word 2 (R174). -/
def exitLine : Line := placedLine solo 0x50400000
def fetched : State :=
  { updCore solo 0 fun c => { c with icache := [(iKey 0 0x1008, exitLine)] } with issued := [{ pc := 0x1008, tids := [0] }] }
theorem meets_StepRunsTheInstruction : dueNap fetched = none ∧ fetched.issued = [{ pc := 0x1008, tids := [0] }] ∧ getThread fetched 0 0 = some th0 ∧ heldLine fetched 0 { th0 with pc := 0x1008 } = some exitLine ∧
    (∀ u ∈ [0], ∀ x, getThread fetched 0 u = some x → x.fresh = false) ∧ badHeader exitLine = none ∧
    startOk exitLine 2 (lengthOf (lineWords exitLine 2)) = true ∧ decode (lineWords exitLine 2) = .ok (.exit none, 1) := by
  refine ⟨by decide +kernel, by decide +kernel, by decide +kernel, by decide +kernel, ?_, by decide +kernel, by decide +kernel, decode_of_decodesTo (by decide +kernel)⟩
  intro u hu x hx
  rw [List.mem_singleton.1 hu] at hx
  cases hx
  rfl
/-- A nap whose word has been written. -/
def napDueWorld : State := world [(0, { th0 with st := .waiting (.nap true 0x40 1 5 5) })]
theorem meets_StepRunsAgents : dueNap napDueWorld = some (.napWordRecheck 0 0) ∧ dueNap solo = none ∧ dueNap { solo with agenda := [Instr.yieldExpiry] } = none ∧ solo.issued = [] ∧ { solo with agenda := [Instr.yieldExpiry] }.agenda = [.yieldExpiry] ∧ solo.agenda = [] := by decide +kernel
theorem meets_StepKeeps : WellKept { solo with agenda := [.yieldExpiry] } ∧ MemInv { solo with agenda := [.yieldExpiry] } ∧
    goesOn (step { solo with agenda := [.yieldExpiry] }) = true :=
  ⟨kept_of_keptB (by decide +kernel), (kept_of_keptB (by decide +kernel)).mem, by decide +kernel⟩

/-- Every integer instruction has a thread that takes it, in the lane pipe and, where all members agree on the sources, in the uniform pipe. -/
def rr (d a b : Fin 64) : RR := ⟨.lane, none, BitVec.ofNat 6 d, u a, u b⟩
def ri (d a : Fin 64) (n : Int) : RI := ⟨.lane, none, BitVec.ofNat 6 d, u a, BitVec.ofInt 9 n⟩
def withPx (px : Px) (o : RR) : RR := { o with px := some px }
theorem meets_IntegerSums :
    [Instr.add (rr 3 5 6), .sub (rr 3 5 6), .mul (rr 3 5 6), .add (withPx { px0 with sat := true } (rr 3 6 6)), .addi (ri 3 6 255), .muli (ri 3 5 (-256)),
     .mulhiI32 (rr 3 5 5), .mulhiN32 (rr 3 5 5), .mulWideI32 (rr 16 5 5), .mulWideN32 (rr 16 5 6), .addB64 (rr 62 4 6), .subB64 (rr 16 4 6), .lea (rr 16 2 5),
     .lea4 (rr 16 2 6), .mad (rr 4 5 6), .mad (withPx { px0 with nc := true, c := some (u 7) } (rr 4 5 6)), .leai (ri 16 2 (-1))].all (takesB solo 0 th0) = true := by
  decide +kernel
theorem meets_IntegerLogicShifts :
    [Instr.minI32 (rr 3 5 6), .maxI32 (rr 3 5 6), .minN32 (rr 3 5 6), .maxN32 (rr 3 5 6), .and (rr 3 5 6), .or (rr 3 5 6), .xor (rr 3 5 6), .andn (rr 3 5 6),
     .miniI32 (ri 3 5 (-1)), .maxiI32 (ri 3 5 (-1)), .miniN32 (ri 3 5 (-1)), .maxiN32 (ri 3 5 (-1)), .andi (ri 3 5 255), .ori (ri 3 5 0), .xori (ri 3 5 (-256)),
     .shl (rr 3 5 15), .shr (rr 3 5 15), .sar (rr 3 5 15), .rotl (rr 3 5 7), .shli ⟨.lane, none, 3, u 5, 31⟩, .shri ⟨.lane, none, 3, u 5, 0⟩,
     .sari ⟨.lane, none, 3, u 5, 31⟩, .rotli ⟨.lane, none, 3, u 5, 31⟩].all (takesB solo 0 th0) = true ∧
    wellFormed (.shli ⟨.lane, none, 3, u 5, 31⟩) = true ∧ (encode (.shli ⟨.lane, none, 3, u 5, 31⟩)).length = 1 := by
  decide +kernel
theorem meets_BitFieldsCountsMoves :
    [Instr.bfeN32 (rr 3 5 6), .bfeI32 (rr 3 5 15), .bfi (rr 3 5 7), .bfeiN32 ⟨.lane, none, 3, u 5, 31, 15⟩, .bfeiI32 ⟨.lane, none, 3, u 5, 0, 0⟩,
     .clz ⟨.lane, none, 3, u 11⟩, .popc ⟨.lane, none, 3, u 6⟩, .brev ⟨.lane, none, 3, u 5⟩, .mov ⟨.lane, none, 3, u 20⟩, .li ⟨.lane, none, 3, 0x3FFFF⟩,
     .liw ⟨.lane, none, 63, 0xDEADBEEF⟩].all (takesB solo 0 th0) = true := by
  decide +kernel
theorem meets_IntegerCompares :
    [Instr.icmpI32 ⟨.lane, none, 0, 0, u 5, u 6⟩, .icmpI32 ⟨.lane, none, 7, 5, u 5, u 6⟩, .icmpN32 ⟨.lane, none, 1, 2, u 5, u 6⟩, .icmpiI32 ⟨.lane, none, 1, 3, u 5, 255⟩,
     .icmpiN32 ⟨.lane, none, 1, 4, u 5, 0x100⟩].all (takesB solo 0 th0) = true ∧
    wellFormed (.icmpI32 ⟨.lane, none, 1, 0, u 5, u 6⟩) = true ∧ wellFormed (.icmpN32 ⟨.lane, none, 1, 0, u 5, u 6⟩) = true ∧
    wellFormed (.icmpiI32 ⟨.lane, none, 1, 0, u 5, 1⟩) = true ∧ wellFormed (.icmpiN32 ⟨.lane, none, 1, 0, u 5, 1⟩) = true := by
  decide +kernel

/-- A value of one bit in every format, exact sums, products and quotients, and a group sum. -/
theorem meets_RoundedOnce : |fvRat (.fin true 1 0)| ≤ valOf fE4m3 fE4m3.maxFinite ∧ |fvRat (.fin true 1 0)| ≤ valOf fF32 fF32.maxFinite := by
  have h1 : unpack fE4m3 fE4m3.maxFinite = .fin false 14 5 := by decide +kernel
  have h2 : unpack fF32 fF32.maxFinite = .fin false 0xFFFFFF 104 := by decide +kernel
  simp only [valOf, h1, h2, fvRat]
  norm_num
theorem meets_ArithmeticRoundsExact :
    (let x := fvRat (.fin false 3 0)
     let y := fvRat (.fin true 1 0)
     let z := fvRat (.fin false 1 (-1))
     (x + y ≠ 0 ∧ |x + y| ≤ valOf fF32 fF32.maxFinite) ∧ (x * y ≠ 0 ∧ |x * y| ≤ valOf fF32 fF32.maxFinite) ∧
     (x * y + z ≠ 0 ∧ |x * y + z| ≤ valOf fF32 fF32.maxFinite) ∧ y ≠ 0 ∧ (x / y ≠ 0 ∧ |x / y| ≤ valOf fF32 fF32.maxFinite)) := by
  have h2 : unpack fF32 fF32.maxFinite = .fin false 0xFFFFFF 104 := by decide +kernel
  simp only [valOf, h2, fvRat]
  norm_num [abs_of_neg]
/-- The special operands of each clause are free of conditions but for the mode and a nonzero numerator. -/
theorem meets_FloatSpecials : (3 : Nat) < 4 ∧ (1 : Nat) ≠ 0 ∧ (-126 : Int) ≤ -126 ∧ (127 : Int) < 128 := by decide
theorem meets_FloatResults :
    ([Instr.faddF32 (rr 3 8 9), .fsubF32 (rr 3 8 9), .fmulF32 (rr 3 8 9), .ffmaF32 (rr 8 8 9), .ffmaF32 (withPx { px0 with nc := true, c := some (u 9) } (rr 3 8 9)),
      .fdivF32 (rr 3 8 11), .fminF32 (rr 3 8 9), .fmaxF32 (rr 3 8 9), .scacc (rr 8 4 9), .fcmpF32 ⟨.lane, none, 0, 5, u 8, u 9⟩, .fsqrt ⟨.lane, none, 3, u 9⟩,
      .frcp ⟨.lane, none, 3, u 11⟩, .frsq ⟨.lane, none, 3, u 8⟩, .fex2 ⟨.lane, none, 3, u 8⟩, .flg2 ⟨.lane, none, 3, u 8⟩, .fsin ⟨.lane, none, 3, u 8⟩,
      .fcos ⟨.lane, none, 3, u 8⟩, .ftanh ⟨.lane, none, 3, u 8⟩, .cvt ⟨.lane, none, 3, u 8, 5, 0⟩, .pkBf2 (rr 3 8 9), .pkH2 (rr 3 8 9), .pk8loE4m3 (rr 3 8 9),
      .pk8loE5m2 (rr 3 8 9), .pk8hiE4m3 (rr 3 8 9), .pk8hiE5m2 (rr 3 8 9)] ++
     [Instr.haddBf2 (rr 3 8 9), .hmulBf2 (rr 3 8 9), .hfmaBf2 (rr 3 8 9), .haddH2 (rr 3 8 9), .hmulH2 (rr 3 8 9), .hfmaH2 (rr 3 8 9)]).all (takesB solo 0 th0) = true := by
  decide +kernel

/-- A clean drill of two threads, one masked off; the same in the uniform pipe; a uniform drill without an active thread. -/
def onP1 : Px := { px0 with mpred := 1 }
theorem meets_ComputingFrame :
    CleanDrill (.add (rr 3 5 6)) pair2 0x100000 ∧ computes (.add (rr 3 5 6)) = true ∧ wellFormed (.add (withPx onP1 (rr 3 5 6))) = true ∧
    Takes (.add (withPx onP1 (rr 3 5 6))) pair2 0 (mate 0 3) ∧
    (drillThreads (.add (withPx onP1 (rr 3 5 6))) pair2).map (·.1) = [0, 1] ∧ (activeThreads (.add (withPx onP1 (rr 3 5 6))) pair2).map (·.1) = [0] ∧
    getThread pair2 0 1 = some (mate 1 1) ∧ (mate 1 1).stepping = none ∧
    offFault (.add (withPx onP1 (rr 3 5 6))) (getCore pair2 0) (zeroOf (.add (withPx onP1 (rr 3 5 6)))) (mate 1 1) = none ∧ (∀ e ∈ drillThreads (.add (rr 3 5 6)) pairUnif, e.2.stepping = none) ∧ isUnif pairUnif = true ∧
    activeThreads (.add (withPx { onP1 with mpred := 2 } (rr 3 5 6))) pairUnif = [] ∧ (drillThreads (.add (withPx { onP1 with mpred := 2 } (rr 3 5 6))) pairUnif).map (·.1) = [0, 1] :=
  ⟨clean_of_cleanB (by decide +kernel), by decide +kernel, by decide +kernel, takes_of_takesB (by decide +kernel), by decide +kernel, by decide +kernel, by decide +kernel,
   by decide +kernel, by decide +kernel, by decide +kernel, by decide +kernel, by decide +kernel, by decide +kernel⟩

/-! ### Memory -/

/-- A scratchpad load of one register, at the last place of its window; a store of a quad at its first place. -/
def ldS : LdOp := ⟨.lane, none, true, 2, 20, u 0, 0⟩
def stS : StOp := ⟨.lane, none, true, 4, u 4, u 11, 0⟩
theorem meets_Loads_scratchpad : ldS.sp = true ∧ ldS.size.toNat < 7 ∧ Alone (.ld ldS) solo 0 th0 ∧
    checkScratch solo 0 0 (effAddr true ldS.a ldS.off 4 th0) 4 4 2 false = .ok 0x40 :=
  ⟨by decide, by decide, alone_of_aloneB (by decide +kernel), by decide +kernel⟩
/-- A global load that the L1 does not hold, with an MSHR free, and one that hits bytes under lease. -/
def ldG : LdOp := ⟨.lane, none, false, 3, 20, u 2, 4⟩
def hitWorld : State := updCore solo 0 fun c => { c with l1 := [(0x200000, { valid := BitVec.ofNat 128 (2 ^ 128 - 1), expiry := 2000 })] }
theorem meets_Loads_global : notCached (.here 0x200020 false) = false ∧ ldG.sp = false ∧ ldG.size.toNat < 7 ∧ changing solo 0 = false ∧ changing hitWorld 0 = false ∧ Alone (.ld ldG) solo 0 th0 ∧
    (∃ loc, checkGlobal solo 0 0 (ldAcc ldG th0) = .ok loc ∧ (l1Line solo 0 (lineKey loc)).dirty = 0) ∧ mshrFree solo 0 0 th0 = true ∧
    Alone (.ld ldG) hitWorld 0 th0 ∧ checkGlobal hitWorld 0 0 (ldAcc ldG th0) = .ok (.here 0x200020 false) ∧
    within (bytesMask 32 8) (usable hitWorld 0x200000 (l1Line hitWorld 0 0x200000)) = true ∧
    blocked hitWorld hitWorld.nextId (hitWorld.nextId + 1) 0 [0] (spanOf (.here 0x200020 false) 8) = false :=
  ⟨by decide +kernel, by decide, by decide, by decide +kernel, by decide +kernel, alone_of_aloneB (by decide +kernel), ⟨.here 0x200020 false, by decide +kernel, by decide +kernel⟩, by decide +kernel,
   alone_of_aloneB (by decide +kernel), by decide +kernel, by decide +kernel, by decide +kernel⟩
/-- A load on its way, and one whose value has come: its thread's `v20` is empty for it. -/
def loadOnWay : LoadOp := { dreg := 20, parts := [{ tid := 0, loc := .here 0x7C false, seq := 5 }] }
def waiting20 : Thread := { th0 with regs := tput th0.regs 20 { st := .empty, prod := 5 } }
def onWay : State := { world [(0, waiting20)] with reqs := [(5, .load loadOnWay)], nextId := 6 }
def come : LoadOp := { loadOnWay with parts := [{ tid := 0, data := some 0xFFFFFFFF }], due := 101 }
def arrived : State := { onWay with reqs := [(5, .load come)] }
theorem meets_LoadsReturn_home : (∀ k, k < loadOnWay.size → inSavedSlot onWay (0x7C + k) = false) ∧ WellKept onWay ∧ onWay.bad = [] ∧ (0x7C : Nat) < 2 ^ 48 ∧ tget onWay.reqs 5 = some (.load loadOnWay) ∧
    loadOnWay.parts = [{ tid := 0, loc := .here 0x7C false, seq := 5 }] ∧ loadOnWay.also = [] ∧ dieOf loadOnWay.core = homeDie 0x7C ∧
    blocked onWay 5 5 0 [0] (spanOf (.here 0x7C false) 4) = false ∧ pageBusy onWay (.here 0x7C false) = false ∧ 0x7C % 128 + loadOnWay.size ≤ 128 ∧
    tgetD onWay.lineKeys (0x7C / 128 * 128) 0 = ctxKey onWay (plotCtx onWay 0 0) :=
  ⟨by decide +kernel, kept_of_keptB (by decide +kernel), by decide, by decide, by decide +kernel, by decide, by decide, by decide +kernel, by decide +kernel, by decide +kernel, by decide, by decide +kernel⟩
theorem meets_LoadsReturn_value : WellKept arrived ∧ SpillsOk arrived 0 ∧ tget arrived.reqs 5 = some (.load come) ∧ (0xFFFFFFFF : Nat) < 256 ^ come.size ∧
    (∀ p ∈ come.parts, p.data.isSome = true ∧ p.bad = false) ∧ come.due ≤ (getCore arrived 0).cyc + 1 ∧ come.nreg ≠ 0 ∧ loadCode come < 7 ∧
    (come.parts.map (·.tid) ++ come.also ++ come.zeros).Nodup ∧ (∃ p ∈ come.parts, p.tid = 0 ∧ p.data = some 0xFFFFFFFF) ∧
    getThread arrived 0 0 = some waiting20 ∧ (∀ x ∈ loaded (loadCode come) 20 0xFFFFFFFF, (tget waiting20.regs x.1).map (fun c => (c.st, c.prod)) = some (.empty, 5)) :=
  ⟨kept_of_keptB (by decide +kernel), spills_of_spillsB (by decide +kernel), by decide +kernel, by decide, by decide, by decide +kernel, by decide, by decide, by decide, ⟨_, List.mem_singleton.2 rfl, rfl, rfl⟩,
   by decide +kernel, by decide +kernel⟩
/-- A scratchpad store of two threads to one place, and a global store to a line that the L1 holds. -/
def stG : StOp := ⟨.lane, none, false, 1, u 4, u 2, 63⟩
theorem meets_Stores_scratchpad : WellKept pair2 ∧ stS.sp = true ∧ stS.size.toNat < 5 ∧ isUnif pair2 = false ∧ CleanDrill (.st stS) pair2 0x100000 ∧
    (∀ e ∈ activeThreads (.st stS) pair2, checkScratch pair2 0 e.2.plot (effAddr true stS.a stS.off 16 e.2) 16 16 4 true = .ok 0) ∧
    (activeThreads (.st stS) pair2).map (·.1) = [0, 1] :=
  ⟨kept_of_keptB (by decide +kernel), by decide, by decide, by decide, clean_of_cleanB (by decide +kernel), by decide +kernel, by decide +kernel⟩
theorem meets_Stores_global : WellKept hitWorld ∧ changing hitWorld 0 = false ∧ stG.sp = false ∧ stG.size.toNat < 5 ∧ Alone (.st stG) hitWorld 0 th0 ∧
    checkGlobal hitWorld 0 0 (stAcc stG th0) = .ok (.here 0x20007E false) ∧ (∀ pa, Loc.here 0x20007E false ≠ .here pa true) ∧
    (tget (getCore hitWorld (l1Core hitWorld 0 0x200000)).l1 0x200000).isSome = true ∧ (getCore hitWorld (l1Core hitWorld 0 0x200000)).fifo.length < Config.dirtyFifo :=
  ⟨kept_of_keptB (by decide +kernel), by decide +kernel, by decide, by decide, alone_of_aloneB (by decide +kernel), by decide +kernel, by simp, by decide +kernel, by decide +kernel⟩

/-- A dirty line at the head of its FIFO; its write-back on the way; a prefetch of each kind. -/
def dirtyWorld : State := updCore solo 0 fun c => { c with l1 := [(0x200000, { dirty := 1 })], fifo := [{ line := 0x200000, seq := 3, since := 900, plots := [0], tids := [0] }] }
def back : WBack := { line := 0x200000, mask := 1, data := 7, seq := 3 }
def backWorld : State := { solo with reqs := [(3, .wback back)], nextId := 4 }
theorem meets_CachesAndLeases_drain : pageBusy backWorld (.here back.line false) = false ∧ WellKept dirtyWorld ∧ (getCore dirtyWorld 0).fifo = [{ line := 0x200000, seq := 3, since := 900, plots := [0], tids := [0] }] ∧
    WellKept backWorld ∧ tget backWorld.reqs 3 = some (.wback back) ∧ wbBlocked backWorld 3 back = false ∧ back.dev = none ∧ back.line < 2 ^ 48 ∧ back.line % 128 = 0 ∧
    tgetD backWorld.lineKeys back.line 0 = ctxKey backWorld 0 :=
  ⟨by decide +kernel, kept_of_keptB (by decide +kernel), by decide +kernel, kept_of_keptB (by decide +kernel), by decide +kernel, by decide +kernel, by decide, by decide, by decide, by decide +kernel⟩
def pfMiss : PfOp := ⟨.lane, none, u 2, 0⟩
def pfBad : PfOp := ⟨.lane, none, u 5, 0⟩
theorem meets_CachesAndLeases_prefetch : Alone (.pf pfMiss) solo 0 th0 ∧ changing solo 0 = false ∧ canonical (effAddr false pfMiss.a pfMiss.off 4 th0) = true ∧
    effAddr false pfMiss.a pfMiss.off 4 th0 % 4 = 0 ∧ ((tlbFind solo 0 (plotCtx solo 0 0) (effAddr false pfMiss.a pfMiss.off 4 th0)).map fun x => x.loc 0x10000) = some (.here 0x200000 false) ∧
    usable solo 0x200000 (l1Line solo (l1Core solo 0 0x200000) 0x200000) = 0 ∧ mshrFree solo 0 0 th0 = true ∧
    Alone (.pf pfBad) solo 0 th0 ∧ canonical (effAddr false pfBad.a pfBad.off 4 th0) = false :=
  ⟨alone_of_aloneB (by decide +kernel), by decide +kernel, by decide +kernel, by decide +kernel, by decide +kernel, by decide +kernel, by decide +kernel, alone_of_aloneB (by decide +kernel), by decide +kernel⟩

/-- Atomics of every kind on an object's word and on a global word. -/
def atS (kind : Nat) : AtOp := ⟨none, true, 20, if kind = 10 then u 4 else u 5, u 0, true⟩
def atG (kind : Nat) : AtOp := ⟨none, false, 20, if kind = 10 then u 4 else u 5, u 2, kind = 9⟩
theorem meets_Atomics_scratchpad : WellKept solo ∧ (∀ kind, kind < 16 → aloneB solo 0 th0 (atomInstr kind (atS kind)) = true ∧
    (checkScratch solo 0 0 (effAddr true (atS kind).a 0 4 th0) (if kind = 10 then 8 else 4) (if kind = 10 then 8 else 4) (if kind = 10 then 3 else 2) true = .ok 0x40)) :=
  ⟨kept_of_keptB (by decide +kernel), by decide +kernel⟩
theorem meets_Atomics_global : changing solo 0 = false ∧ ∀ kind, kind < 16 → aloneB solo 0 th0 (atomInstr kind (atG kind)) = true ∧
    checkGlobal solo 0 0 (atAcc kind (atG kind) th0) = .ok (.here 0x200000 false) ∧ mshrFree solo 0 0 th0 = true := by
  decide +kernel
def atomReq : AtomOp := { loc := .here 0x20007C false, steps := [{ tid := 0, v := 0xFFFFFFFF }, { tid := 1, v := 2 }] }
def atomWorld : State := { solo with reqs := [(3, .atomic atomReq)], nextId := 4 }
def atomBack : AtomOp := { atomReq with performed := true, ret := true, dreg := 20, drill := 3, steps := [{ tid := 0, v := 1, old := 9 }] }
def atomEnd : State := { world [(0, { waiting20 with regs := tput th0.regs 20 { st := .empty, prod := 3 } })] with reqs := [(3, .atomic atomBack)], nextId := 4 }
theorem meets_AtomicsPerformed_home : (∀ k, k < atomBytes atomReq.kind → inSavedSlot atomWorld (0x20007C + k) = false) ∧ WellKept atomWorld ∧ (∀ x ∈ atomReq.steps, x.v.toNat < 2 ^ 32) ∧ atomOf atomWorld 3 = some atomReq ∧ atomReq.performed = false ∧
    0x20007C % 128 + atomBytes atomReq.kind ≤ 128 ∧ blocked atomWorld 3 3 0 (atomReq.steps.map (·.tid)) (spanOf atomReq.loc (atomBytes atomReq.kind)) = false ∧
    pageBusy atomWorld atomReq.loc = false ∧ tgetD atomWorld.lineKeys 0x200000 0 = ctxKey atomWorld (plotCtx atomWorld 0 0) :=
  ⟨by decide +kernel, kept_of_keptB (by decide +kernel), by decide +kernel, by decide +kernel, by decide, by decide +kernel, by decide +kernel, by decide +kernel, by decide +kernel⟩
theorem meets_AtomicsPerformed_ack : WellKept atomEnd ∧ SpillsOk atomEnd 0 ∧ atomOf atomEnd 3 = some atomBack ∧ atomBack.performed = true ∧ atomBack.acked = false ∧ (∀ e ∈ atomMates atomEnd atomBack, e.1 = 3) ∧ atomBack.due ≤ (getCore atomEnd 0).cyc + 1 ∧
    (atomBack.steps.map (·.tid)).Nodup ∧ (∃ x ∈ atomBack.steps, x.tid = 0) ∧
    ((getThread atomEnd 0 0).bind fun th => (tget th.regs 20).map fun c => (c.st, c.prod)) = some (.empty, atomBack.drill) :=
  ⟨kept_of_keptB (by decide +kernel), spills_of_spillsB (by decide +kernel), by decide +kernel, by decide, by decide, by decide +kernel, by decide +kernel, by decide, ⟨_, List.mem_singleton.2 rfl, rfl⟩, by decide +kernel⟩

/-- Accesses that fail a check: past the window, past the scratchpad, not canonical, not aligned. -/
def ldPast : LdOp := ⟨.lane, none, true, 0, 20, u 2, 0⟩
def stBad : StOp := ⟨.lane, none, true, 2, u 4, u 7, 0⟩
def stFar : StOp := ⟨.lane, none, false, 2, u 4, u 4, 0⟩
theorem meets_AccessFaults : changing solo 0 = false ∧ (getCore solo 0).frags = [] ∧ (getCore solo 0).fragWait = [] ∧ Alone (.ld ldPast) solo 0 th0 ∧
    checkScratch solo 0 0 (ldAcc ldPast th0).addr 1 1 0 false = .error (memFault 5 0 false true 0x10000) ∧ Alone (.st stBad) solo 0 th0 ∧
    checkScratch solo 0 0 (stAcc stBad th0).addr 4 4 2 true = .error (memFault 4 2 true true 33) ∧ Alone (.st stFar) solo 0 th0 ∧
    checkGlobal solo 0 0 (stAcc stFar th0) = .fault (memFault 3 2 true false (stAcc stFar th0).addr) ∧ canonical (stAcc stFar th0).addr = false ∧
    canonical 0x10002 = true ∧ 0x10002 % 4 ≠ 0 ∧ (2 ^ 22 : Nat) ≥ 2 ^ 22 :=
  ⟨by decide +kernel, by decide +kernel, by decide +kernel, alone_of_aloneB (by decide +kernel), by decide +kernel, alone_of_aloneB (by decide +kernel), by decide +kernel,
   alone_of_aloneB (by decide +kernel), by decide +kernel, by decide +kernel, by decide +kernel, by decide, by decide⟩

/-! ### Synchronisation -/

/-- A fence with nothing outstanding, one with a dirty line of the thread, one after a lost store; a fence whose wait is over, and one whose is not. -/
def lost : Thread := { th0 with lostAt := some 0x10000 }
theorem meets_Fences : Alone (.fence 3 3) solo 0 th0 ∧ fenceDone solo 0 0 th0 3 3 solo.nextId = true ∧ Alone (.fence 3 2) dirtyWorld 0 th0 ∧
    fenceDone dirtyWorld 0 0 th0 3 2 4 = false ∧ Alone (.fence 1 3) (world [(0, lost)]) 0 lost ∧ lost.lostAt = some 0x10000 ∧
    (getCore (world [(0, lost)]) 0).frags = [] :=
  ⟨alone_of_aloneB (by decide +kernel), by decide +kernel, alone_of_aloneB (by decide +kernel), by decide +kernel, alone_of_aloneB (by decide +kernel), by decide +kernel, by decide +kernel⟩
def fencing : Thread := { th0 with st := .waiting (.fence 3 2 4) }
def fenceDirty : State := updCore dirtyWorld 0 fun c => { c with threads := [(0, fencing)] }
theorem meets_Fences_wait : getThread (world [(0, fencing)]) 0 0 = some fencing ∧ fencing.st = .waiting (.fence 3 2 4) ∧ fencing.stepping = none ∧
    fenceDone arrived 0 0 waiting20 0 2 7 = true ∧ (5, Req.load come) ∈ arrived.reqs ∧ come.core = 0 ∧ (∃ p ∈ come.parts, p.tid = 0) ∧ fenceDone (world [(0, fencing)]) 0 0 fencing 3 2 4 = true ∧ getThread fenceDirty 0 0 = some fencing ∧ fenceDone fenceDirty 0 0 fencing 3 2 4 = false :=
  ⟨by decide +kernel, by decide, by decide, by decide +kernel, by decide +kernel, by decide, ⟨_, List.mem_singleton.2 rfl, rfl⟩, by decide +kernel, by decide +kernel, by decide +kernel⟩
def raised : Thread := { th0 with ast := 0x3F, aen := 1 }
def flagging : State := { solo with reqs := [(1, .atomic { kind := 11, steps := [{ tid := 0 }] })], nextId := 2 }
theorem meets_Fences_tfence : Alone .tfence solo 0 th0 ∧ flagsOpen solo 0 0 = false ∧ th0.ast &&& th0.aen &&& 0x3F = 0 ∧ Alone .tfence (world [(0, raised)]) 0 raised ∧
    flagsOpen (world [(0, raised)]) 0 0 = false ∧ raised.ast &&& raised.aen &&& 0x3F ≠ 0 ∧ (getCore (world [(0, raised)]) 0).frags = [] ∧ Alone .tfence flagging 0 th0 ∧ flagsOpen flagging 0 0 = true :=
  ⟨alone_of_aloneB (by decide +kernel), by decide +kernel, by decide +kernel, alone_of_aloneB (by decide +kernel), by decide +kernel, by decide +kernel, by decide +kernel, alone_of_aloneB (by decide +kernel), by decide +kernel⟩

/-- A barrier of two members: the first to arrive, and the last. -/
def arriving : State := { pair2 with cur := { pair2.cur with tids := [0] } }
def held : Thread := { mate 1 1 with st := .waiting (.barrier 0 0) }
def lastArrives : State := updCore arriving 0 fun c => { c with threads := [(0, mate 0 3), (1, held)], sheaves := [(0, { outs := [(0, 2)] })] }
theorem meets_SheafBarrier : Alone (.bar 0 0) solo 0 th0 ∧ arriveReady solo 0 0 = true ∧ th0.rejoin = [] ∧ th0.sheaf = none ∧
    Alone (.bar 0 0) arriving 0 (mate 0 3) ∧ arriveReady arriving 0 0 = true ∧ WellKept arriving ∧ tget (getCore arriving 0).sheaves 0 = some {} ∧
    ((((members (getCore arriving 0) 0).filter fun e => e.1 != 0).any fun e => !(2 ^ 0 : Nat).testBit e.2.rank || isParked e.2) = true) ∧
    Alone (.bar 0 0) lastArrives 0 (mate 0 3) ∧ arriveReady lastArrives 0 0 = true ∧ WellKept lastArrives ∧ tget (getCore lastArrives 0).sheaves 0 = some { outs := [(0, 2)] } ∧
    (((members (getCore lastArrives 0) 0).filter fun e => e.1 != 0).all fun e => (2 ||| 1 : Nat).testBit e.2.rank && !isParked e.2 && e.2.stepping.isNone) = true :=
  ⟨alone_of_aloneB (by decide +kernel), by decide +kernel, by decide, by decide, alone_of_aloneB (by decide +kernel), by decide +kernel, kept_of_keptB (by decide +kernel),
   by decide +kernel, by decide +kernel, alone_of_aloneB (by decide +kernel), by decide +kernel, kept_of_keptB (by decide +kernel), by decide +kernel, by decide +kernel⟩

/-- An object of zeros. -/
def obj0 : Obj := ⟨false, 0, 0, 0, 0, 0, 0, 0⟩
/-- An object at the edges of its fields; one that a thread waits on. -/
def edgeObj : Obj := { brk := true, init := 2 ^ 14 - 1, arr := 2 ^ 14 - 1, bytes := -(2 ^ 31), wcnt := 2 ^ 16 - 1, eng := 2 ^ 16 - 1, done := 2 ^ 16 - 1, lsrc := 2 ^ 16 - 1 }
def onObj : Thread := { th0 with st := .waiting (.abar 0x40 0) }
def objWorld (x : Obj) (ths : Tbl Thread := [(0, th0)]) : State := putObj (world ths) 0 0x40 x
theorem meets_ObjectPhases : WellKept solo ∧ edgeObj.init < 2 ^ 14 ∧ edgeObj.arr < 2 ^ 14 ∧ edgeObj.wcnt < 2 ^ 16 ∧ edgeObj.eng < 2 ^ 16 ∧ edgeObj.done < 2 ^ 16 ∧ edgeObj.lsrc < 2 ^ 16 ∧
    -(2 ^ 31) ≤ edgeObj.bytes ∧ edgeObj.bytes < 2 ^ 31 ∧
    (let s := objWorld { obj0 with init := 1, arr := 1, wcnt := 1 } [(0, onObj)]
     let f := fun o : Obj => { o with arr := 0 }
     WellKept s ∧ objWaiters s 0 0x40 = [(0, 0, 0)] ∧ objAt (putObj s 0 0x40 (objStep (f (objAt s 0 0x40)))) 0 0x40 = objStep (f (objAt s 0 0x40)) ∧
     (objStep (f (objAt s 0 0x40))).brk = false ∧ phaseDone (objStep (f (objAt s 0 0x40))).done 0 = true ∧ (objWaiters s 0 0x40).length ≤ (objStep (f (objAt s 0 0x40))).wcnt) :=
  ⟨kept_of_keptB (by decide +kernel), by decide, by decide, by decide, by decide, by decide, by decide, by decide, by decide, kept_of_keptB (by decide +kernel), by decide +kernel, by decide +kernel,
   by decide +kernel, by decide +kernel, by decide +kernel⟩
/-- Each form of the barrier-object instructions on an object that lets it go on, and on one that makes it a misuse. -/
def ab (a b : Fin 64) : AbOp := ⟨.lane, none, u a, u b⟩
def fresh : Obj := { obj0 with init := 2, arr := 2 }
theorem meets_BarrierObjects :
    checkScratch solo 0 0 (sv th0 (u 0)).toNat 16 16 4 true = .ok 0x40 ∧ checkScratch solo 0 0 (sv th0 (u 0)).toNat 16 16 4 false = .ok 0x40 ∧ objWaiters solo 0 0x40 = [] ∧
    (getCore solo 0).frags = [] ∧ Alone (.abarInit (ab 0 1)) solo 0 th0 ∧ (objAt solo 0 0x40).wcnt = 0 ∧ (objAt solo 0 0x40).eng = 0 ∧ 0 < (sv th0 (u 1)).toNat ∧ (sv th0 (u 1)).toNat ≤ 16383 ∧
    Alone (.abarInit (ab 0 11)) solo 0 th0 ∧ (sv th0 (u 11)).toNat = 0 ∧ Alone (.abarArrive .lane none (u 0)) (objWorld fresh) 0 th0 ∧ th0.relSeq = none ∧
    releaseDone (objWorld fresh) 0 0 1 (objWorld fresh).nextId = true ∧ (objAt (objWorld fresh) 0 0x40).arr ≠ 0 ∧ Alone (.abarArrive .lane none (u 0)) solo 0 th0 ∧ (objAt solo 0 0x40).arr = 0 ∧
    Alone (.abarArrive .lane none (u 0)) dirtyWorld 0 th0 ∧ releaseDone dirtyWorld 0 0 1 4 = false ∧ Alone (.abarDue (ab 0 5)) solo 0 th0 ∧ -(2 ^ 31) ≤ (objAt solo 0 0x40).bytes + (sv th0 (u 5)).toInt ∧ Alone (.abarWait (ab 0 11)) solo 0 th0 ∧ phaseDone (objAt solo 0 0x40).done 0 = false ∧
    Alone (.abarWait (ab 0 11)) (objWorld { fresh with done := 1 }) 0 th0 ∧ phaseDone (objAt (objWorld { fresh with done := 1 }) 0 0x40).done 0 = true ∧
    Alone (.abarTest (ab 0 11) 20) solo 0 th0 ∧ Alone (.abarTest (ab 0 11) 20) (objWorld { fresh with brk := true }) 0 th0 ∧ (objAt (objWorld { fresh with brk := true }) 0 0x40).brk = true :=
  ⟨by decide +kernel, by decide +kernel, by decide +kernel, by decide +kernel, alone_of_aloneB (by decide +kernel), by decide +kernel, by decide +kernel, by decide +kernel, by decide +kernel,
   alone_of_aloneB (by decide +kernel), by decide +kernel, alone_of_aloneB (by decide +kernel), by decide +kernel, by decide +kernel, by decide +kernel, alone_of_aloneB (by decide +kernel), by decide +kernel,
   alone_of_aloneB (by decide +kernel), by decide +kernel, alone_of_aloneB (by decide +kernel), by decide +kernel, alone_of_aloneB (by decide +kernel), by decide +kernel, alone_of_aloneB (by decide +kernel), by decide +kernel,
   alone_of_aloneB (by decide +kernel), alone_of_aloneB (by decide +kernel), by decide +kernel⟩

/-- A register to arm, an armed one, a deposit to a member, a queued deposit, and counters before and after their targets. -/
def armed20 : Thread := { th0 with regs := tput th0.regs 20 { st := .empty, armed := true } }
def toMate : Thread := { mate 0 3 with regs := tput (tput th0.regs 20 (full 0)) 21 (full (1 + 64 * 20)) }
def putting : State :=
  let s := world [(0, toMate), (1, mate 1 1)]
  updCore { s with cur := { s.cur with tids := [0] } } 0 fun c => { c with sheaves := [(0, {})] }
def queued : State :=
  let m := { mate 1 1 with regs := tput th0.regs 20 { st := .empty, armed := true } }
  updCore pair2 0 fun c => { c with threads := [(0, mate 0 3), (1, m)], deposits := [{ sheaf := 0, rank := 1, reg := 20, val := 9 }] }
theorem meets_DepositsAndCounters : Alone (.arm .lane none 20) solo 0 th0 ∧ (tget th0.regs 20).isNone = true ∧ Alone (.arm .lane none 20) (world [(0, armed20)]) 0 armed20 ∧
    ((tget armed20.regs 20).map (·.armed)) = some true ∧ Alone (.rput (ab 4 20)) putting 0 toMate ∧ resolveHandle putting 0 toMate (sv toMate (u 20)).toNat = .live 0 0 ∧
    (∃ m ∈ members (getCore putting 0) 0, m.2.rank = (rv toMate 21).toNat % 32) ∧ (getCore putting 0).deposits.length < Config.depositSlots :=
  ⟨alone_of_aloneB (by decide +kernel), by decide +kernel, alone_of_aloneB (by decide +kernel), by decide +kernel, alone_of_aloneB (by decide +kernel), by decide +kernel,
   ⟨(1, mate 1 1), by decide +kernel, by decide +kernel⟩, by decide +kernel⟩
theorem meets_DepositsAndCounters_queue : WellKept queued ∧ (getCore queued 0).deposits = [{ sheaf := 0, rank := 1, reg := 20, val := 9 }] ∧
    tget (getCore queued 0).sheaves 0 = some {} ∧ depositReady (getCore queued 0) { sheaf := 0, rank := 1, reg := 20, val := 9 } = true ∧
    ((members (getCore queued 0) 0).map fun m => (m.1, m.2.rank, m.2.st)) = [(0, 0, .ready), (1, 1, .ready)] ∧ Alone (.ctrWait ⟨none, u 11, 3⟩) solo 0 th0 ∧
    0 ≤ (ctrOf (getCore solo 0) th0 3 - sv th0 (u 11)).toInt ∧ Alone (.ctrWait ⟨none, u 4, 0⟩) arriving 0 (mate 0 3) ∧
    (ctrOf (getCore arriving 0) (mate 0 3) 0 - sv (mate 0 3) (u 4)).toInt < 0 ∧ takesB solo 0 th0 (.ctrRd .lane none 20 3) = true :=
  ⟨kept_of_keptB (by decide +kernel), by decide +kernel, by decide +kernel, by decide +kernel, by decide +kernel, alone_of_aloneB (by decide +kernel), by decide +kernel,
   alone_of_aloneB (by decide +kernel), by decide +kernel, by decide +kernel⟩

/-- A nap on a word that meets its condition, one that does not, and a pointer before and after its target. -/
def asleep : Thread := { th0 with st := .waiting (.nap true 0x40 1 5 5) }
def ownsCh : State := updCore solo 0 fun c => { c with plots := [(0, { plot0 with hdr := { plot0.hdr with copych := 0x8000 } })] }
/-- The same with an earlier load of the thread on its way. -/
def asleepOpen : State := { world [(0, { asleep with regs := waiting20.regs })] with reqs := [(5, .load loadOnWay)], nextId := 6 }
theorem meets_Naps : loadsOpen solo 0 0 = false ∧ (Alone (.nap none 0 true (u 0) (u 11)) onWay 0 waiting20 ∧ loadsOpen onWay 0 0 = true ∧
      checkScratch onWay 0 0 (sv waiting20 (u 0)).toNat 4 4 4 false = .ok 0x40 ∧ (BitVec.ofNat 32 (memNat (getCluster onWay 0).scratch 0x40 4) : Word) = sv waiting20 (u 11)) ∧
    changing (world [(0, asleep)]) 0 = false ∧ loadsOpen (world [(0, asleep)]) 0 0 = false ∧
    (changing asleepOpen 0 = false ∧ loadsOpen asleepOpen 0 0 = true ∧ (getThread asleepOpen 0 0).map (·.st) = some asleep.st ∧ WellKept asleepOpen) ∧ Alone (.nap none 0 true (u 0) (u 11)) solo 0 th0 ∧ checkScratch solo 0 0 (sv th0 (u 0)).toNat 4 4 4 false = .ok 0x40 ∧
    (BitVec.ofNat 32 (memNat (getCluster solo 0).scratch 0x40 4) : Word) = sv th0 (u 11) ∧ Alone (.nap none 5 true (u 0) (u 4)) solo 0 th0 ∧
    getThread (world [(0, asleep)]) 0 0 = some asleep ∧ napHolds 1 (BitVec.ofNat 32 (memNat (getCluster (world [(0, asleep)]) 0).scratch 0x40 4)) 5 = true ∧
    Alone (.wpw none (u 10) 15) ownsCh 0 th0 ∧ (getPlot (getCore ownsCh 0) 0).hdr.copych.testBit 15 = true ∧
    (tgetD (getCluster ownsCh 0).channels 15 {}).wptr < (pairOf th0 (u 10)).toNat ∧ Alone (.wpw none (u 24) 15) ownsCh 0 th0 ∧ (pairOf th0 (u 24)).toNat ≤ 0 :=
  ⟨by decide +kernel, ⟨alone_of_aloneB (by decide +kernel), by decide +kernel, by decide +kernel, by decide +kernel⟩, by decide +kernel, by decide +kernel,
   ⟨by decide +kernel, by decide +kernel, by decide +kernel, kept_of_keptB (by decide +kernel)⟩, alone_of_aloneB (by decide +kernel), by decide +kernel, by decide +kernel, alone_of_aloneB (by decide +kernel), by decide +kernel, by decide +kernel, alone_of_aloneB (by decide +kernel),
   by decide +kernel, by decide +kernel, alone_of_aloneB (by decide +kernel), by decide +kernel⟩

/-- `ldsp` and `stn` to an object without waiters, and their later steps. -/
def ldspOp : LdspOp := ⟨none, 0, u 2, u 11, u 0⟩
def stnOp : StnOp := ⟨.lane, none, 0, u 2, u 4, u 0⟩
def ldspReq : LdspReq := { src := .here 0x200000 false, dst := 0x80, obj := 0x40, data := some 0xFFFFFFFF }
def stnReq : StnReq := { dst := .here 0x20007C false, obj := 0x40, data := 7 }
def ldspWorld : State := { objWorld { obj0 with init := 1, arr := 1, bytes := 4, eng := 1 } with reqs := [(1, .ldsp ldspReq)], nextId := 2 }
def stnWorld : State := { objWorld { obj0 with init := 1, arr := 1, bytes := 4, eng := 1 } with reqs := [(1, .stn stnReq)], nextId := 2 }
theorem meets_ObjectTransfers_issue : changing solo 0 = false ∧ Alone (.ldsp ldspOp) solo 0 th0 ∧ checkGlobal solo 0 0 (ldspAcc ldspOp th0) = .ok (.here 0x200000 false) ∧
    checkScratch solo 0 0 (sv th0 ldspOp.s).toNat 4 4 2 true = .ok 0 ∧ checkScratch solo 0 0 (sv th0 ldspOp.obj).toNat 16 16 4 true = .ok 0x40 ∧ objWaiters solo 0 0x40 = [] ∧ WellKept solo ∧
    (l1Line solo 0 0x200000).dirty = 0 ∧ (l1Line solo 0 0x200000).valid = 0 ∧ mshrFree solo 0 0 th0 = true ∧ Alone (.stn stnOp) solo 0 th0 ∧
    checkGlobal solo 0 0 (stnAcc stnOp th0) = .ok (.here 0x200000 false) :=
  ⟨by decide +kernel, alone_of_aloneB (by decide +kernel), by decide +kernel, by decide +kernel, by decide +kernel, by decide +kernel, kept_of_keptB (by decide +kernel), by decide +kernel, by decide +kernel,
   by decide +kernel, alone_of_aloneB (by decide +kernel), by decide +kernel⟩
theorem meets_ObjectTransfers_end : WellKept ldspWorld ∧ tget ldspWorld.reqs 1 = some (.ldsp ldspReq) ∧ ldspReq.data = some 0xFFFFFFFF ∧ isFar ldspReq.src = false ∧ 0xFFFFFFFF < 256 ^ ldspReq.size ∧
    (ldspReq.obj + 16 ≤ ldspReq.dst) ∧ objWaiters ldspWorld 0 0x40 = [] ∧ WellKept stnWorld ∧ tget stnWorld.reqs 1 = some (.stn stnReq) ∧ 0x20007C % 128 + stnReq.size ≤ 128 ∧ stnReq.size ≤ 16 ∧
    stnReq.gwct = none ∧ stnReq.due ≤ (getCore stnWorld 0).cyc + 1 ∧ stnReq.ack ≤ (getCore stnWorld 0).cyc + 1 ∧ blocked stnWorld 1 1 0 (0 :: stnReq.also) (spanOf stnReq.dst 4) = false ∧ pageBusy stnWorld stnReq.dst = false ∧ tgetD stnWorld.lineKeys 0x200000 0 = ctxKey stnWorld (plotCtx stnWorld 0 0) ∧
    ({ stnReq with gwct := some 999 }).gwct = some 999 ∧ 999 < stnWorld.now :=
  ⟨kept_of_keptB (by decide +kernel), by decide +kernel, by decide, by decide, by decide, by decide, by decide +kernel, kept_of_keptB (by decide +kernel), by decide +kernel, by decide, by decide,
   by decide, by decide +kernel, by decide +kernel, by decide +kernel, by decide +kernel, by decide +kernel, by decide, by decide⟩

/-! ### Control and threads -/

/-- A thread whose pair `v20`:`v21` names the marked target 0x1008, and one whose registers 0 to 7 a child gets. -/
def thJ : Thread := { th0 with regs := tput (tput th0.regs 20 (full 0x1008)) 21 (full 0) }
def jumping (ths : Tbl Thread) : State := updCore (world ths) 0 fun c => { c with icache := [(iKey 0 0x1008, exitLine)] }
def brOp : BrOp := ⟨false, 0, 0, 2⟩
theorem lands (ths : Tbl Thread) (h : iLine (jumping ths) 0 (plotCtx (jumping ths) 0 0) 0x1008 = some exitLine) : Lands (jumping ths) 0 0x1008 :=
  ⟨by decide, by decide, by decide, exitLine, h, by decide +kernel⟩
theorem meets_Transfers : SpillsOk (jumping [(0, thJ)]) 0 ∧ Takes (.br brOp) (jumping [(0, thJ)]) 0 thJ ∧ Takes (.call brOp) (jumping [(0, thJ)]) 0 thJ ∧
    (∀ e ∈ activeThreads (.br brOp) (jumping [(0, thJ)]), e.2.plot = thJ.plot) ∧ Lands (jumping [(0, thJ)]) 0 0x1008 ∧
    BitVec.ofInt 64 (((0x1008 / 128 : Nat) : Int) + brOp.delta.toInt) * 128 + 4 * brOp.word.zeroExtend 64 = (0x1008 : DWord) ∧
    (drillThreads (.br ⟨true, 0, 0, 2⟩) (jumping [(0, thJ)])).map (·.1) = [0] ∧ (thJ.preds.getLsbD 0 || true) = true ∧ thJ.stepping = none ∧
    Alone (.brx ⟨none, u 20⟩) (jumping [(0, thJ)]) 0 thJ ∧ Alone (.callx ⟨none, u 20⟩) (jumping [(0, thJ)]) 0 thJ ∧ pairOf thJ (u 20) = 0x1008 ∧
    Takes (.nop .lane none) solo 0 th0 :=
  ⟨spills_of_spillsB (by decide +kernel), takes_of_takesB (by decide +kernel), takes_of_takesB (by decide +kernel), by decide +kernel, lands _ (by decide +kernel), by decide +kernel, by decide +kernel, by decide, by decide,
   alone_of_aloneB (by decide +kernel), alone_of_aloneB (by decide +kernel), by decide +kernel, takes_of_takesB (by decide +kernel)⟩
theorem meets_Transfers_faults : Alone (.br ⟨false, 0, 0, 1⟩) (jumping [(0, thJ)]) 0 thJ ∧ (getCore (jumping [(0, thJ)]) 0).frags = [] ∧ ((0x1004 : DWord).toNat / 4 % 32 < 2) ∧
    Alone (.br ⟨false, 0, 0, 31⟩) (jumping [(0, thJ)]) 0 thJ ∧ iLine (jumping [(0, thJ)]) 0 (plotCtx (jumping [(0, thJ)]) 0 0) 0x107C = some exitLine ∧ targetOk exitLine 0x107C = false :=
  ⟨alone_of_aloneB (by decide +kernel), by decide +kernel, by decide, alone_of_aloneB (by decide +kernel), by decide +kernel, by decide +kernel⟩

/-- A spawn with a bin and a slot to spare; joins that open a gathering, close one, and ask for too many. -/
def jn (a b : Fin 64) : SyRR := ⟨none, 20, u a, u b⟩
def gathering1 : Thread := { th0 with st := .waiting (.gathering 0 21) }
def joinWorld : State :=
  let s := world [(0, th0), (1, gathering1)]
  updCore { s with cur := { s.cur with tids := [0] } } 0 fun c => { c with bins := [(0, { isJoin := true, key := 5, count := 2, members := [1] })] }
theorem meets_SpawnsAndJoins : Alone (.spawn brOp) (jumping [(0, th0)]) 0 th0 ∧ unperformed (jumping [(0, th0)]) 0 0 = false ∧ WellKept (jumping [(0, th0)]) ∧ Lands (jumping [(0, th0)]) 0 0x1008 ∧
    spawnBin (getCore (jumping [(0, th0)]) 0) 0 0 0x1008 = none ∧ lowestFree Config.binCount (tkeys (getCore (jumping [(0, th0)]) 0).bins) = some 0 ∧
    (pickSlot (getCore (jumping [(0, th0)]) 0) 0 0 (bestSlot fun k => (freeSlots (getCore (jumping [(0, th0)]) 0) 0 0 k).length)).isSome = true :=
  ⟨alone_of_aloneB (by decide +kernel), by decide +kernel, kept_of_keptB (by decide +kernel), lands _ (by decide +kernel), by decide +kernel, by decide +kernel, by decide +kernel⟩
theorem meets_SpawnsAndJoins_join : SpillsOk joinWorld 0 ∧ WellKept solo ∧ Alone (.join (jn 4 1)) solo 0 th0 ∧ th0.sheaf = none ∧ (∀ e ∈ (getCore solo 0).threads, e.2.stepping = none) ∧
    peakReg (getCore solo 0) th0 (lastRegs (.join (jn 4 1))) [20] = none ∧ (sv th0 (u 1)).toNat = 2 ∧ joinBin (getCore solo 0) 0 0 0 5 = none ∧
    lowestFree Config.binCount (tkeys (getCore solo 0).bins) = some 0 ∧ Alone (.join (jn 4 7)) solo 0 th0 ∧ (sv th0 (u 7)).toNat > 32 ∧
    WellKept joinWorld ∧ Alone (.join (jn 4 1)) joinWorld 0 th0 ∧ tsorted (getCore joinWorld 0).bins = true ∧ joinBin (getCore joinWorld 0) 0 0 0 5 = some 0 ∧
    tget (getCore joinWorld 0).bins 0 = some { isJoin := true, key := 5, count := 2, members := [1] } ∧ getThread joinWorld 0 1 = some gathering1 ∧
    (tget (getCore joinWorld 0).sheaves 63).isNone = true :=
  ⟨spills_of_spillsB (by decide +kernel), kept_of_keptB (by decide +kernel), alone_of_aloneB (by decide +kernel), by decide, by decide +kernel, by decide +kernel, by decide +kernel, by decide +kernel, by decide +kernel,
   alone_of_aloneB (by decide +kernel), by decide +kernel, kept_of_keptB (by decide +kernel), alone_of_aloneB (by decide +kernel), by decide +kernel, by decide +kernel, by decide +kernel, by decide +kernel,
   by decide +kernel⟩
theorem meets_ExitsAndLeaves : WellKept solo ∧ Alone (.exit none) solo 0 th0 ∧ th0.serves = none ∧ Alone (.leave none) solo 0 th0 ∧ WellKept arriving ∧ Alone (.leave none) arriving 0 (mate 0 3) ∧
    Alone (.exit none) arriving 0 (mate 0 3) ∧ (tget (getCore arriving 0).sheaves 0).isSome = true :=
  ⟨kept_of_keptB (by decide +kernel), alone_of_aloneB (by decide +kernel), by decide, alone_of_aloneB (by decide +kernel), kept_of_keptB (by decide +kernel), alone_of_aloneB (by decide +kernel),
   alone_of_aloneB (by decide +kernel), by decide +kernel⟩

/-- A fuse that holds, one that is the last of its sheaf, and a yield; the ends of a hold and of the gatherings. -/
def fusing : Thread := { mate 1 1 with st := .waiting (.fuse 0x1008) }
def fuseLast : State := updCore arriving 0 fun c => { c with threads := [(0, mate 0 3), (1, fusing)], sheaves := [(0, { fuses := [(0x1008, 90, 10)] })] }
theorem meets_FuseYieldAndHolds : Alone (.fuse 0) solo 0 th0 ∧ WellKept arriving ∧ Alone (.fuse 10) arriving 0 (mate 0 3) ∧ tget (getCore arriving 0).sheaves 0 = some {} ∧
    (∃ e ∈ (members (getCore arriving 0) 0).filter fun e => e.1 != 0, e.2.st = .ready ∧ e.1 ∉ arriving.cur.tids) ∧ WellKept fuseLast ∧ Alone (.fuse 10) fuseLast 0 (mate 0 3) ∧
    tget (getCore fuseLast 0).sheaves 0 = some { fuses := [(0x1008, 90, 10)] } ∧
    (∀ e ∈ (members (getCore fuseLast 0) 0).filter fun e => e.1 != 0, e.2.st = .waiting (.fuse 0x1008) ∧ e.2.stepping = none ∧ e.1 ∉ fuseLast.cur.tids) ∧ Takes (.yield 0xFFFF) solo 0 th0 ∧
    90 + 10 ≤ (getCore fuseLast 0).cyc ∧ (∀ e ∈ members (getCore fuseLast 0) 0, e.2.stepping = none) :=
  ⟨alone_of_aloneB (by decide +kernel), kept_of_keptB (by decide +kernel), alone_of_aloneB (by decide +kernel), by decide +kernel, ⟨(1, mate 1 1), by decide +kernel, by decide +kernel, by decide +kernel⟩,
   kept_of_keptB (by decide +kernel), alone_of_aloneB (by decide +kernel), by decide +kernel, by decide +kernel, takes_of_takesB (by decide +kernel), by decide +kernel, by decide +kernel⟩
def binWorld (j : Bool) : State := updCore (world [(0, { th0 with st := .waiting (.gathering 0 21) })]) 0 fun c => { c with bins := [(0, { isJoin := j, key := 5, members := [0] })] }
theorem meets_FuseYieldAndHolds_bins : (∀ j, SpillsOk (binWorld j) 0) ∧ (∀ j, WellKept (binWorld j)) ∧ (∀ j, tget (getCore (binWorld j) 0).bins 0 = some { isJoin := j, key := 5, members := [0] }) ∧
    (∀ j, tsorted (getCore (binWorld j) 0).bins = true) ∧ (∀ j, binTimer (getPlot (getCore (binWorld j) 0) 0) 0 + 0 ≤ (getCore (binWorld j) 0).cyc) ∧
    (∀ j, (getThread (binWorld j) 0 0).map (fun w => (w.st, w.sheaf, w.stepping, w.moving)) = some (.waiting (.gathering 0 21), none, none, none)) :=
  ⟨fun j => spills_of_spillsB (by cases j <;> decide +kernel), fun j => kept_of_keptB (by cases j <;> decide +kernel), fun j => by cases j <;> decide +kernel, fun j => by cases j <;> decide +kernel, fun j => by cases j <;> decide +kernel,
   fun j => by cases j <;> decide +kernel⟩

/-! ### Collectives of a sheaf -/

/-- A sheaf whose rendezvous is complete. -/
def met : State := { pair2 with cur := { pair2.cur with coll := true } }
def sy (d a b : Fin 64) : SyRR := ⟨none, BitVec.ofNat 6 d, u a, u b⟩
theorem meets_RankExchange : offFault (.passiAt ⟨some onP1, 3, u 4, 0⟩) (getCore met 0) (zeroOf (.passiAt ⟨some onP1, 3, u 4, 0⟩)) (mate 1 1) = none ∧ (1, mate 1 1) ∈ drillThreads (.passiAt ⟨some onP1, 3, u 4, 0⟩) met ∧ met.cur.coll = true ∧ isUnif met = false ∧ ((drillThreads (.passAt (sy 3 4 1)) met).map (·.2.rank)).Pairwise (· < ·) ∧
    [Instr.passAt (sy 3 4 1), .passOff (sy 3 4 15), .passFlip (sy 3 4 10), .passRot (sy 3 4 10), .passiAt ⟨none, 3, u 4, 31⟩, .passiFlip ⟨none, 3, u 4, 1⟩, .passiRot ⟨none, 3, u 4, 31⟩,
      .passiOff ⟨none, 3, u 4, 0x20⟩, .poll none 8 0 false 1, .poll none 3 3 true 1, .poll none 3 4 false 1, .sred none 3 (u 4) 0, .sred none 3 (u 8) 10, .sscan none 3 (u 4) true 5,
      .sscan none 3 (u 8) false 8, .alike none 3 (u 4) false, .alike none 3 (u 4) true].all (takesB met 0 (mate 0 3)) = true ∧
    Takes (.passiAt ⟨some onP1, 3, u 4, 0⟩) met 0 (mate 0 3) ∧ (drillThreads (.passiAt ⟨some onP1, 3, u 4, 0⟩) met).map (·.1) = [0, 1] ∧
    (activeThreads (.passiAt ⟨some onP1, 3, u 4, 0⟩) met).map (·.1) = [0] ∧ zeroOf (.passiAt ⟨some onP1, 3, u 4, 0⟩) = false ∧ getThread met 0 1 = some (mate 1 1) :=
  ⟨by decide +kernel, by decide +kernel, by decide, by decide, by decide +kernel, by decide +kernel, takes_of_takesB (by decide +kernel), by decide +kernel, by decide +kernel, by decide +kernel, by decide +kernel⟩
/-- A collective before its rendezvous is complete, one where members wait at another, and the shape instructions. -/
def elsewhere : State :=
  updCore arriving 0 fun c => { c with threads := [(0, mate 0 3), (1, { mate 1 1 with st := .waiting .rendezvous, pc := 0x2008 })], sheaves := [(0, { rdv := some (0x2008, 0, [1]) })] }
theorem meets_ShapesAndRegroups : actOn (.sred none 3 (u 4) 0) (mate 0 3) = true ∧ collKind (.sred none 3 (u 4) 0) ≠ none ∧ arriving.cur.coll = false ∧ isUnif arriving = false ∧ drillThreads (.sred none 3 (u 4) 0) arriving = [(0, mate 0 3)] ∧
    (mate 0 3).joinRegs = [] ∧ preFault (.sred none 3 (u 4) 0) arriving [] (mate 0 3) = none ∧ mismatch (getCore arriving 0) 0 (mate 0 3) 0x1008 0 = none ∧
    drillThreads (.sred none 3 (u 4) 0) elsewhere = [(0, mate 0 3)] ∧ (mismatch (getCore elsewhere 0) 0 (mate 0 3) 0x1008 0).isSome = true ∧ (getCore elsewhere 0).frags = [] ∧
    (getCore elsewhere 0).fragWait = [] ∧ takesB pair2 0 (mate 0 3) (.shape ⟨none, 3, u 4⟩) = true ∧ takesB pair2 0 (mate 0 3) (.expand ⟨none, 4⟩) = true ∧
    takesB pair2 1 (mate 1 1) (.bcast ⟨none, 3, u 4⟩) = true ∧ (activeThreads (.bcast ⟨none, 3, u 4⟩) pair2).head? = some (0, mate 0 3) ∧ takesB pair2 1 (mate 1 1) (.iota (sy 3 4 1)) = true := by
  decide +kernel
def rg : SyR1 := ⟨none, 20, u 4⟩
def regrouping : State := updCore met 0 fun c => { c with plots := [(0, { plot0 with hdr := { plot0.hdr with roles := [{ role0 with z := 2 }] }, roles := [{ role0 with z := 2 }] })] }
/-- A participant of two that the next cycle moves last. -/
def mover : Thread := { th0 with st := .waiting .moving, moving := some (2, 20), prog := 1, nextPc := 0x100C }
def movingOn : State := world [(0, mover)]
theorem meets_ShapesAndRegroups_regroup : SpillsOk regrouping 0 ∧ SpillsOk movingOn 0 ∧ regrouping.cur.coll = true ∧ WellKept regrouping ∧ regrouping.cur.tids.Nodup ∧ drillThreads (.regroup rg) regrouping ≠ [] ∧
    (∀ e ∈ drillThreads (.regroup rg) regrouping, e.1 < 256 ∧ e.2.plot = 0 ∧ e.2.role = 0 ∧ e.2.stepping = none ∧ ∀ r ∈ e.2.regs, r.2.st ≠ .empty) ∧
    (∀ e ∈ (getCore regrouping 0).threads, e.2.plot = 0 → e.2.role = 0 → e.1 ∈ (drillThreads (.regroup rg) regrouping).map (·.1)) ∧
    (placeAll (freeTines (getCore regrouping 0) 0 0 [0, 1]) [2] []).isSome = true ∧
    placeAll (freeTines (getCore regrouping 0) 0 0 [0, 1]) (List.replicate 65 2) [] = none ∧
    WellKept movingOn ∧ getThread movingOn 0 0 = some mover ∧ mover.st = .waiting .moving ∧ mover.moving = some (2, 20) ∧ mover.stepping = none ∧ (getPlot (getCore movingOn 0) 0).frozen = none ∧ 2 ≤ mover.prog.toNat + 1 ∧
    (0 : Word).toNat + 1 < 2 :=
  ⟨spills_of_spillsB (by decide +kernel), spills_of_spillsB (by decide +kernel), by decide, kept_of_keptB (by decide +kernel), by decide, by decide +kernel, by decide +kernel, by decide +kernel, by decide +kernel, by decide +kernel, kept_of_keptB (by decide +kernel), by decide +kernel, by decide, by decide, by decide, by decide +kernel, by decide, by decide⟩

/-! ### Matrix unit, tiles and tables -/

/-- A plot with all sixteen tiles, a descriptor in `v24`:`v25`, and one in `v26`:`v27` with a field that no descriptor has. -/
def tileRole : RoleInfo := { role0 with z := 32, tiles := 16, tileMap := List.range 16 }
def tilePlot : Plot := { plot0 with roles := [tileRole], hdr := { plot0.hdr with roles := [tileRole] } }
def uni (v : Word) : RegCell := { val := v, tag := .uniform }
def thM : Thread := { th0 with regs := th0.regs ++ [(24, uni 0), (25, uni 4), (26, uni 0), (27, uni 0x200000)] }
def tiled (ths : Tbl Thread) : State := updCore (world ths) 0 fun c => { c with plots := [(0, tilePlot)], sheaves := [(0, {})] }
def solM : State := tiled [(0, thM)]
def join32 : State :=
  let s := tiled ((List.range 32).map fun r => (r, { thM with sheaf := some 0, rank := r }))
  { s with cur := { s.cur with coll := true } }
/-- Two operands, or a fault, come of a check. -/
def matOk (r : Except FaultRec (Nat × List Operand)) : Bool :=
  match r with
  | .ok (_, [_, _]) => true
  | _ => false
theorem of_matOk {r : Except FaultRec (Nat × List Operand)} (h : matOk r = true) : ∃ acc a b, r = .ok (acc, [a, b]) := by
  unfold matOk at h
  split at h
  · exact ⟨_, _, _, rfl⟩
  · cases h
/-- An operation in the unit, and a unit that is full. -/
def mop1 : MatOp := { id := 3, acc := 3, a := .tile [0] false, b := .tile [1] false, tids := [0] }
def fullUnit : State := updCore solM 0 fun c => { c with mops := [mop1, { mop1 with id := 4 }, { mop1 with id := 5 }, { mop1 with id := 6 }] }
def mw : MatWord := ⟨3, 0, 0x10, 0⟩
def mx : MmaWord := ⟨1, 1, false, false, false, true, false, 0⟩
def lx : LoopWord := ⟨4095, 127, 0x80, true, false, true⟩
def jw : MatWord := ⟨15, 0, 0x60, 0⟩
def jx : JoinWord := ⟨3, 3, 0xFF, false, false, false⟩
theorem meets_MatrixIssues : SoundDrill (.mma .lane none mw mx) solM ∧ mx.ka ≠ 0 ∧ mx.kb ≠ 0 ∧ solM.cur.tids.Nodup ∧
    (∃ acc a b, matCheck solM (activeThreads (.mma .lane none mw mx) solM) 3 (mmaSrcs mw mx) 0 1 = .ok (acc, [a, b])) ∧ unitUse (getCore solM 0) < 4 ∧
    tilesHeld (getCore solM 0) [3, 0, 1] = false ∧ SoundDrill (.mma .lane none mw mx) fullUnit ∧ 4 ≤ unitUse (getCore fullUnit 0) ∧
    SoundDrill (.mma .lane none mw mx) solo ∧ matOk (matCheck solo (activeThreads (.mma .lane none mw mx) solo) 3 (mmaSrcs mw mx) 0 1) = false ∧ (getCore solo 0).frags = [] ∧ (getCore solo 0).fragWait = [] ∧
    SoundDrill (.mloop none mw lx) solM ∧
    (∃ acc a b, matCheck solM (activeThreads (.mloop none mw lx) solM) 3 [loopSrc mw.a lx.inca (rowA 0) (typeBits (pairA 0)), loopSrc mw.b lx.incb (rowB 0) (typeBits (pairB 0))] 0 4096 = .ok (acc, [a, b])) ∧
    SoundDrill (.mloop none mw lx) fullUnit ∧ SoundDrill (.mwait .lane none 3) fullUnit ∧ tileBusy (getCore fullUnit 0) 3 = true ∧ tileOf (getCore fullUnit 0) thM 3 = some 3 ∧
    SoundDrill (.mwait .lane none 15) solM ∧ tileBusy (getCore solM 0) 15 = false :=
  ⟨sound_of_soundB (by decide +kernel), by decide, by decide, by decide, of_matOk (by decide +kernel), by decide +kernel, by decide +kernel, sound_of_soundB (by decide +kernel), by decide +kernel,
   sound_of_soundB (by decide +kernel), by decide +kernel, by decide +kernel, by decide +kernel, sound_of_soundB (by decide +kernel), of_matOk (by decide +kernel), sound_of_soundB (by decide +kernel),
   sound_of_soundB (by decide +kernel), by decide +kernel, by decide +kernel, sound_of_soundB (by decide +kernel), by decide +kernel⟩
def jSrcs : List MatSrc := [{ kind := 0, byte := jw.a, row := rowA 0, w := typeBits (pairA 0) }, { kind := 2, byte := jw.b, row := rowB 0, w := typeBits (pairB 0) }]
def otherJoin : State := updCore join32 0 fun c => { c with joins := [{ id := 1, ident := 0xFF, count := 2 }] }
theorem meets_MatrixIssues_join : SoundDrill (.mjoin jw jx) join32 ∧ join32.cur.coll = true ∧ join32.cur.tids.Nodup ∧
    (∃ acc a b, matCheck join32 (activeThreads (.mjoin jw jx) join32) 15 jSrcs 0 1 = .ok (acc, [a, b])) ∧
    sheaf32 (getCore join32 0) (((activeThreads (.mjoin jw jx) join32).head?.map (·.2)).getD {}) = true ∧ (getCore join32 0).joins = [] ∧ jx.part.toNat ≤ jx.countM1.toNat ∧
    unitUse (getCore join32 0) < 4 ∧ tilesHeld (getCore join32 0) [15] = false ∧ SoundDrill (.mjoin jw jx) otherJoin ∧
    ((getCore otherJoin 0).joins.find? (fun j => j.ident == jx.ident.toNat)).map (·.count) = some 2 ∧ (2 : Nat) ≠ jx.countM1.toNat + 1 :=
  ⟨sound_of_soundB (by decide +kernel), by decide, by decide +kernel, of_matOk (by decide +kernel), by decide +kernel, by decide +kernel, by decide, by decide +kernel, by decide +kernel,
   sound_of_soundB (by decide +kernel), by decide +kernel, by decide⟩
/-- A unit with an operation whose step is next, and a join whose first part is next. -/
def stepping : State := updCore (tiled [(0, { thM with st := .waiting (.matrix 3) })]) 0 fun c => { c with mops := [mop1] }
def part0 : MatOp := { id := 3, form := 2, ident := 7, acc := 3, a := .frag (List.replicate (rowA 0 / 8) 0), tids := [0], reads := [some 0], base := 4 }
def joinNext : Join := { id := 2, ident := 7, count := 1, b := .tile [1] false, parts := [0], accs := [3], ids := [3], tids := [0] }
def joining : State := updCore (tiled [(0, { thM with longOp := some 3 })]) 0 fun c => { c with mops := [part0], joins := [joinNext] }
theorem meets_MatrixStepsComplete : stepping.bad = [] ∧ (∀ e ∈ (getCore stepping 0).threads, e.2.stepping = none) ∧ joining.bad = [] ∧ WellKept stepping ∧ stepOf (getCore stepping 0) = some 3 ∧ mop1 ∈ (getCore stepping 0).mops ∧ mop1.form ≠ 2 ∧
    (∀ x ∈ (getCore stepping 0).mops, x.id = mop1.id → x = mop1) ∧ mop1.steps ≤ mop1.done + 1 ∧ WellKept joining ∧ stepOf (getCore joining 0) = some 2 ∧
    (∀ x ∈ (getCore joining 0).joins, x = joinNext) ∧ (∀ x ∈ (getCore joining 0).mops, x = part0) ∧ part0.form = 2 ∧ part0.ident = joinNext.ident ∧ part0.reads = [some 0] ∧
    (List.replicate (rowA 0 / 8) 0 : List Nat).length = part0.reads.length * (rowA part0.pair / 8) ∧ joinNext.count ≤ joinNext.written.length + 1 :=
  ⟨by decide, by decide +kernel, by decide, kept_of_keptB (by decide +kernel), by decide +kernel, by decide +kernel, by decide, by decide +kernel, by decide, kept_of_keptB (by decide +kernel), by decide +kernel, by decide +kernel,
   by decide +kernel, by decide, by decide, by decide, by decide +kernel, by decide⟩
theorem meets_MatrixArithmetic : (∀ v ∈ [FV.fin false 1 0, .fin true 3 (-1)], ∃ a m e, v = .fin a m e) ∧ (∃ v ∈ [FV.fin false 1 0, .fin true 3 (-1)], (2 : ℚ) ^ ((-47 : Int) + 47) ≤ |fvRat v|) ∧
    (∀ v ∈ [FV.fin false 1 0, .fin true 3 (-1)], |fvRat v| < (2 : ℚ) ^ ((-47 : Int) + 48)) ∧ (64 % 16 = 0 ∧ 64 * 8 = 8 * 64) ∧ finite fF32 0x3F800000 ∧
    scratchPos solo 0 0 (0 - 16 * (0 / 16 % 8) + 16 * ((0 / 16 % 8 + 0 % 2 ^ 0) % 8)) 16 = some 0 := by
  refine ⟨?_, ⟨_, List.mem_cons_self, ?_⟩, ?_, by decide, ⟨by decide, false, 2 ^ 23, -23, by decide +kernel⟩, by decide +kernel⟩
  · intro v hv
    simp only [List.mem_cons, List.not_mem_nil, or_false] at hv
    rcases hv with rfl | rfl <;> exact ⟨_, _, _, rfl⟩
  · norm_num [fvRat]
  · intro v hv
    simp only [List.mem_cons, List.not_mem_nil, or_false] at hv
    rcases hv with rfl | rfl <;> norm_num [fvRat, abs_of_neg]

/-- Tile operations of every kind that pass their checks, a tile name beyond the count, and operations at the port. -/
theorem meets_TileOperations : tileOf (getCore solM 0) thM 3 = some 3 ∧ tileOf (getCore solM 0) thM 15 = some 15 ∧
    [Instr.tzero .lane none 3, .tld .lane none 3 (u 24), .tst .lane none 3 (u 24), .tmovin none 3 (u 0) 0, .tmovout none 3 40 0, .tcvt .lane none 3 2 0 15, .mscl .lane none 3 (u 24) 15].all (aloneB solM 0 thM) = true ∧
    tldCheck false 3 (u 24) solM [(0, thM)] thM = none ∧ tldCheck true 3 (u 24) solM [(0, thM)] thM = none ∧ msclCheck 15 3 (u 34) solM [(0, thM)] thM = none ∧
    tileOf (getCore solo 0) th0 0 = none ∧ [Instr.tzero .lane none 0, .mwait .lane none 0].all (aloneB solo 0 th0) = true := by
  decide +kernel
def topOf (k : Nat) : TileOp := { id := 9, kind := k, tile := 3, src := 15, desc := .desc 0 4 0 0 false 0, code := 0x20, shares := [(0, 31, List.replicate 8 1)], reg := 40, tids := [0] }
def atPort (k : Nat) : State := updCore (tiled [(0, { thM with st := .waiting (.tile 9) })]) 0 fun c => { c with tops := [topOf k] }
theorem meets_TileOperations_port : (∀ k, k < 7 → keptB (atPort k) = true ∧ (atPort k).bad = [] ∧ (∀ e ∈ (getCore (atPort k) 0).threads, e.2.stepping = none) ∧ (getCore (atPort k) 0).tops.find? (fun x => x.id == 9) = some (topOf k) ∧ topReady (getCore (atPort k) 0) (topOf k) = true) ∧
    scratchPos (atPort 1) 0 0 (16 * (4 * 15 + 3)) 16 = some 1008 ∧ scratchPos (atPort 6) 0 0 0 64 = some 0 := by
  decide +kernel

/-- Tables: free banks, banks of the plot, banks of another, an image in scratchpad, one with a field that must be zero, and a staged image. -/
def ownTbl : State := updCore solo 0 fun c => { c with tblOwner := some 0 }
def otherTbl : State := updCore solo 0 fun c => { c with tblOwner := some 1 }
def badImage : State := { solo with clusters := [(0, { scratch := [⟨8, 1⟩] })] }
def staged : State := updCore (world [(0, { th0 with st := .waiting (.tile 9) })]) 0 fun c => { c with tblLoads := [{ id := 9, bank := true, tids := [0] }] }
theorem meets_TableBanks : (Alone (.tblLd .lane none (u 11)) otherTbl 0 th0 ∧ checkScratch otherTbl 0 0 (sv th0 (u 11)).toNat 2064 16 4 false = .ok 0) ∧ Alone (.ftbl ⟨.lane, none, 3, u 8⟩) solo 0 th0 ∧ (takeBanks solo 0 0).isSome = true ∧ takeBanks ownTbl 0 0 = some ownTbl ∧ takeBanks otherTbl 0 0 = none ∧
    Alone (.ftbl ⟨.lane, none, 3, u 8⟩) otherTbl 0 th0 ∧ Alone (.tblSel .lane none (u 1)) otherTbl 0 th0 ∧ Alone (.tblLd .lane none (u 11)) solo 0 th0 ∧
    checkScratch solo 0 0 (sv th0 (u 11)).toNat 2064 16 4 false = .ok 0 ∧ memNat (getCluster solo 0).scratch 0 2064 / 2 ^ 64 % 2 ^ 64 = 0 ∧ Alone (.tblLd .lane none (u 11)) badImage 0 th0 ∧
    memNat (getCluster badImage 0).scratch 0 2064 / 2 ^ 64 % 2 ^ 64 ≠ 0 ∧ WellKept staged ∧ ((getCore staged 0).tblLoads.find? (fun x => x.id == 9)).isSome = true ∧
    Alone (.tblSel .lane none (u 1)) solo 0 th0 ∧ solo.cur.tids = [0] ∧ Alone (.tblSel .lane none (u 1)) arriving 0 (mate 0 3) :=
  ⟨⟨alone_of_aloneB (by decide +kernel), by decide +kernel⟩, alone_of_aloneB (by decide +kernel), by decide +kernel, by decide +kernel, by decide +kernel, alone_of_aloneB (by decide +kernel), alone_of_aloneB (by decide +kernel), alone_of_aloneB (by decide +kernel),
   by decide +kernel, by decide +kernel, alone_of_aloneB (by decide +kernel), by decide +kernel, kept_of_keptB (by decide +kernel), by decide +kernel, alone_of_aloneB (by decide +kernel), by decide,
   alone_of_aloneB (by decide +kernel)⟩
/-- A table whose first segment is the line x + 1 from 0 on, with segments of width 1, and the argument 1/2. -/
theorem meets_TableBanks_value : finite fF32 0x3F000000 ∧ finite fF32 0 ∧ finite fF32 0x3F800000 ∧ 0 < valOf fF32 0x3F800000 ∧
    ((0 : Nat) : Int) = max 0 (min 255 ⌊(valOf fF32 0x3F000000 - valOf fF32 0) * valOf fF32 0x3F800000⌋) ∧ valOf fF32 0x3F800000 * valOf fF32 0x3F000000 + valOf fF32 0x3F800000 ≠ 0 := by
  have h1 : unpack fF32 0x3F000000 = .fin false (2 ^ 23) (-24) := by decide +kernel
  have h2 : unpack fF32 0x3F800000 = .fin false (2 ^ 23) (-23) := by decide +kernel
  have h3 : fvRat (unpack fF32 0) = 0 := by
    have h : unpack fF32 0 = .fin false 0 (-149) := by decide +kernel
    simp [h, fvRat]
  have h4 : ⌊(1 : ℚ) / 2⌋ = 0 := by rw [Int.floor_eq_iff]; norm_num
  have h5 : valOf fF32 0 = 0 := h3
  refine ⟨⟨by decide, _, _, _, h1⟩, ⟨by decide, false, 0, -149, by decide +kernel⟩, ⟨by decide, _, _, _, h2⟩, ?_, ?_, ?_⟩
  · simp only [valOf, h2, fvRat]; norm_num
  · rw [h5]
    simp only [valOf, h1, h2, fvRat]
    norm_num [h4]
  · simp only [valOf, h1, h2, fvRat]; norm_num

/-! ### Predicates, status, traps and fragments -/

theorem meets_PredicatesAndStatus : [Instr.plop none 7 1 2 3 0x80, .pmovRd none 3, .pmovWr none (u 4), .csrRd none 3 0x00, .csrRd none 3 0x28].all (takesB solo 0 th0) = true ∧ isUnif solo = false ∧
    [Instr.csrRd none 3 0x21, .csrWr none (u 5) 0x10, .csrWr none (u 5) 0x12, .csrWr none (u 5) 0x28, .csrWr none (u 5) 0x11, .time .lane none 20, .evt .lane none (u 4) 255].all (aloneB solo 0 th0) = true ∧
    flagsOpen solo 0 0 = false ∧ aloneB flagging 0 th0 (.csrWr none (u 5) 0x11) = true ∧ flagsOpen flagging 0 0 = true := by
  decide +kernel
/-- A plot under a stop request, with and without an empty register in the mask. -/
def stopped (th : Thread) : State := updCore (world [(0, th)]) 0 fun c => { c with plots := [(0, { plot0 with stop := some 50, roles := [tileRole] })] }
def empty20 : Thread := { th0 with regs := tput th0.regs 20 { st := .empty } }
theorem meets_TrapsSafePointsFragments : (getCore solo 0).frags = [] ∧ [Instr.trap none 0xFFFF, .brk none, .safe 0xFFFF 0x3F 0xFFFFFFFF 0].all (aloneB solo 0 th0) = true ∧ th0.joinRegs = [] ∧
    (getPlot (getCore solo 0) 0).stop = none ∧ aloneB (stopped th0) 0 th0 (.safe 0xFFFF 0 1 0) = true ∧ (getPlot (getCore (stopped th0) 0) 0).stop ≠ none ∧ keptB (stopped th0) = true ∧
    aloneB (stopped empty20) 0 empty20 (.safe 0 0 0x100000 0) = true ∧
    (∃ e ∈ empty20.regs, e.1 < 64 ∧ (0x100000 : Word).getLsbD e.1 = true ∧ e.2.st = .empty ∧ e.2.armed = false) ∧
    (roleInfo (getPlot (getCore (stopped th0) 0) 0) 0).tileMap[15]? = some 15 := by
  refine ⟨by decide +kernel, by decide +kernel, by decide, by decide +kernel, by decide +kernel, by decide +kernel, by decide +kernel, by decide +kernel, ?_, by decide +kernel⟩
  exact ⟨(20, { st := .empty }), by decide +kernel, by decide, by decide, by decide, by decide⟩
/-- A handler thread whose pair `v20`:`v21` names fragment 0, of one parked thread. -/
def hand : Thread := { th0 with role := 4, regs := tput (tput th0.regs 20 (full 0)) 21 (full 0) }
def stuck : Thread := { th0 with st := .parked 0 }
def frag0 : Frag := { members := [1], group := 10, det0 := 7, details := [(1, (7, 0, 0))], delivery := .delivered }
def serving (s1 : Thread) (f : Frag) : State :=
  let s := world [(0, hand), (1, s1)]
  updCore { s with cur := { s.cur with tids := [0] } } 0 fun c => { c with frags := [(0, f)], icache := [(iKey 0 0x1008, exitLine)] }
theorem meets_TrapsSafePointsFragments_frag : fragOf (getCore (serving stuck frag0) 0) hand (u 20) = some (0, frag0) ∧
    [Instr.fragResume none (u 20), .fragKill none (u 20), .fragResumeSkip none (u 20), .fragStep none (u 20), .fragInfo none 22 (u 20) 0 0, .fragInfo none 4 (u 20) 6 7].all (aloneB (serving stuck frag0) 0 hand) = true ∧
    frag0.kind = 0 ∧ 0 ∉ frag0.members ∧ (skipEntry (serving stuck frag0) 0 frag0).map (·.2) = some {} ∧ (stepEntry (serving stuck frag0) 0 frag0).isSome = true ∧ frag0.members.Nodup ∧
    fragOf (getCore solo 0) th0 (u 24) = none ∧ aloneB solo 0 th0 (.fragInfo none 20 (u 24) 0 0) = true ∧ (getCore solo 0).fragWait = [] ∧ keptB (serving stuck frag0) = true ∧
    getThread (serving stuck frag0) 0 1 = some stuck ∧ stuck.st = .parked 0 ∧ stuck.stepping = none ∧ stuck.moving = none ∧ iLine (serving stuck frag0) 0 (plotCtx (serving stuck frag0) 0 0) 0x1008 = some exitLine := by
  decide +kernel
/-- A stepped thread, and a pending fragment of a plot with a free handler slot at 0x1008. -/
def stepped : Thread := { th0 with stepping := some 0 }
def oneStep : State := updCore (world [(0, stepped)]) 0 fun c => { c with frags := [(0, { members := [0], stepping := [0] })] }
def hndPlot : Plot := { plot0 with hdr := { plot0.hdr with hentry := 0x1008 }, slots := [(0, 0), (2, 4)] }
def pending : State := updCore (serving stuck { frag0 with delivery := .pending }) 0 fun c => { c with threads := [(1, stuck)], plots := [(0, hndPlot)] }
theorem meets_TrapsSafePointsFragments_step : spillsB pending 0 = true ∧ drillThreads (.nop .lane none) oneStep = [(0, stepped)] ∧ actOn (.nop .lane none) stepped = true ∧ stepped.stepping = some 0 ∧
    tget (getCore oneStep 0).frags 0 = some { members := [0], stepping := [0] } ∧ keptB pending = true ∧ tget (getCore pending 0).plots 0 = some hndPlot ∧
    oldestPending (getCore pending 0) 0 = some (0, { frag0 with delivery := .pending }) ∧ handlerSlots (getCore pending 0) 0 = [2] ∧ hndPlot.hdr.hnd = true ∧ hndPlot.frozen = none ∧
    transferTo pending 0 0 0x1008 = (.ok, pending) := by
  decide +kernel

/-! ### Engines and collectives -/

/-- Channels with room, full, and not reserved; a gather that opens and one that waits. -/
def tr0 : Tr := { ctx := 0, va := 0x10000, size := 0x10000, pa := 0x200000, dev := none, nc := false, w := true }
def cmd0 : CopyCmd := { tids := [0], dreg := 20, prod := 5, blk := 0x100 }
def withCh (s : State) (k : Channel) : State := { s with clusters := [(0, { channels := [(15, k)], tlb := [tr0] })] }
def crowded : State := withCh ownsCh { cmds := [{ cmd0 with tids := [9] }, { cmd0 with tids := [9] }, { cmd0 with tids := [9] }, { cmd0 with tids := [9] }] }
def busyGather : State := updCore solo 0 fun c => { c with gathers := [{ id := 3, tids := [0] }] }
theorem meets_Engines_issue : (getPlot (getCore ownsCh 0) 0).hdr.copych.testBit 15 = true ∧ checkScratch ownsCh 0 0 (sv th0 (u 0)).toNat 32 32 4 false = .ok 0x40 ∧
    [Instr.copyStart .lane none 15 20 (u 0), .copyWpr .lane none 15 20, .copyCancel .lane none 15].all (aloneB ownsCh 0 th0) = true ∧ (getChannel ownsCh 0 15).cmds.length < 4 ∧
    aloneB crowded 0 th0 (.copyStart .lane none 15 20 (u 0)) = true ∧ 4 ≤ (getChannel crowded 0 15).cmds.length ∧ (∀ c ∈ (getChannel crowded 0 15).cmds, 0 ∉ c.tids) ∧ keptB crowded = true ∧
    (getPlot (getCore ownsCh 0) 0).hdr.copych.testBit 0 = false ∧ [Instr.copyStart .lane none 0 20 (u 0), .copyWpr .lane none 0 20, .copyCancel .lane none 0].all (aloneB ownsCh 0 th0) = true ∧
    (getCore ownsCh 0).frags = [] ∧ aloneB solo 0 th0 (.gath .lane none (u 0)) = true ∧ (getCore solo 0).gathers = [] ∧ aloneB busyGather 0 th0 (.gath .lane none (u 0)) = true ∧
    checkScratch busyGather 0 0 (sv th0 (u 0)).toNat 32 32 4 false = .ok 0x40 ∧ (getCore busyGather 0).gathers = [{ id := 3, tids := [0] }] := by
  decide +kernel
/-- A command to accept, with its tensor record in memory; one that is refused; one with a chunk to deliver; a gather's element. -/
def tensorBytes : List Host.Cell := [⟨0x300002, 1⟩, ⟨0x30000B, 0x80⟩, ⟨0x300010, 1⟩, ⟨0x300018, 16⟩, ⟨0x30001C, 16⟩]
def accepting : State :=
  { withCh (world [(0, { th0 with regs := tput (tput th0.regs 20 { st := .empty, prod := 5 }) 21 { st := .empty, prod := 5 } })]) { cmds := [cmd0] } with
    mem := tensorBytes, w0 := [(0x30100, 0x300000), (0x30108, 1)] }
def copying : CopyCmd := { cmd0 with accepted := true, base := 0x10000, coords := [0], extents := [16], strides := [1], boxes := [16], total := 16 }
def delivering : State := withCh solo { cmds := [copying] }
def gathering0 : Gather := { id := 3, base := 0x10000, dest := 0x80, obj := 0x40, cnt := 1, tids := [0] }
def gatherNext : State := { updCore (world [(0, { th0 with longOp := some 3 })]) 0 fun c => { c with gathers := [gathering0] } with clusters := [(0, { tlb := [tr0] })] }
/-- The parts of a result that say it is done. -/
def accOk (r : Except Nat CopyCmd) : Bool :=
  match r with
  | .ok _ => true
  | _ => false
def chunkOk (r : ChunkRes × State) : Bool :=
  match r.1 with
  | .ok _ => true
  | _ => false
def piecesOk (r : Pieces × State) : Bool :=
  match r.1 with
  | .ok _ => true
  | _ => false
theorem of_accOk {r : Except Nat CopyCmd} (h : accOk r = true) : ∃ c, r = .ok c := by
  unfold accOk at h
  split at h
  · exact ⟨_, rfl⟩
  · cases h
theorem of_chunkOk {r : ChunkRes × State} (h : chunkOk r = true) : ∃ bs s, r = (.ok bs, s) := by
  obtain ⟨a, b⟩ := r
  unfold chunkOk at h
  split at h
  · rename_i hb
    exact ⟨_, b, by rw [← hb]⟩
  · cases h
theorem of_piecesOk {r : Pieces × State} (h : piecesOk r = true) : ∃ l s, r = (.ok l, s) := by
  obtain ⟨a, b⟩ := r
  unfold piecesOk at h
  split at h
  · rename_i hb
    exact ⟨_, b, by rw [← hb]⟩
  · cases h
theorem meets_Engines_accept : SpillsOk accepting cmd0.core ∧ SpillsOk (withCh solo { cmds := [cmd0] }) cmd0.core ∧ WellKept accepting ∧ (getChannel accepting 0 15).cmds = [cmd0] ∧ cmd0.accepted = false ∧ channelMoves accepting (getChannel accepting 0 15) = true ∧ cmd0.tids.Nodup ∧
    (∃ c, acceptCmd accepting cmd0 = .ok c) ∧ WellKept (withCh solo { cmds := [cmd0] }) ∧ acceptCmd (withCh solo { cmds := [cmd0] }) cmd0 = .error 2 ∧
    (getCore (withCh solo { cmds := [cmd0] }) 0).frags = [] :=
  ⟨spills_of_spillsB (by decide +kernel), spills_of_spillsB (by decide +kernel), kept_of_keptB (by decide +kernel), by decide +kernel, by decide, by decide +kernel, by decide, of_accOk (by decide +kernel), kept_of_keptB (by decide +kernel), by decide +kernel, by decide +kernel⟩
theorem meets_Engines_deliver : (inSavedSlot (engPlan delivering (some 0) 0 0x1000F 1 false).2 0x20000F = false ∧ ∀ j, j < 16 → inSavedSlot (engPlan gatherNext (some 0) (plotCtx gatherNext 0 0) 0x10000 16 false).2 (0x200000 + j) = false) ∧ WellKept delivering ∧ (getChannel delivering 0 15).cmds = [copying] ∧ copying.accepted = true ∧ channelMoves delivering (getChannel delivering 0 15) = true ∧
    (getChannel delivering 0 15).job = none ∧ copying.rot = 0 ∧ (∃ bs s2, deliverChunk delivering 0 copying copying.done = (.ok bs, s2)) ∧ scratchPos delivering 0 0 (copying.dest + copying.done) 16 = some 0 ∧
    copying.obj = none ∧ elemAddr copying 0 15 = some 0x1000F ∧ elemAddr { copying with coords := [1] } 0 15 = none ∧ 15 < copying.boxes.headD 1 ∧
    (∃ l s1, engPlan delivering (some 0) 0 0x1000F 1 false = (.ok l, s1)) ∧ WellKept gatherNext ∧ (getCore gatherNext 0).gathers.find? (fun x => x.id == 3) = some gathering0 ∧
    scratchPos gatherNext 0 0 0 4 = some 0 ∧ scratchPos gatherNext 0 0 0x80 16 = some 0x80 ∧ scratchPos gatherNext 0 0 0x40 16 = some 0x40 ∧
    (∃ l s1, engPlan gatherNext (some 0) (plotCtx gatherNext 0 0) 0x10000 16 false = (.ok l, s1)) :=
  ⟨by decide +kernel, kept_of_keptB (by decide +kernel), by decide +kernel, by decide, by decide +kernel, by decide +kernel, by decide, of_chunkOk (by decide +kernel), by decide +kernel, by decide, by decide +kernel,
   by decide +kernel, by decide, of_piecesOk (by decide +kernel), kept_of_keptB (by decide +kernel), by decide +kernel, by decide +kernel, by decide +kernel, by decide +kernel, of_piecesOk (by decide +kernel)⟩

/-- A communicator of two devices, with an operation in each of its stages. -/
def comm2 (ops : List CollOp) : Comm := { ranks := [0, 1], room := [(1, 65536)], ops := ops }
def inComm (ops : List CollOp) : State := { solo with comms := [(0, comm2 ops)] }
def barOp : CollOp := { op := 4, obj := 0x40 }
def sentStep : CollStep := { sent := true, written := true }
theorem meets_Collectives : checkScratch solo 0 0 (sv th0 (u 11)).toNat 64 64 4 false = .ok 0 ∧ aloneB (inComm []) 0 th0 (.collStart .lane none (u 11)) = true ∧ collWordsBad 0 0 = false ∧
    (∀ k, k < 7 → memNat (getCluster solo 0).scratch (0 + (0x24 + 4 * k)) 4 = 0) ∧ (scratchPos solo 0 0 0 16).isSome = true ∧ tget (inComm []).comms 0 = some (comm2 []) ∧
    (comm2 []).ctx = plotCtx (inComm []) 0 0 ∧ aloneB solo 0 th0 (.collStart .lane none (u 11)) = true ∧ tget solo.comms 0 = none ∧ (getCore solo 0).frags = [] ∧
    aloneB (inComm []) 0 th0 (.collQuery .lane none 20 (u 11)) = true ∧ aloneB solo 0 th0 (.collQuery .lane none 20 (u 11)) = true ∧
    bestComm [(3, 7, 9), (4, 7, 8), (5, 0, 0)] = some 4 ∧ tsorted (inComm [barOp]).comms = true ∧ bestComm (readyComms (inComm [barOp]) 0) = some 0 ∧ (∀ st ∈ barOp.steps, st.idx < barOp.next) ∧
    planRanges (inComm [barOp]) 0 barOp.src (collWidth barOp) false (unitRanges barOp (comm2 [barOp]) barOp.next) = (.ok [], inComm [barOp]) := by
  decide +kernel
theorem meets_Collectives_steps : (comm2 [{ barOp with steps := [{ sent := true }] }]).ops = [{ barOp with steps := [{ sent := true }] }] ∧ (1 ∈ needed { barOp with steps := [{ sent := true }] } (comm2 []) 0 ∧ barOp.early = [] ∧ barOp.ended = 0 ∧ barOp.ended < collSteps barOp 2) ∧
    tget ({ sent := true } : CollStep).got 1 = none ∧ (∀ q, tgetD (comm2 []).landed q [] = []) ∧ hasUnit barOp (comm2 []) barOp.next = true ∧ barOp.frozen = false ∧ (∀ x ∈ [sentStep], x.written = true) ∧ sentStep.sent = true ∧ (comm2 [{ barOp with steps := [sentStep] }]).owed = [] ∧
    (let c := { comm2 [barOp] with owed := [(0, 0, 1, 64, 9)] }; c.owed ≠ [] ∧ ∀ x ∈ c.owed, notArrived (inComm [barOp]) 0 c x = false) ∧ barOp.steps = [] ∧
    collSteps { barOp with ended := 1, next := 1 } 2 ≤ 1 ∧ scratchPos solo 0 0 0x40 16 = some 0x40 ∧ objWaiters solo 0 0x40 = [] ∧
    stepDeadline { inComm [barOp] with now := 4000000 } 0 (comm2 [barOp]) barOp sentStep ≤ 4000000 ∧ regBit (inComm [barOp]) 0x130000 30 = false ∧
    finite fF32 0x3F800000 ∧ valOf fF32 0x3F800000 + valOf fF32 0x3F800000 ≠ 0 := by
  have h : unpack fF32 0x3F800000 = .fin false (2 ^ 23) (-23) := by decide +kernel
  refine ⟨by decide, by decide +kernel, by decide, fun q => rfl, by decide, by decide, by decide, by decide, by decide, by decide, by decide, by decide +kernel, by decide +kernel, by decide +kernel, by decide +kernel, by decide +kernel,
    ⟨by decide, _, _, _, h⟩, ?_⟩
  simp only [valOf, h, fvRat]
  norm_num

/-! ### Fetch, walks, refills, timeouts -/

/-- Tables at physical 0 that map the first 2 MiB of context 0 at 0x200000, writable. -/
def tables : List Host.Cell := [⟨0, 1⟩, ⟨2, 1⟩, ⟨0x10000, 1⟩, ⟨0x10002, 2⟩, ⟨0x20000, 0x0D⟩, ⟨0x20002, 0x20⟩]
def tabled (s : State) : State := { s with mem := tables, w0 := [(0x31000, 1)] }
/-- What a cluster's walk gives. -/
def trTable : Tr := { ctx := 0, va := 0, size := 0x200000, pa := 0x200000, dev := none, nc := false, w := true }
/-- A thread whose line is not cached, its page translated; and the same where nothing maps the page. -/
def unfetched : State := { solo with clusters := [(0, { tlb := [{ trTable with pa := 0x400000 }] })] }
/-- A thread at an address that is not canonical. -/
def offMap : Thread := { th0 with pc := 0x0100000000001008 }
theorem meets_FetchWalkRefillTimeout_fetch : ((tget (getCore unfetched 0).plots 0).isSome = true ∧ heldLine unfetched 0 th0 = none ∧ heldLine solo 0 th0 = none ∧ canonical 0x1000 = true ∧
      canonical 0x0100000000001000 = false ∧ keptB (world [(0, offMap)]) = true ∧ getThread (world [(0, offMap)]) 0 0 = some offMap ∧ offMap.pc.toNat / 128 = 0x0100000000001000 / 128 ∧
      heldLine (world [(0, offMap)]) 0 offMap = none ∧ iLine (world [(0, offMap)]) 0 (plotCtx (world [(0, offMap)]) 0 0) 0x0100000000001000 = none) ∧ WellKept unfetched ∧ WellKept solo ∧ getThread unfetched 0 0 = some th0 ∧ th0.st = .ready ∧ th0.plot = 0 ∧ (getPlot (getCore unfetched 0) 0).frozen = none ∧
    th0.pc.toNat / 128 = 0x1000 / 128 ∧ (∀ e ∈ (getCore unfetched 0).threads, e.2.pc.toNat / 128 = 0x1000 / 128 ∧ e.2.plot = 0 ∧ e.2.stepping = none) ∧
    iLine unfetched 0 (plotCtx unfetched 0 0) 0x1000 = none ∧ engTranslate unfetched (some 0) (plotCtx unfetched 0 0) 0x1000 false = (.ok (.here 0x401000 false), unfetched) ∧
    pageBusy unfetched (.here 0x401000 false) = false ∧ 0 < (homeOf unfetched 0x401000).len ∧ iLine solo 0 (plotCtx solo 0 0) 0x1000 = none ∧
    engTranslate solo (some (clusterOf 0)) (plotCtx solo 0 0) 0x1000 false = (.fault 1 false, solo) ∧ (getCore solo 0).frags = [] :=
  ⟨by decide +kernel, kept_of_keptB (by decide +kernel), kept_of_keptB (by decide +kernel), by decide +kernel, by decide, by decide, by decide +kernel, by decide, by decide +kernel, by decide +kernel, by decide +kernel,
   by decide +kernel, by decide +kernel, by decide +kernel, by decide +kernel, by decide +kernel⟩
/-- A drill that waits for one walk. -/
def walker : Thread := { th0 with st := .waiting .walk }
def walkDrill : Drill := { pc := 0x1008, tids := [0] }
def walk0 : Walk := { ctx := 0, page := 0x10000, drills := [walkDrill] }
def walking : State := { world [(0, walker)] with clusters := [(0, { walks := [(5, walk0)] })], nextId := 6 }
theorem meets_FetchWalkRefillTimeout_walk : WellKept walking ∧ tsorted (getCluster walking 0).walks = true ∧ tget (getCluster walking 0).walks 5 = some walk0 ∧
    (5, walk0) ∈ (getCluster walking 0).walks.take 32 ∧ walkDrill.sup ∈ walkDrill.tids ∧ getThread walking 0 0 = some walker ∧ walker.st = .waiting .walk ∧ walker.pc = walkDrill.pc ∧
    (getPlot (getCore walking 0) 0).frozen = none ∧ (clusterWalk walking 0 0 0x10000).1 = .fail 1 false ∧ walkHit (getCluster walking 0).walkCache 0 0x10000 = none ∧ WellKept (tabled walking) ∧ (clusterWalk (tabled walking) 0 0 0x10000).1 = .ok trTable ∧
    getThread (tabled walking) 0 0 = some walker ∧ tget (getCluster (tabled walking) 0).walks 5 = some walk0 :=
  ⟨kept_of_keptB (by decide +kernel), by decide +kernel, by decide +kernel, by decide +kernel, by decide, by decide +kernel, by decide, by decide, by decide +kernel, by decide +kernel, by decide +kernel,
   kept_of_keptB (by decide +kernel), by decide +kernel, by decide +kernel, by decide +kernel⟩
/-- A register in the fallow store, general and uniform; with a store and without. -/
def fal : RegCell := { st := .fallow }
def falU : RegCell := { st := .fallow, uni := true, tag := .affine 0 0 }
def falling : Thread := { mate 1 1 with regs := [(20, fal), (21, falU)] }
def fallen : State := world [(0, falling)]
def storeless : State := updCore fallen 0 fun c => { c with fsbase := 0 }
theorem meets_FetchWalkRefillTimeout_fallow : ((∀ k, k < 4 → ownLine fallen (0x100000 + 256 * 0 + 4 * 20 + k)) ∧ ∀ j, j < 8 → ownLine fallen (0x100000 + 2 ^ 16 + 512 * 0 + 8 * 21 + j)) ∧ (fallen.bad = [] ∧
      (let c := updThreadC (getCore fallen 0) 0 fun th => { th with regs := tput th.regs 20 { fal with st := .full } }
       borrowedSum c (laneOf 0) ≤ lendable c (laneOf 0)) ∧
      (let full : Nat → Thread → Thread := fun u th' =>
         if u = 0 ∨ th'.sheaf = some 0 then { th' with regs := tupd th'.regs 21 fun y => if y.uni then { y with st := .full } else y } else th'
       uniUse { getCore fallen 0 with threads := tmap (getCore fallen 0).threads full } (slotOf 0) ≤ Config.uniformBankSize) ∧
      (getCore storeless 0).frags = [] ∧ falling.stepping = none ∧ falling.st = .ready) ∧ WellKept fallen ∧ getThread fallen 0 0 = some falling ∧ tget falling.regs 20 = some fal ∧ tget falling.regs 21 = some falU ∧ fal.st = .fallow ∧
    falU.st = .fallow ∧ fal.uni = false ∧ falU.uni = true ∧ falling.sheaf = some 0 ∧ fallowBase (getCore fallen 0) = some 0x100000 ∧ WellKept storeless ∧ fallowBase (getCore storeless 0) = none ∧
    getThread storeless 0 0 = some falling ∧ tget (getCore storeless 0).plots 0 = some plot0 ∧ plot0.frozen = none :=
  ⟨⟨fun _ _ => .inr rfl, fun _ _ => .inr rfl⟩, by decide +kernel, kept_of_keptB (by decide +kernel), by decide +kernel, by decide +kernel, by decide +kernel, by decide, by decide, by decide, by decide, by decide, by decide +kernel,
   kept_of_keptB (by decide +kernel), by decide +kernel, by decide +kernel, by decide +kernel, by decide⟩
/-- A request to device 7 of each kind, issued at time 0; FTMO at its reset value is 100 µs. -/
def far : Loc := .there 7 0x400
def farLoad : LoadOp := { dreg := 20, parts := [{ loc := far }] }
def farAtom (ret : Bool) : AtomOp := { loc := far, steps := [{ tid := 0 }], ret := ret }
def farBack : WBack := { dev := some 7, tids := [0] }
def farLdsp : LdspReq := { src := far, obj := 0x40 }
def farStn : StnReq := { dst := far, obj := 0x40 }
def waitsFar (r : Req) (now : Nat) : State := { solo with reqs := [(3, r)], nextId := 4, now := now }
/-- The store to device 7 with its thread in a fabric fence. -/
def fencedStn : State := updCore (waitsFar (.stn farStn) 5000000) 0 fun c => { c with threads := [(0, { th0 with st := .waiting (.fence 3 3 4) })] }
theorem meets_FetchWalkRefillTimeout_late : farLoad.zeros = [] ∧ (keptB fencedStn = true ∧ tget fencedStn.reqs 3 = some (.stn farStn) ∧ farStn.also = [] ∧ inFabricFence fencedStn 0 0 = true ∧ objWaiters fencedStn 0 0x40 = []) ∧ [Req.load farLoad, .atomic (farAtom true), .atomic (farAtom false), .wback farBack, .ldsp farLdsp, .stn farStn].all (fun r =>
      keptB (waitsFar r 5000000) && decide (tget (waitsFar r 5000000).reqs 3 = some r) && decide (0 + 4000 * (regN (waitsFar r 5000000) 0x100008 % 2 ^ 16) ≤ 5000000)) = true ∧
    ¬ (farLoad.at_ + 4000 * (regN (waitsFar (.load farLoad) 1000) 0x100008 % 2 ^ 16) ≤ 1000) ∧ farLoad.also = [] ∧ farLoad.nreg ≠ 0 ∧ (getCore solo 0).frags = [] ∧ th0.stepping = none ∧ th0.late = none ∧ lateHeld th0 = false ∧ (∀ e ∈ (waitsFar (.atomic (farAtom true)) 5000000).reqs, e.1 = 3) ∧ farBack.sent = 0 ∧
    (farAtom true).sp = false ∧ (farAtom true).performed = false ∧ farLdsp.data = none ∧ farStn.gwct = none ∧ objWaiters (waitsFar (.stn farStn) 5000000) 0 0x40 = [] := by
  decide +kernel

/-! ### Issue cycles and stops -/

/-- A thread ready for long, one in a window of `yield`, one that waits at a barrier; plots stopped and not. -/
def longReady : Thread := { th0 with readySince := 0, lowUntil := some 100 }
def aged : State := { updCore (world [(0, longReady), (1, { held with sheaf := none }), (2, held)]) 0 fun c => { c with cyc := 20000 } with w0 := [(0x35008, 4)] }
def agedStop : State := updCore aged 0 fun c => { c with plots := [(0, { plot0 with stop := some 10 })] }
theorem meets_IssueAndStops : plot0.saveAt = none ∧ (freeSlotsRun aged 1).isSome = true ∧ getThread aged 0 2 = some held ∧ held.sheaf = some 0 ∧ WellKept solo ∧ solo.disc.slew = 0 ∧ tget solo.cores 0 = some (getCore solo 0) ∧
    (getCluster solo 0).droop = false ∧ (0 / 5 + 1) * 24 / 24 ≠ 0 / 5 * 24 / 24 ∧
    (tget (getCore aged 0).threads 0 = some longReady ∧ longReady.st = .ready ∧ longReady.overdue = none ∧ longReady.readySince + 4096 ≤ (getCore aged 0).cyc + 1 ∧ longReady.lowUntil = some 100 ∧ 100 ≤ (getCore aged 0).cyc) ∧
    (th0.lowUntil = none ∧ ({ th0 with lowUntil := some 300 } : Thread).lowUntil = some 300 ∧ (getCore solo 0).cyc < 300) ∧
    WellKept aged ∧ tget (getCore aged 0).plots 0 = some plot0 ∧ plot0.frozen = none ∧ plot0.stop = none ∧ plot0.hdr.wide = false ∧ (getCore aged 0).bins = [] ∧
    getThread aged 0 1 = some { held with sheaf := none } ∧ held.st = .waiting (.barrier 0 0) ∧ (∀ e ∈ (getCore aged 0).threads, e.2.stepping = none) ∧ (getCore aged 0).mcur = none ∧
    (getPlot (getCore agedStop 0) 0).stop = some 10 ∧ 10 + 16384 ≤ (getCore agedStop 0).cyc ∧ getThread agedStop 0 0 = some longReady ∧
    tget (getCore (updCore solo 0 fun c => { c with plots := [(0, { plot0 with frozen := some 7 })] }) 0).plots 0 = some { plot0 with frozen := some 7 } :=
  ⟨by decide, by decide +kernel, by decide +kernel, by decide, kept_of_keptB (by decide +kernel), by decide, by decide +kernel, by decide +kernel, by decide, by decide +kernel, by decide +kernel, kept_of_keptB (by decide +kernel), by decide +kernel, by decide, by decide,
   by decide, by decide +kernel, by decide +kernel, by decide, by decide +kernel, by decide, by decide +kernel, by decide +kernel, by decide +kernel, by decide +kernel⟩
theorem meets_IssueAndStops_supplier :
    let old : Cand := { tid := 0, i := none, unif := false, th := { th0 with overdue := some 5 } }
    let young : Cand := { tid := 4, i := none, unif := false, th := { th0 with pc := 0x2000 } }
    let low : Cand := { tid := 8, i := none, unif := false, th := { th0 with lowUntil := some 300 } }
    let c := getCore solo 0
    (supplier c {} [old, young] = some old ∧ supplier c {} [low, young] = some young ∧ supplier c { kept := some (0x1008, 0, 0) } [{ tid := 0, i := none, unif := false, th := th0 }, young] = some { tid := 0, i := none, unif := false, th := th0 } ∧
      c.roundRobin = false ∧ ∀ y ∈ [{ tid := 0, i := none, unif := false, th := th0 }, young], y.th.overdue = none ∧ y.th.lowUntil = none ∧ y.th.born < 256 ∧ y.tid < 256) := by
  decide +kernel

/-! ### Plots, graphs, queues -/

/-- A field of one plot to admit at an empty core; at a core without a fallow store it does not fit. -/
def hdr1 : Header := { roles := [role0] }
def field0 : Field := { hdr := hdr1 }
def launched : Run := { fields := [(0, field0)], sts := [(0, .dispatched)], ncnt := 1 }
def empty0 (r : Run) : State := { now := 1000, cores := [(0, { cyc := 100, fsbase := 0x100001 })], clusters := [(0, {})], runs := [(0, r)], runNo := 1 }
def bare (r : Run) : State := updCore (empty0 r) 0 fun c => { c with fsbase := 0 }
def place0 : Place := { sheaves := [(0, [0], 1)], roles := [role0], scrBase := 0, idx := 0 }
theorem sorted_one {α : Type} {l : List α} (x : α) {le : α → α → Bool} (h : l = [x]) : l.mergeSort le = [x] := by
  subst h
  exact List.mergeSort_singleton x
theorem first_of_one {s : State} {w : Waiting} (h : waitingAll s = [w]) : firstToFit s w = true := by
  simp [firstToFit, h, List.takeWhile]
theorem launched_waits : waitingFields (empty0 launched) = [(0, 0)] := by
  simp only [waitingFields]
  rw [sorted_one (0, 0, 0, 0)]
  · rfl
  · decide +kernel
theorem launched_first : firstToFit (empty0 launched) { pri := queuePri (empty0 launched) (getRun (empty0 launched) 0).queue, ready := field0.readyAt, run := 0, node := 0, plot := field0.next } = true := by
  refine first_of_one ?_
  simp only [waitingAll, launched_waits]
  exact sorted_one _ (by decide +kernel)
theorem meets_PlotsComeAndGo_admit : firstToFit (empty0 launched) { pri := queuePri (empty0 launched) (getRun (empty0 launched) 0).queue, ready := field0.readyAt, run := 0, node := 0, plot := field0.next } = true ∧
    (∀ e ∈ (empty0 launched).cores, e.2.stagedSlots = []) ∧ firstToFit (bare launched) { pri := queuePri (bare launched) (getRun (bare launched) 0).queue, ready := field0.readyAt, run := 0, node := 0, plot := field0.next } = true ∧
    WellKept (empty0 launched) ∧ waitingFields (empty0 launched) = [(0, 0)] ∧ (0 : Nat) < 4096 ∧ (empty0 launched).staged = [] ∧ tget (empty0 launched).runs 0 ≠ none ∧
    (getRun (empty0 launched) 0).no = 0 ∧ tget (getRun (empty0 launched) 0).fields 0 = some field0 ∧ field0.hdr.wide = false ∧ field0.hdr.fuse = false ∧
    placeNow (empty0 launched) 0 hdr1 = some [(0, place0)] ∧ WellKept (bare launched) ∧ waitingFields (bare launched) = [(0, 0)] ∧ placeNow (bare launched) 0 hdr1 = none := by
  have hb : waitingFields (bare launched) = [(0, 0)] := by
    simp only [waitingFields]
    rw [sorted_one (0, 0, 0, 0)]
    · rfl
    · decide +kernel
  refine ⟨launched_first, by decide +kernel, first_of_one ?_, kept_of_keptB (by decide +kernel), launched_waits, by decide, by decide, by decide +kernel, by decide +kernel, by decide +kernel, by decide, by decide, by decide +kernel,
    kept_of_keptB (by decide +kernel), hb, by decide +kernel⟩
  simp only [waitingAll, hb]
  exact sorted_one _ (by decide +kernel)
/-- A plot to retire, one that is frozen, one with a thread, and one whose completion time has not passed. -/
def retiring (p : Plot) (ths : Tbl Thread := []) : State := { updCore (world ths) 0 fun c => { c with plots := [(0, p)] } with runs := [(0, launched)] }
theorem meets_PlotsComeAndGo_retire : [retiring plot0, retiring { plot0 with frozen := some 7 }, retiring plot0 [(0, th0)], retiring { plot0 with gwct := 5000 }].all keptB = true ∧
    tsorted (retiring plot0).runs = true ∧ tget (getCore (retiring plot0) 0).plots 0 = some plot0 ∧ plot0.hdr.wide = false ∧ plot0.hdr.fuse = false ∧ plot0.frozen = none ∧
    (getCore (retiring plot0) 0).threads = [] ∧ plotQuiet (retiring plot0) 0 0 = true ∧ fusesTo (getCluster (retiring plot0) 0) = false ∧ (getCore (retiring plot0) 0).fragWait = [] ∧ tget (retiring plot0).runs plot0.run = some launched ∧
    tget launched.fields plot0.node = some field0 ∧ getThread (retiring plot0 [(0, th0)]) 0 0 = some th0 ∧ th0.plot = 0 ∧ plotQuiet (retiring { plot0 with gwct := 5000 }) 0 0 = false := by
  decide +kernel
/-- A node record: kind, count of dependences, payload from offset 8, one successor where asked. -/
def nodeRec (kind deps : Nat) (payload : Nat := 0) (succ : Nat := 0) : BitVec 512 := BitVec.ofNat 512 (kind * 2 ^ 28 + deps * 2 ^ 16 + payload * 2 ^ 64 + succ * 2 ^ 384)
/-- A run with all its records taken; runs whose head is ready, of each kind. -/
def taken : Run := { ncnt := 2, recs := [(0, nodeRec 3 0), (1, nodeRec 3 1)] }
def readyRun (x : BitVec 512) : Run := { ncnt := 1, recs := [(0, x)], cnt := [(0, 0)], sts := [(0, .ready)], ready := [0], fields := [(0, field0)] }
theorem meets_GraphRuns_take : tget (empty0 taken).runs 0 = some taken ∧ taken.failed = false ∧ taken.ready = [] ∧ taken.cnt = [] ∧ 0 < taken.ncnt ∧ taken.recs.length = taken.ncnt ∧
    tsorted taken.recs = true ∧ (∀ k, k < 2 → (tget taken.recs k).isSome = true ∧ ∀ x, tget taken.recs k = some x → nodeKind x ≠ 0) ∧ tget taken.recs 1 = some (nodeRec 3 1) ∧ nodeDeps (nodeRec 3 1) ≠ 0 ∧
    (empty0 taken).launchWaits = [] := by
  refine ⟨by decide +kernel, by decide, by decide, by decide, by decide, by decide +kernel, by decide +kernel, fun k hk => ?_, by decide +kernel, by decide +kernel, by decide⟩
  have h : ∀ k < 2, ((tget taken.recs k).map fun x => decide (nodeKind x ≠ 0)) = some true := by decide +kernel
  have h1 := h k hk
  refine ⟨?_, fun x hx => ?_⟩
  · cases hx : tget taken.recs k with
    | none =>
      rw [hx] at h1
      cases h1
    | some _ => rfl
  · rw [hx] at h1
    simpa using h1
/-- A channel that the launcher may take, and none. -/
def allTaken : State := { clusters := (List.range 256).map fun k => (k, { channels := (List.range 16).map fun c => (c, { job := some {} }) }) }
theorem taken_none (start : Nat) : ∀ a < 4096, ((getChannel allTaken ((start + a) % 4096 / 16) ((start + a) % 16)).job.isNone) = false := by
  intro a _
  have h : ∀ c < 256, ((List.range 16).all fun k => (getChannel allTaken c k).job.isSome) = true := by decide +kernel
  have h1 := h ((start + a) % 4096 / 16) (by omega)
  rw [List.all_eq_true] at h1
  have h2 := h1 ((start + a) % 16) (List.mem_range.mpr (by omega))
  cases hj : (getChannel allTaken ((start + a) % 4096 / 16) ((start + a) % 16)).job with
  | none =>
    rw [hj] at h2
    cases h2
  | some _ => rfl
theorem meets_GraphRuns_channel : freeChannel allTaken = none ∧ ∃ cl ch, freeChannel ({} : State) = some (cl, ch) := by
  refine ⟨?_, ?_⟩
  · unfold freeChannel
    rw [List.find?_eq_none]
    intro x hx
    obtain ⟨a, ha, rfl⟩ := List.mem_map.mp hx
    simp only [taken_none _ a (List.mem_range.mp ha), Bool.false_and, Bool.false_eq_true, not_false_iff]
  · cases h : freeChannel ({} : State) with
    | some x => exact ⟨x.1, x.2, rfl⟩
    | none =>
      unfold freeChannel at h
      rw [List.find?_eq_none] at h
      have h1 := h _ (List.mem_map_of_mem (List.mem_range.mpr (show (0 : Nat) < 4096 by decide)))
      exact absurd rfl h1
/-- A signal's record: address 0x10000, value 7. -/
def signalRec : BitVec 512 := nodeRec 5 0 (0x10000 + 7 * 2 ^ 64)
theorem meets_GraphRuns_dispatch : ([0, 1, 3, 4, 6].all fun k => nodeKind (nodeRec k 0) == k) = true ∧ nodeKind signalRec = 5 ∧ (readyRun signalRec).failed = false ∧ (readyRun signalRec).cnt ≠ [] ∧
    (readyRun signalRec).ready = [0] ∧ tget (readyRun signalRec).recs 0 = some signalRec ∧ (tget (readyRun signalRec).fields 0).isSome = true ∧ (readyRun signalRec).ncnt = 1 ∧
    tget (empty0 (readyRun signalRec)).runs 0 = some (readyRun signalRec) ∧ (empty0 (readyRun signalRec)).launchWaits = [] ∧
    engPlan (tabled (empty0 (readyRun signalRec))) none 0 (nf signalRec 8 8) 8 true = (.ok [(.here 0x210000 false, 8)], tabled (empty0 (readyRun signalRec))) ∧
    (tgetD (empty0 (readyRun signalRec)).ports (portOf unitLauncher) []).length < 15 := by
  decide +kernel
/-- Node 0 has been dispatched and node 1 follows it: with one dependence left, with two, and with none. -/
def first : BitVec 512 := nodeRec 3 0 0 (2 ^ 15 + 1)
def follows (c : Nat) (lv : Bool) (x : BitVec 512 := first) : Run :=
  { ncnt := 2, recs := [(0, x), (1, nodeRec 3 1)], cnt := [(0, 0), (1, c)], sts := [(0, .dispatched), (1, .waiting)], live := [(1, lv)] }
theorem meets_GraphRuns_complete : nodeSuccs first = [(1, false)] ∧ nodeSuccs (nodeRec 3 1) = [] ∧ ([follows 0 true, follows 1 true, follows 2 true].all fun r =>
      tget (empty0 r).runs 0 == some r && !r.failed && tget r.recs 0 == some first && tget r.recs 1 == some (nodeRec 3 1) && (nodeChannel (empty0 r) 0 0).isNone && nodeFinished (empty0 r) 0 0
        && tget r.sts 0 == some .dispatched && tget r.sts 1 == some .waiting && decide (0 < r.ncnt)) = true ∧
    tgetD (follows 0 true).cnt 1 0 = 0 ∧ tgetD (follows 1 true).cnt 1 0 = 1 ∧ tgetD (follows 2 true).cnt 1 0 = 2 := by
  decide +kernel
/-- A COND whose successor is taken on a set word: it has not read its word; it reads; its word is read and its dead successor is skipped. -/
def condRec : BitVec 512 := nodeRec 4 0 0x10000 (2 ^ 15 + 2 ^ 12 + 1)
def reads (ch : Tbl Bool) : Run := { follows 1 false condRec with sts := [(0, .reading), (1, .waiting)], chosen := ch }
theorem meets_GraphRuns_cond : nodeKind condRec = 4 ∧ nodeSuccs condRec = [(1, true)] ∧ tget (empty0 (reads [])).runs 0 = some (reads []) ∧ tget (reads []).recs 0 = some condRec ∧
    nodeFinished (empty0 (reads [])) 0 0 = false ∧ tget (reads []).sts 0 = some .reading ∧ tget (reads []).chosen 0 = none ∧ (empty0 (reads [])).launchWaits = [] ∧
    engPlan (tabled (empty0 (reads []))) none 0 (nf condRec 8 8) 4 false = (.ok [(.here 0x210000 false, 4)], tabled (empty0 (reads []))) ∧
    nodeFinished (empty0 (reads [(0, false)])) 0 0 = true ∧ (true == tgetD (reads [(0, false)]).chosen 0 false) = false ∧ tgetD (reads [(0, false)]).live 1 false = false ∧
    tgetD (reads [(0, false)]).cnt 1 0 = 1 := by
  decide +kernel
/-- A kernel that follows a COND in wait, and one that does not. -/
def stages : Run := { follows 1 false condRec with sts := [(0, .ready), (1, .waiting)], fields := [(1, field0)] }
theorem meets_GraphRuns_stage : tget (empty0 stages).runs 0 = some stages ∧ stages.no = 0 ∧ tget stages.fields 1 = some field0 ∧ stages.failed = false ∧ field0.hdr.wide = false ∧ stageable stages 1 = true ∧
    placeNow (empty0 stages) 0 field0.hdr = some [(0, place0)] ∧ (empty0 stages).staged = [] ∧ 0 < field0.plots ∧ placeNow (bare stages) 0 field0.hdr = none ∧
    stageable (follows 1 false) 1 = false := by
  decide +kernel

/-- Registers of window 0 set. -/
def regs0 (s : State) (l : Tbl Word) : State := l.foldl (fun s e => setReg32 s e.1 e.2) s
/-- A queue whose ring has 16 records, with its tail at 1: enabled; resident; asked for residency; not enabled. -/
def ctl (en res resg : Bool) : Word := BitVec.ofNat 32 (en.toNat * 2 ^ 31 + res.toNat * 2 ^ 30 + resg.toNat * 2 ^ 29 + 4 * 2 ^ 16)
def queueOf (w : Word) : State := regs0 solo [(0x10008, w), (0x10010, 1)]
theorem meets_Queues_writes : (let s := { solo with winGwct := 2000 }; s.now ≤ s.winGwct ∧ s.winGwct ≠ 0) ∧ (queueOf (ctl true false false)).winGwct < (queueOf (ctl true false false)).now ∧
    reg32 (queueOf (ctl true false false)) 0x10010 = 1 ∧ 2 ^ fieldN (regN (queueOf (ctl true false false)) 0x10008) 19 16 = 16 ∧
    16 < ((17 : Word) - reg32 (queueOf (ctl true false false)) 0x10014).toNat ∧ ((16 : Word) - reg32 (queueOf (ctl true false false)) 0x10014).toNat ≤ 16 ∧
    regBit (queueOf (ctl true false false)) 0x10008 29 = false ∧ regBit (queueOf (ctl true true true)) 0x10008 29 = true ∧ (queueOf 0).resHeld = [] ∧
    regBit (queueOf 0) 0x10008 31 = false ∧ (ctl true false false).getLsbD 31 = true ∧ fieldN (ctl true false false).toNat 19 16 = 4 ∧ reg64 (queueOf 0) 0x10000 % 2 ^ 12 = 0 ∧
    fieldN (0x80030000 : Word).toNat 19 16 < 4 ∧ regBit (queueOf (ctl true true true)) 0x10008 30 = true ∧ regBit (queueOf (ctl true true true)) 0x10008 31 = true ∧
    regBit (queueOf (ctl true false false)) 0x10008 30 = false ∧ (ctl true true false).getLsbD 30 = true := by
  decide +kernel
/-- A queue with one record to take: its page is not mapped, the record is bad, or it is good. -/
def record (w8 : Byte) : List Host.Cell := if w8 = 0 then tables else tables ++ [⟨0x210008, w8⟩]
def pendingQ (m : Byte) (s : State := tabled solo) : State :=
  let s := regs0 s [(0x10000, 0x10000), (0x10008, ctl true true true), (0x10010, 1)]
  { s with queues := [(0, { seen := 1 })], mem := record m }
theorem meets_Queues_accept : reg32 (pendingQ 1) 0x10010 ≠ reg32 (pendingQ 1) 0x10014 ∧ canAccept solo 0 = false ∧ regBit (pendingQ 1) 0x10008 31 = true ∧ regBit (pendingQ 1) 0x10018 3 = false ∧ (tgetD (pendingQ 1).queues 0 {}).running = none ∧
    (tgetD (pendingQ 1).queues 0 {}).seen ≠ reg32 (pendingQ 1) 0x10014 ∧ (pendingQ 1).runs = [] ∧
    reg64 (pendingQ 1) 0x10000 / 2 ^ 12 * 2 ^ 12 + 64 * ((reg32 (pendingQ 1) 0x10014).toNat % 2 ^ 4) = 0x10000 ∧
    engPlan (pendingQ 1 solo) none 0 0x10000 64 false = (.fault 0x10000 1 false, pendingQ 1 solo) ∧
    engPlan (pendingQ 1) none 0 0x10000 64 false = (.ok [(.here 0x210000 false, 64)], pendingQ 1) ∧ launchRecBad (keyedRead (pendingQ 1) (ctxKey (pendingQ 1) 0) 0x210000 64) = false ∧
    engPlan (pendingQ 0) none 0 0x10000 64 false = (.ok [(.here 0x210000 false, 64)], pendingQ 0) ∧ launchRecBad (keyedRead (pendingQ 0) (ctxKey (pendingQ 0) 0) 0x210000 64) = true := by
  decide +kernel
/-- Runs that are not over, failed, over with a completion word and without, and one that posts an entry. -/
def ended : Run := { ncnt := 1, sts := [(0, .complete)] }
def ring16 (s : State) : State := regs0 s [(0x20008, 0x80000004)]
theorem meets_Queues_end : ([taken, ended, { ended with failed := true }, { ended with compl := 0x10000 }, { ended with sig := true }].all fun r =>
      tsorted (empty0 r).runs && decide (tget (empty0 r).runs 0 = some r) && decide (r.no = 0) && (empty0 r).launchWaits.isEmpty) = true ∧
    runOver taken = false ∧ runOver ended = true ∧ runOver { ended with failed := true } = true ∧ runOver { ended with compl := 0x10000 } = true ∧ runOver { ended with sig := true } = true ∧
    engPlan (tabled (empty0 { ended with compl := 0x10000 })) none 0 0x10000 8 true = (.ok [(.here 0x210000 false, 8)], tabled (empty0 { ended with compl := 0x10000 })) ∧
    regBit (ring16 (empty0 { ended with sig := true })) 0x20008 31 = true ∧ (ring16 (empty0 { ended with sig := true })).overflowed = false ∧
    (reg32 (ring16 (empty0 { ended with sig := true })) 0x20014 - reg32 (ring16 (empty0 { ended with sig := true })) 0x20010).toNat + 2 ≤ 2 ^ 4 := by
  decide +kernel
/-- A ring that lost entries of queue 3, with room again and without; firmware events; host accesses. -/
def overflow (tail : Word) : State := { regs0 (ring16 solo) [(0x1001C + 96, 5), (0x20014, tail)] with overflowed := true }
theorem meets_RingFirmwareWindow_ring : (overflow 13).overflowed = true ∧ regBit (overflow 13) 0x20008 31 = true ∧ regN (overflow 13) 0x20008 % 16 = 4 ∧
    ((List.range 1024).all fun k => decide (regN (overflow 13) (0x1001C + 32 * k) ≠ 0) == decide (k = 3)) = true ∧
    (reg32 (overflow 13) 0x20014 - reg32 (overflow 13) 0x20010).toNat + 3 ≤ 2 ^ 4 ∧ (reg32 (overflow 14) 0x20014 - reg32 (overflow 14) 0x20010).toNat + 2 ≤ 2 ^ 4 ∧
    2 ^ 4 < (reg32 (overflow 15) 0x20014 - reg32 (overflow 15) 0x20010).toNat + 2 ∧ solo.overflowed = false := by
  decide +kernel
def firmware (e : FwEvent) : State := { queueOf (ctl true true false) with fwEvents := [e], fwCores := [(0, { retained := true })] }
theorem meets_RingFirmwareWindow_events : (firmware ⟨0, 4, 0, 0, 0⟩).resHeld = [] ∧ ([⟨0, 3, 0, 0, 0⟩, ⟨0, 4, 0, 0, 0⟩, ⟨0x10000, 1, 0, 0x10000, 0⟩, ⟨0x10000, 2, 0, 0x10000, 0⟩] : List FwEvent).all (fun e =>
      decide ((firmware e).fwEvents = e :: []) && (List.range 12).all (fun k => (tgetD (firmware e).fwCores k {}).busy.isNone)) = true ∧
    (tgetD (firmware ⟨0, 3, 0, 0, 0⟩).fwCores 1 {}).retained = false ∧ regBit (firmware ⟨0, 4, 0, 0, 0⟩) 0x10008 31 = true ∧ regBit (firmware ⟨0, 4, 0, 0, 0⟩) 0x10008 30 = true ∧
    ((List.range 1024).filter fun q => regBit (firmware ⟨0, 4, 0, 0, 0⟩) (0x10008 + 32 * q) 29).length < 64 ∧ solo.fwEvents = [] ∧
    ({ busy := none, idleSince := 0 } : FwCore).busy = none ∧ 0 + 8000 ≤ ({ solo with now := 8000 } : State).now := by
  decide +kernel
theorem meets_RingFirmwareWindow_window : (∀ k, k < 2 → inSavedSlot solo (0x10080 + k) = false) ∧ (0x10080 + [(1 : Byte), 2].length ≤ 768 * 2 ^ 30 ∧ 0x10080 % 128 + [(1 : Byte), 2].length ≤ 128) ∧
    768 * 2 ^ 30 ≤ 768 * 2 ^ 30 ∧ inSavedSlot { solo with savedParts := [(0, {})] } 5 = true ∧ inSavedSlot solo 5 = false := by
  decide +kernel

/-! ### Saves, pages, the fabric -/

/-- A stopped plot whose one thread is saved, with slots in the pool and without; a saved plot; a pool slot to import from. -/
def savedTh : Thread := { th0 with st := .saved false, savedFull := true }
def parted (l : Tbl Word) : State := regs0 (updCore (world [(0, savedTh)]) 0 fun c => { c with plots := [(0, { plot0 with stop := some 10, saveAt := some 0 })] }) l
def pool : Tbl Word := [(0x35000, 0x500000), (0x35008, 4)]
theorem meets_SavesAndFrozenPlots_save : WellKept (parted pool) ∧ tget (getCore (parted pool) 0).plots 0 = some { plot0 with stop := some 10, saveAt := some 0 } ∧ plot0.hdr.wide = false ∧ plot0.hdr.fuse = false ∧
    fusesTo (getCluster (parted pool) 0) = false ∧ (getCore (parted pool) 0).fragWait = [] ∧ (∀ c ∈ (parted pool).cores, c.2.bins = [] ∧ ∀ e ∈ c.2.threads, e.2.st = .saved false) ∧ partSaved (parted pool) 0 0 = true ∧
    WellKept solo ∧ partSaved solo 0 0 = false ∧ getThread (parted pool) 0 0 = some savedTh ∧ savedTh.plot = 0 ∧
    (getCore (parted pool) 0).mops = [] ∧ tget savedTh.regs 15 = some (full 63) ∧ (full 63).st ≠ .fallow ∧ plot0.hdr.scratch ≤ 256 ∧ (tilePlaces plot0).length ≤ 16 :=
  ⟨kept_of_keptB (by decide +kernel), by decide +kernel, by decide, by decide, by decide +kernel, by decide +kernel, by decide +kernel, by decide +kernel, kept_of_keptB (by decide +kernel),
   by decide +kernel, by decide +kernel, by decide, by decide +kernel, by decide +kernel, by decide, by decide, by decide +kernel⟩
def keptPart : SavedPart := { plot := { plot0 with stop := some 10 }, threads := [(0, savedTh), (4, { savedTh with st := .parked 0 })] }
def restoring (fs : DWord) : State := { now := 1000, cores := [(0, { cyc := 100, fsbase := fs })], clusters := [(0, {})], savedParts := [(0, keptPart)] }
theorem restoring_set (fs : DWord) : savedSet (restoring fs) 0 = [(0, keptPart)] := by
  simp only [savedSet, restoring, tget]
  exact sorted_one _ (by decide +kernel)
theorem restoring_first : ((waitingSets (restoring 0x100001)).find? fun w => w.saved == some 0).any (firstToFit (restoring 0x100001)) = true := by
  have hw : waitingSets (restoring 0x100001) = [{ pri := plotPri (restoring 0x100001) keptPart.plot, ready := keptPart.plot.admitted, run := keptPart.plot.run, node := keptPart.plot.node, plot := keptPart.plot.plotNo, saved := some 0 }] := by
    have h := restoring_set 0x100001
    simp only [waitingSets, restoring, List.filterMap_cons, List.filterMap_nil] at h ⊢
    rw [h]
    rfl
  have hf : waitingFields (restoring 0x100001) = [] := by simp [waitingFields, restoring]
  rw [hw, List.find?_cons_of_pos rfl, Option.any_some]
  refine first_of_one ?_
  simp only [waitingAll, hf, hw]
  exact sorted_one _ rfl
theorem meets_SavesAndFrozenPlots_restore : (((waitingSets (restoring 0x100001)).find? fun w => w.saved == some 0).any (firstToFit (restoring 0x100001)) = true ∧ ∀ fs, (restoring fs).staged = [] ∧ ∀ e ∈ (restoring fs).cores, e.2.stagedSlots = []) ∧ (keptPart.fragWait = [] ∧ (restoring 0x100001).comms = [] ∧ SpillsOk (restoring 0x100001) 0) ∧ WellKept (restoring 0x100001) ∧ savedSet (restoring 0x100001) 0 = [(0, keptPart)] ∧ waitingFields (restoring 0x100001) = [] ∧
    setFit (restoring 0x100001) 0 [(0, keptPart)] = some [(0, 0, keptPart, 0, 0, [role0], [16])] ∧ keptPart.plot.hdr.fuse = false ∧ keptPart.plot.hdr.wide = false ∧ keptPart.collArr = [] ∧
    tsorted keptPart.threads = true ∧ (∀ e ∈ keptPart.threads, tsorted e.2.regs = true) ∧ savedSet (restoring 0) 0 = [(0, keptPart)] ∧ setFit (restoring 0) 0 [(0, keptPart)] = none := by
  refine ⟨⟨restoring_first, fun _ => ⟨rfl, by simp [restoring]⟩⟩, ⟨by decide, by decide, spills_of_spillsB (by decide +kernel)⟩, kept_of_keptB (by decide +kernel), ?_, ?_, by rfl, by decide, by decide, by decide, by decide +kernel, by decide +kernel, ?_, by rfl⟩
  · simp only [savedSet, restoring, tget]
    exact sorted_one _ (by decide +kernel)
  · simp [waitingFields, restoring]
  · simp only [savedSet, restoring, tget]
    exact sorted_one _ (by decide +kernel)
/-- A slot whose header record names the launch header at 0x10000 and one thread, in no sheaf, with one register full and one released. -/
def imported : List Host.Cell := tables ++ [⟨0x500002, 1⟩, ⟨0x500018, 1⟩, ⟨0x54802F, 4⟩, ⟨0x548050, 0x0D⟩]
def importing (l : Tbl Word := pool) : State := { regs0 (tabled solo) l with mem := imported }
theorem meets_SavesAndFrozenPlots_import : memWf (importing).mem = true ∧ regN (importing) 0x35018 < regN (importing) 0x35008 % 2 ^ 13 ∧ reg64 (importing) 0x35000 / 2 ^ 20 % 2 ^ 28 * 2 ^ 20 = 0x500000 ∧
    (memNat imported 0x500010 4).testBit 20 = false ∧ (memNat imported 0x50005C 4).testBit 6 = false ∧ (importing).savedParts = [] ∧ memNat imported 0x500000 8 = 0x10000 ∧
    (importHeader (importing) 0 0x10000).isSome = true ∧ (memNat imported 0x500018 32).testBit 0 = true ∧ (memNat imported 0x54802C 4).testBit 26 = true ∧
    memNat imported 0x548050 16 / 4 ^ 0 % 4 = 1 ∧ memNat imported 0x548050 16 / 4 ^ 1 % 4 = 3 ∧ regN (importing []) 0x35008 % 2 ^ 13 ≤ regN (importing []) 0x35018 := by
  decide +kernel
/-- A frozen plot whose thread is parked, one frozen by a hardware error, one that is not frozen; FRZCTL names core 0, plot 0. -/
def frozenPlot (g : Option Nat) : State :=
  updCore (world [(0, stuck)]) 0 fun c => { c with plots := [(0, { plot0 with frozen := g })], frags := [(0, { members := [0], group := 7 })] }
theorem meets_SavesAndFrozenPlots_frozen : ([none, some 7, some 12].all fun g => keptB (frozenPlot g) && decide (tget (getCore (frozenPlot g) 0).plots 0 = some { plot0 with frozen := g })
      && decide (fieldN (regN (frozenPlot g) 0x35100) 28 27 = 0) && decide (regN (frozenPlot g) 0x35100 % 2 ^ 24 = 0)) = true ∧ plot0.hdr.wide = false ∧
    (getCore (frozenPlot (some 7)) 0).frags = [(0, { members := [0], group := 7 })] ∧ (getCore (frozenPlot (some 7)) 0).fragWait = [] ∧ getThread (frozenPlot (some 7)) 0 0 = some stuck ∧ stuck.st = .parked 0 ∧ stuck.moving = none := by
  decide +kernel

/-- A fragment that waits for a page: mapped; refused at its table entry, or read-only for a store; not mapped. The ring of page requests: off, with room, full. -/
def asks (wr : Bool) : Frag := { members := [0], group := 1, delivery := .service, page := 0x10000, det1 := 0x10000, wr := wr }
def serviced (m : List Host.Cell) (l : Tbl Word) (wr : Bool := false) : State :=
  { regs0 (updCore (world [(0, stuck)]) 0 fun c => { c with frags := [(0, asks wr)] }) ((0x31000, 1) :: l) with mem := m }
def roTables : List Host.Cell := [⟨0, 1⟩, ⟨2, 1⟩, ⟨0x10000, 1⟩, ⟨0x10002, 2⟩, ⟨0x20000, 0x05⟩, ⟨0x20002, 0x20⟩]
def prOn : Tbl Word := [(0x34108, 0x80000004)]
theorem meets_PagesServedAndMoved_service : ([serviced tables [], serviced [⟨0, 0x80⟩] [], serviced roTables [] true, serviced [] [], serviced [] prOn, serviced [] ((0x34114, 16) :: prOn)].all fun s =>
      keptB s && s.pageReqs.isEmpty && (getCore s 0).fragWait.isEmpty && decide ((pageWaiters s 0 0x10000).map (·.1) = [.frag 0 0]) && decide (getThread s 0 0 = some stuck)) = true ∧
    (asks true).kind = 0 ∧ stuck.moving = none ∧ stuck.st = .parked 0 ∧ stuck.role ≠ 4 ∧ walkTables (serviced tables []) 0 0x10000 = .ok trTable ∧ walkTables (serviced [⟨0, 0x80⟩] []) 0 0x10000 = .fail 1 true ∧
    walkTables (serviced roTables [] true) 0 0x10000 = .ok { trTable with w := false } ∧ pageWaiters (serviced roTables [] true) 0 0x10000 = [(.frag 0 0, true)] ∧
    walkTables (serviced [] []) 0 0x10000 = .fail 1 false ∧ regBit (serviced [] []) 0x34108 31 = false ∧ walkTables (serviced [] prOn) 0 0x10000 = .fail 1 false ∧
    regBit (serviced [] prOn) 0x34108 31 = true ∧ (serviced [] prOn).nextReq < 2 ^ 24 ∧ (reg32 (serviced [] prOn) 0x34114 - reg32 (serviced [] prOn) 0x34110).toNat < 2 ^ 4 ∧
    2 ^ 4 ≤ (reg32 (serviced [] ((0x34114, 16) :: prOn)) 0x34114 - reg32 (serviced [] ((0x34114, 16) :: prOn)) 0x34110).toNat := by
  decide +kernel
def req1 : PageReq := { id := 1, ctx := 0, page := 0x10000, va := 0x10000, wr := false, eng := false, posted := false, time := 900 }
def verdict (v : Word) : State := { serviced [] ((0x34118, v) :: prOn) with pageReqs := [req1] }
theorem meets_PagesServedAndMoved_verdict : ([1, 0x80000001, 2].all fun v => keptB (verdict v) && decide ((verdict v).pageReqs = [req1]) && decide (pageWaiters (verdict v) 0 0x10000 = [(.frag 0 0, false)])
      && decide (tget (getCore (verdict v) 0).frags 0 = some (asks false)) && (getCore (verdict v) 0).fragWait.isEmpty && decide (getThread (verdict v) 0 0 = some stuck)) = true ∧
    req1.id = regN (verdict 1) 0x34118 % 2 ^ 24 ∧ regBit (verdict 1) 0x34118 31 = false ∧ req1.id = regN (verdict 0x80000001) 0x34118 % 2 ^ 24 ∧ regBit (verdict 0x80000001) 0x34118 31 = true ∧
    req1.id ≠ regN (verdict 2) 0x34118 % 2 ^ 24 ∧ req1.posted = false ∧ req1.va < 2 ^ 64 ∧ (reg32 (verdict 1) 0x34114 - reg32 (verdict 1) 0x34110).toNat < 2 ^ 4 ∧
    (let s := { serviced [] ((0x34114, 16) :: prOn) with pageReqs := [req1] }; s.pageReqs = [req1] ∧ 2 ^ 4 ≤ (reg32 s 0x34114 - reg32 s 0x34110).toNat) := by
  decide +kernel
/-- An invalidation of 64 KiB at 0x10000: a translation it takes out and one it leaves; then what it waits for. -/
def invalidating : State := regs0 (updCore solo 0 fun c => { c with tlb := c.tlb ++ [{ trTable with va := 0x20000, size := 0x10000 }] }) [(0x34000, 0x10000), (0x34008, 0x80000000)]
theorem meets_PagesServedAndMoved_invalidate : (regN invalidating 0x34008).testBit 31 = true ∧ (regN invalidating 0x34008).testBit 30 = false ∧ fieldN (regN invalidating 0x34008) 21 16 = 0 ∧
    reg64 invalidating 0x34000 / 2 ^ 16 * 2 ^ 16 = 0x10000 ∧ (getCore invalidating 0).tlb.map (fun t => decide (t.va < 0x20000 ∧ 0x10000 < t.va + t.size)) = [true, false] ∧
    (let s := { solo with inval := some (3, some 1000) }; s.inval = some (3, some 1000) ∧ s.now ≤ 1000 ∧ ({ s with now := 1001 } : State).now = 1001) ∧
    (let s := { dirtyWorld with inval := some (4, none) }; s.inval = some (4, none) ∧ ∃ c ∈ s.cores, ∃ d ∈ c.2.fifo, d.seq < 4) ∧
    (let s := { dirtyWorld with inval := some (3, none) }; s.inval = some (3, none) ∧ s.reqs = [] ∧ ∀ c ∈ s.cores, ∀ d ∈ c.2.fifo, 3 ≤ d.seq) := by
  decide +kernel
/-- A page of 2 MiB to move to 0x400000; to a place that is not its multiple; one that is not mapped; then the move at its stages. -/
def migrating (m : List Host.Cell) (dst : Word) : State := { regs0 solo [(0x31000, 1), (0x34200, 0x10000), (0x34208, dst), (0x34210, 0x80000000)] with mem := m }
def move (d : Bool) : Migr := { old := 0x200000, size := 0x200000, entry := 0x20000, dst := 0x400000, since := 4, drained := d }
theorem meets_PagesServedAndMoved_move : (tsorted (tabled solo).lineKeys = true ∧ (move true).size % 128 = 0 ∧ (move true).old % 2 ^ 16 = 0 ∧ (move true).old + (move true).size ≤ (move true).dst ∧ (move true).entry + 8 ≤ (move true).old) ∧ ([migrating tables 0x400000, migrating tables 0x10000, migrating [] 0x400000].all fun s => (regN s 0x34210).testBit 31 && !(regN s 0x34210).testBit 30) = true ∧
    walkTables (migrating tables 0x400000) 0 (reg64 (migrating tables 0x400000) 0x34200) = .ok trTable ∧
    leafFrom (migrating tables 0x400000) 0 (reg64 (migrating tables 0x400000) 0x34200) 4 (fieldN (reg64 (migrating tables 0x400000) 0x31000) 47 17 * 2 ^ 17) = some (0x20000, 0x20000D, 0x200000) ∧
    0x200000 ≤ 2 ^ 21 ∧ reg64 (migrating tables 0x400000) 0x34208 % 0x200000 = 0 ∧ reg64 (migrating tables 0x400000) 0x34208 + 0x200000 ≤ 768 * 2 ^ 30 ∧
    reg64 (migrating tables 0x10000) 0x34208 % 0x200000 ≠ 0 ∧ walkTables (migrating [] 0x400000) 0 0x10000 = .fail 1 false ∧ migDrained (tabled solo) (move false) = true ∧
    migDrained backWorld (move false) = false ∧ memWf tables = true ∧ (move true).dst % 2 ^ 16 = 0 ∧ (move true).entry + 8 ≤ (move true).dst := by
  decide +kernel

/-- Links by state, routes, and requests of device 5 to a window it may write and one it may not. -/
def linked (st : Word) (l : Nat := 0) : State := regs0 solo [(0x101000 + 64 * l, st <<< 29 ||| 1 <<< 28)]
def routed : State := { linked 3 with routes0 := [(7, 0x8180)] }
def pkt : Packet := { link := some 0, via := none, cls := 0, hop := 0, source := 0, dest := 7, since := 0, cid := 0 }
theorem meets_Fabric_routes : (let held := fun (s : State) => ((s.packets.filter fun p => p.via == some 0 && p.cls == 0 && p.hop == 0 + 1).map (·.flits)).sum; held routed = 0 ∧ 8 ≤ held { routed with packets := [{ pkt with via := some 0, hop := 1, flits := 8 }] }) ∧ ((0x8180 / 2 ^ 0 : Nat).testBit 7 = true ∧ linkState routed (0x8180 / 2 ^ 0 % 32) = 3 ∧ linkState routed (0x8180 / 2 ^ 8 % 32) ≠ 3 ∧ tgetD routed.routes0 9 0 = 0) ∧
    deviceNo routed = 0 ∧ linkState routed 0 = 3 ∧ linkState routed 1 < 3 ∧ (4 : Nat) < 5 ∧ (5 : Nat) ≤ 5 ∧ reg32 routed 0x101010 ≠ 0xFFFFFFFF ∧
    regBit routed 0x100010 30 = false ∧ regBit (regs0 routed [(0x100010, 0x40000000)]) 0x100010 30 = true ∧
    (({ routed with packets := [pkt], now := 500000 } : State).packets.filter fun p => decide (500000 ≤ p.since + 4000 * (regN routed 0x100008 % 2 ^ 16))) = [] ∧
    (0x00000041 : Word) &&& routeMbz ≠ 0 ∧ (0x8180 : Word) &&& routeMbz = 0 := by
  decide +kernel
def keyed (k : LinkKeys) (s : State := linked 3) : State := { s with keys := [(0, k)] }
theorem meets_Fabric_links : (linkEn (regs0 solo [(0x101000, 1 <<< 29)]) 0 = false ∧ linkState (regs0 solo [(0x101000, 1 <<< 29)]) 0 = 1 ∧ linkState solo 0 ≠ 1 ∧
      reg64 (linked 3) (linkOff 0 + 8) = 0 ∧ reg64 (regs0 (linked 3) [(0x101008, 1)]) (linkOff 0 + 8) ≠ 0 ∧ (linkKeys (linked 3) 0).again = false ∧ (linkKeys (keyed { again := true }) 0).again = true ∧
      tgetD routed.credit (chanNo 0 pkt.cls pkt.hop) 0 + pkt.flits ≤ 8 ∧ ¬ tgetD ({ routed with credit := [(0, 8)] } : State).credit (chanNo 0 pkt.cls pkt.hop) 0 + pkt.flits ≤ 8) ∧ linkEn (linked 1) 0 = true ∧ linkState (linked 1) 0 < 2 ∧ (9 % 2 ^ 16 ≠ fieldN (regN (linked 1) 0x100000) 31 16 ∧ 0 % 2 ^ 16 = fieldN (regN (linked 1) 0x100000) 31 16) ∧
    2 ≤ linkState (linked 2) 0 ∧ linkEn solo 0 = false ∧ linkState solo 0 ≠ 3 ∧ linkState (linked 3) 0 = 3 ∧ (linkKeys (keyed { txNext := some 5 }) 0).txNext.isSome = true ∧
    (linkKeys (keyed { txCur := some 5 }) 0).txNext.isSome = false ∧ reg64 (linked 3) (linkOff 0 + 8) < 2 ^ 64 - 2 ∧
    2 ^ 64 - 2 ≤ reg64 (regs0 (linked 3) [(0x101008, 0xFFFFFFFE), (0x10100C, 0xFFFFFFFF)]) (linkOff 0 + 8) ∧ linkState (keyed { rxCur := some 5 }) 0 = 3 ∧
    (linkKeys (keyed { rxCur := some 5 }) 0).rxPhase = 0 % 4 ∧ (linkKeys (keyed { rxCur := some 5, rxNext := some 6 }) 0).rxNext.isSome = true ∧ 1 % 4 = (0 + 1) % 4 ∧
    (linkKeys (keyed { rxCur := some 5, resent := true }) 0).resent = true ∧ (linkKeys (keyed { rxCur := some 5 }) 0).resent = false := by
  decide +kernel
/-- Inbound window 0 lets device 5 read and write 0x200000 to 0x2FFFFF. -/
def inbound (lk : Word) : State := regs0 solo [(0x102000, 0x200000), (0x102008, 0x100000), (0x102010, 0xC0000005), (0x110004, lk)]
theorem meets_Fabric_requests : (∀ b, b < 4 → inSavedSlot (inbound 0) (0x2FFFFC + b) = false) ∧ ((0, 5) ∈ ({ inbound 0 with frozenStreams := [(0, 5)] } : State).frozenStreams) ∧ (0, 5) ∉ (inbound 0).frozenStreams ∧
    ((List.range 64).all fun w => !(regN (inbound 0) (0x102010 + 32 * w)).testBit 31 || regN (inbound 0) (0x102010 + 32 * w) % 2 ^ 14 != 6) = true ∧ regBit (inbound 0) 0x20008 31 = false ∧
    ((regN (inbound 0) 0x102010).testBit 31 = true ∧ regN (inbound 0) 0x102010 % 2 ^ 14 = 5 ∧ (regN (inbound 0) 0x102010).testBit 30 = true ∧ reg64 (inbound 0) 0x102000 ≤ 0x200000 ∧
      0x2FFFFC + 4 ≤ reg64 (inbound 0) 0x102000 + reg64 (inbound 0) 0x102008) ∧ pageBusy { inbound 0 with mig := some (move true) } (.here 0x200000 false) = true ∧
    pageBusy (inbound 0) (.here 0x2FFFFC false) = false ∧ physOk 0x2FFFFC 4 = true ∧ locked (inbound 0x80000000) = true ∧ locked (inbound 0) = false ∧ 0x2FFFFC % 128 + 4 ≤ 128 ∧
    atomBytes 0 ≤ 8 ∧ (inbound 0).frozen.length < 64 := by
  decide +kernel

/-! ### Commands, resets, power, the granary, registers -/

/-- Secure commands: their length and the first bytes of their buffer; in recovery, and past the lifecycle that takes them. -/
def command (len : Word) (buf : Word := 0) (l : Tbl Word := []) : State := regs0 solo ((0x200004, len) :: (0x208000, buf) :: l)
def inLife (k : Nat) (s : State := solo) : State := { s with sec := { s.sec with lifecycle := k } }
def recovering (s : State) : State := { s with sec := { s.sec with recovery := true } }
theorem meets_Commands : ((recovering solo).sec.recovery = true ∧ 3 < (inLife 4).sec.lifecycle ∧ (inLife 3).sec.lifecycle = 3 ∧ (inLife 1).sec.lifecycle = 1 ∧ solo.sec.recovery = false ∧ solo.sec.lifecycle = 2) ∧
    regN (command 32) 0x200004 = 32 ∧ regN (command 31) 0x200004 ≠ 32 ∧
    ((bufByte (command 2 4) 0).toNat = 4 ∧ (bufByte (command 2 7) 0).toNat = 7 ∧ (bufByte (command 2 3) 0).toNat < 4 ∧ 7 < (bufByte (command 2 8) 0).toNat ∧ regN (command 0 4) 0x200004 = 0 ∧
      regN (command 32769 4) 0x200004 > 32768) ∧
    (regN (command 65) 0x200004 = 65 ∧ (bufByte (command 65 63) 0).toNat < 64 ∧ 64 ≤ (bufByte (command 65 64) 0).toNat ∧ regBit (command 65) 0x31000 0 = false ∧
      regBit (command 65 0 [(0x31000, 1)]) 0x31000 0 = true) ∧
    (regN (command 38) 0x200004 = 38 ∧ (bufByte (command 38 31) 0).toNat = 31 ∧ (bufByte (command 38 0x100) 1).toNat = 1 ∧ 32 ≤ (bufByte (command 38 32) 0).toNat ∧ 1 < (bufByte (command 38 0x200) 1).toNat ∧
      (linkKeys (command 38) 0).txCur = none ∧ (linkKeys (keyed { txCur := some 5 } (command 38)) 0).txCur ≠ none ∧ (linkKeys (keyed { rxCur := some 5 } (command 38 0x100)) 0).rxCur ≠ none ∧
      linkState (command 38 0 [(0x101000, 0x40000000)]) 0 = 2 ∧ linkState (command 38 0 [(0x101000, 0x80000000)]) 0 = 4) ∧
    (regN (recovering (command 12)) 0x200004 = 12 ∧ regN (recovering (command 13)) 0x200004 ≠ 12) ∧
    (regN (command 29920 1) 0x200004 = 0x80 + 29792 ∧ tok (command 29920 1) 4 4 < 8 ∧ tok (command 29920 1) 0x38 4 < 16 ∧ (∀ b ∈ bufRead (command 29920 1) 0x48 0x38, b = 0) ∧ tok (command 29920 1) 0 4 = 1 ∧
      tok (command 29920 2) 0 4 = 2 ∧ anyCv (command 29920) = false ∧ anyCv (command 29920 0 [(0x31000, 1)]) = true ∧ tok (command 29920 2 [(0x208038, 4)]) 0x38 4 % 16 = 4) := by
  decide +kernel
/-- Rails that are good, one that came up late, a trip, and an image that the granary keeps. -/
def railed (n : Nat) : State := { tabled solo with rails := n }
theorem meets_Resets : (2 ≤ linkState (linked 3) 0 ∧ linkState (linked 1) 0 < 2 ∧ ({ railed 3 with sec := { (railed 3).sec with nextLifecycle := 4 } } : State).sec.nextLifecycle = 4) ∧ memWf (railed 3).mem = true ∧ (railed 3).rails ≠ 0 ∧ (railed 3).railFault = none ∧ (railed 3).rails = 3 ∧ (railed 0).rails = 0 ∧ (railed 2).rails < 3 ∧ (railed 2).rails = 2 ∧
    (railed 1).rails < 2 ∧ (railed 2).tripped = false ∧ ({ railed 2 with railFault := some 2 } : State).railFault.isSome = true ∧ ({ railed 1 with tripped := true } : State).tripped = true ∧
    (railed 3).granarySig = true ∧ ({ railed 3 with granarySig := false } : State).granarySig = false ∧ solo.sec.nextLifecycle ≠ 4 := by
  decide +kernel
/-- Power over the limit with a cluster to lower, and none; exchanges with the parent, of another link, and of the fleet's root. -/
def slowed : State := { solo with clusters := [(0, { slow := 12 }), (1, { slow := 12 })] }
theorem meets_PowerAndTime : 3300000 ≤ 3300000 ∧ 3300000 < 3300001 ∧ (getCluster solo 1).slow < 12 ∧ ([5, 9].getD 0 0 < [5, 9].getD 1 0) ∧
    (∀ j < [5, 9].length, 12 ≤ (getCluster slowed j).slow) ∧ linkState solo 0 ≠ 3 ∧ linkState (linked 3) 0 = 3 ∧ regBit (linked 3) 0x110000 13 = false ∧ 0 = fieldN (regN (linked 3) 0x110000) 12 8 ∧
    1 ≠ fieldN (regN (linked 3 1) 0x110000) 12 8 ∧ linkState (linked 3 1) 1 = 3 ∧ 2 * (0 + (40 : Int).natAbs + 12) ≤ 120 ∧ 120 < 2 * (0 + (-400 : Int).natAbs + 12) ∧
    regBit (regs0 solo [(0x110000, 0x2001)]) 0x110000 13 = true ∧ regN (regs0 solo [(0x110000, 0x2001)]) 0x110000 % 4 = 1 ∧ regN (regs0 solo [(0x110000, 0x2000)]) 0x110000 % 4 = 0 ∧
    reg32 (regs0 solo [(0x110010, 7)]) 0x110010 ≠ 0xFFFFFFFF ∧ (solo.now - solo.disc.last) / 50000 ≤ solo.disc.grown ∧
    (let s : State := { solo with now := 100000 }; regBit s 0x110000 13 = false ∧ s.disc.grown < (s.now - s.disc.last) / 50000) := by
  decide +kernel
/-- A record at the head of a port whose class holds a segment with room, and whose class holds none. -/
def rec1 : Rec := { time := 900, cid := 0, unit := 0x80000000, type := 0x0105, flags := 0, payload := 9 }
def recording (l : Tbl Word) (g : Tbl Segment) : State := { regs0 solo l with ports := [(0x80000000, [rec1])], segments := g }
theorem meets_GranaryProfilingDebug_granary : tget (recording [] []).ports (portOf 0x80000000) = some [rec1] ∧ classOf rec1.type.toNat = 2 ∧
    (let s := recording [(0x120150, 1), (0x120154, 32765)] [(1, { recs := [rec1] })]
     regN s 0x120150 % 2 ^ 14 = 1 ∧ regN s 0x120154 % 2 ^ 16 < 32766 ∧ tget s.segments 1 = some { recs := [rec1] }) ∧
    regN (recording [] []) 0x120150 % 2 ^ 14 = 0 ∧ (recording [] []).segments = [] ∧ 0 < regN (recording [] []) 0x120140 % 2 ^ 14 ∧
    (let s := { solo with wrOff := 0x120140, wrVal := 2054 }; (s.wrOff - 0x120100) / 32 = 2 ∧ ((List.range 8).map fun k => if k = 2 then 2054 else regN s (0x120100 + 32 * k) % 2 ^ 14).sum = 16383) ∧
    ((List.range 8).map fun k => if k = 2 then 2055 else regN solo (0x120100 + 32 * k) % 2 ^ 14).sum > 16383 ∧ 8 ≤ (0x120200 - 0x120100) / 32 ∧
    (let s := regs0 solo [(0x120048, 0x1000), (0x120050, 2 ^ 26), (0x120058, 0x40000000)]
     regBit s 0x120058 30 = true ∧ reg64 s 0x120040 % 32 = 0 ∧ reg64 s 0x120048 % 32 = 0 ∧ regN s 0x120050 % 32 = 0 ∧ regN s 0x120050 ≤ 2 ^ 26 ∧ reg64 s 0x120040 + regN s 0x120050 ≤ 2 ^ 34 ∧
       reg64 s 0x120048 % 2 ^ 47 + regN s 0x120050 ≤ 2 ^ 47) ∧
    (let s := recording [(0x120150, 1), (0x120154, 32766)] [(1, { cls := 2, recs := [rec1] })]
     regN s 0x120150 % 2 ^ 14 = 1 ∧ 32766 ≤ regN s 0x120154 % 2 ^ 16 ∧ (heldSegs s 2).length ≤ regN s 0x120140 % 2 ^ 14 ∧ nextSeg s 2 = some 2 ∧ tget s.ports 0x90000000 = none) ∧
    (let s := recording [(0x120140, 0)] []; heldSegs s 2 = [] ∧ nextSeg s 2 = none) ∧
    tget ({ solo with ports := [(0x90000000, [{ rec1 with type := 0x0505 }])] } : State).ports 0x90000000 = some [{ rec1 with type := 0x0505 }] ∧ tget solo.ports (portOf 0x80000000) = none ∧
    regN (regs0 solo [(0x120050, 33)]) 0x120050 % 32 ≠ 0 ∧ regBit solo 0x120058 30 = false ∧ ([rec1] : List Rec)[0]? = some rec1 := by
  decide +kernel
/-- A snapshot of a machine whose one thread waits for a counter, of one with nothing in wait, of a plot that is, and of one that is not. -/
def counting : Thread := { mate 0 1 with st := .waiting (.counter 3 5) }
theorem meets_GranaryProfilingDebug_snapshot : counting.st = .waiting (.counter 3 5) ∧ solo.ports = [] ∧ chosenEdges (setRegBit solo 0x120300 30 false) 0 = [] ∧
    (let s := world [(0, counting)]
     ∃ e, chosenEdges (setRegBit s 0x120300 30 false) 0 = [e] ∧ e.more = [] ∧ e.unit ≠ unitOf 8 0 ∧ e.kind < 14 ∧ e.sub < 8 ∧ e.tid < 256) ∧
    (fieldN 0x10000000 28 27 = 2 ∧ 0x10000000 % 2 ^ 24 / 8 < 4096 ∧ (tget (getCore solo 0).plots (0x10000000 % 8)).isSome = true ∧ (tget (getCore solo 0).plots (0x10000001 % 8)).isSome = false) ∧
    fieldN 0x08000400 28 27 = 1 ∧ ¬ 0x08000400 % 2 ^ 24 < 1024 := by
  refine ⟨by decide, by decide, by decide +kernel, ?_, by decide +kernel, by decide, by decide⟩
  have h : ((chosenEdges (setRegBit (world [(0, counting)]) 0x120300 30 false) 0).map fun e => decide (e.more = [] ∧ e.unit ≠ unitOf 8 0 ∧ e.kind < 14 ∧ e.sub < 8 ∧ e.tid < 256)) = [true] := by decide +kernel
  cases hl : chosenEdges (setRegBit (world [(0, counting)]) 0x120300 30 false) 0 with
  | nil =>
    rw [hl] at h
    cases h
  | cons e r =>
    rw [hl] at h
    cases r with
    | nil => exact ⟨e, hl, by simpa using h⟩
    | cons => simp at h
/-- A core with one count in its interval; registers to read and to write in each state; a load whose result a debugger's write would lose. -/
def counted : State := updCore { solo with now := 40000000 } 0 fun c => { c with prof := { counts := [(11, 7)] } }
def loading : Thread := { th0 with regs := tput (tput th0.regs 20 { st := .empty, prod := 3 }) 21 { st := .fallow } }
def lossy : State := { setRegBit (world [(0, loading)]) 0x200008 3 true with reqs := [(3, .load { dreg := 20, parts := [{ loc := .here 0x200000 false }] })], nextId := 4 }
theorem meets_GranaryProfilingDebug_debug : tsorted counted.cores = true ∧ (∀ e ∈ counted.cores, e.1 < 2 ^ 14) ∧ counted.sumAt + 4000 * (regN counted 0x140018 % 2 ^ 17) ≤ counted.now ∧
    solo.now < solo.sumAt + 4000 * (regN solo 0x140018 % 2 ^ 17) ∧ tget counted.cores 0 = some (getCore counted 0) ∧ (getCore counted 0).prof.counts = [(11, 7)] ∧
    (tgetD counted.ports (portOf (unitCore 0 none)) []).length < 16 ∧ getThread lossy 0 9 = none ∧ getThread lossy 0 0 = some loading ∧ keptB lossy = true ∧ spillsB lossy 0 = true ∧ fallowBase (getCore lossy 0) = some 0x100000 ∧ tget loading.regs 22 = none ∧
    ([20, 21, 22, 4].all fun r => (peakReg (getCore lossy 0) loading [] [r]).isNone) = true ∧ ((tget loading.regs 20).map fun c => (c.st, c.prod)) = some (.empty, 3) ∧
    tget lossy.reqs 3 = some (.load { dreg := 20, parts := [{ loc := .here 0x200000 false }] }) ∧ ((tget loading.regs 21).map (·.st)) = some .fallow ∧ tget (getCore lossy 0).plots 0 = some plot0 ∧
    regBit lossy 0x200008 3 = true ∧ regBit (frozenPlot (some 7)) 0x200008 3 = false ∧ (getPlot (getCore (frozenPlot (some 7)) 0) 0).frozen ≠ none ∧
    regBit (world [(0, th0)]) 0x200008 3 = false ∧ (getPlot (getCore (world [(0, th0)]) 0) 0).frozen = none := by
  decide +kernel
/-- Places that the management path reads: of a thread, a plot's tiles and scratchpad, a fragment, a channel that is frozen, HBM once that is open. -/
theorem meets_GranaryProfilingDebug_places : (getThread solo 0 0).isSome = true ∧ (scratchPos solo 0 0 0 4).isSome = true ∧
    ((getPlot (getCore (stopped th0) 0) 0).roles.any fun r => r.tileMap.contains 15) = true ∧ (tget (getCore (frozenPlot (some 7)) 0).frags 0).isSome = true ∧
    (getChannel solo 0 0).frozen = false ∧ (getChannel { solo with clusters := [(0, { channels := [(0, { frozen := true })] })] } (clusterOf 0) 0).frozen = true ∧
    regBit (setRegBit solo 0x200008 4 true) 0x200008 4 = true ∧ regBit solo 0x200008 4 = false ∧ 0 < Config.hbmBytes ∧ Config.hbmBytes ≤ 2 ^ 47 := by
  decide +kernel
/-- A plot on the frozen list. -/
def listed : State := { solo with frozen := [⟨0, 8, 7, 2 ^ 32⟩] }
theorem meets_RegisterWrites_reads : listed.frozen[0]? = some ⟨0, 8, 7, 2 ^ 32⟩ ∧ ¬ (4 = 4 ∧ 0x35202 % 4 = 0 ∨ 4 = 8 ∧ 0x35202 % 8 = 0) ∧
    readWindow0 listed 0x35200 8 = 0x780000008 ∧ readWindow0 listed 0x35208 8 = 2 ^ 32 ∧ readWindow0 listed 0x35210 4 = 0 := by
  decide +kernel
theorem meets_RegisterWrites_policy : ∃ off, 0x48000 ≤ off ∧ off < 0x100000 ∧ off % 4 = 0 ∧ Config.policyReg 0 ≠ some off := by
  by_cases h : Config.policyReg 0 = some 0x48000
  · exact ⟨0x48004, by decide, by decide, by decide, by rw [h]; decide⟩
  · exact ⟨0x48000, by decide, by decide, by decide, h⟩
theorem meets_RegisterWrites : (let s := { solo with winGwct := 2000 }; s.now ≤ s.winGwct ∧ s.winGwct ≠ 0) ∧ solo.winGwct < solo.now ∧ ¬ (2 = 4 ∧ 0x30000 % 4 = 0 ∨ 2 = 8 ∧ 0x30000 % 8 = 0) ∧
    2 ^ 22 < 2 ^ 22 - 4 + 8 ∧ 2 ^ 22 - 4 + 4 ≤ 2 ^ 22 ∧ 0x34000 % 4 = 0 ∧ rwMask solo 0x34000 ≠ 0 ∧ w1cMask 0x34210 ≠ 0 ∧ rwMask solo 0x10014 = 0 ∧ w1cMask 0x10014 = 0 ∧
    (getCore solo 0).plots ≠ [] ∧ (getCore (empty0 launched) 0).plots = [] ∧ 0x40000 % 8 = 0 ∧ 0x40004 % 8 = 4 ∧ regBit (queueOf (ctl true true true)) 0x10008 31 = true ∧
    (0x80000000 : Nat).testBit 31 = true ∧ regBit (tabled solo) 0x31000 0 = true := by
  decide +kernel

/-! ### Steps with results worked in the spec -/

/-- Members with these ranks and registers, in tines from 0. -/
def sheafOf (l : List (Nat × Tbl RegCell)) : State :=
  updCore (world (l.map fun e => (e.1, { th0 with sheaf := some 0, rank := e.1, regs := e.2 }))) 0 fun c => { c with sheaves := [(0, {})] }
/-- What the instruction leaves in a thread. -/
def leaves {α : Type} (i : Instr) (s : State) (f : Thread → α) (t : Nat) : Option α :=
  match exec i s with
  | .next s' => (getThread s' 0 t).map f
  | _ => none
/-- The flags of a thread once its operations have completed (R304). -/
def flagsOf (th : Thread) : Word := th.flags.foldl (fun w f => w ||| f.2) th.ast
def cellOf (r : Nat) (th : Thread) : Option (RegSt × Tag × Word) := (tget th.regs r).map fun c => (c.st, c.tag, c.val)
def valOfReg (r : Nat) (th : Thread) : Word := rv th r
/-- 11, "Saturation, tags and renaming in one drill": `v3` awaits a load, `v4` is uniform, `v5` affine. -/
def addSheaf : State := sheafOf ((List.range 4).map fun r => (r, [(3, { st := .empty, prod := 9 }), (4, { val := 0x7FFFFFF0, tag := .uniform, uni := true }),
  (5, { val := BitVec.ofNat 32 (8 * r), tag := .affine 0 8, uni := true })]))
def addSat (sat : Bool) : Instr := .add { withPx { px0 with sat := sat } (rr 3 4 5) with b := ⟨5, true, false⟩ }
theorem test_add_saturates_drill : (List.range 4).map (leaves (addSat true) addSheaf fun th => (cellOf 3 th, (tget th.regs 5).isSome, flagsOf th)) =
    [some (some (.full, .general, 0x7FFFFFF0), false, 0), some (some (.full, .general, 0x7FFFFFF8), false, 0), some (some (.full, .general, 0x7FFFFFFF), false, flagWord flIS),
      some (some (.full, .general, 0x7FFFFFFF), false, flagWord flIS)] := by
  decide +kernel
theorem test_add_wraps_drill : (List.range 4).map (leaves (addSat false) addSheaf fun th => (cellOf 3 th, flagsOf th)) =
    [some (some (.full, .affine 0x7FFFFFF0 8, 0x7FFFFFF0), 0), some (some (.full, .affine 0x7FFFFFF0 8, 0x7FFFFFF8), 0), some (some (.full, .affine 0x7FFFFFF0 8, 0x80000000), 0),
      some (some (.full, .affine 0x7FFFFFF0 8, 0x80000008), 0)] := by
  decide +kernel
/-- 02: a shift by all four writers 8, 16, 20 and 28 is no longer affine where ranks are missing, and is where they fit. -/
def shiftSheaf : State := sheafOf ([0, 2, 3, 5].map fun r => (r, [(8, { val := BitVec.ofNat 32 (r + 2), tag := .affine 2 1, uni := true })]))
theorem test_shli_affine : [0, 2, 3, 5].map (leaves (.shli ⟨.lane, none, 9, u 8, 2⟩) shiftSheaf (cellOf 9)) =
    [some (some (.full, .affine 8 4, 8)), some (some (.full, .affine 8 4, 16)), some (some (.full, .affine 8 4, 20)), some (some (.full, .affine 8 4, 28))] := by
  decide +kernel
/-- 12, "Building four e4m3 values". -/
def packs : State := world [(0, { th0 with regs := [(1, full 0x3E99999A), (2, full 0x3F880000), (3, full 0x43FA0000), (4, full 0xBC000000), (20, full 0xDEADBEEF)] })]
theorem test_pk8lo : leaves (.pk8loE4m3 (rr 20 1 2)) packs (fun th => (valOfReg 20 th, flagsOf th)) 0 = some (0xDEAD382A, 0) := by decide +kernel
theorem test_pk8hi : leaves (.pk8hiE4m3 (withPx { px0 with sat := true } (rr 20 3 4))) packs (fun th => (valOfReg 20 th, flagsOf th)) 0 = some (0x847EBEEF, flagWord flOF) ∧
    leaves (.pk8hiE4m3 (rr 20 3 4)) packs (fun th => valOfReg 20 th) 0 = some 0x847FBEEF := by decide +kernel
/-- 05, "Conversions to SH2": 0.3, -0.75, 1.5, 2^-7 and 2.5. -/
def sh2Of (w : Word) (sat : Bool := false) : Option (Word × Word) :=
  leaves (.cvt ⟨.lane, some { px0 with sat := sat }, 20, u 1, 11, 0⟩) (world [(0, { th0 with regs := [(1, full w)] })]) (fun th => (valOfReg 20 th, flagsOf th)) 0
theorem test_cvt_sh2 : [sh2Of 0x3E99999A, sh2Of 0xBF400000, sh2Of 0x3FC00000, sh2Of 0x3C000000, sh2Of 0x40200000, sh2Of 0x40200000 true] =
    [some (0x24, 0), some (0x28, 0), some (0x01, 0), some (0x08, flagWord flUF), some (0x08, flagWord flNV), some (0x00, flagWord flOF)] := by
  decide +kernel
/-- 14, "A sheaf with a gap": `v1` an i32, `v2` an f32, `v3` a key, `p4`. -/
def gapSheaf : State :=
  let l : List (Nat × Word × Word × Word × BitVec 8) := [(0, 0, 0x4B800000, 5, 1), (1, 10, 0x3F800000, 9, 1), (2, 20, 0x3F800000, 5, 1), (3, 30, 0x3F800000, 9, 17),
    (4, 40, 0x3F800000, 5, 17), (6, 60, 0xCB800000, 7, 17), (7, 70, 0x3F000000, 9, 17)]
  let s := updCore (world (l.map fun e => (e.1, { th0 with sheaf := some 0, rank := e.1, regs := [(1, full e.2.1), (2, full e.2.2.1), (3, full e.2.2.2.1)], preds := e.2.2.2.2 }))) 0
    fun c => { c with sheaves := [(0, {})] }
  { s with cur := { s.cur with coll := true } }
theorem test_passi_off : [0, 1, 2, 3, 4, 6, 7].map (leaves (.passiOff ⟨none, 10, u 1, -1⟩) gapSheaf (valOfReg 10)) = [0, 0, 10, 20, 30, 60, 60].map fun v => some (BitVec.ofNat 32 v) := by decide +kernel
theorem test_sred_fadd : [0, 7].map (leaves (.sred none 11 (u 2) 8) gapSheaf (cellOf 11)) = [some (some (.full, .uniform, 0x3F000000)), some (some (.full, .uniform, 0x3F000000))] := by decide +kernel
theorem test_poll_mask : [0, 7].map (leaves (.poll none 12 3 false 4) gapSheaf (cellOf 12)) = [some (some (.full, .uniform, 0xD8)), some (some (.full, .uniform, 0xD8))] := by decide +kernel
theorem test_alike : [0, 1, 2, 3, 4, 6, 7].map (leaves (.alike none 13 (u 3) false) gapSheaf (valOfReg 13)) =
    [0x15, 0x8A, 0x15, 0x8A, 0x15, 0x40, 0x8A].map fun v => some (BitVec.ofNat 32 v) := by decide +kernel
/-- 13, "A combined counter": the words that the seven steps leave; and 03: sums of one drill under RNE. -/
theorem test_incw_steps : ([3, 4, 5, 0, 1, 2, 3] : List Nat).map (fun m => (atomNew 15 m { v := 5 }).1) = [4, 5, 0, 1, 2, 3, 4] := by decide +kernel
theorem test_atom_fadd_steps : [(0, 0x4B800000), (0x4B800000, 0x3F800000), (0x4B800000, 0xCB800000)].map (fun x : Nat × Nat => (atomNew 11 x.1 { v := BitVec.ofNat 64 x.2 }).1) =
    [0x4B800000, 0x4B800000, 0] := by decide +kernel
/-- 15: four arrivals of one drill at an object of two complete two phases and release the thread in wait. -/
def arrivals : State :=
  let s := world ((List.range 4).map fun r => (r, { th0 with sheaf := some 0, rank := r }))
  let s := updCore s 0 fun c => { c with sheaves := [(0, {})], threads := c.threads ++ [(8, { th0 with st := .waiting (.abar 0x40 0) })] }
  putObj s 0 0x40 { obj0 with init := 2, arr := 2, wcnt := 1 }
theorem test_arrivals : (match exec (.abarArrive .lane none (u 0)) arrivals with
    | .next s' => (((objAt s' 0 0x40).arr, (objAt s' 0 0x40).done, (getThread s' 0 8).map fun th => th.st))
    | _ => (0, 0, none)) = (2, 2, some .ready) := by
  decide +kernel
/-- 31: device 3, one hop from the reference at 1 ns: e = 4 ns, E = 8 ns, locked, F = 54 ns; device 9, two hops. -/
def boundsAfter (off : Int) (e f : Nat) : Option (Nat × Nat × Bool) :=
  match exec (.timeExchange 0 off e (some f)) (linked 3) with
  | .next s' => some (regN s' 0x110008, regN s' 0x11000C, locked s')
  | _ => none
theorem test_time_exchange : boundsAfter 4 0 50 = some (8, 54, true) ∧ boundsAfter 4 16 50 = some (16, 58, true) := by decide +kernel
/-- 24: the ring of 8 entries after the host has taken 5 of 8: kind 4 for queue 4 (COUNT 1), then for queue 9 (COUNT 2, DATA 3). -/
def caughtUp : State :=
  { regs0 solo [(0x20008, 0x80000003), (0x20010, 5), (0x20014, 8), (0x1001C + 32 * 4, 1), (0x1001C + 32 * 9, 2), (0x10018 + 32 * 9, 3)] with overflowed := true }
theorem test_ring_catches_up : (match exec .erheadWrite caughtUp with
    | .next s' => [memNat s'.mem (2 ^ 47) 4, memNat s'.mem (2 ^ 47 + 24) 4 % 2 ^ 31, memNat s'.mem (2 ^ 47 + 32) 4, memNat s'.mem (2 ^ 47 + 40) 8, memNat s'.mem (2 ^ 47 + 56) 4 % 2 ^ 31,
        8 - (reg32 s' 0x20014 - reg32 s' 0x20010).toNat, regN s' (0x10018 + 32 * 9)]
    | _ => []) = [4 * 2 ^ 16 + 4, 1, 9 * 2 ^ 16 + 4, 3, 2, 3, 3] := by
  decide +kernel
/-- 05: one BF16 element under each order and mode; 05: one element of `mscl`; 12: the table of the example. -/
def bfA : List Nat := [0x4580, 0x3F80, 0xC580, 0x3F80, 0x3980] ++ List.replicate 11 0
def bfB : List Nat := [0x4580, 0x3F80, 0x4580, 0x3F80, 0x3980] ++ List.replicate 11 0
theorem test_bf16_orders : [(stepElem 0 false 0 false 0x3F800000 bfA bfB).bits, (stepElem 0 false 3 false 0x3F800000 bfA bfB).bits, (stepElem 0 true 0 false 0x3F800000 bfA bfB).bits,
    (stepElem 0 true 3 false 0x3F800000 bfA bfB).bits] = [0x40400000, 0x40400000, 0x40000000, 0x40800001] := by decide +kernel
theorem test_mscl_rounds_once : (msclElem true 0 6400 0x3CA3D70A 0x3C000000 0x3F800000).bits = 0x40000000 := by decide +kernel
def image12 : BitVec 16512 := BitVec.ofNat 16512 (0xC0800000 + 0x42000000 * 2 ^ 32 + 0xBF800000 * 2 ^ 160 + (0x3E800000 + 0x3EC00000 * 2 ^ 32) * 2 ^ (128 + 64 * 144) + 0x3F800000 * 2 ^ (160 + 64 * 255))
theorem test_ftbl : ([0x3F000000, 0x40A00000, 0xFF800000, 0x7FC00000] : List Nat).map (fun x => ((tblEval image12 false x).bits, (tblEval image12 false x).fl)) =
    [(0x3F000000, 0), (0x3F800000, 0), (0xBF800000, 0), (0x7FC00000, 0)] := by decide +kernel
/-- 28: the entry 0x0000_8587 names link 7 and then link 5; with link 7 key-stalled the egress is link 5. -/
def routes28 (st : Word) : State := { regs0 solo [(0x101000 + 64 * 5, 3 <<< 29), (0x101000 + 64 * 7, st <<< 29)] with routes0 := [(9, 0x8587)] }
theorem test_egress : egressLink (routes28 3) 9 = some 7 ∧ egressLink (routes28 4) 9 = some 5 ∧ egressLink (routes28 3) 10 = none := by decide +kernel
/-- 10: a prefix with C nonzero and CV 0 sets a field that `add` does not accept, so the prefix rule goes before its bits that must be zero. -/
theorem test_refused_c_unset : (match decode [0x60010000, 0x0A010800] with
    | .error .pxRule => true
    | _ => false) = true := by decide
end Sys2Proof.Tests
end

section
/-!
SUPPORT. Writes and reads of window 0 by the host (R5, R329, R330): what one word written does to the state, range by range, and what a
read gives.
-/
namespace Sys2Proof.Machine
open Sys2Proof

/-! ### Masks over numbers -/

/-- Numbers without a common bit add without a carry. -/
theorem add_eq_or_of_and_eq_zero (a b : Nat) (h : a &&& b = 0) : a + b = a ||| b := by
  have hw : a + b < 2 ^ (a + b) := Nat.lt_two_pow_self
  have ha : a % 2 ^ (a + b) = a := Nat.mod_eq_of_lt (by omega)
  have hb : b % 2 ^ (a + b) = b := Nat.mod_eq_of_lt (by omega)
  have hdisj : BitVec.ofNat (a + b) a &&& BitVec.ofNat (a + b) b = 0#(a + b) := by
    apply BitVec.eq_of_toNat_eq
    simp [ha, hb, h]
  have hsum := congrArg BitVec.toNat (BitVec.add_eq_or_of_and_eq_zero _ _ hdisj)
  simpa [ha, hb, Nat.mod_eq_of_lt hw] using hsum

/-- Taking away the bits of a mask leaves the others. -/
theorem sub_and_eq_ldiff (a m : Nat) : a - (a &&& m) = a.ldiff m := by
  have hdisj : a.ldiff m &&& (a &&& m) = 0 := by
    apply Nat.eq_of_testBit_eq
    intro k
    simp only [Nat.testBit_and, Nat.testBit_ldiff, Nat.zero_testBit]
    cases m.testBit k <;> simp
  have hall : a.ldiff m ||| (a &&& m) = a := by
    apply Nat.eq_of_testBit_eq
    intro k
    simp only [Nat.testBit_or, Nat.testBit_and, Nat.testBit_ldiff]
    cases m.testBit k <;> simp
  have hsum := add_eq_or_of_and_eq_zero _ _ hdisj
  omega

/-- A masked store: the bits of `rw` come from `x`, those of `c` are cleared, the others stay. -/
theorem testBit_maskedStore (a x rw c k : Nat) :
    (a - (a &&& (rw ||| c)) + (x &&& rw)).testBit k = if rw.testBit k then x.testBit k else a.testBit k && !c.testBit k := by
  rw [sub_and_eq_ldiff, add_eq_or_of_and_eq_zero]
  · simp only [Nat.testBit_or, Nat.testBit_and, Nat.testBit_ldiff]
    cases rw.testBit k <;> simp
  · apply Nat.eq_of_testBit_eq
    intro j
    simp only [Nat.testBit_or, Nat.testBit_and, Nat.testBit_ldiff, Nat.zero_testBit]
    cases rw.testBit j <;> simp

/-! ### One register written -/

theorem regBit_setRegN_self (s : State) (off n k : Nat) (hk : k < 32) : regBit (setRegN s off n) off k = n.testBit k := by
  rw [regBit, regN, setRegN, reg32_setReg32_self, BitVec.toNat_ofNat, Nat.testBit_mod_two_pow]
  simp [hk]

/-- A register written with the word it holds leaves every register as it is. -/
theorem reg32_setRegN_regN (s : State) (off o : Nat) : reg32 (setRegN s off (regN s off)) o = reg32 s o := by
  rw [setRegN, regN, BitVec.ofNat_toNat, BitVec.setWidth_eq]
  by_cases h : o = off
  · rw [h, reg32_setReg32_self]
  · exact reg32_setReg32_ne _ _ _ _ h

/-- Nothing but words of window 0 is changed. -/
def OnlyRegs (s s' : State) : Prop := s' = { s with w0 := s'.w0 }
theorem OnlyRegs.refl (s : State) : OnlyRegs s s := rfl
theorem OnlyRegs.trans {a b c : State} (h : OnlyRegs a b) (k : OnlyRegs b c) : OnlyRegs a c := by
  unfold OnlyRegs at h k ⊢
  rw [k, h]
theorem OnlyRegs.ite {p : Prop} [Decidable p] {s a b : State} (h : OnlyRegs s a) (k : OnlyRegs s b) : OnlyRegs s (if p then a else b) := by
  split
  · exact h
  · exact k
theorem setRegN_onlyRegs (s : State) (off n : Nat) : OnlyRegs s (setRegN s off n) := rfl
theorem setRegBit_onlyRegs (s : State) (off i : Nat) (b : Bool) : OnlyRegs s (setRegBit s off i b) := rfl
theorem frzDone_onlyRegs (s : State) (e : Bool) : OnlyRegs s (frzDone s e) :=
  ((setRegBit_onlyRegs ..).trans (setRegBit_onlyRegs ..)).trans (.ite (setRegBit_onlyRegs ..) (.refl _))

/-- What follows at once from a word written is seen in window 0 alone (R367, R376, R384, R392). -/
theorem settleWord_onlyRegs (old s : State) (off v : Nat) : OnlyRegs s (settleWord old s off v) := by
  unfold settleWord
  refine .ite (.ite (setRegN_onlyRegs ..) (.ite (setRegN_onlyRegs ..) (.refl s))) ?_
  split
  · exact setRegN_onlyRegs ..
  · exact .ite (.refl s) (.ite (frzDone_onlyRegs ..) (setRegBit_onlyRegs ..))
  · exact .ite (.refl s) (.ite (setRegN_onlyRegs ..) (setRegBit_onlyRegs ..))
  · exact .refl s

/-- From every other word nothing follows at once. -/
theorem settleWord_plain (old s : State) (off v : Nat) (hlink : ¬ (0x101000 ≤ off ∧ off < 0x101800 ∧ off % 64 = 0))
    (hpool : off ≠ 0x35008) (hfrz : off ≠ 0x35100) (hsec : off ≠ 0x200000) : settleWord old s off v = s := by
  unfold settleWord
  rw [if_neg hlink]
  split
  · exact absurd rfl hpool
  · exact absurd rfl hfrz
  · exact absurd rfl hsec
  · rfl

/-- The words whose values are stored as others are five (R379, R405, R421, R427). -/
theorem storedAs_plain (off v : Nat) (h : off ∉ [0x100008, 0x110000, 0x120300, 0x140000, 0x140018]) : storedAs off v = v := by
  unfold storedAs
  split <;> simp at h ⊢

/-! ### The host's FSBASE and policy words -/

/-- FSBASE is ignored while the core holds plots (R365). -/
theorem fsbaseWord_held (s : State) (off v : Nat) (h : (getCore s ((off - 0x40000) / 8)).plots ≠ []) : fsbaseWord s off v = s := by
  simp [fsbaseWord, h]

/-- Without plots, an aligned write stores the word's writable half of FSBASE and keeps the other (R365). -/
theorem getCore_fsbaseWord (s : State) (off v : Nat) (h : (getCore s ((off - 0x40000) / 8)).plots = []) :
    getCore (fsbaseWord s off v) ((off - 0x40000) / 8) =
      { getCore s ((off - 0x40000) / 8) with
        fsbase := BitVec.ofNat 64 (if off % 8 = 0
          then v % 2 ^ 32 / 2 ^ 16 * 2 ^ 16 + v % 2 + (getCore s ((off - 0x40000) / 8)).fsbase.toNat / 2 ^ 32 * 2 ^ 32
          else (getCore s ((off - 0x40000) / 8)).fsbase.toNat % 2 ^ 32 + v % 2 ^ 16 * 2 ^ 32) } := by
  simp [fsbaseWord, h]

/-- An FSBASE word changes nothing but cores. -/
theorem fsbaseWord_frame (s : State) (off v : Nat) : ∃ cs, fsbaseWord s off v = { s with cores := cs } := by
  unfold fsbaseWord
  by_cases h : (!(getCore s ((off - 0x40000) / 8)).plots.isEmpty) = true
  · exact ⟨s.cores, if_pos h⟩
  · exact ⟨_, if_neg h⟩

theorem fsbaseWord_threads (s : State) (off v : Nat) :
    (getCore (fsbaseWord s off v) ((off - 0x40000) / 8)).threads = (getCore s ((off - 0x40000) / 8)).threads := by
  by_cases h : (getCore s ((off - 0x40000) / 8)).plots = []
  · rw [getCore_fsbaseWord s off v h]
  · rw [fsbaseWord_held s off v h]

/-- Setting the policy of the cores of a list sets theirs and no other core's. -/
theorem getCore_foldl_roundRobin (b : Bool) (l : List Nat) (s : State) (ci : Nat) :
    getCore (l.foldl (fun s cj => updCore s cj fun c => { c with roundRobin := b }) s) ci =
      if ci ∈ l then { getCore s ci with roundRobin := b } else getCore s ci := by
  induction l generalizing s with
  | nil => simp
  | cons cj l ih =>
    rw [List.foldl_cons, ih, updCore_eq]
    by_cases hc : ci = cj
    · subst hc
      simp
    · simp [getCore_putCore_ne _ _ _ _ hc, hc]

theorem foldl_roundRobin_frame (b : Bool) (l : List Nat) (s : State) :
    ∃ cs, l.foldl (fun s cj => updCore s cj fun c => { c with roundRobin := b }) s = { s with cores := cs } := by
  induction l generalizing s with
  | nil => exact ⟨s.cores, rfl⟩
  | cons cj l ih => exact ih (updCore s cj _)

/-- A policy word sets the policy of the cores that have their register there, and no other core's (log 84). -/
theorem getCore_policyWord (s : State) (off v ci : Nat) :
    getCore (policyWord s off v) ci =
      if ci < Config.numCores ∧ Config.policyReg ci = some off then { getCore s ci with roundRobin := Config.policyOf v } else getCore s ci := by
  simp [policyWord, getCore_foldl_roundRobin]

/-- A policy word changes nothing but cores. -/
theorem policyWord_frame (s : State) (off v : Nat) : ∃ cs, policyWord s off v = { s with cores := cs } :=
  foldl_roundRobin_frame ..

/-! ### One word of window 0 written -/

/-- The state in which a write is worked out: it keeps the offset and the value for the write's event. -/
def withWrite (s : State) (off v : Nat) : State := { s with wrOff := off, wrVal := BitVec.ofNat 64 v }
theorem getCore_withWrite (s : State) (off v ci : Nat) : getCore (withWrite s off v) ci = getCore s ci := rfl

/-- The number that a write leaves in a word: the old one without the bits stored or cleared, and the stored bits (R5). -/
def writtenWord (s : State) (off v : Nat) : Nat :=
  regN s off - (regN s off &&& (rwMask s off ||| (w1cMask off &&& v))) + (storedAs off v &&& rwMask s off)

theorem writeWord_fsbase (s : State) (off v : Nat) (h : 0x40000 ≤ off ∧ off < 0x48000) :
    writeWord s s off v = fsbaseWord (withWrite s off v) off v := if_pos h

theorem writeWord_policy (s : State) (off v : Nat) (h : 0x48000 ≤ off ∧ off < 0x100000) :
    writeWord s s off v = policyWord (withWrite s off v) off v := by
  rw [writeWord, if_neg (by omega), if_pos h]
  rfl

theorem writeWord_register (s : State) (off v : Nat) (h : off < 0x40000 ∨ 0x100000 ≤ off) :
    writeWord s s off v =
      { settleWord s (setRegN (withWrite s off v) off (writtenWord s off v)) off v with agenda := startedBy s off v ++ s.agenda } := by
  rw [writeWord, if_neg (by omega), if_neg (by omega)]
  rfl

/-- Outside the cores' words a write leaves the whole state but window 0, the offset and value it keeps, and the events it starts. -/
theorem writeWord_register_frame (s : State) (off v : Nat) (h : off < 0x40000 ∨ 0x100000 ≤ off) :
    ∃ w, writeWord s s off v = { withWrite s off v with w0 := w, agenda := startedBy s off v ++ s.agenda } := by
  have hrest : OnlyRegs (withWrite s off v) (settleWord s (setRegN (withWrite s off v) off (writtenWord s off v)) off v) :=
    (setRegN_onlyRegs ..).trans (settleWord_onlyRegs ..)
  rw [writeWord_register s off v h, hrest]
  exact ⟨_, rfl⟩

/-- Memory, runs and requests are out of reach of a word written. -/
theorem writeWord_frame (s : State) (off v : Nat) :
    (writeWord s s off v).mem = s.mem ∧ (writeWord s s off v).runs = s.runs ∧ (writeWord s s off v).reqs = s.reqs := by
  by_cases hf : 0x40000 ≤ off ∧ off < 0x48000
  · obtain ⟨cs, hcs⟩ := fsbaseWord_frame (withWrite s off v) off v
    rw [writeWord_fsbase s off v hf, hcs]
    exact ⟨rfl, rfl, rfl⟩
  · by_cases hp : 0x48000 ≤ off ∧ off < 0x100000
    · obtain ⟨cs, hcs⟩ := policyWord_frame (withWrite s off v) off v
      rw [writeWord_policy s off v hp, hcs]
      exact ⟨rfl, rfl, rfl⟩
    · obtain ⟨w, hw⟩ := writeWord_register_frame s off v (by omega)
      rw [hw]
      exact ⟨rfl, rfl, rfl⟩

/-- A word from which nothing follows at once holds what the write leaves in it; no other word changes. -/
theorem writeWord_plain_reg32 (s : State) (off v o : Nat) (h : off < 0x40000 ∨ 0x100000 ≤ off)
    (hlink : ¬ (0x101000 ≤ off ∧ off < 0x101800 ∧ off % 64 = 0))
    (hpool : off ≠ 0x35008) (hfrz : off ≠ 0x35100) (hsec : off ≠ 0x200000) :
    reg32 (writeWord s s off v) o = reg32 (setRegN s off (writtenWord s off v)) o := by
  rw [writeWord_register s off v h, settleWord_plain _ _ _ _ hlink hpool hfrz hsec]
  rfl

/-- The bits of an ordinary word after a write (R5). -/
theorem regBit_writeWord (s : State) (off v k : Nat) (h : off < 0x40000 ∨ 0x100000 ≤ off) (hk : k < 32)
    (hplain : off ∉ [0x100008, 0x110000, 0x120300, 0x140000, 0x140018, 0x35008, 0x35100, 0x200000])
    (hlink : ¬ (0x101000 ≤ off ∧ off < 0x101800 ∧ off % 64 = 0)) :
    regBit (writeWord s s off v) off k =
      if (rwMask s off).testBit k then v.testBit k else regBit s off k && !((w1cMask off).testBit k && v.testBit k) := by
  simp only [List.mem_cons, List.not_mem_nil, or_false, not_or] at hplain
  obtain ⟨h1, h2, h3, h4, h5, hpool, hfrz, hsec⟩ := hplain
  calc regBit (writeWord s s off v) off k
      = regBit (setRegN s off (writtenWord s off v)) off k := by
        simp only [regBit, regN, writeWord_plain_reg32 s off v off h hlink hpool hfrz hsec]
    _ = (writtenWord s off v).testBit k := regBit_setRegN_self _ _ _ _ hk
    _ = _ := by
        rw [writtenWord, testBit_maskedStore, storedAs_plain off v (by simp [h1, h2, h3, h4, h5]), Nat.testBit_and]
        rfl

/-- The word of a link's EN takes that bit (R384). -/
theorem rwMask_link (s : State) (off : Nat) (h : 0x101000 ≤ off ∧ off < 0x101800 ∧ off % 64 = 0) : rwMask s off = 2 ^ 28 := by
  obtain ⟨hlo, hhi, hen⟩ := h
  have hrange : 0x101000 ≤ off ∧ off < 0x101800 := ⟨hlo, hhi⟩
  rw [rwMask, if_neg (by omega), if_neg (by omega), if_neg (by omega), if_neg (by omega), if_pos (by omega)]
  unfold rwFabric
  rw [if_pos hrange, if_pos hen]

/-- A write to a read-only word changes no word (R5). -/
theorem reg32_writeWord_readOnly (s : State) (off v o : Nat) (h : off < 0x40000 ∨ 0x100000 ≤ off) (hrw : rwMask s off = 0)
    (hw1c : w1cMask off = 0) (hpool : off ≠ 0x35008) (hfrz : off ≠ 0x35100) (hsec : off ≠ 0x200000) :
    reg32 (writeWord s s off v) o = reg32 s o := by
  have hlink : ¬ (0x101000 ≤ off ∧ off < 0x101800 ∧ off % 64 = 0) := fun hl => by simp [rwMask_link s off hl] at hrw
  have hsame : writtenWord s off v = regN s off := by simp [writtenWord, hrw, hw1c]
  rw [writeWord_plain_reg32 s off v o h hlink hpool hfrz hsec, hsame, reg32_setRegN_regN]

/-- The host's writes to one word of FSBASE, by the core they name (R365). -/
theorem writeWord_fsbase_value (s : State) (off v : Nat) (h : 0x40000 ≤ off ∧ off < 0x48000) (hv : v < 2 ^ 32) :
    let ci := (off - 0x40000) / 8
    let lo := (getCore s ci).fsbase.toNat % 2 ^ 32
    let hi := (getCore s ci).fsbase.toNat / 2 ^ 32
    ((getCore s ci).plots ≠ [] → (getCore (writeWord s s off v) ci).fsbase = (getCore s ci).fsbase) ∧
    ((getCore s ci).plots = [] → off % 8 = 0 → (getCore (writeWord s s off v) ci).fsbase.toNat = v / 2 ^ 16 * 2 ^ 16 + v % 2 + 2 ^ 32 * hi) ∧
    ((getCore s ci).plots = [] → off % 8 = 4 → (getCore (writeWord s s off v) ci).fsbase.toNat = lo + 2 ^ 32 * (v % 2 ^ 16)) ∧
    (getCore (writeWord s s off v) ci).threads = (getCore s ci).threads := by
  rw [writeWord_fsbase s off v h]
  refine ⟨fun hp => ?_, fun hp h0 => ?_, fun hp h4 => ?_, fsbaseWord_threads (withWrite s off v) off v⟩
  · rw [fsbaseWord_held (withWrite s off v) off v hp]
    rfl
  · rw [getCore_fsbaseWord (withWrite s off v) off v hp, if_pos h0]
    simp only [getCore_withWrite, BitVec.toNat_ofNat]
    have := (getCore s ((off - 0x40000) / 8)).fsbase.isLt
    omega
  · rw [getCore_fsbaseWord (withWrite s off v) off v hp, if_neg (by omega)]
    simp only [getCore_withWrite, BitVec.toNat_ofNat]
    have := (getCore s ((off - 0x40000) / 8)).fsbase.isLt
    omega

/-- A word between the FSBASEs and the fabric changes no word, starts nothing and sets at most the policy of the cores it belongs to (log 84). -/
theorem writeWord_policy_value (s : State) (off v : Nat) (h : 0x48000 ≤ off ∧ off < 0x100000) :
    (writeWord s s off v).w0 = s.w0 ∧ (writeWord s s off v).agenda = s.agenda ∧
    ∀ ci, (getCore (writeWord s s off v) ci).threads = (getCore s ci).threads ∧ (getCore (writeWord s s off v) ci).plots = (getCore s ci).plots ∧
      (Config.policyReg ci ≠ some off → getCore (writeWord s s off v) ci = getCore s ci) := by
  rw [writeWord_policy s off v h]
  obtain ⟨cs, hcs⟩ := policyWord_frame (withWrite s off v) off v
  refine ⟨by rw [hcs]; rfl, by rw [hcs]; rfl, fun ci => ?_⟩
  rw [getCore_policyWord, getCore_withWrite]
  by_cases hc : ci < Config.numCores ∧ Config.policyReg ci = some off
  · rw [if_pos hc]
    exact ⟨rfl, rfl, fun hne => absurd hc.2 hne⟩
  · rw [if_neg hc]
    exact ⟨rfl, rfl, fun _ => rfl⟩

/-! ### The host's access -/

/-- Until the GWCT of the host's window-2 writes has passed, a register write waits a cycle (R330). -/
theorem exec_registerWrite_waits (s : State) (off size : Nat) (v : DWord) (hnow : s.now ≤ s.winGwct) (h0 : s.winGwct ≠ 0) :
    exec (.registerWrite off size v) s = .next { s with agenda := .issueCycle :: .registerWrite off size v :: s.agenda } := by
  change hostGate _ _ s = _
  rw [hostGate, if_neg (by omega)]

theorem exec_registerWrite_open (s : State) (off size : Nat) (v : DWord) (hnow : s.winGwct < s.now) :
    exec (.registerWrite off size v) s = .next (writeWindow0 off size v s) := by
  change hostGate _ _ s = _
  rw [hostGate, if_pos (Or.inl hnow)]

/-- A write that is not aligned, of another size or beyond the window is discarded (R329). -/
theorem writeWindow0_discarded (s : State) (off size : Nat) (v : DWord)
    (h : ¬ (size = 4 ∧ off % 4 = 0 ∨ size = 8 ∧ off % 8 = 0) ∨ 2 ^ 22 < off + size) : writeWindow0 off size v s = s := by
  unfold writeWindow0
  by_cases hend : off + size > 2 ^ 22
  · exact if_pos hend
  · rw [if_neg hend, if_neg (by omega), if_neg (by omega)]

theorem writeWindow0_word (s : State) (off : Nat) (v : DWord) (hal : off % 4 = 0) (hend : off + 4 ≤ 2 ^ 22) :
    writeWindow0 off 4 v s = writeWord s s off (v.toNat % 2 ^ 32) := by
  rw [writeWindow0, if_neg (by omega), if_pos ⟨rfl, hal⟩]

/-- An aligned word written answers the state of `writeWord` (R329, R330). -/
theorem exec_registerWrite_word (s : State) (off : Nat) (v : DWord) (hnow : s.winGwct < s.now) (hal : off % 4 = 0) (hend : off + 4 ≤ 2 ^ 22) :
    exec (.registerWrite off 4 v) s = .next (writeWord s s off (v.toNat % 2 ^ 32)) := by
  rw [exec_registerWrite_open s off 4 v hnow, writeWindow0_word s off v hal hend]

/-- A read that is not aligned or of another size gives all ones (R329). -/
theorem readWindow0_refused (s : State) (off size : Nat) (h : ¬ (size = 4 ∧ off % 4 = 0 ∨ size = 8 ∧ off % 8 = 0)) :
    readWindow0 s off size = 0xFFFFFFFF := by
  rw [readWindow0, if_neg (by omega), if_neg (by omega)]

theorem readWindow0_word (s : State) (off : Nat) (hal : off % 4 = 0) (hend : off + 4 ≤ 2 ^ 22) : readWindow0 s off 4 = window0Word s off :=
  if_pos ⟨hend, rfl, hal⟩

theorem readWindow0_double (s : State) (off : Nat) (hal : off % 8 = 0) (hend : off + 8 ≤ 2 ^ 22) :
    readWindow0 s off 8 = window0Word s off + 2 ^ 32 * window0Word s (off + 4) := by
  rw [readWindow0, if_neg (by omega), if_pos ⟨hend, rfl, hal⟩]

/-- A double word of numbers below 2^64, read by its halves. -/
theorem halves_of_mod (x : Nat) : x % 2 ^ 32 + 2 ^ 32 * (x / 2 ^ 32 % 2 ^ 32) = x % 2 ^ 64 := by omega

/-- Device time is read as one value (R405). -/
theorem readWindow0_time (s : State) : readWindow0 s 0x110018 8 = s.now % 2 ^ 64 := by
  rw [readWindow0_double s 0x110018 (by decide) (by decide)]
  exact halves_of_mod s.now

/-- The words of the frozen list, by entry and by place in the entry (R375). -/
theorem window0Word_frozen (s : State) {off k j : Nat} (hoff : off = 0x35200 + 16 * k + 4 * j) (hk : k < 64) (hj : j < 4) :
    window0Word s off = frozenWord s k j := by
  unfold window0Word
  rw [if_pos (by omega), show (off - 0x35200) / 16 = k by omega, show (off - 0x35200) % 16 / 4 = j by omega]

/-- Entry k of the frozen list names the master that was frozen k-th (R375; log 67). -/
theorem readWindow0_frozen (s : State) (k : Nat) (f : Frozen) (hk : k < 64) (hf : s.frozen[k]? = some f) :
    readWindow0 s (0x35200 + 16 * k) 4 = 2 ^ 31 + f.kind % 8 * 2 ^ 28 + f.id % 2 ^ 24 ∧ readWindow0 s (0x35204 + 16 * k) 4 = f.group % 32 ∧
    readWindow0 s (0x35208 + 16 * k) 8 = f.time % 2 ^ 64 := by
  refine ⟨?_, ?_, ?_⟩
  · rw [readWindow0_word s _ (by omega) (by omega), window0Word_frozen s (j := 0) (by omega) hk (by decide)]
    simp [frozenWord, hf]
  · rw [readWindow0_word s _ (by omega) (by omega), window0Word_frozen s (j := 1) (by omega) hk (by decide)]
    simp [frozenWord, hf]
  · rw [readWindow0_double s _ (by omega) (by omega), window0Word_frozen s (j := 2) (by omega) hk (by decide),
      window0Word_frozen s (j := 3) (by omega) hk (by decide), ← halves_of_mod]
    simp [frozenWord, hf]

/-! ### Which bits a word takes and which event it starts -/

/-- Of a queue's block a write stores QBASE alone, and not while the queue is enabled; what else it may change its event stores (R331). -/
theorem rwMask_queue (s : State) {off : Nat} (hlo : 0x10000 ≤ off) (hhi : off < 0x18000) :
    rwMask s off = if off % 32 < 8 then holdBits (regBit s (off / 32 * 32 + 8) 31) allBits else 0 := by
  rw [rwMask, if_neg (by omega), if_pos (by omega), if_neg (by omega)]
  unfold rwQueues
  rw [if_pos (by omega)]

/-- A write to a queue's control word starts QUEUE_ENABLE (R331). -/
theorem startedBy_queueControl (s : State) {off q : Nat} (v : Nat) (hq : q < 1024) (hoff : off = 0x10008 + 32 * q) :
    startedBy s off v = [.queueEnable q (BitVec.ofNat 32 v)] := by
  unfold startedBy
  rw [if_pos (by omega), show off % 32 = 8 by omega, show (off - 0x10000) / 32 = q by omega]
  rfl

/-- A write to QTAIL starts TAIL_WRITE (R331). -/
theorem startedBy_queueTail (s : State) {off q : Nat} (v : Nat) (hq : q < 1024) (hoff : off = 0x10010 + 32 * q) :
    startedBy s off v = [.tailWrite q (BitVec.ofNat 32 v)] := by
  unfold startedBy
  rw [if_pos (by omega), show off % 32 = 0x10 by omega, show (off - 0x10000) / 32 = q by omega]
  rfl

/-- The words of a context's registers (R358). -/
theorem rwMask_context (s : State) {off : Nat} (hlo : 0x31000 ≤ off) (hhi : off < 0x31400) (hcv : cvAt s off = true) :
    rwMask s off = if off % 16 = 0 then 1 else 0 := by
  rw [rwMask, if_neg (by omega), if_neg (by omega), if_pos (by omega)]
  unfold rwTables
  rw [if_pos hhi, hcv]
  split
  · next h => rw [if_pos h]; rfl
  · next h => rw [if_neg (by omega)]; rfl
  · next h _ => rw [if_neg h]

/-- While CV is set, a context takes that bit alone (R358). -/
theorem rwMask_context_held (s : State) (c : Nat) (hc : c < 64) (hcv : regBit s (0x31000 + 16 * c) 0 = true) :
    rwMask s (0x31000 + 16 * c) = 1 ∧ rwMask s (0x31004 + 16 * c) = 0 ∧ rwMask s (0x31008 + 16 * c) = 0 := by
  have hheld (off : Nat) (h : off / 16 * 16 = 0x31000 + 16 * c) : cvAt s off = true := by rw [cvAt, h, hcv]
  refine ⟨?_, ?_, ?_⟩
  · rw [rwMask_context s (by omega) (by omega) (hheld _ (by omega)), if_pos (by omega)]
  · rw [rwMask_context s (by omega) (by omega) (hheld _ (by omega)), if_neg (by omega)]
  · rw [rwMask_context s (by omega) (by omega) (hheld _ (by omega)), if_neg (by omega)]

/-- A write does not store the control word, QHEAD and QOVF, clears QERR by ones, and leaves QBASE of an enabled queue (R331). -/
theorem masks_queue (s : State) (q : Nat) (hq : q < 1024) :
    rwMask s (0x10008 + 32 * q) = 0 ∧ rwMask s (0x10014 + 32 * q) = 0 ∧ rwMask s (0x1001C + 32 * q) = 0 ∧ w1cMask (0x10018 + 32 * q) = 15 ∧
    (regBit s (0x10008 + 32 * q) 31 = true → rwMask s (0x10000 + 32 * q) = 0) := by
  refine ⟨?_, ?_, ?_, if_pos (by omega), fun hen => ?_⟩
  · rw [rwMask_queue s (by omega) (by omega), if_neg (by omega)]
  · rw [rwMask_queue s (by omega) (by omega), if_neg (by omega)]
  · rw [rwMask_queue s (by omega) (by omega), if_neg (by omega)]
  · rw [rwMask_queue s (by omega) (by omega), if_pos (by omega), show (0x10000 + 32 * q) / 32 * 32 + 8 = 0x10008 + 32 * q by omega, hen]
    rfl

/-- Bit 31 starts the invalidation, the migration, the snapshot or the reset of its word (R360, R363, R377, R421). -/
theorem startedBy_go (s : State) (v : Nat) (hgo : v.testBit 31 = true) :
    startedBy s 0x34008 v = [.tlbInvalidate] ∧ startedBy s 0x34210 v = [.migrationStart] ∧ startedBy s 0x120300 v = [.waitforSnapshot] ∧
    startedBy s 0x35600 v = [if v.testBit 0 then .coldReset else .warmReset] := by
  refine ⟨by simp [startedBy, hgo], by simp [startedBy, hgo], by simp [startedBy, hgo], ?_⟩
  by_cases h0 : v.testBit 0 = true <;> simp [startedBy, hgo, h0]

end Sys2Proof.Machine

/-! ### The statement -/

section
open Sys2Proof Sys2Proof.Machine

/-- Settles O60: a register write answers the state of `writeWord`, whose ranges (FSBASE, policy, all others) each have their lemma. -/
theorem registerWrites : Obligations.RegisterWrites := by
  unfold Obligations.RegisterWrites
  refine ⟨readWindow0_refused, readWindow0_time, fun s k f hk hf => ?_, exec_registerWrite_waits, fun s off size v hnow h => ?_,
    fun s off v hnow hal hend => ?_, fun s q hq => ?_, startedBy_go, rwMask_context_held⟩
  · obtain ⟨hname, hgroup, htime⟩ := readWindow0_frozen s k f hk hf
    rw [hname]
    refine ⟨?_, ?_, ?_, hgroup, htime⟩ <;> simp only [fieldN] <;> omega
  · rw [exec_registerWrite_open s off size v hnow, writeWindow0_discarded s off size v h]
  · obtain ⟨hmem, hruns, hreqs⟩ := writeWord_frame s off (v.toNat % 2 ^ 32)
    refine ⟨_, exec_registerWrite_word s off v hnow hal hend, hmem, hruns, hreqs, fun hlo hhi => writeWord_policy_value s off _ ⟨hlo, hhi⟩,
      fun hreg => ?_, fun hlo hhi => ?_⟩
    · obtain ⟨w, hw⟩ := writeWord_register_frame s off (v.toNat % 2 ^ 32) hreg
      exact ⟨by rw [hw]; rfl, by rw [hw], by rw [hw]; rfl, fun hplain hlink k hk => regBit_writeWord s off _ k hreg hk hplain hlink,
        fun hrw hw1c hpool hfrz hsec o => reg32_writeWord_readOnly s off _ o hreg hrw hw1c hpool hfrz hsec⟩
    · exact writeWord_fsbase_value s off _ ⟨hlo, hhi⟩ (Nat.mod_lt _ (by decide))
  · obtain ⟨hctl, hhead, hovf, herr, hbase⟩ := masks_queue s q hq
    exact ⟨hctl, hhead, hovf, herr, hbase, fun v => ⟨startedBy_queueControl s v hq rfl, startedBy_queueTail s v hq rfl⟩⟩

end
end

section
open Sys2Proof Sys2Proof.Machine

/-- Settles O5: the three branches of `step` in its order. -/
theorem stepRunsAgents : Obligations.StepRunsAgents := by
  unfold Obligations.StepRunsAgents
  refine ⟨fun s i h => ?_, fun s i rest h hi ha => ?_, fun s h hi ha => ?_⟩
  · simp only [step, h]
  · simp only [step, h, hi, ha]
  · simp only [step, h, hi, ha]

end

/-! ### What a well-kept state asks of its parts -/
namespace Sys2Proof.Machine
open Sys2Proof

theorem tabove_filter {α : Type} (p : Nat × α → Bool) (t : Tbl α) (k : Nat) (h : tabove k t) : tabove k (t.filter p) :=
  fun e he => h e (List.mem_of_mem_filter he)
theorem tsorted_filter {α : Type} (p : Nat × α → Bool) (t : Tbl α) (h : tsorted t = true) : tsorted (t.filter p) = true := by
  induction t with
  | nil => rfl
  | cons e t ih =>
    obtain ⟨j, w⟩ := e
    rw [tsorted_cons] at h
    by_cases hp : p (j, w) = true
    · rw [List.filter_cons_of_pos hp, tsorted_cons]
      exact ⟨ih h.1, tabove_filter p t j h.2⟩
    · rw [List.filter_cons_of_neg hp]
      exact ih h.1
/-- Changing what stands under the keys keeps their order. -/
theorem tsorted_map {α β : Type} (f : Nat × α → Nat × β) (hf : ∀ e, (f e).1 = e.1) (t : Tbl α) (h : tsorted t = true) :
    tsorted (t.map f) = true := by
  induction t with
  | nil => rfl
  | cons e t ih =>
    obtain ⟨j, w⟩ := e
    rw [tsorted_cons] at h
    have he : f (j, w) = (j, (f (j, w)).2) := Prod.ext (hf _) rfl
    rw [List.map_cons, he, tsorted_cons]
    refine ⟨ih h.1, fun x hx => ?_⟩
    obtain ⟨y, hy, rfl⟩ := List.mem_map.1 hx
    rw [hf]
    exact h.2 y hy
theorem tsorted_tmap {α β : Type} (f : Nat → α → β) (t : Tbl α) (h : tsorted t = true) : tsorted (tmap t f) = true :=
  tsorted_map (fun e => (e.1, f e.1 e.2)) (fun _ => rfl) t h
theorem tsorted_tupd {α : Type} (t : Tbl α) (k : Nat) (f : α → α) (h : tsorted t = true) : tsorted (tupd t k f) = true := by
  unfold tupd
  split
  · exact h
  · exact tsorted_tput _ _ _ h
theorem tsorted_foldl_tput {α β : Type} (key : β → Nat) (val : Tbl α → β → α) (l : List β) (t : Tbl α) (h : tsorted t = true) :
    tsorted (l.foldl (fun t x => tput t (key x) (val t x)) t) = true := by
  induction l generalizing t with
  | nil => exact h
  | cons x l ih => exact ih _ (tsorted_tput _ _ _ h)
theorem tsorted_foldl_tdel {α : Type} (l : List Nat) (t : Tbl α) (h : tsorted t = true) : tsorted (l.foldl tdel t) = true := by
  induction l generalizing t with
  | nil => exact h
  | cons x l ih => exact ih _ (tsorted_tdel _ _ h)
theorem mem_tupd {α : Type} (t : Tbl α) (k : Nat) (f : α → α) (e : Nat × α) (h : e ∈ tupd t k f) : e ∈ t ∨ ∃ v, (k, v) ∈ t ∧ e = (k, f v) := by
  unfold tupd at h
  split at h
  · exact .inl h
  · next v hv => exact (mem_tput _ _ _ _ h).elim (fun he => .inr ⟨v, tget_mem _ _ _ hv, he⟩) .inl

/-- A table whose entries all have a property. -/
def tall {α : Type} (P : α → Prop) (t : Tbl α) : Prop := ∀ e ∈ t, P e.2
theorem tall_nil {α : Type} (P : α → Prop) : tall P [] := fun _ h => nomatch h
theorem tall.tput {α : Type} {P : α → Prop} {t : Tbl α} (h : tall P t) {v : α} (hv : P v) (k : Nat) : tall P (tput t k v) :=
  fun e he => (mem_tput _ _ _ _ he).elim (fun h1 => h1 ▸ hv) (h e)
theorem tall.filter {α : Type} {P : α → Prop} {t : Tbl α} (h : tall P t) (p : Nat × α → Bool) : tall P (t.filter p) :=
  fun e he => h e (List.mem_of_mem_filter he)
theorem tall.tdel {α : Type} {P : α → Prop} {t : Tbl α} (h : tall P t) (k : Nat) : tall P (tdel t k) := h.filter _
theorem tall.tupd {α : Type} {P : α → Prop} {t : Tbl α} (h : tall P t) (k : Nat) {f : α → α} (hf : ∀ v, P v → P (f v)) : tall P (tupd t k f) :=
  fun e he => (mem_tupd _ _ _ _ he).elim (h e) fun ⟨v, hv, e'⟩ => e' ▸ hf v (h _ hv)
theorem tall.tmap {α β : Type} {P : α → Prop} {Q : β → Prop} {t : Tbl α} (h : tall P t) {f : Nat → α → β} (hf : ∀ k v, P v → Q (f k v)) :
    tall Q (tmap t f) := by
  intro e he
  obtain ⟨x, hx, rfl⟩ := List.mem_map.1 he
  exact hf _ _ (h x hx)
theorem tall.map {α β : Type} {P : α → Prop} {Q : β → Prop} {t : Tbl α} (h : tall P t) {f : Nat × α → Nat × β} (hf : ∀ e, P e.2 → Q (f e).2) :
    tall Q (t.map f) := by
  intro e he
  obtain ⟨x, hx, rfl⟩ := List.mem_map.1 he
  exact hf _ (h x hx)
theorem tall.get {α : Type} {P : α → Prop} {t : Tbl α} (h : tall P t) {k : Nat} {v : α} (hv : tget t k = some v) : P v := h _ (tget_mem _ _ _ hv)
theorem tall.getD {α : Type} {P : α → Prop} {t : Tbl α} (h : tall P t) (k : Nat) {d : α} (hd : P d) : P (tgetD t k d) := by
  unfold tgetD
  cases hv : tget t k with
  | none => exact hd
  | some v => exact h.get hv
theorem tall.foldl_tput {α β : Type} {P : α → Prop} {t : Tbl α} (h : tall P t) (key : β → Nat) (val : Tbl α → β → α) (l : List β)
    (hv : ∀ t, tall P t → ∀ x ∈ l, P (val t x)) : tall P (l.foldl (fun t x => Machine.tput t (key x) (val t x)) t) := by
  induction l generalizing t with
  | nil => exact h
  | cons x l ih => exact ih (h.tput (hv t h x (by simp)) _) fun t ht y hy => hv t ht y (by simp [hy])

/-- The registers of a thread stand in order. -/
def RegsKept (th : Thread) : Prop := tsorted th.regs = true
theorem RegsKept.fresh : RegsKept {} := rfl
/-- The tables of a core stand in order, and the registers of its threads. -/
structure CoreKept (c : Core) : Prop where
  threads : tsorted c.threads = true
  regs : tall RegsKept c.threads
  plots : tsorted c.plots = true
  frags : tsorted c.frags = true
  sheaves : tsorted c.sheaves = true
  l1 : tsorted c.l1 = true
/-- A scratchpad stands in canonical form. -/
def ClusterKept (k : Cluster) : Prop := memWf k.scratch = true
/-- A request was made by a drill whose number is below n. -/
def ReqKept (n : Nat) (r : Req) : Prop := (∀ q, r = .atomic q → q.drill < n) ∧ (∀ q, r = .ldsp q → q.drill < n) ∧ ∀ q, r = .stn q → q.drill < n
/-- Requests stand in order, under numbers below n, of drills below n. -/
structure ReqsKept (n : Nat) (t : Tbl Req) : Prop where
  sorted : tsorted t = true
  ids : ∀ e ∈ t, e.1 < n
  drills : tall (ReqKept n) t
/-- The threads of a saved part have their registers in order. -/
def PartKept (p : SavedPart) : Prop := tall RegsKept p.threads

/-- The fields of the state of which `WellKept` speaks. -/
structure Kern where
  mem : List Host.Cell
  reqs : Tbl Req
  nextId : Nat
  l2 : Tbl Line
  cores : Tbl Core
  clusters : Tbl Cluster
  saved : Tbl SavedPart
def kern (s : State) : Kern := ⟨s.mem, s.reqs, s.nextId, s.l2, s.cores, s.clusters, s.savedParts⟩

theorem wellKept_iff (s : State) : WellKept s ↔ memWf s.mem = true ∧ ReqsKept s.nextId s.reqs ∧ tsorted s.l2 = true ∧
    (tsorted s.cores = true ∧ tall CoreKept s.cores) ∧ (tsorted s.clusters = true ∧ tall ClusterKept s.clusters) ∧ tall PartKept s.savedParts := by
  constructor
  · intro h
    exact ⟨h.mem, ⟨h.reqs, h.ids, h.drills⟩, h.l2,
      ⟨h.cores, fun c hc => ⟨(h.core c hc).1, h.regs c hc, (h.core c hc).2.1, (h.core c hc).2.2.1, (h.core c hc).2.2.2.1, (h.core c hc).2.2.2.2⟩⟩,
      ⟨h.clusters, h.scratch⟩, h.saved⟩
  · rintro ⟨hm, hr, hl, ⟨hc, hcs⟩, ⟨hk, hks⟩, hp⟩
    exact { mem := hm, reqs := hr.sorted, ids := hr.ids, l2 := hl, cores := hc, clusters := hk
            core := fun c h => ⟨(hcs c h).threads, (hcs c h).plots, (hcs c h).frags, (hcs c h).sheaves, (hcs c h).l1⟩
            regs := fun c h => (hcs c h).regs, scratch := hks, drills := hr.drills, saved := hp }
/-- A well-kept state whose next number is lo or more. -/
structure Kept (lo : Nat) (s : State) : Prop where
  well : WellKept s
  next : lo ≤ s.nextId
theorem Kept.mem {lo : Nat} {s : State} (h : Kept lo s) : memWf s.mem = true := h.well.mem
theorem Kept.cores {lo : Nat} {s : State} (h : Kept lo s) : tsorted s.cores = true := h.well.cores
theorem Kept.clusters {lo : Nat} {s : State} (h : Kept lo s) : tsorted s.clusters = true := h.well.clusters
theorem Kept.l2 {lo : Nat} {s : State} (h : Kept lo s) : tsorted s.l2 = true := h.well.l2
theorem Kept.saved {lo : Nat} {s : State} (h : Kept lo s) : tall PartKept s.savedParts := h.well.saved
theorem Kept.reqsKept {lo : Nat} {s : State} (h : Kept lo s) : ReqsKept s.nextId s.reqs := ((wellKept_iff s).1 h.well).2.1
theorem Kept.coresKept {lo : Nat} {s : State} (h : Kept lo s) : tall CoreKept s.cores := ((wellKept_iff s).1 h.well).2.2.2.1.2
/-- A state that shares these fields with a well-kept one. -/
theorem Kept.same {lo : Nat} {s s' : State} (h : Kept lo s) (e : kern s' = kern s) : Kept lo s' := by
  simp only [kern, Kern.mk.injEq] at e
  obtain ⟨h1, h2, h3, h4, h5, h6, h7⟩ := e
  have hw := h.well
  refine ⟨?_, h3 ▸ h.next⟩
  rw [wellKept_iff] at hw ⊢
  rwa [h1, h2, h3, h4, h5, h6, h7]

/-! ### Threads and cores of a well-kept state -/

theorem CoreKept.fresh (n : Nat) : CoreKept { cyc := n } := ⟨rfl, tall_nil _, rfl, rfl, rfl, rfl⟩
theorem Kept.get {lo : Nat} {s : State} (h : Kept lo s) (ci : Nat) : CoreKept (getCore s ci) := h.coresKept.getD ci (.fresh _)
theorem Kept.thread {lo : Nat} {s : State} (h : Kept lo s) {ci t : Nat} {th : Thread} (ht : getThread s ci t = some th) : RegsKept th := (h.get ci).regs.get ht
theorem Kept.setCores {lo : Nat} {s : State} (h : Kept lo s) {t : Tbl Core} (hs : tsorted t = true) (ht : tall CoreKept t) : Kept lo { s with cores := t } := by
  have hw := (wellKept_iff s).1 h.well
  exact ⟨(wellKept_iff _).2 ⟨hw.1, hw.2.1, hw.2.2.1, ⟨hs, ht⟩, hw.2.2.2.2⟩, h.next⟩
theorem Kept.putCore {lo : Nat} {s : State} (h : Kept lo s) {c : Core} (hc : CoreKept c) (ci : Nat) : Kept lo (putCore s ci c) :=
  h.setCores (tsorted_tput _ _ _ h.cores) (h.coresKept.tput hc ci)
theorem Kept.updCore {lo : Nat} {s : State} (h : Kept lo s) {ci : Nat} {f : Core → Core} (hf : ∀ c, CoreKept c → CoreKept (f c)) : Kept lo (updCore s ci f) :=
  h.putCore (hf _ (h.get ci)) ci
theorem Kept.mapCores {lo : Nat} {s : State} (h : Kept lo s) {f : Nat → Core → Core} (hf : ∀ k c, CoreKept c → CoreKept (f k c)) :
    Kept lo { s with cores := tmap s.cores f } := h.setCores (tsorted_tmap _ _ h.cores) (h.coresKept.tmap hf)
theorem Kept.setMem {lo : Nat} {s : State} (h : Kept lo s) {m : List Host.Cell} (hm : memWf m = true) : Kept lo { s with mem := m } := by
  have hw := (wellKept_iff s).1 h.well
  exact ⟨(wellKept_iff _).2 ⟨hm, hw.2⟩, h.next⟩
theorem Kept.setL2 {lo : Nat} {s : State} (h : Kept lo s) {t : Tbl Line} (ht : tsorted t = true) : Kept lo { s with l2 := t } := by
  have hw := (wellKept_iff s).1 h.well
  exact ⟨(wellKept_iff _).2 ⟨hw.1, hw.2.1, ht, hw.2.2.2⟩, h.next⟩
theorem Kept.setReqs {lo : Nat} {s : State} (h : Kept lo s) {t : Tbl Req} (ht : ReqsKept s.nextId t) : Kept lo { s with reqs := t } := by
  have hw := (wellKept_iff s).1 h.well
  exact ⟨(wellKept_iff _).2 ⟨hw.1, ht, hw.2.2⟩, h.next⟩
theorem Kept.setClusters {lo : Nat} {s : State} (h : Kept lo s) {t : Tbl Cluster} (hs : tsorted t = true) (ht : tall ClusterKept t) :
    Kept lo { s with clusters := t } := by
  have hw := (wellKept_iff s).1 h.well
  exact ⟨(wellKept_iff _).2 ⟨hw.1, hw.2.1, hw.2.2.1, hw.2.2.2.1, ⟨hs, ht⟩, hw.2.2.2.2.2⟩, h.next⟩
theorem Kept.setSaved {lo : Nat} {s : State} (h : Kept lo s) {t : Tbl SavedPart} (ht : tall PartKept t) : Kept lo { s with savedParts := t } := by
  have hw := (wellKept_iff s).1 h.well
  exact ⟨(wellKept_iff _).2 ⟨hw.1, hw.2.1, hw.2.2.1, hw.2.2.2.1, hw.2.2.2.2.1, ht⟩, h.next⟩
theorem Kept.clustersKept {lo : Nat} {s : State} (h : Kept lo s) : tall ClusterKept s.clusters := ((wellKept_iff s).1 h.well).2.2.2.2.1.2
theorem Kept.cluster {lo : Nat} {s : State} (h : Kept lo s) (k : Nat) : ClusterKept (getCluster s k) := h.clustersKept.getD k rfl
theorem Kept.updCluster {lo : Nat} {s : State} (h : Kept lo s) {k : Nat} {f : Cluster → Cluster} (hf : ∀ c, ClusterKept c → ClusterKept (f c)) :
    Kept lo (updCluster s k f) :=
  h.setClusters (tsorted_tput _ _ _ h.clusters) (h.clustersKept.tput (hf _ (h.cluster k)) k)
/-- Greater numbers are free for requests. -/
theorem ReqKept.mono {n m : Nat} {r : Req} (h : ReqKept n r) (hnm : n ≤ m) : ReqKept m r :=
  ⟨fun q e => Nat.lt_of_lt_of_le (h.1 q e) hnm, fun q e => Nat.lt_of_lt_of_le (h.2.1 q e) hnm, fun q e => Nat.lt_of_lt_of_le (h.2.2 q e) hnm⟩
theorem ReqsKept.mono {n m : Nat} {t : Tbl Req} (h : ReqsKept n t) (hnm : n ≤ m) : ReqsKept m t :=
  ⟨h.sorted, fun e he => Nat.lt_of_lt_of_le (h.ids e he) hnm, fun e he => (h.drills e he).mono hnm⟩
theorem Kept.setNextId {lo : Nat} {s : State} (h : Kept lo s) {n : Nat} (hn : s.nextId ≤ n) : Kept lo { s with nextId := n } := by
  have hw := (wellKept_iff s).1 h.well
  exact ⟨(wellKept_iff _).2 ⟨hw.1, h.reqsKept.mono hn, hw.2.2⟩, Nat.le_trans h.next hn⟩
theorem ReqsKept.tput {n : Nat} {t : Tbl Req} (h : ReqsKept n t) {id : Nat} {r : Req} (hid : id < n) (hr : ReqKept n r) : ReqsKept n (tput t id r) :=
  ⟨tsorted_tput _ _ _ h.sorted, fun e he => (mem_tput _ _ _ _ he).elim (fun e' => e' ▸ hid) (h.ids e), h.drills.tput hr id⟩
theorem ReqsKept.tdel {n : Nat} {t : Tbl Req} (h : ReqsKept n t) (id : Nat) : ReqsKept n (tdel t id) :=
  ⟨tsorted_tdel _ _ h.sorted, fun e he => h.ids e (List.mem_of_mem_filter he), h.drills.tdel id⟩
theorem ReqsKept.tmap {n : Nat} {t : Tbl Req} (h : ReqsKept n t) {f : Nat → Req → Req} (hf : ∀ k r, ReqKept n r → ReqKept n (f k r)) :
    ReqsKept n (tmap t f) := by
  refine ⟨tsorted_tmap _ _ h.sorted, fun e he => ?_, h.drills.tmap hf⟩
  obtain ⟨x, hx, rfl⟩ := List.mem_map.1 he
  exact h.ids x hx
theorem ReqsKept.lt {n : Nat} {t : Tbl Req} (h : ReqsKept n t) {id : Nat} {r : Req} (hr : tget t id = some r) : id < n := h.ids _ (tget_mem _ _ _ hr)

/-- Folding an operation that keeps the state. -/
theorem Kept.foldl {lo : Nat} {α : Type} {f : State → α → State} (hf : ∀ s x, Kept lo s → Kept lo (f s x)) (l : List α) {s : State} (h : Kept lo s) :
    Kept lo (l.foldl f s) := by
  induction l generalizing s with
  | nil => exact h
  | cons x l ih => exact ih (hf s x h)
theorem Kept.foldr {lo : Nat} {α : Type} {f : α → State → State} (hf : ∀ s x, Kept lo s → Kept lo (f x s)) (l : List α) {s : State} (h : Kept lo s) :
    Kept lo (l.foldr f s) := by
  induction l with
  | nil => exact h
  | cons x l ih => exact hf _ x ih
theorem Kept.ite {lo : Nat} {p : Prop} [Decidable p] {a b : State} (ha : Kept lo a) (hb : Kept lo b) : Kept lo (if p then a else b) := by
  split <;> assumption

/-- A request under a number below the next, of a drill of such a number. -/
theorem Kept.putReq {lo : Nat} {s : State} (h : Kept lo s) {id : Nat} {r : Req} (hid : id < s.nextId) (hr : ReqKept s.nextId r) :
    Kept lo { s with reqs := tput s.reqs id r } := h.setReqs (h.reqsKept.tput hid hr)
theorem Kept.delReq {lo : Nat} {s : State} (h : Kept lo s) {id : Nat} : Kept lo { s with reqs := tdel s.reqs id } := h.setReqs (h.reqsKept.tdel id)
theorem Kept.mapReqs {lo : Nat} {s : State} (h : Kept lo s) {f : Nat → Req → Req} (hf : ∀ k n r, ReqKept n r → ReqKept n (f k r)) :
    Kept lo { s with reqs := tmap s.reqs f } := h.setReqs (h.reqsKept.tmap fun k r => hf k _ r)
theorem ReqKept.load {n : Nat} {o : LoadOp} : ReqKept n (.load o) := ⟨nofun, nofun, nofun⟩
theorem ReqKept.wback {n : Nat} {o : WBack} : ReqKept n (.wback o) := ⟨nofun, nofun, nofun⟩
theorem ReqKept.atomic {n : Nat} {o : AtomOp} : ReqKept n (.atomic o) ↔ o.drill < n := ⟨fun h => h.1 o rfl, fun h => ⟨fun _ e => by cases e; exact h, nofun, nofun⟩⟩
theorem ReqKept.ldsp {n : Nat} {o : LdspReq} : ReqKept n (.ldsp o) ↔ o.drill < n := ⟨fun h => h.2.1 o rfl, fun h => ⟨nofun, fun _ e => by cases e; exact h, nofun⟩⟩
theorem ReqKept.stn {n : Nat} {o : StnReq} : ReqKept n (.stn o) ↔ o.drill < n := ⟨fun h => h.2.2 o rfl, fun h => ⟨nofun, nofun, fun _ e => by cases e; exact h⟩⟩

theorem CoreKept.setThreads {c : Core} (h : CoreKept c) {t : Tbl Thread} (hs : tsorted t = true) (ht : tall RegsKept t) : CoreKept { c with threads := t } :=
  { h with threads := hs, regs := ht }
theorem CoreKept.mapThreads {c : Core} (h : CoreKept c) {f : Nat → Thread → Thread} (hf : ∀ t th, RegsKept th → RegsKept (f t th)) :
    CoreKept { c with threads := tmap c.threads f } := h.setThreads (tsorted_tmap _ _ h.threads) (h.regs.tmap hf)
theorem CoreKept.putThread {c : Core} (h : CoreKept c) {th : Thread} (ht : RegsKept th) (t : Nat) : CoreKept { c with threads := tput c.threads t th } :=
  h.setThreads (tsorted_tput _ _ _ h.threads) (h.regs.tput ht t)
theorem CoreKept.updThread {c : Core} (h : CoreKept c) {t : Nat} {f : Thread → Thread} (hf : ∀ th, RegsKept th → RegsKept (f th)) :
    CoreKept (updThreadC c t f) := h.setThreads (tsorted_tupd _ _ _ h.threads) (h.regs.tupd t hf)
theorem CoreKept.filterThreads {c : Core} (h : CoreKept c) (p : Nat × Thread → Bool) : CoreKept { c with threads := c.threads.filter p } :=
  h.setThreads (tsorted_filter _ _ h.threads) (h.regs.filter p)
theorem Kept.updThread {lo : Nat} {s : State} (h : Kept lo s) {ci t : Nat} {f : Thread → Thread} (hf : ∀ th, RegsKept th → RegsKept (f th)) :
    Kept lo (updThread s ci t f) := h.updCore fun _ hc => hc.updThread hf
theorem Kept.updThreads {lo : Nat} {s : State} (h : Kept lo s) {ci : Nat} {l : List Nat} {f : Thread → Thread} (hf : ∀ th, RegsKept th → RegsKept (f th)) :
    Kept lo (updThreads s ci l f) := h.updCore fun _ hc => hc.mapThreads fun t th ht => by
  split
  · exact hf th ht
  · exact ht
theorem Kept.updThreads' {lo : Nat} {s : State} (h : Kept lo s) {ci : Nat} {l : List Nat} {f : Nat → Thread → Thread} (hf : ∀ t th, RegsKept th → RegsKept (f t th)) :
    Kept lo (updThreads' s ci l f) := h.updCore fun _ hc => hc.mapThreads fun t th ht => by
  split
  · exact hf t th ht
  · exact ht
theorem Kept.updPlot {lo : Nat} {s : State} (h : Kept lo s) {ci pi : Nat} {f : Plot → Plot} : Kept lo (updPlot s ci pi f) :=
  h.updCore fun _ hc => { hc with plots := tsorted_tupd _ _ _ hc.plots }
end Sys2Proof.Machine

/-! ### The named operations keep the state well-kept -/
namespace Sys2Proof.Machine
open Sys2Proof

theorem Kept.freshId {lo : Nat} {s : State} (h : Kept lo s) : Kept lo (freshId s).2 := h.setNextId (Nat.le_succ _)
theorem Kept.freeVal {lo : Nat} {s : State} (h : Kept lo s) : Kept lo (freeVal s).2 := h.same rfl
theorem Kept.physWrite {lo : Nat} {s : State} (h : Kept lo s) {a : Nat} {l : List Byte} : Kept lo (physWrite s a l) := h.setMem (memWrite_wf _ _ _ h.mem)
theorem Kept.setReg32 {lo : Nat} {s : State} (h : Kept lo s) {o : Nat} {v : Word} : Kept lo (setReg32 s o v) := h.same rfl
theorem Kept.setReg64 {lo : Nat} {s : State} (h : Kept lo s) {o v : Nat} : Kept lo (setReg64 s o v) := h.same rfl
theorem Kept.setRegN {lo : Nat} {s : State} (h : Kept lo s) {o v : Nat} : Kept lo (setRegN s o v) := h.same rfl
theorem Kept.setRegBit {lo : Nat} {s : State} (h : Kept lo s) {o i : Nat} {b : Bool} : Kept lo (setRegBit s o i b) := h.same rfl
theorem Kept.rekeyLine {lo : Nat} {s : State} (h : Kept lo s) {key line : Nat} : Kept lo (rekeyLine s key line) := by
  unfold Machine.rekeyLine
  exact .ite h (Kept.same (h.setMem (memWrite_wf _ _ _ h.mem)) rfl)
theorem Kept.keyedWrite {lo : Nat} {s : State} (h : Kept lo s) {key pa : Nat} {l : List Byte} : Kept lo (keyedWrite s key pa l) :=
  (Kept.foldl (fun _ _ hs => hs.rekeyLine) _ h).physWrite
theorem Kept.fallowPut {lo : Nat} {s : State} (h : Kept lo s) {a : Nat} {w : Word} : Kept lo (fallowPut s a w) := h.keyedWrite
theorem Kept.queuePacket {lo : Nat} {s : State} (h : Kept lo s) {p : Packet} : Kept lo (queuePacket s p) := h.same rfl
theorem Kept.countDrop {lo : Nat} {s : State} (h : Kept lo s) {k : Nat} : Kept lo (countDrop s k) := by
  unfold Machine.countDrop
  exact .ite h h.setReg32
theorem Kept.emitRec {lo : Nat} {s : State} (h : Kept lo s) {r : Rec} : Kept lo (emitRec s r) := by
  unfold Machine.emitRec
  exact .ite h.countDrop (h.same rfl)
theorem Kept.emitR {lo : Nat} {s : State} (h : Kept lo s) {u : Word} {t : Nat} {c : DWord} {p f : Nat} : Kept lo (emitR s u t c p f) := h.emitRec
theorem Kept.ringWrite {lo : Nat} {s : State} (h : Kept lo s) {q k : Nat} {t : Word} {d n : Nat} : Kept lo (ringWrite s q k t d n) := h.physWrite.setReg32
theorem Kept.setOverflowed {lo : Nat} {s : State} (h : Kept lo s) {b : Bool} : Kept lo { s with overflowed := b } := h.same rfl
theorem Kept.ringPost {lo : Nat} {s : State} (h : Kept lo s) {q k : Nat} {t : Word} {d : Nat} : Kept lo (ringPost s q k t d) := by
  unfold Machine.ringPost
  have hc : ∀ o v, Kept lo (if q = 0xFFFF then Machine.countDrop s 5 else Machine.setReg32 s o v) := fun o v => .ite h.countDrop h.setReg32
  exact .ite h (.ite h.ringWrite (.ite (hc _ _) (Kept.ite (hc _ _).ringWrite (hc _ _)).setOverflowed))
theorem Kept.queueError {lo : Nat} {s : State} (h : Kept lo s) {q b : Nat} : Kept lo (queueError s q b) := h.setRegBit.ringPost

/-! ### Faults -/

theorem Kept.setFrozen {lo : Nat} {s : State} (h : Kept lo s) {l : List Frozen} : Kept lo { s with frozen := l } := h.same rfl
theorem Kept.freezePlot {lo : Nat} {s : State} (h : Kept lo s) {ci pi g : Nat} : Kept lo (freezePlot s ci pi g) := by
  unfold Machine.freezePlot
  split
  · exact h
  · extract_lets s1 s2 s3
    have h1 : Kept lo s1 := h.updPlot
    have h2 : Kept lo s2 := .ite h1.setFrozen h1.countDrop
    exact .ite h h2.ringPost.emitR
theorem CoreKept.putFrag {c : Core} (h : CoreKept c) {e : Nat} {f : Frag} : CoreKept { c with frags := tput c.frags e f } :=
  { h with frags := tsorted_tput _ _ _ h.frags }
theorem Kept.fragPending {lo : Nat} {s : State} (h : Kept lo s) {ci e : Nat} : Kept lo (fragPending s ci e) := by
  unfold Machine.fragPending
  extract_lets c
  split
  · exact h
  · have hp := fun f => h.putCore ((h.get ci).putFrag (e := e) (f := f)) ci
    exact .ite (hp _).freezePlot (hp _)
theorem Kept.showCause {lo : Nat} {s : State} (h : Kept lo s) {ci e : Nat} : Kept lo (showCause s ci e) := by
  unfold Machine.showCause
  split
  · exact h
  · exact h.updThreads' fun _ _ ht => ht
theorem Kept.joinPending {lo : Nat} {s : State} (h : Kept lo s) {ci p g : Nat} {m : List Nat} : Kept lo (joinPending s ci p g m) := .ite h.freezePlot h
theorem Kept.setFwEvents {lo : Nat} {s : State} (h : Kept lo s) {l : List FwEvent} : Kept lo { s with fwEvents := l } := h.same rfl
theorem Kept.reportFull {lo : Nat} {s : State} (h : Kept lo s) {ci : Nat} : Kept lo (reportFull s ci) := h.setFwEvents
theorem Kept.askService {lo : Nat} {s : State} (h : Kept lo s) {ci e : Nat} : Kept lo (askService s ci e) := by
  unfold Machine.askService
  extract_lets c
  split
  · exact h
  · exact (h.putCore (h.get ci).putFrag ci).setFwEvents
theorem Kept.parkGroup {lo : Nat} {s : State} (h : Kept lo s) {ci : Nat} {l : List (Nat × FaultRec)} : Kept lo (parkGroup s ci l) := by
  unfold Machine.parkGroup
  split
  · exact h
  · extract_lets c plot mem det free e old gen joins svc frag c1 s1 s2 s3
    have hc : CoreKept c1 := { ((h.get ci).putFrag (e := e) (f := frag)).mapThreads
      (f := fun t th => if mem.contains t then { th with st := .parked e } else th) (fun t th ht => by split <;> exact ht) with }
    have h1 : Kept lo s1 := h.putCore hc ci
    have h2 : Kept lo s2 := .ite h1 h1.emitR
    have h3 : Kept lo s3 := .ite h2.reportFull h2
    exact .ite h3.askService (.ite h3.showCause.joinPending h3.showCause.fragPending)
theorem Kept.placeEngine {lo : Nat} {s : State} (h : Kept lo s) {ci e : Nat} {fr : Frag} : Kept lo (placeEngine s ci e fr) := by
  unfold Machine.placeEngine
  extract_lets c gen s1 s2
  have h1 : Kept lo s1 := h.putCore (by exact { (h.get ci).putFrag (e := e) (f := { fr with gen := gen }) with }) ci
  have h2 : Kept lo s2 := h1.emitR
  exact .ite h2.setFwEvents h2.fragPending
theorem Kept.freeFrag {lo : Nat} {s : State} (h : Kept lo s) {ci e : Nat} : Kept lo (freeFrag s ci e) := by
  unfold Machine.freeFrag
  extract_lets c c1
  have hc : CoreKept c1 := { h.get ci with frags := tsorted_tdel _ _ (h.get ci).frags }
  split
  · exact h.putCore hc ci
  · exact .ite (h.putCore hc ci) (h.putCore (by exact { hc with }) ci).placeEngine
theorem Kept.freePlotFrags {lo : Nat} {s : State} (h : Kept lo s) {ci pi : Nat} : Kept lo (freePlotFrags s ci pi) := by
  unfold Machine.freePlotFrags
  extract_lets s1
  have h1 : Kept lo s1 := h.updCore fun _ hc => { hc with }
  exact .foldl (fun _ _ hs => hs.freeFrag) _ h1
theorem Kept.stepLeft {lo : Nat} {s : State} (h : Kept lo s) {ci e : Nat} : Kept lo (stepLeft s ci e) := by
  unfold Machine.stepLeft
  extract_lets c
  split
  · exact h
  · exact .ite h.freeFrag (.ite (.ite h.askService h.fragPending) h)
theorem Kept.stepFault {lo : Nat} {s : State} (h : Kept lo s) {ci t : Nat} {f : FaultRec} : Kept lo (stepFault s ci t f) := by
  unfold Machine.stepFault
  extract_lets c
  split
  · exact h
  · refine (h.putCore (CoreKept.updThread ?_ ?_) ci).stepLeft
    · exact { h.get ci with frags := tsorted_tupd _ _ _ (h.get ci).frags }
    · exact fun _ ht => ht
theorem Kept.takeFaults {lo : Nat} {s : State} (h : Kept lo s) {ci : Nat} {l : List (Nat × FaultRec)} : Kept lo (takeFaults s ci l) :=
  Kept.foldl (fun _ _ hs => hs.parkGroup) _ (Kept.foldr (fun _ _ hs => hs.stepFault) _ h)
theorem makeReady_kept {c : Core} {n : Nat} {th : Thread} (h : RegsKept th) : RegsKept (makeReady c n th) := h
theorem Kept.resumeThreads {lo : Nat} {s : State} (h : Kept lo s) {ci e : Nat} : Kept lo (resumeThreads s ci e) := by
  unfold Machine.resumeThreads
  extract_lets c
  split
  · exact h
  · refine (h.updThreads fun th ht => ?_).freeFrag
    split
    · exact makeReady_kept ht
    · split <;> exact ht
theorem Kept.admitFrag {lo : Nat} {s : State} (h : Kept lo s) {ci : Nat} {fr : Frag} : Kept lo (admitFrag s ci fr) := by
  unfold Machine.admitFrag
  extract_lets c
  split
  · exact (h.putCore (by exact { h.get ci with }) ci).reportFull
  · exact h.placeEngine
theorem Kept.engineFrag {lo : Nat} {s : State} (h : Kept lo s) {ci pi kind unit : Nat} {f : FaultRec} {page : Nat} {wr svc : Bool} :
    Kept lo (engineFrag s ci pi kind unit f page wr svc) := (h.putCore (by exact { h.get ci with }) ci).admitFrag
theorem Kept.stepDone {lo : Nat} {s : State} (h : Kept lo s) {ci t : Nat} : Kept lo (stepDone s ci t) := by
  unfold Machine.stepDone
  extract_lets c
  split
  · exact h
  · next th hth =>
    split
    · exact h
    · split
      · exact h
      · extract_lets db left d1 f1 th1 s1
        have h1 : Kept lo s1 := h.putCore { ((h.get ci).putThread (th := th1) ((h.get ci).regs.get hth :) t).putFrag with } ci
        exact .ite h1.fragPending h1
theorem RegsKept.filter {th : Thread} (h : RegsKept th) (p : Nat × RegCell → Bool) : RegsKept { th with regs := th.regs.filter p } := tsorted_filter _ _ h
theorem Kept.wakeThread {lo : Nat} {s : State} (h : Kept lo s) {ci t n : Nat} : Kept lo (wakeThread s ci t n) := by
  unfold Machine.wakeThread
  extract_lets c
  split
  · exact h
  · next th hth =>
    extract_lets th1
    have ht : RegsKept th1 := RegsKept.filter ((h.get ci).regs.get hth) _
    exact (h.putCore ((h.get ci).putThread (makeReady_kept ht) t) ci).stepDone
theorem Kept.retryThread {lo : Nat} {s : State} (h : Kept lo s) {ci t : Nat} : Kept lo (retryThread s ci t) := h.updThread fun _ ht => makeReady_kept ht
theorem Kept.faultThread {lo : Nat} {s : State} (h : Kept lo s) {ci t : Nat} {f : FaultRec} : Kept lo (faultThread s ci t f) := h.takeFaults
end Sys2Proof.Machine

/-! ### Banks, tags and drills keep the state well-kept -/
namespace Sys2Proof.Machine
open Sys2Proof

theorem RegsKept.tput {th : Thread} (h : RegsKept th) {r : Nat} {c : RegCell} : RegsKept { th with regs := tput th.regs r c } := tsorted_tput _ _ _ h
theorem RegsKept.tupd {th : Thread} (h : RegsKept th) {r : Nat} {f : RegCell → RegCell} : RegsKept { th with regs := tupd th.regs r f } := tsorted_tupd _ _ _ h
theorem RegsKept.tmap {th : Thread} (h : RegsKept th) {f : Nat → RegCell → RegCell} : RegsKept { th with regs := tmap th.regs f } := tsorted_tmap _ _ h
theorem RegsKept.map {th : Thread} (h : RegsKept th) {f : Nat × RegCell → Nat × RegCell} (hf : ∀ e, (f e).1 = e.1) :
    RegsKept { th with regs := th.regs.map f } := tsorted_map _ hf _ h
theorem RegsKept.ite {p : Prop} [Decidable p] {a b : Thread} (ha : RegsKept a) (hb : RegsKept b) : RegsKept (if p then a else b) := by
  split <;> assumption
theorem RegsKept.foldl {α : Type} {f : Thread → α → Thread} (hf : ∀ th x, RegsKept th → RegsKept (f th x)) (l : List α) {th : Thread}
    (h : RegsKept th) : RegsKept (l.foldl f th) := by
  induction l generalizing th with
  | nil => exact h
  | cons x l ih => exact ih (hf th x h)
theorem CoreKept.foldl {α : Type} {f : Core → α → Core} (hf : ∀ c x, CoreKept c → CoreKept (f c x)) (l : List α) {c : Core}
    (h : CoreKept c) : CoreKept (l.foldl f c) := by
  induction l generalizing c with
  | nil => exact h
  | cons x l ih => exact ih (hf c x h)
theorem CoreKept.ite {p : Prop} [Decidable p] {a b : Core} (ha : CoreKept a) (hb : CoreKept b) : CoreKept (if p then a else b) := by
  split <;> assumption
/-- A core of the same tables. -/
structure SameTables (c c' : Core) : Prop where
  threads : c'.threads = c.threads
  plots : c'.plots = c.plots
  frags : c'.frags = c.frags
  sheaves : c'.sheaves = c.sheaves
  l1 : c'.l1 = c.l1
theorem CoreKept.same {c c' : Core} (h : CoreKept c) (e : SameTables c c') : CoreKept c' :=
  ⟨e.threads ▸ h.threads, e.threads ▸ h.regs, e.plots ▸ h.plots, e.frags ▸ h.frags, e.sheaves ▸ h.sheaves, e.l1 ▸ h.l1⟩

theorem RegsKept.setTag {th : Thread} (h : RegsKept th) {r : Nat} {t : Tag} {u : Bool} : RegsKept (setTag th r t u) := h.tupd
theorem CoreKept.retag {c : Core} (h : CoreKept c) {u : Bool} {w : List Nat} {r : Nat} : CoreKept (retag u w c r) :=
  CoreKept.foldl (fun _ _ hc => hc.mapThreads fun _ _ ht => .ite ht.setTag ht) _ (h.mapThreads fun _ _ ht => .ite ht.setTag ht)
theorem CoreKept.retagGeneral {c : Core} (h : CoreKept c) {w : List Nat} {r : Nat} : CoreKept (retagGeneral w c r) :=
  h.mapThreads fun _ _ ht => .ite ht.setTag ht
theorem Kept.setFree {lo : Nat} {s : State} (h : Kept lo s) {n : Nat} : Kept lo { s with free := n } := h.same rfl
theorem Kept.hardError {lo : Nat} {s : State} (h : Kept lo s) {ci : Nat} {plots who : List Nat} : Kept lo (hardError s ci plots who) := by
  unfold Machine.hardError
  extract_lets f c role hit who l s1 s2
  have h1 : Kept lo s1 := h.emitR
  have h2 : Kept lo s2 := h1.setFree.takeFaults
  exact .foldl (fun _ _ hs => hs.freezePlot) _ h2
theorem Kept.coreError {lo : Nat} {s : State} (h : Kept lo s) {ci : Nat} {who : List Nat} : Kept lo (coreError s ci who) := h.hardError
theorem Kept.evictLane {lo : Nat} {s : State} (h : Kept lo s) {ci t r : Nat} : Kept lo (evictLane s ci t r) := by
  unfold Machine.evictLane
  extract_lets c
  split
  · exact (h.putCore ((h.get ci).updThread fun _ ht => ht.tupd) ci).fallowPut
  · exact h.coreError
theorem Kept.evictUni {lo : Nat} {s : State} (h : Kept lo s) {ci k r : Nat} : Kept lo (evictUni s ci k r) := by
  unfold Machine.evictUni
  extract_lets c c1
  split
  · extract_lets x w
    have hc : CoreKept c1 := (h.get ci).mapThreads fun _ _ ht => .ite ht.tupd ht
    exact (h.putCore hc ci).fallowPut.fallowPut
  · exact h.coreError
theorem Kept.settleLane {lo : Nat} {ci lane : Nat} {keep : Nat → List Nat} {fresh : Nat → Nat} {n : Nat} {s : State} (h : Kept lo s) :
    Kept lo (settleLane ci lane keep fresh n s).1 := by
  induction n generalizing s with
  | zero => exact h
  | succ n ih =>
    unfold Machine.settleLane
    extract_lets c
    split
    · exact h
    · split
      · exact h
      · split
        · exact h.evictLane
        · exact ih h.evictLane
theorem Kept.settleUni {lo : Nat} {ci slot : Nat} {keep : Nat → List Nat} {n : Nat} {s : State} (h : Kept lo s) :
    Kept lo (settleUni ci slot keep n s).1 := by
  induction n generalizing s with
  | zero => exact h
  | succ n ih =>
    unfold Machine.settleUni
    extract_lets c
    split
    · exact h
    · split
      · exact h
      · split
        · exact h.evictUni
        · exact ih h.evictUni
/-- Folding an operation that carries a result beside the state. -/
theorem Kept.foldlFst {lo : Nat} {α β : Type} {f : State × β → α → State × β} (hf : ∀ a x, Kept lo a.1 → Kept lo (f a x).1) (l : List α)
    {a : State × β} (h : Kept lo a.1) : Kept lo (l.foldl f a).1 := by
  induction l generalizing a with
  | nil => exact h
  | cons x l ih => exact ih (hf a x h)
theorem Kept.foldlSnd {lo : Nat} {α β : Type} {f : β × State → α → β × State} (hf : ∀ a x, Kept lo a.2 → Kept lo (f a x).2) (l : List α)
    {a : β × State} (h : Kept lo a.2) : Kept lo (l.foldl f a).2 := by
  induction l generalizing a with
  | nil => exact h
  | cons x l ih => exact ih (hf a x h)
theorem Kept.settleBanks {lo : Nat} {old : Core} {s : State} (h : Kept lo s) {ci : Nat} {tids : List Nat} {keep : Nat → List Nat} {n : Nat} :
    Kept lo (settleBanks old s ci tids keep n).1 := by
  unfold Machine.settleBanks
  extract_lets lanes slots fresh a
  have ha : Kept lo a.1 := by
    refine Kept.foldlFst (fun _ _ hs => ?_) _ h
    exact hs.settleLane
  refine Kept.foldlFst (fun _ _ hs => ?_) _ ha
  exact hs.settleUni
theorem Kept.lateWrites {lo : Nat} {s : State} (h : Kept lo s) {ci ev : Nat} {tids regs : List Nat} : Kept lo (lateWrites s ci ev tids regs) :=
  .ite h (h.updThreads fun _ ht => ht.map fun _ => by split <;> rfl)
theorem RegsKept.writeReg {th : Thread} (h : RegsKept th) {r : Nat} {v : Word} {n : Nat} : RegsKept (writeReg th r v n) := h.tput
theorem RegsKept.emptyReg {th : Thread} (h : RegsKept th) {r p : Nat} {a : Bool} : RegsKept (emptyReg th r p a) := h.tput
theorem RegsKept.release {th : Thread} (h : RegsKept th) {l : List Nat} : RegsKept (release l th) := h.filter _
theorem Kept.fillRegs {lo : Nat} {s : State} (h : Kept lo s) {ci prod : Nat} {u : Bool} {l : List (Nat × List (Nat × Word))} :
    Kept lo (fillRegs s ci prod u l) := by
  unfold Machine.fillRegs
  extract_lets c ok c1 regs c2 all x
  have h1 : CoreKept c1 := (h.get ci).mapThreads fun t th ht => by
    split
    · exact ht
    · exact .foldl (fun _ _ hx => hx.writeReg) _ ht
  have h2 : CoreKept c2 := .foldl (fun _ _ hc => hc.retag) _ h1
  exact (h.putCore h2 ci).settleBanks.lateWrites
theorem Kept.refillReg {lo : Nat} {s : State} (h : Kept lo s) {ci t r : Nat} : Kept lo (refillReg s ci t r) := by
  unfold Machine.refillReg
  extract_lets c
  split
  · exact h
  · split
    · exact h
    · refine .ite h (.ite ?_ ?_)
      · extract_lets k
        split
        · exact h.coreError
        · extract_lets v st c1 s1
          have hc : CoreKept c1 := (h.get ci).mapThreads fun _ _ ht => .ite ht.tupd ht
          exact .ite (h.putCore hc ci).settleUni h
      · split
        · exact h.coreError
        · extract_lets v c1 s1 c2 room
          have hc : CoreKept c1 := (h.get ci).updThread fun _ ht => ht.tput
          exact .ite (h.putCore hc ci) (.ite (h.putCore hc ci).settleLane h)

/-! ### Drills -/

theorem RegsKept.undefReads {s : State} {t : Nat} {th : Thread} (h : RegsKept th) : RegsKept (undefReads s t th) :=
  .foldl (fun _ _ hx => by exact hx.tupd) _ h
theorem Kept.drillThreads {lo : Nat} {i : Instr} {s : State} (h : Kept lo s) {e : Nat × Thread} (he : e ∈ drillThreads i s) : RegsKept e.2 := by
  obtain ⟨th0, h0, -, -, hx⟩ := mem_drillThreads (t := e.1) (th := e.2) he
  exact hx ▸ (h.thread h0).undefReads
/-- A part that keeps the state well-kept, whatever thread it is given. -/
def KeepsPart (lo : Nat) (p : Part) : Prop := ∀ s t th, Kept lo s → RegsKept th → Kept lo (p s t th).1
theorem pureFx_keeps {lo : Nat} {f : Thread → Fx} : KeepsPart lo (pureFx f) := fun _ _ _ h _ => h
theorem Kept.runParts {lo : Nat} {i : Instr} {part : Part} (hp : KeepsPart lo part) {act l : List (Nat × Thread)} (hl : ∀ e ∈ l, RegsKept e.2)
    {s : State} (h : Kept lo s) : Kept lo (runParts i part act l s).1 := by
  induction l generalizing s with
  | nil => exact h
  | cons e l ih =>
    unfold Machine.runParts
    have hr := fun s hs => ih (fun x hx => hl x (by simp [hx])) (s := s) hs
    split
    · exact hr _ h
    · exact hr _ (hp _ _ _ h (hl _ (by simp)))
theorem leadMode_kept {act : List (Nat × Thread)} {th : Thread} (h : RegsKept th) : RegsKept (leadMode act th) := by
  unfold leadMode
  split
  · exact h
  · exact h
theorem Kept.drillParts {lo : Nat} {i : Instr} {part : Part} (hp : KeepsPart lo part) {act : List (Nat × Thread)} (ha : ∀ e ∈ act, RegsKept e.2)
    {s : State} (h : Kept lo s) : Kept lo (drillParts i part act s).1 := by
  unfold Machine.drillParts
  split
  · split
    · exact h
    · next lead l hl =>
      have hm : lead ∈ act := List.mem_of_mem_filter (hl ▸ List.mem_cons_self)
      exact hp _ _ _ h (leadMode_kept (ha _ hm))
  · exact h.runParts hp ha
theorem flagsAt_kept {n : Nat} {w : Word} {th : Thread} (h : RegsKept th) : RegsKept (flagsAt n w th) := .ite h h
theorem orFlags_kept {w : Word} {th : Thread} (h : RegsKept th) : RegsKept (orFlags th w) := h
theorem setPred_kept {th : Thread} (h : RegsKept th) {p : Nat} {b : Bool} : RegsKept (setPred th p b) := .ite h h
theorem applyResults_kept {fx : Fx} {n : Nat} {th : Thread} (h : RegsKept th) : RegsKept (applyResults fx n th) := by
  unfold applyResults
  extract_lets t1 t2 t3
  have h1 : RegsKept t1 := .foldl (fun _ _ hx => hx.writeReg) _ h
  have h2 : RegsKept t2 := .foldl (fun _ _ hx => hx.emptyReg) _ h1
  have h3 : RegsKept t3 := .foldl (fun _ _ hx => setPred_kept hx) _ h2
  exact h3
theorem applyFx_kept {i : Instr} {sr : Word} {fx : Fx} {n : Nat} {th : Thread} (h : RegsKept th) : RegsKept (applyFx i sr fx n th) :=
  applyResults_kept (flagsAt_kept (orFlags_kept h)).release
theorem applyOff_kept {i : Instr} {z : Bool} {fx : Option Fx} {n : Nat} {th : Thread} (h : RegsKept th) : RegsKept (applyOff i z fx n th) := by
  unfold applyOff
  extract_lets t1
  have h1 : RegsKept t1 := (RegsKept.ite (orFlags_kept h) h).release
  exact .ite (applyResults_kept h1) h1
theorem advance_kept {s : State} {n : Nat} {j : Option DWord} {th : Thread} (h : RegsKept th) : RegsKept (advance s n j th) := by
  unfold RegsKept
  rw [advance_regs]
  exact h
theorem startWait_kept {i : Instr} {s : State} {w : Wait} {th : Thread} (h : RegsKept th) : RegsKept (startWait i s w th) := h
theorem commitThread_kept {i : Instr} {s : State} {n ready : Nat} {z : Bool} {some1 : Option Fx} {fxs : List (Nat × Fx)} {t : Nat} {th : Thread}
    (h : RegsKept th) : RegsKept (commitThread i s n ready z some1 fxs t th) := by
  unfold commitThread
  extract_lets cyc
  split
  · refine .ite h (.ite h ?_)
    split
    · exact startWait_kept (applyResults_kept (flagsAt_kept (orFlags_kept h)))
    · exact advance_kept (applyFx_kept h)
  · exact advance_kept (applyOff_kept h)
theorem Kept.drillDone {lo : Nat} {s : State} (h : Kept lo s) {n : Nat} : Kept lo (drillDone s n) := by
  unfold Machine.drillDone
  refine h.setFree.updCore fun c hc => ?_
  dsimp only
  split
  · exact { hc with }
  · exact { hc with }
theorem Kept.stepsDone {lo : Nat} {s : State} (h : Kept lo s) {fxs : List (Nat × Fx)} {ci : Nat} {l : List Nat} : Kept lo (stepsDone fxs ci l s) := by
  refine Kept.foldl (fun s t hs => ?_) _ h
  split
  · exact .ite hs.stepDone hs
  · exact hs
theorem Kept.shapeDrill {lo : Nat} {s : State} (h : Kept lo s) {i : Instr} {f : FaultRec} : Kept lo (shapeDrill i f s) :=
  (h.updThreads fun _ ht => advance_kept ht).takeFaults.stepsDone.drillDone
/-- The commit keeps the tables of the drill's core. -/
theorem committed_kept {lo : Nat} {i : Instr} {lat : Lat} {fxs : List (Nat × Fx)} {s s1 : State} (h : Kept lo s1) : CoreKept (committed i lat fxs s s1) := by
  unfold committed
  refine CoreKept.foldl (fun c r hc => ?_) _ ((h.get _).mapThreads fun _ _ ht => .ite (commitThread_kept ht) ht)
  split
  · exact hc
  · exact .ite hc.retagGeneral hc.retag
theorem Kept.settled {lo : Nat} {i : Instr} {fxs : List (Nat × Fx)} {s1 : State} {ci n : Nat} {ths : List (Nat × Thread)} {c : Core} (h : Kept lo s1)
    (hc : CoreKept c) : Kept lo (settled i fxs s1 ci n ths c) :=
  (h.putCore hc ci).settleBanks.lateWrites.takeFaults.stepsDone.drillDone
/-- What a drill does where something of it executes: its parts, the commit, and the settling. -/
theorem runDrill_settled (i : Instr) (lat : Lat) (part : Part) (s : State) (hu : ¬ (isUnif s = true ∧ (activeThreads i s).isEmpty = true))
    (hsh : shapeFault i s (activeThreads i s) = none) :
    runDrill i lat part s
      = settled i ((drillParts i part (activeThreads i s) s).2 ++ offFxs i s) (drillParts i part (activeThreads i s) s).1 s.cur.core (drillTime i s)
          (drillThreads i s) (committed i lat ((drillParts i part (activeThreads i s) s).2 ++ offFxs i s) s
            (drillParts i part (activeThreads i s) s).1) := by
  have ha : ((drillThreads i s).filter fun e => actOn i e.2) = activeThreads i s := rfl
  unfold runDrill
  simp only [ha]
  rw [if_neg hu, hsh]
  rfl
/-- A drill in the uniform pipe without an active thread: every thread moves on (R15). -/
theorem runDrill_idle (i : Instr) (lat : Lat) (part : Part) (s : State) (hu : isUnif s = true ∧ (activeThreads i s).isEmpty = true) :
    runDrill i lat part s = drillDone (stepsDone [] s.cur.core ((drillThreads i s).map (·.1))
      (updThreads s s.cur.core ((drillThreads i s).map (·.1)) (advance s 1 none))) 1 := by
  have ha : ((drillThreads i s).filter fun e => actOn i e.2) = activeThreads i s := rfl
  unfold runDrill
  simp only [ha]
  rw [if_pos hu]
/-- A drill that reads a register of another shape: all its active threads fault (R40). -/
theorem runDrill_shape (i : Instr) (lat : Lat) (part : Part) (s : State) {f : FaultRec} (hu : ¬ (isUnif s = true ∧ (activeThreads i s).isEmpty = true))
    (hsh : shapeFault i s (activeThreads i s) = some f) : runDrill i lat part s = shapeDrill i f s := by
  have ha : ((drillThreads i s).filter fun e => actOn i e.2) = activeThreads i s := rfl
  unfold runDrill
  simp only [ha]
  rw [if_neg hu, hsh]
/-- A drill keeps the state well-kept where its parts do. -/
theorem Kept.runDrill {lo : Nat} {s : State} (h : Kept lo s) {i : Instr} {lat : Lat} {part : Part} (hp : KeepsPart lo part) : Kept lo (runDrill i lat part s) := by
  have ha : ∀ e ∈ activeThreads i s, RegsKept e.2 := fun e he => h.drillThreads (mem_active (t := e.1) (th := e.2) he).1
  by_cases hu : isUnif s = true ∧ (activeThreads i s).isEmpty = true
  · rw [runDrill_idle i lat part s hu]
    exact (h.updThreads fun _ ht => advance_kept ht).stepsDone.drillDone
  cases hsh : shapeFault i s (activeThreads i s) with
  | some f =>
    rw [runDrill_shape i lat part s hu hsh]
    exact h.shapeDrill
  | none =>
    have h1 := h.drillParts (i := i) hp ha
    rw [runDrill_settled i lat part s hu hsh]
    exact h1.settled (committed_kept h1)
theorem Kept.faultDrill {lo : Nat} {s : State} (h : Kept lo s) {i : Instr} {f : FaultRec} : Kept lo (faultDrill i f s) := h.runDrill fun _ _ _ hs _ => hs
end Sys2Proof.Machine

/-! ### Accesses keep the state well-kept -/
namespace Sys2Proof.Machine
open Sys2Proof

theorem Kept.snd {lo : Nat} {α : Type} {p : α × State} (h : Kept lo p.2) {a : α} {s : State} (e : p = (a, s)) : Kept lo s := by
  rw [e] at h
  exact h
theorem Kept.mono {lo lo' : Nat} {s : State} (h : Kept lo s) (hl : lo' ≤ lo) : Kept lo' s := ⟨h.well, Nat.le_trans hl h.next⟩
theorem Kept.raise {lo : Nat} {s : State} (h : Kept lo s) : Kept (max lo s.nextId) s := ⟨h.well, Nat.max_le.2 ⟨h.next, Nat.le_refl _⟩⟩
theorem Kept.lower {lo n : Nat} {s : State} (h : Kept (max lo n) s) : Kept lo s := h.mono (Nat.le_max_left _ _)
/-- A number that has been given out is below the next. -/
theorem Kept.fresh {lo : Nat} {s : State} (h : Kept lo s) : Kept (max lo (s.nextId + 1)) (Machine.freshId s).2 :=
  ⟨h.freshId.well, Nat.max_le.2 ⟨Nat.le_succ_of_le h.next, Nat.le_refl _⟩⟩
theorem lt_max_succ (lo n : Nat) : n < max lo (n + 1) := by omega
theorem fresh_lt {lo id : Nat} {s s1 : State} (e : freshId s = (id, s1)) : id < max lo (s.nextId + 1) := (Prod.mk.inj e).1 ▸ lt_max_succ _ _
theorem Kept.putReqAt {lo : Nat} {s : State} (h : Kept lo s) {id : Nat} {r : Req} (hid : id < lo) (hr : ReqKept lo r) :
    Kept lo { s with reqs := tput s.reqs id r } := h.putReq (Nat.lt_of_lt_of_le hid h.next) (hr.mono h.next)
/-- A request already there is replaced by one of the same drill. -/
theorem Kept.setHomes {lo : Nat} {s : State} (h : Kept lo s) {t : Tbl HomeLine} : Kept lo { s with homes := t } := h.same rfl
theorem Kept.homeStored {lo : Nat} {s : State} (h : Kept lo s) {line : Nat} : Kept lo (homeStored s line).2 := h.setHomes
theorem Kept.grantLease {lo : Nat} {s : State} (h : Kept lo s) {line : Nat} {f : Bool} : Kept lo (grantLease s line f).2 := h.setHomes
theorem Kept.freeBytes {lo : Nat} {s : State} (h : Kept lo s) {n : Nat} : Kept lo (freeBytes s n).2 := h.setFree
theorem Kept.freeTime {lo : Nat} {s : State} (h : Kept lo s) {n : Nat} : Kept lo (freeTime s n).2 := h.freeVal
theorem Kept.putLine {lo : Nat} {s : State} (h : Kept lo s) {k key : Nat} {l : Line} : Kept lo (putLine s k key l) :=
  h.updCore fun c hc => { hc with l1 := by dsimp only; split; exacts [tsorted_tdel _ _ hc.l1, tsorted_tput _ _ _ hc.l1] }
theorem Kept.setFifo {lo : Nat} {s : State} (h : Kept lo s) {k : Nat} {f : Core → List Dirty} : Kept lo (Machine.updCore s k fun c => { c with fifo := f c }) :=
  h.updCore fun _ hc => { hc with }
theorem Kept.drainLine {lo : Nat} {s : State} (h : Kept lo s) {k key : Nat} : Kept lo (drainLine s k key) := by
  unfold Machine.drainLine
  split
  · exact h
  · extract_lets l
    have h1 := (h.fresh.putLine (k := k) (key := key) (l := { l with dirty := 0 })).setFifo (k := k) (f := fun c => c.fifo.filter fun e => e.line != key)
    exact (h1.putReqAt (lt_max_succ _ _) .wback).lower
theorem Kept.dropClean {lo : Nat} {s : State} (h : Kept lo s) {k key : Nat} : Kept lo (dropClean s k key) := h.putLine
theorem Kept.flushLine {lo : Nat} {s : State} (h : Kept lo s) {ci key : Nat} : Kept lo (flushLine s ci key) := h.drainLine.dropClean
theorem Kept.makeRoom {lo : Nat} {s : State} (h : Kept lo s) {ci k key : Nat} : Kept lo (makeRoom s ci k key) := by
  unfold Machine.makeRoom
  extract_lets c same
  refine .ite h (.ite h ?_)
  split
  · exact h.putLine
  · split
    · exact h.drainLine.putLine
    · exact h
theorem Kept.fillLine {lo : Nat} {s : State} (h : Kept lo s) {ci key o n v e : Nat} : Kept lo (fillLine s ci key o n v e) := h.makeRoom.putLine
theorem Kept.l1Store {lo : Nat} {s : State} (h : Kept lo s) {ci plot : Nat} {tids : List Nat} {loc : Loc} {n v : Nat} {t : State}
    (ht : l1Store s ci plot tids loc n v = some t) : Kept lo t := by
  unfold Machine.l1Store at ht
  extract_lets key o k who nc wide at ht
  split at ht
  · cases ht
    exact (h.fresh.putReqAt (lt_max_succ _ _) .wback).lower
  · split at ht
    · cases ht
    · have hs := (h.makeRoom (ci := ci) (k := k) (key := key)).putLine (k := k) (key := key)
        (l := let l := l1Line (Machine.makeRoom s ci k key) k key
              { l with data := BitVec.ofNat 1024 (mergeBytes l.data.toNat wide.toNat (bytesMask o n) 128), dirty := l.dirty ||| BitVec.ofNat 128 (bytesMask o n), valid := l.valid &&& ~~~(BitVec.ofNat 128 (bytesMask o n)) })
      split at ht
      · cases ht
        exact hs.setFifo
      · cases ht
        exact hs.freshId.setFifo
theorem Kept.setWays {lo : Nat} {s : State} (h : Kept lo s) {t : Tbl Way} : Kept lo { s with ways := t } := h.same rfl
theorem Kept.launchFar {lo : Nat} {s : State} (h : Kept lo s) : Kept lo (launchFar s) := by
  unfold Machine.launchFar
  extract_lets l s1
  have h1 : Kept lo s1 := h.setWays
  refine .foldl (fun s x hs => ?_) _ h1
  exact hs.setWays.queuePacket
theorem Kept.clusterFields {lo : Nat} {s : State} (h : Kept lo s) {k : Nat} {f : Cluster → Cluster} (hf : ∀ c, (f c).scratch = c.scratch) :
    Kept lo (Machine.updCluster s k f) := h.updCluster fun c hc => by
  unfold ClusterKept
  rw [hf]
  exact hc
theorem Kept.clusterWalk {lo : Nat} {s : State} (h : Kept lo s) {cl ctx va : Nat} : Kept lo (clusterWalk s cl ctx va).2 := by
  unfold Machine.clusterWalk
  extract_lets r
  split
  · exact h
  · split
    split
    · dsimp only
      exact h.clusterFields fun _ => by rfl
    · exact h
theorem Kept.tlbFill {lo : Nat} {s : State} (h : Kept lo s) {cl : Nat} {t : Tr} : Kept lo (tlbFill s cl t) := h.clusterFields fun _ => rfl
theorem Kept.coreTlbFill {lo : Nat} {s : State} (h : Kept lo s) {ci : Nat} {t : Tr} : Kept lo (coreTlbFill s ci t) := h.updCore fun _ hc => { hc with }
theorem Kept.joinWalk {lo : Nat} {s : State} (h : Kept lo s) {cl ctx page : Nat} {d : Option Drill} : Kept lo (joinWalk s cl ctx page d) := by
  unfold Machine.joinWalk
  split
  · exact h.clusterFields fun _ => by rfl
  · split
    next id s1 e => exact (h.freshId.snd e).clusterFields fun _ => by rfl
theorem Kept.engTranslate {lo : Nat} {s : State} (h : Kept lo s) {cl : Option Nat} {ctx va : Nat} {wr : Bool} : Kept lo (engTranslate s cl ctx va wr).2 := by
  unfold Machine.engTranslate
  extract_lets hit inWalk
  clear_value hit inWalk
  split
  · split <;> exact h
  · split
    · cases cl with
      | some k => exact h.joinWalk
      | none => exact h
    · split
      next r s1 he =>
      have h1 : Kept lo s1 := by
        refine Kept.snd ?_ he
        cases cl with
        | some k => exact h.clusterWalk
        | none => exact h
      split
      · next t =>
        extract_lets s2
        have h2 : Kept lo s2 := by
          cases cl with
          | some k => exact h1.tlbFill
          | none => exact h1
        split <;> exact h2
      · exact h1
      · exact h1
      · exact h1
theorem Kept.scrWrite {lo : Nat} {s : State} (h : Kept lo s) {ci pos n v : Nat} : Kept lo (scrWrite s ci pos n v) :=
  h.updCluster fun _ hc => memPut_wf _ _ _ _ hc
theorem Kept.holdForWalks {lo : Nat} {s : State} (h : Kept lo s) {i : Instr} {pages : List Nat} : Kept lo (holdForWalks i s pages) := by
  unfold Machine.holdForWalks
  extract_lets ci ths ctx d _ s1
  have h1 : Kept lo s1 := h.updThreads fun _ ht => ht
  split
  · exact h1
  · exact (Kept.foldl (fun _ _ hs => hs.joinWalk) _ h1.joinWalk).drillDone
theorem stay_keeps {lo : Nat} {fx : Fx} : KeepsPart lo fun s _ _ => (s, fx) := fun _ _ _ h _ => h
theorem Kept.runGlobal {lo : Nat} {s : State} (h : Kept lo s) {i : Instr} {acc : Thread → List Acc} {run : State → State} (hr : Kept lo (run s)) :
    Kept lo (runGlobal i acc run s) := by
  unfold Machine.runGlobal
  refine .ite (h.runDrill stay_keeps) ?_
  split
  · exact hr
  · exact h.holdForWalks
theorem Kept.dropL2 {lo : Nat} {s : State} (h : Kept lo s) {ci key : Nat} : Kept lo (dropL2 s ci key) := h.setL2 (tsorted_tdel _ _ h.l2)
theorem Kept.l2Put {lo : Nat} {s : State} (h : Kept lo s) {die key : Nat} {l : Line} : Kept lo (l2Put s die key l) := by
  unfold Machine.l2Put
  dsimp only
  refine h.setL2 (tsorted_tput _ _ _ ?_)
  split
  · split
    · exact tsorted_tdel _ _ h.l2
    · exact h.l2
  · exact h.l2
theorem Kept.serveLoad {lo : Nat} {s : State} (h : Kept lo s) {ci plot : Nat} {loc : Loc} {n : Nat} {a : Bool} : Kept lo (serveLoad s ci plot loc n a).2.2 := by
  unfold Machine.serveLoad
  extract_lets key ck
  split
  · exact h
  · split
    · exact .ite h.fillLine h
    · have h1 := h.grantLease (line := key) (f := false)
      exact .ite (Kept.ite h1.l2Put h1).fillLine (.ite h1.l2Put h1)
  · split
    next bs s1 e1 =>
    have h1 := h.freeBytes.snd e1
    split
    next g s2 e2 =>
    have h2 := h1.freeTime.snd e2
    split
    next e s3 e3 =>
    have h3 := h2.freeTime.snd e3
    exact .ite h3.fillLine h3
theorem Kept.farGwct {lo : Nat} {s : State} (h : Kept lo s) {key : Nat} : Kept lo (farGwct s key).2 := by
  unfold Machine.farGwct
  extract_lets e
  split
  next t s1 e1 => exact h.freeTime.snd e1
theorem Kept.homeStore {lo : Nat} {s : State} (h : Kept lo s) {ck key data mask : Nat} : Kept lo (homeStore s ck key data mask).2 := by
  unfold Machine.homeStore
  split
  · exact h.farGwct
  · extract_lets s1 s2
    have h2 : Kept lo s2 := by
      refine .foldl (fun s i hs => ?_) _ h.rekeyLine
      exact .ite (hs.setMem (memSet_wf _ _ _ hs.mem)) hs
    exact h2.homeStored
theorem Kept.raiseHorizon {lo : Nat} {s : State} (h : Kept lo s) {ci t g : Nat} : Kept lo (raiseHorizon s ci t g) := h.updThread fun _ ht => ht
theorem Kept.raiseAll {lo : Nat} {s : State} (h : Kept lo s) {ci : Nat} {l : List Nat} {g : Nat} : Kept lo (raiseAll s ci l g) :=
  Kept.foldl (fun _ _ hs => hs.raiseHorizon) _ h
theorem Kept.notePlot {lo : Nat} {s : State} (h : Kept lo s) {ci p g : Nat} : Kept lo (notePlot s ci p g) := h.updPlot

/-! ### Loads, stores and atomics -/

theorem Kept.lsuPass {lo : Nat} {s : State} (h : Kept lo s) {m : Nat} : Kept lo (lsuPass s m).2 := h.putCore (by exact { h.get _ with }) _
theorem Kept.updLoad {lo : Nat} {s : State} (h : Kept lo s) {id : Nat} {f : LoadOp → LoadOp} (hid : id < lo) : Kept lo (updLoad s id f) := h.putReqAt hid .load
theorem Kept.loadAccess {lo : Nat} {s : State} (h : Kept lo s) {ci id t : Nat} {l : List Nat} {th : Thread} {loc : Loc} {n : Nat} :
    Kept lo (loadAccess s ci id t l th loc n).2.2 := by
  unfold Machine.loadAccess
  extract_lets key k m l same
  split
  · exact h
  · split
    · exact h
    · exact .ite h.drainLine h
theorem loadPart_keeps {lo : Nat} {o : LdOp} {id : Nat} {act : List (Nat × Thread)} (hid : id < lo) : KeepsPart lo (loadPart o id act) := by
  intro s t th h ht
  unfold loadPart
  extract_lets ci a fx
  split
  · split
    · exact h
    · dsimp only
      exact h.updLoad hid
  · split
    · exact h
    · exact h
    · exact h
    · split
      · next he => exact (Prod.mk.inj (Prod.mk.inj he).2).2 ▸ h.loadAccess
      · next he =>
        have h1 : Kept lo _ := (Prod.mk.inj (Prod.mk.inj he).2).2 ▸ h.loadAccess
        dsimp only
        exact h1.updLoad hid
theorem Kept.loadDue {lo : Nat} {s : State} (h : Kept lo s) {o : LdOp} {q : LoadOp} {pos : List (Nat × Nat)} : Kept lo (loadDue s o q pos).2 := by
  unfold Machine.loadDue
  extract_lets ci size
  split
  · exact h.lsuPass
  · exact h.lsuPass
theorem Kept.runLoad {lo : Nat} {s : State} (h : Kept lo s) {o : LdOp} : Kept lo (runLoad o s) := by
  unfold Machine.runLoad
  extract_lets i ci ths act
  split
  next id s1 he =>
  have h1 : Kept (max lo (s.nextId + 1)) s1 := h.fresh.snd he
  have hid : id < max lo (s.nextId + 1) := fresh_lt he
  extract_lets s2 pos s3 q off also
  have h2 : Kept (max lo (s.nextId + 1)) s2 := h1.updLoad hid
  have h3 : Kept (max lo (s.nextId + 1)) s3 := h2.runDrill (loadPart_keeps hid)
  refine .ite h3.delReq.lower ?_
  split
  next due s4 he4 => exact ((h3.loadDue.snd he4).updLoad hid).lower
end Sys2Proof.Machine

/-! ### Prefetches, stores and atomics keep the state well-kept -/
namespace Sys2Proof.Machine
open Sys2Proof

theorem pfPart_keeps {lo : Nat} {o : PfOp} : KeepsPart lo (pfPart o) := by
  intro s t th h ht
  unfold pfPart
  extract_lets ci a
  split
  · exact h
  split
  · exact h
  split
  next r s1 he =>
  have h1 : Kept lo s1 := by
    refine Kept.snd ?_ he
    split
    · exact h
    · exact h.engTranslate
  split
  · extract_lets key here
    split
    · exact h1
    · split
      next id s2 he2 =>
      have h2 := h1.fresh.snd he2
      dsimp only
      exact (h2.updLoad (fresh_lt he2)).lower
  · exact h1
  · exact h1
theorem storePart_keeps {lo : Nat} {o : StOp} {act : List (Nat × Thread)} : KeepsPart lo (storePart o act) := by
  intro s t th h ht
  unfold storePart
  extract_lets ci a
  split
  · split
    · exact h
    · exact h.scrWrite
  · split
    · exact h
    · exact h
    · exact h
    · split
      · exact h
      · next hst => exact h.l1Store hst
theorem Kept.runStore {lo : Nat} {s : State} (h : Kept lo s) {o : StOp} : Kept lo (runStore o s) := h.lsuPass.runDrill storePart_keeps
theorem Kept.putAtom {lo : Nat} {s : State} (h : Kept lo s) {id : Nat} {o : AtomOp} (hid : id < lo) (hd : o.drill < lo) : Kept lo (putAtom s id o) :=
  h.putReqAt hid (ReqKept.atomic.2 hd)
theorem Kept.atomPerform {lo : Nat} {s : State} (h : Kept lo s) {o : AtomOp} : Kept lo (atomPerform s o).2 := by
  unfold Machine.atomPerform
  extract_lets n
  split
  · split
    exact h.scrWrite
  · split
    · split
      split
      next he => exact h.keyedWrite.homeStored.snd he
    · split
      next he =>
      split
      split
      next he3 => exact (h.freeBytes.snd he).farGwct.snd he3
/-- Carrying out an atomic leaves its drill's number. -/
theorem atomPerform_drill (s : State) (o : AtomOp) : (atomPerform s o).1.drill = o.drill := by
  unfold atomPerform
  split
  · rfl
  · split <;> rfl
theorem Kept.atomJoin {lo : Nat} {s : State} (h : Kept lo s) {id0 ci t kind : Nat} {o : AtOp} {th : Thread} {cells : Tbl RegCell} {sp : Bool} {pos : Nat}
    {loc : Loc} {va : Nat} (hid : id0 < lo) : Kept lo (atomJoin s id0 ci t kind o th cells sp pos loc va).2 := by
  unfold Machine.atomJoin
  dsimp only
  split
  · next id q hf =>
    have hm := List.mem_of_find?_eq_some hf
    have hq := ReqKept.atomic.1 (h.reqsKept.drills _ hm)
    exact h.putReq (h.reqsKept.ids _ hm) (ReqKept.atomic.2 hq)
  · split
    · exact h
    · have h1 : Kept lo (if sp = true then s else Machine.flushLine s ci (lineKey loc)) := .ite h h.flushLine
      generalize (if sp = true then s else Machine.flushLine s ci (lineKey loc)) = s1 at h1
      have h2 : Kept (max lo (s1.nextId + 1)) (Machine.freshId s1).2 := h1.fresh
      have put : ∀ q : AtomOp, q.drill = id0 → Kept lo (Machine.putAtom (Machine.freshId s1).2 (Machine.freshId s1).1 q) := fun q hq =>
        (h2.putAtom (fresh_lt rfl) (hq ▸ Nat.lt_of_lt_of_le hid (Nat.le_max_left _ _))).lower
      split <;> exact put _ rfl
theorem atomPart_keeps {lo : Nat} {i : Instr} {kind : Nat} {o : AtOp} {id0 : Nat} (hid : id0 < lo) : KeepsPart lo (atomPart i kind o id0) := by
  intro s t th h ht
  unfold atomPart
  extract_lets ci a fx
  split
  · split
    · exact h
    · exact h.atomJoin hid
  · split
    · exact h
    · exact h
    · exact h
    · split
      · next he => exact (h.atomJoin hid).snd he
      · next he => exact (h.atomJoin hid).snd he
theorem Kept.settleAtom {lo : Nat} {s : State} (h : Kept lo s) {ci id0 last : Nat} {e : Nat × Req} (he : e.1 < lo) (hr : ReqKept lo e.2) :
    Kept lo (settleAtom ci id0 last s e) := by
  unfold Machine.settleAtom
  split
  · next q hq =>
    have hd : q.drill < lo := ReqKept.atomic.1 (hq ▸ hr)
    split
    · exact h
    · extract_lets n
      split
      · split
        next q1 s1 h1 =>
        have hq1 : q1.drill = q.drill := by rw [← atomPerform_drill s q, h1]
        exact (h.atomPerform.snd h1).putAtom he (by rw [← hq1] at hd; exact hd)
      · exact h.putAtom he hd
  · exact h
/-- Folding over the entries of a table, of which something is known. -/
theorem Kept.foldlMem {lo : Nat} {α : Type} {f : State → α → State} (l : List α) (hf : ∀ s, ∀ x ∈ l, Kept lo s → Kept lo (f s x)) {s : State} (h : Kept lo s) :
    Kept lo (l.foldl f s) := by
  induction l generalizing s with
  | nil => exact h
  | cons x l ih => exact ih (fun s y hy => hf s y (by simp [hy])) (hf s x (by simp) h)
/-- Folding over the requests as they stood. -/
theorem Kept.foldlReqs {lo : Nat} {s : State} (h : Kept lo s) {f : State → Nat × Req → State}
    (hf : ∀ n s e, Kept n s → e.1 < n → ReqKept n e.2 → Kept n (f s e)) : Kept lo (s.reqs.foldl f s) := by
  have h1 := h.raise
  have hl : s.nextId ≤ max lo s.nextId := Nat.le_max_right _ _
  exact (h1.foldlMem s.reqs fun s' e he hs => hf _ s' e hs (Nat.lt_of_lt_of_le (h.reqsKept.ids e he) hl) ((h.reqsKept.drills e he).mono hl)).lower
theorem Kept.runAtom {lo : Nat} {s : State} (h : Kept lo s) {i : Instr} {kind : Nat} {o : AtOp} : Kept lo (runAtom i kind o s) := by
  unfold Machine.runAtom
  extract_lets ci
  split
  next id0 s1 he =>
  have h1 := h.fresh.snd he
  have hid : id0 < max lo (s.nextId + 1) := fresh_lt he
  extract_lets s2
  have h2 : Kept (max lo (s.nextId + 1)) s2 := h1.runDrill (atomPart_keeps hid)
  split
  next last s3 he3 => exact ((h2.lsuPass.snd he3).foldlReqs fun _ _ _ hs hi hr => hs.settleAtom hi hr).lower
theorem Kept.atomicOp {lo : Nat} {s : State} (h : Kept lo s) {i : Instr} {kind : Nat} {o : AtOp} : Kept lo (atomicOp i kind o s) :=
  .ite h.runAtom (h.runGlobal h.runAtom)
end Sys2Proof.Machine

/-! ### Fetching, objects and waits keep the state well-kept -/
namespace Sys2Proof.Machine
open Sys2Proof

theorem Kept.fetchFor {lo : Nat} {s : State} (h : Kept lo s) {ci ctx va : Nat} : Kept lo (fetchFor s ci ctx va).2 := by
  unfold Machine.fetchFor
  split
  · exact h
  · split
    · next he => exact h.engTranslate.snd he
    · next he => exact h.engTranslate.snd he
    · next loc s1 he =>
      have h1 : Kept lo s1 := h.engTranslate.snd he
      split
      · exact h1
      · split
        next v e s2 he2 =>
        have h2 : Kept lo s2 := by
          have e2 : _ = s2 := congrArg (fun x => x.2.2) he2
          rw [← e2]
          dsimp only
          split
          · split
            · exact h1
            · exact h1.grantLease
          · exact h1.freeBytes.freeTime (n := Config.leaseMax - Config.leaseMin)
        dsimp only
        exact h2.updCore fun _ hc => { hc with }
theorem Kept.fetchLine {lo : Nat} {s : State} (h : Kept lo s) {ci plot va : Nat} : Kept lo (fetchLine s ci plot va).2 := h.fetchFor
theorem Kept.transferTo {lo : Nat} {s : State} (h : Kept lo s) {ci plot : Nat} {t : DWord} : Kept lo (transferTo s ci plot t).2 := by
  unfold Machine.transferTo
  dsimp only
  split
  · exact h
  · split
    · next he => exact h.fetchLine.snd he
    · next he => exact h.fetchLine.snd he
    · next he => exact h.fetchLine.snd he
theorem Kept.encodingFault {lo : Nat} {s : State} (h : Kept lo s) {d : Drill} {f : FaultRec} {on : Thread → Bool} {n : Nat} :
    Kept lo (encodingFault s d f on n) := by
  unfold Machine.encodingFault
  dsimp only
  exact (h.updThreads fun _ ht => advance_kept ht).takeFaults.drillDone
theorem Kept.setCur {lo : Nat} {s : State} (h : Kept lo s) {d : Drill} {l : List Drill} {n : Nat} : Kept lo { s with cur := d, issued := l, curLen := n } := h.same rfl
/-- The state that fetching ends in, be it with an instruction or with faults. -/
def fetchedState : Except State (Instr × State) → State
  | .error s => s
  | .ok x => x.2
theorem Kept.fetchDrill {lo : Nat} {s : State} (h : Kept lo s) {d : Drill} : Kept lo (fetchedState (fetchDrill s d)) := by
  unfold Machine.fetchDrill
  extract_lets s1 lead plot
  have hs : Kept lo s1 := h.same rfl
  split
  · exact hs
  · next l _ =>
    extract_lets new rest s2
    split
    · have h2 : Kept lo s2 := hs.encodingFault
      dsimp only [fetchedState]
      split
      · exact h2
      · exact h2.same rfl
    · split
      · dsimp only [fetchedState]
        split <;> exact hs.encodingFault
      · exact hs.same rfl
theorem Kept.fillFor {lo : Nat} {s : State} (h : Kept lo s) {core va plot : Nat} : Kept lo (fillFor core va s plot) := by
  unfold Machine.fillFor
  dsimp only
  split
  · exact h
  · split
    · exact h.takeFaults
    · split
      · exact h.takeFaults
      · next he => exact h.fetchLine.snd he
      · next he => exact (h.fetchLine.snd he).updThreads fun _ ht => ht

/-! ### Objects -/

theorem Kept.putObj {lo : Nat} {s : State} (h : Kept lo s) {cl pos : Nat} {o : Obj} : Kept lo (putObj s cl pos o) := h.updCluster fun _ hc => memWrite_wf _ _ _ hc
theorem Kept.releaseWaiters {lo : Nat} {s : State} (h : Kept lo s) {cl pos : Nat} : Kept lo (releaseWaiters s cl pos) := by
  unfold Machine.releaseWaiters
  dsimp only
  refine .foldl (fun s w hs => ?_) _ h
  split
  · exact hs.putObj.faultThread
  · split
    · exact hs.putObj.wakeThread
    · exact hs
theorem Kept.objUpdate {lo : Nat} {s : State} (h : Kept lo s) {cl pos : Nat} {f : Obj → Obj} : Kept lo (objUpdate s cl pos f) := h.putObj.releaseWaiters
theorem Kept.objIssue {lo : Nat} {s : State} (h : Kept lo s) {cl pos n : Nat} : Kept lo (objIssue s cl pos n) := h.objUpdate
theorem Kept.objArriveBytes {lo : Nat} {s : State} (h : Kept lo s) {cl pos n src : Nat} : Kept lo (objArriveBytes s cl pos n src) := h.objUpdate
theorem Kept.objCredit {lo : Nat} {s : State} (h : Kept lo s) {cl pos n src : Nat} : Kept lo (objCredit s cl pos n src) := h.objUpdate
theorem Kept.objLost {lo : Nat} {s : State} (h : Kept lo s) {cl pos : Nat} : Kept lo (objLost s cl pos) := h.objUpdate
theorem Kept.objBreak {lo : Nat} {s : State} (h : Kept lo s) {cl pos : Nat} : Kept lo (objBreak s cl pos) := h.objUpdate
theorem Kept.objArrive {lo : Nat} {s : State} (h : Kept lo s) {cl pos src : Nat} : Kept lo (objArrive s cl pos src) := h.objUpdate

/-! ### Waits that end by a late fault -/

theorem CoreKept.updSheaf {c : Core} (h : CoreKept c) {k : Nat} {f : Sheaf → Sheaf} : CoreKept { c with sheaves := tupd c.sheaves k f } :=
  { h with sheaves := tsorted_tupd _ _ _ h.sheaves }
theorem CoreKept.putSheaf {c : Core} (h : CoreKept c) {k : Nat} {f : Sheaf} : CoreKept { c with sheaves := tput c.sheaves k f } :=
  { h with sheaves := tsorted_tput _ _ _ h.sheaves }
theorem Kept.leaveWait {lo : Nat} {s : State} (h : Kept lo s) {ci t : Nat} {th : Thread} {w : Wait} : Kept lo (leaveWait s ci t th w) := by
  unfold Machine.leaveWait
  split
  · exact h.updThread fun _ ht => ht
  · split
    · exact h
    · exact h.updCore fun _ hc => hc.updSheaf
  · exact h.updCore fun _ hc => { hc with }
  · split
    · exact h
    · exact h.updCore fun _ hc => .ite hc hc.updSheaf
  · exact h.putObj
  · exact h.updCore fun _ hc => { hc with }
  · exact h.updCore fun _ hc => { hc with }
  · exact h
theorem restoreCell_kept {p : Nat} {th : Thread} {e : Nat × RegCell} (h : RegsKept th) : RegsKept (restoreCell p th e) := by
  unfold restoreCell
  split
  · exact h.tput
  · exact .ite h.tput h
theorem undoLate_kept {f : LateFault} {th : Thread} (h : RegsKept th) : RegsKept (undoLate f th) :=
  (RegsKept.foldl (fun _ _ hx => restoreCell_kept hx) f.cells h : RegsKept _)
theorem CoreKept.undoIn {c : Core} (h : CoreKept c) {f : LateFault} {t : Nat} : CoreKept (undoIn f t c) := by
  unfold Machine.undoIn
  dsimp only
  exact .foldl (fun _ _ hc => .ite hc hc.retagGeneral) _ (h.updThread fun _ ht => undoLate_kept ht)
theorem Kept.leaveLate {lo : Nat} {s : State} (h : Kept lo s) {ci : Nat} {x : Nat × Thread × LateFault} : Kept lo (leaveLate s ci x) := by
  unfold Machine.leaveLate
  extract_lets s1
  have h1 : Kept lo s1 := by
    dsimp only [s1]
    split
    · exact h.leaveWait
    · exact h
  exact h1.updCore fun _ hc => hc.undoIn.updThread fun _ ht => ht
theorem Kept.takeLates {lo : Nat} {s : State} (h : Kept lo s) {ci : Nat} {l : List Nat} : Kept lo (takeLates s ci l) :=
  (Kept.foldl (fun _ _ hs => hs.leaveLate) _ h).takeFaults
theorem Kept.takeAllLates {lo : Nat} {s : State} (h : Kept lo s) {ci : Nat} : Kept lo (takeAllLates s ci) :=
  Kept.foldl (fun _ _ hs => hs.takeLates) _ h
theorem Kept.noteLate {lo : Nat} {s : State} (h : Kept lo s) {ci t : Nat} {f : LateFault} : Kept lo (noteLate s ci t f) := by
  unfold Machine.noteLate
  split
  · exact h
  · split
    · exact h
    · split
      · exact h.updCore fun _ hc => hc.undoIn.updThread fun _ ht => ht
      · exact h.updThread fun _ ht => ht
theorem Kept.lateThreads {lo : Nat} {s : State} (h : Kept lo s) {ci p : Nat} {pc : DWord} {l : List (Nat × Tbl RegCell × FaultRec)} :
    Kept lo (lateThreads s ci p pc l) := (Kept.foldl (fun _ _ hs => hs.noteLate) _ h).takeLates

/-! ### Fences and barriers -/

theorem fencePart_keeps {lo : Nat} {k c : Nat} : KeepsPart lo (fencePart k c) := by
  intro s t th h ht
  unfold fencePart
  dsimp only
  split
  · exact h.updThread fun _ ht => ht
  · split
    · exact h
    · exact h.freshId
theorem tfencePart_keeps {lo : Nat} : KeepsPart lo tfencePart := by
  intro s t th h ht
  unfold tfencePart
  dsimp only
  split
  · exact h
  · split
    · exact h
    · exact h.updThread fun _ ht => ht
theorem Kept.tryComplete {lo : Nat} {s : State} (h : Kept lo s) {ci k b : Nat} : Kept lo (tryComplete s ci k b) := by
  unfold Machine.tryComplete
  dsimp only
  split
  · exact h
  · split
    · exact h
    · exact h.putCore (h.get ci).putSheaf ci
theorem Kept.wakeBarriers {lo : Nat} {s : State} (h : Kept lo s) {ci k : Nat} : Kept lo (wakeBarriers s ci k) := by
  unfold Machine.wakeBarriers
  dsimp only
  split
  · exact h
  · refine .foldl (fun s m hs => ?_) _ h
    split
    · exact .ite hs.wakeThread hs
    · exact hs
theorem Kept.recheckBarriers {lo : Nat} {s : State} (h : Kept lo s) {ci k : Nat} : Kept lo (recheckBarriers s ci k) :=
  (Kept.foldl (fun _ _ hs => hs.tryComplete) _ h).wakeBarriers
theorem barPart_keeps {lo : Nat} {m b : Nat} : KeepsPart lo (barPart m b) := by
  intro s t th h ht
  unfold barPart
  dsimp only
  split
  · split
    · exact h
    · split <;> exact h
  · split
    · exact h
    · exact h
    · split
      · split <;> exact h
      · split
        · exact h
        · split <;> exact (h.putCore (h.get s.cur.core).putSheaf s.cur.core).tryComplete
theorem Kept.wakeLone {lo : Nat} {s : State} (h : Kept lo s) {ci t : Nat} : Kept lo (wakeLone s ci t) := by
  unfold Machine.wakeLone
  split
  · exact h.wakeThread
  · exact h
theorem objPart_keeps {lo : Nat} {a : Src} {wr : Bool} {f : State → Nat → Thread → Nat → Obj → State × Fx}
    (hf : ∀ s t th p x, Kept lo s → Kept lo (f s t th p x).1) : KeepsPart lo (objPart a wr f) := by
  intro s t th h ht
  unfold objPart
  split
  · exact h
  · exact hf _ _ _ _ _ h
theorem abarInitPart_keeps {lo : Nat} {o : AbOp} : KeepsPart lo (abarInitPart o) := objPart_keeps fun s t th p x h => by
  dsimp only
  split
  · exact h
  · dsimp only
    exact h.objUpdate
theorem Kept.arriveFence {lo : Nat} {s : State} (h : Kept lo s) {ci t : Nat} {th : Thread} : Kept lo (arriveFence s ci t th).2 := by
  unfold Machine.arriveFence
  split
  · exact h
  · split
    · exact h
    · exact h.freshId.updThread fun _ ht => ht
theorem Kept.arriveFences {lo : Nat} {s : State} (h : Kept lo s) {ci : Nat} {l : List (Nat × Thread)} : Kept lo (arriveFences s ci l).2 :=
  Kept.foldlSnd (f := fun a (e : Nat × Thread) => ((a.1 && (Machine.arriveFence a.2 ci e.1 e.2).1), (Machine.arriveFence a.2 ci e.1 e.2).2)) (a := (true, s))
    (fun a e hs => Kept.arriveFence hs (t := e.1) (th := e.2)) l h
theorem abarArrivePart_keeps {lo : Nat} {a : Src} {act : List (Nat × Thread)} : KeepsPart lo (abarArrivePart a act) := objPart_keeps fun s t th p x h => by
  have h1 := h.arriveFences (ci := s.cur.core) (l := act)
  dsimp only
  split
  · exact h1
  · split
    · exact h1
    · exact h1.objArrive
theorem abarDuePart_keeps {lo : Nat} {o : AbOp} : KeepsPart lo (abarDuePart o) := objPart_keeps fun s t th p x h => by
  dsimp only
  split
  · exact h
  · dsimp only
    exact h.objUpdate
theorem abarWaitPart_keeps {lo : Nat} {o : AbOp} : KeepsPart lo (abarWaitPart o) := objPart_keeps fun s t th p x h => by
  dsimp only
  split
  · exact h
  · split
    · exact h
    · exact h.putObj
theorem abarTestPart_keeps {lo : Nat} {o : AbOp} {d : RegNo} : KeepsPart lo (abarTestPart o d) := objPart_keeps fun s t th p x h => by
  split <;> exact h
theorem rputPart_keeps {lo : Nat} {o : AbOp} : KeepsPart lo (rputPart o) := by
  intro s t th h ht
  unfold rputPart
  dsimp only
  split
  · exact h
  · exact h
  · split
    · exact h
    · split
      · exact h
      · split
        · exact h
        · dsimp only
          exact h.updCore fun _ hc => { hc with }
theorem Kept.wakeCounters {lo : Nat} {s : State} (h : Kept lo s) {ci k : Nat} : Kept lo (wakeCounters s ci k) := by
  refine Kept.foldl (fun s m hs => ?_) _ h
  split
  · exact .ite hs.wakeThread hs
  · exact hs
theorem Kept.depositFill {lo : Nat} {s : State} (h : Kept lo s) {ci : Nat} {d : Deposit} : Kept lo (depositFill s ci d) := by
  unfold Machine.depositFill
  extract_lets c hit uni c1 c2 all x s1
  have hc : CoreKept c2 := ((h.get ci).mapThreads fun _ _ ht => .ite ht.writeReg ht : CoreKept c1).mapThreads fun _ _ ht => .ite ht.setTag ht
  have h1 : Kept lo s1 := (h.putCore hc ci).settleBanks.lateWrites
  exact (h1.updCore fun _ hc => hc.updSheaf).wakeCounters
theorem ctrWaitPart_keeps {lo : Nat} {o : CtrWaitOp} : KeepsPart lo (ctrWaitPart o) := fun _ _ _ h _ => h
theorem Kept.napWord {lo : Nat} {s : State} (h : Kept lo s) {ci plot : Nat} {sp : Bool} {a : Nat} : Kept lo (napWord s ci plot sp a).2 := by
  unfold Machine.napWord
  split
  · exact h
  · split
    · next he =>
      have h1 := h.engTranslate.snd he
      split
      · exact h1
      · split
        · exact h1
        · exact h1.freeBytes
    · next he => exact h.engTranslate.snd he
theorem Kept.napFlush {lo : Nat} {s : State} (h : Kept lo s) {ci plot a : Nat} : Kept lo (napFlush s ci plot a) := by
  unfold Machine.napFlush
  split
  · next he =>
    have h1 := fun key => (h.engTranslate.snd he).flushLine (ci := ci) (key := key)
    exact (h1 _).setL2 (tsorted_tdel _ _ (h1 _).l2)
  · next he => exact h.engTranslate.snd he
theorem Kept.napEnds {lo : Nat} {s : State} (h : Kept lo s) {ci t c : Nat} : Kept lo (napEnds s ci t c).1 := by
  unfold Machine.napEnds
  split
  · exact h.freshId
  · exact h
theorem napPart_keeps {lo : Nat} {c : Nat} {sp : Bool} {a b : Src} : KeepsPart lo (napPart c sp a b) := by
  intro s t th h ht
  unfold napPart
  dsimp only
  split
  · split
    · exact h
    · split
      · exact h.napEnds
      · exact h
  · split
    · exact h
    · exact h
    · exact h
    · split
      · exact h
      · have h1 : ∀ g, Kept lo (Machine.updThread (Machine.napFlush s s.cur.core th.plot (svPair th a)) s.cur.core t
          fun th => { th with napAt := g, napOpen := true }) := fun g => h.napFlush.updThread fun _ ht => ht
        split
        · exact h1 _
        · split
          · split
            · exact (h1 _).napWord.napEnds
            · exact (h1 _).napWord
          · exact (h1 _).napWord
theorem wpwPart_keeps {lo : Nat} {a : Src} {ch : Nat} : KeepsPart lo (wpwPart a ch) := by
  intro s t th h ht
  unfold wpwPart
  dsimp only
  split
  · exact h
  · split <;> exact h
theorem Kept.wakePointers {lo : Nat} {s : State} (h : Kept lo s) {cl ch : Nat} : Kept lo (wakePointers s cl ch) := by
  refine Kept.foldl (fun s ci hs => Kept.foldl (fun s e hs => ?_) _ hs) _ h
  split
  · exact .ite hs.wakeThread hs
  · exact hs
end Sys2Proof.Machine

/-! ### Threads, sheaves and control keep the state well-kept -/
namespace Sys2Proof.Machine
open Sys2Proof

/-- The outcome of a step keeps the state well-kept, where there is a next state. -/
def OutKept (lo : Nat) : Host.Outcome State Fault Refusal → Prop
  | .next s => Kept lo s
  | _ => True

theorem Kept.releaseFuse {lo : Nat} {s : State} (h : Kept lo s) {ci k : Nat} {pc : DWord} : Kept lo (releaseFuse s ci k pc) :=
  Kept.foldl (fun _ _ hs => .ite hs.wakeThread hs) _ (h.updCore fun _ hc => hc.updSheaf)
theorem Kept.checkFuses {lo : Nat} {s : State} (h : Kept lo s) {ci k : Nat} : Kept lo (checkFuses s ci k) :=
  Kept.foldl (fun _ _ hs => .ite hs.releaseFuse hs) _ h
theorem Kept.dropDeposits {lo : Nat} {s : State} (h : Kept lo s) {ci : Nat} {p : Deposit → Bool} : Kept lo (dropDeposits s ci p) :=
  Kept.foldl (fun _ _ hs => hs.emitR) _ (h.updCore (f := fun c => { c with deposits := c.deposits.filter fun d => !p d }) fun _ hc => { hc with })
theorem soloRegs_kept {th : Thread} (h : RegsKept th) : RegsKept (soloRegs th) := h.map fun _ => rfl
theorem loneRegs_kept {th : Thread} (h : RegsKept th) : RegsKept (loneRegs th) := h.map fun _ => rfl
theorem Kept.loneWords {lo : Nat} {s : State} (h : Kept lo s) {ci k t : Nat} {th : Thread} : Kept lo (loneWords s ci k t th) := by
  unfold Machine.loneWords
  split
  · exact h
  · exact .foldl (fun _ _ hs => .ite hs.fallowPut hs) _ h
theorem Kept.loneMember {lo : Nat} {s : State} (h : Kept lo s) {ci k : Nat} : Kept lo (loneMember s ci k) := by
  unfold Machine.loneMember
  split
  · exact h.loneWords.updThread fun _ ht => loneRegs_kept ht
  · exact h
theorem Kept.sheafChanged {lo : Nat} {s : State} (h : Kept lo s) {ci k : Nat} : Kept lo (sheafChanged s ci k) := by
  unfold Machine.sheafChanged
  dsimp only
  split
  · exact h
  · split
    · exact (h.putCore (by exact { h.get ci with sheaves := tsorted_tdel _ _ (h.get ci).sheaves }) ci).dropDeposits
    · exact h.loneMember.recheckBarriers.checkFuses
theorem Kept.leaveSheaf {lo : Nat} {s : State} (h : Kept lo s) {ci t : Nat} : Kept lo (leaveSheaf s ci t) := by
  unfold Machine.leaveSheaf
  extract_lets c
  have hc : CoreKept c := h.get ci
  split
  · exact h
  · next th k he =>
    have ht : RegsKept th := by
      obtain ⟨x, hx, hk⟩ := Option.bind_eq_some_iff.1 he
      obtain ⟨k', _, hk⟩ := Option.map_eq_some_iff.1 hk
      cases hk
      exact hc.regs.get hx
    dsimp only
    refine Kept.sheafChanged (Kept.settleBanks (h.putCore ?_ ci))
    exact ⟨tsorted_tput _ _ _ hc.threads, hc.regs.tput (by exact soloRegs_kept ht) t, hc.plots, hc.frags, tsorted_tupd _ _ _ hc.sheaves, hc.l1⟩
theorem Kept.returnFrag {lo : Nat} {s : State} (h : Kept lo s) {ci : Nat} {th : Thread} : Kept lo (returnFrag s ci th) := by
  unfold Machine.returnFrag
  split
  · exact h
  · split
    · exact h
    · split
      · exact h.updCore fun _ hc => hc.putFrag
      · exact h
theorem CoreKept.updFrag {c : Core} (h : CoreKept c) {e : Nat} {f : Frag → Frag} : CoreKept { c with frags := tupd c.frags e f } :=
  { h with frags := tsorted_tupd _ _ _ h.frags }
theorem Kept.endStep {lo : Nat} {s : State} (h : Kept lo s) {ci t : Nat} {th : Thread} : Kept lo (endStep s ci t th) := by
  unfold Machine.endStep
  split
  · exact h
  · exact (h.updCore fun _ hc => hc.updFrag).stepLeft
theorem orphanReq_kept {ci t n : Nat} {r : Req} (h : ReqKept n r) : ReqKept n (orphanReq ci t r) := by
  cases r with
  | load o => exact .load
  | atomic o =>
    have hd := ReqKept.atomic.1 h
    exact ReqKept.atomic.2 (by split <;> exact hd)
  | wback o => exact .wback
  | ldsp o =>
    have hd := ReqKept.ldsp.1 h
    exact ReqKept.ldsp.2 (by split <;> exact hd)
  | stn o =>
    have hd := ReqKept.stn.1 h
    exact ReqKept.stn.2 (by split <;> exact hd)
theorem Kept.leaveKilled {lo : Nat} {s : State} (h : Kept lo s) {ci t : Nat} {th : Thread} {w : Wait} : Kept lo (leaveKilled s ci t th w) := by
  unfold Machine.leaveKilled
  split
  · exact h
  · exact h
  · exact h.leaveWait
theorem Kept.endThread {lo : Nat} {s : State} (h : Kept lo s) {ci t : Nat} : Kept lo (endThread s ci t) := by
  unfold Machine.endThread
  split
  · exact h
  · next th _ =>
    extract_lets s1 s2 s3 s4
    have h1 : Kept lo s1 := by
      dsimp only [s1]
      split
      · exact h.leaveKilled
      · exact h
    have h2 : Kept lo s2 := by
      dsimp only [s2]
      split
      · exact h1.dropDeposits
      · exact h1
    have h4 : Kept lo s4 := h2.leaveSheaf.updCore fun _ hc => { hc.filterThreads _ with }
    exact (h4.mapReqs fun _ _ _ hr => orphanReq_kept hr).returnFrag.endStep

/-! ### Sheaves and bins -/

theorem Kept.makeSheaf {lo : Nat} {s : State} (h : Kept lo s) {ci plot role : Nat} {l : List Nat} : Kept lo (makeSheaf s ci plot role l) := by
  unfold Machine.makeSheaf
  split
  · exact h
  · dsimp only
    refine h.putCore ?_ ci
    have hc := h.get ci
    constructor <;> dsimp only
    · exact tsorted_tmap _ _ hc.threads
    · refine hc.regs.tmap fun t th ht => ?_
      split
      · exact ht.map fun _ => rfl
      · exact ht
    · exact hc.plots
    · exact hc.frags
    · exact tsorted_tput _ _ _ hc.sheaves
    · exact hc.l1
theorem Kept.setBins {lo : Nat} {s : State} (h : Kept lo s) {ci : Nat} {b : Tbl Bin} : Kept lo (Machine.putCore s ci { getCore s ci with bins := b }) :=
  h.putCore (by exact { h.get ci with }) ci
theorem Kept.launchBin {lo : Nat} {s : State} (h : Kept lo s) {ci b : Nat} : Kept lo (launchBin s ci b) := by
  unfold Machine.launchBin
  dsimp only
  split
  · exact h
  · exact h.setBins.makeSheaf.updThreads fun _ ht => makeReady_kept ht
theorem Kept.spawnPlace {lo : Nat} {s : State} (h : Kept lo s) {ci plot role target : Nat} : Kept lo (spawnPlace s ci plot role target).2 := by
  unfold Machine.spawnPlace
  extract_lets c full s1 c1
  have h1 : Kept lo s1 := by
    dsimp only [s1]
    generalize full = b
    cases b with
    | none => exact h
    | some b => exact h.launchBin
  split
  · exact h1
  · split
    · exact h1.setBins
    · exact h1
theorem Kept.spawnDeadlock {lo : Nat} {s : State} (h : Kept lo s) {ci plot : Nat} : Kept lo (spawnDeadlock s ci plot) := .ite h.takeFaults h
theorem Kept.closeJoin {lo : Nat} {s : State} (h : Kept lo s) {ci b : Nat} : Kept lo (closeJoin s ci b) := by
  unfold Machine.closeJoin
  dsimp only
  split
  · exact h
  · exact h.setBins.makeSheaf
theorem Kept.finishJoins {lo : Nat} {s : State} (h : Kept lo s) {ci : Nat} : Kept lo (finishJoins s ci) := by
  unfold Machine.finishJoins
  extract_lets c done s1 groups s2 x
  have h1 : Kept lo s1 := .foldl (fun _ _ hs => hs.wakeThread.updThread fun _ ht => ht.writeReg) _ h
  have h2 : Kept lo s2 := .foldl (fun _ _ hs => hs.updCore fun _ hc => hc.retag) _ h1
  exact h2.settleBanks.lateWrites

/-! ### Collectives -/

theorem Kept.arriveOne {lo : Nat} {s : State} (h : Kept lo s) {i : Instr} {kind t : Nat} : Kept lo (arriveOne i kind s t).1 := by
  unfold Machine.arriveOne
  dsimp only
  split
  · exact h
  · split
    · exact h
    · split
      · exact h
      · refine h.putCore ?_ _
        have hc := (h.get s.cur.core).updThread (t := t) (f := fun th =>
          { th with st := .waiting .rendezvous, regrouping := decide (kind = 1), held := (reads i).map (·.reg), readySince := (getCore s s.cur.core).cyc, overdue := none }) fun _ ht => ht
        split
        · exact hc
        · exact hc.updSheaf
theorem Kept.arriveColl {lo : Nat} {s : State} (h : Kept lo s) {i : Instr} {kind : Nat} : Kept lo (arriveColl i kind s) := by
  refine Kept.takeFaults (Kept.foldlFst (fun a e ha => ?_) _ h)
  exact ha.arriveOne
theorem Kept.clearRdv {lo : Nat} {s : State} (h : Kept lo s) : Kept lo (clearRdv s) := Kept.foldl (fun _ _ hs => hs.updCore fun _ hc => hc.updSheaf) _ h
theorem Kept.collective {lo : Nat} {s : State} (h : Kept lo s) {i : Instr} {kind : Nat} {lat : Lat} {part : List (Nat × Thread) → Part} (hp : ∀ l, KeepsPart lo (part l)) :
    Kept lo (collective i kind lat part s) := .ite (h.runDrill (hp _)).clearRdv h.arriveColl
theorem passFx_keeps {lo : Nat} {d : RegNo} {a : Src} {src : List (Nat × Thread) → Thread → Int} {ms : List (Nat × Thread)} : KeepsPart lo (passFx d a src ms) := fun _ _ _ h _ => h
theorem pollFx_keeps {lo : Nat} {d : RegNo} {fn : Nat} {neg : Bool} {k : PredNo} {ms : List (Nat × Thread)} : KeepsPart lo (pollFx d fn neg k ms) := fun _ _ _ h _ => h
theorem sredFx_keeps {lo : Nat} {d : RegNo} {a : Src} {fn : Nat} {ms : List (Nat × Thread)} : KeepsPart lo (sredFx d a fn ms) := fun _ _ _ h _ => h
theorem sscanFx_keeps {lo : Nat} {d : RegNo} {a : Src} {exc : Bool} {fn : Nat} {ms : List (Nat × Thread)} : KeepsPart lo (sscanFx d a exc fn ms) := fun _ _ _ h _ => h
theorem alikeFx_keeps {lo : Nat} {d : RegNo} {a : Src} {lead : Bool} {ms : List (Nat × Thread)} : KeepsPart lo (alikeFx d a lead ms) := fun _ _ _ h _ => h

/-! ### Regrouping -/

theorem renameReq_kept {ci n : Nat} {f : Nat → Nat} {r : Req} (h : ReqKept n r) : ReqKept n (renameReq ci f r) := by
  cases r with
  | load o => exact .load
  | atomic o =>
    have hd := ReqKept.atomic.1 h
    exact ReqKept.atomic.2 (by split <;> exact hd)
  | wback o => exact .wback
  | ldsp o =>
    have hd := ReqKept.ldsp.1 h
    exact ReqKept.ldsp.2 (by split <;> exact hd)
  | stn o =>
    have hd := ReqKept.stn.1 h
    exact ReqKept.stn.2 (by split <;> exact hd)
theorem renameCore_kept {ci : Nat} {f : Nat → Nat} {c : Core} (h : CoreKept c) : CoreKept (renameCore ci f c) := by
  unfold renameCore
  exact { h with frags := tsorted_tmap (fun _ x => renameFrag f x) _ h.frags }
theorem Kept.regroupMove {lo : Nat} {s : State} (h : Kept lo s) {ci plot role : Nat} {groups : List (List (Nat × Nat))} {tines : List (List Nat)} {d m : Nat} :
    Kept lo (regroupMove s ci plot role groups tines d m) := by
  unfold Machine.regroupMove
  extract_lets c all f moved old keep c1 s0 s1 s2 s3
  have hc := h.get ci
  have hm : ∀ e ∈ moved, RegsKept e.2 := by
    intro e he
    obtain ⟨x, _, hx⟩ := List.mem_filterMap.1 he
    obtain ⟨th, ht, hx⟩ := Option.map_eq_some_iff.1 hx
    cases hx
    exact (hc.regs.get ht : RegsKept th).tmap
  have h1 : CoreKept c1 := by
    refine renameCore_kept ⟨tsorted_foldl_tput _ _ _ _ (tsorted_filter _ _ hc.threads), ?_, tsorted_tupd _ _ _ hc.plots, hc.frags, tsorted_foldl_tdel _ _ hc.sheaves, hc.l1⟩
    exact (hc.regs.filter _).foldl_tput _ _ _ fun _ _ => hm
  have h0 : Kept lo s0 := h.putCore h1 ci
  have h2 : Kept lo s1 := h0.mapReqs fun _ _ _ hr => renameReq_kept hr
  have h3 : Kept lo s2 := h2.clusterFields fun _ => rfl
  have h4 : Kept lo s3 := h3.dropDeposits
  refine .foldl (fun s g hs => ?_) _ h4
  extract_lets tids mem s5 c5 k c6 s6 s7
  have h5 : Kept lo s5 := hs.makeSheaf
  have h5c : CoreKept c5 := h5.get ci
  have h6c : CoreKept c6 := by
    refine h5c.mapThreads fun t th ht => ?_
    split
    · dsimp only
      exact RegsKept.tmap ht
    · exact ht
  have h6 : Kept lo s6 := h5.putCore h6c ci
  dsimp only [s7]
  split
  · exact h6
  · refine .foldl (fun s t hs => ?_) _ h6
    split
    · exact hs
    · refine .foldl (fun s e hs => ?_) _ hs
      split
      · exact hs
      · split
        · exact hs.fallowPut.fallowPut
        · exact hs.fallowPut
theorem Kept.regroupEnd {lo : Nat} {s : State} (h : Kept lo s) {ci : Nat} {l : List Nat} : Kept lo (regroupEnd s ci l) := by
  unfold Machine.regroupEnd
  extract_lets regs s1 old s2
  have h1 : Kept lo s1 := h.updThreads fun th ht => RegsKept.writeReg (th := { th with moving := none, pc := th.nextPc, fresh := false }) ht
  have h2 : Kept lo s2 := (h1.updCore fun _ hc => .foldl (fun _ _ hc => hc.retag) _ hc).settleBanks
  exact .foldl (fun _ _ hs => hs.stepDone) _ h2
theorem Kept.moveOn {lo : Nat} {s : State} (h : Kept lo s) {ci : Nat} : Kept lo (moveOn s ci) := by
  unfold Machine.moveOn
  refine Kept.regroupEnd ?_
  exact h.updThreads fun _ ht => ht
theorem Kept.regroupRun {lo : Nat} {s : State} (h : Kept lo s) {o : SyR1} : Kept lo (regroupRun o s) := by
  unfold Machine.regroupRun
  dsimp only
  split
  · exact h.drillDone
  · split
    · exact h.drillDone
    · split
      · refine Kept.drillDone (Kept.takeFaults (Kept.clearRdv ?_))
        exact h.updThreads fun _ ht => ht
      · refine Kept.drillDone (Kept.setCur ?_)
        refine Kept.updThreads (Kept.settleBanks (Kept.regroupMove ?_)) ?_
        · exact h.updThreads fun _ ht => startWait_kept (RegsKept.release (orFlags_kept ht))
        · exact fun _ ht => ht
theorem Kept.expandSheaf {lo : Nat} {s : State} (h : Kept lo s) {l : List Nat} {r : Nat} : Kept lo (expandSheaf s l r) :=
  (h.putCore (h.get s.cur.core).retagGeneral s.cur.core).settleBanks

/-! ### Control -/

theorem goTo_keeps {lo : Nat} {t : DWord} {link : Bool} : KeepsPart lo (goTo t link) := fun _ _ _ h _ => h.transferTo
theorem spawnChild_kept {s : State} {th : Thread} {target : DWord} {b t : Nat} (h : RegsKept th) : RegsKept (spawnChild s th target b t) :=
  tsorted_map (fun e : Nat × RegCell => (e.1, ({ val := e.2.val } : RegCell))) (fun _ => rfl) (th.regs.filter fun e => decide (e.1 < 8)) (tsorted_filter _ _ h)
theorem spawnPart_keeps {lo : Nat} {o : BrOp} : KeepsPart lo (spawnPart o) := by
  intro s t th h ht
  unfold spawnPart
  dsimp only
  split
  · exact h
  · split
    · next he => exact h.transferTo.snd he
    · next he => exact h.transferTo.snd he
    · next s1 he =>
      have h1 : Kept lo s1 := h.transferTo.snd he
      split
      · next he => exact h1.spawnPlace.snd he
      · next b t' s2 he =>
        have h2 : Kept lo s2 := h1.spawnPlace.snd he
        have h3 : Kept lo (Machine.updCore s2 s.cur.core fun c => { c with
          threads := tput c.threads t' (spawnChild s2 th (brTarget s.cur.pc o) b t')
          bins := tupd c.bins b fun x => { x with members := x.members ++ [t'] } }) := h2.updCore fun c hc => { hc.putThread (spawnChild_kept ht) t' with }
        dsimp only
        split
        · exact h3.settleBanks.launchBin
        · exact h3.settleBanks
theorem exitPart_keeps {lo : Nat} : KeepsPart lo fun s t _ => (Machine.endThread s s.cur.core t, { gone := true }) := fun _ _ _ h _ => h.endThread
theorem Kept.joinEnter {lo : Nat} {s : State} (h : Kept lo s) {ci t b d : Nat} : Kept lo (joinEnter s ci t b d).1 := by
  have h1 : Kept lo (Machine.updCore (Machine.leaveSheaf s ci t) ci fun c => { c with bins := tupd c.bins b fun x => { x with members := x.members ++ [t] } }) :=
    h.leaveSheaf.updCore fun _ hc => { hc with }
  exact .ite h1.closeJoin h1
theorem joinPart_keeps {lo : Nat} {o : SyRR} : KeepsPart lo (joinPart o) := by
  intro s t th h ht
  unfold joinPart
  dsimp only
  split
  · exact h
  · split
    · exact h
    · split
      · split
        · exact h
        · exact h.joinEnter
      · split
        · exact h
        · exact h.setBins.joinEnter
theorem leavePart_keeps {lo : Nat} : KeepsPart lo fun s t _ => (Machine.leaveSheaf s s.cur.core t, {}) := fun _ _ _ h _ => h.leaveSheaf
theorem fusePart_keeps {lo : Nat} {n : Nat} : KeepsPart lo (fusePart n) := by
  intro s t th h ht
  unfold fusePart
  split
  · exact h
  · split
    · exact h
    · exact h.updCore fun _ hc => hc.updSheaf
theorem yieldPart_keeps {lo : Nat} {n : Nat} :
    KeepsPart lo fun s t _ => (Machine.updThread s s.cur.core t fun th => { th with lowUntil := some ((getCore s s.cur.core).cyc + n) }, {}) :=
  fun _ _ _ h _ => h.updThread fun _ ht => ht
theorem Kept.execFuseHoldExpiry {lo : Nat} {s : State} (h : Kept lo s) {core k : Nat} {pc : DWord} : OutKept lo (execFuseHoldExpiry core k pc s) := by
  unfold Machine.execFuseHoldExpiry
  dsimp only [OutKept]
  split
  · exact .ite h.releaseFuse h
  · exact h
theorem Kept.execJoinBinTimerExpiry {lo : Nat} {s : State} (h : Kept lo s) {core b : Nat} : OutKept lo (execJoinBinTimerExpiry core b s) := by
  unfold Machine.execJoinBinTimerExpiry
  dsimp only [OutKept]
  split
  · exact .ite h.closeJoin.finishJoins h
  · exact h
theorem Kept.execSpawnBinTimerExpiry {lo : Nat} {s : State} (h : Kept lo s) {core b : Nat} : OutKept lo (execSpawnBinTimerExpiry core b s) := by
  unfold Machine.execSpawnBinTimerExpiry
  dsimp only [OutKept]
  split
  · exact .ite h.launchBin h
  · exact h
end Sys2Proof.Machine

/-! ### Memory events and engines keep the state well-kept -/
namespace Sys2Proof.Machine
open Sys2Proof

theorem Kept.putLdsp {lo : Nat} {s : State} (h : Kept lo s) {id : Nat} {o : LdspReq} (hid : id < lo) (hd : o.drill < lo) : Kept lo (putLdsp s id o) :=
  h.putReqAt hid (ReqKept.ldsp.2 hd)
theorem Kept.putStn {lo : Nat} {s : State} (h : Kept lo s) {id : Nat} {o : StnReq} (hid : id < lo) (hd : o.drill < lo) : Kept lo (putStn s id o) :=
  h.putReqAt hid (ReqKept.stn.2 hd)
theorem Kept.ldspOf {lo : Nat} {s : State} (h : Kept lo s) {id : Nat} {o : LdspReq} (ho : ldspOf s id = some o) : id < s.nextId ∧ o.drill < s.nextId := by
  unfold Machine.ldspOf at ho
  split at ho
  · next q hq =>
    cases ho
    exact ⟨h.reqsKept.lt hq, ReqKept.ldsp.1 (h.reqsKept.drills _ (tget_mem _ _ _ hq))⟩
  · nomatch ho
theorem Kept.stnOf {lo : Nat} {s : State} (h : Kept lo s) {id : Nat} {o : StnReq} (ho : stnOf s id = some o) : id < s.nextId ∧ o.drill < s.nextId := by
  unfold Machine.stnOf at ho
  split at ho
  · next q hq =>
    cases ho
    exact ⟨h.reqsKept.lt hq, ReqKept.stn.1 (h.reqsKept.drills _ (tget_mem _ _ _ hq))⟩
  · nomatch ho
theorem Kept.atomOf {lo : Nat} {s : State} (h : Kept lo s) {id : Nat} {o : AtomOp} (ho : atomOf s id = some o) : id < s.nextId ∧ o.drill < s.nextId := by
  unfold Machine.atomOf at ho
  split at ho
  · next q hq =>
    cases ho
    exact ⟨h.reqsKept.lt hq, ReqKept.atomic.1 (h.reqsKept.drills _ (tget_mem _ _ _ hq))⟩
  · nomatch ho
theorem le_max_next (lo n : Nat) : n ≤ max lo n := Nat.le_max_right _ _
theorem ldspPart_keeps {lo : Nat} {o : LdspOp} {id0 : Nat} {act : List (Nat × Thread)} (h0 : id0 < lo) : KeepsPart lo (ldspPart o id0 act) := by
  intro s t th h ht
  unfold ldspPart
  extract_lets ci a who
  split
  · exact h
  · exact h
  · exact h
  · split
    · exact h
    · exact h
    · extract_lets key k l m hit same s1
      split
      · exact h
      · have h1 : Kept lo s1 := .ite h.drainLine h
        have h2 : Kept _ (Machine.freshId s1).2 := h1.fresh
        have put : ∀ q : LdspReq, q.drill = id0 → Kept lo (Machine.putLdsp (Machine.freshId s1).2 (Machine.freshId s1).1 q) := fun q hq =>
          (h2.putLdsp (fresh_lt rfl) (hq ▸ Nat.lt_of_lt_of_le h0 (Nat.le_max_left _ _))).lower
        exact (put _ (by rfl)).objIssue
theorem Kept.runLdsp {lo : Nat} {s : State} (h : Kept lo s) {o : LdspOp} : Kept lo (runLdsp o s) := by
  have h1 : Kept (max lo (s.nextId + 1)) (Machine.freshId s).2 := h.fresh
  exact (h1.runDrill (ldspPart_keeps (fresh_lt rfl))).lsuPass.lower
theorem lineMates_mem {s : State} {o : LdspReq} {e : Nat × LdspReq} (he : e ∈ lineMates s o) : (e.1, Req.ldsp e.2) ∈ s.reqs := by
  obtain ⟨x, hx, hxe⟩ := List.mem_filterMap.1 he
  split at hxe
  · next q hq =>
    split at hxe
    · cases hxe
      rwa [← hq]
    · nomatch hxe
  · nomatch hxe
theorem Kept.ldspRead {lo : Nat} {s : State} (h : Kept lo s) {o : LdspReq} : Kept lo (ldspRead s o) := by
  unfold Machine.ldspRead
  extract_lets l
  split
  · refine .foldl (fun s e hs => ?_) _ h
    exact hs.delReq.objLost
  · split
    next v g s1 he =>
    have hr : Kept (max lo s.nextId) s1 := by
      have := h.raise.serveLoad (ci := o.core) (plot := o.plot) (loc := wholeLine o.src) (n := 128) (a := false)
      rwa [he] at this
    have hl : ∀ e ∈ l, e.1 < s.nextId ∧ e.2.drill < s.nextId := fun e he =>
      ⟨h.reqsKept.ids _ (lineMates_mem he), ReqKept.ldsp.1 (h.reqsKept.drills _ (lineMates_mem he))⟩
    refine (Kept.foldlMem l (fun s' e he hs => ?_) (hr.dropClean.notePlot (ci := o.core))).lower
    obtain ⟨hi, hd⟩ := hl e he
    refine Kept.raiseAll (hs.putLdsp (Nat.lt_of_lt_of_le hi (le_max_next _ _)) ?_)
    exact Nat.lt_of_lt_of_le hd (le_max_next _ _)
theorem Kept.execLdspWrite {lo : Nat} {s : State} (h : Kept lo s) {id : Nat} : OutKept lo (execLdspWrite id s) := by
  unfold Machine.execLdspWrite
  dsimp only [OutKept]
  split
  · exact h
  · split
    · exact .ite h.ldspRead h
    · split
      · exact h
      · exact h.delReq.scrWrite.objArriveBytes
theorem stnPart_keeps {lo : Nat} {o : StnOp} {id0 : Nat} {act : List (Nat × Thread)} (h0 : id0 < lo) : KeepsPart lo (stnPart o id0 act) := by
  intro s t th h ht
  unfold stnPart
  extract_lets ci a
  split
  · exact h
  · exact h
  · exact h
  · next loc _ =>
    split
    · exact h
    · split
      · exact h
      · have h1 : Kept lo (Machine.flushLine s ci (lineKey loc)) := h.flushLine
        have h2 : Kept _ (Machine.freshId (Machine.flushLine s ci (lineKey loc))).2 := h1.fresh
        have put : ∀ q : StnReq, q.drill = id0 →
            Kept lo (Machine.putStn (Machine.freshId (Machine.flushLine s ci (lineKey loc))).2 (Machine.freshId (Machine.flushLine s ci (lineKey loc))).1 q) := fun q hq =>
          (h2.putStn (fresh_lt rfl) (hq ▸ Nat.lt_of_lt_of_le h0 (Nat.le_max_left _ _))).lower
        exact (put _ (by rfl)).objIssue
theorem stnTimed_kept {s : State} {id0 last n : Nat} {r : Req} (h : ReqKept n r) : ReqKept n (stnTimed s id0 last r) := by
  unfold stnTimed
  split
  · split
    · have hd := ReqKept.stn.1 h
      exact ReqKept.stn.2 hd
    · exact h
  · exact h
theorem Kept.runStn {lo : Nat} {s : State} (h : Kept lo s) {o : StnOp} : Kept lo (runStn o s) := by
  have h1 : Kept (max lo (s.nextId + 1)) (Machine.freshId s).2 := h.fresh
  have h2 := (h1.runDrill (i := .stn o) (lat := latInt) (stnPart_keeps (o := o) (act := activeThreads (.stn o) (Machine.freshId s).2) (fresh_lt rfl))).lower
  exact h2.lsuPass.mapReqs fun _ _ _ hr => stnTimed_kept hr
theorem Kept.execStnCompletion {lo : Nat} {s : State} (h : Kept lo s) {id : Nat} : OutKept lo (execStnCompletion id s) := by
  unfold Machine.execStnCompletion
  dsimp only [OutKept]
  split
  · exact h
  · next o ho =>
    obtain ⟨hi, hd⟩ := h.stnOf ho
    split
    · split
      · exact h
      · refine (Kept.notePlot (Kept.putStn h.raise.homeStore.dropL2.dropClean (Nat.lt_of_lt_of_le hi (le_max_next _ _)) ?_)).lower
        exact Nat.lt_of_lt_of_le hd (le_max_next _ _)
    · split
      · exact h.delReq.objArriveBytes
      · exact h
theorem Kept.bindPart {lo : Nat} {s : State} (h : Kept lo s) {id : Nat} {p : LoadPart} {v : Nat} {bad : Bool} (hid : id < lo) : Kept lo (bindPart s id p v bad) := h.updLoad hid
theorem Kept.execHomeLoadService {lo : Nat} {s : State} (h : Kept lo s) {id t : Nat} : OutKept lo (execHomeLoadService id t s) := by
  unfold Machine.execHomeLoadService
  dsimp only [OutKept]
  split
  · next o hr =>
    have hi : id < max lo s.nextId := Nat.lt_of_lt_of_le (h.reqsKept.lt hr) (le_max_next _ _)
    split
    · exact h
    · split
      · exact h
      · split
        · exact (h.raise.bindPart hi).lower
        · exact (h.raise.serveLoad.raiseAll.notePlot.bindPart hi).lower
  · exact h
theorem Kept.loadErrors {lo : Nat} {s : State} (h : Kept lo s) {id : Nat} {o : LoadOp} : Kept lo (loadErrors s id o) := by
  unfold Machine.loadErrors
  split
  · exact h
  · exact h.setFree.emitR.lateThreads.freezePlot
theorem Kept.execLoadDataReturn {lo : Nat} {s : State} (h : Kept lo s) {id : Nat} : OutKept lo (execLoadDataReturn id s) := by
  unfold Machine.execLoadDataReturn
  dsimp only [OutKept]
  split
  · split
    · exact h
    · split
      · exact h.delReq
      · exact h.delReq.fillRegs.loadErrors
  · exact h
theorem Kept.execAtomicRequestPerform {lo : Nat} {s : State} (h : Kept lo s) {id : Nat} : OutKept lo (execAtomicRequestPerform id s) := by
  unfold Machine.execAtomicRequestPerform
  dsimp only [OutKept]
  split
  · exact h
  · next o ho =>
    obtain ⟨hi, hd⟩ := h.atomOf ho
    split
    · exact h
    · refine (Kept.notePlot (Kept.putAtom (h.raise.atomPerform.dropL2.dropClean) (Nat.lt_of_lt_of_le hi (le_max_next _ _)) ?_)).lower
      rw [atomPerform_drill]
      exact Nat.lt_of_lt_of_le hd (le_max_next _ _)
theorem Kept.atomFill {lo : Nat} {s : State} (h : Kept lo s) {o : AtomOp} : Kept lo (atomFill s o) := by
  unfold Machine.atomFill
  dsimp only
  split
  · exact h
  · refine Kept.fillRegs (Kept.foldl (fun s e hs => ?_) _ h)
    exact hs.delReq
theorem Kept.execAtomicAck {lo : Nat} {s : State} (h : Kept lo s) {id : Nat} : OutKept lo (execAtomicAck id s) := by
  unfold Machine.execAtomicAck
  dsimp only [OutKept]
  split
  · exact h
  · next o ho =>
    obtain ⟨hi, hd⟩ := h.atomOf ho
    split
    · exact h
    · split
      · refine Kept.delReq (.foldl (fun s x hs => ?_) _ h)
        exact hs.updThread fun _ ht => ht
      · refine (Kept.atomFill (Kept.putAtom (.foldl (fun s x hs => ?_) _ h.raise) (Nat.lt_of_lt_of_le hi (le_max_next _ _)) ?_)).lower
        · exact hs.updThread fun _ ht => ht
        · exact Nat.lt_of_lt_of_le hd (le_max_next _ _)
theorem Kept.execDirtyLineDrain {lo : Nat} {s : State} (h : Kept lo s) {core : Nat} : OutKept lo (execDirtyLineDrain core s) := by
  unfold Machine.execDirtyLineDrain
  dsimp only [OutKept]
  split
  · exact h
  · exact h.drainLine
theorem Kept.execHomeStorePerform {lo : Nat} {s : State} (h : Kept lo s) {id : Nat} : OutKept lo (execHomeStorePerform id s) := by
  unfold Machine.execHomeStorePerform
  dsimp only [OutKept]
  split
  · split
    · exact h
    · refine .foldl (fun _ _ hs => hs.notePlot) _ (Kept.updCore (Kept.dropClean (Kept.dropL2 (Kept.delReq h.homeStore))) ?_)
      exact fun _ hc => { hc with }
  · exact h
theorem expireLines_kept {s : State} {t : Tbl Line} (h : tsorted t = true) : tsorted (expireLines s t) = true := tsorted_filter _ _ (tsorted_tmap _ _ h)
theorem Kept.execLeaseExpiry {lo : Nat} {s : State} (h : Kept lo s) : OutKept lo (execLeaseExpiry s) := by
  have h1 : Kept lo { s with l2 := expireLines s s.l2 } := h.setL2 (expireLines_kept h.l2)
  exact h1.mapCores fun _ c hc => { hc with l1 := expireLines_kept hc.l1 }
theorem Kept.reissue {lo : Nat} {s : State} (h : Kept lo s) {d : Drill} : Kept lo (reissue s d) := h.same rfl
theorem Kept.execPageWalkComplete {lo : Nat} {s : State} (h : Kept lo s) {cluster walk : Nat} : OutKept lo (execPageWalkComplete cluster walk s) := by
  unfold Machine.execPageWalkComplete
  dsimp only
  split
  · exact h
  · next w _ =>
    have h1 := Kept.clusterWalk (h.clusterFields (k := cluster) (f := fun k => { k with walks := tdel k.walks walk }) fun _ => by rfl) (cl := cluster) (ctx := w.ctx) (va := w.page)
    split
    · trivial
    · exact .foldl (fun _ _ hs => hs.reissue) _ (.foldl (fun _ _ hs => hs.coreTlbFill) _ h1.tlbFill)
    · exact .foldl (fun _ _ hs => hs.reissue) _ h1
    · exact .foldl (fun _ _ hs => hs.reissue) _ h1
theorem refillLate_kept {old : Core} {r n t : Nat} {th : Thread} (h : RegsKept th) : RegsKept (refillLate old r n t th) := by
  unfold refillLate
  split
  · exact .ite h.tput h
  · exact h
theorem Kept.setCur1 {lo : Nat} {s : State} (h : Kept lo s) {d : Drill} : Kept lo { s with cur := d } := h.same rfl
theorem Kept.execFallowRefill {lo : Nat} {s : State} (h : Kept lo s) {core tid r : Nat} : OutKept lo (execFallowRefill core tid r s) := by
  unfold Machine.execFallowRefill
  dsimp only [OutKept]
  split
  · refine Kept.updCore (Kept.setCur1 (Kept.lsuPass (Kept.setCur1 h.refillReg))) ?_
    exact fun _ hc => hc.mapThreads fun _ _ ht => refillLate_kept ht
  · exact h.refillReg
theorem Kept.loseStore {lo : Nat} {s : State} (h : Kept lo s) {ci t a : Nat} : Kept lo (loseStore s ci t a) := h.updThread fun _ ht => ht
theorem Kept.execFabricResponseTimeout {lo : Nat} {s : State} (h : Kept lo s) {id : Nat} : OutKept lo (execFabricResponseTimeout id s) := by
  unfold Machine.execFabricResponseTimeout
  dsimp only [OutKept]
  split
  · exact h
  · next o hr =>
    split
    · exact h
    · split
      · exact h.delReq
      · refine Kept.lateThreads ?_
        have h1 := fun f => (h.raise.updLoad (f := f) (Nat.lt_of_lt_of_le (h.reqsKept.lt hr) (le_max_next _ _))).lower
        split
        · exact (h1 _).delReq
        · exact h1 _
  · split
    · exact h
    · split
      · exact h.delReq.lateThreads.atomFill
      · exact Kept.emitR (.foldl (fun _ _ hs => hs.loseStore) _ h.delReq)
  · split
    · exact h
    · exact Kept.emitR (.foldl (fun _ _ hs => hs.loseStore) _ h.delReq)
  · split
    · exact h
    · exact h.delReq.objLost
  · split
    · exact h
    · exact Kept.objLost (Kept.emitR (Kept.delReq (.foldl (fun _ _ hs => hs.loseStore) _ h)))

/-! ### Engines -/

/-- Folding over a state that is part of something larger. -/
theorem Kept.foldlOn {lo : Nat} {α σ : Type} (g : σ → State) {f : σ → α → σ} (hf : ∀ a x, Kept lo (g a) → Kept lo (g (f a x))) (l : List α) {a : σ} (h : Kept lo (g a)) :
    Kept lo (g (l.foldl f a)) := by
  induction l generalizing a with
  | nil => exact h
  | cons x l ih => exact ih (hf a x h)

theorem Kept.engPieces {lo : Nat} {cl : Option Nat} {ctx : Nat} {wr : Bool} (n : Nat) : ∀ {va m : Nat} {s : State}, Kept lo s → Kept lo (engPieces cl ctx wr n va m s).2 := by
  induction n with
  | zero => exact fun h => h
  | succ n ih =>
    intro va m s h
    rw [Machine.engPieces]
    split
    · exact h
    · dsimp only
      split
      · exact h
      · split
        · next he => exact h.engTranslate.snd he
        · next he => exact h.engTranslate.snd he
        · next he =>
          have h1 := h.engTranslate.snd he
          split
          · exact h1
          · split
            · next he2 => exact (ih h1).snd he2
            · exact ih h1
theorem Kept.engPlan {lo : Nat} {s : State} (h : Kept lo s) {cl : Option Nat} {ctx va n : Nat} {wr : Bool} : Kept lo (engPlan s cl ctx va n wr).2 := Kept.engPieces _ h
theorem Kept.planRead {lo : Nat} {s : State} (h : Kept lo s) {ctx : Nat} {l : List (Loc × Nat)} : Kept lo (planRead s ctx l).2 := by
  refine Kept.foldlSnd (a := ([], s)) (fun a p ha => ?_) l h
  split
  · exact ha
  · exact ha.freeBytes
theorem Kept.planWrite {lo : Nat} {s : State} (h : Kept lo s) {ctx : Nat} {l : List (Loc × Nat)} {bs : List Byte} : Kept lo (planWrite s ctx l bs).2 := by
  refine Kept.foldlOn (fun a : Nat × List Byte × State => a.2.2) (fun a p ha => ?_) l h
  dsimp only
  split
  · dsimp only
    refine Kept.foldlOn (fun b : Nat × State => b.2) (fun b i hb => ?_) _ ?_
    · exact hb.homeStored
    · exact ha.keyedWrite
  · exact ha.freeTime (n := Config.leaseMax + Config.guardFar)
end Sys2Proof.Machine

/-! ### Copy channels and gathers keep the state well-kept -/
namespace Sys2Proof.Machine
open Sys2Proof

theorem Kept.updChannel {lo : Nat} {s : State} (h : Kept lo s) {cl ch : Nat} {f : Channel → Channel} : Kept lo (updChannel s cl ch f) := h.clusterFields fun _ => by rfl
theorem Kept.fillEnd {lo : Nat} {s : State} (h : Kept lo s) {c : CopyCmd} {w : Nat} : Kept lo (fillEnd s c w) := h.fillRegs
theorem Kept.dropCmd {lo : Nat} {s : State} (h : Kept lo s) {cl w : Nat} {c : CopyCmd} : Kept lo (dropCmd cl w s c) := by
  unfold Machine.dropCmd
  extract_lets s1
  have h1 : Kept lo s1 := .ite h h.fillEnd
  split
  · exact h1
  · split
    · exact h1
    · exact h1.objBreak
theorem Kept.dropQueue {lo : Nat} {s : State} (h : Kept lo s) {cl ch : Nat} : Kept lo (dropQueue s cl ch) := Kept.foldl (fun _ _ hs => hs.dropCmd) _ h.updChannel
theorem copyStartPart_keeps {lo ch : Nat} {d : RegNo} {a : Src} {act : List Nat} : KeepsPart lo (copyStartPart ch d a act) := by
  intro s t th h ht
  unfold copyStartPart
  extract_lets ci cl blk
  split
  · exact h
  · split
    · exact h
    · split
      · exact h
      · dsimp only
        exact h.freshId.updChannel
theorem Kept.failPointers {lo : Nat} {s : State} (h : Kept lo s) {cl ch : Nat} : Kept lo (failPointers s cl ch) := by
  refine Kept.foldl (fun s ci hs => Kept.foldl (fun s e hs => ?_) _ hs) _ h
  split
  · exact .ite hs.faultThread hs
  · exact hs
theorem copyCancelPart_keeps {lo ch : Nat} : KeepsPart lo (copyCancelPart ch) := by
  intro s t th h ht
  unfold copyCancelPart
  dsimp only
  split
  · exact h
  · exact h.dropQueue.failPointers
theorem copyWprPart_keeps {lo ch : Nat} {d : RegNo} : KeepsPart lo (copyWprPart ch d) := by
  intro s t th h ht
  unfold copyWprPart
  split <;> exact h
theorem Kept.channelFault {lo : Nat} {s : State} (h : Kept lo s) {cl ch : Nat} {c : CopyCmd} {sub page : Nat} {svc : Bool} : Kept lo (channelFault s cl ch c sub page svc) :=
  h.updChannel.engineFrag
theorem Kept.execCopyCommandAccept {lo : Nat} {s : State} (h : Kept lo s) {cl ch : Nat} : OutKept lo (execCopyCommandAccept cl ch s) := by
  unfold Machine.execCopyCommandAccept
  dsimp only [OutKept]
  split
  · exact h
  · split
    · exact h
    · split
      · exact h.channelFault
      · exact h.emitR.updChannel.fillEnd
theorem Kept.chunkBytes {lo : Nat} {cl ctx : Nat} {c : CopyCmd} {row : Nat} (l : List Nat) : ∀ {s : State}, Kept lo s → Kept lo (chunkBytes cl ctx c row l s).2 := by
  induction l with
  | nil => exact fun h => h
  | cons k l ih =>
    intro s h
    rw [Machine.chunkBytes]
    extract_lets r0
    generalize hr : (if k ≥ c.boxes.headD 1 then _ else _ : ChunkRes × State) = r
    have h1 : Kept lo r.2 := by
      rw [← hr]
      split
      · exact h.freeBytes
      · split
        · exact h
        · split
          · next he => exact (h.engPlan.snd he).planRead
          · next he => exact h.engPlan.snd he
          · next he => exact h.engPlan.snd he
    split
    · split
      · next he => exact (ih h1).snd he
      · exact ih h1
    · exact h1
theorem Kept.deliverChunk {lo : Nat} {s : State} (h : Kept lo s) {cl : Nat} {c : CopyCmd} {off : Nat} : Kept lo (deliverChunk s cl c off).2 := by
  unfold Machine.deliverChunk
  extract_lets rb row k0
  split
  · next he =>
    have h1 := Kept.snd (Kept.chunkBytes _ h) he
    split
    · exact h1
    · exact h1.scrWrite
  · exact Kept.chunkBytes _ h
theorem Kept.deliverTo {lo : Nat} {cl : Nat} {c : CopyCmd} {stop : Nat} (n : Nat) : ∀ {off : Nat} {s : State}, Kept lo s → Kept lo (deliverTo cl c stop n off s).2.2.2 := by
  induction n with
  | zero => exact fun h => h
  | succ n ih =>
    intro off s h
    rw [Machine.deliverTo]
    split
    · exact h
    · split
      · next he => exact ih (h.deliverChunk.snd he)
      · next he => exact h.deliverChunk.snd he
      · next he => exact h.deliverChunk.snd he
theorem Kept.copyDeliver {lo : Nat} {s : State} (h : Kept lo s) {cl ch : Nat} {k : Channel} {c : CopyCmd} {rest : List CopyCmd} : Kept lo (copyDeliver s cl ch k c rest) := by
  unfold Machine.copyDeliver
  extract_lets stop n c' fin
  have hd := Kept.deliverTo (cl := cl) (c := c) (stop := stop) 9 (off := c.done) h
  split
  · next he =>
    rw [he] at hd
    exact Kept.channelFault hd
  · next he =>
    rw [he] at hd
    exact hd
  · next s1 he =>
    rw [he] at hd
    have hd1 : Kept lo s1 := hd
    extract_lets s2 s3 s4
    have h3 : Kept lo s3 := by
      dsimp only [s3]
      split
      · exact hd1.updChannel.objCredit
      · exact hd1.updChannel
    have h4 : Kept lo s4 := .ite h3.emitR h3
    exact h4.wakePointers
theorem Kept.freezeMaster {lo : Nat} {s : State} (h : Kept lo s) {kind id group queue : Nat} {tag unit : Word} {cid : DWord} :
    Kept lo (freezeMaster s kind id group queue tag unit cid) := by
  unfold Machine.freezeMaster
  exact Kept.emitR (Kept.ringPost (.ite h.setFrozen h.countDrop))
theorem Kept.jobDeliver {lo : Nat} {s : State} (h : Kept lo s) {cl ch : Nat} {j : CopyJob} : Kept lo (jobDeliver s cl ch j) := by
  unfold Machine.jobDeliver
  extract_lets n fail
  have hf : ∀ s p w, Kept lo s → Kept lo (fail s p w) := fun s p w hs => Kept.setFwEvents hs.updChannel
  split
  · next he => exact hf _ _ _ (h.engPlan.snd he)
  · next he => exact h.engPlan.snd he
  · next he =>
    have h1 := h.engPlan.snd he
    split
    · next he => exact hf _ _ _ (h1.engPlan.snd he)
    · next he => exact h1.engPlan.snd he
    · next he =>
      have h2 := h1.engPlan.snd he
      exact .ite h2.planRead.planWrite.updChannel.emitR h2.planRead.planWrite.updChannel
theorem Kept.execCopyChunkDelivery {lo : Nat} {s : State} (h : Kept lo s) {cl ch : Nat} : OutKept lo (execCopyChunkDelivery cl ch s) := by
  unfold Machine.execCopyChunkDelivery
  dsimp only [OutKept]
  split
  · exact h
  · split
    · exact .ite h h.jobDeliver
    · exact .ite h.copyDeliver h
    · exact h
theorem Kept.setProg {lo : Nat} {s : State} (h : Kept lo s) {ci : Nat} {l : List Nat} {id n : Nat} : Kept lo (setProg s ci l id n) := h.updThreads fun _ ht => .ite ht ht
theorem gathPart_keeps {lo : Nat} {a : Src} {act : List Nat} : KeepsPart lo (gathPart a act) := by
  intro s t th h ht
  unfold gathPart
  extract_lets ci tids
  split
  · exact h
  · split
    · exact h
    · dsimp only
      refine Kept.updThreads (Kept.updCore h.freshId ?_) ?_
      · exact fun _ hc => { hc with }
      · exact fun _ ht => ht
theorem Kept.updGather {lo : Nat} {s : State} (h : Kept lo s) {ci id : Nat} {f : Gather → Gather} : Kept lo (updGather s ci id f) := h.updCore fun _ hc => { hc with }
theorem Kept.gatherFault {lo : Nat} {s : State} (h : Kept lo s) {ci : Nat} {g : Gather} {sub page : Nat} {svc : Bool} : Kept lo (gatherFault s ci g sub page svc) := h.updGather.engineFrag
theorem Kept.gatherStep {lo : Nat} {s : State} (h : Kept lo s) {ci : Nat} {g : Gather} : Kept lo (gatherStep s ci g) := by
  unfold Machine.gatherStep
  extract_lets cl ctx
  split
  · exact h.gatherFault
  · split
    · next he => exact (h.engPlan.snd he).gatherFault
    · next he => exact h.engPlan.snd he
    · next he =>
      have h1 := h.engPlan.snd he
      extract_lets r s2 s3 s4
      have h3 : Kept lo s3 := h1.planRead.scrWrite.setProg
      have h4 : Kept lo s4 := by
        dsimp only [s4]
        split
        · exact h3.updCore fun _ hc => { hc with }
        · exact h3.updGather
      exact h4.objCredit
  · exact h.gatherFault
theorem Kept.execGatherElement {lo : Nat} {s : State} (h : Kept lo s) {core id : Nat} : OutKept lo (execGatherElement core id s) := by
  unfold Machine.execGatherElement
  dsimp only [OutKept]
  split
  · exact .ite h h.gatherStep
  · exact h
end Sys2Proof.Machine

/-! ### Collectives between devices and the fabric keep the state well-kept -/
namespace Sys2Proof.Machine
open Sys2Proof

theorem Kept.setComms {lo : Nat} {s : State} (h : Kept lo s) {t : Tbl Comm} : Kept lo { s with comms := t } := h.same rfl
theorem Kept.collArrive {lo : Nat} {s : State} (h : Kept lo s) {o : CollOp} : Kept lo (collArrive s o) := by
  unfold Machine.collArrive
  split
  · exact h
  · exact h.same rfl
theorem Kept.setCollHeld {lo : Nat} {s : State} (h : Kept lo s) {l : List CollOp} : Kept lo { s with collHeld := l } := h.same rfl
theorem Kept.collRefuse {lo : Nat} {s : State} (h : Kept lo s) {o : CollOp} {sub : Nat} : Kept lo (collRefuse s o sub) := h.setCollHeld.engineFrag
theorem Kept.updHead {lo : Nat} {s : State} (h : Kept lo s) {comm : Nat} {f : CollOp → CollOp} : Kept lo (updHead s comm f) := h.setComms
theorem Kept.collTransFault {lo : Nat} {s : State} (h : Kept lo s) {o : CollOp} {page : Nat} {wr : Bool} : Kept lo (collTransFault s o page wr) := by
  unfold Machine.collTransFault
  dsimp only
  split
  · exact .ite h.updHead h.updHead.engineFrag
  · exact h.updHead.setFwEvents
theorem Kept.startStep {lo : Nat} {s : State} (h : Kept lo s) {comm k : Nat} {sent : Bool} : Kept lo (startStep s comm k sent) := by
  unfold Machine.startStep
  split
  · exact h
  · split
    · exact h
    · exact h.updHead.emitR
theorem Kept.planRanges {lo : Nat} {ctx base w : Nat} {wr : Bool} (l : List (Nat × Nat)) : ∀ {s : State}, Kept lo s → Kept lo (planRanges s ctx base w wr l).2 := by
  induction l with
  | nil => exact fun h => h
  | cons r l ih =>
    intro s h
    rw [Machine.planRanges]
    split
    · next he =>
      have h1 := h.engPlan.snd he
      split
      · next he => exact (ih h1).snd he
      · exact ih h1
    · exact h.engPlan
theorem Kept.writeParts {lo : Nat} {ctx dst : Nat} (l : List (Nat × List Byte)) : ∀ {s : State}, Kept lo s → Kept lo (writeParts s ctx dst l).2.2 := by
  induction l with
  | nil => exact fun h => h
  | cons p l ih =>
    intro s h
    rw [Machine.writeParts]
    split
    · next he =>
      have h1 := ih (h.engPlan.snd he)
      split
      · next he =>
        rw [he] at h1
        exact Kept.planWrite h1
      · exact h1
    · next he => exact h.engPlan.snd he
theorem Kept.third {lo : Nat} {α β : Type} {p : α × β × State} (h : Kept lo p.2.2) {a : α} {b : β} {s : State} (e : p = (a, b, s)) : Kept lo s := by
  rw [e] at h
  exact h
theorem Kept.returnRoom {lo : Nat} {s : State} (h : Kept lo s) {c : Comm} {st : CollStep} : Kept lo (returnRoom s c st) := Kept.foldl (fun _ _ hs => hs.queuePacket) _ h
theorem Kept.finishWrite {lo : Nat} {s : State} (h : Kept lo s) {comm : Nat} {st : CollStep} : Kept lo (finishWrite s comm st) := by
  unfold Machine.finishWrite
  split
  · exact h
  · split
    · exact h
    · split
      · exact h
      · dsimp only
        split
        · next he => exact (Kept.planRanges _ h |>.snd he).collTransFault
        · next he => exact Kept.planRanges _ h |>.snd he
        · next o _ _ l s1 he =>
          have h1 : Kept lo s1 := (Kept.planRanges _ h).snd he
          split
          · next he => exact Kept.collTransFault ((Kept.writeParts _ h1.planRead).third he)
          · next he => exact (Kept.writeParts _ h1.planRead).third he
          · next he => exact Kept.returnRoom (Kept.updHead ((Kept.writeParts _ h1.planRead).third he))
theorem Kept.takeLanded {lo : Nat} {s : State} (h : Kept lo s) {comm rank : Nat} : Kept lo (takeLanded s comm rank) := by
  unfold Machine.takeLanded
  split
  · exact h
  · split
    · split
      · exact h
      · exact Kept.finishWrite (Kept.updHead (Kept.updHead h.setComms))
    · exact h
theorem Kept.collAdvance {lo : Nat} {s : State} (h : Kept lo s) {comm : Nat} : Kept lo (collAdvance s comm) := by
  unfold Machine.collAdvance
  split
  · exact h
  · split
    · exact h
    · extract_lets s1 s2
      have h1 : Kept lo s1 := .ite h.startStep h
      have h2 : Kept lo s2 := .foldl (fun _ _ hs => .foldl (fun _ _ hs => hs.takeLanded) _ hs) _ h1
      split
      · exact .foldl (fun _ _ hs => hs.finishWrite) _ h2
      · exact h2
theorem collStartPart_keeps {lo : Nat} {a : Src} : KeepsPart lo (collStartPart a) := by
  intro s t th h ht
  unfold collStartPart
  dsimp only
  split
  · exact h
  · split
    · exact h.freshId.collRefuse
    · exact h.freshId.collArrive.collAdvance
theorem collQueryPart_keeps {lo : Nat} {d : RegNo} {a : Src} : KeepsPart lo (collQueryPart d a) := by
  intro s t th h ht
  unfold collQueryPart
  dsimp only
  split
  · exact h
  · split <;> exact h
theorem Kept.execCollUnitStart {lo : Nat} {s : State} (h : Kept lo s) {e : Nat} : OutKept lo (execCollUnitStart e s) := by
  unfold Machine.execCollUnitStart
  dsimp only [OutKept]
  split
  · exact h
  · split
    · exact h
    · split
      · exact h
      · split
        · next he => exact ((Kept.planRanges _ h).snd he).collTransFault
        · next he => exact (Kept.planRanges _ h).snd he
        · next he => exact Kept.collAdvance (.foldl (fun _ _ hs => hs.queuePacket) _ ((Kept.planRanges _ h).snd he).setComms.startStep)
theorem Kept.execCollChunkReceived {lo : Nat} {s : State} (h : Kept lo s) {comm rank : Nat} {cid : DWord} {data : List Byte} : OutKept lo (execCollChunkReceived comm rank cid data s) := by
  unfold Machine.execCollChunkReceived
  dsimp only [OutKept]
  split
  · exact h
  · split
    · exact h
    · exact h.setComms.emitR.collAdvance
theorem Kept.setCommsFree {lo : Nat} {s : State} (h : Kept lo s) {t : Tbl Comm} {n : Nat} : Kept lo { s with comms := t, free := n } := h.same rfl
theorem Kept.execCollStepEnd {lo : Nat} {s : State} (h : Kept lo s) {comm : Nat} : OutKept lo (execCollStepEnd comm s) := by
  unfold Machine.execCollStepEnd
  dsimp only [OutKept]
  split
  · exact h.collAdvance
  · split
    · exact h.collAdvance.setCommsFree
    · split
      · exact h.collAdvance
      · split
        · exact h.collAdvance
        · split
          · exact h.collAdvance
          · exact Kept.collAdvance (Kept.emitR h.collAdvance.setCommsFree)
theorem Kept.collNotify {lo : Nat} {s : State} (h : Kept lo s) {e : Nat} {o : CollOp} : Kept lo (collNotify s e o) := by
  unfold Machine.collNotify
  split
  · exact h
  · exact h.setSaved (h.saved.tupd _ fun p hp => hp)
  · split
    · exact h
    · exact h.objUpdate
theorem Kept.execCollOperationComplete {lo : Nat} {s : State} (h : Kept lo s) {comm : Nat} : OutKept lo (execCollOperationComplete comm s) := by
  unfold Machine.execCollOperationComplete
  dsimp only [OutKept]
  split
  · exact h
  · split
    · exact h
    · split
      · exact h
      · exact Kept.collAdvance (Kept.collNotify h.setComms)
theorem Kept.watchFault {lo : Nat} {s : State} (h : Kept lo s) {comm : Nat} {o : CollOp} {st : CollStep} {dl : Nat} : Kept lo (watchFault s comm o st dl) := by
  unfold Machine.watchFault
  split
  · exact .foldl (fun _ _ hs => hs.takeFaults) _ h.putObj
  · exact h
theorem Kept.execCollWatchdogExpiry {lo : Nat} {s : State} (h : Kept lo s) {comm : Nat} : OutKept lo (execCollWatchdogExpiry comm s) := by
  unfold Machine.execCollWatchdogExpiry
  change Kept lo _
  split
  · exact h
  · split
    · exact h
    · split
      · exact h
      · extract_lets dl q s1 s2
        have h1 : Kept lo s1 := h.updHead
        have h2 : Kept lo s2 := .ite h1 h1.emitRec
        exact .ite h2.watchFault h2

/-! ### Links and packets -/

theorem Kept.setLinkState {lo : Nat} {s : State} (h : Kept lo s) {l st : Nat} : Kept lo (setLinkState s l st) := h.setRegN
theorem Kept.setLinkPhase {lo : Nat} {s : State} (h : Kept lo s) {l p : Nat} : Kept lo (setLinkPhase s l p) := h.setRegN
theorem Kept.putKeys {lo : Nat} {s : State} (h : Kept lo s) {l : Nat} {k : LinkKeys} : Kept lo (putKeys s l k) := h.same rfl
theorem Kept.retryPackets {lo : Nat} {s : State} (h : Kept lo s) : Kept lo (retryPackets s) := h.same rfl
theorem Kept.setCredit {lo : Nat} {s : State} (h : Kept lo s) {t : Tbl Nat} : Kept lo { s with credit := t } := h.same rfl
theorem Kept.settleLink {lo : Nat} {s : State} (h : Kept lo s) {l : Nat} : Kept lo (settleLink s l) := .ite h.setLinkState.retryPackets h
theorem Kept.wipeLink {lo : Nat} {s : State} (h : Kept lo s) {l : Nat} : Kept lo (wipeLink s l) := .ite h.putKeys.setLinkPhase.setLinkState h.putKeys.setLinkPhase
theorem Kept.execLinkTrainingComplete {lo : Nat} {s : State} (h : Kept lo s) {l d e p : Nat} : OutKept lo (execLinkTrainingComplete l d e p s) := by
  unfold Machine.execLinkTrainingComplete
  dsimp only [OutKept]
  split
  · exact h
  · exact .ite h.setLinkState.emitR (Kept.settleLink (Kept.putKeys (Kept.setRegN h.setCredit)))
theorem Kept.execLinkPartnerReset {lo : Nat} {s : State} (h : Kept lo s) {l : Nat} : OutKept lo (execLinkPartnerReset l s) := by
  unfold Machine.execLinkPartnerReset
  dsimp only [OutKept]
  exact .ite (Kept.wipeLink h.setCredit) h
theorem Kept.switchKey {lo : Nat} {s : State} (h : Kept lo s) {l : Nat} : Kept lo (switchKey s l) := by
  unfold Machine.switchKey
  dsimp only
  split
  · exact h
  · exact h.putKeys.setLinkPhase.setReg64
theorem Kept.stallLink {lo : Nat} {s : State} (h : Kept lo s) {l : Nat} : Kept lo (stallLink s l) := h.setLinkState.emitR
theorem Kept.departPacket {lo : Nat} {s : State} (h : Kept lo s) {l : Nat} {p : Packet} : Kept lo (departPacket s l p) := by
  unfold Machine.departPacket
  extract_lets ch s1
  have h1 : Kept lo s1 := h.same rfl
  split
  · exact h1.emitR
  · exact h1
theorem Kept.sendPacket {lo : Nat} {s : State} (h : Kept lo s) {l : Nat} : Kept lo (sendPacket s l) := by
  unfold Machine.sendPacket
  split
  · exact h.departPacket
  · exact h
theorem Kept.execFlitGroupTransmit {lo : Nat} {s : State} (h : Kept lo s) {f : FlitSend} : OutKept lo (execFlitGroupTransmit f s) := by
  unfold Machine.execFlitGroupTransmit
  dsimp only [OutKept]
  split
  · exact h
  · split
    · split
      · exact h
      · split
        · exact h.putKeys.setLinkState.emitR
        · exact h.putKeys
    · have h1 := fun k => (h.switchKey (l := f.link)).putKeys (l := f.link) (k := k)
      split
      · exact (h1 _).stallLink
      · split
        · exact (h1 _).setReg64.sendPacket.stallLink
        · exact (h1 _).setReg64.sendPacket
theorem Kept.creditBack {lo : Nat} {s : State} (h : Kept lo s) {l : Nat} : Kept lo (creditBack s l) := h.same rfl
theorem Kept.execFlitGroupReceive {lo : Nat} {s : State} (h : Kept lo s) {l p : Nat} {ok : Bool} : OutKept lo (execFlitGroupReceive l p ok s) := by
  unfold Machine.execFlitGroupReceive
  dsimp only [OutKept]
  split
  · exact h
  · split
    · exact h.putKeys.creditBack
    · exact h.putKeys.creditBack
    · split
      · exact h.putKeys.setLinkState.emitR
      · exact h.putKeys
theorem Kept.setRoutes0 {lo : Nat} {s : State} (h : Kept lo s) {t : Tbl Word} : Kept lo { s with routes0 := t } := h.same rfl
theorem Kept.setRoutes1 {lo : Nat} {s : State} (h : Kept lo s) {t : Tbl Word} : Kept lo { s with routes1 := t } := h.same rfl
theorem Kept.execRouteLoadComplete {lo : Nat} {s : State} (h : Kept lo s) : OutKept lo (execRouteLoadComplete s) := by
  unfold Machine.execRouteLoadComplete
  change Kept lo _
  split
  · exact h
  · extract_lets img bad s1 s2 t
    have h2 : Kept lo s2 := .ite h.setRegBit.setRegBit h.setRegBit
    split
    · exact h2.setRoutes0
    · exact h2.setRoutes1
theorem Kept.dropPacket {lo : Nat} {s : State} (h : Kept lo s) {p : Packet} : Kept lo (dropPacket s p) := by
  unfold Machine.dropPacket
  extract_lets first l off s1 s2
  have h1 : Kept lo s1 := .ite h h.setReg32
  have h2 : Kept lo s2 := h1.same rfl
  exact h2.emitR
theorem Kept.execPacketForward {lo : Nat} {s : State} (h : Kept lo s) {l c hop a b : Nat} {f : Bool} {cid : DWord} : OutKept lo (execPacketForward l c hop a b f cid s) := by
  unfold Machine.execPacketForward
  dsimp only [OutKept]
  split
  · exact h
  · split
    · exact h
    · split
      · exact h.queuePacket
      · split
        · exact h
        · exact .ite h.dropPacket h.queuePacket
theorem Kept.setPackets {lo : Nat} {s : State} (h : Kept lo s) {l : List Packet} : Kept lo { s with packets := l } := h.same rfl
theorem Kept.execPacketWaitTimeout {lo : Nat} {s : State} (h : Kept lo s) : OutKept lo (execPacketWaitTimeout s) :=
  Kept.foldl (fun _ _ hs => hs.dropPacket) (s.packets.filter (packetLate s)) h.setPackets
theorem Kept.remotePerform {lo : Nat} {s : State} (h : Kept lo s) {a op len : Nat} {data : List Byte} : Kept lo (remotePerform s a op data len) := by
  unfold Machine.remotePerform
  extract_lets line
  split
  · exact .ite h.grantLease h
  · refine .foldl (fun s p hs => ?_) _ h
    exact hs.keyedWrite.homeStored
  · extract_lets x r
    refine Kept.homeStored ?_
    exact h.keyedWrite
theorem Kept.execRemoteRequestArrival {lo : Nat} {s : State} (h : Kept lo s) {l c a op len : Nat} {data : List Byte} {cid : DWord} :
    OutKept lo (execRemoteRequestArrival l c a op data len cid s) := by
  unfold Machine.execRemoteRequestArrival
  extract_lets n held s1
  have hh : Kept lo held := h.same rfl
  have h1 : Kept lo s1 := hh.same rfl
  split
  · exact h
  · split
    · exact hh
    · split
      · exact h1.freezeMaster
      · split
        · exact h
        · split
          · trivial
          · exact h.remotePerform.queuePacket
end Sys2Proof.Machine

/-! ### Matrix units, tables, system instructions and handlers keep the state well-kept -/
namespace Sys2Proof.Machine
open Sys2Proof

theorem Kept.wholeDrill {lo : Nat} {s : State} (h : Kept lo s) {i : Instr} {f : State → List (Nat × Thread) → State × Fx} (hf : ∀ act, Kept lo (f s act).1) :
    Kept lo (wholeDrill i f s) := by
  unfold Machine.wholeDrill
  split
  · exact h.runDrill stay_keeps
  · exact (hf _).runDrill stay_keeps
theorem Kept.acceptMop {lo : Nat} {s : State} (h : Kept lo s) {m : MatOp} {on : Bool} : Kept lo (acceptMop m on s).1 := by
  unfold Machine.acceptMop
  dsimp only
  split
  · exact h
  · have h1 : ∀ m, Kept lo (Machine.updCore (Machine.freshId s).2 s.cur.core fun c => { c with mops := c.mops ++ [m] }) := fun m =>
      h.freshId.updCore fun _ hc => { hc with }
    split
    · exact (h1 _).updThreads fun _ ht => ht
    · exact h1 _
theorem Kept.mmaIssue {lo : Nat} {s : State} (h : Kept lo s) {w : MatWord} {x : MmaWord} {act : List (Nat × Thread)} : Kept lo (mmaIssue w x s act).1 := by
  unfold Machine.mmaIssue
  dsimp only
  split
  · exact h
  · split
    · exact h
    · exact h.acceptMop
theorem Kept.execMma {lo : Nat} {s : State} (h : Kept lo s) {p : Pipe} {px : Option Px} {w : MatWord} {x : MmaWord} : OutKept lo (execMma p px w x s) := by
  unfold Machine.execMma
  dsimp only [OutKept]
  split
  · exact .ite (h.wholeDrill fun _ => h.mmaIssue).clearRdv h.arriveColl
  · exact h.wholeDrill fun _ => h.mmaIssue
theorem Kept.mloopIssue {lo : Nat} {s : State} (h : Kept lo s) {w : MatWord} {x : LoopWord} {act : List (Nat × Thread)} : Kept lo (mloopIssue w x s act).1 := by
  unfold Machine.mloopIssue
  dsimp only
  split
  · exact h
  · exact h.acceptMop
theorem Kept.offerPart {lo : Nat} {s : State} (h : Kept lo s) {w : MatWord} {x : JoinWord} {acc : Nat} {f b : Operand} {act : List (Nat × Thread)} :
    Kept lo (offerPart w x acc f b s act).1 := by
  unfold Machine.offerPart
  extract_lets ci c lead reject tids regs accept
  have ha : ∀ c s, CoreKept c → Kept lo s → Kept lo (accept c s).1 := fun c s hc hs => by
    dsimp only [accept]
    refine Kept.updThreads (Kept.putCore hs.freshId ?_ ci) fun _ ht => ht
    exact { hc with }
  split
  · split
    · exact h
    · split
      · exact h
      · exact ha _ _ (h.get ci) h
  · split
    · exact h
    · split
      · exact h
      · refine ha _ _ ?_ h.freshId
        exact { h.get ci with }
theorem Kept.mjoinIssue {lo : Nat} {s : State} (h : Kept lo s) {w : MatWord} {x : JoinWord} {act : List (Nat × Thread)} : Kept lo (mjoinIssue w x s act).1 := by
  unfold Machine.mjoinIssue
  dsimp only
  split
  · exact h
  · split
    · exact h
    · exact h.offerPart
theorem Kept.execMjoin {lo : Nat} {s : State} (h : Kept lo s) {w : MatWord} {x : JoinWord} : OutKept lo (execMjoin w x s) :=
  Kept.ite (h.wholeDrill fun _ => h.mjoinIssue).clearRdv h.arriveColl
theorem Kept.mwaitIssue {lo : Nat} {s : State} (h : Kept lo s) {t : TileNo} {act : List (Nat × Thread)} : Kept lo (mwaitIssue t s act).1 := by
  unfold Machine.mwaitIssue
  dsimp only
  split
  · exact h
  · split
    · exact h
    · exact h.updThreads fun _ ht => ht
theorem Kept.setTile {lo : Nat} {s : State} (h : Kept lo s) {ci t : Nat} {v : BitVec 8192} : Kept lo (setTile s ci t v) := h.updCore fun _ hc => { hc with }
theorem Kept.updMop {lo : Nat} {s : State} (h : Kept lo s) {ci id : Nat} {f : MatOp → MatOp} : Kept lo (updMop s ci id f) := h.updCore fun _ hc => { hc with }
theorem Kept.dropMop {lo : Nat} {s : State} (h : Kept lo s) {ci id : Nat} : Kept lo (dropMop s ci id) := h.updCore fun _ hc => { hc with }
theorem Kept.postFlags {lo : Nat} {s : State} (h : Kept lo s) {ci : Nat} {l : List Nat} {w : Word} : Kept lo (postFlags s ci l w) := h.updThreads fun _ ht => orFlags_kept ht
theorem Kept.setMopProg {lo : Nat} {s : State} (h : Kept lo s) {ci : Nat} {l : List Nat} {id n : Nat} : Kept lo (mopStep.setProg' s ci l id n) := h.updThreads fun _ ht => .ite ht ht
theorem Kept.wakeFor {lo : Nat} {s : State} (h : Kept lo s) {ci : Nat} {w : Wait} : Kept lo (wakeFor s ci w) := Kept.foldl (fun _ _ hs => .ite hs.wakeThread hs) _ h
theorem Kept.mopStep {lo : Nat} {s : State} (h : Kept lo s) {ci : Nat} {m : MatOp} : Kept lo (mopStep s ci m) := by
  unfold Machine.mopStep
  extract_lets p f a b s1 r fl s2 s3
  have h1 : Kept lo s1 := h.setFree
  have h3 : Kept lo s3 := h1.setTile.updMop.setMopProg
  split
  · exact h3
  · exact h3.dropMop.postFlags.wakeFor
theorem Kept.joinStep {lo : Nat} {s : State} (h : Kept lo s) {ci : Nat} {j : Join} : Kept lo (joinStep s ci j) := by
  unfold Machine.joinStep
  extract_lets c p b
  split
  · exact h.updCore fun _ hc => { hc with }
  · extract_lets words s1 a r s2 s3 j1 s4
    have h1 : Kept lo s1 := h.setFree
    have h3 : Kept lo s3 := h1.setTile.dropMop.updThreads fun _ ht => ht.release
    split
    · exact h3.updCore fun _ hc => { hc with }
    · have h4 : Kept lo s4 := h3.updCore fun _ hc => { hc with }
      exact h4.postFlags.updThreads fun _ ht => .ite ht ht
theorem Kept.execMatrixStepComplete {lo : Nat} {s : State} (h : Kept lo s) {ci : Nat} : OutKept lo (execMatrixStepComplete ci s) := by
  unfold Machine.execMatrixStepComplete
  change Kept lo _
  split
  · exact h
  · extract_lets s1
    have h1 : Kept lo s1 := h.updCore fun _ hc => { hc with }
    split
    · exact .ite h1.coreError h1.mopStep
    · split
      · exact .ite h1.coreError h1.joinStep
      · exact h1

/-! ### Tile operations and tables -/

theorem Kept.addTops {lo : Nat} {s : State} (h : Kept lo s) {ci : Nat} {l : List TileOp} : Kept lo (addTops s ci l) := h.updCore fun _ hc => { hc with }
theorem Kept.readsDue {lo : Nat} {s : State} (h : Kept lo s) {l : List (Nat × List Nat)} : Kept lo (readsDue s l).2 := by
  unfold Machine.readsDue
  dsimp only
  split
  · exact h
  · exact h.lsuPass
theorem Kept.topEach {lo : Nat} {s : State} (h : Kept lo s) {act : List (Nat × Thread)} {f : Thread → TileOp} {i : Instr} : Kept lo (topEach s act f i) := by
  unfold Machine.topEach
  dsimp only
  refine Kept.runDrill (Kept.foldlFst (fun a o ha => ?_) _ h.readsDue) fun _ _ _ hs _ => hs
  exact ha.freshId.addTops
theorem Kept.topIssue {lo : Nat} {s : State} (h : Kept lo s) {i : Instr} {check : State → List (Nat × Thread) → Thread → Option FaultRec} {f : State → Thread → TileOp} :
    Kept lo (topIssue i check f s) := by
  unfold Machine.topIssue
  extract_lets act who
  split
  · exact h.runDrill stay_keeps
  · split
    · exact h.runDrill stay_keeps
    · exact h.topEach
theorem Kept.tmovIssue {lo : Nat} {s : State} (h : Kept lo s) {k : Nat} {t : TileNo} {r : Nat} {w : BitVec 2} {act : List (Nat × Thread)} : Kept lo (tmovIssue k t r w s act).1 := by
  unfold Machine.tmovIssue
  dsimp only
  split
  · exact h
  · exact h.freshId.addTops
theorem Kept.topPerform {lo : Nat} {s : State} (h : Kept lo s) {ci : Nat} {o : TileOp} : Kept lo (topPerform s ci o) := by
  unfold Machine.topPerform
  extract_lets f t src s1 scr
  have h1 : Kept lo s1 := h.setFree
  split
  · exact h1.setTile
  · exact h1.setTile
  · refine .foldl (fun s x hs => ?_) _ h1
    split
    · exact hs.scrWrite
    · exact hs
  · exact h1.setTile
  · exact h1.fillRegs
  · exact h1.setTile.postFlags
  · exact h1.setTile.postFlags
theorem Kept.execTileOpComplete {lo : Nat} {s : State} (h : Kept lo s) {ci id : Nat} : OutKept lo (execTileOpComplete ci id s) := by
  unfold Machine.execTileOpComplete
  dsimp only [OutKept]
  split
  · exact h
  · split
    · exact h
    · split
      · exact h.coreError
      · refine Kept.wakeFor (Kept.updCore h.topPerform ?_)
        exact fun _ hc => { hc with }
theorem Kept.takeBanks {lo : Nat} {s t : State} (h : Kept lo s) {ci p : Nat} (e : takeBanks s ci p = some t) : Kept lo t := by
  unfold Machine.takeBanks at e
  split at e
  · split at e
    · cases e
      exact h
    · nomatch e
  · cases e
    exact h.updCore fun _ hc => { hc with }
theorem tblLdPart_keeps {lo : Nat} {a : Src} {act : List Nat} {due : List Nat → Nat} : KeepsPart lo (tblLdPart a act due) := by
  intro s t th h ht
  unfold tblLdPart
  dsimp only
  split
  · exact h
  · next he =>
    dsimp only
    exact (h.takeBanks he).freshId.updCore fun _ hc => { hc with }
theorem Kept.execTblLd {lo : Nat} {s : State} (h : Kept lo s) {p : Pipe} {px : Option Px} {a : Src} : OutKept lo (execTblLd p px a s) := by
  unfold Machine.execTblLd
  dsimp only [OutKept]
  split
  · exact h.runDrill stay_keeps
  · exact h.readsDue.runDrill tblLdPart_keeps
theorem Kept.execTableLoadCommit {lo : Nat} {s : State} (h : Kept lo s) {ci id : Nat} : OutKept lo (execTableLoadCommit ci id s) := by
  unfold Machine.execTableLoadCommit
  dsimp only [OutKept]
  split
  · exact h
  · refine Kept.wakeFor (Kept.updCore h ?_)
    exact fun _ hc => { hc with }
theorem tickPort_kept {c : Core} (h : CoreKept c) : CoreKept (tickPort c) := by
  unfold tickPort
  dsimp only
  split
  · exact { h with }
  · split <;> exact { h with }
theorem tickUnits_kept {c : Core} (h : CoreKept c) : CoreKept (tickUnits c) := by
  unfold tickUnits
  refine tickPort_kept ?_
  split <;> exact { h with }
theorem Kept.execTblSel {lo : Nat} {s : State} (h : Kept lo s) {p : Pipe} {px : Option Px} {a : Src} : OutKept lo (execTblSel p px a s) := by
  refine Kept.runDrill h fun s t th hs ht => ?_
  split
  · exact hs
  · next he =>
    dsimp only
    refine (hs.takeBanks he).updCore fun c hc => ?_
    split
    · exact hc.updSheaf
    · exact hc.mapThreads fun _ _ ht => .ite ht ht

/-! ### Segments of the recorder's store -/

theorem Kept.setSegments {lo : Nat} {s : State} (h : Kept lo s) {t : Tbl Segment} : Kept lo { s with segments := t } := h.same rfl
theorem Kept.setSegTime {lo : Nat} {s : State} (h : Kept lo s) {n : Nat} {t : Tbl Segment} : Kept lo { s with lastTime := n, segments := t } := h.same rfl
theorem Kept.trimSegs {lo : Nat} {c : Nat} (n : Nat) : ∀ {s : State}, Kept lo s → Kept lo (trimSegs c n s) := by
  induction n with
  | zero => exact fun h => h
  | succ n ih =>
    intro s h
    rw [Machine.trimSegs]
    split
    · exact h
    · exact ih h.setSegments
theorem Kept.openSegment {lo : Nat} {s : State} (h : Kept lo s) {c : Nat} : Kept lo (openSegment s c) := by
  unfold Machine.openSegment
  extract_lets n s1 seq
  have h1 : Kept lo s1 := .ite (Kept.trimSegs _ h) h
  clear_value s1
  split
  · exact h1
  · extract_lets before g s2 s3
    have h2 : Kept lo s2 := h1.setSegTime
    have h3 : Kept lo s3 := h2.setRegN.setReg64
    exact h3.setRegN.setRegN
theorem Kept.granaryPut {lo : Nat} {s : State} (h : Kept lo s) {r : Rec} : Kept lo (granaryPut s r) := by
  unfold Machine.granaryPut
  extract_lets c s1 s2
  have h1 : Kept lo s1 := .ite h.openSegment h
  clear_value s1
  split
  · exact h1.countDrop
  · have h2 : Kept lo s2 := h1.setSegments
    exact h2.setRegN

/-! ### System instructions -/

theorem csrRdPart_keeps {lo : Nat} {d : RegNo} {n : Nat} : KeepsPart lo (csrRdPart d n) := by
  intro s t th h ht
  exact .ite (h.updThread fun _ ht => ht) h
theorem csrSet_kept {n : Nat} {v : Word} {th : Thread} (h : RegsKept th) : RegsKept (csrSet n v th) := by
  unfold csrSet
  split <;> exact h
theorem csrWrPart_keeps {lo : Nat} {a : Src} {n : Nat} : KeepsPart lo (csrWrPart a n) := by
  intro s t th h ht
  unfold csrWrPart
  dsimp only
  split
  · exact h
  · exact h.updThread fun _ ht => csrSet_kept ht
theorem timePart_keeps {lo : Nat} {d : RegNo} {act : List (Nat × Thread)} : KeepsPart lo (timePart d act) := fun _ _ _ h _ => h.updThreads fun _ ht => ht
theorem evtPart_keeps {lo : Nat} {a : Src} {n : Nat} : KeepsPart lo (evtPart a n) := fun _ _ _ h _ => h.emitR
theorem brkPart_keeps {lo : Nat} : KeepsPart lo brkPart := fun _ _ _ h _ => h.updThread fun _ ht => ht
theorem safePart_keeps {lo : Nat} {tm : BitVec 16} {pm : BitVec 6} {l hi : Word} : KeepsPart lo (safePart tm pm l hi) := by
  intro s t th h ht
  unfold safePart
  dsimp only
  split
  · exact h
  · split
    · refine Kept.updPlot (Kept.updThread h ?_)
      exact fun _ ht => tsorted_filter _ _ ht
    · refine Kept.updPlot (Kept.updThread h ?_)
      exact fun _ ht => tsorted_filter _ _ ht

/-! ### Fragments and handlers -/

theorem fragPart_keeps {lo : Nat} {a : Src} {f : State → Nat → Thread → Nat → Frag → Option (State × Fx)}
    (hf : ∀ s t th e fr x, Kept lo s → f s t th e fr = some x → Kept lo x.1) : KeepsPart lo (fragPart a f) := by
  intro s t th h ht
  unfold fragPart
  dsimp only
  split
  · exact h
  · next e fr _ =>
    cases hx : f s t th e fr with
    | none => exact h
    | some x => exact hf _ _ _ _ _ _ h hx
theorem Kept.resumeEngine {lo : Nat} {s : State} (h : Kept lo s) {ci : Nat} {f : Frag} : Kept lo (resumeEngine s ci f) := by
  unfold Machine.resumeEngine
  split
  · exact h.updChannel
  · split
    · dsimp only
      split
      · exact Kept.collRefuse h.setCollHeld
      · exact Kept.collAdvance (Kept.collArrive h.setCollHeld)
    · exact h.setComms
  · exact h.updGather
  · exact h
theorem Kept.resumeEntry {lo : Nat} {s : State} (h : Kept lo s) {ci e : Nat} : Kept lo (resumeEntry s ci e) := by
  unfold Machine.resumeEntry
  split
  · exact h
  · exact .ite h.resumeThreads h.freeFrag.resumeEngine
theorem Kept.breakAt {lo : Nat} {s : State} (h : Kept lo s) {ci p o : Nat} : Kept lo (breakAt s ci p o) := by
  unfold Machine.breakAt
  split
  · exact h.objBreak
  · exact h
theorem Kept.killEngine {lo : Nat} {s : State} (h : Kept lo s) {ci : Nat} {f : Frag} : Kept lo (killEngine s ci f) := by
  unfold Machine.killEngine
  split
  · exact h.dropQueue.updChannel
  · extract_lets gone s1
    have h1 : Kept lo s1 := h.same rfl
    exact .foldl (fun _ _ hs => hs.collAdvance.breakAt) _ h1
  · refine Kept.foldl (fun _ _ hs => hs.breakAt) _ (Kept.updCore h ?_)
    exact fun _ hc => { hc with }
  · exact h
theorem Kept.killEntry {lo : Nat} {s : State} (h : Kept lo s) {ci e : Nat} : Kept lo (killEntry s ci e) := by
  unfold Machine.killEntry
  split
  · exact h
  · dsimp only
    split
    · refine Kept.foldl (fun _ _ hs => hs.endThread) _ (Kept.updThreads h.freeFrag ?_)
      exact fun _ ht => ht
    · exact h.freeFrag.killEngine
theorem Kept.skipPc {lo : Nat} {s : State} (h : Kept lo s) {ci : Nat} {th : Thread} : Kept lo (skipPc s ci th).2.2 := by
  unfold Machine.skipPc
  split
  · next he => exact h.fetchLine.snd he
  · next he => exact h.fetchLine.snd he
  · next he => exact h.fetchLine.snd he
theorem Kept.skipEntry {lo : Nat} {s : State} (h : Kept lo s) {e : Nat} {f : Frag} {x : State × Fx} (hx : skipEntry s e f = some x) : Kept lo x.1 := by
  unfold Machine.skipEntry at hx
  extract_lets ci r at hx
  have hr : Kept lo r.1 := by
    refine Kept.foldlFst (fun a t ha => ?_) _ h
    split
    · exact ha.skipPc
    · exact ha
  clear_value r
  split at hx
  · nomatch hx
  · split at hx
    · cases hx
      exact hr
    · split at hx
      · nomatch hx
      · cases hx
        refine Kept.resumeThreads (Kept.updThreads' hr ?_)
        exact fun _ _ ht => ht
theorem Kept.stepEntry {lo : Nat} {s t : State} (h : Kept lo s) {e : Nat} {f : Frag} (ht : stepEntry s e f = some t) : Kept lo t := by
  unfold Machine.stepEntry at ht
  dsimp only at ht
  split at ht
  · nomatch ht
  · cases ht
    refine Kept.updCore (Kept.updThreads h ?_) fun _ hc => hc.updFrag
    exact fun _ ht => ht
theorem handlerThread_kept {s : State} {ci p k e : Nat} {f : Frag} {pc : DWord} : RegsKept (handlerThread s ci p k e f pc) := rfl
theorem Kept.execHandlerDelivery {lo : Nat} {s : State} (h : Kept lo s) {ci p : Nat} : OutKept lo (execHandlerDelivery ci p s) := by
  unfold Machine.execHandlerDelivery
  dsimp only [OutKept]
  split
  · split
    · exact h
    · split
      · next he => exact h.transferTo.snd he
      · next he =>
        have h1 := h.transferTo.snd he
        have h2 : ∀ t th e f, RegsKept th → Kept lo (Machine.settleBanks (getCore s ci) (Machine.updCore _ ci fun c => { c with
            threads := tput c.threads t th
            frags := tput c.frags e f }) ci [t] (fun _ => []) 16).1 := fun t th e f ht =>
          (h1.updCore fun _ hc => (hc.putThread ht t).putFrag).settleBanks
        split
        · exact (h2 _ _ _ _ handlerThread_kept).takeFaults
        · exact h2 _ _ _ _ handlerThread_kept
  · exact h
end Sys2Proof.Machine

/-! ### The launcher keeps the state well-kept -/
namespace Sys2Proof.Machine
open Sys2Proof

theorem Kept.setRuns {lo : Nat} {s : State} (h : Kept lo s) {t : Tbl Run} : Kept lo { s with runs := t } := h.same rfl
theorem Kept.updRun {lo : Nat} {s : State} (h : Kept lo s) {n : Nat} {f : Run → Run} : Kept lo (updRun s n f) := h.setRuns
theorem Kept.setStagedList {lo : Nat} {s : State} (h : Kept lo s) {l : List Staged} : Kept lo { s with staged := l } := h.same rfl
theorem Kept.setStaged {lo : Nat} {s : State} (h : Kept lo s) {l : List Staged} : Kept lo (setStaged s l) :=
  (h.setStagedList (l := l)).mapCores (f := fun ci c => { c with stagedSlots := (l.filter fun x => x.core == ci).flatMap fun x => tkeys x.plot.slots }) fun _ _ hc => { hc with }
theorem Kept.unstage {lo : Nat} {s : State} (h : Kept lo s) {p : Staged → Bool} : Kept lo (unstage s p) := Kept.foldl (fun _ _ hs => .ite hs.emitR hs) _ h.setStaged
theorem Kept.changeFusion {lo : Nat} {s : State} (h : Kept lo s) {cl : Nat} {b : Bool} : Kept lo (changeFusion s cl b) := by
  unfold Machine.changeFusion
  extract_lets s1
  have h1 : Kept lo s1 := by
    refine .foldl (fun s k hs => ?_) _ h
    split
    · exact hs
    refine Kept.updCore (Kept.foldl (fun _ _ hs => hs.drainLine) _ hs) ?_
    exact fun _ hc => { hc with l1 := rfl }
  exact h1.clusterFields fun _ => by rfl
theorem Kept.launchSheaf {lo : Nat} {s : State} (h : Kept lo s) {ci p : Nat} {roles : List RoleInfo} {x : Nat × List Nat × Nat} : Kept lo (launchSheaf s ci p roles x) := by
  unfold Machine.launchSheaf
  split
  · exact h
  · extract_lets c ts th
    have hc : CoreKept c := h.get ci
    refine Kept.makeSheaf (Kept.putCore h ?_ ci)
    exact ⟨tsorted_foldl_tput _ _ _ _ hc.threads, hc.regs.foldl_tput _ _ _ fun _ _ _ _ => rfl, hc.plots, hc.frags, hc.sheaves, hc.l1⟩
theorem CoreKept.putPlot {c : Core} (h : CoreKept c) {k : Nat} {p : Plot} : CoreKept { c with plots := tput c.plots k p } :=
  { h with plots := tsorted_tput _ _ _ h.plots }
theorem Kept.admitPart {lo : Nat} {s : State} (h : Kept lo s) {ci : Nat} {p : Plot} {pl : Place} : Kept lo (admitPart s ci p pl) := by
  unfold Machine.admitPart
  extract_lets c tiles s1 s2 s3
  have h1 : Kept lo s1 := h.putCore (by exact { (h.get ci).putPlot with }) ci
  have h2 : Kept lo s2 := .foldl (fun _ _ hs => hs.updChannel) _ h1
  have h3 : Kept lo s3 := h2.updCluster fun _ hk => memWrite_wf _ _ _ hk
  exact Kept.emitR (.foldl (fun _ _ hs => hs.launchSheaf) _ h3)
theorem Kept.admitPlot {lo : Nat} {s : State} (h : Kept lo s) {r : Run} {node n : Nat} {f : Field} {l : List (Nat × Place)} : Kept lo (admitPlot s r node n f l) := by
  unfold Machine.admitPlot
  extract_lets cl s1 s2 s3
  have h1 : Kept lo s1 := .ite h.changeFusion h
  have h2 : Kept lo s2 := .ite h1.emitR h1
  have h3 : Kept lo s3 := .foldl (fun _ _ hs => hs.admitPart) _ h2
  exact h3.updRun
theorem Kept.placeReady {lo : Nat} {s : State} (h : Kept lo s) {run node n ci : Nat} {hd : Header} : Kept lo (placeReady s run node n ci hd).2 := by
  unfold Machine.placeReady
  split
  · split
    · exact h.setStaged
    · exact h
  · split
    · exact h.unstage
    · exact h
theorem Kept.setAgenda {lo : Nat} {s : State} (h : Kept lo s) {l : List Instr} : Kept lo { s with agenda := l } := h.same rfl
theorem Kept.holdSlots {lo : Nat} {s t : State} (h : Kept lo s) {v : Nat × Nat} (e : holdSlots s v = some t) : Kept lo t := by
  unfold Machine.holdSlots at e
  obtain ⟨b, _, rfl⟩ := Option.map_eq_some_iff.1 e
  exact .foldl (fun _ _ hs => hs.updPlot) _ h
/-- Folding a step that may fail. -/
theorem Kept.foldlBind {lo : Nat} {α : Type} {f : State → α → Option State} (hf : ∀ s x t, Kept lo s → f s x = some t → Kept lo t) (l : List α) :
    ∀ {o : Option State} {t : State}, (∀ s, o = some s → Kept lo s) → l.foldl (fun o x => o.bind fun s => f s x) o = some t → Kept lo t := by
  induction l with
  | nil => exact fun h e => h _ e
  | cons x l ih =>
    intro o t h e
    refine ih (fun s hs => ?_) e
    obtain ⟨s0, h0, h1⟩ := Option.bind_eq_some_iff.1 hs
    exact hf _ _ _ (h _ h0) h1
theorem Kept.preempt {lo : Nat} {s : State} (h : Kept lo s) {pri : Nat} {hd : Header} : Kept lo (preempt s pri hd) := by
  unfold Machine.preempt
  extract_lets cores leaving stopping opts best
  clear_value best
  split
  · exact h
  · split
    · exact h
    · dsimp only
      split
      · exact h
      · next he =>
        have ht := Kept.foldlBind (fun _ _ _ hs => hs.holdSlots) _ (fun s hs => by cases hs; exact h) he
        exact ht.setAgenda
theorem Kept.preemptFields {lo : Nat} {s : State} (h : Kept lo s) : Kept lo (preemptFields s) := Kept.foldl (fun _ _ hs => .ite hs hs.preempt) _ h
theorem Kept.execPlotAdmission {lo : Nat} {s : State} (h : Kept lo s) {ci w : Nat} : OutKept lo (execPlotAdmission ci w s) := by
  unfold Machine.execPlotAdmission
  dsimp only [OutKept]
  split
  · exact h
  · split
    · next he => exact (h.placeReady.snd he).admitPlot.preemptFields
    · next he => exact .ite (h.placeReady.snd he) (h.placeReady.snd he).preempt
theorem Kept.freePart {lo : Nat} {s : State} (h : Kept lo s) {ci p : Nat} : Kept lo (freePart s ci p) := by
  refine Kept.updCore h.freePlotFrags fun c hc => ?_
  exact { hc with plots := tsorted_tdel _ _ hc.plots }
theorem Kept.unfuse {lo : Nat} {s : State} (h : Kept lo s) {cl : Nat} : Kept lo (unfuse s cl) := .ite h.changeFusion h
theorem Kept.execPlotRetire {lo : Nat} {s : State} (h : Kept lo s) {ci p : Nat} : OutKept lo (execPlotRetire ci p s) := by
  unfold Machine.execPlotRetire
  dsimp only [OutKept]
  split
  · exact h
  · split
    · exact h
    · exact Kept.updRun (Kept.unfuse (.foldl (fun _ _ hs => hs.freePart.emitR) _ h))
theorem Kept.setLaunchWaits {lo : Nat} {s : State} (h : Kept lo s) {l : List LaunchWait} : Kept lo { s with launchWaits := l } := h.same rfl
theorem Kept.failRun {lo : Nat} {s : State} (h : Kept lo s) {n : Nat} : Kept lo (failRun s n) := by
  unfold Machine.failRun
  dsimp only
  split
  · exact h
  · exact Kept.ringPost (Kept.setRegBit (Kept.unstage (Kept.setLaunchWaits h.updRun)))
theorem Kept.launchMiss {lo : Nat} {s : State} (h : Kept lo s) {n node page : Nat} : Kept lo (launchMiss s n node page) := by
  unfold Machine.launchMiss
  split
  · exact h
  · exact h.same rfl
theorem Kept.setNodeCache {lo : Nat} {s : State} (h : Kept lo s) {t : Tbl (BitVec 512)} {n : Nat} : Kept lo { s with nodeCache := t, free := n } := h.same rfl
theorem Kept.setHdrCache {lo : Nat} {s : State} (h : Kept lo s) {t : Tbl (List Byte)} {n : Nat} : Kept lo { s with hdrCache := t, free := n } := h.same rfl
theorem Kept.takeNode {lo : Nat} {s : State} (h : Kept lo s) {n node : Nat} : Kept lo (takeNode s n node) := by
  unfold Machine.takeNode
  extract_lets r
  split
  · exact h
  · split
    · next he => exact (h.engPlan.snd he).launchMiss
    · next he => exact h.engPlan.snd he
    · next he =>
      have h1 := h.engPlan.snd he
      extract_lets b x src s2
      have hx : Kept lo x.2 := by
        dsimp only [x]
        split
        · exact h1
        · exact h1.planRead
      have h2 : Kept lo s2 := hx.setNodeCache
      exact .ite h2.failRun h2.updRun
theorem Kept.takeHeader {lo : Nat} {s : State} (h : Kept lo s) {n node : Nat} : Kept lo (takeHeader s n node) := by
  unfold Machine.takeHeader
  extract_lets r
  split
  · exact h
  · extract_lets at_ field
    split
    · exact h
    · split
      · exact h.updRun
      · split
        · next he => exact (h.engPlan.snd he).launchMiss
        · next he => exact h.engPlan.snd he
        · next he =>
          have h1 := h.engPlan.snd he
          extract_lets x src s2
          have hx : Kept lo x.2 := by
            dsimp only [x]
            split
            · exact h1
            · exact h1.planRead
          have h2 : Kept lo s2 := hx.setHdrCache
          exact .ite h2.failRun h2.updRun
theorem Kept.makeNodesReady {lo : Nat} {s : State} (h : Kept lo s) {n : Nat} {l : List Nat} : Kept lo (makeNodesReady s n l) := h.updRun
theorem Kept.takeRecords {lo : Nat} {s : State} (h : Kept lo s) {n : Nat} : Kept lo (takeRecords s n) := by
  unfold Machine.takeRecords
  extract_lets l s1 r s2 l2
  have h1 : Kept lo s1 := .foldl (fun _ _ hs => hs.takeNode.takeHeader) _ h
  have h2 : Kept lo s2 := h1.updRun
  split
  · exact h1
  · exact .foldl (fun _ _ hs => hs.emitR) _ h2.makeNodesReady
theorem Kept.sendDecs {lo no : Nat} (n : Nat) : ∀ {l : List (Nat × Bool)} {acc : List Nat} {s : State}, Kept lo s → Kept lo (sendDecs no n l acc s).1 := by
  induction n with
  | zero => exact fun h => h
  | succ n ih =>
    intro l acc s h
    cases l with
    | nil => exact h
    | cons x l =>
      obtain ⟨m, live⟩ := x
      rw [Machine.sendDecs]
      dsimp only
      split
      · exact h
      · split
        · exact h.failRun
        · split
          · exact ih h.updRun
          · split
            · exact ih h.updRun
            · exact ih h.updRun.updRun.emitR.unstage
theorem Kept.completeNode {lo : Nat} {s : State} (h : Kept lo s) {n node : Nat} : Kept lo (completeNode s n node) := by
  unfold Machine.completeNode
  dsimp only
  split
  · exact h.updRun.emitR
  · exact (Kept.sendDecs _ h.updRun.emitR).makeNodesReady
theorem Kept.execNodeComplete {lo : Nat} {s : State} (h : Kept lo s) {run node : Nat} : OutKept lo (execNodeComplete run node s) := by
  unfold Machine.execNodeComplete
  change Kept lo _
  split
  · extract_lets s1
    have h1 : Kept lo s1 := by
      dsimp only [s1]
      split
      · exact h.updChannel
      · exact h
    exact h1.completeNode
  · exact h
theorem Kept.dispatched {lo : Nat} {s : State} (h : Kept lo s) {n node : Nat} {st : NodeSt} : Kept lo (dispatched s n node st) := h.updRun
theorem Kept.dispatchRec {lo : Nat} {s : State} (h : Kept lo s) {n node p : Nat} : Kept lo (dispatchRec s n node p) := h.emitR
theorem Kept.dispatchNode {lo : Nat} {s : State} (h : Kept lo s) {n node : Nat} : Kept lo (dispatchNode s n node) := by
  unfold Machine.dispatchNode
  extract_lets r nr
  split
  · exact h.dispatched.preemptFields
  · split
    · exact h
    · exact h.setFree.updChannel.dispatched.dispatchRec.emitR
  · dsimp only
    exact h.freshId.dispatched.dispatchRec.collArrive.collAdvance
  · exact h.dispatched.dispatchRec
  · split
    · next he => exact (h.engPlan.snd he).launchMiss
    · next he => exact h.engPlan.snd he
    · next he => exact (h.engPlan.snd he).planWrite.updRun.dispatched.dispatchRec
  · exact h.dispatched.dispatchRec.emitR
  · exact h.dispatched
theorem Kept.execNodeDispatch {lo : Nat} {s : State} (h : Kept lo s) {run node : Nat} : OutKept lo (execNodeDispatch run node s) :=
  Kept.ite h.takeRecords h.takeRecords.dispatchNode
theorem Kept.execCondRead {lo : Nat} {s : State} (h : Kept lo s) {run node : Nat} : OutKept lo (execCondRead run node s) := by
  unfold Machine.execCondRead
  dsimp only [OutKept]
  split
  · exact h
  · split
    · next he => exact (h.engPlan.snd he).launchMiss
    · next he => exact h.engPlan.snd he
    · next he => exact (h.engPlan.snd he).planRead.updRun
theorem Kept.execPlotStage {lo : Nat} {s : State} (h : Kept lo s) {run node ci : Nat} : OutKept lo (execPlotStage run node ci s) := by
  unfold Machine.execPlotStage
  dsimp only [OutKept]
  split
  · exact h
  · split
    · exact h
    · split
      · exact h
      · refine Kept.emitR (.foldl (fun s x hs => ?_) _ h)
        exact .foldl (fun _ _ hs => hs.fetchFor) _ hs.setStaged
theorem Kept.setWinGwct {lo : Nat} {s : State} (h : Kept lo s) {n : Nat} : Kept lo { s with winGwct := n } := h.same rfl
theorem Kept.window2Store {lo : Nat} {s : State} (h : Kept lo s) {a : Nat} {l : List Byte} : Kept lo (window2Store s a l) := h.keyedWrite.homeStored.setWinGwct
theorem Kept.hostAccessEvent {lo : Nat} {s : State} (h : Kept lo s) : Kept lo (hostAccessEvent s) := h.emitR
theorem Kept.execHostWindow2Write {lo : Nat} {s : State} (h : Kept lo s) {o : Nat} {l : List Byte} : OutKept lo (execHostWindow2Write o l s) := by
  have h1 : ∀ ps : List (Nat × List Byte), Kept lo (ps.foldl (fun s p => Machine.window2Store s p.1 p.2) s) := fun ps => Kept.foldl (fun _ _ hs => hs.window2Store) ps h
  exact .ite (h1 _).hostAccessEvent (h1 _)
theorem Kept.setHostRead {lo : Nat} {s : State} (h : Kept lo s) {l : List Byte} : Kept lo { s with hostRead := l } := h.same rfl
theorem Kept.execHostWindow2Read {lo : Nat} {s : State} (h : Kept lo s) {o n : Nat} : OutKept lo (execHostWindow2Read o n s) :=
  Kept.ite (Kept.hostAccessEvent h.setHostRead) h.setHostRead
end Sys2Proof.Machine

/-! ### Queues, translation and migration keep the state well-kept -/
namespace Sys2Proof.Machine
open Sys2Proof

theorem Kept.hostGate {lo : Nat} {s : State} (h : Kept lo s) {i : Instr} {k : State → State} (hk : Kept lo (k s)) : OutKept lo (hostGate i k s) :=
  Kept.ite hk h.setAgenda
theorem Kept.setQueues {lo : Nat} {s : State} (h : Kept lo s) {t : Tbl QueueSt} : Kept lo { s with queues := t } := h.same rfl
theorem Kept.updQueue {lo : Nat} {s : State} (h : Kept lo s) {q : Nat} {f : QueueSt → QueueSt} : Kept lo (updQueue s q f) := h.setQueues
theorem Kept.fwEvent {lo : Nat} {s : State} (h : Kept lo s) {k w x y : Nat} : Kept lo (fwEvent s k w x y) := h.setFwEvents
theorem Kept.passTail {lo : Nat} {s : State} (h : Kept lo s) {q : Nat} : Kept lo (passTail s q) := .ite h.updQueue (.ite h h.fwEvent)
theorem Kept.tailWritten {lo : Nat} {s : State} (h : Kept lo s) {q : Nat} {v : Word} : Kept lo (tailWritten q v s) := by
  unfold Machine.tailWritten
  split
  · exact h
  · split
    · exact h.queueError
    · exact h.setReg32.updQueue.passTail
theorem Kept.askResidency {lo : Nat} {s : State} (h : Kept lo s) {q : Nat} : Kept lo (askResidency s q) := (h.setNextId (Nat.le_succ _)).updQueue.fwEvent
theorem Kept.setResg {lo : Nat} {s : State} (h : Kept lo s) {q : Nat} {b : Bool} : Kept lo (setResg s q b) := h.setRegBit
theorem Kept.setResHeld {lo : Nat} {s : State} (h : Kept lo s) {l : List Nat} : Kept lo { s with resHeld := l } := h.same rfl
theorem Kept.grantHeld {lo : Nat} {s : State} (h : Kept lo s) : Kept lo (grantHeld s) := by
  unfold Machine.grantHeld
  extract_lets l
  clear_value l
  split
  · split
    · exact h
    · exact Kept.setResg h.setResHeld
  · split
    · exact Kept.setResg (Kept.setResg h.setResHeld)
    · exact h
theorem Kept.grantResidency {lo : Nat} {s : State} (h : Kept lo s) {q : Nat} : Kept lo (grantResidency s q) := by
  unfold Machine.grantResidency
  split
  · exact h
  · exact Kept.grantHeld h.setResHeld
theorem Kept.returnEntry {lo : Nat} {s : State} (h : Kept lo s) {q : Nat} : Kept lo (returnEntry s q) := by
  unfold Machine.returnEntry
  extract_lets had s1
  have h1 : Kept lo s1 := Kept.setResg h.setResHeld
  exact .ite h1.grantHeld h1
theorem Kept.queueControl {lo : Nat} {s : State} (h : Kept lo s) {q : Nat} {v : Word} : Kept lo (queueControl q v s) := by
  unfold Machine.queueControl
  extract_lets v en0 res0 log2 bad en w s1 s2 s3
  have h1 : Kept lo s1 := h.setReg32
  have h2 : Kept lo s2 := .ite h1.queueError h1
  have h3 : Kept lo s3 := .ite h2.askResidency h2
  exact .ite h3.returnEntry h3
theorem Kept.fixTailRecs {lo : Nat} {s : State} (h : Kept lo s) {q : Nat} {n : Word} {run : Option Nat} : Kept lo (fixTailRecs s q n run) := by
  unfold Machine.fixTailRecs
  dsimp only
  exact Kept.foldl (fun _ _ hs => hs.emitRec) _ h.updQueue
theorem Kept.setRunNo {lo : Nat} {s : State} (h : Kept lo s) {n : Nat} {t : Tbl Run} : Kept lo { s with runNo := n, runs := t } := h.same rfl
theorem Kept.startRun {lo : Nat} {s : State} (h : Kept lo s) {q : Nat} {l : List Byte} : Kept lo (startRun s q l) := by
  unfold Machine.startRun
  extract_lets no w8 r s1
  have h1 : Kept lo s1 := h.setRunNo
  exact h1.updQueue.emitR.takeRecords
theorem Kept.acceptRecord {lo : Nat} {s : State} (h : Kept lo s) {q : Nat} : Kept lo (acceptRecord s q) := by
  unfold Machine.acceptRecord
  extract_lets n
  split
  · next he => exact h.engPlan.snd he
  · next he => exact (h.engPlan.snd he).queueError
  · next he =>
    split
    next he2 =>
    have h1 := (h.engPlan.snd he).planRead.snd he2
    dsimp only
    split
    · exact h1.setReg32.fixTailRecs.queueError
    · exact h1.setReg32.fixTailRecs.startRun
theorem Kept.execQueueRecordAccept {lo : Nat} {s : State} (h : Kept lo s) {q : Nat} : OutKept lo (execQueueRecordAccept q s) := Kept.ite h.acceptRecord h
theorem Kept.closeRun {lo : Nat} {s : State} (h : Kept lo s) {r : Run} : Kept lo (closeRun s r) := Kept.emitR (Kept.updQueue h.setRuns)
theorem Kept.execRunEnd {lo : Nat} {s : State} (h : Kept lo s) {run : Nat} : OutKept lo (execRunEnd run s) := by
  unfold Machine.execRunEnd
  change Kept lo _
  split
  · exact h
  · extract_lets post
    have hp : ∀ s, Kept lo s → Kept lo (post s) := fun s hs => .ite hs.updQueue.closeRun.ringPost hs.updQueue.closeRun
    split
    · exact h
    · split
      · exact h.closeRun
      · split
        · exact hp _ h
        · split
          · next he => exact (h.engPlan.snd he).launchMiss
          · next he => exact h.engPlan.snd he
          · next he => exact hp _ (h.engPlan.snd he).planWrite.updQueue
theorem Kept.catchUp {lo : Nat} (l : List Nat) : ∀ {s : State}, Kept lo s → Kept lo (catchUp l s) := by
  induction l with
  | nil => exact fun h => h
  | cons q l ih =>
    intro s h
    rw [Machine.catchUp]
    split
    · exact h
    · exact ih h.ringWrite.setReg32
theorem Kept.execErheadWrite {lo : Nat} {s : State} (h : Kept lo s) : OutKept lo (execErheadWrite s) := by
  unfold Machine.execErheadWrite
  change Kept lo _
  split
  · exact h
  · extract_lets s1
    have h1 : Kept lo s1 := Kept.catchUp _ h
    clear_value s1
    exact .ite h1.setOverflowed h1
theorem Kept.setFwCores {lo : Nat} {s : State} (h : Kept lo s) {t : Tbl FwCore} : Kept lo { s with fwCores := t } := h.same rfl
theorem Kept.execFirmwareEventDispatch {lo : Nat} {s : State} (h : Kept lo s) : OutKept lo (execFirmwareEventDispatch s) := by
  unfold Machine.execFirmwareEventDispatch
  change Kept lo _
  split
  · next e k _ _ =>
    extract_lets s1 core
    have h1 : Kept lo s1 := h.setFwEvents
    have hc : ∀ b s, Kept lo s → Kept lo (core b s) := fun b s hs => hs.setFwCores
    split
    · exact hc _ _ h1.updQueue
    · exact hc _ _ h1.grantResidency
    · exact hc _ _ h1.ringPost
    · exact hc _ _ h1.setAgenda
  · exact h
theorem Kept.repairWaiter {lo : Nat} {s : State} (h : Kept lo s) {p : Nat} {w : Waiter} : Kept lo (repairWaiter s p w) := by
  unfold Machine.repairWaiter
  split
  · exact h.resumeEntry
  · exact Kept.takeRecords h.setLaunchWaits
  · exact h.updChannel
  · exact h.updHead.collAdvance
theorem Kept.declineWaiter {lo : Nat} {s : State} (h : Kept lo s) {p : Nat} {w : Waiter} : Kept lo (declineWaiter s p w) := by
  unfold Machine.declineWaiter
  split
  · exact h.showCause.fragPending
  · exact Kept.failRun h.setLaunchWaits
  · split
    · exact h.updChannel.freezeMaster
    · exact h
  · split
    · exact h.ringPost
    · exact h
theorem Kept.prWrite {lo : Nat} {s : State} (h : Kept lo s) {r : PageReq} : Kept lo (prWrite s r) := h.physWrite.setReg32
theorem Kept.setPageReqs {lo : Nat} {s : State} (h : Kept lo s) {l : List PageReq} : Kept lo { s with pageReqs := l } := h.same rfl
theorem Kept.prDrain {lo : Nat} (l : List PageReq) : ∀ {s : State}, Kept lo s → Kept lo (prDrain l s) := by
  induction l with
  | nil => exact fun h => h
  | cons r l ih =>
    intro s h
    rw [Machine.prDrain]
    split
    · exact ih h
    · split
      · exact h
      · exact ih (Kept.setPageReqs h.prWrite)
theorem Kept.setPageReqNo {lo : Nat} {s : State} (h : Kept lo s) {l : List PageReq} {n : Nat} : Kept lo { s with pageReqs := l, nextReq := n } := h.same rfl
theorem Kept.serveWaiter {lo : Nat} {s : State} (h : Kept lo s) {c p : Nat} {w : Waiter × Bool} : Kept lo (serveWaiter c p s w) := by
  unfold Machine.serveWaiter
  split
  · exact h.repairWaiter
  · exact h.declineWaiter
  · split
    · exact h
    · split
      · exact h.declineWaiter
      · extract_lets r s1
        have h1 : Kept lo s1 := h.setPageReqNo
        exact Kept.prDrain _ h1
theorem Kept.execPageService {lo : Nat} {s : State} (h : Kept lo s) {c p : Nat} : OutKept lo (execPageService c p s) := by
  unfold Machine.execPageService
  extract_lets s1
  have h1 : Kept lo s1 := h.setFwCores
  exact .ite h1 (.foldl (fun _ _ hs => hs.serveWaiter) _ h1)
theorem Kept.execPageVerdict {lo : Nat} {s : State} (h : Kept lo s) : OutKept lo (execPageVerdict s) := by
  unfold Machine.execPageVerdict
  extract_lets v s1
  have h1 : Kept lo s1 := h.setReg32
  clear_value s1
  change Kept lo _
  split
  · exact h1
  · refine .foldl (fun s w hs => ?_) _ h1.setPageReqs
    split
    · exact hs.declineWaiter
    · exact hs.repairWaiter
theorem Kept.setMaps {lo : Nat} {s : State} (h : Kept lo s) {f : Nat → Core → Core} {g : Nat → Cluster → Cluster} (hf : ∀ k c, CoreKept c → CoreKept (f k c))
    (hg : ∀ k c, ClusterKept c → ClusterKept (g k c)) : Kept lo { s with cores := tmap s.cores f, clusters := tmap s.clusters g } :=
  (h.mapCores hf).setClusters (tsorted_tmap _ _ h.clusters) (h.clustersKept.tmap hg)
theorem Kept.dropRange {lo : Nat} {s : State} (h : Kept lo s) {c l n : Nat} : Kept lo (dropRange s c l n) := by
  unfold Machine.dropRange
  refine h.setMaps (fun _ _ hc => ?_) fun _ _ hk => hk
  exact { hc with }
theorem Kept.setInval {lo : Nat} {s : State} (h : Kept lo s) {x : Option (Nat × Option Nat)} : Kept lo { s with inval := x } := h.same rfl
theorem Kept.execTlbInvalidate {lo : Nat} {s : State} (h : Kept lo s) : OutKept lo (execTlbInvalidate s) := by
  unfold Machine.execTlbInvalidate
  extract_lets w s1 ctx s2
  have h1 : Kept lo s1 := h.setRegBit
  clear_value s1
  change Kept lo _
  split
  · exact h1
  · have h2 : Kept lo s2 := .ite h1.dropRange h1.dropRange
    exact Kept.setRegBit h2.setInval
theorem Kept.execTlbInvalidateComplete {lo : Nat} {s : State} (h : Kept lo s) : OutKept lo (execTlbInvalidateComplete s) := by
  unfold Machine.execTlbInvalidateComplete
  change Kept lo _
  split
  · exact h
  · exact .ite h h.setInval
  · exact .ite (Kept.setRegBit h.setInval) h
theorem Kept.setMig {lo : Nat} {s : State} (h : Kept lo s) {m : Option Migr} : Kept lo { s with mig := m } := h.same rfl
theorem Kept.setMemMig {lo : Nat} {s : State} (h : Kept lo s) {a n v : Nat} {m : Option Migr} : Kept lo { s with mem := memPut s.mem a n v, mig := m } :=
  (h.setMem (memPut_wf _ _ _ _ h.mem)).setMig
theorem Kept.execMigrationStart {lo : Nat} {s : State} (h : Kept lo s) : OutKept lo (execMigrationStart s) := by
  unfold Machine.execMigrationStart
  extract_lets w s1 va dst ctx root
  have h1 : Kept lo s1 := h.setRegBit
  clear_value s1
  change Kept lo _
  split
  · exact h1
  · split
    · split
      · exact h1.setRegBit
      · exact Kept.setRegBit (Kept.dropRange h1.setMemMig)
    · exact h1.setRegBit
theorem Kept.execMigrationDrained {lo : Nat} {s : State} (h : Kept lo s) : OutKept lo (execMigrationDrained s) := by
  unfold Machine.execMigrationDrained
  change Kept lo _
  split
  · exact .ite h.setMig h
  · exact h
theorem Kept.copyPage {lo : Nat} {s : State} (h : Kept lo s) {m : Migr} : Kept lo (copyPage s m) := Kept.foldl (fun _ _ hs => hs.keyedWrite) _ h
theorem Kept.execMigrationCopyDone {lo : Nat} {s : State} (h : Kept lo s) : OutKept lo (execMigrationCopyDone s) := by
  unfold Machine.execMigrationCopyDone
  change Kept lo _
  split
  · split
    · exact h
    · exact Kept.setRegBit (Kept.setMemMig h.copyPage)
  · exact h
end Sys2Proof.Machine

/-! ### Saving, restoring and killing plots keep the state well-kept -/
namespace Sys2Proof.Machine
open Sys2Proof

theorem Kept.backInEntry {lo : Nat} {s : State} (h : Kept lo s) {ci t e : Nat} : Kept lo (backInEntry s ci t e) := by
  refine Kept.stepLeft (Kept.updCore h fun c hc => CoreKept.updFrag (CoreKept.updThread hc ?_))
  exact fun _ ht => ht
theorem Kept.saveWaiting {lo : Nat} {s : State} (h : Kept lo s) {ci t : Nat} : Kept lo (saveWaiting s ci t) := by
  unfold Machine.saveWaiting
  split
  · exact h
  · split
    · split
      · exact h
      · extract_lets s1
        have h1 : Kept lo s1 := h.leaveWait.updThread fun _ ht => ht
        split
        · exact h1.backInEntry
        · exact h1.updThread fun _ ht => ht
    · exact h
theorem Kept.sweepStops {lo : Nat} {s : State} (h : Kept lo s) : Kept lo (sweepStops s) := by
  unfold Machine.sweepStops
  refine .foldl (fun s ci hs => ?_) _ h
  dsimp only
  split
  · exact hs
  · exact .foldl (fun _ _ hs => hs.saveWaiting) _ (.foldl (fun _ _ hs => hs.launchBin) _ hs)
theorem Kept.execStopRequest {lo : Nat} {s : State} (h : Kept lo s) {ci p : Nat} : OutKept lo (execStopRequest ci p s) := by
  unfold Machine.execStopRequest
  dsimp only [OutKept]
  split
  · exact h
  · split
    · exact h
    · split
      · exact h
      · next t he =>
        have ht : Kept lo t := by
          split at he
          · cases he
            exact h
          · exact h.holdSlots he
        exact Kept.sweepStops (.foldl (fun _ _ hs => hs.updPlot) _ ht)
theorem Kept.execStopFallbackExpiry {lo : Nat} {s : State} (h : Kept lo s) : OutKept lo (execStopFallbackExpiry s) := by
  refine h.mapCores fun _ c hc => hc.mapThreads fun t th ht => ?_
  split
  · exact .ite ht ht
  · exact ht
theorem savePart_kept {lo : Nat} {s : State} (h : Kept lo s) {ci p k : Nat} : PartKept (savePart s ci p k) := by
  refine ((h.get ci).regs.filter _).map fun e he => ?_
  dsimp only
  split
  · exact tsorted_tmap _ _ he
  · exact tsorted_tmap _ _ he
theorem Kept.bindOps {lo : Nat} {s : State} (h : Kept lo s) {f : CollOp → Bool} {g : CollOp → CollOp} : Kept lo (bindOps s f g) := h.same rfl
theorem Kept.setSpFree {lo : Nat} {s : State} (h : Kept lo s) : Kept lo (setSpFree s) := h.setReg32
theorem Kept.saveOne {lo : Nat} {s : State} (h : Kept lo s) {ci p k : Nat} : Kept lo (saveOne s ci p k) := by
  unfold Machine.saveOne
  extract_lets sp ck s1 s2 s3 chs s4 s5
  have h1 : Kept lo s1 := .foldl (fun _ _ hs => hs.keyedWrite) _ h
  have h2 : Kept lo s2 := h1.bindOps
  have h3 : Kept lo s3 := h2.setSaved (h2.saved.tput (savePart_kept h) _)
  have h4 : Kept lo s4 := h3.clusterFields fun _ => by rfl
  have h5 : Kept lo s5 := h4.updCore fun _ hc => { hc.filterThreads _ with sheaves := tsorted_filter _ _ hc.sheaves }
  exact h5.freePart.emitR
theorem Kept.execPlotSave {lo : Nat} {s : State} (h : Kept lo s) {ci p : Nat} : OutKept lo (execPlotSave ci p s) :=
  Kept.ite h.sweepStops (Kept.setSpFree (Kept.unfuse (.foldl (fun _ _ hs => hs.saveOne) _ h.sweepStops)))
theorem Kept.owedFaults {lo : Nat} {s : State} (h : Kept lo s) {ci p : Nat} : Kept lo (owedFaults s ci p) := by
  unfold Machine.owedFaults
  dsimp only
  exact Kept.foldl (fun _ _ hs => hs.engineFrag) _ h.bindOps
theorem Kept.updChannels {lo : Nat} {s : State} (h : Kept lo s) {cl : Nat} {f : Cluster → Tbl Channel} : Kept lo (Machine.updCluster s cl fun k => { k with channels := f k }) :=
  h.clusterFields fun _ => rfl
theorem Kept.delSaved {lo : Nat} {s : State} (h : Kept lo s) {k : Nat} : Kept lo { s with savedParts := tdel s.savedParts k } := h.setSaved (h.saved.tdel k)
theorem Kept.restoreChannels {lo : Nat} {s : State} (h : Kept lo s) {cl : Nat} {t : Tbl Channel} {l : List (Nat × Nat × Nat)} : Kept lo (restoreChannels s cl t l) :=
  by
  unfold Machine.restoreChannels
  exact Kept.updChannels h
theorem memWf_filter {m : List Host.Cell} (p : Host.Cell → Bool) (h : memWf m = true) : memWf (m.filter p) = true := by
  simp only [memWf, Bool.and_eq_true, List.all_eq_true] at h ⊢
  exact ⟨tsorted_filter _ _ h.1, fun e he => h.2 e (List.mem_filter.1 he).1⟩
theorem memWf_foldl_memSet {α : Type} (f : α → Nat) (g : α → Byte) (l : List α) : ∀ {m : List Host.Cell}, memWf m = true →
    memWf (l.foldl (fun m e => memSet m (f e) (g e)) m) = true := by
  induction l with
  | nil => exact fun h => h
  | cons x l ih => exact fun h => ih (memSet_wf _ _ _ h)
theorem Kept.restorePart {lo : Nat} {s : State} (h : Kept lo s) {ci k : Nat} {sp : SavedPart} (hsp : PartKept sp) {fit : Nat × Nat × List RoleInfo × List Nat} :
    Kept lo (restorePart s ci k sp fit) := by
  obtain ⟨base, pi, roles, ht⟩ := fit
  unfold Machine.restorePart
  dsimp only
  have hc := h.get ci
  refine Kept.emitR (Kept.delSaved (Kept.settleBanks (Kept.foldl (fun s a hs => ?_) _ (Kept.foldl (fun s a hs => ?_) _ (Kept.owedFaults (Kept.bindOps
    (Kept.updCluster (Kept.foldl (fun _ _ hs => hs.admitFrag) _ (Kept.putCore h ?_ ci)) ?_)))))))
  · split
    · exact hs.objUpdate
    · exact hs
  · split
    · exact hs.fwEvent
    · exact hs
  · constructor <;> dsimp only
    · exact tsorted_foldl_tput _ _ _ _ hc.threads
    · refine hc.regs.foldl_tput _ _ _ fun _ _ e he => ?_
      obtain ⟨x, hx, rfl⟩ := List.mem_map.1 he
      dsimp only [RegsKept]
      exact tsorted_tmap _ _ (hsp x hx)
    · exact tsorted_tput _ _ _ hc.plots
    · exact tsorted_foldl_tput _ _ _ _ hc.frags
    · exact tsorted_foldl_tput _ _ _ _ hc.sheaves
    · exact hc.l1
  · exact fun _ hk => memWf_foldl_memSet _ _ _ (memWf_filter _ hk)
/-- Every part that a placed set names is one of the set. -/
theorem setFit_mem {s : State} {ci : Nat} {l : List (Nat × SavedPart)} {f : List (Nat × Nat × SavedPart × (Nat × Nat × List RoleInfo × List Nat))}
    (h : setFit s ci l = some f) : ∀ x ∈ f, (x.2.1, x.2.2.1) ∈ l := by
  cases l with
  | nil => nomatch h
  | cons x0 l0 =>
    unfold setFit at h
    dsimp only at h
    split at h
    · nomatch h
    · split at h
      · cases h
        intro x hx
        obtain ⟨o, ho, hox⟩ := List.mem_filterMap.1 hx
        obtain ⟨e, he, rfl⟩ := List.mem_map.1 ho
        obtain ⟨r, _, rfl⟩ := Option.map_eq_some_iff.1 hox
        exact (List.of_mem_zip he).2
      · nomatch h
theorem Kept.placeSet {lo : Nat} {s : State} (h : Kept lo s) {ci : Nat} {l : List (Nat × SavedPart)} : Kept lo (placeSet s ci l).2 := by
  unfold Machine.placeSet
  split
  · exact h.unstage
  · exact h
theorem placeSet_mem {s t : State} {ci : Nat} {l : List (Nat × SavedPart)} {f : List (Nat × Nat × SavedPart × (Nat × Nat × List RoleInfo × List Nat))}
    (h : placeSet s ci l = (some f, t)) : ∀ x ∈ f, (x.2.1, x.2.2.1) ∈ l := by
  unfold placeSet at h
  split at h
  · exact setFit_mem (Prod.mk.inj h).1
  · nomatch h
theorem savedSet_mem {s : State} {k : Nat} {e : Nat × SavedPart} (h : e ∈ savedSet s k) : e ∈ s.savedParts := by
  unfold savedSet at h
  split at h
  · nomatch h
  · exact (List.mem_filter.1 (List.mem_mergeSort.1 h)).1
theorem Kept.execPlotRestore {lo : Nat} {s : State} (h : Kept lo s) {ci k : Nat} : OutKept lo (execPlotRestore ci k s) := by
  unfold Machine.execPlotRestore
  extract_lets l cl fuse
  change Kept lo _
  split
  · exact h
  · split
    · next he => exact h.placeSet.snd he
    · next f s1 he =>
      have h1 : Kept lo s1 := h.placeSet.snd he
      extract_lets s2 s3
      have h2 : Kept lo s2 := .ite h1.changeFusion h1
      have h3 : Kept lo s3 := Kept.foldlMem f (fun s x hx hs => hs.restorePart (h.saved _ (savedSet_mem (placeSet_mem he x hx)))) h2
      exact h3.restoreChannels.setSpFree.preemptFields
/-- Entries made under rising keys stand in order. -/
theorem tsorted_filterMap {α : Type} (f : Nat → Option (Nat × α)) (hf : ∀ n e, f n = some e → e.1 = n) (l : List Nat) (hl : l.Pairwise (· < ·)) :
    tsorted (l.filterMap f) = true := by
  induction l with
  | nil => rfl
  | cons n l ih =>
    rw [List.pairwise_cons] at hl
    cases hn : f n with
    | none => rw [List.filterMap_cons_none hn]; exact ih hl.2
    | some e =>
      obtain ⟨k, v⟩ := e
      rw [List.filterMap_cons_some hn, tsorted_cons]
      refine ⟨ih hl.2, fun x hx => ?_⟩
      obtain ⟨m, hm, hmx⟩ := List.mem_filterMap.1 hx
      have hk : k = n := hf _ _ hn
      rw [hf _ _ hmx, hk]
      exact hl.1 m hm
theorem importThread_kept {s : State} {k n : Nat} : RegsKept (importThread s k n) := by
  refine tsorted_filterMap _ (fun r e he => ?_) _ List.pairwise_lt_range
  generalize (_ / 4 ^ r % 4 : Nat) = code at he
  match code, he with
  | 0, he => cases he; rfl
  | 1, he => cases he; rfl
  | 2, he => cases he; rfl
  | _ + 3, he => nomatch he
theorem importPart_kept {s : State} {k : Nat} {hd : Header} : PartKept (importPart s k hd) := by
  intro e he
  obtain ⟨n, _, rfl⟩ := List.mem_map.1 he
  exact importThread_kept
theorem Kept.execSaveSetImport {lo : Nat} {s : State} (h : Kept lo s) : OutKept lo (execSaveSetImport s) := by
  unfold Machine.execSaveSetImport
  extract_lets slot s1 w n ok
  have h1 : Kept lo s1 := h.setReg32
  clear_value ok s1
  change Kept lo _
  split
  · exact h1
  · split
    · exact h1
    · refine Kept.setSpFree (.foldl (fun s i hs => ?_) _ h1)
      exact (hs.setSaved (hs.saved.tput importPart_kept (slot + i))).setNextId (Nat.le_add_right _ _)

/-! ### Frozen masters -/

theorem Kept.frzDone {lo : Nat} {s : State} (h : Kept lo s) {b : Bool} : Kept lo (frzDone s b) := .ite h.setRegBit.setRegBit.setRegBit h.setRegBit.setRegBit
theorem Kept.unlist {lo : Nat} {s : State} (h : Kept lo s) {k id : Nat} : Kept lo (unlist s k id) := h.setFrozen
theorem Kept.killPart {lo : Nat} {s : State} (h : Kept lo s) {ci p : Nat} : Kept lo (killPart s ci p) := by
  unfold Machine.killPart
  extract_lets c pl cl s1 s2 s3 s4 s5
  have h1 : Kept lo s1 := .foldl (fun _ _ hs => hs.killEngine) _ h
  have h2 : Kept lo s2 := .foldl (fun _ _ hs => hs.dropQueue.updChannel.failPointers) _ h1
  have h3 : Kept lo s3 := .foldl (fun _ _ hs => hs.breakAt) _ h2
  have h4 : Kept lo s4 := h3.freePlotFrags.updCore fun _ hc => { hc with }
  have h5 : Kept lo s5 := .foldl (fun _ _ hs => hs.endThread) _ h4
  exact h5.updPlot.unlist
theorem Kept.setStreams {lo : Nat} {s : State} (h : Kept lo s) {l : List (Nat × Nat)} {r : List HeldRequest} {a : List Instr} :
    Kept lo { s with frozenStreams := l, heldRequests := r, agenda := a } := h.same rfl
theorem Kept.openStream {lo : Nat} {s : State} (h : Kept lo s) {id : Nat} {b : Bool} : Kept lo (openStream s id b) := Kept.unlist h.setStreams
theorem Kept.execFrozenKill {lo : Nat} {s : State} (h : Kept lo s) : OutKept lo (execFrozenKill s) := by
  unfold Machine.execFrozenKill
  dsimp only [OutKept]
  split
  · exact h.frzDone
  · refine Kept.frzDone ?_
    split
    · exact .foldl (fun _ _ hs => hs.killPart) _ h
    · exact h.dropQueue.updChannel.unlist
    · exact h.openStream
theorem Kept.execFrozenResume {lo : Nat} {s : State} (h : Kept lo s) : OutKept lo (execFrozenResume s) := by
  unfold Machine.execFrozenResume
  dsimp only [OutKept]
  split
  · exact h.frzDone
  · refine Kept.frzDone ?_
    split
    · exact .foldl (fun _ _ hs => hs.resumeEntry) _ h.updPlot.unlist
    · exact h.updChannel.unlist
    · exact h.openStream
end Sys2Proof.Machine

/-! ### Device time and the recorder keep the state well-kept -/
namespace Sys2Proof.Machine
open Sys2Proof

theorem Kept.setDisc {lo : Nat} {s : State} (h : Kept lo s) {d : Disc} : Kept lo { s with disc := d } := h.same rfl
theorem Kept.setFleet {lo : Nat} {s : State} (h : Kept lo s) : Kept lo (setFleet s) := by
  unfold Machine.setFleet
  split
  · exact h.setReg32.setRegBit
  · exact h.setRegN.setRegBit
theorem Kept.firstBound {lo : Nat} {s : State} (h : Kept lo s) : Kept lo (firstBound s) := by
  unfold Machine.firstBound
  dsimp only
  split
  · exact h
  · exact .ite (Kept.emitR (Kept.openSegment h.setDisc)) (Kept.openSegment h.setDisc)
theorem Kept.resetEnd {lo : Nat} {s : State} (h : Kept lo s) : Kept lo (resetEnd s) := .ite h.setDisc (Kept.emitR h.setDisc)
theorem Kept.lockedAgain {lo : Nat} {s : State} (h : Kept lo s) : Kept lo (lockedAgain s) := .ite (Kept.resetEnd h.setDisc) h.setDisc
theorem Kept.setBound {lo : Nat} {s : State} (h : Kept lo s) {e : Nat} : Kept lo (setBound s e) := by
  unfold Machine.setBound
  extract_lets was d s1 s2 now s3 s4 s5
  have h1 : Kept lo s1 := h.setDisc
  have h2 : Kept lo s2 := h1.setRegN
  have h3 : Kept lo s3 := h2.setFleet.firstBound
  have h4 : Kept lo s4 := h3.setRegBit
  have h5 : Kept lo s5 := h4.emitR
  clear_value s5 s4
  split
  · exact h4
  · exact .ite h5.lockedAgain h5
theorem Kept.setFreeDisc {lo : Nat} {s : State} (h : Kept lo s) {n : Nat} {d : Disc} : Kept lo { s with free := n, disc := d } := h.same rfl
theorem Kept.refUpdate {lo : Nat} {s : State} (h : Kept lo s) : Kept lo (refUpdate s) := Kept.setBound h.setFreeDisc
theorem Kept.setNowDisc {lo : Nat} {s : State} (h : Kept lo s) {n : Nat} {d : Disc} : Kept lo { s with now := n, disc := d } := h.same rfl
theorem Kept.correct {lo : Nat} {s : State} (h : Kept lo s) {o : Int} : Kept lo (correct s o) := .ite h.setNowDisc h.setDisc
theorem Kept.execTimeExchange {lo : Nat} {s : State} (h : Kept lo s) {l e : Nat} {o : Int} {f : Option Nat} : OutKept lo (execTimeExchange l o e f s) := by
  unfold Machine.execTimeExchange
  dsimp only [OutKept]
  split
  · exact h
  · split
    · exact h.refUpdate
    · split
      · exact h
      · exact Kept.correct (Kept.setBound h.setDisc)
theorem Kept.execTimeBoundGrowth {lo : Nat} {s : State} (h : Kept lo s) : OutKept lo (execTimeBoundGrowth s) := by
  unfold Machine.execTimeBoundGrowth
  dsimp only [OutKept]
  split
  · exact h
  · exact Kept.setBound h.setDisc
theorem Kept.execFleetTimeSync {lo : Nat} {s : State} (h : Kept lo s) {o : Int} : OutKept lo (execFleetTimeSync o s) := Kept.ite h h.refUpdate.correct
theorem Kept.setPorts {lo : Nat} {s : State} (h : Kept lo s) {t : Tbl (List Rec)} : Kept lo { s with ports := t } := h.same rfl
theorem Kept.emptyFirst {lo : Nat} {s : State} (h : Kept lo s) : Kept lo (emptyFirst s) := by
  unfold Machine.emptyFirst
  split
  · split
    · exact Kept.granaryPut h.setPorts
    · exact h
  · exact h
theorem Kept.execRecordWrite {lo : Nat} {s : State} (h : Kept lo s) {u : Word} : OutKept lo (execRecordWrite u s) := by
  unfold Machine.execRecordWrite
  extract_lets s1
  have h1 : Kept lo s1 := h.emptyFirst
  clear_value s1
  change Kept lo _
  split
  · exact h1
  · exact h1.setPorts
  · exact Kept.granaryPut h1.setPorts
theorem Kept.execQuotaWrite {lo : Nat} {s : State} (h : Kept lo s) : OutKept lo (execQuotaWrite s) := by
  unfold Machine.execQuotaWrite
  dsimp only [OutKept]
  split
  · exact h
  · exact h.setRegN
theorem Kept.execGranaryReadoutComplete {lo : Nat} {s : State} (h : Kept lo s) : OutKept lo (execGranaryReadoutComplete s) := by
  unfold Machine.execGranaryReadoutComplete
  dsimp only [OutKept]
  split
  · exact h
  · split
    · exact h.setRegBit.setRegBit
    · exact .foldl (fun _ _ hs => hs.physWrite) _ h.setRegBit
theorem Kept.emitMore {lo : Nat} {e : Edge} (l : List Nat) : ∀ {s : State}, Kept lo s → Kept lo (emitMore e l s) := by
  induction l with
  | nil => exact fun h => h
  | cons p l ih => exact fun h => ih h.emitR
theorem Kept.emitEdges {lo : Nat} (l : List Edge) : ∀ {n : Nat × Nat} {s : State}, Kept lo s → Kept lo (emitEdges l n s).1 := by
  induction l with
  | nil => exact fun h => h
  | cons e l ih => exact fun h => ih (Kept.emitMore _ h.emitR)
theorem Kept.execWaitforSnapshot {lo : Nat} {s : State} (h : Kept lo s) : OutKept lo (execWaitforSnapshot s) := by
  unfold Machine.execWaitforSnapshot
  dsimp only [OutKept]
  split
  · exact h.setRegBit.setRegBit
  · exact Kept.emitR (Kept.setFree (Kept.emitEdges _ h.setRegBit))
theorem Kept.allCores {lo : Nat} {s : State} (h : Kept lo s) {f : Core → Core} (hf : ∀ c, CoreKept c → CoreKept (f c)) : Kept lo (allCores s f) := by
  refine h.setCores ?_ fun e he => ?_
  · rw [← List.filterMap_eq_map]
    exact tsorted_filterMap _ (fun n e he => by cases he; rfl) _ List.pairwise_lt_range
  · obtain ⟨ci, _, rfl⟩ := List.mem_map.1 he
    exact hf _ (h.get ci)
theorem Kept.setAny {lo : Nat} {s : State} (h : Kept lo s) : Kept lo (setAny s) := h.setRegBit
theorem Kept.execProfileHostStart {lo : Nat} {s : State} (h : Kept lo s) : OutKept lo (execProfileHostStart s) := by
  refine Kept.setAny (Kept.allCores h ?_)
  exact fun _ hc => { hc with }
theorem Kept.execProfileHostStop {lo : Nat} {s : State} (h : Kept lo s) : OutKept lo (execProfileHostStop s) := h.mapCores fun _ _ hc => { hc with }
theorem Kept.coreSummary {lo : Nat} {s : State} (h : Kept lo s) {ci t : Nat} : Kept lo (coreSummary ci t s) := by
  unfold Machine.coreSummary
  dsimp only
  refine Kept.updCore (Kept.foldl (fun s e hs => ?_) _ h) ?_
  · split
    · exact hs
    · exact hs.emitRec
  · exact fun _ hc => { hc with }
theorem Kept.setInterval {lo : Nat} {s : State} (h : Kept lo s) {n t : Nat} : Kept lo { s with interval := n, sumAt := t } := h.same rfl
theorem Kept.execProfileSummaryInterval {lo : Nat} {s : State} (h : Kept lo s) : OutKept lo (execProfileSummaryInterval s) := by
  unfold Machine.execProfileSummaryInterval
  dsimp only [OutKept]
  split
  · exact h
  · exact Kept.setInterval (.foldl (fun _ _ hs => hs.coreSummary) _ h)
theorem Kept.execDetailSelectWrite {lo : Nat} {s : State} (h : Kept lo s) : OutKept lo (execDetailSelectWrite s) := h.mapCores fun _ _ hc => { hc with }
theorem Kept.setMgmt {lo : Nat} {s : State} (h : Kept lo s) {m : Option (Nat × Nat × Bool × Word)} : Kept lo { s with mgmt := m } := h.same rfl
theorem Kept.execMgmtRegisterRead {lo : Nat} {s : State} (h : Kept lo s) {ci w : Nat} {p : MgmtPlace} : OutKept lo (execMgmtRegisterRead ci p w s) := by
  unfold Machine.execMgmtRegisterRead
  dsimp only [OutKept]
  split
  · exact .ite h (Kept.emitR h.setMgmt)
  · exact .ite h (Kept.emitR h.setMgmt)
  · exact h
  · exact .ite h (Kept.emitR h.setMgmt)
theorem Kept.execDebuggerRegisterWrite {lo : Nat} {s : State} (h : Kept lo s) {ci t r : Nat} {v : Word} : OutKept lo (execDebuggerRegisterWrite ci t r v s) := by
  unfold Machine.execDebuggerRegisterWrite
  change Kept lo _
  extract_lets c
  split
  · exact h
  · next th ht =>
    split
    · exact h
    · extract_lets lost th1 th2 c2 all
      have h1 : RegsKept th1 := (show RegsKept th from (h.get ci).regs.get ht).writeReg
      have h2 : RegsKept th2 := .ite h1 h1
      have hc : CoreKept c2 := ((h.get ci).putThread h2 t).retag
      exact (h.putCore hc ci).settleBanks
theorem Kept.execDebuggerAttach {lo : Nat} {s : State} (h : Kept lo s) {ci p : Nat} {on : Bool} : OutKept lo (execDebuggerAttach ci p on s) := Kept.ite h h.updPlot
end Sys2Proof.Machine

/-! ### Issue, security, power and registers keep the state well-kept -/
namespace Sys2Proof.Machine
open Sys2Proof

theorem holdThread_kept {s : State} {ci : Nat} {c : Core} {th : Thread} (h : RegsKept th) : RegsKept (holdThread s ci c th) := by
  unfold holdThread
  split
  · exact h
  · split <;> exact h
theorem Kept.holdSources {lo : Nat} {s : State} (h : Kept lo s) {ci : Nat} : Kept lo (holdSources s ci) := h.updCore fun _ hc => hc.mapThreads fun _ _ ht => holdThread_kept ht
theorem Kept.setWalked {lo : Nat} {s : State} (h : Kept lo s) {l : List Drill} : Kept lo { s with walked := l } := h.same rfl
theorem Kept.launchWalked {lo : Nat} {s : State} (h : Kept lo s) {ci : Nat} {ds : List (Drill × List Cand)} : Kept lo (launchWalked s ci ds) := by
  unfold Machine.launchWalked
  dsimp only
  refine Kept.setWalked (Kept.updThreads h ?_)
  exact fun _ ht => .ite ht ht
theorem CoreKept.mapSheaves {c : Core} (h : CoreKept c) {f : Nat → Sheaf → Sheaf} : CoreKept { c with sheaves := tmap c.sheaves f } :=
  { h with sheaves := tsorted_tmap _ _ h.sheaves }
theorem Kept.collLines {lo : Nat} {s : State} (h : Kept lo s) {ci : Nat} : Kept lo (collLines s ci) := by
  refine Kept.foldl (fun s l hs => ?_) _ h
  split
  · exact hs
  · split
    · exact hs
    · split
      · next he =>
        refine Kept.takeFaults (Kept.updCore (hs.fetchLine.snd he) ?_)
        exact fun _ hc => hc.mapSheaves
      · next he => exact hs.fetchLine.snd he
theorem Kept.endMwait {lo : Nat} {s : State} (h : Kept lo s) {ci t : Nat} {th : Thread} : Kept lo (endMwait s ci t th) := by
  unfold Machine.endMwait
  dsimp only
  split
  · split
    · exact h
    · refine Kept.wakeThread (Kept.updThread h ?_)
      exact fun _ ht => ht
  · exact h
theorem Kept.turnRetries {lo : Nat} {s : State} (h : Kept lo s) {ci : Nat} : Kept lo (turnRetries s ci) := by
  refine Kept.updCore (Kept.foldl (fun _ _ hs => hs.endMwait) _ h) fun c hc => hc.mapThreads fun t th ht => ?_
  split
  · exact .ite (makeReady_kept ht) ht
  · exact ht
theorem noteOcc_kept {c : Core} {x : Drill × List Cand} (h : CoreKept c) : CoreKept (noteOcc c x) := by
  unfold noteOcc
  dsimp only
  split
  · exact h
  · exact { h with }
theorem Kept.detailRecord {lo : Nat} {s : State} (h : Kept lo s) {ci : Nat} {c : Core} {x : Drill × List Cand} : Kept lo (detailRecord s ci c x) := by
  unfold Machine.detailRecord
  split
  · exact .ite h h.emitR
  · exact h
theorem Kept.profileCore {lo : Nat} {s : State} (h : Kept lo s) {ci : Nat} {ds : List (Drill × List Cand)} : Kept lo (profileCore s ci ds) := by
  unfold Machine.profileCore
  extract_lets c evts w cap p0 p1 p2 c1 s1
  have hc : CoreKept c := .foldl (fun _ _ hc => noteOcc_kept hc) _ (h.get ci)
  have h1 : Kept lo s1 := h.putCore (by exact { hc with }) ci
  exact .ite (.foldl (fun _ _ hs => hs.detailRecord) _ h1) h1
theorem Kept.timeStart {lo : Nat} {s : State} (h : Kept lo s) : Kept lo (timeStart s) := .ite (h.allCores fun _ hc => hc) h
theorem Kept.holdOperands {lo : Nat} {s : State} (h : Kept lo s) {ci : Nat} {ds : List (Drill × List Cand)} : Kept lo (holdOperands s ci ds) := by
  refine Kept.updThreads' h fun t th ht => ?_
  split <;> exact ht
theorem Kept.deadlocks {lo : Nat} {s : State} (h : Kept lo s) {ci : Nat} : Kept lo (deadlocks s ci) := Kept.foldl (fun _ _ hs => .ite hs.spawnDeadlock hs) _ h
theorem settleFlags_kept {c : Core} (h : CoreKept c) : CoreKept (settleFlags c) := h.mapThreads fun _ _ ht => .ite ht ht
theorem Kept.setIssued {lo : Nat} {s : State} (h : Kept lo s) {l : List Drill} {a : List Instr} : Kept lo { s with issued := l, agenda := a } := h.same rfl
theorem Kept.issueCore {lo : Nat} {s : State} (h : Kept lo s) {ci : Nat} : Kept lo (issueCore s ci) := by
  unfold Machine.issueCore
  extract_lets s1 s2 s3 s4 ds asks s5
  have h1 : Kept lo s1 := (h.updCore fun _ hc => tickUnits_kept (settleFlags_kept hc)).moveOn.turnRetries.deadlocks.collLines
  have h2 : Kept lo s2 := .foldl (fun _ _ hs => hs.recheckBarriers.checkFuses) _ h1
  have h4 : Kept lo s4 := h2.takeAllLates.holdSources
  have h5 : Kept lo s5 := h4.launchWalked.holdOperands.profileCore
  exact h5.setIssued
theorem Kept.setTime {lo : Nat} {s : State} (h : Kept lo s) {t n : Nat} {d : Disc} : Kept lo { s with ticks := t, now := n, disc := d } := h.same rfl
theorem Kept.advanceTime {lo : Nat} {s : State} (h : Kept lo s) : Kept lo (advanceTime s) := by
  unfold Machine.advanceTime
  dsimp only
  refine Kept.setMaps (Kept.setTime h) (fun k c hc => ?_) fun k c hk => hk
  split
  · exact { hc with }
  · exact hc
theorem Kept.setBad {lo : Nat} {s : State} (h : Kept lo s) {l : List Nat} : Kept lo { s with bad := l } := h.same rfl
theorem Kept.strike {lo : Nat} {s : State} (h : Kept lo s) : Kept lo (strike s) := by
  unfold Machine.strike
  split
  · exact .ite h h.setBad
  · exact h
theorem Kept.makeComm {lo : Nat} {s : State} (h : Kept lo s) : Kept lo (makeComm s) := by
  unfold Machine.makeComm
  split
  · exact h
  · exact .ite h.setComms h
theorem Kept.settleFusion {lo : Nat} {s : State} (h : Kept lo s) {cl : Nat} : Kept lo (settleFusion s cl) := by
  unfold Machine.settleFusion
  split
  · exact h
  · extract_lets mine busy
    split
    · exact h
    · refine Kept.clusterFields (Kept.mapCores h fun k c hc => ?_) fun _ => by rfl
      split
      · exact { hc with l1 := rfl }
      · exact hc
theorem Kept.execIssueCycle {lo : Nat} {s : State} (h : Kept lo s) : OutKept lo (execIssueCycle s) := by
  have h1 := h.advanceTime.strike.makeComm
  have h2 := (Kept.foldl (fun _ cl hs => Kept.settleFusion hs (cl := cl)) (tkeys s.clusters) h1).sweepStops.timeStart
  exact (Kept.setAny (Kept.foldl (fun _ _ hs => hs.issueCore) ((tkeys s.cores).filter (clockTicks s)) h2)).launchFar
theorem markOverdue_kept {c : Core} (h : CoreKept c) : CoreKept (markOverdue c) := h.mapThreads fun _ _ ht => .ite ht ht
theorem endYields_kept {c : Core} (h : CoreKept c) : CoreKept (endYields c) := h.mapThreads fun _ _ ht => .ite ht ht
theorem Kept.execThreadOverdue {lo : Nat} {s : State} (h : Kept lo s) : OutKept lo (execThreadOverdue s) := h.mapCores fun _ _ hc => markOverdue_kept hc
theorem Kept.execYieldExpiry {lo : Nat} {s : State} (h : Kept lo s) : OutKept lo (execYieldExpiry s) := h.mapCores fun _ _ hc => endYields_kept hc

/-! ### Security -/

theorem Kept.setSec {lo : Nat} {s : State} (h : Kept lo s) {x : Sec} : Kept lo { s with sec := x } := h.same rfl
theorem Kept.bufOut {lo : Nat} {s : State} (h : Kept lo s) {l : List Byte} : Kept lo (bufOut s l) := Kept.setRegN (.foldl (fun _ _ hs => hs.setReg32) _ h)
theorem Kept.secDone {lo : Nat} {s : State} (h : Kept lo s) {n : Nat} : Kept lo (secDone s n) := h.setRegN
theorem Kept.secCmd {lo : Nat} {s : State} (h : Kept lo s) {b : Bool} {f : State → State} (hf : Kept lo (f s)) : OutKept lo (secCmd b f s) := Kept.ite hf h.secDone
theorem Kept.extendM {lo : Nat} {s : State} (h : Kept lo s) {n : Nat} {l : List Byte} : Kept lo (extendM s n l) := h.setSec
theorem Kept.wipeTenantKeys {lo : Nat} {s : State} (h : Kept lo s) : Kept lo (wipeTenantKeys s) := Kept.foldl (fun _ _ hs => hs.setRegBit) _ h.setSec
theorem Kept.wipeKeys {lo : Nat} {s : State} (h : Kept lo s) : Kept lo (wipeKeys s) := Kept.setSec (.foldl (fun _ _ hs => hs.wipeLink) _ h.wipeTenantKeys)
theorem Kept.execGetcert {lo : Nat} {s : State} (h : Kept lo s) : OutKept lo (execGetcert s) := h.secCmd h.bufOut.secDone
theorem Kept.execGetnonce {lo : Nat} {s : State} (h : Kept lo s) : OutKept lo (execGetnonce s) := h.secCmd (Kept.secDone (Kept.bufOut h.setSec))
theorem Kept.execAttest {lo : Nat} {s : State} (h : Kept lo s) : OutKept lo (execAttest s) := h.secCmd (.ite h.secDone h.bufOut.secDone)
theorem Kept.execExtend {lo : Nat} {s : State} (h : Kept lo s) : OutKept lo (execExtend s) := h.secCmd (.ite h.secDone h.extendM.secDone)
theorem Kept.execTkey {lo : Nat} {s : State} (h : Kept lo s) : OutKept lo (execTkey s) :=
  h.secCmd (.ite h.secDone (.ite h.secDone (Kept.secDone (Kept.setRegBit h.setSec))))
theorem Kept.installKey {lo : Nat} {s : State} (h : Kept lo s) {l k : Nat} {rx : Bool} : Kept lo (installKey s l k rx) := by
  unfold Machine.installKey
  dsimp only
  split
  · exact h.putKeys.settleLink
  · split
    · exact h.putKeys.setReg64.settleLink
    · exact .ite h.putKeys.setLinkState.retryPackets h.putKeys
theorem Kept.execLkey {lo : Nat} {s : State} (h : Kept lo s) : OutKept lo (execLkey s) := h.secCmd (.ite h.secDone h.installKey.secDone)
theorem Kept.useNonce {lo : Nat} {s : State} (h : Kept lo s) : Kept lo (useNonce s) := h.setSec
theorem Kept.openDebug {lo : Nat} {s : State} (h : Kept lo s) : Kept lo (openDebug s) := h.wipeKeys.extendM.setRegN
theorem Kept.execUnlock {lo : Nat} {s : State} (h : Kept lo s) : OutKept lo (execUnlock s) := by
  refine h.secCmd ?_
  dsimp only
  split
  · exact h.useNonce.secDone
  · exact .ite h.useNonce.secDone h.useNonce.openDebug.secDone
theorem Kept.blowFuse {lo : Nat} {s : State} (h : Kept lo s) {n : Nat} : Kept lo (blowFuse s n) := .ite (Kept.wipeTenantKeys h.setSec) h.setSec
theorem Kept.execLifecycle {lo : Nat} {s : State} (h : Kept lo s) : OutKept lo (execLifecycle s) := by
  refine h.secCmd ?_
  dsimp only
  split
  · exact .ite h.blowFuse.secDone h.secDone
  · split
    · exact h.useNonce.secDone
    · exact .ite h.useNonce.blowFuse.secDone h.useNonce.secDone
theorem Kept.startImage {lo : Nat} {s : State} (h : Kept lo s) {l : List Byte} : Kept lo (startImage s l) := Kept.setSec h.extendM.extendM
theorem Kept.bootRom {lo : Nat} {s : State} (h : Kept lo s) : Kept lo (bootRom s) := by
  unfold Machine.bootRom
  split
  · exact h
  · extract_lets s1
    have h1 : Kept lo s1 := h.extendM
    clear_value s1
    split
    · exact h1.startImage.resetEnd
    · exact Kept.setRegN h1.setSec
theorem hostOnly_wf {m : List Host.Cell} (h : memWf m = true) : memWf (hostOnly m) = true := memWf_filter _ h
theorem Kept.setKeyed {lo : Nat} {s : State} (h : Kept lo s) {t : Tbl Nat} {l : List Nat} {x : Sec} : Kept lo { s with lineKeys := t, bad := l, sec := x } := h.same rfl
theorem Kept.scrub {lo : Nat} {s : State} (h : Kept lo s) : Kept lo (scrub s) := Kept.setKeyed (h.setMem (hostOnly_wf h.mem))
theorem Kept.execRecover {lo : Nat} {s : State} (h : Kept lo s) : OutKept lo (execRecover s) := by
  unfold Machine.execRecover
  change Kept lo _
  split
  · exact h.secDone
  · split
    · exact h.secDone
    · extract_lets a image
      split
      · exact h.scrub.startImage.secDone.resetEnd
      · exact h.secDone

/-! ### Power -/

/-- A state that holds memory and nothing else is well-kept. -/
theorem Kept.bare {lo : Nat} {s t : State} (h : Kept lo s) (hm : memWf t.mem = true) (hn : t.nextId = s.nextId) (hr : t.reqs = []) (hl : t.l2 = [])
    (hc : t.cores = []) (hk : t.clusters = []) (hs : tall PartKept t.savedParts) : Kept lo t := by
  refine ⟨(wellKept_iff t).2 ?_, hn ▸ h.next⟩
  rw [hr, hl, hc, hk]
  exact ⟨hm, ⟨rfl, fun _ he => absurd he List.not_mem_nil, tall_nil _⟩, rfl, ⟨rfl, tall_nil _⟩, ⟨rfl, tall_nil _⟩, hs⟩
theorem Kept.resetBase {lo : Nat} {s : State} (h : Kept lo s) {w : Tbl Word} : Kept lo (resetBase s w) :=
  h.bare (hostOnly_wf h.mem) rfl rfl rfl rfl rfl (tall_nil _)
theorem Kept.resetLink {lo : Nat} {old s : State} (h : Kept lo s) {b : Bool} {l : Nat} : Kept lo (resetLink old s b l) := by
  unfold Machine.resetLink
  dsimp only
  split
  · exact h.setRegN
  · exact .ite h.setRegN h.setRegN.putKeys
theorem Kept.resetLinks {lo : Nat} {old s : State} (h : Kept lo s) {b : Bool} : Kept lo (resetLinks old s b) :=
  Kept.foldl (fun _ _ hs => hs.resetLink) _ h.setDisc
theorem Kept.unscrubbed {lo : Nat} {old t : State} (h : Kept lo t) (ho : memWf old.mem = true) : Kept lo (unscrubbed old t) := Kept.setKeyed (h.setMem ho)
theorem Kept.afterFuses {lo : Nat} {old t : State} (h : Kept lo t) (ho : memWf old.mem = true) {go : State → State} (hg : Kept lo (go t)) : Kept lo (afterFuses old t go) :=
  .ite (h.unscrubbed ho) (.ite (hg.bootRom.unscrubbed ho) hg.bootRom)
theorem Kept.setGranary {lo : Nat} {s : State} (h : Kept lo s) {t : Tbl Segment} {n : Nat} {b : Bool} : Kept lo { s with segments := t, lastTime := n, granarySig := b } := h.same rfl
theorem Kept.coldState {lo : Nat} {s : State} (h : Kept lo s) {b : Bool} : Kept lo (coldState s b) := by
  unfold Machine.coldState
  extract_lets s1 idx
  have h1 : Kept lo s1 := h.emitR
  clear_value s1
  exact h1.resetBase.afterFuses h1.mem (Kept.resetLinks (.ite h1.resetBase.setRegBit (Kept.emitR h1.resetBase.setGranary)))
theorem Kept.execColdReset {lo : Nat} {s : State} (h : Kept lo s) : OutKept lo (execColdReset s) := Kept.ite h h.coldState
theorem Kept.execWarmReset {lo : Nat} {s : State} (h : Kept lo s) : OutKept lo (execWarmReset s) := by
  unfold Machine.execWarmReset
  change Kept lo _
  split
  · exact h
  · extract_lets s1
    have h1 : Kept lo s1 := h.emitR
    clear_value s1
    exact h1.resetBase.afterFuses h1.mem h1.resetBase.resetLinks
theorem Kept.slowCluster {lo : Nat} {s : State} (h : Kept lo s) {k : Nat} : Kept lo (slowCluster s k) := h.clusterFields fun _ => by rfl
theorem Kept.execPowerLimitWindow {lo : Nat} {s : State} (h : Kept lo s) {m : Nat} {l : List Nat} : OutKept lo (execPowerLimitWindow m l s) := by
  unfold Machine.execPowerLimitWindow
  dsimp only [OutKept]
  split
  · exact h
  · split
    · exact h
    · exact h.slowCluster
theorem Kept.execVoltageDroop {lo : Nat} {s : State} (h : Kept lo s) {k : Nat} : OutKept lo (execVoltageDroop k s) := Kept.ite (h.clusterFields fun _ => by rfl) h
theorem Kept.execThermalThrottle {lo : Nat} {s : State} (h : Kept lo s) {k : Nat} : OutKept lo (execThermalThrottle k s) := Kept.ite h.slowCluster h
theorem Kept.execThermalTrip {lo : Nat} {s : State} (h : Kept lo s) : OutKept lo (execThermalTrip s) := by
  unfold Machine.execThermalTrip
  change Kept lo _
  split
  · exact h
  · extract_lets s1
    have h1 : Kept lo s1 := h.emitR
    exact h1.bare (hostOnly_wf h1.mem) rfl rfl rfl rfl rfl h1.saved
theorem Kept.setRails {lo : Nat} {s : State} (h : Kept lo s) {n : Nat} : Kept lo { s with rails := n } := h.same rfl
theorem Kept.execPowerOn {lo : Nat} {s : State} (h : Kept lo s) : OutKept lo (execPowerOn s) := by
  unfold Machine.execPowerOn
  dsimp only [OutKept]
  split
  · exact h
  · exact .ite (Kept.coldState h.setRails) h.setRails
theorem Kept.setRailFault {lo : Nat} {s : State} (h : Kept lo s) {x : Option Nat} : Kept lo { s with railFault := x } := h.same rfl
theorem Kept.execRailGoodTimeout {lo : Nat} {s : State} (h : Kept lo s) : OutKept lo (execRailGoodTimeout s) := Kept.ite h h.setRailFault
theorem Kept.execPowerLoss {lo : Nat} {s : State} (h : Kept lo s) : OutKept lo (execPowerLoss s) := h.bare (hostOnly_wf h.mem) rfl rfl rfl rfl rfl (tall_nil _)

/-! ### Registers -/

theorem Kept.fsbaseWord {lo : Nat} {s : State} (h : Kept lo s) {o v : Nat} : Kept lo (fsbaseWord s o v) := by
  unfold Machine.fsbaseWord
  dsimp only
  split
  · exact h
  · refine h.putCore ?_ _
    exact { h.get _ with }
theorem Kept.settleWord {lo : Nat} {old s : State} (h : Kept lo s) {o v : Nat} : Kept lo (settleWord old s o v) := by
  unfold Machine.settleWord
  split
  · exact .ite h.setLinkState (.ite h.setLinkState h)
  · split
    · exact h.setSpFree
    · exact .ite h (.ite h.frzDone h.setRegBit)
    · exact .ite h (.ite h.secDone h.setRegBit)
    · exact h
theorem Kept.policyWord {lo : Nat} {s : State} (h : Kept lo s) {o v : Nat} : Kept lo (policyWord s o v) := by
  refine Kept.foldl (fun s ci hs => Kept.updCore hs ?_) _ h
  exact fun _ hc => { hc with }
theorem Kept.setWr {lo : Nat} {s : State} (h : Kept lo s) {o : Nat} {v : DWord} : Kept lo { s with wrOff := o, wrVal := v } := h.same rfl
theorem Kept.writeWord {lo : Nat} {old s : State} (h : Kept lo s) {o v : Nat} : Kept lo (writeWord old s o v) := by
  unfold Machine.writeWord
  extract_lets s1 x rw w1c now n s2
  have h1 : Kept lo s1 := h.setWr
  clear_value s1
  split
  · exact h1.fsbaseWord
  · split
    · exact h1.policyWord
    · exact Kept.setAgenda (Kept.settleWord h1.setRegN)
theorem Kept.writeWindow0 {lo : Nat} {s : State} (h : Kept lo s) {o n : Nat} {v : DWord} : Kept lo (writeWindow0 o n v s) := by
  unfold Machine.writeWindow0
  dsimp only
  split
  · exact h
  · exact .ite h.writeWord (.ite h.writeWord.writeWord h)
end Sys2Proof.Machine

/-! ### Every step keeps the state well-kept -/
namespace Sys2Proof.Machine
open Sys2Proof

theorem armPart_keeps {lo : Nat} {d : RegNo} : KeepsPart lo (armPart d) := fun _ _ _ h _ => h
theorem Kept.stepEntryFx {lo : Nat} {s : State} (h : Kept lo s) {e : Nat} {f : Frag} {x : State × Fx} (hx : ((Machine.stepEntry s e f).map fun s => (s, ({} : Fx))) = some x) :
    Kept lo x.1 := by
  obtain ⟨t, ht, rfl⟩ := Option.map_eq_some_iff.1 hx
  exact h.stepEntry ht
theorem Kept.setCaches {lo : Nat} {s : State} (h : Kept lo s) {t : Tbl (BitVec 512)} {l : Tbl (List Byte)} : Kept lo { s with nodeCache := t, hdrCache := l } := h.same rfl
theorem Kept.setRouteBank {lo : Nat} {s : State} (h : Kept lo s) {b : Bool} : Kept lo { s with routeBank := b } := h.same rfl
theorem Kept.setDeposits {lo : Nat} {s : State} (h : Kept lo s) {ci : Nat} {f : Core → List Deposit} : Kept lo (Machine.updCore s ci fun c => { c with deposits := f c }) :=
  h.updCore fun _ hc => { hc with }
theorem Kept.execDepositPerform {lo : Nat} {s : State} (h : Kept lo s) {ci : Nat} : OutKept lo (execDepositPerform ci s) := by
  unfold Machine.execDepositPerform
  extract_lets c dead s1 c1
  have h1 : Kept lo s1 := .foldl (fun _ _ hs => hs.emitR) _ h.setDeposits
  change Kept lo _
  split
  · exact h1
  · exact Kept.depositFill h1.setDeposits
theorem Kept.execFenceComplete {lo : Nat} {s : State} (h : Kept lo s) {ci t : Nat} : OutKept lo (execFenceComplete ci t s) := by
  unfold Machine.execFenceComplete
  dsimp only [OutKept]
  split
  · split
    · split
      · refine Kept.faultThread (Kept.updThread h ?_)
        exact fun _ ht => ht
      · exact .ite h.wakeThread h
    · exact h
  · exact h
theorem Kept.execNapWordRecheck {lo : Nat} {s : State} (h : Kept lo s) {ci t : Nat} : OutKept lo (execNapWordRecheck ci t s) := by
  unfold Machine.execNapWordRecheck
  change Kept lo _
  split
  · split
    · split
      · exact h
      · split
        · split
          · exact h.updThread fun _ ht => ht
          · exact h
        · split
          · next he =>
            have h1 := h.napWord.snd he
            extract_lets s2
            have h2 : Kept lo s2 := by
              dsimp only [s2]
              split
              · exact h1
              · exact h1.napFlush.updThread fun _ ht => ht
            clear_value s2
            split
            · split
              · dsimp only
                exact h2.freshId.updThread fun _ ht => ht
              · exact h2.wakeThread
            · split
              · exact h2
              · exact h2.updThread fun _ ht => ht
          · next he => exact h.napWord.snd he
    · exact h
  · exact h
theorem Kept.setIssuedList {lo : Nat} {s : State} (h : Kept lo s) {l : List Drill} : Kept lo { s with issued := l } := h.same rfl
/-- Every act keeps the state well-kept: one line for each meaning in `exec`. -/
theorem Kept.exec {lo : Nat} {s : State} (h : Kept lo s) {i : Instr} : OutKept lo (exec i s) := by
  cases i
  case add | sub | mul | mulhiI32 | mulhiN32 | minI32 | maxI32 | minN32 | maxN32 | and | or | xor | andn | shl | shr | sar | rotl | bfeN32 | bfeI32 | bfi | addB64
    | subB64 | lea | lea4 | mulWideI32 | mulWideN32 | mad | clz | popc | brev | mov | icmpI32 | icmpN32 | addi | muli | andi | ori | xori | shli | shri | sari
    | rotli | miniI32 | maxiI32 | miniN32 | maxiN32 | icmpiI32 | icmpiN32 | leai | bfeiN32 | bfeiI32 | li | liw | fcmpF32 | faddF32 | fsubF32 | fmulF32 | ffmaF32
    | fminF32 | fmaxF32 | frcp | frsq | fsqrt | fex2 | flg2 | fsin | fcos | ftanh | scacc | cvt | pkBf2 | pkH2 | pk8loE4m3 | pk8hiE4m3 | pk8loE5m2 | pk8hiE5m2
    | haddBf2 | hmulBf2 | hfmaBf2 | haddH2 | hmulH2 | hfmaH2 | fdivF32 | plop | pmovRd | pmovWr | iota => exact h.runDrill pureFx_keeps
  case passiAt | passiOff | passiFlip | passiRot | passAt | passOff | passFlip | passRot => exact h.collective fun _ => passFx_keeps
  case ftbl =>
    refine Kept.runDrill h fun s _ th hs _ => ?_
    dsimp only
    split
    · exact hs
    · next he => exact hs.takeBanks he
  case ld => exact Kept.ite h.runLoad (h.runGlobal h.runLoad)
  case st => exact Kept.ite h.runStore (h.runGlobal h.runStore)
  case pf => exact h.runDrill pfPart_keeps
  case atomAdd | atomMinI32 | atomMaxI32 | atomMinN32 | atomMaxN32 | atomAnd | atomOr | atomXor | atomXchg | atomCas | atomAddB64 | atomFaddF32 | atomFaddBf2
    | atomFmaxF32 | atomFminF32 | atomIncw => exact h.atomicOp
  case ldsp => exact h.runGlobal h.runLdsp
  case br | call => exact h.runDrill goTo_keeps
  case spawn => exact (h.runDrill spawnPart_keeps).spawnDeadlock
  case brx | callx => exact h.runDrill fun _ _ _ hs ht => goTo_keeps _ _ _ hs ht
  case nop | ctrRd | trap | shape | bcast => exact h.runDrill fun _ _ _ hs _ => hs
  case exit => exact h.runDrill exitPart_keeps
  case join => exact (h.runDrill joinPart_keeps).finishJoins
  case leave => exact h.runDrill leavePart_keeps
  case regroup => exact Kept.ite h.regroupRun h.arriveColl
  case fuse => exact Kept.foldl (fun _ _ hs => hs.checkFuses) _ (h.runDrill fusePart_keeps)
  case yield => exact h.runDrill yieldPart_keeps
  case safe => exact h.runDrill safePart_keeps
  case bar => exact Kept.foldl (fun _ _ hs => hs.wakeLone) _ (.foldl (fun _ _ hs => hs.wakeBarriers) _ (h.runDrill barPart_keeps))
  case poll => exact h.collective fun _ => pollFx_keeps
  case sred => exact h.collective fun _ => sredFx_keeps
  case sscan => exact h.collective fun _ => sscanFx_keeps
  case alike => exact h.collective fun _ => alikeFx_keeps
  case abarInit => exact h.runDrill abarInitPart_keeps
  case abarArrive => exact Kept.ite (h.runDrill abarArrivePart_keeps) (h.runDrill abarArrivePart_keeps).setWalked
  case abarDue => exact h.runDrill abarDuePart_keeps
  case abarWait => exact h.runDrill abarWaitPart_keeps
  case abarTest => exact h.runDrill abarTestPart_keeps
  case fence => exact h.runDrill fencePart_keeps
  case rput => exact h.runDrill rputPart_keeps
  case arm => exact h.runDrill armPart_keeps
  case ctrWait => exact h.runDrill ctrWaitPart_keeps
  case csrRd => exact h.runDrill csrRdPart_keeps
  case csrWr => exact h.runDrill csrWrPart_keeps
  case time => exact h.runDrill timePart_keeps
  case evt => exact h.runDrill evtPart_keeps
  case brk => exact h.runDrill brkPart_keeps
  case nap => exact Kept.ite (h.runDrill napPart_keeps) (h.runGlobal (h.runDrill napPart_keeps))
  case wpw => exact h.runDrill wpwPart_keeps
  case expand => exact (h.runDrill stay_keeps).expandSheaf
  case fragResume => exact h.runDrill (fragPart_keeps fun _ _ _ _ _ _ hs e => by cases e; exact hs.resumeEntry)
  case fragResumeSkip => exact h.runDrill (fragPart_keeps fun _ _ _ _ _ _ hs e => hs.skipEntry e)
  case fragKill => exact h.runDrill (fragPart_keeps fun _ _ _ _ _ _ hs e => by cases e; exact hs.killEntry)
  case fragInfo => exact h.runDrill (fragPart_keeps fun _ _ _ _ _ _ hs e => by cases e; exact hs)
  case fragStep => exact h.runDrill (fragPart_keeps fun _ _ _ _ _ _ hs e => hs.stepEntryFx e)
  case mma => exact h.execMma
  case mloop => exact h.wholeDrill fun _ => h.mloopIssue
  case mjoin => exact h.execMjoin
  case mwait => exact h.wholeDrill fun _ => h.mwaitIssue
  case tzero | tld | tst | tcvt | mscl => exact h.topIssue
  case tmovin | tmovout => exact h.wholeDrill fun _ => h.tmovIssue
  case copyStart => exact h.runDrill copyStartPart_keeps
  case copyCancel => exact h.runDrill copyCancelPart_keeps
  case copyWpr => exact h.runDrill copyWprPart_keeps
  case collStart => exact h.runDrill collStartPart_keeps
  case collQuery => exact h.runDrill collQueryPart_keeps
  case stn => exact h.runGlobal h.runStn
  case gath => exact h.runDrill gathPart_keeps
  case tblLd => exact h.execTblLd
  case tblSel => exact h.execTblSel
  case fuseHoldExpiry => exact h.execFuseHoldExpiry
  case joinBinTimerExpiry => exact h.execJoinBinTimerExpiry
  case spawnBinTimerExpiry => exact h.execSpawnBinTimerExpiry
  case plotAdmission => exact h.execPlotAdmission
  case plotRetire => exact h.execPlotRetire
  case loadDataReturn => exact h.execLoadDataReturn
  case fallowRefill => exact h.execFallowRefill
  case mgmtRegisterRead => exact h.execMgmtRegisterRead
  case debuggerRegisterWrite => exact h.execDebuggerRegisterWrite
  case depositPerform => exact h.execDepositPerform
  case icacheLineFill => exact Kept.foldl (fun _ _ hs => hs.fillFor) _ h
  case dirtyLineDrain => exact h.execDirtyLineDrain
  case homeStorePerform => exact h.execHomeStorePerform
  case homeLoadService => exact h.execHomeLoadService
  case atomicRequestPerform => exact h.execAtomicRequestPerform
  case atomicAck => exact h.execAtomicAck
  case ldspWrite => exact h.execLdspWrite
  case stnCompletion => exact h.execStnCompletion
  case fabricResponseTimeout => exact h.execFabricResponseTimeout
  case fenceComplete => exact h.execFenceComplete
  case napWordRecheck => exact h.execNapWordRecheck
  case matrixStepComplete => exact h.execMatrixStepComplete
  case tileOpComplete => exact h.execTileOpComplete
  case tableLoadCommit => exact h.execTableLoadCommit
  case copyCommandAccept => exact h.execCopyCommandAccept
  case copyChunkDelivery => exact h.execCopyChunkDelivery
  case gatherElement => exact h.execGatherElement
  case collUnitStart => exact h.execCollUnitStart
  case collChunkReceived => exact h.execCollChunkReceived
  case collStepEnd => exact h.execCollStepEnd
  case collOperationComplete => exact h.execCollOperationComplete
  case collWatchdogExpiry => exact h.execCollWatchdogExpiry
  case handlerDelivery => exact h.execHandlerDelivery
  case stopRequest => exact h.execStopRequest
  case plotSave => exact h.execPlotSave
  case plotRestore => exact h.execPlotRestore
  case hostWindow2Write => exact h.execHostWindow2Write
  case hostWindow2Read => exact h.execHostWindow2Read
  case registerWrite => exact h.hostGate h.writeWindow0
  case tailWrite => exact h.hostGate h.tailWritten
  case queueEnable | residencyRequest | residencyReturn => exact h.hostGate h.queueControl
  case queueRecordAccept => exact h.execQueueRecordAccept
  case runEnd => exact h.execRunEnd
  case nodeDispatch => exact h.execNodeDispatch
  case nodeComplete => exact h.execNodeComplete
  case condRead => exact h.execCondRead
  case plotStage => exact h.execPlotStage
  case pageWalkComplete => exact h.execPageWalkComplete
  case pageService => exact h.execPageService
  case packetForward => exact h.execPacketForward
  case remoteRequestArrival => exact h.execRemoteRequestArrival
  case linkTrainingComplete => exact h.execLinkTrainingComplete
  case linkPartnerReset => exact h.execLinkPartnerReset
  case flitGroupTransmit => exact h.execFlitGroupTransmit
  case flitGroupReceive => exact h.execFlitGroupReceive
  case powerLimitWindow => exact h.execPowerLimitWindow
  case voltageDroop => exact h.execVoltageDroop
  case thermalThrottle => exact h.execThermalThrottle
  case timeExchange => exact h.execTimeExchange
  case fleetTimeSync => exact h.execFleetTimeSync
  case recordWrite => exact h.execRecordWrite
  case debuggerAttach => exact h.execDebuggerAttach
  case tfence => exact h.runDrill tfencePart_keeps
  case issueCycle => exact h.execIssueCycle
  case threadOverdue => exact h.execThreadOverdue
  case yieldExpiry => exact h.execYieldExpiry
  case leaseExpiry => exact h.execLeaseExpiry
  case stopFallbackExpiry => exact h.execStopFallbackExpiry
  case erheadWrite => exact h.execErheadWrite
  case firmwareEventDispatch => exact h.execFirmwareEventDispatch
  case firmwareRetention => exact h.setFwCores
  case ginvWrite => exact h.setCaches
  case pageVerdict => exact h.execPageVerdict
  case tlbInvalidate => exact h.execTlbInvalidate
  case tlbInvalidateComplete => exact h.execTlbInvalidateComplete
  case migrationStart => exact h.execMigrationStart
  case migrationDrained => exact h.execMigrationDrained
  case migrationCopyDone => exact h.execMigrationCopyDone
  case saveSetImport => exact h.execSaveSetImport
  case frozenKill => exact h.execFrozenKill
  case frozenResume => exact h.execFrozenResume
  case coldReset => exact h.execColdReset
  case warmReset => exact h.execWarmReset
  case routeTableLoad | granaryReadout => exact h.setRegBit
  case routeLoadComplete => exact h.execRouteLoadComplete
  case routeBankSelect => exact Kept.retryPackets h.setRouteBank
  case packetWaitTimeout => exact h.execPacketWaitTimeout
  case getcert => exact h.execGetcert
  case getnonce => exact h.execGetnonce
  case unlock => exact h.execUnlock
  case attest => exact h.execAttest
  case extend => exact h.execExtend
  case tkey => exact h.execTkey
  case lkey => exact h.execLkey
  case lifecycle => exact h.execLifecycle
  case recover => exact h.execRecover
  case powerOn => exact h.execPowerOn
  case railGoodTimeout => exact h.execRailGoodTimeout
  case thermalTrip => exact h.execThermalTrip
  case timeBoundGrowth => exact h.execTimeBoundGrowth
  case quotaWrite => exact h.execQuotaWrite
  case granaryReadoutComplete => exact h.execGranaryReadoutComplete
  case waitforSnapshot => exact h.execWaitforSnapshot
  case profileHostStart => exact h.execProfileHostStart
  case profileHostStop => exact h.execProfileHostStop
  case profileSummaryInterval => exact h.execProfileSummaryInterval
  case detailSelectWrite => exact h.execDetailSelectWrite
  case prheadWrite => exact Kept.prDrain _ h
  case powerLoss => exact h.execPowerLoss
theorem Kept.step {lo : Nat} {s : State} (h : Kept lo s) : OutKept lo (step s) := by
  unfold Machine.step
  split
  · exact h.exec
  · split
    · next d rest _ =>
      have h1 : Kept lo (fetchedState (Machine.fetchDrill { s with issued := rest } d)) := (h.setIssuedList (l := rest)).fetchDrill
      split
      · next he =>
        rw [he] at h1
        exact h1
      · next he =>
        rw [he] at h1
        exact Kept.exec h1
    · split
      · exact Kept.exec h.setAgenda
      · exact Kept.exec h.setFree
theorem kept_iff (s : State) : Kept 0 s ↔ WellKept s := ⟨fun h => h.well, fun h => ⟨h, Nat.zero_le _⟩⟩
theorem reset_wellKept : WellKept State.reset := by
  rw [wellKept_iff]
  exact ⟨rfl, ⟨rfl, fun _ he => absurd he List.not_mem_nil, tall_nil _⟩, rfl, ⟨rfl, tall_nil _⟩, ⟨rfl, tall_nil _⟩, tall_nil _⟩
end Sys2Proof.Machine

section
open Sys2Proof Sys2Proof.Machine

/-- Settles O7: every operation of the model keeps the tables in order and only takes numbers below the next one. -/
theorem stepKeepsTables : Obligations.StepKeepsTables := by
  unfold Obligations.StepKeepsTables
  refine ⟨fun s t h e => ?_, reset_wellKept⟩
  have hk := ((kept_iff s).2 h).step
  rw [e] at hk
  exact hk.well

end

/-! ### The words of a cause through a drill without faults (R154, R159) -/
namespace Sys2Proof.Machine
open Sys2Proof

/-- The words of a thread that show a fault's cause. -/
def causeOf (th : Thread) : Word × Word × Word × Word := (th.cause, th.det0, th.det1, th.det2)
/-- What a view shows of the threads of a table. -/
def views {α : Type} (v : Thread → α) (l : Tbl Thread) (t : Nat) : Option α := (tget l t).map v
/-- Every thread of a core shows a view what it showed. -/
structure SameViews {α : Type} (v : Thread → α) (ci : Nat) (s s' : State) : Prop where
  at_ : ∀ t, views v (getCore s' ci).threads t = views v (getCore s ci).threads t
/-- A view that does not see that registers become fallow. -/
structure BankBlind {α : Type} (v : Thread → α) : Prop where
  lane : ∀ th r, v { th with regs := tupd th.regs r toFallow } = v th
  uni : ∀ th r, v { th with regs := tupd th.regs r fun x => if x.uni then toFallow x else x } = v th

section
variable {α : Type} {v : Thread → α}
theorem views_tmap {l : Tbl Thread} {f : Nat → Thread → Thread} (h : ∀ t th, v (f t th) = v th) (t : Nat) : views v (tmap l f) t = views v l t := by
  unfold views
  rw [tget_tmap, Option.map_map]
  cases tget l t with
  | none => rfl
  | some th => exact congrArg some (h t th)
theorem views_tupd {l : Tbl Thread} {f : Thread → Thread} (h : ∀ th, v (f th) = v th) (k t : Nat) : views v (tupd l k f) t = views v l t := by
  unfold views
  by_cases hk : t = k
  · rw [hk, tget_tupd_self, Option.map_map]
    cases tget l k with
    | none => rfl
    | some th => exact congrArg some (h th)
  · rw [tget_tupd_ne _ _ _ _ hk]
theorem SameViews.refl (ci : Nat) (s : State) : SameViews v ci s s := ⟨fun _ => rfl⟩
theorem SameViews.trans {ci : Nat} {a b c : State} (h : SameViews v ci a b) (k : SameViews v ci b c) : SameViews v ci a c :=
  ⟨fun t => (k.at_ t).trans (h.at_ t)⟩
theorem SameViews.putCore {ci : Nat} {s : State} {c : Core} (h : ∀ t, views v c.threads t = views v (getCore s ci).threads t) :
    SameViews v ci s (Machine.putCore s ci c) := ⟨fun t => by rw [getCore_putCore_self]; exact h t⟩
theorem SameViews.ofCore {ci : Nat} {s s' : State} (h : getCore s' ci = getCore s ci) : SameViews v ci s s' := ⟨fun t => by rw [h]⟩
theorem SameViews.view {ci : Nat} {s s' : State} (h : SameViews v ci s s') {t : Nat} {a b : Thread} (ha : getThread s ci t = some a)
    (hb : getThread s' ci t = some b) : v b = v a := by
  have := h.at_ t
  unfold views at this
  rw [show tget (getCore s ci).threads t = some a from ha, show tget (getCore s' ci).threads t = some b from hb] at this
  exact Option.some.inj this
theorem SameViews.back {ci : Nat} {s s' : State} (h : SameViews v ci s s') {t : Nat} {b : Thread} (hb : getThread s' ci t = some b) :
    ∃ a, getThread s ci t = some a := by
  have := h.at_ t
  unfold views at this
  rw [show tget (getCore s' ci).threads t = some b from hb] at this
  obtain ⟨a, ha, -⟩ := Option.map_eq_some_iff.1 this.symm
  exact ⟨a, ha⟩
/-- A thread slot without a thread stays so. -/
theorem SameViews.gone {ci : Nat} {s s' : State} (h : SameViews v ci s s') {t : Nat} (hn : getThread s ci t = none) : getThread s' ci t = none := by
  cases hg : getThread s' ci t with
  | none => rfl
  | some b =>
    obtain ⟨a, ha⟩ := h.back hg
    rw [hn] at ha
    exact absurd ha (by simp)
theorem updThreads_views {s : State} {ci : Nat} {l : List Nat} {f : Thread → Thread} (h : ∀ th, v (f th) = v th) :
    SameViews v ci s (updThreads s ci l f) := by
  refine SameViews.putCore fun t => ?_
  refine views_tmap (l := (getCore s ci).threads) (f := fun t th => if l.contains t then f th else th) (fun t th => ?_) t
  split
  · exact h th
  · rfl
theorem evictLane_views (hv : BankBlind v) {s : State} {ci tid r : Nat} (h : SpillsOk s ci) (ht : (tget (getCore s ci).threads tid).isSome = true) :
    SameViews v ci s (evictLane s ci tid r) := by
  unfold evictLane
  dsimp only
  split
  · refine SameViews.trans (SameViews.putCore fun t => ?_) (SameViews.ofCore (getCore_fallowPut ..))
    exact views_tupd (l := (getCore s ci).threads) (f := fun th => { th with regs := tupd th.regs r toFallow }) (fun th => hv.lane th r) _ _
  · next hn =>
    obtain ⟨a, ha⟩ := Option.isSome_iff_exists.1 (fallowAt_ok h (tid * 256 + r * 4) 4)
    obtain ⟨th, hth⟩ := Option.isSome_iff_exists.1 ht
    exact absurd hth (hn a th ha)
theorem evictUni_views (hv : BankBlind v) {s : State} {ci k r : Nat} (h : SpillsOk s ci)
    (hm : ((members (getCore s ci) k).find? fun m => (tget m.2.regs r).isSome).isSome = true) : SameViews v ci s (evictUni s ci k r) := by
  unfold evictUni
  dsimp only
  split
  · refine SameViews.trans (SameViews.trans (SameViews.putCore fun t => ?_) (SameViews.ofCore (getCore_fallowPut ..)))
      (SameViews.ofCore (getCore_fallowPut ..))
    refine views_tmap (l := (getCore s ci).threads) (f := fun _ th =>
      if th.sheaf == some k then { th with regs := tupd th.regs r fun x => if x.uni then toFallow x else x } else th) (fun t th => ?_) t
    split
    · exact hv.uni th r
    · rfl
  · next hn =>
    obtain ⟨a, ha⟩ := Option.isSome_iff_exists.1 (fallowAt_ok h (2 ^ 16 + k * 512 + r * 8) 8)
    obtain ⟨m, hm'⟩ := Option.isSome_iff_exists.1 hm
    exact absurd hm' (hn a m ha)
theorem settleLane_views (hv : BankBlind v) {ci lane : Nat} {keep : Nat → List Nat} {fresh : Nat → Nat} (n : Nat) {s : State} (h : SpillsOk s ci) :
    SameViews v ci s (settleLane ci lane keep fresh n s).1 := by
  induction n generalizing s with
  | zero => exact SameViews.refl _ _
  | succ n ih =>
    unfold settleLane
    extract_lets c
    split
    · exact SameViews.refl _ _
    · split
      · exact SameViews.refl _ _
      · next hvic =>
        obtain ⟨e, he, rfl, _⟩ := laneVictim_is _ _ _ _ _ _ hvic
        have hm := mem_tget _ _ he
        split
        · exact evictLane_views hv h hm
        · exact (evictLane_views hv h hm).trans (ih (evictLane_stays s ci e.1 _ 0 h hm).ok)
theorem settleUni_views (hv : BankBlind v) {ci slot : Nat} {keep : Nat → List Nat} (n : Nat) {s : State} (h : SpillsOk s ci) :
    SameViews v ci s (settleUni ci slot keep n s).1 := by
  induction n generalizing s with
  | zero => exact SameViews.refl _ _
  | succ n ih =>
    unfold settleUni
    extract_lets c
    split
    · exact SameViews.refl _ _
    · split
      · exact SameViews.refl _ _
      · next hvic =>
        have hm := uniVictim_is _ _ _ _ _ hvic
        have h1 := evictUni_views hv h hm
        split
        · exact h1
        · exact h1.trans (ih (evictUni_stays s ci _ _ 0 h hm).ok)
theorem foldPair_views {ci : Nat} {g : Nat → State → State × Nat} (h : ∀ l s, SpillsOk s ci → SameViews v ci s (g l s).1)
    (hok : ∀ l s, SpillsOk s ci → SpillsOk (g l s).1 ci) (ls : List Nat) (a : State × Nat) (ha : SpillsOk a.1 ci) :
    SameViews v ci a.1 (ls.foldl (fun (a : State × Nat) l => let x := g l a.1; (x.1, a.2 + x.2)) a).1 := by
  induction ls generalizing a with
  | nil => exact SameViews.refl _ _
  | cons l ls ih => exact (h l a.1 ha).trans (ih ((g l a.1).1, a.2 + (g l a.1).2) (hok l a.1 ha))
/-- Settling the banks makes registers fallow and changes nothing else of a thread. -/
theorem settleBanks_views (hv : BankBlind v) {old : Core} {s : State} {ci : Nat} {tids : List Nat} {keep : Nat → List Nat} {n : Nat} (h : SpillsOk s ci) :
    SameViews v ci s (settleBanks old s ci tids keep n).1 := by
  have h1 := foldPair_views (g := fun l u => settleLane ci l keep (freshOf old (getCore s ci)) n u) (fun l s h => settleLane_views hv n h)
    (fun l s h => (settleLane_stays ci l 0 keep _ n s h).ok) (tids.map laneOf).eraseDups (s, 0) h
  have hok := foldPair_stays ci 0 (fun l u => settleLane ci l keep (freshOf old (getCore s ci)) n u) (fun l s h => settleLane_stays ci l 0 keep _ n s h)
    (tids.map laneOf).eraseDups (s, 0) h
  exact h1.trans (foldPair_views (g := fun k u => settleUni ci k keep n u) (fun k s h => settleUni_views hv n h)
    (fun k s h => (settleUni_stays ci k 0 keep n s h).ok) _ _ hok.ok)
theorem foldl_views {β : Type} (f : Core → β → Core) (h : ∀ c x t, views v (f c x).threads t = views v c.threads t) (l : List β) (c : Core) (t : Nat) :
    views v (l.foldl f c).threads t = views v c.threads t := by
  induction l generalizing c with
  | nil => rfl
  | cons x l ih => exact (ih _).trans (h c x t)
end
theorem causeOf_blind : BankBlind causeOf := ⟨fun _ _ => rfl, fun _ _ => rfl⟩
theorem lateWrites_causes {s : State} {ci ev : Nat} {l w : List Nat} : SameViews causeOf ci s (lateWrites s ci ev l w) := by
  unfold lateWrites
  split
  · exact SameViews.refl _ _
  · exact updThreads_views fun _ => rfl
theorem drillDone_causes {s : State} {n : Nat} : SameViews causeOf s.cur.core s (drillDone s n) := by
  obtain ⟨lp, up, h⟩ := drillDone_core s n
  exact ⟨fun t => by rw [h]⟩
theorem causes_tags {c : Core} {p : Nat → Thread → Bool} {r : Nat} {g : Thread → Tag} {u : Bool} (t : Nat) :
    views causeOf (tmap c.threads fun k th => if p k th then setTag th r (g th) u else th) t = views causeOf c.threads t := by
  refine views_tmap (fun k th => ?_) t
  split <;> rfl
theorem retag_causes (u : Bool) (w : List Nat) (c : Core) (r t : Nat) : views causeOf (retag u w c r).threads t = views causeOf c.threads t := by
  unfold retag
  extract_lets sheaves c'
  refine (foldl_views _ (fun c k t => causes_tags (p := fun _ th => th.sheaf == some k) (g := fun _ => _) t) _ c' t).trans ?_
  exact causes_tags (p := fun t th => w.contains t && th.sheaf.isNone) (g := fun _ => _) t
theorem retagGeneral_causes (w : List Nat) (c : Core) (r t : Nat) : views causeOf (retagGeneral w c r).threads t = views causeOf c.threads t :=
  causes_tags (c := c) (p := fun _ th => ((w.filterMap fun t => (tget c.threads t).bind (·.sheaf)).eraseDups).any fun k => th.sheaf == some k)
    (g := fun th => if sheafSize c th ≤ 1 then .uniform else .general) t
theorem advance_cause (s : State) (n : Nat) (j : Option DWord) (th : Thread) : causeOf (advance s n j th) = causeOf th := by
  unfold advance
  split <;> rfl
theorem commitThread_cause (i : Instr) (s : State) (n ready : Nat) (z : Bool) (some1 : Option Fx) (fxs : List (Nat × Fx)) (t : Nat) (th : Thread) :
    causeOf (commitThread i s n ready z some1 fxs t th) = causeOf th := by
  unfold commitThread
  extract_lets cyc
  split
  · split
    · rfl
    · split
      · rfl
      · split
        · simp only [startWait, applyResults_eq, orFlags, flagsAt_eq]
          rfl
        · rw [advance_cause, applyFx_eq]
          rfl
  · rw [advance_cause, applyOff_eq, offBase_eq]
    split <;> rfl
theorem committed_causes (i : Instr) (lat : Lat) (fxs : List (Nat × Fx)) (s s1 : State) (t : Nat) :
    views causeOf (committed i lat fxs s s1).threads t = views causeOf (getCore s1 s.cur.core).threads t := by
  unfold committed
  extract_lets ths zero some1 c c'
  refine (foldl_views _ (fun c r t => ?_) _ c' t).trans ?_
  · split
    · rfl
    · split
      · exact retagGeneral_causes ..
      · exact retag_causes ..
  · refine views_tmap (l := c.threads) (f := fun t th => if (ths.map (·.1)).contains t then
      commitThread i s1 (drillTime i s) (drillReady i lat s s1) zero some1 fxs t th else th) (fun k th => ?_) t
    split
    · exact commitThread_cause ..
    · rfl
end Sys2Proof.Machine

/-! ### What a drill without faults leaves of the threads (R45, R48, R52) -/
namespace Sys2Proof.Machine
open Sys2Proof

theorem CellsLike.val : {a b : Option RegCell} → CellsLike a b → b.map (·.val) = a.map (·.val)
  | none, none, _ => rfl
  | some _, some _, h => congrArg some (CellLike.val h)
  | none, some _, h => h.elim
  | some _, none, h => h.elim
theorem Alike.val {a b : Thread} (h : Alike a b) (r : Nat) : (tget b.regs r).map (·.val) = (tget a.regs r).map (·.val) := (h.regs r).val
theorem Alike.untouched {a b : Thread} (h : Alike a b) (hc : causeOf b = causeOf a) : Untouched a b := by
  refine ⟨h.val, ?_⟩
  have h1 : { b with regs := [] } = { bareThread b with cause := (causeOf b).1, det0 := (causeOf b).2.1, det1 := (causeOf b).2.2.1, det2 := (causeOf b).2.2.2 } := rfl
  rw [h1, h.rest, hc]
  rfl

/-- Undefined reads change what a thread reads of its registers, and nothing else of it. -/
theorem undefReads_eq (s : State) (t : Nat) (th : Thread) : ∃ r q, undefReads s t th = { th with regs := r, seen := q } := by
  have h : ∀ (l : List (Nat × Nat)) (a : Thread), (∃ r q, a = { th with regs := r, seen := q }) → ∃ r q, l.foldl (fun th x => { th with
      regs := tupd th.regs x.2 fun c => { c with val := Config.freeReg s.free t x.2 }
      seen := tput (tput th.seen (64 + x.2) (Config.freeReg s.free t (64 + x.2))) (128 + x.2) (Config.freeReg s.free t (128 + x.2)) }) a
      = { th with regs := r, seen := q } := by
    intro l
    induction l with
    | nil => exact fun a ha => ha
    | cons x l ih =>
      rintro a ⟨r, q, rfl⟩
      exact ih _ ⟨_, _, rfl⟩
  exact h th.joinRegs _ ⟨_, _, rfl⟩
theorem undefReads_stepping (s : State) (t : Nat) (th : Thread) : (undefReads s t th).stepping = th.stepping := by
  obtain ⟨r, q, h⟩ := undefReads_eq s t th
  rw [h]

/-- The state in which the banks have taken in what a drill wrote (R51, R52, R304). -/
def banked (i : Instr) (s1 : State) (ci : Nat) (ths : List (Nat × Thread)) (c : Core) : State :=
  let keep := fun t => if (ths.map (·.1)).contains t then (reads i).map (·.reg) ++ writes i else []
  let all := (ths.map (·.1) ++ (c.threads.filter fun e => e.2.sheaf.isSome && ths.any fun x => x.2.sheaf == e.2.sheaf).map (·.1)).eraseDups
  let x := settleBanks (getCore s1 ci) (putCore s1 ci c) ci all keep (2 * (writes i).length * all.length)
  lateWrites x.1 ci x.2 (ths.map (·.1)) (writes i)
theorem banked_stays {i : Instr} {s1 : State} {ci : Nat} {ths : List (Nat × Thread)} {c : Core} (hok : SpillsOk (putCore s1 ci c) ci) (t : Nat) :
    StaysS ci t (putCore s1 ci c) (banked i s1 ci ths c) := by
  unfold banked
  extract_lets keep all x
  exact (settleBanks_stays _ _ _ _ _ _ _ hok).stays.trans (lateWrites_stays ..)
theorem banked_causes {i : Instr} {s1 : State} {ci : Nat} {ths : List (Nat × Thread)} {c : Core} (hok : SpillsOk (putCore s1 ci c) ci) :
    SameViews causeOf ci (putCore s1 ci c) (banked i s1 ci ths c) := by
  unfold banked
  extract_lets keep all x
  exact (settleBanks_views causeOf_blind hok).trans lateWrites_causes
theorem banked_quiet {i : Instr} {s1 : State} {ci : Nat} {ths : List (Nat × Thread)} {c : Core} : Quiet s1 (banked i s1 ci ths c) := by
  unfold banked
  extract_lets keep all x
  exact ((putCore_quiet s1 ci c).trans (settleBanks_quiet ..)).trans (lateWrites_quiet ..)
theorem banked_settles {i : Instr} {s1 : State} {ci b : Nat} {ths : List (Nat × Thread)} {c : Core} (hb : fallowBase c = some b) (hbad : s1.bad = []) :
    Settles ci b (putCore s1 ci c) (banked i s1 ci ths c) := by
  unfold banked
  extract_lets keep all x
  have h1 : Settles ci b (putCore s1 ci c) x.1 := settleBanks_settles _ _ ci b _ _ _ (by rw [getCore_putCore_self]; exact hb) hbad
  exact h1.trans (lateWrites_settles ..)
/-- Where no part faults and no thread of the drill is stepped, settling is the banks' work and the end of the drill. -/
theorem settled_eq_banked {i : Instr} {fxs : List (Nat × Fx)} {s1 : State} {ci n : Nat} {ths : List (Nat × Thread)} {c : Core}
    (hff : ∀ e ∈ fxs, e.2.fault = none) (hst : ∀ t ∈ ths.map (·.1), ∀ th, tget c.threads t = some th → th.stepping = none)
    (hok : SpillsOk (putCore s1 ci c) ci) : settled i fxs s1 ci n ths c = drillDone (banked i s1 ci ths c) n := by
  have hnof : (ths.filterMap fun e => ((tget fxs e.1).bind (·.fault)).map fun f => (e.1, f)) = [] := by
    rw [List.filterMap_eq_nil_iff]
    intro e _
    cases hfx : tget fxs e.1 with
    | none => rfl
    | some fx =>
      have h0 : fx.fault = none := hff _ (tget_mem _ _ _ hfx)
      simp [h0]
  have hp : ∀ u ∈ ths.map (·.1), ∀ th, getThread (banked i s1 ci ths c) ci u = some th →
      (th.stepping.isSome && th.st == .ready && !((tget fxs u).map (·.stay)).getD false) = false := by
    intro u hu th hth
    obtain ⟨x, hx⟩ := (banked_causes (i := i) (ths := ths) hok).back hth
    have hs := hst u hu x (by rw [← hx, getThread, getCore_putCore_self])
    obtain ⟨y, hy, hal⟩ := (banked_stays (i := i) (ths := ths) hok u).out x hx
    have hyt : y = th := Option.some.inj (hy.symm.trans hth)
    rw [← hyt, hal.stepping, hs]
    rfl
  unfold settled
  extract_lets keep all b s2 s3 s4
  have h3 : s3 = banked i s1 ci ths c := by
    dsimp only [s3]
    rw [hnof]
    rfl
  have h4 : s4 = banked i s1 ci ths c := by
    dsimp only [s4]
    rw [h3]
    exact foldl_stepCheck_none _ _ _ _ hp
  rw [h4]

/-- No thread of a calm drill is stepped (R301). -/
theorem drill_free {i : Instr} {s : State} (h : ∀ e ∈ drillThreads i s, e.2.stepping = none) {t : Nat} (ht : t ∈ (drillThreads i s).map (·.1)) {th : Thread}
    (hth : getThread s s.cur.core t = some th) : th.stepping = none := by
  obtain ⟨e, he, rfl⟩ := List.mem_map.1 ht
  obtain ⟨th0, h0, _, _, hu⟩ := mem_drillThreads (t := e.1) (th := e.2) he
  rw [← Option.some.inj (h0.symm.trans hth), ← undefReads_stepping s e.1 th0, ← hu]
  exact h e he
theorem Calm.threads {i : Instr} {s : State} (h : Calm i s) (t : Nat) (ht : t ∈ (drillThreads i s).map (·.1)) (th : Thread)
    (hth : getThread s s.cur.core t = some th) : th.stepping = none := drill_free h.free ht hth

/-- A drill whose parts have left s1 and these results, none of them a fault: it has an active thread, and none of its threads is stepped or
takes a fault (R152, R301). -/
structure Sound (i : Instr) (part : Part) (s s1 : State) (fxs : List (Nat × Fx)) : Prop where
  parts : drillParts i part (activeThreads i s) s = (s1, fxs)
  some1 : activeThreads i s ≠ []
  cur : s1.cur = s.cur
  shape : shapeFault i s (activeThreads i s) = none
  sound : ∀ e ∈ fxs, e.2.fault = none
  off : offFxs i s = []
  free : ∀ t ∈ (drillThreads i s).map (·.1), ∀ th, getThread s1 s.cur.core t = some th → th.stepping = none
  spills : SpillsOk s1 s.cur.core

section
variable {i : Instr} {lat : Lat} {part : Part} {s s1 : State} {fxs : List (Nat × Fx)}

theorem Sound.eq (h : Sound i part s s1 fxs) : runDrill i lat part s
    = drillDone (banked i s1 s.cur.core (drillThreads i s) (committed i lat fxs s s1)) (drillTime i s) := by
  rw [runDrill_eq i lat part s h.some1 h.shape, h.parts, h.off, List.append_nil]
  refine settled_eq_banked h.sound (fun t ht y hy => ?_) (committed_ok h.spills)
  have h1 : SameViews causeOf s.cur.core s1 (putCore s1 s.cur.core (committed i lat fxs s s1)) := .putCore (committed_causes i lat fxs s s1)
  obtain ⟨th, h0⟩ := h1.back (t := t) (b := y) (by rw [getThread, getCore_putCore_self]; exact hy)
  obtain ⟨x, hx, hal⟩ := committed_stays i lat fxs s s1 t th h0 ht
  rw [← Option.some.inj (hx.symm.trans hy), hal.stepping, commitThread_stepping, h.free t ht th h0]
theorem Sound.core (h : Sound i part s s1 fxs) {ths : List (Nat × Thread)} {c : Core} : (banked i s1 s.cur.core ths c).cur.core = s.cur.core := by
  rw [banked_quiet.cur, h.cur]
theorem Sound.causes (h : Sound i part s s1 fxs) : SameViews causeOf s.cur.core s1 (runDrill i lat part s) := by
  rw [h.eq]
  have h1 : SameViews causeOf s.cur.core s1 (putCore s1 s.cur.core (committed i lat fxs s s1)) := .putCore (committed_causes i lat fxs s s1)
  have h3 := drillDone_causes (s := banked i s1 s.cur.core (drillThreads i s) (committed i lat fxs s s1)) (n := drillTime i s)
  rw [h.core] at h3
  exact (h1.trans (banked_causes (committed_ok h.spills))).trans h3
/-- After the commit the threads of the core stay. -/
theorem Sound.stays (h : Sound i part s s1 fxs) (t : Nat) :
    Stays t (committed i lat fxs s s1).threads (getCore (runDrill i lat part s) s.cur.core).threads := by
  rw [h.eq]
  have h2 := banked_stays (i := i) (ths := drillThreads i s) (committed_ok (i := i) (lat := lat) (fxs := fxs) h.spills) t
  have h3 := drillDone_stays (banked i s1 s.cur.core (drillThreads i s) (committed i lat fxs s s1)) (drillTime i s) t
  rw [h.core] at h3
  have h4 := h2.trans h3
  unfold StaysS at h4
  rw [getCore_putCore_self] at h4
  exact h4
/-- A thread of the drill becomes what the commit makes of it. -/
theorem Sound.thread (h : Sound i part s s1 fxs) {t : Nat} {th : Thread} (ht : t ∈ (drillThreads i s).map (·.1)) (h1 : getThread s1 s.cur.core t = some th) :
    ∃ new, getThread (runDrill i lat part s) s.cur.core t = some new ∧
      Alike (commitThread i s1 (drillTime i s) (drillReady i lat s s1) (zeroOf i && !(activeThreads i s).isEmpty)
        ((fxs.find? fun e => e.2.fault.isNone && !e.2.stay).map (·.2)) fxs t th) new := by
  obtain ⟨x, hx, hal⟩ := committed_stays i lat fxs s s1 t th h1 ht
  obtain ⟨y, hy, hal'⟩ := (h.stays t).out x hx
  exact ⟨y, hy, hal.trans hal'⟩
/-- Every other thread of the core is untouched. -/
theorem Sound.other (h : Sound i part s s1 fxs) {t : Nat} {th : Thread} (ht : t ∉ (drillThreads i s).map (·.1)) (h1 : getThread s1 s.cur.core t = some th) :
    ∃ new, getThread (runDrill i lat part s) s.cur.core t = some new ∧ Untouched th new := by
  obtain ⟨x, hx, hal⟩ := (committed_other i lat fxs s s1 t ht).out th h1
  obtain ⟨y, hy, hal'⟩ := (h.stays (lat := lat) t).out x hx
  exact ⟨y, hy, (hal.trans hal').untouched (h.causes.view h1 hy)⟩
/-- Beside the threads of its core and the policy of its pipe a sound drill touches the slots to which its writes evict (R52, R54). -/
theorem Sound.frame (h : Sound i part s s1 fxs) (hW : ∀ e ∈ fxs, FxIn (writes i) e.2) {b : Nat} (hb : fallowBase (getCore s1 s.cur.core) = some b) :
    CleanFrame i b s1 (runDrill i lat part s) := by
  rw [h.eq]
  have hcore := h.core (ths := drillThreads i s) (c := committed i lat fxs s s1)
  have hb1 : fallowBase (committed i lat fxs s s1) = some b := by
    rw [← hb, committed_only]
    rfl
  have h1 : Settles s.cur.core b (putCore s1 s.cur.core (committed i lat fxs s s1)) (banked i s1 s.cur.core (drillThreads i s) (committed i lat fxs s s1)) :=
    banked_settles hb1 h.spills.good
  generalize banked i s1 s.cur.core (drillThreads i s) (committed i lat fxs s s1) = s2 at h1 hcore
  have hsp : ∀ a, Spared i s1 b a → CoreSpared (putCore s1 s.cur.core (committed i lat fxs s s1)) s.cur.core b a := by
    intro a ha
    unfold CoreSpared
    rw [getCore_putCore_self]
    exact ha.imp id fun ha x hx hc => ha x hx (committed_slots hW h.cur hc)
  have hc2 : getCore s2 s.cur.core = { getCore s1 s.cur.core with threads := (getCore s2 s.cur.core).threads } := by
    have h2 := h1.core
    rw [getCore_putCore_self, committed_only] at h2
    exact h2
  refine ⟨(drillDone_besides s2 _).trans h1.state, fun cj hj => ?_, ?_, fun a ha hs => ?_, fun a ha => h1.keys a (hsp a ha)⟩
  · rw [h.cur] at hj
    rw [drillDone_others s2 _ cj (by rw [hcore]; exact hj), h1.others cj hj]
    exact tget_tput_ne _ _ _ _ hj
  · obtain ⟨lp, up, h3⟩ := drillDone_core s2 (drillTime i s)
    rw [hcore, hc2] at h3
    rw [h.cur, h3]
  · rw [drillDone_mem, h1.mem a ?_ (hsp a hs)]
    · rfl
    · rw [getCore_putCore_self]
      exact fun hc => ha (committed_slots hW h.cur hc)
/-- The rest of the machine is as the parts leave it. -/
theorem Sound.rest (h : Sound i part s s1 fxs) (hW : ∀ e ∈ fxs, FxIn (writes i) e.2)
    (hths : ∀ u, u ∈ (drillThreads i s).map (·.1) → (getThread s1 s.cur.core u).isSome = true → u ∈ (drillThreads i s1).map (·.1)) :
    RestOf i s1 (runDrill i lat part s) := by
  refine ⟨fun b hb => h.frame hW (by rw [← h.cur]; exact hb), fun u hu old ho => ?_⟩
  rw [h.cur] at ho ⊢
  exact h.other (fun hm => hu (hths u hm (by rw [ho]; rfl))) ho
end
end Sys2Proof.Machine

/-! ### The effect that a part's results are (R45, R47, R48, R115) -/
namespace Sys2Proof.Machine
open Sys2Proof

theorem tget_none_of_not_mem {α : Type} {l : Tbl α} {k : Nat} (h : k ∉ l.map (·.1)) : tget l k = none := by
  cases hg : tget l k with
  | none => rfl
  | some v => exact absurd (List.mem_map_of_mem (f := (·.1)) (tget_mem _ _ _ hg)) h
/-- The registers after values have been written. -/
theorem tget_written_ne {l : List (Nat × Word)} {ready r : Nat} {t : Tbl RegCell} (h : r ∉ l.map (·.1)) :
    tget (l.foldl (fun g x => tput g x.1 { val := x.2, ready := ready }) t) r = tget t r := by
  induction l generalizing t with
  | nil => rfl
  | cons x l ih =>
    rw [List.map_cons, List.mem_cons, not_or] at h
    rw [List.foldl_cons, ih h.2, tget_tput_ne _ _ _ _ h.1]
theorem tget_written {l : List (Nat × Word)} {ready : Nat} {t : Tbl RegCell} (hk : (l.map (·.1)).Nodup) {x : Nat × Word} (hx : x ∈ l) :
    tget (l.foldl (fun g x => tput g x.1 { val := x.2, ready := ready }) t) x.1 = some { val := x.2, ready := ready } := by
  induction l generalizing t with
  | nil => exact absurd hx List.not_mem_nil
  | cons y l ih =>
    rw [List.map_cons, List.nodup_cons] at hk
    rw [List.foldl_cons]
    rcases List.mem_cons.1 hx with rfl | hx
    · rw [tget_written_ne hk.1, tget_tput_self]
    · exact ih hk.2 hx
/-- The predicates after one has been written; p0 is hardwired (R9). -/
def predStep (p : BitVec 8) (x : Nat × Bool) : BitVec 8 :=
  if x.1 = 0 then p else if x.2 then p ||| (1#8 <<< x.1) else p &&& ~~~(1#8 <<< x.1)
theorem one_shiftLeft_bit (k q : Nat) (hq : q < 8) : (1#8 <<< k).getLsbD q = decide (q = k) := by
  rw [BitVec.getLsbD_shiftLeft, BitVec.getLsbD_one]
  simp only [hq, decide_true, Bool.true_and]
  rcases Nat.lt_trichotomy q k with h | h | h
  · simp [h, Nat.ne_of_lt h]
  · simp [h]
  · simp [Nat.not_lt.2 (Nat.le_of_lt h), Nat.ne_of_gt h]
    omega
theorem predStep_bit {p : BitVec 8} {x : Nat × Bool} {q : Nat} (hq : q < 8) :
    (predStep p x).getLsbD q = if q ≠ 0 ∧ q = x.1 then x.2 else p.getLsbD q := by
  unfold predStep
  by_cases h0 : x.1 = 0
  · rw [if_pos h0, if_neg]
    omega
  · rw [if_neg h0]
    cases x.2 <;> simp only [Bool.false_eq_true, if_true, if_false, BitVec.getLsbD_or, BitVec.getLsbD_and, BitVec.getLsbD_not, one_shiftLeft_bit _ _ hq, hq,
      decide_true, Bool.true_and]
    · by_cases h : q = x.1
      · simp [h, h0]
      · simp [h]
    · by_cases h : q = x.1
      · simp [h, h0]
      · simp [h]
theorem foldl_predStep_bit {l : List (Nat × Bool)} {p : BitVec 8} {q : Nat} (hk : (l.map (·.1)).Nodup) (h0 : 0 < q) (hq : q < 8) :
    (l.foldl predStep p).getLsbD q = (tget l q).getD (p.getLsbD q) := by
  induction l generalizing p with
  | nil => rfl
  | cons x l ih =>
    obtain ⟨k, b⟩ := x
    rw [List.map_cons, List.nodup_cons] at hk
    rw [List.foldl_cons, ih hk.2, predStep_bit hq]
    by_cases h : q = k
    · subst h
      rw [tget_none_of_not_mem hk.1]
      simp [tget, Nat.ne_of_gt h0]
    · simp [tget, h, Ne.symm h]
theorem foldl_predStep_zero {l : List (Nat × Bool)} {p : BitVec 8} : (l.foldl predStep p).getLsbD 0 = p.getLsbD 0 := by
  induction l generalizing p with
  | nil => rfl
  | cons x l ih => rw [List.foldl_cons, ih, predStep_bit (by decide), if_neg (by simp)]

/-- Results that empty no register and write each register and predicate once. -/
structure Plain (fx : Fx) : Prop where
  empties : fx.empties = []
  regs : (fx.regs.map (·.1)).Nodup
  preds : (fx.preds.map (·.1)).Nodup
/-- A thread that has released its last uses and taken results in has got them as an effect. -/
theorem Plain.got {i : Instr} {fx : Fx} (h : Plain fx) {ready : Nat} {old new : Thread} {fl sr : Word}
    (hr : new.regs = fxRegs fx ready (old.regs.filter fun e => !(lastRegs i).contains e.1)) (hp : new.preds = fxPreds fx old.preds)
    (ha : new.ast = old.ast ||| sr) (hf : ∃ ready, new.flags = if fl = 0 then old.flags else old.flags ++ [(ready, fl)])
    (hw : namedWords new = namedWords old) (hpl : new.plot = old.plot ∧ new.sheaf = old.sheaf ∧ new.serves = old.serves) :
    Got i { regs := fx.regs, preds := fx.preds, flags := fl, sr := sr } old new := by
  have hreg : new.regs = fx.regs.foldl (fun g x => tput g x.1 { val := x.2, ready := ready }) (old.regs.filter fun e => !(lastRegs i).contains e.1) := by
    rw [hr]
    unfold fxRegs
    rw [h.empties]
    rfl
  have hfil : ∀ r, tget (old.regs.filter fun e => !(lastRegs i).contains e.1) r = if !(lastRegs i).contains r then tget old.regs r else none :=
    fun r => tget_filter old.regs (fun k => !(lastRegs i).contains k) r
  have hne : ∀ r, r ∉ fx.regs.map (·.1) → tget new.regs r = if !(lastRegs i).contains r then tget old.regs r else none := fun r hn => by
    rw [hreg, tget_written_ne hn, hfil r]
  have hkeys : ({ regs := fx.regs, preds := fx.preds, flags := fl, sr := sr } : Effect).keys = fx.regs.map (·.1) := List.append_nil _
  refine ⟨fun x hx => ?_, fun r hr => absurd hr List.not_mem_nil, fun r hl hn => ?_, fun r hn hl => ?_, fun p h0 h8 => ?_, ?_, ha, hf, hw, hpl⟩
  · rw [hreg, tget_written h.regs hx]
    rfl
  · rw [hkeys] at hn
    rw [hne r hn]
    simp [hl]
  · rw [hkeys] at hn
    rw [hne r hn]
    simp [hl]
  · rw [hp]
    exact foldl_predStep_bit h.preds h0 h8
  · rw [hp]
    exact foldl_predStep_zero
theorem Got.alike {i : Instr} {e : Effect} {old mid new : Thread} (h : Got i e old mid) (ha : Alike mid new) (hw : e.awaits = []) : Got i e old new := by
  refine ⟨fun x hx => (ha.val _).trans (h.written x hx), fun r hr => ?_, fun r hl hn => ?_, fun r hn hl => (ha.val r).trans (h.kept r hn hl),
    fun p h0 h8 => by rw [ha.preds, h.preds p h0 h8], by rw [ha.preds, h.p0], by rw [ha.ast, h.ast], ?_, ?_, ?_⟩
  · rw [hw] at hr
    exact absurd hr List.not_mem_nil
  · have h1 := ha.isSome r
    rw [h.released r hl hn] at h1
    exact Option.not_isSome_iff_eq_none.1 (by rw [h1]; decide)
  · obtain ⟨ready, hf⟩ := h.pending
    exact ⟨ready, by rw [ha.of Thread.flags fun _ => rfl, hf]⟩
  · rw [ha.of namedWords fun _ => rfl, h.words]
  · rw [ha.plot, ha.sheaf, ha.serves]
    exact h.place
/-- Moving on leaves what the thread has got, and it stands ready at the target or the next instruction. -/
theorem Got.moved {i : Instr} {e : Effect} {s : State} {n : Nat} {j : Option DWord} {old mid new : Thread} (h : Got i e old mid) (ha : Alike (advance s n j mid) new)
    (hw : e.awaits = []) : Moved i e (j.getD (nextPc s.cur.pc s.curLen)) old new := by
  have h1 : Got i e old (advance s n j mid) := by
    cases j <;> exact ⟨h.written, h.awaited, h.released, h.kept, h.preds, h.p0, h.ast, h.pending, h.words, h.place⟩
  refine ⟨h1.alike ha hw, ha.pc.trans ?_, ha.st.trans ?_⟩
  · cases j <;> rfl
  · cases j <;> rfl
theorem Plain.applyFx {i : Instr} {fx : Fx} (h : Plain fx) {sr : Word} {ready : Nat} {th : Thread} :
    Got i { regs := fx.regs, preds := fx.preds, flags := fx.flags, sr := sr } th (Machine.applyFx i sr fx ready th) := by
  refine h.got (ready := ready) ?_ ?_ ?_ ⟨ready, ?_⟩ ?_ ?_ <;> rw [applyFx_eq]
  · rfl
  · exact ⟨rfl, rfl, rfl⟩
/-- A masked-off thread that supplies nothing gets what ZERO gives it, or only its last uses are released (R41, R45). -/
theorem got_applyOff {i : Instr} {z : Bool} {fx : Option Fx} {ready : Nat} {th : Thread} (hs : suppliesOff i = false) (h : z = true → Plain (zeroFx i fx)) :
    Got i (if z then { regs := (zeroFx i fx).regs, preds := (zeroFx i fx).preds } else {}) th (applyOff i z fx ready th) := by
  have hb : offBase i th = th := by
    unfold offBase
    rw [hs]
    rfl
  cases z with
  | true =>
    refine (h rfl).got (ready := ready) ?_ ?_ ?_ ⟨0, ?_⟩ ?_ ?_ <;> rw [applyOff_eq, if_pos rfl, hb]
    · rfl
    · rfl
    · exact (BitVec.or_zero).symm
    · rfl
    · rfl
    · exact ⟨rfl, rfl, rfl⟩
  | false =>
    have hp : Plain {} := ⟨rfl, List.nodup_nil, List.nodup_nil⟩
    refine hp.got (ready := ready) ?_ ?_ ?_ ⟨0, ?_⟩ ?_ ?_ <;> rw [applyOff_eq, if_neg (by decide), hb]
    · rfl
    · rfl
    · exact (BitVec.or_zero).symm
    · rfl
    · rfl
    · exact ⟨rfl, rfl, rfl⟩
end Sys2Proof.Machine

/-! ### Drills that only compute (R15, R16, R41, R45) -/
namespace Sys2Proof.Machine
open Sys2Proof

/-- What a part gives that only computes: it writes the instruction's registers, and under ZERO no predicate but that of a compare, and the
thread moves on. -/
structure Computing (i : Instr) (fx : Fx) : Prop where
  moves : fx.jump = none ∧ fx.fault = none ∧ fx.wait = none ∧ fx.stay = false ∧ fx.gone = false
  plain : Plain fx
  regs : fx.regs.map (·.1) = writes i
  preds : wellFormed i = true → zeroOf i = true → fx.preds.map (·.1) = (comparePred i).toList.map (·.toNat)
theorem Computing.reg {i : Instr} {d : RegNo} {v fl : Word} (hw : writes i = dregs d 1) (hp : comparePred i = none) :
    Computing i { regs := [(d.toNat, v)], flags := fl } :=
  ⟨⟨rfl, rfl, rfl, rfl, rfl⟩, ⟨rfl, List.nodup_singleton _, List.nodup_nil⟩, hw.symm, fun _ _ => by rw [hp]; rfl⟩
theorem Computing.pair {i : Instr} {d : RegNo} {x : Nat} (hw : writes i = dregs d 2) (hp : comparePred i = none) :
    Computing i { regs := pairRegs d x } :=
  ⟨⟨rfl, rfl, rfl, rfl, rfl⟩, ⟨rfl, by simp [pairRegs], List.nodup_nil⟩, hw.symm, fun _ _ => by rw [hp]; rfl⟩
theorem Computing.compare {i : Instr} {p : PredNo} {b : Bool} {fl : Word} (hw : writes i = []) (hp : comparePred i = some p) :
    Computing i { preds := [(p.toNat, b)], flags := fl } :=
  ⟨⟨rfl, rfl, rfl, rfl, rfl⟩, ⟨rfl, List.nodup_nil, List.nodup_singleton _⟩, hw.symm, fun _ _ => by rw [hp]; rfl⟩
/-- The PX word of a form without ZERO has none (R188). -/
theorem wellFormed_zeroOf {i : Instr} (h : wellFormed i = true) (ha : (form i).acc.zero = false) : zeroOf i = false := by
  unfold wellFormed at h
  unfold zeroOf
  cases hp : (form i).px with
  | none => rfl
  | some x =>
    simp only [hp, pxOk, ha, Bool.and_eq_true, Bool.false_or, Bool.not_eq_true'] at h
    simp only [Option.map_some, Option.getD_some]
    tauto
theorem Computing.predicates {i : Instr} {l : List (Nat × Bool)} (hw : writes i = []) (hl : (l.map (·.1)).Nodup) (ha : (form i).acc.zero = false) :
    Computing i { preds := l } :=
  ⟨⟨rfl, rfl, rfl, rfl, rfl⟩, ⟨rfl, List.nodup_nil, hl⟩, hw.symm, fun h hz => by rw [wellFormed_zeroOf h ha] at hz; exact absurd hz Bool.false_ne_true⟩

/-- An instruction that only computes is carried out by its drill, each part by the thread's own values. -/
theorem exec_computes {i : Instr} (h : computes i = true) (s : State) :
    ∃ lat f, exec i s = .next (runDrill i lat (pureFx f) s) ∧ ∀ th, Computing i (f th) := by
  cases i
  case icmpI32 | icmpN32 | icmpiI32 | icmpiN32 | fcmpF32 => exact ⟨_, _, rfl, fun _ => .compare rfl rfl⟩
  case plop => exact ⟨_, _, rfl, fun _ => .predicates rfl (List.nodup_singleton _) rfl⟩
  case pmovWr => exact ⟨_, _, rfl, fun _ => .predicates rfl (by show ((List.range 7).map (· + 1)).Nodup; decide) rfl⟩
  case addB64 | subB64 | lea | lea4 | mulWideI32 | mulWideN32 | leai => exact ⟨_, _, rfl, fun _ => .pair rfl rfl⟩
  case add | sub | mul | mulhiI32 | mulhiN32 | minI32 | maxI32 | minN32 | maxN32 | and | or | xor | andn | shl | shr | sar | rotl | bfeN32 | bfeI32 | bfi
    | mad | clz | popc | brev | mov | addi | muli | andi | ori | xori | shli | shri | sari | rotli | miniI32 | maxiI32 | miniN32 | maxiN32 | bfeiN32 | bfeiI32
    | li | liw | faddF32 | fsubF32 | fmulF32 | ffmaF32 | fminF32 | fmaxF32 | frcp | frsq | fsqrt | fex2 | flg2 | fsin | fcos | ftanh | scacc | cvt | pkBf2
    | pkH2 | pk8loE4m3 | pk8hiE4m3 | pk8loE5m2 | pk8hiE5m2 | haddBf2 | hmulBf2 | hfmaBf2 | haddH2 | hmulH2 | hfmaH2 | fdivF32 | iota | pmovRd =>
    exact ⟨_, _, rfl, fun _ => .reg rfl rfl⟩
  all_goals exact absurd h Bool.false_ne_true
theorem computes_suppliesOff {i : Instr} (h : computes i = true) : suppliesOff i = false := by
  refine Bool.eq_false_iff.2 fun hs => ?_
  cases i
  case passiAt | passiOff | passiFlip | passiRot => exact absurd h Bool.false_ne_true
  all_goals exact absurd hs Bool.false_ne_true
theorem FxIn.of_keys {W : List Nat} {fx : Fx} (he : fx.empties = []) (hr : fx.regs.map (·.1) = W) : FxIn W fx :=
  ⟨fun x hx => hr ▸ List.mem_map_of_mem hx, fun r hr => by rw [he] at hr; exact absurd hr List.not_mem_nil⟩
/-- In the parts of a drill that only computes a thread's results are its own part, or in the uniform pipe that of the drill. -/
theorem mem_pureFxs {i : Instr} {f : Thread → Fx} {s : State} {e : Nat × Fx} (he : e ∈ pureFxs i f s (activeThreads i s)) (hf : e.2.fault = none) :
    ∃ th, e.2 = f th := by
  have hown : ∀ (g : Thread → Fx) th, (ownFx i g s (activeThreads i s) th).fault = none → ownFx i g s (activeThreads i s) th = g th := by
    intro g th h
    unfold ownFx at h ⊢
    split
    · next hp => simp [hp] at h
    · rfl
  unfold pureFxs at he
  split at he
  · split at he
    · next hn =>
      obtain ⟨x, hx, rfl⟩ := List.mem_map.1 he
      have hmem : x ∈ (activeThreads i s).filter fun e => (preFault i s (activeThreads i s) e.2).isNone :=
        List.mem_filter.2 ⟨hx, by rw [show preFault i s (activeThreads i s) x.2 = none from hf]; rfl⟩
      rw [hn] at hmem
      exact absurd hmem List.not_mem_nil
    · obtain ⟨x, hx, rfl⟩ := List.mem_map.1 he
      exact ⟨_, hown _ _ hf⟩
  · obtain ⟨x, hx, rfl⟩ := List.mem_map.1 he
    exact ⟨_, hown _ _ hf⟩
theorem mem_pureFxs_active {i : Instr} {f : Thread → Fx} {s : State} {e : Nat × Fx} (he : e ∈ pureFxs i f s (activeThreads i s)) :
    ∃ th, (e.1, th) ∈ activeThreads i s := by
  unfold pureFxs at he
  split at he
  · split at he
    · obtain ⟨x, hx, rfl⟩ := List.mem_map.1 he
      exact ⟨x.2, hx⟩
    · obtain ⟨x, hx, rfl⟩ := List.mem_map.1 he
      exact ⟨x.2, hx⟩
  · obtain ⟨x, hx, rfl⟩ := List.mem_map.1 he
    exact ⟨x.2, hx⟩
/-- A calm drill of an instruction that only computes is sound, and its parts leave the state. -/
theorem CleanDrill.sound_pure {i : Instr} {s : State} {b : Nat} {f : Thread → Fx} (h : CleanDrill i s b) (hf : ∀ th, (f th).fault = none) :
    Sound i (pureFx f) s s (pureFxs i f s (activeThreads i s)) := by
  obtain ⟨x, hx⟩ := List.exists_mem_of_ne_nil _ h.some1
  refine ⟨drillParts_pure i f _ s, h.some1, rfl, shapeFault_none (h.sound x hx), fun e he => ?_, offFxs_nil h.calm.off, h.calm.threads, h.calm.spills⟩
  · obtain ⟨th, hm⟩ := mem_pureFxs_active he
    rw [pureFxs_at hm (h.sound _ hm) e he rfl]
    unfold activeFx
    split
    · split <;> exact hf _
    · exact hf _
theorem computingFrame_clean {i : Instr} {s : State} {b : Nat} (hc : computes i = true) (h : CleanDrill i s b) :
    ∃ s', exec i s = .next s' ∧ CleanFrame i b s s' ∧
      (∀ u, u ∉ (drillThreads i s).map (·.1) → ∀ old, getThread s s.cur.core u = some old → ∃ new, getThread s' s.cur.core u = some new ∧ Untouched old new) ∧
      ∀ u old new, getThread s s.cur.core u = some old → getThread s' s.cur.core u = some new →
        new.cause = old.cause ∧ new.det0 = old.det0 ∧ new.det1 = old.det1 ∧ new.det2 = old.det2 := by
  obtain ⟨lat, f, he, hf⟩ := exec_computes hc s
  have hs := h.sound_pure (f := f) fun th => (hf th).moves.2.1
  refine ⟨_, he, hs.frame (fun e hm => ?_) h.store, fun u hu old ho => hs.other hu ho, fun u old new ho hn => ?_⟩
  · obtain ⟨th, ht⟩ := mem_pureFxs hm (hs.sound e hm)
    rw [ht]
    exact .of_keys (hf th).plain.empties (hf th).regs
  · have hq := hs.causes.view ho hn
    simp only [causeOf, Prod.mk.injEq] at hq
    exact hq
end Sys2Proof.Machine

/-! ### Masked-off threads and idle drills of computing instructions (R15, R16, R41, R199) -/
namespace Sys2Proof.Machine
open Sys2Proof

/-- What a masked-off thread of a computing drill gets (R41, R199). -/
def maskedEffect (i : Instr) : Effect :=
  if zeroOf i then { regs := (writes i).map fun r => (r, 0), preds := (comparePred i).toList.map fun p => (p.toNat, false) } else {}
theorem Computing.zeroFx {i : Instr} {fx : Fx} (h : Computing i fx) (hw : wellFormed i = true) (hz : zeroOf i = true) :
    (Machine.zeroFx i (some fx)).regs = (writes i).map (fun r => (r, 0)) ∧
      (Machine.zeroFx i (some fx)).preds = (comparePred i).toList.map fun p => (p.toNat, false) := by
  constructor
  · rw [← h.regs, List.map_map]
    rfl
  · have hp : (comparePred i).toList.map (fun p => (p.toNat, false)) = ((comparePred i).toList.map (·.toNat)).map fun k => (k, false) := by
      rw [List.map_map]
      rfl
    rw [hp, ← h.preds hw hz, List.map_map]
    rfl
theorem Plain.zeroFx {i : Instr} {fx : Fx} (h : Plain fx) : Plain (Machine.zeroFx i (some fx)) := by
  refine ⟨h.empties, ?_, ?_⟩ <;> unfold Machine.zeroFx <;> rw [List.map_map]
  · exact h.regs
  · exact h.preds
theorem got_masked {i : Instr} {fx : Fx} {ready : Nat} {th : Thread} (hc : computes i = true) (hw : wellFormed i = true) (h : Computing i fx) :
    Got i (maskedEffect i) th (applyOff i (zeroOf i) (some fx) ready th) := by
  have hg := got_applyOff (i := i) (z := zeroOf i) (fx := some fx) (ready := ready) (th := th) (computes_suppliesOff hc) fun _ => h.plain.zeroFx
  unfold maskedEffect
  cases hz : zeroOf i with
  | false =>
    rw [hz] at hg
    exact hg
  | true =>
    rw [hz, (h.zeroFx hw hz).1, (h.zeroFx hw hz).2] at hg
    exact hg
/-- A masked-off thread without a fault of its own is not among those with a fault. -/
theorem offFxs_ne {i : Instr} {s : State} {t : Nat} {y : Thread} (hne : activeThreads i s ≠ []) (hy : (t, y) ∈ drillThreads i s)
    (hf : offFault i (getCore s s.cur.core) (zeroOf i) y = none) {e : Nat × Fx} (he : e ∈ offFxs i s) : e.1 ≠ t := by
  rintro rfl
  unfold offFxs at he
  obtain ⟨x, hx, hxe⟩ := List.mem_filterMap.1 he
  obtain ⟨f, hf', rfl⟩ := Option.map_eq_some_iff.1 hxe
  have hem : (activeThreads i s).isEmpty = false := by
    cases ha : activeThreads i s with
    | nil => exact absurd ha hne
    | cons a l => rfl
  rw [hem, Bool.not_false, Bool.and_true, drillThreads_unique (List.mem_filter.1 hx).1 hy, hf] at hf'
  exact absurd hf' (by simp)
theorem drill_mem_of_off {i : Instr} {s : State} {t : Nat} {y : Thread} (hy : (t, y) ∈ drillThreads i s) : t ∈ (drillThreads i s).map (·.1) :=
  List.mem_map_of_mem (f := (·.1)) hy
theorem pureFxs_ne {i : Instr} {f : Thread → Fx} {s : State} {t : Nat} (ht : t ∉ (activeThreads i s).map (·.1)) {e : Nat × Fx}
    (he : e ∈ pureFxs i f s (activeThreads i s)) : e.1 ≠ t := by
  rintro rfl
  obtain ⟨th, hm⟩ := mem_pureFxs_active he
  exact ht (List.mem_map_of_mem (f := (·.1)) hm)
/-- In a drill with a thread that takes part some part is performed, and it computes. -/
theorem some_part {i : Instr} {f : Thread → Fx} {s : State} {u : Nat} {x : Thread} (hf : ∀ th, Computing i (f th)) (h : Takes i s u x) :
    ∃ fx, ((pureFxs i f s (activeThreads i s) ++ offFxs i s).find? fun e => e.2.fault.isNone && !e.2.stay).map (·.2) = some fx ∧ Computing i fx := by
  have hu := tget_mem _ _ _ (tget_pureFxs (f := f) h.act h.sound)
  have hok : ∀ e ∈ pureFxs i f s (activeThreads i s), e.2.fault = none → Computing i e.2 := fun e he hfa => by
    obtain ⟨th, ht⟩ := mem_pureFxs he hfa
    exact ht ▸ hf th
  have hact : (activeFx i f s x).fault = none ∧ (activeFx i f s x).stay = false := by
    unfold activeFx
    split
    · split <;> exact ⟨(hf _).moves.2.1, (hf _).moves.2.2.2.1⟩
    · exact ⟨(hf _).moves.2.1, (hf _).moves.2.2.2.1⟩
  cases hfind : (pureFxs i f s (activeThreads i s) ++ offFxs i s).find? fun e => e.2.fault.isNone && !e.2.stay with
  | none =>
    have := List.find?_eq_none.1 hfind _ (List.mem_append_left _ hu)
    simp [hact] at this
  | some e =>
    refine ⟨e.2, rfl, ?_⟩
    have hp := List.find?_some hfind
    simp only [Bool.and_eq_true, Option.isNone_iff_eq_none] at hp
    rcases List.mem_append.1 (List.mem_of_find?_eq_some hfind) with hm | hm
    · exact hok e hm hp.1
    · obtain ⟨y, _, hy⟩ := List.mem_filterMap.1 hm
      obtain ⟨g, _, rfl⟩ := Option.map_eq_some_iff.1 hy
      exact absurd hp.1 (by simp)
theorem computing_masked {i : Instr} {s : State} {u t : Nat} {x old : Thread} (hc : computes i = true) (hw : wellFormed i = true) (h : Takes i s u x)
    (ht : t ∉ (activeThreads i s).map (·.1)) (ho : getThread s s.cur.core t = some old) (hst : old.stepping = none)
    (hy : ∃ y, (t, y) ∈ drillThreads i s ∧ offFault i (getCore s s.cur.core) (zeroOf i) y = none) :
    ∃ s', exec i s = .next s' ∧ MovesTo i (fun _ => maskedEffect i) (after s) s s' t := by
  obtain ⟨lat, f, he, hf⟩ := exec_computes hc s
  obtain ⟨y, hyd, hyf⟩ := hy
  have hne : activeThreads i s ≠ [] := List.ne_nil_of_mem h.act
  have hno : ∀ e ∈ pureFxs i f s (activeThreads i s) ++ offFxs i s, e.1 ≠ t := fun e hm =>
    (List.mem_append.1 hm).elim (pureFxs_ne ht) (offFxs_ne hne hyd hyf)
  obtain ⟨new, hn, hal⟩ := runDrill_commit (lat := lat) (drillParts_pure i f (activeThreads i s) s) hne rfl (shapeFault_none h.sound)
    (drill_mem_of_off hyd) ho hst (fun e hm het => absurd het (hno e hm)) h.spills
  obtain ⟨fx, hsome, hfx⟩ := some_part hf h
  have hnone : tget (pureFxs i f s (activeThreads i s) ++ offFxs i s) t = none := by
    refine tget_none_of_not_mem fun hm => ?_
    obtain ⟨e, hem, het⟩ := List.mem_map.1 hm
    exact hno e hem het
  have hz : (zeroOf i && !(activeThreads i s).isEmpty) = zeroOf i := by
    cases ha : activeThreads i s with
    | nil => exact absurd ha hne
    | cons a l => exact Bool.and_true _
  unfold commitThread at hal
  simp only [hnone, hz, hsome] at hal
  refine ⟨_, he, old, new, ho, hn, ?_⟩
  refine (got_masked hc hw hfx).moved (j := none) hal ?_
  unfold maskedEffect
  split <;> rfl

theorem getThread_updThreads (s : State) (ci t : Nat) (l : List Nat) (f : Thread → Thread) :
    getThread (updThreads s ci l f) ci t = (getThread s ci t).map fun th => if l.contains t then f th else th := by
  unfold getThread updThreads
  rw [updCore_eq, getCore_putCore_self]
  exact tget_tmap (getCore s ci).threads (fun t th => if l.contains t then f th else th) t
theorem getThread_drillDone (s : State) (n t : Nat) : getThread (drillDone s n) s.cur.core t = getThread s s.cur.core t := by
  obtain ⟨lp, up, h⟩ := drillDone_core s n
  unfold getThread
  rw [h]
/-- No thread of these is stepped: none parks again (R301). -/
theorem stepsDone_free {fxs : List (Nat × Fx)} {ci : Nat} {l : List Nat} {s : State} (h : ∀ u ∈ l, ∀ th, getThread s ci u = some th → th.stepping = none) :
    stepsDone fxs ci l s = s := by
  refine foldl_stepCheck_none ci (fun t th => th.stepping.isSome && th.st == .ready && !((tget fxs t).map (·.stay)).getD false) l s fun u hu th hth => ?_
  rw [h u hu th hth]
  rfl
/-- In the uniform pipe without an active thread nothing executes and every thread moves on (R16). -/
theorem computing_idle {i : Instr} {s : State} {t : Nat} {old : Thread} (hc : computes i = true) (hu : isUnif s = true) (ha : activeThreads i s = [])
    (hst : ∀ e ∈ drillThreads i s, e.2.stepping = none) (ht : t ∈ (drillThreads i s).map (·.1)) (ho : getThread s s.cur.core t = some old) :
    ∃ s' new, exec i s = .next s' ∧ getThread s' s.cur.core t = some new ∧ new.pc = after s ∧ new.st = .ready ∧ new.regs = old.regs ∧
      new.preds = old.preds ∧ new.ast = old.ast ∧ s'.mem = s.mem := by
  obtain ⟨lat, f, he, -⟩ := exec_computes hc s
  rw [runDrill_idle i lat _ s ⟨hu, by rw [ha]; rfl⟩] at he
  rw [stepsDone_free (fun u hm th hth => ?_)] at he
  · refine ⟨_, advance s 1 none old, he, (getThread_drillDone _ 1 t).trans ?_, rfl, rfl, rfl, rfl, rfl, rfl⟩
    refine (getThread_updThreads s s.cur.core t _ _).trans ?_
    rw [ho, Option.map_some, if_pos (List.contains_iff_mem.2 ht)]
  · rw [getThread_updThreads] at hth
    obtain ⟨x, hx, rfl⟩ := Option.map_eq_some_iff.1 hth
    have hx0 : x.stepping = none := drill_free hst hm hx
    split
    · exact hx0
    · exact hx0
end Sys2Proof.Machine

section
open Sys2Proof Sys2Proof.Machine

/-- Settles O17: the frame of a sound drill, and the commit of a masked-off thread. -/
theorem computingFrame : Obligations.ComputingFrame := by
  unfold Obligations.ComputingFrame
  exact ⟨fun i s b hc h => computingFrame_clean hc h,
    fun i s u t x old hc hw h ht ho hst hy => computing_masked hc hw h ht ho hst hy,
    fun i s t old hc hu ha hst ht ho => computing_idle hc hu ha hst ht ho⟩

end

/-! ### What changes of membership leave of a core (R11, R20, R43) -/
namespace Sys2Proof.Machine
open Sys2Proof

/-- From s to s' no thread of the core is new or newly stepped, and its fallow store, the errors of memory and the drill at issue stand. -/
structure Tame (ci : Nat) (s s' : State) : Prop where
  bad : s'.bad = s.bad
  cur : s'.cur = s.cur
  curLen : s'.curLen = s.curLen
  fsbase : (getCore s' ci).fsbase = (getCore s ci).fsbase
  free : ∀ t b, getThread s' ci t = some b → ∃ a, getThread s ci t = some a ∧ (a.stepping = none → b.stepping = none)
theorem Tame.refl (ci : Nat) (s : State) : Tame ci s s := ⟨rfl, rfl, rfl, rfl, fun _ b hb => ⟨b, hb, id⟩⟩
theorem Tame.trans {ci : Nat} {a b c : State} (h : Tame ci a b) (k : Tame ci b c) : Tame ci a c := by
  refine ⟨k.bad.trans h.bad, k.cur.trans h.cur, k.curLen.trans h.curLen, k.fsbase.trans h.fsbase, fun t z hz => ?_⟩
  obtain ⟨y, hy, hyz⟩ := k.free t z hz
  obtain ⟨x, hx, hxy⟩ := h.free t y hy
  exact ⟨x, hx, fun h0 => hyz (hxy h0)⟩
theorem Tame.ok {ci : Nat} {s s' : State} (h : Tame ci s s') (hk : SpillsOk s ci) : SpillsOk s' ci := hk.of h.fsbase h.bad
theorem Tame.gone {ci : Nat} {s s' : State} (h : Tame ci s s') {t : Nat} (ht : getThread s ci t = none) : getThread s' ci t = none := by
  cases hb : getThread s' ci t with
  | none => rfl
  | some b =>
    obtain ⟨a, ha, -⟩ := h.free t b hb
    rw [ht] at ha
    exact absurd ha (by simp)
theorem Tame.ite {p : Prop} [Decidable p] {ci : Nat} {s a b : State} (h : Tame ci s a) (k : Tame ci s b) : Tame ci s (if p then a else b) := by
  split <;> assumption
theorem Tame.foldl {α : Type} {ci : Nat} {f : State → α → State} (h : ∀ s x, Tame ci s (f s x)) (l : List α) (s : State) : Tame ci s (l.foldl f s) := by
  induction l generalizing s with
  | nil => exact .refl _ _
  | cons x l ih => exact (h s x).trans (ih _)
/-- Where the cores and the rest that counts are the same. -/
theorem Tame.same {ci : Nat} {s s' : State} (hc : SameCores s s') (hb : s'.bad = s.bad) (h1 : s'.cur = s.cur) (h2 : s'.curLen = s.curLen) : Tame ci s s' := by
  refine ⟨hb, h1, h2, by rw [hc.getCore], fun t b hb => ⟨b, ?_, id⟩⟩
  rw [getThread, ← hc.getCore]
  exact hb
/-- A core in which each thread is one of before, stepped only if it was. -/
theorem Tame.putCore {ci : Nat} {s : State} {c : Core} (hf : c.fsbase = (getCore s ci).fsbase)
    (ht : ∀ t b, tget c.threads t = some b → ∃ a, tget (getCore s ci).threads t = some a ∧ (a.stepping = none → b.stepping = none)) :
    Tame ci s (Machine.putCore s ci c) := by
  refine ⟨rfl, rfl, rfl, by rw [getCore_putCore_self]; exact hf, fun t b hb => ht t b ?_⟩
  rw [getThread, getCore_putCore_self] at hb
  exact hb
theorem Tame.updCore {ci : Nat} {s : State} {f : Core → Core} (hf : (f (getCore s ci)).fsbase = (getCore s ci).fsbase)
    (ht : (f (getCore s ci)).threads = (getCore s ci).threads) : Tame ci s (Machine.updCore s ci f) :=
  .putCore hf fun t b hb => ⟨b, by rw [← ht]; exact hb, id⟩
theorem tget_tput_cases {α : Type} {t : Tbl α} {k j : Nat} {v b : α} (h : tget (tput t k v) j = some b) : (j = k ∧ v = b) ∨ (j ≠ k ∧ tget t j = some b) := by
  by_cases hj : j = k
  · subst hj
    rw [tget_tput_self] at h
    exact .inl ⟨rfl, Option.some.inj h⟩
  · rw [tget_tput_ne _ _ _ _ hj] at h
    exact .inr ⟨hj, h⟩
/-- One thread that stands in the core is replaced. -/
theorem Tame.putThread {ci k : Nat} {s : State} {c : Core} {th new : Thread} (hf : c.fsbase = (getCore s ci).fsbase) (ho : tget (getCore s ci).threads k = some th)
    (hc : c.threads = tput (getCore s ci).threads k new) (hs : th.stepping = none → new.stepping = none) : Tame ci s (Machine.putCore s ci c) := by
  refine .putCore hf fun t b hb => ?_
  rw [hc] at hb
  rcases tget_tput_cases hb with ⟨rfl, rfl⟩ | ⟨_, hb⟩
  · exact ⟨th, ho, hs⟩
  · exact ⟨b, hb, id⟩
theorem Tame.tmap {ci : Nat} {s : State} {c : Core} {f : Nat → Thread → Thread} (hf : c.fsbase = (getCore s ci).fsbase)
    (hc : c.threads = Machine.tmap (getCore s ci).threads f) (hs : ∀ t th, th.stepping = none → (f t th).stepping = none) : Tame ci s (Machine.putCore s ci c) := by
  refine .putCore hf fun t b hb => ?_
  rw [hc, tget_tmap] at hb
  obtain ⟨a, ha, rfl⟩ := Option.map_eq_some_iff.1 hb
  exact ⟨a, ha, hs t a⟩
theorem Tame.updThread {ci k : Nat} {s : State} {f : Thread → Thread} (hs : ∀ th, th.stepping = none → (f th).stepping = none) :
    Tame ci s (Machine.updThread s ci k f) := by
  refine .putCore (c := updThreadC (getCore s ci) k f) rfl fun t b hb => ?_
  by_cases hk : t = k
  · subst hk
    rw [updThreadC, tget_tupd_self] at hb
    obtain ⟨a, ha, rfl⟩ := Option.map_eq_some_iff.1 hb
    exact ⟨a, ha, hs a⟩
  · rw [updThreadC, tget_tupd_ne _ _ _ _ hk] at hb
    exact ⟨b, hb, id⟩
theorem emitR_tame (ci : Nat) (s : State) (u : Word) (t : Nat) (c : DWord) (p f : Nat) : Tame ci s (emitR s u t c p f) :=
  .same (emitR_same ..) (emitR_quiet ..).bad (emitR_quiet ..).cur (emitR_quiet ..).curLen
theorem fallowPut_tame (ci : Nat) (s : State) (a : Nat) (w : Word) : Tame ci s (fallowPut s a w) := by
  obtain ⟨m, k, h⟩ := fallowPut_eq s a w
  rw [h]
  exact .same ⟨rfl, rfl⟩ rfl rfl rfl
theorem freezePlot_core (s : State) (ci pi g : Nat) : ∃ p, getCore (freezePlot s ci pi g) ci = { getCore s ci with plots := p } := by
  unfold freezePlot
  split
  · exact ⟨_, rfl⟩
  · split
    · exact ⟨_, rfl⟩
    · extract_lets s1 s2 s3
      have h1 : getCore s1 ci = { getCore s ci with plots := tupd (getCore s ci).plots pi fun p => { p with frozen := some g } } := getCore_putCore_self ..
      have h2 : SameCores s1 s2 := SameCores.ite (by exact ⟨rfl, rfl⟩) (countDrop_same ..)
      exact ⟨_, ((h2.trans ((ringPost_same ..).trans (emitR_same ..))).getCore ci).trans h1⟩
theorem freezePlot_tame (ci : Nat) (s : State) (pi g : Nat) : Tame ci s (freezePlot s ci pi g) := by
  have hq := freezePlot_quiet s ci pi g
  obtain ⟨p, hp⟩ := freezePlot_core s ci pi g
  refine ⟨hq.bad, hq.cur, hq.curLen, by rw [hp], fun t b hb => ⟨b, ?_, id⟩⟩
  rw [getThread, hp] at hb
  exact hb
theorem fragPending_tame (ci : Nat) (s : State) (e : Nat) : Tame ci s (fragPending s ci e) := by
  unfold fragPending
  extract_lets c
  split
  · exact .refl _ _
  · extract_lets s1
    have h1 : Tame ci s s1 := .updCore (f := fun c => { c with frags := _ }) rfl rfl
    exact h1.trans (.ite (freezePlot_tame ..) (.refl _ _))
theorem stepDone_tame (ci : Nat) (s : State) (u : Nat) : Tame ci s (stepDone s ci u) := by
  unfold stepDone
  extract_lets c
  split
  · exact .refl _ _
  · next hth =>
    split
    · exact .refl _ _
    · split
      · exact .refl _ _
      · extract_lets db left d1 f1 th2 s2
        have h2 : Tame ci s s2 := .putThread (th := _) rfl hth rfl fun _ => rfl
        exact .ite (h2.trans (fragPending_tame ..)) h2
/-- A thread whose wait has ended: past its instruction, with its last uses released, ready after the delay (R11, R45). -/
def woken (c : Core) (n : Nat) (th : Thread) : Thread :=
  makeReady c n { th with pc := th.nextPc, regs := th.regs.filter fun e => !th.lastUse.contains e.1, lastUse := [], moving := none, fresh := false }
theorem wakeThread_eq {s : State} {ci u n : Nat} {th : Thread} (h : getThread s ci u = some th) : wakeThread s ci u n
    = stepDone (putCore s ci { getCore s ci with threads := tput (getCore s ci).threads u (woken (getCore s ci) n th) }) ci u := by
  unfold wakeThread
  rw [getThread] at h
  simp only [h]
  rfl
theorem wakeThread_none {s : State} {ci u n : Nat} (h : getThread s ci u = none) : wakeThread s ci u n = s := by
  unfold wakeThread
  rw [getThread] at h
  simp only [h]
theorem wakeThread_tame (ci : Nat) (s : State) (u n : Nat) : Tame ci s (wakeThread s ci u n) := by
  cases h : getThread s ci u with
  | none =>
    rw [wakeThread_none h]
    exact .refl _ _
  | some th =>
    rw [wakeThread_eq h]
    have h1 : Tame ci s (putCore s ci { getCore s ci with threads := tput (getCore s ci).threads u (woken (getCore s ci) n th) }) :=
      .putThread (new := woken (getCore s ci) n th) rfl h rfl id
    exact h1.trans (stepDone_tame ..)
theorem settleBanks_tame {old : Core} {s : State} {ci : Nat} {tids : List Nat} {keep : Nat → List Nat} {n : Nat} (h : SpillsOk s ci) :
    Tame ci s (settleBanks old s ci tids keep n).1 := by
  obtain ⟨b, hb⟩ := Option.isSome_iff_exists.1 h.store
  have hs := settleBanks_settles old s ci b tids keep n hb h.good
  have hq := settleBanks_quiet old s ci tids keep n
  refine ⟨hq.bad, hq.cur, hq.curLen, by rw [hs.core], fun t z hz => ?_⟩
  obtain ⟨a, ha⟩ := (settleBanks_views causeOf_blind h).back hz
  obtain ⟨y, hy, hal⟩ := (settleBanks_stays old s ci tids keep n t h).stays.out a ha
  refine ⟨a, ha, fun h0 => ?_⟩
  rw [← Option.some.inj (hy.symm.trans hz), hal.stepping, h0]
theorem dropDeposits_tame (ci : Nat) (s : State) (p : Deposit → Bool) : Tame ci s (dropDeposits s ci p) :=
  Tame.trans (.updCore (f := fun c => { c with deposits := c.deposits.filter fun d => !p d }) rfl rfl) (.foldl (fun _ _ => emitR_tame ..) _ _)
theorem tryComplete_tame (ci : Nat) (s : State) (k b : Nat) : Tame ci s (tryComplete s ci k b) := by
  unfold tryComplete
  extract_lets c
  split
  · exact .refl _ _
  · exact .ite (.refl _ _) (.updCore (f := fun c => { c with sheaves := _ }) rfl rfl)
theorem wakeBarriers_tame (ci : Nat) (s : State) (k : Nat) : Tame ci s (wakeBarriers s ci k) := by
  unfold wakeBarriers
  extract_lets c
  split
  · exact .refl _ _
  · refine .foldl (fun s m => ?_) _ _
    split
    · exact .ite (wakeThread_tame ..) (.refl _ _)
    · exact .refl _ _
theorem recheckBarriers_tame (ci : Nat) (s : State) (k : Nat) : Tame ci s (recheckBarriers s ci k) :=
  Tame.trans (.foldl (fun _ _ => tryComplete_tame ..) _ _) (wakeBarriers_tame ..)
theorem releaseFuse_tame (ci : Nat) (s : State) (k : Nat) (pc : DWord) : Tame ci s (releaseFuse s ci k pc) := by
  unfold releaseFuse
  extract_lets s1
  have h1 : Tame ci s s1 := .updCore (f := fun c => { c with sheaves := _ }) rfl rfl
  exact h1.trans (.foldl (fun _ _ => .ite (wakeThread_tame ..) (.refl _ _)) _ _)
theorem checkFuses_tame (ci : Nat) (s : State) (k : Nat) : Tame ci s (checkFuses s ci k) := by
  unfold checkFuses
  extract_lets c sh mem
  exact .foldl (fun _ _ => .ite (releaseFuse_tame ..) (.refl _ _)) _ _
theorem loneMember_tame (ci : Nat) (s : State) (k : Nat) : Tame ci s (loneMember s ci k) := by
  unfold loneMember
  split
  · refine Tame.trans ?_ (.updThread fun _ h => h)
    unfold loneWords
    split
    · exact .refl _ _
    · exact .foldl (fun _ _ => .ite (fallowPut_tame ..) (.refl _ _)) _ _
  · exact .refl _ _
theorem sheafChanged_tame (ci : Nat) (s : State) (k : Nat) : Tame ci s (sheafChanged s ci k) := by
  unfold sheafChanged
  extract_lets c
  split
  · exact .refl _ _
  · split
    · exact Tame.trans (.updCore (f := fun c => { c with sheaves := tdel c.sheaves k }) rfl rfl) (dropDeposits_tame ..)
    · exact ((loneMember_tame ..).trans (recheckBarriers_tame ..)).trans (checkFuses_tame ..)
end Sys2Proof.Machine

/-! ### A thread that has left its sheaf, and the sheaf (R20, R43, R59) -/
namespace Sys2Proof.Machine
open Sys2Proof

/-- In a table in order every entry is the one that its key finds. -/
theorem tget_of_mem {α : Type} {t : Tbl α} (h : tsorted t = true) {e : Nat × α} (he : e ∈ t) : tget t e.1 = some e.2 := by
  induction t with
  | nil => exact absurd he List.not_mem_nil
  | cons x t ih =>
    obtain ⟨j, w⟩ := x
    rw [tsorted_cons] at h
    rcases List.mem_cons.1 he with rfl | he
    · simp [tget]
    · have hlt : j < e.1 := h.2 e he
      simp only [tget, if_neg (Nat.ne_of_lt hlt)]
      exact ih h.1 he
theorem mem_members {c : Core} {k : Nat} {m : Nat × Thread} : m ∈ members c k ↔ m ∈ c.threads ∧ m.2.sheaf = some k := by
  unfold members
  rw [List.mem_filter, beq_iff_eq]
theorem mem_members_iff {c : Core} (h : CoreKept c) {k t : Nat} {th : Thread} : (t, th) ∈ members c k ↔ tget c.threads t = some th ∧ th.sheaf = some k := by
  rw [mem_members]
  exact ⟨fun hm => ⟨tget_of_mem h.threads hm.1, hm.2⟩, fun hm => ⟨tget_mem _ _ _ hm.1, hm.2⟩⟩

/-- A well-kept state in which thread t stands, alike to this one. -/
structure Stands (ci t : Nat) (th : Thread) (s : State) : Prop where
  kept : Kept 0 s
  here : ∃ x, getThread s ci t = some x ∧ Alike th x
theorem Stands.stays {ci t : Nat} {th : Thread} {s s' : State} (h : Stands ci t th s) (hk : Kept 0 s') (hs : StaysS ci t s s') : Stands ci t th s' := by
  obtain ⟨x, hx, hal⟩ := h.here
  obtain ⟨y, hy, hal'⟩ := hs.out x hx
  exact ⟨hk, y, hy, hal.trans hal'⟩
/-- It is not among the members of a sheaf that is not its own. -/
theorem Stands.ne {ci t k : Nat} {th : Thread} {s : State} (h : Stands ci t th s) (hk : th.sheaf ≠ some k) {m : Nat × Thread} (hm : m ∈ members (getCore s ci) k) :
    t ≠ m.1 := by
  rintro rfl
  obtain ⟨x, hx, hal⟩ := h.here
  have hx' := (mem_members_iff (h.kept.get ci) (t := m.1) (th := m.2)).1 hm
  rw [getThread, hx'.1] at hx
  rw [← hal.sheaf, ← Option.some.inj hx] at hk
  exact hk hx'.2
theorem Stands.foldl {α : Type} {ci t : Nat} {th : Thread} {f : State → α → State} (l : List α) {s : State} (h : Stands ci t th s)
    (hf : ∀ s, ∀ x ∈ l, Stands ci t th s → Stands ci t th (f s x)) : Stands ci t th (l.foldl f s) := by
  induction l generalizing s with
  | nil => exact h
  | cons x l ih => exact ih (hf s x (List.mem_cons_self ..) h) fun s y hy => hf s y (List.mem_cons_of_mem _ hy)
theorem wakeThread_stays {ci t u n : Nat} {s : State} (h : t ≠ u) : StaysS ci t s (wakeThread s ci u n) := by
  cases hg : getThread s ci u with
  | none =>
    rw [wakeThread_none hg]
    exact .refl ..
  | some th =>
    rw [wakeThread_eq hg]
    exact (StaysS.putCore (c := { getCore s ci with threads := tput (getCore s ci).threads u (woken (getCore s ci) n th) }) (Stays.tput_ne _ _ _ _ h)).trans (stepDone_stays _ _ _ _ h)
theorem Stands.wake {ci t u n : Nat} {th : Thread} {s : State} (h : Stands ci t th s) (hu : t ≠ u) : Stands ci t th (wakeThread s ci u n) :=
  h.stays h.kept.wakeThread (wakeThread_stays hu)

section
variable {ci t k : Nat} {th : Thread} {s : State}

theorem Stands.tryComplete (h : Stands ci t th s) {b : Nat} : Stands ci t th (Machine.tryComplete s ci k b) := by
  refine h.stays h.kept.tryComplete ?_
  unfold Machine.tryComplete
  extract_lets c
  split
  · exact .refl ..
  · exact .ite (.refl ..) (.putCore (Stays.refl ..))
theorem Stands.wakeBarriers (h : Stands ci t th s) (hk : th.sheaf ≠ some k) : Stands ci t th (Machine.wakeBarriers s ci k) := by
  unfold Machine.wakeBarriers
  extract_lets c
  split
  · exact h
  · refine .foldl _ h fun s' m hm hs => ?_
    have hne := h.ne hk hm
    split
    · split
      · exact hs.wake hne
      · exact hs
    · exact hs
theorem Stands.recheckBarriers (h : Stands ci t th s) (hk : th.sheaf ≠ some k) : Stands ci t th (Machine.recheckBarriers s ci k) :=
  Stands.wakeBarriers (.foldl _ h fun _ _ _ hs => hs.tryComplete) hk
theorem Stands.releaseFuse (h : Stands ci t th s) (hk : th.sheaf ≠ some k) {pc : DWord} : Stands ci t th (Machine.releaseFuse s ci k pc) := by
  unfold Machine.releaseFuse
  extract_lets s1
  have h1 : Stands ci t th s1 := h.stays (h.kept.updCore fun _ hc => { hc with sheaves := tsorted_tupd _ _ _ hc.sheaves }) (.putCore (Stays.refl ..))
  refine .foldl _ h1 fun s' m hm hs => ?_
  split
  · exact hs.wake (h1.ne hk hm)
  · exact hs
theorem Stands.checkFuses (h : Stands ci t th s) (hk : th.sheaf ≠ some k) : Stands ci t th (Machine.checkFuses s ci k) := by
  unfold Machine.checkFuses
  extract_lets c sh mem
  refine .foldl _ h fun s' f _ hs => ?_
  split
  · exact hs.releaseFuse hk
  · exact hs
theorem Alike.loneRegs (th : Thread) : Alike th (Machine.loneRegs th) := Alike.tmapRegs th (fun _ c => { c with tag := .uniform }) fun _ _ => ⟨rfl, rfl, rfl, Iff.rfl⟩
theorem loneMember_stays : StaysS ci t s (loneMember s ci k) := by
  unfold loneMember
  split
  · refine StaysS.trans (b := loneWords s ci k _ _) ?_ (StaysS.putCore (Stays.tupd _ _ _ _ Alike.loneRegs))
    unfold loneWords
    split
    · exact .refl ..
    · exact StaysS.foldl _ _ _ _ (fun s _ _ => .ite (StaysS.fallow _ _ (.refl ..)) (.refl ..)) _
  · exact .refl ..
theorem dropDeposits_stays {p : Deposit → Bool} : StaysS ci t s (dropDeposits s ci p) :=
  StaysS.trans (b := updCore s ci fun c => { c with deposits := c.deposits.filter fun d => !p d }) (.putCore (Stays.refl ..))
    (StaysS.foldl _ _ _ _ (fun _ _ _ => .of _ _ (emitR_same ..)) _)
theorem Stands.sheafChanged (h : Stands ci t th s) (hk : th.sheaf ≠ some k) : Stands ci t th (Machine.sheafChanged s ci k) := by
  unfold Machine.sheafChanged
  extract_lets c
  split
  · exact h
  · split
    · have hc : CoreKept { c with sheaves := tdel c.sheaves k } := { h.kept.get ci with sheaves := tsorted_tdel _ _ (h.kept.get ci).sheaves }
      have h1 : Stands ci t th (putCore s ci { c with sheaves := tdel c.sheaves k }) := h.stays (h.kept.putCore hc ci) (.putCore (Stays.refl ..))
      exact h1.stays h1.kept.dropDeposits dropDeposits_stays
    · have h1 : Stands ci t th (loneMember s ci k) := h.stays h.kept.loneMember loneMember_stays
      exact (h1.recheckBarriers hk).checkFuses hk
end

/-! ### Whether a sheaf stands -/

/-- The sheaf table has entry k. -/
def hasSheaf (s : State) (ci k : Nat) : Bool := (tget (getCore s ci).sheaves k).isSome
theorem hasSheaf_same {s s' : State} (h : SameCores s s') (ci k : Nat) : hasSheaf s' ci k = hasSheaf s ci k := by
  unfold hasSheaf
  rw [h.getCore]
theorem hasSheaf_putCore {s : State} {ci k : Nat} {c : Core} : hasSheaf (putCore s ci c) ci k = (tget c.sheaves k).isSome := by
  unfold hasSheaf
  rw [getCore_putCore_self]
theorem hasSheaf_foldl {α : Type} {f : State → α → State} {ci k : Nat} (h : ∀ s x, hasSheaf (f s x) ci k = hasSheaf s ci k) (l : List α) (s : State) :
    hasSheaf (l.foldl f s) ci k = hasSheaf s ci k := by
  induction l generalizing s with
  | nil => rfl
  | cons x l ih => exact (ih _).trans (h s x)
theorem isSome_tupd {α : Type} (t : Tbl α) (k j : Nat) (f : α → α) : (tget (tupd t k f) j).isSome = (tget t j).isSome := by
  by_cases h : j = k
  · subst h
    rw [tget_tupd_self, Option.isSome_map]
  · rw [tget_tupd_ne _ _ _ _ h]
theorem isSome_tput_of_some {α : Type} (t : Tbl α) {k : Nat} (j : Nat) {v w : α} (h : tget t k = some w) : (tget (tput t k v) j).isSome = (tget t j).isSome := by
  rw [tget_tput]
  split
  · next e => rw [e, h]; rfl
  · rfl
theorem freezePlot_hasSheaf (s : State) (ci pi g k : Nat) : hasSheaf (freezePlot s ci pi g) ci k = hasSheaf s ci k := by
  unfold freezePlot
  split
  · rfl
  · split
    · rfl
    · extract_lets s1 s2 s3
      have h2 : SameCores s1 s2 := SameCores.ite (by exact ⟨rfl, rfl⟩) (countDrop_same ..)
      exact (hasSheaf_same (h2.trans ((ringPost_same ..).trans (emitR_same ..))) ci k).trans hasSheaf_putCore
theorem fragPending_hasSheaf (s : State) (ci e k : Nat) : hasSheaf (fragPending s ci e) ci k = hasSheaf s ci k := by
  unfold fragPending
  extract_lets c
  split
  · rfl
  · extract_lets s1
    have h1 : hasSheaf s1 ci k = hasSheaf s ci k := hasSheaf_putCore
    split
    · exact (freezePlot_hasSheaf ..).trans h1
    · exact h1
theorem stepDone_hasSheaf (s : State) (ci u k : Nat) : hasSheaf (stepDone s ci u) ci k = hasSheaf s ci k := by
  unfold stepDone
  extract_lets c
  split
  · rfl
  · split
    · rfl
    · split
      · rfl
      · extract_lets db left d1 f1 th2 s2
        have h2 : hasSheaf s2 ci k = hasSheaf s ci k := hasSheaf_putCore
        split
        · exact (fragPending_hasSheaf ..).trans h2
        · exact h2
theorem wakeThread_hasSheaf (s : State) (ci u n k : Nat) : hasSheaf (wakeThread s ci u n) ci k = hasSheaf s ci k := by
  cases hg : getThread s ci u with
  | none => rw [wakeThread_none hg]
  | some th =>
    rw [wakeThread_eq hg]
    exact (stepDone_hasSheaf ..).trans hasSheaf_putCore
theorem tryComplete_hasSheaf (s : State) (ci j b k : Nat) : hasSheaf (tryComplete s ci j b) ci k = hasSheaf s ci k := by
  unfold tryComplete
  extract_lets c
  split
  · rfl
  · next hj =>
    extract_lets mem out
    split
    · rfl
    · exact hasSheaf_putCore.trans (isSome_tput_of_some _ _ hj)
theorem recheckBarriers_hasSheaf (s : State) (ci j k : Nat) : hasSheaf (recheckBarriers s ci j) ci k = hasSheaf s ci k := by
  unfold recheckBarriers
  refine Eq.trans ?_ (hasSheaf_foldl (fun s b => tryComplete_hasSheaf s ci j b k) (List.range 4) s)
  unfold wakeBarriers
  extract_lets c
  split
  · rfl
  · refine hasSheaf_foldl (fun s m => ?_) _ _
    split
    · split
      · exact wakeThread_hasSheaf ..
      · rfl
    · rfl
theorem releaseFuse_hasSheaf (s : State) (ci j : Nat) (pc : DWord) (k : Nat) : hasSheaf (releaseFuse s ci j pc) ci k = hasSheaf s ci k := by
  unfold releaseFuse
  extract_lets s1
  have h1 : hasSheaf s1 ci k = hasSheaf s ci k := hasSheaf_putCore.trans (isSome_tupd ..)
  refine (hasSheaf_foldl (fun s m => ?_) _ _).trans h1
  split
  · exact wakeThread_hasSheaf ..
  · rfl
theorem checkFuses_hasSheaf (s : State) (ci j k : Nat) : hasSheaf (checkFuses s ci j) ci k = hasSheaf s ci k := by
  unfold checkFuses
  extract_lets c sh mem
  refine hasSheaf_foldl (fun s m => ?_) _ _
  split
  · exact releaseFuse_hasSheaf ..
  · rfl
theorem loneMember_hasSheaf (s : State) (ci j k : Nat) : hasSheaf (loneMember s ci j) ci k = hasSheaf s ci k := by
  unfold loneMember
  split
  · refine hasSheaf_putCore.trans ?_
    show hasSheaf (loneWords s ci j _ _) ci k = _
    unfold loneWords
    split
    · rfl
    · refine hasSheaf_foldl (fun s e => ?_) _ _
      split
      · unfold hasSheaf
        rw [getCore_fallowPut]
      · rfl
  · rfl
theorem dropDeposits_hasSheaf (s : State) (ci k : Nat) (p : Deposit → Bool) : hasSheaf (dropDeposits s ci p) ci k = hasSheaf s ci k :=
  (hasSheaf_foldl (fun _ _ => hasSheaf_same (emitR_same ..) ci k) _ _).trans hasSheaf_putCore
/-- After a change of its members a sheaf stands exactly if it has one (R20). -/
theorem sheafChanged_hasSheaf (s : State) (ci k : Nat) : hasSheaf (sheafChanged s ci k) ci k = (hasSheaf s ci k && !(members (getCore s ci) k).isEmpty) := by
  unfold sheafChanged
  extract_lets c
  split
  · next hn =>
    have : hasSheaf s ci k = false := by
      unfold hasSheaf
      rw [Option.isNone_iff_eq_none.1 hn]
      rfl
    rw [this]
    rfl
  · next hn =>
    have hs : hasSheaf s ci k = true := by
      unfold hasSheaf
      rwa [← Option.not_isNone, Bool.not_eq_true', Bool.eq_false_iff]
    rw [hs]
    split
    · next he =>
      rw [he, dropDeposits_hasSheaf, hasSheaf_putCore, tget_tdel_self]
      rfl
    · next he =>
      rw [checkFuses_hasSheaf, recheckBarriers_hasSheaf, loneMember_hasSheaf, hs, Bool.eq_false_iff.2 he]
      rfl
end Sys2Proof.Machine

/-! ### Drills of one active thread -/
namespace Sys2Proof.Machine
open Sys2Proof

section
variable {i : Instr} {s : State} {t : Nat} {th : Thread}

theorem Alone.some1 (h : Alone i s t th) : activeThreads i s ≠ [] := by
  rw [h.act]
  exact List.cons_ne_nil _ _
theorem Alone.mem (h : Alone i s t th) : (t, th) ∈ activeThreads i s := by
  rw [h.act]
  exact List.mem_singleton_self _
theorem Alone.drill (h : Alone i s t th) : t ∈ (drillThreads i s).map (·.1) := List.mem_map_of_mem (f := (·.1)) (mem_active h.mem).1
/-- The thread that stands in the core, as the drill reads it. -/
theorem Alone.thread (h : Alone i s t th) : ∃ th0, getThread s s.cur.core t = some th0 ∧ qualifies i s.cur.coll th0 = true ∧ th = undefReads s t th0 ∧ th0.stepping = none := by
  obtain ⟨th0, h0, _, hq, hu⟩ := mem_drillThreads (mem_active h.mem).1
  exact ⟨th0, h0, hq, hu, h.calm.threads t h.drill th0 h0⟩
/-- Its part is carried out, in either pipe. -/
theorem Alone.parts (h : Alone i s t th) (part : Part) : drillParts i part (activeThreads i s) s = ((part s t th).1, [(t, (part s t th).2)]) := by
  rw [h.act]
  unfold drillParts
  have hl : leadMode [(t, th)] th = th := rfl
  split
  · simp [h.sound, hl]
  · simp [runParts, h.sound]
theorem Alone.toSound (h : Alone i s t th) {part : Part} (ht : Tame s.cur.core s (part s t th).1) (hf : (part s t th).2.fault = none) :
    Sound i part s (part s t th).1 [(t, (part s t th).2)] := by
  refine ⟨h.parts part, h.some1, ht.cur, shapeFault_none (th := th) (by rw [h.act]; exact h.sound), fun e he => ?_, offFxs_nil h.calm.off, fun u hu b hb => ?_, ht.ok h.calm.spills⟩
  · rw [List.mem_singleton.1 he]
    exact hf
  · obtain ⟨a, ha, hab⟩ := ht.free u b hb
    exact hab (h.calm.threads u hu a ha)
end
/-- A thread of the drill that stands as it stood is of the drill still. -/
theorem drill_mem_of_same {i : Instr} {s s1 : State} (hcur : s1.cur = s.cur) {u : Nat} (hu : u ∈ (drillThreads i s).map (·.1))
    (h : getThread s1 s.cur.core u = getThread s s.cur.core u) : u ∈ (drillThreads i s1).map (·.1) := by
  obtain ⟨e, he, rfl⟩ := List.mem_map.1 hu
  obtain ⟨th0, h0, hm, hq, -⟩ := mem_drillThreads (t := e.1) (th := e.2) he
  refine List.mem_map.2 ⟨(e.1, undefReads s1 e.1 th0), ?_, rfl⟩
  unfold drillThreads
  rw [mem_drillOrder, List.mem_filterMap, hcur]
  refine ⟨e.1, hm, ?_⟩
  have h1 : tget (getCore s1 s.cur.core).threads e.1 = some th0 := h.trans h0
  simp only [h1, Option.bind_some, hq, if_true]
theorem FxIn.nothing {W : List Nat} {fx : Fx} (hr : fx.regs = []) (he : fx.empties = []) : FxIn W fx :=
  ⟨fun x hx => by rw [hr] at hx; exact absurd hx List.not_mem_nil, fun x hx => by rw [he] at hx; exact absurd hx List.not_mem_nil⟩
theorem Alone.fxIn {t : Nat} {fx : Fx} {W : List Nat} (h : FxIn W fx) : ∀ e ∈ [(t, fx)], FxIn W e.2 := fun e he => by
  rw [List.mem_singleton.1 he]
  exact h
/-- What the commit makes of the one active thread that goes on. -/
theorem commitThread_goes {i : Instr} {s : State} {n ready : Nat} {z : Bool} {some1 : Option Fx} {fx : Fx} {t : Nat} {th : Thread}
    (hm : fx.fault = none ∧ fx.wait = none ∧ fx.stay = false ∧ fx.gone = false) :
    commitThread i s n ready z some1 [(t, fx)] t th = advance s n fx.jump (applyFx i (readFlag i s th) fx ready th) := by
  obtain ⟨h1, h2, h3, h4⟩ := hm
  unfold commitThread
  simp [tget, h1, h2, h3, h4]
theorem commitThread_waits {i : Instr} {s : State} {n ready : Nat} {z : Bool} {some1 : Option Fx} {fx : Fx} {t : Nat} {th : Thread} {w : Wait}
    (hm : fx.fault = none ∧ fx.wait = some w ∧ fx.stay = false ∧ fx.gone = false) :
    commitThread i s n ready z some1 [(t, fx)] t th = startWait i s w (applyResults fx ready (flagsAt ready fx.flags (orFlags th (readFlag i s th)))) := by
  obtain ⟨h1, h2, h3, h4⟩ := hm
  unfold commitThread
  simp [tget, h1, h2, h3, h4]
/-- A drill of one thread whose part goes on and only writes registers, predicates and flags: it finishes with that effect. -/
theorem Alone.moves {i : Instr} {lat : Lat} {s : State} {t : Nat} {th th1 : Thread} {part : Part} (h : Alone i s t th) (ht : Tame s.cur.core s (part s t th).1)
    (hm : (part s t th).2.fault = none ∧ (part s t th).2.wait = none ∧ (part s t th).2.stay = false ∧ (part s t th).2.gone = false)
    (hp : Plain (part s t th).2) (h1 : getThread (part s t th).1 s.cur.core t = some th1) :
    ∃ new, getThread (runDrill i lat part s) s.cur.core t = some new ∧
      Moved i { regs := (part s t th).2.regs, preds := (part s t th).2.preds, flags := (part s t th).2.flags, sr := readFlag i (part s t th).1 th1 }
        ((part s t th).2.jump.getD (after s)) th1 new := by
  obtain ⟨new, hn, hal⟩ := (h.toSound ht hm.1).thread (lat := lat) h.drill h1
  rw [commitThread_goes hm] at hal
  refine ⟨new, hn, ?_⟩
  have hmv := hp.applyFx.moved hal rfl
  rw [ht.cur, ht.curLen] at hmv
  exact hmv
end Sys2Proof.Machine

/-! ### Threads that leave and threads that end (R11, R20, R43, R247, R250) -/
namespace Sys2Proof.Machine
open Sys2Proof

theorem readFlag_nil {i : Instr} (h : reads i = []) (s : State) (th : Thread) : readFlag i s th = 0 := by
  have hs : ∀ x, staleFlag i x = 0 := fun x => by
    unfold staleFlag
    rw [h]
    rfl
  unfold readFlag
  split
  · have : ∀ (l : List (Nat × Thread)) (w : Word), l.foldl (fun w e => w ||| staleFlag i e.2) w = w := by
      intro l
      induction l with
      | nil => exact fun _ => rfl
      | cons e l ih => exact fun w => by rw [List.foldl_cons, hs]; simpa using ih w
    exact this _ _
  · exact hs th

/-! ### Leaving -/

/-- A thread that has left a sheaf: solitary, with its own copies of its registers (R20, R43). -/
def leftThread (c : Core) (th : Thread) (k : Nat) : Thread := { soloRegs th with sheaf := none, rank := 0, tblSel := (tgetD c.sheaves k {}).tblSel }
/-- The core after a thread has been taken out of its sheaf: it has its own copies of its registers, and the sheaf's barriers and rendezvous no
longer count it (R20, R43). -/
def leftCore (c : Core) (t : Nat) (th : Thread) (k : Nat) : Core := { c with
  threads := tput c.threads t (leftThread c th k)
  sheaves := tupd c.sheaves k fun sh => { sh with outs := tmap sh.outs fun _ m => maskClear m th.rank
                                                  rdv := sh.rdv.bind fun r => if (r.2.2.filter (· != t)).isEmpty then none else some (r.1, r.2.1, r.2.2.filter (· != t)) } }
/-- The state after the banks have taken in its copies. -/
def leftState (s : State) (ci t : Nat) (th : Thread) (k : Nat) : State :=
  (settleBanks (getCore s ci) (putCore s ci (leftCore (getCore s ci) t th k)) ci [t] (fun _ => []) 128).1
theorem leaveSheaf_solo {s : State} {ci t : Nat} (h : ∀ th, getThread s ci t = some th → th.sheaf = none) : leaveSheaf s ci t = s := by
  unfold leaveSheaf
  cases hg : getThread s ci t with
  | none =>
    rw [getThread] at hg
    simp only [hg, Option.bind_none]
  | some th =>
    have hs := h th hg
    rw [getThread] at hg
    simp only [hg, Option.bind_some, hs, Option.map_none]
theorem leaveSheaf_eq {s : State} {ci t k : Nat} {th : Thread} (h : getThread s ci t = some th) (hs : th.sheaf = some k) :
    leaveSheaf s ci t = sheafChanged (leftState s ci t th k) ci k := by
  unfold leaveSheaf
  rw [getThread] at h
  simp only [h, Option.bind_some, hs, Option.map_some]
  rfl
theorem leftState_tame {s : State} {ci t k : Nat} {th : Thread} (hok : SpillsOk s ci) (h : getThread s ci t = some th) : Tame ci s (leftState s ci t th k) := by
  have h1 : Tame ci s (putCore s ci (leftCore (getCore s ci) t th k)) := .putThread (th := th) rfl h rfl id
  exact h1.trans (settleBanks_tame (h1.ok hok))
theorem leaveSheaf_tame {s : State} {ci : Nat} (hok : SpillsOk s ci) (t : Nat) : Tame ci s (leaveSheaf s ci t) := by
  by_cases h : ∀ th, getThread s ci t = some th → th.sheaf = none
  · rw [leaveSheaf_solo h]
    exact .refl ..
  · obtain ⟨th, hn⟩ := not_forall.1 h
    rw [Classical.not_imp] at hn
    obtain ⟨k, hk⟩ := Option.ne_none_iff_exists'.1 hn.2
    rw [leaveSheaf_eq hn.1 hk]
    exact (leftState_tame hok hn.1).trans (sheafChanged_tame ..)
theorem Alike.soloRegs (th : Thread) : Alike th (Machine.soloRegs th) :=
  Alike.tmapRegs th (fun _ c => { Machine.ownEntry c with tag := .uniform }) fun _ c => ⟨(CellLike.ownEntry c).val, (CellLike.ownEntry c).prod, (CellLike.ownEntry c).armed, (CellLike.ownEntry c).st⟩
section
variable {s : State} {ci t k : Nat} {th : Thread}

theorem leftCore_kept (hk : Kept 0 s) (h : getThread s ci t = some th) : CoreKept (leftCore (getCore s ci) t th k) := by
  have hr : RegsKept (leftThread (getCore s ci) th k) := tsorted_map (fun e : Nat × RegCell => (e.1, ({ ownEntry e.2 with tag := .uniform } : RegCell))) (fun _ => rfl) _ (hk.thread h)
  exact { (hk.get ci).putThread hr t with sheaves := tsorted_tupd _ _ _ (hk.get ci).sheaves }
theorem leftState_stands (hk : Kept 0 s) (hok : SpillsOk s ci) (h : getThread s ci t = some th) :
    Stands ci t (leftThread (getCore s ci) th k) (leftState s ci t th k) := by
  have hc : CoreKept (leftCore (getCore s ci) t th k) := leftCore_kept hk h
  have h1 : Kept 0 (putCore s ci (leftCore (getCore s ci) t th k)) := hk.putCore hc ci
  have h2 : getThread (putCore s ci (leftCore (getCore s ci) t th k)) ci t
      = some (leftThread (getCore s ci) th k) := by
    rw [getThread, getCore_putCore_self]
    exact tget_tput_self ..
  have hok1 : SpillsOk (putCore s ci (leftCore (getCore s ci) t th k)) ci := hok.of (by rw [getCore_putCore_self]; rfl) rfl
  have h3 : Stands ci t (leftThread (getCore s ci) th k) _ := ⟨h1, _, h2, Alike.refl _⟩
  exact h3.stays h1.settleBanks (settleBanks_stays _ _ _ _ _ _ _ hok1).stays
/-- Whoever has left its sheaf stands alone with its registers' values. -/
theorem leaveSheaf_thread (hk : Kept 0 s) (hok : SpillsOk s ci) (h : getThread s ci t = some th) (hs : th.sheaf = some k) :
    ∃ x, getThread (leaveSheaf s ci t) ci t = some x ∧ Alike (leftThread (getCore s ci) th k) x := by
  rw [leaveSheaf_eq h hs]
  exact ((leftState_stands hk hok h).sheafChanged (nofun : none ≠ some k)).here
theorem sorted_keys_nodup {α : Type} {t : Tbl α} (h : tsorted t = true) : (t.map (·.1)).Nodup := by
  induction t with
  | nil => exact List.nodup_nil
  | cons e t ih =>
    obtain ⟨j, w⟩ := e
    rw [tsorted_cons] at h
    rw [List.map_cons, List.nodup_cons]
    refine ⟨fun hm => ?_, ih h.1⟩
    obtain ⟨x, hx, hxj⟩ := List.mem_map.1 hm
    exact absurd hxj (Nat.ne_of_gt (h.2 x hx))
theorem nodup_eq_singleton {l : List Nat} {a : Nat} (hn : l.Nodup) (ha : a ∈ l) (h : ∀ x ∈ l, x = a) : l = [a] := by
  match l with
  | [] => exact absurd ha List.not_mem_nil
  | [x] => rw [h x (List.mem_singleton_self x)]
  | x :: y :: l =>
    have hxy : x = y := (h x (by simp)).trans (h y (by simp)).symm
    rw [List.nodup_cons] at hn
    exact absurd (hxy ▸ List.mem_cons_self ..) hn.1
/-- The members of other states of the banks: the same slots. -/
theorem members_isEmpty_of {c c' : Core} (hc : CoreKept c) (hc' : CoreKept c')
    (h : ∀ t, (tget c'.threads t).map (·.sheaf) = (tget c.threads t).map (·.sheaf)) (k : Nat) : (members c' k).isEmpty = (members c k).isEmpty := by
  have hone : ∀ {a b : Core}, CoreKept a → CoreKept b → (∀ t, (tget b.threads t).map (·.sheaf) = (tget a.threads t).map (·.sheaf)) →
      members a k = [] → members b k = [] := by
    intro a b ha hb he hn
    rw [List.eq_nil_iff_forall_not_mem]
    rintro ⟨t, x⟩ hm
    have h1 := (mem_members_iff hb).1 hm
    have h2 := he t
    rw [h1.1, Option.map_some] at h2
    obtain ⟨y, hy, hys⟩ := Option.map_eq_some_iff.1 h2.symm
    have h3 : (t, y) ∈ members a k := (mem_members_iff ha).2 ⟨hy, hys.trans h1.2⟩
    rw [hn] at h3
    exact List.not_mem_nil h3
  rw [Bool.eq_iff_iff, List.isEmpty_iff, List.isEmpty_iff]
  exact ⟨hone hc' hc fun t => (h t).symm, hone hc hc' h⟩
/-- After a thread has left, its sheaf has a member exactly if another one was there. -/
theorem leftState_members (hk : Kept 0 s) (hok : SpillsOk s ci) (h : getThread s ci t = some th) (hs : th.sheaf = some k) :
    (members (getCore (leftState s ci t th k) ci) k).isEmpty = true ↔ (members (getCore s ci) k).map (·.1) = [t] := by
  have hc : CoreKept (leftCore (getCore s ci) t th k) := leftCore_kept hk h
  have hok1 : SpillsOk (putCore s ci (leftCore (getCore s ci) t th k)) ci := hok.of (by rw [getCore_putCore_self]; rfl) rfl
  have hsame : ∀ u, (tget (getCore (leftState s ci t th k) ci).threads u).map (·.sheaf) = (tget (leftCore (getCore s ci) t th k).threads u).map (·.sheaf) := by
    intro u
    cases hu : tget (leftCore (getCore s ci) t th k).threads u with
    | none =>
      have hg : getThread (putCore s ci (leftCore (getCore s ci) t th k)) ci u = none := by rw [getThread, getCore_putCore_self, hu]
      have := (settleBanks_views causeOf_blind (old := getCore s ci) (tids := [t]) (keep := fun _ => []) (n := 128) hok1).gone hg
      rw [show tget (getCore (leftState s ci t th k) ci).threads u = none from this]
    | some a =>
      obtain ⟨b, hb, hal⟩ := (settleBanks_stays (getCore s ci) _ ci [t] (fun _ => []) 128 u hok1).stays.out a (by rw [getCore_putCore_self]; exact hu)
      rw [show tget (getCore (leftState s ci t th k) ci).threads u = some b from hb]
      exact congrArg some hal.sheaf
  have hkl := ((leftState_stands (k := k) hk hok h).kept).get ci
  rw [members_isEmpty_of hc hkl hsame, List.isEmpty_iff]
  have hmem : ∀ u x, (u, x) ∈ members (leftCore (getCore s ci) t th k) k ↔ u ≠ t ∧ (u, x) ∈ members (getCore s ci) k := by
    intro u x
    rw [mem_members_iff hc, mem_members_iff (hk.get ci), show (leftCore (getCore s ci) t th k).threads
      = tput (getCore s ci).threads t (leftThread (getCore s ci) th k) from rfl, tget_tput]
    split
    · next e =>
      constructor
      · rintro ⟨he, hx⟩
        rw [← Option.some.inj he] at hx
        exact absurd hx (nofun : none ≠ some k)
      · rintro ⟨hn, -⟩
        exact absurd e hn
    · next e => exact ⟨fun hx => ⟨e, hx⟩, fun hx => hx.2⟩
  have ht : (t, th) ∈ members (getCore s ci) k := (mem_members_iff (hk.get ci)).2 ⟨h, hs⟩
  constructor
  · intro hn
    have hall : ∀ u ∈ (members (getCore s ci) k).map (·.1), u = t := by
      intro u hu
      obtain ⟨e, he, rfl⟩ := List.mem_map.1 hu
      by_contra hne
      have := (hmem e.1 e.2).2 ⟨hne, he⟩
      rw [hn] at this
      exact List.not_mem_nil this
    have hnd : ((members (getCore s ci) k).map (·.1)).Nodup := sorted_keys_nodup (tsorted_filter _ _ (hk.get ci).threads)
    exact nodup_eq_singleton hnd (List.mem_map_of_mem (f := (·.1)) ht) hall
  · intro he
    rw [List.eq_nil_iff_forall_not_mem]
    rintro ⟨u, x⟩ hm
    have h1 := (hmem u x).1 hm
    have h2 : u ∈ (members (getCore s ci) k).map (·.1) := List.mem_map_of_mem (f := (·.1)) h1.2
    rw [he] at h2
    exact h1.1 (List.mem_singleton.1 h2)
theorem leaveSheaf_hasSheaf (hk : Kept 0 s) (hok : SpillsOk s ci) (h : getThread s ci t = some th) (hs : th.sheaf = some k) (hsh : hasSheaf s ci k = true) :
    hasSheaf (leaveSheaf s ci t) ci k = false ↔ (members (getCore s ci) k).map (·.1) = [t] := by
  have hl : hasSheaf (leftState s ci t th k) ci k = true := by
    obtain ⟨b, hb⟩ := Option.isSome_iff_exists.1 hok.store
    have hset := (settleBanks_settles (getCore s ci) (putCore s ci (leftCore (getCore s ci) t th k)) ci b [t] (fun _ => []) 128
      (by rw [getCore_putCore_self]; exact hb) hok.good).core
    unfold hasSheaf leftState
    rw [hset, getCore_putCore_self]
    exact (isSome_tupd ..).trans hsh
  rw [leaveSheaf_eq h hs, sheafChanged_hasSheaf, hl, Bool.true_and, Bool.not_eq_false']
  exact leftState_members hk hok h hs
end
end Sys2Proof.Machine

/-! ### The end of a thread (R11, R247) -/
namespace Sys2Proof.Machine
open Sys2Proof

section
variable {s : State} {ci t : Nat} {th : Thread}

theorem leaveWait_tame {w : Wait} : Tame ci s (leaveWait s ci t th w) := by
  unfold leaveWait
  split
  · exact .updThread fun _ h => h
  · split
    · exact .refl ..
    · exact .updCore (f := fun c => { c with sheaves := _ }) rfl rfl
  · exact .updCore (f := fun c => { c with bins := _ }) rfl rfl
  · split
    · exact .refl ..
    · refine .updCore ?_ ?_ <;> split <;> rfl
  · exact .same ⟨rfl, rfl⟩ rfl rfl rfl
  · exact .updCore (f := fun c => { c with mops := _ }) rfl rfl
  · exact .updCore (f := fun c => { c with tops := _, tblLoads := _ }) rfl rfl
  · exact .refl ..
/-- The state after an ending thread has left what it waits on. -/
def waitLeft (s : State) (ci t : Nat) (th : Thread) : State :=
  match th.st with
  | .waiting w => leaveKilled s ci t th w
  | _ => s
theorem waitLeft_tame : Tame ci s (waitLeft s ci t th) := by
  unfold waitLeft
  split
  · unfold leaveKilled
    split
    · exact .refl ..
    · exact .refl ..
    · exact leaveWait_tame
  · exact .refl ..
/-- The state after deposits for its registers have been dropped (R59). -/
def depositsLeft (s : State) (ci : Nat) (th : Thread) : State :=
  match th.sheaf with
  | some k => dropDeposits s ci fun d => d.sheaf == k && !d.all && d.rank == th.rank
  | none => s
theorem depositsLeft_tame : Tame ci s (depositsLeft s ci th) := by
  unfold depositsLeft
  split
  · exact dropDeposits_tame ..
  · exact .refl ..
/-- The core without a thread: no operation still names it (R11, R247). -/
def endedCore (ci t : Nat) (c : Core) : Core := { c with
  threads := tdel c.threads t
  gathers := c.gathers.map fun g => { g with tids := g.tids.filter (· != t) }
  mops := c.mops.map fun m => { m with tids := m.tids.filter (· != t), reads := m.reads.map fun u => if u = some t then none else u }
  joins := c.joins.map fun m => { m with tids := m.tids.filter (· != t) }
  tops := c.tops.map fun m => { m with tids := m.tids.filter (· != t), shares := m.shares.filter fun e => m.kind != 4 || e.1 != t }
  tblLoads := c.tblLoads.map fun m => { m with tids := m.tids.filter (· != t) }
  fifo := c.fifo.map fun d => { d with tids := d.tids.filter (· != ci * Config.threadSlots + t) } }
/-- The state without a thread, whose requests go to no slot (R247). -/
def endedState (s : State) (ci t : Nat) : State :=
  let s := updCore s ci (endedCore ci t)
  { s with reqs := tmap s.reqs fun _ r => orphanReq ci t r }
theorem endedState_tame : Tame ci s (endedState s ci t) := by
  have h1 : Tame ci s (updCore s ci (endedCore ci t)) := by
    refine .putCore (c := endedCore ci t (getCore s ci)) rfl fun u b hb => ⟨b, ?_, id⟩
    by_cases hu : u = t
    · rw [hu] at hb
      exact absurd hb (by simp [endedCore])
    · rwa [show (endedCore ci t (getCore s ci)).threads = tdel (getCore s ci).threads t from rfl, tget_tdel_ne _ _ _ hu] at hb
  exact h1.trans (.same ⟨rfl, rfl⟩ rfl rfl rfl)
theorem endedState_gone : getThread (endedState s ci t) ci t = none := by
  have h : getCore (endedState s ci t) ci = endedCore ci t (getCore s ci) := getCore_putCore_self ..
  rw [getThread, h]
  exact tget_tdel_self ..
theorem returnFrag_tame : Tame ci s (returnFrag s ci th) := by
  unfold returnFrag
  split
  · exact .refl ..
  · split
    · exact .refl ..
    · exact .ite (.updCore (f := fun c => { c with frags := _ }) rfl rfl) (.refl ..)
/-- A thread that is not stepped ends so. -/
theorem endThread_eq (h : getThread s ci t = some th) (hs : th.stepping = none) :
    endThread s ci t = returnFrag (endedState (leaveSheaf (depositsLeft (waitLeft s ci t th) ci th) ci t) ci t) ci th := by
  unfold endThread
  rw [h]
  dsimp only
  unfold endStep
  rw [hs]
  rfl
theorem endThread_tame (hok : SpillsOk s ci) (h : getThread s ci t = some th) (hs : th.stepping = none) : Tame ci s (endThread s ci t) := by
  have h1 : Tame ci s (depositsLeft (waitLeft s ci t th) ci th) := waitLeft_tame.trans depositsLeft_tame
  rw [endThread_eq h hs]
  exact ((h1.trans (leaveSheaf_tame (h1.ok hok) t)).trans endedState_tame).trans returnFrag_tame
theorem endThread_gone (h : getThread s ci t = some th) (hs : th.stepping = none) : getThread (endThread s ci t) ci t = none := by
  rw [endThread_eq h hs]
  exact returnFrag_tame.gone endedState_gone
end

/-! ### exit and leave -/

theorem exit_gone {px : Option Px} {s : State} {t : Nat} {th : Thread} (h : Alone (.exit px) s t th) :
    Sound (.exit px) (fun s t _ => (endThread s s.cur.core t, { gone := true })) s (endThread s s.cur.core t) [(t, { gone := true })] := by
  obtain ⟨th0, h0, -, -, hst⟩ := h.thread
  exact h.toSound (part := fun s t _ => (endThread s s.cur.core t, { gone := true })) (endThread_tame h.calm.spills h0 hst) rfl
/-- A ready or arrived thread without a sheaf that serves no fragment ends alone. -/
theorem endThread_solo {s : State} {ci t : Nat} {th : Thread} (h : getThread s ci t = some th) (hs : th.stepping = none) (hsh : th.sheaf = none)
    (hse : th.serves = none) (hst : th.st = .ready ∨ th.st = .waiting .rendezvous) : endThread s ci t = endedState s ci t := by
  have hw : waitLeft s ci t th = s := by
    unfold waitLeft
    rcases hst with hst | hst <;> rw [hst]
    dsimp only [leaveKilled, leaveWait]
    rw [hsh]
  have hd : depositsLeft s ci th = s := by
    unfold depositsLeft
    rw [hsh]
  rw [endThread_eq h hs, hw, hd, leaveSheaf_solo fun x hx => by rw [← Option.some.inj (h.symm.trans hx), hsh]]
  unfold returnFrag
  rw [hse]
theorem qualifies_st {i : Instr} {b : Bool} {th : Thread} (h : qualifies i b th = true) : th.st = .ready ∨ th.st = .waiting .rendezvous := by
  unfold qualifies at h
  simp only [Bool.and_eq_true, Bool.or_eq_true, beq_iff_eq] at h
  exact h.1.1.imp id And.right
theorem undefReads_sheaf (s : State) (t : Nat) (th : Thread) : (undefReads s t th).sheaf = th.sheaf ∧ (undefReads s t th).serves = th.serves := by
  obtain ⟨r, q, h⟩ := undefReads_eq s t th
  rw [h]
  exact ⟨rfl, rfl⟩
theorem exits {px : Option Px} {s : State} {t : Nat} {th : Thread} (h : Alone (.exit px) s t th) :
    ∃ s', exec (.exit px) s = .next s' ∧ getThread s' s.cur.core t = none ∧
      (th.sheaf = none → th.serves = none → RestOf (.exit px) (endedState s s.cur.core t) s') := by
  obtain ⟨th0, h0, hq, hu, hst⟩ := h.thread
  have hs := exit_gone h
  refine ⟨_, rfl, hs.causes.gone (endThread_gone h0 hst), fun h1 h2 => ?_⟩
  rw [hu, (undefReads_sheaf s t th0).1] at h1
  rw [hu, (undefReads_sheaf s t th0).2] at h2
  have he := endThread_solo h0 hst h1 h2 (qualifies_st hq)
  rw [he] at hs
  refine hs.rest (Alone.fxIn (.nothing rfl rfl)) fun u hud hus => drill_mem_of_same hs.cur hud ?_
  have hc : getCore (endedState s s.cur.core t) s.cur.core = endedCore s.cur.core t (getCore s s.cur.core) := getCore_putCore_self ..
  have hne : u ≠ t := by
    rintro rfl
    rw [endedState_gone] at hus
    exact Bool.false_ne_true hus
  rw [getThread, hc]
  exact tget_tdel_ne _ _ _ hne
/-- What `leave` does for one thread (R250). -/
def leavePart : Part := fun s t _ => (leaveSheaf s s.cur.core t, {})
theorem leaves_solo {px : Option Px} {s : State} {t : Nat} {th : Thread} (h : Alone (.leave px) s t th) (hsh : th.sheaf = none) :
    Finishes (.leave px) s s t {} (after s) := by
  obtain ⟨th0, h0, hq, hu, hst⟩ := h.thread
  rw [hu, (undefReads_sheaf s t th0).1] at hsh
  have he : leaveSheaf s s.cur.core t = s := leaveSheaf_solo fun x hx => by rw [← Option.some.inj (h0.symm.trans hx), hsh]
  have hpart : leavePart s t th = (s, {}) := by
    unfold leavePart
    rw [he]
  have ht : Tame s.cur.core s (leavePart s t th).1 := by
    rw [hpart]
    exact .refl ..
  have hs := h.toSound (part := leavePart) ht rfl
  rw [hpart] at hs
  obtain ⟨new, hn, hmv⟩ := h.moves (lat := latInt) (part := leavePart) ht ⟨rfl, rfl, rfl, rfl⟩ ⟨rfl, List.nodup_nil, List.nodup_nil⟩ (by rw [hpart]; exact h0)
  refine ⟨_, rfl, hs.rest (Alone.fxIn (.nothing rfl rfl)) fun u hud _ => hud, th0, new, h0, hn, ?_⟩
  change Moved _ { sr := readFlag (.leave px) s th0 } _ _ _
  rw [readFlag_nil rfl] at hmv ⊢
  exact hmv
theorem leaves_sheaf {px : Option Px} {s : State} {t k : Nat} {th : Thread} (hk : Kept 0 s) (h : Alone (.leave px) s t th) (hsh : th.sheaf = some k)
    (hs : (tget (getCore s s.cur.core).sheaves k).isSome = true) :
    ∃ s' old new, exec (.leave px) s = .next s' ∧ getThread s s.cur.core t = some old ∧ getThread s' s.cur.core t = some new ∧
      new.sheaf = none ∧ new.pc = after s ∧ new.st = .ready ∧ (∀ r, (tget new.regs r).map (·.val) = (tget old.regs r).map (·.val)) ∧
      new.preds = old.preds ∧ ((tget (getCore s' s.cur.core).sheaves k).isNone = true ↔ (members (getCore s s.cur.core) k).map (·.1) = [t]) := by
  obtain ⟨th0, h0, hq, hu, hst⟩ := h.thread
  rw [hu, (undefReads_sheaf s t th0).1] at hsh
  obtain ⟨x, hx, hal⟩ := leaveSheaf_thread hk h.calm.spills h0 hsh
  have ht : Tame s.cur.core s (leavePart s t th).1 := leaveSheaf_tame h.calm.spills t
  have hsd := h.toSound (part := leavePart) ht rfl
  obtain ⟨new, hn, hmv⟩ := h.moves (lat := latInt) (part := leavePart) ht ⟨rfl, rfl, rfl, rfl⟩ ⟨rfl, List.nodup_nil, List.nodup_nil⟩ hx
  obtain ⟨b, hb⟩ := Option.isSome_iff_exists.1 hsd.spills.store
  have hcore := (hsd.frame (lat := latInt) (Alone.fxIn (.nothing rfl rfl)) hb).core
  rw [ht.cur] at hcore
  have hval : ∀ r, (tget x.regs r).map (·.val) = (tget th0.regs r).map (·.val) := fun r => (hal.val r).trans ((Alike.soloRegs th0).val r)
  refine ⟨runDrill (.leave px) latInt leavePart s, th0, new, rfl, h0, hn, ?_, hmv.pc, hmv.ready, fun r => ?_, ?_, ?_⟩
  · rw [hmv.got.place.2.1, hal.sheaf]
    rfl
  · exact (hmv.got.kept r List.not_mem_nil List.not_mem_nil).trans (hval r)
  · have hp : x.preds = th0.preds := hal.preds
    rw [← hp]
    refine BitVec.eq_of_getLsbD_eq fun p hp8 => ?_
    rcases Nat.eq_zero_or_pos p with rfl | hp0
    · exact hmv.got.p0
    · exact hmv.got.preds p hp0 hp8
  · rw [← leaveSheaf_hasSheaf hk h.calm.spills h0 hsh hs, hcore, ← Option.not_isSome, Bool.not_eq_true']
    rfl
end Sys2Proof.Machine

section
open Sys2Proof Sys2Proof.Machine

/-- Settles O34: what a change of membership leaves of a core, then the commit of the drill's one active thread. -/
theorem exitsAndLeaves : Obligations.ExitsAndLeaves := by
  unfold Obligations.ExitsAndLeaves
  refine ⟨fun px s t th _ h => exits h, fun px s t th hw h => ⟨leaves_solo h, fun k hk hs => leaves_sheaf ((kept_iff s).2 hw) h hk hs⟩⟩

end

/-! ### Threads that wait, and their waking (R11, R18) -/
namespace Sys2Proof.Machine
open Sys2Proof

/-! ### Waiting in a drill -/

section
variable {i : Instr} {lat : Lat} {s : State} {t : Nat} {th th1 : Thread} {part : Part} {w : Wait}

/-- A drill of one thread whose part waits and writes nothing: the thread waits at its instruction. -/
theorem Alone.waits (h : Alone i s t th) (ht : Tame s.cur.core s (part s t th).1) (hp : (part s t th).2 = { wait := some w })
    (h1 : getThread (part s t th).1 s.cur.core t = some th1) :
    ∃ new, getThread (runDrill i lat part s) s.cur.core t = some new ∧ Alike (startWait i (part s t th).1 w (orFlags th1 (readFlag i (part s t th).1 th1))) new := by
  have hsd := h.toSound ht (by rw [hp])
  obtain ⟨new, hn, hal⟩ := hsd.thread (lat := lat) h.drill h1
  rw [commitThread_waits (w := w) (by rw [hp]; exact ⟨rfl, rfl, rfl, rfl⟩), hp] at hal
  exact ⟨new, hn, hal⟩
theorem Alone.waitsFor (h : Alone i s t th) (ht : Tame s.cur.core s (part s t th).1) (hp : (part s t th).2 = { wait := some w })
    (h1 : getThread (part s t th).1 s.cur.core t = some th1) : WaitsFor i w (part s t th).1 (runDrill i lat part s) t := by
  obtain ⟨new, hn, hal⟩ := h.waits (lat := lat) ht hp h1
  rw [← ht.cur] at h1 hn
  exact ⟨th1, new, h1, hn, hal.st, hal.pc, hal.nextPc, hal.lastUse, hal.val, hal.preds, hal.plot, hal.sheaf⟩
end

/-! ### Waking leaves the rest -/

theorem fragPending_core (s : State) (ci e : Nat) : ∃ p f, getCore (fragPending s ci e) ci = { getCore s ci with plots := p, frags := f } := by
  unfold fragPending
  extract_lets c
  split
  · exact ⟨_, _, rfl⟩
  · extract_lets s1
    have h1 : getCore s1 ci = { c with frags := _ } := getCore_putCore_self ..
    split
    · obtain ⟨p, hp⟩ := freezePlot_core s1 ci _ _
      rw [hp, h1]
      exact ⟨_, _, rfl⟩
    · exact ⟨_, _, h1⟩
/-- The end of a step touches the thread and the fragments and plots of its core. -/
theorem stepDone_core (s : State) (ci u : Nat) : ∃ x p f, getCore (stepDone s ci u) ci = { getCore s ci with threads := x, plots := p, frags := f } ∧
    ∀ t, t ≠ u → tget x t = tget (getCore s ci).threads t := by
  unfold stepDone
  extract_lets c
  split
  · exact ⟨_, _, _, rfl, fun _ _ => rfl⟩
  · split
    · exact ⟨_, _, _, rfl, fun _ _ => rfl⟩
    · split
      · exact ⟨_, _, _, rfl, fun _ _ => rfl⟩
      · extract_lets db left d1 f1 th2 s2
        have h2 : getCore s2 ci = { c with threads := tput c.threads u th2, frags := _ } := getCore_putCore_self ..
        split
        · obtain ⟨p, f, hp⟩ := fragPending_core s2 ci _
          rw [h2] at hp
          exact ⟨_, _, _, hp, fun t ht => tget_tput_ne _ _ _ _ ht⟩
        · exact ⟨_, _, _, h2, fun t ht => tget_tput_ne _ _ _ _ ht⟩
theorem wakeThread_core (s : State) (ci u n : Nat) : ∃ x p f, getCore (wakeThread s ci u n) ci = { getCore s ci with threads := x, plots := p, frags := f } ∧
    ∀ t, t ≠ u → tget x t = tget (getCore s ci).threads t := by
  cases h : getThread s ci u with
  | none =>
    rw [wakeThread_none h]
    exact ⟨_, _, _, rfl, fun _ _ => rfl⟩
  | some th =>
    rw [wakeThread_eq h]
    obtain ⟨x, p, f, hc, hx⟩ := stepDone_core (putCore s ci { getCore s ci with threads := tput (getCore s ci).threads u (woken (getCore s ci) n th) }) ci u
    rw [getCore_putCore_self] at hc hx
    exact ⟨x, p, f, hc, fun t ht => (hx t ht).trans (tget_tput_ne _ _ _ _ ht)⟩
theorem wakeThread_other {s : State} {ci t u n : Nat} (h : t ≠ u) : getThread (wakeThread s ci u n) ci t = getThread s ci t := by
  obtain ⟨x, p, f, hc, hx⟩ := wakeThread_core s ci u n
  rw [getThread, hc]
  exact hx t h
theorem wakeThread_sheaves (s : State) (ci u n : Nat) : (getCore (wakeThread s ci u n) ci).sheaves = (getCore s ci).sheaves ∧
    (getCore (wakeThread s ci u n) ci).bins = (getCore s ci).bins ∧ (getCore (wakeThread s ci u n) ci).cyc = (getCore s ci).cyc := by
  obtain ⟨x, p, f, hc, -⟩ := wakeThread_core s ci u n
  rw [hc]
  exact ⟨rfl, rfl, rfl⟩
/-- A thread that is not stepped wakes. -/
theorem wakeThread_self {s : State} {ci u n : Nat} {th : Thread} (h : getThread s ci u = some th) (hs : th.stepping = none) :
    getThread (wakeThread s ci u n) ci u = some (woken (getCore s ci) n th) := by
  rw [wakeThread_eq h]
  have h1 : getThread (putCore s ci { getCore s ci with threads := tput (getCore s ci).threads u (woken (getCore s ci) n th) }) ci u
      = some (woken (getCore s ci) n th) := by
    rw [getThread, getCore_putCore_self]
    exact tget_tput_self ..
  have h2 : (woken (getCore s ci) n th).stepping = none := hs
  unfold stepDone
  rw [getThread] at h1
  simp only [h1, h2]
  exact h1
theorem woken_val {c : Core} {n : Nat} {th : Thread} (r : Nat) : tget (woken c n th).regs r = if th.lastUse.contains r then none else tget th.regs r := by
  have h := tget_filter th.regs (fun k => !th.lastUse.contains k) r
  refine Eq.trans (b := tget (th.regs.filter fun e => !th.lastUse.contains e.1) r) rfl (h.trans ?_)
  cases th.lastUse.contains r <;> rfl
/-- A woken thread of which only places and tags of registers have changed stands as released. -/
theorem wakesUp_of {s s' : State} {ci t n : Nat} {c : Core} {old mid new : Thread} (ho : getThread s ci t = some old) (hu : Untouched old mid)
    (hn : getThread s' ci t = some new) (ha : Alike (woken c n mid) new) : WakesUp s s' ci t := by
  have hrest : ∀ {α : Type} (g : Thread → α), (∀ x : Thread, g { x with regs := [] } = g x) → g mid = g old := fun g hg => by
    rw [← hg mid, hu.rest, hg old]
  have hl : mid.lastUse = old.lastUse := hrest Thread.lastUse fun _ => rfl
  refine ⟨old, new, ho, hn, ha.st.trans rfl, ha.pc.trans (hrest Thread.nextPc fun _ => rfl), fun r hr => ?_, fun r hr => ?_, ha.preds.trans (hrest Thread.preds fun _ => rfl)⟩
  · have h1 := ha.isSome r
    rw [woken_val, hl, if_pos (List.contains_iff_mem.2 hr)] at h1
    exact Option.not_isSome_iff_eq_none.1 (by rw [h1]; decide)
  · have h1 := ha.val r
    rw [woken_val, hl, if_neg (by simpa using hr)] at h1
    exact h1.trans (hu.regs r)
theorem Untouched.refl (th : Thread) : Untouched th th := ⟨fun _ => rfl, rfl⟩

/-- Waking those of a list that a test picks. -/
def wakeSome (p : Nat × Thread → Bool) (ci n : Nat) (l : List (Nat × Thread)) (s : State) : State :=
  l.foldl (fun s m => if p m then wakeThread s ci m.1 n else s) s
section
variable {p : Nat × Thread → Bool} {ci n : Nat}

theorem wakeSome_other {l : List (Nat × Thread)} {s : State} {t : Nat} (h : ∀ m ∈ l, p m = true → m.1 ≠ t) :
    getThread (wakeSome p ci n l s) ci t = getThread s ci t := by
  induction l generalizing s with
  | nil => rfl
  | cons m l ih =>
    refine (ih fun x hx => h x (List.mem_cons_of_mem _ hx)).trans ?_
    dsimp only
    split
    · next hp => exact wakeThread_other (Ne.symm (h m (List.mem_cons_self ..) hp))
    · rfl
theorem wakeSome_self {l : List (Nat × Thread)} (hl : (l.map (·.1)).Nodup) {s : State} {m : Nat × Thread} (hm : m ∈ l) (hp : p m = true)
    {th : Thread} (h : getThread s ci m.1 = some th) (hs : th.stepping = none) :
    ∃ c, getThread (wakeSome p ci n l s) ci m.1 = some (woken c n th) := by
  induction l generalizing s with
  | nil => exact absurd hm List.not_mem_nil
  | cons x l ih =>
    rw [List.map_cons, List.nodup_cons] at hl
    rcases List.mem_cons.1 hm with rfl | hm
    · have hout : ∀ y ∈ l, p y = true → y.1 ≠ m.1 := fun y hy _ he => hl.1 (he ▸ List.mem_map_of_mem (f := (·.1)) hy)
      refine ⟨getCore s ci, (wakeSome_other hout).trans ?_⟩
      dsimp only
      rw [if_pos hp]
      exact wakeThread_self h hs
    · have hne : m.1 ≠ x.1 := fun he => hl.1 (he ▸ List.mem_map_of_mem (f := (·.1)) hm)
      refine ih hl.2 hm ?_
      dsimp only
      split
      · exact (wakeThread_other hne).trans h
      · exact h
theorem wakeSome_sheaves (l : List (Nat × Thread)) (s : State) : (getCore (wakeSome p ci n l s) ci).sheaves = (getCore s ci).sheaves := by
  induction l generalizing s with
  | nil => rfl
  | cons x l ih =>
    refine (ih _).trans ?_
    dsimp only
    split
    · exact (wakeThread_sheaves ..).1
    · rfl
end

/-! ### Holds -/

/-- The state in which the holds of an address are over. -/
def holdEnded (s : State) (ci k : Nat) (pc : DWord) : State :=
  updCore s ci fun c => { c with sheaves := tupd c.sheaves k fun sh => { sh with fuses := sh.fuses.filter fun f => f.1 != pc } }
theorem releaseFuse_eq (s : State) (ci k : Nat) (pc : DWord) :
    releaseFuse s ci k pc = wakeSome (fun m => decide (m.2.st = .waiting (.fuse pc))) ci 1 (members (getCore (holdEnded s ci k pc) ci) k) (holdEnded s ci k pc) := by
  unfold releaseFuse wakeSome holdEnded
  simp only [decide_eq_true_eq]
theorem holdEnded_threads (s : State) (ci k : Nat) (pc : DWord) : (getCore (holdEnded s ci k pc) ci).threads = (getCore s ci).threads := by
  unfold holdEnded
  rw [updCore_eq, getCore_putCore_self]
theorem holdEnded_members (s : State) (ci k : Nat) (pc : DWord) (j : Nat) : members (getCore (holdEnded s ci k pc) ci) j = members (getCore s ci) j := by
  unfold members
  rw [holdEnded_threads]
theorem holdEnded_thread (s : State) (ci k : Nat) (pc : DWord) (t : Nat) : getThread (holdEnded s ci k pc) ci t = getThread s ci t := by
  rw [getThread, holdEnded_threads]
  rfl
/-- Each holder that is not stepped goes on. -/
theorem releaseFuse_wakes {s : State} {ci k : Nat} {pc : DWord} (hk : Kept 0 s) {t : Nat} {th : Thread} (h : getThread s ci t = some th) (hs : th.sheaf = some k)
    (hst : th.st = .waiting (.fuse pc)) (hstep : th.stepping = none) : ∃ c, getThread (releaseFuse s ci k pc) ci t = some (woken c 1 th) := by
  rw [releaseFuse_eq, holdEnded_members]
  refine wakeSome_self (m := (t, th)) (sorted_keys_nodup (tsorted_filter _ _ (hk.get ci).threads)) ((mem_members_iff (hk.get ci)).2 ⟨h, hs⟩) ?_
    ((holdEnded_thread ..).trans h) hstep
  exact decide_eq_true hst
theorem releaseFuse_over (s : State) (ci k : Nat) (pc : DWord) {sh : Sheaf} (h : tget (getCore (releaseFuse s ci k pc) ci).sheaves k = some sh) :
    ∀ g ∈ sh.fuses, g.1 ≠ pc := by
  have hc : getCore (holdEnded s ci k pc) ci = { getCore s ci with sheaves := tupd (getCore s ci).sheaves k fun sh => { sh with fuses := sh.fuses.filter fun f => f.1 != pc } } :=
    getCore_putCore_self ..
  rw [releaseFuse_eq, wakeSome_sheaves, hc] at h
  have h1 : (tget (getCore s ci).sheaves k).map (fun sh => { sh with fuses := sh.fuses.filter fun f => f.1 != pc }) = some sh := (tget_tupd_self ..).symm.trans h
  obtain ⟨sh0, -, rfl⟩ := Option.map_eq_some_iff.1 h1
  intro g hg
  have h2 := (List.mem_filter.1 hg).2
  simpa using h2
/-- While a member neither is parked nor holds, no hold of the sheaf ends. -/
theorem checkFuses_idle {s : State} {ci k : Nat} {m : Nat × Thread} (hm : m ∈ members (getCore s ci) k) (h : ∀ x, m.2.st ≠ .parked x) (hf : ∀ pc, m.2.st ≠ .waiting (.fuse pc)) :
    checkFuses s ci k = s := by
  unfold checkFuses
  extract_lets c sh mem
  have hmem : m ∈ mem := by
    refine List.mem_filter.2 ⟨hm, ?_⟩
    split
    · next e he => exact absurd he (h e)
    · rfl
  have hno : ∀ f : DWord × Nat × Nat, (mem.all fun m => m.2.st == .waiting (.fuse f.1)) = false := fun f => by
    rw [List.all_eq_false]
    exact ⟨m, hmem, by simpa using hf f.1⟩
  have hall : ∀ l : List (DWord × Nat × Nat), l.foldl (fun s f => if (!mem.isEmpty && mem.all fun m => m.2.st == .waiting (.fuse f.1)) = true then releaseFuse s ci k f.1 else s) s = s := by
    intro l
    induction l with
    | nil => rfl
    | cons f l ih => rw [List.foldl_cons, hno f, Bool.and_false, if_neg Bool.false_ne_true, ih]
  exact hall _
/-- When every member that is not parked holds at the only address of the sheaf's holds, the hold ends. -/
theorem checkFuses_ends {s : State} {ci k : Nat} {pc : DWord} {n : Nat × Nat} (hf : (tgetD (getCore s ci).sheaves k {}).fuses = [(pc, n)]) {t : Nat} {th : Thread}
    (ht : (t, th) ∈ members (getCore s ci) k) (hall : ∀ m ∈ members (getCore s ci) k, m.2.st = .waiting (.fuse pc)) : checkFuses s ci k = releaseFuse s ci k pc := by
  unfold checkFuses
  extract_lets c sh mem
  have hmem : (t, th) ∈ mem := by
    refine List.mem_filter.2 ⟨ht, ?_⟩
    rw [hall _ ht]
  have h1 : (!mem.isEmpty && mem.all fun m => m.2.st == .waiting (.fuse pc)) = true := by
    rw [Bool.and_eq_true, Bool.not_eq_true', ← Bool.not_eq_true, List.isEmpty_iff, List.all_eq_true]
    exact ⟨List.ne_nil_of_mem hmem, fun m hm => by simpa using hall m (List.mem_of_mem_filter hm)⟩
  rw [show sh.fuses = [(pc, n)] from hf, List.foldl_cons, List.foldl_nil, if_pos h1]
end Sys2Proof.Machine

/-! ### fuse and yield (R18, R33, R252) -/
namespace Sys2Proof.Machine
open Sys2Proof

theorem undefReads_id {s : State} {t : Nat} {th : Thread} : (undefReads s t th).plot = th.plot ∧ (undefReads s t th).role = th.role := by
  obtain ⟨r, q, h⟩ := undefReads_eq s t th
  rw [h]
  exact ⟨rfl, rfl⟩
/-- Every thread of a drill without a mask is active. -/
theorem active_of_bare {i : Instr} {s : State} (h : ∀ th, actOn i th = true) : activeThreads i s = drillThreads i s :=
  List.filter_eq_self.2 fun e _ => h e.2
/-- The holds of a sheaf with one more, or as they were. -/
theorem tupd_eq_tput {α : Type} {t : Tbl α} {k : Nat} {v : α} {f : α → α} (h : tget t k = some v) : tupd t k f = tput t k (f v) := by
  unfold tupd
  rw [h]
theorem tput_self {α : Type} {t : Tbl α} {k : Nat} {v : α} (h : tget t k = some v) (hs : tsorted t = true) : tput t k v = t := by
  induction t with
  | nil => exact absurd h (by simp)
  | cons e t ih =>
    obtain ⟨j, w⟩ := e
    rw [tsorted_cons] at hs
    by_cases hj : j = k
    · subst hj
      simp only [tget, if_true, Option.some.injEq] at h
      simp [tput, h]
    · simp only [tget, if_neg hj] at h
      have hlt : j < k := hs.2 _ (tget_mem _ _ _ h)
      simp [tput, hj, Nat.not_lt.2 (Nat.le_of_lt hlt), ih h hs.1]

section
variable {n : BitVec 16} {s : State} {t : Nat} {th : Thread}

theorem execFuse_eq (h : Alone (.fuse n) s t th) : exec (.fuse n) s
    = .next ((th.sheaf.toList).foldl (fun s k => checkFuses s s.cur.core k) (runDrill (.fuse n) latInt (fusePart n.toNat) s)) := by
  have hd : drillThreads (.fuse n) s = [(t, th)] := (active_of_bare fun _ => rfl).symm.trans h.act
  show execFuse n s = _
  unfold execFuse
  rw [hd]
  cases hs : th.sheaf <;> simp [hs, List.eraseDups_cons]
theorem fuse_solo (h : Alone (.fuse n) s t th) (hs : th.sheaf = none) : Finishes (.fuse n) s s t {} (after s) := by
  have hp : fusePart n.toNat s t th = (s, {}) := by
    unfold fusePart
    rw [hs]
  have ht : Tame s.cur.core s (fusePart n.toNat s t th).1 := by
    rw [hp]
    exact .refl ..
  have hsd := h.toSound (part := fusePart n.toNat) ht (by rw [hp])
  obtain ⟨th0, h0, -⟩ := h.thread
  obtain ⟨new, hn, hmv⟩ := h.moves (lat := latInt) ht (by rw [hp]; exact ⟨rfl, rfl, rfl, rfl⟩) (by rw [hp]; exact ⟨rfl, List.nodup_nil, List.nodup_nil⟩) (by rw [hp]; exact h0)
  rw [hp] at hsd hmv
  have he := execFuse_eq h
  rw [hs] at he
  refine ⟨_, he, hsd.rest (Alone.fxIn (.nothing rfl rfl)) fun u hu _ => hu, th0, new, h0, hn, ?_⟩
  change Moved _ { sr := readFlag (.fuse n) s th0 } _ _ _
  rw [readFlag_nil rfl] at hmv ⊢
  exact hmv
/-- The state in which the holds of a sheaf count this arrival (R18). -/
def holdBegun (s : State) (k n : Nat) : State :=
  updCore s s.cur.core fun c => { c with sheaves := tupd c.sheaves k (startHold s.cur.pc c.cyc n) }
theorem fusePart_sheaf {k : Nat} (hs : th.sheaf = some k) (hn : n ≠ 0) : fusePart n.toNat s t th = (holdBegun s k n.toNat, { wait := some (.fuse s.cur.pc) }) := by
  have h0 : n.toNat ≠ 0 := fun h => hn (BitVec.eq_of_toNat_eq h)
  unfold fusePart
  rw [hs]
  dsimp only
  rw [if_neg h0]
  rfl
theorem holdBegun_tame (k m : Nat) : Tame s.cur.core s (holdBegun s k m) := .updCore (f := fun c => { c with sheaves := _ }) rfl rfl
theorem holdBegun_core (k m : Nat) : getCore (holdBegun s k m) s.cur.core
    = { getCore s s.cur.core with sheaves := tupd (getCore s s.cur.core).sheaves k (startHold s.cur.pc (getCore s s.cur.core).cyc m) } := getCore_putCore_self ..
theorem holdBegun_thread (k m u : Nat) : getThread (holdBegun s k m) s.cur.core u = getThread s s.cur.core u := by
  rw [getThread, holdBegun_core]
  rfl

/-- What a `fuse` of a sheaf's member leaves before holds are looked at. -/
theorem fuse_arrives {k : Nat} (h : Alone (.fuse n) s t th) (hs : th.sheaf = some k) (hn : n ≠ 0) :
    Sound (.fuse n) (fusePart n.toNat) s (holdBegun s k n.toNat) [(t, { wait := some (.fuse s.cur.pc) })] ∧
      RestOf (.fuse n) (holdBegun s k n.toNat) (runDrill (.fuse n) latInt (fusePart n.toNat) s) ∧
      WaitsFor (.fuse n) (.fuse s.cur.pc) (holdBegun s k n.toNat) (runDrill (.fuse n) latInt (fusePart n.toNat) s) t ∧
      ∃ new, getThread (runDrill (.fuse n) latInt (fusePart n.toNat) s) s.cur.core t = some new ∧ new.st = .waiting (.fuse s.cur.pc) ∧
        new.nextPc = after s ∧ new.sheaf = some k ∧ new.stepping = none := by
  have hp := fusePart_sheaf (s := s) (t := t) hs hn
  have ht : Tame s.cur.core s (fusePart n.toNat s t th).1 := by
    rw [hp]
    exact holdBegun_tame ..
  have hsd := h.toSound (part := fusePart n.toNat) ht (by rw [hp])
  obtain ⟨th0, h0, -, hu, hstep⟩ := h.thread
  have h1 : getThread (fusePart n.toNat s t th).1 s.cur.core t = some th0 := by
    rw [hp]
    exact (holdBegun_thread ..).trans h0
  have hw := h.waitsFor (lat := latInt) ht (by rw [hp]) h1
  obtain ⟨new, hnew, hal⟩ := h.waits (lat := latInt) (w := .fuse s.cur.pc) ht (by rw [hp]) h1
  rw [hp] at hsd hw hal
  rw [hu, (undefReads_sheaf s t th0).1] at hs
  exact ⟨hsd, hsd.rest (Alone.fxIn (.nothing rfl rfl)) fun u hu _ => drill_mem_of_same hsd.cur hu (holdBegun_thread ..), hw,
    new, hnew, hal.st, hal.nextPc, hal.sheaf.trans hs, hal.stepping.trans hstep⟩
theorem Sound.runDrill_cur {i : Instr} {lat : Lat} {part : Part} {s s1 : State} {fxs : List (Nat × Fx)} (h : Sound i part s s1 fxs) : (runDrill i lat part s).cur = s.cur := by
  rw [h.eq]
  exact (banked_quiet (i := i) (ths := drillThreads i s)).cur.trans h.cur

/-- A member that arrives while another one is on its way holds at its address (R18). -/
theorem fuse_holds {k : Nat} {sh : Sheaf} (hk : Kept 0 s) (h : Alone (.fuse n) s t th) (hs : th.sheaf = some k) (hn : n ≠ 0)
    (hsh : tget (getCore s s.cur.core).sheaves k = some sh) (hno : sh.fuses.any (fun f => f.1 == s.cur.pc) = false) {e : Nat × Thread}
    (he : e ∈ (members (getCore s s.cur.core) k).filter fun e => e.1 != t) (hst : ∀ x, e.2.st ≠ .parked x ∧ e.2.st ≠ .waiting (.fuse x)) (hout : e.1 ∉ s.cur.tids) :
    FinishesWaiting (.fuse n) s (updCore s s.cur.core fun c => { c with sheaves := tput c.sheaves k { sh with fuses := sh.fuses ++ [(s.cur.pc, c.cyc, n.toNat)] } }) t
      (.fuse s.cur.pc) := by
  have hb : holdBegun s k n.toNat = updCore s s.cur.core fun c => { c with sheaves := tput c.sheaves k { sh with fuses := sh.fuses ++ [(s.cur.pc, c.cyc, n.toNat)] } } := by
    unfold holdBegun
    rw [updCore_eq, updCore_eq, tupd_eq_tput hsh, startHold, hno]
    rfl
  obtain ⟨hsd, hrest, hw, -⟩ := fuse_arrives h hs hn
  have hx := execFuse_eq h
  rw [hs] at hx
  rw [← hb]
  refine ⟨_, hx.trans ?_, hrest, hw⟩
  rw [Option.toList_some, List.foldl_cons, List.foldl_nil, hsd.runDrill_cur]
  congr 1
  have hm := (mem_members_iff (hk.get s.cur.core)).1 (List.mem_of_mem_filter (a := (e.1, e.2)) he)
  have hnd : e.1 ∉ (drillThreads (.fuse n) s).map (·.1) := fun hd => hout (drillThreads_tids hd)
  obtain ⟨new, hnew, hu⟩ := hsd.other (lat := latInt) hnd ((holdBegun_thread ..).trans hm.1)
  have hkd : Kept 0 (runDrill (.fuse n) latInt (fusePart n.toNat) s) := hk.runDrill fusePart_keeps
  have hsame : new.st = e.2.st ∧ new.sheaf = e.2.sheaf :=
    ⟨by rw [show new.st = ({ new with regs := [] } : Thread).st from rfl, hu.rest], by rw [show new.sheaf = ({ new with regs := [] } : Thread).sheaf from rfl, hu.rest]⟩
  refine checkFuses_idle (m := (e.1, new)) ((mem_members_iff (hkd.get _)).2 ⟨hnew, hsame.2.trans hm.2⟩) (fun x => ?_) (fun x => ?_)
  · exact hsame.1 ▸ (hst x).1
  · have h1 := (hst x.toNat).2
    rw [hsame.1]
    intro hx
    rw [hx] at h1
    simp at h1
theorem Untouched.of {α : Type} {a b : Thread} (h : Untouched a b) (g : Thread → α) (hg : ∀ x : Thread, g { x with regs := [] } = g x) : g b = g a := by
  rw [← hg b, h.rest, hg a]
/-- The last member to arrive ends the hold: all go on (R18). -/
theorem fuse_ends {k : Nat} {sh : Sheaf} (hk : Kept 0 s) (h : Alone (.fuse n) s t th) (hs : th.sheaf = some k) (hn : n ≠ 0)
    (hsh : tget (getCore s s.cur.core).sheaves k = some sh) (hf : sh.fuses.map (·.1) = [s.cur.pc])
    (hall : ∀ e ∈ (members (getCore s s.cur.core) k).filter (fun e => e.1 != t), e.2.st = .waiting (.fuse s.cur.pc) ∧ e.2.stepping = none) :
    ∃ s', exec (.fuse n) s = .next s' ∧ (∀ e ∈ (members (getCore s s.cur.core) k).filter (fun e => e.1 != t), WakesUp s s' s.cur.core e.1) ∧
      ∃ new, getThread s' s.cur.core t = some new ∧ new.st = .ready ∧ new.pc = after s := by
  obtain ⟨hsd, -, -, x, hx, hxst, hxpc, hxsh, hxstep⟩ := fuse_arrives h hs hn
  have hd : drillThreads (.fuse n) s = [(t, th)] := (active_of_bare fun _ => rfl).symm.trans h.act
  have hkd : Kept 0 (runDrill (.fuse n) latInt (fusePart n.toNat) s) := hk.runDrill fusePart_keeps
  obtain ⟨b, hb⟩ := Option.isSome_iff_exists.1 hsd.spills.store
  have hcore := (hsd.frame (lat := latInt) (Alone.fxIn (.nothing rfl rfl)) hb).core
  rw [hsd.cur, holdBegun_core] at hcore
  -- the members that were there wait on, as before
  have hother : ∀ u a, u ≠ t → getThread s s.cur.core u = some a → ∃ y, getThread (runDrill (.fuse n) latInt (fusePart n.toNat) s) s.cur.core u = some y ∧ Untouched a y := by
    intro u a hu ha
    refine hsd.other ?_ ((holdBegun_thread ..).trans ha)
    rw [hd]
    simpa using hu
  have hmem : ∀ m ∈ members (getCore (runDrill (.fuse n) latInt (fusePart n.toNat) s) s.cur.core) k, m.2.st = .waiting (.fuse s.cur.pc) := by
    intro m hm
    have hm' := (mem_members_iff (hkd.get _) (t := m.1) (th := m.2)).1 hm
    by_cases hmt : m.1 = t
    · rw [hmt] at hm'
      rw [← Option.some.inj (hx.symm.trans hm'.1)]
      exact hxst
    · obtain ⟨a, ha⟩ := (hsd.causes (lat := latInt)).back hm'.1
      rw [holdBegun_thread] at ha
      obtain ⟨y, hy, hu⟩ := hother m.1 a hmt ha
      have hym : y = m.2 := Option.some.inj (hy.symm.trans hm'.1)
      rw [hym] at hu
      rw [hu.of Thread.st fun _ => rfl]
      have hash : a.sheaf = some k := (hu.of Thread.sheaf fun _ => rfl).symm.trans hm'.2
      exact (hall (m.1, a) (List.mem_filter.2 ⟨(mem_members_iff (hk.get _)).2 ⟨ha, hash⟩, by simpa using hmt⟩)).1
  -- only this address is held
  obtain ⟨p, hp⟩ : ∃ p, sh.fuses = [(s.cur.pc, p)] := by
    obtain ⟨f, hf1, hf2⟩ := List.map_eq_singleton_iff.1 hf
    exact ⟨f.2, by rw [hf1, ← hf2]⟩
  have hany : sh.fuses.any (fun f => f.1 == s.cur.pc) = true := by
    rw [hp]
    simp
  have hfuses : (tgetD (getCore (runDrill (.fuse n) latInt (fusePart n.toNat) s) s.cur.core).sheaves k {}).fuses = [(s.cur.pc, p)] := by
    rw [hcore]
    dsimp only [tgetD]
    rw [tget_tupd_self, hsh, Option.map_some, Option.getD_some, startHold, if_pos hany, hp]
  have hxm : (t, x) ∈ members (getCore (runDrill (.fuse n) latInt (fusePart n.toNat) s) s.cur.core) k := (mem_members_iff (hkd.get _)).2 ⟨hx, hxsh⟩
  have he := execFuse_eq h
  rw [hs, Option.toList_some, List.foldl_cons, List.foldl_nil, hsd.runDrill_cur, checkFuses_ends hfuses hxm hmem] at he
  refine ⟨_, he, fun e hem => ?_, ?_⟩
  · have hem' := (mem_members_iff (hk.get _) (t := e.1) (th := e.2)).1 (List.mem_of_mem_filter hem)
    have hne : e.1 ≠ t := by simpa using (List.mem_filter.1 hem).2
    obtain ⟨y, hy, hu⟩ := hother e.1 e.2 hne hem'.1
    obtain ⟨c, hc⟩ := releaseFuse_wakes (pc := s.cur.pc) hkd hy ((hu.of Thread.sheaf fun _ => rfl).trans hem'.2) ((hu.of Thread.st fun _ => rfl).trans (hall e hem).1)
      ((hu.of Thread.stepping fun _ => rfl).trans (hall e hem).2)
    exact wakesUp_of hem'.1 hu hc (.refl _)
  · obtain ⟨c, hc⟩ := releaseFuse_wakes (pc := s.cur.pc) hkd hx hxsh hxst hxstep
    exact ⟨_, hc, rfl, hxpc⟩
/-- When the cycles of a hold have passed its holders go on together (R18). -/
theorem hold_expires {ci k : Nat} {pc : DWord} {f : DWord × Nat × Nat} {sh : Sheaf} (hk : Kept 0 s) (hsh : tget (getCore s ci).sheaves k = some sh)
    (hf : sh.fuses.find? (fun f => f.1 == pc) = some f) (hc : f.2.1 + f.2.2 ≤ (getCore s ci).cyc) (hst : ∀ e ∈ members (getCore s ci) k, e.2.stepping = none) :
    ∃ s', exec (.fuseHoldExpiry ci k pc) s = .next s' ∧ (∀ e ∈ members (getCore s ci) k, e.2.st = .waiting (.fuse pc) → WakesUp s s' ci e.1) ∧
      ∀ sh', tget (getCore s' ci).sheaves k = some sh' → ∀ g ∈ sh'.fuses, g.1 ≠ pc := by
  have he : exec (.fuseHoldExpiry ci k pc) s = .next (releaseFuse s ci k pc) := by
    show execFuseHoldExpiry ci k pc s = _
    unfold execFuseHoldExpiry tgetD
    simp only [hsh, Option.getD_some, hf, if_pos hc]
  refine ⟨_, he, fun e hm hw => ?_, fun sh' h => releaseFuse_over s ci k pc h⟩
  have hm' := (mem_members_iff (hk.get ci) (t := e.1) (th := e.2)).1 hm
  obtain ⟨c, hc⟩ := releaseFuse_wakes hk hm'.1 hm'.2 hw (hst e hm)
  exact wakesUp_of hm'.1 (.refl _) hc (.refl _)
end
end Sys2Proof.Machine

/-! ### yield (R33) -/
namespace Sys2Proof.Machine
open Sys2Proof

/-- An instruction that reads and writes no register has no fault before its part. -/
theorem preFault_bare {i : Instr} (hr : reads i = []) (hw : writesBy i = []) (s : State) (act : List (Nat × Thread)) (th : Thread) : preFault i s act th = none := by
  have ho : ∀ x, ownFault i (getCore s s.cur.core) x = none := fun x => by
    unfold ownFault
    split
    · rfl
    · rw [hr, hw]
      rfl
  have hs : shapeFault i s act = none := by
    unfold shapeFault
    rw [hr]
    simp
  have hd : (if isUnif s && drillFaults i then act.findSome? fun e => ownFault i (getCore s s.cur.core) e.2 else none) = none := by
    split
    · exact List.findSome?_eq_none_iff.2 fun e _ => ho e.2
    · rfl
  unfold preFault
  simp only [hs]
  rw [hd]
  exact ho th
/-- What `yield` does for one thread (R33). -/
def yieldPart (n : Nat) : Part := fun s t _ => (updThread s s.cur.core t fun th => { th with lowUntil := some ((getCore s s.cur.core).cyc + n) }, {})
/-- The state in which these threads have yielded. -/
def yielded (n : Nat) (l : List (Nat × Thread)) (s : State) : State := l.foldl (fun s e => (yieldPart n s e.1 e.2).1) s
theorem runParts_yield {m : BitVec 16} (n : Nat) (act l : List (Nat × Thread)) (s : State) :
    runParts (.yield m) (yieldPart n) act l s = (yielded n l s, l.map fun e => (e.1, {})) := by
  induction l generalizing s with
  | nil => rfl
  | cons e l ih =>
    obtain ⟨t, th⟩ := e
    unfold runParts
    rw [preFault_bare rfl rfl]
    dsimp only
    rw [ih]
    rfl
theorem yielded_tame (n : Nat) (l : List (Nat × Thread)) {s : State} {ci : Nat} (hc : s.cur.core = ci) : Tame ci s (yielded n l s) := by
  induction l generalizing s with
  | nil => exact .refl ..
  | cons e l ih =>
    have h1 : Tame ci s (yieldPart n s e.1 e.2).1 := hc ▸ .updThread fun _ h => h
    exact h1.trans (ih (h1.cur ▸ hc))
theorem yieldPart_core (n : Nat) (s : State) (e : Nat × Thread) : getCore (yieldPart n s e.1 e.2).1 s.cur.core
    = updThreadC (getCore s s.cur.core) e.1 fun th => { th with lowUntil := some ((getCore s s.cur.core).cyc + n) } := getCore_putCore_self ..
theorem yielded_thread {n ci t : Nat} {l : List (Nat × Thread)} {s : State} (hc : s.cur.core = ci) {th : Thread} (h : getThread s ci t = some th) :
    getThread (yielded n l s) ci t = some (if t ∈ l.map (·.1) then { th with lowUntil := some ((getCore s ci).cyc + n) } else th) := by
  subst hc
  induction l generalizing s th with
  | nil => exact h
  | cons e l ih =>
    have hcore := yieldPart_core n s e
    by_cases he : t = e.1
    · have h1 : getThread (yieldPart n s e.1 e.2).1 s.cur.core t = some { th with lowUntil := some ((getCore s s.cur.core).cyc + n) } := by
        rw [getThread, hcore, he]
        exact (tget_tupd_self ..).trans (by rw [← he, show tget (getCore s s.cur.core).threads t = some th from h]; rfl)
      refine (ih (s := (yieldPart n s e.1 e.2).1) h1).trans ?_
      rw [if_pos (show t ∈ (e :: l).map (·.1) by simp [he])]
      split
      · have hcy : (getCore (yieldPart n s e.1 e.2).1 s.cur.core).cyc = (getCore s s.cur.core).cyc := (congrArg Core.cyc hcore).trans rfl
        rw [show (yieldPart n s e.1 e.2).1.cur.core = s.cur.core from rfl, hcy]
      · rfl
    · have h1 : getThread (yieldPart n s e.1 e.2).1 s.cur.core t = some th := by
        rw [getThread, hcore]
        exact (tget_tupd_ne _ _ _ _ he).trans h
      refine (ih (s := (yieldPart n s e.1 e.2).1) h1).trans ?_
      have hm : t ∈ (e :: l).map (·.1) ↔ t ∈ l.map (·.1) := by simp [he]
      have hcy : (getCore (yieldPart n s e.1 e.2).1 s.cur.core).cyc = (getCore s s.cur.core).cyc := (congrArg Core.cyc hcore).trans rfl
      simp only [hm]
      rw [show (yieldPart n s e.1 e.2).1.cur.core = s.cur.core from rfl, hcy]
/-- A thread that yields goes on, of low priority until n cycles on (R33). -/
theorem yields {n : BitVec 16} {s : State} {t : Nat} {th : Thread} (h : Takes (.yield n) s t th) (hu : isUnif s = false) :
    ∃ s' new, exec (.yield n) s = .next s' ∧ MovesTo (.yield n) (fun _ => {}) (after s) s s' t ∧
      getThread s' s.cur.core t = some new ∧ new.lowUntil = some ((getCore s s.cur.core).cyc + n.toNat) := by
  have hm := List.mem_map_of_mem (f := (·.1)) h.act
  obtain ⟨th0, h0, -, -, hund⟩ := mem_drillThreads (mem_active h.act).1
  have hstep : th0.stepping = none := by rw [← undefReads_stepping s t th0, ← hund, h.free]
  have hparts : drillParts (.yield n) (yieldPart n.toNat) (activeThreads (.yield n) s) s
      = (yielded n.toNat (activeThreads (.yield n) s) s, (activeThreads (.yield n) s).map fun e => (e.1, {})) := by
    unfold drillParts
    rw [hu, Bool.false_and, if_neg Bool.false_ne_true]
    exact runParts_yield ..
  have ht := yielded_tame n.toNat (activeThreads (.yield n) s) (s := s) rfl
  have h1 := yielded_thread (n := n.toNat) (l := activeThreads (.yield n) s) rfl h0
  rw [if_pos hm] at h1
  have hnil : ∀ e ∈ (activeThreads (.yield n) s).map (fun e => (e.1, ({} : Fx))) ++ offFxs (.yield n) s, e.1 = t → e.2.fault = none := by
    intro e he het
    rcases List.mem_append.1 he with hm | hm
    · obtain ⟨x, -, rfl⟩ := List.mem_map.1 hm
      rfl
    · exact absurd het (offFxs_active h.act hm)
  obtain ⟨new, hn, hal⟩ := runDrill_commit (lat := latInt) hparts (List.ne_nil_of_mem h.act) (congrArg Drill.core ht.cur) (shapeFault_none h.sound)
    (List.mem_map_of_mem (f := (·.1)) (mem_active h.act).1) h1 hstep hnil (ht.ok h.spills)
  have hfx : tget ((activeThreads (.yield n) s).map (fun e => (e.1, ({} : Fx))) ++ offFxs (.yield n) s) t = some {} :=
    tget_append _ _ _ _ (tget_map_of_mem _ (fun _ => ({} : Fx)) t th h.act fun a ha => drillThreads_unique (mem_active ha).1 (mem_active h.act).1)
  unfold commitThread at hal
  simp only [hfx, Option.isSome_none, Bool.false_eq_true, or_self, if_false] at hal
  have hp : Plain {} := ⟨rfl, List.nodup_nil, List.nodup_nil⟩
  rw [readFlag_nil rfl] at hal
  have hg := hp.applyFx (i := .yield n) (sr := 0) (ready := drillReady (.yield n) latInt s (yielded n.toNat (activeThreads (.yield n) s) s))
    (th := { th0 with lowUntil := some ((getCore s s.cur.core).cyc + n.toNat) })
  have hmv := hg.moved hal rfl
  rw [ht.cur, ht.curLen] at hmv
  obtain ⟨hgot, hpc, hready⟩ := hmv
  have hlow : new.lowUntil = some ((getCore s s.cur.core).cyc + n.toNat) := by
    rw [hal.lowUntil, applyFx_eq]
    rfl
  exact ⟨runDrill (.yield n) latInt (yieldPart n.toNat) s, new, rfl, ⟨th0, new, h0, hn,
    ⟨hgot.written, hgot.awaited, hgot.released, hgot.kept, hgot.preds, hgot.p0, hgot.ast, hgot.pending, hgot.words, hgot.place⟩, hpc, hready⟩, hn, hlow⟩
end Sys2Proof.Machine

/-! ### New sheaves (R19, R21, R22) -/
namespace Sys2Proof.Machine
open Sys2Proof

theorem idxOf_ascending {l : List Nat} (h : l.Pairwise (· < ·)) {u : Nat} (hu : u ∈ l) : l.idxOf u = (l.filter (· < u)).length := by
  induction l with
  | nil => simp at hu
  | cons a l ih =>
    obtain ⟨ha, hl⟩ := List.pairwise_cons.1 h
    by_cases he : u = a
    · have h0 : (a :: l).filter (· < u) = [] := by
        rw [List.filter_eq_nil_iff]
        intro x hx
        rcases List.mem_cons.1 hx with rfl | hx
        · simp [he]
        · simpa using le_of_lt (he ▸ ha x hx)
      rw [h0, he, List.idxOf_cons_self]
      rfl
    · have hm := (List.mem_cons.1 hu).resolve_left he
      rw [List.idxOf_cons_ne _ (Ne.symm he), ih hl hm, List.filter_cons_of_pos (by simpa using ha u hm)]
      rfl
/-- A thread's place among the sorted ones is the number of lower ones. -/
theorem idxOf_mergeSort {l : List Nat} (h : l.Nodup) {u : Nat} (hu : u ∈ l) : (l.mergeSort (· ≤ ·)).idxOf u = (l.filter (· < u)).length := by
  have hp : (l.mergeSort (· ≤ ·)).Perm l := List.mergeSort_perm ..
  have hs : (l.mergeSort (· ≤ ·)).Pairwise (· ≤ ·) := by
    simpa using List.pairwise_mergeSort (le := fun a b : Nat => decide (a ≤ b)) (fun a b c => by simpa using le_trans) (fun a b => by simpa using le_total a b) l
  have hlt : (l.mergeSort (· ≤ ·)).Pairwise (· < ·) := hs.imp₂ (fun _ _ hle hne => lt_of_le_of_ne hle hne) (hp.nodup_iff.2 h)
  rw [idxOf_ascending hlt (hp.mem_iff.2 hu)]
  exact (hp.filter _).length_eq
theorem findIdx?_beq (l : List Nat) (t : Nat) : l.findIdx? (· == t) = if t ∈ l then some (l.idxOf t) else none := by
  split
  case isTrue h => exact List.findIdx?_eq_some_iff_findIdx_eq.2 ⟨List.idxOf_lt_length_iff.2 h, rfl⟩
  case isFalse h => exact List.findIdx?_eq_none_iff.2 fun x hx => by simpa using fun he : x = t => h (he ▸ hx)

/-- A thread as a member of a new sheaf. -/
def sheafed (k r : Nat) (tag : Tag) (th : Thread) : Thread :=
  { th with sheaf := some k, rank := r, regs := th.regs.map fun e => (e.1, { e.2 with tag := tag, uni := false }) }
theorem sheafed_val (k r : Nat) (tag : Tag) (th : Thread) (q : Nat) : (tget (sheafed k r tag th).regs q).map (·.val) = (tget th.regs q).map (·.val) := by
  have h : tget (sheafed k r tag th).regs q = (tget th.regs q).map fun c => { c with tag := tag, uni := false } :=
    tget_tmap th.regs (fun _ c => ({ c with tag := tag, uni := false } : RegCell)) q
  rw [h, Option.map_map]
  rfl
/-- Members of a list as they join a sheaf in its order. -/
def joined (l : List Nat) (k : Nat) (tag : Tag) (t : Nat) (th : Thread) : Thread := if t ∈ l then sheafed k (l.idxOf t) tag th else th
theorem makeSheaf_core (s : State) (ci p r : Nat) {l : List Nat} (hl : l ≠ []) : ∃ k tag,
    (getCore (makeSheaf s ci p r l) ci).threads = tmap (getCore s ci).threads (joined l k tag) ∧
      (getCore (makeSheaf s ci p r l) ci).bins = (getCore s ci).bins ∧ (getCore (makeSheaf s ci p r l) ci).fsbase = (getCore s ci).fsbase := by
  cases l with
  | nil => exact absurd rfl hl
  | cons t0 l =>
    refine ⟨(newEntry (getCore s ci) (slotOf t0)).1, if (t0 :: l).length = 1 then .uniform else .general, ?_⟩
    unfold makeSheaf
    dsimp only
    rw [getCore_putCore_self]
    refine ⟨?_, rfl, rfl⟩
    dsimp only
    congr 1
    funext t th
    unfold joined
    rw [findIdx?_beq]
    by_cases h : t ∈ t0 :: l
    · rw [if_pos h, if_pos h]
      rfl
    · rw [if_neg h, if_neg h]
theorem makeSheaf_thread (s : State) (ci p r : Nat) {l : List Nat} (hl : l ≠ []) : ∃ k tag,
    (∀ t, getThread (makeSheaf s ci p r l) ci t = (getThread s ci t).map (joined l k tag t)) ∧ (getCore (makeSheaf s ci p r l) ci).bins = (getCore s ci).bins := by
  obtain ⟨k, tag, ht, hb, -⟩ := makeSheaf_core s ci p r hl
  exact ⟨k, tag, fun t => by rw [getThread, ht]; exact tget_tmap .., hb⟩
theorem makeSheaf_tame (s : State) (ci p r : Nat) (l : List Nat) : Tame ci s (makeSheaf s ci p r l) := by
  cases l with
  | nil => exact .refl ..
  | cons t0 l =>
    obtain ⟨k, tag, ht, -, hf⟩ := makeSheaf_core s ci p r (List.cons_ne_nil t0 l)
    refine ⟨rfl, rfl, rfl, hf, fun t b hb => ?_⟩
    rw [getThread, ht, tget_tmap] at hb
    obtain ⟨a, ha, rfl⟩ := Option.map_eq_some_iff.1 hb
    refine ⟨a, ha, fun h => ?_⟩
    unfold joined
    split <;> exact h
theorem mergeSort_ne_nil {l : List Nat} (h : l ≠ []) : l.mergeSort (· ≤ ·) ≠ [] := fun h0 =>
  h (List.perm_nil.1 (h0 ▸ (List.mergeSort_perm l _).symm))
/-- A gathering that closes: its bin is free, its threads are a sheaf, ranked by slot (R22, R249). -/
theorem closeJoin_thread {s : State} {ci b : Nat} {x : Bin} (hb : tget (getCore s ci).bins b = some x) (hx : x.members ≠ []) :
    ∃ k tag, (∀ t, getThread (closeJoin s ci b) ci t = (getThread s ci t).map (joined (x.members.mergeSort (· ≤ ·)) k tag t)) ∧
      (getCore (closeJoin s ci b) ci).bins = tdel (getCore s ci).bins b := by
  obtain ⟨k, tag, ht, hbins⟩ := makeSheaf_thread (putCore s ci { getCore s ci with bins := tdel (getCore s ci).bins b }) ci x.plot x.role (mergeSort_ne_nil hx)
  have he : closeJoin s ci b
      = makeSheaf (putCore s ci { getCore s ci with bins := tdel (getCore s ci).bins b }) ci x.plot x.role (x.members.mergeSort (· ≤ ·)) := by
    unfold closeJoin
    simp only [hb]
  rw [← he] at ht hbins
  rw [getCore_putCore_self] at hbins
  refine ⟨k, tag, fun t => (ht t).trans ?_, hbins⟩
  unfold getThread
  rw [getCore_putCore_self]
theorem closeJoin_tame {s : State} {ci b : Nat} : Tame ci s (closeJoin s ci b) := by
  unfold closeJoin
  extract_lets c
  split
  · exact .refl ..
  · refine (Tame.putCore (c := { c with bins := tdel c.bins b }) rfl fun t a h => ⟨a, h, id⟩).trans ?_
    exact makeSheaf_tame ..
/-- A spawn bin that launches: its threads are ready members of one sheaf, ranked by slot, and the bin is free (R29). -/
theorem launchBin_becomes {s : State} {ci b : Nat} {x : Bin} (hb : tget (getCore s ci).bins b = some x) (hx : x.members ≠ []) (hn : x.members.Nodup)
    (hm : ∀ u ∈ x.members, ∃ w, getThread s ci u = some w ∧ w.moving = none) : BecomeSheaf (launchBin s ci b) ci x.members ∧
      (getCore (launchBin s ci b) ci).bins = tdel (getCore s ci).bins b := by
  obtain ⟨k, tag, hth, hbins⟩ := closeJoin_thread hb hx
  have he : launchBin s ci b = updThreads (closeJoin s ci b) ci x.members (makeReady (getCore (closeJoin s ci b) ci) 1) := by
    unfold launchBin closeJoin
    simp only [hb]
  rw [he]
  refine ⟨⟨k, fun u hu => ?_⟩, ?_⟩
  · obtain ⟨w, hw, hmov⟩ := hm u hu
    refine ⟨makeReady (getCore (closeJoin s ci b) ci) 1 (sheafed k ((x.members.mergeSort (· ≤ ·)).idxOf u) tag w), ?_, rfl, ?_, idxOf_mergeSort hn hu⟩
    · rw [getThread_updThreads, hth, hw]
      simp [joined, List.mem_mergeSort, hu]
    · show (if w.moving.isSome then _ else _) = _
      rw [hmov]
      rfl
  · unfold updThreads updCore
    rw [getCore_putCore_self]
    exact hbins
end Sys2Proof.Machine

/-! ### Gatherings that have closed (R22, R249) -/
namespace Sys2Proof.Machine
open Sys2Proof

/-- One member of a closed gathering goes on, with its rank in the register it named. -/
def rankedOne (cyc ci : Nat) (s : State) (x : Nat × Nat × Nat) : State :=
  updThread (wakeThread s ci x.1 1) ci x.1 fun th => writeReg th x.2.1 (BitVec.ofNat 32 th.rank) (cyc + 4)
/-- All of them go on. -/
def rankedAll (cyc ci : Nat) (l : List (Nat × Nat × Nat)) (s : State) : State := l.foldl (rankedOne cyc ci) s
/-- Threads that wait in a gathering and stand in a sheaf: slot, register, sheaf. -/
def closedOf (c : Core) : List (Nat × Nat × Nat) := c.threads.filterMap fun e => match e.2.st, e.2.sheaf with
  | .waiting (.gathering _ d), some k => some (e.1, d, k)
  | _, _ => none

section
variable {cyc ci : Nat} {s : State}

theorem rankedOne_tame (x : Nat × Nat × Nat) : Tame ci s (rankedOne cyc ci s x) := (wakeThread_tame ..).trans (.updThread fun _ h => h)
theorem rankedAll_tame (l : List (Nat × Nat × Nat)) : Tame ci s (rankedAll cyc ci l s) := .foldl (fun _ => rankedOne_tame) l s
theorem getThread_updThread_self (s : State) (ci t : Nat) (f : Thread → Thread) : getThread (updThread s ci t f) ci t = (getThread s ci t).map f := by
  unfold getThread updThread
  rw [updCore_eq, getCore_putCore_self]
  exact tget_tupd_self ..
theorem getThread_updThread_ne (s : State) (ci : Nat) {t u : Nat} (f : Thread → Thread) (h : t ≠ u) : getThread (updThread s ci u f) ci t = getThread s ci t := by
  unfold getThread updThread
  rw [updCore_eq, getCore_putCore_self]
  exact tget_tupd_ne _ _ _ _ h
theorem rankedOne_other {x : Nat × Nat × Nat} {t : Nat} (h : t ≠ x.1) : getThread (rankedOne cyc ci s x) ci t = getThread s ci t :=
  (getThread_updThread_ne _ _ _ h).trans (wakeThread_other h)
theorem rankedOne_self {x : Nat × Nat × Nat} {w : Thread} (h : getThread s ci x.1 = some w) (hs : w.stepping = none) :
    getThread (rankedOne cyc ci s x) ci x.1 = some (writeReg (woken (getCore s ci) 1 w) x.2.1 (BitVec.ofNat 32 w.rank) (cyc + 4)) := by
  unfold rankedOne
  rw [getThread_updThread_self, wakeThread_self h hs]
  rfl
theorem rankedOne_bins (x : Nat × Nat × Nat) : (getCore (rankedOne cyc ci s x) ci).bins = (getCore s ci).bins := by
  unfold rankedOne updThread
  rw [updCore_eq, getCore_putCore_self]
  exact (wakeThread_sheaves ..).2.1
theorem rankedAll_bins (l : List (Nat × Nat × Nat)) : (getCore (rankedAll cyc ci l s) ci).bins = (getCore s ci).bins := by
  induction l generalizing s with
  | nil => rfl
  | cons x l ih => exact ih.trans (rankedOne_bins x)
theorem rankedAll_other {l : List (Nat × Nat × Nat)} {t : Nat} (h : t ∉ l.map (·.1)) : getThread (rankedAll cyc ci l s) ci t = getThread s ci t := by
  induction l generalizing s with
  | nil => rfl
  | cons x l ih =>
    rw [List.map_cons, List.mem_cons, not_or] at h
    exact (ih h.2).trans (rankedOne_other h.1)
theorem rankedAll_self {l : List (Nat × Nat × Nat)} (hl : (l.map (·.1)).Nodup) {x : Nat × Nat × Nat} (hx : x ∈ l) {w : Thread} (h : getThread s ci x.1 = some w)
    (hs : w.stepping = none) : ∃ c, getThread (rankedAll cyc ci l s) ci x.1 = some (writeReg (woken c 1 w) x.2.1 (BitVec.ofNat 32 w.rank) (cyc + 4)) := by
  induction l generalizing s with
  | nil => exact absurd hx List.not_mem_nil
  | cons y l ih =>
    obtain ⟨hy, hl⟩ := List.nodup_cons.1 hl
    rcases List.mem_cons.1 hx with rfl | hx
    · exact ⟨_, (rankedAll_other hy).trans (rankedOne_self h hs)⟩
    · have hne : x.1 ≠ y.1 := fun he => hy (List.mem_map.2 ⟨x, hx, he⟩)
      exact ih hl hx ((rankedOne_other hne).trans h)

/-- The tags, banks and times after closed gatherings have gone on. -/
theorem finishJoins_stays (hok : SpillsOk s ci) (t : Nat) : StaysS ci t (rankedAll (getCore s ci).cyc ci (closedOf (getCore s ci)) s) (finishJoins s ci) := by
  unfold finishJoins
  extract_lets c done s1 groups s2 x
  have h1 : SpillsOk s1 ci := (rankedAll_tame (closedOf c)).ok hok
  have hgr : StaysS ci t s1 s2 ∧ SpillsOk s2 ci := by
    refine List.foldlRecOn groups _ (motive := fun z => StaysS ci t s1 z ∧ SpillsOk z ci) ⟨.refl .., h1⟩ fun z hz g _ => ?_
    rw [updCore_eq]
    exact ⟨hz.1.trans (.putCore (retag_stays ..)), hz.2.of (by rw [getCore_putCore_self]; exact retag_fsbase ..) rfl⟩
  exact hgr.1.trans ((settleBanks_stays _ _ _ _ _ _ _ hgr.2).stays.trans (lateWrites_stays ..))
theorem finishJoins_core (hok : SpillsOk s ci) : ∃ x, getCore (finishJoins s ci) ci
    = { getCore (rankedAll (getCore s ci).cyc ci (closedOf (getCore s ci)) s) ci with threads := x } := by
  unfold finishJoins
  extract_lets c done s1 groups s2 x
  have h1 : SpillsOk s1 ci := (rankedAll_tame (closedOf c)).ok hok
  have hgr : (∃ y, getCore s2 ci = { getCore s1 ci with threads := y }) ∧ SpillsOk s2 ci := by
    refine List.foldlRecOn groups _ (motive := fun z => (∃ y, getCore z ci = { getCore s1 ci with threads := y }) ∧ SpillsOk z ci) ⟨⟨_, rfl⟩, h1⟩ fun z hz g _ => ?_
    rw [updCore_eq]
    refine ⟨?_, hz.2.of (by rw [getCore_putCore_self]; exact retag_fsbase ..) rfl⟩
    rw [getCore_putCore_self]
    obtain ⟨he, -⟩ := retag_only false ((done.filter fun x => x.2.2 == g.1 && x.2.1 == g.2).map (·.1)) (getCore z ci) g.2
    obtain ⟨y, hy⟩ := hz.1
    exact ⟨_, by rw [he, hy]⟩
  obtain ⟨b, hb⟩ := Option.isSome_iff_exists.1 hgr.2.store
  have h2 : Settles ci b s2 x.1 := settleBanks_settles c s2 ci b (done.map (·.1)) (fun _ => done.map (·.2.1)) (2 * done.length) hb hgr.2.good
  have h3 := (h2.trans (lateWrites_settles x.1 ci x.2 b (done.map (·.1)) (done.map (·.2.1)))).core
  obtain ⟨y, hy⟩ := hgr.1
  rw [hy] at h3
  exact ⟨_, h3⟩
theorem finishJoins_bins (hok : SpillsOk s ci) : (getCore (finishJoins s ci) ci).bins = (getCore s ci).bins := by
  obtain ⟨x, hx⟩ := finishJoins_core hok
  rw [hx]
  exact rankedAll_bins _
/-- Without such threads nothing happens. -/
theorem finishJoins_none (h : closedOf (getCore s ci) = []) : finishJoins s ci = s := by
  unfold finishJoins
  extract_lets c done
  have h0 : done = [] := h
  clear_value done
  subst h0
  rfl
end
theorem mem_closedOf {c : Core} {x : Nat × Nat × Nat} (hx : x ∈ closedOf c) : ∃ w b, (x.1, w) ∈ c.threads ∧ w.st = .waiting (.gathering b x.2.1) ∧ w.sheaf = some x.2.2 := by
  obtain ⟨e, he, hm⟩ := List.mem_filterMap.1 hx
  split at hm
  case h_1 b d k hst hsh =>
    obtain rfl := Option.some.inj hm
    exact ⟨e.2, b, he, hst, hsh⟩
  case h_2 => exact absurd hm (by simp)
theorem mem_closedOf_of {c : Core} {t b d k : Nat} {w : Thread} (h : (t, w) ∈ c.threads) (hst : w.st = .waiting (.gathering b d)) (hsh : w.sheaf = some k) :
    (t, d, k) ∈ closedOf c := by
  refine List.mem_filterMap.2 ⟨(t, w), h, ?_⟩
  simp only [hst, hsh]
theorem closedOf_nodup {c : Core} (h : tsorted c.threads = true) : ((closedOf c).map (·.1)).Nodup := by
  refine List.Sublist.nodup (l₂ := c.threads.map (·.1)) ?_ (sorted_keys_nodup h)
  unfold closedOf
  induction c.threads with
  | nil => exact .slnil
  | cons e l ih =>
    rw [List.filterMap_cons]
    split
    case h_1 => exact ih.cons _
    case h_2 y hy =>
      split at hy
      case h_1 =>
        obtain rfl := Option.some.inj hy
        exact ih.cons_cons _
      case h_2 => exact absurd hy (by simp)
/-- A member of a closed gathering goes on ready with its rank in its register (R249). -/
theorem finishJoins_ranks {s : State} {ci t b d k : Nat} {w : Thread} (hok : SpillsOk s ci) (hk : tsorted (getCore s ci).threads = true) (h : getThread s ci t = some w)
    (hst : w.st = .waiting (.gathering b d)) (hsh : w.sheaf = some k) (hs : w.stepping = none) :
    ∃ c n new, getThread (finishJoins s ci) ci t = some new ∧ Alike (writeReg (woken c 1 w) d (BitVec.ofNat 32 w.rank) n) new := by
  have hx := mem_closedOf_of (tget_mem _ _ _ h) hst hsh
  obtain ⟨c, hc⟩ := rankedAll_self (cyc := (getCore s ci).cyc) (closedOf_nodup hk) hx h hs
  obtain ⟨new, hn, hal⟩ := (finishJoins_stays hok t).out _ hc
  exact ⟨c, _, new, hn, hal⟩
end Sys2Proof.Machine

/-! ### Bin timers (R22, R29, R249) -/
namespace Sys2Proof.Machine
open Sys2Proof

theorem tget_writeReg (th : Thread) (d : Nat) (v : Word) (n : Nat) : (tget (writeReg th d v n).regs d).map (·.val) = some v := by
  rw [show tget (writeReg th d v n).regs d = some { val := v, ready := n } from tget_tput_self ..]
  rfl
/-- The thread that a member of a closed gathering becomes: ready at its next instruction with its rank in the register it named. -/
theorem ranked_like {c : Core} {w new : Thread} {d n : Nat} (h : Alike (writeReg (woken c 1 w) d (BitVec.ofNat 32 w.rank) n) new) :
    new.sheaf = w.sheaf ∧ new.st = .ready ∧ new.rank = w.rank ∧ new.pc = w.nextPc ∧ (tget new.regs d).map (·.val) = some (BitVec.ofNat 32 new.rank) := by
  have hr : new.rank = w.rank := h.rank.trans rfl
  exact ⟨h.sheaf.trans rfl, h.st.trans rfl, hr, h.pc.trans rfl, by rw [h.val d, tget_writeReg, hr]⟩
section
variable {s : State} {ci b : Nat} {x : Bin}

/-- A gathering of count 0 that meets its timer. -/
theorem joinBin_expires (hk : Kept 0 s) (hb : tget (getCore s ci).bins b = some x) (hx : x.members ≠ []) (hn : x.members.Nodup) (hok : SpillsOk s ci)
    (hm : ∀ u ∈ x.members, ∃ w d, getThread s ci u = some w ∧ w.st = .waiting (.gathering b d) ∧ w.sheaf = none ∧ w.stepping = none ∧ w.moving = none) :
    BecomeSheaf (finishJoins (closeJoin s ci b) ci) ci x.members ∧ (tget (getCore (finishJoins (closeJoin s ci b) ci) ci).bins b).isNone = true ∧
      ∀ u ∈ x.members, ∀ w d, getThread s ci u = some w → w.st = .waiting (.gathering b d) →
        ∃ new, getThread (finishJoins (closeJoin s ci b) ci) ci u = some new ∧ new.pc = w.nextPc ∧ (tget new.regs d).map (·.val) = some (BitVec.ofNat 32 new.rank) := by
  obtain ⟨k, tag, hth, hbins⟩ := closeJoin_thread hb hx
  have hok2 : SpillsOk (closeJoin s ci b) ci := closeJoin_tame.ok hok
  have hone : ∀ u ∈ x.members, ∀ w d, getThread s ci u = some w → w.st = .waiting (.gathering b d) → ∃ new, getThread (finishJoins (closeJoin s ci b) ci) ci u = some new ∧
      new.sheaf = some k ∧ new.st = .ready ∧ new.rank = (x.members.filter (· < u)).length ∧ new.pc = w.nextPc ∧ (tget new.regs d).map (·.val) = some (BitVec.ofNat 32 new.rank) := by
    intro u hu w d hw hst
    obtain ⟨w', d', hw', -, -, hs, -⟩ := hm u hu
    obtain rfl := Option.some.inj (hw.symm.trans hw')
    have h1 : getThread (closeJoin s ci b) ci u = some (sheafed k ((x.members.mergeSort (· ≤ ·)).idxOf u) tag w) := by
      rw [hth, hw]
      simp [joined, List.mem_mergeSort, hu]
    obtain ⟨c, n, new, hnew, hal⟩ := finishJoins_ranks hok2 (hk.closeJoin.get ci).threads h1 hst rfl hs
    obtain ⟨h2, h3, h4, h5, h6⟩ := ranked_like (w := sheafed k ((x.members.mergeSort (· ≤ ·)).idxOf u) tag w) hal
    exact ⟨new, hnew, h2, h3, h4.trans (idxOf_mergeSort hn hu), h5, h6⟩
  refine ⟨⟨k, fun u hu => ?_⟩, ?_, fun u hu w d hw hst => ?_⟩
  · obtain ⟨w, d, hw, hst, -⟩ := hm u hu
    obtain ⟨new, hnew, h1, h2, h3, -⟩ := hone u hu w d hw hst
    exact ⟨new, hnew, h1, h2, h3⟩
  · rw [finishJoins_bins hok2, hbins, tget_tdel_self]
    rfl
  · obtain ⟨new, hnew, -, -, -, h1, h2⟩ := hone u hu w d hw hst
    exact ⟨new, hnew, h1, h2⟩
end
end Sys2Proof.Machine

section
open Sys2Proof Sys2Proof.Machine

/-- Settles O35. -/
theorem fuseYieldAndHolds : Obligations.FuseYieldAndHolds := by
  refine ⟨⟨fun n s t th hW h => ⟨fun hs => fuse_solo h hs, fun k sh hs hn hsh hf he ho => ?_, fun k sh hs hn hsh hf ho => ?_⟩, fun n s t th h hu => yields h hu⟩,
    ⟨fun s ci k pc f sh hW hsh hf hc hs => ?_, fun s ci b x hW hb _ hn hx hc _ hm hok => ⟨fun hj h0 => ?_, fun hj => ?_⟩⟩⟩
  · obtain ⟨e, hm, hst⟩ := he
    exact fuse_holds ((kept_iff s).2 hW) h hs hn hsh hf hm hst (ho e hm)
  · exact fuse_ends ((kept_iff s).2 hW) h hs hn hsh hf fun e he => ⟨(ho e he).1, (ho e he).2.1⟩
  · exact hold_expires ((kept_iff s).2 hW) hsh hf hc hs
  · have he : exec (.joinBinTimerExpiry ci b) s = .next (finishJoins (closeJoin s ci b) ci) := by
      refine (show exec (.joinBinTimerExpiry ci b) s = execJoinBinTimerExpiry ci b s from rfl).trans ?_
      unfold execJoinBinTimerExpiry
      simp [hb, hj, h0, Nat.add_comm x.first, hc]
    exact ⟨_, he, joinBin_expires ((kept_iff s).2 hW) hb hx hn hok hm⟩
  · have he : exec (.spawnBinTimerExpiry ci b) s = .next (launchBin s ci b) := by
      refine (show exec (.spawnBinTimerExpiry ci b) s = execSpawnBinTimerExpiry ci b s from rfl).trans ?_
      unfold execSpawnBinTimerExpiry
      simp [hb, hj, hx, Nat.add_comm x.first, hc]
    obtain ⟨h1, h2⟩ := launchBin_becomes hb hx hn fun u hu => by
      obtain ⟨w, d, hw, -, -, -, hmov⟩ := hm u hu
      exact ⟨w, hw, hmov⟩
    exact ⟨_, he, h1, by rw [h2, tget_tdel_self]; rfl⟩
end

/-! ### Gatherings that open and close (R22, R249) -/
namespace Sys2Proof.Machine
open Sys2Proof

section
variable {i : Instr} {lat : Lat} {s s1 : State} {part : Part} {t : Nat} {fx : Fx}

/-- A masked-off thread of a drill with one active one moves on (R15). -/
theorem Sound.masked (h : Sound i part s s1 [(t, fx)]) {u : Nat} (hu : u ∈ (drillThreads i s).map (·.1)) (hne : u ≠ t) {w : Thread} (h1 : getThread s1 s.cur.core u = some w) :
    ∃ new, getThread (runDrill i lat part s) s.cur.core u = some new ∧ new.st = .ready ∧ new.plot = w.plot := by
  obtain ⟨new, hn, hal⟩ := h.thread (lat := lat) hu h1
  refine ⟨new, hn, ?_⟩
  have hnone : tget [(t, fx)] u = none := tget_none_of_not_mem (by simpa using hne)
  unfold commitThread at hal
  rw [hnone, applyOff_eq, offBase_eq] at hal
  refine ⟨hal.st.trans rfl, hal.plot.trans ?_⟩
  dsimp only [advance]
  split <;> rfl
/-- What the frame of a sound drill says of its core. -/
theorem Sound.core_eq (h : Sound i part s s1 [(t, fx)]) (hr : fx.regs = []) (he : fx.empties = []) : ∃ x p q, getCore (runDrill i lat part s) s.cur.core
    = { getCore s1 s.cur.core with threads := x, lanePol := p, uniPol := q } := by
  obtain ⟨b, hb⟩ := Option.isSome_iff_exists.1 h.spills.store
  have hf := (h.frame (lat := lat) (Alone.fxIn (FxIn.nothing hr he)) hb).core
  rw [h.cur] at hf
  exact ⟨_, _, _, hf⟩
theorem Sound.spillsOk (h : Sound i part s s1 [(t, fx)]) (hr : fx.regs = []) (he : fx.empties = []) : SpillsOk (runDrill i lat part s) s.cur.core := by
  obtain ⟨b, hb⟩ := Option.isSome_iff_exists.1 h.spills.store
  have hf := h.frame (lat := lat) (Alone.fxIn (FxIn.nothing hr he)) hb
  obtain ⟨x, p, q, hc⟩ := h.core_eq (lat := lat) hr he
  exact h.spills.of (by rw [hc]) (show (besides (runDrill i lat part s)).bad = (besides s1).bad from congrArg State.bad hf.state)
end

section
variable {o : SyRR} {s : State} {t : Nat} {th : Thread}

theorem execJoin_eq (o : SyRR) (s : State) : exec (.join o) s = .next (finishJoins (runDrill (.join o) latInt (joinPart o) s) s.cur.core) := rfl

/-- The state in which a thread has entered a bin. -/
def entered (s : State) (ci t b : Nat) : State := updCore s ci fun c => { c with bins := tupd c.bins b fun x => { x with members := x.members ++ [t] } }
theorem entered_core (s : State) (ci t b : Nat) : getCore (entered s ci t b) ci
    = { getCore s ci with bins := tupd (getCore s ci).bins b fun x => { x with members := x.members ++ [t] } } := getCore_putCore_self ..
theorem entered_thread (s : State) (ci t b u : Nat) : getThread (entered s ci t b) ci u = getThread s ci u := by
  rw [getThread, entered_core]
  rfl
theorem entered_tame (s : State) (ci t b : Nat) : Tame ci s (entered s ci t b) := .updCore (f := fun c => { c with bins := _ }) rfl rfl
theorem joinEnter_solo {ci b d : Nat} (h : ∀ th, getThread s ci t = some th → th.sheaf = none) : joinEnter s ci t b d
    = (if (tgetD (getCore (entered s ci t b) ci).bins b {}).members.length
          ≥ (if (tgetD (getCore (entered s ci t b) ci).bins b {}).count = 0 then 32 else (tgetD (getCore (entered s ci t b) ci).bins b {}).count)
        then closeJoin (entered s ci t b) ci b else entered s ci t b, { wait := some (.gathering b d) }) := by
  unfold joinEnter
  rw [leaveSheaf_solo h]
  rfl
/-- The gathering that a `join` opens (R22). -/
def openedBin (s : State) (o : SyRR) (t : Nat) (th : Thread) : Bin :=
  { isJoin := true, plot := th.plot, role := th.role, slot := slotOf t, key := (sv th o.a).toNat, count := (sv2 th o.b).toNat, first := (getCore s s.cur.core).cyc }
/-- The state in which it stands open. -/
def opened (s : State) (o : SyRR) (t b : Nat) (th : Thread) : State :=
  putCore s s.cur.core { getCore s s.cur.core with bins := tput (getCore s s.cur.core).bins b (openedBin s o t th) }
theorem opened_thread (b u : Nat) : getThread (opened s o t b th) s.cur.core u = getThread s s.cur.core u := by
  unfold opened getThread
  rw [getCore_putCore_self]
theorem opened_tame (b : Nat) : Tame s.cur.core s (opened s o t b th) := .putCore rfl fun _ a ha => ⟨a, ha, id⟩
theorem entered_opened (b : Nat) : tget (getCore (entered (opened s o t b th) s.cur.core t b) s.cur.core).bins b = some { openedBin s o t th with members := [t] } := by
  rw [entered_core]
  unfold opened
  rw [getCore_putCore_self]
  dsimp only
  rw [tget_tupd_self, tget_tput_self]
  rfl
theorem joinPart_opens {b : Nat} (hs : ∀ th, getThread s s.cur.core t = some th → th.sheaf = none) (hp : peakReg (getCore s s.cur.core) th (lastRegs (.join o)) [o.d.toNat] = none)
    (h2 : 2 ≤ (sv2 th o.b).toNat) (h32 : (sv2 th o.b).toNat ≤ 32)
    (hj : joinBin (getCore s s.cur.core) th.plot th.role (slotOf t) (sv th o.a).toNat = none)
    (hb : lowestFree Config.binCount (tkeys (getCore s s.cur.core).bins) = some b) :
    joinPart o s t th = (entered (opened s o t b th) s.cur.core t b, { wait := some (.gathering b o.d.toNat) }) := by
  have h3 : joinPart o s t th = joinEnter (opened s o t b th) s.cur.core t b o.d.toNat := by
    unfold joinPart
    simp only [if_neg (Nat.not_lt.2 h32), hp, hj, hb]
    rfl
  have hbin : tgetD (getCore (entered (opened s o t b th) s.cur.core t b) s.cur.core).bins b {} = { openedBin s o t th with members := [t] } := by
    rw [tgetD, entered_opened]
    rfl
  rw [h3, joinEnter_solo fun x hx => hs x ((opened_thread ..).symm.trans hx), hbin, if_neg]
  have hc : (openedBin s o t th).count = (sv2 th o.b).toNat := rfl
  show ¬ (1 ≥ if (openedBin s o t th).count = 0 then 32 else (openedBin s o t th).count)
  rw [hc, if_neg (by omega)]
  omega
/-- A `join` that opens a gathering waits in it (R22, R249). -/
theorem join_opens {b : Nat} (hk : Kept 0 s) (h : Alone (.join o) s t th) (hs : th.sheaf = none)
    (hp : peakReg (getCore s s.cur.core) th (lastRegs (.join o)) [o.d.toNat] = none) (h2 : 2 ≤ (sv2 th o.b).toNat) (h32 : (sv2 th o.b).toNat ≤ 32)
    (hj : joinBin (getCore s s.cur.core) th.plot th.role (slotOf t) (sv th o.a).toNat = none) (hb : lowestFree Config.binCount (tkeys (getCore s s.cur.core).bins) = some b)
    (hg : ∀ e ∈ (getCore s s.cur.core).threads, ∀ x d, e.2.st = .waiting (.gathering x d) → e.2.sheaf = none) :
    ∃ s', exec (.join o) s = .next s' ∧ WaitsFor (.join o) (.gathering b o.d.toNat) s s' t ∧
      tget (getCore s' s.cur.core).bins b = some { openedBin s o t th with members := [t] } := by
  obtain ⟨th0, h0, -, hth, -⟩ := h.thread
  have hs0 : th0.sheaf = none := by rw [← hs, hth, (undefReads_sheaf ..).1]
  have hpart := joinPart_opens (fun x hx => by rw [← Option.some.inj (h0.symm.trans hx)]; exact hs0) hp h2 h32 hj hb
  have ht : Tame s.cur.core s (joinPart o s t th).1 := by
    rw [hpart]
    exact (opened_tame ..).trans (entered_tame ..)
  have hsame : ∀ u, getThread (joinPart o s t th).1 s.cur.core u = getThread s s.cur.core u := fun u => by
    rw [hpart]
    exact (entered_thread ..).trans (opened_thread ..)
  have hsd := h.toSound ht (by rw [hpart])
  have hw := h.waitsFor (lat := latInt) ht (by rw [hpart]) ((hsame t).trans h0)
  have hkd : Kept 0 (runDrill (.join o) latInt (joinPart o) s) := hk.runDrill joinPart_keeps
  have hnone : closedOf (getCore (runDrill (.join o) latInt (joinPart o) s) s.cur.core) = [] := by
    refine List.eq_nil_iff_forall_not_mem.2 fun x hx => ?_
    obtain ⟨w, c, hm, hst, hsh⟩ := mem_closedOf hx
    have hw1 : getThread (runDrill (.join o) latInt (joinPart o) s) s.cur.core x.1 = some w := tget_of_mem (hkd.get _).threads hm
    obtain ⟨a, ha⟩ := (hsd.causes (lat := latInt)).back hw1
    have ha0 := (hsame x.1).symm.trans ha
    by_cases hxt : x.1 = t
    · obtain ⟨old, new, ho, hn, -, -, -, -, -, -, -, hns⟩ := hw
      rw [ht.cur] at ho hn
      rw [hxt] at hw1 ha
      obtain rfl := Option.some.inj (hn.symm.trans hw1)
      obtain rfl := Option.some.inj (ho.symm.trans ((hsame t).trans h0))
      rw [hns, hs0] at hsh
      exact absurd hsh (by simp)
    · by_cases hd : x.1 ∈ (drillThreads (.join o) s).map (·.1)
      · obtain ⟨new, hn, hr, -⟩ := hsd.masked (lat := latInt) hd hxt ha
        obtain rfl := Option.some.inj (hn.symm.trans hw1)
        rw [hr] at hst
        exact absurd hst (by simp)
      · obtain ⟨new, hn, hu⟩ := hsd.other (lat := latInt) hd ha
        obtain rfl := Option.some.inj (hn.symm.trans hw1)
        have h1 := hg _ (tget_mem _ _ _ ha0) c x.2.1 ((hu.of Thread.st fun _ => rfl).symm.trans hst)
        rw [hu.of Thread.sheaf fun _ => rfl, h1] at hsh
        exact absurd hsh (by simp)
  refine ⟨_, (execJoin_eq o s).trans (by rw [finishJoins_none hnone]), ?_, ?_⟩
  · obtain ⟨old, new, ho, hn, hrest⟩ := hw
    rw [ht.cur] at ho hn
    exact ⟨old, new, (hsame t).symm.trans ho, hn, by rw [← ht.cur, ← ht.curLen]; exact hrest⟩
  · obtain ⟨x, p, q, hc⟩ := hsd.core_eq (lat := latInt) (by rw [hpart]) (by rw [hpart])
    rw [hc, hpart]
    exact entered_opened b
end
end Sys2Proof.Machine

/-! ### Gatherings that close on an arrival (R22, R249) -/
namespace Sys2Proof.Machine
open Sys2Proof

section
variable {o : SyRR} {s : State} {t b : Nat} {th : Thread} {x : Bin}

theorem entered_bin {ci : Nat} (hx : tget (getCore s ci).bins b = some x) :
    tget (getCore (entered s ci t b) ci).bins b = some { x with members := x.members ++ [t] } := by
  rw [entered_core]
  dsimp only
  rw [tget_tupd_self, hx]
  rfl
theorem joinPart_closes (hs : ∀ th, getThread s s.cur.core t = some th → th.sheaf = none) (hp : peakReg (getCore s s.cur.core) th (lastRegs (.join o)) [o.d.toNat] = none)
    (h1 : 1 < (sv2 th o.b).toNat) (h32 : (sv2 th o.b).toNat ≤ 32) (hj : joinBin (getCore s s.cur.core) th.plot th.role (slotOf t) (sv th o.a).toNat = some b)
    (hx : tget (getCore s s.cur.core).bins b = some x) (hc : x.count = (sv2 th o.b).toNat) (hl : x.members.length + 1 = (sv2 th o.b).toNat) :
    joinPart o s t th = (closeJoin (entered s s.cur.core t b) s.cur.core b, { wait := some (.gathering b o.d.toNat) }) := by
  have h3 : joinPart o s t th = joinEnter s s.cur.core t b o.d.toNat := by
    have hcount : (tgetD (getCore s s.cur.core).bins b {}).count = (sv2 th o.b).toNat := by
      rw [tgetD, hx]
      exact hc
    unfold joinPart
    simp only [if_neg (Nat.not_lt.2 h32), hp, hj, hcount, ne_eq, not_true_eq_false, if_false]
  have hbin : tgetD (getCore (entered s s.cur.core t b) s.cur.core).bins b {} = { x with members := x.members ++ [t] } := by
    rw [tgetD, entered_bin hx]
    rfl
  rw [h3, joinEnter_solo hs, hbin, if_pos]
  show (x.members ++ [t]).length ≥ if x.count = 0 then 32 else x.count
  rw [hc, if_neg (by omega), List.length_append, ← hl]
  exact le_refl _
/-- A `join` that brings its gathering to its count closes it: all go on as one sheaf, each with its rank (R22, R249). -/
theorem join_closes (hk : Kept 0 s) (h : Alone (.join o) s t th) (hs : th.sheaf = none)
    (hp : peakReg (getCore s s.cur.core) th (lastRegs (.join o)) [o.d.toNat] = none) (h1 : 1 < (sv2 th o.b).toNat) (h32 : (sv2 th o.b).toNat ≤ 32)
    (hj : joinBin (getCore s s.cur.core) th.plot th.role (slotOf t) (sv th o.a).toNat = some b) (hx : tget (getCore s s.cur.core).bins b = some x)
    (hc : x.count = (sv2 th o.b).toNat) (hl : x.members.length + 1 = (sv2 th o.b).toNat) (hn : (x.members ++ [t]).Nodup)
    (hm : ∀ u ∈ x.members, u ∉ s.cur.tids ∧ ∃ w d, getThread s s.cur.core u = some w ∧ w.st = .waiting (.gathering b d) ∧ w.sheaf = none ∧ w.stepping = none) :
    ∃ s', exec (.join o) s = .next s' ∧ BecomeSheaf s' s.cur.core (x.members ++ [t]) ∧ (tget (getCore s' s.cur.core).bins b).isNone = true ∧
      (∃ new, getThread s' s.cur.core t = some new ∧ new.pc = after s ∧ (tget new.regs o.d.toNat).map (·.val) = some (BitVec.ofNat 32 new.rank)) ∧
      ∀ u ∈ x.members, ∀ w d, getThread s s.cur.core u = some w → w.st = .waiting (.gathering b d) →
        ∃ new, getThread s' s.cur.core u = some new ∧ new.pc = w.nextPc ∧ (tget new.regs d).map (·.val) = some (BitVec.ofNat 32 new.rank) := by
  obtain ⟨th0, h0, -, hth, hfree⟩ := h.thread
  have hs0 : th0.sheaf = none := by rw [← hs, hth, (undefReads_sheaf ..).1]
  have hpart := joinPart_closes (fun y hy => by rw [← Option.some.inj (h0.symm.trans hy)]; exact hs0) hp h1 h32 hj hx hc hl
  have hwait : (joinPart o s t th).2 = { wait := some (.gathering b o.d.toNat) } := by rw [hpart]
  have ht : Tame s.cur.core s (joinPart o s t th).1 := by
    rw [hpart]
    exact (entered_tame ..).trans closeJoin_tame
  obtain ⟨k, tag, hth1, hbins⟩ := closeJoin_thread (entered_bin (t := t) hx) (List.append_ne_nil_of_right_ne_nil _ (List.cons_ne_nil t []))
  have hpart1 : ∀ u, getThread (joinPart o s t th).1 s.cur.core u = (getThread s s.cur.core u).map (joined ((x.members ++ [t]).mergeSort (· ≤ ·)) k tag u) := fun u => by
    rw [hpart]
    exact (hth1 u).trans (by rw [entered_thread])
  have hmem : ∀ {u w}, u ∈ x.members ++ [t] → getThread s s.cur.core u = some w →
      getThread (joinPart o s t th).1 s.cur.core u = some (sheafed k (((x.members ++ [t]).mergeSort (· ≤ ·)).idxOf u) tag w) := fun {u w} hu hw => by
    rw [hpart1, hw, Option.map_some]
    unfold joined
    rw [if_pos (List.mem_mergeSort.2 hu)]
  have hsd := h.toSound ht (by rw [hwait])
  have hok : SpillsOk (runDrill (.join o) latInt (joinPart o) s) s.cur.core := hsd.spillsOk (by rw [hwait]) (by rw [hwait])
  have hsort : tsorted (getCore (runDrill (.join o) latInt (joinPart o) s) s.cur.core).threads = true := ((hk.runDrill joinPart_keeps).get s.cur.core).threads
  -- the thread at issue
  have hself : ∃ new, getThread (finishJoins (runDrill (.join o) latInt (joinPart o) s) s.cur.core) s.cur.core t = some new ∧ new.sheaf = some k ∧ new.st = .ready ∧
      new.rank = ((x.members ++ [t]).filter (· < t)).length ∧ new.pc = after s ∧ (tget new.regs o.d.toNat).map (·.val) = some (BitVec.ofNat 32 new.rank) := by
    obtain ⟨w, hw, hal⟩ := h.waits (lat := latInt) ht hwait (hmem (List.mem_append_right _ (List.mem_singleton_self t)) h0)
    obtain ⟨c, n, new, hnew, hal2⟩ := finishJoins_ranks hok hsort hw (hal.st.trans rfl) (hal.sheaf.trans rfl) (hal.stepping.trans hfree)
    obtain ⟨g1, g2, g3, g4, g5⟩ := ranked_like hal2
    refine ⟨new, hnew, g1.trans (hal.sheaf.trans rfl), g2, (g3.trans (hal.rank.trans rfl)).trans (idxOf_mergeSort hn (List.mem_append_right _ (List.mem_singleton_self t))), g4.trans (hal.nextPc.trans ?_), g5⟩
    show nextPc _ _ = nextPc _ _
    rw [ht.cur, ht.curLen]
  -- the others of the gathering
  have hother : ∀ u ∈ x.members, ∀ w d, getThread s s.cur.core u = some w → w.st = .waiting (.gathering b d) →
      ∃ new, getThread (finishJoins (runDrill (.join o) latInt (joinPart o) s) s.cur.core) s.cur.core u = some new ∧ new.sheaf = some k ∧ new.st = .ready ∧
        new.rank = ((x.members ++ [t]).filter (· < u)).length ∧ new.pc = w.nextPc ∧ (tget new.regs d).map (·.val) = some (BitVec.ofNat 32 new.rank) := by
    intro u hu w d hw hst
    obtain ⟨hut, w', -, hw', -, -, hstep⟩ := hm u hu
    obtain rfl := Option.some.inj (hw.symm.trans hw')
    obtain ⟨y, hy, hun⟩ := hsd.other (lat := latInt) (fun hd => hut (drillThreads_tids hd)) (hmem (List.mem_append_left _ hu) hw)
    obtain ⟨c, n, new, hnew, hal2⟩ := finishJoins_ranks hok hsort hy ((hun.of Thread.st fun _ => rfl).trans hst) ((hun.of Thread.sheaf fun _ => rfl).trans rfl)
      ((hun.of Thread.stepping fun _ => rfl).trans hstep)
    obtain ⟨g1, g2, g3, g4, g5⟩ := ranked_like hal2
    exact ⟨new, hnew, g1.trans ((hun.of Thread.sheaf fun _ => rfl).trans rfl), g2, (g3.trans ((hun.of Thread.rank fun _ => rfl).trans rfl)).trans
      (idxOf_mergeSort hn (List.mem_append_left _ hu)), g4.trans ((hun.of Thread.nextPc fun _ => rfl).trans rfl), g5⟩
  refine ⟨_, execJoin_eq o s, ⟨k, fun u hu => ?_⟩, ?_, ?_, fun u hu w d hw hst => ?_⟩
  · rcases List.mem_append.1 hu with hu | hu
    · obtain ⟨-, w, d, hw, hst, -⟩ := hm u hu
      obtain ⟨new, hnew, g1, g2, g3, -⟩ := hother u hu w d hw hst
      exact ⟨new, hnew, g1, g2, g3⟩
    · obtain rfl := List.mem_singleton.1 hu
      obtain ⟨new, hnew, g1, g2, g3, -⟩ := hself
      exact ⟨new, hnew, g1, g2, g3⟩
  · obtain ⟨y, p, q, hcore⟩ := hsd.core_eq (lat := latInt) (by rw [hwait]) (by rw [hwait])
    rw [finishJoins_bins hok, hcore]
    dsimp only
    rw [hpart, hbins, tget_tdel_self]
    rfl
  · obtain ⟨new, hnew, -, -, -, g4, g5⟩ := hself
    exact ⟨new, hnew, g4, g5⟩
  · obtain ⟨new, hnew, -, -, -, g4, g5⟩ := hother u hu w d hw hst
    exact ⟨new, hnew, g4, g5⟩
end
end Sys2Proof.Machine

/-! ### Threads that take a fault (R152 to R155, R159) -/
namespace Sys2Proof.Machine
open Sys2Proof

theorem tget_foldl_tput {α β : Type} (f : Nat × α → β) {l : List (Nat × α)} (hn : (l.map (·.1)).Nodup) {x : Nat × α} (hx : x ∈ l) (d : Tbl β) :
    tget (l.foldl (fun d x => tput d x.1 (f x)) d) x.1 = some (f x) := by
  have hne : ∀ (l : List (Nat × α)) (d : Tbl β) k, k ∉ l.map (·.1) → tget (l.foldl (fun d x => tput d x.1 (f x)) d) k = tget d k := by
    intro l
    induction l with
    | nil => exact fun _ _ _ => rfl
    | cons y l ih =>
      intro d k hk
      rw [List.map_cons, List.mem_cons, not_or] at hk
      exact (ih _ k hk.2).trans (tget_tput_ne _ _ _ _ hk.1)
  induction l generalizing d with
  | nil => exact absurd hx List.not_mem_nil
  | cons y l ih =>
    obtain ⟨hy, hl⟩ := List.nodup_cons.1 hn
    rcases List.mem_cons.1 hx with rfl | hx
    · exact (hne l _ _ hy).trans (tget_tput_self ..)
    · exact ih hl hx _

/-- What parking makes of a thread: it stands in an entry, and shows a cause. -/
structure Parked (e : Nat) (old new : Thread) : Prop where
  eq : ∃ a b c d, new = { old with st := .parked e, cause := a, det0 := b, det1 := c, det2 := d }
theorem Parked.st {e : Nat} {old new : Thread} (h : Parked e old new) : new.st = .parked e := by
  obtain ⟨a, b, c, d, rfl⟩ := h.eq
  rfl
theorem Parked.of {α : Type} {e : Nat} {old new : Thread} (h : Parked e old new) (g : Thread → α)
    (hg : ∀ (x : Thread) v a b c d, g { x with st := v, cause := a, det0 := b, det1 := c, det2 := d } = g x) : g new = g old := by
  obtain ⟨a, b, c, d, rfl⟩ := h.eq
  exact hg ..
/-- The threads of a list of faults stand in a fragment that shows them. -/
structure ParkedAll (s s' : State) (ci e : Nat) (l : List (Nat × FaultRec)) : Prop where
  thread : ∀ x ∈ l, ∀ th, getThread s ci x.1 = some th → ∃ new, getThread s' ci x.1 = some new ∧ Parked e th new
  frag : ∃ g, tget (getCore s' ci).frags e = some g ∧ g.members = l.map (·.1) ∧ (∀ x ∈ l, g.group = x.2.group) ∧
    ∀ x ∈ l, tget g.details x.1 = some (x.2.det0, x.2.det1, x.2.det2)

section
variable {s : State} {ci : Nat}

theorem fragPending_frag {e : Nat} {f : Frag} (h : tget (getCore s ci).frags e = some f) :
    tget (getCore (fragPending s ci e) ci).frags e = some { f with delivery := .pending } := by
  unfold fragPending
  extract_lets c
  rw [show tget c.frags e = some f from h]
  dsimp only
  generalize hs1 : putCore s ci { c with frags := tput c.frags e { f with delivery := .pending } } = s1
  have h1 : tget (getCore s1 ci).frags e = some { f with delivery := .pending } := by
    rw [← hs1, getCore_putCore_self]
    exact tget_tput_self ..
  split
  · obtain ⟨p, hp⟩ := freezePlot_core s1 ci f.plot f.group
    rw [hp]
    exact h1
  · exact h1
theorem fragPending_thread (e t : Nat) : getThread (fragPending s ci e) ci t = getThread s ci t := by
  obtain ⟨p, f, h⟩ := fragPending_core s ci e
  rw [getThread, h]
  rfl
theorem showCause_frags (e : Nat) : (getCore (showCause s ci e) ci).frags = (getCore s ci).frags := by
  unfold showCause
  split
  · rfl
  · unfold updThreads'
    rw [updCore_eq, getCore_putCore_self]
theorem showCause_thread (e t : Nat) {th : Thread} (h : getThread s ci t = some th) :
    ∃ a b c d, getThread (showCause s ci e) ci t = some { th with cause := a, det0 := b, det1 := c, det2 := d } := by
  unfold showCause
  split
  · exact ⟨_, _, _, _, h⟩
  · next f _ =>
    unfold updThreads' getThread
    rw [updCore_eq, getCore_putCore_self]
    dsimp only
    rw [tget_tmap, show tget (getCore s ci).threads t = some th from h, Option.map_some]
    split
    · exact ⟨_, _, _, _, rfl⟩
    · exact ⟨_, _, _, _, rfl⟩
theorem showCause_tame (e : Nat) : Tame ci s (showCause s ci e) := by
  refine ⟨(showCause_quiet ..).bad, (showCause_quiet ..).cur, (showCause_quiet ..).curLen, ?_, fun t b hb => ?_⟩
  · unfold showCause
    split
    · rfl
    · unfold updThreads'
      rw [updCore_eq, getCore_putCore_self]
  · cases h : getThread s ci t with
    | none =>
      unfold showCause at hb
      split at hb
      · rw [h] at hb
        exact absurd hb (by simp)
      · unfold updThreads' getThread at hb
        rw [updCore_eq, getCore_putCore_self, tget_tmap, show tget (getCore s ci).threads t = none from h] at hb
        exact absurd hb (by simp)
    | some th =>
      obtain ⟨_, _, _, _, h1⟩ := showCause_thread e t h
      exact ⟨th, rfl, fun h0 => by rw [← Option.some.inj (h1.symm.trans hb)]; exact h0⟩

/-- The fragment of the faults of one kind, the first of them f0 of thread t0. -/
def parkFrag (s : State) (ci e t0 : Nat) (f0 : FaultRec) (l : List (Nat × FaultRec)) : Frag :=
  { gen := (tgetD (getCore s ci).fragGen e 0 + 1) % 1024, members := l.map (·.1), group := f0.group, det0 := f0.det0, det1 := f0.det1, det2 := f0.det2,
    plot := (tgetD (getCore s ci).threads t0 {}).plot, details := l.foldl (fun d x => tput d x.1 (x.2.det0, x.2.det1, x.2.det2)) [], delivery := .pending,
    seq := (getCore s ci).fragSeq, page := faultPage f0, since := s.now, wr := f0.det0.getLsbD 7 }
/-- The state in which they stand in it, before the fault is shown. -/
def parkBase (s : State) (ci e t0 : Nat) (f0 : FaultRec) (l : List (Nat × FaultRec)) : State := putCore s ci { getCore s ci with
  frags := tput (getCore s ci).frags e (parkFrag s ci e t0 f0 l)
  fragGen := tput (getCore s ci).fragGen e ((tgetD (getCore s ci).fragGen e 0 + 1) % 1024)
  fragSeq := (getCore s ci).fragSeq + 1
  threads := tmap (getCore s ci).threads fun t th => if (l.map (·.1)).contains t then { th with st := .parked e } else th }
/-- Faults of one kind park their threads in the lowest free entry (R153, R154). -/
theorem parkGroup_eq {t0 e : Nat} {f0 : FaultRec} {l : List (Nat × FaultRec)} (hf : lowestFree 63 (tkeys (getCore s ci).frags) = some e) (hr : repairable f0 = false) :
    ∃ u c, parkGroup s ci ((t0, f0) :: l) = fragPending (showCause (emitR (parkBase s ci e t0 f0 ((t0, f0) :: l)) u 0x0401 c) ci e) ci e := by
  refine ⟨unitCore ci none, (getPlot (getCore s ci) (tgetD (getCore s ci).threads t0 {}).plot).cid, ?_⟩
  unfold parkGroup
  simp only [hf, hr, Option.isNone_some, Bool.false_and, Bool.false_eq_true, if_false]
  rfl
theorem parkBase_thread {t0 e : Nat} {f0 : FaultRec} {l : List (Nat × FaultRec)} (t : Nat) : getThread (parkBase s ci e t0 f0 l) ci t
    = (getThread s ci t).map fun th => if (l.map (·.1)).contains t then { th with st := .parked e } else th := by
  unfold parkBase getThread
  rw [getCore_putCore_self]
  exact tget_tmap (getCore s ci).threads (fun t th => if (l.map (·.1)).contains t then { th with st := .parked e } else th) t
theorem parkBase_tame {t0 e : Nat} {f0 : FaultRec} {l : List (Nat × FaultRec)} : Tame ci s (parkBase s ci e t0 f0 l) :=
  .tmap (f := fun t th => if (l.map (·.1)).contains t then { th with st := .parked e } else th) rfl rfl fun t th h => by
    split <;> exact h
theorem parkGroup_parks {e : Nat} {l : List (Nat × FaultRec)} {f : FaultRec} (hl : l ≠ []) (hn : (l.map (·.1)).Nodup) (hf : lowestFree 63 (tkeys (getCore s ci).frags) = some e)
    (hr : ∀ x ∈ l, x.2 = f) (hrep : repairable f = false) : ParkedAll s (parkGroup s ci l) ci e l ∧ Tame ci s (parkGroup s ci l) := by
  cases l with
  | nil => exact absurd rfl hl
  | cons x0 l =>
    obtain ⟨t0, f0⟩ := x0
    have hf0 : f0 = f := hr _ List.mem_cons_self
    obtain ⟨u, c, he⟩ := parkGroup_eq (t0 := t0) (f0 := f0) (l := l) hf (hf0 ▸ hrep)
    rw [he]
    have hcores : ∀ t, getThread (emitR (parkBase s ci e t0 f0 ((t0, f0) :: l)) u 0x0401 c) ci t = getThread (parkBase s ci e t0 f0 ((t0, f0) :: l)) ci t := fun t => by
      unfold getThread
      rw [(emitR_same ..).getCore]
    refine ⟨⟨fun x hx th hth => ?_, ⟨{ parkFrag s ci e t0 f0 ((t0, f0) :: l) with delivery := .pending }, ?_, rfl, fun x hx => ?_, fun x hx => ?_⟩⟩,
      parkBase_tame.trans ((emitR_tame ..).trans ((showCause_tame e).trans (fragPending_tame ..)))⟩
    · have h1 : getThread (emitR (parkBase s ci e t0 f0 ((t0, f0) :: l)) u 0x0401 c) ci x.1 = some { th with st := .parked e } := by
        rw [hcores, parkBase_thread, hth, Option.map_some, if_pos (List.contains_iff_mem.2 (List.mem_map_of_mem hx))]
      obtain ⟨a, b, c', d, h2⟩ := showCause_thread e x.1 h1
      exact ⟨_, (fragPending_thread ..).trans h2, ⟨a, b, c', d, rfl⟩⟩
    · refine fragPending_frag ?_
      rw [showCause_frags, (emitR_same ..).getCore]
      unfold parkBase
      rw [getCore_putCore_self]
      exact tget_tput_self ..
    · exact (congrArg FaultRec.group (hf0.trans (hr x hx).symm))
    · exact tget_foldl_tput (fun x : Nat × FaultRec => (x.2.det0, x.2.det1, x.2.det2)) hn hx []
/-- One fault of threads that are not stepped. -/
theorem takeFaults_parks {e : Nat} {l : List (Nat × FaultRec)} {f : FaultRec} (hl : l ≠ []) (hn : (l.map (·.1)).Nodup) (hf : lowestFree 63 (tkeys (getCore s ci).frags) = some e)
    (hr : ∀ x ∈ l, x.2 = f) (hrep : repairable f = false) (hs : ∀ x ∈ l, ∀ th, getThread s ci x.1 = some th → th.stepping = none) :
    ParkedAll s (takeFaults s ci l) ci e l ∧ Tame ci s (takeFaults s ci l) := by
  have hst : ∀ x ∈ l, ((getThread s ci x.1).bind (·.stepping)).isSome = false := fun x hx => by
    cases h : getThread s ci x.1 with
    | none => rfl
    | some th => simp [hs x hx th h]
  have h0 : l.filter (fun x => ((getThread s ci x.1).bind (·.stepping)).isSome) = [] := List.filter_eq_nil_iff.2 fun x hx => by rw [hst x hx]; exact Bool.false_ne_true
  have h1 : l.filter (fun x => !((getThread s ci x.1).bind (·.stepping)).isSome) = l := List.filter_eq_self.2 fun x hx => by rw [hst x hx]; rfl
  have hk : faultKinds l = [(f.group, subOf f)] := by
    unfold faultKinds
    have hmap : l.map (fun x => (x.2.group, subOf x.2)) = List.replicate l.length (f.group, subOf f) :=
      List.eq_replicate_iff.2 ⟨List.length_map .., fun y hy => by
        obtain ⟨x, hx, rfl⟩ := List.mem_map.1 hy
        rw [hr x hx]⟩
    rw [hmap]
    obtain ⟨n, hn⟩ := Nat.exists_eq_succ_of_ne_zero (mt List.length_eq_zero_iff.1 hl)
    rw [hn, List.replicate_succ, List.eraseDups_cons, List.filter_eq_nil_iff.2]
    · rfl
    · intro y hy
      rw [List.eq_of_mem_replicate hy]
      simp
  have h2 : l.filter (fun x => (x.2.group, subOf x.2) == (f.group, subOf f)) = l := List.filter_eq_self.2 fun x hx => by rw [hr x hx]; exact beq_self_eq_true _
  have he : takeFaults s ci l = parkGroup s ci l := by
    unfold takeFaults
    dsimp only
    rw [h0, h1, hk]
    simp only [List.foldr_nil, List.foldl_cons, List.foldl_nil, h2]
  rw [he]
  exact parkGroup_parks hl hn hf hr hrep
end
end Sys2Proof.Machine

/-! ### A drill whose one active thread faults (R152) -/
namespace Sys2Proof.Machine
open Sys2Proof

theorem committed_tame {i : Instr} {lat : Lat} {fxs : List (Nat × Fx)} {s s1 : State} : Tame s.cur.core s1 (putCore s1 s.cur.core (committed i lat fxs s s1)) := by
  refine .putCore (committed_fsbase ..) fun t b hb => ?_
  have h1 : SameViews causeOf s.cur.core s1 (putCore s1 s.cur.core (committed i lat fxs s s1)) := .putCore (committed_causes i lat fxs s s1)
  obtain ⟨a, ha⟩ := h1.back (t := t) (b := b) (by rw [getThread, getCore_putCore_self]; exact hb)
  refine ⟨a, ha, fun h0 => ?_⟩
  by_cases ht : t ∈ (drillThreads i s).map (·.1)
  · obtain ⟨x, hx, hal⟩ := committed_stays i lat fxs s s1 t a ha ht
    rw [← Option.some.inj (hx.symm.trans hb), hal.stepping, commitThread_stepping, h0]
  · obtain ⟨x, hx, hal⟩ := (committed_other i lat fxs s s1 t ht).out a ha
    rw [← Option.some.inj (hx.symm.trans hb), hal.stepping, h0]
theorem lateWrites_tame (ci : Nat) (s : State) (n : Nat) (l w : List Nat) : Tame ci s (lateWrites s ci n l w) := by
  have hq := lateWrites_quiet s ci n l w
  refine ⟨hq.bad, hq.cur, hq.curLen, ?_, fun t z hz => ?_⟩
  · unfold lateWrites
    split
    · rfl
    · unfold updThreads
      rw [updCore_eq, getCore_putCore_self]
  · obtain ⟨a, ha⟩ := lateWrites_causes.back hz
    obtain ⟨y, hy, hal⟩ := (lateWrites_stays s ci n t l w).out a ha
    exact ⟨a, ha, fun h0 => by rw [← Option.some.inj (hy.symm.trans hz), hal.stepping, h0]⟩
theorem banked_tame {i : Instr} {s1 : State} {ci : Nat} {ths : List (Nat × Thread)} {c : Core} (hok : SpillsOk (putCore s1 ci c) ci) :
    Tame ci (putCore s1 ci c) (banked i s1 ci ths c) := by
  unfold banked
  extract_lets keep all x
  exact (settleBanks_tame hok).trans (lateWrites_tame ..)

section
variable {i : Instr} {lat : Lat} {s : State} {t e : Nat} {th : Thread} {part : Part} {f : FaultRec}

/-- The fault of the one active thread is the drill's only one. -/
theorem Alone.faults (h : Alone i s t th) :
    ((drillThreads i s).filterMap fun e => ((tget [(t, ({ fault := some f } : Fx))] e.1).bind (·.fault)).map fun f => (e.1, f)) = [(t, f)] := by
  have hone : ∀ e ∈ drillThreads i s, ((tget [(t, ({ fault := some f } : Fx))] e.1).bind (·.fault)).map (fun f => (e.1, f))
      = if actOn i e.2 then some (e.1, f) else none := by
    rintro ⟨u, x⟩ he
    by_cases ha : actOn i x = true
    · have hm : (u, x) ∈ activeThreads i s := List.mem_filter.2 ⟨he, ha⟩
      rw [h.act] at hm
      obtain ⟨rfl, rfl⟩ := Prod.mk.inj (List.mem_singleton.1 hm)
      rw [if_pos ha]
      simp [tget]
    · have hne : u ≠ t := by
        rintro rfl
        rw [drillThreads_unique he (mem_active h.mem).1] at ha
        exact ha (mem_active h.mem).2
      rw [if_neg ha, tget_none_of_not_mem (by simpa using hne)]
      rfl
  rw [List.filterMap_congr hone, ← List.filterMap_filter (p := fun e : Nat × Thread => actOn i e.2) (f := fun e : Nat × Thread => some (e.1, f)),
    show (drillThreads i s).filter (fun e => actOn i e.2) = activeThreads i s from rfl, h.act]
  rfl
/-- A drill whose one active thread faults parks it (R152). -/
theorem Alone.parks (h : Alone i s t th) (hp : part s t th = (s, { fault := some f })) (he : lowestFree 63 (tkeys (getCore s s.cur.core).frags) = some e)
    (hr : repairable f = false) : ParksWith f s (runDrill i lat part s) t ∧ Tame s.cur.core s (runDrill i lat part s) := by
  obtain ⟨th0, h0, -, -, hfree⟩ := h.thread
  have hsh : shapeFault i s (activeThreads i s) = none := shapeFault_none (th := th) (by rw [h.act]; exact h.sound)
  have hrun := runDrill_eq i lat part s h.some1 hsh
  have hoff : offFxs i s = [] := offFxs_nil h.calm.off
  rw [h.parts, hp, hoff, List.append_nil] at hrun
  have hok : SpillsOk (putCore s s.cur.core (committed i lat [(t, { fault := some f })] s s)) s.cur.core := committed_ok h.calm.spills
  have hset : settled i [(t, { fault := some f })] s s.cur.core (drillTime i s) (drillThreads i s) (committed i lat [(t, { fault := some f })] s s)
      = drillDone (stepsDone [(t, { fault := some f })] s.cur.core ((drillThreads i s).map (·.1))
          (takeFaults (banked i s s.cur.core (drillThreads i s) (committed i lat [(t, { fault := some f })] s s)) s.cur.core [(t, f)])) (drillTime i s) := by
    rw [← h.faults (f := f)]
    rfl
  rw [hset] at hrun
  have hb1 : Tame s.cur.core s (banked i s s.cur.core (drillThreads i s) (committed i lat [(t, { fault := some f })] s s)) := committed_tame.trans (banked_tame hok)
  -- the thread stands as it was until the fault is taken
  obtain ⟨x, hx, hxa⟩ := committed_stays i lat [(t, { fault := some f })] s s t th0 h0 h.drill
  have hcm : commitThread i s (drillTime i s) (drillReady i lat s s) (zeroOf i && !(activeThreads i s).isEmpty)
      (([(t, ({ fault := some f } : Fx))].find? fun e => e.2.fault.isNone && !e.2.stay).map (·.2)) [(t, { fault := some f })] t th0 = th0 := by
    unfold commitThread
    simp [tget]
  rw [hcm] at hxa
  obtain ⟨y, hy, hya⟩ := (banked_stays (i := i) (ths := drillThreads i s) hok t).out x (by rw [getCore_putCore_self]; exact hx)
  have hal := hxa.trans hya
  -- the table of fragments too
  obtain ⟨b, hb⟩ := Option.isSome_iff_exists.1 hok.store
  rw [getCore_putCore_self] at hb
  have hcore := (banked_settles (i := i) (ci := s.cur.core) (ths := drillThreads i s) hb h.calm.spills.good).core
  rw [getCore_putCore_self] at hcore
  generalize banked i s s.cur.core (drillThreads i s) (committed i lat [(t, { fault := some f })] s s) = s2 at hrun hb1 hy hcore
  have hfrags : (getCore s2 s.cur.core).frags = (getCore s s.cur.core).frags := by
    rw [hcore]
    exact (congrArg Core.frags (committed_only i lat [(t, { fault := some f })] s s) :)
  have hys : y.stepping = none := hal.stepping.trans hfree
  have hpk := takeFaults_parks (s := s2) (ci := s.cur.core) (l := [(t, f)]) (f := f) (List.cons_ne_nil _ _) (List.nodup_singleton _) (by rw [hfrags]; exact he)
    (fun x hx => by rw [List.mem_singleton.1 hx]) hr fun x hx w hw => by
      rw [List.mem_singleton.1 hx] at hw
      rw [← Option.some.inj (Eq.trans (Eq.symm hy) hw)]
      exact hys
  obtain ⟨hall, htame⟩ := hpk
  generalize takeFaults s2 s.cur.core [(t, f)] = s3 at hrun hall htame
  have h3 : Tame s.cur.core s s3 := hb1.trans htame
  rw [stepsDone_free fun u hu w hw => by
    obtain ⟨a, ha, hab⟩ := h3.free u w hw
    exact hab (h.calm.threads u hu a ha)] at hrun
  have hcur3 : s3.cur.core = s.cur.core := congrArg Drill.core h3.cur
  obtain ⟨lp, up, hd⟩ := drillDone_core s3 (drillTime i s)
  rw [hcur3] at hd
  rw [hrun]
  obtain ⟨new, hnew, hpar⟩ := hall.thread (t, f) (List.mem_singleton_self _) y hy
  obtain ⟨g, hg, hmem, hgr, hdet⟩ := hall.frag
  have hq : Quiet s3 (drillDone s3 (drillTime i s)) := drillDone_quiet ..
  refine ⟨⟨th0, new, e, g, h0, ?_, hpar.st, (hpar.of Thread.pc fun _ _ _ _ _ _ => rfl).trans hal.pc, fun r => ?_, (hpar.of Thread.preds fun _ _ _ _ _ _ => rfl).trans hal.preds, ?_, ?_,
    hdet _ (List.mem_singleton_self _), hgr _ (List.mem_singleton_self _)⟩, h3.trans ⟨hq.bad, hq.cur, hq.curLen, by rw [hd], fun u w hw => ⟨w, ?_, id⟩⟩⟩
  · rw [getThread, hd]
    exact hnew
  · rw [hpar.of Thread.regs fun _ _ _ _ _ _ => rfl]
    exact hal.val r
  · rw [hd]
    exact hg
  · rw [hmem]
    exact List.mem_singleton_self t
  · rw [getThread, hd] at hw
    exact hw
end
end Sys2Proof.Machine

/-! ### A count above 32 (R249) -/
namespace Sys2Proof.Machine
open Sys2Proof

section
variable {s : State} {ci : Nat}

theorem wakeThread_free {u n : Nat} (hs : ∀ th, getThread s ci u = some th → th.stepping = none) : (getCore (wakeThread s ci u n) ci).frags = (getCore s ci).frags := by
  cases h : getThread s ci u with
  | none => rw [wakeThread_none h]
  | some th =>
    have h1 : tget (getCore (putCore s ci { getCore s ci with threads := tput (getCore s ci).threads u (woken (getCore s ci) n th) }) ci).threads u
        = some (woken (getCore s ci) n th) := by
      rw [getCore_putCore_self]
      exact tget_tput_self ..
    have h2 : (woken (getCore s ci) n th).stepping = none := hs th h
    rw [wakeThread_eq h]
    unfold stepDone
    simp only [h1, h2]
    rw [getCore_putCore_self]
theorem rankedAll_frags {cyc : Nat} (l : List (Nat × Nat × Nat)) {s : State} (hs : ∀ u th, getThread s ci u = some th → th.stepping = none) :
    (getCore (rankedAll cyc ci l s) ci).frags = (getCore s ci).frags := by
  induction l generalizing s with
  | nil => rfl
  | cons x l ih =>
    have h1 : (getCore (rankedOne cyc ci s x) ci).frags = (getCore s ci).frags := by
      unfold rankedOne updThread
      rw [updCore_eq, getCore_putCore_self]
      exact wakeThread_free (hs x.1)
    refine (ih fun u th hu => ?_).trans h1
    obtain ⟨a, ha, hab⟩ := (rankedOne_tame (cyc := cyc) x).free u th hu
    exact hab (hs u a ha)
end
theorem lowestFree_nil : lowestFree 63 [] = some 0 := rfl
/-- A `join` with a count above 32 is a sheaf fault (R249). -/
theorem join_above {o : SyRR} {s : State} {t : Nat} {th : Thread} (hk : Kept 0 s) (h : Alone (.join o) s t th) (hs : th.sheaf = none) (hn : (sv2 th o.b).toNat > 32)
    (hst : ∀ e ∈ (getCore s s.cur.core).threads, e.2.stepping = none) (hf : (getCore s s.cur.core).frags = []) :
    ∃ s', exec (.join o) s = .next s' ∧ ParksWith (sheafFault 5 0xFFFFFFFF) s s' t := by
  have hpart : joinPart o s t th = (s, { fault := some (sheafFault 5 0xFFFFFFFF) }) := by
    unfold joinPart threadHandle
    simp only [if_pos hn, hs]
  obtain ⟨hpk, ht⟩ := h.parks (lat := latInt) hpart (e := 0) (by rw [hf]; exact lowestFree_nil) rfl
  have hok : SpillsOk (runDrill (.join o) latInt (joinPart o) s) s.cur.core := ht.ok h.calm.spills
  have hkd : Kept 0 (runDrill (.join o) latInt (joinPart o) s) := hk.runDrill joinPart_keeps
  obtain ⟨old, new, e, g, ho, hnew, hnst, hpc, hregs, hpreds, hg, hm, hdet, hgr⟩ := hpk
  have hout : t ∉ (closedOf (getCore (runDrill (.join o) latInt (joinPart o) s) s.cur.core)).map (·.1) := fun hx => by
    obtain ⟨y, hy, rfl⟩ := List.mem_map.1 hx
    obtain ⟨w, b, hmem, hwst, -⟩ := mem_closedOf hy
    obtain rfl := Option.some.inj (hnew.symm.trans (tget_of_mem (hkd.get _).threads hmem))
    rw [hnst] at hwst
    exact absurd hwst (by simp)
  obtain ⟨z, hz, hal⟩ := (finishJoins_stays hok t).out new ((rankedAll_other hout).trans hnew)
  obtain ⟨x, hcore⟩ := finishJoins_core hok
  refine ⟨_, execJoin_eq o s, old, z, e, g, ho, hz, hal.st.trans hnst, hal.pc.trans hpc, fun r => (hal.val r).trans (hregs r), hal.preds.trans hpreds, ?_, hm, hdet, hgr⟩
  rw [hcore]
  refine (congrArg (fun x => tget x e) (rankedAll_frags _ fun u w hu => ?_)).trans hg
  obtain ⟨a, ha, hab⟩ := ht.free u w hu
  exact hab (hst _ (tget_mem _ _ _ ha))
end Sys2Proof.Machine

/-! ### `spawn` (R28, R246) -/
namespace Sys2Proof.Machine
open Sys2Proof

/-! ### Transfers that land (R176, R243) -/

theorem brTarget_eq (pc : DWord) (o : BrOp) : brTarget pc o
    = BitVec.ofInt 64 (((pc.toNat / 128 : Nat) : Int) + o.delta.toInt) * 128 + 4 * o.word.zeroExtend 64 := by
  have h1 : pc >>> 7 = BitVec.ofInt 64 ((pc.toNat / 128 : Nat) : Int) := by
    rw [BitVec.ofInt_natCast]
    refine BitVec.eq_of_toNat_eq ?_
    rw [BitVec.toNat_ushiftRight, Nat.shiftRight_eq_div_pow, BitVec.toNat_ofNat, Nat.mod_eq_of_lt]
    omega
  have h2 : BitVec.ofNat 64 (o.word.toNat * 4) = 4 * o.word.zeroExtend 64 := by
    refine BitVec.eq_of_toNat_eq ?_
    simp [BitVec.toNat_mul, Nat.mul_comm]
  unfold brTarget
  rw [h1, h2, BitVec.ofInt_add]
  rfl
theorem Lands.transferTo {s : State} {plot : Nat} {t : DWord} (h : Lands s plot t) : Machine.transferTo s s.cur.core plot t = (.ok, s) := by
  obtain ⟨hc, h4, h2, l, hl, ht⟩ := h
  have hf : fetchLine s s.cur.core plot t.toNat = (.ok l, s) := by
    unfold fetchLine fetchFor
    rw [hl]
  unfold Machine.transferTo
  dsimp only
  rw [if_neg (by simp only [hc, Bool.not_true, Bool.false_eq_true, false_or]; omega), hf]
  simp [ht]

/-! ### A thread that goes on -/

/-- What is said of a thread from one that is alike. -/
theorem Got.from_alike {i : Instr} {e : Effect} {old mid new : Thread} (h : Got i e mid new) (ha : Alike old mid) : Got i e old new := by
  refine ⟨h.written, h.awaited, h.released, fun r hr hl => (h.kept r hr hl).trans (ha.val r), fun p h0 h8 => by rw [h.preds p h0 h8, ha.preds],
    by rw [h.p0, ha.preds], by rw [h.ast, ha.ast], ?_, ?_, ?_⟩
  · obtain ⟨n, hn⟩ := h.pending
    exact ⟨n, by rw [hn, ha.of Thread.flags fun _ => rfl]⟩
  · rw [h.words]
    exact ha.of namedWords fun _ => rfl
  · obtain ⟨h1, h2, h3⟩ := h.place
    exact ⟨h1.trans ha.plot, h2.trans ha.sheaf, h3.trans ha.serves⟩
section
variable {i : Instr} {lat : Lat} {s s1 : State} {part : Part} {t : Nat} {fx : Fx}

theorem Sound.goes (h : Sound i part s s1 [(t, fx)]) (hd : t ∈ (drillThreads i s).map (·.1))
    (hm : fx.fault = none ∧ fx.wait = none ∧ fx.stay = false ∧ fx.gone = false) (hp : Plain fx) {th1 : Thread} (h1 : getThread s1 s.cur.core t = some th1)
    (hl : s1.curLen = s.curLen) : ∃ new, getThread (runDrill i lat part s) s.cur.core t = some new ∧
      Moved i { regs := fx.regs, preds := fx.preds, flags := fx.flags, sr := readFlag i s1 th1 } (fx.jump.getD (after s)) th1 new := by
  obtain ⟨new, hn, hal⟩ := h.thread (lat := lat) hd h1
  rw [commitThread_goes hm] at hal
  have hmv := hp.applyFx.moved hal rfl
  rw [h.cur, hl] at hmv
  exact ⟨new, hn, hmv⟩
end

/-! ### The child -/

theorem pickSlot_free {c : Core} {plot role slot u : Nat} (h : pickSlot c plot role slot = some u) : tget c.threads u = none := by
  have hm : u ∈ freeSlots c plot role slot := by
    unfold pickSlot at h
    dsimp only at h
    split at h
    · next hf => exact Option.some.inj h ▸ List.mem_of_find?_eq_some hf
    · exact List.mem_of_head? h
  unfold freeSlots at hm
  split at hm
  · obtain ⟨hm, -⟩ := List.mem_filter.1 hm
    obtain ⟨e, he, rfl⟩ := List.mem_map.1 hm
    have := (List.mem_filter.1 he).2
    simp only [Bool.and_eq_true, Option.isNone_iff_eq_none] at this
    exact this.2
  · have := (List.mem_filter.1 hm).2
    unfold freeFor at this
    simp only [Bool.and_eq_true, Option.isNone_iff_eq_none] at this
    exact this.1.1
theorem spawnChild_val (s : State) (th : Thread) (p : DWord) (b u r : Nat) :
    (tget (spawnChild s th p b u).regs r).map (·.val) = if r < 8 then (tget th.regs r).map (·.val) else none := by
  have h1 : tget (spawnChild s th p b u).regs r = (tget (th.regs.filter fun e => decide (e.1 < 8)) r).map fun c => ({ val := c.val } : RegCell) :=
    tget_tmap (th.regs.filter fun e => decide (e.1 < 8)) (fun _ (c : RegCell) => ({ val := c.val } : RegCell)) r
  have h2 := tget_filter th.regs (fun k => decide (k < 8)) r
  rw [h1, h2]
  by_cases hr : r < 8
  · simp [hr, Option.map_map, Function.comp_def]
  · simp [hr]
end Sys2Proof.Machine

/-! ### A spawn that finds a place (R28, R29, R246) -/
namespace Sys2Proof.Machine
open Sys2Proof

/-- The bin of a new spawn. -/
def freshBin (c : Core) (th : Thread) (target : DWord) : Bin :=
  { plot := th.plot, role := th.role, slot := bestSlot fun k => (freeSlots c th.plot th.role k).length, key := target.toNat, first := c.cyc }
/-- The state in which it stands, without a member. -/
def binMade (s : State) (ci b : Nat) (th : Thread) (target : DWord) : State :=
  putCore s ci { getCore s ci with bins := tput (getCore s ci).bins b (freshBin (getCore s ci) th target) }
/-- The child stands in its slot and its bin. -/
def childMade (s : State) (ci b u : Nat) (th : Thread) (target : DWord) : State := updCore (binMade s ci b th target) ci fun c => { c with
  threads := tput c.threads u (spawnChild (binMade s ci b th target) th target b u)
  bins := tupd c.bins b fun x => { x with members := x.members ++ [u] } }
/-- Its registers have their places. -/
def spawned (s : State) (ci b u t : Nat) (th : Thread) (target : DWord) : State :=
  (settleBanks (getCore (binMade s ci b th target) ci) (childMade s ci b u th target) ci [u] (fun v => if v = t then List.range 8 else []) 16).1

section
variable {s : State} {ci b u t : Nat} {th : Thread} {target : DWord}

theorem spawnPlace_eq (hb : spawnBin (getCore s ci) th.plot th.role target.toNat = none) (hf : lowestFree Config.binCount (tkeys (getCore s ci).bins) = some b)
    (hp : pickSlot (getCore s ci) th.plot th.role (bestSlot fun k => (freeSlots (getCore s ci) th.plot th.role k).length) = some u) :
    spawnPlace s ci th.plot th.role target.toNat = (some (b, u), binMade s ci b th target) := by
  unfold spawnPlace
  simp only [hb, hf, hp]
  rfl
theorem childMade_core : getCore (childMade s ci b u th target) ci = { getCore s ci with
    threads := tput (getCore s ci).threads u (spawnChild (binMade s ci b th target) th target b u)
    bins := tupd (tput (getCore s ci).bins b (freshBin (getCore s ci) th target)) b fun x => { x with members := x.members ++ [u] } } := by
  unfold childMade
  rw [updCore_eq, getCore_putCore_self]
  unfold binMade
  rw [getCore_putCore_self]
theorem childMade_bin : tget (getCore (childMade s ci b u th target) ci).bins b = some { freshBin (getCore s ci) th target with members := [u] } := by
  rw [childMade_core]
  dsimp only
  rw [tget_tupd_self, tget_tput_self]
  rfl
theorem childMade_ok (h : SpillsOk s ci) : SpillsOk (childMade s ci b u th target) ci := h.of (by rw [childMade_core]) rfl
theorem childMade_thread (v : Nat) : getThread (childMade s ci b u th target) ci v
    = if v = u then some (spawnChild (binMade s ci b th target) th target b u) else getThread s ci v := by
  rw [getThread, childMade_core]
  exact tget_tput ..
theorem spawned_tame (h : SpillsOk s ci) : Tame ci (childMade s ci b u th target) (spawned s ci b u t th target) := settleBanks_tame (childMade_ok h)
theorem spawned_stays (h : SpillsOk s ci) (v : Nat) : StaysS ci v (childMade s ci b u th target) (spawned s ci b u t th target) :=
  (settleBanks_stays _ _ _ _ _ _ v (childMade_ok h)).stays
theorem spawned_bin (h : SpillsOk s ci) : tget (getCore (spawned s ci b u t th target) ci).bins b = some { freshBin (getCore s ci) th target with members := [u] } := by
  obtain ⟨x, hx⟩ := Option.isSome_iff_exists.1 (childMade_ok (b := b) (u := u) (th := th) (target := target) h).store
  have hs : Settles ci x (childMade s ci b u th target) (spawned s ci b u t th target) := by
    unfold spawned
    exact settleBanks_settles _ _ _ _ _ _ _ hx (childMade_ok h).good
  rw [hs.core]
  dsimp only
  exact childMade_bin
end

section
variable {o : BrOp} {s : State} {t u b : Nat} {th : Thread}

theorem spawnPart_eq (hu : unperformed s s.cur.core t = false) (hl : Lands s th.plot (brTarget s.cur.pc o)) (hok : SpillsOk s s.cur.core)
    (hb : spawnBin (getCore s s.cur.core) th.plot th.role (brTarget s.cur.pc o).toNat = none)
    (hf : lowestFree Config.binCount (tkeys (getCore s s.cur.core).bins) = some b)
    (hp : pickSlot (getCore s s.cur.core) th.plot th.role (bestSlot fun k => (freeSlots (getCore s s.cur.core) th.plot th.role k).length) = some u) :
    spawnPart o s t th = (spawned s s.cur.core b u t th (brTarget s.cur.pc o), {}) := by
  have h1 : (tgetD (getCore (spawned s s.cur.core b u t th (brTarget s.cur.pc o)) s.cur.core).bins b {}).members = [u] := by
    rw [tgetD, spawned_bin hok]
    rfl
  have h2 : spawnPart o s t th = (if (tgetD (getCore (spawned s s.cur.core b u t th (brTarget s.cur.pc o)) s.cur.core).bins b {}).members.length ≥ 32
      then launchBin (spawned s s.cur.core b u t th (brTarget s.cur.pc o)) s.cur.core b else spawned s s.cur.core b u t th (brTarget s.cur.pc o), {}) := by
    unfold spawnPart
    dsimp only
    rw [hu, if_neg Bool.false_ne_true, hl.transferTo]
    dsimp only
    rw [spawnPlace_eq hb hf hp]
    rfl
  rw [h2, h1, if_neg (by simp)]
/-- Where a thread of the plot is ready there is no deadlock (R29). -/
theorem spawnDeadlock_idle {s : State} {ci plot v : Nat} {w : Thread} (h : getThread s ci v = some w) (hp : w.plot = plot) (hst : w.st = .ready) :
    spawnDeadlock s ci plot = s := by
  have hm : (v, w) ∈ (getCore s ci).threads.filter fun e => e.2.plot == plot := List.mem_filter.2 ⟨tget_mem _ _ _ h, by simp [hp]⟩
  have hw : spawnWaits w = false := by
    unfold spawnWaits
    rw [hst]
  have hs : spawnStuck (getCore s ci) plot = false := by
    unfold spawnStuck
    rw [Bool.and_eq_false_iff]
    refine .inr (List.all_eq_false.2 ⟨(v, w), hm, ?_⟩)
    rw [hw]
    exact Bool.false_ne_true
  unfold spawnDeadlock
  dsimp only
  rw [hs, if_neg Bool.false_ne_true]
/-- A taken `spawn` that finds a place (R28, R246). -/
theorem spawns (h : Alone (.spawn o) s t th) (hu : unperformed s s.cur.core t = false) (hl : Lands s th.plot (brTarget s.cur.pc o))
    (hb : spawnBin (getCore s s.cur.core) th.plot th.role (brTarget s.cur.pc o).toNat = none)
    (hf : lowestFree Config.binCount (tkeys (getCore s s.cur.core).bins) = some b)
    (hp : pickSlot (getCore s s.cur.core) th.plot th.role (bestSlot fun k => (freeSlots (getCore s s.cur.core) th.plot th.role k).length) = some u) :
    ∃ s' child, exec (.spawn o) s = .next s' ∧ getThread s' s.cur.core u = some child ∧
      (∃ s1 y, Alike (spawnChild s1 th (brTarget s.cur.pc o) b u) y ∧ Untouched y child ∧ s1.now = s.now) ∧
      (tgetD (getCore s' s.cur.core).bins b {}).members = [u] ∧ MovesTo (.spawn o) (fun _ => {}) (after s) s s' t := by
  obtain ⟨th0, h0, -, hth, hfree⟩ := h.thread
  have hok := h.calm.spills
  have hpart := spawnPart_eq hu hl hok hb hf hp
  have hnone := pickSlot_free hp
  have htu : ∀ v, (getThread s s.cur.core v).isSome = true → v ≠ u := by
    rintro v hv rfl
    rw [getThread, hnone] at hv
    exact absurd hv (by simp)
  have hst := fun v => spawned_stays (b := b) (u := u) (t := t) (th := th) (target := brTarget s.cur.pc o) hok v
  have htm := spawned_tame (b := b) (u := u) (t := t) (th := th) (target := brTarget s.cur.pc o) hok
  have hbin := spawned_bin (b := b) (u := u) (t := t) (th := th) (target := brTarget s.cur.pc o) hok
  generalize spawned s s.cur.core b u t th (brTarget s.cur.pc o) = s1 at hpart hst htm hbin
  have hsd : Sound (.spawn o) (spawnPart o) s s1 [(t, {})] := by
    refine ⟨(h.parts _).trans (by rw [hpart]), h.some1, htm.cur, shapeFault_none (th := th) (by rw [h.act]; exact h.sound), fun e he => ?_, offFxs_nil h.calm.off,
      fun v hv w hw => ?_, htm.ok (childMade_ok hok)⟩
    · rw [List.mem_singleton.1 he]
    · obtain ⟨e, he, rfl⟩ := List.mem_map.1 hv
      obtain ⟨x, hx, -⟩ := mem_drillThreads (t := e.1) (th := e.2) he
      obtain ⟨y, hy, hyw⟩ := htm.free _ w hw
      rw [childMade_thread, if_neg (htu e.1 (by rw [hx]; rfl))] at hy
      exact hyw (h.calm.threads _ (List.mem_map_of_mem he) y hy)
  have hcl : s1.curLen = s.curLen := htm.curLen
  -- the spawner
  have ht1 : getThread (childMade s s.cur.core b u th (brTarget s.cur.pc o)) s.cur.core t = some th0 := by
    rw [childMade_thread, if_neg (htu t (by rw [h0]; rfl))]
    exact h0
  obtain ⟨x, hx, hxa⟩ := (hst t).out th0 ht1
  obtain ⟨new, hnew, hmv⟩ := hsd.goes (lat := latInt) h.drill ⟨rfl, rfl, rfl, rfl⟩ ⟨rfl, List.nodup_nil, List.nodup_nil⟩ hx hcl
  rw [readFlag_nil rfl] at hmv
  -- the child
  obtain ⟨y, hy, hya⟩ := (hst u).out _ (by rw [← getThread, childMade_thread, if_pos rfl])
  have hud : u ∉ (drillThreads (.spawn o) s).map (·.1) := fun hm => by
    obtain ⟨e, he, rfl⟩ := List.mem_map.1 hm
    obtain ⟨w, hw, -⟩ := mem_drillThreads (t := e.1) (th := e.2) he
    exact htu e.1 (by rw [hw]; rfl) rfl
  obtain ⟨child, hchild, hun⟩ := hsd.other (lat := latInt) hud hy
  -- no deadlock: a thread of the drill is ready
  have hdead : ∀ e ∈ drillThreads (.spawn o) s, spawnDeadlock (runDrill (.spawn o) latInt (spawnPart o) s) s.cur.core e.2.plot = runDrill (.spawn o) latInt (spawnPart o) s := by
    rintro ⟨v, w⟩ he
    obtain ⟨w0, hw0, -, -, hw⟩ := mem_drillThreads he
    have hpl : w.plot = w0.plot := by rw [hw, undefReads_id.1]
    by_cases hvt : v = t
    · subst hvt
      obtain rfl := Option.some.inj (h0.symm.trans hw0)
      exact spawnDeadlock_idle hnew ((hmv.got.place.1.trans hxa.plot).trans hpl.symm) hmv.ready
    · have hv1 : getThread (childMade s s.cur.core b u th (brTarget s.cur.pc o)) s.cur.core v = some w0 := by
        rw [childMade_thread, if_neg (htu v (by rw [hw0]; rfl))]
        exact hw0
      obtain ⟨z, hz, hza⟩ := (hst v).out w0 hv1
      obtain ⟨n, hn, hr, hp⟩ := hsd.masked (lat := latInt) (List.mem_map_of_mem he) hvt hz
      exact spawnDeadlock_idle hn ((hp.trans hza.plot).trans hpl.symm) hr
  have hexec : exec (.spawn o) s = .next (runDrill (.spawn o) latInt (spawnPart o) s) := by
    refine (show exec (.spawn o) s = .next (spawnDeadlock (runDrill (.spawn o) latInt (spawnPart o) s) s.cur.core (((drillThreads (.spawn o) s).head?.map (·.2.plot)).getD 0)) from rfl).trans ?_
    cases hd : drillThreads (.spawn o) s with
    | nil =>
      have hm := h.drill
      rw [hd] at hm
      exact absurd hm List.not_mem_nil
    | cons e l =>
      rw [List.head?_cons, Option.map_some, Option.getD_some, hdead e (by rw [hd]; exact List.mem_cons_self)]
  refine ⟨_, child, hexec, hchild, ⟨_, y, hya, hun, rfl⟩, ?_, th0, new, h0, hnew, hmv.got.from_alike hxa, hmv.pc, hmv.ready⟩
  obtain ⟨x, p, q, hc⟩ := hsd.core_eq (lat := latInt) rfl rfl
  rw [hc, tgetD, hbin]
  rfl
end
end Sys2Proof.Machine

/-! ### Spawned threads and gatherings, together -/
namespace Sys2Proof.Machine
open Sys2Proof

/-- The fields of a spawned child (R246). -/
theorem spawnChild_fields {s1 : State} {th y child : Thread} {p : DWord} {b u : Nat} (ha : Alike (spawnChild s1 th p b u) y) (hu : Untouched y child) :
    child.pc = p ∧ (∀ r, r < 8 → (tget child.regs r).map (·.val) = (tget th.regs r).map (·.val)) ∧ (∀ r, 8 ≤ r → tget child.regs r = none) ∧
      child.preds = 1 ∧ child.ast = 0 ∧ child.mode = th.mode ∧ child.aen = th.aen ∧ child.horizon = th.horizon ∧ child.plot = th.plot ∧
      child.role = th.role ∧ child.age = s1.now ∧ child.sheaf = none := by
  have hval : ∀ r, (tget child.regs r).map (·.val) = if r < 8 then (tget th.regs r).map (·.val) else none := fun r =>
    (hu.regs r).trans ((ha.val r).trans (spawnChild_val ..))
  refine ⟨(hu.of Thread.pc fun _ => rfl).trans ha.pc, fun r hr => by rw [hval, if_pos hr], fun r hr => ?_, (hu.of Thread.preds fun _ => rfl).trans ha.preds,
    (hu.of Thread.ast fun _ => rfl).trans ha.ast, (hu.of Thread.mode fun _ => rfl).trans ha.mode, (hu.of Thread.aen fun _ => rfl).trans ha.aen,
    (hu.of Thread.horizon fun _ => rfl).trans ha.horizon, (hu.of Thread.plot fun _ => rfl).trans ha.plot, (hu.of Thread.role fun _ => rfl).trans ha.role,
    (hu.of Thread.age fun _ => rfl).trans ha.age, (hu.of Thread.sheaf fun _ => rfl).trans ha.sheaf⟩
  have h1 := hval r
  rw [if_neg (by omega)] at h1
  exact Option.map_eq_none_iff.1 h1
end Sys2Proof.Machine

section
open Sys2Proof Sys2Proof.Machine

/-- Settles O33: `spawn` by the child's way from its part to the end of the drill, `join` by what `finishJoins` makes of its gathering. -/
theorem spawnsAndJoins : Obligations.SpawnsAndJoins := by
  refine ⟨fun o s t u b th h hu _ hl hb hf hp => ?_, fun o s t th hW h hs hst _ hpk => ⟨fun hn hf => join_above ((kept_iff s).2 hW) h hs hn hst hf,
    fun b h2 h32 hj hb hg => ?_, fun b x h1 h32 hj hx hc hlen hn hm _ _ _ => join_closes ((kept_iff s).2 hW) h hs hpk h1 h32 hj hx hc hlen hn hm⟩⟩
  · rw [← brTarget_eq] at hl hb ⊢
    obtain ⟨s', child, he, hc, ⟨s1, y, ha, hun, hnow⟩, hbin, hmv⟩ := spawns h hu hl hb hf hp
    obtain ⟨g1, g2, g3, g4, g5, g6, g7, g8, g9, g10, g11, g12⟩ := spawnChild_fields ha hun
    exact ⟨s', child, he, hc, g1, g2, g3, g4, g5, g6, g7, g8, g9, g10, g11.trans hnow, g12, hbin, hmv⟩
  · obtain ⟨s', he, hw, hx⟩ := join_opens ((kept_iff s).2 hW) h hs hpk h2 h32 hj hb hg
    exact ⟨s', _, he, hw, hx, rfl, rfl, rfl, rfl, rfl, rfl, rfl⟩
end

/-! ### Who supplies the PC (R32, R33, R35) -/
namespace Sys2Proof.Machine
open Sys2Proof

theorem firstBy_mem {lt : Cand → Cand → Bool} {l : List Cand} {x : Cand} (h : firstBy lt l = some x) : x ∈ l := by
  cases l with
  | nil => exact absurd h (by simp [firstBy])
  | cons a l =>
    obtain rfl := Option.some.inj h
    refine List.foldlRecOn l _ (motive := fun z => z ∈ a :: l) List.mem_cons_self fun z hz b hb => ?_
    split
    · exact List.mem_cons_of_mem _ hb
    · exact hz
theorem firstBy_none {lt : Cand → Cand → Bool} {l : List Cand} (h : firstBy lt l = none) : l = [] := by
  cases l with
  | nil => rfl
  | cons a l => exact absurd h (by simp [firstBy])
/-- The first by an order that goes by a number has the least one. -/
theorem firstBy_least {lt : Cand → Cand → Bool} {key : Cand → Nat} (h1 : ∀ a b, lt b a = true → key b ≤ key a) (h2 : ∀ a b, lt b a = false → key a ≤ key b)
    {l : List Cand} {x : Cand} (h : firstBy lt l = some x) : ∀ y ∈ l, key x ≤ key y := by
  have hfold : ∀ (l : List Cand) (a : Cand), key (l.foldl (fun a b => if lt b a then b else a) a) ≤ key a ∧
      ∀ y ∈ l, key (l.foldl (fun a b => if lt b a then b else a) a) ≤ key y := by
    intro l
    induction l with
    | nil => exact fun a => ⟨le_refl _, fun y hy => absurd hy List.not_mem_nil⟩
    | cons b l ih =>
      intro a
      obtain ⟨g1, g2⟩ := ih (if lt b a then b else a)
      have hstep : key (if lt b a then b else a) ≤ key a ∧ key (if lt b a then b else a) ≤ key b := by
        cases hb : lt b a with
        | true => exact ⟨h1 a b hb, le_refl _⟩
        | false => exact ⟨le_refl _, h2 a b hb⟩
      refine ⟨g1.trans hstep.1, fun y hy => ?_⟩
      rcases List.mem_cons.1 hy with rfl | hy
      · exact g1.trans hstep.2
      · exact g2 y hy
  cases l with
  | nil => exact absurd h (by simp [firstBy])
  | cons a l =>
    obtain rfl := Option.some.inj h
    intro y hy
    rcases List.mem_cons.1 hy with rfl | hy
    · exact (hfold l y).1
    · exact (hfold l a).2 y hy

/-- The threads among which a slot's policy chooses where none is overdue: those not of low priority, if there are any (R33). -/
def choices (cyc : Nat) (pool : List Cand) : List Cand :=
  if (pool.filter fun x => !lowNow cyc x).isEmpty then pool else pool.filter fun x => !lowNow cyc x
theorem choices_mem {cyc : Nat} {pool : List Cand} {x : Cand} (h : x ∈ choices cyc pool) : x ∈ pool := by
  unfold choices at h
  split at h
  · exact h
  · exact List.mem_of_mem_filter h
theorem choices_high {cyc : Nat} {pool : List Cand} {x y : Cand} (h : x ∈ choices cyc pool) (hy : y ∈ pool) (hl : lowNow cyc y = false) : lowNow cyc x = false := by
  have hm : y ∈ pool.filter fun x => !lowNow cyc x := List.mem_filter.2 ⟨hy, by rw [hl]; rfl⟩
  unfold choices at h
  rw [if_neg (fun he => by rw [List.isEmpty_iff.1 he] at hm; exact absurd hm List.not_mem_nil)] at h
  simpa using (List.mem_filter.1 h).2
theorem choices_all {cyc : Nat} {pool : List Cand} (h : ∀ y ∈ pool, y.th.lowUntil = none) : choices cyc pool = pool := by
  have hf : (pool.filter fun x => !lowNow cyc x) = pool := List.filter_eq_self.2 fun y hy => by
    unfold lowNow
    rw [h y hy]
    rfl
  unfold choices
  rw [hf, ite_self]
theorem lowNow_false {cyc : Nat} {x : Cand} : lowNow cyc x = false ↔ ∀ n, x.th.lowUntil = some n → n < cyc := by
  unfold lowNow
  cases h : x.th.lowUntil with
  | none => simp
  | some n => simp
/-- The choice by the policy, where no thread is overdue (R32). -/
def policyPick (c : Core) (pol : Pol) (p : List Cand) : Option Cand :=
  if c.roundRobin then
    firstBy (fun a b => decide (tineDist pol.lastTine a.tid < tineDist pol.lastTine b.tid) || (tineDist pol.lastTine a.tid == tineDist pol.lastTine b.tid && decide (a.tid < b.tid))) p
  else match pol.kept with
    | none => firstBy olderCand p
    | some (pc, plot, role) =>
      (firstBy olderCand (p.filter fun x => x.th.pc == pc && x.th.plot == plot && x.th.role == role)).orElse fun _ => firstBy olderCand p
theorem supplier_eq (c : Core) (pol : Pol) (pool : List Cand) : supplier c pol pool
    = (firstBy overdueBefore (pool.filter fun x => x.th.overdue.isSome)).or (policyPick c pol (choices c.cyc pool)) := by
  unfold supplier
  cases firstBy overdueBefore (pool.filter fun x => x.th.overdue.isSome) with
  | some x => rfl
  | none => rfl
theorem policyPick_mem {c : Core} {pol : Pol} {p : List Cand} {x : Cand} (h : policyPick c pol p = some x) : x ∈ p := by
  unfold policyPick at h
  split at h
  · exact firstBy_mem h
  · split at h
    · exact firstBy_mem h
    · rw [Option.orElse_eq_or, Option.or_eq_some_iff] at h
      rcases h with h | ⟨-, h⟩
      · exact List.mem_of_mem_filter (firstBy_mem h)
      · exact firstBy_mem h
theorem olderCand_age {l : List Cand} {x : Cand} (h : firstBy olderCand l = some x) (hl : ∀ y ∈ l, y.th.born < 256 ∧ y.tid < 256) : ∀ y ∈ l, x.th.age ≤ y.th.age := by
  intro y hy
  have hk := firstBy_least (lt := olderCand) (key := fun a => ageKey (a.tid, a.th)) (fun a b hab => le_of_lt (of_decide_eq_true hab))
    (fun a b hab => Nat.le_of_not_lt (of_decide_eq_false hab)) h y hy
  obtain ⟨hx1, hx2⟩ := hl x (firstBy_mem h)
  obtain ⟨hy1, hy2⟩ := hl y hy
  unfold ageKey at hk
  dsimp only at hk
  omega
theorem policyPick_kept {c : Core} {pol : Pol} {p : List Cand} {x : Cand} (h : policyPick c pol p = some x) (hr : c.roundRobin = false) {pc : DWord} {plot role : Nat}
    (hk : pol.kept = some (pc, plot, role)) (hy : ∃ y ∈ p, y.th.pc = pc ∧ y.th.plot = plot ∧ y.th.role = role) : x.th.pc = pc ∧ x.th.plot = plot ∧ x.th.role = role := by
  unfold policyPick at h
  rw [hr, if_neg Bool.false_ne_true, hk] at h
  simp only [Option.orElse_eq_or, Option.or_eq_some_iff] at h
  rcases h with h | ⟨h, -⟩
  · have hm := (List.mem_filter.1 (firstBy_mem h)).2
    simpa [and_assoc] using hm
  · obtain ⟨y, hm, h1, h2, h3⟩ := hy
    have hmem : y ∈ p.filter fun x => x.th.pc == pc && x.th.plot == plot && x.th.role == role := List.mem_filter.2 ⟨hm, by simp [h1, h2, h3]⟩
    rw [firstBy_none h] at hmem
    exact absurd hmem List.not_mem_nil
theorem policyPick_oldest {c : Core} {pol : Pol} {p : List Cand} {x : Cand} (h : policyPick c pol p = some x) (hr : c.roundRobin = false)
    (hl : ∀ y ∈ p, y.th.born < 256 ∧ y.tid < 256)
    (hk : ∀ pc plot role, pol.kept = some (pc, plot, role) → ∀ y ∈ p, ¬ (y.th.pc = pc ∧ y.th.plot = plot ∧ y.th.role = role)) : ∀ y ∈ p, x.th.age ≤ y.th.age := by
  unfold policyPick at h
  rw [hr, if_neg Bool.false_ne_true] at h
  split at h
  · exact olderCand_age h hl
  · next pc plot role hkept =>
    have hnil : (p.filter fun x => x.th.pc == pc && x.th.plot == plot && x.th.role == role) = [] :=
      List.filter_eq_nil_iff.2 fun y hy hm => hk pc plot role hkept y hy (by simpa [and_assoc] using hm)
    rw [hnil] at h
    exact olderCand_age h hl
/-- Who supplies the PC (R32, R33, R35). -/
theorem supplier_picks {c : Core} {p : Pol} {pool : List Cand} {x : Cand} (h : supplier c p pool = some x) : x ∈ pool ∧
    (∀ y ∈ pool, ∀ n, y.th.overdue = some n → ∃ m, x.th.overdue = some m ∧ m ≤ n) ∧
    ((∀ y ∈ pool, y.th.overdue = none) → (∃ y ∈ pool, ∀ n, y.th.lowUntil = some n → n < c.cyc) → ∀ n, x.th.lowUntil = some n → n < c.cyc) ∧
    (c.roundRobin = false → (∀ y ∈ pool, y.th.overdue = none ∧ y.th.lowUntil = none ∧ y.th.born < 256 ∧ y.tid < 256) →
      (∀ pc plot role, p.kept = some (pc, plot, role) → (∃ y ∈ pool, y.th.pc = pc ∧ y.th.plot = plot ∧ y.th.role = role) →
        x.th.pc = pc ∧ x.th.plot = plot ∧ x.th.role = role) ∧
      ((∀ pc plot role, p.kept = some (pc, plot, role) → ∀ y ∈ pool, ¬ (y.th.pc = pc ∧ y.th.plot = plot ∧ y.th.role = role)) → ∀ y ∈ pool, x.th.age ≤ y.th.age)) := by
  rw [supplier_eq, Option.or_eq_some_iff] at h
  rcases h with h | ⟨hnone, h⟩
  case inl =>
    obtain ⟨hm, hx⟩ := List.mem_filter.1 (firstBy_mem h)
    obtain ⟨m, hxm⟩ := Option.isSome_iff_exists.1 hx
    have hleast := firstBy_least (lt := overdueBefore) (key := fun a => a.th.overdue.getD 0)
      (fun a b hab => by
        unfold overdueBefore at hab
        simp only [Bool.or_eq_true, decide_eq_true_eq, Bool.and_eq_true, beq_iff_eq] at hab
        omega)
      (fun a b hab => by
        unfold overdueBefore at hab
        simp only [Bool.or_eq_false_iff, decide_eq_false_iff_not] at hab
        omega) h
    refine ⟨hm, fun y hy n hn => ⟨m, hxm, ?_⟩, fun hall => absurd (hall x hm) (by rw [hxm]; simp), fun _ hall => absurd (hall x hm).1 (by rw [hxm]; simp)⟩
    have := hleast y (List.mem_filter.2 ⟨hy, by rw [hn]; rfl⟩)
    rwa [hxm, hn] at this
  case inr =>
    have hod : ∀ y ∈ pool, y.th.overdue = none := fun y hy => by
      by_contra hne
      have hmem : y ∈ pool.filter fun x => x.th.overdue.isSome := List.mem_filter.2 ⟨hy, Option.isSome_iff_ne_none.2 hne⟩
      rw [firstBy_none hnone] at hmem
      exact absurd hmem List.not_mem_nil
    have hx := policyPick_mem h
    refine ⟨choices_mem hx, fun y hy n hn => absurd (hod y hy) (by rw [hn]; simp), fun _ ⟨y, hy, hl⟩ => lowNow_false.1 (choices_high hx hy (lowNow_false.2 hl)), fun hr hall => ?_⟩
    rw [choices_all fun y hy => (hall y hy).2.1] at h
    exact ⟨fun pc plot role hk hy => policyPick_kept h hr hk hy, fun hk => policyPick_oldest h hr (fun y hy => (hall y hy).2.2) hk⟩
end Sys2Proof.Machine

/-! ### Overdue threads, windows of `yield` and the fallback of a stop (R33, R35, R164) -/
namespace Sys2Proof.Machine
open Sys2Proof

/-- A step that maps every thread of every core. -/
theorem mapped_threads {s : State} {g : Core → Core} {f : Core → Thread → Thread} (hg : ∀ c, g c = { c with threads := tmap c.threads fun _ th => f c th })
    {ci : Nat} {c : Core} (hc : tget s.cores ci = some c) : ∃ c', tget (tmap s.cores fun _ c => g c) ci = some c' ∧ { c' with threads := c.threads } = c ∧
      ∀ t th, tget c.threads t = some th → tget c'.threads t = some (f c th) := by
  refine ⟨g c, ?_, by rw [hg], fun t th ht => ?_⟩
  · rw [tget_tmap, hc]
    rfl
  · rw [hg]
    dsimp only
    rw [tget_tmap, ht]
    rfl
/-- The mark of a thread that becomes overdue. -/
def overdueMarked (c : Core) (th : Thread) : Thread := if overdueNow c th then { th with overdue := some (c.cyc + 1) } else th
theorem threadOverdue_marks (s : State) : ∃ s', exec .threadOverdue s = .next s' ∧ besides s' = besides s ∧ s'.mem = s.mem ∧
    ∀ ci c, tget s.cores ci = some c → ∃ c', tget s'.cores ci = some c' ∧ { c' with threads := c.threads } = c ∧
      ∀ t th, tget c.threads t = some th → ∃ new, tget c'.threads t = some new ∧ { new with overdue := th.overdue } = th ∧
        new.overdue = (if th.st = .ready ∧ th.overdue = none ∧ (getPlot c th.plot).frozen = none ∧ th.readySince + 4096 ≤ c.cyc + 1 then some (c.cyc + 1) else th.overdue) := by
  refine ⟨_, rfl, rfl, rfl, fun ci c hc => ?_⟩
  obtain ⟨c', h1, h2, h3⟩ := mapped_threads (s := s) (g := markOverdue) (f := overdueMarked) (fun _ => rfl) hc
  refine ⟨c', h1, h2, fun t th ht => ⟨_, h3 t th ht, ?_, ?_⟩⟩
  · unfold overdueMarked
    split <;> rfl
  · have hiff : overdueNow c th = true ↔ th.st = .ready ∧ th.overdue = none ∧ (getPlot c th.plot).frozen = none ∧ th.readySince + 4096 ≤ c.cyc + 1 := by
      unfold overdueNow
      simp [and_assoc, Config.overdueCycles]
    unfold overdueMarked
    simp only [hiff]
    split <;> rfl
/-- A thread after the end of its window. -/
def yieldEnded (c : Core) (th : Thread) : Thread := if yieldOver c th then { th with lowUntil := none } else th
theorem yieldExpiry_ends (s : State) : ∃ s', exec .yieldExpiry s = .next s' ∧ s'.mem = s.mem ∧ besides s' = besides s ∧
    ∀ ci c, tget s.cores ci = some c → ∃ c', tget s'.cores ci = some c' ∧ { c' with threads := c.threads } = c ∧
      ∀ t th, tget c.threads t = some th → ∃ new, tget c'.threads t = some new ∧ { new with lowUntil := th.lowUntil } = th ∧
        (∀ n, th.lowUntil = some n → (n ≤ c.cyc → new.lowUntil = none) ∧ (c.cyc < n → new.lowUntil = some n)) := by
  refine ⟨_, rfl, rfl, rfl, fun ci c hc => ?_⟩
  obtain ⟨c', h1, h2, h3⟩ := mapped_threads (s := s) (g := endYields) (f := yieldEnded) (fun _ => rfl) hc
  refine ⟨c', h1, h2, fun t th ht => ⟨_, h3 t th ht, ?_, fun n hn => ?_⟩⟩
  · unfold yieldEnded
    split <;> rfl
  · have hover : yieldOver c th = decide (c.cyc ≥ n) := by
      unfold yieldOver
      rw [hn]
    unfold yieldEnded
    rw [hover]
    refine ⟨fun h => by rw [if_pos (decide_eq_true h)], fun h => ?_⟩
    rw [if_neg (by simpa using h)]
    exact hn
/-- A thread that the fallback finds (R164). -/
def fallbackSaved (c : Core) (th : Thread) : Thread :=
  match (getPlot c th.plot).stop with
  | some t => if th.st = .ready ∧ th.stepping.isNone ∧ (getPlot c th.plot).frozen.isNone ∧ c.cyc ≥ t + Config.stopFallback then { th with st := .saved false, savedFull := true } else th
  | none => th
theorem stopFallback_saves (s : State) : ∃ s', exec .stopFallbackExpiry s = .next s' ∧ s'.mem = s.mem ∧ besides s' = besides s ∧
    ∀ ci c, tget s.cores ci = some c → ∃ c', tget s'.cores ci = some c' ∧ { c' with threads := c.threads } = c ∧
      ∀ t th, tget c.threads t = some th → ∃ new, tget c'.threads t = some new ∧
        (∀ at_, (getPlot c th.plot).stop = some at_ → (getPlot c th.plot).frozen = none → th.st = .ready → th.stepping = none → at_ + 16384 ≤ c.cyc →
          new = { th with st := .saved false, savedFull := true }) ∧
        ((getPlot c th.plot).stop = none ∨ (getPlot c th.plot).frozen ≠ none ∨ th.st ≠ .ready ∨ th.stepping ≠ none → new = th) := by
  refine ⟨_, rfl, rfl, rfl, fun ci c hc => ?_⟩
  obtain ⟨c', h1, h2, h3⟩ := mapped_threads (s := s) (g := fun c => { c with threads := tmap c.threads fun _ th => fallbackSaved c th }) (f := fallbackSaved) (fun _ => rfl) hc
  refine ⟨c', h1, h2, fun t th ht => ⟨_, h3 t th ht, fun a ha hf hst hs hc => ?_, fun h => ?_⟩⟩
  · unfold fallbackSaved
    simp only [ha]
    rw [if_pos ⟨hst, by rw [hs]; rfl, by rw [hf]; rfl, hc⟩]
  · unfold fallbackSaved
    split
    · next a ha =>
      refine if_neg fun ⟨hst, hs, hf, _⟩ => ?_
      rcases h with h | h | h | h
      · rw [h] at ha
        exact absurd ha (by simp)
      · exact h (Option.isNone_iff_eq_none.1 hf)
      · exact h hst
      · exact h (Option.isNone_iff_eq_none.1 hs)
    · rfl
/-- A frozen plot is not stopped (R162). -/
theorem stopRequest_frozen {s : State} {ci pi : Nat} {p : Plot} (hp : tget (getCore s ci).plots pi = some p) (hf : p.frozen ≠ none) (hw : p.hdr.wide = false) :
    exec (.stopRequest ci pi) s = .next s := by
  have hg : getPlot (getCore s ci) pi = p := by
    unfold getPlot tgetD
    rw [hp]
    rfl
  have hparts : partsOf s ci pi = [(ci, pi)] := by
    unfold partsOf
    simp only [hg, hw]
    rfl
  refine (show exec (.stopRequest ci pi) s = execStopRequest ci pi s from rfl).trans ?_
  unfold execStopRequest
  simp only [hp, hparts, List.any_cons, List.any_nil, hg]
  rw [if_pos (by simp [Option.isSome_iff_ne_none.2 hf])]
end Sys2Proof.Machine

/-! ### What a core's cycle does to no other core and to no clock (R12, R293) -/
namespace Sys2Proof.Machine
open Sys2Proof

/-- From s to s' only core ci changes, its cycle count and the device's time stand, no drill is issued and none waits anew. -/
structure Local (ci : Nat) (s s' : State) : Prop where
  others : ∀ cj, cj ≠ ci → getCore s' cj = getCore s cj
  cyc : (getCore s' ci).cyc = (getCore s ci).cyc
  ticks : s'.ticks = s.ticks
  now : s'.now = s.now
  issued : s'.issued = s.issued
  walked : ∀ w ∈ s'.walked, w ∈ s.walked
theorem Local.refl (ci : Nat) (s : State) : Local ci s s := ⟨fun _ _ => rfl, rfl, rfl, rfl, rfl, fun _ h => h⟩
theorem Local.trans {ci : Nat} {a b c : State} (h : Local ci a b) (k : Local ci b c) : Local ci a c where
  others cj hj := (k.others cj hj).trans (h.others cj hj)
  cyc := k.cyc.trans h.cyc
  ticks := k.ticks.trans h.ticks
  now := k.now.trans h.now
  issued := k.issued.trans h.issued
  walked w hw := h.walked w (k.walked w hw)
section
variable {ci : Nat} {s0 s : State} (h : Local ci s0 s)
include h
/-- Where the cores, the times and the drills stand. -/
theorem Local.same {s' : State} (hc : SameCores s s') (hn : s'.now = s.now) (hi : s'.issued = s.issued) (hw : s'.walked = s.walked) : Local ci s0 s' :=
  h.trans ⟨fun cj _ => hc.getCore cj, by rw [hc.getCore], hc.ticks, hn, hi, fun _ hm => hw ▸ hm⟩
theorem Local.still {s' : State} (hc : SameCores s s') (hq : Quiet s s') : Local ci s0 s' := h.same hc hq.now hq.issued hq.walked
theorem Local.putCore {c : Core} (hc : c.cyc = (getCore s ci).cyc) : Local ci s0 (putCore s ci c) :=
  h.trans ⟨fun _ hj => getCore_putCore_ne _ _ _ _ hj, by rw [getCore_putCore_self]; exact hc, rfl, rfl, rfl, fun _ hm => hm⟩
theorem Local.updCore {f : Core → Core} (hf : ∀ c, (f c).cyc = c.cyc) : Local ci s0 (updCore s ci f) := h.putCore (hf _)
theorem Local.updThread {t : Nat} {f : Thread → Thread} : Local ci s0 (updThread s ci t f) := h.updCore fun _ => rfl
theorem Local.updThreads {l : List Nat} {f : Thread → Thread} : Local ci s0 (updThreads s ci l f) := h.updCore fun _ => rfl
theorem Local.updThreads' {l : List Nat} {f : Nat → Thread → Thread} : Local ci s0 (updThreads' s ci l f) := h.updCore fun _ => rfl
theorem Local.updPlot {pi : Nat} {f : Plot → Plot} : Local ci s0 (updPlot s ci pi f) := h.updCore fun _ => rfl
theorem Local.updCluster {k : Nat} {f : Cluster → Cluster} : Local ci s0 (updCluster s k f) := h.same ⟨rfl, rfl⟩ rfl rfl rfl
theorem Local.freshId : Local ci s0 (freshId s).2 := h.same ⟨rfl, rfl⟩ rfl rfl rfl
theorem Local.setFree {n : Nat} : Local ci s0 { s with free := n } := h.same ⟨rfl, rfl⟩ rfl rfl rfl
theorem Local.setFrozen {l : List Frozen} : Local ci s0 { s with frozen := l } := h.same ⟨rfl, rfl⟩ rfl rfl rfl
theorem Local.setFwEvents {l : List FwEvent} : Local ci s0 { s with fwEvents := l } := h.same ⟨rfl, rfl⟩ rfl rfl rfl
theorem Local.setWalked {p : Drill → Bool} : Local ci s0 { s with walked := s.walked.filter p } :=
  h.trans ⟨fun _ _ => rfl, rfl, rfl, rfl, rfl, fun _ hm => (List.mem_filter.1 hm).1⟩
theorem Local.countDrop {k : Nat} : Local ci s0 (countDrop s k) := h.still (countDrop_same ..) (countDrop_quiet ..)
theorem Local.emitR {u : Word} {t : Nat} {c : DWord} {p f : Nat} : Local ci s0 (emitR s u t c p f) := h.still (emitR_same ..) (emitR_quiet ..)
theorem Local.ringPost {q k : Nat} {t : Word} {d : Nat} : Local ci s0 (ringPost s q k t d) := h.still (ringPost_same ..) (ringPost_quiet ..)
theorem Local.fallowPut {a : Nat} {w : Word} : Local ci s0 (fallowPut s a w) := by
  obtain ⟨m, k, e⟩ := fallowPut_eq s a w
  rw [e]
  exact h.same ⟨rfl, rfl⟩ rfl rfl rfl
theorem Local.grantLease {line : Nat} {f : Bool} : Local ci s0 (grantLease s line f).2 := h.same ⟨rfl, rfl⟩ rfl rfl rfl
theorem Local.freeBytes {n : Nat} : Local ci s0 (freeBytes s n).2 := h.setFree
theorem Local.freeTime {n : Nat} : Local ci s0 (freeTime s n).2 := h.setFree
end
section
variable {ci : Nat} {s0 s : State}
theorem Local.ite {p : Prop} [Decidable p] {a b : State} (ha : Local ci s0 a) (hb : Local ci s0 b) : Local ci s0 (if p then a else b) := by
  split <;> assumption
theorem Local.foldl {α : Type} {f : State → α → State} (hf : ∀ s x, Local ci s0 s → Local ci s0 (f s x)) (l : List α) {s : State} (h : Local ci s0 s) :
    Local ci s0 (l.foldl f s) := by
  induction l generalizing s with
  | nil => exact h
  | cons x l ih => exact ih (hf s x h)
theorem Local.foldr {α : Type} {f : α → State → State} (hf : ∀ s x, Local ci s0 s → Local ci s0 (f x s)) (l : List α) {s : State} (h : Local ci s0 s) :
    Local ci s0 (l.foldr f s) := by
  induction l with
  | nil => exact h
  | cons x l ih => exact hf _ x ih
theorem Local.foldlFst {α β : Type} {f : State × β → α → State × β} (hf : ∀ a x, Local ci s0 a.1 → Local ci s0 (f a x).1) (l : List α)
    {a : State × β} (h : Local ci s0 a.1) : Local ci s0 (l.foldl f a).1 := by
  induction l generalizing a with
  | nil => exact h
  | cons x l ih => exact ih (hf a x h)
theorem Local.snd {α : Type} {p : α × State} (h : Local ci s0 p.2) {a : α} {s : State} (e : p = (a, s)) : Local ci s0 s := by
  rw [e] at h
  exact h
end
end Sys2Proof.Machine

/-! ### The operations of a core's cycle are local to it -/
namespace Sys2Proof.Machine
open Sys2Proof

theorem foldl_cyc {α : Type} (f : Core → α → Core) (h : ∀ c x, (f c x).cyc = c.cyc) (l : List α) (c : Core) : (l.foldl f c).cyc = c.cyc := by
  induction l generalizing c with
  | nil => rfl
  | cons x l ih => exact (ih _).trans (h c x)
theorem noteOcc_cyc (c : Core) (x : Drill × List Cand) : (noteOcc c x).cyc = c.cyc := by
  unfold noteOcc
  split <;> rfl
theorem retag_cyc (u : Bool) (l : List Nat) (c : Core) (r : Nat) : (retag u l c r).cyc = c.cyc := by
  unfold retag
  extract_lets sheaves c1
  refine foldl_cyc _ (fun c k => ?_) _ c1
  rfl
theorem retagGeneral_cyc (l : List Nat) (c : Core) (r : Nat) : (retagGeneral l c r).cyc = c.cyc := rfl
theorem undoIn_cyc (c : Core) (f : LateFault) (t : Nat) : (undoIn f t c).cyc = c.cyc := by
  unfold undoIn
  refine foldl_cyc _ (fun c r => ?_) _ _
  split
  · rfl
  · exact retagGeneral_cyc ..
section
variable {ci : Nat} {s0 s : State}
theorem Local.freeVal (h : Local ci s0 s) : Local ci s0 (freeVal s).2 := h.setFree
theorem Local.freezePlot (h : Local ci s0 s) {pi g : Nat} : Local ci s0 (freezePlot s ci pi g) := by
  unfold Machine.freezePlot
  split
  · exact h
  · extract_lets s1 s2 s3
    have h1 : Local ci s0 s1 := h.updPlot
    have h2 : Local ci s0 s2 := .ite h1.setFrozen h1.countDrop
    exact .ite h h2.ringPost.emitR
theorem Local.fragPending (h : Local ci s0 s) {e : Nat} : Local ci s0 (fragPending s ci e) := by
  unfold Machine.fragPending
  extract_lets c
  split
  · exact h
  · have hp := fun f => h.putCore (c := { c with frags := tput c.frags e f }) rfl
    exact .ite (hp _).freezePlot (hp _)
theorem Local.showCause (h : Local ci s0 s) {e : Nat} : Local ci s0 (showCause s ci e) := by
  unfold Machine.showCause
  split
  · exact h
  · exact h.updThreads'
theorem Local.joinPending (h : Local ci s0 s) {p g : Nat} {m : List Nat} : Local ci s0 (joinPending s ci p g m) := .ite h.freezePlot h
theorem Local.reportFull (h : Local ci s0 s) : Local ci s0 (reportFull s ci) := h.setFwEvents
theorem Local.askService (h : Local ci s0 s) {e : Nat} : Local ci s0 (askService s ci e) := by
  unfold Machine.askService
  extract_lets c
  split
  · exact h
  · exact (h.putCore (by rfl)).setFwEvents
theorem Local.parkGroup (h : Local ci s0 s) {l : List (Nat × FaultRec)} : Local ci s0 (parkGroup s ci l) := by
  unfold Machine.parkGroup
  split
  · exact h
  · extract_lets c plot mem det free e old gen joins svc frag c1 s1 s2 s3
    have h1 : Local ci s0 s1 := h.putCore rfl
    have h2 : Local ci s0 s2 := .ite h1 h1.emitR
    have h3 : Local ci s0 s3 := .ite h2.reportFull h2
    exact .ite h3.askService (.ite h3.showCause.joinPending h3.showCause.fragPending)
theorem Local.placeEngine (h : Local ci s0 s) {e : Nat} {fr : Frag} : Local ci s0 (placeEngine s ci e fr) := by
  unfold Machine.placeEngine
  extract_lets c gen s1 s2
  have h1 : Local ci s0 s1 := h.putCore rfl
  have h2 : Local ci s0 s2 := h1.emitR
  exact .ite h2.setFwEvents h2.fragPending
theorem Local.freeFrag (h : Local ci s0 s) {e : Nat} : Local ci s0 (freeFrag s ci e) := by
  unfold Machine.freeFrag
  extract_lets c c1
  split
  · exact h.putCore rfl
  · exact .ite (h.putCore rfl) (h.putCore (by rfl)).placeEngine
theorem Local.stepLeft (h : Local ci s0 s) {e : Nat} : Local ci s0 (stepLeft s ci e) := by
  unfold Machine.stepLeft
  extract_lets c
  split
  · exact h
  · exact .ite h.freeFrag (.ite (.ite h.askService h.fragPending) h)
theorem Local.stepFault (h : Local ci s0 s) {t : Nat} {f : FaultRec} : Local ci s0 (stepFault s ci t f) := by
  unfold Machine.stepFault
  extract_lets c
  split
  · exact h
  · refine (h.putCore ?_).stepLeft
    rfl
theorem Local.takeFaults (h : Local ci s0 s) {l : List (Nat × FaultRec)} : Local ci s0 (takeFaults s ci l) :=
  Local.foldl (fun _ _ hs => hs.parkGroup) _ (Local.foldr (fun _ _ hs => hs.stepFault) _ h)
theorem Local.stepDone (h : Local ci s0 s) {t : Nat} : Local ci s0 (stepDone s ci t) := by
  unfold Machine.stepDone
  extract_lets c
  split
  · exact h
  · next th hth =>
    split
    · exact h
    · split
      · exact h
      · extract_lets db left d1 f1 th1 s1
        have h1 : Local ci s0 s1 := h.putCore rfl
        exact .ite h1.fragPending h1
theorem Local.wakeThread (h : Local ci s0 s) {t n : Nat} : Local ci s0 (wakeThread s ci t n) := by
  unfold Machine.wakeThread
  extract_lets c
  split
  · exact h
  · next th hth =>
    extract_lets th1
    exact (h.putCore (by rfl)).stepDone
theorem Local.hardError (h : Local ci s0 s) {plots who : List Nat} : Local ci s0 (hardError s ci plots who) := by
  unfold Machine.hardError
  extract_lets f c role hit who l s1 s2
  have h1 : Local ci s0 s1 := h.emitR
  have h2 : Local ci s0 s2 := h1.setFree.takeFaults
  exact .foldl (fun _ _ hs => hs.freezePlot) _ h2
theorem Local.coreError (h : Local ci s0 s) {who : List Nat} : Local ci s0 (coreError s ci who) := h.hardError
theorem Local.evictLane (h : Local ci s0 s) {t r : Nat} : Local ci s0 (evictLane s ci t r) := by
  unfold Machine.evictLane
  extract_lets c
  split
  · exact (h.putCore (by rfl)).fallowPut
  · exact h.coreError
theorem Local.evictUni (h : Local ci s0 s) {k r : Nat} : Local ci s0 (evictUni s ci k r) := by
  unfold Machine.evictUni
  extract_lets c c1
  split
  · extract_lets x w
    exact (h.putCore (by rfl)).fallowPut.fallowPut
  · exact h.coreError
theorem Local.settleLane {lane : Nat} {keep : Nat → List Nat} {fresh : Nat → Nat} {n : Nat} {s : State} (h : Local ci s0 s) :
    Local ci s0 (settleLane ci lane keep fresh n s).1 := by
  induction n generalizing s with
  | zero => exact h
  | succ n ih =>
    unfold Machine.settleLane
    extract_lets c
    split
    · exact h
    · split
      · exact h
      · split
        · exact h.evictLane
        · exact ih h.evictLane
theorem Local.settleUni {slot : Nat} {keep : Nat → List Nat} {n : Nat} {s : State} (h : Local ci s0 s) :
    Local ci s0 (settleUni ci slot keep n s).1 := by
  induction n generalizing s with
  | zero => exact h
  | succ n ih =>
    unfold Machine.settleUni
    extract_lets c
    split
    · exact h
    · split
      · exact h
      · split
        · exact h.evictUni
        · exact ih h.evictUni
theorem Local.settleBanks {old : Core} {s : State} (h : Local ci s0 s) {tids : List Nat} {keep : Nat → List Nat} {n : Nat} :
    Local ci s0 (settleBanks old s ci tids keep n).1 := by
  unfold Machine.settleBanks
  extract_lets lanes slots fresh a
  have ha : Local ci s0 a.1 := by
    refine Local.foldlFst (fun _ _ hs => ?_) _ h
    exact hs.settleLane
  refine Local.foldlFst (fun _ _ hs => ?_) _ ha
  exact hs.settleUni
theorem Local.clusterWalk (h : Local ci s0 s) {cl ctx va : Nat} : Local ci s0 (clusterWalk s cl ctx va).2 := by
  unfold Machine.clusterWalk
  extract_lets r
  split
  · exact h
  · split
    split
    · dsimp only
      exact h.updCluster
    · exact h
theorem Local.tlbFill (h : Local ci s0 s) {cl : Nat} {t : Tr} : Local ci s0 (tlbFill s cl t) := h.updCluster
theorem Local.joinWalk (h : Local ci s0 s) {cl ctx page : Nat} {d : Option Drill} : Local ci s0 (joinWalk s cl ctx page d) := by
  unfold Machine.joinWalk
  split
  · exact h.updCluster
  · split
    next id s1 e => exact (h.freshId.snd e).updCluster
theorem Local.engTranslate (h : Local ci s0 s) {cl : Option Nat} {ctx va : Nat} {wr : Bool} : Local ci s0 (engTranslate s cl ctx va wr).2 := by
  unfold Machine.engTranslate
  extract_lets hit inWalk
  clear_value hit inWalk
  split
  · split <;> exact h
  · split
    · cases cl with
      | some k => exact h.joinWalk
      | none => exact h
    · split
      next r s1 he =>
      have h1 : Local ci s0 s1 := by
        refine Local.snd ?_ he
        cases cl with
        | some k => exact h.clusterWalk
        | none => exact h
      split
      · next t =>
        extract_lets s2
        have h2 : Local ci s0 s2 := by
          cases cl with
          | some k => exact h1.tlbFill
          | none => exact h1
        split <;> exact h2
      · exact h1
      · exact h1
      · exact h1
theorem Local.fetchFor (h : Local ci s0 s) {ctx va : Nat} : Local ci s0 (fetchFor s ci ctx va).2 := by
  unfold Machine.fetchFor
  split
  · exact h
  · split
    · next he => exact h.engTranslate.snd he
    · next he => exact h.engTranslate.snd he
    · next loc s1 he =>
      have h1 : Local ci s0 s1 := h.engTranslate.snd he
      split
      · exact h1
      · split
        next v e s2 he2 =>
        have h2 : Local ci s0 s2 := by
          have e2 : _ = s2 := congrArg (fun x => x.2.2) he2
          rw [← e2]
          dsimp only
          split
          · split
            · exact h1
            · exact h1.grantLease
          · exact h1.freeBytes.freeTime (n := Config.leaseMax - Config.leaseMin)
        dsimp only
        exact h2.updCore fun _ => rfl
theorem Local.fetchLine (h : Local ci s0 s) {plot va : Nat} : Local ci s0 (fetchLine s ci plot va).2 := h.fetchFor
theorem Local.putObj (h : Local ci s0 s) {cl pos : Nat} {o : Obj} : Local ci s0 (putObj s cl pos o) := h.updCluster
theorem Local.leaveWait (h : Local ci s0 s) {t : Nat} {th : Thread} {w : Wait} : Local ci s0 (leaveWait s ci t th w) := by
  unfold Machine.leaveWait
  split
  · exact h.updThread
  · split
    · exact h
    · exact h.updCore fun _ => rfl
  · exact h.updCore fun _ => rfl
  · split
    · exact h
    · exact h.updCore fun _ => by split <;> rfl
  · exact h.putObj
  · exact h.updCore fun _ => rfl
  · exact h.updCore fun _ => rfl
  · exact h
theorem Local.leaveLate (h : Local ci s0 s) {x : Nat × Thread × LateFault} : Local ci s0 (leaveLate s ci x) := by
  unfold Machine.leaveLate
  extract_lets s1
  have h1 : Local ci s0 s1 := by
    dsimp only [s1]
    split
    · exact h.leaveWait
    · exact h
  exact h1.updCore fun c => undoIn_cyc c _ _
theorem Local.takeLates (h : Local ci s0 s) {l : List Nat} : Local ci s0 (takeLates s ci l) :=
  (Local.foldl (fun _ _ hs => hs.leaveLate) _ h).takeFaults
theorem Local.takeAllLates (h : Local ci s0 s) : Local ci s0 (takeAllLates s ci) :=
  Local.foldl (fun _ _ hs => hs.takeLates) _ h
theorem Local.tryComplete (h : Local ci s0 s) {k b : Nat} : Local ci s0 (tryComplete s ci k b) := by
  unfold Machine.tryComplete
  dsimp only
  split
  · exact h
  · split
    · exact h
    · exact h.putCore rfl
theorem Local.wakeBarriers (h : Local ci s0 s) {k : Nat} : Local ci s0 (wakeBarriers s ci k) := by
  unfold Machine.wakeBarriers
  dsimp only
  split
  · exact h
  · refine .foldl (fun s m hs => ?_) _ h
    split
    · exact .ite hs.wakeThread hs
    · exact hs
theorem Local.recheckBarriers (h : Local ci s0 s) {k : Nat} : Local ci s0 (recheckBarriers s ci k) :=
  (Local.foldl (fun _ _ hs => hs.tryComplete) _ h).wakeBarriers
theorem Local.releaseFuse (h : Local ci s0 s) {k : Nat} {pc : DWord} : Local ci s0 (releaseFuse s ci k pc) :=
  Local.foldl (fun _ _ hs => .ite hs.wakeThread hs) _ (h.updCore fun _ => rfl)
theorem Local.checkFuses (h : Local ci s0 s) {k : Nat} : Local ci s0 (checkFuses s ci k) :=
  Local.foldl (fun _ _ hs => .ite hs.releaseFuse hs) _ h
theorem Local.makeSheaf (h : Local ci s0 s) {plot role : Nat} {l : List Nat} : Local ci s0 (makeSheaf s ci plot role l) := by
  unfold Machine.makeSheaf
  split
  · exact h
  · dsimp only
    exact h.putCore rfl
theorem Local.setBins (h : Local ci s0 s) {b : Tbl Bin} : Local ci s0 (Machine.putCore s ci { getCore s ci with bins := b }) :=
  h.putCore rfl
theorem Local.launchBin (h : Local ci s0 s) {b : Nat} : Local ci s0 (launchBin s ci b) := by
  unfold Machine.launchBin
  dsimp only
  split
  · exact h
  · exact h.setBins.makeSheaf.updThreads
theorem Local.spawnDeadlock (h : Local ci s0 s) {plot : Nat} : Local ci s0 (spawnDeadlock s ci plot) := .ite h.takeFaults h
theorem Local.regroupEnd (h : Local ci s0 s) {l : List Nat} : Local ci s0 (regroupEnd s ci l) := by
  unfold Machine.regroupEnd
  extract_lets regs s1 old s2
  have h1 : Local ci s0 s1 := h.updThreads
  have h2 : Local ci s0 s2 := by
    refine Local.settleBanks (h1.updCore fun c => ?_)
    exact foldl_cyc _ (fun c d => retag_cyc false l c d) _ _
  exact .foldl (fun _ _ hs => hs.stepDone) _ h2
theorem Local.moveOn (h : Local ci s0 s) : Local ci s0 (moveOn s ci) := by
  unfold Machine.moveOn
  refine Local.regroupEnd ?_
  exact h.updThreads
theorem Local.backInEntry (h : Local ci s0 s) {t e : Nat} : Local ci s0 (backInEntry s ci t e) := 
  (h.updCore fun _ => by rfl).stepLeft
theorem Local.saveWaiting (h : Local ci s0 s) {t : Nat} : Local ci s0 (saveWaiting s ci t) := by
  unfold Machine.saveWaiting
  split
  · exact h
  · split
    · split
      · exact h
      · extract_lets s1
        have h1 : Local ci s0 s1 := h.leaveWait.updThread
        split
        · exact h1.backInEntry
        · exact h1.updThread
    · exact h
theorem Local.holdSources (h : Local ci s0 s) : Local ci s0 (holdSources s ci) := h.updCore fun _ => rfl
theorem Local.launchWalked (h : Local ci s0 s) {ds : List (Drill × List Cand)} : Local ci s0 (launchWalked s ci ds) := by
  unfold Machine.launchWalked
  exact h.updThreads.setWalked
theorem Local.collLines (h : Local ci s0 s) : Local ci s0 (collLines s ci) := by
  refine Local.foldl (fun s l hs => ?_) _ h
  split
  · exact hs
  · split
    · exact hs
    · split
      · next he =>
        exact ((hs.fetchLine.snd he).updCore fun _ => by rfl).takeFaults
      · next he => exact hs.fetchLine.snd he
theorem Local.endMwait (h : Local ci s0 s) {t : Nat} {th : Thread} : Local ci s0 (endMwait s ci t th) := by
  unfold Machine.endMwait
  dsimp only
  split
  · split
    · exact h
    · exact h.updThread.wakeThread
  · exact h
theorem Local.turnRetries (h : Local ci s0 s) : Local ci s0 (turnRetries s ci) := by
  unfold Machine.turnRetries
  exact (Local.foldl (fun _ _ hs => hs.endMwait) _ h).updCore fun _ => by rfl
theorem Local.detailRecord (h : Local ci s0 s) {c : Core} {x : Drill × List Cand} : Local ci s0 (detailRecord s ci c x) := by
  unfold Machine.detailRecord
  split
  · exact .ite h h.emitR
  · exact h
theorem Local.profileCore (h : Local ci s0 s) {ds : List (Drill × List Cand)} : Local ci s0 (profileCore s ci ds) := by
  unfold Machine.profileCore
  extract_lets c evts w cap p0 p1 p2 c1 s1
  have hc : c.cyc = (getCore s ci).cyc := foldl_cyc _ noteOcc_cyc _ _
  have h1 : Local ci s0 s1 := h.putCore hc
  exact .ite (.foldl (fun _ _ hs => hs.detailRecord) _ h1) h1
theorem Local.holdOperands (h : Local ci s0 s) {ds : List (Drill × List Cand)} : Local ci s0 (holdOperands s ci ds) := h.updThreads'
theorem Local.deadlocks (h : Local ci s0 s) : Local ci s0 (deadlocks s ci) := Local.foldl (fun _ _ hs => .ite hs.spawnDeadlock hs) _ h
end
end Sys2Proof.Machine

/-! ### The threads of a drill that is issued (R12 to R14) -/
namespace Sys2Proof.Machine
open Sys2Proof

theorem eraseDups_length_le (n : Nat) {l keep : List Nat} (hn : keep.length ≤ n) (h : ∀ x ∈ l, x ∈ keep) : l.eraseDups.length ≤ n := by
  induction n generalizing l keep with
  | zero =>
    have hk : keep = [] := List.length_eq_zero_iff.1 (Nat.le_zero.1 hn)
    have hl : l = [] := List.eq_nil_iff_forall_not_mem.2 fun x hx => by simpa [hk] using h x hx
    simp [hl]
  | succ n ih =>
    cases l with
    | nil => simp
    | cons a l =>
      rw [List.eraseDups_cons, List.length_cons]
      have ha : a ∈ keep := h a List.mem_cons_self
      refine Nat.succ_le_succ (ih (keep := keep.erase a) (by rw [List.length_erase_of_mem ha]; omega) fun x hx => ?_)
      obtain ⟨hx, hne⟩ := List.mem_filter.1 hx
      exact (List.mem_erase_of_ne (by simpa using hne)).2 (h x (List.mem_cons_of_mem _ hx))
theorem oldestTines_length (n : Nat) (l : List Cand) : (oldestTines n l).length ≤ n := by
  induction n generalizing l with
  | zero => simp [oldestTines]
  | succ n ih =>
    unfold oldestTines
    split
    · exact Nat.zero_le _
    · exact Nat.succ_le_succ (ih _)
theorem limitTines_mem {sup : Cand} {l : List Cand} (h : sup ∈ l) : sup ∈ limitTines sup l := by simp [limitTines, h]
theorem limitTines_sub {sup x : Cand} {l : List Cand} (h : x ∈ limitTines sup l) : x ∈ l := (List.mem_filter.1 h).1
theorem limitTines_tines (sup : Cand) (l : List Cand) : (((limitTines sup l).map (·.tid)).map tineOf).eraseDups.length ≤ 8 := by
  refine eraseDups_length_le 8 (keep := tineOf sup.tid :: oldestTines 7 (l.filter fun x => tineOf x.tid != tineOf sup.tid)) ?_ fun x hx => ?_
  · exact Nat.succ_le_succ (oldestTines_length 7 _)
  · obtain ⟨t, ht, rfl⟩ := List.mem_map.1 hx
    obtain ⟨y, hy, rfl⟩ := List.mem_map.1 ht
    exact List.contains_iff_mem.1 (List.mem_filter.1 hy).2
/-- What a supplier's PC collects: threads of its pool with its place, and in the uniform pipe of its sheaf or itself alone. -/
theorem collect_mem {sup x : Cand} {pool : List Cand} (hs : sup ∈ pool) (h : x ∈ collect sup pool) : x ∈ pool ∧ x.th.pc = sup.th.pc ∧ x.th.plot = sup.th.plot ∧
    x.th.role = sup.th.role ∧ (sup.unif = true → x.th.sheaf = sup.th.sheaf ∧ (x.th.sheaf = none → x = sup)) := by
  have hm := limitTines_sub h
  have place : ∀ y ∈ pool.filter fun x => x.th.pc == sup.th.pc && x.th.plot == sup.th.plot && x.th.role == sup.th.role,
      y ∈ pool ∧ y.th.pc = sup.th.pc ∧ y.th.plot = sup.th.plot ∧ y.th.role = sup.th.role := fun y hy => by
    obtain ⟨h1, h2⟩ := List.mem_filter.1 hy
    simp only [Bool.and_eq_true, beq_iff_eq] at h2
    exact ⟨h1, h2.1.1, h2.1.2, h2.2⟩
  split at hm
  · next ho =>
    obtain ⟨h1, h2, h3, h4⟩ := place x hm
    refine ⟨h1, h2, h3, h4, fun hu => absurd ho ?_⟩
    simp [oneSheaf, hu]
  · split at hm
    · obtain rfl := List.mem_singleton.1 hm
      exact ⟨hs, rfl, rfl, rfl, fun _ => ⟨rfl, fun _ => rfl⟩⟩
    · next hn =>
      obtain ⟨hm, hk⟩ := List.mem_filter.1 hm
      obtain ⟨h1, h2, h3, h4⟩ := place x hm
      have hk : x.th.sheaf = sup.th.sheaf := by simpa using hk
      refine ⟨h1, h2, h3, h4, fun _ => ⟨hk, fun h0 => absurd (hk ▸ h0) ?_⟩⟩
      simpa using hn
theorem collect_sup {sup : Cand} {pool : List Cand} (hs : sup ∈ pool) : sup ∈ collect sup pool := by
  refine limitTines_mem ?_
  split
  · exact List.mem_filter.2 ⟨hs, by simp⟩
  · split
    · exact List.mem_singleton.2 rfl
    · exact List.mem_filter.2 ⟨List.mem_filter.2 ⟨hs, by simp⟩, by simp⟩
theorem candOf_eq {s : State} {ci : Nat} {c : Core} {e : Nat × Thread} {x : Cand} (h : candOf s ci c e = some x) :
    x.tid = e.1 ∧ x.th = e.2 ∧ mayIssue c e.2 = true := by
  unfold candOf at h
  split at h
  · exact absurd h (by simp)
  · next hm =>
    split at h
    · exact absurd h (by simp)
    · dsimp only at h
      split at h
      · obtain rfl := Option.some.inj h
        exact ⟨rfl, rfl, by simpa using hm⟩
      · exact absurd h (by simp)
theorem mayIssue_iff {c : Core} {th : Thread} : mayIssue c th = true ↔ th.st = .ready ∧ (getPlot c th.plot).frozen = none ∧ th.eligible ≤ c.cyc := by
  simp [mayIssue, runnable, and_assoc]
/-- A candidate stands in the core, ready to issue. -/
theorem cand_stands {s : State} {ci : Nat} {c : Core} (hc : tsorted c.threads = true) {x : Cand} (h : x ∈ c.threads.filterMap (candOf s ci c)) :
    tget c.threads x.tid = some x.th ∧ x.th.st = .ready ∧ (getPlot c x.th.plot).frozen = none ∧ x.th.eligible ≤ c.cyc := by
  obtain ⟨e, he, hx⟩ := List.mem_filterMap.1 h
  obtain ⟨h1, h2, hm⟩ := candOf_eq hx
  rw [h1, h2]
  exact ⟨tget_of_mem hc he, mayIssue_iff.1 hm⟩

/-- What the clause of R12 to R14 says of a drill, of the state in which it is issued: those that waited are of `old`. -/
def Formed (old : List Drill) (c : Core) (d : Drill) : Prop :=
  d.coll = true ∨
  (d.walked = true ∧ ∃ w ∈ old, w.core = d.core ∧ w.pc = d.pc ∧ ∀ t ∈ d.tids, t ∈ w.tids ∧ ∃ th, tget c.threads t = some th ∧ th.pc = d.pc ∧ th.st = .ready) ∨
  (d.sup ∈ d.tids ∧ ((d.tids.map tineOf).eraseDups).length ≤ 8 ∧
    ∀ t ∈ d.tids, slotOf t = d.slot ∧ ∃ sup th, tget c.threads d.sup = some sup ∧ tget c.threads t = some th ∧ th.pc = d.pc ∧ th.st = .ready ∧
      th.plot = sup.plot ∧ th.role = sup.role ∧ th.eligible ≤ c.cyc ∧ (getPlot c th.plot).frozen = none ∧
      (d.pipe = .unif → th.sheaf = sup.sheaf ∧ (th.sheaf = none → t = d.sup)))

theorem Formed.mono {old new : List Drill} {c : Core} {d : Drill} (h : Formed old c d) (hs : ∀ w ∈ old, w ∈ new) : Formed new c d :=
  h.imp id (.imp (fun ⟨hw, w, hm, hr⟩ => ⟨hw, w, hs w hm, hr⟩) id)
/-- The core c' after the launch of drills: the threads that are ready, and those of `go` that kept to their drill, stand ready at their places. -/
structure Launched (go : List Nat) (c c' : Core) : Prop where
  cyc : c'.cyc = c.cyc
  plots : c'.plots = c.plots
  thread : ∀ t th, tget c.threads t = some th → ∃ new, tget c'.threads t = some new ∧ new.pc = th.pc ∧ new.plot = th.plot ∧ new.role = th.role ∧
    new.sheaf = th.sheaf ∧ new.eligible = th.eligible ∧ (th.st = .ready → new.st = .ready) ∧ (t ∈ go → keepsDrill th = true → new.st = .ready)

theorem formDrill_formed {s : State} {ci : Nat} {c c' : Core} {slot : Nat} {pipe : Pipe} {go : List Nat} {old : List Drill} {d : Drill} {l : List Cand}
    (hc : tsorted c.threads = true) (hl : Launched go c c') (h : formDrill ci c slot pipe (c.threads.filterMap (candOf s ci c)) = some (d, l)) :
    d.core = ci ∧ Formed old c' d := by
  unfold formDrill at h
  split at h
  · exact absurd h (by simp)
  · extract_lets pool pol at h
    obtain ⟨sup, hsup, he⟩ := Option.map_eq_some_iff.1 h
    obtain ⟨rfl, rfl⟩ := Prod.mk.inj he
    have hin : sup ∈ pool := (supplier_picks hsup).1
    have stand : ∀ x ∈ pool, (slotOf x.tid = slot ∧ x.unif = (pipe == .unif)) ∧ tget c.threads x.tid = some x.th ∧ x.th.st = .ready ∧
        (getPlot c x.th.plot).frozen = none ∧ x.th.eligible ≤ c.cyc := fun x hx => by
      obtain ⟨hx, hk⟩ := List.mem_filter.1 hx
      simp only [Bool.and_eq_true, beq_iff_eq] at hk
      exact ⟨hk, cand_stands hc hx⟩
    refine ⟨rfl, .inr (.inr ⟨List.mem_map.2 ⟨sup, collect_sup hin, rfl⟩, limitTines_tines .., fun t ht => ?_⟩)⟩
    obtain ⟨x, hx, rfl⟩ := List.mem_map.1 ht
    obtain ⟨hp, hpc, hplot, hrole, hsh⟩ := collect_mem hin hx
    obtain ⟨⟨hslot, -⟩, hth, hst, hfr, hel⟩ := stand x hp
    obtain ⟨⟨-, hunif⟩, hsth, -⟩ := stand sup hin
    obtain ⟨a, ha, -, ha2, ha3, ha4, -⟩ := hl.thread _ _ hsth
    obtain ⟨b, hb, hb1, hb2, hb3, hb4, hb5, hb6, -⟩ := hl.thread _ _ hth
    refine ⟨hslot, a, b, ha, hb, hb1.trans hpc, hb6 hst, by rw [hb2, ha2, hplot], by rw [hb3, ha3, hrole], ?_, ?_, fun hu => ?_⟩
    · rw [hb5, hl.cyc]
      exact hel
    · rw [getPlot, hb2, hl.plots]
      exact hfr
    · obtain ⟨h1, h2⟩ := hsh (by rw [hunif]; exact beq_iff_eq.2 hu)
      rw [hb4, ha4]
      exact ⟨h1, fun h0 => congrArg Cand.tid (h2 h0)⟩
theorem walkedDrill_formed {s : State} {ci : Nat} {c c' : Core} {slot : Nat} {pipe : Pipe} {go : List Nat} {d : Drill} {l : List Cand}
    (hl : Launched go c c') (h : walkedDrill s ci c slot pipe = some (d, l)) (hgo : d.walked = true → ∀ t ∈ d.tids, t ∈ go) : d.core = ci ∧ Formed s.walked c' d := by
  unfold walkedDrill at h
  split at h
  · exact absurd h (by simp)
  · obtain ⟨w, hw, h⟩ := List.exists_of_findSome?_eq_some h
    dsimp only at h
    split at h
    · exact absurd h (by simp)
    · split at h
      · exact absurd h (by simp)
      · next hco =>
        obtain ⟨rfl, -⟩ := Prod.mk.inj (Option.some.inj h)
        refine ⟨by_contra fun hne => hco (.inl hne), .inr (.inl ⟨rfl, w, hw, rfl, rfl, fun t ht => ?_⟩)⟩
        obtain ⟨hin, hk⟩ := List.mem_filter.1 (show t ∈ walkedTids s c w from ht)
        refine ⟨hin, ?_⟩
        split at hk
        · next th hth =>
          simp only [Bool.and_eq_true, beq_iff_eq] at hk
          obtain ⟨⟨⟨hkd, hpc⟩, -⟩, -⟩ := hk
          obtain ⟨new, hnew, hnpc, -, -, -, -, -, hgr⟩ := hl.thread _ _ hth
          exact ⟨new, hnew, hnpc.trans hpc, hgr (hgo rfl t ht) hkd⟩
        · exact absurd hk (by simp)
theorem collDrill_coll {s : State} {ci : Nat} {c : Core} {slot : Nat} {pipe : Pipe} {d : Drill} {l : List Cand} (h : collDrill s ci c slot pipe = some (d, l)) :
    d.core = ci ∧ d.coll = true := by
  unfold collDrill at h
  split at h
  · exact absurd h (by simp)
  · obtain ⟨m, -, h⟩ := List.exists_of_findSome?_eq_some h
    split at h
    · exact absurd h (by simp)
    · split at h
      · exact absurd h (by simp)
      · split at h
        · exact absurd h (by simp)
        · dsimp only at h
          split at h
          · exact absurd h (by simp)
          · obtain ⟨rfl, -⟩ := Prod.mk.inj (Option.some.inj h)
            exact ⟨rfl, rfl⟩
/-- Every drill that a core starts. -/
theorem coreDrills_formed {s : State} {ci : Nat} {c' : Core} {go : List Nat} (hc : tsorted (getCore s ci).threads = true) (hl : Launched go (getCore s ci) c')
    {x : Drill × List Cand} (hx : x ∈ coreDrills s ci) (hgo : x.1.walked = true → ∀ t ∈ x.1.tids, t ∈ go) :
    x.1.core = ci ∧ Formed s.walked c' x.1 := by
  obtain ⟨k, -, hx⟩ := List.mem_flatMap.1 (List.mem_filter.1 hx).1
  obtain ⟨p, -, hx⟩ := List.mem_filterMap.1 hx
  rw [Option.orElse_eq_or, Option.or_eq_some_iff, Option.orElse_eq_or, Option.or_eq_some_iff] at hx
  rcases hx with h | ⟨-, h | ⟨-, h⟩⟩
  · exact walkedDrill_formed hl h hgo
  · exact (collDrill_coll h).imp id .inl
  · exact formDrill_formed hc hl h
end Sys2Proof.Machine

/-! ### The issue of a core's drills (R12) -/
namespace Sys2Proof.Machine
open Sys2Proof

theorem profileCore_core (s : State) (ci : Nat) (ds : List (Drill × List Cand)) : ∃ p, getCore (profileCore s ci ds) ci = { getCore s ci with prof := p } := by
  unfold profileCore
  extract_lets c evts w cap p0 p1 p2 c1 s1
  have hc : ∃ p, c = { getCore s ci with prof := p } := by
    refine List.foldlRecOn ds _ (motive := fun c => ∃ p, c = { getCore s ci with prof := p }) ⟨(getCore s ci).prof, rfl⟩ fun z ⟨p, hz⟩ x _ => ?_
    unfold noteOcc
    split
    · exact ⟨p, hz⟩
    · rw [hz]
      exact ⟨_, rfl⟩
  obtain ⟨p, hp⟩ := hc
  have h1 : getCore s1 ci = { getCore s ci with prof := c1.prof } := by
    rw [getCore_putCore_self]
    simp only [c1, hp]
  have h2 : ∀ s2 x, SameCores s2 (detailRecord s2 ci c1 x) := fun s2 x => by
    unfold detailRecord
    split
    · exact .ite (.refl _) (emitR_same ..)
    · exact .refl _
  split
  · refine List.foldlRecOn ds _ (motive := fun z => ∃ p, getCore z ci = { getCore s ci with prof := p }) ⟨_, h1⟩ fun z ⟨p, hz⟩ x _ => ⟨p, ?_⟩
    rw [(h2 z x).getCore, hz]
  · exact ⟨_, h1⟩
/-- A thread as it stands in the drill it is launched with: its operands noted, on the line it executes. -/
def noted (ds : List (Drill × List Cand)) (t : Nat) (th : Thread) : Thread :=
  match ((ds.flatMap (·.2)).find? fun x => x.tid == t).bind (·.i) with
  | some i => { th with held := (reads i).map (·.reg), onLine := some (th.pc.toNat / 128) }
  | none => { th with onLine := some (th.pc.toNat / 128) }
theorem holdOperands_eq (s : State) (ci : Nat) (ds : List (Drill × List Cand)) :
    holdOperands s ci ds = updThreads' s ci (ds.flatMap fun d => d.1.tids) (noted ds) := rfl
theorem noted_fields (ds : List (Drill × List Cand)) (l : List Nat) (t : Nat) (th : Thread) :
    ∃ h o, (if l.contains t then noted ds t th else th) = { th with held := h, onLine := o } := by
  unfold noted
  split
  · split <;> exact ⟨_, _, rfl⟩
  · exact ⟨_, _, rfl⟩
/-- A thread of those that go on with their drill is ready. -/
def relaunched (go : List Nat) (t : Nat) (th : Thread) : Thread := if go.contains t then if keepsDrill th then { th with st := .ready } else th else th
theorem relaunched_fields (go : List Nat) (t : Nat) (th : Thread) : ∃ st, relaunched go t th = { th with st := st } ∧ (th.st = .ready → st = .ready) ∧
    (t ∈ go → keepsDrill th = true → st = .ready) := by
  unfold relaunched
  split
  · split
    · exact ⟨_, rfl, fun _ => rfl, fun _ _ => rfl⟩
    · next hk => exact ⟨_, rfl, id, fun _ h => absurd h hk⟩
  · next hg => exact ⟨_, rfl, id, fun h => absurd (List.contains_iff_mem.2 h) hg⟩
/-- Launch, note of operands and profile leave the threads ready at their places. -/
theorem launch_launched (s : State) (ci : Nat) (ds : List (Drill × List Cand)) : Launched ((ds.filter fun x => x.1.walked).flatMap fun x => x.1.tids) (getCore s ci)
    (getCore (profileCore (holdOperands (launchWalked s ci ds) ci ds) ci ds) ci) := by
  obtain ⟨p, hp⟩ := profileCore_core (holdOperands (launchWalked s ci ds) ci ds) ci ds
  rw [hp, holdOperands_eq, updThreads', updCore_eq, getCore_putCore_self]
  have h1 : getCore (launchWalked s ci ds) ci = { getCore s ci with
      threads := tmap (getCore s ci).threads (relaunched ((ds.filter fun x => x.1.walked).flatMap fun x => x.1.tids)) } := getCore_putCore_self ..
  rw [h1]
  refine ⟨rfl, rfl, fun t th hth => ?_⟩
  dsimp only
  rw [tget_tmap, tget_tmap, hth]
  refine ⟨_, rfl, ?_⟩
  dsimp only
  obtain ⟨st, e1, hst⟩ := relaunched_fields ((ds.filter fun x => x.1.walked).flatMap fun x => x.1.tids) t th
  obtain ⟨h, o, e⟩ := noted_fields ds (ds.flatMap fun d => d.1.tids) t (relaunched ((ds.filter fun x => x.1.walked).flatMap fun x => x.1.tids) t th)
  rw [e, e1]
  exact ⟨rfl, rfl, rfl, rfl, rfl, hst⟩
theorem tickPort_cyc (c : Core) : (tickPort c).cyc = c.cyc := by
  unfold tickPort
  dsimp only
  split
  · rfl
  · split <;> rfl
theorem tickUnits_cyc (c : Core) : (tickUnits c).cyc = c.cyc := by
  unfold tickUnits
  rw [tickPort_cyc]
  split <;> rfl
/-- A core's cycle up to the choice of its drills. -/
def beforeIssue (s : State) (ci : Nat) : State :=
  let s := collLines (deadlocks (turnRetries (moveOn (updCore s ci fun c => tickUnits (settleFlags c)) ci) ci) ci) ci
  holdSources (takeAllLates ((tkeys (getCore s ci).sheaves).foldl (fun s k => checkFuses (recheckBarriers s ci k) ci k) s) ci) ci
/-- The launch of these drills. -/
def launchDrills (s : State) (ci : Nat) (ds : List (Drill × List Cand)) : State := profileCore (holdOperands (launchWalked s ci ds) ci ds) ci ds
theorem issueCore_eq (s : State) (ci : Nat) : ∃ a, issueCore s ci =
    { launchDrills (beforeIssue s ci) ci (coreDrills (beforeIssue s ci) ci) with
      issued := (launchDrills (beforeIssue s ci) ci (coreDrills (beforeIssue s ci) ci)).issued ++ (coreDrills (beforeIssue s ci) ci).map (·.1), agenda := a } := ⟨_, rfl⟩
theorem beforeIssue_kept {s : State} {ci lo : Nat} (h : Kept lo s) : Kept lo (beforeIssue s ci) := by
  unfold beforeIssue
  extract_lets s1
  have h1 : Kept lo s1 := (h.updCore fun _ hc => tickUnits_kept (settleFlags_kept hc)).moveOn.turnRetries.deadlocks.collLines
  have h2 := Kept.foldl (fun s k (hs : Kept lo s) => Kept.checkFuses (Kept.recheckBarriers hs (ci := ci) (k := k)) (ci := ci) (k := k)) (tkeys (getCore s1 ci).sheaves) h1
  exact h2.takeAllLates.holdSources
theorem beforeIssue_local (s : State) (ci : Nat) : Local ci s (beforeIssue s ci) := by
  unfold beforeIssue
  extract_lets s1
  have h1 : Local ci s s1 := ((Local.refl ci s).updCore fun c => tickUnits_cyc (settleFlags c)).moveOn.turnRetries.deadlocks.collLines
  have h2 := Local.foldl (fun _ k hs => Local.checkFuses (Local.recheckBarriers hs (k := k)) (k := k)) (tkeys (getCore s1 ci).sheaves) h1
  exact h2.takeAllLates.holdSources
theorem launchDrills_local (s : State) (ci : Nat) (ds : List (Drill × List Cand)) : Local ci s (launchDrills s ci ds) :=
  (Local.refl ci s).launchWalked.holdOperands.profileCore
/-- The drills that a core issues are of its threads, and no other core is touched. -/
theorem issueCore_issues {s : State} {ci lo : Nat} (h : Kept lo s) : ∃ s' l, SameCores s' (issueCore s ci) ∧ (issueCore s ci).now = s'.now ∧
    (issueCore s ci).walked = s'.walked ∧ (issueCore s ci).issued = s'.issued ++ l ∧ Local ci s s' ∧ ∀ d ∈ l, d.core = ci ∧ Formed s.walked (getCore s' ci) d := by
  have k4 : Kept lo (beforeIssue s ci) := beforeIssue_kept h
  have l4 := beforeIssue_local s ci
  obtain ⟨a, e⟩ := issueCore_eq s ci
  have l5 := l4.trans (launchDrills_local (beforeIssue s ci) ci (coreDrills (beforeIssue s ci) ci))
  have f5 : ∀ d ∈ (coreDrills (beforeIssue s ci) ci).map (·.1), d.core = ci ∧
      Formed s.walked (getCore (launchDrills (beforeIssue s ci) ci (coreDrills (beforeIssue s ci) ci)) ci) d := fun d hd => by
    obtain ⟨x, hx, rfl⟩ := List.mem_map.1 hd
    obtain ⟨hco, hf⟩ := coreDrills_formed (k4.get ci).threads (launch_launched (beforeIssue s ci) ci _) hx fun hw t ht =>
      List.mem_flatMap.2 ⟨x, List.mem_filter.2 ⟨hx, hw⟩, ht⟩
    exact ⟨hco, hf.mono l4.walked⟩
  generalize launchDrills (beforeIssue s ci) ci (coreDrills (beforeIssue s ci) ci) = z at e l5 f5
  rw [e]
  exact ⟨z, _, ⟨rfl, rfl⟩, rfl, rfl, rfl, l5, f5⟩
end Sys2Proof.Machine

/-! ### The cycle of the device (R12, R293, R399) -/
namespace Sys2Proof.Machine
open Sys2Proof

/-- From s to s' the cycle counts and the device's time stand, no drill is issued and none waits anew. -/
structure Steady (s s' : State) : Prop where
  cyc : ∀ ci < 4096, (getCore s' ci).cyc = (getCore s ci).cyc
  ticks : s'.ticks = s.ticks
  now : s'.now = s.now
  issued : s'.issued = s.issued
  walked : ∀ w ∈ s'.walked, w ∈ s.walked
theorem Steady.refl (s : State) : Steady s s := ⟨fun _ _ => rfl, rfl, rfl, rfl, fun _ h => h⟩
theorem Steady.trans {a b c : State} (h : Steady a b) (k : Steady b c) : Steady a c where
  cyc ci hc := (k.cyc ci hc).trans (h.cyc ci hc)
  ticks := k.ticks.trans h.ticks
  now := k.now.trans h.now
  issued := k.issued.trans h.issued
  walked w hw := h.walked w (k.walked w hw)
theorem Steady.foldl {α : Type} {f : State → α → State} (hf : ∀ s x, Steady s (f s x)) (l : List α) (s : State) : Steady s (l.foldl f s) := by
  induction l generalizing s with
  | nil => exact .refl _
  | cons x l ih => exact (hf s x).trans (ih _)
theorem Local.steady {ci : Nat} {s s' : State} (h : Local ci s s') : Steady s s' where
  cyc cj _ := by
    by_cases hj : cj = ci
    · rw [hj]
      exact h.cyc
    · rw [h.others cj hj]
  ticks := h.ticks
  now := h.now
  issued := h.issued
  walked := h.walked
theorem Steady.same {s s' : State} (hc : SameCores s s') (hn : s'.now = s.now) (hi : s'.issued = s.issued) (hw : s'.walked = s.walked) : Steady s s' :=
  ⟨fun ci _ => by rw [hc.getCore], hc.ticks, hn, hi, fun _ hm => hw ▸ hm⟩
/-- Where each core is changed, but for its cycle count. -/
theorem Steady.mapped {s s' : State} {f : Nat → Core → Core} (hf : ∀ k c, (f k c).cyc = c.cyc) (hc : s'.cores = tmap s.cores f) (ht : s'.ticks = s.ticks)
    (hn : s'.now = s.now) (hi : s'.issued = s.issued) (hw : s'.walked = s.walked) : Steady s s' := by
  refine ⟨fun ci _ => ?_, ht, hn, hi, fun _ hm => hw ▸ hm⟩
  unfold getCore tgetD
  rw [hc, ht, tget_tmap]
  cases tget s.cores ci with
  | none => rfl
  | some c => exact hf ci c
theorem strike_steady (s : State) : Steady s (strike s) := by
  unfold strike
  split
  · split
    · exact .refl _
    · exact .same ⟨rfl, rfl⟩ rfl rfl rfl
  · exact .refl _
theorem makeComm_steady (s : State) : Steady s (makeComm s) := by
  unfold makeComm
  split
  · exact .refl _
  · split
    · exact .same ⟨rfl, rfl⟩ rfl rfl rfl
    · exact .refl _
theorem settleFusion_steady (s : State) (cl : Nat) : Steady s (settleFusion s cl) := by
  unfold settleFusion
  split
  · exact .refl _
  · extract_lets mine busy
    split
    · exact .refl _
    · refine .mapped (f := fun k c => if mine k then { c with l1 := [] } else c) (fun k c => ?_) rfl rfl rfl rfl rfl
      split <;> rfl
theorem sweepStops_steady (s : State) : Steady s (sweepStops s) := by
  unfold sweepStops
  refine .foldl (fun s ci => ?_) _ _
  dsimp only
  split
  · exact .refl _
  · have h1 := (Local.foldl (f := fun s b => launchBin s ci b) (fun _ _ hs => hs.launchBin)
      (((getCore s ci).bins.filter fun e => !e.2.isJoin && ((getPlot (getCore s ci) e.2.plot).stop.isSome && (getPlot (getCore s ci) e.2.plot).frozen.isNone)).map (·.1)) (Local.refl ci s))
    exact (Local.foldl (fun _ _ hs => hs.saveWaiting) _ h1).steady
theorem tget_range_map {α : Type} (f : Nat → α) (n k : Nat) (h : k < n) : tget ((List.range n).map fun i => (i, f i)) k = some (f k) := by
  refine tget_of_mem (e := (k, f k)) ?_ (List.mem_map.2 ⟨k, List.mem_range.2 h, rfl⟩)
  rw [← List.filterMap_eq_map]
  exact tsorted_filterMap _ (fun n e he => by cases he; rfl) _ List.pairwise_lt_range
theorem Steady.setCores {s : State} {t : Tbl Core} (h : ∀ ci < 4096, (getCore { s with cores := t } ci).cyc = (getCore s ci).cyc) : Steady s { s with cores := t } :=
  ⟨h, rfl, rfl, rfl, fun _ h => h⟩
theorem timeStart_steady (s : State) : Steady s (timeStart s) := by
  unfold timeStart
  extract_lets w
  clear_value w
  split
  · unfold allCores
    refine .setCores fun ci hc => ?_
    have hg := tget_range_map (fun ci => id (getCore s ci)) Config.numCores ci hc
    rw [getCore, tgetD, hg, Option.getD_some, id_eq]
  · exact .refl _
theorem launchFar_still (s : State) : SameCores s (launchFar s) ∧ (launchFar s).now = s.now ∧ (launchFar s).issued = s.issued ∧ (launchFar s).walked = s.walked := by
  unfold launchFar
  refine List.foldlRecOn _ _ (motive := fun z => SameCores s z ∧ z.now = s.now ∧ z.issued = s.issued ∧ z.walked = s.walked) ⟨⟨rfl, rfl⟩, rfl, rfl, rfl⟩ fun z hz x _ => ?_
  obtain ⟨h1, h2, h3, h4⟩ := hz
  exact ⟨h1.trans ⟨rfl, rfl⟩, h2, h3, h4⟩
/-- Time goes on by one cycle of the nominal clock. -/
theorem advanceTime_cyc {s : State} {ci : Nat} {c : Core} (hc : tget s.cores ci = some c) :
    (getCore (advanceTime s) ci).cyc = c.cyc + (if clockTicks s ci = true then 1 else 0) := by
  have hk : ci ∈ tkeys s.cores := List.mem_map.2 ⟨_, tget_mem _ _ _ hc, rfl⟩
  unfold advanceTime getCore tgetD
  dsimp only
  rw [tget_tmap, hc]
  have hr : ((tkeys s.cores).filter (clockTicks s)).contains ci = clockTicks s ci := by
    rw [Bool.eq_iff_iff, List.contains_iff_mem, List.mem_filter]
    exact and_iff_right hk
  simp only [Option.map_some, Option.getD_some, hr]
  split <;> rfl
theorem clockTicks_iff (s : State) (ci : Nat) : clockTicks s ci = true ↔ (getCluster s (clusterOf ci)).droop = false ∧
    (s.ticks / 5 + 1) * (24 - (getCluster s (clusterOf ci)).slow) / 24 ≠ s.ticks / 5 * (24 - (getCluster s (clusterOf ci)).slow) / 24 := by
  unfold clockTicks takesCycle Config.ticksPerCycle
  simp only [Bool.and_eq_true, Bool.not_eq_true', decide_eq_true_eq]
theorem Formed.core {old : List Drill} {c c' : Core} {d : Drill} (h : Formed old c d) (he : c' = c) : Formed old c' d := he ▸ h
/-- One core after another issues its drills. -/
theorem issueAll_issues {lo : Nat} {old pre : List Drill} {l : List Nat} (hn : l.Nodup) {s : State} (hk : Kept lo s) (hw : ∀ w ∈ s.walked, w ∈ old)
    (hd : ∀ d ∈ s.issued, d ∈ pre ∨ (Formed old (getCore s d.core) d ∧ d.core ∉ l)) :
    (∀ ci, (getCore (l.foldl issueCore s) ci).cyc = (getCore s ci).cyc) ∧ (l.foldl issueCore s).ticks = s.ticks ∧ (l.foldl issueCore s).now = s.now ∧
      ∀ d ∈ (l.foldl issueCore s).issued, d ∈ pre ∨ Formed old (getCore (l.foldl issueCore s) d.core) d := by
  induction l generalizing s with
  | nil => exact ⟨fun _ => rfl, rfl, rfl, fun d h => (hd d h).imp id And.left⟩
  | cons ci l ih =>
    obtain ⟨hni, hn⟩ := List.nodup_cons.1 hn
    obtain ⟨s', new, hsame, hnow, hwalk, hiss, hl, hf⟩ := issueCore_issues (ci := ci) hk
    have hc : ∀ cj, getCore (issueCore s ci) cj = getCore s' cj := fun cj => hsame.getCore cj
    have hcyc : ∀ cj, (getCore (issueCore s ci) cj).cyc = (getCore s cj).cyc := fun cj => by
      rw [hc]
      by_cases hj : cj = ci
      · rw [hj, hl.cyc]
      · rw [hl.others cj hj]
    have hi : (issueCore s ci).issued = s.issued ++ new := by rw [hiss, hl.issued]
    obtain ⟨h1, h2, h3, h4⟩ := ih hn (hk.issueCore (ci := ci)) (fun w hm => hw w (hl.walked w (hwalk ▸ hm))) fun d hm => by
      rw [hi] at hm
      rcases List.mem_append.1 hm with hm | hm
      · refine (hd d hm).imp id fun ⟨hfd, hnl⟩ => ⟨?_, fun h => hnl (List.mem_cons_of_mem _ h)⟩
        exact hfd.core ((hc _).trans (hl.others _ fun h => hnl (h ▸ List.mem_cons_self)))
      · obtain ⟨hco, hfd⟩ := hf d hm
        refine .inr ⟨?_, hco ▸ hni⟩
        rw [hc, hco]
        exact hfd.mono hw
    rw [List.foldl_cons]
    refine ⟨fun cj => (h1 cj).trans (hcyc cj), h2.trans (hsame.ticks.trans hl.ticks), h3.trans (hnow.trans hl.now), h4⟩
/-- R12 to R14, R293, R399: an issue cycle. -/
theorem issueCycle_issues {s : State} (hk : WellKept s) : ∃ s', exec .issueCycle s = .next s' ∧ s'.ticks = s.ticks + 5 ∧
    (s.disc.slew = 0 → s'.now = s.now + ((s.ticks + 5) / 3 - s.ticks / 3)) ∧
    (∀ ci c, ci < 4096 → tget s.cores ci = some c → (getCore s' ci).cyc = c.cyc + (if clockTicks s ci = true then 1 else 0)) ∧
    ∀ d ∈ s'.issued, d ∈ s.issued ∨ Formed s.walked (getCore s' d.core) d := by
  have hk0 : Kept 0 s := (kept_iff s).2 hk
  have k1 : Kept 0 (timeStart (sweepStops ((tkeys s.clusters).foldl settleFusion (makeComm (strike (advanceTime s)))))) :=
    (Kept.foldl (fun _ cl hs => Kept.settleFusion hs (cl := cl)) (tkeys s.clusters) hk0.advanceTime.strike.makeComm).sweepStops.timeStart
  have l1 : Steady (advanceTime s) (timeStart (sweepStops ((tkeys s.clusters).foldl settleFusion (makeComm (strike (advanceTime s)))))) :=
    (((((strike_steady _).trans (makeComm_steady _)).trans (.foldl settleFusion_steady _ _)).trans (sweepStops_steady _)).trans (timeStart_steady _))
  refine ⟨_, rfl, ?_⟩
  generalize timeStart (sweepStops ((tkeys s.clusters).foldl settleFusion (makeComm (strike (advanceTime s))))) = s1 at k1 l1 ⊢
  obtain ⟨hcyc, ht, hnow, hd⟩ := issueAll_issues (l := (tkeys s.cores).filter (clockTicks s)) (old := s.walked) (pre := s.issued) (List.Nodup.filter (clockTicks s) (sorted_keys_nodup hk0.cores)) k1 l1.walked
    fun d hm => .inl (by rw [l1.issued] at hm; exact hm)
  have h3 : SameCores (((tkeys s.cores).filter (clockTicks s)).foldl issueCore s1) (setAny (((tkeys s.cores).filter (clockTicks s)).foldl issueCore s1)) := ⟨rfl, rfl⟩
  obtain ⟨f1, f2, f3, -⟩ := launchFar_still (setAny (((tkeys s.cores).filter (clockTicks s)).foldl issueCore s1))
  have fc := fun ci => (h3.trans f1).getCore ci
  refine ⟨(f1.ticks.trans ht).trans l1.ticks, fun hs => ?_, fun ci c hci hc => ?_, fun d hm => ?_⟩
  · refine ((f2.trans hnow).trans l1.now).trans ?_
    simp [advanceTime, slewed, hs, Config.ticksPerCycle, Config.ticksPerQuarter]
  · rw [fc, hcyc, l1.cyc ci hci, advanceTime_cyc hc]
  · rw [f3] at hm
    rw [fc]
    exact hd d hm
end Sys2Proof.Machine

/-! ### A stop request (R162, R164, R263) -/
namespace Sys2Proof.Machine
open Sys2Proof

/-- From s to s' one thread of the core is changed by g; the other threads, the plots, the matrix step and the memory stand. -/
structure Touches (ci t : Nat) (g : Thread → Thread) (s s' : State) : Prop where
  self : getThread s' ci t = (getThread s ci t).map g
  others : ∀ u, u ≠ t → getThread s' ci u = getThread s ci u
  plots : (getCore s' ci).plots = (getCore s ci).plots
  mcur : (getCore s' ci).mcur = (getCore s ci).mcur
  mem : s'.mem = s.mem
theorem Touches.trans {ci t : Nat} {f g : Thread → Thread} {a b c : State} (h : Touches ci t f a b) (k : Touches ci t g b c) : Touches ci t (g ∘ f) a c where
  self := by rw [k.self, h.self, Option.map_map]
  others u hu := (k.others u hu).trans (h.others u hu)
  plots := k.plots.trans h.plots
  mcur := k.mcur.trans h.mcur
  mem := k.mem.trans h.mem
theorem Touches.refl (ci t : Nat) (s : State) : Touches ci t id s s := ⟨by simp, fun _ _ => rfl, rfl, rfl, rfl⟩
theorem Touches.updThread (s : State) (ci t : Nat) (g : Thread → Thread) : Touches ci t g s (updThread s ci t g) where
  self := getThread_updThread_self ..
  others _ hu := getThread_updThread_ne _ _ _ hu
  plots := (congrArg Core.plots (getCore_putCore_self s ci (updThreadC (getCore s ci) t g)) :)
  mcur := (congrArg Core.mcur (getCore_putCore_self s ci (updThreadC (getCore s ci) t g)) :)
  mem := rfl
/-- A core of which neither threads nor plots nor the matrix step change. -/
theorem Touches.updCore {s : State} {ci : Nat} (t : Nat) {f : Core → Core}
    (hf : (f (getCore s ci)).threads = (getCore s ci).threads ∧ (f (getCore s ci)).plots = (getCore s ci).plots ∧ (f (getCore s ci)).mcur = (getCore s ci).mcur) :
    Touches ci t id s (updCore s ci f) := by
  obtain ⟨h1, h2, h3⟩ := hf
  have hg : getCore (Machine.updCore s ci f) ci = f (getCore s ci) := getCore_putCore_self ..
  refine ⟨?_, fun u _ => ?_, by rw [hg, h2], by rw [hg, h3], rfl⟩
  · rw [getThread, hg, h1]
    exact Option.map_id'.symm
  · rw [getThread, hg, h1]
    rfl
/-- A thread that leaves what it waits in keeps everything but the mark of an open `nap`. -/
theorem leaveWait_touches (s : State) (ci t : Nat) (th : Thread) (w : Wait) :
    ∃ g, Touches ci t g s (leaveWait s ci t th w) ∧ ∀ x, ∃ b, g x = { x with napOpen := b } := by
  have still : ∀ x : Thread, ∃ b, id x = { x with napOpen := b } := fun x => ⟨x.napOpen, rfl⟩
  unfold leaveWait
  split
  · exact ⟨_, .updThread .., fun _ => ⟨false, rfl⟩⟩
  · split
    · exact ⟨_, .refl .., still⟩
    · exact ⟨_, .updCore t ⟨rfl, rfl, rfl⟩, still⟩
  · exact ⟨_, .updCore t ⟨rfl, rfl, rfl⟩, still⟩
  · split
    · exact ⟨_, .refl .., still⟩
    · refine ⟨_, .updCore t ?_, still⟩
      split <;> exact ⟨rfl, rfl, rfl⟩
  · exact ⟨_, ⟨Option.map_id'.symm, fun _ _ => rfl, rfl, rfl, rfl⟩, still⟩
  · exact ⟨_, .updCore t ⟨rfl, rfl, rfl⟩, still⟩
  · exact ⟨_, .updCore t ⟨rfl, rfl, rfl⟩, still⟩
  · exact ⟨_, .refl .., still⟩
/-- What the saving of a waiting thread makes of it, where its matrix step has not begun. -/
def SavedFrom (cur : Option Nat) (th new : Thread) : Prop :=
  ∀ w, th.st = .waiting w → (∀ id, w = .matrix id → cur ≠ some id) → new.st = .saved true ∧ new.savedFull = true ∧ new.pc = th.pc ∧ new.regs = th.regs ∧ new.preds = th.preds ∧
    (∀ b seen, w = .barrier b seen → th.sheaf.isSome = true → tget new.rejoin b = some seen)
theorem stepBegun_false {c : Core} {w : Wait} (h : ∀ id, w = .matrix id → c.mcur ≠ some id) : stepBegun c w = false := by
  unfold stepBegun
  split
  · next id => simpa using h id rfl
  · rfl
theorem saveWaiting_touches {s : State} {ci t : Nat} {th : Thread} (ht : getThread s ci t = some th) (hs : th.stepping = none) :
    ∃ g, Touches ci t g s (saveWaiting s ci t) ∧ SavedFrom (getCore s ci).mcur th (g th) := by
  unfold saveWaiting
  simp only [ht]
  split
  · next w hw =>
    split
    · next hb =>
      refine ⟨_, .refl .., fun w' hw' hm => absurd hb ?_⟩
      obtain rfl : w = w' := by
        rw [hw] at hw'
        exact TSt.waiting.inj hw'
      simp [stepBegun_false hm]
    · obtain ⟨g, hg, hn⟩ := leaveWait_touches s ci t th w
      simp only [hs]
      refine ⟨_, (hg.trans (.updThread ..)).trans (.updThread ..), fun w' hw' _ => ?_⟩
      obtain rfl : w = w' := by
        rw [hw] at hw'
        exact TSt.waiting.inj hw'
      obtain ⟨b, hb⟩ := hn th
      simp only [Function.comp, hb]
      refine ⟨trivial, trivial, trivial, trivial, trivial, fun b seen he hsh => ?_⟩
      subst he
      simp [hsh, tget]
  · next hw => exact ⟨_, .refl .., fun w hw' => absurd hw' (hw w)⟩
/-- All waiting threads of a list are saved. -/
theorem saveAll_saves {ci : Nat} {l : List Nat} (hn : l.Nodup) {s : State} (hs : ∀ t ∈ l, ∀ th, getThread s ci t = some th → th.stepping = none) :
    (l.foldl (fun s t => saveWaiting s ci t) s).mem = s.mem ∧ (getCore (l.foldl (fun s t => saveWaiting s ci t) s) ci).plots = (getCore s ci).plots ∧
    (∀ t, t ∉ l → getThread (l.foldl (fun s t => saveWaiting s ci t) s) ci t = getThread s ci t) ∧
    ∀ t ∈ l, ∀ th, getThread s ci t = some th → ∃ new, getThread (l.foldl (fun s t => saveWaiting s ci t) s) ci t = some new ∧ SavedFrom (getCore s ci).mcur th new := by
  induction l generalizing s with
  | nil => exact ⟨rfl, rfl, fun _ _ => rfl, fun _ h => absurd h List.not_mem_nil⟩
  | cons u l ih =>
    obtain ⟨hu, hn⟩ := List.nodup_cons.1 hn
    have step : ∃ g, Touches ci u g s (saveWaiting s ci u) ∧ ∀ th, getThread s ci u = some th → SavedFrom (getCore s ci).mcur th (g th) := by
      cases hg : getThread s ci u with
      | none =>
        refine ⟨id, ?_, fun _ h => absurd h (by simp)⟩
        unfold saveWaiting
        simp only [hg]
        exact .refl ..
      | some th =>
        obtain ⟨g, h1, h2⟩ := saveWaiting_touches hg (hs u List.mem_cons_self th hg)
        exact ⟨g, h1, fun x hx => Option.some.inj hx ▸ h2⟩
    obtain ⟨g, h1, h2⟩ := step
    have hne : ∀ t ∈ l, t ≠ u := fun t ht he => hu (he ▸ ht)
    obtain ⟨i1, i2, i3, i4⟩ := ih hn (s := saveWaiting s ci u) fun t ht th hth => hs t (List.mem_cons_of_mem _ ht) th (h1.others t (hne t ht) ▸ hth)
    rw [List.foldl_cons]
    refine ⟨i1.trans h1.mem, i2.trans h1.plots, fun t ht => ?_, fun t ht th hth => ?_⟩
    · exact (i3 t fun h => ht (List.mem_cons_of_mem _ h)).trans (h1.others t fun h => ht (h ▸ List.mem_cons_self))
    · rcases List.mem_cons.1 ht with rfl | ht
      · refine ⟨g th, ?_, h2 th hth⟩
        rw [i3 t hu, h1.self, hth]
        rfl
      · rw [← h1.mcur]
        exact i4 t ht th (by rw [h1.others t (hne t ht)]; exact hth)
end Sys2Proof.Machine

/-! ### The sweep of a stopping plot (R164) -/
namespace Sys2Proof.Machine
open Sys2Proof

/-- The sweep of one core. -/
def sweepCore (s : State) (ci : Nat) : State :=
  let stopping (c : Core) (pi : Nat) : Bool := (getPlot c pi).stop.isSome && (getPlot c pi).frozen.isNone
  let c := getCore s ci
  if c.plots.all fun e => e.2.stop.isNone then s
  else
    let bins := (c.bins.filter fun e => !e.2.isJoin && stopping c e.2.plot).map (·.1)
    let s := bins.foldl (fun s b => launchBin s ci b) s
    let l := ((getCore s ci).threads.filter fun e => stopping (getCore s ci) e.2.plot && match e.2.st with
      | .waiting _ => true
      | _ => false).map (·.1)
    l.foldl (fun s t => saveWaiting s ci t) s
theorem sweepStops_eq (s : State) : sweepStops s = (tkeys s.cores).foldl sweepCore s := rfl
/-- A core without a stopping plot stands. -/
theorem sweepCore_idle {s : State} {cj : Nat} (h : ∀ e ∈ (getCore s cj).plots, e.2.stop = none) : sweepCore s cj = s := by
  unfold sweepCore
  extract_lets stopping c
  rw [if_pos]
  exact List.all_eq_true.2 fun e he => Option.isNone_iff_eq_none.2 (h e he)
theorem sweepCore_local (s : State) (ci : Nat) : Local ci s (sweepCore s ci) := by
  unfold sweepCore
  extract_lets stopping c bins s1 l
  split
  · exact .refl _ _
  · have h1 : Local ci s s1 := .foldl (fun _ _ hs => hs.launchBin) _ (.refl ci s)
    exact .foldl (fun _ _ hs => hs.saveWaiting) _ h1
/-- Where one core alone has stopping plots, the sweep is that core's. -/
theorem sweep_one {s : State} {ci : Nat} (ho : ∀ cj, cj ≠ ci → ∀ e ∈ (getCore s cj).plots, e.2.stop = none) {l : List Nat} (hn : l.Nodup) (hm : ci ∈ l) :
    l.foldl sweepCore s = sweepCore s ci := by
  have after : ∀ l : List Nat, ci ∉ l → l.foldl sweepCore (sweepCore s ci) = sweepCore s ci := fun l hl => by
    induction l with
    | nil => rfl
    | cons cj l ih =>
      have hj : cj ≠ ci := fun h => hl (h ▸ List.mem_cons_self)
      rw [List.foldl_cons, sweepCore_idle (s := sweepCore s ci) (cj := cj)]
      · exact ih fun h => hl (List.mem_cons_of_mem _ h)
      · rw [(sweepCore_local s ci).others cj hj]
        exact ho cj hj
  induction l with
  | nil => exact absurd hm List.not_mem_nil
  | cons cj l ih =>
    obtain ⟨hu, hn⟩ := List.nodup_cons.1 hn
    rw [List.foldl_cons]
    rcases List.mem_cons.1 hm with rfl | hm
    · exact after l hu
    · rw [sweepCore_idle (ho cj fun h => hu (h ▸ hm))]
      exact ih hn hm
/-- The threads of a plot that wait. -/
def waitersOfPlot (c : Core) (pi : Nat) : List Nat :=
  (c.threads.filter fun e => decide (e.2.plot = pi) && match e.2.st with
    | .waiting _ => true
    | _ => false).map (·.1)
theorem waitersOfPlot_nodup {c : Core} (hc : CoreKept c) (pi : Nat) : (waitersOfPlot c pi).Nodup :=
  List.Nodup.sublist (List.filter_sublist.map _) (sorted_keys_nodup hc.threads)
theorem mem_waitersOfPlot {c : Core} (hc : CoreKept c) {pi t : Nat} {th : Thread} (ht : tget c.threads t = some th) :
    t ∈ waitersOfPlot c pi ↔ th.plot = pi ∧ ∃ w, th.st = .waiting w := by
  constructor
  · intro h
    obtain ⟨e, he, rfl⟩ := List.mem_map.1 h
    obtain ⟨he, hw⟩ := List.mem_filter.1 he
    obtain rfl := Option.some.inj (ht.symm.trans (tget_of_mem hc.threads he))
    obtain ⟨h1, h2⟩ := Bool.and_eq_true_iff.1 hw
    refine ⟨of_decide_eq_true h1, ?_⟩
    split at h2
    · next w e => exact ⟨w, e⟩
    · exact absurd h2 (by simp)
  · rintro ⟨h1, w, h2⟩
    exact List.mem_map.2 ⟨(t, th), List.mem_filter.2 ⟨tget_mem _ _ _ ht, by simp [h1, h2]⟩, rfl⟩
/-- Where one plot stops, no bin is open and its threads are not stepped, its waiting threads are saved and nothing else is. -/
theorem sweepCore_saves {s : State} {ci pi : Nat} {p : Plot} (hk : Kept 0 s) (hp : tget (getCore s ci).plots pi = some p) (hst : p.stop.isSome = true) (hfr : p.frozen = none)
    (ho : ∀ q r, q ≠ pi → tget (getCore s ci).plots q = some r → r.stop = none) (hb : (getCore s ci).bins = [])
    (hs : ∀ t th, getThread s ci t = some th → th.plot = pi → th.stepping = none) :
    (sweepCore s ci).mem = s.mem ∧ (getCore (sweepCore s ci) ci).plots = (getCore s ci).plots ∧ ∀ t th, getThread s ci t = some th →
      ∃ new, getThread (sweepCore s ci) ci t = some new ∧ (th.plot ≠ pi → new = th) ∧ ((∀ w, th.st ≠ .waiting w) → new = th) ∧
        (th.plot = pi → SavedFrom (getCore s ci).mcur th new) := by
  have stopping : ∀ q, ((getPlot (getCore s ci) q).stop.isSome && (getPlot (getCore s ci) q).frozen.isNone) = decide (q = pi) := fun q => by
    unfold getPlot tgetD
    by_cases hq : q = pi
    · subst hq
      simp [hp, hst, hfr]
    · cases hr : tget (getCore s ci).plots q with
      | none => simp [hq]
      | some r => simp [ho q r hq hr, hq]
  have he : sweepCore s ci = (waitersOfPlot (getCore s ci) pi).foldl (fun s t => saveWaiting s ci t) s := by
    unfold sweepCore
    dsimp only
    rw [if_neg, hb]
    · simp only [List.filter_nil, List.map_nil, List.foldl_nil, stopping]
      rfl
    · intro h
      have hn : p.stop = none := Option.isNone_iff_eq_none.1 (List.all_eq_true.1 h _ (tget_mem _ _ _ hp))
      exact absurd hst (by simp [hn])
  have hc := hk.get ci
  obtain ⟨i1, i2, i3, i4⟩ := saveAll_saves (waitersOfPlot_nodup hc pi) fun t ht th hth => hs t th hth ((mem_waitersOfPlot hc hth).1 ht).1
  rw [← he] at i1 i2 i3 i4
  refine ⟨i1, i2, fun t th hth => ?_⟩
  by_cases hm : t ∈ waitersOfPlot (getCore s ci) pi
  · obtain ⟨h1, w, h2⟩ := (mem_waitersOfPlot hc hth).1 hm
    obtain ⟨new, hnew, hsv⟩ := i4 t hm th hth
    exact ⟨new, hnew, fun h => absurd h1 h, fun h => absurd h2 (h w), fun _ => hsv⟩
  · refine ⟨th, (i3 t hm).trans hth, fun _ => rfl, fun _ => rfl, fun h1 w h2 => absurd ((mem_waitersOfPlot hc hth).2 ⟨h1, w, h2⟩) hm⟩
/-- A plot that is marked to stop: nothing else of the state changes. -/
structure Marked (ci pi : Nat) (p' : Plot) (s s' : State) : Prop where
  core : ∃ P, getCore s' ci = { getCore s ci with plots := P }
  plot : tget (getCore s' ci).plots pi = some p'
  plots : ∀ q, q ≠ pi → tget (getCore s' ci).plots q = tget (getCore s ci).plots q
  others : ∀ cj, cj ≠ ci → getCore s' cj = getCore s cj
  mem : s'.mem = s.mem
  here : ci ∈ tkeys s'.cores
theorem updPlot_marks {s : State} {ci pi : Nat} {p : Plot} (hp : tget (getCore s ci).plots pi = some p) (f : Plot → Plot) : Marked ci pi (f p) s (updPlot s ci pi f) := by
  have hc : getCore (updPlot s ci pi f) ci = { getCore s ci with plots := tupd (getCore s ci).plots pi f } := getCore_putCore_self ..
  refine ⟨⟨_, hc⟩, ?_, fun q hq => ?_, fun cj hj => getCore_putCore_ne _ _ _ _ hj, rfl, ?_⟩
  · rw [hc, tget_tupd_self, hp]
    rfl
  · rw [hc]
    exact tget_tupd_ne _ _ _ _ hq
  · exact List.mem_map.2 ⟨(ci, { getCore s ci with plots := tupd (getCore s ci).plots pi f }), tget_mem _ _ _ (tget_tput_self ..), rfl⟩
theorem Marked.trans {ci pi : Nat} {p q : Plot} {a b c : State} (h : Marked ci pi p a b) (k : Marked ci pi q b c) : Marked ci pi q a c := by
  obtain ⟨P, hP⟩ := h.core
  obtain ⟨Q, hQ⟩ := k.core
  exact ⟨⟨Q, by rw [hQ, hP]⟩, k.plot, fun j hj => (k.plots j hj).trans (h.plots j hj), fun cj hj => (k.others cj hj).trans (h.others cj hj), k.mem.trans h.mem, k.here⟩
end Sys2Proof.Machine

/-! ### Stop requests, and the obligation (R162, R164) -/
namespace Sys2Proof.Machine
open Sys2Proof

theorem getPlot_of {c : Core} {pi : Nat} {p : Plot} (h : tget c.plots pi = some p) : getPlot c pi = p := by
  unfold getPlot tgetD
  rw [h]
  rfl
theorem partsOf_narrow {s : State} {ci pi : Nat} {p : Plot} (hp : tget (getCore s ci).plots pi = some p) (hw : p.hdr.wide = false) : partsOf s ci pi = [(ci, pi)] := by
  unfold partsOf
  simp only [getPlot_of hp, hw]
  rfl
theorem holdSlots_narrow {s : State} {ci pi : Nat} {p : Plot} (hp : tget (getCore s ci).plots pi = some p) (hw : p.hdr.wide = false) {b : Nat}
    (hb : freeSlotsRun s 1 = some b) : holdSlots s (ci, pi) = some (updPlot s ci pi fun p => { p with saveAt := some b }) := by
  unfold holdSlots
  simp only [partsOf_narrow hp hw, List.mergeSort_singleton, List.length_singleton, hb]
  rfl
/-- A core that no entry stands for has no plot. -/
theorem core_present {s : State} {ci q : Nat} {r : Plot} (h : tget (getCore s ci).plots q = some r) : tget s.cores ci ≠ none := fun hn => by
  unfold getCore tgetD at h
  rw [hn] at h
  exact absurd h (by simp)
theorem Marked.plot_eq {ci pi : Nat} {p q : Plot} {s s' : State} (h : Marked ci pi p s s') (e : p = q) : Marked ci pi q s s' := e ▸ h
/-- The marks of a stop request. -/
theorem stopRequest_marks {s : State} {ci pi : Nat} {p : Plot} (hp : tget (getCore s ci).plots pi = some p) (hf : p.frozen = none) (hst : p.stop = none)
    (hw : p.hdr.wide = false) (hr : p.saveAt.isSome = true ∨ (freeSlotsRun s 1).isSome = true) : ∃ s1, exec (.stopRequest ci pi) s = .next (sweepStops s1) ∧
      Marked ci pi { p with stop := some (getCore s ci).cyc, tileMask := 0, saveAt := p.saveAt.orElse fun _ => freeSlotsRun s 1 } s s1 ∧ (Kept 0 s → Kept 0 s1) := by
  have he : exec (.stopRequest ci pi) s = execStopRequest ci pi s := rfl
  have hg : (p.stop.isSome || [(ci, pi)].any fun x => (getPlot (getCore s x.1) x.2).frozen.isSome) = false := by simp [getPlot_of hp, hf, hst]
  rw [he]
  unfold execStopRequest
  simp only [hp, partsOf_narrow hp hw, hg]
  cases ha : p.saveAt with
  | some a =>
    refine ⟨_, rfl, ?_, fun h => h.updPlot⟩
    have hm := updPlot_marks hp fun p => { p with stop := some (getCore s ci).cyc, tileMask := 0 }
    rw [ha] at hm
    exact hm
  | none =>
    obtain ⟨b, hb⟩ := Option.isSome_iff_exists.1 (hr.resolve_left (by simp [ha]))
    simp only [holdSlots_narrow hp hw hb, hb]
    refine ⟨_, rfl, ?_, fun h => h.updPlot.updPlot⟩
    have h1 := updPlot_marks hp fun p => { p with saveAt := some b }
    obtain ⟨P, hP⟩ := h1.core
    refine h1.trans ?_
    have h2 := updPlot_marks h1.plot fun p => { p with stop := some (getCore (updPlot s ci pi fun p => { p with saveAt := some b }) ci).cyc, tileMask := 0 }
    have hc : (getCore (updPlot s ci pi fun p => { p with saveAt := some b }) ci).cyc = (getCore s ci).cyc := by rw [hP]
    exact h2.plot_eq (by rw [hc]; rfl)
/-- R162, R164, R263: a stop request to a plot on one core. -/
theorem stopRequest_stops {s : State} {ci pi : Nat} {p : Plot} (hk : WellKept s) (hp : tget (getCore s ci).plots pi = some p) (hf : p.frozen = none) (hst : p.stop = none)
    (hw : p.hdr.wide = false) (ho : ∀ cj, tget s.cores cj ≠ none → ∀ q r, tget (getCore s cj).plots q = some r → r.stop = none) (hb : (getCore s ci).bins = [])
    (hs : ∀ t th, getThread s ci t = some th → th.plot = pi → th.stepping = none) (hr : p.saveAt.isSome = true ∨ (freeSlotsRun s 1).isSome = true) :
    ∃ s' p', exec (.stopRequest ci pi) s = .next s' ∧ s'.mem = s.mem ∧ tget (getCore s' ci).plots pi = some p' ∧
      p' = { p with stop := some (getCore s ci).cyc, tileMask := 0, saveAt := p.saveAt.orElse fun _ => freeSlotsRun s 1 } ∧
      ∀ t th, getThread s ci t = some th → ∃ new, getThread s' ci t = some new ∧ (th.plot ≠ pi → new = th) ∧ ((∀ w, th.st ≠ .waiting w) → new = th) ∧
        (th.plot = pi → SavedFrom (getCore s ci).mcur th new) := by
  have hk0 : Kept 0 s := (kept_iff s).2 hk
  obtain ⟨s1, he, hm, hk1⟩ := stopRequest_marks hp hf hst hw hr
  have hk1 : Kept 0 s1 := hk1 hk0
  obtain ⟨P, hP⟩ := hm.core
  have hth : ∀ t, getThread s1 ci t = getThread s ci t := fun t => by rw [getThread, hP]; rfl
  have idle : ∀ cj, cj ≠ ci → ∀ e ∈ (getCore s1 cj).plots, e.2.stop = none := fun cj hj e hmem => by
    rw [hm.others cj hj] at hmem
    have ht := tget_of_mem (hk0.get cj).plots hmem
    exact ho cj (core_present ht) _ _ ht
  have sw : sweepStops s1 = sweepCore s1 ci := (sweepStops_eq s1).trans (sweep_one idle (sorted_keys_nodup hk1.cores) hm.here)
  obtain ⟨i1, i2, i3⟩ := sweepCore_saves hk1 hm.plot rfl hf
    (fun q r hq hr => ho ci (core_present hp) q r (by rw [← hm.plots q hq]; exact hr)) (by rw [hP]; exact hb) fun t th ht => hs t th (by rw [← hth]; exact ht)
  refine ⟨_, _, he.trans (congrArg _ sw), i1.trans hm.mem, by rw [i2]; exact hm.plot, rfl, fun t th ht => ?_⟩
  have hmc : (getCore s1 ci).mcur = (getCore s ci).mcur := by rw [hP]
  rw [← hmc]
  exact i3 t th ((hth t).trans ht)
end Sys2Proof.Machine
section
open Sys2Proof Sys2Proof.Machine

/-- Settles O48: the issue cycle core by core, the choice of the supplier, and the marks and saves of a stop. -/
theorem issueAndStops : Obligations.IssueAndStops := by
  unfold Obligations.IssueAndStops
  refine ⟨⟨fun s hk => ?_, fun _ _ _ _ h => supplier_picks h, threadOverdue_marks, yieldExpiry_ends⟩, ?_,
    fun _ _ _ _ hp hf hw => stopRequest_frozen hp hf hw, stopFallback_saves⟩
  · obtain ⟨s', he, ht, hn, hc, hd⟩ := issueCycle_issues hk
    refine ⟨s', he, ht, hn, fun ci c hci h => ?_, hd⟩
    rw [hc ci c hci h]
    simp only [clockTicks_iff]
  · intro s ci pi p hk hp hf hst hw ho hb hs hr
    obtain ⟨s', p', he, hm, hp', heq, hth⟩ := stopRequest_stops hk hp hf hst hw ho hb hs hr
    refine ⟨s', p', he, hm, hp', heq, fun t th ht => ?_⟩
    obtain ⟨new, hnew, h1, h2, h3⟩ := hth t th ht
    exact ⟨new, hnew, h1, fun _ => h2, h3⟩
end

/-! ### Retirement of plots (R25, R248) -/
namespace Sys2Proof.Machine
open Sys2Proof

theorem countDrop_mem (s : State) (k : Nat) : (countDrop s k).mem = s.mem := by
  unfold countDrop
  dsimp only
  split <;> rfl
theorem emitR_mem (s : State) (u : Word) (t : Nat) (c : DWord) (p f : Nat) : (emitR s u t c p f).mem = s.mem := by
  unfold emitR emitRec
  dsimp only
  split
  · exact countDrop_mem ..
  · rfl
/-- From s to s' only fault fragments of the core change, and none waits that did not. -/
structure FragsOnly (ci : Nat) (s s' : State) : Prop where
  core : ∃ f, getCore s' ci = { getCore s ci with frags := f }
  quiet : Quiet s s'
  mem : s'.mem = s.mem
/-- Where none waits for an entry, a freed one is only gone. -/
theorem freeFrag_frags {s : State} {ci : Nat} (h : (getCore s ci).fragWait = []) (e : Nat) : FragsOnly ci s (freeFrag s ci e) := by
  have hf : freeFrag s ci e = putCore s ci { getCore s ci with frags := tdel (getCore s ci).frags e } := by
    unfold freeFrag
    dsimp only
    rw [h]
  rw [hf]
  exact ⟨⟨_, getCore_putCore_self ..⟩, putCore_quiet .., rfl⟩
theorem freeFrags_frags (l : List Nat) {s : State} {ci : Nat} (h : (getCore s ci).fragWait = []) : FragsOnly ci s (l.foldl (fun s e => freeFrag s ci e) s) := by
  induction l generalizing s with
  | nil => exact ⟨⟨_, rfl⟩, .refl s, rfl⟩
  | cons e l ih =>
    obtain ⟨⟨f, hf⟩, hq, hm⟩ := freeFrag_frags h e
    obtain ⟨⟨g, hg⟩, hq', hm'⟩ := ih (s := freeFrag s ci e) (by rw [hf]; exact h)
    exact ⟨⟨g, by rw [List.foldl_cons, hg, hf]⟩, hq.trans hq', hm'.trans hm⟩
/-- What a part's release leaves of its core, where none of another plot waits for a fragment. -/
theorem freePart_releases {s : State} {ci pi : Nat} (hw : ∀ x ∈ (getCore s ci).fragWait, x.plot = pi) : Quiet s (freePart s ci pi) ∧ (freePart s ci pi).mem = s.mem ∧
    (getCore (freePart s ci pi) ci).plots = tdel (getCore s ci).plots pi ∧ (getCore (freePart s ci pi) ci).threads = (getCore s ci).threads ∧
    (getCore (freePart s ci pi) ci).joins = (getCore s ci).joins.filter (fun j => j.plot != pi) ∧
    (getCore (freePart s ci pi) ci).tblOwner = if (getCore s ci).tblOwner = some pi then none else (getCore s ci).tblOwner := by
  have h0 : (getCore s ci).fragWait.filter (fun f => f.plot != pi) = [] := List.filter_eq_nil_iff.2 fun x hx => by simp [hw x hx]
  have h1 : getCore (updCore s ci fun c => { c with fragWait := c.fragWait.filter fun f => f.plot != pi }) ci = { getCore s ci with fragWait := [] } := by
    rw [updCore_eq, getCore_putCore_self, h0]
  have h2 := freeFrags_frags (((getCore (updCore s ci fun c => { c with fragWait := c.fragWait.filter fun f => f.plot != pi }) ci).frags.filter fun e => e.2.plot == pi).map (·.1))
    (congrArg Core.fragWait h1)
  obtain ⟨⟨f, hf⟩, hq, hm⟩ := h2
  unfold freePart freePlotFrags
  refine ⟨((updCore_quiet ..).trans hq).trans (updCore_quiet ..), hm, ?_⟩
  rw [updCore_eq, getCore_putCore_self]
  dsimp only
  rw [hf, h1]
  exact ⟨rfl, rfl, rfl, rfl⟩
/-- Does the plot of this index stand unfrozen, without threads and with its accesses ended? -/
def mayRetire (s : State) (ci pi : Nat) : Bool :=
  (getPlot (getCore s ci) pi).frozen.isNone && ((getCore s ci).threads.all fun e => e.2.plot != pi) && plotQuiet s ci pi
theorem plotRetire_eq {s : State} {ci pi : Nat} {p : Plot} (hp : tget (getCore s ci).plots pi = some p) (hw : p.hdr.wide = false) : exec (.plotRetire ci pi) s =
    .next (if mayRetire s ci pi = true then updRun (unfuse (emitR (freePart s ci pi) (unitCore ci none) 0x0202 p.cid) (clusterOf ci)) p.run
      (fun r => { r with fields := tupd r.fields p.node fun f => { f with retired := f.retired + 1 } }) else s) := by
  have he : exec (.plotRetire ci pi) s = execPlotRetire ci pi s := rfl
  rw [he]
  unfold execPlotRetire
  simp only [hp, partsOf_narrow hp hw, List.all_cons, List.all_nil, Bool.and_true, List.foldl_cons, List.foldl_nil]
  cases h : mayRetire s ci pi with
  | true =>
    have h' := h
    unfold mayRetire at h'
    rw [h']
    rfl
  | false =>
    have h' := h
    unfold mayRetire at h'
    rw [h']
    rfl
/-- Where the cluster is not fused nor about to be, nothing is unfused. -/
theorem unfuse_idle {s : State} {cl : Nat} (h : fusesTo (getCluster s cl) = false) : unfuse s cl = s := by
  unfold unfuse
  dsimp only
  rw [h]
  rfl
/-- R248: a plot of one core retires. -/
theorem plotRetire_retires {s : State} {ci pi : Nat} {p : Plot} (hk : WellKept s) (hp : tget (getCore s ci).plots pi = some p) (hw : p.hdr.wide = false) (hf : p.frozen = none)
    (ht : ∀ t th, getThread s ci t = some th → th.plot ≠ pi) (hq : plotQuiet s ci pi = true) (hu : fusesTo (getCluster s (clusterOf ci)) = false)
    (hfw : ∀ x ∈ (getCore s ci).fragWait, x.plot = pi) : ∃ s', exec (.plotRetire ci pi) s = .next s' ∧ s'.mem = s.mem ∧ tget (getCore s' ci).plots pi = none ∧
      (∀ k, k ≠ pi → tget (getCore s' ci).plots k = tget (getCore s ci).plots k) ∧ (getCore s' ci).threads = (getCore s ci).threads ∧
      (∀ x ∈ (getCore s' ci).joins, x.plot ≠ pi) ∧ (getCore s' ci).tblOwner ≠ some pi ∧
      (∀ r f, tget s.runs p.run = some r → tget r.fields p.node = some f → ∃ r', tget s'.runs p.run = some r' ∧
        tget r'.fields p.node = some { f with retired := f.retired + 1 }) := by
  have hc := ((kept_iff s).2 hk).get ci
  have hm : mayRetire s ci pi = true := by
    unfold mayRetire
    rw [getPlot_of hp, hf, hq, Bool.and_true, Option.isNone_none, Bool.true_and]
    exact List.all_eq_true.2 fun e he => by simpa using ht e.1 e.2 (tget_of_mem hc.threads he)
  obtain ⟨q1, m1, hplots, hthreads, hjoins, htbl⟩ := freePart_releases hfw
  have hs := emitR_same (freePart s ci pi) (unitCore ci none) 0x0202 p.cid 0 0
  have q2 := q1.trans (emitR_quiet (freePart s ci pi) (unitCore ci none) 0x0202 p.cid 0 0)
  have m2 := (emitR_mem (freePart s ci pi) (unitCore ci none) 0x0202 p.cid 0 0).trans m1
  have hun : unfuse (emitR (freePart s ci pi) (unitCore ci none) 0x0202 p.cid) (clusterOf ci) = emitR (freePart s ci pi) (unitCore ci none) 0x0202 p.cid := by
    refine unfuse_idle ?_
    unfold getCluster
    rw [q2.clusters]
    exact hu
  rw [plotRetire_eq hp hw, if_pos hm, hun]
  rw [← hs.getCore] at hplots hthreads hjoins htbl
  generalize emitR (freePart s ci pi) (unitCore ci none) 0x0202 p.cid = z at *
  have hg : ∀ f, getCore (updRun z p.run f) ci = getCore z ci := fun _ => rfl
  refine ⟨_, rfl, m2, ?_, fun k hne => ?_, ?_, fun x hx => ?_, ?_, fun r f hr hfd => ?_⟩
  · rw [hg, hplots]
    exact tget_tdel_self ..
  · rw [hg, hplots]
    exact tget_tdel_ne _ _ _ hne
  · rw [hg, hthreads]
  · rw [hg, hjoins] at hx
    simpa using (List.mem_filter.1 hx).2
  · rw [hg, htbl]
    split
    · simp
    · next h => exact h
  · refine ⟨{ r with fields := tupd r.fields p.node fun f => { f with retired := f.retired + 1 } }, ?_, ?_⟩
    · unfold updRun
      rw [tget_tupd_self, q2.runs, hr]
      rfl
    · rw [tget_tupd_self, hfd]
      rfl
theorem plotRetire_stands {s : State} {ci pi : Nat} {p : Plot} (hp : tget (getCore s ci).plots pi = some p) (hw : p.hdr.wide = false)
    (h : p.frozen ≠ none ∨ (∃ t th, getThread s ci t = some th ∧ th.plot = pi) ∨ plotQuiet s ci pi = false) : exec (.plotRetire ci pi) s = .next s := by
  rw [plotRetire_eq hp hw, if_neg]
  unfold mayRetire
  rw [getPlot_of hp]
  intro hm
  obtain ⟨hm, hq⟩ := Bool.and_eq_true_iff.1 hm
  obtain ⟨hfr, hth⟩ := Bool.and_eq_true_iff.1 hm
  rcases h with h | ⟨t, th, ht, hpl⟩ | h
  · exact h (Option.isNone_iff_eq_none.1 hfr)
  · simpa [hpl] using List.all_eq_true.1 hth _ (tget_mem _ _ _ ht)
  · rw [h] at hq
    exact absurd hq (by simp)
end Sys2Proof.Machine

/-! ### Pre-emption holds save slots and asks for stops, and changes nothing else (R354, R367) -/
namespace Sys2Proof.Machine
open Sys2Proof

/-- From s to s' plots are given save slots and the agenda grows; nothing else changes. -/
structure HoldsOnly (s s' : State) : Prop where
  rest : besides { s' with agenda := s.agenda } = besides s
  mem : s'.mem = s.mem
  core : ∀ cj, ∃ P, getCore s' cj = { getCore s cj with plots := P } ∧ ∀ k q, tget (getCore s cj).plots k = some q → ∃ v, tget P k = some { q with saveAt := v }
theorem HoldsOnly.refl (s : State) : HoldsOnly s s := ⟨rfl, rfl, fun cj => ⟨(getCore s cj).plots, rfl, fun _ q h => ⟨q.saveAt, h⟩⟩⟩
theorem besides_agenda {s s' : State} {l : List Instr} (h : besides { s' with agenda := s.agenda } = besides s) :
    besides { s' with agenda := l } = besides { s with agenda := l } := congrArg (fun z : State => { z with agenda := l }) h
theorem HoldsOnly.trans {a b c : State} (h : HoldsOnly a b) (k : HoldsOnly b c) : HoldsOnly a c := by
  refine ⟨(besides_agenda k.rest).trans h.rest, k.mem.trans h.mem, fun cj => ?_⟩
  obtain ⟨P, hP, hp⟩ := h.core cj
  obtain ⟨Q, hQ, hq⟩ := k.core cj
  refine ⟨Q, by rw [hQ, hP], fun i q hi => ?_⟩
  obtain ⟨v, hv⟩ := hp i q hi
  obtain ⟨w, hw⟩ := hq i { q with saveAt := v } (by rw [hP]; exact hv)
  exact ⟨w, hw⟩
theorem HoldsOnly.foldl {α : Type} {f : State → α → State} (hf : ∀ s x, HoldsOnly s (f s x)) (l : List α) (s : State) : HoldsOnly s (l.foldl f s) := by
  induction l generalizing s with
  | nil => exact .refl _
  | cons x l ih => exact (hf s x).trans (ih _)
theorem HoldsOnly.setAgenda (s : State) (l : List Instr) : HoldsOnly s { s with agenda := l } := ⟨rfl, rfl, (HoldsOnly.refl s).core⟩
theorem HoldsOnly.hold (s : State) (ci pi v : Nat) : HoldsOnly s (updPlot s ci pi fun p => { p with saveAt := some v }) := by
  refine ⟨rfl, rfl, fun cj => ?_⟩
  by_cases hj : cj = ci
  · subst hj
    refine ⟨tupd (getCore s cj).plots pi fun p => { p with saveAt := some v }, getCore_putCore_self .., fun k q hq => ?_⟩
    by_cases hk : k = pi
    · subst hk
      exact ⟨some v, by rw [tget_tupd_self, hq]; rfl⟩
    · exact ⟨q.saveAt, by rw [tget_tupd_ne _ _ _ _ hk]; exact hq⟩
  · exact ⟨(getCore s cj).plots, getCore_putCore_ne _ _ _ _ hj, fun _ q h => ⟨q.saveAt, h⟩⟩
theorem holdSlots_holds {s t : State} {v : Nat × Nat} (h : holdSlots s v = some t) : HoldsOnly s t := by
  unfold holdSlots at h
  obtain ⟨b, -, rfl⟩ := Option.map_eq_some_iff.1 h
  exact .foldl (fun s (x : (Nat × Nat) × Nat) => HoldsOnly.hold s x.1.1 x.1.2 (b + x.2)) _ s
theorem holdAll_holds (l : List (Nat × Nat)) {o : Option State} {s t : State} (ho : ∀ z, o = some z → HoldsOnly s z)
    (h : l.foldl (fun (t : Option State) v => t.bind fun t => holdSlots t v) o = some t) : HoldsOnly s t := by
  induction l generalizing o with
  | nil => exact ho t h
  | cons v l ih =>
    refine ih (fun z hz => ?_) h
    obtain ⟨y, hy, hv⟩ := Option.bind_eq_some_iff.1 hz
    exact (ho y hy).trans (holdSlots_holds hv)
theorem preempt_holds (s : State) (pri : Nat) (h : Header) : HoldsOnly s (preempt s pri h) := by
  unfold preempt
  extract_lets cores leaving stopping opts best
  clear_value best
  split
  · exact .refl _
  · split
    · exact .refl _
    · extract_lets new
      split
      · exact .refl _
      · next t ht => exact (holdAll_holds new (fun z hz => Option.some.inj hz ▸ .refl s) ht).trans (.setAgenda _ _)
theorem preemptFields_holds (s : State) : HoldsOnly s (preemptFields s) := by
  unfold preemptFields
  refine .foldl (fun s x => ?_) _ s
  split
  · exact .refl _
  · exact preempt_holds ..

/-! ### Admission without staged plots (R353) -/

theorem tmap_id {α : Type} {t : Tbl α} {f : Nat → α → α} (h : ∀ e ∈ t, f e.1 e.2 = e.2) : tmap t f = t :=
  (List.map_congr_left fun e he => by rw [h e he]; rfl).trans (List.map_id t)
/-- Where nothing is staged, staging nothing changes nothing. -/
theorem setStaged_nil {s : State} (hs : s.staged = []) (hc : ∀ e ∈ s.cores, e.2.stagedSlots = []) : setStaged s [] = s := by
  have h1 : tmap s.cores (fun ci c => { c with stagedSlots := (([] : List Staged).filter fun x => x.core == ci).flatMap fun x => tkeys x.plot.slots }) = s.cores :=
    tmap_id fun e he => by rw [List.filter_nil, List.flatMap_nil, ← hc e he]
  unfold setStaged
  rw [h1, ← hs]
theorem placeReady_unstaged {s : State} (hs : s.staged = []) (hc : ∀ e ∈ s.cores, e.2.stagedSlots = []) (run node n ci : Nat) (h : Header) :
    placeReady s run node n ci h = (placeNow s ci h, s) := by
  have hi : isStaged s run node n = false := by
    unfold isStaged
    rw [hs]
    rfl
  have hu : ∀ p, unstage s p = s := fun p => by
    unfold unstage
    simp only [hs, List.filter_nil, List.foldl_nil]
    exact setStaged_nil hs hc
  unfold placeReady giveWay
  simp only [hi, hs, List.filter_nil, List.map_nil, List.eraseDups_nil, setStaged_nil hs hc, hu]
  cases hp : placeNow s ci h with
  | none => simp
  | some l => simp
/-- What an admission does of a field that is first to be placed, where nothing is staged. -/
theorem plotAdmission_eq {s : State} {ci run node : Nat} {f : Field} (hw : (run, node) ∈ waitingFields s) (hn : node < 4096) (hs : s.staged = [])
    (hc : ∀ e ∈ s.cores, e.2.stagedSlots = [])
    (hfirst : firstToFit s { pri := queuePri s (getRun s run).queue, ready := f.readyAt, run := run, node := node, plot := f.next } = true)
    (hf : tget (getRun s run).fields node = some f) : exec (.plotAdmission ci (run * 4096 + node)) s = .next (match placeNow s ci f.hdr with
      | some l => preemptFields (admitPlot s (getRun s run) node f.next f l)
      | none => if fieldFits s run node then s else preempt s (queuePri s (getRun s run).queue) f.hdr) := by
  have he : exec (.plotAdmission ci (run * 4096 + node)) s = execPlotAdmission ci (run * 4096 + node) s := rfl
  have h1 : (run * 4096 + node) / 4096 = run := by omega
  have h2 : (run * 4096 + node) % 4096 = node := by omega
  have hfd : tgetD (getRun s run).fields node {} = f := by
    unfold tgetD
    rw [hf]
    rfl
  have hcon : (!(waitingFields s).contains (run, node) || !firstToFit s { pri := queuePri s (getRun s run).queue, ready := f.readyAt, run := run, node := node, plot := f.next }) = false := by
    rw [hfirst, List.contains_iff_mem.2 hw]
    rfl
  rw [he]
  unfold execPlotAdmission
  simp only [h1, h2, hfd, hcon, placeReady_unstaged hs hc]
  cases placeNow s ci f.hdr <;> rfl
end Sys2Proof.Machine

/-! ### Tines of placed sheaves are free and apart (R21) -/
namespace Sys2Proof.Machine
open Sys2Proof

theorem placeSheaf_take {free : Nat → List Nat} {z : Nat} {l : List Nat} (h : placeSheaf free z = some l) :
    ∃ k, l = (free k).take ((z + 3) / 4) ∧ (z + 3) / 4 ≤ (free k).length := by
  unfold placeSheaf at h
  dsimp only at h
  split at h
  · exact absurd h (by simp)
  · next hn => exact ⟨_, (Option.some.inj h).symm, Nat.le_of_not_lt hn⟩
/-- What placed sheaves satisfy: each one's tines are of the free ones, each once, and none has another's. -/
theorem placeSheaves_apart {avail : List Nat → Nat → List Nat} {ok : Nat → Prop} (hav : ∀ taken k, (avail taken k).Nodup ∧ ∀ j ∈ avail taken k, j ∉ taken ∧ ok j)
    {l : List (Nat × Nat)} {taken : List Nat} {r : List (Nat × List Nat × Nat)} (h : placeSheaves avail l taken = some r) :
    (∀ x ∈ r, x.2.1.Nodup ∧ ∀ j ∈ x.2.1, j ∉ taken ∧ ok j) ∧ r.Pairwise fun x y => ∀ j ∈ x.2.1, j ∉ y.2.1 := by
  induction l generalizing taken r with
  | nil =>
    obtain rfl := Option.some.inj h
    exact ⟨fun _ h => absurd h List.not_mem_nil, .nil⟩
  | cons a l ih =>
    obtain ⟨role, z⟩ := a
    unfold placeSheaves at h
    split at h
    · exact absurd h (by simp)
    · next t ht =>
      obtain ⟨rest, hrest, rfl⟩ := Option.map_eq_some_iff.1 h
      obtain ⟨k, hk, -⟩ := placeSheaf_take ht
      obtain ⟨i1, i2⟩ := ih hrest
      refine ⟨fun x hx => ?_, List.pairwise_cons.2 ⟨fun y hy j hj hj' => ?_, i2⟩⟩
      · rcases List.mem_cons.1 hx with rfl | hx
        · dsimp only
          rw [hk]
          exact ⟨(hav taken k).1.sublist (List.take_sublist ..), fun j hj => (hav taken k).2 j (List.mem_of_mem_take hj)⟩
        · obtain ⟨h1, h2⟩ := i1 x hx
          exact ⟨h1, fun j hj => ⟨fun hin => (h2 j hj).1 (List.mem_append_left _ hin), (h2 j hj).2⟩⟩
      · exact ((i1 y hy).2 j hj').1 (List.mem_append_right _ hj)
/-- A tine whose four thread slots are free. -/
def TineFree (c : Core) (j : Nat) : Prop := ∀ i, i < 4 → tget c.threads (j * 4 + i) = none
theorem openTines_free (c : Core) (held : List Plot) (taken : List Nat) (k : Nat) :
    (openTines c held taken k).Nodup ∧ ∀ j ∈ openTines c held taken k, j ∉ taken ∧ TineFree c j := by
  refine ⟨List.Nodup.filter _ (List.Nodup.map (fun a b h => by omega) List.nodup_range), fun j hj => ?_⟩
  obtain ⟨hn, ha⟩ := Bool.and_eq_true_iff.1 (List.mem_filter.1 hj).2
  refine ⟨by simpa using hn, fun i hi => ?_⟩
  exact Option.isNone_iff_eq_none.1 (Bool.and_eq_true_iff.1 (List.all_eq_true.1 ha i (List.mem_range.2 hi))).1
theorem tine_slots_nodup {l : List Nat} (h : l.Nodup) : (l.flatMap fun j => (List.range 4).map (j * 4 + ·)).Nodup := by
  refine List.nodup_flatMap.2 ⟨fun j _ => List.Nodup.map (fun a b h => by omega) List.nodup_range, h.imp fun {a b} hab => ?_⟩
  intro t ht ht'
  obtain ⟨i, hi, rfl⟩ := List.mem_map.1 ht
  obtain ⟨i', hi', he⟩ := List.mem_map.1 ht'
  have := List.mem_range.1 hi
  have := List.mem_range.1 hi'
  omega
theorem sheafTids_nodup {x : Nat × List Nat × Nat} (h : x.2.1.Nodup) : (sheafTids x).Nodup := (tine_slots_nodup h).sublist (List.take_sublist ..)
theorem mem_sheafTids {x : Nat × List Nat × Nat} {t : Nat} (h : t ∈ sheafTids x) : ∃ j ∈ x.2.1, ∃ i, i < 4 ∧ t = j * 4 + i := by
  obtain ⟨j, hj, ht⟩ := List.mem_flatMap.1 (List.mem_of_mem_take h)
  obtain ⟨i, hi, rfl⟩ := List.mem_map.1 ht
  exact ⟨j, hj, i, List.mem_range.1 hi, rfl⟩
theorem sheafTids_apart {x y : Nat × List Nat × Nat} (h : ∀ j ∈ x.2.1, j ∉ y.2.1) {t : Nat} (hx : t ∈ sheafTids x) : t ∉ sheafTids y := fun hy => by
  obtain ⟨j, hj, i, hi, rfl⟩ := mem_sheafTids hx
  obtain ⟨j', hj', i', hi', he⟩ := mem_sheafTids hy
  obtain rfl : j = j' := by omega
  exact h j hj hj'
/-- A placement on one core is one beside some held plots, of which each sheaf takes free tines. -/
theorem placeNow_place {s : State} {ci : Nat} {h : Header} {pl : Place} (hw : h.wide = false) (hp : placeNow s ci h = some [(ci, pl)]) :
    ∃ held, placeSheaves (openTines (getCore s ci) held) (sheavesWanted h) [] = some pl.sheaves := by
  have hc : partCores h ci = [ci] := by
    unfold partCores
    rw [hw]
    rfl
  unfold placeNow placeAt at hp
  rw [hc] at hp
  simp only [List.contains_nil, Bool.not_false, List.filter_true] at hp
  split at hp
  · exact absurd hp (by simp)
  · split at hp
    · rw [List.map_cons, List.map_nil] at hp
      generalize ((getCore s ci).plots.map (·.2) ++ (s.staged.filter fun x => x.core == ci).map (·.plot)) = held at hp
      generalize List.filter _ (freeBases [] h.scratch) = bases at hp
      refine ⟨held, ?_⟩
      cases hq : placeOn (getCore s ci) held h bases with
      | none => simp [hq] at hp
      | some q =>
        have he : q = pl := by simpa [hq] using hp
        subst he
        unfold placeOn at hq
        split at hq
        · next sh roles b _ h1 h2 =>
          split at hq
          · split at hq
            · rw [h1, ← Option.some.inj hq]
            · exact absurd hq (by simp)
          · exact absurd hq (by simp)
        · exact absurd hq (by simp)
    · exact absurd hp (by simp)
/-- What a placement on one core says of the sheaves. -/
theorem placeNow_sheaves {s : State} {ci : Nat} {h : Header} {pl : Place} (hw : h.wide = false) (hp : placeNow s ci h = some [(ci, pl)]) :
    (∀ x ∈ pl.sheaves, (sheafTids x).Nodup ∧ ∀ t ∈ sheafTids x, getThread s ci t = none) ∧ pl.sheaves.Pairwise fun x y => ∀ t ∈ sheafTids x, t ∉ sheafTids y := by
  obtain ⟨held, hs⟩ := placeNow_place hw hp
  obtain ⟨h1, h2⟩ := placeSheaves_apart (openTines_free (getCore s ci) held) hs
  refine ⟨fun x hx => ⟨sheafTids_nodup (h1 x hx).1, fun t ht => ?_⟩, h2.imp fun hab t => sheafTids_apart hab⟩
  obtain ⟨j, hj, i, hi, rfl⟩ := mem_sheafTids ht
  exact ((h1 x hx).2 j hj).2 i hi
end Sys2Proof.Machine

/-! ### The launch of a plot's sheaves (R21, R24, R25, R83) -/
namespace Sys2Proof.Machine
open Sys2Proof

/-- From s to s' the core gets threads of these slots alone. -/
structure Adds (ci : Nat) (l : List Nat) (s s' : State) : Prop where
  quiet : Quiet s s'
  mem : s'.mem = s.mem
  tiles : (getCore s' ci).tiles = (getCore s ci).tiles
  plots : (getCore s' ci).plots = (getCore s ci).plots
  old : ∀ t, t ∉ l → getThread s' ci t = getThread s ci t
theorem Adds.refl (ci : Nat) (s : State) : Adds ci [] s s := ⟨.refl s, rfl, rfl, rfl, fun _ _ => rfl⟩
/-- A thread as it stands after its launch as rank j of sheaf k. -/
def Entered (pi : Nat) (roles : List RoleInfo) (role k j : Nat) (th : Thread) : Prop :=
  th.st = .ready ∧ th.pc = (roleFrom roles role).entry ∧ th.regs = [] ∧ th.preds = 1 ∧ th.mode = 0 ∧ th.ast = 0 ∧ th.aen = 0 ∧ th.horizon = 0 ∧ th.plot = pi ∧
    th.role = role ∧ th.sheaf = some k ∧ th.rank = j
theorem tget_foldl_tput_not {α : Type} (f : Nat → α) (l : List Nat) (d : Tbl α) {t : Nat} (h : t ∉ l) : tget (l.foldl (fun d u => tput d u (f u)) d) t = tget d t := by
  induction l generalizing d with
  | nil => rfl
  | cons u l ih =>
    rw [List.mem_cons, not_or] at h
    exact (ih _ h.2).trans (tget_tput_ne _ _ _ _ h.1)
theorem tget_foldl_tput_mem {α : Type} (f : Nat → α) {l : List Nat} (d : Tbl α) {t : Nat} (h : t ∈ l) : tget (l.foldl (fun d u => tput d u (f u)) d) t = some (f t) := by
  induction l generalizing d with
  | nil => exact absurd h List.not_mem_nil
  | cons u l ih =>
    by_cases ht : t ∈ l
    · exact ih _ ht
    · obtain rfl := (List.mem_cons.1 h).resolve_right ht
      exact (tget_foldl_tput_not f l _ ht).trans (tget_tput_self ..)
theorem makeSheaf_keeps (s : State) (ci p r : Nat) (l : List Nat) : (getCore (makeSheaf s ci p r l) ci).tiles = (getCore s ci).tiles ∧
    (getCore (makeSheaf s ci p r l) ci).plots = (getCore s ci).plots ∧ Quiet s (makeSheaf s ci p r l) ∧ (makeSheaf s ci p r l).mem = s.mem := by
  cases l with
  | nil => exact ⟨rfl, rfl, .refl s, rfl⟩
  | cons t0 l =>
    unfold makeSheaf
    dsimp only
    rw [getCore_putCore_self]
    exact ⟨rfl, rfl, putCore_quiet .., rfl⟩
/-- One sheaf of a plot is launched. -/
theorem launchSheaf_adds (s : State) (ci pi : Nat) (roles : List RoleInfo) (x : Nat × List Nat × Nat) : Adds ci (sheafTids x) s (launchSheaf s ci pi roles x) ∧
    ((sheafTids x).Nodup → x.1 ≠ 4 → ∃ k, ∀ j u, (sheafTids x)[j]? = some u → ∃ th, getThread (launchSheaf s ci pi roles x) ci u = some th ∧ Entered pi roles x.1 k j th) := by
  unfold launchSheaf
  split
  · next h4 => exact ⟨⟨.refl s, rfl, rfl, rfl, fun _ _ => rfl⟩, fun _ hn => absurd h4 hn⟩
  · extract_lets c ts th
    have hput : getCore (putCore s ci { c with threads := ts.foldl (fun t tid => tput t tid { th with born := tid }) c.threads }) ci
        = { c with threads := ts.foldl (fun t tid => tput t tid { th with born := tid }) c.threads } := getCore_putCore_self ..
    obtain ⟨k1, k2, k3, k4⟩ := makeSheaf_keeps (putCore s ci { c with threads := ts.foldl (fun t tid => tput t tid { th with born := tid }) c.threads }) ci pi x.1 ts
    by_cases hl : ts = []
    · refine ⟨⟨(putCore_quiet ..).trans k3, k4, by rw [k1, hput], by rw [k2, hput], fun t _ => ?_⟩, fun _ _ => ⟨0, fun j u hu => ?_⟩⟩
      · rw [hl]
        exact congrArg (fun c : Core => tget c.threads t) (getCore_putCore_self ..)
      · rw [show sheafTids x = [] from hl] at hu
        exact absurd hu (by simp)
    · obtain ⟨k, tag, hth, -⟩ := makeSheaf_thread (putCore s ci { c with threads := ts.foldl (fun t tid => tput t tid { th with born := tid }) c.threads }) ci pi x.1 hl
      refine ⟨⟨(putCore_quiet ..).trans k3, k4, by rw [k1, hput], by rw [k2, hput], fun t ht => ?_⟩, fun hn _ => ⟨k, fun j u hu => ?_⟩⟩
      · rw [hth, getThread, hput]
        dsimp only
        rw [tget_foldl_tput_not _ _ _ ht]
        have hj : ∀ a, joined ts k tag t a = a := fun a => if_neg ht
        rw [show joined ts k tag t = id from funext hj, Option.map_id]
        rfl
      · have hmem : u ∈ ts := List.mem_of_getElem? hu
        refine ⟨joined ts k tag u { th with born := u }, ?_, ?_⟩
        · rw [hth, getThread, hput]
          dsimp only
          rw [tget_foldl_tput_mem _ _ hmem]
          rfl
        · have hidx : ts.idxOf u = j := by
            obtain ⟨hlt, he⟩ := List.getElem?_eq_some_iff.1 hu
            rw [← he]
            exact List.Nodup.idxOf_getElem hn j hlt
          unfold joined
          rw [if_pos hmem, hidx]
          exact ⟨rfl, rfl, rfl, rfl, rfl, rfl, rfl, rfl, rfl, rfl, rfl, rfl⟩
/-- All sheaves of a plot, of threads apart. -/
theorem launchSheaves_add {ci pi : Nat} {roles : List RoleInfo} {l : List (Nat × List Nat × Nat)} (hn : ∀ x ∈ l, (sheafTids x).Nodup)
    (hp : l.Pairwise fun x y => ∀ t ∈ sheafTids x, t ∉ sheafTids y) (s : State) :
    Adds ci (l.flatMap sheafTids) s (l.foldl (fun s x => launchSheaf s ci pi roles x) s) ∧ ∀ x ∈ l, x.1 ≠ 4 → ∃ k, ∀ j u, (sheafTids x)[j]? = some u →
      ∃ th, getThread (l.foldl (fun s x => launchSheaf s ci pi roles x) s) ci u = some th ∧ Entered pi roles x.1 k j th := by
  induction l generalizing s with
  | nil => exact ⟨.refl ci s, fun _ h => absurd h List.not_mem_nil⟩
  | cons y l ih =>
    obtain ⟨hy, hp⟩ := List.pairwise_cons.1 hp
    obtain ⟨a1, a2⟩ := launchSheaf_adds s ci pi roles y
    obtain ⟨i1, i2⟩ := ih (fun x hx => hn x (List.mem_cons_of_mem _ hx)) hp (launchSheaf s ci pi roles y)
    rw [List.foldl_cons]
    refine ⟨⟨a1.quiet.trans i1.quiet, i1.mem.trans a1.mem, i1.tiles.trans a1.tiles, i1.plots.trans a1.plots, fun t ht => ?_⟩, fun x hx h4 => ?_⟩
    · rw [List.flatMap_cons, List.mem_append, not_or] at ht
      exact (i1.old t ht.2).trans (a1.old t ht.1)
    · rcases List.mem_cons.1 hx with rfl | hx
      · obtain ⟨k, hk⟩ := a2 (hn x List.mem_cons_self) h4
        refine ⟨k, fun j u hu => ?_⟩
        obtain ⟨th, hth, he⟩ := hk j u hu
        refine ⟨th, ?_, he⟩
        rw [i1.old u fun hin => ?_]
        · exact hth
        · obtain ⟨z, hz, huz⟩ := List.mem_flatMap.1 hin
          exact hy z hz u (List.mem_of_getElem? hu) huz
      · exact i2 x hx h4
end Sys2Proof.Machine

/-! ### Admission (R24, R25, R62, R122, R138, R345) -/
namespace Sys2Proof.Machine
open Sys2Proof

/-- Channels that are set to 0 stand at 0, and nothing but channels changes. -/
theorem resetChannels (cl : Nat) (l : List Nat) (s : State) :
    (∀ ch ∈ l, (getChannel (l.foldl (fun s ch => updChannel s cl ch fun k => { k with wptr := 0 }) s) cl ch).wptr = 0) ∧
    (∀ ch, (getChannel s cl ch).wptr = 0 → (getChannel (l.foldl (fun s ch => updChannel s cl ch fun k => { k with wptr := 0 }) s) cl ch).wptr = 0) ∧
    ∃ t, l.foldl (fun s ch => updChannel s cl ch fun k => { k with wptr := 0 }) s = { s with clusters := t } := by
  have one : ∀ s ch, (getChannel (updChannel s cl ch fun k => { k with wptr := 0 }) cl ch).wptr = 0 := fun s ch => by
    unfold getChannel updChannel updCluster getCluster
    dsimp only
    simp [tgetD, tget_tput_self]
  have keep : ∀ s ch ch', (getChannel s cl ch').wptr = 0 → (getChannel (updChannel s cl ch fun k => { k with wptr := 0 }) cl ch').wptr = 0 := fun s ch ch' h => by
    by_cases he : ch' = ch
    · rw [he]
      exact one s ch
    · unfold getChannel updChannel updCluster getCluster at *
      dsimp only at *
      simpa [tgetD, tget_tput_self, tget_tput_ne _ _ _ _ he] using h
  induction l generalizing s with
  | nil => exact ⟨fun _ h => absurd h List.not_mem_nil, fun _ h => h, s.clusters, rfl⟩
  | cons c l ih =>
    obtain ⟨i1, i2, t, i3⟩ := ih (updChannel s cl c fun k => { k with wptr := 0 })
    refine ⟨fun ch hch => ?_, fun ch h => i2 ch (keep s c ch h), t, i3⟩
    rcases List.mem_cons.1 hch with rfl | hch
    · exact i2 ch (one s ch)
    · exact i1 ch hch
/-- A part is admitted on its core. -/
theorem admitPart_admits {s : State} {ci : Nat} {p : Plot} {pl : Place} (hk : Kept 0 s) (hn : ∀ x ∈ pl.sheaves, (sheafTids x).Nodup)
    (hp : pl.sheaves.Pairwise fun x y => ∀ t ∈ sheafTids x, t ∉ sheafTids y) :
    (admitPart s ci p pl).mem = s.mem ∧ (admitPart s ci p pl).runs = s.runs ∧ (getCore (admitPart s ci p pl) ci).plots = tput (getCore s ci).plots pl.idx p ∧
    memRead (getCluster (admitPart s ci p pl) (clusterOf ci)).scratch (slicePos (ci % 16) p.scrBase) p.hdr.params.length = p.hdr.params ∧
    (∀ r ∈ p.roles, ∀ k ∈ r.tileMap, tileAt (getCore (admitPart s ci p pl) ci) k = 0) ∧
    (∀ ch, ch < 16 → p.hdr.copych.testBit ch = true → (getChannel (admitPart s ci p pl) (clusterOf ci) ch).wptr = 0) ∧
    (∀ t, t ∉ pl.sheaves.flatMap sheafTids → getThread (admitPart s ci p pl) ci t = getThread s ci t) ∧
    ∀ x ∈ pl.sheaves, x.1 ≠ 4 → ∃ k, ∀ j u, (sheafTids x)[j]? = some u → ∃ th, getThread (admitPart s ci p pl) ci u = some th ∧ Entered pl.idx p.roles x.1 k j th := by
  unfold admitPart
  extract_lets c tiles s1 s2 s3
  have k1 : Kept 0 s1 := hk.putCore (by exact { (hk.get ci).putPlot with }) ci
  have k2 : Kept 0 s2 := .foldl (fun _ _ hs => hs.updChannel) _ k1
  obtain ⟨ch1, -, t, ht⟩ := resetChannels (clusterOf ci) ((List.range 16).filter fun ch => p.hdr.copych.testBit ch) s1
  have hc1 : getCore s1 ci = { c with plots := tput c.plots pl.idx p, tiles := c.tiles.filter fun e => !tiles.contains e.1 } := getCore_putCore_self ..
  have hc3 : getCore s3 ci = getCore s1 ci := by
    have : getCore s2 ci = getCore s1 ci := by
      rw [show s2 = { s1 with clusters := t } from ht]
      rfl
    exact this
  obtain ⟨a, hsh⟩ := launchSheaves_add hn hp (ci := ci) (pi := pl.idx) (roles := p.roles) s3
  have he := emitR_same (pl.sheaves.foldl (fun s x => launchSheaf s ci pl.idx p.roles x) s3) (unitCore ci none) 0x0201 p.cid p.plotNo 0
  have hq := emitR_quiet (pl.sheaves.foldl (fun s x => launchSheaf s ci pl.idx p.roles x) s3) (unitCore ci none) 0x0201 p.cid p.plotNo 0
  have hm := emitR_mem (pl.sheaves.foldl (fun s x => launchSheaf s ci pl.idx p.roles x) s3) (unitCore ci none) 0x0201 p.cid p.plotNo 0
  have hcl := (a.quiet.trans hq).clusters
  have hrun := (a.quiet.trans hq).runs
  have hmem := hm.trans a.mem
  have htiles := (congrArg Core.tiles (he.getCore ci)).trans (a.tiles.trans (congrArg Core.tiles (hc3.trans hc1)))
  have hplots := (congrArg Core.plots (he.getCore ci)).trans (a.plots.trans (congrArg Core.plots (hc3.trans hc1)))
  have hthr : ∀ u, getThread (emitR (pl.sheaves.foldl (fun s x => launchSheaf s ci pl.idx p.roles x) s3) (unitCore ci none) 0x0201 p.cid p.plotNo 0) ci u
      = getThread (pl.sheaves.foldl (fun s x => launchSheaf s ci pl.idx p.roles x) s3) ci u := fun u => congrArg (fun c : Core => tget c.threads u) (he.getCore ci)
  have hold : ∀ u, u ∉ pl.sheaves.flatMap sheafTids →
      getThread (pl.sheaves.foldl (fun s x => launchSheaf s ci pl.idx p.roles x) s3) ci u = getThread s ci u := fun u hu =>
    (a.old u hu).trans (congrArg (fun c : Core => tget c.threads u) (hc3.trans hc1) :)
  have h2m : s2.mem = s.mem := by
    rw [show s2 = { s1 with clusters := t } from ht]
    rfl
  have h2r : s2.runs = s.runs := by
    rw [show s2 = { s1 with clusters := t } from ht]
    rfl
  generalize emitR (pl.sheaves.foldl (fun s x => launchSheaf s ci pl.idx p.roles x) s3) (unitCore ci none) 0x0201 p.cid p.plotNo 0 = z at *
  have hg : getCluster z (clusterOf ci) = { getCluster s2 (clusterOf ci) with
      scratch := memWrite (getCluster s2 (clusterOf ci)).scratch (slicePos (ci % 16) p.scrBase) p.hdr.params } := by
    rw [getCluster, hcl]
    exact congrArg (fun o : Option Cluster => o.getD {}) (tget_tput_self ..)
  refine ⟨hmem.trans h2m, hrun.trans h2r, hplots, ?_, fun r hr k hkk => ?_, fun ch hlt hb => ?_, fun u hu => (hthr u).trans (hold u hu), fun x hx h4 => ?_⟩
  · rw [hg]
    exact memRead_memWrite _ _ _ (k2.cluster _)
  · have hin : tiles.contains k = true := List.contains_iff_mem.2 (List.mem_flatMap.2 ⟨r, hr, hkk⟩)
    have hnone : tget (c.tiles.filter fun e => !tiles.contains e.1) k = none := tget_none_of_not_mem fun hmem => by
      obtain ⟨e, he, rfl⟩ := List.mem_map.1 hmem
      have := (List.mem_filter.1 he).2
      rw [hin] at this
      exact absurd this (by simp)
    rw [tileAt, htiles, tgetD, hnone]
    rfl
  · rw [getChannel, hg]
    exact ch1 ch (List.mem_filter.2 ⟨List.mem_range.2 hlt, hb⟩)
  · obtain ⟨k, hk⟩ := hsh x hx h4
    exact ⟨k, fun j u hu => by rw [hthr]; exact hk j u hu⟩
end Sys2Proof.Machine

/-! ### Plots come and go: the obligation (R25, R248) -/
namespace Sys2Proof.Machine
open Sys2Proof

theorem getRun_of {s : State} {no : Nat} (h : tget s.runs no ≠ none) : tget s.runs no = some (getRun s no) := by
  unfold getRun tgetD
  cases hr : tget s.runs no with
  | none => exact absurd hr h
  | some r => rfl
/-- A plot of one core is admitted. -/
theorem admitPlot_narrow {s : State} {r : Run} {node n ci : Nat} {f : Field} {pl : Place} (hf : f.hdr.fuse = false) : ∃ s1, SameCores s s1 ∧ Quiet s s1 ∧ s1.mem = s.mem ∧
    (Kept 0 s → Kept 0 s1) ∧ admitPlot s r node n f [(ci, pl)] = updRun (admitPart s1 ci (plotFrom s1 r node n f ci pl) pl) r.no
      (fun r => { r with fields := tupd r.fields node fun f => { f with next := n + 1 } }) := by
  unfold admitPlot
  simp only [hf, Bool.false_and, Bool.false_eq_true, if_false, List.foldl_cons, List.foldl_nil]
  split
  · exact ⟨_, emitR_same .., emitR_quiet .., emitR_mem .., fun h => h.emitR, rfl⟩
  · exact ⟨s, .refl s, .refl s, rfl, id, rfl⟩
theorem HoldsOnly.runs {s s' : State} (h : HoldsOnly s s') : s'.runs = s.runs := (congrArg State.runs h.rest :)
theorem HoldsOnly.clusters {s s' : State} (h : HoldsOnly s s') : s'.clusters = s.clusters := (congrArg State.clusters h.rest :)
theorem HoldsOnly.thread {s s' : State} (h : HoldsOnly s s') (ci t : Nat) : getThread s' ci t = getThread s ci t := by
  obtain ⟨P, hP, -⟩ := h.core ci
  rw [getThread, hP]
  rfl
/-- R21, R24, R25: the next plot of a field, placed on one core. -/
theorem admit_admits {s : State} {ci run node : Nat} {f : Field} {pl : Place} (hk : WellKept s) (hrun : tget s.runs run ≠ none) (hno : (getRun s run).no = run)
    (hf : tget (getRun s run).fields node = some f) (hw : f.hdr.wide = false) (hfu : f.hdr.fuse = false) (hp : placeNow s ci f.hdr = some [(ci, pl)]) :
    ∃ s' p, preemptFields (admitPlot s (getRun s run) node f.next f [(ci, pl)]) = s' ∧ s'.mem = s.mem ∧ tget (getCore s' ci).plots pl.idx = some p ∧
      p.hdr = f.hdr ∧ p.run = run ∧ p.node = node ∧ p.plotNo = f.next ∧ p.queue = (getRun s run).queue ∧ p.ctx = (getRun s run).ctx ∧ p.scrBase = pl.scrBase ∧
      p.frozen = none ∧ p.stop = none ∧ (∀ k q, k ≠ pl.idx → tget (getCore s ci).plots k = some q → ∃ v, tget (getCore s' ci).plots k = some { q with saveAt := v }) ∧
      (tget (getRun s' run).fields node).map (·.next) = some (f.next + 1) ∧
      memRead (getCluster s' (clusterOf ci)).scratch (slicePos (ci % 16) pl.scrBase) f.hdr.params.length = f.hdr.params ∧
      (∀ r ∈ pl.roles, ∀ k ∈ r.tileMap, tileAt (getCore s' ci) k = 0) ∧
      (∀ ch, ch < 16 → f.hdr.copych.testBit ch = true → (getChannel s' (clusterOf ci) ch).wptr = 0) ∧
      (∀ x ∈ pl.sheaves, x.1 ≠ 4 → ∃ k, ∀ j u, (sheafTids x)[j]? = some u → ∃ th, getThread s' ci u = some th ∧ Entered pl.idx pl.roles x.1 k j th) ∧
      (∀ t th, getThread s ci t = some th → getThread s' ci t = some th) := by
  obtain ⟨s1, hc1, hq1, hm1, hkk, he⟩ := admitPlot_narrow (s := s) (r := getRun s run) (node := node) (n := f.next) (ci := ci) (pl := pl) hfu
  obtain ⟨hn, hpw⟩ := placeNow_sheaves hw hp
  obtain ⟨m2, r2, hplots, hscr, htile, hchan, hold, hsh⟩ := admitPart_admits (ci := ci) (p := plotFrom s1 (getRun s run) node f.next f ci pl)
    (hkk ((kept_iff s).2 hk)) (fun x hx => (hn x hx).1) hpw
  rw [hno] at he
  have hpre := preemptFields_holds (admitPlot s (getRun s run) node f.next f [(ci, pl)])
  obtain ⟨P, hP, hPp⟩ := hpre.core ci
  have hthr := hpre.thread ci
  have hruns := hpre.runs
  have hclus := hpre.clusters
  have hmem := hpre.mem
  generalize preemptFields (admitPlot s (getRun s run) node f.next f [(ci, pl)]) = s' at *
  rw [he] at hP hPp hthr hruns hclus hmem
  generalize admitPart s1 ci (plotFrom s1 (getRun s run) node f.next f ci pl) pl = z at *
  have hz : ∀ g, getCore (updRun z run g) ci = getCore z ci := fun _ => rfl
  have hzt : ∀ g t, getThread (updRun z run g) ci t = getThread z ci t := fun _ _ => rfl
  rw [hz] at hP hPp
  have hcl : ∀ k, getCluster s' k = getCluster z k := fun k => by rw [getCluster, hclus]; rfl
  have hplot : ∀ k q, tget (getCore z ci).plots k = some q → ∃ v, tget (getCore s' ci).plots k = some { q with saveAt := v } := fun k q hq => by
    rw [hP]
    exact hPp k q hq
  obtain ⟨v, hv⟩ := hplot pl.idx _ (by rw [hplots]; exact tget_tput_self ..)
  refine ⟨s', _, rfl, hmem.trans (m2.trans hm1), hv, rfl, hno, rfl, rfl, rfl, rfl, rfl, rfl, rfl, fun k q hne hq => ?_, ?_, ?_, fun r hr k hkt => ?_, fun ch hlt hb => ?_,
    fun x hx h4 => ?_, fun t th ht => ?_⟩
  · refine hplot k q ?_
    rw [hplots, tget_tput_ne _ _ _ _ hne, hc1.getCore]
    exact hq
  · have hr : tget s'.runs run = some { getRun s run with fields := tupd (getRun s run).fields node fun g => { g with next := f.next + 1 } } := by
      rw [hruns]
      unfold updRun
      rw [tget_tupd_self, r2, hq1.runs, getRun_of hrun]
      rfl
    rw [getRun, tgetD, hr, Option.getD_some, tget_tupd_self, hf]
    rfl
  · rw [hcl]
    exact hscr
  · refine Eq.trans ?_ (htile r hr k hkt)
    rw [tileAt, hP]
    rfl
  · rw [getChannel, hcl]
    exact hchan ch hlt hb
  · obtain ⟨k, hk⟩ := hsh x hx h4
    exact ⟨k, fun j u hu => by rw [hthr, hzt]; exact hk j u hu⟩
  · rw [hthr, hzt, hold t fun hin => ?_]
    · rw [getThread, hc1.getCore]
      exact ht
    · obtain ⟨x, hx, htx⟩ := List.mem_flatMap.1 hin
      rw [(hn x hx).2 t htx] at ht
      exact absurd ht (by simp)
end Sys2Proof.Machine
section
open Sys2Proof Sys2Proof.Machine

/-- Settles O49: placement gives free tines apart, the launch enters them, and what retires is released. -/
theorem plotsComeAndGo : Obligations.PlotsComeAndGo := by
  unfold Obligations.PlotsComeAndGo
  refine ⟨fun s ci run node f hk hw hn hs hc hfirst hrun hno hf hwide hfu => ⟨fun pl hp => ?_, fun hp => ?_⟩, fun s ci pi p hk _ hp hw => ⟨?_, plotRetire_stands hp hw⟩⟩
  · obtain ⟨s', p, he, h⟩ := admit_admits hk hrun hno hf hwide hfu hp
    refine ⟨s', p, ?_, h⟩
    rw [plotAdmission_eq hw hn hs hc hfirst hf, hp]
    exact he ▸ rfl
  · have hh : HoldsOnly s (if fieldFits s run node then s else preempt s (queuePri s (getRun s run).queue) f.hdr) := by
      split
      · exact .refl s
      · exact preempt_holds ..
    refine ⟨_, by rw [plotAdmission_eq hw hn hs hc hfirst hf, hp], hh.mem, hh.rest, fun cj => ?_⟩
    obtain ⟨P, hP, hPp⟩ := hh.core cj
    rw [hP]
    exact ⟨rfl, hPp⟩
  · exact fun hf ht hq _ hu hfw => plotRetire_retires hk hp hw hf ht hq hu hfw
end

/-! ### Arrivals at a rendezvous (R23, R253) -/
namespace Sys2Proof.Machine
open Sys2Proof

theorem collective_arrives {i : Instr} {k : Nat} {lat : Lat} {part : List (Nat × Thread) → Part} {s : State} (hc : s.cur.coll = false) :
    collective i k lat part s = arriveColl i k s := by
  unfold collective
  rw [hc]
  rfl
/-- A collective's drill before its rendezvous is complete only arrives. -/
theorem exec_arrives {i : Instr} {kind : Nat} {s : State} (hi : collKind i = some kind) (hc : s.cur.coll = false) : exec i s = .next (arriveColl i kind s) := by
  unfold collKind at hi
  split at hi
  case h_1 o =>
    obtain rfl := Option.some.inj hi
    exact congrArg Host.Outcome.next (if_neg (by simp [hc]))
  case h_14 p px w x =>
    split at hi
    · next h0 =>
      obtain rfl := Option.some.inj hi
      have h7 : collKind (.mma p px w x) = some 7 := if_pos h0
      have he : exec (.mma p px w x) s = execMma p px w x s := rfl
      rw [he]
      unfold execMma
      dsimp only
      rw [if_pos h7, hc]
      rfl
    · exact absurd hi (by simp)
  case h_15 w x =>
    obtain rfl := Option.some.inj hi
    exact congrArg Host.Outcome.next (if_neg (by simp [hc]))
  case h_16 => exact absurd hi (by simp)
  all_goals
    obtain rfl := Option.some.inj hi
    exact congrArg Host.Outcome.next (collective_arrives hc)
/-- What an arrival does to a thread. -/
def arrived (i : Instr) (kind : Nat) (c : Core) (th : Thread) : Thread :=
  { th with st := .waiting .rendezvous, regrouping := decide (kind = 1), held := (reads i).map (·.reg), readySince := c.cyc, overdue := none }
/-- What an arriving thread is checked for. -/
def arrivalFault (i : Instr) (s : State) (c : Core) (th : Thread) : Option FaultRec :=
  match i with
  | .regroup o => match emptyTrap th (reads i) with
    | some r => some (regFault 1 r)
    | none => regroupCheck s.cur.core c th o.d.toNat (lastRegs i)
  | _ => if actOn i th then preFault i s [] th else offFault i c false th
theorem arriveOne_eq {i : Instr} {kind : Nat} {s : State} {t : Nat} {th : Thread} (h : getThread s s.cur.core t = some th) : arriveOne i kind s t =
    match mismatch (getCore s s.cur.core) t th s.cur.pc kind with
    | some p => (s, some (sheafFault 1 (threadHandle s.cur.core (getCore s s.cur.core) th) p))
    | none => match arrivalFault i s (getCore s s.cur.core) th with
      | some f => (s, some f)
      | none => (putCore s s.cur.core (match th.sheaf with
        | none => updThreadC (getCore s s.cur.core) t (arrived i kind (getCore s s.cur.core))
        | some k => { updThreadC (getCore s s.cur.core) t (arrived i kind (getCore s s.cur.core)) with
            sheaves := tupd (getCore s s.cur.core).sheaves k fun sh => { sh with rdv := some (s.cur.pc, kind, ((sh.rdv.map (·.2.2)).getD []) ++ [t]) } }), none) := by
  unfold arriveOne
  rw [getThread] at h
  simp only [h]
  rfl
/-! What does not look at the values that a thread has seen. -/

theorem peakReg_seen (c : Core) (th : Thread) (q : Tbl Word) (last dst : List Nat) : peakReg c { th with seen := q } last dst = peakReg c th last dst := by
  have key : ∀ (dst : List Nat) (a b : Thread × Option Nat), a.2 = b.2 → a.1 = { b.1 with seen := q } →
      (dst.foldl (fun (a : Thread × Option Nat) r => if a.2.isSome then a else if (tget a.1.regs r).isSome then a
        else if mapped a.1 ≥ peakOf c { th with seen := q } then (a.1, some r) else ({ a.1 with regs := tput a.1.regs r {} }, none)) a).2
      = (dst.foldl (fun (a : Thread × Option Nat) r => if a.2.isSome then a else if (tget a.1.regs r).isSome then a
        else if mapped a.1 ≥ peakOf c th then (a.1, some r) else ({ a.1 with regs := tput a.1.regs r {} }, none)) b).2 := by
    intro dst
    induction dst with
    | nil => exact fun a b h _ => h
    | cons r dst ih =>
      intro a b h1 h2
      rw [List.foldl_cons, List.foldl_cons]
      obtain ⟨x, o⟩ := a
      obtain ⟨y, p⟩ := b
      dsimp only at h1 h2
      subst h1 h2
      have hpk : peakOf c { th with seen := q } = peakOf c th := rfl
      have hmp : mapped { y with seen := q } = mapped y := rfl
      dsimp only
      rw [hpk, hmp]
      split
      · exact ih _ _ rfl rfl
      · split
        · exact ih _ _ rfl rfl
        · split <;> exact ih _ _ rfl rfl
  exact key dst _ _ rfl rfl
section
variable (i : Instr) (s : State) (c : Core) (th : Thread) (q : Tbl Word)
theorem ownFault_seen : ownFault i c { th with seen := q } = ownFault i c th := by
  unfold ownFault
  rw [peakReg_seen]
  rfl
theorem preFault_seen : preFault i s [] { th with seen := q } = preFault i s [] th := by
  unfold preFault
  dsimp only
  rw [ownFault_seen]
theorem offFault_seen (z : Bool) : offFault i c z { th with seen := q } = offFault i c z th := by
  unfold offFault
  rw [peakReg_seen]
  rfl
theorem regroupCheck_seen (ci d : Nat) (last : List Nat) : regroupCheck ci c { th with seen := q } d last = regroupCheck ci c th d last := by
  unfold regroupCheck
  rw [peakReg_seen]
  rfl
theorem actOn_seen : actOn i { th with seen := q } = actOn i th := by
  unfold actOn
  split <;> rfl
theorem arrivalFault_seen : arrivalFault i s c { th with seen := q } = arrivalFault i s c th := by
  unfold arrivalFault
  split
  · rw [regroupCheck_seen]
    rfl
  · rw [preFault_seen, offFault_seen, actOn_seen]
end
theorem undefReads_nil {s : State} {t : Nat} {th : Thread} (h : th.joinRegs = []) : undefReads s t th = { th with seen := [] } := by
  unfold undefReads
  rw [h]
  rfl

section
variable {i : Instr} {kind : Nat} {s : State} {t : Nat} {th : Thread}

/-- A drill of one thread arrives by that thread alone. -/
theorem arriveColl_one (hd : drillThreads i s = [(t, th)]) :
    arriveColl i kind s = takeFaults (arriveOne i kind s t).1 s.cur.core (match (arriveOne i kind s t).2 with
      | some f => [(t, f)]
      | none => []) := by
  unfold arriveColl
  rw [hd]
  rfl
/-- The thread of such a drill stands in the core as it takes part, but for values seen. -/
theorem arriving_thread (hd : drillThreads i s = [(t, th)]) (hj : th.joinRegs = []) : ∃ th0, getThread s s.cur.core t = some th0 ∧ th = { th0 with seen := [] } := by
  obtain ⟨th0, h0, -, -, hu⟩ := mem_drillThreads (i := i) (s := s) (t := t) (th := th) (by rw [hd]; exact List.mem_singleton.2 rfl)
  obtain ⟨r, q, he⟩ := undefReads_eq s t th0
  have hj0 : th0.joinRegs = [] := by
    rw [hu, he] at hj
    exact hj
  exact ⟨th0, h0, hu.trans (undefReads_nil hj0)⟩
/-- A thread that fails no check waits at the rendezvous, and its sheaf counts it. -/
theorem arrival_waits (hi : collKind i = some kind) (hc : s.cur.coll = false) (hd : drillThreads i s = [(t, th)]) (hj : th.joinRegs = [])
    (hm : mismatch (getCore s s.cur.core) t th s.cur.pc kind = none) (hf : arrivalFault i s (getCore s s.cur.core) th = none) :
    ∃ s' new, exec i s = .next s' ∧ getThread s' s.cur.core t = some new ∧ new.st = .waiting .rendezvous ∧ new.pc = th.pc ∧ new.regs = th.regs ∧
      new.preds = th.preds ∧ s'.mem = s.mem ∧
      ∀ k sh, th.sheaf = some k → tget (getCore s s.cur.core).sheaves k = some sh → ∃ sh' r, tget (getCore s' s.cur.core).sheaves k = some sh' ∧
        sh'.rdv = some (s.cur.pc, kind, r) ∧ t ∈ r := by
  obtain ⟨th0, h0, rfl⟩ := arriving_thread hd hj
  rw [arrivalFault_seen] at hf
  have hm0 : mismatch (getCore s s.cur.core) t th0 s.cur.pc kind = none := hm
  have hone := arriveOne_eq (i := i) (kind := kind) h0
  simp only [hm0, hf] at hone
  have hth : ∀ c, c.threads = (updThreadC (getCore s s.cur.core) t (arrived i kind (getCore s s.cur.core))).threads →
      getThread (putCore s s.cur.core c) s.cur.core t = some (arrived i kind (getCore s s.cur.core) th0) := fun c hc => by
    rw [getThread, getCore_putCore_self, hc, updThreadC, tget_tupd_self, show tget (getCore s s.cur.core).threads t = some th0 from h0]
    rfl
  refine ⟨_, arrived i kind (getCore s s.cur.core) th0, exec_arrives hi hc, ?_⟩
  rw [arriveColl_one hd, hone]
  dsimp only
  rw [takeFaults_nil]
  refine ⟨hth _ (by split <;> rfl), rfl, rfl, rfl, rfl, rfl, fun k sh hk hsh => ?_⟩
  have hk0 : th0.sheaf = some k := hk
  refine ⟨{ sh with rdv := some (s.cur.pc, kind, ((sh.rdv.map (·.2.2)).getD []) ++ [t]) }, _, ?_, rfl, List.mem_append_right _ (List.mem_singleton.2 rfl)⟩
  rw [getCore_putCore_self, hk0]
  dsimp only
  rw [tget_tupd_self, hsh]
  rfl
theorem ParkedAll.parksWith {s s' : State} {e : Nat} {l : List (Nat × FaultRec)} (h : ParkedAll s s' s.cur.core e l) {x : Nat × FaultRec} (hx : x ∈ l) {w : Thread}
    (hw : getThread s s.cur.core x.1 = some w) : ParksWith x.2 s s' x.1 := by
  obtain ⟨new, hnew, hpd⟩ := h.thread x hx w hw
  obtain ⟨g, hg, hmem, hgr, hdet⟩ := h.frag
  exact ⟨w, new, e, g, hw, hnew, hpd.st, hpd.of Thread.pc fun _ _ _ _ _ _ => rfl, fun r => hpd.of (fun x => (tget x.regs r).map (·.val)) fun _ _ _ _ _ _ => rfl,
    hpd.of Thread.preds fun _ _ _ _ _ _ => rfl, hg, by rw [hmem]; exact List.mem_map.2 ⟨x, hx, rfl⟩, hdet x hx, hgr x hx⟩
/-- A thread that arrives where members wait at another collective takes a sheaf fault. -/
theorem arrival_mismatch (hi : collKind i = some kind) (hc : s.cur.coll = false) (hd : drillThreads i s = [(t, th)]) (hj : th.joinRegs = []) {p : DWord}
    (hm : mismatch (getCore s s.cur.core) t th s.cur.pc kind = some p) (hf : (getCore s s.cur.core).frags = []) (hs : th.stepping = none) :
    ∃ s', exec i s = .next s' ∧ ParksWith (sheafFault 1 (threadHandle s.cur.core (getCore s s.cur.core) th) p) s s' t := by
  obtain ⟨th0, h0, rfl⟩ := arriving_thread hd hj
  have hm0 : mismatch (getCore s s.cur.core) t th0 s.cur.pc kind = some p := hm
  have hone := arriveOne_eq (i := i) (kind := kind) h0
  simp only [hm0] at hone
  have hpk := (takeFaults_parks (s := s) (ci := s.cur.core) (e := 0) (l := [(t, sheafFault 1 (threadHandle s.cur.core (getCore s s.cur.core) th0) p)])
    (List.cons_ne_nil _ _) (List.nodup_singleton _) (by rw [hf]; exact lowestFree_nil) (fun x hx => by rw [List.mem_singleton.1 hx]) rfl
    (fun x hx w hw => by
      rw [List.mem_singleton.1 hx] at hw
      rw [← Option.some.inj (h0.symm.trans hw)]
      exact hs)).1
  refine ⟨_, exec_arrives hi hc, ?_⟩
  rw [arriveColl_one hd, hone]
  dsimp only
  exact hpk.parksWith (List.mem_singleton.2 rfl) h0
end
end Sys2Proof.Machine

/-! ### Drills whose parts leave the state (R253, R258) -/
namespace Sys2Proof.Machine
open Sys2Proof

theorem activeFx_sourceThread {i : Instr} {f : Thread → Fx} {s : State} {th : Thread} : activeFx i f s th = f (sourceThread i s th) := by
  unfold activeFx sourceThread
  split
  · cases (activeThreads i s).find? fun e => (preFault i s (activeThreads i s) e.2).isNone <;> rfl
  · rfl
/-- A part that leaves the state as it was is carried out as one that reads the threads alone. -/
theorem runParts_local {i : Instr} {g : State → Thread → Fx} {act l : List (Nat × Thread)} {s : State} :
    runParts i (fun s _ th => (s, g s th)) act l s = runParts i (pureFx (g s)) act l s := by
  induction l with
  | nil => rfl
  | cons e l ih =>
    obtain ⟨t, th⟩ := e
    unfold runParts
    cases preFault i s act th with
    | some f => exact congrArg (fun r : State × List (Nat × Fx) => (r.1, (t, ({ fault := some f } : Fx)) :: r.2)) ih
    | none => exact congrArg (fun r : State × List (Nat × Fx) => (r.1, (t, g s th) :: r.2)) ih
theorem drillParts_local {i : Instr} {g : State → Thread → Fx} {act : List (Nat × Thread)} {s : State} :
    drillParts i (fun s _ th => (s, g s th)) act s = drillParts i (pureFx (g s)) act s := by
  unfold drillParts
  rw [runParts_local]
  rfl
theorem runDrill_local {i : Instr} {lat : Lat} {g : State → Thread → Fx} {s : State} {t : Nat} {th : Thread} (h : Takes i s t th) :
    runDrill i lat (fun s _ th => (s, g s th)) s = runDrill i lat (pureFx (g s)) s := by
  have hne := List.ne_nil_of_mem h.act
  rw [runDrill_eq _ _ _ _ hne (shapeFault_none h.sound), runDrill_eq _ _ _ _ hne (shapeFault_none h.sound), drillParts_local]
/-- An active thread without a fault moves on with what its part gives it. -/
theorem runDrill_moves {i : Instr} {lat : Lat} {f : Thread → Fx} {s : State} {t : Nat} {th : Thread} {e : Effect} {pc : DWord} (h : Takes i s t th)
    (hp : Plain (f (sourceThread i s th)))
    (hm : (f (sourceThread i s th)).fault = none ∧ (f (sourceThread i s th)).wait = none ∧ (f (sourceThread i s th)).stay = false ∧
      (f (sourceThread i s th)).gone = false)
    (he : e = { regs := (f (sourceThread i s th)).regs, preds := (f (sourceThread i s th)).preds, flags := (f (sourceThread i s th)).flags })
    (hpc : pc = (f (sourceThread i s th)).jump.getD (after s)) :
    MovesTo i (fun old => { e with sr := readFlag i s old }) pc s (runDrill i lat (pureFx f) s) t := by
  obtain ⟨hf, hw, hs, hg⟩ := hm
  obtain ⟨th0, h0, -, -, hu⟩ := mem_drillThreads (mem_active h.act).1
  have hst : th0.stepping = none := by
    rw [← undefReads_stepping s t th0, ← hu]
    exact h.free
  rw [← activeFx_sourceThread (f := f)] at hp hf hw hs hg he hpc
  obtain ⟨new, hn, hal⟩ := runDrill_active (lat := lat) (f := f) h.act h.sound h0 hst hf hs hw hg h.spills
  refine ⟨th0, new, h0, hn, ?_⟩
  subst he hpc
  exact (hp.applyFx (i := i) (sr := readFlag i s th0) (ready := drillReady i lat s s) (th := th0)).moved hal rfl
theorem readFlag_lane {i : Instr} {s : State} {th : Thread} (h : isUnif s = false) : readFlag i s th = staleFlag i th := by
  unfold readFlag
  rw [h]
  rfl
theorem Plain.reg {d : RegNo} {v : Word} : Plain { regs := [(d.toNat, v)] } := ⟨rfl, List.nodup_singleton _, List.nodup_nil⟩

/-- `shape` reads a tag. -/
theorem shape_reads (o : SyR1) : ComputesIn (.shape o) (fun s x => toReg o.d (match tget x.regs o.a.reg.toNat with
     | none => 3
     | some c => if sheafSize (getCore s s.cur.core) x ≤ 1 then 1 else (match c.tag with
       | .general => 0
       | .uniform => 1
       | .affine _ _ => 2))) := by
  intro s t th h
  refine ⟨_, rfl, ?_⟩
  rw [runDrill_local (g := fun s th => { regs := [(o.d.toNat, BitVec.ofNat 32 (tagCode (getCore s s.cur.core) th o.a.reg.toNat))] }) h]
  refine runDrill_moves h .reg ⟨rfl, rfl, rfl, rfl⟩ ?_ rfl
  unfold tagCode toReg
  dsimp only
  cases tget (sourceThread (.shape o) s th).regs o.a.reg.toNat with
  | none => rfl
  | some c =>
    dsimp only
    by_cases hz : sheafSize (getCore s s.cur.core) (sourceThread (.shape o) s th) ≤ 1
    · rw [if_pos hz, if_pos hz]
      rfl
    · rw [if_neg hz, if_neg hz]
      cases c.tag <;> rfl
/-- `bcast` gives the value of the lowest-ranked active thread. -/
theorem bcast_leads {o : SyR1} {s : State} {t u : Nat} {th lead : Thread} (h : Takes (.bcast o) s t th) (hu : isUnif s = false)
    (hl : (activeThreads (.bcast o) s).head? = some (u, lead)) :
    ∃ s', exec (.bcast o) s = .next s' ∧
       MovesTo (.bcast o) (fun old => { toReg o.d (sv lead o.a) with sr := staleFlag (.bcast o) old }) (after s) s s' t := by
  refine ⟨_, rfl, ?_⟩
  rw [funext fun old => (readFlag_lane (i := .bcast o) (th := old) hu).symm]
  rw [hl]
  exact runDrill_moves h .reg ⟨rfl, rfl, rfl, rfl⟩ rfl rfl
theorem iota_computes (o : SyRR) : Computes (.iota o) (fun x => toReg o.d (sv x o.a + sv2 x o.b * BitVec.ofNat 32 x.rank)) :=
  fun _ _ _ h => ⟨_, rfl, runDrill_moves h .reg ⟨rfl, rfl, rfl, rfl⟩ rfl rfl⟩
end Sys2Proof.Machine

/-! ### How many members a sheaf has, whatever order its table is in (R19) -/
namespace Sys2Proof.Machine
open Sys2Proof

/-- The thread slots of a table with the sheaves that they are in. -/
def sheafKeys (l : Tbl Thread) : List (Nat × Option Nat) := l.map fun e => (e.1, e.2.sheaf)
/-- A table's threads are in the sheaves that they were in; slot t stands in it as often as before. -/
structure SheavesStay (t : Nat) (a b : Tbl Thread) : Prop where
  sub : (sheafKeys a).Sublist (sheafKeys b)
  mem : ∀ e ∈ sheafKeys b, e ∈ sheafKeys a
  own : (sheafKeys b).filter (fun e => e.1 == t) = (sheafKeys a).filter fun e => e.1 == t
theorem SheavesStay.of_eq {t : Nat} {a b : Tbl Thread} (h : sheafKeys b = sheafKeys a) : SheavesStay t a b :=
  ⟨by rw [h], fun e he => by rwa [h] at he, by rw [h]⟩
theorem SheavesStay.trans {t : Nat} {a b c : Tbl Thread} (h : SheavesStay t a b) (k : SheavesStay t b c) : SheavesStay t a c :=
  ⟨h.sub.trans k.sub, fun e he => h.mem e (k.mem e he), k.own.trans h.own⟩
theorem sheafKeys_tmap {l : Tbl Thread} {f : Nat → Thread → Thread} (h : ∀ t th, (f t th).sheaf = th.sheaf) : sheafKeys (tmap l f) = sheafKeys l := by
  unfold sheafKeys tmap
  rw [List.map_map]
  exact List.map_congr_left fun e _ => congrArg (Prod.mk e.1) (h e.1 e.2)
theorem SheavesStay.tput {t u : Nat} {l : Tbl Thread} {x y : Thread} (hy : tget l u = some y) (hs : x.sheaf = y.sheaf) (hu : u ≠ t) :
    SheavesStay t l (Machine.tput l u x) := by
  induction l with
  | nil => exact absurd hy (by simp [tget])
  | cons e l ih =>
    obtain ⟨j, w⟩ := e
    have hkey : (u, x.sheaf) ∈ sheafKeys ((j, w) :: l) := by
      rw [hs]
      exact List.mem_map.2 ⟨_, tget_mem _ _ _ hy, rfl⟩
    unfold Machine.tput
    split
    · next hj =>
      subst hj
      refine .of_eq ?_
      have hw : w = y := by simpa [tget] using hy
      unfold sheafKeys
      rw [List.map_cons, List.map_cons, hs, hw]
    · next hj =>
      split
      · exact ⟨List.sublist_cons_self _ _, fun z hz => (List.mem_cons.1 hz).elim (fun h => h ▸ hkey) id, List.filter_cons_of_neg (by simpa using hu)⟩
      · have hy' : tget l u = some y := by simpa [tget, hj] using hy
        obtain ⟨h1, h2, h3⟩ := ih hy'
        refine ⟨h1.cons_cons _, fun z hz => ?_, ?_⟩
        · rcases List.mem_cons.1 hz with h | h
          · exact h ▸ List.mem_cons_self ..
          · exact List.mem_cons_of_mem _ (h2 z h)
        · show List.filter _ ((j, w.sheaf) :: sheafKeys (Machine.tput l u x)) = List.filter _ ((j, w.sheaf) :: sheafKeys l)
          rw [List.filter_cons, List.filter_cons, h3]
theorem members_length (c : Core) (k : Nat) : (members c k).length = (sheafKeys c.threads).countP fun e => e.2 == some k := by
  unfold members sheafKeys
  rw [List.countP_map, List.countP_eq_length_filter]
  rfl
theorem eq_of_countP_le_one {α : Type} {l : List α} {p : α → Bool} (h : l.countP p ≤ 1) {x y : α} (hx : x ∈ l) (hy : y ∈ l) (px : p x = true) (py : p y = true) :
    x = y := by
  rw [List.countP_eq_length_filter] at h
  have hx' := List.mem_filter.2 ⟨hx, px⟩
  have hy' := List.mem_filter.2 ⟨hy, py⟩
  cases hl : l.filter p with
  | nil => rw [hl] at hx'; exact absurd hx' List.not_mem_nil
  | cons z r =>
    rw [hl] at h hx' hy'
    obtain rfl : r = [] := List.length_eq_zero_iff.1 (by simpa using h)
    rw [List.mem_singleton.1 hx', List.mem_singleton.1 hy']
/-- A sheaf with slot t among its members is a sheaf of one before exactly if it is one after. -/
theorem SheavesStay.alone {t k : Nat} {c c' : Core} (h : SheavesStay t c.threads c'.threads) (hm : (t, some k) ∈ sheafKeys c.threads) :
    (members c' k).length ≤ 1 ↔ (members c k).length ≤ 1 := by
  rw [members_length, members_length]
  refine ⟨(h.sub.countP_le).trans, fun h1 => ?_⟩
  have hown : (sheafKeys c'.threads).countP (fun e => e.2 == some k) = ((sheafKeys c'.threads).filter fun e => e.1 == t).countP fun e => e.2 == some k := by
    rw [List.countP_filter]
    refine List.countP_congr fun e he => ?_
    rw [Bool.and_eq_true]
    refine ⟨fun hk => ⟨hk, ?_⟩, fun hk => hk.1⟩
    rw [eq_of_countP_le_one h1 (h.mem e he) hm hk (by simp)]
    exact beq_self_eq_true t
  rw [hown, h.own]
  exact (List.filter_sublist.countP_le).trans h1

/-! ### Stepped threads that park again leave every sheaf -/

theorem stepDone_sheaves {s : State} {ci t u : Nat} (hu : u ≠ t) : SheavesStay t (getCore s ci).threads (getCore (stepDone s ci u) ci).threads := by
  unfold stepDone
  extract_lets c
  split
  · exact .of_eq rfl
  · next hth =>
    split
    · exact .of_eq rfl
    · split
      · exact .of_eq rfl
      · extract_lets db left d1 f1 th2 s2
        have h2 : SheavesStay t (getCore s ci).threads (getCore s2 ci).threads := by
          rw [show getCore s2 ci = _ from getCore_putCore_self ..]
          exact SheavesStay.tput hth rfl hu
        split
        · obtain ⟨p, f, hp⟩ := fragPending_core s2 ci _
          rw [hp]
          exact h2
        · exact h2
/-- Only a stepped thread parks again. -/
theorem stepDone_free {s : State} {ci t : Nat} {x : Thread} (hx : getThread s ci t = some x) (hs : x.stepping = none) : stepDone s ci t = s := by
  unfold stepDone
  simp only [getThread] at hx
  simp only [hx, hs]
theorem stepCheck_sheaves {s : State} {ci t u : Nat} {p : Nat → Thread → Bool} {x : Thread} (hx : getThread s ci t = some x) (hs : x.stepping = none) :
    SheavesStay t (getCore s ci).threads (getCore (stepCheck ci p s u) ci).threads := by
  unfold stepCheck
  split
  · split
    · by_cases hu : u = t
      · subst hu
        rw [stepDone_free hx hs]
        exact .of_eq rfl
      · exact stepDone_sheaves hu
    · exact .of_eq rfl
  · exact .of_eq rfl
theorem foldl_stepCheck_sheaves {ci t : Nat} {p : Nat → Thread → Bool} {l : List Nat} {s : State} {x : Thread} (hx : getThread s ci t = some x)
    (hs : x.stepping = none) : SheavesStay t (getCore s ci).threads (getCore (l.foldl (stepCheck ci p) s) ci).threads := by
  induction l generalizing s x with
  | nil => exact .of_eq rfl
  | cons u l ih =>
    obtain ⟨y, hy, hal⟩ := (foldl_stepCheck_stays ci t p [u] s x hx hs).out x hx
    exact (stepCheck_sheaves hx hs).trans (ih hy (hal.stepping.trans hs))
end Sys2Proof.Machine

/-! ### `expand` (R258) -/
namespace Sys2Proof.Machine
open Sys2Proof

section
variable {o : SyD} {s : State} {t : Nat} {th : Thread}

/-- An `expand` in the lane pipe faults no thread. -/
theorem expand_preFault {act : List (Nat × Thread)} {x : Thread} (hu : isUnif s = false) : preFault (.expand o) s act x = none := by
  unfold preFault shapeFault
  simp only [hu]
  rfl
theorem expand_offFxs : offFxs (.expand o) s = [] := by
  unfold offFxs
  refine List.filterMap_eq_nil_iff.2 fun e _ => ?_
  have h : offFault (.expand o) (getCore s s.cur.core) (zeroOf (.expand o) && !(activeThreads (.expand o) s).isEmpty) e.2 = none := by
    unfold offFault
    cases zeroOf (.expand o) && !(activeThreads (.expand o) s).isEmpty <;> rfl
  rw [h]
  rfl
theorem expand_pureFxs (hu : isUnif s = false) :
    pureFxs (.expand o) (fun _ => {}) s (activeThreads (.expand o) s) = (activeThreads (.expand o) s).map fun e => (e.1, ({} : Fx)) := by
  unfold pureFxs
  rw [hu]
  refine List.map_congr_left fun e _ => ?_
  unfold ownFx
  rw [expand_preFault hu]
/-- Settling that may evict nothing. -/
theorem settleBanks_zero {old : Core} {s : State} {ci : Nat} {tids : List Nat} {keep : Nat → List Nat} : settleBanks old s ci tids keep 0 = (s, 0) := by
  have h : ∀ (l : List Nat) (a : State × Nat), l.foldl (fun (a : State × Nat) _ => (a.1, a.2 + 0)) a = a := fun l => by
    induction l with
    | nil => exact fun _ => rfl
    | cons x l ih => exact fun a => ih a
  exact (h _ _).trans (h _ _)
/-- The drill of an `expand`: its threads move on. -/
def expandDrill (o : SyD) (s : State) : State := runDrill (.expand o) latInt (fun s _ _ => (s, {})) s
theorem expandDrill_pure (h : Takes (.expand o) s t th) : expandDrill o s = runDrill (.expand o) latInt (pureFx fun _ => {}) s := runDrill_local (g := fun _ _ => {}) h
theorem expandDrill_moves (h : Takes (.expand o) s t th) (hu : isUnif s = false) :
    MovesTo (.expand o) (fun old => { sr := staleFlag (.expand o) old }) (after s) s (expandDrill o s) t := by
  rw [funext fun old => congrArg (fun w => ({ sr := w } : Effect)) (readFlag_lane (i := .expand o) (th := old) hu).symm, expandDrill_pure h]
  exact runDrill_moves (f := fun _ => {}) h ⟨rfl, List.nodup_nil, List.nodup_nil⟩ ⟨rfl, rfl, rfl, rfl⟩ rfl rfl
/-- The threads of the core after their parts, in their old sheaves. -/
theorem expand_committed {fxs : List (Nat × Fx)} (hfx : ∀ e ∈ fxs, e.2 = {}) :
    sheafKeys (committed (.expand o) latInt fxs s s).threads = sheafKeys (getCore s s.cur.core).threads := by
  have hin : ∀ e ∈ fxs, FxIn [] e.2 := fun e he => hfx e he ▸ FxIn.of_keys rfl rfl
  let some1 := (fxs.find? fun e => e.2.fault.isNone && !e.2.stay).map (·.2)
  refine sheafKeys_tmap (l := (getCore s s.cur.core).threads) (f := fun k x => if ((drillThreads (.expand o) s).map (·.1)).contains k then
    commitThread (.expand o) s (drillTime (.expand o) s) (drillReady (.expand o) latInt s s) (zeroOf (.expand o) && !(activeThreads (.expand o) s).isEmpty) some1 fxs k x
    else x) fun k x => ?_
  split
  · refine (commitThread_within (W := []) (.expand o) _ _ _ _ _ _ hin (fun y hy => ?_) (fun r hr => hr) _ _).1
    obtain ⟨e, he, rfl⟩ := Option.map_eq_some_iff.1 hy
    exact hin e (List.mem_of_find?_eq_some he)
  · rfl
/-- The drill writes no register: nothing is evicted and no thread faults. -/
theorem expandDrill_eq (h : Takes (.expand o) s t th) (hu : isUnif s = false) : ∃ fxs : List (Nat × Fx), (∀ e ∈ fxs, e.2 = {}) ∧
    expandDrill o s = drillDone (((drillThreads (.expand o) s).map (·.1)).foldl (stepCheck s.cur.core fun t th =>
      th.stepping.isSome && th.st == .ready && !((tget fxs t).map (·.stay)).getD false)
      (putCore s s.cur.core (committed (.expand o) latInt fxs s s))) (drillTime (.expand o) s) := by
  have hfx : ∀ e ∈ pureFxs (.expand o) (fun _ => {}) s (activeThreads (.expand o) s), e.2 = {} := fun e he => by
    rw [expand_pureFxs hu] at he
    obtain ⟨x, -, rfl⟩ := List.mem_map.1 he
    rfl
  refine ⟨_, hfx, ?_⟩
  rw [expandDrill_pure h, runDrill_eq _ _ _ _ (List.ne_nil_of_mem h.act) (shapeFault_none h.sound), drillParts_pure, expand_offFxs, List.append_nil]
  generalize pureFxs (.expand o) (fun _ => {}) s (activeThreads (.expand o) s) = fxs at hfx ⊢
  have hnof : ((drillThreads (.expand o) s).filterMap fun e => ((tget fxs e.1).bind (·.fault)).map fun f => (e.1, f)) = [] := by
    refine List.filterMap_eq_nil_iff.2 fun e _ => ?_
    cases hg : tget fxs e.1 with
    | none => rfl
    | some fx =>
      obtain rfl : fx = {} := hfx _ (tget_mem _ _ _ hg)
      rfl
  unfold settled
  dsimp only
  rw [hnof, takeFaults_nil]
  have hz : ∀ n, 2 * (writes (.expand o)).length * n = 0 := fun n => Nat.zero_mul n
  rw [hz, settleBanks_zero]
  rfl
theorem expandDrill_quiet (h : Takes (.expand o) s t th) : Quiet s (expandDrill o s) := by
  rw [expandDrill_pure h, runDrill_eq _ _ _ _ (List.ne_nil_of_mem h.act) (shapeFault_none h.sound), drillParts_pure]
  exact settled_quiet ..
theorem expandDrill_sheaves (h : Takes (.expand o) s t th) (hu : isUnif s = false) :
    SheavesStay t (getCore s s.cur.core).threads (getCore (expandDrill o s) s.cur.core).threads := by
  obtain ⟨fxs, hfx, he⟩ := expandDrill_eq h hu
  obtain ⟨th0, h0, ht, -, hth⟩ := mem_drillThreads (mem_active h.act).1
  have hst : th0.stepping = none := by
    rw [← undefReads_stepping s t th0, ← hth]
    exact h.free
  obtain ⟨x, hx, hal⟩ := committed_stays (.expand o) latInt fxs s s t th0 h0 (List.mem_map_of_mem (f := (·.1)) (mem_active h.act).1)
  have hx1 : getThread (putCore s s.cur.core (committed (.expand o) latInt fxs s s)) s.cur.core t = some x := by
    rw [getThread, getCore_putCore_self]
    exact hx
  have h1 : SheavesStay t (getCore s s.cur.core).threads (getCore (putCore s s.cur.core (committed (.expand o) latInt fxs s s)) s.cur.core).threads := by
    rw [getCore_putCore_self]
    exact .of_eq (expand_committed hfx)
  have h2 := foldl_stepCheck_sheaves (p := fun t th => th.stepping.isSome && th.st == .ready && !((tget fxs t).map (·.stay)).getD false)
    (l := (drillThreads (.expand o) s).map (·.1)) hx1 (by rw [hal.stepping, commitThread_stepping, hst])
  rw [he]
  generalize hs3 : ((drillThreads (.expand o) s).map (·.1)).foldl (stepCheck s.cur.core fun t th =>
      th.stepping.isSome && th.st == .ready && !((tget fxs t).map (·.stay)).getD false) (putCore s s.cur.core (committed (.expand o) latInt fxs s s)) = s3 at h2 ⊢
  have hcur : s3.cur = s.cur := by
    rw [← hs3]
    exact (Quiet.foldl _ (fun s u => stepCheck_quiet _ u _ s) _ _).cur
  obtain ⟨lp, up, hd⟩ := drillDone_core s3 (drillTime (.expand o) s)
  rw [hcur] at hd
  rw [hd]
  exact h1.trans h2
theorem stepCheck_tame {ci u : Nat} {p : Nat → Thread → Bool} {s : State} : Tame ci s (stepCheck ci p s u) := by
  unfold stepCheck
  split
  · exact .ite (stepDone_tame ..) (.refl ..)
  · exact .refl ..
theorem expandDrill_ok (h : Takes (.expand o) s t th) (hu : isUnif s = false) : SpillsOk (expandDrill o s) s.cur.core := by
  obtain ⟨fxs, -, he⟩ := expandDrill_eq h hu
  refine h.spills.of ?_ (expandDrill_quiet h).bad
  have h2 : Tame s.cur.core (putCore s s.cur.core (committed (.expand o) latInt fxs s s)) _ := Tame.foldl (fun s u => stepCheck_tame
    (p := fun t th => th.stepping.isSome && th.st == .ready && !((tget fxs t).map (·.stay)).getD false) (s := s) (u := u)) ((drillThreads (.expand o) s).map (·.1)) _
  have hf := h2.fsbase
  rw [getCore_putCore_self, committed_fsbase] at hf
  have hcur := h2.cur
  rw [he]
  revert hf hcur
  generalize ((drillThreads (.expand o) s).map (·.1)).foldl _ (putCore s s.cur.core (committed (.expand o) latInt fxs s s)) = s3
  intro hf hcur
  obtain ⟨lp, up, hd⟩ := drillDone_core s3 (drillTime (.expand o) s)
  rw [show s3.cur = s.cur from hcur] at hd
  rw [hd]
  exact hf
end
end Sys2Proof.Machine

/-! ### The register that becomes general in the whole sheaf (R41, R258) -/
namespace Sys2Proof.Machine
open Sys2Proof

/-- The tag of register r and where it is stored, with the sheaf of its thread. -/
def shapeOf (r : Nat) (th : Thread) : Option Nat × Option (Tag × Bool) := (th.sheaf, (tget th.regs r).map fun c => (c.tag, c.uni))
theorem tget_tupd_map {α β : Type} {g : α → β} {f : α → α} (h : ∀ x, g (f x) = g x) (l : Tbl α) (k r : Nat) : (tget (tupd l k f) r).map g = (tget l r).map g := by
  by_cases hr : r = k
  · subst hr
    rw [tget_tupd_self, Option.map_map]
    cases tget l r with
    | none => rfl
    | some x => exact congrArg some (h x)
  · rw [tget_tupd_ne _ _ _ _ hr]
theorem toFallow_shape (c : RegCell) : ((toFallow c).tag, (toFallow c).uni) = (c.tag, c.uni) := by
  unfold toFallow
  split <;> rfl
theorem shapeOf_blind (r : Nat) : BankBlind (shapeOf r) := by
  refine ⟨fun th k => congrArg (Prod.mk th.sheaf) (tget_tupd_map toFallow_shape th.regs k r),
    fun th k => congrArg (Prod.mk th.sheaf) (tget_tupd_map (fun c => ?_) th.regs k r)⟩
  split
  · exact toFallow_shape c
  · rfl
theorem undefReads_isSome {s : State} {t r : Nat} {th : Thread} : (tget (undefReads s t th).regs r).isSome = (tget th.regs r).isSome := by
  have h : ∀ (l : List (Nat × Nat)) (a : Thread), (tget (l.foldl (fun th x => { th with
      regs := tupd th.regs x.2 fun c => { c with val := Config.freeReg s.free t x.2 }
      seen := tput (tput th.seen (64 + x.2) (Config.freeReg s.free t (64 + x.2))) (128 + x.2) (Config.freeReg s.free t (128 + x.2)) }) a).regs r).isSome
      = (tget a.regs r).isSome := by
    intro l
    induction l with
    | nil => exact fun _ => rfl
    | cons x l ih => exact fun a => (ih _).trans (isSome_tupd ..)
  exact h th.joinRegs _
theorem isSome_of_val {a b : Option RegCell} (h : a.map (·.val) = b.map (·.val)) : a.isSome = b.isSome := by
  rw [← Option.isSome_map, h, Option.isSome_map]

section
variable {o : SyD} {s : State} {t : Nat} {th : Thread}

/-- The core of a drill after register r of the sheaves of these threads has become general. -/
theorem retagGeneral_shape {w : List Nat} {c : Core} {r k u : Nat} {th x : Thread} (ht : t ∈ w) (h0 : tget c.threads t = some th) (hk : th.sheaf = some k)
    (hx : tget (retagGeneral w c r).threads u = some x) (hs : x.sheaf = some k) {e : RegCell} (he : tget x.regs r = some e) :
    e.tag = (if (members c k).length ≤ 1 then .uniform else .general) ∧ e.uni = false := by
  unfold retagGeneral at hx
  dsimp only at hx
  rw [tget_tmap] at hx
  obtain ⟨y, hy, rfl⟩ := Option.map_eq_some_iff.1 hx
  have hys : y.sheaf = some k := by
    rw [← hs]
    split <;> rfl
  have hany : ((w.filterMap fun t => (tget c.threads t).bind (·.sheaf)).eraseDups.any fun j => y.sheaf == some j) = true := by
    refine List.any_eq_true.2 ⟨k, List.mem_eraseDups.2 (List.mem_filterMap.2 ⟨t, ht, by rw [h0]; exact hk⟩), ?_⟩
    rw [hys]
    exact beq_self_eq_true _
  rw [if_pos hany] at he
  unfold setTag at he
  dsimp only at he
  rw [tget_tupd_self] at he
  obtain ⟨z, -, rfl⟩ := Option.map_eq_some_iff.1 he
  rw [if_neg (by decide)]
  refine ⟨?_, rfl⟩
  dsimp only
  unfold sheafSize
  rw [hys]
theorem exec_expand : exec (.expand o) s = .next (expandSheaf (expandDrill o s) ((activeThreads (.expand o) s).map (·.1)) o.d.toNat) := rfl
/-- What follows the drill changes tags and banks. -/
theorem expandSheaf_eq {s1 : State} {tids : List Nat} {r : Nat} : ∃ all n, expandSheaf s1 tids r = (settleBanks (getCore s1 s1.cur.core)
    (putCore s1 s1.cur.core (retagGeneral (tids.filter fun t => ((tget (getCore s1 s1.cur.core).threads t).bind fun th => tget th.regs r).isSome)
      (getCore s1 s1.cur.core) r)) s1.cur.core all (fun _ => [r]) n).1 := ⟨_, _, rfl⟩
theorem expand_becomes (h : Takes (.expand o) s t th) (hu : isUnif s = false) :
    ∃ s', exec (.expand o) s = .next s' ∧ MovesTo (.expand o) (fun old => { sr := staleFlag (.expand o) old }) (after s) s s' t ∧
       ∀ k, th.sheaf = some k → (tget th.regs o.d.toNat).isSome = true → ∀ u new x, getThread s' s.cur.core u = some new → new.sheaf = some k →
         tget new.regs o.d.toNat = some x →
           x.tag = (if (members (getCore s s.cur.core) k).length ≤ 1 then .uniform else .general) ∧ x.uni = false := by
  obtain ⟨old, mid, h0, h1, hm⟩ := expandDrill_moves h hu
  have hok := expandDrill_ok h hu
  have hcur : (expandDrill o s).cur.core = s.cur.core := congrArg (·.core) (expandDrill_quiet h).cur
  have hsh := expandDrill_sheaves h hu
  obtain ⟨th0, h0', -, -, hth⟩ := mem_drillThreads (mem_active h.act).1
  obtain rfl : th0 = old := Option.some.inj (h0'.symm.trans h0)
  obtain ⟨all, n, he⟩ := expandSheaf_eq (s1 := expandDrill o s) (tids := (activeThreads (.expand o) s).map (·.1)) (r := o.d.toNat)
  rw [hcur] at he
  refine ⟨_, exec_expand, ?_⟩
  rw [he]
  generalize expandDrill o s = s1 at h1 hok hsh
  let w := ((activeThreads (.expand o) s).map (·.1)).filter fun t => ((tget (getCore s1 s.cur.core).threads t).bind fun th => tget th.regs o.d.toNat).isSome
  show MovesTo _ _ _ s (settleBanks _ (putCore s1 s.cur.core (retagGeneral w (getCore s1 s.cur.core) o.d.toNat)) _ _ _ _).1 t ∧ _
  have hok2 : SpillsOk (putCore s1 s.cur.core (retagGeneral w (getCore s1 s.cur.core) o.d.toNat)) s.cur.core := hok.of (by rw [getCore_putCore_self]; rfl) rfl
  have hst : StaysS s.cur.core t s1 (settleBanks (getCore s1 s.cur.core) (putCore s1 s.cur.core (retagGeneral w (getCore s1 s.cur.core) o.d.toNat)) s.cur.core all
      (fun _ => [o.d.toNat]) n).1 := (StaysS.putCore (retagGeneral_stays ..)).trans (settleBanks_stays _ _ _ _ _ _ _ hok2).stays
  have hsv := settleBanks_views (shapeOf_blind o.d.toNat) (old := getCore s1 s.cur.core) (tids := all) (keep := fun _ => [o.d.toNat]) (n := n) hok2
  generalize (settleBanks (getCore s1 s.cur.core) (putCore s1 s.cur.core (retagGeneral w (getCore s1 s.cur.core) o.d.toNat)) s.cur.core all
      (fun _ => [o.d.toNat]) n).1 = s' at hst hsv
  obtain ⟨new, hn, hal⟩ := hst.out mid h1
  refine ⟨⟨th0, new, h0, hn, hm.got.alike hal rfl, hal.pc.trans hm.pc, hal.st.trans hm.ready⟩, fun k hk hd u nu x hu hnk hx => ?_⟩
  have hk0 : th0.sheaf = some k := by
    obtain ⟨r, q, hq⟩ := undefReads_eq s t th0
    rw [hth, hq] at hk
    exact hk
  have hkm : mid.sheaf = some k := hm.got.place.2.1.trans hk0
  have hdm : (tget mid.regs o.d.toNat).isSome = true := by
    rw [isSome_of_val (hm.got.kept _ List.not_mem_nil List.not_mem_nil), ← undefReads_isSome (s := s) (t := t), ← hth]
    exact hd
  have htw : t ∈ w := List.mem_filter.2 ⟨List.mem_map_of_mem (f := (·.1)) h.act, by rw [show tget (getCore s1 s.cur.core).threads t = some mid from h1]; exact hdm⟩
  obtain ⟨a, ha⟩ := hsv.back hu
  have hv := hsv.view ha hu
  unfold shapeOf at hv
  rw [hnk, hx, Prod.mk.injEq] at hv
  obtain ⟨has, hax⟩ := hv
  obtain ⟨e, hea, hee⟩ := Option.map_eq_some_iff.1 hax.symm
  rw [getThread, getCore_putCore_self] at ha
  obtain ⟨ht1, hu1⟩ := retagGeneral_shape htw h1 hkm ha has.symm hea
  rw [Prod.mk.injEq] at hee
  rw [← hee.1, ← hee.2, ht1, hu1]
  refine ⟨if_congr (hsh.alone ?_) rfl rfl, rfl⟩
  exact List.mem_map.2 ⟨(t, th0), tget_mem _ _ _ h0, by rw [← hk0]⟩
end
end Sys2Proof.Machine

/-! ### Participants of a `regroup` that are moved (R163, R251, R301) -/
namespace Sys2Proof.Machine
open Sys2Proof

section
variable {s : State} {ci t : Nat} {th : Thread}

theorem stepDone_stepCheck (u : Nat) : stepDone s ci u = stepCheck ci (fun _ _ => true) s u := by
  unfold stepCheck
  split
  · rfl
  · next hn =>
    have hn' : tget (getCore s ci).threads u = none := hn
    unfold stepDone
    simp only [hn']
/-- Threads that park again leave one that is not stepped. -/
theorem foldl_stepDone_stays {l : List Nat} (h0 : getThread s ci t = some th) (hs : th.stepping = none) : StaysS ci t s (l.foldl (fun s u => stepDone s ci u) s) := by
  rw [show (fun s u => stepDone s ci u) = stepCheck ci fun _ _ => true from funext fun _ => funext fun _ => stepDone_stepCheck _]
  exact foldl_stepCheck_stays ci t _ l s th h0 hs
/-- A participant that is all moved: its rank is in D and it is ready at the next instruction. -/
def landed (c : Core) (th : Thread) : Thread :=
  { writeReg { th with moving := none, pc := th.nextPc, fresh := false } ((th.moving.map (·.2)).getD 0) (BitVec.ofNat 32 th.rank) th.eligible with
    st := .ready, readySince := c.cyc, overdue := none }
theorem SpillsOk.updThreads {l : List Nat} {f : Thread → Thread} (h : SpillsOk s ci) : SpillsOk (Machine.updThreads s ci l f) ci :=
  h.of (by unfold Machine.updThreads; rw [updCore_eq, getCore_putCore_self]) rfl
theorem landed_stepping {c : Core} : (landed c th).stepping = th.stepping := rfl
theorem getThread_landing {tids : List Nat} : getThread (updThreads s ci tids (landed (getCore s ci))) ci t
    = (getThread s ci t).map fun th => if tids.contains t then landed (getCore s ci) th else th := getThread_updThreads ..
/-- What follows the landings is the tags' and the banks' work, and stepped threads that park again. -/
theorem regroupEnd_stays {tids : List Nat} (h0 : getThread s ci t = some th) (hs : th.stepping = none) (hok : SpillsOk s ci) :
    StaysS ci t (updThreads s ci tids (landed (getCore s ci))) (regroupEnd s ci tids) := by
  unfold regroupEnd
  extract_lets regs s2 old s3
  have h2 : getThread s2 ci t = some (if tids.contains t then landed (getCore s ci) th else th) := by
    rw [show s2 = updThreads s ci tids (landed (getCore s ci)) from rfl, getThread_landing, h0]
    rfl
  have hst2 : (if tids.contains t then landed (getCore s ci) th else th).stepping = none := by split <;> exact hs
  have hok2 : SpillsOk s2 ci := hok.updThreads
  have hfs : ∀ (l : List Nat) (c : Core), (l.foldl (fun c d => retag false tids c d) c).fsbase = c.fsbase := fun l => by
    induction l with
    | nil => exact fun _ => rfl
    | cons d l ih => exact fun c => (ih _).trans (retag_fsbase ..)
  have hok3 : SpillsOk (updCore s2 ci fun c => regs.foldl (fun c d => retag false tids c d) c) ci :=
    hok2.of (by rw [updCore_eq, getCore_putCore_self, hfs]) rfl
  have h3 : StaysS ci t s2 s3 := (StaysS.putCore (foldl_stays t (fun c d => retag false tids c d) (fun c d => retag_stays ..) regs (getCore s2 ci))).trans
    (settleBanks_stays _ _ _ _ _ _ _ hok3).stays
  obtain ⟨x, hx, hal⟩ := h3.out _ h2
  exact h3.trans (foldl_stepDone_stays hx (hal.stepping.trans hst2))

/-- The participants that are being moved. -/
def movers (c : Core) : List (Nat × Thread) := c.threads.filter fun e => e.2.st == .waiting .moving && (getPlot c e.2.plot).frozen.isNone
/-- Those that are all moved after this cycle. -/
def arrivers (c : Core) : List Nat := ((movers c).filter fun e => decide (((e.2.moving.map (·.1)).getD 0) ≤ e.2.prog.toNat + 1)).map (·.1)
theorem moveOn_eq : moveOn s ci = regroupEnd (updThreads s ci ((movers (getCore s ci)).map (·.1)) fun th => { th with prog := th.prog + 1 }) ci (arrivers (getCore s ci)) := rfl
theorem mem_movers (h0 : getThread s ci t = some th) (hst : th.st = .waiting .moving) (hf : (getPlot (getCore s ci) th.plot).frozen = none) :
    (t, th) ∈ movers (getCore s ci) := by
  refine List.mem_filter.2 ⟨tget_mem _ _ _ h0, ?_⟩
  dsimp only
  rw [hst, hf]
  rfl
theorem mem_arrivers {m d : Nat} (hsort : tsorted (getCore s ci).threads = true) (h0 : getThread s ci t = some th) (hst : th.st = .waiting .moving)
    (hf : (getPlot (getCore s ci) th.plot).frozen = none) (hm : th.moving = some (m, d)) : t ∈ arrivers (getCore s ci) ↔ m ≤ th.prog.toNat + 1 := by
  unfold arrivers
  rw [List.mem_map]
  constructor
  · rintro ⟨e, he, rfl⟩
    obtain ⟨he1, he2⟩ := List.mem_filter.1 he
    have hte : e.2 = th := Option.some.inj ((tget_of_mem hsort (List.mem_filter.1 he1).1).symm.trans h0)
    rw [hte, hm] at he2
    exact of_decide_eq_true he2
  · exact fun h => ⟨(t, th), List.mem_filter.2 ⟨mem_movers h0 hst hf, by rw [hm]; exact decide_eq_true h⟩, rfl⟩

/-- One cycle of the moves under way: a thread more is moved, and after the last the participants go on. -/
theorem moveOn_becomes {m d : Nat} (hW : WellKept s) (h0 : getThread s ci t = some th) (hst : th.st = .waiting .moving) (hm : th.moving = some (m, d))
    (hs : th.stepping = none) (hf : (getPlot (getCore s ci) th.plot).frozen = none) (hok : SpillsOk s ci) :
    ∃ new, getThread (moveOn s ci) ci t = some new ∧ new.prog = th.prog + 1 ∧ new.rank = th.rank ∧
       (m ≤ th.prog.toNat + 1 → new.st = .ready ∧ new.pc = th.nextPc ∧ (tget new.regs d).map (·.val) = some (BitVec.ofNat 32 th.rank) ∧
         ∀ r, r ≠ d → (tget new.regs r).map (·.val) = (tget th.regs r).map (·.val)) ∧
       (th.prog.toNat + 1 < m → new.st = .waiting .moving ∧ new.pc = th.pc ∧ ∀ r, (tget new.regs r).map (·.val) = (tget th.regs r).map (·.val)) := by
  have hsort : tsorted (getCore s ci).threads = true := (((kept_iff s).2 hW).get ci).threads
  have h1 : getThread (updThreads s ci ((movers (getCore s ci)).map (·.1)) fun th => { th with prog := th.prog + 1 }) ci t = some { th with prog := th.prog + 1 } := by
    rw [getThread_updThreads, h0, Option.map_some, if_pos (List.contains_iff_mem.2 (List.mem_map_of_mem (f := (·.1)) (mem_movers h0 hst hf)))]
  have hend := regroupEnd_stays (tids := arrivers (getCore s ci)) h1 hs hok.updThreads
  rw [moveOn_eq]
  obtain ⟨new, hn, hal⟩ := hend.out _ ((getThread_landing).trans (congrArg _ h1))
  refine ⟨new, hn, ?_⟩
  dsimp only at hal
  by_cases hle : m ≤ th.prog.toNat + 1
  · rw [if_pos (List.contains_iff_mem.2 ((mem_arrivers hsort h0 hst hf hm).2 hle))] at hal
    refine ⟨hal.of Thread.prog fun _ => rfl, hal.of Thread.rank fun _ => rfl, fun _ => ⟨hal.st.trans rfl, hal.pc.trans rfl, ?_, fun r hr => ?_⟩, fun h => absurd hle (Nat.not_le.2 h)⟩
    · rw [hal.val]
      unfold landed
      dsimp only
      rw [hm]
      exact tget_writeReg _ _ _ _
    · rw [hal.val]
      unfold landed writeReg
      dsimp only
      rw [hm]
      exact congrArg _ (tget_tput_ne _ _ _ _ hr)
  · rw [if_neg fun h => hle ((mem_arrivers hsort h0 hst hf hm).1 (List.contains_iff_mem.1 h))] at hal
    exact ⟨hal.of Thread.prog fun _ => rfl, hal.of Thread.rank fun _ => rfl, fun h => absurd h hle, fun _ => ⟨hal.st.trans hst, hal.pc, hal.val⟩⟩
end
end Sys2Proof.Machine

/-! ### `regroup` where the sheaves do not fit (R163, R251) -/
namespace Sys2Proof.Machine
open Sys2Proof

theorem insertRank_perm (x : Nat × Thread) (l : List (Nat × Thread)) : (insertRank x l).Perm (x :: l) := by
  induction l with
  | nil => exact .refl _
  | cons y l ih =>
    unfold insertRank
    split
    · exact .refl _
    · exact (ih.cons y).trans (.swap ..)
theorem drillOrder_perm (l : List (Nat × Thread)) : (drillOrder l).Perm l := by
  induction l with
  | nil => exact .refl _
  | cons x l ih => exact (insertRank_perm x _).trans (ih.cons x)
/-- Each slot of a drill stands for one of its threads. -/
theorem drillThreads_nodup {i : Instr} {s : State} (h : s.cur.tids.Nodup) : ((drillThreads i s).map (·.1)).Nodup := by
  refine ((drillOrder_perm _).map _).nodup_iff.2 ?_
  rw [List.map_filterMap]
  refine h.filterMap fun t u k ht hu => ?_
  have hk : ∀ v, k ∈ ((tget (getCore s s.cur.core).threads v).bind fun th => if qualifies i s.cur.coll th then some (v, undefReads s v th) else none).map (·.1) →
      k = v := fun v hv => by
    obtain ⟨e, he, rfl⟩ := Option.map_eq_some_iff.1 hv
    obtain ⟨th, -, hq⟩ := Option.bind_eq_some_iff.1 he
    split at hq
    · rw [← Option.some.inj hq]
    · exact absurd hq (by simp)
  exact (hk t ht).symm.trans (hk u hu)

/-- What the threads of a `regroup` have arrived with (R251). -/
structure Gathered (o : SyR1) (s : State) (pl ro : Nat) : Prop where
  some1 : drillThreads (.regroup o) s ≠ []
  each : ∀ e ∈ drillThreads (.regroup o) s, e.1 < 256 ∧ e.2.plot = pl ∧ e.2.role = ro ∧ e.2.stepping = none ∧ ∀ r ∈ e.2.regs, r.2.st ≠ .empty
/-- The key of a participant (R251). -/
def keyOf (o : SyR1) (e : Nat × Thread) : Nat := (sv e.2 o.a).toNat % 2 ^ 16
/-- The threads of each new sheaf. -/
def newSheaves (o : SyR1) (s : State) (z : Nat) : List (List Nat) := regroupPlan z ((drillThreads (.regroup o) s).map fun e => (e.1, keyOf o e))
/-- Where the new sheaves are to stand. -/
def newTines (o : SyR1) (s : State) (pl ro z : Nat) : Option (List (List Nat)) :=
  placeAll (freeTines (getCore s s.cur.core) pl ro ((drillThreads (.regroup o) s).map (·.1))) ((newSheaves o s z).map (·.length)) []
/-- The state in which every participant takes the fault. -/
def regroupFails (o : SyR1) (s : State) (f : FaultRec) : State :=
  takeFaults (clearRdv (updThreads s s.cur.core ((drillThreads (.regroup o) s).map (·.1)) fun th => { th with st := .ready })) s.cur.core
    ((drillThreads (.regroup o) s).map fun e => (e.1, f))
/-- The participants as they set out: last uses released, waiting to be moved. -/
def setOut (o : SyR1) (s : State) (th : Thread) : Thread := startWait (.regroup o) s .moving (release (lastRegs (.regroup o)) (orFlags th (staleFlag (.regroup o) th)))
/-- The state in which they stand in their new slots. -/
def regrouped (o : SyR1) (s : State) (pl ro z : Nat) (tines : List (List Nat)) : State :=
  regroupMove (updThreads s s.cur.core ((drillThreads (.regroup o) s).map (·.1)) (setOut o s)) s.cur.core pl ro (newTids (newSheaves o s z) tines) tines o.d.toNat
    (drillThreads (.regroup o) s).length
theorem regroupPlan_max {z : Nat} {l : List (Nat × Nat)} : regroupPlan (max 1 z) l = regroupPlan z l := by
  unfold regroupPlan
  rw [show max 1 (max 1 z) = max 1 z from by omega]

section
variable {o : SyR1} {s : State} {pl ro : Nat}

theorem Gathered.run (h : Gathered o s pl ro) (z : Nat) (hz : z = max 1 (roleInfo (getPlot (getCore s s.cur.core) pl) ro).z) :
    (∀ tines, newTines o s pl ro z = some tines → ∃ n e : Nat, regroupRun o s =
      (let dest := newTids (newSheaves o s z) tines
       let tids := dest.flatten.map (·.2)
       let x := settleBanks { getCore s s.cur.core with threads := [] } (regrouped o s pl ro z tines) s.cur.core tids (fun _ => [o.d.toNat])
         (64 * (drillThreads (.regroup o) s).length)
       let s4 := updThreads x.1 s.cur.core tids fun th => { th with lastUse := [], eligible := e }
       drillDone { s4 with cur := { s4.cur with sup := (tget dest.flatten s.cur.sup).getD s.cur.sup } } n)) ∧
    (newTines o s pl ro z = none → ∃ n : Nat, regroupRun o s =
      drillDone (regroupFails o s (resFault 4 (getPlot (getCore s s.cur.core) pl).plotNo)) n) := by
  subst hz
  obtain ⟨e0, he0⟩ := List.exists_mem_of_ne_nil _ h.some1
  have hno : ((drillThreads (.regroup o) s).any fun e => e.2.regs.any fun r => r.2.st == .empty) = false := by
    refine List.any_eq_false.2 fun e he => ?_
    rw [Bool.not_eq_true, List.any_eq_false]
    intro r hr hst
    exact (h.each e he).2.2.2.2 r hr (by simpa using hst)
  unfold newTines newSheaves regrouped newSheaves regroupFails
  simp only [regroupPlan_max]
  unfold regroupRun
  cases hths : drillThreads (.regroup o) s with
  | nil => exact absurd hths h.some1
  | cons e l =>
    obtain ⟨t0, th0⟩ := e
    obtain ⟨-, hpl, hro, -, -⟩ := h.each (t0, th0) (hths ▸ List.mem_cons_self ..)
    dsimp only at hpl hro
    rw [hths] at hno
    subst hpl hro
    dsimp only
    rw [hno]
    simp only [Bool.false_eq_true, if_false]
    refine ⟨fun tines ht => ?_, fun hn => ?_⟩
    · unfold keyOf at ht ⊢
      rw [ht]
      exact ⟨_, _, rfl⟩
    · unfold keyOf at hn
      rw [hn]
      exact ⟨_, rfl⟩
end

section
variable {o : SyR1} {s : State} {pl ro : Nat}

theorem clearRdv_core : ∃ x, getCore (clearRdv s) s.cur.core = { getCore s s.cur.core with sheaves := x } := by
  unfold clearRdv
  dsimp only
  generalize (s.cur.tids.filterMap fun t => (tget (getCore s s.cur.core).threads t).bind (·.sheaf)).eraseDups = ks
  have h : ∀ (ks : List Nat) (s1 : State) (ci : Nat), ∃ x, getCore (ks.foldl (fun s k => updCore s ci fun c =>
      { c with sheaves := tupd c.sheaves k fun sh => { sh with rdv := none } }) s1) ci = { getCore s1 ci with sheaves := x } := by
    intro ks
    induction ks with
    | nil => exact fun _ _ => ⟨_, rfl⟩
    | cons k ks ih =>
      intro s1 ci
      rw [List.foldl_cons]
      obtain ⟨x, hx⟩ := ih (updCore s1 ci fun c => { c with sheaves := tupd c.sheaves k fun sh => { sh with rdv := none } }) ci
      rw [updCore_eq, getCore_putCore_self] at hx
      exact ⟨x, hx⟩
  exact h ks s s.cur.core
theorem clearRdv_cur : (clearRdv s).cur = s.cur := by
  have h : Quiet s (clearRdv s) := by
    unfold clearRdv
    exact Quiet.foldl (fun s k => updCore s _ fun c => { c with sheaves := tupd c.sheaves k fun sh => { sh with rdv := none } }) (fun _ _ => ⟨rfl⟩) _ _
  exact h.cur
/-- A participant's thread stands in the core as the drill reads it, but for values of registers of a matrix part. -/
theorem Gathered.thread (h : Gathered o s pl ro) {e : Nat × Thread} (he : e ∈ drillThreads (.regroup o) s) : ∃ th0, getThread s s.cur.core e.1 = some th0 ∧
    e.2 = undefReads s e.1 th0 ∧ th0.plot = pl ∧ th0.role = ro ∧ th0.stepping = none := by
  obtain ⟨th0, h0, -, -, hu⟩ := mem_drillThreads (t := e.1) (th := e.2) he
  obtain ⟨-, hpl, hro, hst, -⟩ := h.each e he
  obtain ⟨r, q, hq⟩ := undefReads_eq s e.1 th0
  rw [hu, hq] at hpl hro hst
  exact ⟨th0, h0, hu, hpl, hro, hst⟩
/-- Where the new sheaves do not fit every participant takes a resource fault. -/
theorem Gathered.fails (h : Gathered o s pl ro) {f : FaultRec} {n : Nat} (hn : s.cur.tids.Nodup) (hf : (getCore s s.cur.core).frags = []) (hr : repairable f = false)
    {e : Nat × Thread} (he : e ∈ drillThreads (.regroup o) s) : ParksWith f s (drillDone (regroupFails o s f) n) e.1 := by
  obtain ⟨th0, h0, -, -, -, hst⟩ := h.thread he
  have hmem : ∀ {x}, x ∈ drillThreads (.regroup o) s → x.1 ∈ (drillThreads (.regroup o) s).map (·.1) := fun hx => List.mem_map_of_mem (f := (·.1)) hx
  let s1 := updThreads s s.cur.core ((drillThreads (.regroup o) s).map (·.1)) fun th => { th with st := .ready }
  obtain ⟨sh, hsh⟩ := clearRdv_core (s := s1)
  have hc1 : getCore (clearRdv s1) s.cur.core = { getCore s1 s.cur.core with sheaves := sh } := hsh
  have hth : ∀ {x w}, x ∈ drillThreads (.regroup o) s → getThread s s.cur.core x.1 = some w → getThread (clearRdv s1) s.cur.core x.1 = some { w with st := .ready } := fun hx hw => by
    rw [getThread, hc1]
    refine (getThread_updThreads ..).trans ?_
    rw [hw, Option.map_some, if_pos (List.contains_iff_mem.2 (hmem hx))]
  have hfr : (getCore (clearRdv s1) s.cur.core).frags = [] := by
    rw [hc1]
    show (getCore s1 s.cur.core).frags = []
    rw [show getCore s1 s.cur.core = _ from getCore_putCore_self ..]
    exact hf
  obtain ⟨hpk, htame⟩ := takeFaults_parks (s := clearRdv s1) (ci := s.cur.core) (e := 0) (l := (drillThreads (.regroup o) s).map fun e => (e.1, f)) (f := f)
    (mt List.map_eq_nil_iff.1 h.some1) (by rw [List.map_map]; exact drillThreads_nodup hn) (by rw [hfr]; exact lowestFree_nil)
    (fun x hx => by obtain ⟨y, -, rfl⟩ := List.mem_map.1 hx; rfl) hr (fun x hx w hw => by
      obtain ⟨y, hy, rfl⟩ := List.mem_map.1 hx
      obtain ⟨y0, hy0, -, -, -, hyst⟩ := h.thread hy
      rw [hth hy hy0] at hw
      rw [← Option.some.inj hw]
      exact hyst)
  have hcur : (clearRdv s1).cur = s.cur := clearRdv_cur
  have hx : (e.1, f) ∈ (drillThreads (.regroup o) s).map fun e => (e.1, f) := List.mem_map_of_mem he
  have hpw := ParkedAll.parksWith (s := clearRdv s1) (by rw [hcur]; exact hpk) hx (by rw [hcur]; exact hth he h0)
  obtain ⟨old, new, en, g, ho, hnew, hrest⟩ := hpw
  rw [hcur] at ho hnew hrest
  obtain rfl : ({ th0 with st := .ready } : Thread) = old := Option.some.inj ((hth he h0).symm.trans ho)
  have hcur2 : (regroupFails o s f).cur = s.cur := htame.cur.trans hcur
  obtain ⟨lp, up, hd⟩ := drillDone_core (regroupFails o s f) n
  rw [hcur2] at hd
  obtain ⟨hps, hpc, hregs, hpreds, hfrag⟩ := hrest
  refine ⟨th0, new, en, g, h0, ?_, hps, hpc, hregs, hpreds, ?_⟩
  · rw [getThread, hd]
    exact hnew
  · rw [hd]
    exact hfrag
end
end Sys2Proof.Machine

/-! ### The new sheaves of a `regroup` (R163, R251) -/
namespace Sys2Proof.Machine
open Sys2Proof

/-- A list's runs of n: what stands in one, and where. -/
theorem chunksOf_runs {n k : Nat} {l : List Nat} (hn : 0 < n) (hl : l.Nodup) (hk : l.length ≤ k) : (chunksOf n k l).flatten = l ∧ ∀ g ∈ chunksOf n k l, g ≠ [] ∧
    ∃ c, ∀ u ∈ l, (u ∈ g ↔ l.idxOf u / n = c) ∧ (u ∈ g → g.idxOf u = l.idxOf u % n) := by
  induction k generalizing l with
  | zero =>
    obtain rfl := List.length_eq_zero_iff.1 (Nat.le_zero.1 hk)
    exact ⟨rfl, fun _ h => absurd h List.not_mem_nil⟩
  | succ k ih =>
    unfold chunksOf
    by_cases he : l = []
    · subst he
      exact ⟨rfl, fun _ h => absurd h List.not_mem_nil⟩
    rw [if_neg (by simpa using he)]
    have hpos : 0 < l.length := List.length_pos_iff.2 he
    obtain ⟨i1, i2⟩ := ih (l := l.drop n) (hl.sublist (List.drop_sublist ..)) (by rw [List.length_drop]; omega)
    have hcut : l.take n ++ l.drop n = l := List.take_append_drop ..
    have hdis : ∀ u ∈ l.take n, u ∉ l.drop n := fun u h1 h2 => by
      rw [← hcut] at hl
      exact (List.disjoint_of_nodup_append hl) h1 h2
    have hin : ∀ u ∈ l.take n, l.idxOf u = (l.take n).idxOf u ∧ l.idxOf u < n := fun u hu => by
      have h1 : l.idxOf u = (l.take n).idxOf u := by
        conv_lhs => rw [← hcut]
        exact List.idxOf_append_of_mem hu
      refine ⟨h1, h1 ▸ (List.idxOf_lt_length_iff.2 hu).trans_le (List.length_take_le ..)⟩
    have hout : ∀ u ∈ l.drop n, l.idxOf u = n + (l.drop n).idxOf u := fun u hu => by
      have hlen : (l.take n).length = n := by
        rw [List.length_take]
        have := List.length_pos_of_mem hu
        rw [List.length_drop] at this
        omega
      conv_lhs => rw [← hcut]
      rw [List.idxOf_append_of_notMem fun h => hdis u h hu, hlen]
    refine ⟨by rw [List.flatten_cons, i1, hcut], fun g hg => ?_⟩
    rcases List.mem_cons.1 hg with rfl | hg
    · refine ⟨fun h0 => he ?_, 0, fun u hu => ⟨⟨fun h => Nat.div_eq_of_lt (hin u h).2, fun h => ?_⟩, fun h => ?_⟩⟩
      · rw [List.take_eq_nil_iff] at h0
        exact h0.resolve_left (Nat.ne_of_gt hn)
      · rw [← hcut] at hu
        refine (List.mem_append.1 hu).resolve_right fun hd => ?_
        rw [hout u hd, Nat.add_div_left _ hn] at h
        exact absurd h (Nat.succ_ne_zero _)
      · rw [(hin u h).1, Nat.mod_eq_of_lt ((hin u h).1 ▸ (hin u h).2)]
    · obtain ⟨h1, c, h2⟩ := i2 g hg
      have hsub : ∀ u ∈ g, u ∈ l.drop n := fun u hu => by
        rw [← i1]
        exact List.mem_flatten.2 ⟨g, hg, hu⟩
      refine ⟨h1, c + 1, fun u hu => ⟨⟨fun h => ?_, fun h => ?_⟩, fun h => ?_⟩⟩
      · rw [hout u (hsub u h), Nat.add_div_left _ hn, (h2 u (hsub u h)).1.1 h]
      · rw [← hcut] at hu
        rcases List.mem_append.1 hu with ht | hd
        · rw [Nat.div_eq_of_lt (hin u ht).2] at h
          exact absurd h.symm (Nat.succ_ne_zero _)
        · rw [hout u hd, Nat.add_div_left _ hn] at h
          exact (h2 u hd).1.2 (Nat.succ.inj h)
      · rw [hout u (hsub u h), Nat.add_mod_left]
        exact (h2 u (hsub u h)).2 h

/-- How many slots of the same key a slot has before it. -/
def placeIn (l : List (Nat × Nat)) (e : Nat × Nat) : Nat := l.countP fun f => f.2 == e.2 && decide (f.1 < e.1)
/-- New sheaves of Z threads: each is a run of one key's slots in ascending order (R251). -/
structure Planned (z : Nat) (l : List (Nat × Nat)) (gs : List (List Nat)) : Prop where
  apart : gs.flatten.Nodup
  mem : ∀ t, t ∈ gs.flatten ↔ t ∈ l.map (·.1)
  some1 : ∀ g ∈ gs, g ≠ []
  run : ∀ g ∈ gs, ∃ k c, ∀ e ∈ l, (e.1 ∈ g ↔ e.2 = k ∧ placeIn l e / z = c) ∧ (e.1 ∈ g → g.idxOf e.1 = placeIn l e % z)
theorem eraseDups_nodup (l : List Nat) : l.eraseDups.Nodup := by
  induction h : l.length using Nat.strong_induction_on generalizing l with
  | _ n ih =>
    cases l with
    | nil => exact List.nodup_nil
    | cons a l =>
      rw [List.eraseDups_cons]
      have hlt : (l.filter fun b => !b == a).length < n := by
        rw [← h]
        exact Nat.lt_succ_of_le (List.length_filter_le ..)
      refine List.nodup_cons.2 ⟨fun hm => ?_, ih _ hlt _ rfl⟩
      have := (List.mem_filter.1 (List.mem_eraseDups.1 hm)).2
      simp at this
/-- The slots of a key, in ascending order. -/
def keySlots (l : List (Nat × Nat)) (k : Nat) : List Nat := ((l.filter fun e => e.2 == k).map (·.1)).mergeSort (· ≤ ·)
theorem mem_keySlots {l : List (Nat × Nat)} {k t : Nat} : t ∈ keySlots l k ↔ (t, k) ∈ l := by
  unfold keySlots
  rw [List.mem_mergeSort, List.mem_map]
  constructor
  · rintro ⟨⟨u, j⟩, he, rfl⟩
    obtain ⟨hm, hk⟩ := List.mem_filter.1 he
    rwa [← eq_of_beq hk]
  · exact fun h => ⟨_, List.mem_filter.2 ⟨h, beq_self_eq_true k⟩, rfl⟩
section
variable {l : List (Nat × Nat)} (hl : (l.map (·.1)).Nodup)
include hl
theorem key_unique {t j k : Nat} (hj : (t, j) ∈ l) (hk : (t, k) ∈ l) : j = k :=
  congrArg Prod.snd (List.inj_on_of_nodup_map hl hj hk rfl)
theorem keySlots_nodup (k : Nat) : (keySlots l k).Nodup :=
  (List.mergeSort_perm ..).nodup_iff.2 (hl.sublist (List.filter_sublist.map _))
theorem keySlots_idxOf {e : Nat × Nat} (he : e ∈ l) : (keySlots l e.2).idxOf e.1 = placeIn l e := by
  have hn : ((l.filter fun f => f.2 == e.2).map (·.1)).Nodup := hl.sublist (List.filter_sublist.map _)
  unfold keySlots placeIn
  rw [idxOf_mergeSort hn (List.mem_map.2 ⟨e, List.mem_filter.2 ⟨he, beq_self_eq_true _⟩, rfl⟩), List.filter_map, List.length_map, List.filter_filter,
    ← List.countP_eq_length_filter]
  exact List.countP_congr fun f _ => by simp [and_comm]
theorem regroupPlan_planned {z : Nat} (h256 : ∀ e ∈ l, e.1 < 256) (hz : 0 < z) : Planned z l (regroupPlan z l) := by
  have hmz : max 1 z = z := by omega
  have hlen : ∀ k, (keySlots l k).length ≤ 256 := fun k => by
    have h1 := (List.subperm_of_subset (keySlots_nodup hl k) (l₂ := List.range 256) fun t ht => List.mem_range.2 (h256 _ (mem_keySlots.1 ht))).length_le
    rwa [List.length_range] at h1
  have hr := fun k => chunksOf_runs hz (keySlots_nodup hl k) (hlen k)
  have hkeys : ∀ k, k ∈ ((l.map (·.2)).eraseDups).mergeSort (· ≤ ·) ↔ k ∈ l.map (·.2) := fun k => by rw [List.mem_mergeSort, List.mem_eraseDups]
  have hplan : regroupPlan z l = (((l.map (·.2)).eraseDups).mergeSort (· ≤ ·)).flatMap fun k => chunksOf z 256 (keySlots l k) := by
    unfold regroupPlan
    rw [hmz]
    rfl
  have hflat : (regroupPlan z l).flatten = (((l.map (·.2)).eraseDups).mergeSort (· ≤ ·)).flatMap (keySlots l) := by
    rw [hplan, List.flatMap_def, List.flatMap_def, List.flatten_flatten, List.map_map]
    exact congrArg List.flatten (List.map_congr_left fun k _ => (hr k).1)
  have hmem : ∀ g ∈ regroupPlan z l, ∃ k, g ∈ chunksOf z 256 (keySlots l k) := fun g hg => by
    rw [hplan] at hg
    obtain ⟨k, -, hk⟩ := List.mem_flatMap.1 hg
    exact ⟨k, hk⟩
  refine ⟨?_, fun t => ?_, fun g hg => ?_, fun g hg => ?_⟩
  · rw [hflat]
    refine List.nodup_flatMap.2 ⟨fun k _ => keySlots_nodup hl k, ?_⟩
    refine List.Nodup.pairwise_of_forall_ne ((List.mergeSort_perm ..).nodup_iff.2 (eraseDups_nodup _)) fun j _ k _ hjk t hj hk => ?_
    exact hjk (key_unique hl (mem_keySlots.1 hj) (mem_keySlots.1 hk))
  · rw [hflat, List.mem_flatMap, List.mem_map]
    constructor
    · rintro ⟨k, -, hk⟩
      exact ⟨_, mem_keySlots.1 hk, rfl⟩
    · rintro ⟨e, he, rfl⟩
      exact ⟨e.2, (hkeys _).2 (List.mem_map_of_mem he), mem_keySlots.2 he⟩
  · obtain ⟨k, hk⟩ := hmem g hg
    exact ((hr k).2 g hk).1
  · obtain ⟨k, hk⟩ := hmem g hg
    obtain ⟨-, c, hc⟩ := (hr k).2 g hk
    have hsub : ∀ t ∈ g, t ∈ keySlots l k := fun t ht => by
      rw [← (hr k).1]
      exact List.mem_flatten.2 ⟨g, hk, ht⟩
    refine ⟨k, c, fun e he => ⟨⟨fun h => ?_, fun h => ?_⟩, fun h => ?_⟩⟩
    · obtain rfl : e.2 = k := key_unique hl he (mem_keySlots.1 (hsub _ h))
      exact ⟨rfl, by rw [← keySlots_idxOf hl he]; exact (hc e.1 (hsub _ h)).1.1 h⟩
    · obtain ⟨rfl, h⟩ := h
      rw [← keySlots_idxOf hl he] at h
      exact (hc e.1 (mem_keySlots.2 he)).1.2 h
    · obtain rfl : e.2 = k := key_unique hl he (mem_keySlots.1 (hsub _ h))
      rw [← keySlots_idxOf hl he]
      exact (hc e.1 (hsub _ h)).2 h
end
end Sys2Proof.Machine

/-! ### The new slots of a `regroup` (R21, R163) -/
namespace Sys2Proof.Machine
open Sys2Proof

/-- The slot of a sheaf's rank on its tines. -/
def slotAt (l : List Nat) (i : Nat) : Nat := l.getD (i / 4) 0 * 4 + i % 4
/-- A new sheaf's threads with their new slots, in rank order. -/
def seatsOf (g l : List Nat) : List (Nat × Nat) := g.zipIdx.map fun e => (e.1, slotAt l e.2)
/-- The new slots of new sheaves: each has one issue slot and free tines, and no two share one. -/
structure Seats (parts : List Nat) (c : Core) (dest : List (List (Nat × Nat))) : Prop where
  some1 : ∀ d ∈ dest, d ≠ []
  inj : ∀ d ∈ dest, (d.map (·.2)).Nodup
  slot : ∀ d ∈ dest, ∃ q, ∀ x ∈ d, slotOf x.2 = q
  free : ∀ d ∈ dest, ∀ x ∈ d, x.2 ∈ parts ∨ tget c.threads x.2 = none
  apart : dest.Pairwise fun x y => ∀ a ∈ x, ∀ b ∈ y, a.2 / 4 ≠ b.2 / 4
theorem freeTines_free {c : Core} {pl ro : Nat} {parts taken : List Nat} (k : Nat) : (freeTines c pl ro parts taken k).Nodup ∧ ∀ j ∈ freeTines c pl ro parts taken k,
    j ∉ taken ∧ j / 16 = k ∧ ∀ i, i < 4 → j * 4 + i ∈ parts ∨ tget c.threads (j * 4 + i) = none := by
  refine ⟨List.Nodup.filter _ (List.Nodup.map (fun a b h => by omega) List.nodup_range), fun j hj => ?_⟩
  obtain ⟨hm, hj⟩ := List.mem_filter.1 hj
  obtain ⟨hn, ha⟩ := Bool.and_eq_true_iff.1 hj
  obtain ⟨i, hi, rfl⟩ := List.mem_map.1 hm
  have hi := List.mem_range.1 hi
  refine ⟨by simpa using hn, by omega, fun i hi => ?_⟩
  have h1 := (Bool.and_eq_true_iff.1 (Bool.and_eq_true_iff.1 (List.all_eq_true.1 ha i (List.mem_range.2 hi))).1).1
  rw [Bool.or_eq_true] at h1
  exact h1.imp List.contains_iff_mem.1 Option.isNone_iff_eq_none.1
theorem seatsOf_fst (g l : List Nat) : (seatsOf g l).map (·.1) = g := by
  unfold seatsOf
  rw [List.map_map]
  exact List.zipIdx_map_fst 0 g
theorem seatsOf_snd (g l : List Nat) : (seatsOf g l).map (·.2) = (List.range g.length).map (slotAt l) := by
  unfold seatsOf
  rw [List.map_map, List.range_eq_range', ← List.zipIdx_map_snd 0 g, List.map_map]
  rfl
theorem slotAt_tine {l : List Nat} {i n : Nat} (hi : i < n) (hl : (n + 3) / 4 = l.length) : ∃ h : i / 4 < l.length, slotAt l i = l[i / 4] * 4 + i % 4 := by
  have h : i / 4 < l.length := by omega
  refine ⟨h, ?_⟩
  unfold slotAt
  rw [List.getD_eq_getElem _ _ h]
theorem seatsOf_mem {g l : List Nat} (hl : (g.length + 3) / 4 = l.length) {x : Nat × Nat} (hx : x ∈ seatsOf g l) : ∃ j ∈ l, ∃ i, i < 4 ∧ x.2 = j * 4 + i := by
  have h2 : x.2 ∈ (seatsOf g l).map (·.2) := List.mem_map_of_mem hx
  rw [seatsOf_snd] at h2
  obtain ⟨i, hi, he⟩ := List.mem_map.1 h2
  obtain ⟨h, hs⟩ := slotAt_tine (List.mem_range.1 hi) hl
  exact ⟨_, List.getElem_mem h, i % 4, Nat.mod_lt _ (by decide), he ▸ hs⟩
theorem seatsOf_nodup {g l : List Nat} (hl : (g.length + 3) / 4 = l.length) (hn : l.Nodup) : ((seatsOf g l).map (·.2)).Nodup := by
  rw [seatsOf_snd]
  refine List.Nodup.map_on (fun i hi j hj he => ?_) List.nodup_range
  obtain ⟨h1, h2⟩ := slotAt_tine (List.mem_range.1 hi) hl
  obtain ⟨h3, h4⟩ := slotAt_tine (List.mem_range.1 hj) hl
  rw [h2, h4] at he
  have hij : i / 4 = j / 4 := (hn.getElem_inj_iff (hi := h1) (hj := h3)).1 (by omega)
  omega
theorem newTids_cons (g l : List Nat) (gs ls : List (List Nat)) : newTids (g :: gs) (l :: ls) = seatsOf g l :: newTids gs ls := rfl
/-- Placed sheaves have seats. -/
theorem placeAll_seats {c : Core} {pl ro : Nat} {parts : List Nat} {gs : List (List Nat)} (hg : ∀ g ∈ gs, g ≠ []) {taken : List Nat} {tines : List (List Nat)}
    (h : placeAll (freeTines c pl ro parts) (gs.map (·.length)) taken = some tines) : Seats parts c (newTids gs tines) ∧
      (newTids gs tines).map (fun d => d.map (·.1)) = gs ∧ ∀ d ∈ newTids gs tines, ∀ x ∈ d, x.2 / 4 ∉ taken := by
  induction gs generalizing taken tines with
  | nil =>
    obtain rfl := Option.some.inj h
    exact ⟨⟨fun _ h => absurd h List.not_mem_nil, fun _ h => absurd h List.not_mem_nil, fun _ h => absurd h List.not_mem_nil, fun _ h => absurd h List.not_mem_nil, .nil⟩,
      rfl, fun _ h => absurd h List.not_mem_nil⟩
  | cons g gs ih =>
    rw [List.map_cons] at h
    unfold placeAll at h
    split at h
    · exact absurd h (by simp)
    · next l hl =>
      obtain ⟨rest, hrest, rfl⟩ := Option.map_eq_some_iff.1 h
      obtain ⟨k, hk, hle⟩ := placeSheaf_take hl
      obtain ⟨i1, i2, i3⟩ := ih (fun x hx => hg x (List.mem_cons_of_mem _ hx)) hrest
      obtain ⟨f1, f2⟩ := freeTines_free (c := c) (pl := pl) (ro := ro) (parts := parts) (taken := taken) k
      have hlen : (g.length + 3) / 4 = l.length := by rw [hk, List.length_take, Nat.min_eq_left hle]
      have hln : l.Nodup := hk ▸ f1.sublist (List.take_sublist ..)
      have hlf : ∀ j ∈ l, j ∉ taken ∧ j / 16 = k ∧ ∀ i, i < 4 → j * 4 + i ∈ parts ∨ tget c.threads (j * 4 + i) = none := fun j hj => f2 j (by
        rw [hk] at hj
        exact List.mem_of_mem_take hj)
      have htine : ∀ x ∈ seatsOf g l, x.2 / 4 ∈ l := fun x hx => by
        obtain ⟨j, hj, i, hi, he⟩ := seatsOf_mem hlen hx
        rwa [he, show (j * 4 + i) / 4 = j from by omega]
      rw [newTids_cons]
      refine ⟨⟨?_, ?_, ?_, ?_, List.pairwise_cons.2 ⟨fun d hd a ha b hb hab => ?_, i1.apart⟩⟩, by rw [List.map_cons, seatsOf_fst, i2], ?_⟩
      · refine List.forall_mem_cons.2 ⟨fun h0 => hg g List.mem_cons_self ?_, i1.some1⟩
        rw [← seatsOf_fst g l, h0]
        rfl
      · exact List.forall_mem_cons.2 ⟨seatsOf_nodup hlen hln, i1.inj⟩
      · refine List.forall_mem_cons.2 ⟨⟨k, fun x hx => ?_⟩, i1.slot⟩
        obtain ⟨j, hj, i, hi, he⟩ := seatsOf_mem hlen hx
        have := (hlf j hj).2.1
        rw [he]
        unfold slotOf
        omega
      · refine List.forall_mem_cons.2 ⟨fun x hx => ?_, i1.free⟩
        obtain ⟨j, hj, i, hi, he⟩ := seatsOf_mem hlen hx
        rw [he]
        exact (hlf j hj).2.2 i hi
      · exact i3 d hd b hb (List.mem_append_right _ (hab ▸ htine a ha))
      · refine List.forall_mem_cons.2 ⟨fun x hx => ?_, fun d hd x hx hin => i3 d hd x hx (List.mem_append_left _ hin)⟩
        exact (hlf _ (htine x hx)).1

/-! ### What seats say of their slots -/

/-- The issue slot of a new sheaf. -/
def slotOfSeats (d : List (Nat × Nat)) : Nat := slotOf ((d.map (·.2)).headD 0)
section
variable {parts : List Nat} {c : Core} {dest : List (List (Nat × Nat))} (h : Seats parts c dest)
include h
/-- No two threads get the same slot. -/
theorem Seats.nodup : (dest.flatten.map (·.2)).Nodup := by
  rw [List.map_flatten]
  refine List.nodup_flatten.2 ⟨fun l hl => ?_, List.pairwise_map.2 (h.apart.imp fun {x y} hxy => ?_)⟩
  · obtain ⟨d, hd, rfl⟩ := List.mem_map.1 hl
    exact h.inj d hd
  · intro t hx hy
    obtain ⟨a, ha, rfl⟩ := List.mem_map.1 hx
    obtain ⟨b, hb, he⟩ := List.mem_map.1 hy
    exact hxy a ha b hb (by rw [← he])
/-- An issue slot has at most 16 sheaves, for it has 16 tines. -/
theorem Seats.slot_le (q : Nat) : dest.countP (fun d => slotOfSeats d == q) ≤ 16 := by
  have hhead : ∀ d ∈ dest, ∃ x ∈ d, (d.map (·.2)).headD 0 = x.2 := fun d hd => by
    cases d with
    | nil => exact absurd rfl (h.some1 _ hd)
    | cons x d => exact ⟨x, List.mem_cons_self, rfl⟩
  have hn : ((dest.filter fun d => slotOfSeats d == q).map fun d => (d.map (·.2)).headD 0 / 4).Nodup := by
    refine List.pairwise_map.2 (((h.apart.imp_of_mem fun {x y} hx hy hxy => ?_) : dest.Pairwise fun x y => (x.map (·.2)).headD 0 / 4 ≠ (y.map (·.2)).headD 0 / 4).filter _)
    obtain ⟨a, ha, hae⟩ := hhead x hx
    obtain ⟨b, hb, hbe⟩ := hhead y hy
    rw [hae, hbe]
    exact hxy a ha b hb
  have hsub : ∀ t ∈ (dest.filter fun d => slotOfSeats d == q).map (fun d => (d.map (·.2)).headD 0 / 4), t ∈ List.range' (16 * q) 16 := fun t ht => by
    obtain ⟨d, hd, rfl⟩ := List.mem_map.1 ht
    have hq := eq_of_beq (List.mem_filter.1 hd).2
    unfold slotOfSeats slotOf at hq
    rw [List.mem_range'_1]
    omega
  have := (List.subperm_of_subset hn hsub).length_le
  rwa [List.length_map, List.length_range', ← List.countP_eq_length_filter] at this
end
end Sys2Proof.Machine

/-! ### The new sheaves begin (R19, R163) -/
namespace Sys2Proof.Machine
open Sys2Proof

theorem tkeys_tput_length {α : Type} (t : Tbl α) (k : Nat) (v : α) (p : Nat → Bool) : ((tkeys (tput t k v)).filter p).length ≤ ((tkeys t).filter p).length + if p k then 1 else 0 := by
  induction t with
  | nil =>
    show ([k].filter p).length ≤ 0 + _
    by_cases hp : p k <;> simp [hp]
  | cons e t ih =>
    obtain ⟨j, w⟩ := e
    unfold tput
    split
    · next hj =>
      subst hj
      exact Nat.le_add_right _ _
    · split
      · show ((k :: j :: tkeys t).filter p).length ≤ ((j :: tkeys t).filter p).length + _
        rw [List.filter_cons]
        split
        · exact le_of_eq (List.length_cons)
        · exact Nat.le_add_right _ _
      · show ((j :: tkeys (tput t k v)).filter p).length ≤ ((j :: tkeys t).filter p).length + _
        rw [List.filter_cons, List.filter_cons]
        split
        · rw [List.length_cons, List.length_cons]
          omega
        · exact ih
theorem mem_tkeys {α : Type} {t : Tbl α} {k : Nat} : k ∈ tkeys t ↔ (tget t k).isSome = true := by
  constructor
  · intro h
    obtain ⟨e, he, rfl⟩ := List.mem_map.1 h
    exact mem_tget _ _ he
  · intro h
    obtain ⟨v, hv⟩ := Option.isSome_iff_exists.1 h
    exact List.mem_map_of_mem (f := (·.1)) (tget_mem _ _ _ hv)
/-- A sheaf table that is not full has a new entry that is free (R19). -/
theorem newEntry_free {c : Core} {q : Nat} (h : (slotSheaves c q).length < 64) : (newEntry c q).1 ∉ tkeys c.sheaves ∧ (newEntry c q).1 / 64 = q := by
  have hsome : ∃ e, lowestFree 64 ((slotSheaves c q).map (· % 64)) = some e := by
    refine Option.isSome_iff_exists.1 (Option.isSome_iff_ne_none.2 fun h0 => ?_)
    have hall := List.find?_eq_none.1 h0
    have hle := (List.subperm_of_subset List.nodup_range (l₂ := (slotSheaves c q).map (· % 64)) fun i hi => by
      have := hall i hi
      simpa using this).length_le
    rw [List.length_range, List.length_map] at hle
    omega
  obtain ⟨e, he⟩ := hsome
  have hlt : e < 64 := List.mem_range.1 (List.mem_of_find?_eq_some he)
  have hfree := List.find?_some he
  have hk : (newEntry c q).1 = q * 64 + e := by
    unfold newEntry
    rw [he]
    rfl
  rw [hk]
  refine ⟨fun hm => ?_, by omega⟩
  have hmem : q * 64 + e ∈ slotSheaves c q := List.mem_filter.2 ⟨hm, by rw [show (q * 64 + e) / 64 = q from by omega]; exact beq_self_eq_true q⟩
  have hin : e ∈ (slotSheaves c q).map (· % 64) := List.mem_map.2 ⟨_, hmem, by omega⟩
  simp [hin] at hfree
/-- Threads of one issue slot begin a sheaf with a new entry. -/
theorem makeSheaf_enters {s : State} {ci p r : Nat} {l : List Nat} (hl : l ≠ []) : ∃ tag sh, let k := (newEntry (getCore s ci) (slotOf (l.headD 0))).1
    (∀ t, getThread (makeSheaf s ci p r l) ci t = (getThread s ci t).map (joined l k tag t)) ∧ (getCore (makeSheaf s ci p r l) ci).sheaves = tput (getCore s ci).sheaves k sh := by
  cases l with
  | nil => exact absurd rfl hl
  | cons t0 l =>
    refine ⟨if (t0 :: l).length = 1 then .uniform else .general, { gen := (newEntry (getCore s ci) (slotOf t0)).2, plot := p, role := r }, fun t => ?_, ?_⟩
    · unfold makeSheaf getThread
      dsimp only
      rw [getCore_putCore_self, tget_tmap]
      refine congrArg (fun g => Option.map g (tget (getCore s ci).threads t)) (funext fun th => ?_)
      unfold joined
      rw [findIdx?_beq]
      by_cases h : t ∈ t0 :: l
      · rw [if_pos h, if_pos h]
        rfl
      · rw [if_neg h, if_neg h]
    · unfold makeSheaf
      dsimp only
      rw [getCore_putCore_self]
      rfl

/-! ### One new sheaf of a `regroup` -/

/-- A thread as it waits to be moved, its registers with the tags that they take in the new sheaf. -/
def waitingMove (mem : List (Nat × Thread)) (n m d : Nat) (th : Thread) : Thread :=
  { th with regs := (tmap th.regs fun r x => { x with tag := movedTag mem r, uni := decide (movedTag mem r ≠ Tag.general) && decide (n > 1) }),
            prog := 0, longOp := none, moving := some (m, d), st := .waiting .moving }
/-- A fallow register's word moves with its thread. -/
def moveWord (b k t : Nat) (s : State) (e : Nat × RegCell) : State :=
  if e.2.st ≠ .fallow then s
  else if e.2.uni then fallowPut (fallowPut s (b + 2 ^ 16 + k * 512 + e.1 * 8) e.2.val) (b + 2 ^ 16 + k * 512 + e.1 * 8 + 4) 0
  else fallowPut s (b + t * 256 + e.1 * 4) e.2.val
def moveThread (b k : Nat) (c : Core) (s : State) (t : Nat) : State :=
  match tget c.threads t with
  | none => s
  | some th => th.regs.foldl (moveWord b k t) s
def moveWords (c : Core) (s : State) (k : Nat) (tids : List Nat) : State :=
  match fallowBase c with
  | none => s
  | some b => tids.foldl (moveThread b k c) s
/-- The threads of one new sheaf. -/
def moveMembers (moved : List (Nat × Thread)) (g : List (Nat × Nat)) : List (Nat × Thread) := g.filterMap fun e => (tget moved e.2).map fun th => (e.2, th)
/-- One new sheaf begins. -/
def regroupStep (ci plot role : Nat) (moved : List (Nat × Thread)) (m d : Nat) (s : State) (g : List (Nat × Nat)) : State :=
  let tids := g.map (·.2)
  let s1 := makeSheaf s ci plot role tids
  let c := getCore s1 ci
  let k := ((tids.head?.bind fun t => tget c.threads t).bind (·.sheaf)).getD 0
  let c := { c with threads := tmap c.threads fun t th => if tids.contains t then waitingMove (moveMembers moved g) tids.length m d th else th }
  moveWords c (putCore s1 ci c) k tids
/-- A thread as a member of rank r of its new sheaf, before it is moved. -/
structure Seated (m d r : Nat) (old new : Thread) : Prop where
  rank : new.rank = r
  st : new.st = .waiting .moving
  moving : new.moving = some (m, d)
  prog : new.prog = 0
  nextPc : new.nextPc = old.nextPc
  preds : new.preds = old.preds
  age : new.age = old.age
  mode : new.mode = old.mode
  stepping : new.stepping = old.stepping
  val : ∀ q, (tget new.regs q).map (·.val) = (tget old.regs q).map (·.val)
/-- From σ to σ' the threads in the slots of these new sheaves become their members, with entries of the sheaf table that were free. -/
structure Fills (ci m d : Nat) (l : List (List (Nat × Nat))) (s s' : State) : Prop where
  tame : Tame ci s s'
  other : ∀ t, t ∉ l.flatten.map (·.2) → getThread s' ci t = getThread s ci t
  seated : ∀ g ∈ l, ∀ x ∈ g, ∀ th, getThread s ci x.2 = some th → ∃ new, getThread s' ci x.2 = some new ∧ Seated m d ((g.map (·.2)).idxOf x.2) th new
  fresh : ∀ x ∈ l.flatten, ∀ new, getThread s' ci x.2 = some new → ∃ k, new.sheaf = some k ∧ k ∉ tkeys (getCore s ci).sheaves
  same : ∀ x ∈ l.flatten, ∀ y ∈ l.flatten, ∀ a b, getThread s' ci x.2 = some a → getThread s' ci y.2 = some b → (a.sheaf = b.sheaf ↔ ∃ g ∈ l, x ∈ g ∧ y ∈ g)

section
variable {s : State} {ci plot role m d : Nat} {moved : List (Nat × Thread)}

/-- From s to s' the core is the same. -/
structure CoreSame (ci : Nat) (s s' : State) : Prop where
  core : getCore s' ci = getCore s ci
  tame : Tame ci s s'
theorem CoreSame.refl (ci : Nat) (s : State) : CoreSame ci s s := ⟨rfl, .refl ..⟩
theorem CoreSame.trans {a b c : State} (h : CoreSame ci a b) (k : CoreSame ci b c) : CoreSame ci a c := ⟨k.core.trans h.core, h.tame.trans k.tame⟩
theorem CoreSame.foldl {α : Type} {f : State → α → State} (h : ∀ s x, CoreSame ci s (f s x)) (l : List α) (s : State) : CoreSame ci s (l.foldl f s) := by
  induction l generalizing s with
  | nil => exact .refl ..
  | cons x l ih => exact (h s x).trans (ih _)
theorem CoreSame.fallowPut (a : Nat) (w : Word) : CoreSame ci s (Machine.fallowPut s a w) := ⟨getCore_fallowPut .., fallowPut_tame ..⟩
theorem moveWord_core (b k t : Nat) (s : State) (e : Nat × RegCell) : CoreSame ci s (moveWord b k t s e) := by
  unfold moveWord
  split
  · exact .refl ..
  · split
    · exact (CoreSame.fallowPut ..).trans (.fallowPut ..)
    · exact .fallowPut ..
theorem moveThread_core (b k : Nat) (c : Core) (s : State) (t : Nat) : CoreSame ci s (moveThread b k c s t) := by
  unfold moveThread
  split
  · exact .refl ..
  · exact .foldl (moveWord_core b k t) _ s
theorem moveWords_core (c : Core) (k : Nat) (tids : List Nat) : CoreSame ci s (moveWords c s k tids) := by
  unfold moveWords
  split
  · exact .refl ..
  · next b _ => exact .foldl (moveThread_core b k _) tids s

/-- What one new sheaf's begin does of the core. -/
theorem regroupStep_core {g : List (Nat × Nat)} (hg : g ≠ []) : ∃ tag sh, let k := (newEntry (getCore s ci) (slotOfSeats g)).1
    Tame ci s (regroupStep ci plot role moved m d s g) ∧ (getCore (regroupStep ci plot role moved m d s g) ci).sheaves = tput (getCore s ci).sheaves k sh ∧
    ∀ t, getThread (regroupStep ci plot role moved m d s g) ci t = (getThread s ci t).map fun th =>
      if t ∈ g.map (·.2) then waitingMove (moveMembers moved g) (g.map (·.2)).length m d (sheafed k ((g.map (·.2)).idxOf t) tag th) else th := by
  have hl : g.map (·.2) ≠ [] := mt List.map_eq_nil_iff.1 hg
  obtain ⟨tag, sh, h1, h2⟩ := makeSheaf_enters (s := s) (ci := ci) (p := plot) (r := role) hl
  have ht := makeSheaf_tame s ci plot role (g.map (·.2))
  refine ⟨tag, sh, ?_⟩
  unfold regroupStep
  extract_lets k tids s1 c k1 c2
  obtain ⟨w1, w2⟩ := moveWords_core (ci := ci) (s := putCore s1 ci c2) c2 k1 tids
  refine ⟨?_, ?_, fun t => ?_⟩
  · have hT : Tame ci s1 (putCore s1 ci c2) := by
      refine .tmap (f := fun t th => if tids.contains t then waitingMove (moveMembers moved g) tids.length m d th else th) rfl rfl fun t th h => ?_
      split <;> exact h
    exact (ht.trans hT).trans w2
  · rw [w1, getCore_putCore_self]
    exact h2
  · rw [getThread, w1, getCore_putCore_self, tget_tmap]
    rw [show tget c.threads t = _ from h1 t, Option.map_map]
    refine congrArg (fun f => Option.map f (getThread s ci t)) (funext fun th => ?_)
    unfold joined
    simp only [Function.comp, List.contains_iff_mem]
    by_cases h : t ∈ g.map (·.2)
    · rw [if_pos h, if_pos h, if_pos h]
      rfl
    · rw [if_neg h, if_neg h, if_neg h]
theorem waitingMove_val {mem : List (Nat × Thread)} {n q : Nat} {th : Thread} : (tget (waitingMove mem n m d th).regs q).map (·.val) = (tget th.regs q).map (·.val) := by
  unfold waitingMove
  dsimp only
  rw [tget_tmap, Option.map_map]
  rfl
theorem seated_sheafed {mem : List (Nat × Thread)} {n k r : Nat} {tag : Tag} {th : Thread} : Seated m d r th (waitingMove mem n m d (sheafed k r tag th)) :=
  ⟨rfl, rfl, rfl, rfl, rfl, rfl, rfl, rfl, rfl, fun _ => waitingMove_val.trans (sheafed_val ..)⟩
end
end Sys2Proof.Machine

/-! ### All new sheaves of a `regroup` begin, with entries apart (R19, R163) -/
namespace Sys2Proof.Machine
open Sys2Proof

section
variable {s : State} {ci plot role m d : Nat} {moved : List (Nat × Thread)}

/-- Entries of the sheaf table stay, and an issue slot gets at most the one new. -/
theorem regroupStep_entries {g : List (Nat × Nat)} (hg : g ≠ []) : let k := (newEntry (getCore s ci) (slotOfSeats g)).1
    let c := getCore (regroupStep ci plot role moved m d s g) ci
    k ∈ tkeys c.sheaves ∧ (∀ j ∈ tkeys (getCore s ci).sheaves, j ∈ tkeys c.sheaves) ∧
      ∀ q, (slotSheaves c q).length ≤ (slotSheaves (getCore s ci) q).length + if k / 64 == q then 1 else 0 := by
  obtain ⟨tag, sh, -, hsh, -⟩ := regroupStep_core (s := s) (ci := ci) (plot := plot) (role := role) (m := m) (d := d) (moved := moved) hg
  unfold slotSheaves
  dsimp only
  rw [hsh]
  refine ⟨mem_tkeys.2 (by rw [tget_tput_self]; rfl), fun j hj => mem_tkeys.2 ?_, fun q => tkeys_tput_length ..⟩
  rw [tget_tput]
  split
  · rfl
  · exact mem_tkeys.1 hj
/-- What one new sheaf's begin does of the threads. -/
theorem regroupStep_threads {g : List (Nat × Nat)} (hg : g ≠ []) : let k := (newEntry (getCore s ci) (slotOfSeats g)).1
    let s1 := regroupStep ci plot role moved m d s g
    (∀ t, t ∉ g.map (·.2) → getThread s1 ci t = getThread s ci t) ∧
    (∀ x ∈ g, ∀ th, getThread s ci x.2 = some th → ∃ new, getThread s1 ci x.2 = some new ∧ Seated m d ((g.map (·.2)).idxOf x.2) th new) ∧
    ∀ x ∈ g, ∀ new, getThread s1 ci x.2 = some new → new.sheaf = some k := by
  obtain ⟨tag, sh, -, -, hth⟩ := regroupStep_core (s := s) (ci := ci) (plot := plot) (role := role) (m := m) (d := d) (moved := moved) hg
  have hmem : ∀ x ∈ g, x.2 ∈ g.map (·.2) := fun x hx => List.mem_map_of_mem hx
  refine ⟨fun t ht => ?_, fun x hx th h => ?_, fun x hx new h => ?_⟩
  · rw [hth]
    simp only [if_neg ht]
    exact Option.map_id' ..
  · rw [hth, h, Option.map_some, if_pos (hmem x hx)]
    exact ⟨_, rfl, seated_sheafed⟩
  · rw [hth] at h
    obtain ⟨a, -, rfl⟩ := Option.map_eq_some_iff.1 h
    rw [if_pos (hmem x hx)]
    rfl
theorem regroupSteps_fill {l : List (List (Nat × Nat))} (hne : ∀ g ∈ l, g ≠ []) (hap : l.Pairwise fun x y => ∀ a ∈ x, ∀ b ∈ y, a.2 ≠ b.2)
    (hcnt : ∀ q, (slotSheaves (getCore s ci) q).length + l.countP (fun g => slotOfSeats g == q) ≤ 64) :
    Fills ci m d l s (l.foldl (regroupStep ci plot role moved m d) s) := by
  induction l generalizing s with
  | nil => exact ⟨.refl .., fun _ _ => rfl, fun _ h => absurd h List.not_mem_nil, fun _ h => absurd h List.not_mem_nil, fun _ h => absurd h List.not_mem_nil⟩
  | cons g l ih =>
    have hg : g ≠ [] := hne g List.mem_cons_self
    obtain ⟨hgl, hap⟩ := List.pairwise_cons.1 hap
    obtain ⟨tag, sh, htame, -, -⟩ := regroupStep_core (s := s) (ci := ci) (plot := plot) (role := role) (m := m) (d := d) (moved := moved) hg
    obtain ⟨e1, e2, e3⟩ := regroupStep_entries (s := s) (ci := ci) (plot := plot) (role := role) (m := m) (d := d) (moved := moved) hg
    obtain ⟨t1, t2, t3⟩ := regroupStep_threads (s := s) (ci := ci) (plot := plot) (role := role) (m := m) (d := d) (moved := moved) hg
    have hlt : (slotSheaves (getCore s ci) (slotOfSeats g)).length < 64 := by
      have h := hcnt (slotOfSeats g)
      rw [List.countP_cons, if_pos (beq_self_eq_true _)] at h
      omega
    obtain ⟨f1, f2⟩ := newEntry_free hlt
    generalize (newEntry (getCore s ci) (slotOfSeats g)).1 = k at e1 e3 t3 f1 f2
    rw [List.foldl_cons]
    have hi := ih (s := regroupStep ci plot role moved m d s g) (fun x hx => hne x (List.mem_cons_of_mem _ hx)) hap fun q => by
      have h1 := hcnt q
      have h2 := e3 q
      rw [f2] at h2
      rw [List.countP_cons] at h1
      omega
    generalize regroupStep ci plot role moved m d s g = s1 at htame e1 e2 e3 t1 t2 t3 hi
    generalize l.foldl (regroupStep ci plot role moved m d) s1 = s2 at hi
    have hout : ∀ x ∈ g, getThread s2 ci x.2 = getThread s1 ci x.2 := fun x hx => hi.other x.2 fun hm => by
      obtain ⟨y, hy, he⟩ := List.mem_map.1 hm
      obtain ⟨g', hg', hy⟩ := List.mem_flatten.1 hy
      exact hgl g' hg' x hx y hy he.symm
    have hkeep : ∀ x ∈ l.flatten, getThread s1 ci x.2 = getThread s ci x.2 := fun x hx => t1 x.2 fun hm => by
      obtain ⟨y, hy, he⟩ := List.mem_map.1 hm
      obtain ⟨g', hg', hx⟩ := List.mem_flatten.1 hx
      exact hgl g' hg' y hy x hx he
    have hnew : ∀ x ∈ g, ∀ new, getThread s2 ci x.2 = some new → new.sheaf = some k := fun x hx new h => t3 x hx new ((hout x hx).symm.trans h)
    have hdis : ∀ x ∈ g, x ∉ l.flatten := fun x hx hm => by
      obtain ⟨g', hg', hx'⟩ := List.mem_flatten.1 hm
      exact hgl g' hg' x hx x hx' rfl
    have hmix : ∀ x ∈ g, ∀ y ∈ l.flatten, ∀ a b, getThread s2 ci x.2 = some a → getThread s2 ci y.2 = some b → a.sheaf ≠ b.sheaf ∧ ¬∃ g' ∈ g :: l, x ∈ g' ∧ y ∈ g' :=
      fun x hx y hy a b ha hb => by
      obtain ⟨k', hk', hf⟩ := hi.fresh y hy b hb
      refine ⟨fun he => hf ?_, fun ⟨g', hg', hx', hy'⟩ => ?_⟩
      · rw [hnew x hx a ha, hk'] at he
        exact Option.some.inj he ▸ e1
      · rcases List.mem_cons.1 hg' with rfl | hg'
        · exact hdis y hy' hy
        · exact hdis x hx (List.mem_flatten.2 ⟨g', hg', hx'⟩)
    have hcons : ∀ {x}, x ∈ (g :: l).flatten ↔ x ∈ g ∨ x ∈ l.flatten := by simp
    refine ⟨htame.trans hi.tame, fun t ht => ?_, fun g' hg' x hx th h => ?_, fun x hx new h => ?_, fun x hx y hy a b ha hb => ?_⟩
    · rw [List.flatten_cons, List.map_append, List.mem_append, not_or] at ht
      exact (hi.other t ht.2).trans (t1 t ht.1)
    · rcases List.mem_cons.1 hg' with rfl | hg'
      · rw [hout x hx]
        exact t2 x hx th h
      · exact hi.seated g' hg' x hx th ((hkeep x (List.mem_flatten.2 ⟨g', hg', hx⟩)).trans h)
    · rcases hcons.1 hx with hx | hx
      · exact ⟨k, hnew x hx new h, f1⟩
      · obtain ⟨k', hk', hf⟩ := hi.fresh x hx new h
        exact ⟨k', hk', fun hm => hf (e2 k' hm)⟩
    · rcases hcons.1 hx with hxg | hxl <;> rcases hcons.1 hy with hyg | hyl
      · rw [hnew x hxg a ha, hnew y hyg b hb]
        exact iff_of_true rfl ⟨g, List.mem_cons_self, hxg, hyg⟩
      · exact iff_of_false (hmix x hxg y hyl a b ha hb).1 (hmix x hxg y hyl a b ha hb).2
      · obtain ⟨h1, h2⟩ := hmix y hyg x hxl b a hb ha
        exact iff_of_false (Ne.symm h1) fun ⟨g', hg', hx', hy'⟩ => h2 ⟨g', hg', hy', hx'⟩
      · rw [hi.same x hxl y hyl a b ha hb]
        refine ⟨fun ⟨g', hg', h⟩ => ⟨g', List.mem_cons_of_mem _ hg', h⟩, fun ⟨g', hg', hx', hy'⟩ => ?_⟩
        rcases List.mem_cons.1 hg' with rfl | hg'
        · exact absurd hxl (hdis x hx')
        · exact ⟨g', hg', hx', hy'⟩
end
end Sys2Proof.Machine

/-! ### The commit of a `regroup` (R163) -/
namespace Sys2Proof.Machine
open Sys2Proof

/-- A thread with its registers' values in its own entries. -/
def carried (s : State) (ci t : Nat) (th : Thread) : Thread := { th with regs := tmap th.regs fun r x => { x with val := cellValue s ci t th r x } }
/-- The threads that move, under their new slots. -/
def movedThreads (s : State) (ci : Nat) (all : List (Nat × Nat)) : List (Nat × Thread) :=
  all.filterMap fun e => (tget (getCore s ci).threads e.1).map fun th => (e.2, carried s ci e.1 th)
/-- The sheaves that dissolve. -/
def oldSheaves (s : State) (ci : Nat) (all : List (Nat × Nat)) : List Nat := (all.filterMap fun e => (tget (getCore s ci).threads e.1).bind (·.sheaf)).eraseDups
/-- The state in which the threads stand in their new slots, in no sheaf. -/
def regroupBase (s : State) (ci plot role : Nat) (groups : List (List (Nat × Nat))) (tines : List (List Nat)) : State :=
  let c := getCore s ci
  let all := groups.flatten
  let f (t : Nat) : Nat := (tget all t).getD t
  let keep := c.threads.filter fun e => (tget all e.1).isNone
  let c := renameCore ci f { c with
    threads := (movedThreads s ci all).foldl (fun t e => tput t e.1 { e.2 with sheaf := none, rank := 0 }) keep
    sheaves := (oldSheaves s ci all).foldl tdel c.sheaves
    plots := tupd c.plots plot fun p =>
      if role = 4 then p
      else
        let held := p.home.foldl (fun t e => if e.2 = role then tput t e.1 role else t) (p.slots.filter fun e => e.2 != role)
        { p with slots := tines.flatten.foldl (fun t j => (List.range 4).foldl (fun t i => tput t (j * 4 + i) role) t) held } }
  let s1 := { putCore s ci c with reqs := tmap s.reqs fun _ r => renameReq ci f r }
  let s2 := updCluster s1 (clusterOf ci) fun k => { k with channels := tmap k.channels fun _ ch => renameChannel ci f ch }
  dropDeposits s2 ci fun x => (oldSheaves s ci all).contains x.sheaf
theorem regroupMove_eq (s : State) (ci plot role : Nat) (groups : List (List (Nat × Nat))) (tines : List (List Nat)) (d m : Nat) :
    regroupMove s ci plot role groups tines d m = groups.foldl (regroupStep ci plot role (movedThreads s ci groups.flatten) m d) (regroupBase s ci plot role groups tines) := rfl

theorem dropDeposits_core (s : State) (ci : Nat) (p : Deposit → Bool) : ∃ x, getCore (dropDeposits s ci p) ci = { getCore s ci with deposits := x } := by
  have h : ∀ (l : List Deposit) (s1 : State), getCore (l.foldl (fun s _ => emitR s (unitCore ci none) 0x0403 0) s1) ci = getCore s1 ci := fun l => by
    induction l with
    | nil => exact fun _ => rfl
    | cons x l ih => exact fun s1 => (ih _).trans ((emitR_same ..).getCore ci)
  exact ⟨_, (h _ _).trans (getCore_putCore_self ..)⟩
section
variable {s : State} {ci plot role : Nat} {groups : List (List (Nat × Nat))} {tines : List (List Nat)}

theorem regroupBase_core : (getCore (regroupBase s ci plot role groups tines) ci).threads
      = (movedThreads s ci groups.flatten).foldl (fun t e => tput t e.1 { e.2 with sheaf := none, rank := 0 })
        ((getCore s ci).threads.filter fun e => (tget groups.flatten e.1).isNone) ∧
    (getCore (regroupBase s ci plot role groups tines) ci).sheaves = (oldSheaves s ci groups.flatten).foldl tdel (getCore s ci).sheaves ∧
    (getCore (regroupBase s ci plot role groups tines) ci).fsbase = (getCore s ci).fsbase ∧
    (regroupBase s ci plot role groups tines).bad = s.bad ∧ (regroupBase s ci plot role groups tines).cur = s.cur := by
  obtain ⟨s2, p, he, c, h2, h3, h4, h5, h6, h7⟩ : ∃ s2 p, regroupBase s ci plot role groups tines = dropDeposits s2 ci p ∧ ∃ c, getCore s2 ci = c ∧ c.threads =
      (movedThreads s ci groups.flatten).foldl (fun t e => tput t e.1 { e.2 with sheaf := none, rank := 0 })
        ((getCore s ci).threads.filter fun e => (tget groups.flatten e.1).isNone) ∧
      c.sheaves = (oldSheaves s ci groups.flatten).foldl tdel (getCore s ci).sheaves ∧ c.fsbase = (getCore s ci).fsbase ∧ s2.bad = s.bad ∧ s2.cur = s.cur :=
    ⟨_, _, rfl, _, getCore_putCore_self .., rfl, rfl, rfl, rfl, rfl⟩
  obtain ⟨x, hx⟩ := dropDeposits_core s2 ci p
  have ht := dropDeposits_tame ci s2 p
  rw [he, hx, h2]
  exact ⟨h3, h4, h5, ht.bad.trans h6, ht.cur.trans h7⟩
theorem movedThreads_keys (all : List (Nat × Nat)) : ((movedThreads s ci all).map (·.1)).Sublist (all.map (·.2)) := by
  induction all with
  | nil => exact .slnil
  | cons e all ih =>
    unfold movedThreads at ih ⊢
    rw [List.filterMap_cons]
    cases tget (getCore s ci).threads e.1 with
    | none => exact ih.cons _
    | some th => exact ih.cons_cons _
/-- A thread that moves stands in its new slot with its registers' values. -/
theorem regroupBase_thread (hn : (groups.flatten.map (·.2)).Nodup) {x : Nat × Nat} (hx : x ∈ groups.flatten) {th : Thread} (h : getThread s ci x.1 = some th) :
    getThread (regroupBase s ci plot role groups tines) ci x.2 = some { carried s ci x.1 th with sheaf := none, rank := 0 } := by
  have hk : ((movedThreads s ci groups.flatten).map (·.1)).Nodup := hn.sublist (movedThreads_keys _)
  have hm : (x.2, carried s ci x.1 th) ∈ movedThreads s ci groups.flatten := List.mem_filterMap.2 ⟨x, hx, by rw [show tget (getCore s ci).threads x.1 = some th from h]; rfl⟩
  rw [getThread, regroupBase_core.1]
  exact tget_foldl_tput (fun e : Nat × Thread => ({ e.2 with sheaf := none, rank := 0 } : Thread)) hk hm _
theorem tkeys_foldl_tdel {α : Type} (l : List Nat) (t : Tbl α) : tkeys (l.foldl tdel t) = (tkeys t).filter fun k => !l.contains k := by
  induction l generalizing t with
  | nil => exact (List.filter_eq_self.2 fun _ _ => rfl).symm
  | cons k l ih =>
    rw [List.foldl_cons, ih]
    unfold tdel tkeys
    rw [List.filter_map, List.filter_map, List.filter_filter]
    refine congrArg (List.map _) (List.filter_congr fun e _ => ?_)
    dsimp only [Function.comp]
    rw [List.contains_cons, Bool.not_or, Bool.and_comm]
    rfl
/-- The entries of an issue slot that stay taken are those of no thread that moves. -/
theorem regroupBase_entries {p : Nat → Bool} (hp : ∀ k, (∀ x ∈ groups.flatten, ∀ th, getThread s ci x.1 = some th → th.sheaf ≠ some k) → p k = true) (q : Nat) :
    (slotSheaves (getCore (regroupBase s ci plot role groups tines) ci) q).length ≤ ((tkeys (getCore s ci).sheaves).filter fun k => k / 64 == q && p k).length := by
  unfold slotSheaves
  rw [regroupBase_core.2.1, tkeys_foldl_tdel, List.filter_filter, ← List.countP_eq_length_filter, ← List.countP_eq_length_filter]
  refine List.countP_mono_left fun k _ h => ?_
  rw [Bool.and_eq_true] at h ⊢
  refine ⟨h.1, hp k fun x hx th hth hs => ?_⟩
  have hin : k ∈ oldSheaves s ci groups.flatten := List.mem_eraseDups.2 (List.mem_filterMap.2 ⟨x, hx, by rw [show tget (getCore s ci).threads x.1 = some th from hth]; exact hs⟩)
  simp [hin] at h
end
end Sys2Proof.Machine

/-! ### `regroup` where the sheaves fit (R163, R251) -/
namespace Sys2Proof.Machine
open Sys2Proof

theorem tget_of_nodup {α : Type} {t : Tbl α} (h : (t.map (·.1)).Nodup) {e : Nat × α} (he : e ∈ t) : tget t e.1 = some e.2 := by
  induction t with
  | nil => exact absurd he List.not_mem_nil
  | cons x t ih =>
    obtain ⟨hx, ht⟩ := List.nodup_cons.1 h
    obtain ⟨j, w⟩ := x
    rcases List.mem_cons.1 he with rfl | hm
    · simp [tget]
    · have hne : j ≠ e.1 := fun h0 => hx (List.mem_map.2 ⟨e, hm, h0.symm⟩)
      simpa [tget, hne] using ih ht hm
/-- A place in a list of pairs is that of both halves. -/
theorem idxOf_snd {l : List (Nat × Nat)} (h1 : (l.map (·.1)).Nodup) (h2 : (l.map (·.2)).Nodup) {x : Nat × Nat} (hx : x ∈ l) :
    (l.map (·.2)).idxOf x.2 = (l.map (·.1)).idxOf x.1 := by
  obtain ⟨i, hi, rfl⟩ := List.getElem_of_mem hx
  have e1 := h1.idxOf_getElem i (by rwa [List.length_map])
  have e2 := h2.idxOf_getElem i (by rwa [List.length_map])
  rw [List.getElem_map] at e1 e2
  rw [e1, e2]

section
variable {o : SyR1} {s : State} {pl ro z : Nat} {tines : List (List Nat)}

/-- The place of a participant among those of its key (R163). -/
def placeOf (o : SyR1) (s : State) (e : Nat × Thread) : Nat := (drillThreads (.regroup o) s).countP fun f => keyOf o f == keyOf o e && decide (f.1 < e.1)
/-- The place of a participant is that of its pair of slot and key. -/
theorem placeIn_placeOf (e : Nat × Thread) : placeIn ((drillThreads (.regroup o) s).map fun e => (e.1, keyOf o e)) (e.1, keyOf o e) = placeOf o s e := by
  unfold placeIn placeOf
  rw [List.countP_map]
  rfl
/-- The new slots of the participants. -/
def newSlots (o : SyR1) (s : State) (z : Nat) (tines : List (List Nat)) : List (List (Nat × Nat)) := newTids (newSheaves o s z) tines
/-- A participant with its new slot. -/
structure Moves (o : SyR1) (s : State) (z : Nat) (tines : List (List Nat)) (e : Nat × Thread) (x : Nat × Nat) : Prop where
  mem : x ∈ (newSlots o s z tines).flatten
  old : x.1 = e.1
/-- What a `regroup` that fits has planned and placed. -/
structure Fits (o : SyR1) (s : State) (pl ro z : Nat) (tines : List (List Nat)) : Prop where
  gathered : Gathered o s pl ro
  slots : s.cur.tids.Nodup
  pos : 0 < z
  plan : Planned z ((drillThreads (.regroup o) s).map fun e => (e.1, keyOf o e)) (newSheaves o s z)
  seats : Seats ((drillThreads (.regroup o) s).map (·.1)) (getCore s s.cur.core) (newSlots o s z tines)
  fst : (newSlots o s z tines).map (fun d => d.map (·.1)) = newSheaves o s z
theorem Gathered.fits (h : Gathered o s pl ro) (hn : s.cur.tids.Nodup) (hz : 0 < z) (ht : newTines o s pl ro z = some tines) : Fits o s pl ro z tines := by
  have hl : (((drillThreads (.regroup o) s).map fun e => (e.1, keyOf o e)).map (·.1)).Nodup := by
    rw [List.map_map]
    exact drillThreads_nodup hn
  have hp : Planned z ((drillThreads (.regroup o) s).map fun e => (e.1, keyOf o e)) (newSheaves o s z) := regroupPlan_planned hl (fun e he => by
    obtain ⟨x, hx, rfl⟩ := List.mem_map.1 he
    exact (h.each x hx).1) hz
  obtain ⟨h1, h2, -⟩ := placeAll_seats hp.some1 ht
  exact ⟨h, hn, hz, hp, h1, h2⟩

section
variable (h : Fits o s pl ro z tines)
include h
theorem Fits.fsts : (newSlots o s z tines).flatten.map (·.1) = (newSheaves o s z).flatten := by rw [List.map_flatten, h.fst]
theorem Fits.nodup : ((newSlots o s z tines).flatten.map (·.1)).Nodup := h.fsts ▸ h.plan.apart
theorem Fits.moves {e : Nat × Thread} (he : e ∈ drillThreads (.regroup o) s) : ∃ x, Moves o s z tines e x := by
  have hm : e.1 ∈ (newSlots o s z tines).flatten.map (·.1) := by
    rw [h.fsts, h.plan.mem, List.map_map]
    exact List.mem_map_of_mem (f := (·.1)) he
  obtain ⟨x, hx, hxe⟩ := List.mem_map.1 hm
  exact ⟨x, hx, hxe⟩
theorem Fits.moved {x : Nat × Nat} (hx : x ∈ (newSlots o s z tines).flatten) : ∃ e ∈ drillThreads (.regroup o) s, e.1 = x.1 := by
  have hm : x.1 ∈ (newSheaves o s z).flatten := h.fsts ▸ List.mem_map_of_mem hx
  rw [h.plan.mem, List.map_map] at hm
  obtain ⟨e, he, hex⟩ := List.mem_map.1 hm
  exact ⟨e, he, hex⟩
/-- A new slot looked up. -/
theorem Fits.lookup {e : Nat × Thread} {x : Nat × Nat} (hx : Moves o s z tines e x) : tget (newSlots o s z tines).flatten e.1 = some x.2 :=
  hx.old ▸ tget_of_nodup h.nodup hx.mem
/-- No two participants get one slot. -/
theorem Fits.inj {e g : Nat × Thread} {x y : Nat × Nat} (hx : Moves o s z tines e x) (hy : Moves o s z tines g y) (he : x.2 = y.2) : e.1 = g.1 := by
  rw [← hx.old, ← hy.old, List.inj_on_of_nodup_map h.seats.nodup hx.mem hy.mem he]
/-- The threads of one new sheaf have one key, and Z places in a row; in it they rank by place. -/
theorem Fits.run {d : List (Nat × Nat)} (hd : d ∈ newSlots o s z tines) : ∃ k c, ∀ e x, e ∈ drillThreads (.regroup o) s → Moves o s z tines e x →
    (x ∈ d ↔ keyOf o e = k ∧ placeOf o s e / z = c) ∧ (x ∈ d → (d.map (·.2)).idxOf x.2 = placeOf o s e % z) := by
  have hg : d.map (·.1) ∈ newSheaves o s z := h.fst ▸ List.mem_map_of_mem hd
  have hdn : (d.map (·.1)).Nodup := (List.nodup_flatten.1 h.plan.apart).1 _ hg
  obtain ⟨k, c, hr⟩ := h.plan.run _ hg
  refine ⟨k, c, fun e x he hx => ?_⟩
  have hin : x ∈ d ↔ e.1 ∈ d.map (·.1) := by
    rw [← hx.old]
    refine ⟨fun hm => List.mem_map_of_mem hm, fun hm => ?_⟩
    obtain ⟨y, hy, hyx⟩ := List.mem_map.1 hm
    exact List.inj_on_of_nodup_map h.nodup (List.mem_flatten.2 ⟨d, hd, hy⟩) hx.mem hyx ▸ hy
  obtain ⟨r1, r2⟩ := hr (e.1, keyOf o e) (List.mem_map_of_mem (f := fun e => (e.1, keyOf o e)) he)
  rw [placeIn_placeOf] at r1 r2
  refine ⟨hin.trans r1, fun hm => ?_⟩
  rw [idxOf_snd hdn (h.seats.inj d hd) hm, hx.old]
  exact r2 (hin.1 hm)
/-- Two participants stand in one new sheaf exactly where their keys and their runs agree. -/
theorem Fits.same {e g : Nat × Thread} {x y : Nat × Nat} (he : e ∈ drillThreads (.regroup o) s) (hg : g ∈ drillThreads (.regroup o) s) (hx : Moves o s z tines e x)
    (hy : Moves o s z tines g y) : (∃ d ∈ newSlots o s z tines, y ∈ d ∧ x ∈ d) ↔ keyOf o g = keyOf o e ∧ placeOf o s g / z = placeOf o s e / z := by
  constructor
  · rintro ⟨d, hd, hyd, hxd⟩
    obtain ⟨k, c, hr⟩ := h.run hd
    obtain ⟨h1, h2⟩ := (hr e x he hx).1.1 hxd
    obtain ⟨h3, h4⟩ := (hr g y hg hy).1.1 hyd
    exact ⟨h3.trans h1.symm, h4.trans h2.symm⟩
  · rintro ⟨h1, h2⟩
    obtain ⟨d, hd, hxd⟩ := List.mem_flatten.1 hx.mem
    obtain ⟨k, c, hr⟩ := h.run hd
    obtain ⟨h3, h4⟩ := (hr e x he hx).1.1 hxd
    exact ⟨d, hd, (hr g y hg hy).1.2 ⟨h1.trans h3, h2.trans h4⟩, hxd⟩
theorem Fits.rank {e : Nat × Thread} {x : Nat × Nat} (he : e ∈ drillThreads (.regroup o) s) (hx : Moves o s z tines e x) : ∃ d ∈ newSlots o s z tines, x ∈ d ∧
    (d.map (·.2)).idxOf x.2 = placeOf o s e % z := by
  obtain ⟨d, hd, hxd⟩ := List.mem_flatten.1 hx.mem
  obtain ⟨k, c, hr⟩ := h.run hd
  exact ⟨d, hd, hxd, (hr e x he hx).2 hxd⟩
end

/-! ### The state after the commit -/

/-- The state in which the participants have set out. -/
def setsOut (o : SyR1) (s : State) : State := updThreads s s.cur.core ((drillThreads (.regroup o) s).map (·.1)) (setOut o s)
theorem setOut_regs {th : Thread} {r : Nat} (hr : r ∉ lastRegs (.regroup o)) : tget (setOut o s th).regs r = tget th.regs r := by
  refine (tget_filter th.regs (fun k => !(lastRegs (.regroup o)).contains k) r).trans (if_pos ?_)
  simpa using hr
theorem setsOut_core : getCore (setsOut o s) s.cur.core = { getCore s s.cur.core with
    threads := tmap (getCore s s.cur.core).threads fun t th => if ((drillThreads (.regroup o) s).map (·.1)).contains t then setOut o s th else th } := getCore_putCore_self ..
theorem setsOut_cellValue {ci t r : Nat} {th : Thread} {x : RegCell} (hci : ci = s.cur.core) : cellValue (setsOut o s) ci t (setOut o s th) r x = cellValue s ci t th r x := by
  subst hci
  unfold cellValue
  rw [setsOut_core]
  rfl
theorem setsOut_thread {e : Nat × Thread} (he : e ∈ drillThreads (.regroup o) s) {th : Thread} (ht : getThread s s.cur.core e.1 = some th) :
    getThread (setsOut o s) s.cur.core e.1 = some (setOut o s th) := by
  refine (getThread_updThreads ..).trans ?_
  rw [ht, Option.map_some, if_pos (List.contains_iff_mem.2 (List.mem_map_of_mem (f := (·.1)) he))]
section
variable (h : Fits o s pl ro z tines)
include h
/-- The commit's new sheaves get entries of their own. -/
theorem Fits.fills (hq : ∀ q, ((tkeys (getCore s s.cur.core).sheaves).filter fun k => k / 64 == q && (drillThreads (.regroup o) s).all fun e => e.2.sheaf != some k).length ≤ 48) :
    Fills s.cur.core (drillThreads (.regroup o) s).length o.d.toNat (newSlots o s z tines)
      (regroupBase (setsOut o s) s.cur.core pl ro (newSlots o s z tines) tines) (regrouped o s pl ro z tines) := by
  unfold regrouped
  rw [regroupMove_eq]
  refine regroupSteps_fill h.seats.some1 (h.seats.apart.imp fun {x y} hxy a ha b hb he => hxy a ha b hb (by rw [he])) fun q => ?_
  have h1 := regroupBase_entries (s := setsOut o s) (ci := s.cur.core) (plot := pl) (role := ro) (groups := newSlots o s z tines) (tines := tines)
    (p := fun k => (drillThreads (.regroup o) s).all fun e => e.2.sheaf != some k) (fun k hk => List.all_eq_true.2 fun e he => ?_) q
  · have h2 := hq q
    have h3 := h.seats.slot_le q
    rw [setsOut_core] at h1
    exact Nat.le_trans (Nat.add_le_add (h1.trans h2) h3) (by decide)
  · obtain ⟨th0, h0, hu, -, -, -⟩ := h.gathered.thread he
    obtain ⟨x, hx⟩ := h.moves he
    obtain ⟨r, w, hrw⟩ := undefReads_eq s e.1 th0
    have hne := hk x hx.mem (setOut o s th0) (by rw [hx.old]; exact setsOut_thread he h0)
    rw [hu, hrw]
    exact bne_iff_ne.2 hne
/-- A participant after the commit: a member of its new sheaf, waiting to be moved, its registers' values its own (R163). -/
theorem Fits.commits (hq : ∀ q, ((tkeys (getCore s s.cur.core).sheaves).filter fun k => k / 64 == q && (drillThreads (.regroup o) s).all fun e => e.2.sheaf != some k).length ≤ 48)
    {e : Nat × Thread} {x : Nat × Nat} (he : e ∈ drillThreads (.regroup o) s) (hx : Moves o s z tines e x) {th : Thread} (ht : getThread s s.cur.core e.1 = some th) :
    ∃ new, getThread (regrouped o s pl ro z tines) s.cur.core x.2 = some new ∧
      Seated (drillThreads (.regroup o) s).length o.d.toNat (placeOf o s e % z) { carried (setsOut o s) s.cur.core e.1 (setOut o s th) with sheaf := none, rank := 0 } new := by
  obtain ⟨d, hd, hxd, hr⟩ := h.rank he hx
  rw [← hr]
  refine (h.fills hq).seated d hd x hxd _ ?_
  rw [← hx.old]
  exact regroupBase_thread h.seats.nodup hx.mem (by rw [hx.old]; exact setsOut_thread he ht)
theorem Fits.ok (hq : ∀ q, ((tkeys (getCore s s.cur.core).sheaves).filter fun k => k / 64 == q && (drillThreads (.regroup o) s).all fun e => e.2.sheaf != some k).length ≤ 48)
    (hok : SpillsOk s s.cur.core) : SpillsOk (regrouped o s pl ro z tines) s.cur.core := by
  obtain ⟨-, -, h1, h2, -⟩ := regroupBase_core (s := setsOut o s) (ci := s.cur.core) (plot := pl) (role := ro) (groups := newSlots o s z tines) (tines := tines)
  exact (h.fills hq).tame.ok (hok.of (by rw [h1, setsOut_core]) h2)
end
end
end Sys2Proof.Machine

/-! ### The participants as they wait to be moved (R163, R251) -/
namespace Sys2Proof.Machine
open Sys2Proof

/-- The end of a drill that has moved threads: banks are settled, the supplier moves with its thread, the pipe is occupied. -/
def settledMove (old : Core) (cur : Drill) (s2 : State) (tids : List Nat) (keep : Nat → List Nat) (k sup n e : Nat) : State :=
  let x := settleBanks old s2 cur.core tids keep k
  let s4 := updThreads x.1 cur.core tids fun th => { th with lastUse := [], eligible := e }
  drillDone { s4 with cur := { s4.cur with sup := sup } } n
theorem settledMove_thread {old : Core} {cur : Drill} {s2 : State} {tids : List Nat} {keep : Nat → List Nat} {k sup n e t : Nat} {w : Thread}
    (hok : SpillsOk s2 cur.core) (hcur : s2.cur = cur) (ht : t ∈ tids) (hw : getThread s2 cur.core t = some w) :
    ∃ y, Alike w y ∧ getThread (settledMove old cur s2 tids keep k sup n e) cur.core t = some { y with lastUse := [], eligible := e } := by
  unfold settledMove
  have hb : StaysS cur.core t s2 (settleBanks old s2 cur.core tids keep k).1 := (settleBanks_stays _ _ _ _ _ _ _ hok).stays
  have hbc : (settleBanks old s2 cur.core tids keep k).1.cur = cur := (settleBanks_quiet ..).cur.trans hcur
  dsimp only
  generalize (settleBanks old s2 cur.core tids keep k).1 = b at hb hbc
  obtain ⟨y, hy, hal⟩ := hb.out w hw
  refine ⟨y, hal, ?_⟩
  subst hbc
  refine (getThread_drillDone _ n t).trans ((getThread_updThreads b b.cur.core t tids _).trans ?_)
  rw [show getThread b b.cur.core t = some y from hy, Option.map_some, if_pos (List.contains_iff_mem.2 ht)]
/-- The state after a `regroup` that fits. -/
def regroupSettled (o : SyR1) (s : State) (pl ro z : Nat) (tines : List (List Nat)) (n e : Nat) : State :=
  settledMove { getCore s s.cur.core with threads := [] } s.cur (regrouped o s pl ro z tines) ((newSlots o s z tines).flatten.map (·.2)) (fun _ => [o.d.toNat])
    (64 * (drillThreads (.regroup o) s).length) ((tget (newSlots o s z tines).flatten s.cur.sup).getD s.cur.sup) n e
section
variable {o : SyR1} {s : State} {pl ro z n ev : Nat} {tines : List (List Nat)} (h : Fits o s pl ro z tines)
  (hq : ∀ q, ((tkeys (getCore s s.cur.core).sheaves).filter fun k => k / 64 == q && (drillThreads (.regroup o) s).all fun e => e.2.sheaf != some k).length ≤ 48)
  (hok : SpillsOk s s.cur.core)
include h hq hok

theorem Fits.settles {x : Nat × Nat} (hx : x ∈ (newSlots o s z tines).flatten) {w : Thread} (hw : getThread (regrouped o s pl ro z tines) s.cur.core x.2 = some w) :
    ∃ y, Alike w y ∧ getThread (regroupSettled o s pl ro z tines n ev) s.cur.core x.2 = some { y with lastUse := [], eligible := ev } := by
  have hcur : (regrouped o s pl ro z tines).cur = s.cur := (h.fills hq).tame.cur.trans
    (regroupBase_core (s := setsOut o s) (ci := s.cur.core) (plot := pl) (role := ro) (groups := newSlots o s z tines) (tines := tines)).2.2.2.2
  have hok2 := h.ok hq hok
  exact settledMove_thread (h.ok hq hok) hcur (List.mem_map_of_mem (f := (·.2)) hx) hw
/-- A participant stands in its new slot and waits while it is moved. -/
theorem Fits.waits {e : Nat × Thread} {x : Nat × Nat} (he : e ∈ drillThreads (.regroup o) s) (hx : Moves o s z tines e x) :
    ∃ old new, getThread s s.cur.core e.1 = some old ∧ getThread (regroupSettled o s pl ro z tines n ev) s.cur.core x.2 = some new ∧ new.rank = placeOf o s e % z ∧
      new.nextPc = after s ∧ new.st = .waiting .moving ∧ new.moving = some ((drillThreads (.regroup o) s).length, o.d.toNat) ∧ new.prog = 0 ∧
      new.preds = old.preds ∧ new.age = old.age ∧ new.mode = old.mode ∧
      (∀ r, r ∉ lastRegs (.regroup o) → (tget new.regs r).map (·.val) = (tget old.regs r).map (cellValue s s.cur.core e.1 old r)) ∧
      ∀ g ∈ drillThreads (.regroup o) s, ∀ y, Moves o s z tines g y → ∀ other, getThread (regroupSettled o s pl ro z tines n ev) s.cur.core y.2 = some other →
        (other.sheaf = new.sheaf ↔ keyOf o g = keyOf o e ∧ placeOf o s g / z = placeOf o s e / z) := by
  obtain ⟨old, h0, -, -, -, -⟩ := h.gathered.thread he
  obtain ⟨w, hw, hs⟩ := h.commits hq he hx h0
  obtain ⟨y, hal, hy⟩ := h.settles (n := n) (ev := ev) hq hok hx.mem hw
  refine ⟨old, _, h0, hy, (hal.of Thread.rank fun _ => rfl).trans hs.rank, (hal.of Thread.nextPc fun _ => rfl).trans hs.nextPc, hal.st.trans hs.st,
    (hal.of Thread.moving fun _ => rfl).trans hs.moving, (hal.of Thread.prog fun _ => rfl).trans hs.prog, hal.preds.trans hs.preds,
    (hal.of Thread.age fun _ => rfl).trans hs.age, hal.mode.trans hs.mode, fun r hr => ?_, fun g hg v hv other ho => ?_⟩
  · refine (hal.val r).trans ((hs.val r).trans ?_)
    unfold carried
    dsimp only
    rw [tget_tmap, setOut_regs hr, Option.map_map]
    exact congrArg (fun f => Option.map f (tget old.regs r)) (funext fun c => setsOut_cellValue rfl)
  · obtain ⟨old2, h2, -, -, -, -⟩ := h.gathered.thread hg
    obtain ⟨w2, hw2, -⟩ := h.commits hq hg hv h2
    obtain ⟨y2, hal2, hy2⟩ := h.settles (n := n) (ev := ev) hq hok hv.mem hw2
    rw [← Option.some.inj (hy2.symm.trans ho)]
    refine (Iff.of_eq ?_).trans (h.same he hg hx hv)
    rw [show ({ y2 with lastUse := [], eligible := ev } : Thread).sheaf = w2.sheaf from hal2.sheaf,
      show ({ y with lastUse := [], eligible := ev } : Thread).sheaf = w.sheaf from hal.sheaf]
    exact propext ((h.fills hq).same v hv.mem x hx.mem w2 w hw2 hw)
end
/-- Only a `regroup` is a collective of kind 1. -/
theorem collKind_ne {i : Instr} {kind : Nat} (hi : collKind i = some kind) (h : ∀ o, i ≠ .regroup o) : kind ≠ 1 := by
  rintro rfl
  unfold collKind at hi
  split at hi
  case h_1 o => exact h o rfl
  case h_14 => split at hi <;> simp at hi
  all_goals simp at hi
theorem arrivalFault_none {i : Instr} {kind : Nat} {s : State} {c : Core} {th : Thread} (hi : collKind i = some kind)
    (hf : kind ≠ 1 → (if actOn i th then preFault i s [] th else offFault i c false th) = none)
    (hr : ∀ o, i = .regroup o → emptyTrap th (reads i) = none ∧ regroupCheck s.cur.core c th o.d.toNat (lastRegs i) = none) : arrivalFault i s c th = none := by
  unfold arrivalFault
  split
  · next o =>
    obtain ⟨h1, h2⟩ := hr o rfl
    rw [h1]
    exact h2
  · next hno => exact hf (collKind_ne hi hno)
theorem exec_regroup {o : SyR1} {s : State} (hc : s.cur.coll = true) : exec (.regroup o) s = .next (regroupRun o s) := congrArg Host.Outcome.next (if_pos hc)
end Sys2Proof.Machine

section
open Sys2Proof Sys2Proof.Machine

/-- Settles O37: arrivals, the shapes' drills, and a `regroup` that places its sheaves or faults. -/
theorem shapesAndRegroups : Obligations.ShapesAndRegroups := by
  unfold Obligations.ShapesAndRegroups
  refine ⟨⟨fun i kind s t th hi hc _ hd hj => ⟨fun hf hr hm => arrival_waits hi hc hd hj hm (arrivalFault_none hi hf hr), fun p hm hf _ hs => arrival_mismatch hi hc hd hj hm hf hs⟩, shape_reads,
    fun o s t th h hu => expand_becomes h hu, fun o s t u th lead h hu hl => bcast_leads h hu hl, iota_computes⟩,
    fun o s pl ro hc _ hn => ?_, fun s ci t m d th hW h0 hst hm hs hf hok => moveOn_becomes hW h0 hst hm hs hf hok⟩
  intro i ci c ms z key place fit h1 _ h3 _ hq
  have hg : Gathered o s pl ro := ⟨h1, h3⟩
  have hz : 0 < z := by omega
  obtain ⟨r1, r2⟩ := hg.run z rfl
  refine ⟨fun tines ht hok => ?_, fun hno hf _ => ?_⟩
  · obtain ⟨n, ev, hrun⟩ := r1 tines ht
    have hfit := hg.fits hn hz ht
    refine ⟨regroupSettled o s pl ro z tines n ev, fun t => (tget (newSlots o s z tines).flatten t).getD t, ?_, fun e he g hg' hfe => ?_, fun e he => ?_⟩
    · rw [exec_regroup hc, hrun]
      rfl
    · obtain ⟨x, hx⟩ := hfit.moves he
      obtain ⟨y, hy⟩ := hfit.moves hg'
      dsimp only at hfe
      rw [hfit.lookup hx, hfit.lookup hy] at hfe
      exact hfit.inj hx hy hfe
    · obtain ⟨x, hx⟩ := hfit.moves he
      obtain ⟨old, new, h0, hnew, w1, w2, w3, w4, w5, w6, w7, w8, w9, w10⟩ := hfit.waits (n := n) (ev := ev) hq hok he hx
      refine ⟨old, new, h0, ?_, w1, w2, w3, w4, w5, w6, w7, w8, w9, fun g hg' other ho => ?_⟩
      · dsimp only
        rw [hfit.lookup hx]
        exact hnew
      · obtain ⟨y, hy⟩ := hfit.moves hg'
        dsimp only at ho
        rw [hfit.lookup hy] at ho
        exact w10 g hg' y hy other ho
  · obtain ⟨n, hrun⟩ := r2 hno
    refine ⟨_, (exec_regroup hc).trans (congrArg _ hrun), fun e he => hg.fails hn hf rfl he⟩
end
